-- ==== Sys2Proof/Word.lean ====
section
/-! DEFINITION. The word types of the LX9: bytes, 64-bit words, lane masks, and the 32-bit code parcels. -/

namespace Sys2Proof

/-- A byte of memory. -/
abbrev Byte := BitVec 8

/-- A 64-bit register word (Table 0.1). -/
abbrev Word := BitVec 64

/-- A set of the 32 lanes of a wave, bit L for lane L (R18). -/
abbrev LaneMask := BitVec 32

/-- A 32-bit parcel of code (R113). -/
abbrev Parcel := BitVec 32

/-- An 11-bit register or operand field (R117). -/
abbrev Field11 := BitVec 11

end Sys2Proof
end

