-- ==== Sys2Proof/Syntax.lean ====
section
/-! DEFINITION. The instruction set as syntax: one constructor of Instr per row of the opcode table. Wave instructions carry their
operand fields (Tables 9.2, 9.3, 11.1, 13.1, 15.1, 21.1); compact forms carry the fields of Table 9.2; the rows that are steps of the
device rather than encoded instructions carry the data the outside supplies. Register numbers are kept as the 11-bit fields of the
encoding, because a register out of range is a matter of execution (REG_RANGE, R123), not of decoding. -/

namespace Sys2Proof

/-- Type codes (Table 9.5). -/
inductive Ty where
  | f64 | f32 | f16 | bf16 | f8e4 | f8e5 | cb4
  | i8 | i16 | i32 | i64 | n8 | n16 | n32 | n64 | b8 | b16 | b32 | b64
  deriving DecidableEq, Repr

/-- The rounding field RMO of a TY word (R120): `mode` takes RM. -/
inductive Rmo where
  | mode | rne | rtz | rup | rdn
  deriving DecidableEq, Repr

/-- Compare conditions CND (R120). -/
inductive Cnd where
  | eq | ne | lt | le | gt | ge | unord | ord
  deriving DecidableEq, Repr

/-- Orderings SEM of a MEM word (R121). -/
inductive Sem where
  | plain | acq | rel | ar | sc
  deriving DecidableEq, Repr

/-- Scopes SCP (R121, Table 5.4). -/
inductive Scp where
  | wave | group | crew | dev | dom | sys
  deriving DecidableEq, Repr

/-- A MEM word (R121). -/
structure MemW where
  sem : Sem
  scp : Scp
  ty : Ty
  deriving DecidableEq, Repr

/-- The head of a predicated instruction: predicate mask register and stall count (R117). -/
structure Hd where
  mask : BitVec 3
  stall : BitVec 4
  deriving DecidableEq, Repr

/-- Operand b of a class 1 instruction: a scalar register or a literal. -/
inductive SB where
  | reg (b : Field11) | lit (v : BitVec 32)
  deriving DecidableEq, Repr

/-- Operand b of a class 2 or 3 instruction: vector, scalar under BS, or literal (R147). -/
inductive VB where
  | vec (b : Field11) | sca (b : Field11) | lit (v : BitVec 32)
  deriving DecidableEq, Repr

/-- A branch target: the short offset of field C or a literal (R153). -/
inductive Tgt where
  | short (c : Field11) | far (v : BitVec 32)
  deriving DecidableEq, Repr

/-- The address offset: absent in a 64-bit form, a literal in a 96-bit form (R129). -/
inductive Off where
  | none | lit (v : BitVec 32)
  deriving DecidableEq, Repr

/-- Where a tensor shape record is: a memory record whose address is in a scalar register, or inline (R133, R209). -/
inductive Rec where
  | mem (c : BitVec 7) | inl (bits : BitVec 128)
  deriving DecidableEq, Repr

/-- A completion word (Table 13.7). -/
structure Cw where
  bo : Bool
  sreg : BitVec 7
  deriving DecidableEq, Repr

structure BrF where
  neg : Bool
  cond : BitVec 3
  tgt : Tgt
  stall : BitVec 4
  deriving DecidableEq, Repr
structure BrDF where
  neg : Bool
  cond : BitVec 3
  rej : BitVec 22
  tgt : Tgt
  stall : BitVec 4
  deriving DecidableEq, Repr
structure BrxF where
  neg : Bool
  cond : BitVec 3
  a : Field11
  stall : BitVec 4
  deriving DecidableEq, Repr
structure CallF where
  d : Field11
  tgt : Tgt
  stall : BitVec 4
  deriving DecidableEq, Repr
structure RetF where
  a : Field11
  stall : BitVec 4
  deriving DecidableEq, Repr
structure NopF where
  stall : BitVec 4
  deriving DecidableEq, Repr
structure BrkF where
  code : Field11
  stall : BitVec 4
  deriving DecidableEq, Repr

structure SBinSatF where
  h : Hd
  d : Field11
  a : Field11
  b : SB
  ty : Ty
  sat : Bool
  deriving DecidableEq, Repr
structure SBinF where
  h : Hd
  d : Field11
  a : Field11
  b : SB
  ty : Ty
  deriving DecidableEq, Repr
structure SUnF where
  h : Hd
  d : Field11
  a : Field11
  ty : Ty
  deriving DecidableEq, Repr
structure SMovF where
  h : Hd
  d : Field11
  b : SB
  ty : Ty
  deriving DecidableEq, Repr
structure SCmpF where
  h : Hd
  d : Field11
  a : Field11
  b : SB
  ty : Ty
  cnd : Cnd
  deriving DecidableEq, Repr
structure SSelF where
  h : Hd
  d : Field11
  a : Field11
  b : SB
  c : BitVec 7
  deriving DecidableEq, Repr

structure VBinSatF where
  h : Hd
  d : Field11
  a : Field11
  b : VB
  ty : Ty
  sat : Bool
  deriving DecidableEq, Repr
structure VBinF where
  h : Hd
  d : Field11
  a : Field11
  b : VB
  ty : Ty
  deriving DecidableEq, Repr
structure VUnSatF where
  h : Hd
  d : Field11
  a : Field11
  ty : Ty
  sat : Bool
  deriving DecidableEq, Repr
structure VUnF where
  h : Hd
  d : Field11
  a : Field11
  ty : Ty
  deriving DecidableEq, Repr
structure VMovF where
  h : Hd
  d : Field11
  b : VB
  ty : Ty
  deriving DecidableEq, Repr
structure VCmpF where
  h : Hd
  d : Field11
  a : Field11
  b : VB
  ty : Ty
  cnd : Cnd
  deriving DecidableEq, Repr
structure VSelF where
  h : Hd
  d : Field11
  a : Field11
  b : VB
  c : BitVec 3
  deriving DecidableEq, Repr
structure MadF where
  h : Hd
  d : Field11
  a : Field11
  bs : Bool
  b : Field11
  c : Field11
  deriving DecidableEq, Repr
structure FBinF where
  h : Hd
  d : Field11
  a : Field11
  b : VB
  ty : Ty
  rmo : Rmo
  deriving DecidableEq, Repr
structure FUnRF where
  h : Hd
  d : Field11
  a : Field11
  ty : Ty
  rmo : Rmo
  deriving DecidableEq, Repr
structure CvtF where
  h : Hd
  d : Field11
  a : Field11
  src : Ty
  dst : Ty
  rmo : Rmo
  sat : Bool
  deriving DecidableEq, Repr
structure CbDecF where
  h : Hd
  d : Field11
  a : Field11
  deriving DecidableEq, Repr
structure XlF where
  h : Hd
  z : Bool
  d : Field11
  a : Field11
  b : Field11
  ty : Ty
  deriving DecidableEq, Repr
structure XlVoteF where
  h : Hd
  d : Field11
  a : Field11
  deriving DecidableEq, Repr
structure RedAddF where
  h : Hd
  d : Field11
  a : Field11
  ty : Ty
  rmo : Rmo
  deriving DecidableEq, Repr
structure XaClrF where
  h : Hd
  deriving DecidableEq, Repr
structure XaAddF where
  h : Hd
  a : Field11
  ty : Ty
  deriving DecidableEq, Repr
structure XaMacF where
  h : Hd
  a : Field11
  b : Field11
  ty : Ty
  deriving DecidableEq, Repr
structure XaRndF where
  h : Hd
  d : Field11
  ty : Ty
  rmo : Rmo
  sat : Bool
  deriving DecidableEq, Repr
structure XaGetF where
  h : Hd
  d : Field11
  c : Field11
  deriving DecidableEq, Repr
structure XaSetF where
  h : Hd
  a : Field11
  c : Field11
  deriving DecidableEq, Repr
structure XaMergeF where
  h : Hd
  a : Field11
  deriving DecidableEq, Repr
structure FDivF where
  h : Hd
  d : Field11
  a : Field11
  b : Field11
  ty : Ty
  rmo : Rmo
  deriving DecidableEq, Repr
structure TrapF where
  code : BitVec 16
  stall : BitVec 4
  deriving DecidableEq, Repr
structure SysSF where
  a : Field11
  stall : BitVec 4
  deriving DecidableEq, Repr
structure SysDF where
  d : Field11
  stall : BitVec 4
  deriving DecidableEq, Repr
structure SysIF where
  d : Field11
  idx : Field11
  stall : BitVec 4
  deriving DecidableEq, Repr

structure LdF where
  h : Hd
  d : Field11
  a : Field11
  mem : MemW
  off : Off
  deriving DecidableEq, Repr
structure StF where
  h : Hd
  a : Field11
  b : Field11
  mem : MemW
  off : Off
  deriving DecidableEq, Repr
structure PfF where
  h : Hd
  a : Field11
  off : Off
  deriving DecidableEq, Repr
structure AtF where
  h : Hd
  d : Field11
  a : Field11
  b : Field11
  mem : MemW
  off : Off
  deriving DecidableEq, Repr
structure AtBF where
  h : Hd
  d : Field11
  a : Field11
  b : Field11
  mem : MemW
  m : BitVec 3
  deriving DecidableEq, Repr
structure FenceF where
  h : Hd
  scp : Scp
  deriving DecidableEq, Repr
structure BareF where
  h : Hd
  deriving DecidableEq, Repr
structure BoF where
  h : Hd
  a : Field11
  b : Field11
  off : Off
  deriving DecidableEq, Repr
structure BoArriveF where
  h : Hd
  d : Field11
  a : Field11
  b : Field11
  off : Off
  deriving DecidableEq, Repr
structure LockF where
  h : Hd
  a : Field11
  scp : Scp
  off : Off
  deriving DecidableEq, Repr
structure LockTryF where
  h : Hd
  d : Field11
  a : Field11
  scp : Scp
  off : Off
  deriving DecidableEq, Repr
structure DqF where
  h : Hd
  d : Field11
  a : Field11
  b : Field11
  scp : Scp
  off : Off
  deriving DecidableEq, Repr
structure OwnSetF where
  h : Hd
  d : Field11
  a : Field11
  b : Field11
  off : Off
  deriving DecidableEq, Repr
structure OwnClrF where
  h : Hd
  a : Field11
  off : Off
  deriving DecidableEq, Repr
structure CpF where
  h : Hd
  cw : Cw
  a : Field11
  ity : Option Ty
  dsel : BitVec 2
  tsr : Rec
  deriving DecidableEq, Repr
structure MmaF where
  h : Hd
  ad : BitVec 4
  kx : BitVec 8
  ablk : BitVec 3
  bblk : BitVec 3
  deriving DecidableEq, Repr
structure AccClrF where
  h : Hd
  ad : BitVec 4
  mx : BitVec 4
  nx : BitVec 4
  ty : Ty
  deriving DecidableEq, Repr
structure AccLdF where
  h : Hd
  ad : BitVec 4
  ity : Option Ty
  tsr : Rec
  deriving DecidableEq, Repr
structure AccStF where
  h : Hd
  ad : BitVec 4
  cw : Cw
  sb : BitVec 7
  tsr : Rec
  deriving DecidableEq, Repr
structure AccMovF where
  h : Hd
  d : Field11
  a : Field11
  ad : BitVec 4
  deriving DecidableEq, Repr
structure FeedSkipF where
  h : Hd
  a : Field11
  fsel : Bool
  deriving DecidableEq, Repr
structure FeedMarkF where
  h : Hd
  d : Field11
  fsel : Bool
  deriving DecidableEq, Repr
structure CbLoadF where
  h : Hd
  tsel : Bool
  a : Field11
  deriving DecidableEq, Repr
structure SsmF where
  h : Hd
  cw : Cw
  a : Field11
  deriving DecidableEq, Repr
structure DA where
  h : Hd
  d : Field11
  a : Field11
  deriving DecidableEq, Repr
structure AOnly where
  h : Hd
  a : Field11
  deriving DecidableEq, Repr
structure ABF where
  h : Hd
  a : Field11
  b : Field11
  deriving DecidableEq, Repr
structure DAB where
  h : Hd
  d : Field11
  a : Field11
  b : Field11
  deriving DecidableEq, Repr
structure DOnly where
  h : Hd
  d : Field11
  deriving DecidableEq, Repr
structure SpawnF where
  h : Hd
  a : Field11
  b : Field11
  tgt : BitVec 32
  deriving DecidableEq, Repr
structure RegClF where
  h : Hd
  n : Field11
  deriving DecidableEq, Repr
structure BinEmitF where
  h : Hd
  d : Field11
  a : Field11
  b : Field11
  deriving DecidableEq, Repr
structure FragOutF where
  h : Hd
  d : Field11
  a : Field11
  b : Field11
  m : BitVec 3
  deriving DecidableEq, Repr
structure FragInitF where
  h : Hd
  d : Field11
  a : Field11
  m : BitVec 3
  deriving DecidableEq, Repr
structure RtTraceF where
  h : Hd
  a : Field11
  b : Field11
  c : BitVec 7
  deriving DecidableEq, Repr
structure RtReplayF where
  h : Hd
  b : Field11
  c : BitVec 7
  deriving DecidableEq, Repr

structure CompactF where
  d : BitVec 7
  a : BitVec 7
  b : BitVec 7
  stall : BitVec 2
  deriving DecidableEq, Repr
structure CompactDBF where
  d : BitVec 7
  b : BitVec 7
  stall : BitVec 2
  deriving DecidableEq, Repr
structure CompactNF where
  stall : BitVec 2
  deriving DecidableEq, Repr
structure CompactDAF where
  d : BitVec 7
  a : BitVec 7
  stall : BitVec 2
  deriving DecidableEq, Repr
structure CompactABF where
  a : BitVec 7
  b : BitVec 7
  stall : BitVec 2
  deriving DecidableEq, Repr

/-- A register written through the management processor's port (R299) or through BAR0 of a function (Table 23.1). -/
inductive RegPort where
  | coreCfg (core : Nat) | partState (core : Nat)
  | poolSpawn (core : Nat) | poolCont (core : Nat) | poolCopy (core : Nat) | poolReady (core : Nat)
  | feCfg | segCfg | balCfg | tenantBudget (t : Nat) | tenantUse (t : Nat)
  | cmdBase (func : Nat) | cmdLog2n (func : Nat) | cmdTail (func : Nat)
  deriving DecidableEq, Repr

/-- Atomic operations (Table 13.5). -/
inductive AtOp where
  | add | min | max | and | or | xor | exch | incWrap | addBound | cas
  deriving DecidableEq, Repr

/-- What a peer device asks of this device's memory (R58, R381). -/
inductive PeerOp where
  | load (bytes : Nat) | store (bytes : Nat) (value : Word) | atom (op : AtOp) (ty : Ty) (v w : Word)
  deriving DecidableEq, Repr

/-- A request received from a peer device: the issuer's domain tenant number and the window offset (R58). -/
structure PeerReq where
  member : Nat
  tenant : Nat
  offset : Nat
  op : PeerOp
  deriving DecidableEq, Repr

/-- The units that power-on self-test finds faulty (R384, R387). -/
structure SelfTest where
  cores : List Nat
  channels : List Nat
  lanes : List Nat
  deriving DecidableEq, Repr

/-- What the outside or the acting unit supplies to a step of the device: the unit, wave, group, core, ring or stream it concerns, the
function, and the values it brings. Each step reads only the fields its definition names. -/
structure Input where
  who : Nat := 0
  func : Nat := 0
  idx : Nat := 0
  value : BitVec 64 := 0
  frac : BitVec 32 := 0
  flag : Bool := false
  nonce : BitVec 256 := 0
  reg : RegPort := .feCfg
  req : PeerReq := { member := 0, tenant := 0, offset := 0, op := .load 1 }
  found : SelfTest := { cores := [], channels := [], lanes := [] }
  deriving DecidableEq, Repr

/-- The instructions and the steps of the device: one constructor per row of the opcode table. A step of the device takes its data from
State.input. -/
inductive Instr where
  | br (f : BrF)
  | brDiv (f : BrDF)
  | brEj (f : BrDF)
  | brx (f : BrxF)
  | call (f : CallF)
  | ret (f : RetF)
  | rejoin (f : NopF)
  | brk (f : BrkF)
  | exit (f : NopF)
  | nop (f : NopF)
  | scalarAdd (f : SBinSatF)
  | scalarSub (f : SBinSatF)
  | scalarMul (f : SBinF)
  | scalarMulhi (f : SBinF)
  | scalarDiv (f : SBinF)
  | scalarRem (f : SBinF)
  | scalarMin (f : SBinF)
  | scalarMax (f : SBinF)
  | scalarAnd (f : SBinF)
  | scalarOr (f : SBinF)
  | scalarXor (f : SBinF)
  | scalarNot (f : SUnF)
  | scalarShl (f : SBinF)
  | scalarShr (f : SBinF)
  | scalarCmp (f : SCmpF)
  | scalarSel (f : SSelF)
  | scalarMov (f : SMovF)
  | scalarClz (f : SUnF)
  | scalarPopc (f : SUnF)
  | vectorAdd (f : VBinSatF)
  | vectorSub (f : VBinSatF)
  | vectorMul (f : VBinF)
  | vectorMulhi (f : VBinF)
  | vectorMin (f : VBinF)
  | vectorMax (f : VBinF)
  | vectorAbs (f : VUnSatF)
  | vectorNeg (f : VUnSatF)
  | vectorAnd (f : VBinF)
  | vectorOr (f : VBinF)
  | vectorXor (f : VBinF)
  | vectorNot (f : VUnF)
  | vectorShl (f : VBinF)
  | vectorShr (f : VBinF)
  | vectorCmp (f : VCmpF)
  | vectorSel (f : VSelF)
  | vectorMov (f : VMovF)
  | vectorClz (f : VUnF)
  | vectorPopc (f : VUnF)
  | brev (f : VUnF)
  | bfe (f : VBinF)
  | madI32 (f : MadF)
  | madN32 (f : MadF)
  | madI64 (f : MadF)
  | madN64 (f : MadF)
  | fpAdd (f : FBinF)
  | fpSub (f : FBinF)
  | fpMul (f : FBinF)
  | fpMin (f : VBinF)
  | fpMax (f : VBinF)
  | fpAbs (f : VUnF)
  | fpNeg (f : VUnF)
  | fpCmp (f : VCmpF)
  | rint (f : FUnRF)
  | copysign (f : VBinF)
  | fclass (f : VUnF)
  | ldexp (f : FBinF)
  | fmaF64 (f : MadF)
  | fmaF32 (f : MadF)
  | fmaF16 (f : MadF)
  | fmaBf16 (f : MadF)
  | fnmaF64 (f : MadF)
  | fnmaF32 (f : MadF)
  | fnmaF16 (f : MadF)
  | fnmaBf16 (f : MadF)
  | cvt (f : CvtF)
  | pack (f : CvtF)
  | unpack (f : CvtF)
  | cbDec (f : CbDecF)
  | xlGet (f : XlF)
  | xlBcast (f : XlF)
  | xlShup (f : XlF)
  | xlShdn (f : XlF)
  | xlXor (f : XlF)
  | xlReorder (f : XlF)
  | xlVote (f : XlVoteF)
  | xlAny (f : XlVoteF)
  | xlAll (f : XlVoteF)
  | redLaneAdd (f : RedAddF)
  | redLaneMin (f : VUnF)
  | redLaneMax (f : VUnF)
  | redLaneAnd (f : VUnF)
  | redLaneOr (f : VUnF)
  | redLaneXor (f : VUnF)
  | scanLaneAdd (f : RedAddF)
  | scanLaneMin (f : VUnF)
  | scanLaneMax (f : VUnF)
  | scanLaneAnd (f : VUnF)
  | scanLaneOr (f : VUnF)
  | scanLaneXor (f : VUnF)
  | scanLaneAddEx (f : RedAddF)
  | scanLaneMinEx (f : VUnF)
  | scanLaneMaxEx (f : VUnF)
  | scanLaneAndEx (f : VUnF)
  | scanLaneOrEx (f : VUnF)
  | scanLaneXorEx (f : VUnF)
  | xaClr (f : XaClrF)
  | xaAdd (f : XaAddF)
  | xaMac (f : XaMacF)
  | xaRnd (f : XaRndF)
  | xaGet (f : XaGetF)
  | xaSet (f : XaSetF)
  | xaMerge (f : XaMergeF)
  | rcp (f : VUnF)
  | rsqrt (f : VUnF)
  | exp2 (f : VUnF)
  | log2 (f : VUnF)
  | sin (f : VUnF)
  | cos (f : VUnF)
  | fpDiv (f : FDivF)
  | sqrt (f : FUnRF)
  | trap (f : TrapF)
  | modeSet (f : SysSF)
  | modeGet (f : SysDF)
  | timeGet (f : SysDF)
  | csrGet (f : SysIF)
  | yield (f : NopF)
  | sleepUntil (f : SysSF)
  | perfGet (f : SysIF)
  | ld (f : LdF)
  | st (f : StF)
  | ldRo (f : LdF)
  | ldS (f : LdF)
  | stS (f : StF)
  | ldL (f : LdF)
  | stL (f : StF)
  | pf (f : PfF)
  | ldWf (f : LdF)
  | ldWfe (f : LdF)
  | stWe (f : StF)
  | stF (f : StF)
  | tagGet (f : LdF)
  | tagSet (f : StF)
  | atomAdd (f : AtF)
  | atomMin (f : AtF)
  | atomMax (f : AtF)
  | atomAnd (f : AtF)
  | atomOr (f : AtF)
  | atomXor (f : AtF)
  | atomExch (f : AtF)
  | atomIncWrap (f : AtF)
  | atomAddBound (f : AtBF)
  | atomCas (f : AtF)
  | redAdd (f : StF)
  | redMin (f : StF)
  | redMax (f : StF)
  | redAnd (f : StF)
  | redOr (f : StF)
  | redXor (f : StF)
  | redIncWrap (f : StF)
  | fenceAcq (f : FenceF)
  | fenceRel (f : FenceF)
  | fenceAr (f : FenceF)
  | fenceSc (f : FenceF)
  | roInv (f : BareF)
  | boInit (f : BoF)
  | boExpect (f : BoF)
  | boArrive (f : BoArriveF)
  | boWait (f : BoF)
  | lockAcq (f : LockF)
  | lockTry (f : LockTryF)
  | lockRel (f : LockF)
  | dqPush (f : DqF)
  | dqPop (f : DqF)
  | ownSet (f : OwnSetF)
  | ownClr (f : OwnClrF)
  | cpIn (f : CpF)
  | cpOut (f : CpF)
  | cpLl (f : CpF)
  | fenceRec (f : BareF)
  | mmaF64 (f : MmaF)
  | mmaF32 (f : MmaF)
  | mmaF16 (f : MmaF)
  | mmaBf16 (f : MmaF)
  | mmaF8e4 (f : MmaF)
  | mmaF8e5 (f : MmaF)
  | mmaI8 (f : MmaF)
  | mmaCb4 (f : MmaF)
  | mmaCrewF64 (f : MmaF)
  | mmaCrewF32 (f : MmaF)
  | mmaCrewF16 (f : MmaF)
  | mmaCrewBf16 (f : MmaF)
  | mmaCrewF8e4 (f : MmaF)
  | mmaCrewF8e5 (f : MmaF)
  | mmaCrewI8 (f : MmaF)
  | mmaCrewCb4 (f : MmaF)
  | accClr (f : AccClrF)
  | accLd (f : AccLdF)
  | accSt (f : AccStF)
  | accMovGet (f : AccMovF)
  | accMovPut (f : AccMovF)
  | feedSkip (f : FeedSkipF)
  | feedMark (f : FeedMarkF)
  | cbLoad (f : CbLoadF)
  | ssm (f : SsmF)
  | taskLaunch (f : DA)
  | depDec (f : AOnly)
  | spawn (f : SpawnF)
  | spawnFlush (f : BareF)
  | joinWait (f : AOnly)
  | joinPoll (f : DA)
  | regClaim (f : RegClF)
  | regGive (f : RegClF)
  | binEmit (f : BinEmitF)
  | binEnd (f : AOnly)
  | binEndReset (f : AOnly)
  | fragOut (f : FragOutF)
  | fragOutInit (f : FragInitF)
  | ringAcq (f : DA)
  | ringAcqCons (f : DA)
  | ringRel (f : ABF)
  | ringRelCons (f : ABF)
  | ringHalo (f : ABF)
  | rtTrace (f : RtTraceF)
  | rtNext (f : DOnly)
  | rtAccept (f : DAB)
  | rtReplay (f : RtReplayF)
  | addI64VectorCompact (f : CompactF)
  | addF32Compact (f : CompactF)
  | mulF32Compact (f : CompactF)
  | addF64Compact (f : CompactF)
  | mulF64Compact (f : CompactF)
  | andB64Compact (f : CompactF)
  | orB64Compact (f : CompactF)
  | xorB64Compact (f : CompactF)
  | movB64VectorCompact (f : CompactDBF)
  | addI64ScalarCompact (f : CompactF)
  | subI64ScalarCompact (f : CompactF)
  | movB64ScalarCompact (f : CompactDBF)
  | shlN64ScalarCompact (f : CompactF)
  | addI32VectorCompact (f : CompactF)
  | nopCompact (f : CompactNF)
  | ldSB64Compact (f : CompactDAF)
  | stSB64Compact (f : CompactABF)
  | joinCountZero
  | illegalOpcode
  | scoreboardResult
  | sleepUntilWake
  | waiterRetest
  | copyComplete
  | copyTransferFault
  | crewOperationStart
  | mmaComplete
  | ssmComplete
  | launchTableWaitEnd
  | spawnSegmentWaitEnd
  | claimServed
  | ringAcqWake
  | ageingQuantum
  | issueStarvation
  | gatherTimeout
  | gatheredWavePlace
  | taskRetire
  | groupPlace
  | crewPlace
  | imageRestore
  | preWaitExpiry
  | loadBalancer
  | partitionMoveComplete
  | stripStart
  | stripFinish
  | rasterStripStart
  | rasterTileEnd
  | fragmentBatch
  | displayScanLine
  | encoderStrip
  | tenantUseWindow
  | heartbeat
  | heartbeatLost
  | ringTailWrite
  | sliceExpiry
  | packetNop
  | packetLaunch
  | packetCopy
  | packetWrite
  | packetSignal
  | packetWriteSignal
  | packetWait
  | packetTimestamp
  | packetGraph
  | packetFence
  | cond
  | streamIndexWrite
  | replyIndexWrite
  | replyResume
  | replySkip
  | replyKill
  | coalesceTimeout
  | queueSet
  | queueStateDisable
  | queueStateActivate
  | queueKill
  | queueKillComplete
  | streamSet
  | setRoot
  | invalidate
  | timetable
  | bindOut
  | load
  | domainSet
  | registerWrite
  | sharedBoundaryMove
  | peerRequest
  | flitRetry
  | peerLaneRetire
  | domainMemberLoss
  | perstRelease
  | selfTest
  | attestationRequest
  | d3hotEntry
  | d0Return
  | d3coldEntry
  | thermalSample
  | patrolScrub
  | rowRepair
  | ppsAndTimeOfDayInput
  | vectorUnmask
  | perstAssert
  deriving DecidableEq, Repr

/-- A step of the device that no code parcel encodes. -/
def Instr.isEvent : Instr → Bool
  | .joinCountZero => true
  | .illegalOpcode => true
  | .scoreboardResult => true
  | .sleepUntilWake => true
  | .waiterRetest => true
  | .copyComplete => true
  | .copyTransferFault => true
  | .crewOperationStart => true
  | .mmaComplete => true
  | .ssmComplete => true
  | .launchTableWaitEnd => true
  | .spawnSegmentWaitEnd => true
  | .claimServed => true
  | .ringAcqWake => true
  | .ageingQuantum => true
  | .issueStarvation => true
  | .gatherTimeout => true
  | .gatheredWavePlace => true
  | .taskRetire => true
  | .groupPlace => true
  | .crewPlace => true
  | .imageRestore => true
  | .preWaitExpiry => true
  | .loadBalancer => true
  | .partitionMoveComplete => true
  | .stripStart => true
  | .stripFinish => true
  | .rasterStripStart => true
  | .rasterTileEnd => true
  | .fragmentBatch => true
  | .displayScanLine => true
  | .encoderStrip => true
  | .tenantUseWindow => true
  | .heartbeat => true
  | .heartbeatLost => true
  | .ringTailWrite => true
  | .sliceExpiry => true
  | .packetNop => true
  | .packetLaunch => true
  | .packetCopy => true
  | .packetWrite => true
  | .packetSignal => true
  | .packetWriteSignal => true
  | .packetWait => true
  | .packetTimestamp => true
  | .packetGraph => true
  | .packetFence => true
  | .cond => true
  | .streamIndexWrite => true
  | .replyIndexWrite => true
  | .replyResume => true
  | .replySkip => true
  | .replyKill => true
  | .coalesceTimeout => true
  | .queueSet => true
  | .queueStateDisable => true
  | .queueStateActivate => true
  | .queueKill => true
  | .queueKillComplete => true
  | .streamSet => true
  | .setRoot => true
  | .invalidate => true
  | .timetable => true
  | .bindOut => true
  | .load => true
  | .domainSet => true
  | .registerWrite => true
  | .sharedBoundaryMove => true
  | .peerRequest => true
  | .flitRetry => true
  | .peerLaneRetire => true
  | .domainMemberLoss => true
  | .perstRelease => true
  | .selfTest => true
  | .attestationRequest => true
  | .d3hotEntry => true
  | .d0Return => true
  | .d3coldEntry => true
  | .thermalSample => true
  | .patrolScrub => true
  | .rowRepair => true
  | .ppsAndTimeOfDayInput => true
  | .vectorUnmask => true
  | .perstAssert => true
  | _ => false

end Sys2Proof
end

