-- ==== Sys2Proof/WellFormed.lean ====
section
/-! DEFINITION. Which terms of Instr are instructions of the part: the types each operation admits (Tables 11.2, 13.2, 13.5, 15.1), the
literal conditions of R122, and the field values of R121, R153, R172, R178, R183, R186, R191, R209, R244 and R259. A step of the device
that no parcel encodes is not well-formed as code. -/

namespace Sys2Proof

/-- The type code (Table 9.5). -/
def Ty.code : Ty → BitVec 5
  | .f64 => 0x00 | .f32 => 0x01 | .f16 => 0x02 | .bf16 => 0x03 | .f8e4 => 0x04 | .f8e5 => 0x05 | .cb4 => 0x06
  | .i8 => 0x08 | .i16 => 0x09 | .i32 => 0x0A | .i64 => 0x0B | .n8 => 0x0C | .n16 => 0x0D | .n32 => 0x0E | .n64 => 0x0F
  | .b8 => 0x10 | .b16 => 0x11 | .b32 => 0x12 | .b64 => 0x13

/-- The type a code names; codes 0x07 and 0x14 to 0x1F name none (Table 9.5). -/
def Ty.ofCode (c : BitVec 5) : Option Ty :=
  match c.toNat with
  | 0x00 => some .f64 | 0x01 => some .f32 | 0x02 => some .f16 | 0x03 => some .bf16 | 0x04 => some .f8e4
  | 0x05 => some .f8e5 | 0x06 => some .cb4 | 0x08 => some .i8 | 0x09 => some .i16 | 0x0A => some .i32
  | 0x0B => some .i64 | 0x0C => some .n8 | 0x0D => some .n16 | 0x0E => some .n32 | 0x0F => some .n64
  | 0x10 => some .b8 | 0x11 => some .b16 | 0x12 => some .b32 | 0x13 => some .b64
  | _ => none

/-- The width of a type in bits (R149). -/
def Ty.width : Ty → Nat
  | .f64 | .i64 | .n64 | .b64 => 64
  | .f32 | .i32 | .n32 | .b32 => 32
  | .f16 | .bf16 | .i16 | .n16 | .b16 => 16
  | .f8e4 | .f8e5 | .i8 | .n8 | .b8 => 8
  | .cb4 => 4

/-- Signed integer types `.i*`. -/
def Ty.isI : Ty → Bool
  | .i8 | .i16 | .i32 | .i64 => true
  | _ => false

/-- Unsigned integer types `.n*`. -/
def Ty.isN : Ty → Bool
  | .n8 | .n16 | .n32 | .n64 => true
  | _ => false

/-- Bit types `.b*`. -/
def Ty.isB : Ty → Bool
  | .b8 | .b16 | .b32 | .b64 => true
  | _ => false

/-- Floating-point types. -/
def Ty.isF : Ty → Bool
  | .f64 | .f32 | .f16 | .bf16 | .f8e4 | .f8e5 => true
  | _ => false

def tysI : List Ty := [.i8, .i16, .i32, .i64]
def tysIN : List Ty := [.i8, .i16, .i32, .i64, .n8, .n16, .n32, .n64]
def tysINB : List Ty := tysIN ++ [.b8, .b16, .b32, .b64]
def tysF4 : List Ty := [.f64, .f32, .f16, .bf16]
def tysF6 : List Ty := tysF4 ++ [.f8e4, .f8e5]
def tysF2 : List Ty := [.f64, .f32]
def tysF4IN : List Ty := tysF4 ++ tysIN
def tysF6IN : List Ty := tysF6 ++ tysIN
def tysXl : List Ty := [.b8, .b16, .b32, .b64, .cb4]
def tysB64 : List Ty := [.b64]
def tysMac : List Ty := [.f32, .f16, .bf16, .f8e4, .f8e5]
def tysTag : List Ty := [.i32, .i64, .n32, .n64, .b32, .b64]
def tysB32 : List Ty := [.b32]
def tysAdd : List Ty := [.i32, .i64, .n32, .n64, .f32, .f64]
def tysBit : List Ty := [.b32, .b64]
def tysInc : List Ty := [.n32, .n64]
def tysAcc : List Ty := [.f32, .i32, .f64]

def semsLd : List Sem := [.plain, .acq]
def semsSt : List Sem := [.plain, .rel]
def semsPlain : List Sem := [.plain]
def semsWfe : List Sem := [.plain, .acq, .rel, .ar]
def semsAtom : List Sem := [.plain, .acq, .rel, .ar, .sc]
def semsRed : List Sem := [.plain, .rel, .sc]

/-- The lowest bit of a list of bit numbers at which a word has a one. -/
def lowestOne (w : BitVec 32) (from_ n : Nat) : Option Nat :=
  ((List.range n).map (· + from_)).find? (fun k => w.getLsbD k)

/-- The lowest bit of a literal that breaks R122 for a type of the given width, as a bit of the instruction (the literal parcel is
bits 64 to 95, R398). -/
def litBad (ty : Ty) (v : BitVec 32) : List Nat :=
  let w := ty.width
  if w ≥ 32 then []
  else
    let x := if ty.isI && v.getLsbD (w - 1) then ~~~ v else v
    match lowestOne x w (32 - w) with
    | some k => [64 + k]
    | none => []

/-- The literal of a 96-bit form for the integer type read by `ldexp` (R165). -/
def ldexpTy : Ty → Ty
  | .f64 => .i64
  | .f32 => .i32
  | _ => .i16

def SB.litBad (ty : Ty) : SB → List Nat
  | .reg _ => []
  | .lit v => Sys2Proof.litBad ty v
def VB.litBad (ty : Ty) : VB → List Nat
  | .vec _ => []
  | .sca _ => []
  | .lit v => Sys2Proof.litBad ty v

/-- Bits [1:0] of a target literal are 0 (R129, R131). -/
def tgtBad : Tgt → List Nat
  | .short _ => []
  | .far v => match lowestOne v 0 2 with
    | some k => [64 + k]
    | none => []

/-- The compare conditions a type admits (R120, Table 11.2). -/
def cndOk (fp : Bool) (ty : Ty) (c : Cnd) : Bool :=
  match c with
  | .eq | .ne => true
  | .lt | .le | .gt | .ge => fp || !ty.isB
  | .unord | .ord => fp

/-- A MEM word admitted by types and orderings; with SEM plain, SCP is 0 (R121, R191). -/
def memOk (tys : List Ty) (sems : List Sem) (m : MemW) : Bool :=
  tys.contains m.ty && sems.contains m.sem && (m.sem != .plain || m.scp == .wave)

/-- Type pairs of `cvt`, `pack` and `unpack` (R150, R167, R168). -/
inductive CvtKind where
  | cvt | pack | unpack
  deriving DecidableEq, Repr

def cvtOk (k : CvtKind) (dst src : Ty) : Bool :=
  tysF6IN.contains dst && tysF6IN.contains src &&
    match k with
    | .cvt => true
    | .pack => dst.width < src.width
    | .unpack => src.width < dst.width

/-- The block size of a block code (R244): unscaled for 0. -/
def blkSize (b : BitVec 3) : Nat :=
  match b.toNat with
  | 1 => 16 | 2 => 32 | 3 => 64 | 4 => 128
  | _ => 0

/-- A block code admitted for K = 16 × (KX + 1) (R259). -/
def blkOk (kx : BitVec 8) (b : BitVec 3) : Bool :=
  b == 0 || (b.toNat ≤ 4 && (16 * (kx.toNat + 1)) % blkSize b == 0)

/-- The special registers of Table 11.6 below 0x100. -/
def csrListed : List Nat :=
  [0x000, 0x001, 0x002, 0x003, 0x004, 0x005, 0x006, 0x007, 0x008, 0x009, 0x010, 0x011, 0x012, 0x013, 0x014, 0x015]

/-- The counters of Table 11.8. -/
def perfListed : List Nat := [0x000, 0x001, 0x002, 0x010, 0x011, 0x020, 0x021, 0x022, 0x023, 0x024]

/-- The scopes of a lock or a device queue are 1 to 5 (R191). -/
def lockScpOk (s : Scp) : Bool := s != .wave

/-- The three copies (Table 13.9). -/
inductive CpKind where
  | cpin | cpout | cpll
  deriving DecidableEq, Repr

def recItyOk (r : Rec) (t : Option Ty) : Bool :=
  match r, t with
  | .mem _, none => true
  | .inl _, some _ => true
  | _, _ => false

def wfSBinSat (tys : List Ty) (p : SBinSatF) : Bool := tys.contains p.ty && (p.b.litBad p.ty).isEmpty
def wfSBin (tys : List Ty) (p : SBinF) : Bool := tys.contains p.ty && (p.b.litBad p.ty).isEmpty
def wfSUn (tys : List Ty) (p : SUnF) : Bool := tys.contains p.ty
def wfSMov (tys : List Ty) (p : SMovF) : Bool := tys.contains p.ty && (p.b.litBad p.ty).isEmpty
def wfSCmp (p : SCmpF) : Bool := tysINB.contains p.ty && cndOk false p.ty p.cnd && (p.b.litBad p.ty).isEmpty
def wfVBinSat (tys : List Ty) (p : VBinSatF) : Bool := tys.contains p.ty && (p.b.litBad p.ty).isEmpty
def wfVBin (tys : List Ty) (p : VBinF) : Bool := tys.contains p.ty && (p.b.litBad p.ty).isEmpty
def wfVUnSat (tys : List Ty) (p : VUnSatF) : Bool := tys.contains p.ty
def wfVUn (tys : List Ty) (p : VUnF) : Bool := tys.contains p.ty
def wfVMov (tys : List Ty) (p : VMovF) : Bool := tys.contains p.ty && (p.b.litBad p.ty).isEmpty
def wfVCmp (fp : Bool) (p : VCmpF) : Bool :=
  (if fp then tysF4 else tysINB).contains p.ty && cndOk fp p.ty p.cnd && (p.b.litBad p.ty).isEmpty
def wfFBin (p : FBinF) : Bool := tysF4.contains p.ty && (p.b.litBad p.ty).isEmpty
def wfLdexp (p : FBinF) : Bool := tysF4.contains p.ty && (p.b.litBad (ldexpTy p.ty)).isEmpty
def wfFUnR (tys : List Ty) (p : FUnRF) : Bool := tys.contains p.ty
def wfCvt (k : CvtKind) (p : CvtF) : Bool := cvtOk k p.dst p.src
def wfXl (tys : List Ty) (p : XlF) : Bool := tys.contains p.ty
def wfXlSh (p : XlF) : Bool := tysXl.contains p.ty && decide (p.b.toNat < 32 * (64 / p.ty.width))
def wfRedAdd (p : RedAddF) : Bool := tysF4IN.contains p.ty && (p.ty.isF || p.rmo == .mode)
def wfXaAdd (p : XaAddF) : Bool := tysF6IN.contains p.ty
def wfXaMac (p : XaMacF) : Bool := tysMac.contains p.ty
def wfXaRnd (p : XaRndF) : Bool := tysF6.contains p.ty
def wfXaGet (p : XaGetF) : Bool := decide (p.c.toNat ≤ 34)
def wfXaSet (p : XaSetF) : Bool := decide (p.c.toNat ≤ 34)
def wfFDiv (p : FDivF) : Bool := tysF2.contains p.ty
def wfCsr (p : SysIF) : Bool := decide (0x100 ≤ p.idx.toNat) || csrListed.contains p.idx.toNat
def wfPerf (p : SysIF) : Bool := perfListed.contains p.idx.toNat
def wfLd (tys : List Ty) (sems : List Sem) (p : LdF) : Bool := memOk tys sems p.mem
def wfSt (tys : List Ty) (sems : List Sem) (p : StF) : Bool := memOk tys sems p.mem
def wfAt (tys : List Ty) (p : AtF) : Bool := memOk tys semsAtom p.mem
def wfAtB (p : AtBF) : Bool := memOk tysInc semsAtom p.mem
def wfLock (p : LockF) : Bool := lockScpOk p.scp
def wfLockTry (p : LockTryF) : Bool := lockScpOk p.scp
def wfDq (p : DqF) : Bool := lockScpOk p.scp
def wfCp (k : CpKind) (p : CpF) : Bool :=
  recItyOk p.tsr p.ity && (if k = .cpin then p.dsel != 3 && (p.dsel == 0 || p.a == 0) else p.dsel == 0)
def wfMma (scaled : Bool) (p : MmaF) : Bool :=
  if scaled then blkOk p.kx p.ablk && blkOk p.kx p.bblk else p.ablk == 0 && p.bblk == 0
def wfAccClr (p : AccClrF) : Bool := tysAcc.contains p.ty
def wfAccLd (p : AccLdF) : Bool := recItyOk p.tsr p.ity
def wfSpawn (p : SpawnF) : Bool := (tgtBad (.far p.tgt)).isEmpty

/-- Whether a term is an instruction of the part, as code (R118 to R123, R150, R191, R244). -/
def Instr.wf : Instr → Bool
  | .br p => (tgtBad p.tgt).isEmpty
  | .brDiv p => (tgtBad p.tgt).isEmpty
  | .brEj p => (tgtBad p.tgt).isEmpty
  | .brx _ => true
  | .call p => (tgtBad p.tgt).isEmpty
  | .ret _ => true
  | .rejoin _ => true
  | .joinCountZero => false
  | .brk _ => true
  | .exit _ => true
  | .nop _ => true
  | .illegalOpcode => false
  | .scalarAdd p => wfSBinSat tysIN p
  | .scalarSub p => wfSBinSat tysIN p
  | .scalarMul p => wfSBin tysIN p
  | .scalarMulhi p => wfSBin tysIN p
  | .scalarDiv p => wfSBin tysIN p
  | .scalarRem p => wfSBin tysIN p
  | .scalarMin p => wfSBin tysIN p
  | .scalarMax p => wfSBin tysIN p
  | .scalarAnd p => wfSBin tysINB p
  | .scalarOr p => wfSBin tysINB p
  | .scalarXor p => wfSBin tysINB p
  | .scalarNot p => wfSUn tysINB p
  | .scalarShl p => wfSBin tysINB p
  | .scalarShr p => wfSBin tysINB p
  | .scalarCmp p => wfSCmp p
  | .scalarSel _ => true
  | .scalarMov p => wfSMov tysINB p
  | .scalarClz p => wfSUn tysINB p
  | .scalarPopc p => wfSUn tysINB p
  | .vectorAdd p => wfVBinSat tysIN p
  | .vectorSub p => wfVBinSat tysIN p
  | .vectorMul p => wfVBin tysIN p
  | .vectorMulhi p => wfVBin tysIN p
  | .vectorMin p => wfVBin tysIN p
  | .vectorMax p => wfVBin tysIN p
  | .vectorAbs p => wfVUnSat tysI p
  | .vectorNeg p => wfVUnSat tysI p
  | .vectorAnd p => wfVBin tysINB p
  | .vectorOr p => wfVBin tysINB p
  | .vectorXor p => wfVBin tysINB p
  | .vectorNot p => wfVUn tysINB p
  | .vectorShl p => wfVBin tysINB p
  | .vectorShr p => wfVBin tysINB p
  | .vectorCmp p => wfVCmp false p
  | .vectorSel _ => true
  | .vectorMov p => wfVMov tysINB p
  | .vectorClz p => wfVUn tysINB p
  | .vectorPopc p => wfVUn tysINB p
  | .brev p => wfVUn tysINB p
  | .bfe p => wfVBin tysIN p
  | .madI32 _ => true
  | .madN32 _ => true
  | .madI64 _ => true
  | .madN64 _ => true
  | .fpAdd p => wfFBin p
  | .fpSub p => wfFBin p
  | .fpMul p => wfFBin p
  | .fpMin p => wfVBin tysF4 p
  | .fpMax p => wfVBin tysF4 p
  | .fpAbs p => wfVUn tysF4 p
  | .fpNeg p => wfVUn tysF4 p
  | .fpCmp p => wfVCmp true p
  | .rint p => wfFUnR tysF4 p
  | .copysign p => wfVBin tysF4 p
  | .fclass p => wfVUn tysF4 p
  | .ldexp p => wfLdexp p
  | .fmaF64 _ => true
  | .fmaF32 _ => true
  | .fmaF16 _ => true
  | .fmaBf16 _ => true
  | .fnmaF64 _ => true
  | .fnmaF32 _ => true
  | .fnmaF16 _ => true
  | .fnmaBf16 _ => true
  | .cvt p => wfCvt .cvt p
  | .pack p => wfCvt .pack p
  | .unpack p => wfCvt .unpack p
  | .cbDec _ => true
  | .xlGet p => wfXl tysXl p
  | .xlBcast p => wfXl tysXl p
  | .xlShup p => wfXlSh p
  | .xlShdn p => wfXlSh p
  | .xlXor p => wfXlSh p
  | .xlReorder p => wfXl tysB64 p
  | .xlVote _ => true
  | .xlAny _ => true
  | .xlAll _ => true
  | .redLaneAdd p => wfRedAdd p
  | .redLaneMin p => wfVUn tysF4IN p
  | .redLaneMax p => wfVUn tysF4IN p
  | .redLaneAnd p => wfVUn tysINB p
  | .redLaneOr p => wfVUn tysINB p
  | .redLaneXor p => wfVUn tysINB p
  | .scanLaneAdd p => wfRedAdd p
  | .scanLaneMin p => wfVUn tysF4IN p
  | .scanLaneMax p => wfVUn tysF4IN p
  | .scanLaneAnd p => wfVUn tysINB p
  | .scanLaneOr p => wfVUn tysINB p
  | .scanLaneXor p => wfVUn tysINB p
  | .scanLaneAddEx p => wfRedAdd p
  | .scanLaneMinEx p => wfVUn tysF4IN p
  | .scanLaneMaxEx p => wfVUn tysF4IN p
  | .scanLaneAndEx p => wfVUn tysINB p
  | .scanLaneOrEx p => wfVUn tysINB p
  | .scanLaneXorEx p => wfVUn tysINB p
  | .xaClr _ => true
  | .xaAdd p => wfXaAdd p
  | .xaMac p => wfXaMac p
  | .xaRnd p => wfXaRnd p
  | .xaGet p => wfXaGet p
  | .xaSet p => wfXaSet p
  | .xaMerge _ => true
  | .rcp p => wfVUn tysF4 p
  | .rsqrt p => wfVUn tysF4 p
  | .exp2 p => wfVUn tysF4 p
  | .log2 p => wfVUn tysF4 p
  | .sin p => wfVUn tysF4 p
  | .cos p => wfVUn tysF4 p
  | .fpDiv p => wfFDiv p
  | .sqrt p => wfFUnR tysF2 p
  | .scoreboardResult => false
  | .trap _ => true
  | .modeSet _ => true
  | .modeGet _ => true
  | .timeGet _ => true
  | .csrGet p => wfCsr p
  | .yield _ => true
  | .sleepUntil _ => true
  | .sleepUntilWake => false
  | .perfGet p => wfPerf p
  | .ld p => wfLd tysINB semsLd p
  | .st p => wfSt tysINB semsSt p
  | .ldRo p => wfLd tysINB semsPlain p
  | .ldS p => wfLd tysINB semsLd p
  | .stS p => wfSt tysINB semsSt p
  | .ldL p => wfLd tysINB semsLd p
  | .stL p => wfSt tysINB semsSt p
  | .pf _ => true
  | .ldWf p => wfLd tysTag semsLd p
  | .ldWfe p => wfLd tysTag semsWfe p
  | .stWe p => wfSt tysTag semsWfe p
  | .stF p => wfSt tysTag semsSt p
  | .tagGet p => wfLd tysB32 semsLd p
  | .tagSet p => wfSt tysB32 semsSt p
  | .waiterRetest => false
  | .atomAdd p => wfAt tysAdd p
  | .atomMin p => wfAt tysAdd p
  | .atomMax p => wfAt tysAdd p
  | .atomAnd p => wfAt tysBit p
  | .atomOr p => wfAt tysBit p
  | .atomXor p => wfAt tysBit p
  | .atomExch p => wfAt tysBit p
  | .atomIncWrap p => wfAt tysInc p
  | .atomAddBound p => wfAtB p
  | .atomCas p => wfAt tysBit p
  | .redAdd p => wfSt tysAdd semsRed p
  | .redMin p => wfSt tysAdd semsRed p
  | .redMax p => wfSt tysAdd semsRed p
  | .redAnd p => wfSt tysBit semsRed p
  | .redOr p => wfSt tysBit semsRed p
  | .redXor p => wfSt tysBit semsRed p
  | .redIncWrap p => wfSt tysInc semsRed p
  | .fenceAcq _ => true
  | .fenceRel _ => true
  | .fenceAr _ => true
  | .fenceSc _ => true
  | .roInv _ => true
  | .boInit _ => true
  | .boExpect _ => true
  | .boArrive _ => true
  | .boWait _ => true
  | .lockAcq p => wfLock p
  | .lockTry p => wfLockTry p
  | .lockRel p => wfLock p
  | .dqPush p => wfDq p
  | .dqPop p => wfDq p
  | .ownSet _ => true
  | .ownClr _ => true
  | .cpIn p => wfCp .cpin p
  | .cpOut p => wfCp .cpout p
  | .cpLl p => wfCp .cpll p
  | .fenceRec _ => true
  | .copyComplete => false
  | .copyTransferFault => false
  | .mmaF64 p => wfMma false p
  | .mmaF32 p => wfMma false p
  | .mmaF16 p => wfMma false p
  | .mmaBf16 p => wfMma false p
  | .mmaF8e4 p => wfMma true p
  | .mmaF8e5 p => wfMma true p
  | .mmaI8 p => wfMma false p
  | .mmaCb4 p => wfMma true p
  | .mmaCrewF64 p => wfMma false p
  | .mmaCrewF32 p => wfMma false p
  | .mmaCrewF16 p => wfMma false p
  | .mmaCrewBf16 p => wfMma false p
  | .mmaCrewF8e4 p => wfMma true p
  | .mmaCrewF8e5 p => wfMma true p
  | .mmaCrewI8 p => wfMma false p
  | .mmaCrewCb4 p => wfMma true p
  | .crewOperationStart => false
  | .mmaComplete => false
  | .accClr p => wfAccClr p
  | .accLd p => wfAccLd p
  | .accSt _ => true
  | .accMovGet _ => true
  | .accMovPut _ => true
  | .feedSkip _ => true
  | .feedMark _ => true
  | .cbLoad _ => true
  | .ssm _ => true
  | .ssmComplete => false
  | .taskLaunch _ => true
  | .depDec _ => true
  | .launchTableWaitEnd => false
  | .spawn p => wfSpawn p
  | .spawnSegmentWaitEnd => false
  | .spawnFlush _ => true
  | .joinWait _ => true
  | .joinPoll _ => true
  | .regClaim _ => true
  | .regGive _ => true
  | .claimServed => false
  | .binEmit _ => true
  | .binEnd _ => true
  | .binEndReset _ => true
  | .fragOut _ => true
  | .fragOutInit _ => true
  | .ringAcq _ => true
  | .ringAcqCons _ => true
  | .ringAcqWake => false
  | .ringRel _ => true
  | .ringRelCons _ => true
  | .ringHalo _ => true
  | .rtTrace _ => true
  | .rtNext _ => true
  | .rtAccept _ => true
  | .rtReplay _ => true
  | .addI64VectorCompact _ => true
  | .addF32Compact _ => true
  | .mulF32Compact _ => true
  | .addF64Compact _ => true
  | .mulF64Compact _ => true
  | .andB64Compact _ => true
  | .orB64Compact _ => true
  | .xorB64Compact _ => true
  | .movB64VectorCompact _ => true
  | .addI64ScalarCompact _ => true
  | .subI64ScalarCompact _ => true
  | .movB64ScalarCompact _ => true
  | .shlN64ScalarCompact _ => true
  | .addI32VectorCompact _ => true
  | .nopCompact _ => true
  | .ldSB64Compact _ => true
  | .stSB64Compact _ => true
  | .ageingQuantum => false
  | .issueStarvation => false
  | .gatherTimeout => false
  | .gatheredWavePlace => false
  | .taskRetire => false
  | .groupPlace => false
  | .crewPlace => false
  | .imageRestore => false
  | .preWaitExpiry => false
  | .loadBalancer => false
  | .partitionMoveComplete => false
  | .stripStart => false
  | .stripFinish => false
  | .rasterStripStart => false
  | .rasterTileEnd => false
  | .fragmentBatch => false
  | .displayScanLine => false
  | .encoderStrip => false
  | .tenantUseWindow => false
  | .heartbeat => false
  | .heartbeatLost => false
  | .ringTailWrite => false
  | .sliceExpiry => false
  | .packetNop => false
  | .packetLaunch => false
  | .packetCopy => false
  | .packetWrite => false
  | .packetSignal => false
  | .packetWriteSignal => false
  | .packetWait => false
  | .packetTimestamp => false
  | .packetGraph => false
  | .packetFence => false
  | .cond => false
  | .streamIndexWrite => false
  | .replyIndexWrite => false
  | .replyResume => false
  | .replySkip => false
  | .replyKill => false
  | .coalesceTimeout => false
  | .queueSet => false
  | .queueStateDisable => false
  | .queueStateActivate => false
  | .queueKill => false
  | .queueKillComplete => false
  | .streamSet => false
  | .setRoot => false
  | .invalidate => false
  | .timetable => false
  | .bindOut => false
  | .load => false
  | .domainSet => false
  | .registerWrite => false
  | .sharedBoundaryMove => false
  | .peerRequest => false
  | .flitRetry => false
  | .peerLaneRetire => false
  | .domainMemberLoss => false
  | .perstRelease => false
  | .selfTest => false
  | .attestationRequest => false
  | .d3hotEntry => false
  | .d0Return => false
  | .d3coldEntry => false
  | .thermalSample => false
  | .patrolScrub => false
  | .rowRepair => false
  | .ppsAndTimeOfDayInput => false
  | .vectorUnmask => false
  | .perstAssert => false

end Sys2Proof
end

