-- ==== Sys2Proof/Machine/Float.lean ====
section
/-! DEFINITION. Number formats and arithmetic (R93 to R103, R107, R108): exact values, one rounding, minimum and maximum, conversions,
square root and quotient. -/

namespace Sys2Proof.Machine

/-- A floating-point format (Table 7.1). -/
structure Fmt where
  width : Nat
  fb : Nat
  bias : Nat
  hasInf : Bool
  deriving DecidableEq, Repr

/-- The format of a floating-point type; FP64 stands for the types that have none. -/
def fmtOf : Ty → Fmt
  | .f32 => { width := 32, fb := 23, bias := 127, hasInf := true }
  | .f16 => { width := 16, fb := 10, bias := 15, hasInf := true }
  | .bf16 => { width := 16, fb := 7, bias := 127, hasInf := true }
  | .f8e4 => { width := 8, fb := 3, bias := 7, hasInf := false }
  | .f8e5 => { width := 8, fb := 2, bias := 15, hasInf := true }
  | _ => { width := 64, fb := 52, bias := 1023, hasInf := true }

/-- Rounding modes (R99). -/
inductive Rm where
  | rne | rtz | rup | rdn
  deriving DecidableEq, Repr

/-- A value: NaN, an infinity, or (-1)^neg × num × 2^exp exactly; a zero keeps its sign. -/
inductive FV where
  | nan
  | inf (neg : Bool)
  | fin (neg : Bool) (num : Nat) (exp : Int)
  deriving DecidableEq, Repr

def FV.zero (neg : Bool) : FV := .fin neg 0 0
def FV.ofInt (i : Int) : FV := .fin (decide (i < 0)) i.natAbs 0
def FV.isZero : FV → Bool
  | .fin _ 0 _ => true
  | _ => false
def FV.isNan : FV → Bool
  | .nan => true
  | _ => false
def FV.neg? : FV → Bool
  | .nan => false
  | .inf s => s
  | .fin s _ _ => s

/-- The exponent field all ones. -/
def Fmt.eMax (f : Fmt) : Nat := 2 ^ (f.width - 1 - f.fb) - 1
/-- The bits of the largest finite magnitude. -/
def Fmt.maxBits (f : Fmt) : Nat := if f.hasInf then f.eMax * 2 ^ f.fb - 1 else f.eMax * 2 ^ f.fb + 2 ^ f.fb - 2
/-- The sign bit of a format, for a sign. -/
def Fmt.sign (f : Fmt) (neg : Bool) : Nat := if neg then 2 ^ (f.width - 1) else 0
/-- The canonical NaN (Table 7.1). -/
def Fmt.nanBits (f : Fmt) : Nat := if f.hasInf then f.eMax * 2 ^ f.fb + 2 ^ (f.fb - 1) else f.eMax * 2 ^ f.fb + 2 ^ f.fb - 1
/-- An infinity; the canonical NaN where the format has none (R100). -/
def Fmt.infBits (f : Fmt) (neg : Bool) : Nat := if f.hasInf then f.sign neg + f.eMax * 2 ^ f.fb else f.nanBits

/-- The value of a bit pattern (R93). -/
def fdec (f : Fmt) (x : Nat) : FV :=
  let s := decide (2 ^ (f.width - 1) ≤ x % 2 ^ f.width)
  let m := x % 2 ^ (f.width - 1)
  let e := m / 2 ^ f.fb
  let r := m % 2 ^ f.fb
  if e = f.eMax ∧ f.hasInf then (if r = 0 then .inf s else .nan)
  else if e = f.eMax ∧ r = 2 ^ f.fb - 1 then .nan
  else if e = 0 then .fin s r (1 - (f.bias : Int) - f.fb)
  else .fin s (r + 2 ^ f.fb) ((e : Int) - f.bias - f.fb)

/-- Whether a bit pattern is subnormal. -/
def fsub (f : Fmt) (x : Nat) : Bool := decide (x % 2 ^ (f.width - 1) < 2 ^ f.fb) && decide (x % 2 ^ (f.width - 1) ≠ 0)

/-- A subnormal replaced by the zero of its sign, when asked (DAZ of an operand, FTZ of a result, Table 7.4). -/
def flush (on : Bool) (f : Fmt) (x : Nat) : Nat := if on && fsub f x then x / 2 ^ (f.width - 1) * 2 ^ (f.width - 1) else x

/-- floor(log2 (num / den)), for num, den > 0. -/
def log2q (num den : Nat) : Int :=
  let l : Int := (Nat.log2 num : Int) - Nat.log2 den
  let ge : Bool := if l ≥ 0 then decide (den * 2 ^ l.toNat ≤ num) else decide (den ≤ num * 2 ^ (-l).toNat)
  if ge then l else l - 1

/-- num / den rounded to an integer, for a magnitude of the given sign (R99 step 2). -/
def rdiv (m : Rm) (neg : Bool) (num den : Nat) : Nat :=
  let q := num / den
  let r := num % den
  match m with
  | .rtz => q
  | .rup => if r = 0 ∨ neg then q else q + 1
  | .rdn => if r = 0 ∨ ¬ neg then q else q + 1
  | .rne => if 2 * r < den then q else if den < 2 * r then q + 1 else if q % 2 = 0 then q else q + 1

/-- num / den × 2^e in units of 2^u, rounded to an integer. -/
def rscale (m : Rm) (neg : Bool) (num den : Nat) (e u : Int) : Nat :=
  if e ≥ u then rdiv m neg (num * 2 ^ (e - u).toNat) den else rdiv m neg num (den * 2 ^ (u - e).toNat)

/-- The bits of an overflow (Table 7.3, R100). -/
def overflowBits (f : Fmt) (m : Rm) (sat neg : Bool) : Nat :=
  let big := f.sign neg + f.maxBits
  if sat then big
  else
    match m with
    | .rne => f.infBits neg
    | .rtz => big
    | .rup => if neg then big else f.infBits neg
    | .rdn => if neg then f.infBits neg else big

/-- Round(num / den × 2^e) (R99): the bits of the result; with sat, R100. -/
def roundQ (f : Fmt) (m : Rm) (sat neg : Bool) (num den : Nat) (e : Int) : Nat :=
  if num = 0 then f.sign neg
  else
    let emin : Int := 1 - (f.bias : Int)
    let ex := log2q num den + e
    let u : Int := (if ex < emin then emin else ex) - f.fb
    let sig := rscale m neg num den e u
    let bits := (u + f.fb - emin).toNat * 2 ^ f.fb + sig
    if f.maxBits < bits then overflowBits f m sat neg else f.sign neg + bits

/-- Round of a value: NaN canonical, infinity by the float to float row of Table 7.5. -/
def fround (f : Fmt) (m : Rm) (sat : Bool) : FV → Nat
  | .nan => f.nanBits
  | .inf s => if sat then f.sign s + f.maxBits else f.infBits s
  | .fin s n e => roundQ f m sat s n 1 e

/-- A finite value as a signed integer times a power of two. -/
def sgn (s : Bool) (n : Nat) : Int := if s then -(n : Int) else n

/-- x + y exactly; an exact zero is +0, or -0 in RDN, and two zeros of one sign give that sign (R165). -/
def fadd (m : Rm) : FV → FV → FV
  | .nan, _ => .nan
  | _, .nan => .nan
  | .inf a, .inf b => if a = b then .inf a else .nan
  | .inf a, _ => .inf a
  | _, .inf b => .inf b
  | .fin a x e, .fin b y g =>
    if x = 0 ∧ y = 0 then .zero (if a = b then a else decide (m = .rdn))
    else
      let k := min e g
      let t := sgn a (x * 2 ^ (e - k).toNat) + sgn b (y * 2 ^ (g - k).toNat)
      if t = 0 then .zero (decide (m = .rdn)) else .fin (decide (t < 0)) t.natAbs k

def fnegv : FV → FV
  | .nan => .nan
  | .inf a => .inf (!a)
  | .fin a x e => .fin (!a) x e

/-- x - y exactly; an exact zero is +0, or -0 in RDN, and two zero operands of one sign give that sign (R165; log 17). -/
def fsubv (m : Rm) : FV → FV → FV
  | .fin a 0 _, .fin b 0 _ => .zero (if a = b then a else decide (m = .rdn))
  | x, y => fadd m x (fnegv y)

/-- x × y exactly. -/
def fmulv : FV → FV → FV
  | .nan, _ => .nan
  | _, .nan => .nan
  | .inf a, y => if y.isZero then .nan else .inf (a != y.neg?)
  | x, .inf b => if x.isZero then .nan else .inf (x.neg? != b)
  | .fin a x e, .fin b y g => .fin (a != b) (x * y) (e + g)

/-- Order of two finite or infinite values: negative, zero or positive for x below, at or above y; -0 at +0. -/
def fcmpv : FV → FV → Int
  | .nan, _ => 0
  | _, .nan => 0
  | .inf a, .inf b => if a = b then 0 else if a then -1 else 1
  | .inf a, _ => if a then -1 else 1
  | _, .inf b => if b then 1 else -1
  | .fin a x e, .fin b y g =>
    let k := min e g
    sgn a (x * 2 ^ (e - k).toNat) - sgn b (y * 2 ^ (g - k).toNat)

/-- x below y with -0 below +0 (R95). -/
def fltv (x y : FV) : Bool :=
  decide (fcmpv x y < 0) || (decide (fcmpv x y = 0) && x.neg? && !y.neg?)

/-- Minimum and maximum of bit patterns (R95). -/
def fminmax (f : Fmt) (mx : Bool) (x y : Nat) : Nat :=
  match fdec f x, fdec f y with
  | .nan, .nan => f.nanBits
  | .nan, _ => y
  | _, .nan => x
  | a, b => if fltv (if mx then b else a) (if mx then a else b) then x else y

/-- Floor of a square root, by bits. -/
def isqrtAux : Nat → Nat → Nat → Nat
  | 0, _, r => r
  | k + 1, n, r =>
    let t := r + 2 ^ k
    if t * t ≤ n then isqrtAux k n t else isqrtAux k n r
def isqrt (n : Nat) : Nat := isqrtAux (Nat.log2 n / 2 + 1) n 0

/-- Round(Exact(√x)) (R111, R179). -/
def fsqrt (f : Fmt) (m : Rm) : FV → Nat
  | .nan => f.nanBits
  | .inf s => if s then f.nanBits else f.infBits false
  | .fin s n e =>
    if n = 0 then f.sign s
    else if s then f.nanBits
    else
      -- n × 2^e = (n × 2^k) × 2^(e - k) with e - k even and many bits
      let k0 := 2 * (f.fb + 8) + (e % 2).toNat
      let big := n * 2 ^ k0
      let r := isqrt big
      let st := if r * r = big then 0 else 1
      roundQ f m false false (2 * r + st) 1 ((e - k0) / 2 - 1)

/-- Round(Exact(x ÷ y)) (R179). -/
def fdiv (f : Fmt) (m : Rm) (x y : FV) : Nat :=
  match x, y with
  | .nan, _ => f.nanBits
  | _, .nan => f.nanBits
  | .inf _, .inf _ => f.nanBits
  | .inf a, y => f.infBits (a != y.neg?)
  | x, .inf b => f.sign (x.neg? != b)
  | .fin a p e, .fin b q g =>
    if q = 0 then (if p = 0 then f.nanBits else f.infBits (a != b))
    else roundQ f m false (a != b) p q (e - g)

/-- A value rounded to an integer (R99 step 4). -/
def fint (m : Rm) (s : Bool) (n : Nat) (e : Int) : Int := sgn s (rscale m s n 1 e 0)

/-- The least and greatest value of an integer type. -/
def tyMin (t : Ty) : Int := if t.isI then -(2 ^ (t.width - 1)) else 0
def tyMax (t : Ty) : Int := if t.isI then 2 ^ (t.width - 1) - 1 else 2 ^ t.width - 1
def clampTy (t : Ty) (x : Int) : Int := if x < tyMin t then tyMin t else if tyMax t < x then tyMax t else x
/-- The w low bits of an integer. -/
def wrapTo (w : Nat) (x : Int) : Nat := (x % (2 ^ w : Int)).toNat
/-- A w-bit pattern read in its type: two's complement for `.i*`, plain binary otherwise (R96). -/
def readInt (t : Ty) (x : Nat) : Int :=
  let v := x % 2 ^ t.width
  if t.isI && decide (2 ^ (t.width - 1) ≤ v) then (v : Int) - 2 ^ t.width else v

/-- Settings of an operation taken from `mode` and the encoding (R101, R102). -/
structure FEnv where
  rm : Rm
  daz : Bool
  ftz : Bool
  deriving DecidableEq, Repr

/-- An operand read under DAZ. -/
def frd (env : FEnv) (t : Ty) (x : Nat) : FV := fdec (fmtOf t) (flush env.daz (fmtOf t) x)
/-- A result rounded and written under FTZ. -/
def fwr (env : FEnv) (t : Ty) (v : FV) : Nat := flush env.ftz (fmtOf t) (fround (fmtOf t) env.rm false v)

/-- One conversion (Table 7.5): source bits of the source type to bits of the destination type. -/
def convert (env : FEnv) (sat : Bool) (src dst : Ty) (x : Nat) : Nat :=
  if src.isF then
    let v := frd env src x
    if dst.isF then flush env.ftz (fmtOf dst) (fround (fmtOf dst) env.rm sat v)
    else
      match v with
      | .nan => 0
      | .inf s => wrapTo dst.width (if s then tyMin dst else tyMax dst)
      | .fin s n e => wrapTo dst.width (clampTy dst (fint env.rm s n e))
  else
    let i := readInt src x
    if dst.isF then flush env.ftz (fmtOf dst) (fround (fmtOf dst) env.rm sat (FV.ofInt i))
    else if sat && decide (dst.width ≤ src.width) then wrapTo dst.width (clampTy dst i)
    else wrapTo dst.width i

/-- RNE with subnormals kept: the settings of the matrix engine, `ssm`, atomics, the raster and traversal units (R102). -/
def envRne : FEnv := { rm := .rne, daz := false, ftz := false }

/-- An exact sum with its special values (R107): a zero sum is +0. -/
def fsum (xs : List FV) : FV :=
  if xs.any FV.isNan then .nan
  else
    let p := xs.any (fun v => v == .inf false)
    let n := xs.any (fun v => v == .inf true)
    if p && n then .nan else if p then .inf false else if n then .inf true
    else
      let r := xs.foldl (fun acc v => match v with
        | .fin s m e =>
          if m = 0 then acc
          else
            let k := min acc.2 e
            (acc.1 * 2 ^ (acc.2 - k).toNat + sgn s (m * 2 ^ (e - k).toNat), k)
        | _ => acc) ((0 : Int), (0 : Int))
      .fin (decide (r.1 < 0)) r.1.natAbs r.2

end Sys2Proof.Machine
end

