-- ==== Sys2Proof/Machine/Special.lean ====
section
/-! DEFINITION. The special functions `rcp`, `rsqrt`, `exp2`, `log2`, `sin` and `cos` (R111, R112, Table 7.7): the exact value rounded
once under RNE. Irrational results come from fixed-point enclosures whose precision doubles until both ends round alike (log 9). -/

namespace Sys2Proof.Machine

/-- An enclosure: lo ≤ value × 2^p ≤ hi, for the p of its context. -/
structure Iv where
  lo : Int
  hi : Int
  deriving DecidableEq, Repr

def fdivI (a : Int) (b : Nat) : Int := a.fdiv b
def cdivI (a : Int) (b : Nat) : Int := -((-a).fdiv b)
def Iv.add (x y : Iv) : Iv := { lo := x.lo + y.lo, hi := x.hi + y.hi }
def Iv.sub (x y : Iv) : Iv := { lo := x.lo - y.hi, hi := x.hi - y.lo }
def Iv.scale (x : Iv) (k : Nat) : Iv := { lo := x.lo * k, hi := x.hi * k }
def Iv.divN (x : Iv) (k : Nat) : Iv := { lo := fdivI x.lo k, hi := cdivI x.hi k }
/-- Product of enclosures, at scale 2^p. -/
def Iv.mul (p : Nat) (x y : Iv) : Iv :=
  let a := x.lo * y.lo
  let b := x.lo * y.hi
  let c := x.hi * y.lo
  let d := x.hi * y.hi
  { lo := fdivI (min (min a b) (min c d)) (2 ^ p), hi := cdivI (max (max a b) (max c d)) (2 ^ p) }

/-- Σ of 1 / ((2k+1) n^(2k+1)), alternating for the arctangent, at scale 2^p. -/
def atanSeries (alt : Bool) (n : Nat) : Nat → Nat → Iv → Iv → Iv
  | 0, _, _, acc => { lo := acc.lo - 2, hi := acc.hi + 2 }
  | fuel + 1, k, t, acc =>
    let u := t.divN (2 * k + 1)
    atanSeries alt n fuel (k + 1) (t.divN (n * n)) (if alt && k % 2 == 1 then acc.sub u else acc.add u)
def atanInv (alt : Bool) (n p : Nat) : Iv :=
  let one : Iv := { lo := 2 ^ p, hi := 2 ^ p }
  atanSeries alt n (p / (2 * Nat.log2 n) + 2) 0 (one.divN n) { lo := 0, hi := 0 }

/-- ln 2 = 18 artanh(1/26) − 2 artanh(1/4801) + 8 artanh(1/8749). -/
def ivLn2 (p : Nat) : Iv := (((atanInv false 26 p).scale 18).sub ((atanInv false 4801 p).scale 2)).add ((atanInv false 8749 p).scale 8)
/-- π = 16 arctan(1/5) − 4 arctan(1/239). -/
def ivPi (p : Nat) : Iv := ((atanInv true 5 p).scale 16).sub ((atanInv true 239 p).scale 4)

/-- Σ y^k / k!, for 0 ≤ y ≤ 1. -/
def expSeries (p : Nat) (y : Iv) : Nat → Nat → Iv → Iv → Iv
  | 0, _, _, acc => { lo := acc.lo, hi := acc.hi + 4 }
  | fuel + 1, k, t, acc => expSeries p y fuel (k + 1) ((Iv.mul p t y).divN (k + 1)) (acc.add t)
/-- Terms of a factorial series that reach below 2^-p, for arguments at most 1.6. -/
def facTerms (p : Nat) : Nat := 24 + p / 4
def ivExp (p : Nat) (y : Iv) : Iv := expSeries p y (facTerms p) 0 { lo := 2 ^ p, hi := 2 ^ p } { lo := 0, hi := 0 }

/-- Sine (odd) and cosine (even) series for 0 ≤ r ≤ 1.6. -/
def trigSeries (p : Nat) (r2 : Iv) : Nat → Nat → Bool → Iv → Iv → Iv
  | 0, _, _, _, acc => { lo := acc.lo - 4, hi := acc.hi + 4 }
  | fuel + 1, k, neg, t, acc =>
    trigSeries p r2 fuel (k + 2) (!neg) ((Iv.mul p t r2).divN ((k + 1) * (k + 2))) (if neg then acc.sub t else acc.add t)
def ivSin (p : Nat) (r : Iv) : Iv := trigSeries p (Iv.mul p r r) (facTerms p / 2 + 4) 1 false r { lo := 0, hi := 0 }
def ivCos (p : Nat) (r : Iv) : Iv :=
  trigSeries p (Iv.mul p r r) (facTerms p / 2 + 4) 0 false { lo := 2 ^ p, hi := 2 ^ p } { lo := 0, hi := 0 }

/-- artanh series for |z| ≤ 1/3. -/
def artanhSeries (p : Nat) (z2 : Iv) : Nat → Nat → Iv → Iv → Iv
  | 0, _, _, acc => { lo := acc.lo - 4, hi := acc.hi + 4 }
  | fuel + 1, k, t, acc => artanhSeries p z2 fuel (k + 1) (Iv.mul p t z2) (acc.add (t.divN (2 * k + 1)))

/-- num × 2^e at scale 2^p, enclosed. -/
def ivOf (p : Nat) (num : Int) (e : Int) : Iv :=
  if e + p ≥ 0 then { lo := num * 2 ^ (e + p).toNat, hi := num * 2 ^ (e + p).toNat }
  else { lo := fdivI num (2 ^ (-(e + p)).toNat), hi := cdivI num (2 ^ (-(e + p)).toNat) }

/-- log2 of n × 2^e, n > 0. -/
def ivLog2 (p n : Nat) (e : Int) : Iv :=
  let l := Nat.log2 n
  -- z = (m - 1) / (m + 1) with m = n / 2^l
  let num : Int := (n : Int) - 2 ^ l
  let den : Nat := n + 2 ^ l
  let z : Iv := { lo := fdivI (num * 2 ^ p) den, hi := cdivI (num * 2 ^ p) den }
  let at_ := artanhSeries p (Iv.mul p z z) (p / 3 + 8) 0 z { lo := 0, hi := 0 }
  let ln := at_.scale 2
  let l2 := ivLn2 p
  let q : Iv := { lo := fdivI (ln.lo * 2 ^ p) l2.hi.toNat, hi := cdivI (ln.hi * 2 ^ p) l2.lo.toNat }
  let i : Int := (e + l) * 2 ^ p
  { lo := i + q.lo, hi := i + q.hi }

/-- 2^f for f = n × 2^e in [0, 1). -/
def ivExp2 (p n : Nat) (e : Int) : Iv := ivExp p (Iv.mul p (ivOf p n e) (ivLn2 p))

/-- sin or cos of n × 2^e, n > 0: reduction by π/2, with the precision of π raised by the exponent. -/
def ivTrig (cosine : Bool) (p n : Nat) (e : Int) : Iv :=
  let extra := (e + Nat.log2 n + 2).toNat
  let q := p + extra
  let pi := ivPi (q + 4)
  let x := ivOf (q + 4) n e
  -- k = floor(2x / π); the enclosure of r = x − k π / 2
  let k : Nat := ((2 * x.lo).fdiv pi.hi).toNat
  let r : Iv := { lo := x.lo - cdivI (pi.hi * k) 2, hi := x.hi - fdivI (pi.lo * k) 2 }
  let r' : Iv := { lo := fdivI r.lo (2 ^ (extra + 4)), hi := cdivI r.hi (2 ^ (extra + 4)) }
  let quad := (k + (if cosine then 1 else 0)) % 4
  let v := if quad % 2 == 0 then ivSin p r' else ivCos p r'
  if quad ≥ 2 then { lo := -v.hi, hi := -v.lo } else v

/-- RNE of an integer at scale 2^-p. -/
def roundFix (f : Fmt) (p : Nat) (x : Int) (sh : Int) : Nat := roundQ f .rne false (decide (x < 0)) x.natAbs 1 (sh - p)

/-- Double the precision until both ends of the enclosure round alike. -/
def refine (f : Fmt) (iv : Nat → Iv) (sh : Int) : Nat → Nat → Nat
  | 0, p => roundFix f p (iv p).lo sh
  | fuel + 1, p =>
    let v := iv p
    let a := roundFix f p v.lo sh
    if a = roundFix f p v.hi sh then a else refine f iv sh fuel (2 * p)

/-- The six functions of Table 7.7. -/
inductive SpecFn where
  | rcp | rsqrt | exp2 | log2 | sin | cos
  deriving DecidableEq, Repr

/-- How much a value lies below 1 in powers of two, for the starting precision. -/
def depthOf (n : Nat) (e : Int) : Nat := (-(e + Nat.log2 n)).toNat

def specFin (f : Fmt) (fn : SpecFn) (s : Bool) (n : Nat) (e : Int) : Nat :=
  match fn with
  | .rcp => if n = 0 then f.infBits s else roundQ f .rne false s 1 n (-e)
  | .rsqrt =>
    if n = 0 then f.infBits s
    else if s then f.nanBits
    else
      -- 1 / √(n 2^e): with e' = e or e - 1 even and N = 2^(2k), floor(√(N / n'))
      let odd := (e % 2).toNat
      let n' := n * 2 ^ odd
      let k := f.fb + 8 + Nat.log2 n'
      let big := 2 ^ (2 * k)
      let r := isqrt (big / n')
      let st := if r * r * n' = big then 0 else 1
      roundQ f .rne false false (2 * r + st) 1 (-((e - odd) / 2) - k - 1)
  | .exp2 =>
    if n = 0 then roundQ f .rne false false 1 1 0
    else
      let big : Int := if e + Nat.log2 n > 12 then (if s then -4096 else 4096) else fint .rdn s n e
      if e + Nat.log2 n > 12 then (if s then roundQ f .rne false false 1 1 (-4096) else f.infBits false)
      else if e ≥ 0 then roundQ f .rne false false 1 1 big
      else
        -- fraction = x - floor x = num × 2^e
        let num : Int := sgn s n - big * 2 ^ (-e).toNat
        if num = 0 then roundQ f .rne false false 1 1 big
        else refine f (fun p => ivExp2 p num.toNat e) big 6 (128 + depthOf num.toNat e)
  | .log2 =>
    if n = 0 then f.infBits true
    else if s then f.nanBits
    else if n = 2 ^ Nat.log2 n then fround f .rne false (FV.ofInt (e + Nat.log2 n))
    else refine f (fun p => ivLog2 p n e) 0 6 (160 + f.fb)
  | .sin => if n = 0 then f.sign s else
      let r := refine f (fun p => ivTrig false p n e) 0 6 (160 + f.fb + 2 * depthOf n e)
      if s then (r + 2 ^ (f.width - 1)) % 2 ^ f.width else r
  | .cos => if n = 0 then roundQ f .rne false false 1 1 0 else refine f (fun p => ivTrig true p n e) 0 6 (160 + f.fb + 2 * depthOf n e)

/-- A special function on a bit pattern: DAZ on the operand, RNE, FTZ on the result (R111, R112, Table 7.7). -/
def specFn (env : FEnv) (t : Ty) (fn : SpecFn) (x : Nat) : Nat :=
  let f := fmtOf t
  let one := roundQ f .rne false false 1 1 0
  let r := match frd env t x with
    | .nan => f.nanBits
    | .inf s =>
      match fn with
      | .rcp => f.sign s
      | .rsqrt => if s then f.nanBits else 0
      | .exp2 => if s then 0 else f.infBits false
      | .log2 => if s then f.nanBits else f.infBits false
      | .sin | .cos => f.nanBits
    | .fin s n e =>
      if n = 0 then
        match fn with
        | .exp2 | .cos => one
        | _ => specFin f fn s 0 0
      else specFin f fn s n e
  flush env.ftz f r

end Sys2Proof.Machine
end

