-- ==== Sys2Proof/Machine/Flags.lean ====
section
/-! DEFINITION. Every per-element computation of classes 1 to 6: integer results (Table 11.4), compares (R162, R163, R166), floating-point
results (Table 11.5), the settings of `mode` (Table 7.4), tree reductions and scans (R109) and the exact accumulator (R104 to R106). -/

namespace Sys2Proof.Machine

/-- The rounding mode an RM code names (Table 7.4). -/
def rmOf (c : Nat) : Rm :=
  match c % 4 with
  | 0 => .rne | 1 => .rtz | 2 => .rup | _ => .rdn

/-- RM, or the mode the encoding names (R101, R120). -/
def rmSel (mode : Word) : Rmo → Rm
  | .mode => rmOf (mode.extractLsb' 0 2).toNat
  | .rne => .rne | .rtz => .rtz | .rup => .rup | .rdn => .rdn

/-- The settings an instruction applies, from the value of `mode` it carries (R92, R101, R102). -/
def envOf (mode : Word) (r : Rmo) : FEnv := { rm := rmSel mode r, daz := mode.getLsbD 2, ftz := mode.getLsbD 3 }

/-- CHECK of `mode` (Table 7.4). -/
def modeCheck (mode : Word) : Bool := mode.getLsbD 4

/-- The lowest reserved bit set in a value for `mode` (R101). -/
def modeBad (v : Word) : Option Nat := ((List.range 59).map (· + 5)).find? (fun k => v.getLsbD k)

/-- Integer operations of Table 11.4 with two operands. -/
inductive IOp where
  | add | sub | mul | mulhi | div | rem | min | max | and | or | xor | shl | shr | bfe | mov
  deriving DecidableEq, Repr

/-- An exact result wrapped, or clamped under SAT. -/
def iOut (t : Ty) (sat : Bool) (x : Int) : Nat := wrapTo t.width (if sat then clampTy t x else x)

def bitLen (w x : Nat) : Nat := if x % 2 ^ w = 0 then 0 else Nat.log2 (x % 2 ^ w) + 1
def popc (w x : Nat) : Nat := (List.range w).foldl (fun a k => a + (if x.testBit k then 1 else 0)) 0
def brev (w x : Nat) : Nat := (List.range w).foldl (fun a k => if x.testBit k then a + 2 ^ (w - 1 - k) else a) 0

/-- `bfe` (Table 11.4): bits [off + n - 1 : off] of x, with bits at or above w read as 0, sign-extended from bit n - 1 for `.i*`. -/
def bfe (t : Ty) (x y : Nat) : Nat :=
  let w := t.width
  let off := y % 256
  let n := y / 256 % 256
  let r := x % 2 ^ w / 2 ^ off % 2 ^ n
  if n = 0 then 0
  else if t.isI && r.testBit (n - 1) then wrapTo w ((r : Int) - 2 ^ n) else r % 2 ^ w

/-- The result of Table 11.4 for two w-bit operands. -/
def iBin (op : IOp) (t : Ty) (sat : Bool) (x y : Nat) : Nat :=
  let w := t.width
  let x := x % 2 ^ w
  let y := y % 2 ^ w
  let a := readInt t x
  let b := readInt t y
  match op with
  | .add => iOut t sat (a + b)
  | .sub => iOut t sat (a - b)
  | .mul => wrapTo w (a * b)
  | .mulhi => wrapTo w (a * b / 2 ^ w)
  | .div => if b = 0 then 2 ^ w - 1 else wrapTo w (a.tdiv b)
  | .rem => if b = 0 then x else wrapTo w (a.tmod b)
  | .min => if a < b then x else y
  | .max => if b < a then x else y
  | .and => x &&& y
  | .or => x ||| y
  | .xor => x ^^^ y
  | .shl => if w ≤ y then 0 else x * 2 ^ y % 2 ^ w
  | .shr => if w ≤ y then (if t.isI && decide (a < 0) then 2 ^ w - 1 else 0) else wrapTo w (a / 2 ^ y)
  | .bfe => bfe t x y
  | .mov => y

/-- Operations of Table 11.4 with one operand. -/
inductive IUn where
  | abs | neg | not | clz | popc | brev
  deriving DecidableEq, Repr

def iUn (op : IUn) (t : Ty) (sat : Bool) (x : Nat) : Nat :=
  let w := t.width
  let x := x % 2 ^ w
  let a := readInt t x
  match op with
  | .abs => iOut t sat a.natAbs
  | .neg => iOut t sat (-a)
  | .not => 2 ^ w - 1 - x
  | .clz => w - bitLen w x
  | .popc => popc w x
  | .brev => brev w x

/-- Integer compare in the type's order (R162). -/
def iCmp (c : Cnd) (t : Ty) (x y : Nat) : Bool :=
  let a := readInt t x
  let b := readInt t y
  match c with
  | .eq => decide (a = b) | .ne => decide (a ≠ b) | .lt => decide (a < b) | .le => decide (a ≤ b)
  | .gt => decide (b < a) | .ge => decide (b ≤ a) | .unord => false | .ord => true

/-- Floating-point compare (R166). -/
def fCmp (env : FEnv) (c : Cnd) (t : Ty) (x y : Nat) : Bool :=
  let a := frd env t x
  let b := frd env t y
  let un := a.isNan || b.isNan
  let o := fcmpv a b
  match c with
  | .eq => !un && decide (o = 0) | .ne => un || decide (o ≠ 0) | .lt => !un && decide (o < 0) | .le => !un && decide (o ≤ 0)
  | .gt => !un && decide (0 < o) | .ge => !un && decide (0 ≤ o) | .unord => un | .ord => !un

/-- Floating-point operations of Table 11.5 with two operands. -/
inductive FOp where
  | add | sub | mul | min | max | copysign | ldexp
  deriving DecidableEq, Repr

/-- |x| with a given sign: NaN gives NaN (Table 11.5), subnormal results flushed under FTZ. -/
def fsetSign (env : FEnv) (t : Ty) (v : FV) (s : Bool) : Nat :=
  match v with
  | .nan => (fmtOf t).nanBits
  | .inf _ => (fmtOf t).infBits s
  | .fin _ n e => fwr env t (.fin s n e)

def fBin (op : FOp) (env : FEnv) (t : Ty) (x y : Nat) : Nat :=
  let f := fmtOf t
  let a := frd env t x
  match op with
  | .add => fwr env t (fadd env.rm a (frd env t y))
  | .sub => fwr env t (fsubv env.rm a (frd env t y))
  | .mul => fwr env t (fmulv a (frd env t y))
  | .min => flush env.ftz f (fminmax f false (flush env.daz f x) (flush env.daz f y))
  | .max => flush env.ftz f (fminmax f true (flush env.daz f x) (flush env.daz f y))
  | .copysign => fsetSign env t a (y.testBit (f.width - 1))
  | .ldexp =>
    match a with
    | .fin s n e => fwr env t (.fin s n (if n = 0 then 0 else
        -- beyond any format's range the result no longer changes
        e + max (-8192) (min 8192 (readInt (ldexpTy t) y))))
    | v => fwr env t v

/-- Floating-point operations with one operand. -/
inductive FUn where
  | abs | neg | rint | fclass
  deriving DecidableEq, Repr

/-- The class bit of a value (Table 11.5), read with no DAZ. -/
def fclass (f : Fmt) (x : Nat) : Nat :=
  match fdec f x with
  | .nan => 2 ^ 8
  | .inf s => if s then 2 ^ 0 else 2 ^ 7
  | .fin s n _ =>
    if n = 0 then (if s then 2 ^ 3 else 2 ^ 4)
    else if fsub f x then (if s then 2 ^ 2 else 2 ^ 5) else (if s then 2 ^ 1 else 2 ^ 6)

/-- `rint`: rounded to an integral value; a zero result keeps x's sign. -/
def frint (env : FEnv) (t : Ty) (v : FV) : Nat :=
  match v with
  | .fin s n e => if e ≥ 0 then fwr env t v else fwr env t (.fin s (rscale env.rm s n 1 e 0) 0)
  | v => fwr env t v

def fUn (op : FUn) (env : FEnv) (t : Ty) (x : Nat) : Nat :=
  let a := frd env t x
  match op with
  | .abs => fsetSign env t a false
  | .neg => fsetSign env t a (!a.neg?)
  | .rint => frint env t a
  | .fclass => fclass (fmtOf t) x

/-- `fma` and `fnma` (Table 11.5): one rounding of x × y + c, or c − x × y. -/
def fFma (negate : Bool) (env : FEnv) (t : Ty) (x y c : Nat) : Nat :=
  let p := fmulv (frd env t x) (frd env t y)
  fwr env t (if negate then fsubv env.rm (frd env t c) p else fadd env.rm (frd env t c) p)

/-- `mad` (R164): c plus the exact products of the sub-elements, modulo 2^64. -/
def iMad (t : Ty) (x y c : Nat) : Nat :=
  if t.width = 32 then
    wrapTo 64 ((c : Int) + readInt t x * readInt t y + readInt t (x / 2 ^ 32) * readInt t (y / 2 ^ 32))
  else wrapTo 64 ((c : Int) + readInt t x * readInt t y)

/-- The literal's w-bit value (R122), or the whole 64 bits for `sel` (zero-extended, R162). -/
def litVal (t : Ty) (v : BitVec 32) : Nat :=
  match t with
  | .f64 => fround (fmtOf .f64) .rne false (fdec (fmtOf .f32) v.toNat)
  | .i64 => (v.signExtend 64).toNat
  | _ => v.toNat % 2 ^ t.width

/-- Combinations of lane reductions and scans (R175). -/
inductive ROp where
  | add | min | max | and | or | xor
  deriving DecidableEq, Repr

def rComb (op : ROp) (env : FEnv) (t : Ty) (x y : Nat) : Nat :=
  if t.isF then
    let env := { env with daz := false }
    match op with
    | .min => fBin .min env t x y
    | .max => fBin .max env t x y
    | _ => fBin .add env t x y
  else
    match op with
    | .add => iBin .add t false x y
    | .min => iBin .min t false x y
    | .max => iBin .max t false x y
    | .and => iBin .and t false x y
    | .or => iBin .or t false x y
    | .xor => iBin .xor t false x y

/-- An operand as a reduction reads it: DAZ on floats (R109). -/
def rIn (env : FEnv) (t : Ty) (x : Nat) : Nat := if t.isF then flush env.daz (fmtOf t) (x % 2 ^ t.width) else x % 2 ^ t.width
/-- A value as a reduction writes it: FTZ on floats, also an operand that was combined with nothing (R109); such an operand that is a NaN keeps
its sign and payload (log 81). -/
def rOut (env : FEnv) (t : Ty) (x : Nat) : Nat := if t.isF then flush env.ftz (fmtOf t) x else x

/-- An absent value combined with y gives y (R109). -/
def optComb (f : Nat → Nat → Nat) : Option Nat → Option Nat → Option Nat
  | none, y => y
  | x, none => x
  | some x, some y => some (f x y)

/-- One pass of the tree: neighbours combined, the lower lane at the left. -/
def treePass (f : Nat → Nat → Nat) : List (Option Nat) → List (Option Nat)
  | a :: b :: r => optComb f a b :: treePass f r
  | r => r
/-- The reduction tree of R109 over 32 lanes: five passes. -/
def treeReduce (f : Nat → Nat → Nat) (xs : List (Option Nat)) : Option Nat :=
  ((treePass f (treePass f (treePass f (treePass f (treePass f xs))))).headD none)

/-- One pass of the inclusive scan at distance d. -/
def scanPass (f : Nat → Nat → Nat) (d : Nat) (xs : List (Option Nat)) : List (Option Nat) :=
  xs.take d ++ List.zipWith (optComb f) xs (xs.drop d)
def scanIncl (f : Nat → Nat → Nat) (xs : List (Option Nat)) : List (Option Nat) :=
  scanPass f 16 (scanPass f 8 (scanPass f 4 (scanPass f 2 (scanPass f 1 xs))))
/-- The exclusive scan: the inclusive result of the highest active lane below, the identity for the lowest active lane. -/
def scanExcl (act : List Bool) (ident : Nat) (incl : List (Option Nat)) : List (Option Nat) :=
  ((act.zip incl).foldl (fun (st : Option Nat × List (Option Nat)) p =>
    if p.1 then (p.2, st.2 ++ [some (st.1.getD ident)]) else (st.1, st.2 ++ [none])) (none, [])).2
/-- Identities of the exclusive scan (R109). -/
def rIdent (op : ROp) (t : Ty) : Nat :=
  match op with
  | .add | .or | .xor => 0
  | .and => 2 ^ t.width - 1
  | .min => if t.isF then (fmtOf t).infBits false else wrapTo t.width (tyMax t)
  | .max => if t.isF then (fmtOf t).infBits true else wrapTo t.width (tyMin t)

/-- The exact integer X of an accumulator's bits. -/
def xaInt (x : BitVec 2176) : Int := x.toInt
/-- Replace X by an exact sum Y, with OVF where Y lies outside the range (R104, R105). -/
def xaPut (x y : Int) : BitVec 2176 × Bool :=
  (BitVec.ofInt 2176 (x + y), decide (x + y < -(2 ^ 2175)) || decide (2 ^ 2175 ≤ x + y))

end Sys2Proof.Machine
end

