-- ==== Sys2Proof/Config.lean ====
section
/-! DEFINITION. What an implementation fixes and the manual leaves open: free values, opaque constants that nothing can evaluate, and the
figures of the full module (Tables 1.1, 1.2, 5.2). -/

namespace Sys2Proof

/-- A free bit string of any width, fresh for each value of the counter State.fresh it is applied to (log 5). -/
opaque Config.free : Nat → Nat → Nat

/-- SHAKE256 of a message, 32 bytes (R383, R389, R390): a fixed function the manual names and does not define (log 24). -/
opaque Config.shake256 : List Byte → BitVec 256

/-- ML-DSA-65 verification of a signature over a digest with a public key (R383, R386; log 24). -/
opaque Config.mldsaVerify : BitVec 256 → BitVec 256 → BitVec 256 → Bool

/-- ML-DSA-65 signature of a digest with a private key (R389, R390; log 24). -/
opaque Config.mldsaSign : BitVec 256 → BitVec 256 → BitVec 256

/-- The identity seed that the PUF yields with the helper data (R383; log 24). -/
opaque Config.pufSeed : List Byte → BitVec 256

/-- A key pair derived from a seed under a label, as (private, public) (R389; log 24). -/
opaque Config.deriveKey : BitVec 256 → Nat → BitVec 256 × BitVec 256

/-- The vendor public key whose digest the ROM holds (R383; log 24). -/
opaque Config.vendorKey : BitVec 256

/-- The bytes of a configuration record from its contents (R386; log 24). -/
opaque Config.cfgBytes : List Nat → List Byte

/-- Cherun's PCIe vendor ID (R385; log 84). -/
opaque Config.vendorId : BitVec 16

/-- Spare rows of a memory channel (R396; log 38). -/
opaque Config.spareRows : Nat → Nat

/-- The frame header of AV1 from the output descriptor, the superblock size, the frame number and whether it is a key frame (R344; log 25). -/
opaque Config.av1Header : BitVec 512 → Nat → Nat → Bool → List Byte

/-- The open bitstream units of one AV1 tile row, from the converted samples, its shape (width, lines, superblock size, row in the frame, height
of the frame, bit depth, quantiser index), whether it is a key frame, and the previous frame (R344; log 25). -/
opaque Config.av1Row : List Nat → List Nat → Bool → List Byte → List Byte

/-- The reference samples that coding a tile row leaves, from the same data (R344; log 25). -/
opaque Config.av1Recon : List Nat → List Nat → Bool → List Byte → List Byte

/-- What a ray-state block holds that software has written: whether its check word passes (0), and its fields (R351; log 23). -/
opaque Config.rayBlock : Nat → Nat → Nat

/-- Whether a group parked faulted counts in a family once for each lane that names it, where R41's words and R290's differ (log 72). -/
opaque Config.faultsEachLane : Bool

/-- Sizes of Tables 1.1, 1.2 and 5.1. -/
def Config.userSlots : Nat := 32
def Config.coreRegs : Nat := 2048
def Config.coreLsKib : Nat := 512
def Config.coreAccKib : Nat := 256
def Config.copySlots : Nat := 16
def Config.mqDepth : Nat := 8
def Config.poolBlocks : Nat := 2048
def Config.ownRecords : Nat := 262144
def Config.launchEntries : Nat := 65536
def Config.feedBytes : Nat := 65536

end Sys2Proof
end

