-- ==== Sys2Proof/Decode.lean ====
section
/-! DEFINITION. Decoding and encoding: parcels and length (R113), the three formats (R116 to R119), field words (R120, R121), literals
(R122), the opcode map (Tables 9.6 to 9.8) and the operand fields of Tables 11.1, 13.1, 15.1 and 21.1. Decoding is total: parcels give
an instruction (an unassigned encoding gives ILLEGAL_OPCODE by name) or a reserved-field error with its lowest offending bit (R398). -/

namespace Sys2Proof

/-- The fields of a 64-bit or 96-bit form (Table 9.3), its literal parcel and its inline record. -/
structure Fld where
  form96 : Bool
  stall : BitVec 4
  opc : BitVec 10
  d : BitVec 11
  a : BitVec 11
  b : BitVec 11
  c : BitVec 11
  mask : BitVec 3
  md : Bool
  lit : BitVec 32
  tsr : Option (BitVec 128)
  deriving DecidableEq, Repr

/-- The fields of the 32-bit form (Table 9.2). -/
structure CFld where
  stall : BitVec 2
  op8 : BitVec 8
  d : BitVec 7
  a : BitVec 7
  b : BitVec 7
  deriving DecidableEq, Repr

/-- An instruction as fields. -/
inductive Raw where
  | long (f : Fld) | short (f : CFld)
  deriving DecidableEq, Repr

/-- What parcels decode to. -/
inductive Decoded where
  | instr (i : Instr)
  | reserved (bit : Nat)
  deriving DecidableEq, Repr

/-- The first two parcels of a 64-bit or 96-bit form (Table 9.3). -/
def Fld.word (f : Fld) : BitVec 64 :=
  BitVec.ofBool f.md ++ f.mask ++ f.c ++ f.b ++ f.a ++ f.d ++ f.opc ++ f.stall ++ (if f.form96 then 3#2 else 1#2)

/-- The fields of the first two parcels, with a literal and a record. -/
def Fld.ofWord (w : BitVec 64) (lit : BitVec 32) (tsr : Option (BitVec 128)) : Fld :=
  { form96 := w.getLsbD 1, stall := w.extractLsb' 2 4, opc := w.extractLsb' 6 10, d := w.extractLsb' 16 11,
    a := w.extractLsb' 27 11, b := w.extractLsb' 38 11, c := w.extractLsb' 49 11, mask := w.extractLsb' 60 3,
    md := w.getLsbD 63, lit := lit, tsr := tsr }

/-- The parcel of a 32-bit form (Table 9.2). -/
def CFld.word (f : CFld) : BitVec 32 := f.b ++ f.a ++ f.d ++ f.op8 ++ f.stall ++ 0#1

/-- The fields of a 32-bit form. -/
def CFld.ofWord (w : BitVec 32) : CFld :=
  { stall := w.extractLsb' 1 2, op8 := w.extractLsb' 3 8, d := w.extractLsb' 11 7, a := w.extractLsb' 18 7, b := w.extractLsb' 25 7 }

/-- The number of parcels, from the first two (Table 9.1). -/
def parcelCount (p0 p1 : Parcel) : Nat :=
  if p0.getLsbD 0 = false then 1
  else (if p0.getLsbD 1 then 3 else 2) + (if (p0.extractLsb' 12 4 == 10#4 || p0.extractLsb' 12 4 == 11#4) && p1.getLsbD 31 then 4 else 0)

def joinRec (r0 r1 r2 r3 : Parcel) : BitVec 128 := r3 ++ r2 ++ r1 ++ r0

/-- Parcels as fields: the literal is the third parcel of a 96-bit form, the record the four after the base parcels. -/
def rawOf (ps : List Parcel) : Raw :=
  let p (k : Nat) : Parcel := ps.getD k 0
  if (p 0).getLsbD 0 = false then .short (CFld.ofWord (p 0))
  else
    let n := if (p 0).getLsbD 1 then 3 else 2
    .long (Fld.ofWord (p 1 ++ p 0) (if n = 3 then p 2 else 0)
      (if parcelCount (p 0) (p 1) = n then none else some (joinRec (p n) (p (n + 1)) (p (n + 2)) (p (n + 3)))))

/-- The parcels of fields. -/
def Raw.parcels : Raw → List Parcel
  | .short f => [f.word]
  | .long f =>
    [f.word.extractLsb' 0 32, f.word.extractLsb' 32 32] ++ (if f.form96 then [f.lit] else []) ++
      match f.tsr with
      | none => []
      | some r => [r.extractLsb' 0 32, r.extractLsb' 32 32, r.extractLsb' 64 32, r.extractLsb' 96 32]

/-- Fields read as an instruction, with the bits of field values the instruction does not admit; nothing where the combination is no
instruction (R118, R119, R130). -/
abbrev Parse := Option (Instr × List Nat)

def rmoCode : Rmo → BitVec 3
  | .mode => 0 | .rne => 4 | .rtz => 5 | .rup => 6 | .rdn => 7
def rmoOf (c : BitVec 3) : Option Rmo :=
  match c.toNat with
  | 0 => some .mode | 4 => some .rne | 5 => some .rtz | 6 => some .rup | 7 => some .rdn
  | _ => none
def cndCode : Cnd → BitVec 3
  | .eq => 0 | .ne => 1 | .lt => 2 | .le => 3 | .gt => 4 | .ge => 5 | .unord => 6 | .ord => 7
def cndOf (c : BitVec 3) : Cnd :=
  match c.toNat with
  | 0 => .eq | 1 => .ne | 2 => .lt | 3 => .le | 4 => .gt | 5 => .ge | 6 => .unord
  | _ => .ord
def semCode : Sem → BitVec 3
  | .plain => 0 | .acq => 1 | .rel => 2 | .ar => 3 | .sc => 4
def semOf (c : BitVec 3) : Option Sem :=
  match c.toNat with
  | 0 => some .plain | 1 => some .acq | 2 => some .rel | 3 => some .ar | 4 => some .sc
  | _ => none
def scpCode : Scp → BitVec 3
  | .wave => 0 | .group => 1 | .crew => 2 | .dev => 3 | .dom => 4 | .sys => 5
def scpOf (c : BitVec 3) : Option Scp :=
  match c.toNat with
  | 0 => some .wave | 1 => some .group | 2 => some .crew | 3 => some .dev | 4 => some .dom | 5 => some .sys
  | _ => none

/-- A TY word (R120). -/
def tyW (ty : Ty) (hi : BitVec 3) (sat : Bool) : BitVec 11 := 0#2 ++ BitVec.ofBool sat ++ hi ++ ty.code
/-- A MEM word (R121). -/
def memC (m : MemW) : BitVec 11 := m.ty.code ++ scpCode m.scp ++ semCode m.sem
/-- A scope word (R121). -/
def scpC (s : Scp) : BitVec 11 := 0#5 ++ scpCode s ++ 0#3
/-- A condition word (R131, R153). -/
def condW (neg : Bool) (m : BitVec 3) : BitVec 11 := 0#7 ++ BitVec.ofBool neg ++ m
/-- A completion word (Table 13.7). -/
def cwW (w : Cw) : BitVec 11 := BitVec.ofBool w.bo ++ 0#3 ++ w.sreg
def itC : Option Ty → BitVec 5
  | none => 0
  | some t => t.code

def pHd (f : Fld) : Hd := { mask := f.mask, stall := f.stall }
def pTy (tys : List Ty) (f : Fld) : Option Ty := (Ty.ofCode (f.c.extractLsb' 0 5)).filter (fun t => tys.contains t)
def pHi (f : Fld) : BitVec 3 := f.c.extractLsb' 5 3
def pSat (f : Fld) : Bool := f.c.getLsbD 8
def pSB (f : Fld) : SB := if f.form96 then .lit f.lit else .reg f.b
def pVB (f : Fld) : VB := if f.form96 then .lit f.lit else if f.md then .sca f.b else .vec f.b
def pOff (f : Fld) : Off := if f.form96 then .lit f.lit else .none
def pTgt (f : Fld) : Tgt := if f.form96 then .far f.lit else .short f.c
/-- The rounding field and the bit of a reserved value (C[5] is bit 54 of the instruction). -/
def pRmo (f : Fld) : Rmo × List Nat :=
  match rmoOf (pHi f) with
  | some r => (r, [])
  | none => (.mode, [54])
def pCnd (fp : Bool) (ty : Ty) (f : Fld) : Cnd × List Nat :=
  let c := cndOf (pHi f)
  if cndOk fp ty c then (c, []) else (.eq, [54])
/-- The MEM word: a type not admitted is no instruction; a SEM or SCP value not admitted is reserved at bit 49 or 52. -/
def pMem (tys : List Ty) (sems : List Sem) (f : Fld) : Option (MemW × List Nat) :=
  match (Ty.ofCode (f.c.extractLsb' 6 5)).filter (fun t => tys.contains t) with
  | none => none
  | some ty =>
    let (sem, b1) := match semOf (f.c.extractLsb' 0 3) with
      | some s => if sems.contains s then (s, []) else (.plain, [49])
      | none => (.plain, [49])
    let (scp, b2) := match scpOf (f.c.extractLsb' 3 3) with
      | some s => (s, [])
      | none => (.wave, [52])
    some ({ sem := sem, scp := if sem = .plain then .wave else scp, ty := ty }, b1 ++ b2)
/-- A scope word; the scopes admitted are given. -/
def pScp (lock : Bool) (f : Fld) : Scp × List Nat :=
  match scpOf (f.c.extractLsb' 3 3) with
  | some s => if lock && !lockScpOk s then (.dev, [52]) else (s, [])
  | none => (.dev, [52])
def pCw (x : BitVec 11) : Cw := { bo := x.getLsbD 10, sreg := x.extractLsb' 0 7 }
/-- Forms with no 96-bit form (R118). -/
def no96 (f : Fld) (r : Parse) : Parse := if f.form96 then none else r
/-- Forms with only a 96-bit form (R130). -/
def only96 (f : Fld) (r : Parse) : Parse := if f.form96 then r else none
/-- A 96-bit form of an instruction that takes no operand b: RESERVED_FIELD where the map gives it a literal (R147), else no instruction. -/
def lit0 (res : Bool) (f : Fld) : Option (List Nat) := if f.form96 then (if res then some [64] else none) else some []

def eB (o : BitVec 10) (h : Hd) (d a b c : BitVec 11) : Fld :=
  { form96 := false, stall := h.stall, opc := o, d := d, a := a, b := b, c := c, mask := h.mask, md := false, lit := 0, tsr := none }
def eBs (o : BitVec 10) (stall : BitVec 4) (d a b c : BitVec 11) : Fld := eB o { mask := 0, stall := stall } d a b c
def Fld.withSB (f : Fld) : SB → Fld
  | .reg r => { f with b := r }
  | .lit v => { f with form96 := true, lit := v }
def Fld.withVB (f : Fld) : VB → Fld
  | .vec r => { f with b := r }
  | .sca r => { f with b := r, md := true }
  | .lit v => { f with form96 := true, lit := v }
def Fld.withOff (f : Fld) : Off → Fld
  | .none => f
  | .lit v => { f with form96 := true, lit := v }
def Fld.withTgt (f : Fld) : Tgt → Fld
  | .short c => { f with c := c }
  | .far v => { f with form96 := true, lit := v }
def Fld.withRec (f : Fld) : Rec → Fld
  | .mem c => { f with c := 0#4 ++ c }
  | .inl r => { f with md := true, tsr := some r }
def rejHi (r : BitVec 22) : BitVec 11 := r.extractLsb' 11 11
def rejLo (r : BitVec 22) : BitVec 11 := r.extractLsb' 0 11

def eBr (o : BitVec 10) (p : BrF) : Fld := (eBs o p.stall (condW p.neg p.cond) 0 0 0).withTgt p.tgt
def pBr (mk : BrF → Instr) (f : Fld) : Parse :=
  some (mk { neg := f.d.getLsbD 3, cond := f.d.extractLsb' 0 3, tgt := pTgt f, stall := f.stall }, tgtBad (pTgt f))
def eBrD (o : BitVec 10) (p : BrDF) : Fld := (eBs o p.stall (condW p.neg p.cond) (rejHi p.rej) (rejLo p.rej) 0).withTgt p.tgt
def pBrD (mk : BrDF → Instr) (f : Fld) : Parse :=
  some (mk { neg := f.d.getLsbD 3, cond := f.d.extractLsb' 0 3, rej := f.a ++ f.b, tgt := pTgt f, stall := f.stall }, tgtBad (pTgt f))
def eBrx (o : BitVec 10) (p : BrxF) : Fld := eBs o p.stall (condW p.neg p.cond) p.a 0 0
def pBrx (mk : BrxF → Instr) (f : Fld) : Parse :=
  no96 f (some (mk { neg := f.d.getLsbD 3, cond := f.d.extractLsb' 0 3, a := f.a, stall := f.stall }, []))
def eCall (o : BitVec 10) (p : CallF) : Fld := (eBs o p.stall p.d 0 0 0).withTgt p.tgt
def pCall (mk : CallF → Instr) (f : Fld) : Parse := some (mk { d := f.d, tgt := pTgt f, stall := f.stall }, tgtBad (pTgt f))
def eRet (o : BitVec 10) (p : RetF) : Fld := eBs o p.stall 0 p.a 0 0
def pRet (mk : RetF → Instr) (f : Fld) : Parse := no96 f (some (mk { a := f.a, stall := f.stall }, []))
def eNop (o : BitVec 10) (p : NopF) : Fld := eBs o p.stall 0 0 0 0
def pNop (mk : NopF → Instr) (f : Fld) : Parse := no96 f (some (mk { stall := f.stall }, []))
def eBrk (o : BitVec 10) (p : BrkF) : Fld := eBs o p.stall 0 0 0 p.code
def pBrk (mk : BrkF → Instr) (f : Fld) : Parse := no96 f (some (mk { code := f.c, stall := f.stall }, []))

def eSBinSat (o : BitVec 10) (p : SBinSatF) : Fld := (eB o p.h p.d p.a 0 (tyW p.ty 0 p.sat)).withSB p.b
def pSBinSat (tys : List Ty) (mk : SBinSatF → Instr) (f : Fld) : Parse :=
  match pTy tys f with
  | none => none
  | some ty => some (mk { h := pHd f, d := f.d, a := f.a, b := pSB f, ty := ty, sat := pSat f }, (pSB f).litBad ty)
def eSBin (o : BitVec 10) (p : SBinF) : Fld := (eB o p.h p.d p.a 0 (tyW p.ty 0 false)).withSB p.b
def pSBin (tys : List Ty) (mk : SBinF → Instr) (f : Fld) : Parse :=
  match pTy tys f with
  | none => none
  | some ty => some (mk { h := pHd f, d := f.d, a := f.a, b := pSB f, ty := ty }, (pSB f).litBad ty)
def eSUn (o : BitVec 10) (p : SUnF) : Fld := eB o p.h p.d p.a 0 (tyW p.ty 0 false)
def pSUn (tys : List Ty) (res : Bool) (mk : SUnF → Instr) (f : Fld) : Parse :=
  match pTy tys f, lit0 res f with
  | some ty, some bad => some (mk { h := pHd f, d := f.d, a := f.a, ty := ty }, bad)
  | _, _ => none
def eSMov (o : BitVec 10) (p : SMovF) : Fld := (eB o p.h p.d 0 0 (tyW p.ty 0 false)).withSB p.b
def pSMov (tys : List Ty) (mk : SMovF → Instr) (f : Fld) : Parse :=
  match pTy tys f with
  | none => none
  | some ty => some (mk { h := pHd f, d := f.d, b := pSB f, ty := ty }, (pSB f).litBad ty)
def eSCmp (o : BitVec 10) (p : SCmpF) : Fld := (eB o p.h p.d p.a 0 (tyW p.ty (cndCode p.cnd) false)).withSB p.b
def pSCmp (mk : SCmpF → Instr) (f : Fld) : Parse :=
  match pTy tysINB f with
  | none => none
  | some ty => some (mk { h := pHd f, d := f.d, a := f.a, b := pSB f, ty := ty, cnd := (pCnd false ty f).1 }, (pCnd false ty f).2 ++ (pSB f).litBad ty)
def eSSel (o : BitVec 10) (p : SSelF) : Fld := (eB o p.h p.d p.a 0 (0#4 ++ p.c)).withSB p.b
def pSSel (mk : SSelF → Instr) (f : Fld) : Parse :=
  some (mk { h := pHd f, d := f.d, a := f.a, b := pSB f, c := f.c.extractLsb' 0 7 }, [])

def eVBinSat (o : BitVec 10) (p : VBinSatF) : Fld := (eB o p.h p.d p.a 0 (tyW p.ty 0 p.sat)).withVB p.b
def pVBinSat (tys : List Ty) (mk : VBinSatF → Instr) (f : Fld) : Parse :=
  match pTy tys f with
  | none => none
  | some ty => some (mk { h := pHd f, d := f.d, a := f.a, b := pVB f, ty := ty, sat := pSat f }, (pVB f).litBad ty)
def eVBin (o : BitVec 10) (p : VBinF) : Fld := (eB o p.h p.d p.a 0 (tyW p.ty 0 false)).withVB p.b
def pVBin (tys : List Ty) (mk : VBinF → Instr) (f : Fld) : Parse :=
  match pTy tys f with
  | none => none
  | some ty => some (mk { h := pHd f, d := f.d, a := f.a, b := pVB f, ty := ty }, (pVB f).litBad ty)
def eVUnSat (o : BitVec 10) (p : VUnSatF) : Fld := eB o p.h p.d p.a 0 (tyW p.ty 0 p.sat)
def pVUnSat (tys : List Ty) (mk : VUnSatF → Instr) (f : Fld) : Parse :=
  match pTy tys f, lit0 true f with
  | some ty, some bad => some (mk { h := pHd f, d := f.d, a := f.a, ty := ty, sat := pSat f }, bad)
  | _, _ => none
def eVUn (o : BitVec 10) (p : VUnF) : Fld := eB o p.h p.d p.a 0 (tyW p.ty 0 false)
def pVUn (tys : List Ty) (res : Bool) (mk : VUnF → Instr) (f : Fld) : Parse :=
  match pTy tys f, lit0 res f with
  | some ty, some bad => some (mk { h := pHd f, d := f.d, a := f.a, ty := ty }, bad)
  | _, _ => none
def eVMov (o : BitVec 10) (p : VMovF) : Fld := (eB o p.h p.d 0 0 (tyW p.ty 0 false)).withVB p.b
def pVMov (tys : List Ty) (mk : VMovF → Instr) (f : Fld) : Parse :=
  match pTy tys f with
  | none => none
  | some ty => some (mk { h := pHd f, d := f.d, b := pVB f, ty := ty }, (pVB f).litBad ty)
def eVCmp (o : BitVec 10) (p : VCmpF) : Fld := (eB o p.h p.d p.a 0 (tyW p.ty (cndCode p.cnd) false)).withVB p.b
def pVCmp (fp : Bool) (mk : VCmpF → Instr) (f : Fld) : Parse :=
  match pTy (if fp then tysF4 else tysINB) f with
  | none => none
  | some ty => some (mk { h := pHd f, d := f.d, a := f.a, b := pVB f, ty := ty, cnd := (pCnd fp ty f).1 }, (pCnd fp ty f).2 ++ (pVB f).litBad ty)
def eVSel (o : BitVec 10) (p : VSelF) : Fld := (eB o p.h p.d p.a 0 (0#8 ++ p.c)).withVB p.b
def pVSel (mk : VSelF → Instr) (f : Fld) : Parse :=
  some (mk { h := pHd f, d := f.d, a := f.a, b := pVB f, c := f.c.extractLsb' 0 3 }, [])
def eMad (o : BitVec 10) (p : MadF) : Fld := { eB o p.h p.d p.a p.b p.c with md := p.bs }
def pMad (mk : MadF → Instr) (f : Fld) : Parse :=
  no96 f (some (mk { h := pHd f, d := f.d, a := f.a, bs := f.md, b := f.b, c := f.c }, []))
def eFBin (o : BitVec 10) (p : FBinF) : Fld := (eB o p.h p.d p.a 0 (tyW p.ty (rmoCode p.rmo) false)).withVB p.b
def pFBin (mk : FBinF → Instr) (f : Fld) : Parse :=
  match pTy tysF4 f with
  | none => none
  | some ty => some (mk { h := pHd f, d := f.d, a := f.a, b := pVB f, ty := ty, rmo := (pRmo f).1 }, (pRmo f).2 ++ (pVB f).litBad ty)
def eLdexp (o : BitVec 10) (p : FBinF) : Fld := eFBin o p
def pLdexp (mk : FBinF → Instr) (f : Fld) : Parse :=
  match pTy tysF4 f with
  | none => none
  | some ty => some (mk { h := pHd f, d := f.d, a := f.a, b := pVB f, ty := ty, rmo := (pRmo f).1 }, (pRmo f).2 ++ (pVB f).litBad (ldexpTy ty))
def eFUnR (o : BitVec 10) (p : FUnRF) : Fld := eB o p.h p.d p.a 0 (tyW p.ty (rmoCode p.rmo) false)
def pFUnR (tys : List Ty) (res : Bool) (mk : FUnRF → Instr) (f : Fld) : Parse :=
  match pTy tys f, lit0 res f with
  | some ty, some bad => some (mk { h := pHd f, d := f.d, a := f.a, ty := ty, rmo := (pRmo f).1 }, (pRmo f).2 ++ bad)
  | _, _ => none
def eCvt (o : BitVec 10) (p : CvtF) : Fld := eB o p.h p.d p.a (0#6 ++ p.src.code) (tyW p.dst (rmoCode p.rmo) p.sat)
def pCvt (k : CvtKind) (mk : CvtF → Instr) (f : Fld) : Parse :=
  no96 f (match Ty.ofCode (f.b.extractLsb' 0 5), pTy tysF6IN f with
    | some src, some dst =>
      if cvtOk k dst src then
        some (mk { h := pHd f, d := f.d, a := f.a, src := src, dst := dst, rmo := (pRmo f).1, sat := pSat f }, (pRmo f).2)
      else none
    | _, _ => none)
def eCbDec (o : BitVec 10) (p : CbDecF) : Fld := eB o p.h p.d p.a 0 0
def pCbDec (mk : CbDecF → Instr) (f : Fld) : Parse := no96 f (some (mk { h := pHd f, d := f.d, a := f.a }, []))
def eXl (o : BitVec 10) (p : XlF) : Fld := { eB o p.h p.d p.a p.b (tyW p.ty 0 false) with md := p.z }
def pXl (tys : List Ty) (mk : XlF → Instr) (f : Fld) : Parse :=
  no96 f (match pTy tys f with
    | some ty => some (mk { h := pHd f, z := f.md, d := f.d, a := f.a, b := f.b, ty := ty }, [])
    | none => none)
def eXlSh (o : BitVec 10) (p : XlF) : Fld := eXl o p
def pXlSh (mk : XlF → Instr) (f : Fld) : Parse :=
  no96 f (match pTy tysXl f with
    | some ty =>
      if f.b.toNat < 32 * (64 / ty.width) then some (mk { h := pHd f, z := f.md, d := f.d, a := f.a, b := f.b, ty := ty }, [])
      else some (mk { h := pHd f, z := f.md, d := f.d, a := f.a, b := 0, ty := ty }, [38])
    | none => none)
def eXlVote (o : BitVec 10) (p : XlVoteF) : Fld := eB o p.h p.d p.a 0 0
def pXlVote (mk : XlVoteF → Instr) (f : Fld) : Parse := no96 f (some (mk { h := pHd f, d := f.d, a := f.a }, []))
def eRedAdd (o : BitVec 10) (p : RedAddF) : Fld := eB o p.h p.d p.a 0 (tyW p.ty (rmoCode p.rmo) false)
def pRedAdd (mk : RedAddF → Instr) (f : Fld) : Parse :=
  no96 f (match pTy tysF4IN f with
    | some ty =>
      let r := if ty.isF then pRmo f else (.mode, [])
      some (mk { h := pHd f, d := f.d, a := f.a, ty := ty, rmo := r.1 }, r.2)
    | none => none)
def eXaClr (o : BitVec 10) (p : XaClrF) : Fld := eB o p.h 0 0 0 0
def pXaClr (mk : XaClrF → Instr) (f : Fld) : Parse := no96 f (some (mk { h := pHd f }, []))
def eXaAdd (o : BitVec 10) (p : XaAddF) : Fld := eB o p.h 0 p.a 0 (tyW p.ty 0 false)
def pXaAdd (mk : XaAddF → Instr) (f : Fld) : Parse :=
  no96 f (match pTy tysF6IN f with
    | some ty => some (mk { h := pHd f, a := f.a, ty := ty }, [])
    | none => none)
def eXaMac (o : BitVec 10) (p : XaMacF) : Fld := eB o p.h 0 p.a p.b (tyW p.ty 0 false)
def pXaMac (mk : XaMacF → Instr) (f : Fld) : Parse :=
  no96 f (match pTy tysMac f with
    | some ty => some (mk { h := pHd f, a := f.a, b := f.b, ty := ty }, [])
    | none => none)
def eXaRnd (o : BitVec 10) (p : XaRndF) : Fld := eB o p.h p.d 0 0 (tyW p.ty (rmoCode p.rmo) p.sat)
def pXaRnd (mk : XaRndF → Instr) (f : Fld) : Parse :=
  no96 f (match pTy tysF6 f with
    | some ty => some (mk { h := pHd f, d := f.d, ty := ty, rmo := (pRmo f).1, sat := pSat f }, (pRmo f).2)
    | none => none)
/-- A chunk of `xa.get` or `xa.set` (R178). -/
def pChunk (f : Fld) : Field11 × List Nat := if f.c.toNat ≤ 34 then (f.c, []) else (0, [49])
def eXaGet (o : BitVec 10) (p : XaGetF) : Fld := eB o p.h p.d 0 0 p.c
def pXaGet (mk : XaGetF → Instr) (f : Fld) : Parse := no96 f (some (mk { h := pHd f, d := f.d, c := (pChunk f).1 }, (pChunk f).2))
def eXaSet (o : BitVec 10) (p : XaSetF) : Fld := eB o p.h 0 p.a 0 p.c
def pXaSet (mk : XaSetF → Instr) (f : Fld) : Parse := no96 f (some (mk { h := pHd f, a := f.a, c := (pChunk f).1 }, (pChunk f).2))
def eXaMerge (o : BitVec 10) (p : XaMergeF) : Fld := eB o p.h 0 p.a 0 0
def pXaMerge (mk : XaMergeF → Instr) (f : Fld) : Parse := no96 f (some (mk { h := pHd f, a := f.a }, []))
def eFDiv (o : BitVec 10) (p : FDivF) : Fld := eB o p.h p.d p.a p.b (tyW p.ty (rmoCode p.rmo) false)
def pFDiv (mk : FDivF → Instr) (f : Fld) : Parse :=
  no96 f (match pTy tysF2 f with
    | some ty => some (mk { h := pHd f, d := f.d, a := f.a, b := f.b, ty := ty, rmo := (pRmo f).1 }, (pRmo f).2)
    | none => none)
def eTrap (o : BitVec 10) (p : TrapF) : Fld := { eBs o p.stall 0 0 0 0 with form96 := true, lit := 0#16 ++ p.code }
def pTrap (mk : TrapF → Instr) (f : Fld) : Parse :=
  only96 f (some (mk { code := f.lit.extractLsb' 0 16, stall := f.stall },
    match lowestOne f.lit 16 16 with
    | some k => [64 + k]
    | none => []))
def eSysS (o : BitVec 10) (p : SysSF) : Fld := eBs o p.stall 0 p.a 0 0
def pSysS (mk : SysSF → Instr) (f : Fld) : Parse := no96 f (some (mk { a := f.a, stall := f.stall }, []))
def eSysD (o : BitVec 10) (p : SysDF) : Fld := eBs o p.stall p.d 0 0 0
def pSysD (mk : SysDF → Instr) (f : Fld) : Parse := no96 f (some (mk { d := f.d, stall := f.stall }, []))
def eCsr (o : BitVec 10) (p : SysIF) : Fld := eBs o p.stall p.d 0 0 p.idx
def pCsr (mk : SysIF → Instr) (f : Fld) : Parse :=
  no96 f (if decide (0x100 ≤ f.c.toNat) || csrListed.contains f.c.toNat then some (mk { d := f.d, idx := f.c, stall := f.stall }, [])
    else some (mk { d := f.d, idx := 0, stall := f.stall }, [49]))
def ePerf (o : BitVec 10) (p : SysIF) : Fld := eBs o p.stall p.d 0 0 p.idx
def pPerf (mk : SysIF → Instr) (f : Fld) : Parse :=
  no96 f (if perfListed.contains f.c.toNat then some (mk { d := f.d, idx := f.c, stall := f.stall }, [])
    else some (mk { d := f.d, idx := 0, stall := f.stall }, [49]))

def eLd (o : BitVec 10) (p : LdF) : Fld := (eB o p.h p.d p.a 0 (memC p.mem)).withOff p.off
def pLd (tys : List Ty) (sems : List Sem) (mk : LdF → Instr) (f : Fld) : Parse :=
  match pMem tys sems f with
  | none => none
  | some m => some (mk { h := pHd f, d := f.d, a := f.a, mem := m.1, off := pOff f }, m.2)
def eSt (o : BitVec 10) (p : StF) : Fld := (eB o p.h 0 p.a p.b (memC p.mem)).withOff p.off
def pSt (tys : List Ty) (sems : List Sem) (mk : StF → Instr) (f : Fld) : Parse :=
  match pMem tys sems f with
  | none => none
  | some m => some (mk { h := pHd f, a := f.a, b := f.b, mem := m.1, off := pOff f }, m.2)
def ePf (o : BitVec 10) (p : PfF) : Fld := (eB o p.h 0 p.a 0 0).withOff p.off
def pPf (mk : PfF → Instr) (f : Fld) : Parse := some (mk { h := pHd f, a := f.a, off := pOff f }, [])
def eAt (o : BitVec 10) (p : AtF) : Fld := (eB o p.h p.d p.a p.b (memC p.mem)).withOff p.off
def pAt (tys : List Ty) (mk : AtF → Instr) (f : Fld) : Parse :=
  match pMem tys semsAtom f with
  | none => none
  | some m => some (mk { h := pHd f, d := f.d, a := f.a, b := f.b, mem := m.1, off := pOff f }, m.2)
def eAtB (o : BitVec 10) (p : AtBF) : Fld := { eB o p.h p.d p.a p.b (memC p.mem) with form96 := true, lit := 0#29 ++ p.m }
def pAtB (mk : AtBF → Instr) (f : Fld) : Parse :=
  only96 f (match pMem tysInc semsAtom f with
    | none => none
    | some m => some (mk { h := pHd f, d := f.d, a := f.a, b := f.b, mem := m.1, m := f.lit.extractLsb' 0 3 },
        m.2 ++ match lowestOne f.lit 3 29 with
          | some k => [64 + k]
          | none => []))
def eFence (o : BitVec 10) (p : FenceF) : Fld := eB o p.h 0 0 0 (scpC p.scp)
def pFence (mk : FenceF → Instr) (f : Fld) : Parse := no96 f (some (mk { h := pHd f, scp := (pScp false f).1 }, (pScp false f).2))
def eBare (o : BitVec 10) (p : BareF) : Fld := eB o p.h 0 0 0 0
def pBare (mk : BareF → Instr) (f : Fld) : Parse := no96 f (some (mk { h := pHd f }, []))
def eBo (o : BitVec 10) (p : BoF) : Fld := (eB o p.h 0 p.a p.b 0).withOff p.off
def pBo (mk : BoF → Instr) (f : Fld) : Parse := some (mk { h := pHd f, a := f.a, b := f.b, off := pOff f }, [])
def eBoArrive (o : BitVec 10) (p : BoArriveF) : Fld := (eB o p.h p.d p.a p.b 0).withOff p.off
def pBoArrive (mk : BoArriveF → Instr) (f : Fld) : Parse := some (mk { h := pHd f, d := f.d, a := f.a, b := f.b, off := pOff f }, [])
def eLock (o : BitVec 10) (p : LockF) : Fld := (eB o p.h 0 p.a 0 (scpC p.scp)).withOff p.off
def pLock (mk : LockF → Instr) (f : Fld) : Parse := some (mk { h := pHd f, a := f.a, scp := (pScp true f).1, off := pOff f }, (pScp true f).2)
def eLockTry (o : BitVec 10) (p : LockTryF) : Fld := (eB o p.h p.d p.a 0 (scpC p.scp)).withOff p.off
def pLockTry (mk : LockTryF → Instr) (f : Fld) : Parse :=
  some (mk { h := pHd f, d := f.d, a := f.a, scp := (pScp true f).1, off := pOff f }, (pScp true f).2)
def eDq (o : BitVec 10) (p : DqF) : Fld := (eB o p.h p.d p.a p.b (scpC p.scp)).withOff p.off
def pDq (mk : DqF → Instr) (f : Fld) : Parse :=
  some (mk { h := pHd f, d := f.d, a := f.a, b := f.b, scp := (pScp true f).1, off := pOff f }, (pScp true f).2)
def eOwnSet (o : BitVec 10) (p : OwnSetF) : Fld := (eB o p.h p.d p.a p.b 0).withOff p.off
def pOwnSet (mk : OwnSetF → Instr) (f : Fld) : Parse := some (mk { h := pHd f, d := f.d, a := f.a, b := f.b, off := pOff f }, [])
def eOwnClr (o : BitVec 10) (p : OwnClrF) : Fld := (eB o p.h 0 p.a 0 0).withOff p.off
def pOwnClr (mk : OwnClrF → Instr) (f : Fld) : Parse := some (mk { h := pHd f, a := f.a, off := pOff f }, [])

/-- The record of a copy or accumulator transfer: inline with MOD = 1, else the memory record of the scalar in C[6:0]. -/
def pRec (f : Fld) : Rec :=
  match f.md, f.tsr with
  | true, some r => .inl r
  | _, _ => .mem (f.c.extractLsb' 0 7)
/-- The type of an inline record; a code that names no type is no instruction (R119). -/
def pIty (f : Fld) (code : BitVec 5) : Option (Option Ty) :=
  match pRec f with
  | .inl _ => match Ty.ofCode code with
    | some t => some (some t)
    | none => none
  | .mem _ => some none
def eCp (o : BitVec 10) (p : CpF) : Fld := (eB o p.h (cwW p.cw) p.a (itC p.ity ++ 0#4 ++ p.dsel) 0).withRec p.tsr
def pCp (k : CpKind) (mk : CpF → Instr) (f : Fld) : Parse :=
  no96 f (match pIty f (f.b.extractLsb' 6 5) with
    | none => none
    | some ity =>
      let ds : BitVec 2 := f.b.extractLsb' 0 2
      let (dsel, bad) := if k = .cpin then (if ds = 3 then (0#2, [38]) else (ds, [])) else (0#2, [])
      some (mk { h := pHd f, cw := pCw f.d, a := if dsel = 0 then f.a else 0, ity := ity, dsel := dsel, tsr := pRec f }, bad))
def eMma (o : BitVec 10) (p : MmaF) : Fld := eB o p.h (0#7 ++ p.ad) (0#3 ++ p.kx) (0#5 ++ p.bblk ++ p.ablk) 0
def pMma (scaled : Bool) (mk : MmaF → Instr) (f : Fld) : Parse :=
  let kx : BitVec 8 := f.a.extractLsb' 0 8
  let ab : BitVec 3 := f.b.extractLsb' 0 3
  let bb : BitVec 3 := f.b.extractLsb' 3 3
  let aOk := scaled && blkOk kx ab
  let bOk := scaled && blkOk kx bb
  no96 f (some (mk { h := pHd f, ad := f.d.extractLsb' 0 4, kx := kx, ablk := if aOk then ab else 0, bblk := if bOk then bb else 0 },
    (if aOk || ab == 0 then [] else [38]) ++ (if bOk || bb == 0 then [] else [41])))
def eAccClr (o : BitVec 10) (p : AccClrF) : Fld := eB o p.h (0#7 ++ p.ad) (0#7 ++ p.mx) (0#7 ++ p.nx) (0#6 ++ p.ty.code)
def pAccClr (mk : AccClrF → Instr) (f : Fld) : Parse :=
  no96 f (match pTy tysAcc f with
    | some ty => some (mk { h := pHd f, ad := f.d.extractLsb' 0 4, mx := f.a.extractLsb' 0 4, nx := f.b.extractLsb' 0 4, ty := ty }, [])
    | none => none)
def eAccLd (o : BitVec 10) (p : AccLdF) : Fld := (eB o p.h (0#7 ++ p.ad) 0 (0#6 ++ itC p.ity) 0).withRec p.tsr
def pAccLd (mk : AccLdF → Instr) (f : Fld) : Parse :=
  no96 f (match pIty f (f.b.extractLsb' 0 5) with
    | some ity => some (mk { h := pHd f, ad := f.d.extractLsb' 0 4, ity := ity, tsr := pRec f }, [])
    | none => none)
def eAccSt (o : BitVec 10) (p : AccStF) : Fld := (eB o p.h (0#7 ++ p.ad) (cwW p.cw) (0#4 ++ p.sb) 0).withRec p.tsr
def pAccSt (mk : AccStF → Instr) (f : Fld) : Parse :=
  no96 f (some (mk { h := pHd f, ad := f.d.extractLsb' 0 4, cw := pCw f.a, sb := f.b.extractLsb' 0 7, tsr := pRec f }, []))
def eAccMov (put : Bool) (o : BitVec 10) (p : AccMovF) : Fld := eB o p.h p.d p.a 0 (0#6 ++ p.ad ++ BitVec.ofBool put)
def pAccMov (mkGet mkPut : AccMovF → Instr) (f : Fld) : Parse :=
  no96 f (some ((if f.c.getLsbD 0 then mkPut else mkGet) { h := pHd f, d := f.d, a := f.a, ad := f.c.extractLsb' 1 4 }, []))
def eFeedSkip (o : BitVec 10) (p : FeedSkipF) : Fld := eB o p.h 0 p.a (0#10 ++ BitVec.ofBool p.fsel) 0
def pFeedSkip (mk : FeedSkipF → Instr) (f : Fld) : Parse := no96 f (some (mk { h := pHd f, a := f.a, fsel := f.b.getLsbD 0 }, []))
def eFeedMark (o : BitVec 10) (p : FeedMarkF) : Fld := eB o p.h p.d 0 (0#10 ++ BitVec.ofBool p.fsel) 0
def pFeedMark (mk : FeedMarkF → Instr) (f : Fld) : Parse := no96 f (some (mk { h := pHd f, d := f.d, fsel := f.b.getLsbD 0 }, []))
def eCbLoad (o : BitVec 10) (p : CbLoadF) : Fld := eB o p.h (0#10 ++ BitVec.ofBool p.tsel) p.a 0 0
def pCbLoad (mk : CbLoadF → Instr) (f : Fld) : Parse := no96 f (some (mk { h := pHd f, tsel := f.d.getLsbD 0, a := f.a }, []))
def eSsm (o : BitVec 10) (p : SsmF) : Fld := eB o p.h (cwW p.cw) p.a 0 0
def pSsm (mk : SsmF → Instr) (f : Fld) : Parse := no96 f (some (mk { h := pHd f, cw := pCw f.d, a := f.a }, []))

def eDA (k : BitVec 11) (o : BitVec 10) (p : DA) : Fld := eB o p.h p.d p.a 0 k
def pDA (mk : DA → Instr) (f : Fld) : Parse := no96 f (some (mk { h := pHd f, d := f.d, a := f.a }, []))
def eA (k : BitVec 11) (o : BitVec 10) (p : AOnly) : Fld := eB o p.h 0 p.a 0 k
def pA (mk : AOnly → Instr) (f : Fld) : Parse := no96 f (some (mk { h := pHd f, a := f.a }, []))
def eAB (k : BitVec 11) (o : BitVec 10) (p : ABF) : Fld := eB o p.h 0 p.a p.b k
def pAB (mk : ABF → Instr) (f : Fld) : Parse := no96 f (some (mk { h := pHd f, a := f.a, b := f.b }, []))
def eDAB (o : BitVec 10) (p : DAB) : Fld := eB o p.h p.d p.a p.b 0
def pDAB (mk : DAB → Instr) (f : Fld) : Parse := no96 f (some (mk { h := pHd f, d := f.d, a := f.a, b := f.b }, []))
def eDOnly (o : BitVec 10) (p : DOnly) : Fld := eB o p.h p.d 0 0 0
def pDOnly (mk : DOnly → Instr) (f : Fld) : Parse := no96 f (some (mk { h := pHd f, d := f.d }, []))
def eSpawn (o : BitVec 10) (p : SpawnF) : Fld := { eB o p.h 0 p.a p.b 0 with form96 := true, lit := p.tgt }
def pSpawn (mk : SpawnF → Instr) (f : Fld) : Parse :=
  only96 f (some (mk { h := pHd f, a := f.a, b := f.b, tgt := f.lit }, tgtBad (.far f.lit)))
def eRegCl (o : BitVec 10) (p : RegClF) : Fld := eB o p.h 0 0 0 p.n
def pRegCl (mk : RegClF → Instr) (f : Fld) : Parse := no96 f (some (mk { h := pHd f, n := f.c }, []))
def eBinEmit (o : BitVec 10) (p : BinEmitF) : Fld := eB o p.h p.d p.a p.b 0
def pBinEmit (mk : BinEmitF → Instr) (f : Fld) : Parse := no96 f (some (mk { h := pHd f, d := f.d, a := f.a, b := f.b }, []))
def eFragOut (o : BitVec 10) (p : FragOutF) : Fld := eB o p.h p.d p.a p.b (0#7 ++ 1#1 ++ p.m)
def eFragInit (o : BitVec 10) (p : FragInitF) : Fld := eB o p.h p.d p.a 0 (0#8 ++ p.m)
def pFrag (mk : FragOutF → Instr) (mkInit : FragInitF → Instr) (f : Fld) : Parse :=
  no96 f (some (if f.c.getLsbD 3 then mk { h := pHd f, d := f.d, a := f.a, b := f.b, m := f.c.extractLsb' 0 3 }
    else mkInit { h := pHd f, d := f.d, a := f.a, m := f.c.extractLsb' 0 3 }, []))
def eRtTrace (o : BitVec 10) (p : RtTraceF) : Fld := eB o p.h 0 p.a p.b (0#4 ++ p.c)
def pRtTrace (mk : RtTraceF → Instr) (f : Fld) : Parse := no96 f (some (mk { h := pHd f, a := f.a, b := f.b, c := f.c.extractLsb' 0 7 }, []))
def eRtReplay (o : BitVec 10) (p : RtReplayF) : Fld := eB o p.h 0 0 p.b (0#4 ++ p.c)
def pRtReplay (mk : RtReplayF → Instr) (f : Fld) : Parse := no96 f (some (mk { h := pHd f, b := f.b, c := f.c.extractLsb' 0 7 }, []))

/-- Two instructions of one opcode told apart by C[0]. -/
def pC0 (p0 p1 : Fld → Parse) (f : Fld) : Parse := if f.c.getLsbD 0 then p1 f else p0 f

def eCompact (o : BitVec 8) (p : CompactF) : CFld := { stall := p.stall, op8 := o, d := p.d, a := p.a, b := p.b }
def eCompactDB (o : BitVec 8) (p : CompactDBF) : CFld := { stall := p.stall, op8 := o, d := p.d, a := 0, b := p.b }
def eCompactN (o : BitVec 8) (p : CompactNF) : CFld := { stall := p.stall, op8 := o, d := 0, a := 0, b := 0 }
def eCompactDA (o : BitVec 8) (p : CompactDAF) : CFld := { stall := p.stall, op8 := o, d := p.d, a := p.a, b := 0 }
def eCompactAB (o : BitVec 8) (p : CompactABF) : CFld := { stall := p.stall, op8 := o, d := 0, a := p.a, b := p.b }

/-- The fields of an instruction, by the encoding tables; none for a step that no parcel encodes. -/
def Instr.raw : Instr → Option Raw
  | .br p => some (.long (eBr 0x000#10 p))
  | .brDiv p => some (.long (eBrD 0x001#10 p))
  | .brEj p => some (.long (eBrD 0x002#10 p))
  | .brx p => some (.long (eBrx 0x003#10 p))
  | .call p => some (.long (eCall 0x004#10 p))
  | .ret p => some (.long (eRet 0x005#10 p))
  | .rejoin p => some (.long (eNop 0x006#10 p))
  | .joinCountZero => none
  | .brk p => some (.long (eBrk 0x007#10 p))
  | .exit p => some (.long (eNop 0x008#10 p))
  | .nop p => some (.long (eNop 0x00F#10 p))
  | .illegalOpcode => none
  | .scalarAdd p => some (.long (eSBinSat 0x040#10 p))
  | .scalarSub p => some (.long (eSBinSat 0x041#10 p))
  | .scalarMul p => some (.long (eSBin 0x042#10 p))
  | .scalarMulhi p => some (.long (eSBin 0x043#10 p))
  | .scalarDiv p => some (.long (eSBin 0x044#10 p))
  | .scalarRem p => some (.long (eSBin 0x045#10 p))
  | .scalarMin p => some (.long (eSBin 0x046#10 p))
  | .scalarMax p => some (.long (eSBin 0x047#10 p))
  | .scalarAnd p => some (.long (eSBin 0x048#10 p))
  | .scalarOr p => some (.long (eSBin 0x049#10 p))
  | .scalarXor p => some (.long (eSBin 0x04A#10 p))
  | .scalarNot p => some (.long (eSUn 0x04B#10 p))
  | .scalarShl p => some (.long (eSBin 0x04C#10 p))
  | .scalarShr p => some (.long (eSBin 0x04D#10 p))
  | .scalarCmp p => some (.long (eSCmp 0x04E#10 p))
  | .scalarSel p => some (.long (eSSel 0x04F#10 p))
  | .scalarMov p => some (.long (eSMov 0x050#10 p))
  | .scalarClz p => some (.long (eSUn 0x051#10 p))
  | .scalarPopc p => some (.long (eSUn 0x052#10 p))
  | .vectorAdd p => some (.long (eVBinSat 0x080#10 p))
  | .vectorSub p => some (.long (eVBinSat 0x081#10 p))
  | .vectorMul p => some (.long (eVBin 0x082#10 p))
  | .vectorMulhi p => some (.long (eVBin 0x083#10 p))
  | .vectorMin p => some (.long (eVBin 0x084#10 p))
  | .vectorMax p => some (.long (eVBin 0x085#10 p))
  | .vectorAbs p => some (.long (eVUnSat 0x086#10 p))
  | .vectorNeg p => some (.long (eVUnSat 0x087#10 p))
  | .vectorAnd p => some (.long (eVBin 0x088#10 p))
  | .vectorOr p => some (.long (eVBin 0x089#10 p))
  | .vectorXor p => some (.long (eVBin 0x08A#10 p))
  | .vectorNot p => some (.long (eVUn 0x08B#10 p))
  | .vectorShl p => some (.long (eVBin 0x08C#10 p))
  | .vectorShr p => some (.long (eVBin 0x08D#10 p))
  | .vectorCmp p => some (.long (eVCmp 0x08E#10 p))
  | .vectorSel p => some (.long (eVSel 0x08F#10 p))
  | .vectorMov p => some (.long (eVMov 0x090#10 p))
  | .vectorClz p => some (.long (eVUn 0x091#10 p))
  | .vectorPopc p => some (.long (eVUn 0x092#10 p))
  | .brev p => some (.long (eVUn 0x093#10 p))
  | .bfe p => some (.long (eVBin 0x094#10 p))
  | .madI32 p => some (.long (eMad 0x098#10 p))
  | .madN32 p => some (.long (eMad 0x099#10 p))
  | .madI64 p => some (.long (eMad 0x09A#10 p))
  | .madN64 p => some (.long (eMad 0x09B#10 p))
  | .fpAdd p => some (.long (eFBin 0x0C0#10 p))
  | .fpSub p => some (.long (eFBin 0x0C1#10 p))
  | .fpMul p => some (.long (eFBin 0x0C2#10 p))
  | .fpMin p => some (.long (eVBin 0x0C3#10 p))
  | .fpMax p => some (.long (eVBin 0x0C4#10 p))
  | .fpAbs p => some (.long (eVUn 0x0C5#10 p))
  | .fpNeg p => some (.long (eVUn 0x0C6#10 p))
  | .fpCmp p => some (.long (eVCmp 0x0C7#10 p))
  | .rint p => some (.long (eFUnR 0x0C8#10 p))
  | .copysign p => some (.long (eVBin 0x0C9#10 p))
  | .fclass p => some (.long (eVUn 0x0CA#10 p))
  | .ldexp p => some (.long (eLdexp 0x0CB#10 p))
  | .fmaF64 p => some (.long (eMad 0x0D0#10 p))
  | .fmaF32 p => some (.long (eMad 0x0D1#10 p))
  | .fmaF16 p => some (.long (eMad 0x0D2#10 p))
  | .fmaBf16 p => some (.long (eMad 0x0D3#10 p))
  | .fnmaF64 p => some (.long (eMad 0x0D4#10 p))
  | .fnmaF32 p => some (.long (eMad 0x0D5#10 p))
  | .fnmaF16 p => some (.long (eMad 0x0D6#10 p))
  | .fnmaBf16 p => some (.long (eMad 0x0D7#10 p))
  | .cvt p => some (.long (eCvt 0x100#10 p))
  | .pack p => some (.long (eCvt 0x101#10 p))
  | .unpack p => some (.long (eCvt 0x102#10 p))
  | .cbDec p => some (.long (eCbDec 0x103#10 p))
  | .xlGet p => some (.long (eXl 0x140#10 p))
  | .xlBcast p => some (.long (eXl 0x141#10 p))
  | .xlShup p => some (.long (eXlSh 0x142#10 p))
  | .xlShdn p => some (.long (eXlSh 0x143#10 p))
  | .xlXor p => some (.long (eXlSh 0x144#10 p))
  | .xlReorder p => some (.long (eXl 0x145#10 p))
  | .xlVote p => some (.long (eXlVote 0x146#10 p))
  | .xlAny p => some (.long (eXlVote 0x147#10 p))
  | .xlAll p => some (.long (eXlVote 0x148#10 p))
  | .redLaneAdd p => some (.long (eRedAdd 0x150#10 p))
  | .redLaneMin p => some (.long (eVUn 0x151#10 p))
  | .redLaneMax p => some (.long (eVUn 0x152#10 p))
  | .redLaneAnd p => some (.long (eVUn 0x153#10 p))
  | .redLaneOr p => some (.long (eVUn 0x154#10 p))
  | .redLaneXor p => some (.long (eVUn 0x155#10 p))
  | .scanLaneAdd p => some (.long (eRedAdd 0x158#10 p))
  | .scanLaneMin p => some (.long (eVUn 0x159#10 p))
  | .scanLaneMax p => some (.long (eVUn 0x15A#10 p))
  | .scanLaneAnd p => some (.long (eVUn 0x15B#10 p))
  | .scanLaneOr p => some (.long (eVUn 0x15C#10 p))
  | .scanLaneXor p => some (.long (eVUn 0x15D#10 p))
  | .scanLaneAddEx p => some (.long (eRedAdd 0x160#10 p))
  | .scanLaneMinEx p => some (.long (eVUn 0x161#10 p))
  | .scanLaneMaxEx p => some (.long (eVUn 0x162#10 p))
  | .scanLaneAndEx p => some (.long (eVUn 0x163#10 p))
  | .scanLaneOrEx p => some (.long (eVUn 0x164#10 p))
  | .scanLaneXorEx p => some (.long (eVUn 0x165#10 p))
  | .xaClr p => some (.long (eXaClr 0x170#10 p))
  | .xaAdd p => some (.long (eXaAdd 0x171#10 p))
  | .xaMac p => some (.long (eXaMac 0x172#10 p))
  | .xaRnd p => some (.long (eXaRnd 0x173#10 p))
  | .xaGet p => some (.long (eXaGet 0x174#10 p))
  | .xaSet p => some (.long (eXaSet 0x175#10 p))
  | .xaMerge p => some (.long (eXaMerge 0x176#10 p))
  | .rcp p => some (.long (eVUn 0x180#10 p))
  | .rsqrt p => some (.long (eVUn 0x181#10 p))
  | .exp2 p => some (.long (eVUn 0x182#10 p))
  | .log2 p => some (.long (eVUn 0x183#10 p))
  | .sin p => some (.long (eVUn 0x184#10 p))
  | .cos p => some (.long (eVUn 0x185#10 p))
  | .fpDiv p => some (.long (eFDiv 0x186#10 p))
  | .sqrt p => some (.long (eFUnR 0x187#10 p))
  | .scoreboardResult => none
  | .trap p => some (.long (eTrap 0x340#10 p))
  | .modeSet p => some (.long (eSysS 0x341#10 p))
  | .modeGet p => some (.long (eSysD 0x342#10 p))
  | .timeGet p => some (.long (eSysD 0x343#10 p))
  | .csrGet p => some (.long (eCsr 0x344#10 p))
  | .yield p => some (.long (eNop 0x345#10 p))
  | .sleepUntil p => some (.long (eSysS 0x346#10 p))
  | .sleepUntilWake => none
  | .perfGet p => some (.long (ePerf 0x347#10 p))
  | .ld p => some (.long (eLd 0x1C0#10 p))
  | .st p => some (.long (eSt 0x1C1#10 p))
  | .ldRo p => some (.long (eLd 0x1C2#10 p))
  | .ldS p => some (.long (eLd 0x1C3#10 p))
  | .stS p => some (.long (eSt 0x1C4#10 p))
  | .ldL p => some (.long (eLd 0x1C5#10 p))
  | .stL p => some (.long (eSt 0x1C6#10 p))
  | .pf p => some (.long (ePf 0x1C7#10 p))
  | .ldWf p => some (.long (eLd 0x200#10 p))
  | .ldWfe p => some (.long (eLd 0x201#10 p))
  | .stWe p => some (.long (eSt 0x202#10 p))
  | .stF p => some (.long (eSt 0x203#10 p))
  | .tagGet p => some (.long (eLd 0x204#10 p))
  | .tagSet p => some (.long (eSt 0x205#10 p))
  | .waiterRetest => none
  | .atomAdd p => some (.long (eAt 0x210#10 p))
  | .atomMin p => some (.long (eAt 0x211#10 p))
  | .atomMax p => some (.long (eAt 0x212#10 p))
  | .atomAnd p => some (.long (eAt 0x213#10 p))
  | .atomOr p => some (.long (eAt 0x214#10 p))
  | .atomXor p => some (.long (eAt 0x215#10 p))
  | .atomExch p => some (.long (eAt 0x216#10 p))
  | .atomIncWrap p => some (.long (eAt 0x217#10 p))
  | .atomAddBound p => some (.long (eAtB 0x218#10 p))
  | .atomCas p => some (.long (eAt 0x219#10 p))
  | .redAdd p => some (.long (eSt 0x220#10 p))
  | .redMin p => some (.long (eSt 0x221#10 p))
  | .redMax p => some (.long (eSt 0x222#10 p))
  | .redAnd p => some (.long (eSt 0x223#10 p))
  | .redOr p => some (.long (eSt 0x224#10 p))
  | .redXor p => some (.long (eSt 0x225#10 p))
  | .redIncWrap p => some (.long (eSt 0x226#10 p))
  | .fenceAcq p => some (.long (eFence 0x240#10 p))
  | .fenceRel p => some (.long (eFence 0x241#10 p))
  | .fenceAr p => some (.long (eFence 0x242#10 p))
  | .fenceSc p => some (.long (eFence 0x243#10 p))
  | .roInv p => some (.long (eBare 0x244#10 p))
  | .boInit p => some (.long (eBo 0x248#10 p))
  | .boExpect p => some (.long (eBo 0x249#10 p))
  | .boArrive p => some (.long (eBoArrive 0x24A#10 p))
  | .boWait p => some (.long (eBo 0x24B#10 p))
  | .lockAcq p => some (.long (eLock 0x250#10 p))
  | .lockTry p => some (.long (eLockTry 0x251#10 p))
  | .lockRel p => some (.long (eLock 0x252#10 p))
  | .dqPush p => some (.long (eDq 0x258#10 p))
  | .dqPop p => some (.long (eDq 0x259#10 p))
  | .ownSet p => some (.long (eOwnSet 0x260#10 p))
  | .ownClr p => some (.long (eOwnClr 0x261#10 p))
  | .cpIn p => some (.long (eCp 0x280#10 p))
  | .cpOut p => some (.long (eCp 0x281#10 p))
  | .cpLl p => some (.long (eCp 0x282#10 p))
  | .fenceRec p => some (.long (eBare 0x283#10 p))
  | .copyComplete => none
  | .copyTransferFault => none
  | .mmaF64 p => some (.long (eMma 0x2C0#10 p))
  | .mmaF32 p => some (.long (eMma 0x2C1#10 p))
  | .mmaF16 p => some (.long (eMma 0x2C2#10 p))
  | .mmaBf16 p => some (.long (eMma 0x2C3#10 p))
  | .mmaF8e4 p => some (.long (eMma 0x2C4#10 p))
  | .mmaF8e5 p => some (.long (eMma 0x2C5#10 p))
  | .mmaI8 p => some (.long (eMma 0x2C6#10 p))
  | .mmaCb4 p => some (.long (eMma 0x2C7#10 p))
  | .mmaCrewF64 p => some (.long (eMma 0x2C8#10 p))
  | .mmaCrewF32 p => some (.long (eMma 0x2C9#10 p))
  | .mmaCrewF16 p => some (.long (eMma 0x2CA#10 p))
  | .mmaCrewBf16 p => some (.long (eMma 0x2CB#10 p))
  | .mmaCrewF8e4 p => some (.long (eMma 0x2CC#10 p))
  | .mmaCrewF8e5 p => some (.long (eMma 0x2CD#10 p))
  | .mmaCrewI8 p => some (.long (eMma 0x2CE#10 p))
  | .mmaCrewCb4 p => some (.long (eMma 0x2CF#10 p))
  | .crewOperationStart => none
  | .mmaComplete => none
  | .accClr p => some (.long (eAccClr 0x2D0#10 p))
  | .accLd p => some (.long (eAccLd 0x2D1#10 p))
  | .accSt p => some (.long (eAccSt 0x2D2#10 p))
  | .accMovGet p => some (.long (eAccMov false 0x2D3#10 p))
  | .accMovPut p => some (.long (eAccMov true 0x2D3#10 p))
  | .feedSkip p => some (.long (eFeedSkip 0x2D4#10 p))
  | .feedMark p => some (.long (eFeedMark 0x2D5#10 p))
  | .cbLoad p => some (.long (eCbLoad 0x2D6#10 p))
  | .ssm p => some (.long (eSsm 0x2E0#10 p))
  | .ssmComplete => none
  | .taskLaunch p => some (.long (eDA 0 0x300#10 p))
  | .depDec p => some (.long (eA 0 0x301#10 p))
  | .launchTableWaitEnd => none
  | .spawn p => some (.long (eSpawn 0x308#10 p))
  | .spawnSegmentWaitEnd => none
  | .spawnFlush p => some (.long (eBare 0x309#10 p))
  | .joinWait p => some (.long (eA 0 0x30A#10 p))
  | .joinPoll p => some (.long (eDA 0 0x30B#10 p))
  | .regClaim p => some (.long (eRegCl 0x310#10 p))
  | .regGive p => some (.long (eRegCl 0x311#10 p))
  | .claimServed => none
  | .binEmit p => some (.long (eBinEmit 0x380#10 p))
  | .binEnd p => some (.long (eA 0 0x381#10 p))
  | .binEndReset p => some (.long (eA 1 0x381#10 p))
  | .fragOut p => some (.long (eFragOut 0x382#10 p))
  | .fragOutInit p => some (.long (eFragInit 0x382#10 p))
  | .ringAcq p => some (.long (eDA 0 0x388#10 p))
  | .ringAcqCons p => some (.long (eDA 1 0x388#10 p))
  | .ringAcqWake => none
  | .ringRel p => some (.long (eAB 0 0x389#10 p))
  | .ringRelCons p => some (.long (eAB 1 0x389#10 p))
  | .ringHalo p => some (.long (eAB 0 0x38A#10 p))
  | .rtTrace p => some (.long (eRtTrace 0x390#10 p))
  | .rtNext p => some (.long (eDOnly 0x391#10 p))
  | .rtAccept p => some (.long (eDAB 0x392#10 p))
  | .rtReplay p => some (.long (eRtReplay 0x393#10 p))
  | .addI64VectorCompact p => some (.short (eCompact 0x01#8 p))
  | .addF32Compact p => some (.short (eCompact 0x02#8 p))
  | .mulF32Compact p => some (.short (eCompact 0x03#8 p))
  | .addF64Compact p => some (.short (eCompact 0x04#8 p))
  | .mulF64Compact p => some (.short (eCompact 0x05#8 p))
  | .andB64Compact p => some (.short (eCompact 0x06#8 p))
  | .orB64Compact p => some (.short (eCompact 0x07#8 p))
  | .xorB64Compact p => some (.short (eCompact 0x08#8 p))
  | .movB64VectorCompact p => some (.short (eCompactDB 0x09#8 p))
  | .addI64ScalarCompact p => some (.short (eCompact 0x0A#8 p))
  | .subI64ScalarCompact p => some (.short (eCompact 0x0B#8 p))
  | .movB64ScalarCompact p => some (.short (eCompactDB 0x0C#8 p))
  | .shlN64ScalarCompact p => some (.short (eCompact 0x0D#8 p))
  | .addI32VectorCompact p => some (.short (eCompact 0x0E#8 p))
  | .nopCompact p => some (.short (eCompactN 0x0F#8 p))
  | .ldSB64Compact p => some (.short (eCompactDA 0x10#8 p))
  | .stSB64Compact p => some (.short (eCompactAB 0x11#8 p))
  | .ageingQuantum => none
  | .issueStarvation => none
  | .gatherTimeout => none
  | .gatheredWavePlace => none
  | .taskRetire => none
  | .groupPlace => none
  | .crewPlace => none
  | .imageRestore => none
  | .preWaitExpiry => none
  | .loadBalancer => none
  | .partitionMoveComplete => none
  | .stripStart => none
  | .stripFinish => none
  | .rasterStripStart => none
  | .rasterTileEnd => none
  | .fragmentBatch => none
  | .displayScanLine => none
  | .encoderStrip => none
  | .tenantUseWindow => none
  | .heartbeat => none
  | .heartbeatLost => none
  | .ringTailWrite => none
  | .sliceExpiry => none
  | .packetNop => none
  | .packetLaunch => none
  | .packetCopy => none
  | .packetWrite => none
  | .packetSignal => none
  | .packetWriteSignal => none
  | .packetWait => none
  | .packetTimestamp => none
  | .packetGraph => none
  | .packetFence => none
  | .cond => none
  | .streamIndexWrite => none
  | .replyIndexWrite => none
  | .replyResume => none
  | .replySkip => none
  | .replyKill => none
  | .coalesceTimeout => none
  | .queueSet => none
  | .queueStateDisable => none
  | .queueStateActivate => none
  | .queueKill => none
  | .queueKillComplete => none
  | .streamSet => none
  | .setRoot => none
  | .invalidate => none
  | .timetable => none
  | .bindOut => none
  | .load => none
  | .domainSet => none
  | .registerWrite => none
  | .sharedBoundaryMove => none
  | .peerRequest => none
  | .flitRetry => none
  | .peerLaneRetire => none
  | .domainMemberLoss => none
  | .perstRelease => none
  | .selfTest => none
  | .attestationRequest => none
  | .d3hotEntry => none
  | .d0Return => none
  | .d3coldEntry => none
  | .thermalSample => none
  | .patrolScrub => none
  | .rowRepair => none
  | .ppsAndTimeOfDayInput => none
  | .vectorUnmask => none
  | .perstAssert => none

/-- Class 0 of the opcode map (Table 9.6), by low6. -/
def opTable0 : List (Nat × (Fld → Parse)) :=
  [(0x00, pBr .br),
   (0x01, pBrD .brDiv),
   (0x02, pBrD .brEj),
   (0x03, pBrx .brx),
   (0x04, pCall .call),
   (0x05, pRet .ret),
   (0x06, pNop .rejoin),
   (0x07, pBrk .brk),
   (0x08, pNop .exit),
   (0x0F, pNop .nop)]

/-- Class 1 of the opcode map (Table 9.6), by low6. -/
def opTable1 : List (Nat × (Fld → Parse)) :=
  [(0x00, pSBinSat tysIN .scalarAdd),
   (0x01, pSBinSat tysIN .scalarSub),
   (0x02, pSBin tysIN .scalarMul),
   (0x03, pSBin tysIN .scalarMulhi),
   (0x04, pSBin tysIN .scalarDiv),
   (0x05, pSBin tysIN .scalarRem),
   (0x06, pSBin tysIN .scalarMin),
   (0x07, pSBin tysIN .scalarMax),
   (0x08, pSBin tysINB .scalarAnd),
   (0x09, pSBin tysINB .scalarOr),
   (0x0A, pSBin tysINB .scalarXor),
   (0x0B, pSUn tysINB true .scalarNot),
   (0x0C, pSBin tysINB .scalarShl),
   (0x0D, pSBin tysINB .scalarShr),
   (0x0E, pSCmp .scalarCmp),
   (0x0F, pSSel .scalarSel),
   (0x10, pSMov tysINB .scalarMov),
   (0x11, pSUn tysINB false .scalarClz),
   (0x12, pSUn tysINB false .scalarPopc)]

/-- Class 2 of the opcode map (Table 9.6), by low6. -/
def opTable2 : List (Nat × (Fld → Parse)) :=
  [(0x00, pVBinSat tysIN .vectorAdd),
   (0x01, pVBinSat tysIN .vectorSub),
   (0x02, pVBin tysIN .vectorMul),
   (0x03, pVBin tysIN .vectorMulhi),
   (0x04, pVBin tysIN .vectorMin),
   (0x05, pVBin tysIN .vectorMax),
   (0x06, pVUnSat tysI .vectorAbs),
   (0x07, pVUnSat tysI .vectorNeg),
   (0x08, pVBin tysINB .vectorAnd),
   (0x09, pVBin tysINB .vectorOr),
   (0x0A, pVBin tysINB .vectorXor),
   (0x0B, pVUn tysINB true .vectorNot),
   (0x0C, pVBin tysINB .vectorShl),
   (0x0D, pVBin tysINB .vectorShr),
   (0x0E, pVCmp false .vectorCmp),
   (0x0F, pVSel .vectorSel),
   (0x10, pVMov tysINB .vectorMov),
   (0x11, pVUn tysINB false .vectorClz),
   (0x12, pVUn tysINB false .vectorPopc),
   (0x13, pVUn tysINB false .brev),
   (0x14, pVBin tysIN .bfe),
   (0x18, pMad .madI32),
   (0x19, pMad .madN32),
   (0x1A, pMad .madI64),
   (0x1B, pMad .madN64)]

/-- Class 3 of the opcode map (Table 9.6), by low6. -/
def opTable3 : List (Nat × (Fld → Parse)) :=
  [(0x00, pFBin .fpAdd),
   (0x01, pFBin .fpSub),
   (0x02, pFBin .fpMul),
   (0x03, pVBin tysF4 .fpMin),
   (0x04, pVBin tysF4 .fpMax),
   (0x05, pVUn tysF4 true .fpAbs),
   (0x06, pVUn tysF4 true .fpNeg),
   (0x07, pVCmp true .fpCmp),
   (0x08, pFUnR tysF4 true .rint),
   (0x09, pVBin tysF4 .copysign),
   (0x0A, pVUn tysF4 true .fclass),
   (0x0B, pLdexp .ldexp),
   (0x10, pMad .fmaF64),
   (0x11, pMad .fmaF32),
   (0x12, pMad .fmaF16),
   (0x13, pMad .fmaBf16),
   (0x14, pMad .fnmaF64),
   (0x15, pMad .fnmaF32),
   (0x16, pMad .fnmaF16),
   (0x17, pMad .fnmaBf16)]

/-- Class 4 of the opcode map (Table 9.6), by low6. -/
def opTable4 : List (Nat × (Fld → Parse)) :=
  [(0x00, pCvt .cvt .cvt),
   (0x01, pCvt .pack .pack),
   (0x02, pCvt .unpack .unpack),
   (0x03, pCbDec .cbDec)]

/-- Class 5 of the opcode map (Table 9.6), by low6. -/
def opTable5 : List (Nat × (Fld → Parse)) :=
  [(0x00, pXl tysXl .xlGet),
   (0x01, pXl tysXl .xlBcast),
   (0x02, pXlSh .xlShup),
   (0x03, pXlSh .xlShdn),
   (0x04, pXlSh .xlXor),
   (0x05, pXl tysB64 .xlReorder),
   (0x06, pXlVote .xlVote),
   (0x07, pXlVote .xlAny),
   (0x08, pXlVote .xlAll),
   (0x10, pRedAdd .redLaneAdd),
   (0x11, pVUn tysF4IN false .redLaneMin),
   (0x12, pVUn tysF4IN false .redLaneMax),
   (0x13, pVUn tysINB false .redLaneAnd),
   (0x14, pVUn tysINB false .redLaneOr),
   (0x15, pVUn tysINB false .redLaneXor),
   (0x18, pRedAdd .scanLaneAdd),
   (0x19, pVUn tysF4IN false .scanLaneMin),
   (0x1A, pVUn tysF4IN false .scanLaneMax),
   (0x1B, pVUn tysINB false .scanLaneAnd),
   (0x1C, pVUn tysINB false .scanLaneOr),
   (0x1D, pVUn tysINB false .scanLaneXor),
   (0x20, pRedAdd .scanLaneAddEx),
   (0x21, pVUn tysF4IN false .scanLaneMinEx),
   (0x22, pVUn tysF4IN false .scanLaneMaxEx),
   (0x23, pVUn tysINB false .scanLaneAndEx),
   (0x24, pVUn tysINB false .scanLaneOrEx),
   (0x25, pVUn tysINB false .scanLaneXorEx),
   (0x30, pXaClr .xaClr),
   (0x31, pXaAdd .xaAdd),
   (0x32, pXaMac .xaMac),
   (0x33, pXaRnd .xaRnd),
   (0x34, pXaGet .xaGet),
   (0x35, pXaSet .xaSet),
   (0x36, pXaMerge .xaMerge)]

/-- Class 6 of the opcode map (Table 9.6), by low6. -/
def opTable6 : List (Nat × (Fld → Parse)) :=
  [(0x00, pVUn tysF4 false .rcp),
   (0x01, pVUn tysF4 false .rsqrt),
   (0x02, pVUn tysF4 false .exp2),
   (0x03, pVUn tysF4 false .log2),
   (0x04, pVUn tysF4 false .sin),
   (0x05, pVUn tysF4 false .cos),
   (0x06, pFDiv .fpDiv),
   (0x07, pFUnR tysF2 false .sqrt)]

/-- Class 7 of the opcode map (Table 9.6), by low6. -/
def opTable7 : List (Nat × (Fld → Parse)) :=
  [(0x00, pLd tysINB semsLd .ld),
   (0x01, pSt tysINB semsSt .st),
   (0x02, pLd tysINB semsPlain .ldRo),
   (0x03, pLd tysINB semsLd .ldS),
   (0x04, pSt tysINB semsSt .stS),
   (0x05, pLd tysINB semsLd .ldL),
   (0x06, pSt tysINB semsSt .stL),
   (0x07, pPf .pf)]

/-- Class 8 of the opcode map (Table 9.6), by low6. -/
def opTable8 : List (Nat × (Fld → Parse)) :=
  [(0x00, pLd tysTag semsLd .ldWf),
   (0x01, pLd tysTag semsWfe .ldWfe),
   (0x02, pSt tysTag semsWfe .stWe),
   (0x03, pSt tysTag semsSt .stF),
   (0x04, pLd tysB32 semsLd .tagGet),
   (0x05, pSt tysB32 semsSt .tagSet),
   (0x10, pAt tysAdd .atomAdd),
   (0x11, pAt tysAdd .atomMin),
   (0x12, pAt tysAdd .atomMax),
   (0x13, pAt tysBit .atomAnd),
   (0x14, pAt tysBit .atomOr),
   (0x15, pAt tysBit .atomXor),
   (0x16, pAt tysBit .atomExch),
   (0x17, pAt tysInc .atomIncWrap),
   (0x18, pAtB .atomAddBound),
   (0x19, pAt tysBit .atomCas),
   (0x20, pSt tysAdd semsRed .redAdd),
   (0x21, pSt tysAdd semsRed .redMin),
   (0x22, pSt tysAdd semsRed .redMax),
   (0x23, pSt tysBit semsRed .redAnd),
   (0x24, pSt tysBit semsRed .redOr),
   (0x25, pSt tysBit semsRed .redXor),
   (0x26, pSt tysInc semsRed .redIncWrap)]

/-- Class 9 of the opcode map (Table 9.6), by low6. -/
def opTable9 : List (Nat × (Fld → Parse)) :=
  [(0x00, pFence .fenceAcq),
   (0x01, pFence .fenceRel),
   (0x02, pFence .fenceAr),
   (0x03, pFence .fenceSc),
   (0x04, pBare .roInv),
   (0x08, pBo .boInit),
   (0x09, pBo .boExpect),
   (0x0A, pBoArrive .boArrive),
   (0x0B, pBo .boWait),
   (0x10, pLock .lockAcq),
   (0x11, pLockTry .lockTry),
   (0x12, pLock .lockRel),
   (0x18, pDq .dqPush),
   (0x19, pDq .dqPop),
   (0x20, pOwnSet .ownSet),
   (0x21, pOwnClr .ownClr)]

/-- Class 10 of the opcode map (Table 9.6), by low6. -/
def opTable10 : List (Nat × (Fld → Parse)) :=
  [(0x00, pCp .cpin .cpIn),
   (0x01, pCp .cpout .cpOut),
   (0x02, pCp .cpll .cpLl),
   (0x03, pBare .fenceRec)]

/-- Class 11 of the opcode map (Table 9.6), by low6. -/
def opTable11 : List (Nat × (Fld → Parse)) :=
  [(0x00, pMma false .mmaF64),
   (0x01, pMma false .mmaF32),
   (0x02, pMma false .mmaF16),
   (0x03, pMma false .mmaBf16),
   (0x04, pMma true .mmaF8e4),
   (0x05, pMma true .mmaF8e5),
   (0x06, pMma false .mmaI8),
   (0x07, pMma true .mmaCb4),
   (0x08, pMma false .mmaCrewF64),
   (0x09, pMma false .mmaCrewF32),
   (0x0A, pMma false .mmaCrewF16),
   (0x0B, pMma false .mmaCrewBf16),
   (0x0C, pMma true .mmaCrewF8e4),
   (0x0D, pMma true .mmaCrewF8e5),
   (0x0E, pMma false .mmaCrewI8),
   (0x0F, pMma true .mmaCrewCb4),
   (0x10, pAccClr .accClr),
   (0x11, pAccLd .accLd),
   (0x12, pAccSt .accSt),
   (0x13, pAccMov .accMovGet .accMovPut),
   (0x14, pFeedSkip .feedSkip),
   (0x15, pFeedMark .feedMark),
   (0x16, pCbLoad .cbLoad),
   (0x20, pSsm .ssm)]

/-- Class 12 of the opcode map (Table 9.6), by low6. -/
def opTable12 : List (Nat × (Fld → Parse)) :=
  [(0x00, pDA .taskLaunch),
   (0x01, pA .depDec),
   (0x08, pSpawn .spawn),
   (0x09, pBare .spawnFlush),
   (0x0A, pA .joinWait),
   (0x0B, pDA .joinPoll),
   (0x10, pRegCl .regClaim),
   (0x11, pRegCl .regGive)]

/-- Class 13 of the opcode map (Table 9.6), by low6. -/
def opTable13 : List (Nat × (Fld → Parse)) :=
  [(0x00, pTrap .trap),
   (0x01, pSysS .modeSet),
   (0x02, pSysD .modeGet),
   (0x03, pSysD .timeGet),
   (0x04, pCsr .csrGet),
   (0x05, pNop .yield),
   (0x06, pSysS .sleepUntil),
   (0x07, pPerf .perfGet)]

/-- Class 14 of the opcode map (Table 9.6), by low6. -/
def opTable14 : List (Nat × (Fld → Parse)) :=
  [(0x00, pBinEmit .binEmit),
   (0x01, pC0 (pA .binEnd) (pA .binEndReset)),
   (0x02, pFrag .fragOut .fragOutInit),
   (0x08, pC0 (pDA .ringAcq) (pDA .ringAcqCons)),
   (0x09, pC0 (pAB .ringRel) (pAB .ringRelCons)),
   (0x0A, pAB .ringHalo),
   (0x10, pRtTrace .rtTrace),
   (0x11, pDOnly .rtNext),
   (0x12, pDAB .rtAccept),
   (0x13, pRtReplay .rtReplay)]

/-- The opcodes of a class; a class not listed has none (R130). -/
def opClass (k : Nat) : List (Nat × (Fld → Parse)) :=
  match k with
  | 0 => opTable0
  | 1 => opTable1
  | 2 => opTable2
  | 3 => opTable3
  | 4 => opTable4
  | 5 => opTable5
  | 6 => opTable6
  | 7 => opTable7
  | 8 => opTable8
  | 9 => opTable9
  | 10 => opTable10
  | 11 => opTable11
  | 12 => opTable12
  | 13 => opTable13
  | 14 => opTable14
  | _ => []

/-- The entry of a number in a list of entries. -/
def tableFind {α : Type} (n : Nat) : List (Nat × α) → Option α
  | [] => none
  | (k, v) :: r => if k = n then some v else tableFind n r

/-- The opcode map (R129, R130). -/
def parseLong (f : Fld) : Parse :=
  match tableFind (f.opc.toNat % 64) (opClass (f.opc.toNat / 64)) with
  | some p => p f
  | none => none

/-- The compact forms (Table 9.8). -/
def parseShort (f : CFld) : Parse :=
  match f.op8.toNat with
  | 0x01 => some (.addI64VectorCompact { d := f.d, a := f.a, b := f.b, stall := f.stall }, [])
  | 0x02 => some (.addF32Compact { d := f.d, a := f.a, b := f.b, stall := f.stall }, [])
  | 0x03 => some (.mulF32Compact { d := f.d, a := f.a, b := f.b, stall := f.stall }, [])
  | 0x04 => some (.addF64Compact { d := f.d, a := f.a, b := f.b, stall := f.stall }, [])
  | 0x05 => some (.mulF64Compact { d := f.d, a := f.a, b := f.b, stall := f.stall }, [])
  | 0x06 => some (.andB64Compact { d := f.d, a := f.a, b := f.b, stall := f.stall }, [])
  | 0x07 => some (.orB64Compact { d := f.d, a := f.a, b := f.b, stall := f.stall }, [])
  | 0x08 => some (.xorB64Compact { d := f.d, a := f.a, b := f.b, stall := f.stall }, [])
  | 0x09 => some (.movB64VectorCompact { d := f.d, b := f.b, stall := f.stall }, [])
  | 0x0A => some (.addI64ScalarCompact { d := f.d, a := f.a, b := f.b, stall := f.stall }, [])
  | 0x0B => some (.subI64ScalarCompact { d := f.d, a := f.a, b := f.b, stall := f.stall }, [])
  | 0x0C => some (.movB64ScalarCompact { d := f.d, b := f.b, stall := f.stall }, [])
  | 0x0D => some (.shlN64ScalarCompact { d := f.d, a := f.a, b := f.b, stall := f.stall }, [])
  | 0x0E => some (.addI32VectorCompact { d := f.d, a := f.a, b := f.b, stall := f.stall }, [])
  | 0x0F => some (.nopCompact { stall := f.stall }, [])
  | 0x10 => some (.ldSB64Compact { d := f.d, a := f.a, stall := f.stall }, [])
  | 0x11 => some (.stSB64Compact { a := f.a, b := f.b, stall := f.stall }, [])
  | _ => none

def Raw.parse : Raw → Parse
  | .long f => parseLong f
  | .short f => parseShort f

/-- The lowest one of a word, in a list. -/
def lowOne {n : Nat} (w : BitVec n) : List Nat :=
  match (List.range n).find? (fun k => w.getLsbD k) with
  | some k => [k]
  | none => []

/-- The lowest bit, above the form bits, at which the fields differ from those of the instruction read: a field or part of a field
that must be 0 and is not (R119). -/
def mustBeZero (r : Raw) (i : Instr) : List Nat :=
  match r, i.raw with
  | .long f, some (.long e) => lowOne ((f.word ^^^ e.word) &&& 0xFFFFFFFFFFFFFFFC#64)
  | .short f, some (.short e) => lowOne (f.word ^^^ e.word)
  | _, _ => []

/-- INFO0 of ILLEGAL_OPCODE and RESERVED_FIELD: the first parcel, and the second unless the instruction is compact (R398). -/
def infoParcels (ps : List Parcel) : Word :=
  if (ps.getD 0 0).getLsbD 0 then ps.getD 1 0 ++ ps.getD 0 0 else 0#32 ++ ps.getD 0 0

/-- Decode parcels (R113 to R132): an instruction, ILLEGAL_OPCODE where the encoding is unassigned, or the lowest offending bit of a
reserved field (R124 steps 2 and 3). -/
def decode (ps : List Parcel) : Decoded :=
  match (rawOf ps).parse with
  | none => .instr .illegalOpcode
  | some (i, bad) =>
    match (bad ++ mustBeZero (rawOf ps) i).min? with
    | some k => .reserved k
    | none => .instr i

/-- The parcels of an instruction. -/
def encode (i : Instr) : List Parcel :=
  match i.raw with
  | some r => r.parcels
  | none => []

/-- The length of an instruction in bytes, as its own encoding has it. -/
def Instr.bytes (i : Instr) : Nat := 4 * (encode i).length

/-- The parcels of a table word: parcels after the first are 0 where the table gives no bits. -/
def tableParcels (nbits w : Nat) : List Parcel :=
  (List.range 7).map (fun k => BitVec.ofNat 32 (if 32 * k < nbits then w % 2 ^ nbits / 2 ^ (32 * k) else 0))

/-- The decoder on a word numbered as the opcode table numbers it. -/
def decodeTableWord (nbits w : Nat) : Option Instr :=
  match decode (tableParcels nbits w) with
  | .instr i => some i
  | .reserved _ => none

end Sys2Proof
end

