-- ==== Sys2Proof/Machine/KMap.lean ====
section
/-! DEFINITION. Sparse data by key: a list of (key, value) pairs with keys strictly rising, and the same with a default value that is
never listed. All sparse storage of State (memories, register files, waves, groups, tasks) has this one form. -/

namespace Sys2Proof.Machine

/-- Sparse data by key. -/
abbrev KMap (α : Type) := List (Nat × α)

/-- The value listed under a key. -/
def kfind {α : Type} (k : Nat) : List (Nat × α) → Option α
  | [] => none
  | (k', v) :: r => if k' = k then some v else kfind k r

/-- The value under a key, or a default. -/
def kget {α : Type} (d : α) (k : Nat) (m : List (Nat × α)) : α := (kfind k m).getD d

/-- Put a value under a key, keeping the keys strictly rising. -/
def kset {α : Type} (k : Nat) (v : α) : List (Nat × α) → List (Nat × α)
  | [] => [(k, v)]
  | (k', v') :: r => if k' < k then (k', v') :: kset k v r else if k' = k then (k, v) :: r else (k, v) :: (k', v') :: r

/-- Remove a key. -/
def kdel {α : Type} (k : Nat) : List (Nat × α) → List (Nat × α)
  | [] => []
  | (k', v') :: r => if k' = k then kdel k r else (k', v') :: kdel k r

/-- Put a value under a key of a map with a default: a default value is not listed. -/
def kput {α : Type} [DecidableEq α] (d : α) (k : Nat) (v : α) (m : List (Nat × α)) : List (Nat × α) :=
  if v = d then kdel k m else kset k v m

/-- Change the value under a key, where one is listed. -/
def kmod {α : Type} (k : Nat) (f : α → α) (m : List (Nat × α)) : List (Nat × α) :=
  match kfind k m with
  | some v => kset k (f v) m
  | none => m

/-- The keys listed. -/
def kkeys {α : Type} (m : List (Nat × α)) : List Nat := m.map (·.1)

/-- The values listed. -/
def kvals {α : Type} (m : List (Nat × α)) : List α := m.map (·.2)

/-- The keys are strictly rising. -/
def ksorted {α : Type} : List (Nat × α) → Bool
  | [] => true
  | [_] => true
  | (k, _) :: (k', v') :: r => decide (k < k') && ksorted ((k', v') :: r)

/-- The canonical form of a map with a default: keys strictly rising, no default listed. -/
def kcanon {α : Type} [DecidableEq α] (d : α) (m : List (Nat × α)) : Bool := ksorted m && m.all (fun p => decide (p.2 ≠ d))

/-- Insert an element where the order has it, after its equals. -/
def insertBy {α : Type} (le : α → α → Bool) (x : α) : List α → List α
  | [] => [x]
  | y :: r => if le y x then y :: insertBy le x r else x :: y :: r
/-- A list in order, equals in their former order. -/
def sortBy {α : Type} (le : α → α → Bool) (xs : List α) : List α := xs.foldl (fun a x => insertBy le x a) []

end Sys2Proof.Machine
end

