-- ==== Sys2Proof/Machine/State.lean ====
section
/-! DEFINITION. The state of the LX9: every register, queue, table, memory and unit the manual names (INVENTORY.md, State), as plain data,
the reasons a step can stop, and the state after reset. -/

namespace Sys2Proof.Machine

/-- Why a step stops with a fault. No instruction of the manual ends here: a trap is a next state (R289). -/
inductive Fault where
  /-- A wave instruction was executed while no wave is selected. Raised by every wave instruction; safe: on the part an instruction is
  always some wave's. -/
  | noWave
  deriving DecidableEq, Repr

/-- Why a step is refused. -/
inductive Refusal where
  /-- The instruction has no meaning yet. Raised by arms of exec only; safe: nothing runs. -/
  | notModelled (mnemonic : String)
  deriving DecidableEq, Repr

/-- Causes (Table 17.7). -/
inductive Cause where
  | illegalOpcode | reservedField | regRange | privilege | stallUndersized | laneInactiveRead | branchDivergent | breakpoint
  | misaligned | addressRange | pageNotPresent | pagePermission | tagMisuse | atomicTarget | eccUncorrectable
  | claimDeadlock | spawnOverflow | helpCycle | nestDepth | entryInvalid | lockState | boInvalid | queueInvalid | depUnderflow
  | crewUnplaceable | qoccRefused
  | illegalConvergence | tokenReuse | recordInvalid | accHandle | feedState | crewMismatch | ssmConfig
  | ringState | traversalLogFull | binFull | traversalState
  | userTrap | killed | heartbeatLost | recoveryFailed | replyInvalid | packetInvalid | queueOverrun | validatorDenied
  | partitionRefused
  deriving DecidableEq, Repr

/-- A register named by an instruction. -/
inductive RegRef where
  | v (r : Nat) | s (r : Nat) | m (r : Nat)
  deriving DecidableEq, Repr

/-- An entry of the token stack (R30). JOIN is a hidden join object. -/
structure Token where
  rejoin : Word
  entry : LaneMask
  pend : LaneMask := 0
  pendPc : Word := 0
  join : Option Nat := none
  deriving DecidableEq, Repr

/-- The exact accumulator (R104). -/
structure Xa where
  x : BitVec 2176 := 0
  nan : Bool := false
  pinf : Bool := false
  ninf : Bool := false
  ovf : Bool := false
  deriving DecidableEq, Repr

/-- What a wave waits for (R45, Table 13.14, R185, R213, R245, R255, R292, R303, R322, R329, R330, R335, R338). -/
inductive Wait where
  | none
  | tag | lock | dqPush | dqPop | joinFamily | bo
  | claim | copySlot | matrixSlot | handle | accSpace | token | joinCount | sleep | trap | launchTable | segment | ringAcq | binReaders
  | rasterUnit | fragBatch
  deriving DecidableEq, Repr

/-- An age key (R311). -/
structure AgeKey where
  seq : Nat := 0
  groupid : Nat := 0
  waveid : Nat := 0
  deriving DecidableEq, Repr

/-- What one lane carries beside its registers: the join family of a spawned thread, the depth, and for a continuation lane its hidden
join object, its origin wave and its origin lane (R24, R35, Table 17.3), and the pool blocks it holds until it returns: how many, of which
core, and whether from the pool (0), linked segments (1), which `segs` numbers with the blocks taken of each, or a reserved segment (2)
(R43, R44, R322, R323; log 33). -/
structure LaneInfo where
  family : Nat := 0
  depth : Nat := 0
  join : Option Nat := none
  originWave : Nat := 0
  originLane : Nat := 0
  blocks : Nat := 0
  place : Nat := 0
  segs : List (Nat × Nat) := []
  poolCore : Nat := 0
  deriving DecidableEq, Repr

/-- An accumulator tile: type FP32, INT32 or FP64, shape, elements row-major (R254). -/
structure Tile where
  ty : Ty := .f32
  m : Nat := 16
  n : Nat := 16
  e : List Word := []
  deriving DecidableEq, Repr

/-- A stack entry of a traversal: a reference, its entry distance and its child index (R350, Table 21.11). -/
structure RayEntry where
  ref : Nat
  tn : Nat
  idx : Nat := 0
  deriving DecidableEq, Repr

/-- A committed hit of a ray (R350, R355). -/
structure RayHit where
  user : Bool
  t : Nat
  addr : Nat
  attr : Nat
  index : Nat
  deriving DecidableEq, Repr

/-- One ray in traversal (R351): the ray and the context copied at its start, and its progress. `leaf` is the leaf being taken (address,
kind, records, entry distance, next record); `cand` the user record handed to the program (address, index, entry distance), which
`rt.accept` has tried or committed; `shadow` the contents the unit last wrote into the ray-state block (log 23). -/
structure Ray where
  idx : Nat := 0
  o : List Nat := []
  d : List Nat := []
  tmin : Nat := 0
  tmax : Nat := 0
  cull : Nat := 0
  first : Bool := false
  log : Bool := false
  logn : Nat := 0
  loga : Nat := 0
  block : Nat := 0
  replay : Bool := false
  stack : List RayEntry := []
  leaf : Option (Nat × Nat × Nat × Nat × Nat) := none
  cand : Option (Nat × Nat × Nat) := none
  tried : Bool := false
  accepted : Bool := false
  hit : Option RayHit := none
  logCount : Nat := 0
  logPos : Nat := 1
  lastHit : Bool := false
  done : Option Nat := none
  shadow : Nat := 0
  deriving DecidableEq, Repr

/-- A wave (Table 17.3) with the state that lives beside its image: the scoreboard (R126, R152), waits, and its own units' state.
`heldRegs` counts registers a served claim holds for it while it is evicted (R28). `retest`: it has resumed inside the Block of the
instruction at its PC, whose earlier checks stand (R50, R222; log 41). `watch` is what the object of its wait held when its group was saved
(R305), `yielded` the number of the `yield` that the wave executed last, until it issues again (R185). -/
structure Wave where
  waveid : Nat := 0
  role : Nat := 0
  pc : Word := 0
  path : LaneMask := BitVec.allOnes 32
  exited : LaneMask := 0
  present : LaneMask := BitVec.allOnes 32
  done : LaneMask := 0
  mode : Word := 0
  status : Word := 0
  regCount : Nat := 8
  tokens : List Token := []
  age : Nat := 0
  claim : Option (Nat × Nat) := none
  heldRegs : Nat := 0
  v : List (Nat × Word) := []
  s : List (Nat × Word) := []
  m : List (Nat × LaneMask) := []
  xa : Xa := {}
  cbA : BitVec 256 := 0
  cbB : BitVec 256 := 0
  perfResident : Nat := 0
  perfIssued : Nat := 0
  perfHeld : Nat := 0
  helping : Nat := 0
  lanes : List (Nat × LaneInfo) := []
  key : AgeKey := {}
  fixed : List (RegRef × Nat) := []
  decl : Nat := 0
  pend : List RegRef := []
  tokenPend : List Nat := []
  stallUntil : Nat := 0
  wait : Wait := .none
  waitArg : Word := 0
  grant : Bool := false
  retest : Bool := false
  watch : Nat := 0
  ownerEnd : Nat := 0
  yielded : Option Nat := none
  unselected : Nat := 0
  starved : Bool := false
  tiles : List (Nat × Tile) := []
  emitted : LaneMask := 0
  cur : LaneMask := 0
  batch : Option LaneMask := none
  rays : List (Nat × Ray) := []
  evicted : Bool := false
  ended : Bool := false
  deriving DecidableEq, Repr

/-- Where a group is (R279, R289): on a core; saved (KIND 1), captured (KIND 3) or parked faulted (KIND 2). -/
inductive Place where
  | resident (core : Nat) | saved | captured | faulted (cause : Cause)
  deriving DecidableEq, Repr

/-- What made a group: a launch record's grid, a gathered wave of spawned threads, or continuation lanes of an origin group (R18, R35, R40). -/
inductive Origin where
  | grid | gathered | continuation (group : Nat)
  deriving DecidableEq, Repr

/-- The five stream positions of a feed (R249). -/
structure Feed where
  fillIssued : Nat := 0
  fill : Nat := 0
  consume : Nat := 0
  drain : Nat := 0
  read : Nat := 0
  skips : List (Nat × Nat) := []
  deriving DecidableEq, Repr

/-- A tensor shape record as read (R133 to R136). -/
structure Shape where
  base : Word := 0
  ty : Ty := .b8
  layout : Nat := 0
  ext0 : Nat := 0
  ext1 : Nat := 0
  ext2 : Nat := 0
  ext3 : Nat := 1
  str1 : Nat := 0
  str2 : Nat := 0
  str3 : Nat := 0
  deriving DecidableEq, Repr

/-- A place in one of the memories: external, shared (physical offset), host (bus address), member d's memory as the domain tenant t sees it, or the local store -/
inductive Loc where
  | ext (a : Nat) | shm (a : Nat) | host (a : Nat) | peer (d : Nat) (t : Nat) (o : Nat) | ls (g : Nat) (o : Nat)
  deriving DecidableEq, Repr

/-- What a transfer writes when it completes (R86, R87): a token of a wave, a barrier object at a place, which a tenant's tables give for a
virtual address, or nothing. -/
inductive Completion where
  | token (key : Nat) (sreg : Nat) | bo (tenant va : Nat) (at_ : Loc) | none
  deriving DecidableEq, Repr

/-- An entry of the matrix queue (R245, R261): an `mma`, an `mma.crew` or an `ssm` as it stood at issue. -/
structure MqEntry where
  wave : Nat := 0
  pc : Word := 0
  parcels : Word := 0
  ssm : Bool := false
  crew : Bool := false
  started : Bool := false
  fmt : Ty := .f32
  ad : Nat := 0
  m : Nat := 0
  n : Nat := 0
  k : Nat := 0
  ablk : Nat := 0
  bblk : Nat := 0
  pA : Nat := 0
  pB : Nat := 0
  nA : Nat := 0
  nB : Nat := 0
  tabA : BitVec 256 := 0
  tabB : BitVec 256 := 0
  opNo : Nat := 0
  block : BitVec 512 := 0
  blockAt : Nat := 0
  cw : Completion := .none
  deriving DecidableEq, Repr

/-- A raster descriptor as read at binding (Table 21.4). -/
structure RasterBind where
  desc : BitVec 512 := 0
  descAt : Word := 0
  cluster : Nat := 0
  told : Bool := false
  deriving DecidableEq, Repr

/-- A group (Tables 17.1 and 17.3, R221, R225). `slots` lists the strip-ring slots it holds: ring address, sequence, and whether as program
consumer (R338, R341). `faultFams` lists the families whose FAULTS it has counted for its lanes while it is parked faulted, `faultTask` whether it has counted its
task's FAMILY (R290); `agent` marks the group
in its core's agent slot (Table 1.1); `overdue` marks a ready image that has waited PRE_WAIT_US with no core able to place it (R307), `homing` a waiter's image that R48 saved (R288).
`crewGone` lists crew members that have exited, by rank, with how many crew operations each had issued and its queue entries then (R264). -/
structure Group where
  gid : Nat := 1
  seq : Nat := 0
  groupid : Nat := 0
  tenant : Nat := 0
  ring : Option Nat := none
  prio : Nat := 0
  part : Nat := 2
  replay : Bool := false
  matrix : Bool := false
  lsKib : Nat := 0
  accKib : Nat := 0
  depth : Nat := 1
  crew : Nat := 0
  rank : Nat := 0
  crewLead : Nat := 0
  nwaves : Nat := 1
  regs : Nat := 8
  image : Word := 0
  roleMap : Word := 0
  arg : Word := 0
  chain : Option Nat := none
  origin : Origin := .grid
  place : Place := .saved
  lastCore : Nat := 0
  faultWave : Nat := 0
  faultPc : Word := 0
  faultLen : Nat := 0
  fetchFault : Bool := false
  launchFault : Bool := false
  faultFams : List Nat := []
  faultTask : Bool := false
  agent : Bool := false
  overdue : Bool := false
  homing : Bool := false
  budgetFree : Nat := 0
  took : Nat := 0
  ls : List (Nat × Byte) := []
  lsTags : List (Nat × Bool) := []
  locks : List Nat := []
  helper : Option Nat := none
  adepth : Nat := 0
  img : Word := 0
  crewOps : Nat := 0
  crewGone : List (Nat × Nat × List MqEntry) := []
  feedA : Feed := {}
  feedB : Feed := {}
  mq : List MqEntry := []
  raster : Option RasterBind := none
  slots : List (Nat × Nat × Bool) := []
  readyAt : Nat := 0
  deriving DecidableEq, Repr

/-- The state of a task (Table 3.2, R22, R42). -/
inductive TaskState where
  | armed | ready | done | refused | killed
  deriving DecidableEq, Repr

/-- Where a task's completion record and its pool reservation come from (R366, R374). -/
structure Source where
  pkt : Word := 0
  index : Nat := 0
  tag : BitVec 32 := 0
  irq : Bool := false
  counts : Bool := false
  deriving DecidableEq, Repr

/-- A task (Table 3.1, R19 to R24, R303). `overdue`: it has waited PRE_WAIT_US with no core able to place its next group (R307). `started`: the
value of State.draw when its first group started (R90; log 6). -/
structure Task where
  seq : Nat := 0
  tenant : Nat := 0
  ring : Nat := 0
  depth : Nat := 1
  parent : Option Nat := none
  root : Nat := 0
  rec64 : BitVec 512 := 0
  state : TaskState := .armed
  next : Nat := 0
  exitedGroups : Nat := 0
  faultCounted : Bool := false
  chain : Option Nat := none
  src : Source := {}
  segs : Nat := 0
  readyAt : Nat := 0
  born : Nat := 0
  overdue : Bool := false
  started : Nat := 0
  deriving DecidableEq, Repr

/-- A thread waiting to be gathered: spawned, or a continuation lane with its registers (R35, R39, R40). `batch` is the partial wave it
has been launched in, while that wave waits for a core. -/
structure Thread where
  seq : Nat
  core : Nat
  entry : Word
  stamp : Nat
  cont : Bool := false
  originGroup : Nat := 0
  regs : Nat := 8
  lsKib : Nat := 0
  accKib : Nat := 0
  groupid : Nat := 0
  info : LaneInfo := {}
  key : AgeKey := {}
  v : List (Nat × Word) := []
  s : List (Nat × Word) := []
  m : List (Nat × LaneMask) := []
  mode : Word := 0
  batch : Option Nat := none
  deriving DecidableEq, Repr

/-- A hidden join object (R32, R36). -/
structure JoinObj where
  count : Nat := 0
  rejoin : Word := 0
  forward : Option Nat := none
  deriving DecidableEq, Repr

/-- Transfers of a copy engine (R213, R281). -/
inductive XferKind where
  | cpIn | feedA | feedB | cpOut | cpLl | accLd | accSt | dqPush
  deriving DecidableEq, Repr

/-- A transfer in flight (R212, R281): `at_` is the stream position of a feed copy's first byte or the data slot of a `dq.push`, `slot` the
queue slot of a `dq.push` (R228). -/
structure Xfer where
  id : Nat := 0
  kind : XferKind := .cpIn
  gid : Nat := 0
  wave : Nat := 0
  core : Nat := 0
  tenant : Nat := 0
  seq : Nat := 0
  pc : Word := 0
  cw : Completion := .none
  cwWord : BitVec 11 := 0
  pos : Nat := 0
  bytes : Nat := 0
  shape : Shape := {}
  dense : Word := 0
  handle : Nat := 0
  at_ : Nat := 0
  queue : Word := 0
  ticket : Nat := 0
  slot : Nat := 0
  data : List Byte := []
  held : Nat := 0
  deriving DecidableEq, Repr

/-- An entry of a core's record cache (R138). -/
structure RecEntry where
  tenant : Nat
  addr : Word
  bits : BitVec 256
  deriving DecidableEq, Repr

/-- Bytes that a cache holds as they stood when they were read: a line of 64 bytes of a read-only cache or of code, a record or a node of the
traversal unit (R90, R115, R347; logs 6 and 42). `stamp` orders the reading against the start of a task (a value of State.draw) or, for a line
of code, against the publication of a task (a task sequence number). -/
structure RoLine where
  at_ : Loc
  bytes : List Byte
  stamp : Nat := 0
  deriving DecidableEq, Repr

/-- Q_MIN and Q_CAP of a pool queue (Table 19.4). -/
structure Pool where
  qmin : Nat
  qcap : Nat
  deriving DecidableEq, Repr

/-- A core: configuration, partition, the strip chains that hold it (R317), queues, caches and counters (Tables 19.2 to 19.4, R28, R138,
R186), in which cycle it has issued last and how often (R310), and how often registers of it have become free (R305). -/
structure Core where
  gatherM1 : Nat := 255
  quantumM1 : Nat := 1023
  starveM1 : Nat := 4095
  part : Nat := 1
  moving : Bool := false
  chains : List Nat := []
  spawnP : Pool := { qmin := 512, qcap := 1536 }
  contP : Pool := { qmin := 512, qcap := 1536 }
  copyP : Pool := { qmin := 256, qcap := 1024 }
  readyP : Pool := { qmin := 128, qcap := 512 }
  claims : List Nat := []
  recCache : List RecEntry := []
  roCache : List RoLine := []
  issued : Nat := 0
  pathChanges : Nat := 0
  fixups : Nat := 0
  ejected : Nat := 0
  adoptions : Nat := 0
  claimsQueued : Nat := 0
  issueCycle : Nat := 0
  issueCount : Nat := 0
  beatAt : Nat := 0
  lastEvict : Option Nat := none
  freed : Nat := 0
  deriving DecidableEq, Repr

/-- States of a ring (Table 23.3). -/
inductive RingState where
  | disabled | active | error | killing
  deriving DecidableEq, Repr

/-- A ring and its context (Table 23.2). `checked` and `nodeChecked` hold the packet at HEAD and the node as the validator has passed them: every later step executes
those bytes (R369). -/
structure Ring where
  state : RingState := .disabled
  head : BitVec 32 := 0
  tail : BitVec 32 := 0
  step : BitVec 32 := 0
  node : Option Nat := none
  base : Word := 0
  log2n : Nat := 4
  imgBase : Word := 0
  imgSize : Nat := 0
  val : Word := 0
  docc : Bool := false
  cstream : Nat := 0
  estream : Nat := 0
  tenant : Nat := 0
  func : Nat := 0
  held : Bool := false
  checked : Option (BitVec 512) := none
  nodeChecked : Option (BitVec 512) := none
  deriving DecidableEq, Repr

/-- A stream of a function (Table 23.7, R372 to R374). -/
structure Stream where
  base : Word := 0
  piaddr : Word := 0
  vec : Nat := 0
  timeUs : Nat := 0
  count : Nat := 1
  log2n : Nat := 4
  kind : Nat := 0
  pi : BitVec 32 := 0
  ci : BitVec 32 := 0
  pend : Nat := 0
  oldest : Nat := 0
  held : List (BitVec 512 × Bool) := []
  deriving DecidableEq, Repr

/-- A function's command ring (Table 23.1). -/
structure Func where
  cmdBase : Word := 0
  cmdLog2n : Nat := 4
  cmdTail : BitVec 32 := 0
  cmdHead : BitVec 32 := 0
  cmdLast : Word := 0
  deriving DecidableEq, Repr

/-- An admitted timetable (R315, R316): its entries, the ring that serves its chains, and how often each entry has been started and finished. -/
structure Timetable where
  entries : List (BitVec 512) := []
  ring : Nat := 0
  started : List (Nat × Nat) := []
  finished : List (Nat × Nat) := []
  deriving DecidableEq, Repr

/-- A strip chain launched for an entry (R317); `old` counts the timetables that have taken effect since (R316, R320). -/
structure Chain where
  entry : BitVec 512 := 0
  head : Nat := 0
  cluster : Nat := 0
  cores : List Nat := []
  launched : Nat := 0
  finish : Nat := 0
  done : Nat := 0
  streak : Nat := 0
  old : Nat := 0
  deriving DecidableEq, Repr

/-- An output and its descriptor (Table 21.8, R342 to R345): the sequence it takes next, the sequence bound to the first entry of the timetable
in force, the scan line it has come to, the level at which its last strip of each timetable finished, by how many timetables have taken effect
since (0 is the one in force), the strips it does not read with their colour, the sequences whose lateness its entries have counted, the rows an encoder has coded, and whether it is coding a slot it has begun. -/
structure Output where
  bound : Bool := false
  desc : BitVec 512 := 0
  tenant : Nat := 0
  func : Nat := 0
  seq : BitVec 32 := 0
  base : BitVec 32 := 0
  started : Bool := false
  line : Nat := 0
  levels : List (Nat × Nat) := []
  late : List (Nat × Nat) := []
  counted : List Nat := []
  rows : Nat := 0
  coding : Bool := false
  deriving DecidableEq, Repr

/-- A fragment in the raster unit: block origin in the region, coverage, level, weights, depth and primitive index, the depth of each
pixel of its block, and the wave and lane it has been delivered to (R333, R335). -/
structure Frag where
  gid : Nat
  x : Nat
  y : Nat
  cover : Nat
  level : Nat
  l1 : Nat
  l2 : Nat
  z : Nat
  prim : Nat
  depths : List Nat := []
  owner : Option (Nat × Nat) := none
  deriving DecidableEq, Repr

/-- The raster unit of a cluster (R330, R334). `tiles` lists the tiles still to process (group, first column in the region), `frags` the
fragments not yet committed or dropped. -/
structure Raster where
  binset : Word := 0
  strip : Nat := 0
  tenant : Nat := 0
  busy : Bool := false
  started : Bool := false
  groups : List Nat := []
  nreg : Nat := 0
  tiles : List (Nat × Nat) := []
  frags : List Frag := []
  level : Nat := 0
  deriving DecidableEq, Repr

/-- An entry of the ownership table (R231). -/
structure Own where
  tenant : Nat
  addr : Nat
  seq : Nat
  deriving DecidableEq, Repr

/-- A translation remembered until its invalidation completes (R65). -/
structure TlbEntry where
  tenant : Nat
  page : Nat
  level : Nat
  entry : Word
  deriving DecidableEq, Repr

/-- A descriptor made known by a load: spawn entries (KIND 1) and kernels (Table 9.11, R145, R146). -/
structure Kd where
  tenant : Nat
  bits : BitVec 256
  lo : Nat
  hi : Nat
  deriving DecidableEq, Repr

/-- A firmware slot of the flash (R383): header version, image bytes and signature. -/
structure Slot where
  svn : Nat := 0
  image : List Byte := []
  signature : BitVec 256 := 0
  deriving DecidableEq, Repr

/-- A configuration record (R386). -/
structure CfgRec where
  sequence : Nat := 0
  minSvn : Nat := 0
  cores : List Nat := []
  spares : List Nat := []
  channels : List Nat := []
  marked : List Nat := []
  rows : List (Nat × Nat) := []
  lanes : List Nat := []
  signature : BitVec 256 := 0
  deriving DecidableEq, Repr

/-- The flash (Table 25.1): firmware slots, configuration copies, PUF helper data, and the identity certificate (R389). -/
structure Flash where
  slotA : Option Slot := none
  slotB : Option Slot := none
  copy0 : Option CfgRec := none
  copy1 : Option CfgRec := none
  helper : List Byte := []
  certificate : List Byte := []
  deriving DecidableEq, Repr

/-- Boot states (Table 25.2). -/
inductive BootState where
  | reset | rom | selfTest | ready | failed
  deriving DecidableEq, Repr

/-- boot_status (Table 25.2). -/
structure Boot where
  state : BootState := .reset
  fail : Nat := 0
  slot : Nat := 0
  svn : Nat := 0
  digest : BitVec 256 := 0
  aliasPriv : BitVec 256 := 0
  aliasPub : BitVec 256 := 0
  cfgPriv : BitVec 256 := 0
  cfgPub : BitVec 256 := 0
  cert : BitVec 256 := 0
  deriving DecidableEq, Repr

/-- Power states (Table 25.3). -/
inductive Power where
  | d0 | d3hot | d3cold
  deriving DecidableEq, Repr

/-- What the device sends out beside memory: interrupts, display lines, encoder rows, replies to peers and attestation responses. -/
inductive Outward where
  | msix (func vec : Nat)
  | displayLine (out line : Nat) (fill : Bool) (pixels : List Byte)
  | encoderRow (out seq : Nat) (fill : Bool) (obu : List Byte)
  | peerReply (member : Nat) (value : Word)
  | peerFault (member : Nat) (cause : Cause) (info1 : Word)
  | attestation (fields : List (BitVec 256))
  | thermalTrip
  deriving DecidableEq, Repr

/-- Who acts in a turn: a wave issues its next instruction, or a step of the device happens. -/
inductive Act where
  | issue (key : Nat) | event (i : Instr)
  deriving DecidableEq, Repr

/-- What a peer device makes of an access: its tables have no entry, at a level, with the format-error mark (R62); they lack some permissions
(R63); the request is not acknowledged before its route is lost (R380); or an uncorrectable error. -/
inductive PeerWhy where
  | notPresent (level : Nat) (fmt : Bool) | lacks (perms : Nat) | noAck | ecc
  deriving DecidableEq, Repr

/-- The answer of member d to accesses of a domain tenant to a page of 64 KiB of its window, where it does not perform them (R58, R380;
log 10). -/
structure PeerAnswer where
  member : Nat
  tenant : Nat
  page : Nat
  why : PeerWhy
  deriving DecidableEq, Repr

/-- Which cache reads bytes: a core's read-only cache, a cluster's node cache, or instruction fetch (R90, R115, R347). -/
inductive CacheAt where
  | core (c : Nat) | nodes (cluster : Nat) | code
  deriving DecidableEq, Repr

/-- A reading of bytes by a cache on its own, as a prefetcher may read them (logs 6 and 42). -/
structure Capture where
  cache : CacheAt
  at_ : Loc
  n : Nat := 64
  deriving DecidableEq, Repr

/-- One turn of the machine: who acts, with what input, how many arithmetic cycles and how much time pass, and for how many cycles the
scoreboard held the wave (logs 3 and 4), which accesses peer devices turn away (log 10), and what caches read first (logs 6 and 42). Time is in units of 2^-32 ns (Table 1.2). -/
structure Turn where
  what : Act
  input : Input := {}
  cycles : Nat := 1
  dt : Nat := 5052902701
  held : Nat := 0
  peers : List PeerAnswer := []
  captures : List Capture := []
  deriving DecidableEq, Repr

/-- Capability registers (Tables 1.4 to 1.6). -/
structure Caps where
  dev : Word := 0x0030808801000600#64
  cluster : List Word := [0x88888888#64, 0x88888888#64, 0x88888888#64, 0x88888888#64]
  spare : Word := 0xFF#64
  deriving DecidableEq, Repr

/-- Device configuration registers (Tables 19.5 to 19.7, 25.5). -/
structure DevCfg where
  preWaitUs : Nat := 200
  slice : Nat := 4096
  segLimit : Nat := 1024
  leadUs : Nat := 100
  rclust : Nat := 8
  computeMin : Nat := 0
  throttle : Nat := 0
  tmax : Nat := 0
  powerW : Nat := 0
  deriving DecidableEq, Repr

/-- A tenant's budget or use (Table 19.8). -/
structure Budget where
  units : Nat
  bw : Nat
  pwr : Nat
  deriving DecidableEq, Repr

/-- A load-store domain (R379). -/
structure Domain where
  self : Nat := 0
  members : Word := 0
  routes : List (Nat × Nat) := []
  tenants : List (Nat × Nat) := []
  deriving DecidableEq, Repr

/-- The command processor (R300, R301): the merge unit it serves, the ring index each merge unit has come to, and the cycles used of the
slice. -/
structure Cp where
  unit : Nat := 0
  pos : List (Nat × Nat) := []
  used : Nat := 0
  deriving DecidableEq, Repr

/-- The whole device. `ringsAcq` lists, by the place of a strip ring's header, how many sequences have been acquired and what ACQ held then
(R340; log 83). -/
structure State where
  agenda : List Turn := []
  input : Input := {}
  held : Nat := 0
  cur : Option Nat := none
  fresh : Nat := 0
  draw : Nat := 0
  peers : List PeerAnswer := []
  cycle : Nat := 0
  time : Nat := 0
  ext : List (Nat × Byte) := []
  shm : List (Nat × Byte) := []
  shmTags : List (Nat × Bool) := []
  host : List (Nat × Byte) := []
  peer : List (Nat × Byte) := []
  shmSteps : Nat := 10
  poison : List (Nat × Nat) := []
  roots : List (Nat × Nat) := []
  tlb : List TlbEntry := []
  caps : Caps := {}
  coresOut : List Nat := []
  sparesUsed : List Nat := []
  coresMoved : List Nat := []
  channelsOut : List Nat := []
  channelsMarked : List Nat := []
  lanesOut : List Nat := []
  rowErrors : List (Nat × Nat) := []
  rowsSpare : List (Nat × Nat) := []
  channelErrors : List (Nat × Nat) := []
  cores : List (Nat × Core) := []
  groups : List (Nat × Group) := []
  waves : List (Nat × Wave) := []
  tasks : List (Nat × Task) := []
  joins : List (Nat × JoinObj) := []
  threads : List Thread := []
  xfers : List (Nat × Xfer) := []
  owns : List Own := []
  kds : List Kd := []
  nextSeq : Nat := 1
  nextGid : Nat := 1
  nextJoin : Nat := 1
  nextXfer : Nat := 1
  tickets : Nat := 0
  nextBatch : Nat := 1
  rings : List (Nat × Ring) := []
  cp : Cp := {}
  streams : List (Nat × Stream) := []
  funcs : List (Nat × Func) := []
  vecUnmasked : List (Nat × Nat) := []
  vecPending : List (Nat × Nat) := []
  devCfg : DevCfg := {}
  budgets : List (Nat × Budget) := []
  uses : List (Nat × Budget) := []
  table : Option Timetable := none
  nextTable : Option Timetable := none
  chains : List (Nat × Chain) := []
  outputs : List (Nat × Output) := []
  rasters : List (Nat × Raster) := []
  domain : Domain := {}
  boot : Boot := {}
  flash : Flash := {}
  power : Power := .d0
  thermalTrip : Bool := false
  outward : List Outward := []
  killing : List (Nat × Nat) := []
  reported : List (Nat × Nat) := []
  releasedQ : List Nat := []
  nextYield : Nat := 1
  nodeCaches : List (Nat × List RoLine) := []
  codeLines : List RoLine := []
  lastBalance : Nat := 0
  ringsAcq : List (Loc × Nat × Nat) := []
  deriving DecidableEq, Repr

/-- The machine after reset: PERST# still asserted, boot_status 0, no group, no task, no ring, every register at the value of its map and
every memory with nothing listed (Tables 19.2 to 19.8, 23.2, 25.2; logs 1, 2, 8). -/
def State.reset : State := {}

/-- The map of memory bytes has the canonical form: addresses strictly rising, no byte listed that an unlisted address reads as (log 1). -/
def Memory.wf (m : List (Nat × Byte)) : Bool := kcanon 0#8 m

/-- The four memories of the device, and the local store of every group, are in canonical form. -/
def State.memWf (s : State) : Bool :=
  Memory.wf s.ext && Memory.wf s.shm && Memory.wf s.host && Memory.wf s.peer && s.groups.all (fun g => Memory.wf g.2.ls)

end Sys2Proof.Machine
end

