-- ==== Sys2Proof/Machine/Mem.lean ====
section
/-! DEFINITION. Registers and lanes of a wave, parts of the state, and memory: bytes, tags, translation, the checks of an access and
virtual ranges (R54 to R65). -/

set_option linter.unusedVariables false

namespace Sys2Proof.Machine

/-! ### Bits and bytes -/

/-- A field of a bit string. -/
def bitsAt {n : Nat} (x : BitVec n) (lo w : Nat) : Nat := x.toNat / 2 ^ lo % 2 ^ w
/-- A bit string from fields (low bit, width, value). -/
def packBits (n : Nat) (fs : List (Nat × Nat × Nat)) : BitVec n :=
  BitVec.ofNat n (fs.foldl (fun a f => a ||| (f.2.2 % 2 ^ f.2.1 * 2 ^ f.1)) 0)
/-- A little-endian number from bytes, and back (R4). -/
def leNat : List Byte → Nat
  | [] => 0
  | b :: r => b.toNat + 256 * leNat r
def leBytes : Nat → Nat → List Byte
  | 0, _ => []
  | n + 1, v => BitVec.ofNat 8 v :: leBytes n (v / 256)
def w64 (n : Nat) : Word := BitVec.ofNat 64 n
/-- The low 32 bits of a literal or register, sign-extended to 64 (R190). -/
def sext32 (v : BitVec 32) : Word := v.signExtend 64

/-! ### Registers of a wave -/

def rdS (w : Wave) (r : Nat) : Word := kget 0 r w.s
def wrS (w : Wave) (r : Nat) (x : Word) : Wave := { w with s := kput 0 r x w.s }
/-- A mask register; `m0` reads all ones (Table 0.1). -/
def rdM (w : Wave) (r : Nat) : LaneMask := if r = 0 then BitVec.allOnes 32 else kget 0 r w.m
/-- `m0` is not writable: a write to it is dropped (REG_RANGE comes first, R123). -/
def wrM (w : Wave) (r : Nat) (x : LaneMask) : Wave := if r = 0 then w else { w with m := kput 0 r x w.m }
def rdV (w : Wave) (r l : Nat) : Word := kget 0 (32 * r + l) w.v
def wrV (w : Wave) (r l : Nat) (x : Word) : Wave := { w with v := kput 0 (32 * r + l) x w.v }
/-- Write a vector register in the lanes of a mask. -/
def wrLanes (w : Wave) (r : Nat) (act : LaneMask) (f : Nat → Word) : Wave :=
  (List.range 32).foldl (fun w l => if act.getLsbD l then wrV w r l (f l) else w) w
/-- The lanes of a mask, ascending. -/
def lanesOf (m : LaneMask) : List Nat := (List.range 32).filter (fun l => m.getLsbD l)
/-- A mask from a predicate on lanes. -/
def maskOf (f : Nat → Bool) : LaneMask := BitVec.ofNat 32 ((List.range 32).foldl (fun a l => if f l then a + 2 ^ l else a) 0)
def popMask (m : LaneMask) : Nat := (lanesOf m).length
/-- Active: the path mask under the predicate (R7). -/
def activeOf (w : Wave) (mask : BitVec 3) : LaneMask := w.path &&& rdM w mask.toNat
/-- Sub-element j of a lane register (R149). -/
def elemOf (t : Ty) (x : Word) (j : Nat) : Nat := x.toNat / 2 ^ (t.width * j) % 2 ^ t.width
def elemCount (t : Ty) : Nat := 64 / t.width
/-- A lane register from its sub-elements. -/
def ofElems (t : Ty) (xs : List Nat) : Word :=
  w64 (xs.foldr (fun x a => x % 2 ^ t.width + 2 ^ t.width * a) 0)
/-- A w-bit result in a scalar or lane register: sign-extended for `.i*`, zero-extended otherwise (R149, R193). -/
def extTy (t : Ty) (x : Nat) : Word := if t.isI then BitVec.ofInt 64 (readInt t x) else w64 (x % 2 ^ t.width)

/-! ### Parts of the state -/

def State.setWave (s : State) (k : Nat) (w : Wave) : State := { s with waves := kset k w s.waves }
def State.modWave (s : State) (k : Nat) (f : Wave → Wave) : State := { s with waves := kmod k f s.waves }
def State.setGroup (s : State) (g : Nat) (x : Group) : State := { s with groups := kset g x s.groups }
def State.modGroup (s : State) (g : Nat) (f : Group → Group) : State := { s with groups := kmod g f s.groups }
def State.modTask (s : State) (q : Nat) (f : Task → Task) : State := { s with tasks := kmod q f s.tasks }
def State.core (s : State) (c : Nat) : Core := kget {} c s.cores
def State.modCore (s : State) (c : Nat) (f : Core → Core) : State := { s with cores := kset c (f (s.core c)) s.cores }
def State.ring (s : State) (g : Nat) : Ring := kget {} g s.rings
def State.modRing (s : State) (g : Nat) (f : Ring → Ring) : State := { s with rings := kset g (f (s.ring g)) s.rings }
def State.wave? (s : State) (k : Nat) : Option Wave := kfind k s.waves
def State.group? (s : State) (g : Nat) : Option Group := kfind g s.groups
def State.task? (s : State) (q : Nat) : Option Task := kfind q s.tasks
/-- The group of a wave key, and the key of a wave of a group. -/
def gidOf (k : Nat) : Nat := k / 32
def keyOf (g wv : Nat) : Nat := 32 * g + wv
/-- The waves of a group, with their keys. -/
def State.wavesOf (s : State) (g : Nat) : List (Nat × Wave) := s.waves.filter (fun p => gidOf p.1 = g)
def Group.core? (g : Group) : Option Nat :=
  match g.place with
  | .resident c => some c
  | _ => none
/-- The time counter: nanoseconds and fraction (Table 1.2). It has no end: past 2^64 - 1 ns it is compared whole, and `time.get` reads it modulo
2^64 (log 99). -/
def State.ns (s : State) : Nat := s.time / 2 ^ 32
def State.frac (s : State) : Nat := s.time % 2 ^ 32

/-! ### Bytes of memory -/

def Loc.plus (n : Nat) : Loc → Loc
  | .ext a => .ext (a + n)
  | .shm a => .shm (a + n)
  | .host a => .host (a + n)
  | .peer d t o => .peer d t (o + n)
  | .ls g o => .ls g (o + n)

/-- The key of a byte of a member's memory, as a domain tenant sees it (R58, R379; log 10). -/
def peerKey (d t o : Nat) : Nat := (d * 2 ^ 64 + t) * 2 ^ 48 + o
/-- One byte; a byte nothing has written reads 0 (log 1). -/
def rdByte (s : State) : Loc → Byte
  | .ext a => kget 0 a s.ext
  | .shm a => kget 0 a s.shm
  | .host a => kget 0 a s.host
  | .peer d t o => kget 0 (peerKey d t o) s.peer
  | .ls g o => match s.group? g with
    | some x => kget 0 o x.ls
    | none => 0
def wrByte (s : State) (l : Loc) (b : Byte) : State :=
  match l with
  | .ext a => { s with ext := kput 0 a b s.ext }
  | .shm a => { s with shm := kput 0 a b s.shm }
  | .host a => { s with host := kput 0 a b s.host }
  | .peer d t o => { s with peer := kput 0 (peerKey d t o) b s.peer }
  | .ls g o => s.modGroup g (fun x => { x with ls := kput 0 o b x.ls })
def rdBytes (s : State) (l : Loc) (n : Nat) : List Byte := (List.range n).map (fun k => rdByte s (l.plus k))
def wrBytes (s : State) (l : Loc) : List Byte → State
  | [] => s
  | b :: r => wrBytes (wrByte s l b) (l.plus 1) r
/-- The span of one unit of error correction: a 64-byte line of external memory (0), a 32-bit word of shared memory (1) (R395; log 28). -/
def eccSpan (mem : Nat) : Nat := if mem = 0 then 64 else 4
/-- The memory and the offset of a place that is covered (R395). -/
def eccPlace : Loc → Option (Nat × Nat)
  | .ext a => some (0, a)
  | .shm a => some (1, a)
  | _ => none
/-- Whether a unit lies wholly within n bytes at an offset. -/
def eccWithin (mem a n unit : Nat) : Bool := decide (a ≤ eccSpan mem * unit) && decide (eccSpan mem * unit + eccSpan mem ≤ a + n)
/-- Whether a unit has a byte among n bytes at an offset. -/
def eccMeets (mem a n unit : Nat) : Bool := decide (eccSpan mem * unit < a + n) && decide (a < eccSpan mem * unit + eccSpan mem)
/-- A write of whole units leaves no error in them (log 28). -/
def clearPoison (s : State) (l : Loc) (n : Nat) : State :=
  match eccPlace l with
  | some (m, a) =>
    if s.poison.any (fun p => p.1 == m && eccWithin m a n p.2) then
      { s with poison := s.poison.filter (fun p => !(p.1 == m && eccWithin m a n p.2)) }
    else s
  | none => s
/-- A little-endian value of n bytes (R4). -/
def rdN (s : State) (l : Loc) (n : Nat) : Nat := leNat (rdBytes s l n)
def wrN (s : State) (l : Loc) (n v : Nat) : State := clearPoison (wrBytes s l (leBytes n v)) l n

/-- The full/empty tag of the 32-bit word a place lies in (R67). -/
def rdTag (s : State) : Loc → Bool
  | .shm a => kget false (a / 4) s.shmTags
  | .ls g o => match s.group? g with
    | some x => kget false (o / 4) x.lsTags
    | none => false
  | _ => false
def wrTag (s : State) (l : Loc) (t : Bool) : State :=
  match l with
  | .shm a => { s with shmTags := kput false (a / 4) t s.shmTags }
  | .ls g o => s.modGroup g (fun x => { x with lsTags := kput false (o / 4) t x.lsTags })
  | _ => s

/-! ### Translation (R61 to R65) -/

/-- What an access needs of its page (R63). -/
structure Need where
  rd : Bool := false
  wr : Bool := false
  ex : Bool := false
  deriving DecidableEq, Repr

/-- External memory capacity in bytes: MEM_GIB × 2^30 (R17, R62). -/
def State.extBytes (s : State) : Nat := bitsAt s.caps.dev 0 16 * 2 ^ 30

/-- The reserved bits of a table entry (Table 5.3). -/
def pteReserved (e : Nat) : Bool := decide (e / 2 ^ 56 ≠ 0) || decide (e / 2 ^ 8 % 2 ^ 5 ≠ 0)
def pteAddr (e : Nat) : Nat := e % 2 ^ 56 / 2 ^ 13 * 2 ^ 13

/-- Whether an access of n bytes meets an uncorrectable error (R297, R395): a store that covers every unit it meets reads none. -/
def poisoned (s : State) (l : Loc) (n : Nat) (rd : Bool) : Bool :=
  match eccPlace l with
  | some (m, a) => s.poison.any (fun p => p.1 == m && eccMeets m a n p.2 && (rd || !eccWithin m a n p.2))
  | none => false

/-- The outcome of a walk: a failure at a level, with the format-error mark (R62), an uncorrectable error in a table (R395), or a leaf with
the entries passed, root first. -/
inductive Walk where
  | fail (level : Nat) (fmt : Bool)
  | ecc
  | leaf (level : Nat) (entry : Nat) (path : List Nat)
  deriving DecidableEq, Repr

/-- The bits below the page of a leaf at a level (R61). -/
def pageBits (level : Nat) : Nat := 56 - 10 * level

/-- Walk the levels left, from a table address (R61, R62). A table at or above capacity is the failure of the level whose entry it should hold
(log 43). -/
def walkFrom (s : State) (va : Nat) : List Nat → Nat → List Nat → Walk
  | [], _, _ => .fail 4 true
  | lv :: rest, table, path =>
    if s.extBytes ≤ table then .fail lv true
    else
      let at_ := table + 8 * (va / 2 ^ pageBits lv % 1024)
      let e := rdN s (.ext at_) 8
      if poisoned s (.ext at_) 8 true then .ecc
      else if e % 2 = 0 then .fail lv false
      else if pteReserved e then .fail lv true
      else if e / 2 % 2 = 1 then
        if lv = 1 then .fail lv true
        else if pteAddr e % 2 ^ pageBits lv ≠ 0 then .fail lv true
        else .leaf lv e (path ++ [at_])
      else if lv = 4 then .fail lv true
      else walkFrom s va rest (pteAddr e) (path ++ [at_])

/-- A tenant's walk; an unset root has no valid entry (R61). -/
def walk (s : State) (tenant va : Nat) : Walk :=
  match kfind tenant s.roots with
  | some r => if r = 0 then .fail 1 false else walkFrom s va [1, 2, 3, 4] r []
  | none => .fail 1 false

/-- The entry remembered for an address (R65). -/
def tlbFind (s : State) (tenant va : Nat) : Option TlbEntry :=
  s.tlb.find? (fun t => t.tenant = tenant && t.page = va / 2 ^ pageBits t.level && decide (t.level ≤ 4))

/-- The entry without A and D, which the walker itself sets. -/
def pteCore (e : Nat) : Nat := e &&& (2 ^ 64 - 1 - 0x60)

/-- Whether a remembered translation and the tables disagree: the access may use either until the invalidation completes (R65). -/
def tlbStale (s : State) (tenant va : Nat) : Bool :=
  match tlbFind s tenant va, walk s tenant va with
  | some t, .leaf lv e _ => decide (pteCore t.entry.toNat ≠ pteCore e) || decide (lv ≠ t.level)
  | some _, _ => true
  | none, _ => false

/-- A choice that stands for a whole step: which of two things the manual allows an access sees, by the page, line or word concerned, so
that every check and every access of one step agree (logs 5 to 7). -/
def State.choice (s : State) (kind what : Nat) : Bool := Config.free s.draw (4 * what + kind) % 2 == 1

/-- The translation an access uses: the tables', or the remembered one where they disagree and the free choice takes it (log 7). -/
def walkUsed (s : State) (tenant va : Nat) : Walk :=
  match tlbFind s tenant va with
  | some t => if tlbStale s tenant va && s.choice 0 (64 * (va / 2 ^ 16) + tenant) then .leaf t.level t.entry.toNat [] else walk s tenant va
  | none => walk s tenant va

/-- A failed check of R60: its place in the order, the cause and its INFO words. -/
structure Fail where
  stage : Nat
  cause : Cause
  info0 : Word
  info1 : Word := 0
  deriving DecidableEq, Repr

/-- Who makes an access: the tenant whose tables translate, the group whose local store the local window names (none for a ring), and
whether it is an instruction fetch. -/
structure Who where
  tenant : Nat
  ls : Option Nat := none
  fetch : Bool := false
  deriving DecidableEq, Repr

def Need.missing (n : Need) (e : Nat) : Nat :=
  (if n.rd && e / 4 % 2 == 0 then 1 else 0) + (if n.wr && e / 8 % 2 == 0 then 2 else 0) + (if n.ex && e / 16 % 2 == 0 then 4 else 0)

def notPresent (va level : Nat) (fmt fetch : Bool) : Fail :=
  { stage := 2, cause := .pageNotPresent, info0 := w64 va,
    info1 := w64 (level + (if fmt then 8 else 0) + (if fetch then 16 else 0)) }

/-- A page of a translated window: the physical address, or the failure (R62, R63). -/
def translate (s : State) (who : Who) (va size : Nat) (need : Need) : Except Fail Nat :=
  match walkUsed s who.tenant va with
  | .fail lv fmt => .error (notPresent va lv fmt who.fetch)
  | .ecc => .error { stage := 6, cause := .eccUncorrectable, info0 := w64 va }
  | .leaf lv e _ =>
    let pa := pteAddr e + va % 2 ^ pageBits lv
    let inMem : Bool :=
      if va < 2 ^ 52 then decide (pa + size ≤ s.extBytes)
      else if va < 2 ^ 53 then true
      else decide (2 ^ 25 ≤ pa) && decide (pa + size ≤ 2 ^ 25 * (1 + s.shmSteps))
    if !inMem then .error (notPresent va lv true who.fetch)
    else if need.missing e ≠ 0 then .error { stage := 3, cause := .pagePermission, info0 := w64 va, info1 := w64 (need.missing e) }
    else .ok pa

def addrRange (va info1 : Nat) : Fail := { stage := 1, cause := .addressRange, info0 := w64 va, info1 := w64 info1 }

/-- Whether an address lies in the local window, in the shared window (Table 5.2). -/
def inLocal (va : Nat) : Bool := decide (0xFF000000000000 ≤ va) && decide (va < 2 ^ 56)
def inShared (va : Nat) : Bool := decide (0xFE000000000000 ≤ va) && decide (va < 0xFE000020000000)

/-! ### Peer windows (R15, R58, R379, R380) -/

def inPeer (va : Nat) : Bool := decide (2 ^ 53 ≤ va) && decide (va < 0x60000000000000)
def peerOf (va : Nat) : Nat := (va - 2 ^ 53) / 2 ^ 48
/-- The address that an offset of a peer window names at its target (R58). -/
def peerAddr (o : Nat) : Nat := if o < 2 ^ 47 then o else 0xFE000000000000 + (o - 2 ^ 47)
/-- The domain tenant number of a local tenant (R379; log 10). -/
def domainOf (s : State) (tenant : Nat) : Nat := (kfind tenant s.domain.tenants).getD tenant
/-- The local tenant whose domain tenant number is given (R379). -/
def domainTenant (s : State) (n : Nat) : Option Nat :=
  (s.domain.tenants.find? (fun p => p.2 = n && (match kfind p.1 s.roots with
    | some r => decide (r ≠ 0)
    | none => false))).map (·.1)
/-- A port with a lane left; one with none is absent (R15). -/
def portUp (lanesOut : List Nat) (p : Nat) : Bool := (List.range 4).any (fun i => !lanesOut.contains (4 * p + i))
/-- Whether a route to a member remains: a port of its route that is present; a member reaches itself (R379, R380). -/
def routed (d : Domain) (lanesOut : List Nat) (m : Nat) : Bool :=
  decide (m = d.self) || (List.range 12).any (fun p => (kget 0 m d.routes).testBit p && portUp lanesOut p)
/-- What stands in a fault record of a failure at member d (R58, Table 17.7; log 10). -/
def peerInfo (d : Nat) (e : Fail) : Word :=
  match e.cause with
  | .addressRange => w64 d
  | .pageNotPresent => e.info1 + w64 (256 * d)
  | _ => e.info1
/-- The failure of an access that a peer's answer turns away, if it does (R58, R62, R63, R380). -/
def PeerWhy.fail (va d : Nat) (need : Need) (fetch : Bool) : PeerWhy → Option Fail
  | .notPresent lv fmt =>
    let e := Sys2Proof.Machine.notPresent va lv fmt fetch
    some { e with info1 := peerInfo d e }
  | .lacks perms =>
    let m := need.missing (4 * (7 - perms % 8))
    if m = 0 then none else some { stage := 3, cause := .pagePermission, info0 := w64 va, info1 := w64 m }
  | .noAck => some (addrRange va d)
  | .ecc => some { stage := 6, cause := .eccUncorrectable, info0 := w64 va }
/-- The failure that the peers' answers of this turn give an access at an offset of member d (log 10). -/
def peerTurned (s : State) (d tenant o va : Nat) (need : Need) (fetch : Bool) : Option Fail :=
  (s.peers.filter (fun a => decide (a.member = d) && decide (a.tenant = tenant) && decide (a.page = o / 2 ^ 16))).findSome?
    (fun a => a.why.fail va d need fetch)

/-- The place of an address outside the peer windows: window, translation and permission checks (R56, R57, R60 to R63). -/
def resolveOwn (s : State) (who : Who) (va size : Nat) (need : Need) : Except Fail Loc :=
  if va < 2 ^ 52 then
    match translate s who va size need with
    | .ok pa => .ok (.ext pa)
    | .error e => .error e
  else if va < 2 ^ 53 then
    match translate s who va size need with
    | .ok pa => .ok (.host pa)
    | .error e => .error e
  else if 0xFE000000000000 ≤ va ∧ va < 0xFE000018000000 then
    match translate s who va size need with
    | .ok pa => .ok (.shm pa)
    | .error e => .error e
  else if 0xFF000000000000 ≤ va ∧ va < 0xFF000000080000 then
    match who.ls, who.fetch with
    | some g, false =>
      match s.group? g with
      | some x => if va - 0xFF000000000000 + size ≤ x.lsKib * 1024 then .ok (.ls g (va - 0xFF000000000000)) else .error (addrRange va 0)
      | none => .error (addrRange va 0)
    | _, _ => .error (addrRange va 0)
  else .error (addrRange va 0)

/-- The tenant and the address behind an access to this device's own peer window: the device is a member like any other (R58). -/
def ownWindow (s : State) (tenant va : Nat) : Option (Nat × Nat) :=
  if inPeer va && decide (peerOf va = s.domain.self) then (domainTenant s (domainOf s tenant)).map (fun t => (t, peerAddr (va % 2 ^ 48))) else none

/-- The place of an address for an access of some bytes (R56 to R58, R60 to R63). -/
def resolve (s : State) (who : Who) (va size : Nat) (need : Need) : Except Fail Loc :=
  if inPeer va = false then resolveOwn s who va size need
  else
    let d := peerOf va
    let o := va % 2 ^ 48
    if !(s.domain.members.getLsbD d) || decide (2 ^ 47 + 0x18000000 ≤ o) then .error (addrRange va d)
    else if d = s.domain.self then
      match ownWindow s who.tenant va with
      | none => .error { notPresent va 1 false who.fetch with info1 := peerInfo d (notPresent va 1 false who.fetch) }
      | some (t, a) =>
        match resolveOwn s { who with tenant := t, ls := none } a size need with
        | .ok l => .ok l
        | .error e => .error { e with info0 := w64 va, info1 := peerInfo d e }
    else
      match peerTurned s d (domainOf s who.tenant) o va need who.fetch with
      | some e => .error e
      | none => .ok (.peer d (domainOf s who.tenant) o)

/-- What an object's rules add to the checks of R60: that it lies in the shared window, that it lies in local store or the shared window,
and support for an atomic on the host window. -/
inductive Extra where
  | plain | sharedOnly | tagged | hostAtomic (ok : Bool) (opc : Nat)
  deriving DecidableEq, Repr

def extraFail (va : Nat) (x : Extra) : Option Fail :=
  match x with
  | .plain => none
  | .sharedOnly => if inShared va then none else some { stage := 4, cause := .tagMisuse, info0 := w64 va }
  | .tagged => if inShared va || inLocal va then none else some { stage := 4, cause := .tagMisuse, info0 := w64 va }
  | .hostAtomic ok opc =>
    if decide (2 ^ 52 ≤ va) && decide (va < 2 ^ 53) && !ok then
      some { stage := 5, cause := .atomicTarget, info0 := w64 va, info1 := w64 opc }
    else none

/-- All checks of R60 on one address, in order: alignment, window, translation, permission, tags, target; then the uncorrectable error an
access would meet. -/
def checkOne (s : State) (who : Who) (va size align : Nat) (need : Need) (x : Extra) : Except Fail Loc :=
  if va % align ≠ 0 then .error { stage := 0, cause := .misaligned, info0 := w64 va, info1 := w64 size }
  else
    match resolve s who va size need with
    | .error e => .error e
    | .ok l =>
      match extraFail va x with
      | some e => .error e
      | none =>
        if poisoned s l size (need.rd || need.ex) then .error { stage := 6, cause := .eccUncorrectable, info0 := w64 va }
        else .ok l

/-- The checks on an object that must lie in the shared window: that test is the tags check of R60's order, after translation and
permission. -/
def checkObj (s : State) (who : Who) (va size align : Nat) (need : Need) : Except Fail Loc :=
  if va % align ≠ 0 then .error { stage := 0, cause := .misaligned, info0 := w64 va, info1 := w64 size }
  else checkOne s who va size align need .sharedOnly

/-- The first failure over several accesses: the earliest check, then the lowest lane (R60). -/
def worst : List (Except Fail Loc) → Option Fail
  | [] => none
  | .ok _ :: r => worst r
  | .error e :: r =>
    match worst r with
    | some f => if f.stage < e.stage then some f else some e
    | none => some e

/-- Set bits of a table entry in place, as one atomic update (R64). -/
def orEntry (s : State) (at_ bits : Nat) : State :=
  let e := rdN s (.ext at_) 8
  if e &&& bits = bits then s else wrN s (.ext at_) 8 (e ||| bits)

/-- The walker's marks at an address outside the peer windows (R64, R65). -/
def touchOwn (s : State) (tenant va : Nat) (write : Bool) : State :=
  if va < 2 ^ 53 ∨ (0xFE000000000000 ≤ va ∧ va < 0xFE000018000000) then
    match walkUsed s tenant va with
    | .leaf lv e path =>
      let s1 := path.foldl (fun s a => orEntry s a 0x20) s
      let s2 := match write, path.getLast? with
        | true, some a => orEntry s1 a 0x40
        | _, _ => s1
      if (tlbFind s tenant va).isSome then s2
      else { s2 with tlb := { tenant := tenant, page := va / 2 ^ pageBits lv, level := lv, entry := w64 e } :: s2.tlb }
    | _ => s
  else s
/-- The walker's marks for an access that is made: A on every entry passed, D on the leaf of a write, and the translation remembered
(R64, R65); an access to the device's own window is marked in the tables that translate it (R58). -/
def touch (s : State) (tenant va : Nat) (write : Bool) : State :=
  match ownWindow s tenant va with
  | some (t, a) => touchOwn s t a write
  | none => touchOwn s tenant va write

/-- Whether the page of an address is not held in caches: NC = 1, the host window, or the local window (R63, R91, R196). -/
def noCache (s : State) (tenant va : Nat) : Bool :=
  if 2 ^ 52 ≤ va ∧ va < 2 ^ 53 then true
  else if inLocal va then true
  else
    let p := (ownWindow s tenant va).getD (tenant, va)
    match walkUsed s p.1 p.2 with
    | .leaf _ e _ => e / 2 ^ 7 % 2 == 1
    | _ => false

/-- ceil(a / b). -/
def cdiv (a b : Nat) : Nat := (a + b - 1) / b
/-- The pieces of a virtual range, page by page: address and length. -/
def pagesOf (va n : Nat) : List (Nat × Nat) :=
  if n = 0 then []
  else
    (List.range ((va + n - 1) / 2 ^ 16 - va / 2 ^ 16 + 1)).map (fun k =>
      let a := if k = 0 then va else (va / 2 ^ 16 + k) * 2 ^ 16
      (a, min (va + n) ((va / 2 ^ 16 + k + 1) * 2 ^ 16) - a))
/-- The first uncorrectable error that a read of a piece meets. -/
def firstPoison (s : State) (l : Loc) (a n : Nat) (rd : Bool) : Option Fail :=
  (List.range (cdiv n 64 + 1)).findSome? (fun i =>
    let lo := if i = 0 then a else a / 64 * 64 + 64 * i
    let hi := min (a + n) (a / 64 * 64 + 64 * i + 64)
    if lo < hi ∧ poisoned s (l.plus (lo - a)) (hi - lo) rd then some { stage := 6, cause := .eccUncorrectable, info0 := w64 lo } else none)
/-- The failure of one piece of a range. -/
def pieceFail (s : State) (who : Who) (need : Need) (p : Nat × Nat) : Except Fail Loc :=
  match resolve s who p.1 p.2 need with
  | .error e => .error e
  | .ok l => if poisoned s l p.2 (need.rd || need.ex) then (match firstPoison s l p.1 p.2 (need.rd || need.ex) with
      | some e => .error e
      | none => .ok l) else .ok l
/-- Checks on every byte of a range: the earliest check of R60 that a page of it fails, and of the pages that fail it the lowest. -/
def checkRange (s : State) (who : Who) (va bytes : Nat) (need : Need) : Option Fail := worst ((pagesOf va bytes).map (pieceFail s who need))
/-- The same for a range that is one operand: a failed check names its first byte (R211; log 43). -/
def checkDense (s : State) (who : Who) (va bytes : Nat) (need : Need) : Option Fail :=
  (checkRange s who va bytes need).map (fun e => if e.stage = 6 then e else { e with info0 := w64 va })
/-- Bytes of a virtual range; a page that does not resolve reads 0 (callers check the range first). -/
def rdVa (s : State) (who : Who) (va n : Nat) : List Byte :=
  (pagesOf va n).flatMap (fun p =>
    match resolve s who p.1 1 {} with
    | .ok l => rdBytes s l p.2
    | .error _ => List.replicate p.2 0)
/-- Write bytes to a virtual range, each page where it resolves, with no marks of the walker. -/
def pokeVa (s : State) (who : Who) (va : Nat) (bs : List Byte) : State :=
  (pagesOf va bs.length).foldl (fun (st : State) p =>
    match resolve st who p.1 1 {} with
    | .ok l => clearPoison (wrBytes st l ((bs.drop (p.1 - va)).take p.2)) l p.2
    | .error _ => st) s
/-- The walker's marks for the pages of a range that is accessed (R64). -/
def touchRange (s : State) (tenant va bytes : Nat) (write : Bool) : State :=
  if bytes = 0 then s
  else
    (List.range ((va + bytes - 1) / 2 ^ 16 - va / 2 ^ 16 + 1)).foldl
      (fun s k => touch s tenant (if k = 0 then va else (va / 2 ^ 16 + k) * 2 ^ 16) write) s
/-- Store bytes to a virtual range: the bytes, and the walker's marks. -/
def wrVa (s : State) (who : Who) (va : Nat) (bs : List Byte) : State := touchRange (pokeVa s who va bs) who.tenant va bs.length true

end Sys2Proof.Machine
end

