-- ==== Sys2Proof/Machine/Image.lean ====
section
/-! DEFINITION. Context images as bytes (R279 to R281, R269, R287): what the device writes to a group's image reservation when the group
leaves its core. -/

set_option linter.unusedVariables false

namespace Sys2Proof.Machine

/-- A field of an image: byte offset, width in bytes, value. -/
abbrev ImgField := Nat × Nat × Nat

/-- A section of an image: type, length, and fields by offset from the section's start. -/
structure ImgSec where
  ty : Nat
  len : Nat
  fields : List ImgField
  deriving DecidableEq, Repr

def roundTo (k n : Nat) : Nat := (n + k - 1) / k * k
def b2n (b : Bool) : Nat := if b then 1 else 0
def shiftFields (at_ : Nat) (fs : List ImgField) : List ImgField := fs.map (fun f => (f.1 + at_, f.2.1, f.2.2))

/-- The waits of Table 13.14, which FLAGS bit 3 records. -/
def Wait.tabled : Wait → Bool
  | .tag | .lock | .dqPush | .dqPop | .joinFamily | .bo | .claim | .copySlot | .token => true
  | _ => false

/-- FLAGS of a wave block (Table 17.3). -/
def waveFlags (g : Group) (w : Wave) : Nat :=
  (match g.origin with
   | .continuation _ => 1
   | _ => 0) + 2 * b2n (w.wait == .trap) + 4 * b2n w.claim.isSome + 8 * b2n w.wait.tabled

/-- A token of the stack, 32 bytes (Table 17.3); the address of a hidden join object is 32 times its number (log 20). -/
def tokenFields (i : Nat) (t : Token) : List ImgField :=
  shiftFields (0x040 + 32 * i)
    [(0, 8, t.rejoin.toNat), (8, 4, t.entry.toNat), (12, 4, t.pend.toNat), (16, 8, t.pendPc.toNat), (24, 8, 32 * t.join.getD 0)]

/-- A wave block with its vector registers (R280, Table 17.3). -/
def waveBlock (g : Group) (w : Wave) : List ImgField :=
  [(0x000, 8, w.pc.toNat), (0x008, 4, w.path.toNat), (0x00C, 4, w.exited.toNat), (0x010, 4, w.present.toNat), (0x014, 4, w.done.toNat),
   (0x018, 8, w.mode.toNat), (0x020, 8, w.status.toNat), (0x028, 2, w.regCount), (0x02A, 1, w.waveid), (0x02B, 1, w.role),
   (0x02C, 1, w.tokens.length), (0x02D, 1, waveFlags g w), (0x030, 4, w.age),
   (0x038, 8, match w.claim with
     | some c => c.1 % 2 ^ 11 + 2 ^ 11 * c.2
     | none => 0)] ++
  (w.tokens.mapIdx tokenFields).flatten ++
  w.s.map (fun p => (0x140 + 8 * p.1, 8, p.2.toNat)) ++
  [(0x540, 4, 2 ^ 32 - 1)] ++ (w.m.filter (fun p => p.1 ≠ 0)).map (fun p => (0x540 + 4 * p.1, 4, p.2.toNat)) ++
  [(0x560, 272, w.xa.x.toNat), (0x670, 8, b2n w.xa.nan + 2 * b2n w.xa.pinf + 4 * b2n w.xa.ninf + 8 * b2n w.xa.ovf),
   (0x680, 32, w.cbA.toNat), (0x6A0, 32, w.cbB.toNat),
   (0x6C0, 8, w.perfResident), (0x6C8, 8, w.perfIssued), (0x6D0, 8, w.perfHeld), (0x6D8, 8, w.helping)] ++
  w.lanes.flatMap (fun p => [(0x700 + 8 * p.1, 8, p.2.family), (0x800 + 8 * p.1, 8, 32 * p.2.join.getD 0 + p.2.originLane)]) ++
  (w.v.filter (fun p => p.1 / 32 < w.regCount)).map (fun p => (0x900 + 8 * p.1, 8, p.2.toNat))
def waveBlockLen (w : Wave) : Nat := 0x900 + 256 * w.regCount

/-- Section 0x01 of some waves (R280). -/
def waveSec (g : Group) (ws : List Wave) : ImgSec :=
  let r : Nat × List ImgField := ws.foldl (fun (a : Nat × List ImgField) w =>
    let at_ := roundTo 256 a.1
    (at_ + waveBlockLen w, a.2 ++ shiftFields at_ (waveBlock g w))) (0, [])
  { ty := 1, len := r.1, fields := r.2 }

/-- A set of bits as byte fields, each byte once. -/
def bitFields (bits : List (Nat × Bool)) : List ImgField :=
  let bs := (bits.filter (·.2)).map (·.1)
  ((bs.map (· / 8)).eraseDups).map (fun j => (j, 1, ((bs.filter (fun k => k / 8 = j)).map (fun k => 2 ^ (k % 8))).sum))

def Tile.code (t : Tile) : Nat :=
  match t.ty with
  | .f32 => 0
  | .i32 => 1
  | _ => 2
/-- A tile of section 0x04: descriptor, then elements row-major (R281). -/
def tileFields (wv h : Nat) (t : Tile) : List ImgField :=
  let size := t.ty.width / 8
  (0, 16, wv + h * 2 ^ 8 + t.code * 2 ^ 16 + (t.m / 16 - 1) * 2 ^ 32 + (t.n / 16 - 1) * 2 ^ 36) ::
    t.e.mapIdx (fun i x => (16 + size * i, size, x.toNat % 2 ^ t.ty.width))
def tileSec (ws : List Wave) : ImgSec :=
  let r : Nat × List ImgField := ws.foldl (fun (a : Nat × List ImgField) w =>
    w.tiles.foldl (fun (a : Nat × List ImgField) p =>
      (a.1 + 16 + p.2.ty.width / 8 * p.2.m * p.2.n, a.2 ++ shiftFields a.1 (tileFields w.waveid p.1 p.2))) a) (0, [])
  { ty := 4, len := r.1, fields := r.2 }

/-- A pending entry of the matrix queue, 128 bytes (R281). -/
def mqFields (crew : Bool) (e : MqEntry) : List ImgField :=
  [(0, 8, e.wave % 32), (8, 8, e.parcels.toNat), (16, 8, e.pA), (24, 8, e.pB), (32, 8, if crew then e.opNo else 0),
   (64, 32, e.tabA.toNat), (96, 32, e.tabB.toNat)]
/-- Section 0x05: READ, CONSUME and FILL_ISSUED of each feed, then the pending entries. -/
def matrixSec (g : Group) : ImgSec :=
  { ty := 5, len := 48 + 128 * g.mq.length,
    fields := [(0, 8, g.feedA.read), (8, 8, g.feedA.consume), (16, 8, g.feedA.fillIssued), (24, 8, g.feedB.read), (32, 8, g.feedB.consume),
               (40, 8, g.feedB.fillIssued)] ++
      (g.mq.mapIdx (fun i e => shiftFields (48 + 128 * i) (mqFields (decide (1 < g.crew)) e))).flatten }

def XferKind.code : XferKind → Nat
  | .cpIn => 1 | .feedA => 2 | .feedB => 3 | .cpOut => 4 | .cpLl => 5 | .accLd => 6 | .accSt => 7 | .dqPush => 8
/-- A shape as the 256 bits of a record (Table 9.9). -/
def Shape.bits (h : Shape) : Nat :=
  (packBits 256 [(0, 56, h.base.toNat), (56, 8, 1), (64, 16, h.ext0), (80, 16, h.ext1), (96, 16, h.ext2), (112, 16, h.ext3), (128, 32, h.str1),
    (160, 32, h.str2), (192, 32, h.str3), (224, 8, h.ty.code.toNat), (232, 8, h.layout)]).toNat
/-- The feed that a copy fills, if it fills one. -/
def XferKind.feed? : XferKind → Option Bool
  | .feedA => some false
  | .feedB => some true
  | _ => none
/-- The position of a transfer in bytes in dense order: for a feed copy, what READ has passed of it (R269, R270). -/
def xferPos (g : Group) (x : Xfer) : Nat :=
  match x.kind.feed? with
  | some b => (if b then g.feedB.read else g.feedA.read) - x.at_
  | none => x.pos
/-- The third quadword of an entry: the handle, the dense address, or the first stream position of a feed copy (R269, R281; log 20). -/
def xferThird (x : Xfer) : Nat :=
  match x.kind with
  | .accLd | .accSt => x.handle
  | .feedA | .feedB => x.at_
  | _ => x.dense.toNat
/-- A transfer in flight: its entry, and the converted tile of an `acc.st` (R281). -/
def xferFields (g : Group) (x : Xfer) : List ImgField :=
  [(0, 8, x.kind.code + (x.wave % 32) * 2 ^ 8 + x.cwWord.toNat * 2 ^ 16), (8, 8, xferPos g x),
   (16, 8, xferThird x), (24, 8, x.slot),
   (32, 32, x.shape.bits)] ++
  (if x.kind = .accSt then x.data.mapIdx (fun i b => (64 + i, 1, b.toNat)) else [])
def xferLen (x : Xfer) : Nat := 64 + (if x.kind = .accSt then x.data.length else 0)
def xferSec (g : Group) (xs : List Xfer) : ImgSec :=
  let r : Nat × List ImgField := xs.foldl (fun (a : Nat × List ImgField) x => (a.1 + xferLen x, a.2 ++ shiftFields a.1 (xferFields g x))) (0, [])
  { ty := 6, len := r.1, fields := r.2 }

/-- Section 0x07: the held-lock list, the unassigned budget and the count taken from the core (R281). -/
def syncSec (g : Group) : ImgSec :=
  { ty := 7, len := 152,
    fields := (0, 8, g.locks.length) :: g.locks.mapIdx (fun i a => (8 + 8 * i, 8, a)) ++ [(136, 8, g.budgetFree), (144, 8, g.took)] }

/-- The image of the next rank of a crew, as CREW_NEXT names it (Table 17.1). -/
def crewNext (s : State) (g : Group) : Nat :=
  match s.groups.find? (fun p => decide (1 < g.crew) && p.2.seq == g.seq && p.2.crewLead == g.crewLead && p.2.rank == g.rank + 1) with
  | some p => p.2.img.toNat / 2 ^ 8 % 2 ^ 48
  | none => 0

/-- PART as a field of two bits. -/
def partBits (g : Group) : Nat := g.part % 4

/-- The header (Table 17.1) and the directory (Table 17.2) of an image. -/
def imgHeader (s : State) (g : Group) (kind bytes nwaves : Nat) (faulted : Bool) (cause : Nat) : List ImgField :=
  let h : BitVec 512 := packBits 512
    [(0, 31, bytes), (31, 3, g.rank), (34, 4, g.crew), (38, 6, nwaves), (48, 8, kind), (56, 8, 1), (64, 64, g.seq), (128, 62, g.gid),
     (192, 10, g.lsKib), (202, 9, g.accKib), (211, 2, partBits g), (213, 3, g.prio), (216, 4, g.depth), (220, 6, g.tenant), (226, 1, b2n g.replay),
     (227, 1, b2n g.matrix), (256, 32, g.groupid), (320, 8, cause), (328, 1, b2n faulted),
     (384, 62, (g.helper.map gidOf).getD 0), (448, 5, (g.helper.map (· % 32)).getD 0), (453, 3, g.adepth), (464, 48, crewNext s g)]
  [(0, 64, h.toNat)]

/-- Sections at multiples of 256 after the header block, with the directory: fields and the image's length (R279). -/
def imgLayout (secs : List ImgSec) : Nat × List ImgField :=
  (secs.foldl (fun (a : Nat × Nat × List ImgField) c =>
    (a.1 + 1, roundTo 256 (a.2.1 + c.len),
     a.2.2 ++ [(64 + 16 * a.1, 4, a.2.1), (68 + 16 * a.1, 4, c.len), (72 + 16 * a.1, 1, c.ty)] ++ shiftFields a.2.1 c.fields)) (0, 256, [])).2

/-- The sections of a whole image (R281); a section whose content is empty is left out (log 20). -/
def imgSections (s : State) (gid : Nat) (g : Group) (ws : List Wave) : List ImgSec :=
  let xs := (s.xfers.filter (fun p => p.2.gid = gid)).map (·.2)
  [waveSec g ws] ++
  (if g.lsKib = 0 then [] else
    [{ ty := 2, len := 1024 * g.lsKib, fields := g.ls.map (fun p => (p.1, 1, p.2.toNat)) },
     { ty := 3, len := 32 * g.lsKib, fields := bitFields g.lsTags }]) ++
  (if ws.all (fun w => w.tiles.isEmpty) then [] else [tileSec ws]) ++
  (if g.matrix then [matrixSec g] else []) ++
  (if xs.isEmpty then [] else [xferSec g xs]) ++ [syncSec g]

/-- Clear the bytes of a range of places, in one pass. -/
def clearBytes (s : State) (l : Loc) (n : Nat) : State :=
  match l with
  | .ext a => { s with ext := s.ext.filter (fun p => decide (p.1 < a) || decide (a + n ≤ p.1)) }
  | .shm a => { s with shm := s.shm.filter (fun p => decide (p.1 < a) || decide (a + n ≤ p.1)) }
  | .host a => { s with host := s.host.filter (fun p => decide (p.1 < a) || decide (a + n ≤ p.1)) }
  | _ => s

/-- Write an image at a tenant's virtual address: zeros, then every field. -/
def wrFields (s : State) (tenant va len : Nat) (fs : List ImgField) : State :=
  let who : Who := { tenant := tenant }
  let s : State := (pagesOf va len).foldl (fun (s : State) p =>
    match resolve s who p.1 1 {} with
    | .ok l => clearBytes (touch s tenant p.1 true) l p.2
    | .error _ => s) s
  fs.foldl (fun (s : State) f => if f.2.2 = 0 then s else pokeVa s who (va + f.1) (leBytes f.2.1 f.2.2)) s

/-- Save the image of a group of a ring at its reservation (R279, R284): KIND 1 saved, 2 faulted, 3 captured, as its place will be; KIND 4 holds
the evicted waves alone (R287). -/
def writeImage (s : State) (gid kind : Nat) (ws : List Wave) (cause : Option Nat) : State :=
  match s.group? gid with
  | none => s
  | some g =>
    if g.ring.isNone then s
    else
      let secs := if kind = 4 then [waveSec g ws] else imgSections s gid g ws
      let lay := imgLayout secs
      wrFields s g.tenant g.img.toNat lay.1 (imgHeader s g kind lay.1 ws.length cause.isSome (cause.getD 0) ++ lay.2)

end Sys2Proof.Machine
end

