-- ==== Sys2Proof/Machine/Ops.lean ====
section
/-! DEFINITION. The named operations over tables, streams, families and groups, taking an exception (R289) and the return from one
(R291). -/

set_option linter.unusedVariables false

namespace Sys2Proof.Machine

/-! ### Streams and interrupts (R372 to R374) -/

def streamKey (func n : Nat) : Nat := 64 * func + n

/-- Send a vector, or keep it pending while it is masked (R373). -/
def sendVec (s : State) (func vec : Nat) : State :=
  if s.vecUnmasked.contains (func, vec) then { s with outward := s.outward ++ [.msix func vec] }
  else { s with vecPending := if s.vecPending.contains (func, vec) then s.vecPending else s.vecPending ++ [(func, vec)] }

/-- Entries outstanding (R372). -/
def Stream.used (st : Stream) : Nat := (st.pi - st.ci).toNat
def Stream.full (st : Stream) : Bool := decide (2 ^ st.log2n ≤ st.used)

/-- Write one entry into a stream that has room: the entry, then PI, then the interrupt when COUNT or IRQ asks for it (R373). -/
def streamPut (s : State) (func n : Nat) (st : Stream) (e : BitVec 512) (irq : Bool) : State :=
  let s := wrN s (.host (st.base.toNat + 64 * (st.pi.toNat % 2 ^ st.log2n))) 64 e.toNat
  let pi := st.pi + 1
  let s := wrN s (.host st.piaddr.toNat) 8 pi.toNat
  let fire := irq || decide (st.count ≤ st.pend + 1)
  let st := { st with pi := pi, pend := if fire then 0 else st.pend + 1, oldest := if st.pend = 0 then s.time else st.oldest }
  let s := { s with streams := kset (streamKey func n) st s.streams }
  if fire then sendVec s func st.vec else s

/-- Give an entry to a stream: written at once, or held in order while the stream is full (R374); an unset stream takes none (log 29). -/
def streamEntry (s : State) (func n : Nat) (e : BitVec 512) (irq : Bool) : State :=
  match kfind (streamKey func n) s.streams with
  | none => s
  | some st =>
    if st.kind = 3 then s
    else if st.full || !st.held.isEmpty then
      { s with streams := kset (streamKey func n) { st with held := st.held ++ [(e, irq)] } s.streams }
    else streamPut s func n st e irq

/-- Write held entries while there is room (R374). -/
def streamDrain (func n : Nat) : Nat → State → State
  | 0, s => s
  | k + 1, s =>
    match kfind (streamKey func n) s.streams with
    | none => s
    | some st =>
      match st.held with
      | [] => s
      | (e, irq) :: r => if st.full then s else streamDrain func n k (streamPut s func n { st with held := r } e irq)

/-- Cause codes (Table 17.7). -/
def Cause.code : Cause → Nat
  | .illegalOpcode => 0x00 | .reservedField => 0x01 | .regRange => 0x02 | .privilege => 0x03 | .stallUndersized => 0x04
  | .laneInactiveRead => 0x05 | .branchDivergent => 0x06 | .breakpoint => 0x07
  | .misaligned => 0x20 | .addressRange => 0x21 | .pageNotPresent => 0x22 | .pagePermission => 0x23 | .tagMisuse => 0x24
  | .atomicTarget => 0x25 | .eccUncorrectable => 0x26
  | .claimDeadlock => 0x60 | .spawnOverflow => 0x61 | .helpCycle => 0x62 | .nestDepth => 0x63 | .entryInvalid => 0x64
  | .lockState => 0x65 | .boInvalid => 0x66 | .queueInvalid => 0x67 | .depUnderflow => 0x68 | .crewUnplaceable => 0x69
  | .qoccRefused => 0x6A
  | .illegalConvergence => 0x80 | .tokenReuse => 0x81 | .recordInvalid => 0x82 | .accHandle => 0x83 | .feedState => 0x84
  | .crewMismatch => 0x85 | .ssmConfig => 0x86
  | .ringState => 0xA0 | .traversalLogFull => 0xA1 | .binFull => 0xA2 | .traversalState => 0xA3
  | .userTrap => 0xB0 | .killed => 0xB1 | .heartbeatLost => 0xB2 | .recoveryFailed => 0xB3 | .replyInvalid => 0xB4
  | .packetInvalid => 0xB5 | .queueOverrun => 0xB6 | .validatorDenied => 0xB7 | .partitionRefused => 0xB8

/-- A fault record (Table 17.4), and whether it comes from a packet with IRQ (R373). -/
structure Record where
  cause : Cause
  reason : Nat := 0
  core : Nat := 0xFF
  tenant : Nat := 0
  lanes : LaneMask := 0
  pc : Word := 0
  seq : Nat := 0
  gid : Nat := 0
  adopted : Bool := false
  crew : Bool := false
  park : Word := 0
  info0 : Word := 0
  info1 : Word := 0
  irq : Bool := false
  deriving DecidableEq, Repr

def Record.bits (r : Record) (ns : Nat) : BitVec 512 :=
  packBits 512 [(0, 8, r.cause.code), (8, 8, r.reason), (16, 8, r.core), (24, 6, r.tenant), (32, 32, r.lanes.toNat), (64, 64, r.pc.toNat),
    (128, 64, r.seq), (192, 62, r.gid), (254, 1, if r.adopted then 1 else 0), (255, 1, if r.crew then 1 else 0), (256, 64, r.park.toNat),
    (320, 64, r.info0.toNat), (384, 64, r.info1.toNat), (448, 64, ns)]

/-- Write a record to the error stream of a ring (R289, R368, R399). -/
def errorRecord (s : State) (ring : Nat) (r : Record) : State :=
  let q := s.ring ring
  streamEntry s q.func q.estream (r.bits s.ns) r.irq
/-- The host error stream: stream 1 of the physical function (log 29). -/
def hostRecord (s : State) (r : Record) : State := streamEntry s 0 1 (r.bits s.ns) r.irq

/-! ### Join families (R41, R290, R400) -/

/-- Update the 8-byte family at an address through a tenant's tables; a failed access is not made and reported (R400). -/
def familyUpdate (s : State) (ring tenant addr : Nat) (f : Nat → Nat) (r : Record) : State × Bool :=
  match checkObj s { tenant := tenant } addr 8 8 { rd := true, wr := true } with
  | .ok l => (wrN (touch s tenant addr true) l 8 (f (rdN s l 8)), true)
  | .error e => (errorRecord s ring { r with cause := e.cause, info0 := w64 addr, info1 := e.info1, tenant := tenant }, false)

def famFaults (x : Nat) : Nat := x / 2 ^ 48
def famOut (x : Nat) : Nat := x % 2 ^ 32
def famAddFaults (k : Int) (x : Nat) : Nat := x % 2 ^ 48 + (wrapTo 16 ((famFaults x : Int) + k)) * 2 ^ 48
def famAddOut (k : Int) (x : Nat) : Nat := x / 2 ^ 32 * 2 ^ 32 + wrapTo 32 ((famOut x : Int) + k)

/-- The families of a group's present, unexited lanes, one entry a lane: each lane is a child (R41, R290; log 72). -/
def laneFamilies (s : State) (g : Nat) : List Nat :=
  (s.wavesOf g).flatMap (fun p =>
    (lanesOf (p.2.present &&& ~~~ p.2.exited)).filterMap (fun l =>
      let f := (kget {} l p.2.lanes).family
      if f = 0 then none else some f))

/-- The launch record's fields (Table 3.1). -/
def recFamily (t : Task) : Nat := bitsAt t.rec64 384 56

/-- The record that an update of a family fills where it fails (R399, R400). -/
def famRecord (x : Group) (gid : Nat) : Record := { cause := .pageNotPresent, seq := x.seq, gid := gid, core := x.core?.getD x.lastCore }

/-- The families in which a group parked faulted counts: each that a present, unexited lane names (R290), as often as lanes name it where the
device counts each child (R41); which of the two is open where several lanes name one family (log 72). -/
def faultFamilies (s : State) (g : Nat) : List Nat :=
  let fs := laneFamilies s g
  if fs.eraseDups = fs then fs else if Config.faultsEachLane then fs else fs.eraseDups

/-- A group parked faulted counts in FAULTS (R290): in the families its lanes name, and in its task's FAMILY when it is the
task's first, whatever made the group (log 72). Updates that are not made (R400) are not counted. -/
def countFaults (s : State) (g : Nat) : State :=
  match s.group? g with
  | none => s
  | some x =>
    let ring := x.ring.getD 0
    let r := famRecord x g
    let made : State × List Nat := (faultFamilies s g).foldl (fun a f =>
      let u := familyUpdate a.1 ring x.tenant f (famAddFaults 1) r
      (u.1, if u.2 then a.2 ++ [f] else a.2)) (s, [])
    let s := made.1.modGroup g (fun x => { x with faultFams := made.2 })
    match s.task? x.seq with
    | none => s
    | some t =>
      if recFamily t = 0 ∨ t.faultCounted = true then s
      else
        let u := familyUpdate s ring x.tenant (recFamily t) (famAddFaults 1) r
        (u.1.modTask x.seq (fun t => { t with faultCounted := true })).modGroup g (fun x => { x with faultTask := u.2 })
/-- A resume subtracts the amounts that its group has added (R290). -/
def uncountFaults (s : State) (g : Nat) : State :=
  match s.group? g with
  | none => s
  | some x =>
    let ring := x.ring.getD 0
    let r := famRecord x g
    let s := x.faultFams.foldl (fun s f => (familyUpdate s ring x.tenant f (famAddFaults (-1)) r).1) s
    let s := s.modGroup g (fun x => { x with faultFams := [], faultTask := false })
    match x.faultTask, s.task? x.seq with
    | true, some t => ((familyUpdate s ring x.tenant (recFamily t) (famAddFaults (-1)) r).1).modTask x.seq (fun t => { t with faultCounted := false })
    | _, _ => s

/-! ### Taking an exception (R289, R290) -/

/-- A cause raised by an instruction, with what its record holds (Table 17.7). -/
structure Trap where
  cause : Cause
  info0 : Word := 0
  info1 : Word := 0
  reason : Nat := 0
  lanes : Option LaneMask := none
  fetch : Bool := false
  deriving DecidableEq, Repr

def Fail.trap (e : Fail) : Trap := { cause := e.cause, info0 := e.info0, info1 := e.info1 }

/-- Every fixed-latency result complete and the declared distances clear (R128); an instruction left in its Block issues again from its
start (R241). -/
def Wave.settle (w : Wave) : Wave := { w with fixed := [], pend := [], retest := false }

/-- The groups parked with a group: itself, or its whole crew (R265, R289). -/
def parkSet (s : State) (g : Nat) : List Nat :=
  match s.group? g with
  | none => []
  | some x =>
    if x.crew ≤ 1 then [g]
    else (s.groups.filter (fun p => p.2.seq == x.seq && p.2.crewLead == x.crewLead && p.2.origin == x.origin)).map (·.1)

/-- A feed as an image keeps it: the FIFO's bytes are discarded (R269, R270). -/
def Feed.saved (f : Feed) : Feed := { f with fill := f.read, drain := f.read }

/-- KIND of the image a place means, and its CAUSE (Table 17.1). -/
def Place.kind : Place → Nat
  | .saved => 1
  | .faulted _ => 2
  | .captured => 3
  | .resident _ => 4
def Place.cause : Place → Option Nat
  | .faulted c => some c.code
  | _ => none

/-- What the object of a helping wait holds (R305, Table 13.14): the words it covers, and their tags; for a claim, how often its core has freed
registers. -/
def watchOf (s : State) (g : Group) (gid : Nat) (w : Wave) : Nat :=
  let who : Who := { tenant := g.tenant, ls := some (match g.origin with
    | .continuation o => o
    | _ => gid) }
  let a := w.waitArg.toNat % 2 ^ 56
  let tag (va : Nat) : Nat := match resolve s who va 4 {} with
    | .ok l => if rdTag s l then 1 else 0
    | .error _ => 0
  match w.wait with
  | .tag => 4 * leNat (rdVa s who a 8) + 2 * tag (a + 4) + tag a
  | .lock => leNat (rdVa s who a 16)
  | .dqPush | .dqPop => leNat (rdVa s who a 64)
  | .joinFamily | .bo => leNat (rdVa s who a 8)
  | .claim => (s.core (g.core?.getD g.lastCore)).freed
  | _ => 0

/-- Take a group off its core as an image: results complete, the feeds' bytes and the matrix queue's progress go (R269, R283). Its
claims leave the core's queue (R28). -/
def stowGroup (s : State) (g : Nat) (p : Place) : State :=
  match s.group? g with
  | none => s
  | some x =>
    let s : State := match x.core? with
      | some c => s.modCore c (fun k => { k with claims := k.claims.filter (fun q => gidOf q ≠ g), freed := k.freed + 1 })
      | none => s
    let ws : List (Nat × Wave) := s.waves.map (fun (q : Nat × Wave) => if gidOf q.1 = g then
      (q.1, { q.2.settle with evicted := false, watch := watchOf s x g q.2 }) else q)
    let s : State := { s with waves := ws }
    let s := s.setGroup g { x with place := p, feedA := x.feedA.saved, feedB := x.feedB.saved, lastCore := x.core?.getD x.lastCore, readyAt := s.time,
                                   mq := x.mq.map (fun e => { e with started := false }) }
    writeImage s g p.kind ((s.wavesOf g).map (·.2)) p.cause

/-- Dissolve the adoption of a helper wave: it will retest (R50, R52). -/
def freeHelper (s : State) (k : Nat) : State := s.modWave k (fun w => { w with helping := 0, grant := true })

/-- The resident continuation groups of an origin group leave its core with it, as images of a kind (R35). -/
def stowContinuationsAs (p : Place) (s : State) (g : Nat) : State :=
  (s.groups.filter (fun q => q.2.origin == .continuation g && q.2.core?.isSome)).foldl (fun s q => stowGroup s q.1 p) s
def stowContinuations (s : State) (g : Nat) : State := stowContinuationsAs .saved s g

/-- The wait of an adopted owner's helper completes with OWNER_FAULTED (R51). -/
def failHelper (s : State) (k : Nat) : State := s.modWave k (fun w => { w with helping := 0, grant := true, ownerEnd := 1 })

/-! ### Hidden join objects -/

def Wave.top? (w : Wave) : Option Token := w.tokens.getLast?
def Wave.pop (w : Wave) : Wave := { w with tokens := w.tokens.dropLast }
def Wave.setTop (w : Wave) (t : Token) : Wave := { w with tokens := w.tokens.dropLast ++ [t] }

def joinObj (s : State) (j : Nat) : JoinObj := kget {} j s.joins
/-- The count that a token waits on; no object counts as 0 (R36). -/
def joinCount (s : State) (j : Option Nat) : Nat :=
  match j with
  | some j => (joinObj s j).count
  | none => 0

/-! ### Adopted owners (R50, R51) -/

/-- Whether a wave is in a wait that holds it: not one that is due to be retested, nor one on a join count that has reached 0 (R34, R50). -/
def Wave.blocked (s : State) (w : Wave) : Bool :=
  w.wait != .none && !w.grant && !(w.wait == .joinCount && joinCount s (w.top?.bind (·.join)) == 0)

/-- Whether anything of a group can still run: a wave of it or of its continuations that is not blocked or that helps, or a continuation lane
that is still to start (R35, R50; log 35). -/
def groupRuns (s : State) (g : Nat) : Bool :=
  s.waves.any (fun p => !p.2.ended && (!p.2.blocked s || decide (p.2.helping ≠ 0)) && (gidOf p.1 == g ||
    (match s.group? (gidOf p.1) with
     | some x => x.origin == .continuation g && x.core?.isSome
     | none => false))) ||
  s.threads.any (fun t => t.cont && t.originGroup == g)

/-- The group that a group's waves belong with: the origin group of continuation waves, else itself (R35). -/
def originGroup (s : State) (g : Nat) : Nat :=
  match s.group? g with
  | some x => match x.origin with
    | .continuation o => o
    | _ => g
  | none => g

/-- An adopted owner of which nothing can run, as its waves and its continuation waves are blocked on waits it cannot help with, is parked with
its waits recorded, and its helper resumes (R50). -/
def parkBlockedOwner (s : State) (k : Nat) : State :=
  let o := originGroup s (gidOf k)
  match s.group? o with
  | none => s
  | some g => match g.helper with
    | none => s
    | some h =>
      if groupRuns s o then s
      else
        let s := (freeHelper s h).modGroup o (fun x => { x with helper := none, adepth := 0 })
        stowContinuations (stowGroup s o .saved) o

/-- The groups that a fault parks (R289): the wave's group or its crew; with a continuation wave of an adopted owner the owner's group too, whose
fault it is (R51; log 96). -/
def faultSet (s : State) (g : Nat) : List Nat :=
  let o := originGroup s g
  parkSet s g ++ (if o ≠ g ∧ ((s.group? o).bind (·.helper)).isSome = true then [o] else [])

/-- Park a group, or its crew, as KIND 2 with a cause (R289): the trapping wave, its PC and length are kept for the reply. -/
def parkFaulted (s : State) (k : Nat) (cause : Cause) (pc : Word) (len : Nat) (fetch : Bool) : State :=
  (faultSet s (gidOf k)).foldl (fun s g =>
    let s := stowContinuations (stowGroup s g (.faulted cause)) g
    let s := match s.group? g with
      | some x => match x.helper with
        | some h => (failHelper s h).modGroup g (fun x => { x with helper := none, adepth := 0 })
        | none => s
      | none => s
    let s := countFaults s g
    s.modGroup g (fun x => { x with faultWave := k, faultPc := pc, faultLen := len, fetchFault := fetch })) s

/-- The adoption record of a helper wave is removed: its owner runs on at its own depth (R53). -/
def dropHelper (s : State) (k : Nat) : State :=
  { s with groups := s.groups.map (fun (p : Nat × Group) => if p.2.helper = some k then (p.1, { p.2 with helper := none, adepth := 0 }) else p) }

/-- The continuation lanes of a group are discarded with its waves (R35, R297; log 98): its continuation groups and waiting continuation threads
go, with their transfers and the hidden join objects of all those waves; locks and ring slots they hold pass to the group. -/
def dropContinuations (s : State) (g : Nat) : State :=
  let cs := (s.groups.filter (fun p => p.2.origin == .continuation g)).map (·.1)
  let mine (k : Nat) : Bool := gidOf k == g || cs.contains (gidOf k)
  let joins := (s.waves.filter (fun p => mine p.1)).flatMap (fun p => p.2.tokens.filterMap (·.join))
  let s := (s.waves.filter (fun p => mine p.1 && decide (p.2.helping ≠ 0))).foldl (fun s p => dropHelper s p.1) s
  let xs := cs.filterMap s.group?
  let s := xs.foldl (fun s x => match x.helper with
    | some h => freeHelper s h
    | none => s) s
  let s : State := { s with
    waves := s.waves.filter (fun p => !cs.contains (gidOf p.1)), groups := s.groups.filter (fun p => !cs.contains p.1)
    threads := s.threads.filter (fun t => !(t.cont && t.originGroup == g)), xfers := s.xfers.filter (fun p => !cs.contains p.2.gid)
    joins := s.joins.filter (fun p => !joins.contains p.1)
    rasters := s.rasters.map (fun (p : Nat × Raster) =>
      (p.1, { p.2 with groups := p.2.groups.filter (fun q => !cs.contains q), frags := p.2.frags.filter (fun f => !cs.contains f.gid) })) }
  s.modGroup g (fun x => { x with locks := x.locks ++ xs.flatMap (·.locks), slots := x.slots ++ xs.flatMap (·.slots) })

/-- Restart a group from its launch image (R297): waves, local store and tiles go, and its continuation lanes; the identifier stays. The other members of its crew leave
their cores with it, as a crew is restored as a unit (R265); its crew operations count from 0 again, as from its own start, and the other
members' go on (log 88). -/
def replayGroup (s : State) (g : Nat) : State :=
  let s := dropContinuations ((parkSet s g).foldl (fun s m => stowContinuations (stowGroup s m .saved) m) s) g
  let s := { s with waves := s.waves.filter (fun p => gidOf p.1 ≠ g), xfers := s.xfers.filter (fun p => p.2.gid ≠ g) }
  s.modGroup g (fun x => { x with ls := [], lsTags := [], mq := [], feedA := {}, feedB := {}, crewOps := 0, raster := none, launchFault := true,
                                  budgetFree := 0, took := 0 })

/-- TAKE AN EXCEPTION (R289), with the address its record names: the wave's group, or its crew, is parked faulted with the cause, and the
fault record goes to the error stream of the group's queue. An uncorrectable error in a replayable group restarts it instead (R297). -/
def takeTrapAt (s : State) (k : Nat) (pc : Word) (len : Nat) (t : Trap) : State :=
  match s.wave? k, s.group? (gidOf k) with
  | some w, some g =>
    if t.cause = .eccUncorrectable ∧ g.replay then replayGroup s (gidOf k)
    else
      let r : Record := { cause := t.cause, reason := t.reason, core := g.core?.getD g.lastCore, tenant := g.tenant,
                          lanes := t.lanes.getD w.path, pc := pc, seq := g.seq, gid := gidOf k, adopted := ((s.group? (originGroup s (gidOf k))).bind (·.helper)).isSome,
                          crew := decide (1 < g.crew), park := g.img + w64 w.waveid, info0 := t.info0, info1 := t.info1 }
      let s := errorRecord s (g.ring.getD 0) r
      parkFaulted s k t.cause w.pc len t.fetch
  | _, _ => s
/-- Take an exception that the wave's next instruction raises. -/
def takeTrap (s : State) (k : Nat) (len : Nat) (t : Trap) : State := takeTrapAt s k (((s.wave? k).map (·.pc)).getD 0) len t

/-- RETURN FROM AN EXCEPTION (R291, R285): a parked group leaves its park and enters the ready set with its image; FAULTS is counted
down (R290). -/
def resumeGroup (s : State) (g : Nat) : State :=
  match s.group? g with
  | none => s
  | some x =>
    match x.place with
    | .faulted _ => (uncountFaults s g).modGroup g (fun x => { x with place := .saved, fetchFault := false, readyAt := s.time })
    | _ => s

/-! ### Ownership table (R231, R232) -/

def ownFind (s : State) (tenant addr : Nat) : Option Nat :=
  (s.owns.find? (fun o => o.tenant = tenant && o.addr = addr)).map (·.seq)
def ownDel (s : State) (tenant addr : Nat) : State :=
  { s with owns := s.owns.filter (fun o => !(o.tenant = tenant && o.addr = addr)) }
/-- Replace or add a record; false when the table is full. -/
def ownPut (s : State) (tenant addr seq : Nat) : State × Bool :=
  let s' := ownDel s tenant addr
  if s'.owns.length < Config.ownRecords then ({ s' with owns := { tenant := tenant, addr := addr, seq := seq } :: s'.owns }, true)
  else (s, false)

/-! ### The read-only cache (R90, R91) -/

/-- An invalidating event on a core, an acquire at device scope or wider or `ro.inv`: the core's read-only cache and its cluster's node cache
are emptied (R90, R91, R347). -/
def roInvalidate (s : State) (c : Nat) : State :=
  { s.modCore c (fun k => { k with roCache := [] }) with nodeCaches := kset (c / 8) [] s.nodeCaches }
/-- A number for a place. -/
def Loc.number : Loc → Nat
  | .ext a => 4 * a
  | .shm a => 4 * a + 1
  | .host a => 4 * a + 2
  | .peer d t o => 4 * peerKey d t o + 3
  | .ls _ o => 4 * o
/-- A byte as a unit that serves no group reads it: free where it lies in a unit with an uncorrectable error, for which the rules name only what a
group meets (R297, R395; log 28). -/
def hwByte (s : State) (l : Loc) : Byte := if poisoned s l 1 true then BitVec.ofNat 8 (Config.free s.draw (4 * l.number + 3)) else rdByte s l
/-- Bytes of a virtual range as such a unit, an output or a ring's own logic, reads them. -/
def hwRd (s : State) (who : Who) (va n : Nat) : List Byte :=
  (pagesOf va n).flatMap (fun p =>
    match resolve s who p.1 1 {} with
    | .ok l => if poisoned s l p.2 true then (List.range p.2).map (fun i => hwByte s (l.plus i)) else rdBytes s l p.2
    | .error _ => List.replicate p.2 0)
/-- A read through a cache that holds bytes as they stood: what it holds for a place, where that is newer than a stamp, may stand; else the
bytes in memory are read, and the cache holds them (R90; log 6). Equal reads of one step agree (R69). -/
def cacheRead (s : State) (cache : List RoLine) (since : Nat) (l : Loc) (n : Nat) : List RoLine × List Byte :=
  let now := rdBytes s l n
  match cache.find? (fun b => b.at_ == l && decide (b.bytes.length = n) && decide (since < b.stamp)) with
  | some b =>
    if b.bytes ≠ now ∧ s.choice 1 l.number = true then (cache, b.bytes)
    else ({ at_ := l, bytes := now, stamp := s.draw } :: cache.filter (fun x => !(x.at_ == l && decide (x.bytes.length = n))), now)
  | none => ({ at_ := l, bytes := now, stamp := s.draw } :: cache.filter (fun x => !(x.at_ == l && decide (x.bytes.length = n))), now)
/-- What a task's read-only path may return is no older than the task's start (R90). -/
def roSince (s : State) (seq : Nat) : Nat := ((s.task? seq).map (·.started)).getD 0
/-- A cache reads bytes on its own; fetched code is a whole line of 64 bytes, and stands under the publications so far (R90, R115, R347; logs 6
and 42). -/
def capture (s : State) (c : Capture) : State :=
  let keep (ls : List RoLine) : List RoLine :=
    { at_ := c.at_, bytes := rdBytes s c.at_ c.n, stamp := s.draw } :: ls.filter (fun x => !(x.at_ == c.at_ && decide (x.bytes.length = c.n)))
  match c.cache with
  | .core k => s.modCore k (fun x => { x with roCache := keep x.roCache })
  | .nodes k => { s with nodeCaches := kset k (keep (kget [] k s.nodeCaches)) s.nodeCaches }
  | .code => { s with codeLines := s.codeLines ++ [{ at_ := c.at_, bytes := rdBytes s c.at_ 64, stamp := s.nextSeq }] }
/-- A scope of device or wider (R91). -/
def Scp.wide : Scp → Bool
  | .dev | .dom | .sys => true
  | _ => false
/-- The effect of an acquire on the issuing core's read-only cache. -/
def acquire (s : State) (core : Nat) (scp : Scp) : State := if Scp.wide scp then roInvalidate s core else s

/-! ### Barrier objects (R87, R216) -/

/-- BoAdd: PHASE in bit 63, EXPECT in [62:32], ARRIVED in [31:0]. -/
def boAdd (x n : Nat) : Nat :=
  let ph := x / 2 ^ 63
  let ex := x / 2 ^ 32 % 2 ^ 31
  let a := x % 2 ^ 32 + n
  if ex ≤ a then (1 - ph) * 2 ^ 63 + ex * 2 ^ 32 + (a - ex) % 2 ^ 32 else ph * 2 ^ 63 + ex * 2 ^ 32 + a % 2 ^ 32

/-- Complete a transfer (R213): write the token (Table 13.10) and wake the wave, or add the byte count to the barrier object, with the
walker's marks of a write (R64). -/
def complete (s : State) (c : Completion) (bytes : Nat) : State :=
  match c with
  | .none => s
  | .token k r => s.modWave k (fun w =>
      { wrS w r (w64 (2 ^ 56 + bytes % 2 ^ 31)) with
        tokenPend := w.tokenPend.erase r, wait := if w.wait = .token then .none else w.wait })
  | .bo tenant va l => wrN (touch s tenant va true) l 8 (boAdd (rdN s l 8) bytes)

/-! ### Cores and resources (R10, R26, R306, R321) -/

/-- Groups resident on a core. -/
def residents (s : State) (c : Nat) : List (Nat × Group) := s.groups.filter (fun p => p.2.place == .resident c)
/-- The registers of a group's evicted waves, which its core does not hold (R287). -/
def evictedRegs (s : State) (g : Nat) : Nat := ((s.wavesOf g).map (fun p => if p.2.evicted then p.2.regCount - p.2.heldRegs else 0)).sum
/-- Registers reserved by no group (R26). -/
def freeRegs (s : State) (c : Nat) : Nat :=
  Config.coreRegs - ((residents s c).map (fun p => p.2.nwaves * p.2.regs + p.2.took - evictedRegs s p.1)).sum
def freeLs (s : State) (c : Nat) : Nat := Config.coreLsKib - ((residents s c).map (fun p => match p.2.origin with
  | .continuation _ => 0
  | _ => p.2.lsKib)).sum
def freeAcc (s : State) (c : Nat) : Nat := Config.coreAccKib - ((residents s c).map (·.2.accKib)).sum
/-- User wave slots free; the agent slot is none of them (Table 1.1). -/
def freeSlots (s : State) (c : Nat) : Nat :=
  Config.userSlots - (((residents s c).filter (fun p => !p.2.agent)).map (fun p => ((s.wavesOf p.1).filter (fun q => !q.2.ended && !q.2.evicted)).length)).sum
/-- A core number that serves (R13). -/
def coreAvail (s : State) (c : Nat) : Bool := decide (c < 256) && !s.coresOut.contains c
/-- Available cores of a cluster, ascending. -/
def clusterCores (s : State) (k : Nat) : List Nat := ((List.range 8).map (· + 8 * k)).filter (coreAvail s)
/-- A group's core share, in 1/1,024 of a core (R321). -/
def shareOf (matrix : Bool) (waves regs ls acc : Nat) : Nat :=
  if matrix then 1024
  else max (max (cdiv (1024 * waves) 32) (cdiv (1024 * (waves * regs)) 2048)) (max (cdiv (1024 * ls) 512) (cdiv (1024 * acc) 256))
/-- The share of a group; a gathered or continuation wave's is computed from its wave count and its registers. -/
def groupShare (g : Group) : Nat :=
  match g.origin with
  | .grid => shareOf g.matrix g.nwaves g.regs g.lsKib g.accKib
  | _ => shareOf g.matrix g.nwaves (g.regs + g.took) 0 0
/-- CORE_UNITS in use by a tenant (R321). -/
def unitsUsed (s : State) (t : Nat) : Nat :=
  ((s.groups.filter (fun p => p.2.tenant == t && p.2.core?.isSome && !p.2.agent)).map (fun p => groupShare p.2)).sum
def budgetOf (s : State) (t : Nat) : Budget := kget { units := 262144, bw := 65535, pwr := 1200 } t s.budgets
def useOf (s : State) (t : Nat) : Budget := kget { units := 0, bw := 0, pwr := 0 } t s.uses
/-- The budget test of R321, with use reduced by what a saved waiter releases (R47). -/
def budgetOk (s : State) (t share release : Nat) : Bool :=
  decide (unitsUsed s t - release + share ≤ (budgetOf s t).units) && decide ((useOf s t).bw ≤ (budgetOf s t).bw) &&
    decide ((useOf s t).pwr ≤ (budgetOf s t).pwr)

/-- Image space a group reserves (R284). -/
def imgBytes (ls acc : Nat) : Nat := 65536 + 32 * 2304 + 256 * 2048 + ls * 1056 + acc * 1024
/-- Bytes of a reservation, rounded to 256 (R284). -/
def imgNeed (ls acc : Nat) : Nat := (imgBytes ls acc + 255) / 256 * 256
/-- Reservations made in a ring's image area, as ranges of addresses: every group of a ring has one (R284). -/
def imgTaken (s : State) (ring : Nat) : List (Nat × Nat) :=
  (s.groups.filter (fun p => p.2.ring == some ring)).map (fun p => (p.2.img.toNat, p.2.img.toNat + imgNeed p.2.lsKib p.2.accKib))
/-- The lowest place in a ring's image area for some bytes beside ranges already taken. -/
def imgPlace (s : State) (ring need : Nat) (taken : List (Nat × Nat)) : Option Nat :=
  let q := s.ring ring
  let lo := q.imgBase.toNat
  let hi := lo + q.imgSize * 65536
  ((lo :: taken.map (·.2)).filter (fun a =>
    decide (lo ≤ a) && decide (a + need ≤ hi) && taken.all (fun t => decide (a + need ≤ t.1) || decide (t.2 ≤ a)))).min?
/-- The lowest place in a ring's image area that overlaps no other reservation, at 256-byte alignment (R284). -/
def imgReserve (s : State) (ring ls acc : Nat) : Option Word := (imgPlace s ring (imgNeed ls acc) (imgTaken s ring)).map w64
/-- Whether n more reservations of one size can be made. -/
def imgRoom (s : State) (ring need : Nat) : Nat → List (Nat × Nat) → Bool
  | 0, _ => true
  | n + 1, taken => match imgPlace s ring need taken with
    | some a => imgRoom s ring need n ((a, a + need) :: taken)
    | none => false

/-- A fresh free value (log 5). -/
def State.free (s : State) (salt : Nat) : Nat × State := (Config.free s.fresh salt, { s with fresh := s.fresh + 1 })

end Sys2Proof.Machine
end

