-- ==== Sys2Proof/Machine/Identity.lean ====
section
/-! DEFINITION. The configuration record (R386 to R388): what it holds, which copy is valid, writing it. -/

set_option linter.unusedVariables false

namespace Sys2Proof.Machine

def bytesOf (n : Nat) (x : Nat) : List Byte := leBytes n x
/-- The digest that a record's signature covers; its bytes are not given (log 24). -/
def cfgDigest (r : CfgRec) : BitVec 256 :=
  Config.shake256 (Config.cfgBytes ([r.sequence, r.minSvn, r.cores.length] ++ r.cores ++ [r.spares.length] ++ r.spares ++ [r.channels.length] ++
    r.channels ++ [r.marked.length] ++ r.marked ++ [r.rows.length] ++ (r.rows.flatMap (fun p => [p.1, p.2])) ++ r.lanes))
def cfgValid (pub : BitVec 256) : Option CfgRec → Bool
  | some r => Config.mldsaVerify pub (cfgDigest r) r.signature
  | none => false
/-- The valid record: the correctly signed copy with the higher sequence number (R386). -/
def cfgCurrent (pub : BitVec 256) (f : Flash) : Option CfgRec :=
  match cfgValid pub f.copy0, cfgValid pub f.copy1 with
  | true, true => match f.copy0, f.copy1 with
    | some a, some b => if a.sequence < b.sequence then some b else some a
    | x, _ => x
  | true, false => f.copy0
  | false, true => f.copy1
  | false, false => none
/-- Numbers of a list that another does not hold yet, added in order. -/
def addNew (xs ys : List Nat) : List Nat := ys.foldl (fun a y => if a.contains y then a else a ++ [y]) xs
/-- The architectural numbers that spares serve now (R13). -/
def sparedCores (s : State) : List Nat := s.coresMoved.filter (fun c => !s.coresOut.contains c)
/-- The record of the parts as they stand now: retired cores, quad q's spare being 256 + q, and the numbers that spares serve. -/
def cfgNow (s : State) (seq minSvn : Nat) : CfgRec :=
  let dead := s.sparesUsed.filter (fun q => (sparedCores s).all (fun c => decide (c / 32 ≠ q)))
  let r : CfgRec := { sequence := seq, minSvn := minSvn, cores := addNew (addNew s.coresMoved s.coresOut) (dead.map (· + 256)), spares := sparedCores s, channels := s.channelsOut,
                      marked := s.channelsMarked, rows := s.rowsSpare, lanes := s.lanesOut }
  { r with signature := Config.mldsaSign s.boot.cfgPriv (cfgDigest r) }
/-- Whether copy 1 is the one to write: copy 0 is valid and copy 1 is not (R387). -/
def writesCopy1 (s : State) : Bool := cfgValid s.boot.cfgPub s.flash.copy0 && !cfgValid s.boot.cfgPub s.flash.copy1
/-- Write the updated record into the copy that is not valid, or into copy 0 when both are (R387, R388). -/
def writeConfig (s : State) : State :=
  let pub := s.boot.cfgPub
  let old := cfgCurrent pub s.flash
  let r := cfgNow s (((old.map (·.sequence)).getD 0) + 1) ((old.map (·.minSvn)).getD 0)
  if writesCopy1 s then { s with flash := { s.flash with copy1 := some r } }
  else { s with flash := { s.flash with copy0 := some r } }
/-- Power is lost during that write: the copy holds no valid record, the other is as it was (R387). -/
def tearConfig (s : State) : State :=
  if writesCopy1 s then { s with flash := { s.flash with copy1 := none } } else { s with flash := { s.flash with copy0 := none } }

end Sys2Proof.Machine
end

