-- ==== Sys2Proof/Machine/Operands.lean ====
section
/-! DEFINITION. Issuing an instruction: the checks of R124 in order, stall counts and the scoreboard (R125 to R128, R152), every operand
form (R122, R147, R149, R190), and the lane and wave forms the meanings are built from (R148, R163, R189). -/

set_option linter.unusedVariables false

namespace Sys2Proof.Machine

/-- What the body of an instruction answers: done, continuing after the instruction; done, with the PC already set; a cause of its own;
or a wait. -/
inductive Res where
  | ok (s : State) | jump (s : State) | trap (t : Trap) (s : State) | wait (w : Wait) (arg : Word) (s : State)
  deriving Repr

/-- A register operand: the first register, how many consecutive ones, and whether it is a destination (R123). -/
structure Opnd where
  reg : RegRef
  n : Nat := 1
  dest : Bool := false
  deriving DecidableEq, Repr

/-- What issuing needs to know of an instruction: length, stall count, operands in the order D, A, B, C, literal (R123), registers read
without an operand field, latency (none: scoreboarded, R151, R152, R192), a privileged index (R183), the
predicate, and the token register a completion word names, which no pending token blocks (R86, R310). -/
structure Spec where
  len : Nat
  stall : Nat
  opnds : List Opnd
  reads : List RegRef := []
  lat : Option Nat := none
  priv : Option Nat := none
  mask : BitVec 3 := 0
  cw : List RegRef := []
  deriving DecidableEq, Repr

def RegRef.up (k : Nat) : RegRef → RegRef
  | .v r => .v (r + k)
  | .s r => .s (r + k)
  | .m r => .m (r + k)
def RegRef.kind : RegRef → Nat
  | .v _ => 0
  | .s _ => 1
  | .m _ => 2
def RegRef.idx : RegRef → Nat
  | .v r => r
  | .s r => r
  | .m r => r

/-- REG_RANGE of an operand, checked on its highest register (R123). -/
def regBad (w : Wave) (o : Opnd) : Option Trap :=
  let top := o.reg.idx + o.n - 1
  let bad := match o.reg with
    | .v _ => decide (1536 ≤ top) || decide (w.regCount ≤ top)
    | .s _ => decide (128 ≤ top)
    | .m r => decide (8 ≤ top) || (o.dest && r == 0)
  if bad then some { cause := .regRange, info0 := w64 o.reg.kind, info1 := w64 top } else none

/-- The registers of an operand. -/
def Opnd.refs (o : Opnd) : List RegRef := (List.range o.n).map (fun k => o.reg.up k)
def Spec.dests (sp : Spec) : List RegRef := (sp.opnds.filter (·.dest)).flatMap Opnd.refs
/-- Every register an instruction reads or writes. -/
def Spec.touched (sp : Spec) : List RegRef := sp.opnds.flatMap Opnd.refs ++ sp.reads

/-- The first register an instruction reads or writes too early, with the shortfall (R126): of several, STALL_UNDERSIZED names the first in the
order of the operands (R127, R398; log 101). -/
def undersized (w : Wave) (rs : List RegRef) : Option (RegRef × Nat) :=
  rs.findSome? (fun r => (w.fixed.find? (fun f => f.1 = r && decide (w.decl < f.2))).map (fun f => (r, f.2 - w.decl)))
/-- The longest shortfall among the registers touched. -/
def shortfall (w : Wave) (rs : List RegRef) : Nat :=
  (w.fixed.map (fun f => if rs.contains f.1 then f.2 - w.decl else 0)).foldl max 0

/-- The core a wave runs on. -/
def coreOf (s : State) (k : Nat) : Nat :=
  match s.group? (gidOf k) with
  | some g => g.core?.getD g.lastCore
  | none => 0
/-- Whose local store the local window names: the group's own, or the origin group's for a continuation wave (R57). -/
def lsGroup (s : State) (k : Nat) : Nat := originGroup s (gidOf k)
def tenantOf (s : State) (k : Nat) : Nat := ((s.group? (gidOf k)).map (·.tenant)).getD 0
def whoOf (s : State) (k : Nat) : Who := { tenant := tenantOf s k, ls := some (lsGroup s k) }

/-- Whether a wave is its core's agent (Table 1.1, R183, R299). -/
def agentWave (s : State) (k : Nat) : Bool := ((s.group? (gidOf k)).map (·.agent)).getD false
/-- PRIVILEGE of a privileged index read by a wave that is not its core's agent (R183). -/
def privBad (sp : Spec) (s : State) (k : Nat) : Option Trap :=
  match sp.priv with
  | some i => if agentWave s k then none else some { cause := .privilege, info0 := w64 i }
  | none => none

/-- Checks 4 to 6 of R124 and the scoreboard: a cause, or the state and wave with the touched results complete. -/
def preIssue (sp : Spec) (s : State) (k : Nat) (w : Wave) : Except Trap (State × Wave) :=
  match sp.opnds.findSome? (regBad w) with
  | some t => .error t
  | none =>
    match privBad sp s k with
    | some t => .error t
    | none =>
      match undersized w (sp.touched ++ sp.cw) with
      | some (r, d) =>
        if modeCheck w.mode then
          .error { cause := .stallUndersized, info0 := w64 (r.kind * 2 ^ 56 + r.idx), info1 := w64 d }
        else
          .ok (s.modCore (coreOf s k) (fun c => { c with fixups := c.fixups + 1 }),
            { w with fixed := w.fixed.filter (fun f => !(sp.touched ++ sp.cw).contains f.1),
                     perfHeld := w.perfHeld + shortfall w (sp.touched ++ sp.cw) + s.held })
      | none => .ok (s, { w with perfHeld := w.perfHeld + s.held })

/-- A pending token among the scalar registers an instruction reads or writes (R86); with no lane active it reads and writes none, and
waits for nothing (R148, R189). -/
def tokenBlocked (sp : Spec) (w : Wave) : Bool :=
  decide (activeOf w sp.mask ≠ 0) && sp.touched.any (fun r => match r with
    | .s n => w.tokenPend.contains n
    | _ => false)

/-- Book an issued instruction on its wave: latencies, declared distance, stall count, ageing counter and counters (R37, R125, R126,
R186). -/
def bookWave (sp : Spec) (cycle : Nat) (old : Wave) (adv : Bool) (w : Wave) : Wave :=
  let decl := old.decl + 1 + sp.stall
  let keep := w.fixed.filter (fun f => !sp.dests.contains f.1 && decide (decl < f.2))
  let new := match sp.lat with
    | some l => (sp.dests.filter (fun _ => decide (decl < old.decl + l))).map (fun r => (r, old.decl + l))
    | none => []
  let fixed := keep ++ new
  let moved := decide (w.path ≠ old.path) || decide (w.tokens.length ≠ old.tokens.length)
  { w with
    pc := if adv then w.pc + w64 sp.len else w.pc
    fixed := fixed
    decl := if fixed.isEmpty then 0 else decl
    pend := (w.pend.filter (fun r => !sp.touched.contains r)) ++ (if sp.lat.isNone then sp.dests else [])
    stallUntil := cycle + 1 + sp.stall
    age := if moved then 0 else w.age + 1
    perfIssued := w.perfIssued + 1
    done := 0
    grant := false
    retest := false
    starved := false
    unselected := 0 }

/-- Book an issued instruction on the state. -/
def book (sp : Spec) (k core : Nat) (old : Wave) (adv : Bool) (s : State) : State :=
  (s.modWave k (bookWave sp s.cycle old adv)).modCore core (fun c => { c with issued := c.issued + 1 })

/-- The waits of `Block` (R34, R159, R185, R200, R220, R222, R228, R229, R237, R335, R338), at whose start a wave's results complete (R128). In
the others an instruction stands at its issue: for a slot, space or a handle (R213, R245, R255, R256), a claim (R28), an entry or a segment
(R303, R322), a unit or a bin set (R329, R330). -/
def Wait.blocks : Wait → Bool
  | .tag | .lock | .dqPush | .dqPop | .joinFamily | .bo | .joinCount | .sleep | .trap | .ringAcq | .fragBatch => true
  | .none | .claim | .copySlot | .matrixSlot | .handle | .accSpace | .token | .launchTable | .segment | .binReaders | .rasterUnit => false

/-- Put a wave into a wait, its PC at the instruction; at the start of a `Block` its fixed-latency results complete (R128). -/
def startWait (s : State) (k : Nat) (w : Wait) (arg : Word) : State :=
  s.modWave k (fun x => { (if w.blocks then { x.settle with decl := 0 } else x) with wait := w, waitArg := arg, unselected := 0, starved := false })
/-- Hold a wave whose next instruction names a pending token (R86): no wait of a Block begins, so the scoreboard stays as it is, with what
the checks have counted (R126 to R128). -/
def stallToken (s : State) (k : Nat) (w : Wave) : State := s.setWave k { w with wait := .token, waitArg := 0 }

/-- A trap with the lanes its record names: `Active`, unless the cause names others (Table 17.4). -/
def Trap.withLanes (t : Trap) (sp : Spec) (w : Wave) : Trap := { t with lanes := some (t.lanes.getD (activeOf w sp.mask)) }

/-- An instruction's wait: one that leaves an adopted owner with nothing to run parks it (R50); for a claim the deadlock of R29 is looked for
first (`afterClaim`; log 89). -/
def enterWait (s : State) (k : Nat) (x : Wait) (a : Word) : State :=
  if x = .claim then startWait s k x a else parkBlockedOwner (startWait s k x a) k

/-- Issue one instruction of the current wave: the checks of R124, then its body; a cause takes the exception (R289). -/
def issue (sp : Spec) (body : State → Nat → Wave → Res) (s : State) : Host.Outcome State Fault Refusal :=
  match s.cur with
  | none => .fault .noWave
  | some k =>
    match s.wave? k with
    | none => .fault .noWave
    | some w =>
      match preIssue sp s k w with
      | .error t => .next (takeTrap s k sp.len (t.withLanes sp w))
      | .ok (s1, w1) =>
        if tokenBlocked sp w then .next (parkBlockedOwner (stallToken s1 k w1) k)
        else
          match body (s1.setWave k { w1 with yielded := none }) k { w1 with yielded := none } with
          | .ok s2 => .next (book sp k (coreOf s k) w true s2)
          | .jump s2 => .next (book sp k (coreOf s k) w false s2)
          | .trap t s2 => .next (takeTrap s2 k sp.len (t.withLanes sp w))
          | .wait x a s2 => .next (enterWait s2 k x a)

/-- A body that only changes the wave's own registers, or raises. -/
def onWave (f : Wave → Except Trap Wave) : State → Nat → Wave → Res := fun s k w =>
  match f w with
  | .ok w' => .ok (s.setWave k w')
  | .error t => .trap t s

/-- A body of a wave instruction: effect only with Active non-empty (R148, R189). -/
def whenActive (h : Hd) (f : State → Nat → Wave → Res) : State → Nat → Wave → Res := fun s k w =>
  if activeOf w h.mask = 0 then .ok s else f s k w

/-! ### Operand forms -/

def vOp (r : Field11) (n : Nat := 1) (dest : Bool := false) : Opnd := { reg := .v r.toNat, n := n, dest := dest }
def sOp (r : Field11) (n : Nat := 1) (dest : Bool := false) : Opnd := { reg := .s r.toNat, n := n, dest := dest }
def mOp (r : Field11) (dest : Bool := false) : Opnd := { reg := .m r.toNat, n := 1, dest := dest }
def sOp7 (r : BitVec 7) (n : Nat := 1) : Opnd := { reg := .s r.toNat, n := n }
def mOp3 (r : BitVec 3) (dest : Bool := false) : Opnd := { reg := .m r.toNat, n := 1, dest := dest }
def sbOpnds : SB → List Opnd
  | .reg b => [sOp b]
  | .lit _ => []
def vbOpnds : VB → List Opnd
  | .vec b => [vOp b]
  | .sca b => [sOp b]
  | .lit _ => []
/-- The predicate is read, and never out of range (R123). -/
def predRead (m : BitVec 3) : List RegRef := if m = 0 then [] else [.m m.toNat]

/-- The spec of a predicated instruction of class 1 to 6: length by the literal. -/
def specH (h : Hd) (len : Nat) (opnds : List Opnd) (lat : Option Nat) : Spec :=
  { len := len, stall := h.stall.toNat, opnds := opnds, reads := predRead h.mask, lat := lat, mask := h.mask }
def sbLen : SB → Nat
  | .lit _ => 12
  | .reg _ => 8
def vbLen : VB → Nat
  | .lit _ => 12
  | _ => 8
def offLen : Off → Nat
  | .lit _ => 12
  | .none => 8
def tgtLen : Tgt → Nat
  | .far _ => 12
  | .short _ => 8

/-- Operand b of class 1: the w-bit value (R122, R149). -/
def sbVal (w : Wave) (t : Ty) : SB → Nat
  | .reg b => (rdS w b.toNat).toNat % 2 ^ t.width
  | .lit v => litVal t v
/-- Sub-element j of operand b of classes 2 and 3: BS and literals give every sub-element one value (R149). -/
def vbElem (w : Wave) (t : Ty) (b : VB) (l j : Nat) : Nat :=
  match b with
  | .vec r => elemOf t (rdV w r.toNat l) j
  | .sca r => (rdS w r.toNat).toNat % 2 ^ t.width
  | .lit v => litVal t v
/-- The lane value of operand b moved whole by `sel` (R163). -/
def vbLane (w : Wave) (b : VB) (l : Nat) : Word :=
  match b with
  | .vec r => rdV w r.toNat l
  | .sca r => rdS w r.toNat
  | .lit v => v.zeroExtend 64

/-! ### Forms of classes 1 to 3 -/

/-- A class 1 instruction: the w-bit result extended into S[d] (R149, R161). -/
def scalarOp (len : Nat) (h : Hd) (d : Field11) (ops : List Opnd) (lat : Option Nat) (t : Ty) (f : Wave → Nat) (s : State) :
    Host.Outcome State Fault Refusal :=
  issue (specH h len (sOp d 1 true :: ops) lat) (whenActive h (onWave (fun w => .ok (wrS w d.toNat (extTy t (f w)))))) s

/-- A lane instruction with a vector destination, whose lane values are given (R148). -/
def laneOp (len : Nat) (h : Hd) (d : Field11) (ops : List Opnd) (lat : Option Nat) (f : Wave → Nat → Word) (s : State) :
    Host.Outcome State Fault Refusal :=
  issue (specH h len (vOp d 1 true :: ops) lat) (onWave (fun w => .ok (wrLanes w d.toNat (activeOf w h.mask) (f w)))) s

/-- Sub-elements of a lane computed one by one (R163). -/
def elemsOf (t : Ty) (f : Nat → Nat) : Word := ofElems t ((List.range (elemCount t)).map f)

/-- The loop of R163 with two operands. -/
def vecBin (h : Hd) (d a : Field11) (b : VB) (lat : Option Nat) (t : Ty) (f : Wave → Nat → Nat → Nat) (s : State) :
    Host.Outcome State Fault Refusal :=
  laneOp (vbLen b) h d (vOp a :: vbOpnds b) lat
    (fun w l => elemsOf t (fun j => f w (elemOf t (rdV w a.toNat l) j) (vbElem w t b l j))) s

/-- The loop of R163 with one operand. -/
def vecUn (h : Hd) (d a : Field11) (lat : Option Nat) (t : Ty) (f : Wave → Nat → Nat) (s : State) : Host.Outcome State Fault Refusal :=
  laneOp 8 h d [vOp a] lat (fun w l => elemsOf t (fun j => f w (elemOf t (rdV w a.toNat l) j))) s

/-- A compare into a mask: bit L for each lane of Active in which every sub-element meets the condition, 0 elsewhere (R148, R163). -/
def vecCmp (h : Hd) (d a : Field11) (b : VB) (t : Ty) (f : Wave → Nat → Nat → Bool) (s : State) : Host.Outcome State Fault Refusal :=
  issue (specH h (vbLen b) (mOp d true :: vOp a :: vbOpnds b) (some 4))
    (onWave (fun w => .ok (wrM w d.toNat (activeOf w h.mask &&& maskOf (fun l =>
      (List.range (elemCount t)).all (fun j => f w (elemOf t (rdV w a.toNat l) j) (vbElem w t b l j))))))) s

/-! ### Addresses (R190) -/

def offVal : Off → Word
  | .lit v => sext32 v
  | .none => 0
def addrOf (base : Word) (o : Off) : Nat := (base + offVal o).toNat

/-- The checks of R60 over lanes (lane, address): the places, or the cause of the first check any lane fails, naming the lowest lane. -/
def checkLanes (s : State) (who : Who) (xs : List (Nat × Nat)) (size align : Nat) (need : Need) (x : Extra) :
    Except Trap (List (Nat × Nat × Loc)) :=
  let rs := xs.map (fun p => checkOne s who p.2 size align need x)
  match worst rs with
  | some e => .error e.trap
  | none => .ok ((xs.zip rs).filterMap (fun q => match q.2 with
      | .ok l => some (q.1.1, q.1.2, l)
      | .error _ => none))

/-- The walker's marks for the accesses of all lanes. -/
def touchLanes (s : State) (tenant : Nat) (xs : List (Nat × Nat × Loc)) (write : Bool) : State :=
  xs.foldl (fun s p => touch s tenant p.2.1 write) s

/-- Loads need RD, stores WR, read-modify-writes both (R63). -/
def needRd : Need := { rd := true }
def needWr : Need := { wr := true }
def needRw : Need := { rd := true, wr := true }

/-- Sequential execution of a res. -/
def Res.bind (r : Res) (f : State → Res) : Res :=
  match r with
  | .ok s => f s
  | r => r

end Sys2Proof.Machine
end

