-- ==== Sys2Proof/Machine/Engine.lean ====
section
/-! DEFINITION. Tensor shape records (R133 to R138), element addresses of every layout (R136, R246, R247), the copy engine's transfers
(R209 to R213, R250, R251), device-queue storage (R226 to R228) and completion words (R86, R87, R209). -/

set_option linter.unusedVariables false

namespace Sys2Proof.Machine

/-! ### Records -/

/-- Fields of a memory-resident record by their lowest bit (Table 9.9), at the place an inline record holds them, counted in bits of the
instruction (R133, R398). The type of an inline `acc.ld` record is field B[4:0], at bit 38. -/
def inlBit (b : Nat) : Nat :=
  if b = 64 then 112 else if b = 80 then 128 else if b = 96 then 144 else if b = 128 then 160 else if b = 160 then 176
  else if b = 224 then 38 else 64

/-- The base address of an inline record (R134). -/
def inlBase (w : Wave) (bits : BitVec 128) : Option Word :=
  let b := bitsAt bits 0 48
  let hi := b / 2 ^ 40
  if hi = 0xFF then (if b % 2 ^ 40 / 2 ^ 7 ≠ 0 then none else some (rdS w (b % 128)))
  else if hi = 0xFE then some (w64 (0xFE000000000000 + b % 2 ^ 40))
  else if hi = 0xFD then some (w64 (0xFF000000000000 + b % 2 ^ 40))
  else if 0xF0 ≤ hi then none
  else some (w64 b)

/-- An inline extent or stride, through its substitution marker (R135). -/
def inlField (w : Wave) (x : Nat) : Option Nat :=
  if 0xFF80 ≤ x then
    (let v := (rdS w (x - 0xFF80)).toNat
     if v / 2 ^ 32 ≠ 0 then none else some v)
  else some x

/-- The strides that R137 refuses for CB4, by field. -/
def oddStrides (sh : Shape) : List Nat :=
  if sh.ty = .cb4 then
    (if sh.str1 % 2 = 1 then [128] else []) ++ (if sh.str2 % 2 = 1 then [160] else []) ++ (if sh.str3 % 2 = 1 then [192] else [])
  else []

/-- An inline record: its shape, and its failing fields as bits of the instruction (R133 to R137). -/
def recInline (w : Wave) (bits : BitVec 128) (ty : Ty) : Shape × List Nat :=
  let f (lo : Nat) : Option Nat := inlField w (bitsAt bits lo 16)
  let sh : Shape := { base := (inlBase w bits).getD 0, ty := ty, ext0 := (f 48).getD 0, ext1 := (f 64).getD 0, ext2 := (f 80).getD 0,
                      str1 := (f 96).getD 0, str2 := (f 112).getD 0 }
  let bad (lo : Nat) : List Nat := if (f lo).isNone then [64 + lo] else []
  (sh, (if (inlBase w bits).isNone then [64] else []) ++ bad 48 ++ bad 64 ++ bad 80 ++ bad 96 ++ bad 112 ++ (oddStrides sh).map inlBit)

/-- A memory-resident record: its shape, and its failing fields (Table 9.9, R137). -/
def recMem (bits : BitVec 256) : Shape × List Nat :=
  let f (lo n : Nat) : Nat := bitsAt bits lo n
  let ty := if f 224 8 < 32 then Ty.ofCode (BitVec.ofNat 5 (f 224 8)) else none
  let sh : Shape := { base := w64 (f 0 56), ty := ty.getD .b8, layout := f 232 8, ext0 := f 64 16, ext1 := f 80 16, ext2 := f 96 16,
                      ext3 := f 112 16, str1 := f 128 32, str2 := f 160 32, str3 := f 192 32 }
  (sh, (if f 56 8 ≠ 1 then [56] else []) ++ (if ty.isNone then [224] else []) ++ (if 4 < f 232 8 then [232] else []) ++
    (if f 240 16 ≠ 0 then [240] else []) ++ oddStrides sh)

/-- Elements, and bytes in dense order (R248). -/
def Shape.count (sh : Shape) : Nat := sh.ext0 * sh.ext1 * sh.ext2 * sh.ext3
def Shape.bytes (sh : Shape) : Nat := sh.count * sh.ty.width / 8

/-- The conditions of R211 on layout and size and those of R247 on layout 4, by field. -/
def copyBad (maxLayout : Nat) (sh : Shape) : List Nat :=
  (if maxLayout < sh.layout then [232] else []) ++
  (if sh.count * sh.ty.width % 8 ≠ 0 ∨ 2 ^ 31 - 1 < sh.bytes then [64] else []) ++
  (if sh.layout = 4 then
    (if sh.ext0 % 4 ≠ 0 then [64] else []) ++ (if sh.ext3 ≠ 1 then [112] else []) ++ (if sh.str1 % 2 ≠ 0 then [128] else []) ++
    (if sh.str2 % 2 ≠ 0 then [160] else []) ++ (if sh.str3 % 16 ≠ 0 then [192] else [])
   else [])

/-- The conditions of R257 and R266 on a tile's record, by field. -/
def tileBad (t : Tile) (tys : List Ty) (sh : Shape) : List Nat :=
  (if sh.ext0 ≠ t.n then [64] else []) ++ (if sh.ext1 ≠ t.m then [80] else []) ++ (if sh.ext2 ≠ 1 then [96] else []) ++
  (if sh.ext3 ≠ 1 then [112] else []) ++ (if !tys.contains sh.ty then [224] else []) ++ (if 3 < sh.layout then [232] else [])

/-- Obtain a record at issue (R138): by the cache, or read and installed; RECORD_INVALID names the failing field that lies lowest (R398).
A cause comes with the state it leaves: what has been read stays installed. -/
def obtainRecord (s : State) (k : Nat) (w : Wave) (r : Rec) (ty : Ty) (extra : Shape → List Nat) : Except (Trap × State) (State × Shape) :=
  match r with
  | .inl bits =>
    let p := recInline w bits ty
    match (p.2 ++ (extra p.1).map inlBit).min? with
    | some b => .error ({ cause := .recordInvalid, info0 := 0, info1 := w64 b }, s)
    | none => .ok (s, p.1)
  | .mem c =>
    let va := (rdS w c.toNat).toNat
    let t := tenantOf s k
    let core := coreOf s k
    if va % 32 ≠ 0 then .error ({ cause := .misaligned, info0 := w64 va, info1 := 32 }, s)
    else
      let got : Except Trap (State × BitVec 256) :=
        match (s.core core).recCache.find? (fun e => e.tenant = t && e.addr = w64 va) with
        | some e => .ok (s.modCore core (fun x => { x with recCache := e :: x.recCache.erase e }), e.bits)
        | none =>
          match checkOne s (whoOf s k) va 32 32 needRd .plain with
          | .error e => .error e.trap
          | .ok l =>
            let bits := BitVec.ofNat 256 (rdN s l 32)
            .ok ((touch s t va false).modCore core (fun x =>
              { x with recCache := ({ tenant := t, addr := w64 va, bits := bits } :: x.recCache).take 64 }), bits)
      match got with
      | .error e => .error (e, s)
      | .ok (s, bits) =>
        let p := recMem bits
        match (p.2 ++ extra p.1).min? with
        | some b => .error ({ cause := .recordInvalid, info0 := w64 va, info1 := w64 b }, s)
        | none => .ok (s, p.1)

/-! ### Element addresses -/

/-- The element index from BASE by layout (R136, Table 15.2). -/
def elemIndex (sh : Shape) (i0 i1 i2 i3 : Nat) : Nat :=
  let r := i2 * sh.str2 + i3 * sh.str3
  match sh.layout with
  | 1 => i0 * sh.str1 + i1 + r
  | 2 => 256 * (i0 / 16 + i1 / 16 * sh.str1) + 16 * (i1 % 16) + i0 % 16 + r
  | 3 => 1024 * (i0 / 32 + i1 / 32 * sh.str1) + 32 * (i1 % 32) + i0 % 32 + r
  | _ => i0 + i1 * sh.str1 + r

/-- The indices of the e-th element in dense order (R210). -/
def denseCoords (sh : Shape) (e : Nat) : Nat × Nat × Nat × Nat :=
  (e % sh.ext0, e / sh.ext0 % sh.ext1, e / sh.ext0 / sh.ext1 % sh.ext2, e / sh.ext0 / sh.ext1 / sh.ext2)

/-- One byte of memory for an engine, checked (R60). -/
def engRd (s : State) (who : Who) (a : Nat) : Except Fail Byte :=
  match checkOne s who a 1 1 needRd .plain with
  | .ok l => .ok (rdByte s l)
  | .error e => .error e

/-- Byte b of the stored element with index i of a plane at a base; a CB4 element is its nibble (R97). -/
def planeByte (s : State) (who : Who) (ty : Ty) (base i b : Nat) : Except Fail Nat :=
  if ty = .cb4 then
    match engRd s who (base + i / 2) with
    | .ok x => .ok (x.toNat / 2 ^ (4 * (i % 2)) % 16)
    | .error e => .error e
  else
    match engRd s who (base + ty.width / 8 * i + b) with
    | .ok x => .ok x.toNat
    | .error e => .error e

/-- Byte b (the nibble, for CB4) of element e in dense order: directly, or by the metadata of layout 4 (R247). -/
def elemByte (s : State) (who : Who) (sh : Shape) (e b : Nat) : Except Fail Nat :=
  let c := denseCoords sh e
  let base := sh.base.toNat
  if sh.layout = 4 then
    let g := c.1 / 4
    let q := c.1 % 4
    let r := c.2.1 * sh.str1 + c.2.2.1 * sh.str2
    let m := g + r / 2
    match planeByte s who sh.ty base (2 * g + r) b, planeByte s who sh.ty base (2 * g + 1 + r) b, engRd s who (base + sh.str3 + m / 2) with
    | .error f, _, _ => .error f
    | _, .error f, _ => .error f
    | _, _, .error f => .error f
    | .ok v0, .ok v1, .ok mb =>
      let nib := mb.toNat / 2 ^ (4 * (m % 2)) % 16
      .ok (if q = nib / 4 then v1 else if q = nib % 4 then v0 else 0)
  else planeByte s who sh.ty base (elemIndex sh c.1 c.2.1 c.2.2.1 c.2.2.2) b

/-- Byte p of the memory side in dense order (R248). -/
def denseByte (s : State) (who : Who) (sh : Shape) (p : Nat) : Except Fail Byte :=
  if sh.ty = .cb4 then
    match elemByte s who sh (2 * p) 0, elemByte s who sh (2 * p + 1) 0 with
    | .ok x, .ok y => .ok (BitVec.ofNat 8 (x + 16 * y))
    | .error e, _ => .error e
    | _, .error e => .error e
  else
    match elemByte s who sh (p / (sh.ty.width / 8)) (p % (sh.ty.width / 8)) with
    | .ok x => .ok (BitVec.ofNat 8 x)
    | .error e => .error e

/-- The addresses that reading byte p of the dense order touches. -/
def denseAddrs (sh : Shape) (p : Nat) : List Nat :=
  let base := sh.base.toNat
  let at_ (i : Nat) : Nat := if sh.ty = .cb4 then base + i / 2 else base + sh.ty.width / 8 * i
  let es := if sh.ty = .cb4 then [2 * p, 2 * p + 1] else [p / (sh.ty.width / 8)]
  es.flatMap (fun e =>
    let c := denseCoords sh e
    if sh.layout = 4 then
      let g := c.1 / 4
      let r := c.2.1 * sh.str1 + c.2.2.1 * sh.str2
      [at_ (2 * g + r), at_ (2 * g + 1 + r), base + sh.str3 + (g + r / 2) / 2]
    else [at_ (elemIndex sh c.1 c.2.1 c.2.2.1 c.2.2.2)])

/-- The walker's marks of reading byte p of the dense order (R64). -/
def denseTouch (s : State) (tenant : Nat) (sh : Shape) (p : Nat) : State :=
  (denseAddrs sh p).foldl (fun s a => touch s tenant a false) s

/-- Write one byte for an engine, checked (R60), with the walker's marks. -/
def engWr (s : State) (who : Who) (a : Nat) (b : Byte) : Except Fail State :=
  match checkOne s who a 1 1 needWr .plain with
  | .ok l => .ok (wrByte (touch s who.tenant a true) l b)
  | .error e => .error e

/-- Write a nibble of a byte. -/
def engWrNib (s : State) (who : Who) (base i x : Nat) : Except Fail State :=
  match checkOne s who (base + i / 2) 1 1 needWr .plain with
  | .ok l =>
    let old := (rdByte s l).toNat
    let new := if i % 2 = 0 then old / 16 * 16 + x % 16 else x % 16 * 16 + old % 16
    .ok (wrByte (touch s who.tenant (base + i / 2) true) l (BitVec.ofNat 8 new))
  | .error e => .error e

/-- The index of element e from BASE in the memory side. -/
def denseIndex (sh : Shape) (e : Nat) : Nat :=
  let c := denseCoords sh e
  elemIndex sh c.1 c.2.1 c.2.2.1 c.2.2.2

/-- Write byte p of the dense order to the memory side. -/
def denseWr (s : State) (who : Who) (sh : Shape) (p : Nat) (b : Byte) : Except Fail State :=
  if sh.ty = .cb4 then
    match engWrNib s who sh.base.toNat (denseIndex sh (2 * p)) (b.toNat % 16) with
    | .error e => .error e
    | .ok s => engWrNib s who sh.base.toNat (denseIndex sh (2 * p + 1)) (b.toNat / 16)
  else
    let size := sh.ty.width / 8
    engWr s who (sh.base.toNat + size * denseIndex sh (p / size) + p % size) b

/-! ### Device queues (R226 to R230) -/

/-- A queue as its header gives it: slots and bytes a slot. -/
structure Dq where
  va : Nat
  slots : Nat
  sbytes : Nat
  deriving DecidableEq, Repr

def dqWord (s : State) (who : Who) (va : Nat) : Nat := leNat (rdVa s who va 4)
def dqSet (s : State) (who : Who) (va v : Nat) : State := wrVa s who va (leBytes 4 v)
def Dq.resv (q : Dq) : Nat := q.va
def Dq.pub (q : Dq) : Nat := q.va + 4
def Dq.take (q : Dq) : Nat := q.va + 8
def Dq.free (q : Dq) : Nat := q.va + 12
/-- The state entry of a ticket, and its data slot (R226). -/
def Dq.entry (q : Dq) (t : Nat) : Nat := q.va + 64 + 16 * (t % q.slots)
def Dq.slot (q : Dq) (t : Nat) : Nat := q.va + 64 + (16 * q.slots + 63) / 64 * 64 + t % q.slots * q.sbytes
/-- The queue at an address, from its header. -/
def dqAt (s : State) (who : Who) (va : Nat) : Dq :=
  { va := va, slots := dqWord s who (va + 16), sbytes := 16 * (leNat (rdVa s who (va + 20) 2)) }
/-- Whether a header breaks the rules of R227. -/
def dqBad (s : State) (who : Who) (va : Nat) : Bool :=
  let h := leNat (rdVa s who va 64)
  let slots := h / 2 ^ 128 % 2 ^ 32
  let sb := h / 2 ^ 160 % 2 ^ 16
  decide (h / 2 ^ 192 % 256 ≠ 1) || decide (h / 2 ^ 200 ≠ 0) || decide (h / 2 ^ 176 % 2 ^ 16 ≠ 0) || decide (sb = 0) || decide (256 < sb) ||
    decide (slots < 2) || decide (65536 < slots) || decide (slots ≠ 2 ^ Nat.log2 slots)

/-- The checks of R60 on the state entry of a ticket. -/
def dqEntryFail (s : State) (who : Who) (q : Dq) (t : Nat) : Option Fail :=
  match checkObj s who (q.entry t) 16 16 { rd := true, wr := true } with
  | .error e => some e
  | .ok _ => none
/-- The state entry of a ticket, where its checks pass. -/
def dqEntry (s : State) (who : Who) (q : Dq) (t : Nat) : Option Nat :=
  match checkObj s who (q.entry t) 16 16 { rd := true, wr := true } with
  | .error _ => none
  | .ok l => some (rdN s l 16)

/-- Advance PUB over published tickets (R228), as far as the entries can be read (log 45). -/
def dqAdvance (who : Who) (q : Dq) : Nat → State → State
  | 0, s => s
  | n + 1, s =>
    let pub := dqWord s who q.pub
    if pub = dqWord s who q.resv then s
    else match dqEntry s who q pub with
      | some e => if e % 4 = 2 ∧ e / 2 ^ 32 % 2 ^ 32 = pub then
          dqAdvance who q n (dqSet (touch s who.tenant (q.entry pub) false) who q.pub ((pub + 1) % 2 ^ 32))
        else s
      | none => s
/-- Advance FREE over freed tickets (R229), as far as the entries can be read (log 45). -/
def dqRelease (who : Who) (q : Dq) : Nat → State → State
  | 0, s => s
  | n + 1, s =>
    let fr := dqWord s who q.free
    if fr = dqWord s who q.take then s
    else match dqEntry s who q fr with
      | some e => if e % 4 = 0 then dqRelease who q n (dqSet (touch s who.tenant (q.entry fr) false) who q.free ((fr + 1) % 2 ^ 32)) else s
      | none => s
/-- Publish a ticket, void when VCAUSE is not 0 (R228, R230); a queue whose header or entry fails its checks is left as it is. -/
def dqPublish (s : State) (who : Who) (q : Dq) (t vcause : Nat) : State :=
  match checkObj s who q.va 64 64 { rd := true, wr := true }, dqEntryFail s who q t with
  | .ok _, none => dqAdvance who q (q.slots + 1) (dqSet s who (q.entry t) (4 * vcause + 2))
  | _, _ => s

/-! ### Transfers -/

/-- Who a transfer acts for. -/
def Xfer.who (s : State) (x : Xfer) : Who := { tenant := x.tenant, ls := some (lsGroup s (keyOf x.gid 0)) }

/-- Move byte p of a transfer (R210, R257, R268, R228). -/
def xferByte (s : State) (x : Xfer) (p : Nat) : Except Fail (State × Xfer) :=
  let who := x.who s
  match x.kind with
  | .cpIn =>
    match denseByte s who x.shape p with
    | .error e => .error e
    | .ok b => .ok (wrByte (denseTouch s x.tenant x.shape p) (.ls (lsGroup s (keyOf x.gid 0)) (x.dense.toNat + p - 0xFF000000000000)) b, x)
  | .cpOut =>
    match denseWr s who x.shape p (rdByte s (.ls (lsGroup s (keyOf x.gid 0)) (x.dense.toNat + p - 0xFF000000000000))) with
    | .error e => .error e
    | .ok s => .ok (s, x)
  | .cpLl =>
    match denseByte s who x.shape p with
    | .error e => .error e
    | .ok b => match engWr (denseTouch s x.tenant x.shape p) who (x.dense.toNat + p) b with
      | .error e => .error e
      | .ok s => .ok (s, x)
  | .accLd =>
    match denseByte s who x.shape p with
    | .error e => .error e
    | .ok b => .ok (denseTouch s x.tenant x.shape p, { x with data := x.data ++ [b] })
  | .accSt =>
    match denseWr s who x.shape p (x.data.getD p 0) with
    | .error e => .error e
    | .ok s => .ok (s, x)
  | .dqPush =>
    match engRd s who (x.dense.toNat + p) with
    | .error e => .error e
    | .ok b => match engWr (touch s x.tenant (x.dense.toNat + p) false) who (x.at_ + p) b with
      | .error e => .error e
      | .ok s => .ok (s, x)
  | .feedA | .feedB => .ok (s, x)

/-- What the publication of a `dq.push` fails on: the queue's header or the slot's entry (R60, R212, R228). -/
def pushFail (s : State) (x : Xfer) : Option Fail :=
  if x.kind ≠ .dqPush then none
  else match checkObj s (x.who s) x.queue.toNat 64 64 { rd := true, wr := true } with
    | .error e => some e
    | .ok _ => dqEntryFail s (x.who s) (dqAt s (x.who s) x.queue.toNat) x.ticket

/-- Move bytes of a transfer from its position until it ends or an access fails (R212), in dense order: where two elements of a `cp.out`
lie at one address the later of them stays (R246 admits either; log 73). -/
def xferRun : Nat → State → Xfer → State × Xfer × Option Fail
  | 0, s, x => (s, x, none)
  | n + 1, s, x =>
    if x.bytes ≤ x.pos then (s, x, pushFail s x)
    else
      match xferByte s x x.pos with
      | .error e => (s, x, some e)
      | .ok (s, x) => xferRun n s { x with pos := x.pos + 1 }

/-- The feed of a group that a copy fills. -/
def Group.feed (g : Group) (b : Bool) : Feed := if b then g.feedB else g.feedA
def Group.setFeed (g : Group) (b : Bool) (f : Feed) : Group := if b then { g with feedB := f } else { g with feedA := f }

/-- The feed copy that delivers a stream position, and the byte there (R250). -/
def feedByte (s : State) (gid : Nat) (b : Bool) (p : Nat) : Except (Option (Nat × Fail)) Byte :=
  match s.xfers.find? (fun x => x.2.gid = gid && x.2.kind == (if b then XferKind.feedB else .feedA) && decide (x.2.at_ ≤ p) &&
      decide (p < x.2.at_ + x.2.bytes)) with
  | none => .error none
  | some (i, x) =>
    match denseByte s (x.who s) x.shape (p - x.at_) with
    | .error e => .error (some (i, e))
    | .ok v => .ok v

/-- A tile's elements from the bytes an `acc.ld` has read, converted exactly (R257); a NaN becomes canonical, also where FMT is the tile's type
(R94; log 102). -/
def tileFill (t : Tile) (ty : Ty) (data : List Byte) : Tile :=
  let size := ty.width / 8
  { t with e := (List.range (t.m * t.n)).map (fun i =>
      w64 (convert envRne false ty t.ty (leNat ((data.drop (size * i)).take size)))) }

/-- What the end of a transfer does: its completion word, its tile, its slot (R213, R228, R257, R268). -/
def finishXfer (s : State) (x : Xfer) : State :=
  let s := { s with xfers := kdel x.id s.xfers }
  match x.kind with
  | .accLd => s.modWave x.wave (fun w => match kfind x.handle w.tiles with
      | some t => { w with tiles := kset x.handle (tileFill t x.shape.ty x.data) w.tiles }
      | none => w)
  | .dqPush => dqPublish s (x.who s) (dqAt s (x.who s) x.queue.toNat) x.ticket 0
  | _ => complete s x.cw x.bytes

/-- Transfers of a core's copy engine: those of its resident groups (R213). -/
def coreXfers (s : State) (c : Nat) : List (Nat × Xfer) :=
  s.xfers.filter (fun p => p.2.core = c && (match s.group? p.2.gid with
    | some g => g.core? == some c
    | none => false))

/-! ### Completion words (R86, R87, R209, R211) -/

/-- The checks on a completion word at issue, steps 2 and 3 of R211: a barrier object outside local store and shared memory fails its window
test (R67) before any translation. -/
def cwCheck (s : State) (k : Nat) (w : Wave) (cw : Cw) : Except Trap Completion :=
  if cw.bo then
    let va := (rdS w cw.sreg.toNat).toNat
    if va % 8 = 0 ∧ va < 0x60000000000000 then .error { cause := .tagMisuse, info0 := w64 va }
    else
      match checkOne s (whoOf s k) va 8 8 needRw .tagged with
      | .ok l => .ok (.bo (tenantOf s k) va l)
      | .error e => .error e.trap
  else if w.tokenPend.contains cw.sreg.toNat then .error { cause := .tokenReuse, info0 := w64 cw.sreg.toNat }
  else .ok (.token k cw.sreg.toNat)

/-- Field D of a completion word (Table 13.7). -/
def Cw.word (cw : Cw) : BitVec 11 := BitVec.ofBool cw.bo ++ 0#3 ++ cw.sreg

/-- Mark a token pending at issue (R86). -/
def cwStart (s : State) (c : Completion) : State :=
  match c with
  | .token k r => s.modWave k (fun w => { w with tokenPend := r :: w.tokenPend })
  | _ => s

/-- Put a transfer in flight, or complete one of no bytes at once (R213). -/
def startXfer (s : State) (x : Xfer) : State :=
  let x := { x with id := s.nextXfer }
  let s := { (cwStart s x.cw) with nextXfer := s.nextXfer + 1 }
  if x.bytes = 0 ∧ x.kind ≠ .dqPush then finishXfer s x
  else { s with xfers := kset x.id x s.xfers }

/-- Waits of a core's engines, which their completions end. -/
def Wait.engine : Wait → Bool
  | .copySlot | .matrixSlot | .handle | .accSpace => true
  | _ => false
/-- A slot, a handle or space of a core's engines has become free: the waves waiting there issue again (R213, R245, R255, R256). -/
def wakeEngine (s : State) (c : Nat) : State :=
  { s with waves := s.waves.map (fun (p : Nat × Wave) =>
    if p.2.wait.engine && (match s.group? (gidOf p.1) with
      | some g => g.core? == some c
      | none => false) then (p.1, { p.2 with wait := .none, waitArg := 0 }) else p) }

end Sys2Proof.Machine
end

