-- ==== Sys2Proof/Machine/Rings.lean ====
section
/-! DEFINITION. Strip rings: the header and slot entries, and the bank operations on them that instructions, exits and outputs share
(R336 to R341, R345). -/

set_option linter.unusedVariables false

namespace Sys2Proof.Machine

/-- The 64-byte header of a ring (Table 21.5). -/
def ringHdr (s : State) (who : Who) (va : Nat) : BitVec 512 := BitVec.ofNat 512 (leNat (hwRd s who va 64))
def hPitch (h : BitVec 512) : Nat := bitsAt h 0 16
def hLines (h : BitVec 512) : Nat := bitsAt h 16 16
def hHalo (h : BitVec 512) : Nat := bitsAt h 44 4
def hNslot (h : BitVec 512) : Nat := bitsAt h 48 8
def hCons (h : BitVec 512) : Nat := bitsAt h 64 13
def hData (h : BitVec 512) : Nat := bitsAt h 128 64
def hAcq (h : BitVec 512) : Nat := bitsAt h 192 32
def hPub (h : BitVec 512) : Nat := bitsAt h 224 32
def hTake (h : BitVec 512) : Nat := bitsAt h 256 32
def hLate (h : BitVec 512) : Nat := bitsAt h 288 32
def hAslot (h : BitVec 512) : Nat := bitsAt h 320 8

/-- Whether a header breaks Table 21.5. -/
def ringBad (h : BitVec 512) : Bool :=
  decide (bitsAt h 56 8 ≠ 1) || decide (bitsAt h 328 184 ≠ 0) || decide (bitsAt h 77 51 ≠ 0) || decide (bitsAt h 32 12 ≠ 0) ||
    decide (hNslot h < 2) || decide (8 < hHalo h) || (decide (0 < hHalo h) && decide (hCons h < 4096)) || decide (hLines h < 8) ||
    decide (128 < hLines h) || decide (hLines h % 8 ≠ 0) || decide (hPitch h = 0) || decide (hPitch h % 64 ≠ 0) ||
    decide (hData h % 64 ≠ 0) || decide (hNslot h ≤ hAslot h)

/-- A signed 32-bit difference a - b. -/
def seqDiff (a b : Nat) : Int := (BitVec.ofNat 32 a - BitVec.ofNat 32 b).toInt

/-- The slot of a sequence (R336). -/
def ringSlot (h : BitVec 512) (q : Nat) : Nat := (((hAslot h : Int) + seqDiff q (hAcq h)) % (hNslot h : Int)).toNat
def slotVa (va i : Nat) : Nat := va + 64 + 16 * i
def slotRd (s : State) (who : Who) (va i : Nat) : BitVec 128 := BitVec.ofNat 128 (leNat (hwRd s who (slotVa va i) 16))
def slotWr (s : State) (who : Who) (va i : Nat) (e : BitVec 128) : State := wrVa s who (slotVa va i) (leBytes 16 e.toNat)
def eSt (e : BitVec 128) : Nat := bitsAt e 0 3
def eLate (e : BitVec 128) : Bool := e.getLsbD 3
def eHrel (e : BitVec 128) : Bool := e.getLsbD 4
def eDone (e : BitVec 128) : Nat := bitsAt e 5 13
def eSeq (e : BitVec 128) : Nat := bitsAt e 32 32
def eHolder (e : BitVec 128) : Nat := bitsAt e 64 62
/-- A slot entry from its fields (Table 21.6). -/
def mkSlot (st : Nat) (late hrel : Bool) (done seq holder : Nat) : BitVec 128 :=
  packBits 128 [(0, 3, st), (3, 1, if late then 1 else 0), (4, 1, if hrel then 1 else 0), (5, 13, done), (32, 32, seq), (64, 62, holder)]
def setSt (e : BitVec 128) (st : Nat) : BitVec 128 := mkSlot st (eLate e) (eHrel e) (eDone e) (eSeq e) (eHolder e)

/-- The walker's marks of reading a ring's header (R64). -/
def hdrTouch (s : State) (tenant va : Nat) : State := touchRange s tenant va 64 false

/-- A consumer has finished a slot: CDONE, and FREE or HALO_HOLD when every consumer has (R339, Table 21.7). -/
def ringFinish (s : State) (who : Who) (va i bit : Nat) : State :=
  let h := ringHdr s who va
  let e := slotRd s who va i
  let d := eDone e ||| 2 ^ bit
  let st := if d &&& hCons h = hCons h then (if hHalo h = 0 ∨ eHrel e then 0 else 4) else eSt e
  slotWr s who va i (mkSlot st (eLate e) (eHrel e) d (eSeq e) (eHolder e))

/-- The hardware consumers of a ring: outputs bound to it whose bit CONS has (R342, Table 21.5). -/
def ringOutputs (s : State) (who : Who) (va : Nat) : List Nat :=
  let h := ringHdr s who va
  let here : Except Fail Loc := resolve s who va 64 {}
  (s.outputs.filter (fun p => p.2.bound && decide (hCons h / 2 ^ p.1 % 2 = 1) &&
    (match here, resolve s { tenant := p.2.tenant } (bitsAt p.2.desc 0 56) 64 {} with
     | .ok a, .ok b => a == b
     | _, _ => false))).map (·.1)

/-- The entries of a timetable for an output, in its own order, with their indices. -/
def outEntries (t : Timetable) (o : Nat) : List (Nat × BitVec 512) :=
  (t.entries.mapIdx (fun i e => (i, e))).filter (fun p => p.2.getLsbD 0 && decide (bitsAt p.2 96 4 = o))
/-- The sequence bound to occurrence n of entry i of an output: the entries count on in the order of their STARTs, across periods (R342). -/
def boundSeq (t : Timetable) (x : Output) (o i n : Nat) : Nat :=
  let es := outEntries t o
  (x.base + BitVec.ofNat 32 (n * es.length + (es.findIdx (fun p => p.1 == i)))).toNat
/-- FILL of the entry that is bound to sequence q of an output (R342). -/
def fillOf (s : State) (o : Nat) (q : Nat) : Nat :=
  match s.table with
  | none => 0
  | some t =>
    let es := outEntries t o
    match es[(BitVec.ofNat 32 q - (kget {} o s.outputs).base).toNat % es.length]? with
    | some e => bitsAt e.2 128 32
    | none => 0

/-- A hardware consumer does not read a late strip: it has its colour instead (R345). -/
def skipStrip (s : State) (o q fill : Nat) : State :=
  { s with outputs := kmod o (fun x => if x.late.any (fun p => p.1 = q) then x else { x with late := x.late ++ [(q, fill)] }) s.outputs }

/-- Slot of sequence q has been published: the hardware consumers for which the strip is late, or which find LATEF set, are done with it
without reading it (R345). -/
def latePublished (s : State) (who : Who) (va q : Nat) : State :=
  let i := ringSlot (ringHdr s who va) q
  let flagged := eLate (slotRd s who va i)
  (ringOutputs s who va).foldl (fun s o =>
    let x := kget {} o s.outputs
    if x.late.any (fun p => p.1 = q) then
      ringFinish (if seqDiff q x.seq.toNat < 0 then { s with outputs := kset o { x with late := x.late.filter (fun p => p.1 ≠ q) } s.outputs } else s) who va i o
    else if flagged then ringFinish (skipStrip s o q (fillOf s o q)) who va i o
    else s) s

/-- Advance PUB while its slot is READY with its sequence (R339); a late strip is settled with its hardware consumers (R345). -/
def ringAdvance (who : Who) (va : Nat) : Nat → State → State
  | 0, s => s
  | n + 1, s =>
    let h := ringHdr s who va
    let e := slotRd s who va (ringSlot h (hPub h))
    if eSt e = 2 ∧ eSeq e = hPub h then
      ringAdvance who va n (latePublished (wrVa s who (va + 28) (leBytes 4 ((hPub h + 1) % 2 ^ 32))) who va (hPub h))
    else s

/-- Make a FILLING slot READY and advance PUB (R339, R341). -/
def ringPublish (s : State) (who : Who) (va i : Nat) (late : Bool) : State :=
  let e := slotRd s who va i
  ringAdvance who va (hNslot (ringHdr s who va) + 1)
    (slotWr s who va i (mkSlot 2 (late || eLate e) (eHrel e) (eDone e) (eSeq e) (eHolder e)))

/-- Settle the slots a group holds when it exits or is killed (R341). -/
def settleSlots (s : State) (g : Group) : State :=
  g.slots.foldl (fun s q =>
    let who : Who := { tenant := g.tenant }
    let i := ringSlot (ringHdr s who q.1) q.2.1
    if q.2.2 then ringFinish s who q.1 i 12 else ringPublish s who q.1 i true) s

end Sys2Proof.Machine
end

