-- ==== Sys2Proof/Machine/Pool.lean ====
section
/-! DEFINITION. The queue buffer pool of a core and linked segments (R42 to R44, R322, R323), hidden join objects (R36), the ejection of
lanes (R32, R33, R35) and the claim queue (R26 to R29). -/

set_option linter.unusedVariables false

namespace Sys2Proof.Machine

/-! ### Blocks -/

/-- The four queues that draw on a core's pool (R43). -/
inductive PoolQ where
  | spawn | cont | copy | ready
  deriving DecidableEq, Repr

def Core.pool (c : Core) : PoolQ → Pool
  | .spawn => c.spawnP
  | .cont => c.contP
  | .copy => c.copyP
  | .ready => c.readyP

/-- Blocks that threads and continuation lanes hold: (core, task, continuation, place, blocks), and for linked segments how many of each.
A spawned thread's block returns when it starts, a continuation lane's when it returns or exits (R44). -/
structure Block where
  core : Nat
  seq : Nat
  cont : Bool
  place : Nat
  n : Nat
  segs : List (Nat × Nat) := []
  deriving DecidableEq, Repr

def allBlocks (s : State) : List Block :=
  s.threads.map (fun t => { core := t.info.poolCore, seq := t.seq, cont := t.cont, place := t.info.place, n := t.info.blocks, segs := t.info.segs }) ++
  s.waves.flatMap (fun p =>
    (p.2.lanes.filter (fun q => decide (0 < q.2.blocks))).map (fun q =>
      { core := q.2.poolCore, seq := ((s.group? (gidOf p.1)).map (·.seq)).getD 0, cont := true, place := q.2.place, n := q.2.blocks, segs := q.2.segs }))

def blockSum (bs : List Block) : Nat := (bs.map (·.n)).sum
/-- How many of some blocks are the pool's: those that lie in no segment. -/
def Block.pooled (b : Block) : Nat := if b.place = 2 then 0 else b.n - (b.segs.map (·.2)).sum
/-- Blocks a queue of a core holds of the pool. -/
def laneBlocks (s : State) (c : Nat) (cont : Bool) : Nat :=
  (((allBlocks s).filter (fun b => b.core = c && b.cont == cont)).map Block.pooled).sum
/-- HELD of a queue (Table 19.4). A ready-queue entry is consumed by the placing that makes it (log 33). -/
def heldOf (s : State) (c : Nat) : PoolQ → Nat
  | .spawn => laneBlocks s c false
  | .cont => laneBlocks s c true
  | .copy => (coreXfers s c).length
  | .ready => 0
/-- Free blocks of a pool, keeping each queue's minimum obtainable (R44, log 33). -/
def poolFree (s : State) (c : Nat) : Nat :=
  let k := s.core c
  Config.poolBlocks - (max (heldOf s c .spawn) k.spawnP.qmin + max (heldOf s c .cont) k.contP.qmin + max (heldOf s c .copy) k.copyP.qmin +
    max (heldOf s c .ready) k.readyP.qmin)
/-- Whether a queue obtains n blocks of the pool (R44, R322). -/
def poolRoom (s : State) (c : Nat) (q : PoolQ) (n : Nat) : Bool :=
  let p := (s.core c).pool q
  let h := heldOf s c q
  decide (h + n ≤ p.qcap) && decide (h + n - max h p.qmin ≤ poolFree s c)
/-- How many blocks of the pool a queue obtains at most, one after the other (R44, R322). -/
def poolTake (s : State) (c : Nat) (q : PoolQ) : Nat :=
  let p := (s.core c).pool q
  let h := heldOf s c q
  min (p.qcap - h) (poolFree s c + max h p.qmin - h)

/-- Whether a core can take one more copy: a slot of its copy engine and a block of its copy queue (R213, R322). -/
def copyFull (s : State) (c : Nat) : Bool := decide (Config.copySlots ≤ (coreXfers s c).length) || !poolRoom s c .copy 1

/-- The segments in which some blocks lie, each once, ascending. -/
def segsOf (bs : List Block) : List Nat :=
  sortBy (fun a b => decide (a ≤ b)) ((bs.flatMap (fun b => if b.place = 1 then b.segs.map (·.1) else [])).eraseDups)
/-- The segments linked to queues: those that hold a block; one that has become empty is unlinked (R322, log 33). -/
def linkedSegs (s : State) : List Nat := segsOf (allBlocks s)
/-- SEG_USED (Table 19.6): segments linked or reserved. -/
def segUsed (s : State) : Nat := (linkedSegs s).length + (s.tasks.map (·.2.segs)).sum
/-- The segments linked to a queue of a core, with the blocks of each that are free. -/
def segRooms (s : State) (c : Nat) (cont : Bool) : List (Nat × Nat) :=
  let bs := (allBlocks s).filter (fun b => b.core = c && b.cont == cont)
  (segsOf bs).map (fun i => (i, 1024 - ((bs.flatMap (·.segs)).map (fun p => if p.1 = i then p.2 else 0)).sum))
/-- Whether n more segments may be taken: SEG_LIMIT, and the 16 MiB floor of the cache part beside its two tables (R55, R322). -/
def segFits (s : State) (n : Nat) : Bool :=
  decide (segUsed s + n ≤ s.devCfg.segLimit) &&
    decide (16 * 1024 + 12 * 1024 + 64 * (segUsed s + n) ≤ (352 - 32 * s.shmSteps) * 1024)

/-- Where the blocks of one lane lie: in the pool (0), in linked segments (1), so many of each and the rest in the pool, or in reserved segments (2). -/
structure BlockPlace where
  place : Nat := 0
  segs : List (Nat × Nat) := []
  deriving DecidableEq, Repr

/-- b blocks, of segments with room in their order, then of the next fresh segment: what is taken, the room left, the next number. -/
def segTake (b : Nat) : List (Nat × Nat) → Nat → List (Nat × Nat) × List (Nat × Nat) × Nat
  | [], fresh => if b = 0 then ([], [], fresh) else ([(fresh, b)], [(fresh, 1024 - b)], fresh + 1)
  | (i, room) :: r, fresh =>
    let n := min b room
    let t := segTake (b - n) r fresh
    (if n = 0 then t.1 else (i, n) :: t.1, (i, room - n) :: t.2.1, t.2.2)
/-- The places of lanes that take so many blocks each of segments, and the next fresh number. -/
def segPlaces : List Nat → List (Nat × Nat) → Nat → List BlockPlace × Nat
  | [], _, fresh => ([], fresh)
  | b :: bs, rooms, fresh =>
    let t := segTake b rooms fresh
    let r := segPlaces bs t.2.1 t.2.2
    ({ place := if t.1 = [] then 0 else 1, segs := t.1 } :: r.1, r.2)

/-- What a request for blocks gets: places for each lane, SPAWN_OVERFLOW with the blocks needed, or a wait for a segment. -/
inductive BlockGrant where
  | places (ps : List BlockPlace) | overflow (need : Nat) | wait
  deriving DecidableEq, Repr

/-- Whether a task's queue is in declared-occupancy mode (R42). -/
def taskDocc (s : State) (seq : Nat) : Bool :=
  match s.task? seq with
  | some t => (s.ring t.ring).docc
  | none => false
def recQocc (t : Task) : Nat := bitsAt t.rec64 240 16
/-- Blocks a task holds. -/
def taskBlocks (s : State) (seq : Nat) : Nat := blockSum ((allBlocks s).filter (fun b => b.seq = seq))

/-- Blocks for n lanes of b blocks each (R42 to R44, R322, R323): reserved segments in declared-occupancy mode; else, block by block, the pool,
then linked segments, and fresh ones as far as they may be linked. -/
def grantBlocks (s : State) (c seq : Nat) (q : PoolQ) (n b : Nat) : BlockGrant :=
  if taskDocc s seq then
    (let qocc := ((s.task? seq).map recQocc).getD 0
     if qocc < taskBlocks s seq + n * b then .overflow (n * b) else .places (List.replicate n { place := 2 }))
  else
    let m := poolTake s c q
    let next := (linkedSegs s).foldl max 0 + 1
    let r := segPlaces ((List.range n).map (fun i => b - (m - i * b))) (segRooms s c (q == .cont)) next
    if r.2 = next ∨ segFits s (r.2 - next) then .places r.1 else .wait
/-- What a wave that waits for a segment asks for, in its wait's argument: the lanes, the blocks of each, and whether for continuations. -/
def segArg (q : PoolQ) (n b : Nat) : Word := w64 (n + 2 ^ 16 * b + 2 ^ 32 * (if q = .cont then 1 else 0))
/-- Whether a request that waits for a segment would be granted now (R322). -/
def segGranted (s : State) (c seq : Nat) (arg : Word) : Bool :=
  match grantBlocks s c seq (if arg.toNat / 2 ^ 32 = 0 then .spawn else .cont) (arg.toNat % 2 ^ 16) (arg.toNat / 2 ^ 16 % 2 ^ 16) with
  | .wait => false
  | _ => true

/-! ### Hidden join objects -/

def newJoin (s : State) (o : JoinObj) : State × Nat :=
  ({ s with joins := kset s.nextJoin o s.joins, nextJoin := s.nextJoin + 1 }, s.nextJoin)
/-- The object that an object is forwarded to, in the end (R35, R159). -/
def joinEnd (s : State) : Nat → Nat → Nat
  | 0, j => j
  | n + 1, j => match (joinObj s j).forward with
    | some k => joinEnd s n k
    | none => j
def addJoin (s : State) (j n : Nat) : State := { s with joins := kmod j (fun o => { o with count := o.count + n }) s.joins }
def subJoin (s : State) (j n : Nat) : State := { s with joins := kmod j (fun o => { o with count := o.count - n }) s.joins }
/-- Forward an object: its count is added to the target's (R36). -/
def forwardJoin (s : State) (j target : Nat) : State :=
  let o := joinObj s j
  addJoin { s with joins := kset j { o with count := 0, forward := some target } s.joins } target o.count
/-- Free forwarded objects that no lane references, and the given popped object (R36). -/
def gcJoins (s : State) (popped : Option Nat) : State :=
  let used (j : Nat) : Bool := s.threads.any (fun t => t.info.join == some j) || s.waves.any (fun p => p.2.lanes.any (fun q => q.2.join == some j)) ||
    s.joins.any (fun p => p.2.forward == some j)
  { s with joins := s.joins.filter (fun p => if p.2.forward.isSome then used p.1 else popped != some p.1) }
/-- The object of a wave's top token, created if it has none (R36). -/
def topJoin (s : State) (k : Nat) : State × Option Nat :=
  match s.wave? k with
  | none => (s, none)
  | some w => match w.top? with
    | none => (s, none)
    | some t => match t.join with
      | some j => (s, some j)
      | none =>
        let r := newJoin s { rejoin := t.rejoin }
        (r.1.setWave k (w.setTop { t with join := some r.2 }), some r.2)

/-! ### Ejection -/

/-- Blocks of one continuation lane (R43). -/
def contBlocks (w : Wave) : Nat := 1 + w.regCount / 8

/-- Lanes leave a wave as continuation threads at an address, referencing an object (R35): each carries its lane's vector registers and
the wave's scalar registers, masks and `mode`. -/
def ejectLanes (s : State) (k : Nat) (lanes : LaneMask) (pc : Word) (j : Nat) (places : List BlockPlace) : State :=
  match s.wave? k, s.group? (gidOf k) with
  | some w, some g =>
    let c := coreOf s k
    let mk (i l : Nat) : Thread :=
      { seq := g.seq, core := c, entry := pc, stamp := s.cycle, cont := true, originGroup := lsGroup s k, regs := w.regCount,
        groupid := w.key.groupid,
        info := { depth := (kget { depth := g.depth } l w.lanes).depth, join := some j, originWave := k, originLane := l,
                  blocks := contBlocks w, place := (places.getD i {}).place, segs := (places.getD i {}).segs, poolCore := c },
        key := w.key, v := (w.v.filter (fun p => p.1 % 32 = l)).map (fun p => (p.1 / 32, p.2)), s := w.s, m := w.m, mode := w.mode }
    let ts := (lanesOf lanes).mapIdx mk
    ({ s with threads := s.threads ++ ts }.setWave k { w with path := w.path &&& ~~~ lanes }).modCore c
      (fun x => { x with ejected := x.ejected + ts.length })
  | _, _ => s

/-! ### The claim queue -/

/-- Give a claim its registers: the group's unassigned budget first, then the core's free registers (R26); they read 0. An evicted wave
has them held for it (R28). -/
def serveClaim (s : State) (c k n : Nat) : State :=
  match s.wave? k, s.group? (gidOf k) with
  | some w, some g =>
    let b := min n g.budgetFree
    let s := s.setGroup (gidOf k) { g with budgetFree := g.budgetFree - b, took := g.took + (n - b) }
    s.setWave k { w with regCount := w.regCount + n, v := w.v.filter (fun p => decide (p.1 / 32 < w.regCount)),
                         heldRegs := if w.evicted then w.heldRegs + n else w.heldRegs }
  | _, _ => s
/-- Whether a claim fits. -/
def claimFits (s : State) (c k n : Nat) : Bool := decide (n ≤ ((s.group? (gidOf k)).map (·.budgetFree)).getD 0 + freeRegs s c)

/-- The issue of a `reg.claim` whose claim has been served: the wave goes on after it (R239), and it counts as issued on its core (R186);
waitArg holds its stall count. -/
def claimDone (s : State) (c k : Nat) : State :=
  (s.modCore c (fun x => { x with issued := x.issued + 1 })).modWave k (fun w =>
    bookWave { len := 8, stall := w.waitArg.toNat, opnds := [], lat := some 0 } s.cycle w true { w with wait := .none, waitArg := 0, claim := none })

/-- Serve waiting claims in arrival order until one does not fit (R28). -/
def serveClaims (c : Nat) : Nat → State → State
  | 0, s => s
  | n + 1, s =>
    match (s.core c).claims with
    | [] => s
    | k :: r =>
      match s.wave? k with
      | none => serveClaims c n (s.modCore c (fun x => { x with claims := r }))
      | some w =>
        let m := (w.claim.map (·.1)).getD 0
        if claimFits s c k m then serveClaims c n (claimDone ((serveClaim s c k m).modCore c (fun x => { x with claims := r })) c k)
        else s

/-- Put a claim into its core's queue, by arrival stamp (R28). -/
def queueClaim (s : State) (c k stamp : Nat) : State :=
  let before (q : Nat) : Bool := match s.wave? q with
    | some w => decide ((w.claim.map (·.2)).getD 0 ≤ stamp)
    | none => true
  s.modCore c (fun x => { x with claims := x.claims.takeWhile before ++ [k] ++ x.claims.dropWhile before })

/-- The youngest claim of the resident waves of a group in claim deadlock (R29): every one of them waits in the claim queue. -/
def claimDeadlock (s : State) (g : Nat) : Option Nat :=
  let ws := (s.wavesOf g).filter (fun p => !p.2.ended && !p.2.evicted)
  match s.group? g with
  | none => none
  | some x => match x.core? with
    | none => none
    | some c =>
      let q := (s.core c).claims
      if ws.isEmpty || !(ws.all (fun p => q.contains p.1)) then none
      else (q.filter (fun k => ws.any (fun p => p.1 == k))).getLast?

/-- Break a claim deadlock of a group (R29): its youngest claim leaves the queue, its wave traps, and the queue is served again. -/
def breakDeadlock (s : State) (c g : Nat) : State :=
  match claimDeadlock s g with
  | none => s
  | some k =>
    let n := (((s.wave? k).bind (·.claim)).map (·.1)).getD 0
    let free := freeRegs s c
    let s := (s.modCore c (fun x => { x with claims := x.claims.erase k })).modWave k (fun w => { w with claim := none, wait := .none, waitArg := 0 })
    let s := takeTrap s k 8 { cause := .claimDeadlock, info0 := w64 n, info1 := w64 free }
    serveClaims c ((s.core c).claims.length + 1) s
/-- Serve the queue, then break a claim deadlock of a group (R28, R29). -/
def settleClaims (s : State) (c g : Nat) : State := breakDeadlock (serveClaims c ((s.core c).claims.length + 1) s) c g

end Sys2Proof.Machine
end

