-- ==== Sys2Proof/Machine/Tasks.lean ====
section
/-! DEFINITION. Tasks: publication (R19 to R22, R42, R400), dependence counters (R234, R304), retirement (R23), owners of waits (R46),
the end of a group (R293), and kills (R294). -/

set_option linter.unusedVariables false

namespace Sys2Proof.Machine

/-! ### Fields of a launch record (Table 3.1) -/

def recImage (t : Task) : Word := w64 (bitsAt t.rec64 0 56)
def recReplay (t : Task) : Bool := t.rec64.getLsbD 64
def recLs (t : Task) : Nat := bitsAt t.rec64 65 10
def recRegs (t : Task) : Nat := bitsAt t.rec64 75 11
def recCrew (t : Task) : Nat := bitsAt t.rec64 86 4
def recWaves (t : Task) : Nat := bitsAt t.rec64 90 6
def recGroups (t : Task) : Nat := bitsAt t.rec64 96 32
def recRole (t : Task) : Word := w64 (bitsAt t.rec64 128 64)
def recPart (t : Task) : Nat := bitsAt t.rec64 226 2
def recPrio (t : Task) : Nat := bitsAt t.rec64 228 3
def recAcc (t : Task) : Nat := bitsAt t.rec64 231 9
def recDep (t : Task) : Nat := bitsAt t.rec64 256 56
def recSucc (t : Task) : Nat := bitsAt t.rec64 320 56
def recSuccN (t : Task) : Nat := bitsAt t.rec64 376 8
def recArg (t : Task) : Word := w64 (bitsAt t.rec64 448 64)

/-- The fields of a launch record that break R21, by lowest bit. -/
def recBad (r : BitVec 512) : List Nat :=
  let f (lo n : Nat) : Nat := bitsAt r lo n
  let inSh (a : Nat) : Bool := inShared a
  (if f 0 8 ≠ 0 then [0] else []) ++ (if f 56 8 ≠ 1 then [56] else []) ++ (if 512 < f 65 10 then [65] else []) ++
  (if f 75 11 % 8 ≠ 0 ∨ f 75 11 < 8 ∨ 1536 < f 75 11 ∨ 2048 < f 90 6 * f 75 11 then [75] else []) ++
  (if f 86 4 = 0 ∨ 8 < f 86 4 ∨ f 96 32 % f 86 4 ≠ 0 then [86] else []) ++ (if f 90 6 = 0 ∨ 32 < f 90 6 then [90] else []) ++
  (if f 96 32 = 0 then [96] else []) ++ (if f 192 34 ≠ 0 then [192] else []) ++ (if f 226 2 = 3 then [226] else []) ++
  (if 256 < f 231 9 then [231] else []) ++
  (if f 256 56 ≠ 0 ∧ (f 256 56 % 16 ≠ 0 ∨ inSh (f 256 56) = false) then [256] else []) ++ (if f 312 8 ≠ 0 then [312] else []) ++
  (if f 376 8 ≠ 0 ∧ f 320 56 % 8 ≠ 0 then [320] else []) ++
  (if f 384 56 ≠ 0 ∧ (f 384 56 % 8 ≠ 0 ∨ inSh (f 384 56) = false) then [384] else []) ++ (if f 440 8 ≠ 0 then [440] else [])

/-! ### Records -/

/-- MAX_CREW (Table 1.4). -/
def maxCrew (s : State) : Nat := bitsAt s.caps.dev 36 4
def minCluster (s : State) : Nat := bitsAt s.caps.dev 32 4

/-- A completion record (Table 23.8). -/
def complBits (time : Nat) (result pkt : Word) (index : Nat) (tag : BitVec 32) (ring op status : Nat) : BitVec 512 :=
  packBits 512 [(32, 8, status), (40, 8, op), (48, 14, ring), (256, 32, tag.toNat), (288, 32, index), (320, 64, pkt.toNat),
    (384, 64, result.toNat), (448, 64, time)]
/-- Write a task's completion record to the CSTREAM of its ring (R23, Table 23.8). -/
def taskRecord (s : State) (t : Task) (status : Nat) : State :=
  let q := s.ring t.ring
  streamEntry s q.func q.cstream (complBits s.ns (w64 t.seq) t.src.pkt t.src.index t.src.tag t.ring 1 status) t.src.irq

/-- A record the front end writes for a task (R399). -/
def feRecord (t : Task) (cause : Cause) (info0 info1 : Word) : Record :=
  { cause := cause, seq := t.seq, tenant := t.tenant, info0 := info0, info1 := info1, irq := t.src.irq }

/-! ### Readiness -/

/-- Entries of the launch table in use (R303). -/
def launchUsed (s : State) : Nat := (s.tasks.filter (fun p => p.2.state == .ready)).length
def launchFull (s : State) : Bool := decide (Config.launchEntries ≤ launchUsed s)

/-- A task refused after publication settles (R42): counted in its family's FAULTS unless the family is what could not be reached. -/
def refuseTask (s : State) (q : Nat) (reach : Bool) : State :=
  match s.task? q with
  | none => s
  | some t =>
    let s := s.modTask q (fun t => { t with state := .refused, segs := 0 })
    let s := if recFamily t ≠ 0 ∧ reach then
        ((familyUpdate s t.ring t.tenant (recFamily t) (famAddFaults 1) (feRecord t .pageNotPresent 0 0)).1).modTask q
          (fun t => { t with faultCounted := true })
      else s
    taskRecord s t 2

/-- A task enters its ready queue (R303): in declared-occupancy mode with its segments reserved, or refused (R42, R323). -/
def makeReady (s : State) (q : Nat) : State :=
  match s.task? q with
  | none => s
  | some t =>
    let docc := (s.ring t.ring).docc
    let n := cdiv (recQocc t) 1024
    if docc ∧ ¬ segFits s n then
      refuseTask (errorRecord s t.ring (feRecord t .qoccRefused (w64 (recQocc t)) (w64 (1024 * (s.devCfg.segLimit - segUsed s))))) q true
    else
      { s with tickets := s.tickets + 1 }.modTask q
        (fun t => { t with state := .ready, segs := if docc then n else 0, readyAt := s.time })

/-- A task whose counter reached 0: ready, or waiting for a launch-table entry behind those released before it (R303, R304). -/
def releaseTask (s : State) (q : Nat) : State :=
  match s.task? q with
  | some t =>
    if t.state ≠ .armed ∨ s.releasedQ.contains q then s
    else if launchFull s || !s.releasedQ.isEmpty then { s with releasedQ := s.releasedQ ++ [q] }
    else makeReady s q
  | none => s

/-- Released tasks take entries as they free, in the order their counters reached 0 (R303, R304); a task killed since never becomes ready. -/
def drainTasks : List Nat → State → State
  | [], s => { s with releasedQ := [] }
  | q :: r, s =>
    if launchFull s then { s with releasedQ := q :: r }
    else drainTasks r (if (s.task? q).map (·.state) = some .armed then makeReady s q else s)
def drainReleased (s : State) : State := drainTasks s.releasedQ s

/-- Decrement a counter object at its bank (R234, R304): the state, the task released, and whether COUNT was already 0. -/
def depDecrement (s : State) (l : Loc) : State × Option Nat × Bool :=
  let c := rdN s l 4
  let task := rdN s (l.plus 8) 8
  if c = 0 then (s, none, true)
  else (wrN s l 4 (c - 1), if c = 1 ∧ task ≠ 0 then some task else none, false)

/-! ### Publication -/

inductive PubRes where
  | ok (s : State) (seq : Nat)
  | refused (s : State)
  | wait
  deriving Repr

/-- Publish a record as a task (R19 to R22, R16, R42, R400); `base` fills the record of a refusal (R399). CREW is held to MAX_CREW here alone:
a task published before MAX_CREW fell stays in the ready set (log 90). -/
def publish (s : State) (rec64 : BitVec 512) (at_ : Word) (tenant ring depth : Nat) (parent : Option Nat) (src : Source) (chain : Option Nat)
    (base : Record) : PubRes :=
  let q := s.nextSeq
  let t : Task := { seq := q, tenant := tenant, ring := ring, depth := depth, parent := parent, rec64 := rec64, chain := chain, src := src,
                    born := s.cycle, root := (parent.bind (fun p => (s.task? p).map (·.root))).getD q }
  match (recBad rec64).min? with
  | some b => .refused (errorRecord s ring { base with cause := .recordInvalid, tenant := tenant, info0 := at_, info1 := w64 b })
  | none =>
    if maxCrew s < recCrew t then
      .refused (errorRecord s ring { base with cause := .crewUnplaceable, tenant := tenant, info0 := w64 (recCrew t), info1 := w64 (maxCrew s) })
    else
      let dep := recDep t
      let armAt := checkObj s { tenant := tenant } dep 16 16 { rd := true, wr := true }
      let readyNow : Bool := decide (dep = 0) || (match armAt with
        | .ok l => decide (rdN s l 4 = 0)
        | .error _ => false)
      if readyNow && launchFull s then .wait
      else
        let s : State := { s with nextSeq := q + 1, tasks := kset q t s.tasks }
        let fam : State × Bool :=
          if recFamily t = 0 then (s, true)
          else familyUpdate s ring tenant (recFamily t) (famAddOut 1) (feRecord t .pageNotPresent 0 0)
        if !fam.2 then .ok (refuseTask fam.1 q false) q
        else
          let s := fam.1
          if dep = 0 then .ok (makeReady s q) q
          else match armAt with
            | .error e =>
              .ok (refuseTask (errorRecord s ring { feRecord t e.cause (w64 dep) e.info1 with tenant := tenant }) q true) q
            | .ok l =>
              let s := wrN (touch s tenant dep true) (l.plus 8) 8 q
              .ok (if readyNow then makeReady s q else s) q

/-! ### Owners (R46, R232, Table 3.2) -/

/-- The owner of a wait: a task, or an unstarted spawned thread by its place in the waiting list. -/
inductive Owner where
  | task (q : Nat) | thread (i : Nat)
  deriving DecidableEq, Repr

/-- The task that an owner is, or is a thread of. -/
def Owner.task? (s : State) : Owner → Option Nat
  | .task q => some q
  | .thread i => (s.threads[i]?).map (·.seq)

/-- The ownership record of an address, unless it names a retired task (R232). -/
def ownRecord (s : State) (tenant addr : Nat) : Option Nat :=
  match ownFind s tenant (addr / 4 * 4) with
  | some q => match s.task? q with
    | some t => if t.state = .done then none else some q
    | none => some q
  | none => none
/-- A lookup removes a record that names a retired task (R232). -/
def ownSweep (s : State) (tenant addr : Nat) : State :=
  match ownFind s tenant (addr / 4 * 4), ownRecord s tenant addr with
  | some _, none => ownDel s tenant (addr / 4 * 4)
  | _, _ => s

/-- The oldest unstarted child of a family: a task none of whose groups has started, or a spawned thread whose wave has not (R46, R237). Of
children made in one cycle a task comes before a thread, and both by their place in the lists (log 75). -/
def oldestChild (s : State) (tenant fam : Nat) : Option Owner :=
  let ts := (s.tasks.filter (fun p => p.2.tenant == tenant && decide (recFamily p.2 = fam) && (p.2.state == .armed || p.2.state == .ready) &&
    p.2.next == 0)).map (fun p => (p.2.born, Owner.task p.1))
  let hs := (s.threads.mapIdx (fun i t => (t, i))).filterMap (fun (x : Thread × Nat) =>
    if x.1.cont || decide (x.1.info.family ≠ fam) || ((s.task? x.1.seq).map (·.tenant)) != some tenant then none
    else some (x.1.stamp, Owner.thread x.2))
  ((ts ++ hs).foldl (fun (a : Option (Nat × Owner)) x => match a with
    | some y => if x.1 < y.1 then some x else a
    | none => some x) none).map (·.2)

/-- The owner of a helping wait on an address, in the order of R46. -/
def waitOwner (s : State) (who : Who) (wait : Wait) (addr : Nat) : Option Owner :=
  match ownRecord s who.tenant addr with
  | some q => some (.task q)
  | none =>
    match wait with
    | .lock =>
      let q := leNat (rdVa s who (addr + 8) 8)
      if q = 0 then none else some (.task q)
    | .dqPop =>
      let d := dqAt s who addr
      let e := leNat (rdVa s who (d.entry (dqWord s who d.pub)) 16)
      if e % 4 = 1 ∧ e / 2 ^ 64 ≠ 0 then some (.task (e / 2 ^ 64)) else none
    | .joinFamily => oldestChild s who.tenant addr
    | _ => none

/-- The helping waits of R45. -/
def Wait.helps : Wait → Bool
  | .tag | .lock | .dqPush | .dqPop | .joinFamily | .bo => true
  | _ => false

inductive OwnerState where
  | unstarted | parked | running | done | faulted
  deriving DecidableEq, Repr

def taskGroups (s : State) (q : Nat) : List (Nat × Group) := s.groups.filter (fun p => p.2.seq == q && p.2.origin == .grid)
/-- Whether a group is set aside: off its core, or on it with every wave left evicted (R52, R287). -/
def setAside (s : State) (gid : Nat) (g : Group) : Bool :=
  g.core?.isNone || (s.wavesOf gid).all (fun p => p.2.ended || p.2.evicted)
/-- Table 3.2; a killed or refused task, and a number that names none, is neither retired nor faulted: the waiter sleeps (log 34). -/
def ownerState (s : State) (q : Nat) : OwnerState :=
  match s.task? q with
  | none => .running
  | some t =>
    let gs := taskGroups s q
    if t.state = .done then .done
    else if gs.any (fun p => match p.2.place with
      | .faulted _ => true
      | _ => false) then .faulted
    else if t.state = .armed ∨ (t.state = .ready ∧ t.next = 0) then .unstarted
    else if !gs.isEmpty && gs.all (fun p => setAside s p.1 p.2) then .parked
    else .running

/-! ### The end of a group (R293, R341, R225, R53) -/

/-- Break a lock of the list: STATE changes, HOLDER and TASK stay (R225). -/
def breakLock (who : Who) (st : Nat) (s : State) (va : Nat) : State :=
  let x := leNat (rdVa s who va 8)
  wrVa s who va (leBytes 8 (x % 2 ^ 62 + st * 2 ^ 62))

/-- Whether a transfer's destination lies outside the group's local store and feeds (R293). -/
def Xfer.outside (x : Xfer) : Bool :=
  match x.kind with
  | .cpOut | .accSt | .dqPush => true
  | .cpLl => !inLocal x.dense.toNat
  | _ => false

/-- A transfer of an exiting group: completed when its destination lies outside, abandoned with a record where it fails (R212, R293). -/
def endXfer (ring : Nat) (s : State) (x : Xfer) : State :=
  if x.outside then
    (let r := xferRun (x.bytes + 1) s x
     match r.2.2 with
     | none => finishXfer r.1 r.2.1
     | some e =>
       let s : State := { r.1 with xfers := kdel x.id r.1.xfers }
       let s := if x.kind = .dqPush then dqPublish s (x.who s) (dqAt s (x.who s) x.queue.toNat) x.ticket 2 else s
       errorRecord s ring { cause := e.cause, core := x.core, tenant := x.tenant, seq := x.seq, gid := x.gid, info0 := e.info0, info1 := e.info1 })
  else { s with xfers := kdel x.id s.xfers }

/-- A transfer of a killed group: stopped, and a push voided (R294, R230). -/
def stopXfer (faulted : Bool) (s : State) (x : Xfer) : State :=
  let s : State := { s with xfers := kdel x.id s.xfers }
  if x.kind = .dqPush then dqPublish s (x.who s) (dqAt s (x.who s) x.queue.toNat) x.ticket (if faulted then 1 else 2) else s

def Group.faultedHere (g : Group) : Bool :=
  match g.place with
  | .faulted _ => true
  | _ => false

/-- A group ends (R293), by exit or by kill. -/
def endGroup (s : State) (gid : Nat) (kill : Bool) : State :=
  match s.group? gid with
  | none => s
  | some x =>
    let faulted := x.faultedHere
    let xs := (s.xfers.filter (fun p => p.2.gid = gid)).map (·.2)
    let s := xs.foldl (if kill then stopXfer faulted else endXfer (x.ring.getD 0)) s
    let s := settleSlots s x
    let s := x.locks.foldl (breakLock { tenant := x.tenant } (if kill && faulted then 3 else 2)) s
    let s : State := match x.helper with
      | some h => freeHelper s h
      | none => s
    let s := (s.wavesOf gid).foldl (fun s p => if p.2.helping ≠ 0 then dropHelper s p.1 else s) s
    let s : State := { s with
      waves := s.waves.filter (fun p => gidOf p.1 ≠ gid)
      groups := (s.groups.filter (fun p => p.1 ≠ gid)).map (fun (p : Nat × Group) =>
        if decide (1 < x.crew) && p.2.seq == x.seq && p.2.crewLead == x.crewLead && p.2.origin == x.origin then
          (p.1, { p.2 with crewGone := p.2.crewGone ++ [(x.rank, x.crewOps, x.mq)] })
        else p)
      rasters := s.rasters.map (fun (p : Nat × Raster) => (p.1, { p.2 with groups := p.2.groups.filter (· ≠ gid), frags := p.2.frags.filter (fun f => f.gid ≠ gid) })) }
    let s := if x.origin = .grid then s.modTask x.seq (fun t => { t with exitedGroups := t.exitedGroups + 1 }) else s
    let s := gcJoins s none
    match x.core? with
    | none => s
    | some c =>
      let s := s.modCore c (fun k => { k with claims := k.claims.filter (fun q => gidOf q ≠ gid), freed := k.freed + 1 })
      wakeEngine (serveClaims c ((s.core c).claims.length + 1) s) c

/-! ### Retirement (R23) -/

/-- Whether every group of a task has exited and every descendant has settled. -/
def canRetire (s : State) (q : Nat) : Bool :=
  match s.task? q with
  | none => false
  | some t =>
    t.state == .ready && decide (recGroups t ≤ t.next) && decide (recGroups t ≤ t.exitedGroups) && s.groups.all (fun p => p.2.seq != q) &&
      s.threads.all (fun h => h.seq != q) && s.tasks.all (fun p => p.2.parent != some q || !(p.2.state == .armed || p.2.state == .ready))

/-- Decrement a task's successors, in list order; an entry that cannot be read ends the list, a counter that fails is skipped (R400). -/
def decSuccessors (t : Task) : List Nat → State → State
  | [], s => s
  | i :: r, s =>
    let who : Who := { tenant := t.tenant }
    let at_ := recSucc t + 8 * i
    match checkOne s who at_ 8 8 { rd := true } .plain with
    | .error e => errorRecord s t.ring (feRecord t e.cause (w64 at_) e.info1)
    | .ok l =>
      let s := touch s t.tenant at_ false
      let c := rdN s l 8
      match checkObj s who c 16 16 { rd := true, wr := true } with
      | .error e => decSuccessors t r (errorRecord s t.ring (feRecord t e.cause (w64 c) e.info1))
      | .ok l2 =>
        let d := depDecrement (touch s t.tenant c (rdN s l2 4 != 0)) l2
        let s := if d.2.2 then errorRecord d.1 t.ring (feRecord t .depUnderflow (w64 c) 0) else d.1
        decSuccessors t r (match d.2.1 with
          | some q => releaseTask s q
          | none => s)

/-- A strip chain's head has ended: CHAIN clears and its cores are render cores (R317). -/
def endChain (s : State) (t : Task) : State :=
  match t.chain with
  | none => s
  | some c =>
    match kfind c s.chains with
    | none => s
    | some ch =>
      if ch.head ≠ t.seq then s
      else
        let s : State := { s with chains := kdel c s.chains }
        ch.cores.foldl (fun s k => s.modCore k (fun x => { x with chains := x.chains.erase c })) s

/-- Waiters whose owner the task is will retest (R50). -/
def wakeOwnerWaiters (s : State) (q : Nat) : State :=
  { s with waves := s.waves.map (fun (p : Nat × Wave) => if p.2.helping = q then (p.1, { p.2 with helping := 0, grant := true }) else p) }

/-- RETIRE A TASK (R23): successors, family, completion record. -/
def retireTask (s : State) (q : Nat) : State :=
  match s.task? q with
  | none => s
  | some t =>
    let s := s.modTask q (fun t => { t with state := .done, segs := 0 })
    let s := decSuccessors t (List.range (recSuccN t)) s
    let s := if recFamily t = 0 then s else (familyUpdate s t.ring t.tenant (recFamily t) (famAddOut (-1)) (feRecord t .pageNotPresent 0 0)).1
    drainReleased (endChain (wakeOwnerWaiters (taskRecord s t 0) q) t)

/-! ### Kills (R294) -/

/-- A task and every task descended from it. -/
def descendants (s : State) : Nat → List Nat → List Nat
  | 0, qs => qs
  | n + 1, qs =>
    let more := (s.tasks.filter (fun p => !qs.contains p.1 && (match p.2.parent with
      | some q => qs.contains q
      | none => false))).map (·.1)
    if more.isEmpty then qs else descendants s n (qs ++ more)

/-- Kill one task: its groups, its waiting threads, its record (R294). `origin` is INFO0 of KILLED. -/
def killOne (origin : Nat) (s : State) (q : Nat) : State :=
  match s.task? q with
  | none => s
  | some t =>
    if t.state ≠ .armed ∧ t.state ≠ .ready then s
    else
      let gs := (s.groups.filter (fun p => p.2.seq == q)).map (·.1)
      let fault := s.groups.any (fun p => p.2.seq == q && p.2.faultedHere)
      let who : Who := { tenant := t.tenant }
      let s : State := { s with waves := s.waves.map (fun (p : Nat × Wave) =>
        if p.2.helping = q || (p.2.wait.helps && ((waitOwner s (whoOf s p.1) p.2.wait (p.2.waitArg.toNat % 2 ^ 56)).bind (Owner.task? s)) == some q) then
          (p.1, { p.2 with helping := 0, grant := true, ownerEnd := if fault then 1 else 2 })
        else p) }
      let fams := (s.threads.filter (fun h => h.seq == q && decide (h.info.family ≠ 0))).map (·.info.family)
      let laneFams := gs.flatMap (fun g => match s.group? g with
        | some x => if x.faultedHere then [] else laneFamilies s g
        | none => [])
      let s := (fams ++ laneFams).foldl (fun s f => (familyUpdate s t.ring t.tenant f (famAddFaults 1) (feRecord t .pageNotPresent 0 0)).1) s
      let s : State := { s with threads := s.threads.filter (fun h => h.seq != q) }
      let s := gs.foldl (fun s g => endGroup s g true) s
      let s := if recFamily t = 0 ∨ t.faultCounted then s
        else (familyUpdate s t.ring t.tenant (recFamily t) (famAddFaults 1) (feRecord t .pageNotPresent 0 0)).1
      let s := s.modTask q (fun t => { t with state := .killed, segs := 0, faultCounted := true })
      let s := errorRecord s t.ring (feRecord t .killed (w64 origin) 0)
      endChain (taskRecord s t 1) t

/-- Kill tasks with all their descendants. -/
def killTasks (s : State) (qs : List Nat) (origin : Nat) : State :=
  drainReleased ((descendants s (s.tasks.length + 1) qs).foldl (killOne origin) s)

end Sys2Proof.Machine
end

