-- ==== Sys2Proof/Machine/Place.lean ====
section
/-! DEFINITION. Starting groups from launch images (R282), gathered and continuation waves (R35, R40), restoring images (R270, R285),
eviction (R286, R287, R52), and what an agent may place, in which order (R305 to R309, R319). -/

set_option linter.unusedVariables false

namespace Sys2Proof.Machine

/-! ### Launch images (R282) -/

/-- A launch image as read: its template wave, the local store bytes and tags it carries. -/
structure LaunchImage where
  wave : Wave
  ls : List (Nat × Byte)
  tags : List (Nat × Bool)
  deriving DecidableEq, Repr

/-- Sections of the directory: (type, offset, length) in order. -/
def dirEntries (h : BitVec 2048) : List (Nat × Nat × Nat) :=
  ((List.range 12).map (fun k => (bitsAt h (512 + 128 * k + 64) 8, bitsAt h (512 + 128 * k) 32, bitsAt h (512 + 128 * k + 32) 32))).filter
    (fun e => e.1 ≠ 0)

/-- Bits of the header block that break R279 and R282: fields that must be 0, KIND, IMG_VER, WAVES, and the directory. -/
def launchBad (h : BitVec 2048) : List Nat :=
  let nz (lo n : Nat) : List Nat := if bitsAt h lo n ≠ 0 then [lo] else []
  nz 31 3 ++ nz 34 4 ++ (if bitsAt h 38 6 ≠ 1 then [38] else []) ++ nz 44 4 ++ nz 48 8 ++ (if bitsAt h 56 8 ≠ 1 then [56] else []) ++ nz 64 64 ++
  nz 128 62 ++ nz 190 2 ++ (if 512 < bitsAt h 192 10 then [192] else []) ++ (if 256 < bitsAt h 202 9 then [202] else []) ++ nz 211 2 ++ nz 213 3 ++
  nz 216 4 ++ nz 220 6 ++ nz 226 1 ++ nz 228 28 ++ nz 256 32 ++ nz 288 32 ++ nz 320 8 ++ nz 328 1 ++ nz 329 55 ++ nz 384 62 ++ nz 446 2 ++
  nz 448 5 ++ nz 453 3 ++ nz 456 8 ++ nz 464 48 ++
  (List.range 12).flatMap (fun k =>
    let at_ := 512 + 128 * k
    let ty := bitsAt h (at_ + 64) 8
    let off := bitsAt h at_ 32
    let len := bitsAt h (at_ + 32) 32
    let earlier := (List.range k).map (fun j => bitsAt h (512 + 128 * j + 64) 8)
    (if bitsAt h (at_ + 72) 56 ≠ 0 then [at_ + 72] else []) ++
    (if ty = 0 then [] else
      (if off % 256 ≠ 0 ∨ off < 256 ∨ bitsAt h 0 31 < off + len ∨ ((dirEntries h).takeWhile (fun e => decide (e.1 < ty))).any (fun e =>
        decide (off < e.2.1 + e.2.2)) then [at_] else []) ++
      (if (ty = 1 ∧ len < 0x900) ∨ (ty = 2 ∧ len ≠ 1024 * bitsAt h 192 10) ∨ (ty = 3 ∧ len ≠ 32 * bitsAt h 192 10) then [at_ + 32] else []) ++
      (if 3 < ty ∨ earlier.any (fun x => decide (ty ≤ x)) then [at_ + 64] else []))) ++
  (if (dirEntries h).all (fun e => e.1 ≠ 1) then [512 + 64] else [])

/-- Bits of a template's wave block that are reserved (Table 17.3), counted from the start of the image. -/
def blockBad (off : Nat) (b : List Byte) : List Nat :=
  let f (at_ n : Nat) : Nat := leNat ((b.drop at_).take n)
  let nz (at_ n : Nat) : List Nat := if f at_ n ≠ 0 then [8 * (off + at_)] else []
  (match modeBad (w64 (f 0x018 8)) with
   | some k => [8 * (off + 0x018) + k]
   | none => []) ++ nz 0x021 7 ++ (if 16 ≤ f 0x02D 1 then [8 * (off + 0x02D) + 4] else []) ++ nz 0x02E 2 ++ nz 0x034 4 ++ nz 0x678 8 ++ nz 0x6E0 32

/-- The number of a hidden join object from its address in an image (log 20). -/
def joinAt (addr : Nat) : Option Nat := if addr / 32 = 0 then none else some (addr / 32)
/-- The template wave of a launch image (Table 17.3): every wave of the group takes it whole, as a restored wave would (R282); a wait of
Table 13.14 issues again from its start (R241). Of a template whose NTOK is above 8 the first eight tokens are taken (log 92). Its counters
start at 0 (R186). -/
def templateWave (b : List Byte) (regs depth : Nat) : Wave :=
  let f (at_ n : Nat) : Nat := leNat ((b.drop at_).take n)
  let tok (i : Nat) : Token :=
    { rejoin := w64 (f (0x040 + 32 * i) 8), entry := BitVec.ofNat 32 (f (0x048 + 32 * i) 4), pend := BitVec.ofNat 32 (f (0x04C + 32 * i) 4),
      pendPc := w64 (f (0x050 + 32 * i) 8), join := joinAt (f (0x058 + 32 * i) 8) }
  let queued := decide (f 0x2D 1 / 4 % 2 = 1) && decide (f 0x38 8 % 2 ^ 11 ≠ 0)
  { done := BitVec.ofNat 32 (f 0x14 4), age := f 0x30 4,
    claim := if queued then some (f 0x38 8 % 2 ^ 11, f 0x38 8 / 2 ^ 11) else none,
    wait := if f 0x2D 1 / 2 % 2 = 1 then .trap else if queued then .claim else .none,
    helping := f 0x6D8 8,
    lanes := ((List.range 32).filter (fun l => decide (f (0x700 + 8 * l) 8 ≠ 0) || decide (f (0x800 + 8 * l) 8 ≠ 0))).map (fun l =>
      (l, { family := f (0x700 + 8 * l) 8, depth := depth, join := joinAt (f (0x800 + 8 * l) 8), originLane := f (0x800 + 8 * l) 8 % 32 })),
    pc := w64 (f 0 8), path := BitVec.ofNat 32 (f 8 4), exited := BitVec.ofNat 32 (f 0xC 4), present := BitVec.ofNat 32 (f 0x10 4),
    mode := w64 (f 0x18 8), status := w64 (f 0x20 8), regCount := regs, tokens := (List.range (min 8 (f 0x2C 1))).map tok,
    s := (List.range 128).foldl (fun m r => kput 0 r (w64 (f (0x140 + 8 * r) 8)) m) [],
    m := (List.range 8).foldl (fun m r => if r = 0 then m else kput 0 r (BitVec.ofNat 32 (f (0x540 + 4 * r) 4)) m) [],
    xa := { x := BitVec.ofNat 2176 (f 0x560 272), nan := f 0x670 1 % 2 = 1, pinf := f 0x670 1 / 2 % 2 = 1, ninf := f 0x670 1 / 4 % 2 = 1,
            ovf := f 0x670 1 / 8 % 2 = 1 },
    cbA := BitVec.ofNat 256 (f 0x680 32), cbB := BitVec.ofNat 256 (f 0x6A0 32),
    v := ((List.range (32 * min regs (f 0x028 2))).filterMap (fun k =>
      let x := w64 (f (0x900 + 8 * k) 8)
      if x = 0 then none else some (k, x))) }

/-- Read a launch image through the tenant's tables with RD permission: the image, or the cause with its INFO words and how many bytes have been
read (R282). -/
def readLaunch (s : State) (tenant img regs lsKib depth : Nat) : Except (Trap × Nat) LaunchImage :=
  let who : Who := { tenant := tenant }
  match checkRange s who img 256 { rd := true } with
  | some e => .error (e.trap, 0)
  | none =>
    let h : BitVec 2048 := BitVec.ofNat 2048 (leNat (rdVa s who img 256))
    match (launchBad h).min? with
    | some b => .error ({ cause := .recordInvalid, info0 := w64 img, info1 := w64 b }, 256)
    | none =>
      match checkRange s who img (bitsAt h 0 31) { rd := true } with
      | some e => .error (e.trap, 256)
      | none =>
        let secs := dirEntries h
        let sec (ty : Nat) : Nat × Nat := (((secs.find? (fun e => e.1 = ty)).map (·.2)).getD (0, 0))
        let b := rdVa s who (img + (sec 1).1) (sec 1).2
        match (blockBad (sec 1).1 b).min? with
        | some k => .error ({ cause := .recordInvalid, info0 := w64 img, info1 := w64 k }, bitsAt h 0 31)
        | none =>
          let ls := (rdVa s who (img + (sec 2).1) (min (sec 2).2 (1024 * lsKib))).mapIdx (fun i x => (i, x))
          let tg := (rdVa s who (img + (sec 3).1) (min (sec 3).2 (32 * lsKib))).mapIdx (fun i x => (i, x))
          .ok { wave := templateWave b regs depth, ls := ls.filter (fun p => p.2 ≠ 0),
                tags := tg.flatMap (fun p => ((List.range 8).filter (fun j => p.2.getLsbD j)).map (fun j => (8 * p.1 + j, true))) }

/-- The waves of a group from its template: WAVEID, ROLE and `s0` of each (R20, R25, R282). -/
def launchWaves (x : Group) (t : Wave) : List (Nat × Wave) :=
  (List.range x.nwaves).map (fun i =>
    (keyOf x.gid i, { wrS t 0 x.arg with waveid := i, role := bitsAt x.roleMap (2 * i) 2, regCount := x.regs,
                                          key := { seq := x.seq, groupid := x.groupid, waveid := i } }))

/-- Park a group faulted before any instruction has run: PC 0, LANES 0, PARK its reservation (R282). -/
def parkLaunch (s : State) (gid : Nat) (t : Trap) : State :=
  match s.group? gid with
  | none => s
  | some x =>
    let r : Record := { cause := t.cause, core := x.core?.getD x.lastCore, tenant := x.tenant, seq := x.seq, gid := gid,
                        crew := decide (1 < x.crew), park := x.img, info0 := t.info0, info1 := t.info1 }
    let s := errorRecord s (x.ring.getD 0) r
    let s := s.setGroup gid { x with place := .faulted t.cause, lastCore := x.core?.getD x.lastCore, launchFault := true, faultWave := keyOf gid 0,
                                     faultPc := 0, faultLen := 0, fetchFault := false }
    countFaults s gid

/-- A group on a core takes its waves from its launch image (R282, R304). -/
def fillGroup (s : State) (gid : Nat) : State :=
  match s.group? gid with
  | none => s
  | some x =>
    match readLaunch s x.tenant x.image.toNat x.regs x.lsKib x.depth with
    | .error (t, n) => parkLaunch (touchRange s x.tenant x.image.toNat n false) gid t
    | .ok i =>
      let s := touchRange s x.tenant x.image.toNat (leNat (rdVa s { tenant := x.tenant } x.image.toNat 4) % 2 ^ 31) false
      let s := s.setGroup gid { x with ls := i.ls, lsTags := i.tags, launchFault := false }
      (launchWaves x i.wave).foldl (fun s p =>
        let s := s.setWave p.1 p.2
        match p.2.claim with
        | some c => queueClaim s (x.core?.getD 0) p.1 c.2
        | none => s) s

/-- The group of a task with a `groupid`, as the launch record describes it (R20, R21, R263). -/
def groupOf (t : Task) (gid groupid core : Nat) (img : Word) : Group :=
  { gid := gid, seq := t.seq, groupid := groupid, tenant := t.tenant, ring := some t.ring, prio := recPrio t, part := recPart t,
    replay := recReplay t, matrix := decide (0 < recAcc t), lsKib := recLs t, accKib := recAcc t, depth := t.depth, crew := recCrew t,
    rank := groupid % recCrew t, crewLead := groupid / recCrew t * recCrew t, nwaves := recWaves t, regs := recRegs t, image := recImage t,
    roleMap := recRole t, arg := recArg t, chain := t.chain, place := .resident core, lastCore := core, img := img }

/-- START A GROUP (R306): the next `groupid` of a task on a core. Its first access follows its task's release as a device-scope acquire does
(R91, R304). -/
def startGroup (s : State) (t : Task) (groupid core : Nat) (img : Word) : State :=
  let gid := s.nextGid
  fillGroup (({ roInvalidate s core with nextGid := gid + 1 } : State).setGroup gid (groupOf t gid groupid core img)) gid

/-! ### Resources -/

/-- What a group needs of a core. -/
structure Want where
  waves : Nat := 1
  regs : Nat := 0
  ls : Nat := 0
  acc : Nat := 0
  matrix : Bool := false
  deriving DecidableEq, Repr

def coreFits (s : State) (c : Nat) (w : Want) : Bool :=
  decide (w.waves ≤ freeSlots s c) && decide (w.regs ≤ freeRegs s c) && decide (w.ls ≤ freeLs s c) && decide (w.acc ≤ freeAcc s c) &&
    !(w.matrix && (residents s c).any (fun p => p.2.matrix))
def taskWant (t : Task) : Want :=
  { waves := recWaves t, regs := recWaves t * recRegs t, ls := recLs t, acc := recAcc t, matrix := decide (0 < recAcc t) }
def groupWant (s : State) (gid : Nat) (g : Group) : Want :=
  { waves := if g.launchFault then g.nwaves else ((s.wavesOf gid).filter (fun p => !p.2.ended)).length,
    regs := g.nwaves * g.regs + g.took,
    ls := match g.origin with
      | .continuation _ => 0
      | _ => g.lsKib,
    acc := g.accKib, matrix := g.matrix }
/-- Whether PART admits an available core's partition; a strip-chain task runs on its chain's cores alone (R47, R309, R317). -/
def partAdmits (s : State) (c part : Nat) (chain : Option Nat) : Bool :=
  coreAvail s c && (part == 2 || part == (s.core c).part) && (match chain with
    | some h => (s.core c).chains.contains h
    | none => true)
/-- Whether an agent may place a group on a core (R306, R317): its partition and holder admit it, and it is not MOVING. -/
def coreAdmits (s : State) (c part : Nat) (chain : Option Nat) : Bool :=
  partAdmits s c part chain && (chain.isSome || (!(s.core c).moving && (s.core c).chains.isEmpty))

/-! ### Restoring (R270, R285, R288) -/

/-- A wave as restore leaves it: its waits end, and the instruction issues again from its start (R241); a wave parked in `trap` stays
parked, a claim waits again. Its stall count, its place after a `yield` and its starvation stand until it issues (R125, R185, R312). -/
def restoredWave (keepHelp : Bool) (w : Wave) : Wave :=
  let keep := w.wait == .trap || w.wait == .claim || (decide (w.helping ≠ 0) && keepHelp)
  { w with wait := if keep then w.wait else .none, grant := false, evicted := false, heldRegs := 0,
           helping := if keepHelp then w.helping else 0 }

/-- Put a saved group on a core: its transfers continue there, its feeds refill from READ, its claims re-enter the queue. An adoption chain
stays as it is on the same core, and wherever a captured core's waves are restored (R52, R295); elsewhere a waiter only retests (R288). -/
def restoreGroup (s : State) (gid core : Nat) : State :=
  match s.group? gid with
  | none => s
  | some x =>
    let s := roInvalidate (s.setGroup gid { x with place := .resident core, lastCore := core, homing := false, overdue := false }) core
    if x.launchFault then fillGroup s gid
    else
      let same := decide (x.lastCore = core) || x.place == .captured
      let s := if same then s else (s.wavesOf gid).foldl (fun s p => if p.2.helping ≠ 0 then dropHelper s p.1 else s) s
      let s : State := { s with
        waves := s.waves.map (fun (p : Nat × Wave) => if gidOf p.1 = gid then (p.1, restoredWave same p.2) else p)
        xfers := s.xfers.map (fun (p : Nat × Xfer) => if p.2.gid = gid then (p.1, { p.2 with core := core }) else p) }
      if (s.wavesOf gid).all (fun p => p.2.ended) then endGroup s gid false
      else (s.wavesOf gid).foldl (fun s p => match p.2.claim with
        | some c => queueClaim s core p.1 c.2
        | none => s) s

/-! ### Eviction (R286, R287, R52) -/

/-- Groups linked by adoption to some groups, in either direction. -/
def chainLinks (s : State) (gs : List Nat) : List Nat :=
  (s.groups.filter (fun p => match p.2.helper with
    | some h => gs.contains p.1 || gs.contains (gidOf h)
    | none => false)).map (·.1)
def chainOf (s : State) : Nat → List Nat → List Nat
  | 0, gs => gs
  | n + 1, gs =>
    let links := chainLinks s gs
    let more := (links ++ links.filterMap (fun g => ((s.group? g).bind (·.helper)).map gidOf)).filter (fun g => !gs.contains g)
    if more.isEmpty then gs else chainOf s n (gs ++ more.eraseDups)
/-- Dissolve the adoption chain a group belongs to (R52): every helper will retest, every owner stands on its own. -/
def dissolveChain (s : State) (g : Nat) : State :=
  (chainOf s (s.groups.length + 1) [g]).foldl (fun s q => match (s.group? q).bind (·.helper) with
    | some h => (freeHelper s h).modGroup q (fun x => { x with helper := none, adepth := 0 })
    | none => s) s

/-- Dissolve the chains of a group and of its continuation groups, which leave the core with it (R35, R52). -/
def dissolveChains (s : State) (g : Nat) : State :=
  (g :: (s.groups.filter (fun p => p.2.origin == .continuation g)).map (·.1)).foldl dissolveChain s

/-- Evict a group whole as KIND 1, with its crew and with its continuation waves (R35, R265, R287). -/
def evictGroup (s : State) (g : Nat) : State :=
  (parkSet s g).foldl (fun s q => stowContinuations (stowGroup (dissolveChains s q) q .saved) q) s

/-- Take one wave off its core: its results complete, and its registers are free (R28, R287, R305). -/
def stowWave (s : State) (k : Nat) : State :=
  let s := s.modCore (coreOf s k) (fun c => { c with freed := c.freed + 1 })
  match s.group? (gidOf k) with
  | some g => s.modWave k (fun w => { w.settle with evicted := true, watch := watchOf s g (gidOf k) w })
  | none => s

/-- Evict a wave alone as part of a KIND 4 image (R287); the waves left may all wait in the claim queue (R29). -/
def evictWave (s : State) (k : Nat) : State :=
  let s := stowWave (dissolveChain s (gidOf k)) k
  let s := writeImage s (gidOf k) 4 (((s.wavesOf (gidOf k)).filter (fun p => p.2.evicted)).map (·.2)) none
  breakDeadlock s (coreOf s k) (gidOf k)

/-- Victims on a core among some groups, in order: lowest PRIO, highest sequence number, highest `groupid` (R287). -/
def victims (s : State) (c : Nat) (ok : Group → Bool) : List (Nat × Group) :=
  let before (a b : Group) : Bool :=
    decide (a.prio < b.prio) || (a.prio == b.prio && (decide (b.seq < a.seq) || (a.seq == b.seq && decide (b.groupid ≤ a.groupid))))
  sortBy (fun a b => before a.2 b.2) ((residents s c).filter (fun p => p.2.chain.isNone && !p.2.agent && ok p.2))

/-- Waves of a victim evicted one by one, highest `waveid` first, until the need is met. -/
def evictWaves (c : Nat) (w : Want) : List (Nat × Wave) → State → State
  | [], s => s
  | (k, x) :: r, s => if coreFits s c w then s else evictWaves c w r (if x.ended || x.evicted then s else evictWave s k)

/-- Evict as much as incoming work needs (R287): of a victim its waves, where the work needs registers alone; else the victim whole, also where
the work needs a wave slot or a free matrix place (log 91). -/
def evictFor (c : Nat) (w : Want) : List (Nat × Group) → State → State
  | [], s => s
  | (g, x) :: r, s =>
    if coreFits s c w then s
    else
      let onlyRegs := decide (w.waves ≤ freeSlots s c) && decide (w.ls ≤ freeLs s c) && decide (w.acc ≤ freeAcc s c) && !w.matrix
      let s := if onlyRegs && !x.matrix && decide (x.crew ≤ 1) then evictWaves c w (s.wavesOf g).reverse s else evictGroup s g
      evictFor c w r s

/-- Restore the waves of a KIND 4 image whose registers are free again (R305): lowest `waveid` first. -/
def restoreWave (s : State) (k : Nat) : State := s.modWave k (restoredWave true)
/-- The first evicted wave of a core that could be restored now; its tenant is within its budgets, in whose use its group's share stands
(R305, R321; log 97). -/
def partialReady (s : State) (c : Nat) : Option Nat :=
  (s.waves.find? (fun p => p.2.evicted && decide (p.2.helping = 0) && (match s.group? (gidOf p.1) with
    | some g => g.core? == some c && (g.chain.isSome || budgetOk s g.tenant 0 0)
    | none => false) && decide (p.2.regCount - p.2.heldRegs ≤ freeRegs s c) && decide (1 ≤ freeSlots s c))).map (·.1)

/-! ### The ready set (R305) -/

/-- A member of the ready set: the next groups of a task, or a saved image. -/
inductive Cand where
  | start (q : Nat) | image (g : Nat)
  deriving DecidableEq, Repr

/-- Tags of the words a tagged wait covers. -/
def tagsAre (s : State) (l : Loc) (two full : Bool) : Bool := rdTag s l == full && (!two || rdTag s (l.plus 4) == full)

/-- Whether what a saved wave waits for has come about, or the object it waits on has changed (R305, Table 13.14). Bits [55:0] of its wait argument are the address; bit 56 is
the tag state or the phase it needs, bit 57 marks a 64-bit word. -/
def waitReady (s : State) (k : Nat) (w : Wave) : Bool :=
  let who := whoOf s k
  let a := w.waitArg.toNat % 2 ^ 56
  let flag := w.waitArg.getLsbD 56
  let met : Bool := match w.wait with
    | .tag => match resolve s who a 4 {} with
      | .ok l => tagsAre s l (w.waitArg.getLsbD 57) flag
      | .error _ => true
    | .lock => decide (leNat (rdVa s who a 8) / 2 ^ 62 ≠ 1)
    | .dqPush =>
      let q := dqAt s who a
      decide ((dqWord s who q.resv + 2 ^ 32 - dqWord s who q.free) % 2 ^ 32 < q.slots)
    | .dqPop => decide (dqWord s who (a + 8) ≠ dqWord s who (a + 4))
    | .joinFamily =>
      let x := leNat (rdVa s who a 8)
      decide (famOut x = 0) || (decide (famFaults x ≠ 0) && decide (famOut x = famFaults x))
    | .bo => decide (leNat (rdVa s who a 8) / 2 ^ 63 ≠ (if flag then 1 else 0))
    | .claim => decide ((s.core (coreOf s k)).freed ≠ w.watch) || !coreAvail s (coreOf s k) ||
      ((s.group? (gidOf k)).map (·.place)) == some .captured
    | _ => true
  let ended : Bool := decide (w.ownerEnd ≠ 0) || w.grant || (match waitOwner s who w.wait a with
    | some (.task q) => w.wait.helps && (ownerState s q == .faulted || ownerState s q == .done)
    | _ => false)
  let changed : Bool := match s.group? (gidOf k) with
    | some g => w.wait.helps && decide (watchOf s g (gidOf k) w ≠ w.watch)
    | none => false
  (met || ended || changed) && (decide (w.helping = 0) || w.grant)

/-- Whether a saved group is in the ready set (R305): it is not when every wave of it waits for something that has not changed. A
continuation group waits for its origin group (R35). -/
def imageReady (s : State) (gid : Nat) (g : Group) : Bool :=
  let saved : Bool := match g.place with
    | .saved | .captured => true
    | _ => false
  let ws := (s.wavesOf gid).filter (fun p => !p.2.ended)
  saved && (g.launchFault || ws.any (fun p => waitReady s p.1 p.2)) && (match g.origin with
    | .continuation o => ((s.group? o).bind (·.core?)).isSome
    | _ => true)

/-- Members of a crew, by rank. -/
def crewOf (s : State) (g : Group) : List (Nat × Group) :=
  sortBy (fun a b => decide (a.2.rank ≤ b.2.rank))
    (s.groups.filter (fun p => p.2.seq == g.seq && p.2.crewLead == g.crewLead && p.2.origin == .grid))
/-- Whether an image is a member of the ready set: a group's, or a crew's through its lowest rank left, when any member of it is ready; the
crew is restored as a unit (R265). -/
def imageListed (s : State) (gid : Nat) (g : Group) : Bool :=
  if g.crew ≤ 1 then imageReady s gid g
  else
    let ms := crewOf s g
    ((ms.head?.map (·.1)) == some gid) && ms.any (fun m => imageReady s m.1 m.2) && ms.all (fun m => match m.2.place with
      | .saved | .captured => true
      | _ => false)

def Cand.prio (s : State) : Cand → Nat
  | .start q => ((s.task? q).map recPrio).getD 0
  | .image g => ((s.group? g).map (·.prio)).getD 0
/-- The order of R305: PRIO, sequence number, images first, `groupid`. -/
def Cand.key (s : State) : Cand → Nat × Nat × Nat × Nat
  | .start q => (7 - Cand.prio s (.start q), q, 1, ((s.task? q).map (·.next)).getD 0)
  | .image g => (7 - Cand.prio s (.image g), ((s.group? g).map (·.seq)).getD 0, 0, ((s.group? g).map (·.groupid)).getD 0)
def keyLe (a b : Nat × Nat × Nat × Nat) : Bool :=
  decide (a.1 < b.1) || (a.1 == b.1 && (decide (a.2.1 < b.2.1) || (a.2.1 == b.2.1 && (decide (a.2.2.1 < b.2.2.1) ||
    (a.2.2.1 == b.2.2.1 && decide (a.2.2.2 ≤ b.2.2.2))))))
def readySet (s : State) : List Cand :=
  let ts := (s.tasks.filter (fun p => p.2.state == .ready && decide (p.2.next < recGroups p.2))).map (fun p => Cand.start p.1)
  let is := (s.groups.filter (fun p => imageListed s p.1 p.2)).map (fun p => Cand.image p.1)
  sortBy (fun a b => keyLe (Cand.key s a) (Cand.key s b)) (ts ++ is)

/-! ### What an agent can place (R306 to R308) -/

/-- Whether a core can take one group of a task now. -/
def canStart (s : State) (c : Nat) (t : Task) : Bool :=
  coreAdmits s c (recPart t) t.chain && coreFits s c (taskWant t) && poolRoom s c .ready 1 &&
    (t.chain.isSome || budgetOk s t.tenant (shareOf (decide (0 < recAcc t)) (recWaves t) (recRegs t) (recLs t) (recAcc t)) 0) &&
    (imgReserve s t.ring (recLs t) (recAcc t)).isSome
/-- Whether a core has what a saved group needs. -/
def takesBack (s : State) (c gid : Nat) (g : Group) : Bool :=
  coreAdmits s c g.part g.chain && coreFits s c (groupWant s gid g) && poolRoom s c .ready 1
/-- Whether a core can take a saved group now; a waiter that R48 saved goes back to its own core while that core can take it (R288). -/
def canRestore (s : State) (c gid : Nat) (g : Group) : Bool :=
  (!g.homing || decide (c = g.lastCore) || !takesBack s g.lastCore gid g) &&
  coreAdmits s c g.part g.chain && coreFits s c (groupWant s gid g) && poolRoom s c .ready 1 &&
    (g.chain.isSome || budgetOk s g.tenant (groupShare g) 0) && (match g.origin with
      | .continuation o => ((s.group? o).bind (·.core?)) == some c
      | _ => true)
/-- The cores of a core's cluster on which some crew members can each be placed, ascending: the first n, if the core is the cluster's lowest
(R308). -/
def crewCores (s : State) (c n : Nat) (ok : Nat → Bool) : Option (List Nat) :=
  let cs := (clusterCores s (c / 8)).filter ok
  if n ≤ cs.length ∧ (clusterCores s (c / 8)).head? = some c then some (cs.take n) else none
/-- Cores of a list for the members of a crew, in rank order: each member on the first core after the one before it that can take it. -/
def crewMatch (s : State) (free : Nat → Bool) : List Nat → List (Nat × Group) → Option (List Nat)
  | _, [] => some []
  | [], _ :: _ => none
  | c :: cs, m :: ms => if free c && canRestore s c m.1 m.2 then (crewMatch s free cs ms).map (c :: ·) else crewMatch s free cs (m :: ms)
/-- Whether a whole crew passes its tenant's budget and its reservations can be made, before any of it starts (R284, R308, R321). -/
def crewStarts (s : State) (t : Task) : Bool :=
  (t.chain.isSome || budgetOk s t.tenant (recCrew t * shareOf (decide (0 < recAcc t)) (recWaves t) (recRegs t) (recLs t) (recAcc t)) 0) &&
    imgRoom s t.ring (imgNeed (recLs t) (recAcc t)) (recCrew t) (imgTaken s t.ring)
/-- The same for a crew that is restored. -/
def crewRestores (s : State) (x : Group) : Bool := x.chain.isSome || budgetOk s x.tenant (((crewOf s x).map (fun m => groupShare m.2)).sum) 0
/-- Whether a saved crew may be restored in a cluster: its own, or another when its own has too few cores (R16, R285). -/
def crewCluster (s : State) (g : Group) (k : Nat) : Bool :=
  decide (g.lastCore / 8 = k) || decide ((clusterCores s (g.lastCore / 8)).length < (crewOf s g).length)

/-- How a candidate can be placed through a core's agent on cores that meet a test: the cores taken, in rank order. -/
def placeOn (s : State) (free : Nat → Bool) (c : Nat) : Cand → Option (List Nat)
  | .start q => match s.task? q with
    | none => none
    | some t =>
      if recCrew t ≤ 1 then (if free c && canStart s c t then some [c] else none)
      else if crewStarts s t then crewCores s c (recCrew t) (fun k => free k && canStart s k t) else none
  | .image g => match s.group? g with
    | none => none
    | some x =>
      if x.crew ≤ 1 then (if free c && canRestore s c g x then some [c] else none)
      else if crewCluster s x (c / 8) && ((clusterCores s (c / 8)).head? == some c) && crewRestores s x then
        crewMatch s free (clusterCores s (c / 8)) (crewOf s x)
      else none
/-- A core takes no new group while it can restore a KIND 4 image (R305). -/
def restFree (s : State) (c : Nat) : Bool := (partialReady s c).isNone
/-- How a candidate can be placed through a core's agent. -/
def placeAt (s : State) (c : Nat) (x : Cand) : Option (List Nat) := placeOn s (restFree s) c x

/-- Since when a candidate waits: it became ready, or a group of its task was last placed (`restImages`). -/
def Cand.since (s : State) : Cand → Nat
  | .start q => ((s.task? q).map (·.readyAt)).getD 0
  | .image g => ((s.group? g).map (·.readyAt)).getD 0
def Cand.part (s : State) : Cand → Nat
  | .start q => ((s.task? q).map recPart).getD 2
  | .image g => ((s.group? g).map (·.part)).getD 2
/-- A candidate that has waited PRE_WAIT_US with no core able to place it (R307). -/
def overdue (s : State) (x : Cand) : Bool :=
  decide (Cand.since s x + s.devCfg.preWaitUs * 1000 * 2 ^ 32 ≤ s.time) && (List.range 256).all (fun c => (placeAt s c x).isNone)
/-- A candidate that has been overdue and has not been placed since (R307). -/
def Cand.marked (s : State) : Cand → Bool
  | .start q => ((s.task? q).map (·.overdue)).getD false
  | .image g => ((s.group? g).map (·.overdue)).getD false
/-- An image that is not in the ready set does not wait for a place (R307). -/
def restImages (s : State) : State :=
  { s with groups := s.groups.map (fun (p : Nat × Group) => if p.2.core?.isNone && !imageListed s p.1 p.2 then (p.1, { p.2 with readyAt := s.time }) else p) }
/-- Mark the candidates that are overdue (R307). -/
def markOverdue (s : State) : State :=
  ((readySet s).filter (overdue s)).foldl (fun s x => match x with
    | .start q => s.modTask q (fun t => { t with overdue := true })
    | .image g => s.modGroup g (fun x => { x with overdue := true })) s
/-- Whether an overdue candidate of higher PRIO bars a candidate on a core, until it is placed (R307). -/
def barred (s : State) (c : Nat) (x : Cand) : Bool :=
  (readySet s).any (fun y => decide (Cand.prio s x < Cand.prio s y) && (Cand.part s y == 2 || Cand.part s y == (s.core c).part) &&
    (Cand.marked s y || overdue s y))
/-- The first candidate, in R305's order, that a core's agent can place (R307). -/
def pick (s : State) (c : Nat) : Option (Cand × List Nat) :=
  (readySet s).findSome? (fun x => match placeAt s c x with
    | some cs => if barred s c x then none else some (x, cs)
    | none => none)

/-- The claims of groups that have come onto their cores are served, and a deadlock among them is broken (R28, R29). -/
def settleGroups (s : State) (gs : List Nat) : State :=
  gs.foldl (fun s g => match (s.group? g).bind (·.core?) with
    | some c => settleClaims s c g
    | none => s) s

/-- Place a candidate on its cores: groups start with consecutive `groupid` values, or images are restored; then their claims are served. -/
def place (s : State) (x : Cand) (cs : List Nat) : State :=
  match x with
  | .start q =>
    settleGroups (cs.foldl (fun s c => match s.task? q with
      | none => s
      | some t => match imgReserve s t.ring (recLs t) (recAcc t) with
        | none => s
        | some a =>
          let begun := if t.next = 0 then s.draw else t.started
          startGroup (s.modTask q (fun t => { t with next := t.next + 1, readyAt := s.time, overdue := false, started := begun })) t t.next c a) s)
      ((List.range cs.length).map (· + s.nextGid))
  | .image g => match s.group? g with
    | none => s
    | some x =>
      let ms := (if x.crew ≤ 1 then [(g, x)] else crewOf s x).zip cs
      settleGroups (ms.foldl (fun s p => restoreGroup s p.1.1 p.2) s) (ms.map (·.1.1))

/-! ### Gathering (R35, R40) -/

/-- Whether two waiting threads may share a wave. -/
def gathers (a b : Thread) : Bool :=
  a.seq == b.seq && a.core == b.core && a.entry == b.entry && a.cont == b.cont &&
    (!a.cont || (a.originGroup == b.originGroup && a.regs == b.regs && decide (a.s = b.s) && decide (a.mode = b.mode)))

/-- Mark the first n waiting threads that gather with a given one as a batch to launch. -/
def markBatch (s : State) (t : Thread) (n : Nat) : State :=
  let r : List Thread × Nat := s.threads.foldl (fun (a : List Thread × Nat) x =>
    if x.batch.isNone && gathers t x && decide (0 < a.2) then (a.1 ++ [{ x with batch := some s.nextBatch }], a.2 - 1) else (a.1 ++ [x], a.2)) ([], n)
  { s with threads := r.1, nextBatch := s.nextBatch + 1 }

/-- Full waves among the waiting threads are launched, oldest threads first. -/
def formFull : Nat → State → State
  | 0, s => s
  | n + 1, s =>
    match s.threads.find? (fun t => t.batch.isNone && decide (32 ≤ (s.threads.filter (fun x => x.batch.isNone && gathers t x)).length)) with
    | some t => formFull n (markBatch s t 32)
    | none => s
/-- Partial waves of every waiting thread that meets a test are launched. -/
def formPartial (ok : Thread → Bool) : Nat → State → State
  | 0, s => s
  | n + 1, s =>
    match s.threads.find? (fun t => t.batch.isNone && ok t) with
    | some t => formPartial ok n (markBatch s t 32)
    | none => s
/-- After threads have joined a core's queues: full waves, and partial waves when the spawn queue is at its cap (R40). -/
def gather (s : State) (c : Nat) : State :=
  let s := formFull (s.threads.length + 1) s
  if (s.core c).spawnP.qcap ≤ heldOf s c .spawn then formPartial (fun t => t.core = c && !t.cont) (s.threads.length + 1) s else s

def ageLe (a b : AgeKey) : Bool :=
  decide (a.seq < b.seq) || (a.seq == b.seq && (decide (a.groupid < b.groupid) || (a.groupid == b.groupid && decide (a.waveid ≤ b.waveid))))

/-- The wave of a batch (R35, R39, R311): lane i is thread i. Its exact accumulator, codebook tables and `status` start at 0, as a launched
wave's do (log 76). -/
def gatheredWave (ts : List Thread) : Wave :=
  let full := maskOf (fun l => decide (l < ts.length))
  let t0 := ts.head?
  let cont := (t0.map (·.cont)).getD false
  let key := (ts.map (·.key)).foldl (fun a b => if ageLe a b then a else b) ((t0.map (·.key)).getD {})
  let w : Wave := { path := full, present := full, pc := (t0.map (·.entry)).getD 0, regCount := (t0.map (·.regs)).getD 8, key := key,
                    s := if cont then (t0.map (·.s)).getD [] else [], mode := if cont then (t0.map (·.mode)).getD 0 else 0 }
  let w := (ts.mapIdx (fun l t => (l, t))).foldl (fun (w : Wave) (p : Nat × Thread) =>
    { (p.2.v.foldl (fun w q => wrV w q.1 p.1 q.2) w) with
      lanes := kset p.1 { p.2.info with blocks := if p.2.cont then p.2.info.blocks else 0 } w.lanes }) w
  if !cont then w
  else { w with m := (List.range 8).foldl (fun m r =>
    if r = 0 then m else kput 0 r (maskOf (fun l => ((ts[l]?).map (fun t => (kget 0 r t.m).getLsbD t.info.originLane)).getD false)) m) [] }

/-- Start a batch as a one-wave group on a core (R40, R221), as the start of any group does (R91, R304); its `role` is that of `waveid` 0 (R25). A
continuation wave of a matrix group is no matrix group's wave: its own group has no accumulator space (R242; log 105). -/
def startGathered (s : State) (b core : Nat) (img : Word) : State :=
  let ts := s.threads.filter (fun t => t.batch == some b)
  match ts.head? with
  | none => s
  | some t0 =>
    match s.task? t0.seq with
    | none => s
    | some t =>
      let gid := s.nextGid
      let w := { gatheredWave ts with role := bitsAt (recRole t) 0 2 }
      let g : Group := { groupOf t gid w.key.groupid core img with
        replay := false, matrix := decide (0 < t0.accKib), lsKib := t0.lsKib, accKib := t0.accKib, crew := 0, rank := 0, crewLead := 0,
        depth := (ts.map (·.info.depth)).foldl max 0, nwaves := 1, regs := t0.regs, image := 0, arg := 0,
        origin := if t0.cont then .continuation t0.originGroup else .gathered }
      ({ roInvalidate s core with nextGid := gid + 1, threads := s.threads.filter (fun t => t.batch != some b) }.setGroup gid g).setWave (keyOf gid 0) w

/-- Where the gather unit places a batch (R40, R305, R309), behind a KIND 4 image that its core restores first: the spawning core, or the next cores
of its cluster in the same partition; a continuation wave only on its origin group's core. -/
def gatherCore (s : State) (b : Nat) : Option (Nat × Word) :=
  match s.threads.find? (fun t => t.batch == some b) with
  | none => none
  | some t0 =>
    match s.task? t0.seq with
    | none => none
    | some t =>
      let w : Want := { regs := t0.regs, ls := t0.lsKib, acc := t0.accKib, matrix := decide (0 < t0.accKib) }
      let cl := t0.core / 8 * 8
      let cs := if t0.cont then (((s.group? t0.originGroup).bind (·.core?)).map (fun c => [c])).getD []
        else (List.range 8).map (fun i => cl + (t0.core % 8 + i) % 8)
      let share := shareOf w.matrix 1 t0.regs 0 0
      match imgReserve s t.ring t0.lsKib t0.accKib with
      | none => none
      | some a =>
        if t.chain.isNone && !budgetOk s t.tenant share 0 then none
        else (cs.find? (fun c => (t0.cont || partAdmits s c (s.core t0.core).part t.chain) && coreAvail s c && coreFits s c w &&
          (partialReady s c).isNone)).map (fun c => (c, a))

end Sys2Proof.Machine
end

