-- ==== Sys2Proof/Machine/Help.lean ====
section
/-! DEFINITION. Waiting means helping (R45 to R53, R240): the end of a helping wait, the walk of the chain of helpers, and adoption. -/

set_option linter.unusedVariables false

namespace Sys2Proof.Machine

/-- What a helping wait's owner makes of it at an issue or retest: status 1 or 2 when the owner is FAULTED or its end was reported
(Table 3.2, R53, R200, R222). -/
def waitEnd (s : State) (k : Nat) (w : Wave) (wait : Wait) (addr : Nat) : Option Nat :=
  if w.ownerEnd ≠ 0 then some w.ownerEnd
  else match waitOwner s (whoOf s k) wait addr with
    | some (.task q) => if ownerState s q = .faulted then some 1 else none
    | _ => none

/-- The lookup behind the end of a wait removes a record that names a retired task (R232); a wait whose owner's end was reported makes none. -/
def sweepEnd (s : State) (k : Nat) (w : Wave) (addr : Nat) : State := if w.ownerEnd ≠ 0 then s else ownSweep s (tenantOf s k) addr

/-- Complete a helping wait with a status (R184). -/
def endHelp (w : Wave) (code : Nat) : Wave := { w with status := w64 code, ownerEnd := 0, helping := 0 }

/-- The tasks of a waiter's chain of helpers, the waiter's own first (R49). -/
def helperTasks (s : State) : Nat → Nat → List Nat
  | 0, _ => []
  | n + 1, k =>
    match s.group? (gidOf k) with
    | none => []
    | some g => g.seq :: (match g.helper with
      | some h => helperTasks s n h
      | none => [])

/-- A group's adoption depth (R47). -/
def adeptOf (s : State) (k : Nat) : Nat := ((s.group? (gidOf k)).map (·.adepth)).getD 0

/-- What adopting an owner would start: a task's only group, its saved image, the evicted waves of a group that its core holds (R285, R287), or a
batch with a spawned thread. -/
inductive Adopt where
  | start (t : Task) (img : Word) | image (g : Nat) | waves (g : Nat) | thread (i : Nat) (img : Word)
  deriving Repr

/-- The waves of a group that stand evicted alone and help no owner (R287). -/
def evictedWaves (s : State) (g : Nat) : List (Nat × Wave) :=
  (s.wavesOf g).filter (fun p => p.2.evicted && !p.2.ended && decide (p.2.helping = 0))
/-- Whether a wave could go on if its owner's group came onto a core: its wait, if it has one, is over, and it is not parked in `trap` (R50). -/
def couldRun (s : State) (p : Nat × Wave) : Bool := !p.2.ended && p.2.wait != .trap && waitReady s p.1 p.2

/-- What the owner needs of the core. -/
def Adopt.want (s : State) : Adopt → Want
  | .start t _ => taskWant t
  | .image g => ((s.group? g).map (groupWant s g)).getD {}
  | .waves g => { waves := (evictedWaves s g).length, regs := ((evictedWaves s g).map (fun p => p.2.regCount - p.2.heldRegs)).sum }
  | .thread i _ => ((s.threads[i]?).map (fun h => ({ regs := h.regs, ls := h.lsKib, acc := h.accKib, matrix := decide (0 < h.accKib) } : Want))).getD {}

/-- Whether the waiter's wave alone holds its group: then its image is the group's (log 35). A member of a crew leaves its core only with its
crew (R265). -/
def soleWave (s : State) (k : Nat) : Bool :=
  ((s.wavesOf (gidOf k)).filter (fun p => !p.2.ended)).length == 1 && decide (((s.group? (gidOf k)).map (·.crew)).getD 0 ≤ 1)

/-- Free the waiter's registers for its owner (R48, R288; log 35): a KIND 1 image with HELPING set, of the whole group with its continuation
waves (R35) where no other wave of it is left, of the wave alone otherwise. -/
def saveWaiter (s : State) (k : Nat) : State :=
  let g := gidOf k
  if soleWave s k then (stowContinuations (stowGroup s g .saved) g).modGroup g (fun x => { x with homing := true })
  else
    let s := stowWave s k
    match s.group? g, s.wave? k with
    | some x, some w =>
      let lay := imgLayout [waveSec x [w]]
      if x.ring.isNone then s else wrFields s x.tenant x.img.toNat lay.1 (imgHeader s x 1 lay.1 1 false 0 ++ lay.2)
    | _, _ => s

/-- The share that saving the waiter releases of its tenant's use (R47): its group's, and that of the continuation waves that go with it. -/
def releaseShare (s : State) (k : Nat) : Nat :=
  let g := gidOf k
  if soleWave s k then
    ((s.groups.filter (fun p => p.1 == g || (p.2.origin == .continuation g && p.2.core?.isSome))).map (fun p => groupShare p.2)).sum
  else 0

/-- Whether an owner fits on the waiter's core: as it is, or with the waiter's registers added (R48, step 2); a free wave slot, and no
resident matrix group beside a matrix owner, are asked for as R306 asks for them (log 79). -/
def ownerFits (s : State) (k : Nat) (w : Want) : Option Bool :=
  let c := coreOf s k
  if coreFits s c w then some false
  else if coreFits (s.modWave k (fun w => { w with evicted := true })) c w then some true
  else none

/-- The budget test of R47 and R321 for an owner; a strip chain's is not gated. -/
def ownerBudget (s : State) (k : Nat) (chain : Option Nat) (share : Nat) (w : Want) : Bool :=
  chain.isSome || budgetOk s (tenantOf s k) share (if coreFits s (coreOf s k) w then 0 else releaseShare s k)

/-- The conditions of R47 on an owner: what adopting it would start. -/
def adoptable (s : State) (k : Nat) (o : Owner) : Option Adopt :=
  let c := coreOf s k
  let ten := tenantOf s k
  let pass (chain : Option Nat) (share : Nat) (a : Adopt) : Option Adopt := if ownerBudget s k chain share (Adopt.want s a) then some a else none
  if 4 ≤ adeptOf s k then none
  else match o with
    | .thread i => match s.threads[i]? with
      | none => none
      | some h => match s.task? h.seq with
        | none => none
        | some t =>
          if t.tenant ≠ ten ∨ partAdmits s c (recPart t) t.chain = false then none
          else match imgReserve s t.ring h.lsKib h.accKib with
            | none => none
            | some img => pass t.chain (shareOf (decide (0 < h.accKib)) 1 h.regs 0 0) (.thread i img)
    | .task q => match s.task? q with
      | none => none
      | some t =>
        if recGroups t ≠ 1 ∨ recCrew t ≠ 1 ∨ t.tenant ≠ ten ∨ partAdmits s c (recPart t) t.chain = false then none
        else match ownerState s q with
          | .unstarted =>
            if t.state ≠ .ready then none
            else match imgReserve s t.ring (recLs t) (recAcc t) with
              | none => none
              | some img => pass t.chain (shareOf (decide (0 < recAcc t)) (recWaves t) (recRegs t) (recLs t) (recAcc t)) (.start t img)
          | .parked => match (taskGroups s q).head? with
            | none => none
            | some (g, x) =>
              if !(x.launchFault || (s.wavesOf g).any (couldRun s)) then none
              else if imageReady s g x then pass x.chain (groupShare x) (.image g)
              else if x.core? = some c ∧ (evictedWaves s g).any (couldRun s) then pass x.chain 0 (.waves g)
              else none
          | _ => none

/-- The batch of a spawned thread: its own, or one of it and up to 31 others that gather with it (R237). -/
def markThread (s : State) (i : Nat) : State × Nat :=
  match s.threads[i]? with
  | none => (s, 0)
  | some t => match t.batch with
    | some b => (s, b)
    | none =>
      let b := s.nextBatch
      let s := markBatch { s with threads := s.threads.set i { t with batch := some b } } t 31
      ({ s with threads := s.threads.map (fun x => if x.batch == some b then { x with batch := some (b + 1) } else x), nextBatch := b + 2 }, b + 1)

/-- Record an adoption (R48, step 3). An owner that has faulted at its launch ends the wait (R51); one that has ended already resumes it. -/
def linkOwner (s : State) (k g d : Nat) : State :=
  let c := coreOf s k
  let s := s.modCore c (fun x => { x with adoptions := x.adoptions + 1 })
  match s.group? g with
  | none => freeHelper s k
  | some x =>
    if x.faultedHere then failHelper s k
    else s.setGroup g { x with helper := some k, adepth := d + 1 }

/-- An owner that has come onto its core: its claims are served, and it is parked again where nothing of it runs (R28, R29, R50). -/
def settleOwner (s : State) (g : Nat) : State := parkBlockedOwner (settleGroups s [g]) (keyOf g 0)

/-- ADOPTION (R48): the owner starts or is restored on the waiter's core, with the waiter as its helper. The waves that saving the waiter
leaves may all wait in the claim queue (R29). -/
def adopt (s : State) (k : Nat) (a : Adopt) (save : Bool) : State :=
  let c := coreOf s k
  let d := adeptOf s k
  let q := match a with
    | .start t _ => t.seq
    | .image g | .waves g => ((s.group? g).map (·.seq)).getD 0
    | .thread i _ => ((s.threads[i]?).map (·.seq)).getD 0
  let s := s.modWave k (fun w => { w with helping := q })
  let s := if save then saveWaiter s k else s
  let s := match a with
    | .start t img =>
      let g := s.nextGid
      settleOwner (linkOwner (startGroup (s.modTask t.seq (fun t => { t with next := 1, overdue := false, started := s.draw })) t 0 c img) k g d) g
    | .image g => settleOwner (linkOwner (restoreGroup s g c) k g d) g
    | .waves g => settleOwner (linkOwner ((evictedWaves s g).foldl (fun s p => restoreWave s p.1) s) k g d) g
    | .thread i img =>
      let r := markThread s i
      let g := s.nextGid
      linkOwner (startGathered r.1 r.2 c img) k g d
  if save then breakDeadlock s c (gidOf k) else s

/-- Begin, or begin again, a helping wait whose condition does not hold (R46 to R50): adopt the owner where R47 admits it and it fits, sleep
otherwise; HELP_CYCLE where the walk finds the owner's task (R49). The low 56 bits of the argument are the address. -/
def helpWait (s : State) (k : Nat) (wait : Wait) (arg : Word) : Res :=
  let addr := arg.toNat % 2 ^ 56
  let s := ownSweep s (tenantOf s k) addr
  match waitOwner s (whoOf s k) wait addr with
  | none => .wait wait arg s
  | some o =>
    let found := adoptable s k o
    let cycle : Option Nat := match o with
      | .task q =>
        let st := ownerState s q
        let walk : Bool := found.isSome || (decide (0 < adeptOf s k) && st != .done && st != .faulted)
        if walk && (helperTasks s 5 k).contains q then some q else none
      | .thread _ => none
    match cycle with
    | some q => .trap { cause := .helpCycle, info0 := w64 q, info1 := w64 (adeptOf s k) } s
    | none => match found with
      | none => .wait wait arg s
      | some a => match ownerFits s k (Adopt.want s a) with
        | none => .wait wait arg s
        | some sv => .wait wait arg (adopt (startWait s k wait arg) k a sv)

end Sys2Proof.Machine
end

