-- ==== Sys2Proof/Machine/Control.lean ====
section
/-! DEFINITION. Class 0: branches, divergence by the token stack, ejection, rejoining, calls, exit, break and nop (R30 to R36, R153 to
R160, R114). -/

set_option linter.unusedVariables false

namespace Sys2Proof.Machine

/-- A branch target (R153, R131). -/
def tgtOf (pc : Word) : Tgt → Word
  | .short c => pc + 4 * c.signExtend 64
  | .far v => pc + sext32 v
/-- The condition mask (R153). -/
def condOf (w : Wave) (neg : Bool) (c : BitVec 3) : LaneMask := if neg then ~~~ rdM w c.toNat else rdM w c.toNat
/-- REJOIN of a divergent branch (R131, R155). -/
def rejOf (pc : Word) (rej : BitVec 22) : Word := pc + 4 * rej.signExtend 64

def misaligned (a : Word) (size : Nat) : Trap := { cause := .misaligned, info0 := a, info1 := w64 size }

/-! ### Ending lanes and waves -/

/-- Whether a group is a continuation wave's, and a lane's data. -/
def isCont (s : State) (k : Nat) : Bool :=
  match s.group? (gidOf k) with
  | some g => match g.origin with
    | .continuation _ => true
    | _ => false
  | none => false
def laneInfo (w : Wave) (l : Nat) : LaneInfo := kget {} l w.lanes

/-- A spawned lane's exit decrements its family (R41). -/
def laneFamilyExit (s : State) (k l : Nat) : State :=
  match s.wave? k, s.group? (gidOf k) with
  | some w, some g =>
    let f := (laneInfo w l).family
    if f = 0 then s
    else (familyUpdate s (g.ring.getD 0) g.tenant f (famAddOut (-1)) { cause := .pageNotPresent, seq := g.seq, gid := gidOf k, core := coreOf s k }).1
  | _, _ => s

/-- The exit of a continuation lane passes along the chain of its origins (R159): the object it counts in is decremented, its origin lane
exits in turn. -/
def contLaneExit : Nat → State → Nat → Nat → State
  | 0, s, _, _ => s
  | n + 1, s, k, l =>
    match s.wave? k with
    | none => s
    | some w =>
      let i := laneInfo w l
      let s := s.modWave k (fun w => { w with lanes := kset l { i with blocks := 0, join := none } w.lanes })
      let s := match i.join with
        | some j => subJoin s (joinEnd s (s.joins.length + 1) j) 1
        | none => s
      let s := s.modWave i.originWave (fun w => { w with exited := w.exited ||| maskOf (fun x => x == i.originLane) })
      if isCont s i.originWave then contLaneExit n s i.originWave i.originLane else laneFamilyExit s i.originWave i.originLane

/-- A crew member ends while another has issued an operation it has not (R264): the lowest rank still to issue it, and the operation. -/
def crewExitBad (s : State) (g : Group) : Option (Nat × Nat) :=
  let ms := (crewOf s g).filter (fun p => p.2.crew = g.crew)
  let n := g.crewOps + 1
  if g.origin = .grid ∧ 1 < g.crew ∧ (ms.any (fun p => decide (n ≤ p.2.crewOps)) || g.crewGone.any (fun q => decide (n ≤ q.2.1))) = true then
    (ms.find? (fun p => decide (p.2.crewOps < n))).map (fun p => (p.1, n))
  else none
/-- Raise CREW_MISMATCH on a member that has not issued the operation: on its lowest resident wave (R264). -/
def crewMismatchUnissued (s : State) (gid n : Nat) : State :=
  match s.group? gid, (s.wavesOf gid).find? (fun p => !p.2.ended && !p.2.evicted) <|> (s.wavesOf gid).find? (fun p => !p.2.ended) <|> (s.wavesOf gid).head? with
  | some g, some p => takeTrap s p.1 0 { cause := .crewMismatch, info0 := w64 g.rank, info1 := w64 n }
  | _, _ => s

/-- A WAVE ENDS (R26, R159): its slot and registers are free, its tiles go; with the last one the group exits (R293), and an adopted owner of which
it was the last continuation wave to run is parked (R50). -/
def waveEnd (s : State) (k : Nat) : State :=
  match s.wave? k, s.group? (gidOf k) with
  | some w, some g =>
    let gid := gidOf k
    let s := s.setWave k { w with ended := true, path := 0, tiles := [], fixed := [], pend := [], regCount := 0, v := [] }
    if (s.wavesOf gid).all (fun p => p.2.ended) then
      match crewExitBad s g with
      | some (m, n) => crewMismatchUnissued s m n
      | none => parkBlockedOwner (endGroup s gid false) (keyOf (originGroup s gid) 0)
    else
      let s := s.modGroup gid (fun x => { x with budgetFree := x.budgetFree + w.regCount })
      let c := coreOf s k
      parkBlockedOwner (settleClaims (wakeEngine s c) c gid) k
  | _, _ => s

/-- Pop the top token: the entry mask less exited lanes, at REJOIN + 8 (R34, R158, R159). -/
def popToken (s : State) (k : Nat) : State :=
  match s.wave? k with
  | none => s
  | some w => match w.top? with
    | none => s
    | some t => gcJoins (s.setWave k { w.pop with path := t.entry &&& ~~~ w.exited, pc := t.rejoin + 8 }) t.join

/-- The loop of R159: while no lane is on the path, pending paths run and tokens pop; the wave waits for a join count, or ends. -/
def exitLoop : Nat → State → Nat → State
  | 0, s, _ => s
  | n + 1, s, k =>
    match s.wave? k with
    | none => s
    | some w =>
      if w.path ≠ 0 then s
      else match w.top? with
        | none => waveEnd s k
        | some t =>
          if t.pend ≠ 0 then
            exitLoop n (s.setWave k { (w.setTop { t with pend := 0 }) with path := t.pend &&& ~~~ w.exited, pc := t.pendPc }) k
          else if joinCount s t.join ≠ 0 then s.setWave k { w.settle with wait := .joinCount, waitArg := 1, decl := 0 }
          else exitLoop n (popToken s k) k
def exitFuel (s : State) (k : Nat) : Nat := 2 * ((s.wave? k).map (·.tokens.length)).getD 0 + 2

/-- The lanes of the current path end (R159). -/
def exitPath (s : State) (k : Nat) : State :=
  match s.wave? k with
  | none => s
  | some w =>
    let ls := lanesOf w.path
    let s := s.setWave k { w with exited := w.exited ||| w.path, path := 0 }
    ls.foldl (fun s l => if isCont s k then contLaneExit (s.waves.length + 1) s k l else laneFamilyExit s k l) s

/-- A continuation lane returns (R35): its vector registers go to its origin lane, the count falls, the lane leaves the wave. -/
def returnLane (s : State) (k l : Nat) : State :=
  match s.wave? k with
  | none => s
  | some w =>
    let i := laneInfo w l
    let s := s.modWave i.originWave (fun o =>
      (List.range (min w.regCount o.regCount)).foldl (fun o r => wrV o r i.originLane (rdV w r l)) o)
    let s := match i.join with
      | some j => subJoin s j 1
      | none => s
    let b := maskOf (fun x => x == l)
    s.setWave k { w with path := w.path &&& ~~~ b, present := w.present &&& ~~~ b, lanes := kdel l w.lanes }

/-- `rejoin` in a continuation wave whose own stack is empty (R35), lane by lane. -/
def rejoinLane (p : Word) (k : Nat) (s : State) (l : Nat) : State :=
  match s.wave? k with
  | none => s
  | some w => match (laneInfo w l).join with
    | none => s
    | some j =>
      let o := joinObj s j
      if o.rejoin ≠ p then s
      else match o.forward with
        | some t => s.setWave k { w with lanes := kset l { laneInfo w l with join := some t } w.lanes }
        | none => returnLane s k l

/-- The body of `rejoin` (R34, R35, R158). A wait for the join count keeps the stall count of the instruction in its argument (R125). -/
def rejoinBody (stall : BitVec 4) (s : State) (k : Nat) (w : Wave) : Res :=
  let w := { w.settle with decl := 0 }
  let s := s.setWave k w
  match w.top? with
  | none =>
    if !isCont s k then .ok s
    else
      let s := gcJoins ((lanesOf w.path).foldl (rejoinLane w.pc k) s) none
      match s.wave? k with
      | some x => if x.path = 0 then .jump (exitLoop (exitFuel s k) s k) else .ok s
      | none => .ok s
  | some t =>
    if t.rejoin ≠ w.pc then .ok s
    else if t.pend &&& ~~~ w.exited ≠ 0 then
      .jump (s.setWave k { (w.setTop { t with pend := 0 }) with path := t.pend &&& ~~~ w.exited, pc := t.pendPc })
    else
      let s := s.setWave k (w.setTop { t with pend := 0 })
      if joinCount s t.join ≠ 0 then .wait .joinCount (w64 (2 * stall.toNat)) s
      else .jump (let s := popToken s k
                  exitLoop (exitFuel s k) s k)

/-! ### Branches -/

/-- `br` and `brx` (R154): a uniform condition. -/
def uniformBranch (neg : Bool) (c : BitVec 3) (target : Wave → Except Trap Word) (s : State) (k : Nat) (w : Wave) : Res :=
  let t := condOf w neg c &&& w.path
  if t = w.path then
    match target w with
    | .ok pc => .jump (s.setWave k { w with pc := pc })
    | .error e => .trap e s
  else if t = 0 then .ok s
  else .trap { cause := .branchDivergent, info0 := t.zeroExtend 64 } s

/-- The minority of a split: the smaller set, the taken set when they are equal (R32). -/
def minorityTaken (t f : LaneMask) : Bool := decide (popMask t ≤ popMask f)

/-- Eject the minority of a split and continue with the majority (R32, R33, R156): `full` is a full stack, whose ejection counts in the
top token's object; else a token with a new object is pushed. -/
def ejectSplit (full : Bool) (rejoin target next : Word) (t f : LaneMask) (s : State) (k : Nat) (w : Wave) : Res :=
  let taken := minorityTaken t f
  let out := if taken then t else f
  let stay := if taken then f else t
  let n := popMask out
  let c := coreOf s k
  let seq := ((s.group? (gidOf k)).map (·.seq)).getD 0
  match grantBlocks s c seq .cont n (contBlocks w) with
  | .overflow need => .trap { cause := .spawnOverflow, info0 := w64 need, info1 := w64 (((s.task? seq).map recQocc).getD 0) } s
  | .wait => .wait .segment (segArg .cont n (contBlocks w)) s
  | .places ps =>
    let w := { w.settle with decl := 0 }
    let s := s.setWave k w
    let p : State × Nat :=
      if full then
        (match topJoin s k with
         | (s, some top) => (let r := newJoin s { rejoin := rejoin, forward := some top }
                             (addJoin r.1 top n, r.2))
         | (s, none) => newJoin s { count := n, rejoin := rejoin })
      else
        (let r := newJoin s { count := n, rejoin := rejoin }
         (r.1.setWave k { w with tokens := w.tokens ++ [{ rejoin := rejoin, entry := w.path, join := some r.2 }] }, r.2))
    let s := ejectLanes p.1 k out (if taken then target else next) p.2 ps
    .jump (gather (s.modWave k (fun x => { x with path := stay, pc := if taken then next else target })) c)

/-- `br.div` (R155). -/
def divBody (neg : Bool) (c : BitVec 3) (rej : BitVec 22) (tgt : Tgt) (len : Nat) (s : State) (k : Nat) (w : Wave) : Res :=
  let t := condOf w neg c &&& w.path
  let f := w.path &&& ~~~ t
  let target := tgtOf w.pc tgt
  let next := w.pc + w64 len
  let x := { w.settle with decl := 0 }
  if w.tokens.length < 8 then
    let tok : Token := { rejoin := rejOf w.pc rej, entry := w.path }
    if t ≠ 0 then .jump (s.setWave k { x with tokens := w.tokens ++ [{ tok with pend := f, pendPc := next }], path := t, pc := target })
    else .jump (s.setWave k { x with tokens := w.tokens ++ [tok], path := f, pc := next })
  else if t = 0 ∨ f = 0 then .jump (s.setWave k { x with pc := if t ≠ 0 then target else next })
  else ejectSplit true (rejOf w.pc rej) target next t f s k w

/-- `br.ej` (R156). -/
def ejBody (neg : Bool) (c : BitVec 3) (rej : BitVec 22) (tgt : Tgt) (len : Nat) (s : State) (k : Nat) (w : Wave) : Res :=
  let t := condOf w neg c &&& w.path
  let f := w.path &&& ~~~ t
  let target := tgtOf w.pc tgt
  let next := w.pc + w64 len
  let full := decide (8 ≤ w.tokens.length)
  if t = 0 ∨ f = 0 then
    let x := { w.settle with decl := 0, pc := if t ≠ 0 then target else next }
    .jump (s.setWave k (if full then x else { x with tokens := w.tokens ++ [{ rejoin := rejOf w.pc rej, entry := w.path }] }))
  else ejectSplit full (rejOf w.pc rej) target next t f s k w

/-- A spec without predicate (R153). -/
def spec0 (len : Nat) (stall : BitVec 4) (opnds : List Opnd) (reads : List RegRef) : Spec :=
  { len := len, stall := stall.toNat, opnds := opnds, reads := reads, lat := some 0 }
def condRead (c : BitVec 3) : List RegRef := if c = 0 then [] else [.m c.toNat]

/-- `br` (R154). -/
def execBr (f : BrF) (s : State) : Host.Outcome State Fault Refusal :=
  issue (spec0 (tgtLen f.tgt) f.stall [] (condRead f.cond)) (uniformBranch f.neg f.cond (fun w => .ok (tgtOf w.pc f.tgt))) s

/-- `br.div` (R155, R31, R33). -/
def execBrDiv (f : BrDF) (s : State) : Host.Outcome State Fault Refusal :=
  issue (spec0 (tgtLen f.tgt) f.stall [] (condRead f.cond)) (divBody f.neg f.cond f.rej f.tgt (tgtLen f.tgt)) s

/-- `br.ej` (R156, R32, R33). -/
def execBrEj (f : BrDF) (s : State) : Host.Outcome State Fault Refusal :=
  issue (spec0 (tgtLen f.tgt) f.stall [] (condRead f.cond)) (ejBody f.neg f.cond f.rej f.tgt (tgtLen f.tgt)) s

/-- `brx` (R154, R114). -/
def execBrx (f : BrxF) (s : State) : Host.Outcome State Fault Refusal :=
  issue (spec0 8 f.stall [sOp f.a] (condRead f.cond)) (uniformBranch f.neg f.cond (fun w =>
    let a := rdS w f.a.toNat
    if a.toNat % 4 ≠ 0 then .error (misaligned a 4) else .ok a)) s

/-- `call` (R157). -/
def execCall (f : CallF) (s : State) : Host.Outcome State Fault Refusal :=
  issue (spec0 (tgtLen f.tgt) f.stall [sOp f.d 1 true] []) (fun s k w =>
    .jump (s.setWave k { wrS w f.d.toNat (w.pc + w64 (tgtLen f.tgt)) with pc := tgtOf w.pc f.tgt })) s

/-- `ret` (R157, R114). -/
def execRet (f : RetF) (s : State) : Host.Outcome State Fault Refusal :=
  issue (spec0 8 f.stall [sOp f.a] []) (fun s k w =>
    let a := rdS w f.a.toNat
    if a.toNat % 4 ≠ 0 then .trap (misaligned a 4) s else .jump (s.setWave k { w with pc := a })) s

/-- An adopted owner whose wave has come, between two states, to wait for a join count or in `trap` is parked where nothing of it runs (R50). -/
def parkJoined (s : State) (k : Nat) (t : State) : State :=
  match s.wave? k, t.wave? k with
  | some v, some w => if w.wait ≠ v.wait ∧ (w.wait = .joinCount ∨ w.wait = .trap) then parkBlockedOwner t k else t
  | _, _ => t
/-- The same over an instruction of the current wave. -/
def afterBlock (s : State) (r : Host.Outcome State Fault Refusal) : Host.Outcome State Fault Refusal :=
  match r, s.cur with
  | .next t, some k => .next (parkJoined s k t)
  | r, _ => r

/-- `rejoin` (R34, R35, R158). -/
def execRejoin (f : NopF) (s : State) : Host.Outcome State Fault Refusal :=
  afterBlock s (issue (spec0 8 f.stall [] []) (rejoinBody f.stall) s)

/-- `brk` (R160): BREAKPOINT with the code. -/
def execBrk (f : BrkF) (s : State) : Host.Outcome State Fault Refusal :=
  issue (spec0 8 f.stall [] []) (fun s k w => .trap { cause := .breakpoint, info0 := f.code.zeroExtend 64 } s) s

/-- `exit` (R159). -/
def execExit (f : NopF) (s : State) : Host.Outcome State Fault Refusal :=
  afterBlock s (issue (spec0 8 f.stall [] []) (fun s k w => .jump (let s := exitPath s k
                                                                   exitLoop (exitFuel s k) s k)) s)

/-- `nop` (R160): its stall count alone. -/
def execNop (f : NopF) (s : State) : Host.Outcome State Fault Refusal :=
  issue (spec0 8 f.stall [] []) (fun s k w => .ok s) s

end Sys2Proof.Machine
end

