-- ==== Sys2Proof/Machine/System.lean ====
section
/-! DEFINITION. Class 13: user traps, `mode`, time, special registers, `yield`, sleeping and counters (R180 to R186, R292). -/

set_option linter.unusedVariables false

namespace Sys2Proof.Machine

/-- The system-call record (Table 17.6), as two 64-byte entries of the stream (log 29). -/
def syscallBits (s : State) (w : Wave) (g : Group) (rpc : Word) (code : BitVec 16) : BitVec 1024 :=
  packBits 1024 ([(0, 16, code.toNat), (16, 6, g.tenant), (64, 64, rpc.toNat), (128, 64, (g.img + w64 w.waveid).toNat), (192, 64, g.seq)] ++
    (List.range 8).map (fun i => (256 + 64 * i, 64, (rdS w i).toNat)))

/-- The system-call ring of a function: its lowest-numbered stream of KIND 2 (log 29). -/
def syscallStream (s : State) (func : Nat) : Option Nat :=
  (List.range 64).find? (fun n => match kfind (streamKey func n) s.streams with
    | some st => st.kind == 2
    | none => false)

/-- Park a wave in `trap` and give its record to the system-call ring (R180, R292). -/
def userTrap (code : BitVec 16) (len : Nat) (s : State) (k : Nat) (w : Wave) : Res :=
  match s.group? (gidOf k) with
  | none => .ok s
  | some g =>
    let r := syscallBits s w g (w.pc + w64 len) code
    let q := s.ring (g.ring.getD 0)
    let s := s.setWave k { w.settle with wait := .trap }
    .ok (match syscallStream s q.func with
      | some n => streamEntry (streamEntry s q.func n (r.extractLsb' 0 512) false) q.func n (r.extractLsb' 512 512) false
      | none => s)

/-! ### Privileged registers (R183, R299, R394) -/

/-- `core_cfg` (Table 19.2), `part_state` (Table 19.3). -/
def coreCfgWord (c : Core) : Word := packBits 64 [(0, 16, c.starveM1), (16, 16, c.quantumM1), (32, 16, c.gatherM1)]
def partStateWord (c : Core) : Word := packBits 64 [(0, 1, c.part), (1, 1, b2n c.moving), (2, 1, b2n (!c.chains.isEmpty))]
/-- A pool register (Table 19.4). -/
def poolWord (s : State) (c : Nat) (q : PoolQ) : Word :=
  let p := (s.core c).pool q
  packBits 64 [(0, 12, p.qmin), (16, 12, p.qcap), (32, 12, heldOf s c q)]
/-- `fe_cfg`, `seg_cfg`, `bal_cfg` (Tables 19.5 to 19.7). -/
def feCfgWord (s : State) : Word := packBits 64 [(0, 32, s.devCfg.slice), (32, 16, s.devCfg.preWaitUs)]
def segCfgWord (s : State) : Word := packBits 64 [(0, 16, s.devCfg.segLimit), (32, 16, segUsed s)]
def balCfgWord (s : State) : Word := packBits 64 [(0, 9, s.devCfg.computeMin), (16, 8, s.devCfg.rclust), (24, 8, s.devCfg.leadUs)]
/-- A budget or a use register (Table 19.8). -/
def budgetWord (b : Budget) : Word := packBits 64 [(0, 19, b.units), (32, 16, b.bw), (48, 16, b.pwr)]
/-- `thermal` (Table 25.5). -/
def thermalWord (s : State) : Word := packBits 64 [(0, 2, s.devCfg.throttle), (16, 16, s.devCfg.tmax), (32, 16, s.devCfg.powerW)]

/-- A privileged register as a core's agent slot reads it: of that core where it is per core, 0 where the index is not listed (R183, Table 19.1,
R394). -/
def privValue (s : State) (c idx : Nat) : Word :=
  if idx = 0x100 then coreCfgWord (s.core c)
  else if idx = 0x101 then partStateWord (s.core c)
  else if idx = 0x102 then poolWord s c .spawn
  else if idx = 0x103 then poolWord s c .cont
  else if idx = 0x104 then poolWord s c .copy
  else if idx = 0x105 then poolWord s c .ready
  else if idx = 0x108 then feCfgWord s
  else if idx = 0x109 then segCfgWord s
  else if idx = 0x10A then balCfgWord s
  else if 0x140 ≤ idx ∧ idx < 0x180 then budgetWord (budgetOf s (idx - 0x140))
  else if 0x180 ≤ idx ∧ idx < 0x1C0 then budgetWord { useOf s (idx - 0x180) with units := unitsUsed s (idx - 0x180) }
  else if idx = 0x200 then thermalWord s
  else 0

/-- A special register of `csr.get`: those of Table 11.6, and from 0x100 the privileged ones. -/
def csrValue (s : State) (k : Nat) (w : Wave) (idx : Nat) : Word :=
  if 0x100 ≤ idx then privValue s (coreOf s k) idx
  else match s.group? (gidOf k) with
  | none => 0
  | some g =>
    match idx with
    | 0x000 => w64 w.role
    | 0x001 => w64 w.waveid
    | 0x002 => w64 g.groupid
    | 0x003 => w.status
    | 0x004 => w64 g.seq
    | 0x005 => w64 (coreOf s k)
    | 0x006 => w64 g.depth
    | 0x007 => w64 w.regCount
    | 0x009 => w64 g.tenant
    | 0x010 => s.caps.dev
    | 0x011 => s.caps.cluster.getD 0 0
    | 0x012 => s.caps.cluster.getD 1 0
    | 0x013 => s.caps.cluster.getD 2 0
    | 0x014 => s.caps.cluster.getD 3 0
    | 0x015 => s.caps.spare
    | _ => 0

/-- A counter (Table 11.8). -/
def perfValue (s : State) (k : Nat) (w : Wave) (ev : Nat) : Word :=
  let c := s.core (coreOf s k)
  match ev with
  | 0x000 => w64 w.perfResident
  | 0x001 => w64 w.perfIssued
  | 0x002 => w64 w.perfHeld
  | 0x010 => w64 s.cycle
  | 0x011 => w64 c.issued
  | 0x020 => w64 c.pathChanges
  | 0x021 => w64 c.fixups
  | 0x022 => w64 c.ejected
  | 0x023 => w64 c.adoptions
  | 0x024 => w64 c.claimsQueued
  | _ => 0

/-- A spec of class 13. -/
def specSys (len : Nat) (stall : BitVec 4) (opnds : List Opnd) : Spec := { len := len, stall := stall.toNat, opnds := opnds, lat := some 4 }

/-- `trap` (R180, R292). -/
def execTrap (f : TrapF) (s : State) : Host.Outcome State Fault Refusal :=
  afterBlock s (issue { specSys 12 f.stall [] with reads := (List.range 8).map RegRef.s } (userTrap f.code 12) s)

/-- `mode.set` (R181, R101): a reserved bit of the value raises RESERVED_FIELD with REASON 1. -/
def execModeSet (f : SysSF) (s : State) : Host.Outcome State Fault Refusal :=
  issue (specSys 8 f.stall [sOp f.a]) (fun s k w =>
    let v := rdS w f.a.toNat
    match modeBad v with
    | some b => .trap { cause := .reservedField, reason := 1, info0 := infoParcels (encode (.modeSet f)), info1 := w64 b } s
    | none => .ok (s.setWave k { w with mode := v })) s

/-- `mode.get` (R181). -/
def execModeGet (f : SysDF) (s : State) : Host.Outcome State Fault Refusal :=
  issue (specSys 8 f.stall [sOp f.d 1 true]) (onWave (fun w => .ok (wrS w f.d.toNat w.mode))) s

/-- `time.get` (R182): nanoseconds and fraction of one sample. -/
def execTimeGet (f : SysDF) (s : State) : Host.Outcome State Fault Refusal :=
  issue (specSys 8 f.stall [sOp f.d 2 true]) (fun s k w =>
    .ok (s.setWave k (wrS (wrS w f.d.toNat (w64 s.ns)) (f.d.toNat + 1) (w64 s.frac)))) s

/-- `csr.get` (R183): index 8 writes lane numbers into a vector register; indices from 0x100 are privileged, and read by the agent slot. -/
def execCsrGet (f : SysIF) (s : State) : Host.Outcome State Fault Refusal :=
  let idx := f.idx.toNat
  if idx = 8 then
    issue (specSys 8 f.stall [vOp f.d 1 true]) (onWave (fun w => .ok (wrLanes w f.d.toNat w.path (fun l => w64 l)))) s
  else
    issue { specSys 8 f.stall [sOp f.d 1 true] with priv := if 0x100 ≤ idx then some idx else none }
      (fun s k w => .ok (s.setWave k (wrS w f.d.toNat (csrValue s k w idx)))) s

/-- `yield` (R185, R311): the youngest of its class until its next instruction, later yields before earlier ones. -/
def execYield (f : NopF) (s : State) : Host.Outcome State Fault Refusal :=
  issue (specSys 8 f.stall []) (fun s k w => .ok ({ s with nextYield := s.nextYield + 1 }.setWave k { w with yielded := some s.nextYield })) s

/-- `sleep.until` (R185): waits until the time counter reaches S[a]. -/
def execSleepUntil (f : SysSF) (s : State) : Host.Outcome State Fault Refusal :=
  issue (specSys 8 f.stall [sOp f.a]) (fun s k w =>
    let t := rdS w f.a.toNat
    if t.toNat ≤ s.ns then .ok s else .wait .sleep t s) s

/-- `perf.get` (R186). -/
def execPerfGet (f : SysIF) (s : State) : Host.Outcome State Fault Refusal :=
  issue (specSys 8 f.stall [sOp f.d 1 true]) (fun s k w => .ok (s.setWave k (wrS w f.d.toNat (perfValue s k w f.idx.toNat)))) s

end Sys2Proof.Machine
end

