-- ==== Sys2Proof/Machine/LoadStore.lean ====
section
/-! DEFINITION. Class 7, loads, stores and prefetch (R190, R193 to R197), and the read-only path (R90, R91). -/

set_option linter.unusedVariables false

namespace Sys2Proof.Machine

/-- Lane addresses of Active, ascending (R190). -/
def laneAddrs (w : Wave) (mask : BitVec 3) (a : Field11) (o : Off) : List (Nat × Nat) :=
  (lanesOf (activeOf w mask)).map (fun l => (l, addrOf (rdV w a.toNat l) o))
/-- Local lane addresses: 32-bit offsets in the local window (R190). -/
def localAddrs (w : Wave) (mask : BitVec 3) (a : Field11) (o : Off) : List (Nat × Nat) :=
  (lanesOf (activeOf w mask)).map (fun l =>
    (l, 0xFF000000000000 + ((rdV w a.toNat l).extractLsb' 0 32 + (offVal o).extractLsb' 0 32).toNat))

/-- The acquire of a MEM word with SEM 1, 3 or 4 (R191, R91). One of device scope or wider empties the read-only cache on a local-store location
too, which R72 says acts at group scope (log 100). -/
def semAcquire (s : State) (k : Nat) (m : MemW) : State :=
  match m.sem with
  | .acq | .ar | .sc => acquire s (coreOf s k) m.scp
  | _ => s

/-- A spec of classes 7 to 10: destinations are scoreboarded (R192). -/
def specM (h : Hd) (len : Nat) (opnds : List Opnd) : Spec := specH h len opnds none

/-- A vector load (R193): all lanes pass R60 or none is performed. -/
def loadBody (h : Hd) (d : Field11) (m : MemW) (xs : Wave → List (Nat × Nat)) (s : State) (k : Nat) (w : Wave) : Res :=
  let n := m.ty.width / 8
  match checkLanes s (whoOf s k) (xs w) n n needRd .plain with
  | .error t => .trap t s
  | .ok ls =>
    let w' := ls.foldl (fun (w : Wave) p => wrV w d.toNat p.1 (extTy m.ty (rdN s p.2.2 n))) w
    .ok (semAcquire (touchLanes (s.setWave k w') (tenantOf s k) ls false) k m)

/-- A vector store (R194, R69): the highest lane's value stands. -/
def storeBody (b : Field11) (m : MemW) (xs : Wave → List (Nat × Nat)) (s : State) (k : Nat) (w : Wave) : Res :=
  let n := m.ty.width / 8
  match checkLanes s (whoOf s k) (xs w) n n needWr .plain with
  | .error t => .trap t s
  | .ok ls => .ok (ls.foldl (fun s p => wrN s p.2.2 n (rdV w b.toNat p.1).toNat) (touchLanes s (tenantOf s k) ls true))

/-- The 64-byte line a place lies in, and the place's offset in it. -/
def Loc.line : Loc → Loc × Nat
  | .ext a => (.ext (a / 64 * 64), a % 64)
  | .shm a => (.shm (a / 64 * 64), a % 64)
  | .host a => (.host (a / 64 * 64), a % 64)
  | .peer d t o => (.peer d t (o / 64 * 64), o % 64)
  | .ls g o => (.ls g (o / 64 * 64), o % 64)

/-- An aligned value through the read-only cache of a core (R59, R90, R91, R196, log 6): a part of the line the cache holds, or of the line
in memory, which it then holds. -/
def roRead (s : State) (core tenant since va : Nat) (l : Loc) (n : Nat) : State × Nat :=
  if noCache s tenant va then (s, rdN s l n)
  else
    let r := cacheRead s (s.core core).roCache since l.line.1 64
    (s.modCore core (fun c => { c with roCache := r.1 }), leNat ((r.2.drop l.line.2).take n))

/-- `ld.ro` (R196). -/
def loadRoBody (h : Hd) (d : Field11) (m : MemW) (xs : Wave → List (Nat × Nat)) (s : State) (k : Nat) (w : Wave) : Res :=
  let n := m.ty.width / 8
  match checkLanes s (whoOf s k) (xs w) n n needRd .plain with
  | .error t => .trap t s
  | .ok ls =>
    let c := coreOf s k
    let ten := tenantOf s k
    let since := roSince s w.key.seq
    let r : State × Wave := ls.foldl (fun (a : State × Wave) p =>
      let v := roRead a.1 c ten since p.2.1 p.2.2 n
      (v.1, wrV a.2 d.toNat p.1 (extTy m.ty v.2))) (touchLanes s ten ls false, w)
    .ok (r.1.setWave k r.2)

/-- A scalar load (R195). -/
def loadScalar (d a : Field11) (m : MemW) (o : Off) (s : State) (k : Nat) (w : Wave) : Res :=
  let n := m.ty.width / 8
  let va := addrOf (rdS w a.toNat) o
  match checkOne s (whoOf s k) va n n needRd .plain with
  | .error e => .trap e.trap s
  | .ok l => .ok (semAcquire (touch (s.setWave k (wrS w d.toNat (extTy m.ty (rdN s l n)))) (tenantOf s k) va false) k m)

/-- A scalar store (R195). -/
def storeScalar (a b : Field11) (m : MemW) (o : Off) (s : State) (k : Nat) (w : Wave) : Res :=
  let n := m.ty.width / 8
  let va := addrOf (rdS w a.toNat) o
  match checkOne s (whoOf s k) va n n needWr .plain with
  | .error e => .trap e.trap s
  | .ok l => .ok (wrN (touch s (tenantOf s k) va true) l n (rdS w b.toNat).toNat)

/-- `ld` (R193). -/
def execLd (f : LdF) (s : State) :
    Host.Outcome State Fault Refusal :=
  issue (specM f.h (offLen f.off) [vOp f.d 1 true, vOp f.a]) (loadBody f.h f.d f.mem (fun w => laneAddrs w f.h.mask f.a f.off)) s

/-- `st` (R194). -/
def execSt (f : StF) (s : State) :
    Host.Outcome State Fault Refusal :=
  issue (specM f.h (offLen f.off) [vOp f.a, vOp f.b]) (storeBody f.b f.mem (fun w => laneAddrs w f.h.mask f.a f.off)) s

/-- `ld.ro` (R196, R90). -/
def execLdRo (f : LdF) (s : State) :
    Host.Outcome State Fault Refusal :=
  issue (specM f.h (offLen f.off) [vOp f.d 1 true, vOp f.a]) (loadRoBody f.h f.d f.mem (fun w => laneAddrs w f.h.mask f.a f.off)) s

/-- `ld.s` (R195). -/
def execLdS (f : LdF) (s : State) :
    Host.Outcome State Fault Refusal :=
  issue (specM f.h (offLen f.off) [sOp f.d 1 true, sOp f.a]) (whenActive f.h (loadScalar f.d f.a f.mem f.off)) s

/-- `st.s` (R195). -/
def execStS (f : StF) (s : State) :
    Host.Outcome State Fault Refusal :=
  issue (specM f.h (offLen f.off) [sOp f.a, sOp f.b]) (whenActive f.h (storeScalar f.a f.b f.mem f.off)) s

/-- `ld.l` (R193, R190). -/
def execLdL (f : LdF) (s : State) :
    Host.Outcome State Fault Refusal :=
  issue (specM f.h (offLen f.off) [vOp f.d 1 true, vOp f.a]) (loadBody f.h f.d f.mem (fun w => localAddrs w f.h.mask f.a f.off)) s

/-- `st.l` (R194, R190). -/
def execStL (f : StF) (s : State) :
    Host.Outcome State Fault Refusal :=
  issue (specM f.h (offLen f.off) [vOp f.a, vOp f.b]) (storeBody f.b f.mem (fun w => localAddrs w f.h.mask f.a f.off)) s

/-- `pf` (R197): no value is observed, nothing is written or raised. -/
def execPf (f : PfF) (s : State) :
    Host.Outcome State Fault Refusal :=
  issue (specM f.h (offLen f.off) [vOp f.a]) (fun s _ _ => .ok s) s

end Sys2Proof.Machine
end

