-- ==== Sys2Proof/Machine/ScalarInt.lean ====
section
/-! DEFINITION. Class 1, scalar integer instructions (R161, R162, Table 11.4). -/

set_option linter.unusedVariables false

namespace Sys2Proof.Machine

/-- A class 1 instruction with two operands (R161, Table 11.4). -/
def scalarBin (op : IOp) (lat : Option Nat) (h : Hd) (d a : Field11) (b : SB) (t : Ty) (sat : Bool) (s : State) :
    Host.Outcome State Fault Refusal :=
  scalarOp (sbLen b) h d (sOp a :: sbOpnds b) lat t (fun w => iBin op t sat (rdS w a.toNat).toNat (sbVal w t b)) s

/-- A class 1 instruction with one operand (R161, Table 11.4). -/
def scalarUn (op : IUn) (h : Hd) (d a : Field11) (t : Ty) (s : State) : Host.Outcome State Fault Refusal :=
  scalarOp 8 h d [sOp a] (some 2) t (fun w => iUn op t false (rdS w a.toNat).toNat) s

/-- Class 1 `add` (R161, Table 11.4, Table 11.3). -/
def execScalarAdd (f : SBinSatF) (s : State) :
    Host.Outcome State Fault Refusal :=
  scalarBin .add (some 2) f.h f.d f.a f.b f.ty f.sat s

/-- Class 1 `sub` (R161, Table 11.4, Table 11.3). -/
def execScalarSub (f : SBinSatF) (s : State) :
    Host.Outcome State Fault Refusal :=
  scalarBin .sub (some 2) f.h f.d f.a f.b f.ty f.sat s

/-- Class 1 `mul` (R161, Table 11.4, Table 11.3). -/
def execScalarMul (f : SBinF) (s : State) :
    Host.Outcome State Fault Refusal :=
  scalarBin .mul (some 4) f.h f.d f.a f.b f.ty false s

/-- Class 1 `mulhi` (R161, Table 11.4, Table 11.3). -/
def execScalarMulhi (f : SBinF) (s : State) :
    Host.Outcome State Fault Refusal :=
  scalarBin .mulhi (some 4) f.h f.d f.a f.b f.ty false s

/-- Class 1 `div` (R161, Table 11.4, Table 11.3). -/
def execScalarDiv (f : SBinF) (s : State) :
    Host.Outcome State Fault Refusal :=
  scalarBin .div none f.h f.d f.a f.b f.ty false s

/-- Class 1 `rem` (R161, Table 11.4, Table 11.3). -/
def execScalarRem (f : SBinF) (s : State) :
    Host.Outcome State Fault Refusal :=
  scalarBin .rem none f.h f.d f.a f.b f.ty false s

/-- Class 1 `min` (R161, Table 11.4, Table 11.3). -/
def execScalarMin (f : SBinF) (s : State) :
    Host.Outcome State Fault Refusal :=
  scalarBin .min (some 2) f.h f.d f.a f.b f.ty false s

/-- Class 1 `max` (R161, Table 11.4, Table 11.3). -/
def execScalarMax (f : SBinF) (s : State) :
    Host.Outcome State Fault Refusal :=
  scalarBin .max (some 2) f.h f.d f.a f.b f.ty false s

/-- Class 1 `and` (R161, Table 11.4, Table 11.3). -/
def execScalarAnd (f : SBinF) (s : State) :
    Host.Outcome State Fault Refusal :=
  scalarBin .and (some 2) f.h f.d f.a f.b f.ty false s

/-- Class 1 `or` (R161, Table 11.4, Table 11.3). -/
def execScalarOr (f : SBinF) (s : State) :
    Host.Outcome State Fault Refusal :=
  scalarBin .or (some 2) f.h f.d f.a f.b f.ty false s

/-- Class 1 `xor` (R161, Table 11.4, Table 11.3). -/
def execScalarXor (f : SBinF) (s : State) :
    Host.Outcome State Fault Refusal :=
  scalarBin .xor (some 2) f.h f.d f.a f.b f.ty false s

/-- Class 1 `shl` (R161, Table 11.4, Table 11.3). -/
def execScalarShl (f : SBinF) (s : State) :
    Host.Outcome State Fault Refusal :=
  scalarBin .shl (some 2) f.h f.d f.a f.b f.ty false s

/-- Class 1 `shr` (R161, Table 11.4, Table 11.3). -/
def execScalarShr (f : SBinF) (s : State) :
    Host.Outcome State Fault Refusal :=
  scalarBin .shr (some 2) f.h f.d f.a f.b f.ty false s

/-- Class 1 `not` (R161, Table 11.4). -/
def execScalarNot (f : SUnF) (s : State) :
    Host.Outcome State Fault Refusal :=
  scalarUn .not f.h f.d f.a f.ty s

/-- Class 1 `clz` (R161, Table 11.4). -/
def execScalarClz (f : SUnF) (s : State) :
    Host.Outcome State Fault Refusal :=
  scalarUn .clz f.h f.d f.a f.ty s

/-- Class 1 `popc` (R161, Table 11.4). -/
def execScalarPopc (f : SUnF) (s : State) :
    Host.Outcome State Fault Refusal :=
  scalarUn .popc f.h f.d f.a f.ty s

/-- Class 1 `mov` (R161, Table 11.4). -/
def execScalarMov (f : SMovF) (s : State) :
    Host.Outcome State Fault Refusal :=
  scalarOp (sbLen f.b) f.h f.d (sbOpnds f.b) (some 2) f.ty (fun w => sbVal w f.ty f.b) s

/-- Class 1 `cmp`: every bit of M[d] (R162). -/
def execScalarCmp (f : SCmpF) (s : State) :
    Host.Outcome State Fault Refusal :=
  issue (specH f.h (sbLen f.b) (mOp f.d true :: sOp f.a :: sbOpnds f.b) (some 2))
    (whenActive f.h (onWave (fun w =>
      .ok (wrM w f.d.toNat (if iCmp f.cnd f.ty (rdS w f.a.toNat).toNat (sbVal w f.ty f.b) then BitVec.allOnes 32 else 0))))) s

/-- Class 1 `sel`: all 64 bits moved, a literal zero-extended (R162). -/
def execScalarSel (f : SSelF) (s : State) :
    Host.Outcome State Fault Refusal :=
  issue (specH f.h (sbLen f.b) (sOp f.d 1 true :: sOp f.a :: sbOpnds f.b ++ [sOp7 f.c]) (some 2))
    (whenActive f.h (onWave (fun w =>
      .ok (wrS w f.d.toNat (if rdS w f.c.toNat ≠ 0 then rdS w f.a.toNat
        else match f.b with
          | .reg b => rdS w b.toNat
          | .lit v => v.zeroExtend 64))))) s

end Sys2Proof.Machine
end

