-- ==== Sys2Proof/Machine/VectorFp.lean ====
section
/-! DEFINITION. Class 3, vector floating-point instructions (R165, R166). -/

set_option linter.unusedVariables false

namespace Sys2Proof.Machine

/-- λ of class 3 arithmetic: 8 for FP64, 6 otherwise (Table 11.3). -/
def fpLat (t : Ty) : Option Nat := some (if t.width = 64 then 8 else 6)

/-- A class 3 instruction with two operands (R165, Table 11.5). -/
def vecFp (op : FOp) (lat : Option Nat) (h : Hd) (d a : Field11) (b : VB) (t : Ty) (r : Rmo) (s : State) :
    Host.Outcome State Fault Refusal :=
  vecBin h d a b lat t (fun w x y => fBin op (envOf w.mode r) t x y) s

/-- `fma` and `fnma` (R165): the mode is RM. -/
def vecFma (negate : Bool) (t : Ty) (f : MadF) (s : State) : Host.Outcome State Fault Refusal :=
  laneOp 8 f.h f.d [vOp f.a, if f.bs then sOp f.b else vOp f.b, vOp f.c] (fpLat t)
    (fun w l => elemsOf t (fun j =>
      fFma negate (envOf w.mode .mode) t (elemOf t (rdV w f.a.toNat l) j)
        (if f.bs then (rdS w f.b.toNat).toNat % 2 ^ t.width else elemOf t (rdV w f.b.toNat l) j) (elemOf t (rdV w f.c.toNat l) j))) s

/-- Class 3 `add` (R165, Table 11.5). -/
def execFpAdd (f : FBinF) (s : State) :
    Host.Outcome State Fault Refusal :=
  vecFp .add (fpLat f.ty) f.h f.d f.a f.b f.ty f.rmo s

/-- Class 3 `sub` (R165, Table 11.5). -/
def execFpSub (f : FBinF) (s : State) :
    Host.Outcome State Fault Refusal :=
  vecFp .sub (fpLat f.ty) f.h f.d f.a f.b f.ty f.rmo s

/-- Class 3 `mul` (R165, Table 11.5). -/
def execFpMul (f : FBinF) (s : State) :
    Host.Outcome State Fault Refusal :=
  vecFp .mul (fpLat f.ty) f.h f.d f.a f.b f.ty f.rmo s

/-- Class 3 `min` (R165, Table 11.5). -/
def execFpMin (f : VBinF) (s : State) :
    Host.Outcome State Fault Refusal :=
  vecFp .min (some 4) f.h f.d f.a f.b f.ty .mode s

/-- Class 3 `max` (R165, Table 11.5). -/
def execFpMax (f : VBinF) (s : State) :
    Host.Outcome State Fault Refusal :=
  vecFp .max (some 4) f.h f.d f.a f.b f.ty .mode s

/-- Class 3 `copysign` (R165, Table 11.5). -/
def execCopysign (f : VBinF) (s : State) :
    Host.Outcome State Fault Refusal :=
  vecFp .copysign (some 4) f.h f.d f.a f.b f.ty .mode s

/-- `ldexp`: y is the signed integer type of the same width (R165, Table 11.5). -/
def execLdexp (f : FBinF) (s : State) :
    Host.Outcome State Fault Refusal :=
  laneOp (vbLen f.b) f.h f.d (vOp f.a :: vbOpnds f.b) (fpLat f.ty)
    (fun w l => elemsOf f.ty (fun j =>
      fBin .ldexp (envOf w.mode f.rmo) f.ty (elemOf f.ty (rdV w f.a.toNat l) j) (vbElem w (ldexpTy f.ty) f.b l j))) s

/-- Class 3 `abs` (R165, Table 11.5). -/
def execFpAbs (f : VUnF) (s : State) :
    Host.Outcome State Fault Refusal :=
  vecUn f.h f.d f.a (some 4) f.ty (fun w x => fUn .abs (envOf w.mode .mode) f.ty x) s

/-- Class 3 `neg` (R165, Table 11.5). -/
def execFpNeg (f : VUnF) (s : State) :
    Host.Outcome State Fault Refusal :=
  vecUn f.h f.d f.a (some 4) f.ty (fun w x => fUn .neg (envOf w.mode .mode) f.ty x) s

/-- Class 3 `fclass` (R165, Table 11.5). -/
def execFclass (f : VUnF) (s : State) :
    Host.Outcome State Fault Refusal :=
  vecUn f.h f.d f.a (some 4) f.ty (fun w x => fUn .fclass (envOf w.mode .mode) f.ty x) s

/-- `rint` (R165, Table 11.5). -/
def execRint (f : FUnRF) (s : State) :
    Host.Outcome State Fault Refusal :=
  vecUn f.h f.d f.a (fpLat f.ty) f.ty (fun w x => fUn .rint (envOf w.mode f.rmo) f.ty x) s

/-- Class 3 `cmp` into a mask (R166). -/
def execFpCmp (f : VCmpF) (s : State) :
    Host.Outcome State Fault Refusal :=
  vecCmp f.h f.d f.a f.b f.ty (fun w x y => fCmp (envOf w.mode .mode) f.cnd f.ty x y) s

/-- `fma.f64` (R165, Table 11.5). -/
def execFmaF64 (f : MadF) (s : State) :
    Host.Outcome State Fault Refusal :=
  vecFma false .f64 f s

/-- `fma.f32` (R165, Table 11.5). -/
def execFmaF32 (f : MadF) (s : State) :
    Host.Outcome State Fault Refusal :=
  vecFma false .f32 f s

/-- `fma.f16` (R165, Table 11.5). -/
def execFmaF16 (f : MadF) (s : State) :
    Host.Outcome State Fault Refusal :=
  vecFma false .f16 f s

/-- `fma.bf16` (R165, Table 11.5). -/
def execFmaBf16 (f : MadF) (s : State) :
    Host.Outcome State Fault Refusal :=
  vecFma false .bf16 f s

/-- `fnma.f64` (R165, Table 11.5). -/
def execFnmaF64 (f : MadF) (s : State) :
    Host.Outcome State Fault Refusal :=
  vecFma true .f64 f s

/-- `fnma.f32` (R165, Table 11.5). -/
def execFnmaF32 (f : MadF) (s : State) :
    Host.Outcome State Fault Refusal :=
  vecFma true .f32 f s

/-- `fnma.f16` (R165, Table 11.5). -/
def execFnmaF16 (f : MadF) (s : State) :
    Host.Outcome State Fault Refusal :=
  vecFma true .f16 f s

/-- `fnma.bf16` (R165, Table 11.5). -/
def execFnmaBf16 (f : MadF) (s : State) :
    Host.Outcome State Fault Refusal :=
  vecFma true .bf16 f s

end Sys2Proof.Machine
end

