-- ==== Sys2Proof/Machine/VectorInt.lean ====
section
/-! DEFINITION. Class 2, vector integer instructions and `mad` (R163, R164). -/

set_option linter.unusedVariables false

namespace Sys2Proof.Machine

/-- A class 2 instruction with two operands (R163, Table 11.4). -/
def vecInt (op : IOp) (lat : Nat) (h : Hd) (d a : Field11) (b : VB) (t : Ty) (sat : Bool) (s : State) :
    Host.Outcome State Fault Refusal :=
  vecBin h d a b (some lat) t (fun _ x y => iBin op t sat x y) s

/-- `mad` (R164): c is the whole lane; under BS, b is the whole of S[b] split into sub-elements (log 18). -/
def vecMad (t : Ty) (f : MadF) (s : State) : Host.Outcome State Fault Refusal :=
  laneOp 8 f.h f.d [vOp f.a, if f.bs then sOp f.b else vOp f.b, vOp f.c] (some 6)
    (fun w l =>
      let y := if f.bs then rdS w f.b.toNat else rdV w f.b.toNat l
      w64 (iMad t (rdV w f.a.toNat l).toNat y.toNat (rdV w f.c.toNat l).toNat)) s

/-- Class 2 `add` (R163, Table 11.4, Table 11.3). -/
def execVectorAdd (f : VBinSatF) (s : State) :
    Host.Outcome State Fault Refusal :=
  vecInt .add 4 f.h f.d f.a f.b f.ty f.sat s

/-- Class 2 `sub` (R163, Table 11.4, Table 11.3). -/
def execVectorSub (f : VBinSatF) (s : State) :
    Host.Outcome State Fault Refusal :=
  vecInt .sub 4 f.h f.d f.a f.b f.ty f.sat s

/-- Class 2 `mul` (R163, Table 11.4, Table 11.3). -/
def execVectorMul (f : VBinF) (s : State) :
    Host.Outcome State Fault Refusal :=
  vecInt .mul 6 f.h f.d f.a f.b f.ty false s

/-- Class 2 `mulhi` (R163, Table 11.4, Table 11.3). -/
def execVectorMulhi (f : VBinF) (s : State) :
    Host.Outcome State Fault Refusal :=
  vecInt .mulhi 6 f.h f.d f.a f.b f.ty false s

/-- Class 2 `min` (R163, Table 11.4, Table 11.3). -/
def execVectorMin (f : VBinF) (s : State) :
    Host.Outcome State Fault Refusal :=
  vecInt .min 4 f.h f.d f.a f.b f.ty false s

/-- Class 2 `max` (R163, Table 11.4, Table 11.3). -/
def execVectorMax (f : VBinF) (s : State) :
    Host.Outcome State Fault Refusal :=
  vecInt .max 4 f.h f.d f.a f.b f.ty false s

/-- Class 2 `and` (R163, Table 11.4, Table 11.3). -/
def execVectorAnd (f : VBinF) (s : State) :
    Host.Outcome State Fault Refusal :=
  vecInt .and 4 f.h f.d f.a f.b f.ty false s

/-- Class 2 `or` (R163, Table 11.4, Table 11.3). -/
def execVectorOr (f : VBinF) (s : State) :
    Host.Outcome State Fault Refusal :=
  vecInt .or 4 f.h f.d f.a f.b f.ty false s

/-- Class 2 `xor` (R163, Table 11.4, Table 11.3). -/
def execVectorXor (f : VBinF) (s : State) :
    Host.Outcome State Fault Refusal :=
  vecInt .xor 4 f.h f.d f.a f.b f.ty false s

/-- Class 2 `shl` (R163, Table 11.4, Table 11.3). -/
def execVectorShl (f : VBinF) (s : State) :
    Host.Outcome State Fault Refusal :=
  vecInt .shl 4 f.h f.d f.a f.b f.ty false s

/-- Class 2 `shr` (R163, Table 11.4, Table 11.3). -/
def execVectorShr (f : VBinF) (s : State) :
    Host.Outcome State Fault Refusal :=
  vecInt .shr 4 f.h f.d f.a f.b f.ty false s

/-- `bfe` (R163, Table 11.4). -/
def execBfe (f : VBinF) (s : State) :
    Host.Outcome State Fault Refusal :=
  vecInt .bfe 4 f.h f.d f.a f.b f.ty false s

/-- Class 2 `abs` (R163, Table 11.4). -/
def execVectorAbs (f : VUnSatF) (s : State) :
    Host.Outcome State Fault Refusal :=
  vecUn f.h f.d f.a (some 4) f.ty (fun _ x => iUn .abs f.ty f.sat x) s

/-- Class 2 `neg` (R163, Table 11.4). -/
def execVectorNeg (f : VUnSatF) (s : State) :
    Host.Outcome State Fault Refusal :=
  vecUn f.h f.d f.a (some 4) f.ty (fun _ x => iUn .neg f.ty f.sat x) s

/-- Class 2 `not` (R163, Table 11.4). -/
def execVectorNot (f : VUnF) (s : State) :
    Host.Outcome State Fault Refusal :=
  vecUn f.h f.d f.a (some 4) f.ty (fun _ x => iUn .not f.ty false x) s

/-- Class 2 `clz` (R163, Table 11.4). -/
def execVectorClz (f : VUnF) (s : State) :
    Host.Outcome State Fault Refusal :=
  vecUn f.h f.d f.a (some 4) f.ty (fun _ x => iUn .clz f.ty false x) s

/-- Class 2 `popc` (R163, Table 11.4). -/
def execVectorPopc (f : VUnF) (s : State) :
    Host.Outcome State Fault Refusal :=
  vecUn f.h f.d f.a (some 4) f.ty (fun _ x => iUn .popc f.ty false x) s

/-- Class 2 `brev` (R163, Table 11.4). -/
def execBrev (f : VUnF) (s : State) :
    Host.Outcome State Fault Refusal :=
  vecUn f.h f.d f.a (some 4) f.ty (fun _ x => iUn .brev f.ty false x) s

/-- Class 2 `mov`: operand b in every sub-element (R163, R149). -/
def execVectorMov (f : VMovF) (s : State) :
    Host.Outcome State Fault Refusal :=
  laneOp (vbLen f.b) f.h f.d (vbOpnds f.b) (some 4) (fun w l => elemsOf f.ty (fun j => vbElem w f.ty f.b l j)) s

/-- Class 2 `cmp` into a mask (R163). -/
def execVectorCmp (f : VCmpF) (s : State) :
    Host.Outcome State Fault Refusal :=
  vecCmp f.h f.d f.a f.b f.ty (fun _ x y => iCmp f.cnd f.ty x y) s

/-- Class 2 `sel`: whole lanes (R163). -/
def execVectorSel (f : VSelF) (s : State) :
    Host.Outcome State Fault Refusal :=
  laneOp (vbLen f.b) f.h f.d (vOp f.a :: vbOpnds f.b ++ [mOp3 f.c]) (some 4)
    (fun w l => if (rdM w f.c.toNat).getLsbD l then rdV w f.a.toNat l else vbLane w f.b l) s

/-- `mad.i32` (R164). -/
def execMadI32 (f : MadF) (s : State) :
    Host.Outcome State Fault Refusal :=
  vecMad .i32 f s

/-- `mad.n32` (R164). -/
def execMadN32 (f : MadF) (s : State) :
    Host.Outcome State Fault Refusal :=
  vecMad .n32 f s

/-- `mad.i64` (R164). -/
def execMadI64 (f : MadF) (s : State) :
    Host.Outcome State Fault Refusal :=
  vecMad .i64 f s

/-- `mad.n64` (R164). -/
def execMadN64 (f : MadF) (s : State) :
    Host.Outcome State Fault Refusal :=
  vecMad .n64 f s

end Sys2Proof.Machine
end

