-- ==== Sys2Proof/Machine/Compact.lean ====
section
/-! DEFINITION. The compact forms (R116, R132, Table 9.8): each does what its 64-bit twin does with mask field 0 and the twin's fixed c,
and is one parcel long. -/

set_option linter.unusedVariables false

namespace Sys2Proof.Machine

/-- A register field of a compact form, zero-extended (R116). -/
def wide (x : BitVec 7) : Field11 := x.zeroExtend 11
/-- The head of a compact form: `m0` and its stall count. -/
def compactHd (stall : BitVec 2) : Hd := { mask := 0, stall := stall.zeroExtend 4 }

/-- A compact vector instruction with two operands (R163). -/
def compactVec (lat : Option Nat) (t : Ty) (g : Wave → Nat → Nat → Nat) (f : CompactF) (s : State) : Host.Outcome State Fault Refusal :=
  laneOp 4 (compactHd f.stall) (wide f.d) [vOp (wide f.a), vOp (wide f.b)] lat
    (fun w l => elemsOf t (fun j => g w (elemOf t (rdV w (wide f.a).toNat l) j) (elemOf t (rdV w (wide f.b).toNat l) j))) s
/-- A compact scalar instruction with two operands (R161). -/
def compactSca (t : Ty) (op : IOp) (f : CompactF) (s : State) : Host.Outcome State Fault Refusal :=
  scalarOp 4 (compactHd f.stall) (wide f.d) [sOp (wide f.a), sOp (wide f.b)] (some 2) t
    (fun w => iBin op t false (rdS w (wide f.a).toNat).toNat ((rdS w (wide f.b).toNat).toNat % 2 ^ t.width)) s
/-- The MEM word 0x4C0 of the compact load and store: plain, `.b64` (Table 9.8). -/
def compactMem : MemW := { sem := .plain, scp := .wave, ty := .b64 }

/-- Compact `add.i64`, vector. -/
def execAddI64VectorCompact (f : CompactF) (s : State) : Host.Outcome State Fault Refusal :=
  compactVec (some 4) .i64 (fun _ x y => iBin .add .i64 false x y) f s
/-- Compact `add.f32`. -/
def execAddF32Compact (f : CompactF) (s : State) : Host.Outcome State Fault Refusal :=
  compactVec (some 6) .f32 (fun w x y => fBin .add (envOf w.mode .mode) .f32 x y) f s
/-- Compact `mul.f32`. -/
def execMulF32Compact (f : CompactF) (s : State) : Host.Outcome State Fault Refusal :=
  compactVec (some 6) .f32 (fun w x y => fBin .mul (envOf w.mode .mode) .f32 x y) f s
/-- Compact `add.f64`. -/
def execAddF64Compact (f : CompactF) (s : State) : Host.Outcome State Fault Refusal :=
  compactVec (some 8) .f64 (fun w x y => fBin .add (envOf w.mode .mode) .f64 x y) f s
/-- Compact `mul.f64`. -/
def execMulF64Compact (f : CompactF) (s : State) : Host.Outcome State Fault Refusal :=
  compactVec (some 8) .f64 (fun w x y => fBin .mul (envOf w.mode .mode) .f64 x y) f s
/-- Compact `and.b64`, vector. -/
def execAndB64Compact (f : CompactF) (s : State) : Host.Outcome State Fault Refusal :=
  compactVec (some 4) .b64 (fun _ x y => iBin .and .b64 false x y) f s
/-- Compact `or.b64`, vector. -/
def execOrB64Compact (f : CompactF) (s : State) : Host.Outcome State Fault Refusal :=
  compactVec (some 4) .b64 (fun _ x y => iBin .or .b64 false x y) f s
/-- Compact `xor.b64`, vector. -/
def execXorB64Compact (f : CompactF) (s : State) : Host.Outcome State Fault Refusal :=
  compactVec (some 4) .b64 (fun _ x y => iBin .xor .b64 false x y) f s
/-- Compact `mov.b64`, vector. -/
def execMovB64VectorCompact (f : CompactDBF) (s : State) : Host.Outcome State Fault Refusal :=
  laneOp 4 (compactHd f.stall) (wide f.d) [vOp (wide f.b)] (some 4) (fun w l => rdV w (wide f.b).toNat l) s
/-- Compact `add.i64`, scalar. -/
def execAddI64ScalarCompact (f : CompactF) (s : State) : Host.Outcome State Fault Refusal :=
  compactSca .i64 .add f s
/-- Compact `sub.i64`, scalar. -/
def execSubI64ScalarCompact (f : CompactF) (s : State) : Host.Outcome State Fault Refusal :=
  compactSca .i64 .sub f s
/-- Compact `mov.b64`, scalar. -/
def execMovB64ScalarCompact (f : CompactDBF) (s : State) : Host.Outcome State Fault Refusal :=
  scalarOp 4 (compactHd f.stall) (wide f.d) [sOp (wide f.b)] (some 2) .b64 (fun w => (rdS w (wide f.b).toNat).toNat) s
/-- Compact `shl.n64`, scalar. -/
def execShlN64ScalarCompact (f : CompactF) (s : State) : Host.Outcome State Fault Refusal :=
  compactSca .n64 .shl f s
/-- Compact `add.i32`, vector. -/
def execAddI32VectorCompact (f : CompactF) (s : State) : Host.Outcome State Fault Refusal :=
  compactVec (some 4) .i32 (fun _ x y => iBin .add .i32 false x y) f s
/-- Compact `nop`. -/
def execNopCompact (f : CompactNF) (s : State) : Host.Outcome State Fault Refusal :=
  issue { len := 4, stall := f.stall.toNat, opnds := [], lat := some 0 } (fun s _ _ => .ok s) s
/-- Compact `ld.s.b64`. -/
def execLdSB64Compact (f : CompactDAF) (s : State) : Host.Outcome State Fault Refusal :=
  issue (specM (compactHd f.stall) 4 [sOp (wide f.d) 1 true, sOp (wide f.a)])
    (whenActive (compactHd f.stall) (loadScalar (wide f.d) (wide f.a) compactMem .none)) s
/-- Compact `st.s.b64`. -/
def execStSB64Compact (f : CompactABF) (s : State) : Host.Outcome State Fault Refusal :=
  issue (specM (compactHd f.stall) 4 [sOp (wide f.a), sOp (wide f.b)])
    (whenActive (compactHd f.stall) (storeScalar (wide f.a) (wide f.b) compactMem .none)) s

end Sys2Proof.Machine
end

