-- ==== Sys2Proof/Machine/SpecialFn.lean ====
section
/-! DEFINITION. Class 6, special functions, division and square root (R179, R111, R112). -/

set_option linter.unusedVariables false

namespace Sys2Proof.Machine

/-- A special function on every sub-element (R179, R111, R112). -/
def vecSpecial (fn : SpecFn) (f : VUnF) (s : State) : Host.Outcome State Fault Refusal :=
  vecUn f.h f.d f.a (some 16) f.ty (fun w x => specFn (envOf w.mode .mode) f.ty fn x) s

/-- `rcp` (R179, R111, Table 7.7). -/
def execRcp (f : VUnF) (s : State) :
    Host.Outcome State Fault Refusal :=
  vecSpecial .rcp f s

/-- `rsqrt` (R179, R111, Table 7.7). -/
def execRsqrt (f : VUnF) (s : State) :
    Host.Outcome State Fault Refusal :=
  vecSpecial .rsqrt f s

/-- `exp2` (R179, R111, Table 7.7). -/
def execExp2 (f : VUnF) (s : State) :
    Host.Outcome State Fault Refusal :=
  vecSpecial .exp2 f s

/-- `log2` (R179, R111, Table 7.7). -/
def execLog2 (f : VUnF) (s : State) :
    Host.Outcome State Fault Refusal :=
  vecSpecial .log2 f s

/-- `sin` (R179, R111, Table 7.7). -/
def execSin (f : VUnF) (s : State) :
    Host.Outcome State Fault Refusal :=
  vecSpecial .sin f s

/-- `cos` (R179, R111, Table 7.7). -/
def execCos (f : VUnF) (s : State) :
    Host.Outcome State Fault Refusal :=
  vecSpecial .cos f s

/-- Class 6 `div` (R179). -/
def execFpDiv (f : FDivF) (s : State) :
    Host.Outcome State Fault Refusal :=
  laneOp 8 f.h f.d [vOp f.a, vOp f.b] none
    (fun w l => elemsOf f.ty (fun j =>
      let env := envOf w.mode f.rmo
      flush env.ftz (fmtOf f.ty) (fdiv (fmtOf f.ty) env.rm (frd env f.ty (elemOf f.ty (rdV w f.a.toNat l) j))
        (frd env f.ty (elemOf f.ty (rdV w f.b.toNat l) j))))) s

/-- `sqrt` (R179). -/
def execSqrt (f : FUnRF) (s : State) :
    Host.Outcome State Fault Refusal :=
  vecUn f.h f.d f.a none f.ty (fun w x =>
    let env := envOf w.mode f.rmo
    flush env.ftz (fmtOf f.ty) (fsqrt (fmtOf f.ty) env.rm (frd env f.ty x))) s

end Sys2Proof.Machine
end

