-- ==== Sys2Proof/Machine/Sync.lean ====
section
/-! DEFINITION. Class 9: fences (R207, R208), barrier objects (R215 to R220), locks (R221 to R225), device queues (R226 to R230) and
ownership records (R231, R232). -/

set_option linter.unusedVariables false

namespace Sys2Proof.Machine

/-! ### Fences -/

/-- A fence that acquires (R207, R91). -/
def fenceAcq (scp : Scp) (s : State) (k : Nat) (w : Wave) : Res := .ok (acquire s (coreOf s k) scp)

/-- `fence.acq` (R207). -/
def execFenceAcq (f : FenceF) (s : State) : Host.Outcome State Fault Refusal :=
  issue (specM f.h 8 []) (whenActive f.h (fenceAcq f.scp)) s
/-- `fence.rel` (R207): accesses are performed in one order (log 3), so a release changes nothing. -/
def execFenceRel (f : FenceF) (s : State) : Host.Outcome State Fault Refusal :=
  issue (specM f.h 8 []) (whenActive f.h (fun s _ _ => .ok s)) s
/-- `fence.ar` (R207). -/
def execFenceAr (f : FenceF) (s : State) : Host.Outcome State Fault Refusal :=
  issue (specM f.h 8 []) (whenActive f.h (fenceAcq f.scp)) s
/-- `fence.sc` (R207). -/
def execFenceSc (f : FenceF) (s : State) : Host.Outcome State Fault Refusal :=
  issue (specM f.h 8 []) (whenActive f.h (fenceAcq f.scp)) s
/-- `ro.inv` (R208). -/
def execRoInv (f : BareF) (s : State) : Host.Outcome State Fault Refusal :=
  issue (specM f.h 8 []) (whenActive f.h (fun s k _ => .ok (roInvalidate s (coreOf s k)))) s

/-! ### Barrier objects -/

def boPhase (x : Nat) : Nat := x / 2 ^ 63
def boExpect (x : Nat) : Nat := x / 2 ^ 32 % 2 ^ 31
def boInvalid (va : Nat) (v : Word) : Trap := { cause := .boInvalid, info0 := w64 va, info1 := v }

/-- An instruction on the barrier object at Addr(S[a], off) (R215): its address and place. -/
def onBo (a : Field11) (o : Off) (need : Need) (f : Nat → Loc → State → Nat → Wave → Res) (s : State) (k : Nat) (w : Wave) : Res :=
  let va := addrOf (rdS w a.toNat) o
  match checkOne s (whoOf s k) va 8 8 need .tagged with
  | .error e => .trap e.trap s
  | .ok l => f va l (touch s (tenantOf s k) va false) k w
/-- Write an object of n bytes, with the walker's marks of a write (R64). -/
def putObj (s : State) (k va : Nat) (l : Loc) (n v : Nat) : State := wrN (touch s (tenantOf s k) va true) l n v

/-- `bo.init` (R217). -/
def boInit (b : Field11) (va : Nat) (l : Loc) (s : State) (k : Nat) (w : Wave) : Res :=
  let n := (rdS w b.toNat).toNat
  if n = 0 ∨ 2 ^ 31 ≤ n then .trap (boInvalid va (w64 n)) s else .ok (putObj s k va l 8 (n * 2 ^ 32))

/-- `bo.expect` (R218). -/
def boExpectBody (b : Field11) (va : Nat) (l : Loc) (s : State) (k : Nat) (w : Wave) : Res :=
  let v := rdS w b.toNat
  let x := rdN s l 8
  let e : Int := (boExpect x : Int) + (v.extractLsb' 0 32).toInt
  if v ≠ sext32 (v.extractLsb' 0 32) ∨ e < 1 ∨ 2 ^ 31 - 1 < e then .trap (boInvalid va v) s
  else .ok (putObj s k va l 8 (boAdd (boPhase x * 2 ^ 63 + e.toNat * 2 ^ 32 + x % 2 ^ 32) 0))

/-- `bo.arrive` (R219): the phase before the addition into S[d]. -/
def boArrive (d b : Field11) (va : Nat) (l : Loc) (s : State) (k : Nat) (w : Wave) : Res :=
  let n := (rdS w b.toNat).toNat
  let x := rdN s l 8
  if 2 ^ 31 ≤ n then .trap (boInvalid va (w64 n)) s
  else .ok (putObj (s.setWave k (wrS w d.toNat (w64 (boPhase x)))) k va l 8 (boAdd x n))

/-- `bo.wait` (R220, R88). Its acquire empties no read-only cache (R90, R91). -/
def boWait (b : Field11) (va : Nat) (l : Loc) (s : State) (k : Nat) (w : Wave) : Res :=
  let p := (rdS w b.toNat).toNat % 2
  if boPhase (rdN s l 8) ≠ p then
    .ok (s.setWave k (endHelp w 0))
  else match waitEnd s k w .bo va with
    | some code => .ok ((sweepEnd s k w va).setWave k (endHelp w code))
    | none => helpWait s k .bo (w64 (va + p * 2 ^ 56))

/-- `bo.init` (R217). -/
def execBoInit (f : BoF) (s : State) : Host.Outcome State Fault Refusal :=
  issue (specM f.h (offLen f.off) [sOp f.a, sOp f.b]) (whenActive f.h (onBo f.a f.off needWr (boInit f.b))) s
/-- `bo.expect` (R218). -/
def execBoExpect (f : BoF) (s : State) : Host.Outcome State Fault Refusal :=
  issue (specM f.h (offLen f.off) [sOp f.a, sOp f.b]) (whenActive f.h (onBo f.a f.off needRw (boExpectBody f.b))) s
/-- `bo.arrive` (R219). -/
def execBoArrive (f : BoArriveF) (s : State) : Host.Outcome State Fault Refusal :=
  issue (specM f.h (offLen f.off) [sOp f.d 1 true, sOp f.a, sOp f.b]) (whenActive f.h (onBo f.a f.off needRw (boArrive f.d f.b))) s
/-- `bo.wait` (R220). -/
def execBoWait (f : BoF) (s : State) : Host.Outcome State Fault Refusal :=
  issue (specM f.h (offLen f.off) [sOp f.a, sOp f.b]) (whenActive f.h (onBo f.a f.off needRd (boWait f.b))) s

/-! ### Locks -/

/-- The first quadword of a lock (Table 13.11): HOLDER and STATE. -/
def lockState (x : Nat) : Nat := x / 2 ^ 62
def lockHolder (x : Nat) : Nat := x % 2 ^ 62
/-- TASK of a lock or a queue slot: the group's task, 0 for a gathered or continuation wave (R221, R228). -/
def myTask (s : State) (k : Nat) : Nat :=
  match s.group? (gidOf k) with
  | some g => if g.origin = .grid then g.seq else 0
  | none => 0
def groupLocks (s : State) (k : Nat) : List Nat := ((s.group? (gidOf k)).map (·.locks)).getD []
def lockTrap (va st : Nat) : Trap := { cause := .lockState, info0 := w64 va, info1 := w64 st }

/-- An instruction on the lock at Addr(S[a], off) (R221). -/
def onLock (a : Field11) (o : Off) (f : Nat → Loc → State → Nat → Wave → Res) (s : State) (k : Nat) (w : Wave) : Res :=
  let va := addrOf (rdS w a.toNat) o
  match checkObj s (whoOf s k) va 16 16 needRw with
  | .error e => .trap e.trap s
  | .ok l => f va l (touch s (tenantOf s k) va false) k w

/-- Take a free lock: STATE 1, HOLDER, TASK, and the group's list (R222, R225). -/
def takeLock (va : Nat) (l : Loc) (s : State) (k : Nat) : State :=
  let s := wrN (putObj s k va l 8 (gidOf k % 2 ^ 62 + 2 ^ 62)) (l.plus 8) 8 (myTask s k)
  s.modGroup (gidOf k) (fun g => { g with locks := g.locks ++ [va] })

/-- `lock.acq` (R222): its two LOCK_STATE checks come before its Block, so a wave that resumes inside the Block does not repeat them
(log 41). -/
def lockAcq (scp : Scp) (va : Nat) (l : Loc) (s : State) (k : Nat) (w : Wave) : Res :=
  let x := rdN s l 8
  let st := lockState x
  let fin (s : State) (code : Nat) : Res := .ok (acquire (s.modWave k (fun w => endHelp w code)) (coreOf s k) scp)
  if w.retest = false ∧ 16 ≤ (groupLocks s k).length then .trap (lockTrap va st) s
  else if w.retest = false ∧ st = 1 ∧ lockHolder x = gidOf k then .trap (lockTrap va st) s
  else if st = 0 then fin (takeLock va l s k) 0
  else if st = 1 then
    match waitEnd s k w .lock va with
    | some code => fin (sweepEnd s k w va) code
    | none => helpWait s k .lock (w64 va)
  else fin s (if st = 3 then 1 else 2)

/-- `lock.try` (R223). -/
def lockTry (d : Field11) (scp : Scp) (va : Nat) (l : Loc) (s : State) (k : Nat) (w : Wave) : Res :=
  let x := rdN s l 8
  let st := lockState x
  let put (s : State) (n : Nat) : State := s.modWave k (fun w => wrS w d.toNat (w64 n))
  if 16 ≤ (groupLocks s k).length ∨ (st = 1 ∧ lockHolder x = gidOf k) then .ok (put s 4)
  else if st = 0 then .ok (acquire (put (takeLock va l s k) 0) (coreOf s k) scp)
  else .ok (put s st)

/-- `lock.rel` (R224). -/
def lockRel (va : Nat) (l : Loc) (s : State) (k : Nat) (w : Wave) : Res :=
  let x := rdN s l 8
  if lockState x = 1 ∧ lockHolder x = gidOf k then
    let who := whoOf s k
    let same (a : Nat) : Bool := match resolve s who a 16 {} with
      | .ok l' => l' == l
      | .error _ => false
    .ok ((putObj s k va l 16 0).modGroup (gidOf k) (fun g => { g with locks := g.locks.filter (fun a => !same a) }))
  else .trap (lockTrap va (lockState x)) s

/-- `lock.acq` (R222). -/
def execLockAcq (f : LockF) (s : State) : Host.Outcome State Fault Refusal :=
  issue (specM f.h (offLen f.off) [sOp f.a]) (whenActive f.h (onLock f.a f.off (lockAcq f.scp))) s
/-- `lock.try` (R223). -/
def execLockTry (f : LockTryF) (s : State) : Host.Outcome State Fault Refusal :=
  issue (specM f.h (offLen f.off) [sOp f.d 1 true, sOp f.a]) (whenActive f.h (onLock f.a f.off (lockTry f.d f.scp))) s
/-- `lock.rel` (R224). -/
def execLockRel (f : LockF) (s : State) : Host.Outcome State Fault Refusal :=
  issue (specM f.h (offLen f.off) [sOp f.a]) (whenActive f.h (onLock f.a f.off lockRel)) s

/-! ### Device queues -/

/-- The checks of R227, then the queue and the bytes of a slot. -/
def onQueue (a b : Field11) (o : Off) (data : Need) (f : Dq → Nat → State → Nat → Wave → Res) (s : State) (k : Nat) (w : Wave) : Res :=
  let va := addrOf (rdS w a.toNat) o
  let who := whoOf s k
  match checkObj s who va 64 64 needRw with
  | .error e => .trap e.trap s
  | .ok _ =>
    if dqBad s who va then .trap { cause := .queueInvalid, info0 := w64 va } s
    else
      let q := dqAt s who va
      let src := (rdS w b.toNat).toNat
      match checkDense s who src q.sbytes data with
      | some e => .trap e.trap s
      | none => f q src (touch s (tenantOf s k) va false) k w

/-- `dq.push` (R228): a slot is reserved at issue, after the checks of R60 on its state entry; its payload moves through the copy engine. A
wait that its owner's fault or end ends reserves nothing and leaves S[d]. A full queue is waited for before a slot of the copy engine (log 45). -/
def dqPush (d : Field11) (q : Dq) (src : Nat) (s : State) (k : Nat) (w : Wave) : Res :=
  let who := whoOf s k
  let t := dqWord s who q.resv
  if q.slots ≤ (t + 2 ^ 32 - dqWord s who q.free) % 2 ^ 32 then
    match waitEnd s k w .dqPush q.va with
    | some code => .ok ((sweepEnd s k w q.va).setWave k (endHelp w code))
    | none => helpWait s k .dqPush (w64 q.va)
  else if copyFull s (coreOf s k) then .wait .copySlot 0 s
  else match dqEntryFail s who q t with
  | some e => .trap e.trap s
  | none =>
    let s := dqSet s who q.resv ((t + 1) % 2 ^ 32)
    let s := wrVa s who (q.entry t) (leBytes 16 (1 + t * 2 ^ 32 + myTask s k * 2 ^ 64))
    let s := s.setWave k (wrS (endHelp w 0) d.toNat (w64 t))
    .ok (startXfer s { kind := .dqPush, gid := gidOf k, wave := k, core := coreOf s k, tenant := tenantOf s k,
                       seq := ((s.group? (gidOf k)).map (·.seq)).getD 0, pc := w.pc, bytes := q.sbytes, dense := w64 src,
                       at_ := q.slot t, queue := w64 q.va, ticket := t, slot := t % q.slots })

/-- What taking a ticket fails on (R60): the state entry, and the data slot that a ticket which is not void is copied from. -/
def popFail (s : State) (who : Who) (q : Dq) (t : Nat) : Option Fail :=
  match dqEntry s who q t with
  | none => dqEntryFail s who q t
  | some e => if e / 4 % 4 = 0 then checkDense s who (q.slot t) q.sbytes { rd := true } else none
/-- `dq.pop` (R229); the slot is checked before the ticket is taken (log 45). -/
def dqPop (d : Field11) (scp : Scp) (q : Dq) (dst : Nat) (s : State) (k : Nat) (w : Wave) : Res :=
  let who := whoOf s k
  let t := dqWord s who q.take
  if t = dqWord s who q.pub then
    match waitEnd s k w .dqPop q.va with
    | some code => .ok ((sweepEnd s k w q.va).setWave k (endHelp w code))
    | none => helpWait s k .dqPop (w64 q.va)
  else match popFail s who q t with
  | some e => .trap e.trap s
  | none =>
    let s := dqSet s who q.take ((t + 1) % 2 ^ 32)
    let v := dqWord s who (q.entry t) / 4 % 4
    let s := dqSet s who (q.entry t) (4 * v + 3)
    let s := acquire s (coreOf s k) scp
    let s := if v = 0 then wrVa (touchRange s (tenantOf s k) (q.slot t) q.sbytes false) who dst (rdVa s who (q.slot t) q.sbytes) else s
    let s := s.modWave k (fun w => wrS (endHelp w (if v = 0 then 0 else if v = 1 then 1 else 2)) d.toNat (w64 t))
    .ok (dqRelease who q (q.slots + 1) (dqSet s who (q.entry t) (4 * v)))

/-- `dq.push` (R228). -/
def execDqPush (f : DqF) (s : State) : Host.Outcome State Fault Refusal :=
  issue (specM f.h (offLen f.off) [sOp f.d 1 true, sOp f.a, sOp f.b]) (whenActive f.h (onQueue f.a f.b f.off needRd (dqPush f.d))) s
/-- `dq.pop` (R229). -/
def execDqPop (f : DqF) (s : State) : Host.Outcome State Fault Refusal :=
  issue (specM f.h (offLen f.off) [sOp f.d 1 true, sOp f.a, sOp f.b]) (whenActive f.h (onQueue f.a f.b f.off needWr (dqPop f.d f.scp))) s

/-! ### Ownership records -/

/-- The checks on a word address of the table (R231), in R60's order: alignment, window and translation, the shared window. Records are
not memory (R232), so no permission is needed and nothing is marked (log 74). -/
def ownAddr (s : State) (k va : Nat) : Option Trap :=
  match checkObj s (whoOf s k) va 4 4 {} with
  | .error e => some e.trap
  | .ok _ => none

/-- `own.set` (R231). -/
def ownSetBody (d a b : Field11) (o : Off) (s : State) (k : Nat) (w : Wave) : Res :=
  let va := addrOf (rdS w a.toNat) o
  match ownAddr s k va with
  | some t => .trap t s
  | none =>
    let q := (rdS w b.toNat).toNat
    if q = 0 then .ok ((ownDel s (tenantOf s k) va).setWave k (wrS w d.toNat 1))
    else
      let r := ownPut s (tenantOf s k) va q
      .ok (r.1.setWave k (wrS w d.toNat (if r.2 then 1 else 0)))
/-- `own.clr` (R232). -/
def ownClrBody (a : Field11) (o : Off) (s : State) (k : Nat) (w : Wave) : Res :=
  let va := addrOf (rdS w a.toNat) o
  match ownAddr s k va with
  | some t => .trap t s
  | none => .ok (ownDel s (tenantOf s k) va)

/-- `own.set` (R231). -/
def execOwnSet (f : OwnSetF) (s : State) : Host.Outcome State Fault Refusal :=
  issue (specM f.h (offLen f.off) [sOp f.d 1 true, sOp f.a, sOp f.b]) (whenActive f.h (ownSetBody f.d f.a f.b f.off)) s
/-- `own.clr` (R232). -/
def execOwnClr (f : OwnClrF) (s : State) : Host.Outcome State Fault Refusal :=
  issue (specM f.h (offLen f.off) [sOp f.a]) (whenActive f.h (ownClrBody f.a f.off)) s

end Sys2Proof.Machine
end

