-- ==== Sys2Proof/Machine/Copy.lean ====
section
/-! DEFINITION. Class 10: copies (R209 to R213, R250) and `fence.rec` (R214). -/

set_option linter.unusedVariables false

namespace Sys2Proof.Machine

/-- The scalar registers a record names: its address, or the substitutions of an inline record (R134, R135). -/
def recReads : Rec → List RegRef
  | .mem c => [.s c.toNat]
  | .inl bits =>
    (if bitsAt bits 40 8 = 0xFF then [.s (bitsAt bits 0 7)] else []) ++
      ([48, 64, 80, 96, 112].filter (fun lo => decide (0xFF80 ≤ bitsAt bits lo 16))).map (fun lo => .s (bitsAt bits lo 7))
/-- The length of an instruction with a record: an inline one adds four parcels (R133). -/
def recLen : Rec → Nat
  | .mem _ => 8
  | .inl _ => 24
/-- The register of a completion word as the scoreboard sees it: a token is written, an object's address is read (R86, R87). -/
def cwReads (cw : Cw) : List RegRef := if cw.bo then [.s cw.sreg.toNat] else []
def cwWrites (cw : Cw) : List RegRef := if cw.bo then [] else [.s cw.sreg.toNat]
/-- The spec of an instruction with a completion word and a record. -/
def specCp (h : Hd) (cw : Option Cw) (r : Rec) (opnds : List Opnd) : Spec :=
  let sp := specM h (recLen r) opnds
  { sp with reads := sp.reads ++ recReads r ++ (cw.map cwReads).getD [], cw := (cw.map cwWrites).getD [] }

/-- Whether a wave's group is a matrix group (R242). -/
def isMatrix (s : State) (k : Nat) : Bool := ((s.group? (gidOf k)).map (·.matrix)).getD false

/-- Whether an address lies in the wave's local store, its place and no more (Table 5.2, R57, R60). -/
def inStore (s : State) (k dense : Nat) : Bool :=
  inLocal dense && (match resolve s (whoOf s k) dense 1 {} with
    | .ok _ => true
    | .error _ => false)
/-- The checks of the dense side (R210, R211 step 5): `cp.in` and `cp.out` name a place in the group's local store, whatever the byte count;
`cp.ll` any window. -/
def denseBad (s : State) (k : Nat) (dense bytes : Nat) (localOnly : Bool) (need : Need) : Option Trap :=
  if localOnly && (!inLocal dense || (bytes == 0 && !inStore s k dense)) then some (addrRange dense 0).trap
  else (checkDense s (whoOf s k) dense bytes need).map Fail.trap

/-- A transfer as it stands at issue. -/
def newXfer (s : State) (k : Nat) (w : Wave) (kind : XferKind) (c : Completion) (cw : BitVec 11) (sh : Shape) : Xfer :=
  { kind := kind, gid := gidOf k, wave := k, core := coreOf s k, tenant := tenantOf s k, seq := ((s.group? (gidOf k)).map (·.seq)).getD 0,
    pc := w.pc, cw := c, cwWord := cw, bytes := sh.bytes, shape := sh }

/-- A token that a completion word names while it is pending (R86): the instruction does not stall. -/
def tokenReused (w : Wave) (cw : Cw) : Bool := !cw.bo && w.tokenPend.contains cw.sreg.toNat
def tokenReuse (cw : Cw) : Trap := { cause := .tokenReuse, info0 := w64 cw.sreg.toNat }
/-- The steps of R211: TOKEN_REUSE, for which nothing stalls (R86, R310); the slot; the completion word, the record; then what the
direction adds. -/
def cpBody (cw : Cw) (r : Rec) (ity : Option Ty) (maxLayout : Nat) (go : Completion → Shape → State → Nat → Wave → Res)
    (s : State) (k : Nat) (w : Wave) : Res :=
  if tokenReused w cw then .trap (tokenReuse cw) s
  else if copyFull s (coreOf s k) then .wait .copySlot 0 s
  else match cwCheck s k w cw with
    | .error t => .trap t s
    | .ok c => match obtainRecord s k w r (ity.getD .b8) (copyBad maxLayout) with
      | .error t => .trap t.1 t.2
      | .ok (s, sh) => go c sh s k w

/-- A copy between memory and a dense side (R210). -/
def cpDense (kind : XferKind) (cw : Cw) (a : Field11) (localOnly : Bool) (need : Need) (c : Completion) (sh : Shape) (s : State) (k : Nat)
    (w : Wave) : Res :=
  let dense := (rdS w a.toNat).toNat
  match denseBad s k dense sh.bytes localOnly need with
  | some t => .trap t s
  | none => .ok (startXfer s { newXfer s k w kind c (Cw.word cw) sh with dense := w64 dense })

/-- A copy into a feed (R242, R250): it takes the next stream positions at issue. -/
def cpFeed (b : Bool) (cw : Cw) (c : Completion) (sh : Shape) (s : State) (k : Nat) (w : Wave) : Res :=
  match s.group? (gidOf k) with
  | none => .ok s
  | some g =>
    if !g.matrix then .trap { cause := .feedState, reason := 1, info0 := if b then 1 else 0 } s
    else
      let f := g.feed b
      let s := s.setGroup (gidOf k) (g.setFeed b { f with fillIssued := f.fillIssued + sh.bytes })
      .ok (startXfer s { newXfer s k w (if b then .feedB else .feedA) c (Cw.word cw) sh with at_ := f.fillIssued })

/-- A transfer stops at a failed access (R212): the fault is raised on its wave, at the instruction that issued it, and the group is parked
with the position kept; after the group's exit the transfer is abandoned, a `dq.push` slot is published void with VCAUSE 2, and the record
has PARK 0. -/
def faultXfer (s : State) (x : Xfer) (e : Fail) : State :=
  match s.wave? x.wave with
  | some w => takeTrapAt { s with xfers := kset x.id x s.xfers } x.wave x.pc 0 e.trap
  | none =>
    let s : State := { s with xfers := kdel x.id s.xfers }
    let s := if x.kind = .dqPush then dqPublish s (x.who s) (dqAt s (x.who s) x.queue.toNat) x.ticket 2 else s
    match s.task? x.seq with
    | some t => errorRecord s t.ring { cause := e.cause, core := x.core, tenant := x.tenant, seq := x.seq, gid := x.gid, info0 := e.info0,
                                       info1 := e.info1 }
    | none => s

/-- `cp.in` (R210, R250). -/
def execCpIn (f : CpF) (s : State) : Host.Outcome State Fault Refusal :=
  issue (specCp f.h (some f.cw) f.tsr (if f.dsel = 0 then [sOp f.a] else []))
    (whenActive f.h (cpBody f.cw f.tsr f.ity 4
      (if f.dsel = 0 then cpDense .cpIn f.cw f.a true needWr else cpFeed (f.dsel == 2) f.cw))) s
/-- `cp.out` (R210). -/
def execCpOut (f : CpF) (s : State) : Host.Outcome State Fault Refusal :=
  issue (specCp f.h (some f.cw) f.tsr [sOp f.a])
    (whenActive f.h (cpBody f.cw f.tsr f.ity 3 (cpDense .cpOut f.cw f.a true needRd))) s
/-- `cp.ll` (R210). -/
def execCpLl (f : CpF) (s : State) : Host.Outcome State Fault Refusal :=
  issue (specCp f.h (some f.cw) f.tsr [sOp f.a])
    (whenActive f.h (cpBody f.cw f.tsr f.ity 4 (cpDense .cpLl f.cw f.a false needWr))) s
/-- `fence.rec` (R214): the issuing core's record cache is empty. -/
def execFenceRec (f : BareF) (s : State) : Host.Outcome State Fault Refusal :=
  issue (specM f.h 8 []) (whenActive f.h (fun s k _ => .ok (s.modCore (coreOf s k) (fun c => { c with recCache := [] })))) s

end Sys2Proof.Machine
end

