-- ==== Sys2Proof/Machine/Matrix.lean ====
section
/-! DEFINITION. Class 11 without `ssm`: accumulator tiles (R254 to R258), matrix multiply (R259 to R261), codebooks (R262), crews (R263 to
R265), the fused epilogue store (R266 to R268), `feed.skip` and `feed.mark` (R252, R253), and the completion of matrix-queue entries. -/

set_option linter.unusedVariables false

namespace Sys2Proof.Machine

/-- ILLEGAL_CONVERGENCE of R243, the first check of class 11, then the group check of R242 (not for `cb.load`); INFO0 of reason 0x6 is 0 for an
instruction that names no handle (R278; log 104). -/
def matrixGate (h : Hd) (handle : Nat) (needGroup : Bool) (f : State → Nat → Wave → Res) : State → Nat → Wave → Res := fun s k w =>
  if activeOf w h.mask ≠ BitVec.allOnes 32 then .trap { cause := .illegalConvergence } s
  else if needGroup && !isMatrix s k then .trap { cause := .accHandle, reason := 6, info0 := w64 handle } s
  else f s k w

/-- Reasons of ACC_HANDLE (Table 15.6). -/
def accTrap (handle reason : Nat) : Trap := { cause := .accHandle, reason := reason, info0 := w64 handle }

/-- A handle pending on an entry of the matrix queue, and on an `acc.ld` in flight (R256). -/
def mqPending (g : Group) (k h : Nat) : Bool := g.mq.any (fun e => decide (e.wave = k) && decide (e.ad = h) && !e.ssm)
def ldPending (s : State) (k h : Nat) : Bool := s.xfers.any (fun p => p.2.kind == .accLd && p.2.wave == k && p.2.handle == h)

/-- Space of a group's tiles, and space its `acc.st` transfers hold (R255, R268). -/
def Tile.bytes (t : Tile) : Nat := t.m * t.n * (t.ty.width / 8)
def accUsed (s : State) (gid : Nat) : Nat := ((s.wavesOf gid).flatMap (fun p => p.2.tiles.map (fun t => Tile.bytes t.2))).sum
def accHeld (s : State) (gid : Nat) : Nat := ((s.xfers.filter (fun p => p.2.gid = gid)).map (fun p => p.2.held)).sum

/-- Wait while a handle is pending, then give its tile, or ACC_HANDLE reason 1 (R256). -/
def withTile (h : Nat) (f : Tile → Group → State → Nat → Wave → Res) : State → Nat → Wave → Res := fun s k w =>
  match s.group? (gidOf k) with
  | none => .ok s
  | some g =>
    if mqPending g k h || ldPending s k h then .wait .handle (w64 h) s
    else
      match kfind h w.tiles with
      | none => .trap (accTrap h 1) s
      | some t => f t g s k w

/-! ### Matrix multiply -/

/-- The tile type a format accumulates into (R259). -/
def mmaTile (f : Ty) : Ty :=
  match f with
  | .f64 => .f64
  | .i8 => .i32
  | _ => .f32
/-- Bytes of an operand of rows × K elements with its scales (R260). -/
def operandBytes (f : Ty) (rows k blk : Nat) : Nat := rows * k * f.width / 8 + (if blk = 0 then 0 else rows * k / blk)

/-- The checks and the issue of `mma` and `mma.crew` (R261): positions taken, the entry in the queue, the handle pending. A full queue stalls before
FEED_STATE is tested, and FEED_STATE names feed A where both fall short (R245, R252; log 103). -/
def mmaBody (i : Instr) (fmt : Ty) (crewOp : Bool) (f : MmaF) (s : State) (k : Nat) (w : Wave) : Res :=
  let h := f.ad.toNat
  match s.group? (gidOf k) with
  | none => .ok s
  | some g =>
    if ldPending s k h then .wait .handle (w64 h) s
    else
      match kfind h w.tiles with
      | none => .trap (accTrap h 1) s
      | some t =>
        if t.ty ≠ mmaTile fmt then .trap (accTrap h 2) s
        else if 8 ≤ g.mq.length then .wait .matrixSlot 0 s
        else
          let kk := 16 * (f.kx.toNat + 1)
          let nA := operandBytes fmt t.m kk (blkSize f.ablk)
          let nB := if crewOp && decide (1 < g.crew) && decide (g.rank ≠ 0) then 0 else operandBytes fmt t.n kk (blkSize f.bblk)
          if g.feedA.fillIssued < g.feedA.consume + nA then .trap { cause := .feedState, reason := 2, info0 := 0 } s
          else if g.feedB.fillIssued < g.feedB.consume + nB then .trap { cause := .feedState, reason := 2, info0 := 1 } s
          else
            let inCrew := crewOp && decide (1 < g.crew)
            let e : MqEntry := { wave := k, pc := w.pc, parcels := infoParcels (encode i), crew := inCrew, fmt := fmt, ad := h, m := t.m, n := t.n,
                                 k := kk, ablk := blkSize f.ablk, bblk := blkSize f.bblk, pA := g.feedA.consume, pB := g.feedB.consume,
                                 nA := nA, nB := nB, tabA := w.cbA, tabB := w.cbB, opNo := if inCrew then g.crewOps + 1 else 0 }
            .ok (s.setGroup (gidOf k) { g with
              mq := g.mq ++ [e]
              feedA := { g.feedA with consume := g.feedA.consume + nA }
              feedB := { g.feedB with consume := g.feedB.consume + nB }
              crewOps := if inCrew then g.crewOps + 1 else g.crewOps })

def mmaExec (i : Instr) (fmt : Ty) (crewOp : Bool) (f : MmaF) (s : State) : Host.Outcome State Fault Refusal :=
  issue (specM f.h 8 []) (matrixGate f.h f.ad.toNat true (mmaBody i fmt crewOp f)) s

/-! ### Execution of an entry -/

/-- Element number i of an operand (R93, R97): its value, from bytes in dense order. -/
def elemVal (fmt : Ty) (tab : BitVec 256) (bs : List Byte) (i : Nat) : FV :=
  match fmt with
  | .cb4 =>
    let c := (bs.getD (i / 2) 0).toNat / 2 ^ (4 * (i % 2)) % 16
    fdec (fmtOf .bf16) (bitsAt tab (16 * c) 16)
  | _ => let z := fmt.width / 8
    fdec (fmtOf fmt) (leNat ((bs.drop (z * i)).take z))
/-- An SE8 scale (R98). -/
def se8 (e : Nat) : FV := if e = 255 then .nan else .fin false 1 ((e : Int) - 127)
/-- A row of scaled element values (R261): rows × K elements, then their scales. -/
def operandRow (fmt : Ty) (tab : BitVec 256) (bs : List Byte) (rows k blk row : Nat) : List FV :=
  (List.range k).map (fun j =>
    let v := elemVal fmt tab bs (row * k + j)
    if blk = 0 then v else fmulv v (se8 ((bs.getD (rows * k * fmt.width / 8 + row * (k / blk) + j / blk) 0).toNat)))
/-- A row of `i8` values (R108). -/
def intRow (bs : List Byte) (k row : Nat) : List Int := (List.range k).map (fun j => readInt .i8 (bs.getD (row * k + j) 0).toNat)

/-- R107: the exact sum of the old element and the products, rounded once. -/
def dotFp32 (c : Nat) (a b : List FV) : Nat :=
  fround (fmtOf .f32) .rne false (fsum (fdec (fmtOf .f32) c :: List.zipWith fmulv a b))
/-- R108 for INT8. -/
def dotInt (c : Nat) (a b : List Int) : Nat := wrapTo 32 (readInt .i32 c + (List.zipWith (· * ·) a b).sum)
/-- R108 for FP64: one fused multiply-add a step. -/
def dotFp64 (c : Nat) (a b : List FV) : Nat :=
  (List.zip a b).foldl (fun c p => fround (fmtOf .f64) .rne false (fadd .rne (fdec (fmtOf .f64) c) (fmulv p.1 p.2))) c

/-- The tile after an entry (R261), from the operands' bytes and the table the B codes use (R263). -/
def mmaTileOut (e : MqEntry) (tabB : BitVec 256) (t : Tile) (as bs : List Byte) : Tile :=
  let old (i j : Nat) : Nat := (t.e.getD (i * e.n + j) 0).toNat
  let rows : List (List Nat) :=
    if e.fmt = .i8 then
      let bcols := (List.range e.n).map (fun j => intRow bs e.k j)
      (List.range e.m).map (fun i => let a := intRow as e.k i
        bcols.mapIdx (fun j b => dotInt (old i j) a b))
    else
      let bcols := (List.range e.n).map (fun j => operandRow e.fmt tabB bs e.n e.k e.bblk j)
      (List.range e.m).map (fun i => let a := operandRow e.fmt e.tabA as e.m e.k e.ablk i
        bcols.mapIdx (fun j b => if e.fmt = .f64 then dotFp64 (old i j) a b else dotFp32 (old i j) a b))
  { t with e := rows.flatten.map w64 }

/-- Bytes of a feed at stream positions, or the copy that cannot deliver one (R250, R272). -/
def feedBytes (s : State) (gid : Nat) (b : Bool) (p : Nat) : Nat → Except (Option (Nat × Fail)) (List Byte)
  | 0 => .ok []
  | n + 1 =>
    match feedByte s gid b p with
    | .error e => .error e
    | .ok x => match feedBytes s gid b (p + 1) n with
      | .error e => .error e
      | .ok r => .ok (x :: r)

/-- READ advances to a position, with FILL and DRAIN, past the skipped bytes below it (R249, R253, R261). -/
def Feed.advance (f : Feed) (pos : Nat) : Feed :=
  { f with read := pos, fill := pos, drain := pos, skips := f.skips.filter (fun q => decide (pos < q.2)) }
/-- The bytes that an operation has taken, from the positions it took at issue (R252). What stands before them was skipped and has still to
arrive (R253). -/
def operandRead (s : State) (gid : Nat) (b : Bool) (p n : Nat) : Except (Option (Nat × Fail)) (List Byte) :=
  if n = 0 then .ok []
  else
    let r := min p (((s.group? gid).map (fun g => (g.feed b).read)).getD p)
    match feedBytes s gid b r (p - r + n) with
    | .error e => .error e
    | .ok bs => .ok (bs.drop (p - r))
/-- A byte that a feed copy cannot deliver stops that copy (R212). -/
def feedStop (s : State) (x : Option (Nat × Fail)) : State :=
  match x with
  | some (id, f) => match kfind id s.xfers with
    | some x => faultXfer s x f
    | none => s
  | none => s
/-- The pages a feed operand was read from are marked (R64). -/
def feedTouch (s : State) (gid : Nat) (b : Bool) (p n : Nat) : State :=
  (s.xfers.filter (fun x => x.2.gid = gid && x.2.kind == (if b then XferKind.feedB else .feedA))).foldl (fun s x =>
    ((List.range n).filter (fun j => decide (x.2.at_ ≤ p + j) && decide (p + j < x.2.at_ + x.2.bytes))).foldl
      (fun s j => denseTouch s x.2.tenant x.2.shape (p + j - x.2.at_)) s) s

/-- How many of n bytes of a feed from a position on can be delivered, up to the first that cannot (R253). -/
def feedReach (s : State) (gid : Nat) (b : Bool) (p : Nat) : Nat → Nat
  | 0 => 0
  | n + 1 => match feedByte s gid b p with
    | .error (some _) => 0
    | _ => feedReach s gid b (p + 1) n + 1
/-- READ passes skipped bytes as far as they can be delivered, once every earlier operation on the feed has completed (R253). -/
def passSkips (gid : Nat) (b : Bool) : Nat → State → State
  | 0, s => s
  | n + 1, s =>
    match s.group? gid with
    | none => s
    | some g =>
      match (g.feed b).skips with
      | (p, q) :: rest =>
        if p ≠ (g.feed b).read then s
        else
          let m := feedReach s gid b p (q - p)
          let t := (feedTouch s gid b p m).setGroup gid (g.setFeed b { (g.feed b).advance (p + m) with
            skips := if p + m < q then (p + m, q) :: rest else rest })
          if p + m < q then t else passSkips gid b n t
      | [] => s

/-- Feed copies whose last position READ has reached complete (R251). -/
def drainFeeds (s : State) (gid : Nat) : State :=
  match s.group? gid with
  | none => s
  | some g =>
    let xs := s.xfers.filter (fun p => p.2.gid = gid && (match p.2.kind with
      | .feedA => decide (p.2.at_ + p.2.bytes ≤ g.feedA.read)
      | .feedB => decide (p.2.at_ + p.2.bytes ≤ g.feedB.read)
      | _ => false))
    xs.foldl (fun s p => finishXfer s p.2) s

/-- The crew of a group in rank order, or the group alone (R263). -/
def crewRanks (s : State) (gid : Nat) : List (Nat × Group) :=
  match s.group? gid with
  | none => []
  | some g =>
    if g.crew ≤ 1 then [(gid, g)]
    else sortBy (fun a b => decide (a.2.rank ≤ b.2.rank)) (s.groups.filter (fun p => p.2.seq == g.seq && p.2.crewLead == g.crewLead && p.2.origin == g.origin))

/-- The head entry of a group's queue completes with its operands' bytes and the table its B codes use (R261, R263). -/
def mmaFinish (gid : Nat) (tabB : BitVec 256) (as bs : List Byte) (s : State) : State :=
  match s.group? gid with
  | none => s
  | some g =>
    match g.mq with
    | [] => s
    | e :: rest =>
      let s := feedTouch (feedTouch s gid false e.pA e.nA) gid true e.pB e.nB
      let s := s.setGroup gid { g with mq := rest
                                       feedA := if e.nA = 0 then g.feedA else g.feedA.advance (e.pA + e.nA)
                                       feedB := if e.nB = 0 then g.feedB else g.feedB.advance (e.pB + e.nB) }
      s.modWave e.wave (fun w => match kfind e.ad w.tiles with
        | some t => { w with tiles := kset e.ad (mmaTileOut e tabB t as bs) w.tiles }
        | none => w)

/-- The A bytes of the heads of several groups' queues, or the first copy that cannot deliver one. -/
def headsRead (s : State) : List Nat → Except (Option (Nat × Fail)) (List (Nat × List Byte))
  | [] => .ok []
  | g :: r =>
    let e := (((s.group? g).bind (·.mq.head?)).getD {})
    match operandRead s g false e.pA e.nA, headsRead s r with
    | .error x, _ => .error x
    | _, .error x => .error x
    | .ok as, .ok xs => .ok ((g, as) :: xs)

/-- The heads of several groups' queues complete in one cycle with the B bytes of one feed, all of them or, where a byte cannot be delivered,
none (R212, R261, R263, R265). -/
def mmaFinishAll (s : State) (lead : Nat) (z : MqEntry) (ms : List Nat) : Except State State :=
  match headsRead s ms, operandRead s lead true z.pB z.nB with
  | .error x, _ => .error (feedStop s x)
  | _, .error x => .error (feedStop s x)
  | .ok xs, .ok bs => .ok (xs.foldl (fun s p => mmaFinish p.1 z.tabB p.2 bs s) s)

/-- READ passes what it can of a group's feeds, and the feed copies whose end it reaches complete (R251, R253). -/
def passFeeds (s : State) (g : Nat) : State :=
  let pass (b : Bool) (s : State) : State := passSkips g b (match s.group? g with
    | some x => (x.feed b).skips.length
    | none => 0) s
  drainFeeds (pass true (pass false s)) g
/-- How far the engine may have taken a feed's bytes: past what completed operations have consumed, the skips that follow, and what the operation
in execution takes as it arrives (DRAIN, R249, R253). -/
def drainEnd (g : Group) (b : Bool) : Nat :=
  let skip (r : Nat) : Nat := (g.feed b).skips.foldl (fun r q => if q.1 ≤ r then max r q.2 else r) r
  let r := skip (g.feed b).read
  match g.mq.head? with
  | some e =>
    let p := if b then e.pB else e.pA
    let n := if b then e.nB else e.nA
    if (!e.crew || e.started) && decide (0 < n) && decide (p = r) then skip (p + n) else r
  | none => r

/-- After completions: feed copies, and the waves waiting for a slot or a handle (R245, R251, R256). -/
def afterMatrix (gs : List Nat) (s : State) : State :=
  gs.foldl (fun s g =>
    let s := passFeeds s g
    match s.group? g with
    | some x => match x.core? with
      | some c => wakeEngine s c
      | none => s
    | none => s) s

/-- The entries of a crew's operation n: rank, the member's group where it has not exited, and the entry; the rank of a member that has exited
stands with the entry it had issued (R263, R264). -/
def crewEntries (s : State) (gid n : Nat) : List (Nat × Option Nat × MqEntry) :=
  let own (q : List MqEntry) : Option MqEntry := q.find? (fun e => e.crew && e.opNo == n)
  let here := (crewRanks s gid).filterMap (fun p => (own p.2.mq).map (fun e => (p.2.rank, some p.1, e)))
  let gone := (((s.group? gid).map (·.crewGone)).getD []).filterMap (fun q => (own q.2.2).map (fun e => (q.1, none, e)))
  sortBy (fun a b => decide (a.1 ≤ b.1)) (here ++ gone)

/-- A member has exited without issuing operation n, which this crew can then never form (R264). -/
def crewLacks (s : State) (gid n : Nat) : Bool := (((s.group? gid).map (·.crewGone)).getD []).any (fun q => decide (q.2.1 < n))

/-- The lowest-ranked member whose entry of operation n disagrees with rank 0's in format, K, N or BBLK, once every member has issued it (R264). -/
def crewDisagrees (s : State) (gid n : Nat) : Option (Nat × Option Nat × MqEntry) :=
  match crewEntries s gid n with
  | (0, _, z) :: r =>
    if r.length + 1 = ((s.group? gid).map (·.crew)).getD 0 then
      r.find? (fun p => decide (p.2.2.fmt ≠ z.fmt) || decide (p.2.2.k ≠ z.k) || decide (p.2.2.n ≠ z.n) || decide (p.2.2.bblk ≠ z.bblk))
    else none
  | _ => none

/-- Whether a crew's operation n may begin: every member has issued it, rank 0 among those left, and every member left is on its core with the
operation at its queue's head, not begun (R263; log 80). -/
def crewReady (s : State) (gid n : Nat) : Bool :=
  let ms := crewRanks s gid
  decide ((crewEntries s gid n).length = ((s.group? gid).map (·.crew)).getD 0) && ((ms.head?.map (fun p => p.2.rank == 0)).getD false) &&
    ms.all (fun p => p.2.core?.isSome && (match p.2.mq.head? with
      | some x => x.crew && x.opNo == n && !x.started
      | none => false))

/-- CREW_MISMATCH of a disagreement on operation n (R264): the record names the rank that disagrees and its instruction; where that member has
exited, it is raised on the lowest rank left (log 80). -/
def crewMismatch (s : State) (gid n : Nat) (d : Nat × Option Nat × MqEntry) : State :=
  let t : Trap := { cause := .crewMismatch, info0 := w64 d.1, info1 := w64 n, lanes := some (BitVec.allOnes 32) }
  match d.2.1, (crewEntries s gid n).find? (fun p => p.2.1.isSome) with
  | some _, _ => takeTrapAt s d.2.2.wave d.2.2.pc 0 t
  | none, some p => takeTrapAt s p.2.2.wave d.2.2.pc 0 t
  | none, none => s
/-- CREW_MISMATCH of an operation that a member left without issuing (R264): on the lowest rank left that has still to issue it, else on the
lowest that has (log 80). -/
def crewLeft (s : State) (gid n : Nat) : State :=
  match (crewRanks s gid).find? (fun p => decide (p.2.crewOps < n)) with
  | some p => crewMismatchUnissued s p.1 n
  | none => match (crewEntries s gid n).find? (fun p => p.2.1.isSome) with
    | some d => crewMismatch s gid n d
    | none => s

/-- CREW_OPERATION_START on the crew of the input's group (R263, R264): an operation that a member left unissued, or on which a member disagrees,
parks the crew; else the operation at the queues' heads begins. -/
def execCrewOperationStart (s : State) : Host.Outcome State Fault Refusal :=
  let gid := s.input.who
  match s.group? gid with
  | none => .next s
  | some g =>
    let ops := (g.mq.filter (·.crew)).map (·.opNo)
    match ops.find? (crewLacks s gid) with
    | some n => .next (crewLeft s gid n)
    | none => match ops.findSome? (fun n => (crewDisagrees s gid n).map (fun d => (n, d))) with
      | some (n, d) => .next (crewMismatch s gid n d)
      | none =>
        if !(match ops.head? with
          | some n => crewReady s gid n
          | none => false) then .next s
        else .next ((crewRanks s gid).foldl (fun s p => s.modGroup p.1 (fun g => { g with mq := match g.mq with
          | e :: r => { e with started := true } :: r
          | [] => [] })) s)

/-- Whether the head entry of a group may complete as a matrix operation now: a crew's while every member is on its core with the operation begun
(R263), and while rank 0, whose feed B it takes, is left (log 80). -/
def mmaReady (s : State) (gid : Nat) : Bool :=
  match s.group? gid with
  | some g => g.core?.isSome && (match g.mq.head? with
    | some e => !e.ssm && (!e.crew || (((crewRanks s gid).head?.map (fun p => p.2.rank == 0)).getD false &&
        (crewRanks s gid).all (fun p => p.2.core?.isSome && (match p.2.mq.head? with
          | some x => x.crew && x.opNo == e.opNo && x.started
          | none => false))))
    | none => false)
  | none => false

/-- The groups whose heads complete together, and the group and the entry that bring B: the crew and rank 0, or a group by itself (R263). -/
def mmaSet (s : State) (gid : Nat) (e : MqEntry) : List Nat × Nat × MqEntry :=
  if e.crew then
    match crewRanks s gid with
    | p :: r => ((p :: r).map (·.1), p.1, (p.2.mq.head?).getD e)
    | [] => ([gid], gid, e)
  else ([gid], gid, e)

/-- MMA_COMPLETE on the input's group (R261, R263): the head entry completes, for a crew operation on every member at once. -/
def execMmaComplete (s : State) : Host.Outcome State Fault Refusal :=
  let gid := s.input.who
  if !mmaReady s gid then .next s
  else
    match (s.group? gid).bind (·.mq.head?) with
    | none => .next s
    | some e =>
      let m := mmaSet s gid e
      match mmaFinishAll s m.2.1 m.2.2 m.1 with
      | .ok s => .next (afterMatrix m.1 s)
      | .error s => .next s

/-! ### Tiles -/

/-- `acc.clr` (R255). -/
def accClrBody (f : AccClrF) (s : State) (k : Nat) (w : Wave) : Res :=
  let h := f.ad.toNat
  match s.group? (gidOf k) with
  | none => .ok s
  | some g =>
    if mqPending g k h || ldPending s k h then .wait .handle (w64 h) s
    else
      let m := 16 * (f.mx.toNat + 1)
      let n := 16 * (f.nx.toNat + 1)
      let w := { w with tiles := kdel h w.tiles }
      let s := s.setWave k w
      let need := m * n * (f.ty.width / 8)
      let cap := g.accKib * 1024
      if cap < accUsed s (gidOf k) + need then .trap (accTrap h 3) s
      else if cap < accUsed s (gidOf k) + accHeld s (gidOf k) + need then .wait .accSpace (w64 h) s
      else .ok (s.setWave k { w with tiles := kset h { ty := f.ty, m := m, n := n, e := List.replicate (m * n) 0 } w.tiles })
def execAccClr (f : AccClrF) (s : State) : Host.Outcome State Fault Refusal :=
  issue (specM f.h 8 []) (matrixGate f.h f.ad.toNat true (accClrBody f)) s

/-- Types `acc.ld` admits into a tile (R257). -/
def accLdTys (t : Tile) : List Ty :=
  match t.ty with
  | .f64 => [.f64]
  | .i32 => [.i32, .i16, .i8]
  | _ => [.f32, .f16, .bf16]
/-- `acc.ld` (R257): a transfer that fills the tile. -/
def execAccLd (f : AccLdF) (s : State) : Host.Outcome State Fault Refusal :=
  issue (specCp f.h none f.tsr []) (matrixGate f.h f.ad.toNat true (fun s k w =>
    if copyFull s (coreOf s k) then .wait .copySlot 0 s
    else withTile f.ad.toNat (fun t g s k w =>
      match obtainRecord s k w f.tsr (f.ity.getD .b8) (tileBad t (accLdTys t)) with
      | .error e => .trap e.1 e.2
      | .ok (s, sh) => .ok (startXfer s { newXfer s k w .accLd .none 0 sh with handle := f.ad.toNat })) s k w)) s

/-- The place of `acc.mov` (R258): row0 and col0, or ACC_HANDLE reason 5. -/
def accMovAt (t : Tile) (x : Word) : Option (Nat × Nat) :=
  let r := bitsAt x 0 16
  let c := bitsAt x 16 16
  if t.m ≤ r ∨ t.n ≤ c ∨ (t.ty ≠ .f64 ∧ c % 2 = 1) then none else some (r, c)
/-- The element value of a tile at a row and column. -/
def Tile.at_ (t : Tile) (i j : Nat) : Nat := (t.e.getD (i * t.n + j) 0).toNat
/-- What lane L reads from a tile (R258). -/
def accGet (t : Tile) (r c l : Nat) : Word :=
  if t.m ≤ r + l then 0
  else if t.ty = .f64 then w64 (t.at_ (r + l) c)
  else w64 (t.at_ (r + l) c + 2 ^ 32 * t.at_ (r + l) (c + 1))
/-- A tile with lane L's bits written (R258). -/
def accPut (t : Tile) (r c l : Nat) (x : Word) : Tile :=
  if t.m ≤ r + l then t
  else
    let i := (r + l) * t.n + c
    if t.ty = .f64 then { t with e := t.e.set i x }
    else { t with e := (t.e.set i (w64 (x.toNat % 2 ^ 32))).set (i + 1) (w64 (x.toNat / 2 ^ 32)) }
/-- `acc.mov.get`. -/
def execAccMovGet (f : AccMovF) (s : State) : Host.Outcome State Fault Refusal :=
  issue (specM f.h 8 [vOp f.d 1 true, sOp f.a]) (matrixGate f.h f.ad.toNat true (withTile f.ad.toNat (fun t g s k w =>
    match accMovAt t (rdS w f.a.toNat) with
    | none => .trap (accTrap f.ad.toNat 5) s
    | some p => .ok (s.setWave k (wrLanes w f.d.toNat (BitVec.allOnes 32) (accGet t p.1 p.2)))))) s
/-- `acc.mov.put`. -/
def execAccMovPut (f : AccMovF) (s : State) : Host.Outcome State Fault Refusal :=
  issue (specM f.h 8 [vOp f.d, sOp f.a]) (matrixGate f.h f.ad.toNat true (withTile f.ad.toNat (fun t g s k w =>
    match accMovAt t (rdS w f.a.toNat) with
    | none => .trap (accTrap f.ad.toNat 5) s
    | some p =>
      let t' := (List.range 32).foldl (fun t l => accPut t p.1 p.2 l (rdV w f.d.toNat l)) t
      .ok (s.setWave k { w with tiles := kset f.ad.toNat t' w.tiles })))) s

/-! ### Fused epilogue store -/

/-- The output types of Table 15.3. -/
def otyOk (tile oty : Ty) : Bool :=
  [Ty.f32, .f16, .bf16, .f8e4, .f8e5, .i8, .i16, .i32, .n8, .n16, .n32].contains oty || (oty == .f64 && tile == .f64)
/-- The epilogue word of a tile: its output type, or none where R266 refuses it. -/
def epilogueTy (tile : Ty) (e : Nat) : Option Ty :=
  if e / 2 ^ 43 ≠ 0 ∨ (e / 2 ^ 37 % 8 ≠ 0 ∧ e / 2 ^ 37 % 8 < 4) then none
  else match Ty.ofCode (BitVec.ofNat 5 (e / 2 ^ 32 % 32)) with
    | some t => if otyOk tile t then some t else none
    | none => none
/-- RMO of an epilogue word (Table 15.3). -/
def epilogueRm (e : Nat) : Rm := if e / 2 ^ 37 % 8 = 0 then .rne else rmOf (e / 2 ^ 37 % 8 - 4)

/-- The conversion of R267. -/
def epilogueElem (tile oty : Ty) (e : Nat) (loHi : Word) (bias : Option Nat) (x : Nat) : Nat :=
  let wt : Ty := if tile = .f64 then .f64 else .f32
  let fw := fmtOf wt
  let v : FV := if tile = .i32 then FV.ofInt (readInt .i32 x) else fdec fw x
  let p := fmulv (fdec (fmtOf .f32) (e % 2 ^ 32)) v
  let u := fround fw .rne false (fsum (p :: (match bias with
    | some b => [fdec fw b]
    | none => [])))
  let lim (y : Nat) : Nat := convert envRne false .f32 wt y
  let u := if e / 2 ^ 41 % 2 = 1 then
      fminmax fw false (fminmax fw true u (lim (bitsAt loHi 0 32))) (lim (bitsAt loHi 32 32))
    else u
  convert { rm := epilogueRm e, daz := false, ftz := false } (e / 2 ^ 40 % 2 == 1) wt oty u

/-- `acc.st` (R266 to R268). The slot of the copy engine comes first, then the completion word, the handle, the epilogue word, the record and the
bias (log 103); TOKEN_REUSE before all, as it does not stall (R86, R310). -/
def accStBody (f : AccStF) (s : State) (k : Nat) (w : Wave) : Res :=
  let h := f.ad.toNat
  if tokenReused w f.cw then .trap (tokenReuse f.cw) s
  else if copyFull s (coreOf s k) then .wait .copySlot 0 s
  else match cwCheck s k w f.cw with
    | .error t => .trap t s
    | .ok c => withTile h (fun t g s k w =>
      let e := (rdS w f.sb.toNat).toNat
      match epilogueTy t.ty e with
      | none => .trap (accTrap h 4) s
      | some oty =>
        match obtainRecord s k w f.tsr oty (tileBad t [oty]) with
        | .error x => .trap x.1 x.2
        | .ok (s, sh) =>
          let bz := if t.ty = .f64 then 8 else 4
          let ba := (rdS w (f.sb.toNat + 2)).toNat
          let hasBias := decide (e / 2 ^ 42 % 2 = 1)
          let bad : Option Trap :=
            if !hasBias then none
            else if ba % bz ≠ 0 then some { cause := .misaligned, info0 := w64 ba, info1 := w64 bz }
            else denseBad s k ba (t.n * bz) true needRd
          match bad with
          | some x => .trap x s
          | none =>
            let bias (j : Nat) : Option Nat :=
              if hasBias then some (leNat (((rdVa s (whoOf s k) ba (t.n * bz)).drop (bz * j)).take bz)) else none
            let biases := (List.range t.n).map bias
            let bytes := (List.range (t.m * t.n)).flatMap (fun q =>
              leBytes (oty.width / 8) (epilogueElem t.ty oty e (rdS w (f.sb.toNat + 1)) (biases.getD (q % t.n) none) (t.e.getD q 0).toNat))
            let s := s.setWave k { w with tiles := kdel h w.tiles }
            .ok (startXfer s { newXfer s k w .accSt c (Cw.word f.cw) sh with handle := h, data := bytes, held := Tile.bytes t })) s k w
def execAccSt (f : AccStF) (s : State) : Host.Outcome State Fault Refusal :=
  issue (specCp f.h (some f.cw) f.tsr [sOp7 f.sb 3]) (matrixGate f.h f.ad.toNat true (accStBody f)) s

/-! ### Feeds and codebooks -/

/-- `feed.skip` (R253). -/
def execFeedSkip (f : FeedSkipF) (s : State) : Host.Outcome State Fault Refusal :=
  issue (specM f.h 8 [sOp f.a]) (matrixGate f.h 0 true (fun s k w =>
    match s.group? (gidOf k) with
    | none => .ok s
    | some g =>
      let n := (rdS w f.a.toNat).toNat
      let x := g.feed f.fsel
      if x.fillIssued < x.consume + n then .trap { cause := .feedState, reason := 2, info0 := if f.fsel then 1 else 0 } s
      else
        let y := { x with consume := x.consume + n, skips := x.skips ++ [(x.consume, x.consume + n)] }
        .ok (afterMatrix [gidOf k] (s.setGroup (gidOf k) (g.setFeed f.fsel y))))) s
/-- `feed.mark` (R253). -/
def execFeedMark (f : FeedMarkF) (s : State) : Host.Outcome State Fault Refusal :=
  issue (specM f.h 8 [sOp f.d 1 true]) (matrixGate f.h 0 true (fun s k w =>
    match s.group? (gidOf k) with
    | none => .ok s
    | some g => .ok (s.setWave k (wrS w f.d.toNat (w64 (g.feed f.fsel).consume))))) s
/-- `cb.load` (R262). -/
def execCbLoad (f : CbLoadF) (s : State) : Host.Outcome State Fault Refusal :=
  issue (specM f.h 8 [sOp f.a]) (matrixGate f.h 0 false (fun s k w =>
    let va := (rdS w f.a.toNat).toNat
    match checkOne s (whoOf s k) va 32 32 needRd .plain with
    | .error e => .trap e.trap s
    | .ok l =>
      let t := BitVec.ofNat 256 (rdN s l 32)
      .ok (touch (s.setWave k (if f.tsel then { w with cbB := t } else { w with cbA := t })) (tenantOf s k) va false))) s

/-! ### `mma` and `mma.crew`, by format (R259, R263) -/

/-- `mma.f64`. -/
def execMmaF64 (f : MmaF) (s : State) : Host.Outcome State Fault Refusal := mmaExec (.mmaF64 f) .f64 false f s
/-- `mma.f32`. -/
def execMmaF32 (f : MmaF) (s : State) : Host.Outcome State Fault Refusal := mmaExec (.mmaF32 f) .f32 false f s
/-- `mma.f16`. -/
def execMmaF16 (f : MmaF) (s : State) : Host.Outcome State Fault Refusal := mmaExec (.mmaF16 f) .f16 false f s
/-- `mma.bf16`. -/
def execMmaBf16 (f : MmaF) (s : State) : Host.Outcome State Fault Refusal := mmaExec (.mmaBf16 f) .bf16 false f s
/-- `mma.f8e4`. -/
def execMmaF8e4 (f : MmaF) (s : State) : Host.Outcome State Fault Refusal := mmaExec (.mmaF8e4 f) .f8e4 false f s
/-- `mma.f8e5`. -/
def execMmaF8e5 (f : MmaF) (s : State) : Host.Outcome State Fault Refusal := mmaExec (.mmaF8e5 f) .f8e5 false f s
/-- `mma.i8`. -/
def execMmaI8 (f : MmaF) (s : State) : Host.Outcome State Fault Refusal := mmaExec (.mmaI8 f) .i8 false f s
/-- `mma.cb4`. -/
def execMmaCb4 (f : MmaF) (s : State) : Host.Outcome State Fault Refusal := mmaExec (.mmaCb4 f) .cb4 false f s
/-- `mma.crew.f64`. -/
def execMmaCrewF64 (f : MmaF) (s : State) : Host.Outcome State Fault Refusal := mmaExec (.mmaCrewF64 f) .f64 true f s
/-- `mma.crew.f32`. -/
def execMmaCrewF32 (f : MmaF) (s : State) : Host.Outcome State Fault Refusal := mmaExec (.mmaCrewF32 f) .f32 true f s
/-- `mma.crew.f16`. -/
def execMmaCrewF16 (f : MmaF) (s : State) : Host.Outcome State Fault Refusal := mmaExec (.mmaCrewF16 f) .f16 true f s
/-- `mma.crew.bf16`. -/
def execMmaCrewBf16 (f : MmaF) (s : State) : Host.Outcome State Fault Refusal := mmaExec (.mmaCrewBf16 f) .bf16 true f s
/-- `mma.crew.f8e4`. -/
def execMmaCrewF8e4 (f : MmaF) (s : State) : Host.Outcome State Fault Refusal := mmaExec (.mmaCrewF8e4 f) .f8e4 true f s
/-- `mma.crew.f8e5`. -/
def execMmaCrewF8e5 (f : MmaF) (s : State) : Host.Outcome State Fault Refusal := mmaExec (.mmaCrewF8e5 f) .f8e5 true f s
/-- `mma.crew.i8`. -/
def execMmaCrewI8 (f : MmaF) (s : State) : Host.Outcome State Fault Refusal := mmaExec (.mmaCrewI8 f) .i8 true f s
/-- `mma.crew.cb4`. -/
def execMmaCrewCb4 (f : MmaF) (s : State) : Host.Outcome State Fault Refusal := mmaExec (.mmaCrewCb4 f) .cb4 true f s

end Sys2Proof.Machine
end

