-- ==== Sys2Proof/Machine/Ssm.lean ====
section
/-! DEFINITION. `ssm`, the state-space scan (R271 to R277). -/

set_option linter.unusedVariables false

namespace Sys2Proof.Machine

/-- The control block's fields as read (Table 15.5). -/
structure Scan where
  l : Nat
  t : Nat
  p : Nat
  h : Nat
  n : Nat
  xf : Ty
  bf : Ty
  cf : Ty
  dtf : Ty
  sf : Ty
  yf : Ty
  src : Bool
  xa : Nat
  ba : Nat
  ca : Nat
  dta : Nat
  aa : Nat
  sa : Nat
  ya : Nat
  deriving DecidableEq, Repr

/-- The format fields XF, BF, CF and DTF. -/
def ssmFmt (c : Nat) : Ty :=
  match c % 4 with
  | 0 => .bf16
  | 1 => .f16
  | 2 => .f8e4
  | _ => .f8e5

def scanOf (b : BitVec 512) : Scan :=
  let f (lo n : Nat) : Nat := bitsAt b lo n
  { l := f 0 16, t := f 16 16, p := f 32 9, h := f 41 8 + 1, n := 16 * 2 ^ (f 49 2), xf := ssmFmt (f 51 2), bf := ssmFmt (f 53 2),
    cf := ssmFmt (f 55 2), dtf := ssmFmt (f 57 2), sf := if f 59 1 = 1 then .bf16 else .f32, yf := if f 60 1 = 1 then .bf16 else .f32,
    src := decide (f 61 1 = 1), xa := f 64 19, ba := f 96 19, ca := f 128 19, dta := f 160 19, aa := f 192 19, sa := f 224 19, ya := f 256 19 }

def tyBytes (t : Ty) : Nat := t.width / 8
/-- Bytes of each region (R272). -/
def Scan.xLen (c : Scan) : Nat := tyBytes c.xf * (c.h * c.l * c.p)
def Scan.bLen (c : Scan) : Nat := tyBytes c.bf * (c.l * c.n)
def Scan.cLen (c : Scan) : Nat := tyBytes c.cf * (c.l * c.n)
def Scan.dtLen (c : Scan) : Nat := tyBytes c.dtf * (c.h * c.l)
def Scan.aLen (c : Scan) : Nat := 4 * c.h
def Scan.sLen (c : Scan) : Nat := tyBytes c.sf * (c.h * c.n * c.p)
def Scan.yLen (c : Scan) : Nat := tyBytes c.yf * (c.h * c.l * c.p)
/-- The input regions: lowest bit of the address field, address and length. -/
def Scan.inputs (c : Scan) : List (Nat × Nat × Nat) :=
  (if c.src then [] else [(64, c.xa, c.xLen), (96, c.ba, c.bLen), (128, c.ca, c.cLen)]) ++ [(160, c.dta, c.dtLen), (192, c.aa, c.aLen)]

def overlaps (a n b m : Nat) : Bool := decide (a < b + m) && decide (b < a + n)

/-- The reserved bits of the block, as fields (lowest bit, width) (Table 15.5). -/
def ssmReserved : List (Nat × Nat) :=
  [(62, 2), (83, 13), (115, 13), (147, 13), (179, 13), (211, 13), (243, 13), (275, 173), (450, 62)]

/-- The fields that fail R273, by their lowest bits; `blk` is the block's offset in local store and `cap` its size in bytes. -/
def ssmBad (b : BitVec 512) (blk cap : Nat) : List Nat :=
  let c := scanOf b
  let region (q : Nat × Nat × Nat) : List Nat := if q.2.1 % 16 ≠ 0 ∨ cap < q.2.1 + q.2.2 then [q.1] else []
  (if c.l = 0 ∨ 4096 < c.l then [0] else []) ++ (if c.p < 32 ∨ 256 < c.p ∨ c.p % 16 ≠ 0 then [32] else []) ++
  (ssmReserved.filter (fun f => decide (bitsAt b f.1 f.2 ≠ 0))).map (·.1) ++
  (if c.src then (if c.xa ≠ 0 then [64] else []) ++ (if c.ba ≠ 0 then [96] else []) ++ (if c.ca ≠ 0 then [128] else []) else []) ++
  c.inputs.flatMap region ++ region (224, c.sa, c.sLen) ++ region (256, c.ya, c.yLen) ++
  (if overlaps c.sa c.sLen blk 64 || c.inputs.any (fun q => overlaps c.sa c.sLen q.2.1 q.2.2) then [224] else []) ++
  (if overlaps c.ya c.yLen blk 64 || overlaps c.ya c.yLen c.sa c.sLen || c.inputs.any (fun q => overlaps c.ya c.yLen q.2.1 q.2.2) then [256]
   else [])

/-- `ssm` at issue (R273, R243 to R245): the checks in order, then an entry of the matrix queue. A full queue stalls before the completion word, the
alignment, SSM_CONFIG and FEED_STATE are tested (log 103). -/
def ssmBody (f : SsmF) (s : State) (k : Nat) (w : Wave) : Res :=
  match s.group? (gidOf k) with
  | none => .ok s
  | some g =>
    if tokenReused w f.cw then .trap (tokenReuse f.cw) s
    else if 8 ≤ g.mq.length then .wait .matrixSlot 0 s
    else match cwCheck s k w f.cw with
      | .error t => .trap t s
      | .ok c =>
        let va := (rdS w f.a.toNat).toNat
        let cap := g.lsKib * 1024
        if va % 64 ≠ 0 then .trap { cause := .misaligned, info0 := w64 va, info1 := 64 } s
        else if !inLocal va ∨ cap < va - 0xFF000000000000 + 64 then .trap (addrRange va 0).trap s
        else
          let blk := va - 0xFF000000000000
          let b : BitVec 512 := BitVec.ofNat 512 (rdN s (.ls (lsGroup s k) blk) 64)
          match (ssmBad b blk cap).min? with
          | some n => .trap { cause := .ssmConfig, info0 := w64 va, info1 := w64 n } s
          | none =>
            let c' := scanOf b
            let nA := if c'.src then c'.xLen else 0
            let nB := if c'.src then c'.bLen + c'.cLen else 0
            if g.feedA.fillIssued < g.feedA.consume + nA then .trap { cause := .feedState, reason := 2, info0 := 0 } s
            else if g.feedB.fillIssued < g.feedB.consume + nB then .trap { cause := .feedState, reason := 2, info0 := 1 } s
            else
              let e : MqEntry := { wave := k, pc := w.pc, parcels := infoParcels (encode (.ssm f)), ssm := true, pA := g.feedA.consume,
                                   pB := g.feedB.consume, nA := nA, nB := nB, tabA := w.cbA, tabB := w.cbB, block := b, blockAt := blk, cw := c }
              .ok (cwStart (s.setGroup (gidOf k) { g with
                mq := g.mq ++ [e]
                feedA := { g.feedA with consume := g.feedA.consume + nA }
                feedB := { g.feedB with consume := g.feedB.consume + nB } }) c)
/-- `ssm` (R271 to R277). -/
def execSsm (f : SsmF) (s : State) : Host.Outcome State Fault Refusal :=
  issue { specM f.h 8 [sOp f.a] with reads := predRead f.h.mask ++ cwReads f.cw, cw := cwWrites f.cw } (matrixGate f.h 0 true (ssmBody f)) s

/-! ### The scan (R274 to R276) -/

def rnd32 (v : FV) : Nat := fround (fmtOf .f32) .rne false v
def val32 (x : Nat) : FV := fdec (fmtOf .f32) x
def mul32 (x y : Nat) : Nat := rnd32 (fmulv (val32 x) (val32 y))
/-- Round(Exact(sum of products)) with R107's special values. -/
def dot32 (ps : List (Nat × Nat)) : Nat := rnd32 (fsum (ps.map (fun p => fmulv (val32 p.1) (val32 p.2))))
/-- Round(Exact(a × x + y)) under R94: as R165 gives an exact zero. -/
def fma32 (a x y : Nat) : Nat := rnd32 (fadd .rne (fmulv (val32 a) (val32 x)) (val32 y))
def add32 (x y : Nat) : Nat := rnd32 (fadd .rne (val32 x) (val32 y))
def sub32 (x y : Nat) : Nat := rnd32 (fadd .rne (val32 x) (fnegv (val32 y)))
/-- Exp2: the FP32 `exp2` of R111 and R112. -/
def exp32 (x : Nat) : Nat := specFn envRne .f32 .exp2 x
/-- The values of a region as FP32 bits (R274). -/
def vals32 (t : Ty) (bs : List Byte) (count : Nat) : List Nat :=
  (List.range count).map (fun i => convert envRne false t .f32 (leNat ((bs.drop (tyBytes t * i)).take (tyBytes t))))

/-- Inputs of one head: x[t][p], B[t][n], C[t][n] as rows, e[t], and the state H0[n][p]. -/
structure Head where
  x : List (List Nat)
  b : List (List Nat)
  c : List (List Nat)
  e : List Nat
  h0 : List (List Nat)
  deriving DecidableEq, Repr

/-- One step of R275. -/
def stepwise1 (acc : List (List Nat) × List (List Nat)) (q : Nat × List Nat × List Nat × List Nat) : List (List Nat) × List (List Nat) :=
  let a := exp32 q.1
  let hs := List.zipWith (fun row bn => List.zipWith (fun hv xp => fma32 a hv (mul32 bn xp)) row q.2.2.2) acc.1 q.2.1
  let y := (List.range q.2.2.2.length).map (fun p => dot32 (List.zipWith (fun cn row => (cn, row.getD p 0)) q.2.2.1 hs))
  (hs, acc.2 ++ [y])
/-- The stepwise form (R275): the final state and y. -/
def stepwise (d : Head) : List (List Nat) × List (List Nat) :=
  (List.zip d.e (List.zip d.b (List.zip d.c d.x))).foldl stepwise1 (d.h0, [])

/-- Running sums E[t] (R276). -/
def runSums : List Nat → List Nat
  | [] => []
  | e :: r => (r.foldl (fun (a : Nat × List Nat) x => (add32 a.1 x, a.2 ++ [add32 a.1 x])) (e, [e])).2

/-- The chunked form (R276). w(t, t) is Exp2 of E[t] - E[t], 1 for a finite E[t] (log 66). -/
def chunked (d : Head) : List (List Nat) × List (List Nat) :=
  let es := runSums d.e
  let el := es.getLastD 0
  let w (t s : Nat) : Nat := exp32 (sub32 t s)
  let pn := (d.x.headD []).length
  let col (rows : List (List Nat)) (p : Nat) : List Nat := rows.map (fun r => r.getD p 0)
  let ys := (List.zip es d.c).mapIdx (fun t q =>
    let cw := q.2.map (fun c => mul32 (exp32 q.1) c)
    let g := ((List.zip es d.b).take (t + 1)).map (fun r => mul32 (w q.1 r.1) (dot32 (List.zip q.2 r.2)))
    (List.range pn).map (fun p => dot32 (List.zip cw (col d.h0 p) ++ List.zip g (col (d.x.take (t + 1)) p))))
  let bw := List.zipWith (fun e b => b.map (fun v => mul32 (w el e) v)) es d.b
  let w0 := exp32 el
  let hend := d.h0.mapIdx (fun n row => row.mapIdx (fun p hv =>
    dot32 ((w0, hv) :: List.zip (bw.map (fun r => r.getD n 0)) (col d.x p))))
  (hend, ys)

/-- A list cut into rows. -/
def rowsOf (n : Nat) (xs : List Nat) (k : Nat) : List (List Nat) := (List.range k).map (fun i => (xs.drop (n * i)).take n)

/-- One head of a scan (R274). -/
def scanHead (c : Scan) (x b cc dt : List Nat) (a : List Nat) (st : List Nat) (h : Nat) : List (List Nat) × List (List Nat) :=
  let dts := (dt.drop (h * c.l)).take c.l
  let ah := a.getD h 0
  let bs := List.zipWith (fun d row => row.map (fun v => mul32 d v)) dts (rowsOf c.n b c.l)
  let d : Head := { x := rowsOf c.p (x.drop (h * c.l * c.p)) c.l, b := bs, c := rowsOf c.n cc c.l, e := dts.map (fun v => mul32 v ah),
                    h0 := rowsOf c.p (st.drop (h * c.n * c.p)) c.n }
  if c.t ≤ c.l then chunked d else stepwise d

/-- The results of an entry (R277): the state bytes, the y bytes and the status quadword. -/
def scanOut (c : Scan) (x b cc dt a st : List Nat) : List Byte × List Byte × Nat :=
  let hs := (List.range c.h).map (scanHead c x b cc dt a st)
  let out (t : Ty) (rows : List (List Nat)) : List Byte := rows.flatten.flatMap (fun v => leBytes (tyBytes t) (convert envRne false .f32 t v))
  (hs.flatMap (fun r => out c.sf r.1), hs.flatMap (fun r => out c.yf r.2), 1 + (if c.t ≤ c.l then 2 else 0))

/-- SSM_COMPLETE on the input's group (R277): the head entry, an `ssm`, completes. -/
def execSsmComplete (s : State) : Host.Outcome State Fault Refusal :=
  let gid := s.input.who
  match s.group? gid with
  | none => .next s
  | some g =>
    match g.mq, g.core?.isSome with
    | e :: rest, true =>
      if !e.ssm then .next s
      else
        let c := scanOf e.block
        let lg := lsGroup s (keyOf gid 0)
        let rd (a n : Nat) : List Byte := rdBytes s (.ls lg a) n
        match operandRead s gid false e.pA e.nA, operandRead s gid true e.pB e.nB with
        | .error x, _ => .next (feedStop s x)
        | _, .error x => .next (feedStop s x)
        | .ok as, .ok bs =>
          let xb := if c.src then as else rd c.xa c.xLen
          let bb := if c.src then bs.take c.bLen else rd c.ba c.bLen
          let cb := if c.src then bs.drop c.bLen else rd c.ca c.cLen
          let r := scanOut c (vals32 c.xf xb (c.h * c.l * c.p)) (vals32 c.bf bb (c.l * c.n)) (vals32 c.cf cb (c.l * c.n))
            (vals32 c.dtf (rd c.dta c.dtLen) (c.h * c.l)) (vals32 .f32 (rd c.aa c.aLen) c.h) (vals32 c.sf (rd c.sa c.sLen) (c.h * c.n * c.p))
          let s := feedTouch (feedTouch s gid false e.pA e.nA) gid true e.pB e.nB
          let s := wrBytes s (.ls lg c.sa) r.1
          let s := wrBytes s (.ls lg c.ya) r.2.1
          let s := wrN s (.ls lg (e.blockAt + 56)) 8 r.2.2
          let s := s.modGroup gid (fun g => { g with
            mq := rest
            feedA := if e.nA = 0 then g.feedA else g.feedA.advance (e.pA + e.nA)
            feedB := if e.nB = 0 then g.feedB else g.feedB.advance (e.pB + e.nB) })
          .next (afterMatrix [gid] (complete s e.cw (c.sLen + c.yLen + 8)))
    | _, _ => .next s

end Sys2Proof.Machine
end

