-- ==== Sys2Proof/Machine/TaskSpawn.lean ====
section
/-! DEFINITION. Class 12: `task.launch` and `dep.dec` (R233, R234), `spawn` and its gathering (R235, R236, R39, R40, R42), `join.wait` and
`join.poll` (R237, R238), `reg.claim` and `reg.give` (R26 to R29, R239). -/

set_option linter.unusedVariables false

namespace Sys2Proof.Machine

/-- A record that an instruction causes without trapping (R399). -/
def instrRecord (s : State) (k : Nat) (w : Wave) (cause : Cause) (info0 info1 : Word) : Record :=
  { cause := cause, core := coreOf s k, tenant := tenantOf s k, pc := w.pc, seq := ((s.group? (gidOf k)).map (·.seq)).getD 0, gid := gidOf k,
    info0 := info0, info1 := info1 }

/-! ### Tasks -/

/-- `task.launch` (R233): the depth of the launching task (R24), the 64 bytes, then publication in the wave's tenant on its task's ring, as a
task of its strip chain if it has one (R317). -/
def taskLaunchBody (f : DA) (s : State) (k : Nat) (w : Wave) : Res :=
  match s.group? (gidOf k) with
  | none => .ok s
  | some g =>
    let depth := ((s.task? g.seq).map (·.depth)).getD g.depth
    if 10 ≤ depth then .trap { cause := .nestDepth, info0 := w64 (depth + 1) } s
    else
      let va := (rdS w f.a.toNat).toNat
      match checkOne s (whoOf s k) va 64 64 needRd .plain with
      | .error e => .trap e.trap s
      | .ok l =>
        let r : BitVec 512 := BitVec.ofNat 512 (rdN s l 64)
        match publish (touch s g.tenant va false) r (w64 va) g.tenant (g.ring.getD 0) (depth + 1) (some g.seq) {} g.chain
            (instrRecord s k w .recordInvalid 0 0) with
        | .wait => .wait .launchTable 0 s
        | .refused s => .ok (s.setWave k (wrS w f.d.toNat 0))
        | .ok s q => .ok (s.modWave k (fun w => wrS w f.d.toNat (w64 q)))
/-- `task.launch`. -/
def execTaskLaunch (f : DA) (s : State) : Host.Outcome State Fault Refusal :=
  issue (specM f.h 8 [sOp f.d 1 true, sOp f.a]) (whenActive f.h (taskLaunchBody f)) s

/-- `dep.dec` (R234, R304). -/
def depDecBody (f : AOnly) (s : State) (k : Nat) (w : Wave) : Res :=
  let va := (rdS w f.a.toNat).toNat
  match checkObj s (whoOf s k) va 16 16 needRw with
  | .error e => .trap e.trap s
  | .ok l =>
    let d := depDecrement (touch s (tenantOf s k) va (rdN s l 4 != 0)) l
    if d.2.2 then .ok (errorRecord d.1 (((s.group? (gidOf k)).bind (·.ring)).getD 0) (instrRecord s k w .depUnderflow (w64 va) 0))
    else .ok (match d.2.1 with
      | some q => releaseTask d.1 q
      | none => d.1)
/-- `dep.dec`. -/
def execDepDec (f : AOnly) (s : State) : Host.Outcome State Fault Refusal :=
  issue (specM f.h 8 [sOp f.a]) (whenActive f.h (depDecBody f)) s

/-! ### Spawn -/

/-- The spawn entry descriptor of a target in the code object that holds an instruction (R235, Table 9.11). -/
def spawnEntry (s : State) (tenant : Nat) (pc tgt : Word) : Option Kd :=
  s.kds.find? (fun d => d.tenant = tenant && d.bits.getLsbD 64 && bitsAt d.bits 192 64 == tgt.toNat && decide (d.lo ≤ pc.toNat) &&
    decide (pc.toNat < d.hi))

/-- The family checks of R235: alignment, window and the rest of R60. -/
def familyAt (s : State) (k fam : Nat) : Except Trap Loc :=
  match checkObj s (whoOf s k) fam 8 8 needRw with
  | .error e => .error e.trap
  | .ok l => .ok l

/-- Thread of one lane (R39): v0 to v3 are the payload, every other register reads 0. -/
def spawnThread (s : State) (k : Nat) (w : Wave) (g : Group) (d : Kd) (payload fam : Nat) (place : BlockPlace) (l : Nat) : Thread :=
  { seq := g.seq, core := coreOf s k, entry := w64 (bitsAt d.bits 192 64), stamp := s.cycle, regs := bitsAt d.bits 90 11,
    lsKib := bitsAt d.bits 80 10, accKib := bitsAt d.bits 71 9, groupid := w.key.groupid, key := w.key,
    info := { family := fam, depth := (kget { depth := g.depth } l w.lanes).depth + 1, blocks := 1, place := place.place, segs := place.segs, poolCore := coreOf s k },
    v := (List.range 4).foldl (fun m i => kput 0 i (rdV w (payload + i) l) m) [] }

/-- `spawn` (R235, R39 to R42). -/
def spawnBody (f : SpawnF) (s : State) (k : Nat) (w : Wave) : Res :=
  match s.group? (gidOf k) with
  | none => .ok s
  | some g =>
    let act := lanesOf (activeOf w f.h.mask)
    let deep := (act.map (fun l => (kget { depth := g.depth } l w.lanes).depth)).foldl max 0
    if 10 ≤ deep then .trap { cause := .nestDepth, info0 := w64 (deep + 1) } s
    else
      let tgt := w.pc + sext32 f.tgt
      match spawnEntry s g.tenant w.pc tgt with
      | none => .trap { cause := .entryInvalid, info0 := tgt } s
      | some d =>
        let fam := (rdS w f.b.toNat).toNat
        let famLoc : Except Trap (Option Loc) := if fam = 0 then .ok none else (familyAt s k fam).map some
        match famLoc with
        | .error t => .trap t s
        | .ok fl =>
          match grantBlocks s (coreOf s k) g.seq .spawn act.length 1 with
          | .overflow need =>
            .trap { cause := .spawnOverflow, info0 := w64 need, info1 := w64 (((s.task? g.seq).map recQocc).getD 0) } s
          | .wait => .wait .segment (segArg .spawn act.length 1) s
          | .places ps =>
            let s := match fl with
              | none => s
              | some l => wrN (touch s g.tenant fam true) l 8 (famAddOut act.length (rdN s l 8))
            let ts := act.mapIdx (fun i l => spawnThread s k w g d f.a.toNat fam (ps.getD i {}) l)
            .ok (gather { s with threads := s.threads ++ ts } (coreOf s k))
/-- `spawn`. -/
def execSpawn (f : SpawnF) (s : State) : Host.Outcome State Fault Refusal :=
  issue (specM f.h 12 [vOp f.a 4, sOp f.b]) (whenActive f.h (spawnBody f)) s

/-- `spawn.flush` (R236): every waiting thread of the issuing task is launched. -/
def execSpawnFlush (f : BareF) (s : State) : Host.Outcome State Fault Refusal :=
  issue (specM f.h 8 []) (whenActive f.h (fun s k _ =>
    match s.group? (gidOf k) with
    | none => .ok s
    | some g => .ok (formPartial (fun t => t.seq = g.seq) (s.threads.length + 1) s))) s

/-! ### Joins -/

/-- The family checks of `join.wait` and `join.poll` (R238), which ask RD alone (R63; log 44). -/
def onFamily (a : Field11) (f : Nat → Loc → State → Nat → Wave → Res) (s : State) (k : Nat) (w : Wave) : Res :=
  let va := (rdS w a.toNat).toNat
  if va = 0 then .trap (addrRange 0 0).trap s
  else match checkObj s (whoOf s k) va 8 8 needRd with
    | .error e => .trap e.trap s
    | .ok l => f va l (touch s (tenantOf s k) va false) k w

/-- The condition of `join.wait` (R237): its status code, or none while it waits. -/
def joinDone (x : Nat) : Option Nat :=
  if famOut x = 0 then some 0 else if famFaults x ≠ 0 ∧ famOut x = famFaults x then some 1 else none
/-- `join.wait` (R237). A wait that its owner's fault or end ends acquires nothing (log 78). -/
def joinWaitBody (va : Nat) (l : Loc) (s : State) (k : Nat) (w : Wave) : Res :=
  match joinDone (rdN s l 8) with
  | some c => .ok (acquire (s.setWave k (endHelp w c)) (coreOf s k) .dev)
  | none =>
    match waitEnd s k w .joinFamily va with
    | some c => .ok ((sweepEnd s k w va).setWave k (endHelp w c))
    | none => helpWait s k .joinFamily (w64 va)
/-- `join.wait`. -/
def execJoinWait (f : AOnly) (s : State) : Host.Outcome State Fault Refusal :=
  issue (specM f.h 8 [sOp f.a]) (whenActive f.h (onFamily f.a joinWaitBody)) s
/-- `join.poll` (R238). -/
def execJoinPoll (f : DA) (s : State) : Host.Outcome State Fault Refusal :=
  issue (specM f.h 8 [sOp f.d 1 true, sOp f.a]) (whenActive f.h (onFamily f.a (fun _ l s k w =>
    let x := rdN s l 8
    let s := s.setWave k (wrS w f.d.toNat (w64 x))
    .ok (if famOut x = 0 then acquire s (coreOf s k) .dev else s)))) s

/-! ### Register claims -/

/-- REG_RANGE of R27: kind 0, and the count `n` that the instruction names (Table 9.6, R398; log 40). -/
def claimBad (n : Nat) (count : Int) : Option Trap :=
  if n % 8 ≠ 0 ∨ count < 8 ∨ 1536 < count then some { cause := .regRange, info0 := 0, info1 := w64 n } else none

/-- `reg.claim` (R26 to R29, R239): served at once, or queued by its arrival time. -/
def regClaimBody (f : RegClF) (s : State) (k : Nat) (w : Wave) : Res :=
  let n := f.n.toNat
  match claimBad n ((w.regCount : Int) + n) with
  | some t => .trap t s
  | none =>
    let c := coreOf s k
    if (s.core c).claims.isEmpty && claimFits s c k n then .ok (serveClaim s c k n)
    else
      let s := s.modWave k (fun w => { w with claim := some (n, s.ns) })
      let s := (queueClaim s c k s.ns).modCore c (fun x => { x with claimsQueued := x.claimsQueued + 1 })
      .wait .claim (w64 f.h.stall.toNat) s
/-- After a claim has queued: the deadlock of R29 is looked for, then an adopted owner with nothing left to run is parked (R50; log 89). -/
def afterClaim (r : Host.Outcome State Fault Refusal) : Host.Outcome State Fault Refusal :=
  match r with
  | .next s => match s.cur with
    | some k => match s.wave? k with
      | some w => if w.wait = .claim then .next (parkBlockedOwner (settleClaims s (coreOf s k) (gidOf k)) k) else .next s
      | none => .next s
    | none => .next s
  | r => r
/-- `reg.claim`. -/
def execRegClaim (f : RegClF) (s : State) : Host.Outcome State Fault Refusal :=
  afterClaim (issue (specM f.h 8 []) (whenActive f.h (regClaimBody f)) s)

/-- The wave gives up its top registers (R26, R239): their pending results complete first. -/
def giveRegs (w : Wave) (count : Nat) : Wave :=
  let keep (r : RegRef) : Bool := match r with
    | .v n => decide (n < count)
    | _ => true
  { w with regCount := count, v := w.v.filter (fun p => decide (p.1 / 32 < count)), fixed := w.fixed.filter (fun p => keep p.1),
           pend := w.pend.filter keep }
/-- `reg.give` (R26, R27, R239). -/
def regGiveBody (f : RegClF) (s : State) (k : Nat) (w : Wave) : Res :=
  let n := f.n.toNat
  match claimBad n ((w.regCount : Int) - n) with
  | some t => .trap t s
  | none =>
    let s := (s.setWave k (giveRegs w (w.regCount - n))).modGroup (gidOf k) (fun g => { g with budgetFree := g.budgetFree + n })
    .ok (settleClaims s (coreOf s k) (gidOf k))
/-- `reg.give`. -/
def execRegGive (f : RegClF) (s : State) : Host.Outcome State Fault Refusal :=
  issue (specM f.h 8 []) (whenActive f.h (regGiveBody f)) s

end Sys2Proof.Machine
end

