-- ==== Sys2Proof/Machine/Bins.lean ====
section
/-! DEFINITION. Class 14: strips and bins (R325 to R329), and the ring instructions (R336 to R341). -/

set_option linter.unusedVariables false

namespace Sys2Proof.Machine

/-! ### Bin sets -/

/-- The header of a bin set (Table 21.2). -/
structure BinSet where
  va : Nat
  bits : BitVec 512
  deriving DecidableEq, Repr

def BinSet.readers (b : BinSet) : Nat := bitsAt b.bits 288 32
def BinSet.pnext (b : BinSet) : Nat := bitsAt b.bits 256 32
def BinSet.prims (b : BinSet) : Nat := bitsAt b.bits 192 64
def BinSet.entries (b : BinSet) : Nat := bitsAt b.bits 128 64
def BinSet.cap (b : BinSet) : Nat := bitsAt b.bits 96 32
def BinSet.pcap (b : BinSet) : Nat := bitsAt b.bits 64 32
def BinSet.state (b : BinSet) : Nat := bitsAt b.bits 48 2
def BinSet.sh (b : BinSet) : Nat := bitsAt b.bits 40 8
def BinSet.nstrip (b : BinSet) : Nat := bitsAt b.bits 16 16
/-- Whether a header is malformed (Table 21.2, R325). -/
def BinSet.bad (b : BinSet) : Bool :=
  decide (bitsAt b.bits 320 192 ≠ 0) || decide (bitsAt b.bits 56 8 ≠ 1) || decide (bitsAt b.bits 50 6 ≠ 0) || decide (1 < b.state) ||
    decide (b.sh < 8) || decide (128 < b.sh) || decide (b.sh % 8 ≠ 0) || decide (bitsAt b.bits 32 8 ≠ 0) || decide (b.nstrip = 0) ||
    decide (1024 < b.nstrip) || decide (bitsAt b.bits 0 16 ≠ 0)
/-- Address of strip counter s, and of entry n of strip s (R326). -/
def BinSet.counter (b : BinSet) (st : Nat) : Nat := b.va + 64 + 16 * st
def BinSet.entry (b : BinSet) (st n : Nat) : Nat := b.entries + 8 * (st * b.cap + n)
def BinSet.prim (b : BinSet) (i : Nat) : Nat := b.prims + 64 * i

def binSetAt (s : State) (who : Who) (va : Nat) : BinSet := { va := va, bits := BitVec.ofNat 512 (leNat (rdVa s who va 64)) }
def word32 (s : State) (who : Who) (va : Nat) : Nat := leNat (rdVa s who va 4)
def setWord32 (s : State) (who : Who) (va v : Nat) : State := wrVa s who va (leBytes 4 v)

def binFull (va info1 : Nat) : Trap := { cause := .binFull, info0 := w64 va, info1 := w64 info1 }

/-- The header check of R328 on the bin set at S[r]. -/
def onBins (r : Field11) (f : BinSet → State → Nat → Wave → Res) (s : State) (k : Nat) (w : Wave) : Res :=
  let va := (rdS w r.toNat).toNat
  match checkObj s (whoOf s k) va 64 64 needRw with
  | .error e => .trap e.trap s
  | .ok _ =>
    let b := binSetAt s (whoOf s k) va
    if b.bad then .trap (binFull va 0xFFFFFFFC) s else f b (touch s (tenantOf s k) va false) k w

/-! ### Primitives (R327) -/

/-- A primitive record, 512 bits. -/
abbrev Prim := BitVec 512
def Prim.cull (p : Prim) : Nat := bitsAt p 352 2
def Prim.order (p : Prim) : Nat := bitsAt p 288 32
/-- Coordinate c of vertex k: its FP32 bits. -/
def Prim.coord (p : Prim) (k c : Nat) : Nat := bitsAt p (96 * k + 32 * c) 32
/-- A coordinate snapped to units of 1/256 pixel; none for NaN and infinities. -/
def snap (x : Nat) : Option Int :=
  match fdec (fmtOf .f32) x with
  | .fin sg n e => some (fint .rne sg n (e + 8))
  | _ => none
/-- The snapped vertices, where every coordinate is finite and in range. -/
def Prim.verts (p : Prim) : Option (List (Int × Int)) :=
  let v (k : Nat) : Option (Int × Int) :=
    match snap (p.coord k 0), snap (p.coord k 1), snap (p.coord k 2) with
    | some x, some y, some _ =>
      if -(2 ^ 22) ≤ x ∧ x ≤ 2 ^ 22 - 1 ∧ -(2 ^ 22) ≤ y ∧ y ≤ 2 ^ 22 - 1 then some (x, y) else none
    | _, _, _ => none
  match v 0, v 1, v 2 with
  | some a, some b, some c => some [a, b, c]
  | _, _, _ => none
def vx (vs : List (Int × Int)) (k : Nat) : Int := (vs.getD k (0, 0)).1
def vy (vs : List (Int × Int)) (k : Nat) : Int := (vs.getD k (0, 0)).2
/-- Area (R327). -/
def triArea (vs : List (Int × Int)) : Int := (vx vs 1 - vx vs 0) * (vy vs 2 - vy vs 0) - (vy vs 1 - vy vs 0) * (vx vs 2 - vx vs 0)
/-- The vertices of a primitive that is not dropped (R327). -/
def Prim.kept (p : Prim) : Option (List (Int × Int)) :=
  match p.verts with
  | none => none
  | some vs =>
    let a := triArea vs
    if a = 0 ∨ (p.cull = 1 ∧ a < 0) ∨ (p.cull = 2 ∧ 0 < a) then none else some vs
/-- The strips a kept primitive lies in: those of the lines whose centre is within its rows (R328). -/
def primStrips (b : BinSet) (vs : List (Int × Int)) : List Nat :=
  let lo := min (min (vy vs 0) (vy vs 1)) (vy vs 2)
  let hi := max (max (vy vs 0) (vy vs 1)) (vy vs 2)
  -- first and last line py ≥ 0 with lo ≤ 256 py + 128 ≤ hi
  let first := max 0 ((lo - 128 + 255) / 256)
  let last := (hi - 128) / 256
  if last < first then []
  else (List.range b.nstrip).filter (fun st => decide (first / (b.sh : Int) ≤ (st : Int)) && decide ((st : Int) ≤ last / (b.sh : Int)))

/-! ### `bin.emit` and `bin.end` -/

/-- What one lane of `bin.emit` does (R328): the state after it and whether it emitted, or a cause. -/
def emitLane (b : BinSet) (rec_ : Prim) (who : Who) (s : State) : Except Trap (State × Bool) :=
  let b := binSetAt s who b.va
  if rec_.cull = 3 then .error (binFull b.va 0xFFFFFFFE)
  else if b.state = 1 then .error (binFull b.va 0xFFFFFFFF)
  else
    match rec_.kept with
    | none => .ok (s, false)
    | some vs =>
      let ss := primStrips b vs
      if ss.isEmpty then .ok (s, false)
      else
        let cs := ss.map (fun st => (st, checkObj s who (b.counter st) 4 4 needRw))
        match worst (cs.map (·.2)) with
        | some e => .error e.trap
        | none =>
          let count (st : Nat) : Nat := word32 s who (b.counter st)
          if b.pnext = b.pcap then .error (binFull b.va 0xFFFFFFFD)
          else
            match ss.find? (fun st => count st = b.cap) with
            | some st => .error (binFull b.va st)
            | none =>
              let i := b.pnext
              let es := ss.map (fun st => b.entry st (count st))
              match worst (checkOne s who (b.prim i) 64 64 needWr .plain :: es.map (fun a => checkOne s who a 8 8 needWr .plain)) with
              | some e => .error e.trap
              | none =>
                let s := setWord32 s who (b.va + 32) (i + 1)
                let s := wrVa (touch s who.tenant (b.prim i) true) who (b.prim i) (leBytes 64 rec_.toNat)
                .ok (ss.foldl (fun s st =>
                  let n := word32 s who (b.counter st)
                  let s := setWord32 (touch s who.tenant (b.counter st) true) who (b.counter st) (n + 1)
                  wrVa (touch s who.tenant (b.entry st n) true) who (b.entry st n) (leBytes 8 (i + 2 ^ 63))) s, true)

/-- The lanes of `bin.emit` in ascending order: each one done is recorded in DONE and `emitted`. A BIN_FULL names its lane (R328, Table 17.4). -/
def emitLanes (b : BinSet) (a : Nat) (k : Nat) : List Nat → State → Except (Trap × State) State
  | [], s => .ok s
  | l :: r, s =>
    match s.wave? k with
    | none => .ok s
    | some w =>
      if w.done.getLsbD l then emitLanes b a k r s
      else
        let rec_ : Prim := BitVec.ofNat 512 ((List.range 8).foldr (fun j x => (rdV w (a + j) l).toNat + 2 ^ 64 * x) 0)
        let bit := maskOf (fun x => x == l)
        match emitLane b rec_ (whoOf s k) s with
        | .error t => .error (if t.cause = .binFull then { t with lanes := some bit } else t, s)
        | .ok (s, e) =>
          emitLanes b a k r (s.modWave k (fun w => { w with done := w.done ||| bit, emitted := if e then w.emitted ||| bit else w.emitted &&& ~~~ bit }))

/-- `bin.emit` (R328). -/
def binEmitBody (f : BinEmitF) (s : State) (k : Nat) (w : Wave) : Res :=
  let act := activeOf w f.h.mask
  onBins f.b (fun b s k w =>
    match emitLanes b f.a.toNat k (lanesOf act) s with
    | .error (t, s) => .trap t s
    | .ok s => .ok (s.modWave k (fun w => { wrM w f.d.toNat (w.emitted &&& act) with emitted := 0 }))) s k w
/-- `bin.emit`. -/
def execBinEmit (f : BinEmitF) (s : State) : Host.Outcome State Fault Refusal :=
  issue (specM f.h 8 [mOp f.d true, vOp f.a 8, sOp f.b]) (fun s k w =>
    if activeOf w f.h.mask = 0 then .ok (s.setWave k (wrM w f.d.toNat 0)) else binEmitBody f s k w) s

/-- STATE of a bin set. -/
def setBinState (s : State) (who : Who) (b : BinSet) (st : Nat) : State :=
  wrVa s who (b.va + 6) [BitVec.ofNat 8 (bitsAt b.bits 50 6 * 4 + st)]
/-- `bin.end` (R329). -/
def execBinEnd (f : AOnly) (s : State) : Host.Outcome State Fault Refusal :=
  issue (specM f.h 8 [sOp f.a]) (whenActive f.h (onBins f.a (fun b s k _ => .ok (setBinState s (whoOf s k) b 1)))) s
/-- The cleared bin set of `bin.end.reset` (R329). -/
def resetBins (s : State) (who : Who) (b : BinSet) : State :=
  let s := setWord32 s who (b.va + 32) 0
  let s := (List.range b.nstrip).foldl (fun s st => setWord32 s who (b.counter st) 0) s
  let s := setBinState s who b 0
  (List.range (b.nstrip * b.cap)).foldl (fun s n =>
    let e := leNat (rdVa s who (b.entries + 8 * n) 8)
    if 2 ^ 63 ≤ e then wrVa s who (b.entries + 8 * n) (leBytes 8 (e - 2 ^ 63)) else s) s
/-- The earliest failed check of two ranges, the first range's before the second's (R60). -/
def earlier (a b : Option Fail) : Option Fail :=
  match a, b with
  | some e, some f => some (if f.stage < e.stage then f else e)
  | some e, none => some e
  | none, b => b
/-- `bin.end.reset` (R329): waits until READERS is 0; then the counters and the entries are checked and cleared. -/
def execBinEndReset (f : AOnly) (s : State) : Host.Outcome State Fault Refusal :=
  issue (specM f.h 8 [sOp f.a]) (whenActive f.h (onBins f.a (fun b s k _ =>
    if b.readers ≠ 0 then .wait .binReaders (w64 b.va) s
    else match earlier (checkRange s (whoOf s k) (b.counter 0) (16 * b.nstrip) needRw)
        (checkRange s (whoOf s k) b.entries (8 * b.nstrip * b.cap) needRw) with
      | some e => .trap e.trap s
      | none => .ok (resetBins (touchRange s (tenantOf s k) b.entries (8 * b.nstrip * b.cap) true) (whoOf s k) b)))) s

/-! ### Rings -/

def ringTrap (va info1 : Nat) : Trap := { cause := .ringState, info0 := w64 va, info1 := w64 info1 }
/-- The checks on the ring at S[a] (R337). -/
def onRing (a : Field11) (f : Nat → BitVec 512 → State → Nat → Wave → Res) (s : State) (k : Nat) (w : Wave) : Res :=
  let va := (rdS w a.toNat).toNat
  match checkObj s (whoOf s k) va 64 64 needRw with
  | .error e => .trap e.trap s
  | .ok _ =>
    let h := ringHdr s (whoOf s k) va
    if ringBad h then .trap (ringTrap va 0xFFFFFFFF) s else f va h (touch s (tenantOf s k) va false) k w
/-- The checks of R60 on a slot entry, which the use reads and changes, and its walk's marks (R64, R337). -/
def onSlot (va i : Nat) (f : State → Res) (s : State) (k : Nat) : Res :=
  match checkObj s (whoOf s k) (slotVa va i) 16 16 needRw with
  | .error e => .trap e.trap s
  | .ok _ => f (touch s (tenantOf s k) (slotVa va i) false)
/-- The slot entries that publication of slot i reads from a sequence on, the first that fails a check of R60 (R337, R339). -/
def advanceFail (s : State) (who : Who) (va : Nat) (h : BitVec 512) (i : Nat) : Nat → Nat → Option Fail
  | 0, _ => none
  | n + 1, q =>
    let j := ringSlot h q
    match checkObj s who (slotVa va j) 16 16 needRw with
    | .error e => some e
    | .ok _ =>
      let e := slotRd s who va j
      if j = i ∨ (eSt e = 2 ∧ eSeq e = q % 2 ^ 32) then advanceFail s who va h i n (q + 1) else none

/-- S[d] and S[d + 1] of an acquire: the slot's data and the sequence (R338). -/
def ringResult (w : Wave) (d i : Nat) (h : BitVec 512) (x : Word) : Wave :=
  wrS (wrS w d (w64 (hData h + i * hLines h * hPitch h))) (d + 1) x
def holdSlot (s : State) (k va q : Nat) (cons : Bool) : State := s.modGroup (gidOf k) (fun g => { g with slots := g.slots ++ [(va, q, cons)] })
def dropSlot (s : State) (k va q : Nat) (cons : Bool) : State := s.modGroup (gidOf k) (fun g => { g with slots := g.slots.erase (va, q, cons) })

/-- How many sequences of a ring have been acquired, from its own acquisitions while its header has kept the ACQ that they left; else the count
that ACQ gives, as the first sequence of a ring is 0, and 2^32 more where a slot shows a sequence from before ACQ passed 0 (R336; log 83). -/
def acquired (s : State) (who : Who) (va : Nat) (h : BitVec 512) : Nat :=
  let kept : Option Nat := match resolve s who va 64 {} with
    | .ok l => (s.ringsAcq.find? (fun p => p.1 == l && decide (p.2.2 = hAcq h))).map (·.2.1)
    | .error _ => none
  kept.getD (hAcq h + (if hAcq h < 2 ^ 31 ∧ (List.range (hNslot h)).any (fun i => decide (2 ^ 31 ≤ eSeq (slotRd s who va i))) then 2 ^ 32 else 0))
/-- One more sequence of a ring is acquired. -/
def noteAcq (s : State) (who : Who) (va : Nat) (h : BitVec 512) : State :=
  match resolve s who va 64 {} with
  | .ok l => { s with ringsAcq := (l, acquired s who va h + 1, (hAcq h + 1) % 2 ^ 32) :: s.ringsAcq.filter (fun p => p.1 != l) }
  | .error _ => s

/-- `ring.acq` (R338). -/
def ringAcqBody (d : Field11) (va : Nat) (h : BitVec 512) (s : State) (k : Nat) (w : Wave) : Res :=
  onSlot va (hAslot h) (fun s =>
  let who := whoOf s k
  let i := hAslot h
  let e := slotRd s who va i
  if 4 < eSt e then .trap (ringTrap va i) s
  else if eSt e ≠ 0 then .wait .ringAcq (w64 va) s
  else
    let q := hAcq h
    let s := wrVa (noteAcq s who va h) who (va + 24) (leBytes 4 ((q + 1) % 2 ^ 32))
    let s := wrVa s who (va + 40) [BitVec.ofNat 8 ((i + 1) % hNslot h)]
    let s := slotWr s who va i (mkSlot 1 false false 0 q (gidOf k))
    .ok (acquire ((holdSlot s k va q false).modWave k (fun w => ringResult w d.toNat i h (w64 q))) (coreOf s k) .dev)) s k
/-- `ring.acq.cons` (R338). -/
def ringConsBody (d : Field11) (va : Nat) (h : BitVec 512) (s : State) (k : Nat) (w : Wave) : Res :=
  let who := whoOf s k
  if (hCons h).testBit 12 = false then .trap (ringTrap va 0xFFFFFFFF) s
  else if ¬ seqDiff (hTake h) (hPub h) < 0 then .wait .ringAcq (w64 va) s
  else onSlot va (ringSlot h (hTake h)) (fun s =>
    let q := hTake h
    let i := ringSlot h q
    let e := slotRd s who va i
    if eSeq e ≠ q ∨ (eSt e ≠ 2 ∧ eSt e ≠ 3) then .trap (ringTrap va i) s
    else
      let s := wrVa s who (va + 32) (leBytes 4 ((q + 1) % 2 ^ 32))
      let s := slotWr s who va i (mkSlot 3 (eLate e) (eHrel e) (eDone e) q (gidOf k))
      let x := q + (if eLate e then 2 ^ 63 else 0)
      .ok (acquire ((holdSlot s k va q true).modWave k (fun w => ringResult w d.toNat i h (w64 x))) (coreOf s k) .dev)) s k
/-- `ring.acq`. -/
def execRingAcq (f : DA) (s : State) : Host.Outcome State Fault Refusal :=
  issue (specM f.h 8 [sOp f.d 2 true, sOp f.a]) (whenActive f.h (onRing f.a (ringAcqBody f.d))) s
/-- `ring.acq.cons`. -/
def execRingAcqCons (f : DA) (s : State) : Host.Outcome State Fault Refusal :=
  issue (specM f.h 8 [sOp f.d 2 true, sOp f.a]) (whenActive f.h (onRing f.a (ringConsBody f.d))) s

/-- `ring.rel` (R339): a sequence is 32 bits. -/
def ringRelBody (b : Field11) (va : Nat) (h : BitVec 512) (s : State) (k : Nat) (w : Wave) : Res :=
  let q := (rdS w b.toNat).toNat % 2 ^ 32
  let i := ringSlot h q
  onSlot va i (fun s =>
    let e := slotRd s (whoOf s k) va i
    if eSt e ≠ 1 ∨ eSeq e ≠ q ∨ eHolder e ≠ gidOf k then .trap (ringTrap va i) s
    else match advanceFail s (whoOf s k) va h i (hNslot h + 1) (hPub h) with
      | some x => .trap x.trap s
      | none => .ok (dropSlot (ringPublish s (whoOf s k) va i false) k va q false)) s k
/-- `ring.rel.cons` (R339). -/
def ringRelConsBody (b : Field11) (va : Nat) (h : BitVec 512) (s : State) (k : Nat) (w : Wave) : Res :=
  let q := (rdS w b.toNat).toNat % 2 ^ 32
  let i := ringSlot h q
  onSlot va i (fun s =>
    let held := ((s.group? (gidOf k)).map (fun g => g.slots.contains (va, q, true))).getD false
    if !held then .trap (ringTrap va i) s
    else .ok (dropSlot (ringFinish s (whoOf s k) va i 12) k va q true)) s k
/-- Whether a sequence is below the first one acquired: it precedes ACQ by more than the sequences that have been acquired (R336, R340;
log 83). -/
def beforeFirst (s : State) (who : Who) (va : Nat) (h : BitVec 512) (q : Nat) : Bool :=
  decide (seqDiff q (hAcq h) < 0) && decide (acquired s who va h < (hAcq h + 2 ^ 32 - q) % 2 ^ 32)
/-- `ring.halo` (R340). -/
def ringHaloBody (b : Field11) (va : Nat) (h : BitVec 512) (s : State) (k : Nat) (w : Wave) : Res :=
  let q := (rdS w b.toNat).toNat % 2 ^ 32
  let i := ringSlot h q
  onSlot va i (fun s =>
    let e := slotRd s (whoOf s k) va i
    if eSeq e = q ∧ eSt e = 4 then .ok (slotWr s (whoOf s k) va i (setSt e 0))
    else if eSeq e = q ∧ (eSt e = 2 ∨ eSt e = 3) then
      .ok (slotWr s (whoOf s k) va i (mkSlot (eSt e) (eLate e) true (eDone e) q (eHolder e)))
    else if beforeFirst s (whoOf s k) va h q then .ok s
    else .trap (ringTrap va i) s) s k
/-- `ring.rel`. -/
def execRingRel (f : ABF) (s : State) : Host.Outcome State Fault Refusal :=
  issue (specM f.h 8 [sOp f.a, sOp f.b]) (whenActive f.h (onRing f.a (ringRelBody f.b))) s
/-- `ring.rel.cons`. -/
def execRingRelCons (f : ABF) (s : State) : Host.Outcome State Fault Refusal :=
  issue (specM f.h 8 [sOp f.a, sOp f.b]) (whenActive f.h (onRing f.a (ringRelConsBody f.b))) s
/-- `ring.halo`. -/
def execRingHalo (f : ABF) (s : State) : Host.Outcome State Fault Refusal :=
  issue (specM f.h 8 [sOp f.a, sOp f.b]) (whenActive f.h (onRing f.a (ringHaloBody f.b))) s

end Sys2Proof.Machine
end

