-- ==== Sys2Proof/Machine/Raster.lean ====
section
/-! DEFINITION. The raster unit of a cluster: binding and the start of a strip (R330), coverage, depth and weights (R331, R332), fragments
and their order (R333, R334), `frag.out` (R335), and the shading-rate rule (R320). -/

set_option linter.unusedVariables false

namespace Sys2Proof.Machine

/-! ### The raster descriptor (Table 21.4) -/

def dBinset (d : BitVec 512) : Nat := bitsAt d 0 56
def dStrip (d : BitVec 512) : Nat := bitsAt d 64 16
def dX0 (d : BitVec 512) : Nat := bitsAt d 80 16
def dTw (d : BitVec 512) : Nat := bitsAt d 96 16
def dNreg (d : BitVec 512) : Nat := bitsAt d 124 4
def dCol (d : BitVec 512) : Nat := bitsAt d 128 19
def dDep (d : BitVec 512) : Nat := bitsAt d 160 19
/-- Bytes of a colour and of a depth. -/
def dCs (d : BitVec 512) : Nat := if d.getLsbD 179 then 8 else 4
def dD16 (d : BitVec 512) : Bool := d.getLsbD 180
def dDs (d : BitVec 512) : Nat := if dD16 d then 2 else 4
def dFunc (d : BitVec 512) : Nat := bitsAt d 181 3
def dWrite (d : BitVec 512) : Bool := d.getLsbD 184

/-- Whether a descriptor breaks Table 21.4, or its tiles extend beyond local store. -/
def rasterBad (d : BitVec 512) (b : BinSet) (lsKib : Nat) : Bool :=
  let px := dTw d * b.sh
  decide (bitsAt d 185 327 ≠ 0) || decide (dFunc d = 7) || decide (bitsAt d 147 13 ≠ 0) || decide (dNreg d = 0) || decide (8 < dNreg d) ||
    decide (bitsAt d 112 12 ≠ 0) || decide (dTw d % 32 ≠ 0) || decide (dTw d < 32) || decide (1024 < dTw d) || decide (b.nstrip ≤ dStrip d) ||
    decide (bitsAt d 56 8 ≠ 1) || b.bad || decide (lsKib * 1024 < dCol d + dCs d * px) || decide (lsKib * 1024 < dDep d + dDs d * px)

/-! ### Coverage, depth and weights -/

/-- Edge function k at a point, in the given vertex order (R331). -/
def edgeE (vs : List (Int × Int)) (k : Nat) (px py : Int) : Int :=
  let n := (k + 1) % 3
  (vx vs n - vx vs k) * (py - vy vs k) + (vy vs k - vy vs n) * (px - vx vs k)
def edgeOwned (vs : List (Int × Int)) (k : Nat) : Bool :=
  let n := (k + 1) % 3
  let a := vy vs k - vy vs n
  decide (0 < a) || (decide (a = 0) && decide (0 < vx vs n - vx vs k))
/-- Coverage of a sample (R331): vertices 1 and 2 are exchanged where Area is negative. -/
def covered (vs : List (Int × Int)) (px py : Int) : Bool :=
  let us := if triArea vs < 0 then [vs.getD 0 (0, 0), vs.getD 2 (0, 0), vs.getD 1 (0, 0)] else vs
  [0, 1, 2].all (fun k => decide (0 < edgeE us k px py) || (decide (edgeE us k px py = 0) && edgeOwned us k))

/-- Round(Exact(num × 2^exp / den)) in FP32, RNE. -/
def ratF32 (num : Int) (exp : Int) (den : Int) : Nat :=
  roundQ (fmtOf .f32) .rne false (decide (num < 0) != decide (den < 0)) num.natAbs den.natAbs exp
/-- Depth at a point (R332). -/
def depthAt (p : Prim) (vs : List (Int × Int)) (px py : Int) : Nat :=
  let term (k vtx : Nat) : FV := fmulv (FV.ofInt (edgeE vs k px py)) (fdec (fmtOf .f32) (p.coord vtx 2))
  match fsum [term 1 0, term 2 1, term 0 2] with
  | .fin s n e => ratF32 (sgn s n) e (triArea vs)
  | _ => (fmtOf .f32).nanBits
/-- Weights λ1 and λ2 at a point (R332). -/
def weightAt (vs : List (Int × Int)) (k : Nat) (px py : Int) : Nat := ratF32 (edgeE vs k px py) 0 (triArea vs)

/-- The block of a level: width and height (R333). -/
def levelBlock (v : Nat) : Nat × Nat :=
  match v with
  | 0 => (1, 1)
  | 1 => (1, 2)
  | 2 => (2, 2)
  | 3 => (2, 4)
  | _ => (4, 4)

/-- The fragment of one block of a region, if it has a covered pixel (R333). -/
def fragOf (g : Nat) (d : BitVec 512) (sh level idx : Nat) (p : Prim) (vs : List (Int × Int)) (bx by_ : Nat) : Option Frag :=
  let bw := (levelBlock level).1
  let bh := (levelBlock level).2
  let at_ (dx dy : Nat) : Int × Int := (256 * ((dX0 d + bx + dx : Nat) : Int) + 128, 256 * ((dStrip d * sh + by_ + dy : Nat) : Int) + 128)
  let px := (List.range bh).flatMap (fun dy => (List.range bw).map (fun dx => (dx, dy)))
  let zs := px.map (fun q => depthAt p vs (at_ q.1 q.2).1 (at_ q.1 q.2).2)
  let bits := (px.zip zs).map (fun q => covered vs (at_ q.1.1 q.1.2).1 (at_ q.1.1 q.1.2).2 && !(fdec (fmtOf .f32) q.2).isNan)
  let cover := (bits.mapIdx (fun i b => if b then 2 ^ i else 0)).sum
  if cover = 0 then none
  else
    let cx : Int := 256 * ((dX0 d + bx : Nat) : Int) + 128 * bw
    let cy : Int := 256 * ((dStrip d * sh + by_ : Nat) : Int) + 128 * bh
    some { gid := g, x := bx, y := by_, cover := cover, level := level, l1 := weightAt vs 2 cx cy, l2 := weightAt vs 0 cx cy,
           z := depthAt p vs cx cy, prim := idx, depths := zs }

/-- The primitive indices of a strip's valid entries below COUNT (R329); bytes of a unit in error are free (log 28). -/
def stripIds (s : State) (who : Who) (b : BinSet) (st : Nat) : List Nat :=
  (List.range (leNat (hwRd s who (b.counter st) 4))).filterMap (fun i =>
    let e := leNat (hwRd s who (b.entry st i) 8)
    if 2 ^ 63 ≤ e then some (e % 2 ^ 32) else none)
/-- The walker's marks for the unit's reads of a strip: the header, its counter, its entries below COUNT and their primitives (R64). -/
def stripTouch (s : State) (who : Who) (b : BinSet) (st : Nat) : State :=
  let s1 := touchRange (touch (touch s who.tenant b.va false) who.tenant (b.counter st) false) who.tenant (b.entry st 0)
    (8 * leNat (hwRd s who (b.counter st) 4)) false
  (stripIds s who b st).foldl (fun s i => touchRange s who.tenant (b.prim i) 64 false) s1
/-- The primitives of a strip in order: those of valid entries below COUNT, by PRIM, then by index (R329, R334). -/
def stripPrims (s : State) (who : Who) (b : BinSet) (st : Nat) : List (Nat × Prim) :=
  let ps : List (Nat × Prim) := (stripIds s who b st).map (fun i => (i, BitVec.ofNat 512 (leNat (hwRd s who (b.prim i) 64))))
  sortBy (fun x y => decide (x.2.order < y.2.order) || (x.2.order == y.2.order && decide (x.1 ≤ y.1))) ps

/-- The fragments of one tile: 32 columns of a region, in primitive order. -/
def tileFrags (s : State) (who : Who) (b : BinSet) (d : BitVec 512) (g level tx : Nat) : List Frag :=
  let bw := (levelBlock level).1
  let bh := (levelBlock level).2
  (stripPrims s who b (dStrip d)).flatMap (fun q =>
    match Prim.kept q.2 with
    | none => []
    | some vs => (List.range (b.sh / bh)).flatMap (fun j => (List.range (32 / bw)).filterMap (fun i =>
        fragOf g d b.sh level q.1 q.2 vs (tx + bw * i) (bh * j))))

/-! ### The unit -/

def State.raster (s : State) (cl : Nat) : Raster := kget {} cl s.rasters
def State.modRaster (s : State) (cl : Nat) (f : Raster → Raster) : State := { s with rasters := kset cl (f (s.raster cl)) s.rasters }
/-- Waves that wait in one way issue again. -/
def wakeAll (s : State) (x : Wait) : State :=
  { s with waves := s.waves.map (fun (p : Nat × Wave) => if p.2.wait = x then (p.1, { p.2 with wait := .none, waitArg := 0 }) else p) }

/-- Tiles of the bound regions in ascending X0, then ascending x (R330). -/
def unitTiles (s : State) (gs : List Nat) : List (Nat × Nat) :=
  let rs := gs.filterMap (fun g => ((s.group? g).bind (·.raster)).map (fun r => (dX0 r.desc, g, dTw r.desc)))
  (sortBy (fun a b => decide (a.1 ≤ b.1)) rs).flatMap (fun r => (List.range (r.2.2 / 32)).map (fun i => (r.2.1, 32 * i)))

/-- Put the fragments of the unit's first tile into it. -/
def loadTile (s : State) (cl : Nat) : State :=
  let r := s.raster cl
  match r.tiles with
  | [] => s
  | (g, tx) :: _ =>
    match (s.group? g).bind (·.raster) with
    | none => s
    | some rb =>
      let who : Who := { tenant := r.tenant }
      let b := binSetAt s who r.binset.toNat
      (stripTouch s who b (dStrip rb.desc)).modRaster cl (fun r => { r with frags := r.frags ++ tileFrags s who b rb.desc g r.level tx })

/-- The strip chain a unit's strip belongs to. -/
def unitChain (s : State) (cl : Nat) : Option (Nat × Chain) :=
  match (s.raster cl).groups.findSome? (fun g => (s.group? g).bind (·.chain)) with
  | some c => (kfind c s.chains).map (fun x => (c, x))
  | none => none

def tCeil (e : BitVec 512) : Nat := bitsAt e 88 3
def tOut (e : BitVec 512) : Nat := bitsAt e 96 4
def tTiles (e : BitVec 512) : Nat := bitsAt e 112 16
def tGuard (e : BitVec 512) : Nat := bitsAt e 192 32

/-- A unit is free once every bound group has been told that its regions are complete, or is gone (R335). Its level is where the next strip of its
output starts, among the strips of its own timetable (R320). -/
def unitSettle (s : State) (cl : Nat) : State :=
  let r := s.raster cl
  let open_ := r.groups.filter (fun g => match (s.group? g).bind (·.raster) with
    | some rb => !rb.told
    | none => false)
  if r.busy && r.started && open_.isEmpty then
    let who : Who := { tenant := r.tenant }
    let n := word32 s who (r.binset.toNat + 36)
    let s := setWord32 s who (r.binset.toNat + 36) ((n + 2 ^ 32 - 1) % 2 ^ 32)
    let s : State := match unitChain s cl with
      | some (_, c) =>
        let o := kget {} (tOut c.entry) s.outputs
        { s with outputs := kset (tOut c.entry) { o with levels := kset c.old r.level o.levels } s.outputs }
      | none => s
    let s := s.modRaster cl (fun r => { r with busy := false, started := false, groups := [], tiles := [] })
    wakeAll (wakeAll s .rasterUnit) .binReaders
  else s

/-- RASTER_STRIP_START on the input's cluster (R330, R329): with NREG groups bound and the bin set closed, the unit counts itself a reader
and begins the first tile, at the level of R320. -/
def execRasterStripStart (s : State) : Host.Outcome State Fault Refusal :=
  let cl := s.input.who
  let r := s.raster cl
  let who : Who := { tenant := r.tenant }
  let b := binSetAt s who r.binset.toNat
  if !r.busy || r.started || decide (r.groups.length < r.nreg) || decide (b.state ≠ 1) then .next s
  else
    let s := setWord32 s who (b.va + 36) ((b.readers + 1) % 2 ^ 32)
    let level := match unitChain s cl with
      | some (_, c) => kget (tCeil c.entry) c.old (kget {} (tOut c.entry) s.outputs).levels
      | none => 0
    let s := s.modRaster cl (fun r => { r with started := true, tiles := unitTiles s r.groups, level := level })
    .next (loadTile s cl)

/-- The shading-rate rule at the end of a tile (R320): the level and the streak after it. -/
def shadeStep (now t0 done tiles finish guard ceil level streak : Nat) : Nat × Nat :=
  let mean := (now - t0) / done
  let projected : Int := (now : Int) + ((tiles : Int) - done) * mean
  if projected > (finish : Int) - guard then (if level < 4 then level + 1 else level, 0)
  else if projected < (finish : Int) - 2 * guard then
    (if streak + 1 = 2 then (if ceil < level then level - 1 else level, 0) else (level, streak + 1))
  else (level, 0)

/-- RASTER_TILE_END on the input's cluster (R320, R330): the first tile's fragments have all been delivered; the level is updated and the
next tile begins. -/
def execRasterTileEnd (s : State) : Host.Outcome State Fault Refusal :=
  let cl := s.input.who
  let r := s.raster cl
  match r.tiles with
  | [] => .next (unitSettle s cl)
  | _ :: rest =>
    if !r.started || r.frags.any (fun f => f.owner.isNone) then .next s
    else
      let s : State := match unitChain s cl with
        | some (c, x) =>
          let done := x.done + 1
          let n : Nat × Nat := if rest.isEmpty then (r.level, x.streak)
            else shadeStep s.ns x.launched done (tTiles x.entry) x.finish (tGuard x.entry) (tCeil x.entry) r.level x.streak
          ({ s with chains := kset c { x with done := done, streak := n.2 } s.chains }).modRaster cl (fun r => { r with level := n.1 })
        | none => s
      .next (loadTile (s.modRaster cl (fun r => { r with tiles := rest })) cl)

/-! ### `frag.out` -/

/-- The cluster whose unit serves a wave's group: the one it has bound to, else that of its core. -/
def clusterOf (s : State) (k : Nat) : Nat :=
  match (s.group? (gidOf k)).bind (·.raster) with
  | some rb => rb.cluster
  | none => coreOf s k / 8

/-- Bind a group to a strip (R330), or wait while the unit serves another. The descriptor's address, its place in local store, the bin set it names
and its fields are checked in this order (log 106). -/
def bindGroup (a : Field11) (f : State → Nat → Wave → Res) (s : State) (k : Nat) (w : Wave) : Res :=
  match s.group? (gidOf k) with
  | none => .ok s
  | some g =>
    if g.raster.isSome then f s k w
    else
      let va := (rdS w a.toNat).toNat
      match checkOne s (whoOf s k) va 64 64 needRd .plain with
      | .error e => .trap e.trap s
      | .ok l =>
        if !inLocal va then .trap (addrRange va 0).trap s
        else
          let d : BitVec 512 := BitVec.ofNat 512 (rdN s l 64)
          let lsKib := ((s.group? (lsGroup s k)).map (·.lsKib)).getD 0
          match checkObj s { tenant := g.tenant } (dBinset d) 64 64 needRw with
          | .error e => .trap e.trap s
          | .ok _ =>
            if rasterBad d (binSetAt s { tenant := g.tenant } (dBinset d)) lsKib then .trap (ringTrap va 0xFFFFFFFF) s
            else
              let s := touch s g.tenant (dBinset d) false
              let cl := clusterOf s k
              let r := s.raster cl
              if r.busy && !(r.tenant == g.tenant && r.binset == w64 (dBinset d) && r.strip == dStrip d) then .wait .rasterUnit (w64 va) s
              else
                let s := s.modRaster cl (fun r =>
                  if r.busy then { r with groups := r.groups ++ [gidOf k] }
                  else { r with binset := w64 (dBinset d), strip := dStrip d, tenant := g.tenant, busy := true, started := false, groups := [gidOf k],
                                nreg := dNreg d, tiles := [], level := 0 })
                f (s.modGroup (gidOf k) (fun g => { g with raster := some { desc := d, descAt := w64 va, cluster := cl } })) k w

/-- The stored form of a depth (R332): clamped to [0, 1], as FP32 or in 16 bits. -/
def storedDepth (d16 : Bool) (z : Nat) : Nat :=
  let f := fmtOf .f32
  let c := fminmax f false (fminmax f true z 0) 0x3F800000
  if d16 then (match fdec f c with
    | .fin sg n e => (fint .rne sg (n * 65535) e).toNat
    | _ => 0)
  else c
/-- DFUNC with the fragment's stored depth on the left (Table 21.4). -/
def depthPasses (d16 : Bool) (func zq old : Nat) : Bool :=
  let x := fdec (fmtOf .f32) zq
  let y := fdec (fmtOf .f32) old
  let un := !d16 && (x.isNan || y.isNan)
  let o : Int := if d16 then (zq : Int) - old else fcmpv x y
  match func with
  | 0 => false
  | 1 => !un && decide (o < 0)
  | 2 => !un && decide (o ≤ 0)
  | 3 => !un && decide (o = 0)
  | 4 => !un && decide (0 < o)
  | 5 => !un && decide (0 ≤ o)
  | _ => true

/-- Commit one fragment (R335): each covered pixel's depth test, colour and depth. -/
def commitFrag (d : BitVec 512) (lg : Nat) (color : Nat) (f : Frag) (s : State) : State :=
  let bw := (levelBlock f.level).1
  let bh := (levelBlock f.level).2
  (List.range (bw * bh)).foldl (fun s i =>
    if f.cover.testBit i then
      let q := (f.y + i / bw) * dTw d + f.x + i % bw
      let zq := storedDepth (dD16 d) (f.depths.getD i 0)
      let dl : Loc := .ls lg (dDep d + dDs d * q)
      if depthPasses (dD16 d) (dFunc d) zq (rdN s dl (dDs d)) then
        let s := wrN s (.ls lg (dCol d + dCs d * q)) (dCs d) color
        if dWrite d then wrN s dl (dDs d) zq else s
      else s
    else s) s

/-- The fragment a wave holds in a lane. -/
def heldFrag (s : State) (k l : Nat) : Option Frag := (s.raster (clusterOf s k)).frags.find? (fun f => f.owner == some (k, l))
/-- Commit or drop every fragment of CUR (R335). -/
def commitCur (act : LaneMask) (b : Field11) (d : BitVec 512) (s : State) (k : Nat) (w : Wave) : State :=
  let s := (lanesOf w.cur).foldl (fun s l =>
    match heldFrag s k l with
    | none => s
    | some f => if act.getLsbD l then commitFrag d (lsGroup s k) (rdV w b.toNat l).toNat f s else s) s
  let s := s.modRaster (clusterOf s k) (fun r => { r with frags := r.frags.filter (fun f => match f.owner with
    | some (q, l) => !(q == k && w.cur.getLsbD l)
    | none => true) })
  s.modWave k (fun w => { w with cur := 0 })

/-- The results of a delivered batch (R335). -/
def fragResults (s : State) (k : Nat) (w : Wave) (d : Nat) (m : LaneMask) : Wave :=
  (lanesOf m).foldl (fun w l =>
    match heldFrag s k l with
    | none => w
    | some f =>
      let w := wrV w d l (w64 (f.x + f.y * 2 ^ 16 + f.cover * 2 ^ 32 + f.level * 2 ^ 48))
      let w := wrV w (d + 1) l (w64 (f.l1 + f.l2 * 2 ^ 32))
      wrV w (d + 2) l (w64 (f.prim + f.z * 2 ^ 32))) w

/-- Whether every fragment of a group's regions has been delivered (R335). -/
def regionsDone (s : State) (cl gid : Nat) : Bool :=
  let r := s.raster cl
  (match (s.group? gid).bind (·.raster) with
   | some rb => rb.told
   | none => false) ||
  (r.busy && r.started && r.groups.contains gid && r.tiles.all (fun t => t.1 != gid || some t == r.tiles.head?) && r.frags.all (fun f => f.gid != gid || f.owner.isSome))

/-- After the commit (R335): take the batch that has been delivered, or wait for one. -/
def takeBatch (d m : Nat) (s : State) (k : Nat) : Res :=
  match s.wave? k with
  | none => .ok s
  | some w =>
    match w.batch with
    | some cur => .ok (s.setWave k { wrM (fragResults s k w d cur) m cur with cur := cur, batch := none })
    | none => .wait .fragBatch 0 s

/-- `frag.out` (R335). -/
def execFragOut (f : FragOutF) (s : State) : Host.Outcome State Fault Refusal :=
  issue (specM f.h 8 [vOp f.d 3 true, sOp f.a, vOp f.b, { reg := .m f.m.toNat, dest := true }]) (fun s k w =>
    match (s.group? (gidOf k)).bind (·.raster) with
    | none => .trap (ringTrap (rdS w f.a.toNat).toNat 0xFFFFFFFE) s
    | some rb =>
      if f.b = 0 then .trap (ringTrap (rdS w f.a.toNat).toNat 0xFFFFFFFE) s
      else takeBatch f.d.toNat f.m.toNat (commitCur (activeOf w f.h.mask) f.b rb.desc s k w) k) s
/-- `frag.out.init` (R335): CUR becomes empty, its fragments dropped. -/
def execFragOutInit (f : FragInitF) (s : State) : Host.Outcome State Fault Refusal :=
  issue (specM f.h 8 [vOp f.d 3 true, sOp f.a, { reg := .m f.m.toNat, dest := true }])
    (bindGroup f.a (fun s k w => takeBatch f.d.toNat f.m.toNat (commitCur 0 0 0 s k w) k)) s

/-! ### Delivery -/

/-- Whether two fragments cover a common pixel. -/
def Frag.meets (a b : Frag) : Bool := a.gid == b.gid && a.x == b.x && a.y == b.y && a.level == b.level && decide (a.cover &&& b.cover ≠ 0)

/-- The fragments that may be delivered to a group now, by place in the unit's list: none whose pixel an earlier fragment still holds
(R334). -/
def deliverable (s : State) (gid : Nat) : List Frag → List Frag → Nat → List Nat
  | _, [], _ => []
  | before, f :: r, i =>
    let holds (e : Frag) : Bool := Frag.meets e f && (match e.owner with
      | some (k, _) => ((s.wave? k).map (fun w => !w.ended)).getD false
      | none => true)
    let rest := deliverable s gid (before ++ [f]) r (i + 1)
    if f.gid = gid && f.owner.isNone && !(before.any holds) then i :: rest else rest

/-- FRAGMENT_BATCH for the input's wave (R335): a batch of fragments, one a lane of the wave's path, or the report that the group's regions
are complete. -/
def execFragmentBatch (s : State) : Host.Outcome State Fault Refusal :=
  let k := s.input.who
  match s.wave? k with
  | none => .next s
  | some w =>
    if w.wait ≠ .fragBatch then .next s
    else
      let cl := clusterOf s k
      let r := s.raster cl
      let give := ((deliverable s (gidOf k) [] r.frags 0).zip (lanesOf w.path)).take 32
      if give.isEmpty then
        if regionsDone s cl (gidOf k) then
          let s := s.modGroup (gidOf k) (fun g => { g with raster := g.raster.map (fun b => { b with told := true }) })
          .next (unitSettle (s.modWave k (fun w => { w with wait := .none, batch := some 0 })) cl)
        else .next s
      else
        let s := s.modRaster cl (fun r => { r with frags := r.frags.mapIdx (fun i f => match give.find? (fun p => p.1 = i) with
          | some p => { f with owner := some (k, p.2) }
          | none => f) })
        .next (s.modWave k (fun w => { w with wait := .none, batch := some (maskOf (fun l => give.any (fun p => p.2 = l))) }))

end Sys2Proof.Machine
end

