-- ==== Sys2Proof/Machine/Traversal.lean ====
section
/-! DEFINITION. Ray traversal (R346 to R356): nodes, the box and triangle tests, the traversal of a ray to its next event, the log, and
`rt.trace`, `rt.next`, `rt.accept` and `rt.replay`. -/

set_option linter.unusedVariables false

namespace Sys2Proof.Machine

def f32 : Fmt := fmtOf .f32
/-- The value of FP32 bits, and exact and rounded operations on FP32 bits. -/
def v32 (x : Nat) : FV := fdec f32 x
def subv (x y : FV) : FV := fadd .rne x (fnegv y)
def rn (v : FV) : Nat := fround f32 .rne false v
def isFin (x : Nat) : Bool :=
  match v32 x with
  | .fin _ _ _ => true
  | _ => false
def le32 (x y : Nat) : Bool := !(v32 x).isNan && !(v32 y).isNan && decide (fcmpv (v32 x) (v32 y) ≤ 0)
def lt32 (x y : Nat) : Bool := !(v32 x).isNan && !(v32 y).isNan && decide (fcmpv (v32 x) (v32 y) < 0)
def inf32 : Nat := 0x7F800000

/-- Why a ray cannot go on: a failed read, or a reason of TRAVERSAL_STATE, or a full log. -/
inductive RayStop where
  | fail (e : Fail) | state (reason : Nat) | logFull
  deriving DecidableEq, Repr

/-- For whom the unit reads: the tracing wave's core, and the start of its task (R90). -/
structure RtAt where
  core : Nat
  since : Nat
  deriving DecidableEq, Repr

/-- Whether places follow one another in pieces of 16 bytes. -/
def inRow : List Loc → Bool
  | a :: b :: r => (b == a.plus 16) && inRow (b :: r)
  | _ => true
/-- What the unit reads at some places: a node whole through the cluster's node cache, a record whole through the core's read-only cache, as
either stood before or after a write (R90, R347; log 6). -/
def rtFetch (s : State) (at_ : RtAt) (node held : Bool) (ls : List Loc) : State × Nat :=
  match ls with
  | [] => (s, 0)
  | l :: _ =>
    let n := 16 * ls.length
    if !held || !inRow ls then (s, leNat (ls.flatMap (fun x => rdBytes s x 16)))
    else if node then
      let r := cacheRead s (kget [] (at_.core / 8) s.nodeCaches) at_.since l n
      ({ s with nodeCaches := kset (at_.core / 8) r.1 s.nodeCaches }, leNat r.2)
    else
      let r := cacheRead s (s.core at_.core).roCache at_.since l n
      (s.modCore at_.core (fun c => { c with roCache := r.1 }), leNat r.2)
/-- A node or a record read as `ld.ro` by the tracing wave would, with RD permission and the causes of R60 (R347), in pieces of 16 bytes. -/
def rtRead (who : Who) (at_ : RtAt) (node : Bool) (va n : Nat) (s : State) : Except RayStop (State × Nat) :=
  let as := (List.range n).map (fun i => va + 16 * i)
  let rs := as.map (fun a => checkOne s who a 16 16 needRd .plain)
  match worst rs with
  | some e => .error (.fail e)
  | none =>
    let ls := rs.filterMap (fun r => match r with
      | .ok l => some l
      | .error _ => none)
    .ok (rtFetch (touchRange s who.tenant va (16 * n) false) at_ node (as.all (fun a => !noCache s who.tenant a)) ls)

/-! ### Nodes and boxes (R346, R348) -/

def field (x lo n : Nat) : Nat := x / 2 ^ lo % 2 ^ n
def nodeOrigin (n k : Nat) : Nat := field n (32 * k) 32
def nodeExp (n k : Nat) : Nat := field n (96 + 8 * k) 8
def nodeValid (n c : Nat) : Bool := decide (field n (120 + c) 1 = 1)
/-- Quantised bound k of child c: lo x, y, z then hi x, y, z. -/
def nodeBox (n c k : Nat) : Nat := field n (8 * (16 + 6 * c + k)) 8
def nodeRef (n c : Nat) : Nat := field n (8 * (64 + 8 * c)) 64
def refKind (r : Nat) : Nat := r / 2 ^ 62
def refCount (r : Nat) : Nat := field r 56 6 + 1
def refAddr (r : Nat) : Nat := r % 2 ^ 56
/-- Whether a node is invalid (R346); its alignment is checked before it is read. -/
def nodeBad (n : Nat) : Bool :=
  [0, 1, 2].any (fun k => nodeExp n k == 0 || nodeExp n k == 255 || !isFin (nodeOrigin n k)) ||
    (List.range 8).any (fun c => nodeValid n c && (refKind (nodeRef n c) == 3 || [0, 1, 2].any (fun k => decide (nodeBox n c (k + 3) < nodeBox n c k))))
/-- A bound of child c on an axis, rounded outwards (R346). -/
def nodeBound (n c k : Nat) (hi : Bool) : Nat :=
  fround f32 (if hi then .rup else .rdn) false
    (fadd .rne (v32 (nodeOrigin n k)) (.fin false (nodeBox n c (if hi then k + 3 else k)) ((nodeExp n k : Int) - 127)))

def maxf (x y : Nat) : Nat := fminmax f32 true x y
def minf (x y : Nat) : Nat := fminmax f32 false x y
/-- The box test on one axis (R348): entry and exit distances, or a miss. -/
def axisTest (o d lo hi : Nat) : Option (Nat × Nat) :=
  if (v32 d).isZero then (if lt32 o lo || lt32 hi o then none else some (0xFF800000, inf32))
  else
    let neg := (v32 d).neg?
    let pn := if neg then hi else lo
    let pf := if neg then lo else hi
    some (fdiv f32 .rdn (subv (v32 pn) (v32 o)) (v32 d), fdiv f32 .rup (subv (v32 pf) (v32 o)) (v32 d))
/-- The box test of child c (R348): its entry distance when hit. -/
def boxTest (r : Ray) (n c : Nat) : Option Nat :=
  let ax (k : Nat) : Option (Nat × Nat) := axisTest (r.o.getD k 0) (r.d.getD k 0) (nodeBound n c k false) (nodeBound n c k true)
  match ax 0, ax 1, ax 2 with
  | some a, some b, some z =>
    let tn := maxf (maxf (maxf r.tmin a.1) b.1) z.1
    let tf := minf (minf (minf r.tmax a.2) b.2) z.2
    if le32 tn tf then some tn else none
  | _, _, _ => none

/-! ### Triangles (R349) -/

/-- A hit of the triangle test: t, b1, b2 as FP32. -/
structure TriHit where
  t : Nat
  b1 : Nat
  b2 : Nat
  deriving DecidableEq, Repr

/-- The axis of largest |d|, a tie going to the lower. -/
def mainAxis (d : List Nat) : Nat :=
  let a (k : Nat) : FV := match v32 (d.getD k 0) with
    | .inf _ => .inf false
    | .fin _ n e => .fin false n e
    | v => v
  let k := if fcmpv (a 0) (a 1) < 0 then 1 else 0
  if fcmpv (a k) (a 2) < 0 then 2 else k

/-- A × B − C × D exactly, rounded once. -/
def cross (f : Fmt) (a b c d : Nat) : Nat := fround f .rne false (subv (fmulv (v32 a) (v32 b)) (fmulv (v32 c) (v32 d)))
def FV.sign (v : FV) : Int :=
  match v with
  | .fin s n _ => if n = 0 then 0 else if s then -1 else 1
  | .inf s => if s then -1 else 1
  | .nan => 0

/-- The axes kx, ky and kz of a direction (R349). -/
def triAxes (d : List Nat) : Nat × Nat × Nat :=
  let kz := mainAxis d
  if (v32 (d.getD kz 0)).neg? then ((kz + 2) % 3, (kz + 1) % 3, kz) else ((kz + 1) % 3, (kz + 2) % 3, kz)
/-- A vertex less the ray's origin, on an axis (R349). -/
def triRel (r : Ray) (p : Nat → Nat) (k : Nat) : Nat := rn (subv (v32 (p k)) (v32 (r.o.getD k 0)))
/-- The shear of the ray on an axis: d[k] / d[kz] (R349). -/
def triShear (r : Ray) (k : Nat) : Nat := fdiv f32 .rne (v32 (r.d.getD k 0)) (v32 (r.d.getD (triAxes r.d).2.2 0))
/-- A vertex in ray space: Px, Py and Pz (R349). -/
def triPoint (r : Ray) (p : Nat → Nat) : Nat × Nat × Nat :=
  let x := triAxes r.d
  let rel (k : Nat) : FV := v32 (triRel r p k)
  (rn (subv (rel x.1) (fmulv (v32 (triShear r x.1)) (rel x.2.2))), rn (subv (rel x.2.1) (fmulv (v32 (triShear r x.2.1)) (rel x.2.2))),
    rn (fmulv (v32 (fdiv f32 .rne (FV.ofInt 1) (v32 (r.d.getD x.2.2 0)))) (rel x.2.2)))
/-- U, V and W of three points in ray space, rounded in a format (R349). -/
def triEdges (f : Fmt) (a b c : Nat × Nat × Nat) : List FV :=
  [fdec f (cross f c.1 b.2.1 c.2.1 b.1), fdec f (cross f a.1 c.2.1 a.2.1 c.1), fdec f (cross f b.1 a.2.1 b.2.1 a.1)]
/-- U, V and W in FP32, or all three in FP64 where one of them is 0 (R349). -/
def triUvw (a b c : Nat × Nat × Nat) : List FV :=
  if (triEdges f32 a b c).any FV.isZero then triEdges (fmtOf .f64) a b c else triEdges f32 a b c
/-- Whether the edge from one point to another is owned (R349). -/
def triOwned (p q : Nat × Nat × Nat) : Bool := lt32 p.2.1 q.2.1 || (le32 p.2.1 q.2.1 && le32 q.2.1 p.2.1 && lt32 q.1 p.1)

/-- The triangle test (R349) on the nine coordinates of a record. -/
def triTest (r : Ray) (vs : Nat → Nat → Nat) : Option TriHit :=
  let a := triPoint r (vs 0)
  let b := triPoint r (vs 1)
  let c := triPoint r (vs 2)
  let e := triUvw a b c
  let det := fsum e
  let s := det.sign
  if e.any FV.isNan || det.isNan || s == 0 || (r.cull == 1 && decide (s < 0)) || (r.cull == 2 && decide (0 < s)) then none
  else
    let fl (v : FV) : FV := if s < 0 then fnegv v else v
    let en := e.map fl
    -- edge U runs B to C, V runs C to A, W runs A to B; reversed with det < 0
    let okE (i : Nat) (p q : Nat × Nat × Nat) : Bool := match (en.getD i .nan).sign with
      | 0 => if s < 0 then triOwned q p else triOwned p q
      | x => decide (0 < x)
    if okE 0 b c && okE 1 c a && okE 2 a b then
      let dn := fl det
      let u := en.getD 0 .nan
      let v := en.getD 1 .nan
      let w := en.getD 2 .nan
      some { t := fdiv f32 .rne (fsum [fmulv u (v32 a.2.2), fmulv v (v32 b.2.2), fmulv w (v32 c.2.2)]) dn,
             b1 := fdiv f32 .rne v dn, b2 := fdiv f32 .rne w dn }
    else none

/-- Coordinate k of vertex v of a triangle record (R346). -/
def recCoord (x v k : Nat) : Nat := field x (32 * (3 * v + k)) 32

/-! ### The log (R352) -/

/-- Write a log entry (Table 21.11), and COUNT of the header. -/
def logEntry (who : Who) (s : State) (r : Ray) (addr t kind index : Nat) (hit : Bool) : Except RayStop (State × Ray) :=
  if !r.log then .ok (s, r)
  else
    let n := r.logCount + 1
    if r.logn ≤ n then .error .logFull
    else
      let at_ := r.loga + 16 * n
      match checkOne s who at_ 16 16 needWr .plain, checkOne s who r.loga 16 16 needWr .plain with
      | .ok l, .ok h =>
        let s := wrN (touch s who.tenant at_ true) l 16 (addr * 2 ^ 64 + t * 2 ^ 32 + kind * 2 ^ 24 + index * 2 ^ 16 + (if hit then 2 ^ 8 else 0))
        .ok (wrN (touch s who.tenant r.loga true) h 4 n, { r with logCount := n })
      | .error e, _ => .error (.fail e)
      | _, .error e => .error (.fail e)
/-- End a ray: its final event, and FINAL of the log header. -/
def endRay (who : Who) (s : State) (r : Ray) (ev : Nat) : Except RayStop (State × Ray) :=
  let r := { r with done := some ev, stack := [], leaf := none }
  if !r.log then .ok (s, r)
  else match checkOne s who r.loga 16 16 needWr .plain with
    | .ok h => .ok (wrN (touch s who.tenant r.loga true) (h.plus 4) 4 ev, r)
    | .error e => .error (.fail e)

/-! ### Traversal (R350) -/

/-- What a step of a ray yields: nothing yet, or an event. -/
inductive RayEvent where
  | none | final | user | tri (t addr b1 b2 index : Nat) (hit : Bool) | userLog (t addr index : Nat) (hit : Bool)
  deriving DecidableEq, Repr

/-- Take the next record of the current leaf. -/
def leafStep (who : Who) (core : RtAt) (s : State) (r : Ray) (addr kind n tn i : Nat) : Except RayStop (State × Ray × RayEvent) :=
  if n ≤ i then .ok (s, { r with leaf := none }, .none)
  else if kind = 2 then
    let at_ := addr + 16 * i
    match rtRead who core false at_ 1 s with
    | .error e => .error e
    | .ok (s, _) => .ok (s, { r with leaf := some (addr, kind, n, tn, i + 1), cand := some (at_, i, tn), tried := false, accepted := false }, .user)
  else
    let at_ := addr + 48 * i
    match rtRead who core false at_ 3 s with
    | .error e => .error e
    | .ok (s, x) =>
      let h := triTest r (recCoord x)
      let commit := match h with
        | some q => le32 r.tmin q.t && lt32 q.t r.tmax
        | none => false
      match logEntry who s r at_ ((h.map (·.t)).getD inf32) 2 i commit with
      | .error e => .error e
      | .ok (s, r) =>
        let r := { r with leaf := some (addr, kind, n, tn, i + 1) }
        match commit, h with
        | true, some q =>
          let r := { r with tmax := q.t, hit := some { user := false, t := q.t, addr := at_, attr := q.b1 + q.b2 * 2 ^ 32, index := i } }
          if r.first then
            match endRay who s r 2 with
            | .error e => .error e
            | .ok (s, r) => .ok (s, r, .final)
          else .ok (s, r, .none)
        | _, _ => .ok (s, r, .none)

/-- The children of a node that are intersected are fetched into the cluster's node cache, those that can be read (R347). -/
def prefetchNodes (who : Who) (at_ : RtAt) (s : State) (refs : List Nat) : State :=
  (refs.filter (fun r => decide (refKind r = 0) && decide (refAddr r % 128 = 0))).foldl (fun s r =>
    match checkOne s who (refAddr r) 128 16 needRd .plain with
    | .ok l => if noCache s who.tenant (refAddr r) then s
      else capture (touch s who.tenant (refAddr r) false) { cache := .nodes (at_.core / 8), at_ := l, n := 128 }
    | .error _ => s) s
/-- Visit an inner node: its hit children go on the stack, the nearest on top (R350). -/
def nodeStep (who : Who) (core : RtAt) (s : State) (r : Ray) (e : RayEntry) : Except RayStop (State × Ray × RayEvent) :=
  let a := refAddr e.ref
  if a % 128 ≠ 0 then .error (.state 2)
  else match rtRead who core true a 8 s with
    | .error x => .error x
    | .ok (s, n) =>
      if nodeBad n then .error (.state 2)
      else match logEntry who s r a e.tn 1 e.idx false with
        | .error x => .error x
        | .ok (s, r) =>
          let hits := ((List.range 8).filter (nodeValid n)).filterMap (fun c => (boxTest r n c).map (fun t => ({ ref := nodeRef n c, tn := t, idx := c } : RayEntry)))
          let ordered := sortBy (fun x y => le32 x.tn y.tn) hits
          let st := r.stack ++ ordered.reverse
          if 56 < st.length then .error (.state 5)
          else .ok (prefetchNodes who core s (ordered.map (·.ref)), { r with stack := st }, .none)

/-- One step of a traced ray (R350): the rest of a handed candidate, the current leaf, or the top of the stack. -/
def traceStep (who : Who) (core : RtAt) (s : State) (r : Ray) : Except RayStop (State × Ray × RayEvent) :=
  match r.cand with
  | some (a, i, _) =>
    match logEntry who s r a (if r.accepted then r.tmax else inf32) 3 i r.accepted with
    | .error e => .error e
    | .ok (s, r) => .ok (s, { r with cand := none, tried := false, accepted := false }, .none)
  | none =>
    match r.done with
    | some 3 =>
      match endRay who s r 2 with
      | .error e => .error e
      | .ok (s, r) => .ok (s, r, .final)
    | some _ => .ok (s, r, .final)
    | none =>
      match r.leaf with
      | some (a, kind, n, tn, i) => leafStep who core s r a kind n tn i
      | none =>
        match r.stack.getLast? with
        | none =>
          match endRay who s r (if r.hit.isSome then 2 else 1) with
          | .error e => .error e
          | .ok (s, r) => .ok (s, r, .final)
        | some e =>
          let r := { r with stack := r.stack.dropLast }
          if lt32 r.tmax e.tn then .ok (s, r, .none)
          else if refKind e.ref = 0 then nodeStep who core s r e
          else if refKind e.ref = 3 then .error (.state 2)
          else .ok (s, { r with leaf := some (refAddr e.ref, refKind e.ref, refCount e.ref, e.tn, 0) }, .none)

/-- One log entry of a replay (R356). -/
def replayStep (who : Who) (core : RtAt) (s : State) (r : Ray) : Except RayStop (State × Ray × RayEvent) :=
  match r.done with
  | some _ => .ok (s, r, .final)
  | none =>
    match checkOne s who r.loga 16 16 needRd .plain with
    | .error e => .error (.fail e)
    | .ok h =>
      let hd := rdN s h 16
      let s := touch s who.tenant r.loga false
      if field hd 0 32 < r.logPos then .ok (s, { r with done := some (field hd 32 3) }, .final)
      else
        let at_ := r.loga + 16 * r.logPos
        match checkOne s who at_ 16 16 needRd .plain with
        | .error e => .error (.fail e)
        | .ok l =>
          let x := rdN s l 16
          let s := touch s who.tenant at_ false
          let a := field x 64 64
          let t := field x 32 32
          let i := field x 16 8
          let hit := decide (field x 8 1 = 1)
          let r := { r with logPos := r.logPos + 1 }
          if field x 24 8 = 2 then
            match rtRead who core false a 3 s with
            | .error e => .error e
            | .ok (s, y) =>
              let q := triTest r (recCoord y)
              -- the weights of a record that R349 does not hit, or of a lane that holds no ray, are not stated: free values
              let f1 := Config.free s.fresh 1 % 2 ^ 32
              let f2 := Config.free s.fresh 2 % 2 ^ 32
              let s : State := if q.isNone || r.o.isEmpty then { s with fresh := s.fresh + 1 } else s
              let b1 := if r.o.isEmpty then f1 else (q.map (·.b1)).getD f1
              let b2 := if r.o.isEmpty then f2 else (q.map (·.b2)).getD f2
              let r := if hit then { r with hit := some { user := false, t := t, addr := a, attr := b1 + b2 * 2 ^ 32, index := i } } else r
              .ok (s, { r with lastHit := hit, cand := some (a, i, t) }, .tri t a b1 b2 i hit)
          else if field x 24 8 = 3 then
            let r := if hit then { r with hit := some { user := true, t := t, addr := a, attr := Config.free s.fresh 3 % 2 ^ 64, index := i } } else r
            let s : State := if hit then { s with fresh := s.fresh + 1 } else s
            .ok (s, { r with lastHit := hit, cand := some (a, i, t) }, .userLog t a i hit)
          else .ok (s, r, .none)

/-- Advance a ray to its next event; the fuel is beyond any number of steps a traversal takes. -/
def rayRun (who : Who) (core : RtAt) : Nat → State → Ray → Except RayStop (State × Ray × RayEvent)
  | 0, s, r => .ok (s, r, .none)
  | n + 1, s, r =>
    match (if r.replay then replayStep who core s r else traceStep who core s r) with
    | .error e => .error e
    | .ok (s, r, .none) => rayRun who core n s r
    | x => x

/-! ### Contexts and ray-state blocks (R351) -/

def cState (c : BitVec 512) : Nat := bitsAt c 160 19
/-- Whether a context breaks Table 21.10. -/
def contextBad (c : BitVec 512) (lsKib : Nat) : Bool :=
  decide (bitsAt c 179 333 ≠ 0) || decide (cState c % 1024 ≠ 0) || decide (lsKib * 1024 < cState c + 32768) || decide (bitsAt c 148 12 ≠ 0) ||
    decide (bitsAt c 146 2 = 3) || decide (bitsAt c 56 8 ≠ 1) ||
    decide (bitsAt c 128 16 < 2) || decide (bitsAt c 64 64 % 16 ≠ 0)
/-- The traversal context at S[b]: its address, its place in local store and its fields are checked in this order (log 106). -/
def onContext (b : Field11) (f : BitVec 512 → State → Nat → Wave → Res) (s : State) (k : Nat) (w : Wave) : Res :=
  let va := (rdS w b.toNat).toNat
  match checkOne s (whoOf s k) va 64 64 needRd .plain with
  | .error e => .trap e.trap s
  | .ok l =>
    if !inLocal va then .trap (addrRange va 0).trap s
    else
      let c : BitVec 512 := BitVec.ofNat 512 (rdN s l 64)
      if contextBad c (((s.group? (lsGroup s k)).map (·.lsKib)).getD 0) then .trap (ringTrap va 0xFFFFFFFF) s
      else f c s k w

/-- The unit writes a ray-state block: its contents are free (log 23); what it wrote is remembered for the check word. -/
def writeBlock (s : State) (lg : Nat) (r : Ray) : State × Ray :=
  let v := Config.free s.fresh r.block % 2 ^ 8192
  (wrN { s with fresh := s.fresh + 1 } (.ls lg r.block) 1024 v, { r with shadow := v })

/-- The ray as a block holds it that software has written so that its check word passes: the block's ray, distances, hit and references, in
a layout the manual does not give (R351; log 23). -/
def rayFromBlock (r : Ray) (x : Nat) : Ray :=
  let f (k : Nat) : Nat := Config.rayBlock x k
  { r with
    o := [f 1 % 2 ^ 32, f 2 % 2 ^ 32, f 3 % 2 ^ 32], d := [f 4 % 2 ^ 32, f 5 % 2 ^ 32, f 6 % 2 ^ 32], tmin := f 7 % 2 ^ 32, tmax := f 8 % 2 ^ 32
    hit := if f 9 % 2 = 0 then none
      else some { user := f 10 % 2 == 1, t := f 11 % 2 ^ 32, addr := f 12 % 2 ^ 64, attr := f 13 % 2 ^ 64, index := f 14 % 2 ^ 8 }
    leaf := none
    stack := (List.range (f 15 % 57)).map (fun i => { ref := f (16 + 3 * i) % 2 ^ 64, tn := f (17 + 3 * i) % 2 ^ 32, idx := f (18 + 3 * i) % 8 }) }
/-- A ray as its block gives it: as the unit left it; or, where software has changed the block, none when the check word fails (R351). -/
def rayNow (s : State) (lg : Nat) (r : Ray) : Option Ray :=
  let x := rdN s (.ls lg r.block) 1024
  if r.done.isSome ∨ x = r.shadow then some r else if Config.rayBlock x 0 % 2 = 1 then some (rayFromBlock r x) else none

def rayOf (w : Wave) (l : Nat) : Option Ray := kfind l w.rays
/-- A lane's ray that has not ended. -/
def rayLive (w : Wave) (l : Nat) : Bool :=
  match rayOf w l with
  | some r => r.done.isNone
  | none => false

def travTrap (idx reason : Nat) : Trap := { cause := .traversalState, reason := reason, info0 := w64 idx }
def stopTrap (r : Ray) (l : Nat) : RayStop → Trap
  | .fail e => { e.trap with lanes := none }
  | .state n => travTrap r.idx n
  | .logFull => { cause := .traversalLogFull, info0 := w64 r.loga, info1 := w64 r.logn }

/-- A ray from a lane's registers and a context (R353). -/
def newRay (w : Wave) (a l idx : Nat) (c : BitVec 512) : Ray :=
  let x (i : Nat) : Nat := (rdV w (a + i) l).toNat
  let lo (i : Nat) : Nat := x i % 2 ^ 32
  let hi (i : Nat) : Nat := x i / 2 ^ 32
  let logn := bitsAt c 128 16
  { idx := idx, o := [lo 0, hi 0, lo 1], d := [lo 2, hi 2, lo 3], tmin := hi 1, tmax := hi 3, cull := bitsAt c 146 2, first := c.getLsbD 145,
    log := c.getLsbD 144, logn := logn, loga := bitsAt c 64 64 + 16 * logn * idx, block := cState c + 1024 * l,
    stack := [{ ref := bitsAt c 0 56, tn := hi 1 }] }
/-- Whether R353 refuses a ray's values. -/
def rayBad (r : Ray) : Bool :=
  (r.tmin :: r.tmax :: (r.o ++ r.d)).any (fun x => (v32 x).isNan) || r.d.all (fun x => (v32 x).isZero) || lt32 r.tmin 0 || lt32 r.tmax r.tmin

/-- `rt.trace` (R353). -/
def rtTraceBody (f : RtTraceF) (c : BitVec 512) (s : State) (k : Nat) (w : Wave) : Res :=
  let base := (rdS w f.c.toNat).toNat
  let rays := (lanesOf (activeOf w f.h.mask)).map (fun l => (l, newRay w f.a.toNat l (base + l) c))
  match rays.find? (fun q => rayBad q.2 || rayLive w q.1) with
  | some q => .trap (travTrap q.2.idx (if rayBad q.2 then 1 else 6)) s
  | none =>
    let logs := if c.getLsbD 144 then rays.map (fun q => checkOne s (whoOf s k) q.2.loga 16 16 needWr .plain) else []
    match worst logs with
    | some e => .trap e.trap s
    | none =>
      let s := if c.getLsbD 144 then rays.foldl (fun s q => touch s (tenantOf s k) q.2.loga true) s else s
      let s := logs.foldl (fun s q => match q with
        | .ok l => wrN s l 16 0
        | .error _ => s) s
      let lg := lsGroup s k
      .ok (rays.foldl (fun s q =>
        let r := writeBlock s lg q.2
        r.1.modWave k (fun w => { w with rays := kset q.1 r.2 w.rays })) s)
/-- `rt.trace`. -/
def execRtTrace (f : RtTraceF) (s : State) : Host.Outcome State Fault Refusal :=
  issue (specM f.h 8 [vOp f.a 4, sOp f.b, sOp7 f.c]) (whenActive f.h (onContext f.b (rtTraceBody f))) s

/-- The three registers of a lane's event (Table 21.12). -/
def eventRegs (r : Ray) (e : RayEvent) : Nat × Nat × Nat :=
  let pack (ev t index : Nat) (acc : Bool) : Nat := ev + (if acc then 8 else 0) + index % 256 * 2 ^ 8 + t * 2 ^ 32
  match e with
  | .user => match r.cand with
    | some (a, i, tn) => (pack 3 r.tmax i false, a, tn)
    | none => (0, 0, 0)
  | .tri t a b1 b2 i hit => (pack 4 t i hit, a, b1 + b2 * 2 ^ 32)
  | .userLog t a i hit => (pack 5 t i hit, a, 0)
  | _ =>
    match r.done, r.hit with
    | some 2, some h => (pack 2 h.t h.index h.user, h.addr, h.attr)
    | some 2, none => (pack 2 0 0 false, 0, 0)
    | some 1, _ => (pack 1 0 0 false, 0, 0)
    | _, _ => (0, 0, 0)

/-- Advance the rays of some lanes, ascending (R354): every lane reaches its event, or the lowest lane that cannot raises its cause and
nothing is kept. -/
def nextLanes (who : Who) (core : RtAt) (lg k d : Nat) : List Nat → State → Except Trap State
  | [], s => .ok s
  | l :: rest, s =>
    match s.wave? k with
    | none => .ok s
    | some w =>
      match rayOf w l with
      | none => nextLanes who core lg k d rest (s.setWave k (wrV (wrV (wrV w d l 0) (d + 1) l 0) (d + 2) l 0))
      | some r =>
        match rayNow s lg r with
        | none => .error (travTrap r.idx 4)
        | some r => match rayRun who core (2 ^ 64) s r with
          | .error x => .error (stopTrap r l x)
          | .ok (s, r, e) =>
            let x := eventRegs r e
            let q := if r.done.isSome then (s, r) else writeBlock s lg r
            nextLanes who core lg k d rest (q.1.modWave k (fun w =>
              { (wrV (wrV (wrV w d l (w64 x.1)) (d + 1) l (w64 x.2.1)) (d + 2) l (w64 x.2.2)) with rays := kset l q.2 w.rays }))
/-- `rt.next` (R354). -/
def execRtNext (f : DOnly) (s : State) : Host.Outcome State Fault Refusal :=
  issue (specM f.h 8 [vOp f.d 3 true]) (whenActive f.h (fun s k w =>
    match nextLanes (whoOf s k) { core := coreOf s k, since := roSince s w.key.seq } (lsGroup s k) k f.d.toNat (lanesOf (activeOf w f.h.mask)) s with
    | .error t => .trap t s
    | .ok s => .ok s)) s

/-- `rt.accept` in one lane (R355): the ray after it and its mask bit. -/
def acceptLane (r : Ray) (v attr : Nat) : Ray × Bool :=
  if r.replay then (r, r.lastHit && r.cand.isSome)
  else match r.cand with
    | none => (r, false)
    | some (a, i, _) =>
      if r.tried then (r, false)
      else
        let t := fround f32 .rne false (fdec (fmtOf .f64) v)
        if le32 r.tmin t && lt32 t r.tmax then
          ({ r with tried := true, accepted := true, tmax := t, hit := some { user := true, t := t, addr := a, attr := attr, index := i },
                    done := if r.first then some 3 else r.done }, true)
        else ({ r with tried := true }, false)
/-- `rt.accept`. -/
def execRtAccept (f : DAB) (s : State) : Host.Outcome State Fault Refusal :=
  issue (specM f.h 8 [mOp f.d true, vOp f.a, vOp f.b]) (onWave (fun w =>
    let r : Wave × LaneMask := (lanesOf (activeOf w f.h.mask)).foldl (fun (p : Wave × LaneMask) l =>
      match rayOf p.1 l with
      | none => p
      | some r =>
        let q := acceptLane r (rdV w f.a.toNat l).toNat (rdV w f.b.toNat l).toNat
        ({ p.1 with rays := kset l q.1 p.1.rays }, if q.2 then p.2 ||| maskOf (fun x => x == l) else p.2)) (w, 0)
    .ok (wrM r.1 f.d.toNat r.2))) s

/-- `rt.replay` (R356): the ray itself is what the lane's block still holds. -/
def rtReplayBody (f : RtReplayF) (c : BitVec 512) (s : State) (k : Nat) (w : Wave) : Res :=
  let base := (rdS w f.c.toNat).toNat
  let logn := bitsAt c 128 16
  let mk (l : Nat) : Ray :=
    let old := match rayOf w l with
      | some r => if r.block = cState c + 1024 * l then r else {}
      | none => {}
    { old with idx := base + l, cull := bitsAt c 146 2, replay := true, log := false, logn := logn,
               loga := bitsAt c 64 64 + 16 * logn * (base + l), block := cState c + 1024 * l, stack := [], leaf := none, cand := none, tried := false,
               accepted := false, hit := none, logCount := 0, logPos := 1, lastHit := false, done := none }
  let rays := (lanesOf (activeOf w f.h.mask)).map (fun l => (l, mk l))
  let hs := rays.map (fun q => checkOne s (whoOf s k) q.2.loga 16 16 needRd .plain)
  match worst hs with
  | some e => .trap e.trap s
  | none =>
    let bad := (rays.zip hs).find? (fun q => match q.2 with
      | .ok h => decide (field (rdN s h 16) 32 3 = 0) || decide (2 < field (rdN s h 16) 32 3)
      | .error _ => false)
    match bad with
    | some q => .trap (travTrap q.1.2.idx 3) s
    | none =>
      let s := rays.foldl (fun s q => touch s (tenantOf s k) q.2.loga false) s
      let lg := lsGroup s k
      .ok (rays.foldl (fun s q =>
        let r := writeBlock s lg q.2
        r.1.modWave k (fun w => { w with rays := kset q.1 r.2 w.rays })) s)
/-- `rt.replay`. -/
def execRtReplay (f : RtReplayF) (s : State) : Host.Outcome State Fault Refusal :=
  issue (specM f.h 8 [sOp f.b, sOp7 f.c]) (whenActive f.h (onContext f.b (rtReplayBody f))) s

end Sys2Proof.Machine
end

