-- ==== Sys2Proof/Machine/Sched.lean ====
section
/-! DEFINITION. What the core does for its waves between their instructions: ends of waits (R34, R50, R185, R303, R322, R338), results and
copies (R152, R192, R212, R213), claims (R28), ageing (R37), starvation (R312), encodings that are not instructions (R118, R119). An event
whose condition does not hold leaves the state as it is. -/

set_option linter.unusedVariables false

namespace Sys2Proof.Machine

/-- A wave that is on its core and has not ended. -/
def waveOn (s : State) (k : Nat) (w : Wave) : Bool :=
  !w.ended && !w.evicted && (((s.group? (gidOf k)).bind (·.core?)).isSome)

/-- The wave an event names, when it is on its core and a condition on it holds. -/
def onWaiter (s : State) (ok : Wave → Bool) (f : Wave → State) : Host.Outcome State Fault Refusal :=
  match s.wave? s.input.who with
  | some w => if waveOn s s.input.who w && ok w then .next (f w) else .next s
  | none => .next s

/-- The wave's wait ends and its instruction issues again from its start. -/
def clearWait (s : State) (k : Nat) : State := s.modWave k (fun w => { w with wait := .none, waitArg := 0 })

/-- JOIN_COUNT_ZERO (R34, R125, R159): the wave waiting at `rejoin` or `exit` pops its top token, whose count is 0; a `rejoin` has issued
with its stall count then, an `exit` when it began. It may wait on another count (R50). -/
def execJoinCountZero (s : State) : Host.Outcome State Fault Refusal :=
  let k := s.input.who
  onWaiter s (fun w => w.wait == .joinCount && decide (joinCount s (w.top?.bind (·.join)) = 0)) (fun w =>
    let s1 := popToken (clearWait s k) k
    let s2 := exitLoop (exitFuel s1 k) s1 k
    parkJoined s1 k (if w.waitArg = 1 then s2.modWave k (fun x => { x with age := 0 })
      else book { len := 8, stall := w.waitArg.toNat / 2, opnds := [], lat := some 0 } k (coreOf s k) w false s2))

/-- ILLEGAL_OPCODE (R118, R119, R124): the wave at an encoding that is no instruction takes the exception with no other effect; the input
holds the parcels of INFO0 and the encoding's length. -/
def execIllegalOpcode (s : State) : Host.Outcome State Fault Refusal :=
  match s.cur with
  | none => .next s
  | some k =>
    match s.wave? k with
    | none => .next s
    | some w => .next (takeTrap s k s.input.idx { cause := .illegalOpcode, info0 := s.input.value, lanes := some w.path })

/-- SCOREBOARD_RESULT (R126, R152, R192): a pending result of the input's wave is in its register; readers proceed (log 13). -/
def execScoreboardResult (s : State) : Host.Outcome State Fault Refusal :=
  onWaiter s (fun _ => true) (fun w => s.setWave s.input.who { w with pend := w.pend.eraseIdx s.input.idx })

/-- SLEEP_UNTIL_WAKE (R185): the time counter has reached the deadline; the wave continues after its instruction. -/
def execSleepUntilWake (s : State) : Host.Outcome State Fault Refusal :=
  onWaiter s (fun w => w.wait == .sleep && decide (w.waitArg.toNat ≤ s.ns)) (fun _ => clearWait s s.input.who)

/-- WAITER_RETEST (R50, R184): the helping waiter resumes and retests its condition. -/
def execWaiterRetest (s : State) : Host.Outcome State Fault Refusal :=
  let k := s.input.who
  onWaiter s (fun w => w.wait.helps && (decide (w.helping = 0) || w.grant)) (fun _ =>
    (clearWait s k).modWave k (fun w => { w with retest := true }))

/-- COPY_COMPLETE (R213, R228, R257, R268): the input's transfer moves its remaining bytes and completes; a failed access stops it (R212). Bytes
of a feed copy arrive: READ passes the skips that they end, and the copy completes where READ has reached its end (R251, R253). -/
def execCopyComplete (s : State) : Host.Outcome State Fault Refusal :=
  match kfind s.input.who s.xfers with
  | none => .next s
  | some x =>
    match (s.group? x.gid).bind (·.core?) with
    | none => .next s
    | some c =>
      if x.kind = .feedA ∨ x.kind = .feedB then
        let t := passFeeds s x.gid
        .next (if t.xfers.length < s.xfers.length then wakeEngine t c else t)
      else
        let r := xferRun (x.bytes + 1) s x
        match r.2.2 with
        | none => .next (wakeEngine (finishXfer r.1 r.2.1) c)
        | some e => .next (faultXfer r.1 r.2.1 e)

/-- The failure that a feed's delivery meets: its copies deliver in order, as far as the FIFO has room beyond what the engine takes (R249, R250,
R253). -/
def feedFail (s : State) (gid : Nat) (g : Group) (b : Bool) : Option (Nat × Fail) :=
  let f := g.feed b
  match feedBytes s gid b f.read (min f.fillIssued (drainEnd g b + Config.feedBytes) - f.read) with
  | .error e => e
  | .ok _ => none

/-- COPY_TRANSFER_FAULT (R212): the input's transfer meets a fault and stops at its position. -/
def execCopyTransferFault (s : State) : Host.Outcome State Fault Refusal :=
  match kfind s.input.who s.xfers with
  | none => .next s
  | some x =>
    match s.group? x.gid with
    | none => .next s
    | some g =>
      if g.core?.isNone then .next s
      else if x.kind = .feedA ∨ x.kind = .feedB then
        match feedFail s x.gid g (x.kind == .feedB) with
        | some (i, e) => .next (if i = s.input.who then faultXfer s x e else s)
        | none => .next s
      else
        let r := xferRun (x.bytes + 1) s x
        match r.2.2 with
        | none => .next s
        | some e => .next (faultXfer r.1 r.2.1 e)

/-- LAUNCH_TABLE_WAIT_END (R303): an entry has freed; the waiting publication proceeds, a released task before it. -/
def execLaunchTableWaitEnd (s : State) : Host.Outcome State Fault Refusal :=
  onWaiter s (fun w => w.wait == .launchTable && !launchFull s) (fun _ => clearWait s s.input.who)

/-- SPAWN_SEGMENT_WAIT_END (R44, R322): blocks or a segment have become free for what the input's wave asks; the spawn or ejection proceeds. -/
def execSpawnSegmentWaitEnd (s : State) : Host.Outcome State Fault Refusal :=
  onWaiter s (fun w => w.wait == .segment &&
    segGranted s (coreOf s s.input.who) (((s.group? (gidOf s.input.who)).map (·.seq)).getD 0) w.waitArg) (fun _ => clearWait s s.input.who)

/-- CLAIM_SERVED (R28): the input's core serves waiting claims in arrival order. -/
def execClaimServed (s : State) : Host.Outcome State Fault Refusal :=
  .next (serveClaims s.input.who ((s.core s.input.who).claims.length + 1) s)

/-- RING_ACQ_WAKE (R338): the slot has freed or a sequence has been published; the waiting wave issues again. -/
def execRingAcqWake (s : State) : Host.Outcome State Fault Refusal :=
  onWaiter s (fun w => w.wait == .ringAcq) (fun _ => clearWait s s.input.who)

/-! ### Ageing (R37, R38) -/

/-- The pending lanes of a token that have not exited: a PEND of which every lane has exited counts as empty (log 77). -/
def pendOf (w : Wave) (t : Token) : LaneMask := t.pend &&& ~~~ w.exited

/-- Run the pending path of the top token, popping none. -/
def runPending (w : Wave) (t : Token) (former : LaneMask) : Wave :=
  { (w.settle.setTop { t with pend := former, pendPc := w.pc }) with path := pendOf w t, pc := t.pendPc, age := 0, decl := 0 }

/-- Forward and pop tokens, from the top down, until the top token's pending path can run (R36, R37). -/
def popToPending : Nat → State → Nat → State
  | 0, s, _ => s
  | n + 1, s, k =>
    match s.wave? k with
    | none => s
    | some w => match w.top? with
      | none => s
      | some t =>
        if pendOf w t ≠ 0 then s.setWave k (runPending { w with pc := 0 } t 0)
        else
          match t.join with
          | none => popToPending n (s.setWave k w.pop) k
          | some j =>
            let r := topJoin (s.setWave k w.pop) k
            popToPending n (match r.2 with
              | some target => gcJoins (forwardJoin r.1 j target) none
              | none => r.1) k

/-- AGEING_QUANTUM (R37, R42) on the input's wave: swap the paths of the top token; or eject the current path, forward and pop to a pending
path; or only reset the counter. -/
def execAgeingQuantum (s : State) : Host.Outcome State Fault Refusal :=
  let k := s.input.who
  let c := coreOf s k
  onWaiter s (fun w => w.wait == .none && decide ((s.core c).quantumM1 + 1 ≤ w.age)) (fun w =>
    let counted (s : State) : State := s.modCore c (fun x => { x with pathChanges := x.pathChanges + 1 })
    let reset := s.setWave k { w with age := 0 }
    match w.top? with
    | none => reset
    | some t =>
      if pendOf w t ≠ 0 then counted (s.setWave k (runPending w t w.path))
      else if w.tokens.all (fun x => pendOf w x == 0) then reset
      else
        let n := popMask w.path
        match grantBlocks s c (((s.group? (gidOf k)).map (·.seq)).getD 0) .cont n (contBlocks w) with
        | .overflow _ => reset
        | .wait => s
        | .places ps =>
          let r := topJoin (s.setWave k w.settle) k
          match r.2 with
          | none => reset
          | some j =>
            let s1 := ejectLanes (addJoin r.1 j n) k w.path w.pc j ps
            gather (counted (popToPending (w.tokens.length + 1) s1 k)) c)

/-! ### Selection (R310 to R312) -/

/-- The issue class of a wave (Table 19.9). -/
def issueClass (s : State) (k : Nat) : Nat :=
  match s.group? (gidOf k) with
  | some g => if g.agent then 1 else if g.chain.isSome then 2 else if 0 < g.adepth then 3 else 4
  | none => 4

/-- ISSUE_STARVATION (R312): the input's ready wave has not been selected for STARVE_M1 + 1 cycles; it goes ahead of classes 3 and 4. -/
def execIssueStarvation (s : State) : Host.Outcome State Fault Refusal :=
  let k := s.input.who
  onWaiter s (fun w => w.wait == .none && decide (3 ≤ issueClass s k) && decide ((s.core (coreOf s k)).starveM1 + 1 ≤ w.unselected))
    (fun w => s.setWave k { w with starved := true })

end Sys2Proof.Machine
end

