-- ==== Sys2Proof/Machine/Agents.lean ====
section
/-! DEFINITION. The gather unit, the core agents and the front end between instructions: gathering (R40), retirement (R23), placement and
restoring (R305 to R308, R16), priority pre-emption (R307, R319), the balancer and partitions (R313, R314), tenants' use (R321), the
heartbeat (R295, R296). -/

set_option linter.unusedVariables false

namespace Sys2Proof.Machine

/-- GATHER_TIMEOUT on the input's core (R40): its oldest waiting thread has waited GATHER_M1 + 1 cycles; a partial wave with it is launched. -/
def execGatherTimeout (s : State) : Host.Outcome State Fault Refusal :=
  let c := s.input.who
  match s.threads.find? (fun t => t.core = c && t.batch.isNone) with
  | none => .next s
  | some t0 =>
    let t := (s.threads.filter (fun t => t.core = c && t.batch.isNone)).foldl (fun a b => if b.stamp < a.stamp then b else a) t0
    if t.stamp + (s.core c).gatherM1 + 1 ≤ s.cycle then .next (markBatch s t 32) else .next s

/-- GATHERED_WAVE_PLACE (R35, R40, R309): the input's batch starts on a core that has a slot and the resources. -/
def execGatheredWavePlace (s : State) : Host.Outcome State Fault Refusal :=
  match gatherCore s s.input.who with
  | some (c, a) => .next (startGathered s s.input.who c a)
  | none => .next s

/-- TASK_RETIRE (R23): the input's task has no group left and every descendant has settled. -/
def execTaskRetire (s : State) : Host.Outcome State Fault Refusal :=
  if canRetire s s.input.who then .next (retireTask s s.input.who) else .next s

/-! ### Placement -/

/-- The crew size of a candidate. -/
def Cand.crew (s : State) : Cand → Nat
  | .start q => ((s.task? q).map recCrew).getD 1
  | .image g => ((s.group? g).map (·.crew)).getD 1

/-- GROUP_PLACE on the input's core (R305 to R307): the agent claims the next group of the first task it can place; a KIND 4 image whose
registers are free comes first. -/
def execGroupPlace (s : State) : Host.Outcome State Fault Refusal :=
  let c := s.input.who
  match partialReady s c, pick s c with
  | none, some (.start q, cs) => if Cand.crew s (.start q) ≤ 1 then .next (place s (.start q) cs) else .next s
  | _, _ => .next s

/-- CREW_PLACE on the input's core (R308): CREW groups start together, rank r on the r-th lowest of the chosen cores. -/
def execCrewPlace (s : State) : Host.Outcome State Fault Refusal :=
  let c := s.input.who
  match partialReady s c, pick s c with
  | none, some (.start q, cs) => if Cand.crew s (.start q) ≤ 1 then .next s else .next (place s (.start q) cs)
  | _, _ => .next s

/-- A saved crew whose members left fit in no cluster is reported once to its queue's error stream, through its lowest rank left (R16): what must
fit, and the size in INFO0, is that of the members left, not the record's CREW (log 62). -/
def reportCrews (s : State) : State :=
  (s.groups.filter (fun p => decide (1 < p.2.crew) && p.2.core?.isNone && !p.2.faultedHere && !s.reported.contains (p.2.seq, p.2.crewLead) &&
      ((crewOf s p.2).head?.map (·.1)) == some p.1 && decide (maxCrew s < (crewOf s p.2).length))).foldl (fun (s : State) p =>
    { (errorRecord s (p.2.ring.getD 0) { cause := .crewUnplaceable, tenant := p.2.tenant, seq := p.2.seq, gid := p.1, crew := true,
                                          info0 := w64 (crewOf s p.2).length, info1 := w64 (maxCrew s) }) with
      reported := (p.2.seq, p.2.crewLead) :: s.reported }) s

/-- IMAGE_RESTORE on the input's core (R270, R285, R305): a KIND 4 image whose registers are free, else the image that comes first in the
order; a crew that fits nowhere is reported. What comes back may leave its group in claim deadlock (R29). -/
def execImageRestore (s : State) : Host.Outcome State Fault Refusal :=
  let c := s.input.who
  match partialReady s c with
  | some k => .next (settleGroups (restoreWave s k) [gidOf k])
  | none => match pick s c with
    | some (.image g, cs) => .next (place s (.image g) cs)
    | _ => .next (reportCrews s)

/-! ### Priority pre-emption (R307, R319) -/

/-- Whether a core could take a candidate, or one member of a crew. -/
def fitsOn (s : State) (c : Nat) : Cand → Bool
  | .start q => match s.task? q with
    | some t => canStart s c t
    | none => false
  | .image g => match s.group? g with
    | some x => canRestore s c g x
    | none => false
/-- What a candidate needs of a core. -/
def Cand.want (s : State) : Cand → Want
  | .start q => ((s.task? q).map taskWant).getD {}
  | .image g => ((s.group? g).map (groupWant s g)).getD {}
/-- Whether a candidate passes its tenant's budget (R321). -/
def Cand.budget (s : State) : Cand → Bool
  | .start q => match s.task? q with
    | some t => t.chain.isSome || budgetOk s t.tenant (shareOf (decide (0 < recAcc t)) (recWaves t) (recRegs t) (recLs t) (recAcc t)) 0
    | none => false
  | .image g => match s.group? g with
    | some x => x.chain.isSome || budgetOk s x.tenant (groupShare x) 0
    | none => false

/-- A core's pre-emption for a candidate of PRIO p (R319): groups of PRIO p - 2 or lower go until it fits; none goes if it would not fit. -/
def preempt (s : State) (c : Nat) (x : Cand) : Option State :=
  let p := Cand.prio s x
  let vs := victims s c (fun g => decide (g.prio + 2 ≤ p))
  if fitsOn s c x || !Cand.budget s x || vs.isEmpty then none
  else
    let t := (evictFor c (Cand.want s x) vs s).modCore c (fun k => { k with lastEvict := some s.time })
    if fitsOn t c x then some t else none

/-- PRE_WAIT_EXPIRY on the input's core (R307, R319): for a group that has waited PRE_WAIT_US, and that none of higher PRIO bars, the core evicts, at
most once in 100 us, and places it; a KIND 4 image that a core could restore before comes first there (R305). -/
def execPreWaitExpiry (s : State) : Host.Outcome State Fault Refusal :=
  let c := s.input.who
  let rested : Bool := match (s.core c).lastEvict with
    | some t => decide (t + 100000 * 2 ^ 32 ≤ s.time)
    | none => true
  if !rested || (partialReady s c).isSome then .next s
  else
    match (readySet s).findSome? (fun x => if (Cand.marked s x || overdue s x) && !barred s c x then (preempt s c x).map (fun t => (x, t)) else none) with
    | none => .next s
    | some (x, t) =>
      match placeOn t (restFree s) c x with
      | some cs => .next (place t x cs)
      | none => .next t

/-! ### Partitions and the balancer (R313, R314) -/

def tStart (e : BitVec 512) : Nat := bitsAt e 448 64
def tFinish (e : BitVec 512) : Nat := bitsAt e 384 64
def tPeriod (e : BitVec 512) : Nat := bitsAt e 320 64
def tChain (e : BitVec 512) : Nat := bitsAt e 256 56
def tBudget (e : BitVec 512) : Nat := bitsAt e 224 32
def tDrain (e : BitVec 512) : Nat := bitsAt e 160 32
def tSlots (e : BitVec 512) : Nat := bitsAt e 104 8
def tCores (e : BitVec 512) : Nat := bitsAt e 100 4
def tValid (e : BitVec 512) : Bool := e.getLsbD 0

/-- How many occurrences of an entry, START before a limit, overlap an interval when they begin LEAD early (R314). -/
def overlapCount (e : BitVec 512) (lead lo hi limit : Nat) : Nat :=
  let a := tStart e
  let b := tFinish e
  if tPeriod e = 0 then (if a ≤ hi + lead ∧ lo ≤ b ∧ a < limit then 1 else 0)
  else
    let p := tPeriod e
    let top := if limit ≤ a then 0 else min (if hi + lead < a then 0 else (hi + lead - a) / p + 1) ((limit - a + p - 1) / p)
    let skip := if b < lo then (lo - b + p - 1) / p else 0
    top - skip

/-- The first START of a timetable. -/
def firstStart (t : Timetable) : Option Nat := ((t.entries.filter tValid).map tStart).min?

/-- The demand D (R314): CORES over the admitted entries, each once, that overlap the next 200 us, the waiting timetable's from its first START on. -/
def demand (s : State) : Nat :=
  let lead := s.devCfg.leadUs * 1000
  let hi := s.ns + 200000
  let turn := ((s.nextTable.bind firstStart).getD (2 ^ 64))
  let sum (t : Timetable) (limit : Nat) : Nat := ((t.entries.filter tValid).map (fun e => if overlapCount e lead s.ns hi limit = 0 then 0 else tCores e)).sum
  ((s.table.map (fun t => sum t turn)).getD 0) + ((s.nextTable.map (fun t => sum t (2 ^ 64))).getD 0)

/-- LOAD_BALANCER (R314): every 100 us at most one core is marked MOVING; a core is idle whatever its agent slot holds. -/
def execLoadBalancer (s : State) : Host.Outcome State Fault Refusal :=
  if s.ns < s.lastBalance + 100000 then .next s
  else
    let s : State := { s with lastBalance := s.ns }
    let cs := (List.range 256).filter (coreAvail s)
    let render := cs.filter (fun c => (s.core c).part == 0 && (s.core c).chains.isEmpty)
    let compute := cs.filter (fun c => (s.core c).part == 1)
    let d := demand s
    let mark (c : Nat) : State := s.modCore c (fun k => { k with moving := true })
    if cs.any (fun c => (s.core c).moving) then .next s
    else if render.length < d ∧ s.devCfg.computeMin < compute.length then
      .next (match (compute.filter (fun c => (s.core c).chains.isEmpty)).getLast? with
        | some c => mark c
        | none => s)
    else if d < render.length then
      .next (match render.find? (fun c => (residents s c).all (fun p => p.2.agent)) with
        | some c => mark c
        | none => s)
    else .next s

/-- PARTITION_MOVE_COMPLETE on the input's core (R313): no resident group bars the new partition; PART changes and MOVING clears. -/
def execPartitionMoveComplete (s : State) : Host.Outcome State Fault Refusal :=
  let c := s.input.who
  let new := 1 - (s.core c).part
  if (s.core c).moving && (residents s c).all (fun p => p.2.part == 2 || p.2.part == new) then
    .next (s.modCore c (fun k => { k with part := new, moving := false }))
  else .next s

/-- TENANT_USE_WINDOW (R321): the management processor's measure of a tenant's bandwidth and power over 100 us (log 26). -/
def execTenantUseWindow (s : State) : Host.Outcome State Fault Refusal :=
  .next { s with uses := kset (s.input.who % 64) { units := 0, bw := s.input.value.toNat % 2 ^ 16, pwr := s.input.frac.toNat % 2 ^ 16 } s.uses }

/-! ### Heartbeat and recovery (R295, R296, R13, R17) -/

/-- HEARTBEAT (R295): the input's core has beaten. -/
def execHeartbeat (s : State) : Host.Outcome State Fault Refusal :=
  .next (s.modCore (s.input.who % 256) (fun c => { c with beatAt := s.ns }))

/-- The capability registers from the parts in service (R17, Tables 1.4 to 1.6); a spare that cannot serve reads as assigned (log 82). -/
def capsOf (s : State) : Caps :=
  let n (k : Nat) : Nat := (clusterCores s k).length
  let sizes := (List.range 32).map n
  let ch := 128 - s.channelsOut.length
  { dev := packBits 64 [(0, 16, 12 * ch), (16, 9, sizes.sum), (32, 4, sizes.foldl min 8), (36, 4, sizes.foldl max 0), (40, 8, ch),
                        (48, 8, 48 - s.lanesOut.length)]
    cluster := (List.range 4).map (fun i => packBits 64 ((List.range 8).map (fun k => (4 * k, 4, n (8 * i + k)))))
    spare := packBits 64 ((List.range 8).map (fun q => (q, 1, if s.sparesUsed.contains q then 0 else 1))) }

/-- A quad's spare takes over for a core (R13): the core's number stays, with the failed core's partition and configuration; else the
number is out. The second part is whether a spare was used. -/
def retireCore (s : State) (c : Nat) : State × Bool :=
  let q := c / 32
  if s.sparesUsed.contains q then ({ s with coresOut := s.coresOut ++ [c] }, false)
  else ({ s with sparesUsed := s.sparesUsed ++ [q], coresMoved := s.coresMoved ++ [c] }, true)

/-- Capture a core (R296): every resident group becomes a KIND 3 image, its crew and their continuation waves with it (R35, R265); adoption chains
stay. -/
def captureCore (s : State) (c : Nat) : State :=
  (((residents s c).flatMap (fun p => parkSet s p.1)).eraseDups).foldl (fun s g => stowContinuationsAs .captured (stowGroup s g .captured) g) s

/-- Whether a captured group comes back with its core on a spare: its tenant passes the budget test, and a continuation group finds its origin
there (R35, R321). -/
def comesBack (s : State) (c : Nat) (x : Group) : Bool :=
  (x.chain.isSome || budgetOk s x.tenant (groupShare x) 0) && (match x.origin with
    | .continuation o => ((s.group? o).bind (·.core?)) == some c
    | _ => true)

/-- HEARTBEAT_LOST on the input's core (R295, R296, Table 17.8), two beats of 100 us missed: halt and capture, retire the core, update the capability registers and the
configuration record (R388), then the error record; the images whose tenants pass the budget test (R321) are restored on the spare, and their claims served. With the input's flag the capture
itself failed: the captured groups' tasks are killed, with RECOVERY_FAILED for each group to its task's queue (R399). Before READY no core runs (R384). -/
def execHeartbeatLost (s : State) : Host.Outcome State Fault Refusal :=
  let c := s.input.who % 256
  if s.boot.state ≠ .ready ∨ coreAvail s c = false ∨ s.ns < (s.core c).beatAt + 200000 then .next s
  else
    let gs := (((residents s c).flatMap (fun p => parkSet s p.1)).eraseDups)
    let seqs := ((gs.filterMap (fun g => (s.group? g).map (·.seq))).eraseDups)
    let s := captureCore s c
    let r := retireCore s c
    let s : State := { r.1 with caps := capsOf r.1 }
    let s := writeConfig (s.modCore c (fun k => { k with claims := [], recCache := [], roCache := [] }))
    let s := hostRecord s { cause := .heartbeatLost, core := c, info0 := w64 c, info1 := if r.2 then w64 (c / 32) else 0xFF }
    if s.input.flag then
      .next (killTasks (gs.foldl (fun s g => match s.group? g with
        | some x => errorRecord s (x.ring.getD 0)
            { cause := .recoveryFailed, core := x.lastCore, tenant := x.tenant, seq := x.seq, gid := g, crew := decide (1 < x.crew), info0 := w64 c }
        | none => s) s) seqs 2)
    else if r.2 then
      .next (settleGroups (gs.foldl (fun s g => match s.group? g with
        | some x => if x.lastCore = c && x.crew ≤ 1 && comesBack s c x then restoreGroup s g c else s
        | none => s) s) gs)
    else .next s

end Sys2Proof.Machine
end

