-- ==== Sys2Proof/Machine/Atomics.lean ====
section
/-! DEFINITION. Class 8, atomics and reductions (R80 to R84, R202 to R206). -/

set_option linter.unusedVariables false

namespace Sys2Proof.Machine

/-- Two operands of one address combined (R81, R82, R95): float operations round to nearest even and keep subnormals. -/
def atCombine (op : AtOp) (t : Ty) (x y : Nat) : Nat :=
  if t.isF then
    (match op with
     | .add => fBin .add envRne t x y
     | .min => fBin .min envRne t x y
     | _ => fBin .max envRne t x y)
  else match op with
    | .add => iBin .add t false x y
    | .min => iBin .min t false x y
    | .max => iBin .max t false x y
    | .and => iBin .and t false x y
    | .or => iBin .or t false x y
    | _ => iBin .xor t false x y

/-- One lane of an operation applied by itself (R83, R203, R204): the value written, if any, and `ok`. -/
def atOne (op : AtOp) (t : Ty) (old v w : Nat) : Option Nat × Bool :=
  match op with
  | .incWrap => (some (if v ≤ old then 0 else old + 1), true)
  | .addBound => if old + v ≤ w then (some (old + v), true) else (none, false)
  | .cas => if old = v then (some w, true) else (none, false)
  | _ => (some v, true)

/-- What the performer gives the lanes of one address, in ascending order: old value and `ok` each. -/
structure AtRes where
  mem : Nat
  wrote : Bool
  olds : List (Nat × Bool)
  deriving DecidableEq, Repr

/-- The lanes of one address at the performer (R81 to R83): operands (v, w) in ascending lane order. -/
def atLanes (op : AtOp) (t : Ty) (old : Nat) (vs : List (Nat × Nat)) : AtRes :=
  match op with
  | .add | .min | .max | .and | .or | .xor =>
    let r : Option Nat × List (Nat × Bool) := vs.foldl (fun (a : Option Nat × List (Nat × Bool)) p =>
      match a.1 with
      | none => (some p.1, a.2 ++ [(old, true)])
      | some q => (some (atCombine op t q p.1), a.2 ++ [(atCombine op t old q, true)])) (none, [])
    { mem := match r.1 with
        | some q => atCombine op t old q
        | none => old,
      wrote := r.1.isSome, olds := r.2 }
  | .exch =>
    let r : Nat × List (Nat × Bool) := vs.foldl (fun (a : Nat × List (Nat × Bool)) p => (p.1, a.2 ++ [(a.1, true)])) (old, [])
    { mem := r.1, wrote := !vs.isEmpty, olds := r.2 }
  | _ =>
    vs.foldl (fun (a : AtRes) p =>
      let x := atOne op t a.mem p.1 p.2
      { mem := x.1.getD a.mem, wrote := a.wrote || x.1.isSome, olds := a.olds ++ [(a.mem, x.2)] }) { mem := old, wrote := false, olds := [] }

/-- Lanes grouped by equal address, ascending (R81). -/
def atGroups (ls : List (Nat × Nat × Loc)) : List (List (Nat × Nat × Loc)) :=
  ((ls.map (·.2.1)).eraseDups).map (fun a => ls.filter (fun p => p.2.1 == a))

/-- The lanes of one address at memory (R81 to R84): the state, and each lane's old value and `ok`. -/
def atGroup (op : AtOp) (t : Ty) (tenant : Nat) (val : Nat → Nat × Nat) (s : State) (g : List (Nat × Nat × Loc)) :
    State × List (Nat × Nat × Bool) :=
  match g with
  | [] => (s, [])
  | p :: _ =>
    let n := t.width / 8
    let r := atLanes op t (rdN s p.2.2 n) (g.map (fun q => val q.1))
    let s := touch s tenant p.2.1 r.wrote
    (if r.wrote then wrN s p.2.2 n r.mem else s, (g.zip r.olds).map (fun q => (q.1.1, q.2.1, q.2.2)))

/-- An atomic or reduction over lanes (R81 to R84): the state, and each lane's old value and `ok`. -/
def atRun (op : AtOp) (t : Ty) (tenant : Nat) (val : Nat → Nat × Nat) (ls : List (Nat × Nat × Loc)) (s : State) :
    State × List (Nat × Nat × Bool) :=
  (atGroups ls).foldl (fun (a : State × List (Nat × Nat × Bool)) g =>
    let r := atGroup op t tenant val a.1 g
    (r.1, a.2 ++ r.2)) (s, [])

/-- Whether the host performs an operation as a PCIe AtomicOp (R80). -/
def hostAt (op : AtOp) (t : Ty) (red : Bool) : Bool :=
  !t.isF && (op == .add || (!red && (op == .exch || op == .cas)))

/-- An atomic's body (R202 to R206): all lanes pass R60 or none is performed. `opc` is opcode10, which ATOMIC_TARGET records. -/
def atBody (op : AtOp) (red : Bool) (opc : Nat) (h : Hd) (d : Option Field11) (a b : Field11) (m : MemW) (okMask : Option (BitVec 3)) (off : Off)
    (s : State) (k : Nat) (w : Wave) : Res :=
  let n := m.ty.width / 8
  match checkLanes s (whoOf s k) (laneAddrs w h.mask a off) n n needRw (.hostAtomic (hostAt op m.ty red) opc) with
  | .error t => .trap t s
  | .ok ls =>
    let val (l : Nat) : Nat × Nat := ((rdV w b.toNat l).toNat % 2 ^ m.ty.width, (rdV w (b.toNat + 1) l).toNat % 2 ^ m.ty.width)
    let r := atRun op m.ty (tenantOf s k) val ls s
    let w1 := match d with
      | some d => r.2.foldl (fun (w : Wave) p => wrV w d.toNat p.1 (extTy m.ty p.2.1)) w
      | none => w
    let w2 := match okMask with
      | some mm => wrM w1 mm.toNat (maskOf (fun l => r.2.any (fun p => p.1 == l && p.2.2)))
      | none => w1
    .ok (semAcquire (r.1.setWave k w2) k m)

/-- `atom.add` (R202, Table 13.5). -/
def execAtomAdd (f : AtF) (s : State) :
    Host.Outcome State Fault Refusal :=
  issue (specM f.h (offLen f.off) [vOp f.d 1 true, vOp f.a, vOp f.b])
    (atBody .add false 0x210 f.h (some f.d) f.a f.b f.mem none f.off) s

/-- `atom.min` (R202, Table 13.5). -/
def execAtomMin (f : AtF) (s : State) :
    Host.Outcome State Fault Refusal :=
  issue (specM f.h (offLen f.off) [vOp f.d 1 true, vOp f.a, vOp f.b])
    (atBody .min false 0x211 f.h (some f.d) f.a f.b f.mem none f.off) s

/-- `atom.max` (R202, Table 13.5). -/
def execAtomMax (f : AtF) (s : State) :
    Host.Outcome State Fault Refusal :=
  issue (specM f.h (offLen f.off) [vOp f.d 1 true, vOp f.a, vOp f.b])
    (atBody .max false 0x212 f.h (some f.d) f.a f.b f.mem none f.off) s

/-- `atom.and` (R202, Table 13.5). -/
def execAtomAnd (f : AtF) (s : State) :
    Host.Outcome State Fault Refusal :=
  issue (specM f.h (offLen f.off) [vOp f.d 1 true, vOp f.a, vOp f.b])
    (atBody .and false 0x213 f.h (some f.d) f.a f.b f.mem none f.off) s

/-- `atom.or` (R202, Table 13.5). -/
def execAtomOr (f : AtF) (s : State) :
    Host.Outcome State Fault Refusal :=
  issue (specM f.h (offLen f.off) [vOp f.d 1 true, vOp f.a, vOp f.b])
    (atBody .or false 0x214 f.h (some f.d) f.a f.b f.mem none f.off) s

/-- `atom.xor` (R202, Table 13.5). -/
def execAtomXor (f : AtF) (s : State) :
    Host.Outcome State Fault Refusal :=
  issue (specM f.h (offLen f.off) [vOp f.d 1 true, vOp f.a, vOp f.b])
    (atBody .xor false 0x215 f.h (some f.d) f.a f.b f.mem none f.off) s

/-- `atom.exch` (R202, Table 13.5). -/
def execAtomExch (f : AtF) (s : State) :
    Host.Outcome State Fault Refusal :=
  issue (specM f.h (offLen f.off) [vOp f.d 1 true, vOp f.a, vOp f.b])
    (atBody .exch false 0x216 f.h (some f.d) f.a f.b f.mem none f.off) s

/-- `atom.inc.wrap` (R202, Table 13.5). -/
def execAtomIncWrap (f : AtF) (s : State) :
    Host.Outcome State Fault Refusal :=
  issue (specM f.h (offLen f.off) [vOp f.d 1 true, vOp f.a, vOp f.b])
    (atBody .incWrap false 0x217 f.h (some f.d) f.a f.b f.mem none f.off) s

/-- `atom.cas` (R202, Table 13.5). -/
def execAtomCas (f : AtF) (s : State) :
    Host.Outcome State Fault Refusal :=
  issue (specM f.h (offLen f.off) [vOp f.d 1 true, vOp f.a, vOp f.b 2])
    (atBody .cas false 0x219 f.h (some f.d) f.a f.b f.mem none f.off) s

/-- `atom.add.bound` (R203): ok into M[m], 0 outside Active. -/
def execAtomAddBound (f : AtBF) (s : State) :
    Host.Outcome State Fault Refusal :=
  issue (specM f.h 12 [vOp f.d 1 true, vOp f.a, vOp f.b 2, mOp3 f.m true])
    (atBody .addBound false 0x218 f.h (some f.d) f.a f.b f.mem (some f.m) .none) s

/-- `red.add` (R205, Table 13.5). -/
def execRedAdd (f : StF) (s : State) :
    Host.Outcome State Fault Refusal :=
  issue (specM f.h (offLen f.off) [vOp f.a, vOp f.b])
    (atBody .add true 0x220 f.h none f.a f.b f.mem none f.off) s

/-- `red.min` (R205, Table 13.5). -/
def execRedMin (f : StF) (s : State) :
    Host.Outcome State Fault Refusal :=
  issue (specM f.h (offLen f.off) [vOp f.a, vOp f.b])
    (atBody .min true 0x221 f.h none f.a f.b f.mem none f.off) s

/-- `red.max` (R205, Table 13.5). -/
def execRedMax (f : StF) (s : State) :
    Host.Outcome State Fault Refusal :=
  issue (specM f.h (offLen f.off) [vOp f.a, vOp f.b])
    (atBody .max true 0x222 f.h none f.a f.b f.mem none f.off) s

/-- `red.and` (R205, Table 13.5). -/
def execRedAnd (f : StF) (s : State) :
    Host.Outcome State Fault Refusal :=
  issue (specM f.h (offLen f.off) [vOp f.a, vOp f.b])
    (atBody .and true 0x223 f.h none f.a f.b f.mem none f.off) s

/-- `red.or` (R205, Table 13.5). -/
def execRedOr (f : StF) (s : State) :
    Host.Outcome State Fault Refusal :=
  issue (specM f.h (offLen f.off) [vOp f.a, vOp f.b])
    (atBody .or true 0x224 f.h none f.a f.b f.mem none f.off) s

/-- `red.xor` (R205, Table 13.5). -/
def execRedXor (f : StF) (s : State) :
    Host.Outcome State Fault Refusal :=
  issue (specM f.h (offLen f.off) [vOp f.a, vOp f.b])
    (atBody .xor true 0x225 f.h none f.a f.b f.mem none f.off) s

/-- `red.inc.wrap` (R205, Table 13.5). -/
def execRedIncWrap (f : StF) (s : State) :
    Host.Outcome State Fault Refusal :=
  issue (specM f.h (offLen f.off) [vOp f.a, vOp f.b])
    (atBody .incWrap true 0x226 f.h none f.a f.b f.mem none f.off) s

end Sys2Proof.Machine
end

