-- ==== Sys2Proof/Machine/Strips.lean ====
section
/-! DEFINITION. The strip timetable: admission (R315, R316), replacement and binding (R316, R342), launch of chains (R317, R318), finish
times (R345); the outputs, displays and encoders (R342 to R345). -/

set_option linter.unusedVariables false

namespace Sys2Proof.Machine

/-! ### Admission (R315, R316) -/

def tEvict : Nat := 12000

/-- Condition 1: an entry's own fields (Table 19.10); an entry with VALID 0 is not in use. -/
def entryOk (period : Option Nat) (e : BitVec 512) : Bool :=
  decide (bitsAt e 312 8 = 0) && decide (bitsAt e 91 5 = 0) && decide (bitsAt e 1 87 = 0) && decide (tChain e % 64 = 0) &&
    decide (1 ≤ tTiles e) && decide (2 ≤ tSlots e) && decide (1 ≤ tCores e) && decide (tCores e ≤ 8) && decide (tOut e ≤ 11) &&
    decide (tCeil e ≤ 4) && decide (tStart e < tFinish e) && (decide (tPeriod e = 0) || decide (tFinish e ≤ tStart e + tPeriod e)) &&
    decide (period = some (tPeriod e))

/-- Condition 2. -/
def budgetFits (e : BitVec 512) : Bool :=
  decide ((tBudget e : Int) ≤ (tCores e : Int) * ((tFinish e : Int) - tStart e - tGuard e - tEvict))

/-- Whether an instant lies in a window of an entry, windows half-open (log 36). -/
def windowHas (e : BitVec 512) (t : Nat) : Bool :=
  if tPeriod e = 0 then decide (tStart e ≤ t) && decide (t < tFinish e)
  else
    let p := tPeriod e
    let d := (t + p - tStart e % p) % p
    decide (d < tFinish e - tStart e)

/-- Condition 4 at an entry's START: how many windows contain that instant, in the periodic schedule (log 36). -/
def windowsAt (es : List (BitVec 512)) (t : Nat) : Nat := (es.filter (fun e => windowHas e t)).length

/-- START of the strip i of an output, strips running on from one period into the next (R316). -/
def stripStart (es : List (BitVec 512)) (i : Nat) : Option Nat :=
  match es[i % es.length]? with
  | none => none
  | some e => if i < es.length then some (tStart e) else if tPeriod e = 0 then none else some (tStart e + i / es.length * tPeriod e)

/-- Condition 5, and the order of an output's entries (R315): entry i against the entry RING_SLOTS later and against the one before. -/
def outputOk (es : List (BitVec 512)) (i : Nat) (e : BitVec 512) : Bool :=
  (match stripStart es (i + tSlots e) with
   | some t => decide (tFinish e + tDrain e ≤ t)
   | none => true) &&
  (match i with
   | 0 => true
   | j + 1 => decide (tStart (es.getD j 0) ≤ tStart e))

/-- The first entry at which a timetable fails (R316). -/
def tableBad (s : State) (es : List (BitVec 512)) : Option Nat :=
  let valid := es.filter tValid
  let period := valid.head?.map tPeriod
  let minCl := minCluster s
  let wide := ((List.range 32).filter (fun k => decide (minCl ≤ (clusterCores s k).length))).length
  let bad (i : Nat) (e : BitVec 512) : Bool :=
    tValid e && (!entryOk period e || !budgetFits e || decide (minCl < tCores e) ||
      decide (min s.devCfg.rclust wide < windowsAt valid (tStart e)) ||
      (let mine := valid.filter (fun x => tOut x = tOut e)
       let at_ := ((es.take i).filter (fun x => tValid x && decide (tOut x = tOut e))).length
       !outputOk mine at_ e))
  ((es.mapIdx (fun i e => (i, e))).find? (fun p => bad p.1 p.2)).map (·.1)

/-! ### Replacement and launch (R316 to R318, R342) -/

/-- An admitted timetable takes effect at its own first START: each output binds its next entry to PUB of its ring, and its first strip
will start at CEIL; what strips of the timetables before it are still to come go on from their output's level (R316, R320, R342). -/
def replaceTable (s : State) : State :=
  match s.nextTable with
  | none => s
  | some t =>
    match firstStart t with
    | none => { s with table := some t, nextTable := none }
    | some a =>
      if s.ns < a then s
      else
        let tenant := (s.ring t.ring).tenant
        let seen := s.outputs.foldl (fun s p => if p.2.bound then hdrTouch s tenant (bitsAt p.2.desc 0 56) else s) s
        { seen with
          table := some t, nextTable := none, chains := s.chains.map (fun p => (p.1, { p.2 with old := p.2.old + 1 }))
          outputs := s.outputs.map (fun (p : Nat × Output) =>
            let pub := BitVec.ofNat 32 (hPub (ringHdr s { tenant := tenant } (bitsAt p.2.desc 0 56)))
            (p.1, { p.2 with tenant := tenant, base := pub, counted := [], levels := p.2.levels.map (fun l => (l.1 + 1, l.2)), seq := if p.2.started then p.2.seq else pub })) }

/-- The cluster of a chain (R317): raster unit idle, enough available cores, most render cores that no chain holds; the lowest number on a
tie. -/
def chainCluster (s : State) (cores : Nat) : Option Nat :=
  let render (k : Nat) : Nat := ((clusterCores s k).filter (fun c => (s.core c).part == 0 && (s.core c).chains.isEmpty)).length
  (((List.range 32).filter (fun k => !(s.raster k).busy && decide (cores ≤ (clusterCores s k).length))).foldl (fun (a : Option Nat) k => match a with
    | some b => if render b < render k then some k else a
    | none => some k) none)

/-- The cores a chain takes: the lowest-numbered of the cluster, render cores before others. -/
def chainCores (s : State) (k n : Nat) : List Nat :=
  let free := clusterCores s k
  ((free.filter (fun c => (s.core c).part == 0)) ++ (free.filter (fun c => (s.core c).part != 0))).take n

/-- The chosen cores are emptied of every group that is no strip-chain group (R318). -/
def emptyCores (s : State) (cs : List Nat) : State :=
  (s.groups.filter (fun p => p.2.chain.isNone && !p.2.agent && (match p.2.core? with
    | some c => cs.contains c
    | none => false))).foldl (fun s p => match (s.group? p.1).bind (·.core?) with
      | some _ => evictGroup s p.1
      | none => s) s

/-- The chain head's record at PRIO 7 with PART 0 (R317). -/
def chainRecord (r : BitVec 512) : BitVec 512 := (r &&& ~~~ (BitVec.ofNat 512 (31 * 2 ^ 226))) ||| BitVec.ofNat 512 (7 * 2 ^ 228)

/-- Count an occurrence of an entry as started. -/
def countStart (s : State) (i : Nat) : State :=
  { s with table := s.table.map (fun t => { t with started := kset i (kget 0 i t.started + 1) t.started }) }

/-- Launch the chain of an entry's occurrence on a cluster (R317); none while publication has to wait (R303). -/
def launchChain (s : State) (t : Timetable) (e : BitVec 512) (finish k : Nat) : Option State :=
  let q := s.ring t.ring
  let who : Who := { tenant := q.tenant }
  let cs := chainCores s k (tCores e)
  let base : Record := { cause := .recordInvalid, tenant := q.tenant }
  let take (s : State) (id : Nat) : State :=
    emptyCores (cs.foldl (fun s c => s.modCore c (fun x => { x with part := 0, chains := id :: x.chains, moving := false })) s) cs
  let give (id : Nat) (s : State) : State := cs.foldl (fun s c => s.modCore c (fun x => { x with chains := x.chains.erase id })) s
  match checkOne s who (tChain e) 64 64 { rd := true } .plain with
  | .error f => some (give s.nextSeq (errorRecord (take s s.nextSeq) t.ring { base with cause := f.cause, info0 := f.info0, info1 := f.info1 }))
  | .ok l =>
    let rec64 := chainRecord (BitVec.ofNat 512 (rdN s l 64))
    let head := s.nextSeq
    let s := touch (take s head) q.tenant (tChain e) false
    match publish s rec64 (w64 (tChain e)) q.tenant t.ring 1 none {} (some head) base with
    | .wait => none
    | .refused s => some (give head s)
    | .ok s id =>
      if ((s.task? id).map (·.state)) = some .refused then some (give head s)
      else some { s with chains := kset id { entry := e, head := id, cluster := k, cores := cs, launched := s.ns, finish := finish } s.chains }

/-- STRIP_START of the input's entry (R317): the time counter has reached the START of its next occurrence. -/
def execStripStart (s : State) : Host.Outcome State Fault Refusal :=
  let s := replaceTable s
  match s.table with
  | none => .next s
  | some t =>
    match t.entries[s.input.who]? with
    | none => .next s
    | some e =>
      let n := kget 0 s.input.who t.started
      if !tValid e || (decide (tPeriod e = 0) && decide (0 < n)) || decide (s.ns < tStart e + n * tPeriod e) then .next s
      else match chainCluster s (tCores e) with
        | none => .next (countStart s s.input.who)
        | some k => match launchChain s t e (tFinish e + n * tPeriod e) k with
          | some s1 => .next (countStart s1 s.input.who)
          | none => .next s

/-- Count an occurrence of an entry as finished. -/
def countFinish (s : State) (i : Nat) : State :=
  { s with table := s.table.map (fun t => { t with finished := kset i (kget 0 i t.finished + 1) t.finished }) }
/-- Count a late sequence of a ring: LATE goes up once for it, whichever outputs' entries are bound to it (R345). -/
def countLate (s : State) (who : Who) (va o q : Nat) : State :=
  let h := ringHdr s who va
  if (ringOutputs s who va).any (fun p => (kget {} p s.outputs).counted.contains q) then s
  else
    let s := wrVa s who (va + 36) (leBytes 4 ((hLate h + 1) % 2 ^ 32))
    { s with outputs := kmod o (fun x => { x with counted := q :: x.counted.filter (fun p => decide (0 ≤ seqDiff p (hPub h))) }) s.outputs }

/-- STRIP_FINISH of the input's entry (R345): at its FINISH, the sequence bound to it is late for every hardware consumer of the ring when it is
not below PUB; LATE counts it once. -/
def execStripFinish (s : State) : Host.Outcome State Fault Refusal :=
  match s.table with
  | none => .next s
  | some t =>
    match t.entries[s.input.who]? with
    | none => .next s
    | some e =>
      let n := kget 0 s.input.who t.finished
      if !tValid e || decide (kget 0 s.input.who t.started ≤ n) || decide (s.ns < tFinish e + n * tPeriod e) then .next s
      else
        let o := kget {} (tOut e) s.outputs
        let who : Who := { tenant := o.tenant }
        let va := bitsAt o.desc 0 56
        let h := ringHdr s who va
        let q := boundSeq t o (tOut e) s.input.who n
        let s := if o.bound then hdrTouch s o.tenant va else s
        if !o.bound || decide (seqDiff q (hPub h) < 0) then .next (countFinish s s.input.who)
        else
          let s1 := countLate s who va (tOut e) q
          .next (countFinish ((ringOutputs s1 who va).foldl (fun s o => skipStrip s o q (bitsAt e 128 32)) s1) s.input.who)

/-! ### Outputs (R342 to R344, Table 21.8) -/

def oRing (d : BitVec 512) : Nat := bitsAt d 0 56
def oPfmt (d : BitVec 512) : Nat := bitsAt d 62 2
def oWidth (d : BitVec 512) : Nat := bitsAt d 64 16
def oHeight (d : BitVec 512) : Nat := bitsAt d 80 16
def oKeyint (d : BitVec 512) : Nat := bitsAt d 96 8
def oQidx (d : BitVec 512) : Nat := bitsAt d 104 8
def oVblank (d : BitVec 512) : Nat := bitsAt d 112 16
def oT0 (d : BitVec 512) : Nat := bitsAt d 128 64
def oLinePs (d : BitVec 512) : Nat := bitsAt d 224 32
def oRefs (d : BitVec 512) : Nat := bitsAt d 256 64
def oStream (d : BitVec 512) : Nat := bitsAt d 320 64

/-- Whether a descriptor for an output breaks Table 21.8. -/
def outputBad (out : Nat) (d : BitVec 512) : Bool :=
  decide (bitsAt d 384 128 ≠ 0) || decide (bitsAt d 192 32 ≠ 0) || decide (bitsAt d 56 6 ≠ 0) || decide (2 ≤ oPfmt d) || decide (7680 < oWidth d) ||
    decide (oWidth d = 0) || decide (oHeight d = 0) || decide (oRing d % 64 ≠ 0) || !inShared (oRing d) ||
    (decide (4 ≤ out) && (decide (oKeyint d = 0) || decide (64 ≤ oStream d) || !inShared (oRefs d) ||
      !inShared (oRefs d + 2 * oWidth d * oHeight d * 3 - 1)))

/-- A pixel with its alpha left out (R343). -/
def pixelOf (pfmt x : Nat) : Nat := if pfmt = 0 then x % 2 ^ 24 else x % 2 ^ 30
/-- The bytes of pixels of 4 bytes. -/
def pixelBytes (pfmt : Nat) (xs : List Nat) : List Byte := xs.flatMap (fun x => leBytes 4 (pixelOf pfmt x))
/-- The pixels of line y of a slot. -/
def slotLine (s : State) (who : Who) (h : BitVec 512) (i y width : Nat) : List Nat :=
  let b := hwRd s who (hData h + i * hLines h * hPitch h + y * hPitch h) (4 * width)
  (List.range width).map (fun x => leNat ((b.drop (4 * x)).take 4))

/-- A hardware consumer begins a slot: READY becomes CONSUMING (Table 21.7). -/
def beginSlot (s : State) (who : Who) (va i : Nat) : State :=
  let e := slotRd s who va i
  let s := touchRange s who.tenant (slotVa va i) 16 false
  if eSt e = 2 then slotWr s who va i (setSt e 3) else s

/-- What an output finds of its next strip: late with its colour, published in a slot, or neither yet. -/
inductive StripSeen where
  | late (fill : Nat) | slot (i : Nat) | no
  deriving DecidableEq, Repr

def stripSeen (s : State) (out : Nat) (o : Output) (who : Who) (h : BitVec 512) : StripSeen :=
  match o.late.find? (fun p => p.1 = o.seq.toNat) with
  | some p => .late p.2
  | none => if seqDiff o.seq.toNat (hPub h) < 0 ∧ hCons h / 2 ^ out % 2 = 1 then .slot (ringSlot h o.seq.toNat) else .no

def setOutput (s : State) (out : Nat) (o : Output) : State := { s with outputs := kset out o s.outputs }
def Outward.put (s : State) (x : Outward) : State := { s with outward := s.outward ++ [x] }

/-- DISPLAY_SCAN_LINE of the input's output (R343, R345): the line whose scan time has come is read from its strip's slot; a late strip
shows its colour. A strip that is neither late nor published shows free pixels, and is late once its last line has gone (log 37). -/
def execDisplayScanLine (s : State) : Host.Outcome State Fault Refusal :=
  let out := s.input.who
  let o := kget {} out s.outputs
  let d := o.desc
  if !o.bound || decide (4 ≤ out) || decide (s.time * 1000 < (oT0 d * 1000 + o.line * oLinePs d) * 2 ^ 32) then .next s
  else
    let y := o.line % (oHeight d + oVblank d)
    let o1 := { o with line := o.line + 1, started := true }
    if oHeight d ≤ y then .next (setOutput s out o1)
    else
      let who : Who := { tenant := o.tenant }
      let va := oRing d
      let h := ringHdr s who va
      let s := hdrTouch s o.tenant va
      let lines := max (hLines h) 1
      let last := y % lines = lines - 1 ∨ y = oHeight d - 1
      let o2 := if last then { o1 with seq := o.seq + 1 } else o1
      match stripSeen s out o who h with
      | .late fill =>
        let o3 := if last then { o2 with late := o2.late.filter (fun p => decide (p.1 ≠ o.seq.toNat) || decide (0 ≤ seqDiff p.1 (hPub h))) } else o2
        .next (Outward.put (setOutput s out o3) (.displayLine out y true (pixelBytes (oPfmt d) (List.replicate (oWidth d) fill))))
      | .slot i =>
        let s1 := beginSlot s who va i
        let px := slotLine s1 who h i (y % lines) (oWidth d)
        let s2 := touchRange s1 o.tenant (hData h + i * hLines h * hPitch h + y % lines * hPitch h) (4 * oWidth d) false
        let s3 := if last then ringFinish s2 who va i out else s2
        .next (Outward.put (setOutput s3 out o2) (.displayLine out y false (pixelBytes (oPfmt d) px)))
      | .no =>
        let r := s.free (out + 16 * y)
        let s1 := setOutput r.2 out o2
        let s2 := if last then skipStrip s1 out o.seq.toNat 0 else s1
        .next (Outward.put s2 (.displayLine out y false (pixelBytes (oPfmt d) ((List.range (oWidth d)).map (fun x => Config.free r.1 x % 2 ^ 32)))))

/-! #### Encoders (R344) -/

/-- Components of a pixel, n bits each. -/
def comp (pfmt x k : Nat) : Int := if pfmt = 0 then (x / 2 ^ (8 * k) % 2 ^ 8 : Nat) else (x / 2 ^ (10 * k) % 2 ^ 10 : Nat)
def depthBits (pfmt : Nat) : Nat := if pfmt = 0 then 8 else 10
/-- Luma and the two chroma values of R, G, B (R344). -/
def lumaOf (n : Nat) (r g b : Int) : Int := (47 * r + 157 * g + 16 * b + 128).fdiv 256 + 16 * 2 ^ (n - 8)
def cbOf (n : Nat) (r g b : Int) : Int := (-26 * r - 86 * g + 112 * b + 128).fdiv 256 + 128 * 2 ^ (n - 8)
def crOf (n : Nat) (r g b : Int) : Int := (112 * r - 102 * g - 10 * b + 128).fdiv 256 + 128 * 2 ^ (n - 8)
/-- A 4:2:0 row of samples from lines of pixels: luma, then Cb, then Cr; chroma from the rounded 2 x 2 mean (an edge pixel stands for one
outside the frame, log 25). -/
def samplesOf (pfmt width : Nat) (rows : List (List Nat)) : List Nat :=
  let n := depthBits pfmt
  let hgt := rows.length
  let px (y x : Nat) : Nat := (rows.getD (min y (hgt - 1)) []).getD (min x (width - 1)) 0
  let c (y x k : Nat) : Int := comp pfmt (px y x) k
  let mean (y x k : Nat) : Int := (c (2 * y) (2 * x) k + c (2 * y) (2 * x + 1) k + c (2 * y + 1) (2 * x) k + c (2 * y + 1) (2 * x + 1) k + 2).fdiv 4
  let at_ (h w : Nat) (f : Nat → Nat → Int) : List Nat := (List.range h).flatMap (fun y => (List.range w).map (fun x => (f y x).toNat))
  at_ hgt width (fun y x => lumaOf n (c y x 0) (c y x 1) (c y x 2)) ++
  at_ ((hgt + 1) / 2) ((width + 1) / 2) (fun y x => cbOf n (mean y x 0) (mean y x 1) (mean y x 2)) ++
  at_ ((hgt + 1) / 2) ((width + 1) / 2) (fun y x => crOf n (mean y x 0) (mean y x 1) (mean y x 2))

/-- Write bytes to a stream in entries of 64 bytes. -/
def streamBytes (func n : Nat) : Nat → List Byte → State → State
  | 0, _, s => s
  | k + 1, bs, s => if bs.isEmpty then s else streamBytes func n k (bs.drop 64) (streamEntry s func n (BitVec.ofNat 512 (leNat (bs.take 64))) false)

/-- Code one tile row: a frame header before a frame's first row, the row's OBUs to STREAM, the reconstructed samples to REFS. -/
def codeRow (s : State) (out : Nat) (o : Output) (lines : Nat) (fill : Bool) (rows : List (List Nat)) : State :=
  let d := o.desc
  let who : Who := { tenant := o.tenant }
  let perFrame := cdiv (oHeight d) lines
  let frame := o.rows / perFrame
  let row := o.rows % perFrame
  let key := decide (frame % oKeyint d = 0)
  let size := oWidth d * oHeight d * 3
  let prev := hwRd s who (oRefs d + (frame + 1) % 2 * size) (if key then 0 else size)
  let xs := samplesOf (oPfmt d) (oWidth d) rows
  let shape := [oWidth d, rows.length, lines, row, oHeight d, depthBits (oPfmt d), oQidx d]
  let obu := (if row = 0 then Config.av1Header d lines frame key else []) ++ Config.av1Row xs shape key prev
  let ref := (Config.av1Recon xs shape key prev).take (oWidth d * rows.length * 3)
  let s := touchRange s o.tenant (oRefs d + (frame + 1) % 2 * size) (if key then 0 else size) false
  let s := wrVa s who (oRefs d + frame % 2 * size + row * lines * oWidth d * 3) ref
  let s := streamBytes o.func (oStream d) (obu.length + 1) obu s
  Outward.put s (.encoderRow out o.seq.toNat fill obu)

/-- Whether an encoder's stream is read by its host: no entry waits for room (R344, R345). -/
def streamOpen (s : State) (func n : Nat) : Bool :=
  match kfind (streamKey func n) s.streams with
  | some st => st.held.isEmpty && !st.full
  | none => true

/-- The encoder's strip is coded: the row of its lines, or of its colour, goes out (R344, R345). -/
def encodeStrip (s : State) (out : Nat) (o : Output) (who : Who) (h : BitVec 512) (seen : StripSeen) : State :=
  let d := o.desc
  let lines := hLines h
  let row := o.rows % cdiv (oHeight d) lines
  let n := min lines (oHeight d - row * lines)
  let o1 := { o with seq := o.seq + 1, rows := o.rows + 1, coding := false }
  match seen with
  | .late fill =>
    let o2 := { o1 with late := o1.late.filter (fun p => decide (p.1 ≠ o.seq.toNat) || decide (0 ≤ seqDiff p.1 (hPub h))) }
    codeRow (setOutput s out o2) out o lines true (List.replicate n (List.replicate (oWidth d) fill))
  | .slot i =>
    let rows := (List.range n).map (fun y => slotLine s who h i y (oWidth d))
    let s1 := touchRange s o.tenant (hData h + i * lines * hPitch h) (n * hPitch h) false
    ringFinish (codeRow (setOutput s1 out o1) out o lines false rows) who (oRing d) i out
  | .no => s

/-- ENCODER_STRIP of the input's output (R344, R345): it begins its next strip, published or late, and at a later step, with its stream read by
its host, it codes it as one tile row; between the two a slot stays in CONSUMING. -/
def execEncoderStrip (s : State) : Host.Outcome State Fault Refusal :=
  let out := s.input.who
  let o := kget {} out s.outputs
  let who : Who := { tenant := o.tenant }
  let h := ringHdr s who (oRing o.desc)
  if !o.bound || decide (out < 4) || decide (12 ≤ out) || !(decide (hLines h = 64) || decide (hLines h = 128)) then .next s
  else
    let seen := stripSeen s out o who h
    let s := hdrTouch s o.tenant (oRing o.desc)
    if !o.coding then
      let o1 := { o with coding := true, started := true }
      match seen with
      | .slot i => .next (setOutput (beginSlot s who (oRing o.desc) i) out o1)
      | .late _ => .next (setOutput s out o1)
      | .no => .next s
    else if streamOpen s o.func (oStream o.desc) then .next (encodeStrip s out o who h seen)
    else .next s

end Sys2Proof.Machine
end

