-- ==== Sys2Proof/Machine/Packets.lean ====
section
/-! DEFINITION. Rings and the command processor: which ring is served (R300 to R302), packets and graph nodes (R361 to R371), the validator
(R369). -/

set_option linter.unusedVariables false

namespace Sys2Proof.Machine

/-! ### Packets and nodes -/

def pOp (p : BitVec 512) : Nat := bitsAt p 0 8
def pCmpl (p : BitVec 512) : Bool := p.getLsbD 8
def pIrq (p : BitVec 512) : Bool := p.getLsbD 9
def pBar (p : BitVec 512) : Bool := p.getLsbD 10
def pNext (p : BitVec 512) : Nat := bitsAt p 16 16
def pTag (p : BitVec 512) : BitVec 32 := BitVec.ofNat 32 (bitsAt p 32 32)
/-- Q word k. -/
def pQ (p : BitVec 512) (k : Nat) : Nat := bitsAt p (64 * k) 64

/-- Bits of a Q word that an opcode uses (Table 23.5). -/
def qUsed (p : BitVec 512) (op k : Nat) : Nat :=
  let all := 2 ^ 64 - 1
  match op, k with
  | 1, 1 => all
  | 2, 1 | 2, 2 | 2, 3 => all
  | 3, 1 => all
  | 3, 2 => 7
  | 3, k => if 3 ≤ k ∧ k < 3 + pQ p 2 % 8 then all else 0
  | 4, 1 | 4, 2 => all
  | 4, 3 => 3
  | 5, 1 | 5, 2 | 5, 3 | 5, 4 => all
  | 5, 5 => 3
  | 6, 1 | 6, 2 | 6, 3 => all
  | 6, 4 => 3
  | 7, 1 => all
  | 8, 1 => all
  | 8, 2 => 0xFFFF
  | 10, 1 | 10, 2 | 10, 3 => all
  | 10, 4 => 0xFFFF0003
  | _, _ => 0
def qUnused (p : BitVec 512) : Bool := (List.range 7).any (fun j => decide (pQ p (j + 1) &&& (2 ^ 64 - 1 - qUsed p (pOp p) (j + 1)) ≠ 0))

/-- Whether an address of a packet is misaligned (R365, R367). -/
def pMisaligned (p : BitVec 512) : Bool :=
  match pOp p with
  | 1 => decide (pQ p 1 % 64 ≠ 0)
  | 3 | 4 | 6 | 10 => decide (pQ p 1 % 8 ≠ 0)
  | 5 => decide (pQ p 1 % 8 ≠ 0) || decide (pQ p 3 % 8 ≠ 0)
  | 7 => decide (pQ p 1 % 16 ≠ 0)
  | 8 => decide (pQ p 1 % 64 ≠ 0)
  | _ => false
/-- Whether a count or SOP is out of range; CMP has no value out of range. -/
def pCountBad (p : BitVec 512) : Bool :=
  match pOp p with
  | 2 => decide (pQ p 3 = 0) || decide (2 ^ 40 < pQ p 3)
  | 3 => decide (pQ p 2 % 8 = 0) || decide (5 < pQ p 2 % 8)
  | 4 => decide (pQ p 3 % 4 = 3)
  | 5 => decide (pQ p 5 % 4 = 3)
  | _ => false

/-- The REASON of a malformed packet or node, the lowest that applies (R367). -/
def pktBad (node : Bool) (p : BitVec 512) : Option Nat :=
  if 0x0A < pOp p ∨ (!node ∧ pOp p = 0x0A) then some 1
  else if node && pOp p == 8 then some 5
  else if bitsAt p 11 5 ≠ 0 ∨ (!node ∧ pNext p ≠ 0) ∨ qUnused p then some 2
  else if pMisaligned p then some 3
  else if pCountBad p then some 4
  else if pOp p = 8 ∧ pQ p 2 % 2 ^ 16 = 0xFFFF then some 5
  else none

/-! ### Errors (R367 to R369) -/

/-- A record raised by a ring, from the packet or node concerned (R368, R373). -/
def ringRecord (g : Nat) (q : Ring) (pc : Nat) (p : BitVec 512) (cause : Cause) (reason : Nat) (info0 info1 : Word) : Record :=
  { cause := cause, reason := reason, tenant := q.tenant, pc := w64 pc, gid := g, info0 := info0, info1 := info1, irq := pIrq p }
/-- The ring enters ERROR with a record; HEAD and STEP are kept (Table 23.3). -/
def ringError (s : State) (g : Nat) (r : Record) : State := (errorRecord s g r).modRing g (fun q => { q with state := .error })
def ringFail (s : State) (g pc : Nat) (p : BitVec 512) (e : Fail) : State := ringError s g (ringRecord g (s.ring g) pc p e.cause 0 e.info0 e.info1)

/-! ### What a ring executes next -/

/-- The packet at HEAD, or the node of the graph it is in. -/
structure Item where
  pc : Nat
  pkt : BitVec 512
  head : BitVec 512
  headAt : Nat
  node : Option Nat
  deriving DecidableEq, Repr

/-- Why a ring has no item to execute: a read that fails, a malformed packet or node, or one that the validator denies, with its address and
the packet its record comes from. -/
inductive PktStop where
  | fail (pc : Nat) (pkt : BitVec 512) (e : Fail) | bad (pc : Nat) (pkt : BitVec 512) (reason : Nat) | denied (pc : Nat) (pkt : BitVec 512) (reason : Nat)
  deriving DecidableEq, Repr

/-- The address of the packet at HEAD (R361). -/
def headAddr (q : Ring) : Nat := q.base.toNat + 64 * (q.head.toNat % 2 ^ q.log2n)

/-- Read 64 bytes for a ring; each aligned 8 bytes whole (R362, R370). -/
def ringRead (s : State) (q : Ring) (va : Nat) : Except Fail (BitVec 512) :=
  match checkOne s { tenant := q.tenant } va 64 64 { rd := true } .plain with
  | .ok l => .ok (BitVec.ofNat 512 (rdN s l 64))
  | .error e => .error e

/-- Whether every byte from a up to an end lies in some range. -/
def coveredBy (rs : List (Nat × Nat)) : Nat → Nat → Nat → Bool
  | 0, a, e => decide (e ≤ a)
  | n + 1, a, e =>
    if e ≤ a then true
    else match rs.find? (fun r => decide (r.1 ≤ a) && decide (a < r.2)) with
      | some r => coveredBy rs n r.2 e
      | none => false

/-- The bytes a packet or node names beside the node itself: operand ranges, a launch record and its image's header block. -/
def namedBytes (s : State) (q : Ring) (p : BitVec 512) : List (Nat × Nat) :=
  match pOp p with
  | 1 => (pQ p 1, 64) :: (match ringRead s q (pQ p 1) with
    | .ok r => [(bitsAt r 0 56, 256)]
    | .error _ => [])
  | 2 => [(pQ p 1, pQ p 3), (pQ p 2, pQ p 3)]
  | 3 => [(pQ p 1, 8 * (pQ p 2 % 8))]
  | 4 => [(pQ p 1, 8)]
  | 5 => [(pQ p 1, 8), (pQ p 3, 8)]
  | 6 => [(pQ p 1, 8)]
  | 7 => [(pQ p 1, 16)]
  | 10 => [(pQ p 1, 8)]
  | _ => []

/-- The permitted opcodes and the ranges of a ring's validator block (Table 23.6), or the failed access to it. -/
def validBlock (s : State) (q : Ring) : Except Fail (Nat × List (Nat × Nat)) :=
  let who : Who := { tenant := q.tenant }
  match checkRange s who q.val.toNat 144 { rd := true } with
  | some e => .error e
  | none =>
    let b := rdVa s who q.val.toNat 144
    let w (o : Nat) : Nat := leNat ((b.drop o).take 8)
    .ok (w 0, (List.range (min (w 8) 8)).map (fun r => (w (0x10 + 16 * r), w (0x18 + 16 * r))))
/-- The validator's check of a packet or node of a ring against its block (R369): the opcode, where it is known, then the bytes it names. -/
def validate (s : State) (q : Ring) (op : Option Nat) (named : List (Nat × Nat)) : Except Fail (Option Nat) :=
  if q.val = 0 then .ok none
  else match validBlock s q with
    | .error e => .error e
    | .ok b =>
      if (op.map (fun n => b.1 / 2 ^ n % 2)).getD 1 = 0 then .ok (some 1)
      else if named.all (fun n => coveredBy b.2 16 n.1 (n.1 + n.2)) then .ok none
      else .ok (some 2)
/-- The validator's check, as it stops the ring. -/
def validStop (s : State) (q : Ring) (op : Option Nat) (named : List (Nat × Nat)) (pc : Nat) (p : BitVec 512) : Option PktStop :=
  match validate s q op named with
  | .error e => some (.fail pc p e)
  | .ok (some r) => some (.denied pc p r)
  | .ok none => none

/-- The node of a GRAPH packet that runs next: its place among the validator's ranges, then its read, its form and the validator's check
(R367, R369, R370); once these have passed, the node as it was read then. -/
def nodeOf (s : State) (q : Ring) (p : BitVec 512) : Except PktStop Item :=
  let n := q.node.getD (pQ p 2 % 2 ^ 16)
  let at_ := pQ p 1 + 64 * n
  let item (x : BitVec 512) : Item := { pc := at_, pkt := x, head := p, headAt := headAddr q, node := some n }
  match q.nodeChecked with
  | some x => .ok (item x)
  | none =>
    match validStop s q none [(at_, 64)] at_ p with
    | some x => .error x
    | none =>
      match ringRead s q at_ with
      | .error e => .error (.fail at_ p e)
      | .ok x =>
        match pktBad true x with
        | some r => .error (.bad at_ x r)
        | none =>
          match validStop s q (some (pOp x)) (namedBytes s q x) at_ x with
          | some y => .error y
          | none => .ok (item x)
/-- The item of a ring: the packet at HEAD is read, its form and the validator's check come, then its node where it is a GRAPH (R361, R367,
R369, R370). Every later step runs the packet that passed; after an error it is read and checked again (R363; log 95). -/
def itemOf (s : State) (q : Ring) : Except PktStop Item :=
  let at_ := headAddr q
  let passed (p : BitVec 512) : Except PktStop Item :=
    if pOp p = 8 then nodeOf s q p else .ok { pc := at_, pkt := p, head := p, headAt := at_, node := none }
  match q.checked with
  | some p => passed p
  | none =>
    match ringRead s q at_ with
    | .error e => .error (.fail at_ 0 e)
    | .ok p =>
      match pktBad false p with
      | some r => .error (.bad at_ p r)
      | none =>
        match validStop s q (some (pOp p)) (namedBytes s q p) at_ p with
        | some x => .error x
        | none => passed p

/-- The walker's marks for what was read: the packet, its node, and the validator block where something is checked (R64). -/
def itemRead (s : State) (g : Nat) : State :=
  let q := s.ring g
  match itemOf s q with
  | .error (.fail pc _ _) => if pc = headAddr q then s else touch s q.tenant (headAddr q) false
  | .error (.bad pc _ _) => touch (touch s q.tenant (headAddr q) false) q.tenant pc false
  | .error (.denied _ _ _) => touchRange (touch s q.tenant (headAddr q) false) q.tenant q.val.toNat 144 false
  | .ok i =>
    let fresh := q.checked.isNone || (i.node.isSome && q.nodeChecked.isNone)
    let s := if q.checked.isNone then touch s q.tenant i.headAt false else s
    let s := if fresh then touch s q.tenant i.pc false else s
    if q.val ≠ 0 ∧ fresh = true then touchRange s q.tenant q.val.toNat 144 false else s

/-- Implied BAR (Table 23.5). -/
def impliedBar (op : Nat) : Bool := op == 4 || op == 5 || op == 9

/-- Whether a task published by an earlier packet or node of a ring has not settled (R366). -/
def tasksOpen (s : State) (g : Nat) : Bool :=
  s.tasks.any (fun p => p.2.ring == g && p.2.src.counts && (p.2.state == .armed || p.2.state == .ready))

/-- The comparison of WAIT and COND (Table 23.5). -/
def cmpHolds (cmp x v : Nat) : Bool :=
  match cmp % 4 with
  | 0 => decide (x = v)
  | 1 => decide (x ≠ v)
  | 2 => decide ((x + 2 ^ 64 - v) % 2 ^ 64 < 2 ^ 63)
  | _ => decide (2 ^ 63 ≤ (x + 2 ^ 64 - v) % 2 ^ 64)

/-- A load of 8 bytes for a ring. -/
def ringLoad (s : State) (q : Ring) (va : Nat) : Except Fail Nat :=
  match checkOne s { tenant := q.tenant } va 8 8 { rd := true } .plain with
  | .ok l => .ok (rdN s l 8)
  | .error e => .error e

/-- Whether the WAIT condition of an item holds now; a load that fails is no reason to hold. -/
def waitHolds (s : State) (q : Ring) (p : BitVec 512) : Bool :=
  match ringLoad s q (pQ p 1) with
  | .ok x => cmpHolds (pQ p 4) (x &&& pQ p 3) (pQ p 2)
  | .error _ => true

/-! ### Effects (Table 23.5) -/

/-- What a step of an item answers: the item is done; more steps follow; it waits; a cause of R60; or publication waits. A done node may
name the node that follows. -/
inductive PktRes where
  | done (s : State) (next : Option Nat := none)
  | more (s : State)
  | hold (s : State)
  | err (e : Fail) (s : State)
  | wait
  deriving Repr

/-- A plain 8-byte store. -/
def ringStore (s : State) (q : Ring) (va x : Nat) : Except Fail State :=
  match checkOne s { tenant := q.tenant } va 8 8 { wr := true } .plain with
  | .ok l => .ok (wrN (touch s q.tenant va true) l 8 x)
  | .error e => .error e

/-- Stores in order: the state reached, and the access that failed. -/
def ringStores (q : Ring) : List (Nat × Nat) → State → State × Option Fail
  | [], s => (s, none)
  | (va, x) :: r, s =>
    match ringStore s q va x with
    | .ok s => ringStores q r s
    | .error e => (s, some e)
def storesRes (r : State × Option Fail) : PktRes :=
  match r.2 with
  | none => .done r.1
  | some e => .err e r.1

/-- Copy some bytes: what the source held before (R365). Of the checks that fail, the earliest of R60 stops the copy, the source's before the
destination's. -/
def ringCopy (s : State) (q : Ring) (src dst n : Nat) : Except Fail State :=
  let who : Who := { tenant := q.tenant }
  match checkRange s who src n { rd := true }, checkRange s who dst n { wr := true } with
  | some e, some f => .error (if f.stage < e.stage then f else e)
  | some e, none => .error e
  | none, some e => .error e
  | none, none => .ok (wrVa (touchRange s q.tenant src n false) who dst (rdVa s who src n))

/-- One atomic operation at the performer: 0 store, 1 add, 2 unsigned max (R80, R365); the host performs no max. -/
def ringSignal (s : State) (q : Ring) (va x sop : Nat) : PktRes :=
  match checkOne s { tenant := q.tenant } va 8 8 { rd := decide (sop ≠ 0), wr := true } (.hostAtomic (decide (sop ≠ 2)) 0) with
  | .error e => .err e s
  | .ok l =>
    let old := rdN s l 8
    let new := if sop = 0 then x else if sop = 1 then (old + x) % 2 ^ 64 else max old x
    .done (wrN (touch s q.tenant va true) l 8 new)

/-- The effect of an item on a ring. -/
def itemBody (s : State) (g : Nat) (q : Ring) (i : Item) : PktRes :=
  let p := i.pkt
  let who : Who := { tenant := q.tenant }
  match pOp p with
  | 1 =>
    match ringRead s q (pQ p 1) with
    | .error e => .err e s
    | .ok r =>
      match publish (touch s q.tenant (pQ p 1) false) r (w64 (pQ p 1)) q.tenant g 1 none
          { pkt := w64 i.pc, index := q.head.toNat, tag := pTag p, irq := pIrq p, counts := true } none
          (ringRecord g q i.pc i.pkt .recordInvalid 0 0 0) with
      | .wait => .wait
      | .refused s => .done s
      | .ok s _ => .done s
  | 2 =>
    if i.node.isSome then
      (match ringCopy s q (pQ p 1) (pQ p 2) (pQ p 3) with
       | .ok s => .done s
       | .error e => .err e s)
    else
      (let o := 65536 * q.step.toNat
       let n := min 65536 (pQ p 3 - o)
       match ringCopy s q (pQ p 1 + o) (pQ p 2 + o) n with
       | .error e => .err e s
       | .ok s => if pQ p 3 ≤ o + n then .done s else .more s)
  | 3 => storesRes (ringStores q ((List.range (pQ p 2 % 8)).map (fun k => (pQ p 1 + 8 * k, pQ p (3 + k)))) s)
  | 4 => ringSignal s q (pQ p 1) (pQ p 2) (pQ p 3 % 4)
  | 5 =>
    match ringStore s q (pQ p 1) (pQ p 2) with
    | .error e => .err e s
    | .ok s => ringSignal s q (pQ p 3) (pQ p 4) (pQ p 5 % 4)
  | 6 =>
    match ringLoad s q (pQ p 1) with
    | .error e => .err e s
    | .ok x =>
      let s := touch s q.tenant (pQ p 1) false
      if cmpHolds (pQ p 4) (x &&& pQ p 3) (pQ p 2) then .done s else .hold s
  | 7 =>
    match checkOne s who (pQ p 1) 16 16 { wr := true } .plain with
    | .error e => .err e s
    | .ok l => .done (wrN (wrN (touch s q.tenant (pQ p 1) true) l 8 s.ns) (l.plus 8) 8 s.frac)
  | 10 =>
    match ringLoad s q (pQ p 1) with
    | .error e => .err e s
    | .ok x =>
      .done (touch s q.tenant (pQ p 1) false) (some (if cmpHolds (pQ p 4) (x &&& pQ p 2) (pQ p 3) then pNext p else bitsAt p (256 + 16) 16))
  | _ => .done s

/-! ### A step of the command processor -/

/-- The completion record of a packet or node with CMPL (Table 23.8); LAUNCH ignores CMPL. -/
def itemRecord (s : State) (g : Nat) (q : Ring) (pc : Nat) (p : BitVec 512) : State :=
  if pCmpl p && pOp p != 1 then
    streamEntry s q.func q.cstream (complBits s.ns 0 (w64 pc) q.head.toNat (pTag p) g (pOp p) 0) (pIrq p)
  else s

/-- HEAD passes the packet (R361). -/
def passHead (s : State) (g : Nat) : State :=
  s.modRing g (fun q => { q with head := q.head + 1, step := 0, node := none, held := false, checked := none, nodeChecked := none })

/-- The command processor serves a ring's unit; `stay` keeps the merge turn at the ring. -/
def serveAt (s : State) (g : Nat) (stay : Bool) : State :=
  { s with cp := { unit := g / 64, pos := kset (g / 64) (if stay then g % 64 else (g % 64 + 1) % 64) s.cp.pos,
                   used := if s.cp.unit = g / 64 then s.cp.used else 0 } }

/-- A step of a ring's item that has passed its checks (R301, R302, R366 to R371). One whose publication has to wait is read and checked again
(R303, R369). -/
def runItem (s0 : State) (g : Nat) (i : Item) : State :=
  let q := s0.ring g
  let s := s0.modRing g (fun x => { x with checked := some i.head, nodeChecked := i.node.map (fun _ => i.pkt) })
  match itemBody s g q i with
  | .wait => s0
  | .err e s => serveAt (ringFail s g i.pc i.pkt e) g false
  | .hold s => serveAt (s.modRing g (fun x => { x with held := true, step := if i.node.isSome then x.step else x.step + 1, node := i.node })) g false
  | .more s => serveAt (s.modRing g (fun x => { x with step := x.step + 1, held := false })) g true
  | .done s nx =>
    let s := itemRecord s g q i.pc i.pkt
    match i.node with
    | none => serveAt (passHead s g) g false
    | some _ =>
      let n := nx.getD (pNext i.pkt)
      if n = 0xFFFF then serveAt (passHead (itemRecord s g q i.headAt i.head) g) g false
      else serveAt (s.modRing g (fun x => { x with step := x.step + 1, node := some n, held := false, nodeChecked := none })) g true

/-- A ring stops at its next item: the record of what stops it (R367 to R369). -/
def stopItem (s : State) (g : Nat) (x : PktStop) : State :=
  let q := s.ring g
  match x with
  | .fail pc p e => serveAt (ringFail s g pc p e) g false
  | .bad pc p r => serveAt (ringError s g (ringRecord g q pc p .packetInvalid r (w64 g) (w64 q.head.toNat))) g false
  | .denied pc p r => serveAt (ringError s g (ringRecord g q pc p .validatorDenied r (w64 g) (w64 q.head.toNat))) g false

/-- A step of a ring, whatever it comes to. -/
def ringStep (s : State) (g : Nat) : State :=
  match itemOf s (s.ring g) with
  | .error x => stopItem (itemRead s g) g x
  | .ok i => runItem (itemRead s g) g i

/-- Entries held for full streams. -/
def heldEntries (s : State) : Nat := (s.streams.map (fun p => p.2.held.length)).sum

/-- Whether a ring has a step that can run now (R300, R366); a step that would write to a full stream waits (R374). -/
def servable (s : State) (g : Nat) (q : Ring) : Bool :=
  q.state == .active && q.head != q.tail && (match itemOf s q with
    | .error _ => true
    | .ok i =>
      let first := q.step = 0
      let bar := (pBar i.pkt || impliedBar (pOp i.pkt)) && (i.node.isSome || first) || (pBar i.head && first)
      !(bar && tasksOpen s g) && !(pOp i.pkt == 6 && q.held && !waitHolds s q i.pkt)) &&
    decide (heldEntries (ringStep s g) ≤ heldEntries s)

/-- The ring whose packet the command processor executes next (R300, R301): the unit it serves, else the next with work; in a unit, ring
indices in turn. None while the slice has run out. -/
def cpNext (s : State) : Option Nat :=
  if s.devCfg.slice ≤ s.cp.used then none
  else
    let key (g : Nat) : Nat := (g / 64 + 256 - s.cp.unit) % 256 * 64 + (g % 64 + 64 - kget 0 (g / 64) s.cp.pos) % 64
    ((s.rings.filter (fun p => servable s p.1 p.2)).map (·.1)).foldl (fun (a : Option Nat) g => match a with
      | some b => if key g < key b then some g else a
      | none => some g) none

/-- A turn ends early when the queue it serves has nothing to execute: it is empty, or held at a WAIT (R301). -/
def endTurn (s : State) : State :=
  if s.rings.any (fun p => decide (p.1 / 64 = s.cp.unit) && servable s p.1 p.2) then s
  else { s with cp := { s.cp with unit := (s.cp.unit + 1) % 256, used := 0 } }

/-- SLICE_EXPIRY (R301, R302): the slice has run out; the next logical queue with work is served. -/
def execSliceExpiry (s : State) : Host.Outcome State Fault Refusal :=
  if s.cp.used < s.devCfg.slice then .next s
  else
    let gs := (s.rings.filter (fun p => servable s p.1 p.2)).map (fun p => p.1 / 64)
    let key (u : Nat) : Nat := (u + 255 - s.cp.unit) % 256
    let u := (gs.foldl (fun (a : Option Nat) u => match a with
      | some b => if key u < key b then some u else a
      | none => some u) none).getD s.cp.unit
    .next { s with cp := { s.cp with unit := u, used := 0 } }

/-- The event that carries a ring's next step: the packet's opcode, GRAPH for a node, COND for a COND node, NOP where nothing is executed. -/
def stepOp (s : State) (g : Nat) : Nat :=
  match itemOf s (s.ring g) with
  | .error _ => 0
  | .ok i => if i.node.isSome then (if pOp i.pkt = 10 then 10 else 8) else pOp i.pkt

/-- A step of the ring that is next, when its event is the given one; the turn may end with it. -/
def cpStep (op : Nat) (s : State) : Host.Outcome State Fault Refusal :=
  match cpNext s with
  | none => .next s
  | some g => if stepOp s g ≠ op then .next s else .next (endTurn (ringStep s g))

/-- PACKET_NOP (R365), and packets that are invalid, denied or cannot be read (R367 to R369). -/
def execPacketNop (s : State) : Host.Outcome State Fault Refusal := cpStep 0 s
/-- PACKET_LAUNCH (R19, R365): publishes a launch record. -/
def execPacketLaunch (s : State) : Host.Outcome State Fault Refusal := cpStep 1 s
/-- PACKET_COPY (R302, R365): one step of 64 KiB. -/
def execPacketCopy (s : State) : Host.Outcome State Fault Refusal := cpStep 2 s
/-- PACKET_WRITE (R365). -/
def execPacketWrite (s : State) : Host.Outcome State Fault Refusal := cpStep 3 s
/-- PACKET_SIGNAL (R365, R366). -/
def execPacketSignal (s : State) : Host.Outcome State Fault Refusal := cpStep 4 s
/-- PACKET_WRITE_SIGNAL (R365, R366). -/
def execPacketWriteSignal (s : State) : Host.Outcome State Fault Refusal := cpStep 5 s
/-- PACKET_WAIT (R302, R365): one evaluation. -/
def execPacketWait (s : State) : Host.Outcome State Fault Refusal := cpStep 6 s
/-- PACKET_TIMESTAMP (R365). -/
def execPacketTimestamp (s : State) : Host.Outcome State Fault Refusal := cpStep 7 s
/-- PACKET_GRAPH (R370): one node. -/
def execPacketGraph (s : State) : Host.Outcome State Fault Refusal := cpStep 8 s
/-- PACKET_FENCE (R365, R366). -/
def execPacketFence (s : State) : Host.Outcome State Fault Refusal := cpStep 9 s
/-- COND (R371): the node that chooses the next. -/
def execCond (s : State) : Host.Outcome State Fault Refusal := cpStep 10 s

end Sys2Proof.Machine
end

