-- ==== Sys2Proof/Machine/Replies.lean ====
section
/-! DEFINITION. What the host writes: ring tails (R362), stream and reply indices (R372, R374), replies to parks (R291, R292), masks and
coalescing (R373); registers without a row of their own (R299, R359). -/

set_option linter.unusedVariables false

namespace Sys2Proof.Machine

/-- BAR0 answers only in READY and D0 (R384, R391). -/
def hostOpen (s : State) : Bool := s.boot.state == .ready && s.power == .d0

/-- RING_TAIL_WRITE of the input's function, ring and tail (R362). -/
def execRingTailWrite (s : State) : Host.Outcome State Fault Refusal :=
  let g := s.input.who
  let q := s.ring g
  let t : BitVec 32 := s.input.value.setWidth 32
  if !hostOpen s || decide (q.func ≠ s.input.func) || q.state != .active then .next s
  else if (t - q.tail).toNat + (q.tail - q.head).toNat ≤ 2 ^ q.log2n then .next (s.modRing g (fun x => { x with tail := t }))
  else .next (ringError s g (ringRecord g q (headAddr q) 0 .queueOverrun 0 (w64 g) (t.setWidth 64)))

/-- STREAM_INDEX_WRITE of the input's function and stream (R372, R374): the consumer index advances, held records are written. -/
def execStreamIndexWrite (s : State) : Host.Outcome State Fault Refusal :=
  let n := s.input.who % 64
  match kfind (streamKey s.input.func n) s.streams with
  | none => .next s
  | some st =>
    if !hostOpen s || st.kind == 3 then .next s
    else
      .next (streamDrain s.input.func n (st.held.length + 1)
        { s with streams := kset (streamKey s.input.func n) { st with ci := s.input.value.setWidth 32 } s.streams })

/-- REPLY_INDEX_WRITE (R372): the producer index of a reply ring. -/
def execReplyIndexWrite (s : State) : Host.Outcome State Fault Refusal :=
  let n := s.input.who % 64
  match kfind (streamKey s.input.func n) s.streams with
  | none => .next s
  | some st =>
    if !hostOpen s || st.kind != 3 then .next s
    else .next { s with streams := kset (streamKey s.input.func n) { st with pi := s.input.value.setWidth 32 } s.streams }

/-- COALESCE_TIMEOUT of the input's function and stream (R373): TIME_US has passed since the oldest entry not yet announced. -/
def execCoalesceTimeout (s : State) : Host.Outcome State Fault Refusal :=
  let n := s.input.who % 64
  match kfind (streamKey s.input.func n) s.streams with
  | none => .next s
  | some st =>
    if st.timeUs = 0 ∨ st.pend = 0 ∨ s.time < st.oldest + st.timeUs * 1000 * 2 ^ 32 then .next s
    else .next (sendVec { s with streams := kset (streamKey s.input.func n) { st with pend := 0 } s.streams } s.input.func st.vec)

/-- VECTOR_UNMASK of the input's function and vector (R373): the host writes the vector's mask bit, the input's flag; unmasked, a pending
interrupt is sent. -/
def execVectorUnmask (s : State) : Host.Outcome State Fault Refusal :=
  let v := (s.input.func, s.input.who)
  let s1 : State := { s with vecUnmasked := if s.vecUnmasked.contains v then s.vecUnmasked else v :: s.vecUnmasked }
  if !hostOpen s then .next s
  else if s.input.flag then .next { s with vecUnmasked := s.vecUnmasked.filter (fun x => x != v) }
  else if s.vecPending.contains v then
    .next { s1 with vecPending := s1.vecPending.erase v, outward := s1.outward ++ [.msix v.1 v.2] }
  else .next s1

/-! ### Replies (R291, R292) -/

/-- What a PARK names: a group parked faulted, by its trapping wave, or a wave parked in `trap`. -/
inductive Parked where
  | fault (g : Nat) | trap (k : Nat)
  deriving DecidableEq, Repr

/-- Whether a function's reply ring answers for a tenant: a VF for its own, the PF for any (R358). -/
def mayReply (func tenant : Nat) : Bool := decide (func = 0) || decide (tenant + 1 = func)

/-- The park that a PARK value names for a function. -/
def parkedAt (s : State) (func : Nat) (park : Nat) : Option Parked :=
  match s.groups.find? (fun p => p.2.faultedHere && mayReply func p.2.tenant && gidOf p.2.faultWave == p.1 && p.2.ring.isSome &&
      decide (p.2.img.toNat + p.2.faultWave % 32 = park)) with
  | some p => some (.fault p.1)
  | none =>
    match s.waves.find? (fun p => p.2.wait == .trap && (match s.group? (gidOf p.1) with
        | some g => mayReply func g.tenant && g.ring.isSome && decide (g.img.toNat + p.2.waveid = park)
        | none => false)) with
    | some p => some (.trap p.1)
    | none => none

/-- The trapping wave of a parked group continues at its instruction, or after it (R291). -/
def restartWave (s : State) (g : Nat) (past : Bool) : State :=
  match s.group? g with
  | none => s
  | some x => s.modWave x.faultWave (fun w =>
      let w := { w with wait := if w.wait = .trap then .trap else .none, waitArg := 0 }
      if past && decide (0 < x.faultLen) then { w with pc := x.faultPc + w64 x.faultLen, done := 0, grant := false, ownerEnd := 0, claim := none } else w)

/-- The owner's group that a fault of its continuation wave has parked with it (R51; log 96). -/
def parkedOwner (s : State) (g : Nat) : List Nat :=
  let o := originGroup s g
  match s.group? g, s.group? o with
  | some x, some y => if o ≠ g ∧ y.faultedHere = true ∧ y.faultWave = x.faultWave then [o] else []
  | _, _ => []

/-- A parked group leaves its park, with its crew, or with the owner's group that was parked for it (R51, R265, R285, R291). -/
def resumePark (s : State) (g : Nat) (past : Bool) : State :=
  let s := restartWave s g past
  (parkSet s g ++ parkedOwner s g).foldl resumeGroup s

/-- The entry at a reply ring's consumer index: the ring, and the bits of Table 17.5. -/
def replyEntry (s : State) : Option (Stream × BitVec 256) :=
  match kfind (streamKey s.input.func (s.input.who % 64)) s.streams with
  | none => none
  | some st =>
    if st.kind ≠ 3 ∨ st.ci = st.pi ∨ !hostOpen s then none
    else some (st, BitVec.ofNat 256 (rdN s (.host (st.base.toNat + 64 * (st.ci.toNat % 2 ^ st.log2n))) 32))
def rAction (e : BitVec 256) : Nat := bitsAt e 64 8
def rPark (e : BitVec 256) : Nat := bitsAt e 0 64

/-- The device has taken a reply: its consumer index is written to PIADDR (R372). -/
def takeReply (s : State) (st : Stream) : State :=
  let ci := st.ci + 1
  wrN { s with streams := kset (streamKey s.input.func (s.input.who % 64)) { st with ci := ci } s.streams } (.host st.piaddr.toNat) 8 ci.toNat

/-- The group of a park. -/
def Parked.gid : Parked → Nat
  | .fault g => g
  | .trap k => gidOf k

/-- A reply that names no park, an action that is none, or a SKIP that has no length, changes nothing and is recorded (R291). TENANT is the
tenant concerned: the parked group's where the reply names one, else the one that the VF serves (R399; log 85). -/
def replyInvalid (s : State) (p : Option Parked) (e : BitVec 256) : State :=
  let g := p.map Parked.gid
  let r : Record := { cause := .replyInvalid, tenant := s.input.func - 1, info0 := w64 (rPark e), info1 := w64 (rAction e) }
  hostRecord s (match g.bind s.group? with
    | some x => { r with tenant := x.tenant, gid := x.gid, seq := x.seq }
    | none => r)

/-- Handle the next reply of the input's ring when its ACTION is the given one. -/
def onReply (s : State) (ok : Nat → Bool) (f : Parked → BitVec 256 → State → State) : Host.Outcome State Fault Refusal :=
  match replyEntry s with
  | none => .next s
  | some (st, e) =>
    if !ok (rAction e) then .next s
    else
      let s := takeReply s st
      match parkedAt s s.input.func (rPark e) with
      | some p => if 3 ≤ rAction e then .next (replyInvalid s (some p) e) else .next (f p e s)
      | none => .next (replyInvalid s none e)

/-- The causes after which a resumed wave continues past its instruction. -/
def resumesPast (g : Group) : Bool := g.place == .faulted .breakpoint

/-- REPLY_RESUME (R291, R292): the group is restored and the instruction issues again, or continues after `brk`; a trapped wave takes `s0`
and `s1` from the reply, and its resumption is a system-scope acquire (R180). Replies with no such ACTION end here, recorded. -/
def execReplyResume (s : State) : Host.Outcome State Fault Refusal :=
  onReply s (fun a => a == 0 || decide (3 ≤ a)) (fun p e s => match p with
    | .fault g => resumePark s g (((s.group? g).map resumesPast).getD false)
    | .trap k => roInvalidate (s.modWave k (fun w =>
        { (wrS (wrS w 0 (w64 (bitsAt e 128 64))) 1 (w64 (bitsAt e 192 64))) with wait := .none })) (coreOf s k))

/-- REPLY_SKIP (R291, R292): the instruction acts as a `nop`; refused after a fault of its fetch. -/
def execReplySkip (s : State) : Host.Outcome State Fault Refusal :=
  onReply s (fun a => a == 1) (fun p e s => match p with
    | .fault g => if ((s.group? g).map (·.fetchFault)).getD false then replyInvalid s (some p) e else resumePark s g true
    | .trap k => roInvalidate (s.modWave k (fun w => { w with wait := .none })) (coreOf s k))

/-- REPLY_KILL (R291, R294): the group's task is killed with its descendants. -/
def execReplyKill (s : State) : Host.Outcome State Fault Refusal :=
  onReply s (fun a => a == 2) (fun p e s =>
    match s.group? p.gid with
    | some x => killTasks s [x.seq] 0
    | none => s)

/-! ### Registers (R299, R359) -/

/-- A pool register's new values, if they keep Table 19.4. -/
def poolOk (c : Core) (q : PoolQ) (p : Pool) : Bool :=
  let sum := [PoolQ.spawn, .cont, .copy, .ready].foldl (fun a x => a + (if x = q then p.qmin else (c.pool x).qmin)) 0
  decide (p.qmin ≤ p.qcap) && decide (p.qcap ≤ 2048) && decide (sum ≤ 2048)
def setPool (c : Core) (q : PoolQ) (p : Pool) : Core :=
  match q with
  | .spawn => { c with spawnP := p }
  | .cont => { c with contP := p }
  | .copy => { c with copyP := p }
  | .ready => { c with readyP := p }
def writePool (s : State) (c : Nat) (q : PoolQ) (v : Word) : State :=
  let p : Pool := { qmin := bitsAt v 0 12, qcap := bitsAt v 16 12 }
  if poolOk (s.core c) q p then s.modCore c (fun k => setPool k q p) else s

/-- A register write: refused, leaving the register, when it breaks the register's map (Tables 19.2 to 19.8, 23.1). -/
def writeReg (s : State) (r : RegPort) (v : Word) : State :=
  let f (lo n : Nat) : Nat := bitsAt v lo n
  match r with
  | .coreCfg c =>
    if decide (c < 256) && decide (31 ≤ f 32 16) && decide (255 ≤ f 16 16) && decide (255 ≤ f 0 16) then
      s.modCore c (fun k => { k with gatherM1 := f 32 16, quantumM1 := f 16 16, starveM1 := f 0 16 })
    else s
  | .partState _ => s
  | .poolSpawn c => if c < 256 then writePool s c .spawn v else s
  | .poolCont c => if c < 256 then writePool s c .cont v else s
  | .poolCopy c => if c < 256 then writePool s c .copy v else s
  | .poolReady c => if c < 256 then writePool s c .ready v else s
  | .feCfg =>
    if 1 ≤ f 32 16 ∧ 256 ≤ f 0 32 then { s with devCfg := { s.devCfg with preWaitUs := f 32 16, slice := f 0 32 } } else s
  | .segCfg => if f 0 16 ≤ 1024 then { s with devCfg := { s.devCfg with segLimit := f 0 16 } } else s
  | .balCfg =>
    if 1 ≤ f 24 8 ∧ f 16 8 ≤ 32 ∧ f 0 9 ≤ 256 then
      { s with devCfg := { s.devCfg with leadUs := f 24 8, rclust := f 16 8, computeMin := f 0 9 } }
    else s
  | .tenantBudget t =>
    if t < 64 then { s with budgets := kset t { units := f 0 19, bw := f 32 16, pwr := f 48 16 } s.budgets } else s
  | .tenantUse _ => s
  | .cmdBase n =>
    if hostOpen s ∧ f 0 6 = 0 then { s with funcs := kset n { (kget {} n s.funcs) with cmdBase := v } s.funcs } else s
  | .cmdLog2n n =>
    if hostOpen s ∧ 4 ≤ f 0 64 ∧ f 0 64 ≤ 12 then { s with funcs := kset n { (kget {} n s.funcs) with cmdLog2n := f 0 64 } s.funcs } else s
  | .cmdTail n =>
    if hostOpen s then { s with funcs := kset n { (kget {} n s.funcs) with cmdTail := v.setWidth 32 } s.funcs } else s

/-- A ring's state as its context and register give it (Table 23.2). -/
def RingState.code : RingState → Nat
  | .disabled => 0
  | .active => 1
  | .error => 2
  | .killing => 3

/-- What a host read of an 8-byte word of a function's BAR0 gives (Table 23.1): a ring's HEAD and STATE, the command ring, CMD_LAST. Rings that
the function does not own and reserved space read 0 (R359); before READY all of it reads 0 (R384). `none`: the table makes the register
write-only and gives its read nothing (STREAM_n, CMD_TAIL), or the device is not in D0 (R391; log 84). -/
def barRead (s : State) (func off : Nat) : Option Word :=
  let f := kget {} func s.funcs
  if s.boot.state ≠ .ready then some 0
  else if s.power ≠ .d0 then none
  else if off < 0x20000 then
    let q := s.ring (off / 8)
    some (if q.func = func then packBits 64 [(0, 32, q.head.toNat), (32, 2, q.state.code)] else 0)
  else if off < 0x20200 then none
  else if off = 0x30000 then some f.cmdBase
  else if off = 0x30008 then some (w64 f.cmdLog2n)
  else if off = 0x30010 then none
  else if off = 0x30018 then some (f.cmdHead.setWidth 64)
  else if off = 0x30020 then some f.cmdLast
  else some 0

/-- REGISTER_WRITE of the input's register and value (R299, R359). -/
def execRegisterWrite (s : State) : Host.Outcome State Fault Refusal := .next (writeReg s s.input.reg s.input.value)

end Sys2Proof.Machine
end

