-- ==== Sys2Proof/Machine/Loader.lean ====
section
/-! DEFINITION. Loading a code object (R143 to R146): the ELF64 object is read, relocated and checked as a whole; then its sections, a launch
image for each kernel and the result table are written, or nothing is (log 19). -/

set_option linter.unusedVariables false

namespace Sys2Proof.Machine

/-- A number of an object at an offset; past its end it reads 0. -/
def objN (b : List Byte) (off n : Nat) : Nat := leNat ((b.drop off).take n)

/-- A section header of the object. -/
structure Sec where
  name : Nat
  type : Nat
  flags : Nat
  addr : Nat
  off : Nat
  size : Nat
  link : Nat
  deriving DecidableEq, Repr

def secAt (b : List Byte) (i : Nat) : Sec :=
  let o := objN b 40 8 + 64 * i
  { name := objN b o 4, type := objN b (o + 4) 4, flags := objN b (o + 8) 8, addr := objN b (o + 16) 8, off := objN b (o + 24) 8,
    size := objN b (o + 32) 8, link := objN b (o + 40) 4 }
def objSecs (b : List Byte) : List Sec := (List.range (objN b 60 2)).map (secAt b)
def Sec.alloc (x : Sec) : Bool := x.flags / 2 % 2 == 1
/-- The name of a section as bytes, up to its final zero. -/
def secName (b : List Byte) (x : Sec) : List Byte :=
  let tab := secAt b (objN b 62 2)
  ((b.drop (tab.off + x.name)).take 64).takeWhile (fun c => c ≠ 0)
/-- `.cherun.kd`. -/
def kdName : List Byte := [46, 99, 104, 101, 114, 117, 110, 46, 107, 100]
def Sec.isKd (b : List Byte) (x : Sec) : Bool := secName b x == kdName
/-- The contents of a section: its bytes, or zeros for a section without any. -/
def secBytes (b : List Byte) (x : Sec) : List Byte :=
  if x.type = 8 then List.replicate x.size 0
  else
    let c := (b.drop x.off).take x.size
    c ++ List.replicate (x.size - c.length) 0

/-- What an error record of a refused load holds: relocation index and type, section, offset, value (R145). -/
structure LoadErr where
  rel : Nat := 0
  type : Nat := 0
  sec : Nat := 0
  off : Nat := 0
  value : Nat := 0
  deriving DecidableEq, Repr

/-- The first header value that differs from R143, as its offset in the object. -/
def elfBad (b : List Byte) : Option Nat :=
  ((([(0, 4, 0x464C457F), (4, 1, 2), (5, 1, 1), (7, 1, 0), (16, 2, 3), (18, 2, 0x09C4), (48, 4, 1)] : List (Nat × Nat × Nat)).find?
    (fun p => decide (objN b p.1 p.2.1 ≠ p.2.2)))).map (·.1)

/-- A relocation entry. -/
structure Rel where
  idx : Nat
  off : Nat
  type : Nat
  sym : Nat
  addend : Int
  deriving DecidableEq, Repr
/-- The relocations of the object, with the symbol table of each. The index that an error record names counts within its own relocation section
(R145; log 19). -/
def objRels (b : List Byte) : List (Rel × Sec) :=
  (objSecs b).flatMap (fun x => if x.type ≠ 4 then [] else
    (List.range (x.size / 24)).map (fun i =>
      let o := x.off + 24 * i
      ({ idx := i, off := objN b o 8, type := objN b (o + 8) 4, sym := objN b (o + 12) 4, addend := (BitVec.ofNat 64 (objN b (o + 16) 8)).toInt },
       secAt b x.link)))
/-- The value of a symbol; none when it is undefined. Symbol 0 stands for 0. -/
def symValue (b : List Byte) (tab : Sec) (i : Nat) : Option Nat :=
  if i = 0 then some 0 else if objN b (tab.off + 24 * i + 6) 2 = 0 then none else some (objN b (tab.off + 24 * i + 8) 8)

/-- BASE of an inline record for an address, where it needs no marker (R134). -/
def recBase48 (v : Int) : Option Nat :=
  if v < 0 then none
  else
    let n := v.toNat
    if n < 0xF00000000000 then some n
    else if 0xFE000000000000 ≤ n ∧ n < 0xFE000000000000 + 2 ^ 40 then some (0xFE * 2 ^ 40 + (n - 0xFE000000000000))
    else if 0xFF000000000000 ≤ n ∧ n < 0xFF000000000000 + 2 ^ 40 then some (0xFD * 2 ^ 40 + (n - 0xFF000000000000))
    else none

/-- A relocation's field (Table 9.12): the address written, its bytes, and the value from what stands there; none where the value does not
fit or the type is not in the table. `v` is S + A. -/
def relField (type off : Nat) (v : Int) (old : Nat → Nat → Nat) : Option (Nat × Nat × Nat) :=
  let pos (lim : Int) : Bool := decide (0 ≤ v) && decide (v < lim)
  let d : Int := v - ((off : Int) - 8)
  let e : Int := v - off
  match type with
  | 0 => some (off, 0, 0)
  | 1 => if pos (2 ^ 56) then some (off, 8, v.toNat) else none
  | 2 => if pos (2 ^ 32) then some (off, 4, v.toNat) else none
  | 3 => if d % 4 = 0 ∧ -2 ^ 31 ≤ d ∧ d ≤ 2 ^ 31 - 4 then some (off, 4, (BitVec.ofInt 32 d).toNat) else none
  | 4 =>
    if e % 4 = 0 ∧ -2 ^ 21 ≤ e / 4 ∧ e / 4 ≤ 2 ^ 21 - 1 then
      (let x := (BitVec.ofInt 22 (e / 4)).toNat
       let w := old off 8
       some (off, 8, (w &&& (2 ^ 64 - 1 - 0x3FFFFF * 2 ^ 27)) ||| (x / 2 ^ 11 * 2 ^ 27) ||| (x % 2 ^ 11 * 2 ^ 38)))
    else none
  | 5 => if pos (2 ^ 56) then some (off, 4, v.toNat % 2 ^ 32) else none
  | 6 => if pos (2 ^ 56) then some (off, 4, v.toNat / 2 ^ 32) else none
  -- the inline BASE follows the base parcels: two, or three where the low bits are 11 (R118, R133)
  | 7 => (recBase48 v).map (fun x => (off + (if old off 1 % 4 = 3 then 12 else 8), 6, x))
  | 8 => if pos (2 ^ 56) then some (off, 7, v.toNat) else none
  | _ => none

/-- The computed value of a relocation that does not fit (Table 9.12, R145; log 19). -/
def relValue (type off : Nat) (v : Int) : Nat :=
  let x : Int := match type with
    | 0 => 0
    | 3 => v - ((off : Int) - 8)
    | 4 => (v - off) / 4
    | 5 => v % 2 ^ 32
    | 6 => v / 2 ^ 32
    | _ => v
  (BitVec.ofInt 64 x).toNat

/-- The object's loaded bytes by address. -/
def objImage (b : List Byte) : List (Nat × Byte) :=
  (objSecs b).foldl (fun m x => if x.alloc || x.isKd b then
    ((secBytes b x).mapIdx (fun i c => (x.addr + i, c))).foldl (fun m p => kset p.1 p.2 m) m else m) []
def imgN (m : List (Nat × Byte)) (a n : Nat) : Nat := leNat ((List.range n).map (fun i => kget 0 (a + i) m))

/-- The section an address lies in, with its index. -/
def secOf (b : List Byte) (a : Nat) : Nat × Sec :=
  (((objSecs b).mapIdx (fun i x => (i, x))).find? (fun p => (p.2.alloc || p.2.isKd b) && decide (p.2.addr ≤ a) && decide (a < p.2.addr + p.2.size))).getD
    (0, secAt b 0)

/-- Apply the relocations in order, or the first that is refused (R144, R145). -/
def relocate (b : List Byte) : List (Rel × Sec) → List (Nat × Byte) → Except LoadErr (List (Nat × Byte))
  | [], m => .ok m
  | (r, tab) :: rest, m =>
    let at_ := secOf b r.off
    let err (v : Nat) : LoadErr := { rel := r.idx, type := r.type, sec := at_.1, off := r.off - at_.2.addr, value := v }
    match symValue b tab r.sym with
    | none => .error (err 0)
    | some sv =>
      match relField r.type r.off ((sv : Int) + r.addend) (imgN m) with
      | none => .error (err (relValue r.type r.off ((sv : Int) + r.addend)))
      | some (a, n, x) => relocate b rest (((leBytes n x).mapIdx (fun i c => (a + i, c))).foldl (fun m p => kset p.1 p.2 m) m)

/-- The descriptors of the object, with the section and offset of each (Table 9.11). -/
def objKds (b : List Byte) (m : List (Nat × Byte)) : List (Nat × Nat × BitVec 256) :=
  ((objSecs b).mapIdx (fun i x => (i, x))).flatMap (fun p => if p.2.isKd b then
    (List.range (p.2.size / 32)).map (fun k => (p.1, 32 * k, BitVec.ofNat 256 (imgN m (p.2.addr + 32 * k) 32))) else [])
def kRegs (d : BitVec 256) : Nat := bitsAt d 90 11
def kLs (d : BitVec 256) : Nat := bitsAt d 80 10
def kAcc (d : BitVec 256) : Nat := bitsAt d 71 9
def kEntry (d : BitVec 256) : Nat := bitsAt d 192 64
/-- Whether a descriptor holds a value outside Table 9.11's ranges. -/
def kdBad (d : BitVec 256) : Bool :=
  decide (bitsAt d 0 64 ≠ 0) || decide (bitsAt d 65 6 ≠ 0) || decide (256 < kAcc d) || decide (512 < kLs d) || decide (kRegs d % 8 ≠ 0) ||
    decide (kRegs d < 8) || decide (1536 < kRegs d) || decide (bitsAt d 101 11 < 8) || decide (1536 < bitsAt d 101 11)

/-- The launch image of a kernel (R146, R282): header, directory and one wave block. -/
def kernelImage (d : BitVec 256) : Nat × List ImgField :=
  let len := 0x900 + 256 * kRegs d
  let h : BitVec 512 := packBits 512 [(0, 31, 256 + len), (38, 6, 1), (56, 8, 1), (192, 10, kLs d), (202, 9, kAcc d), (227, 1, b2n (decide (0 < kAcc d)))]
  (256 + len,
   [(0, 64, h.toNat), (64, 4, 256), (68, 4, len), (72, 1, 1), (256, 8, kEntry d), (256 + 8, 4, 2 ^ 32 - 1), (256 + 0x10, 4, 2 ^ 32 - 1),
    (256 + 0x28, 2, kRegs d), (256 + 0x540, 4, 2 ^ 32 - 1)])

/-- A loaded object: its bytes, its kernels with their image addresses, and its descriptors. -/
structure Loaded where
  bytes : List (Nat × Byte)
  images : List (Nat × BitVec 256)
  kds : List (BitVec 256)
  lo : Nat
  hi : Nat
  deriving DecidableEq, Repr

/-- Image addresses from a first one on, each 256-byte-aligned. -/
def placeImages : Nat → List (BitVec 256) → List (Nat × BitVec 256)
  | _, [] => []
  | a, d :: r => (a, d) :: placeImages (roundTo 256 (a + (kernelImage d).1)) r

/-- Load an object for a tenant: refused whole, or the places where all of it goes (R145, R146). Each section goes to its own address, the
images behind the highest section outside the shared window (log 19). -/
def loadObject (s : State) (tenant : Nat) (b : List Byte) : Except LoadErr Loaded :=
  match elfBad b with
  | some o => .error { off := o }
  | none =>
    match relocate b (objRels b) (objImage b) with
    | .error e => .error e
    | .ok m =>
      let ks := objKds b m
      match ks.find? (fun k => kdBad k.2.2) with
      | some k => .error { sec := k.1, off := k.2.1 }
      | none =>
        let who : Who := { tenant := tenant }
        let secs := ((objSecs b).mapIdx (fun i x => (i, x))).filter (fun p => p.2.alloc && decide (0 < p.2.size))
        match secs.find? (fun p => (p.2.flags / 2 ^ 28 % 2 == 1 && !inShared p.2.addr) || (checkRange s who p.2.addr p.2.size {}).isSome) with
        | some p => .error { sec := p.1 }
        | none =>
          let plain := secs.filter (fun p => !inShared p.2.addr)
          let hi := (plain.map (fun p => p.2.addr + p.2.size)).foldl max 0
          let lo := (plain.map (fun p => p.2.addr)).foldl min hi
          let images := placeImages (roundTo 256 hi) ((ks.map (·.2.2)).filter (fun d => !d.getLsbD 64))
          if images.any (fun p => (checkRange s who p.1 (kernelImage p.2).1 {}).isSome) then .error { off := hi }
          else .ok { bytes := secs.flatMap (fun p => (List.range p.2.size).map (fun i => (p.2.addr + i, kget 0 (p.2.addr + i) m))), images := images,
                     kds := ks.map (·.2.2), lo := lo, hi := hi }

/-- Write a loaded object: sections, launch images, the descriptors made known, and the pairs of image address and descriptor at a host
address, 40 bytes each (log 19). -/
def writeLoaded (s : State) (tenant table : Nat) (x : Loaded) : State :=
  let who : Who := { tenant := tenant }
  let s := x.bytes.foldl (fun s p => wrVa s who p.1 [p.2]) s
  let s := x.images.foldl (fun s p => wrFields s tenant p.1 (kernelImage p.2).1 (kernelImage p.2).2) s
  let s : State := { s with kds := (x.kds.map (fun d => { tenant := tenant, bits := d, lo := x.lo, hi := x.hi })) ++ s.kds }
  (x.images.mapIdx (fun i p => (i, p))).foldl (fun s q =>
    wrN (wrN s (.host (table + 40 * q.1)) 8 q.2.1) (.host (table + 40 * q.1 + 8)) 32 q.2.2.toNat) s

/-- The error record of a refused load, five quadwords at the result table (R145, log 19). -/
def writeLoadErr (s : State) (table : Nat) (e : LoadErr) : State :=
  ([e.rel, e.type, e.sec, e.off, e.value].mapIdx (fun i x => (i, x))).foldl (fun s p => wrN s (.host (table + 8 * p.1)) 8 p.2) s

end Sys2Proof.Machine
end

