-- ==== Sys2Proof/Machine/Commands.lean ====
section
/-! DEFINITION. Management commands (R360, R363, R376, R377, Table 23.9). -/

set_option linter.unusedVariables false

namespace Sys2Proof.Machine

/-- What a command answers: complete with a status and a result, or not complete yet. -/
inductive CmdRes where
  | done (s : State) (status : Nat) (result : Word := 0)
  | later (s : State)
  deriving Repr

def stOk : Nat := 0
def stRefused : Nat := 2
def stTable : Nat := 3
def stLoad : Nat := 4
def stDenied : Nat := 5

/-- The command at CMD_HEAD of a function, with its host address. -/
def cmdNow (s : State) (func : Nat) : Option (BitVec 512 × Nat) :=
  let f := kget {} func s.funcs
  if !hostOpen s || decide (64 < func) || f.cmdHead == f.cmdTail then none
  else
    let a := f.cmdBase.toNat + 64 * (f.cmdHead.toNat % 2 ^ f.cmdLog2n)
    some (BitVec.ofNat 512 (rdN s (.host a) 64), a)

/-- A command completes (R376, R377): CMD_HEAD passes it, CMD_LAST is written, and a record goes to stream 0 where that is set. -/
def completeCmd (s : State) (func : Nat) (c : BitVec 512) (at_ status : Nat) (result : Word) : State :=
  let f := kget {} func s.funcs
  let last : Word := packBits 64 [(56, 8, pOp c), (48, 8, status), (0, 48, result.toNat)]
  let idx := f.cmdHead.toNat
  let s : State := { s with funcs := kset func { f with cmdHead := f.cmdHead + 1, cmdLast := last } s.funcs }
  streamEntry s func 0 (complBits s.ns result (w64 at_) idx (pTag c) 0 (0x80 + pOp c % 0x80) status) (pIrq c)

/-- Whether a command's header or unused operands break R364: `used` gives the bits used of each Q word. -/
def cmdBad (c : BitVec 512) (used : List Nat) : Bool :=
  decide (bitsAt c 11 21 ≠ 0) || (List.range 7).any (fun j => decide (pQ c (j + 1) &&& (2 ^ 64 - 1 - used.getD j 0) ≠ 0))

/-- Execute the input's function's command when it has a code: a VF only where the command admits it (R376). -/
def onCmd (code : Nat) (vf : Bool) (used : List Nat) (sel : BitVec 512 → Bool) (f : BitVec 512 → Nat → State → CmdRes) (s : State) :
    Host.Outcome State Fault Refusal :=
  let func := s.input.func
  match cmdNow s func with
  | none => .next s
  | some (c, a) =>
    if pOp c ≠ code ∨ !sel c then .next s
    else if func ≠ 0 ∧ !vf then .next (completeCmd s func c a stDenied 0)
    else if cmdBad c used then .next (completeCmd s func c a stRefused 0)
    else match f c func s with
      | .done s st r => .next (completeCmd s func c a st r)
      | .later s => .next s

def all64 : Nat := 2 ^ 64 - 1

/-! ### Rings -/

/-- Whether a ring context breaks Table 23.2. -/
def ctxBad (c : BitVec 512) : Bool :=
  decide (bitsAt c 128 64 ≠ 0) || decide (bitsAt c 218 6 ≠ 0) || decide (bitsAt c 232 24 ≠ 0) || decide (bitsAt c 384 32 ≠ 0) ||
    decide (64 < bitsAt c 192 8) || (decide (bitsAt c 192 8 ≠ 0) && decide (bitsAt c 200 6 + 1 ≠ bitsAt c 192 8)) ||
    decide (bitsAt c 224 7 < 4) || decide (20 < bitsAt c 224 7) || decide (bitsAt c 256 64 % 64 ≠ 0) || decide (bitsAt c 320 64 % 16 ≠ 0) ||
    decide (bitsAt c 448 64 % 65536 ≠ 0)
/-- A ring from its context (Table 23.2); HEAD, TAIL and STEP start at 0 (log 30). -/
def ringOf (c : BitVec 512) : Ring :=
  { func := bitsAt c 192 8, tenant := bitsAt c 200 6, estream := bitsAt c 206 6, cstream := bitsAt c 212 6, log2n := bitsAt c 224 7,
    docc := c.getLsbD 231, base := w64 (bitsAt c 256 64), val := w64 (bitsAt c 320 64), imgSize := bitsAt c 416 32, imgBase := w64 (bitsAt c 448 64) }

/-- QUEUE_SET (R360); a command of no code of Table 23.9 ends here too, REFUSED. -/
def execQueueSet (s : State) : Host.Outcome State Fault Refusal :=
  match cmdNow s s.input.func with
  | none => .next s
  | some (c, a) =>
    if pOp c = 0 ∨ 0x0A < pOp c then .next (completeCmd s s.input.func c a (if s.input.func = 0 then stRefused else stDenied) 0)
    else onCmd 1 false [all64, all64] (fun _ => true) (fun c _ s =>
      let g := pQ c 1
      let x := BitVec.ofNat 512 (rdN s (.host (pQ c 2)) 64)
      if 16384 ≤ g ∨ (s.ring g).state ≠ .disabled ∨ ctxBad x then .done s stRefused
      else .done (s.modRing g (fun _ => ringOf x)) stOk) s

/-- Whether a function may act on a ring: the PF on any, a VF on its own (R358, R376). -/
def mayRing (s : State) (func g : Nat) : Bool := decide (func = 0) || decide ((s.ring g).func = func)

/-- QUEUE_STATE to DISABLED (Table 23.3); other values of Q2 than 0 and 1 are refused here. -/
def execQueueStateDisable (s : State) : Host.Outcome State Fault Refusal :=
  onCmd 2 true [all64, all64, all64] (fun c => decide (pQ c 2 ≠ 1)) (fun c func s =>
    let g := pQ c 1
    if 16384 ≤ g then .done s stRefused
    else if !mayRing s func g then .done s stDenied
    else if pQ c 2 ≠ 0 ∨ (s.ring g).state = .killing then .done s stRefused
    else .done (s.modRing g (fun q => { q with state := .disabled })) stOk) s

/-- QUEUE_STATE to ACTIVE (R363): from ERROR with a HEAD' between HEAD and TAIL. -/
def execQueueStateActivate (s : State) : Host.Outcome State Fault Refusal :=
  onCmd 2 true [all64, all64, all64] (fun c => decide (pQ c 2 = 1)) (fun c func s =>
    let g := pQ c 1
    let q := s.ring g
    if 16384 ≤ g then .done s stRefused
    else if !mayRing s func g then .done s stDenied
    else match q.state with
      | .killing => .done s stRefused
      | .active => .done s stOk
      | .disabled => .done (s.modRing g (fun q => { q with state := .active, checked := none, nodeChecked := none })) stOk
      | .error =>
        let h : BitVec 32 := BitVec.ofNat 32 (pQ c 3)
        if 2 ^ 32 ≤ pQ c 3 ∨ (q.tail - q.head).toNat < (h - q.head).toNat then .done s stRefused
        else if h = q.head then .done (s.modRing g (fun q => { q with state := .active, checked := none, nodeChecked := none })) stOk
        else .done (s.modRing g (fun q => { q with
          state := .active, head := h, step := 0, node := none, held := false, checked := none, nodeChecked := none })) stOk) s

/-- Kill a ring's tasks (R294): those its packets and chains have published. -/
def killRing (s : State) (g : Nat) : State := killTasks s ((s.tasks.filter (fun p => p.2.ring == g)).map (·.1)) 1

/-- QUEUE_KILL (Table 23.3): the ring is KILLING and its tasks are killed; the command completes when it is DISABLED. -/
def execQueueKill (s : State) : Host.Outcome State Fault Refusal :=
  onCmd 3 true [all64] (fun c => !s.killing.contains (s.input.func, pQ c 1)) (fun c func s =>
    let g := pQ c 1
    if 16384 ≤ g then .done s stRefused
    else if !mayRing s func g then .done s stDenied
    else .later { (killRing (s.modRing g (fun q => { q with state := .killing })) g) with killing := (func, g) :: s.killing }) s

/-- A ring whose kills have finished: HEAD = TAIL, DISABLED (Table 23.3). -/
def endKill (s : State) (g : Nat) : State :=
  s.modRing g (fun q => { q with
    state := .disabled, head := q.tail, step := 0, node := none, held := false, checked := none, nodeChecked := none })

/-- QUEUE_KILL_COMPLETE (R376, Table 23.3). -/
def execQueueKillComplete (s : State) : Host.Outcome State Fault Refusal :=
  onCmd 3 true [all64] (fun c => s.killing.contains (s.input.func, pQ c 1)) (fun c func s =>
    .done { (endKill s (pQ c 1)) with killing := s.killing.erase (func, pQ c 1) } stOk) s

/-! ### Streams and translation -/

/-- Whether a stream descriptor breaks Table 23.7 or R377. -/
def streamBad (func n : Nat) (d : BitVec 256) : Bool :=
  decide (bitsAt d 0 68 ≠ 0) || decide (3 < bitsAt d 68 4) || decide (bitsAt d 72 8 < 4) || decide (20 < bitsAt d 72 8) || decide (bitsAt d 80 16 = 0) ||
    decide ((if func = 0 then 2048 else 64) ≤ bitsAt d 112 16) || decide (bitsAt d 192 64 % 64 ≠ 0) ||
    (decide (n = 0) && decide (bitsAt d 68 4 ≠ 1))
def streamOf (d : BitVec 256) : Stream :=
  { kind := bitsAt d 68 4, log2n := bitsAt d 72 8, count := bitsAt d 80 16, timeUs := bitsAt d 96 16, vec := bitsAt d 112 16,
    piaddr := w64 (bitsAt d 128 64), base := w64 (bitsAt d 192 64) }

/-- STREAM_SET (R372, R377): the stream's indices begin again; entries that are held stay, in their order, and are written as there is room
(R374; log 61). -/
def execStreamSet (s : State) : Host.Outcome State Fault Refusal :=
  onCmd 4 true [all64, all64] (fun _ => true) (fun c func s =>
    let n := pQ c 1
    let d := BitVec.ofNat 256 (rdN s (.host (pQ c 2)) 32)
    if 64 ≤ n ∨ streamBad func n d then .done s stRefused
    else
      let held := (kget {} (streamKey func n) s.streams).held
      let st : Stream := { streamOf d with held := held }
      let s : State := { s with streams := kset (streamKey func n) st s.streams }
      .done (if st.kind = 3 then s else streamDrain func n (held.length + 1) s) stOk) s

/-- SET_ROOT (R61). -/
def execSetRoot (s : State) : Host.Outcome State Fault Refusal :=
  onCmd 5 false [all64, all64] (fun _ => true) (fun c _ s =>
    if 64 ≤ pQ c 1 ∨ pQ c 2 % 8192 ≠ 0 then .done s stRefused
    else .done { s with roots := kset (pQ c 1) (pQ c 2) s.roots } stOk) s

/-- INVALIDATE (R65): no translation of the range remembered before it is used after it. -/
def execInvalidate (s : State) : Host.Outcome State Fault Refusal :=
  onCmd 6 true [all64, all64, all64] (fun _ => true) (fun c func s =>
    if 64 ≤ pQ c 1 then .done s stRefused
    else if !mayReply func (pQ c 1) then .done s stDenied
    else .done { s with tlb := s.tlb.filter (fun t =>
      let lo := t.page * 2 ^ pageBits t.level
      !(t.tenant == pQ c 1 && decide (lo < pQ c 2 + pQ c 3) && decide (pQ c 2 < lo + 2 ^ pageBits t.level))) } stOk) s

/-! ### Timetables, outputs, objects, the domain -/

/-- TIMETABLE (R316): admitted whole, or refused with the first failing entry. -/
def execTimetable (s : State) : Host.Outcome State Fault Refusal :=
  onCmd 7 false [all64, all64, all64] (fun _ => true) (fun c _ s =>
    if pQ c 2 = 0 ∨ 4096 < pQ c 2 ∨ 16384 ≤ pQ c 3 then .done s stRefused
    else
      let es := (List.range (pQ c 2)).map (fun i => BitVec.ofNat 512 (rdN s (.host (pQ c 1 + 64 * i)) 64))
      match tableBad s es with
      | some i => .done s stTable (w64 i)
      | none => .done (replaceTable { s with nextTable := some { entries := es, ring := pQ c 3 } }) stOk) s

/-- BIND_OUT (R342): the output takes its ring's strips from PUB on; its ring's address is one of the tenant that the admitted timetable
serves (log 37). -/
def execBindOut (s : State) : Host.Outcome State Fault Refusal :=
  onCmd 8 false [all64, all64] (fun _ => true) (fun c func s =>
    let d := BitVec.ofNat 512 (rdN s (.host (pQ c 2)) 64)
    if 12 ≤ pQ c 1 ∨ outputBad (pQ c 1) d then .done s stRefused
    else
      let tenant := ((s.table.map (fun t => (s.ring t.ring).tenant))).getD 0
      let pub := BitVec.ofNat 32 (hPub (ringHdr s { tenant := tenant } (oRing d)))
      let old := kget {} (pQ c 1) s.outputs
      let o : Output := { bound := true, desc := d, tenant := tenant, func := func, seq := pub, base := pub, levels := old.levels }
      .done { (hdrTouch s tenant (oRing d)) with outputs := kset (pQ c 1) o s.outputs } stOk) s

/-- LOAD (R145, R146): for the VF's tenant, or tenant 0 for the PF (log 19). -/
def execLoad (s : State) : Host.Outcome State Fault Refusal :=
  onCmd 9 true [all64, all64, all64] (fun _ => true) (fun c func s =>
    let tenant := func - 1
    match loadObject s tenant (rdBytes s (.host (pQ c 1)) (pQ c 2)) with
    | .error e => .done (writeLoadErr s (pQ c 3) e) stLoad
    | .ok x => .done (writeLoaded s tenant (pQ c 3) x) stOk) s

/-- Members to which no route remains leave the mask, each with a record to the PF (R380, R15; log 86). -/
def loseMembers (s : State) : State :=
  (List.range 64).foldl (fun s d =>
    if s.domain.members.getLsbD d && !routed s.domain s.lanesOut d then
      hostRecord { s with domain := { s.domain with members := s.domain.members &&& ~~~ w64 (2 ^ d) } } { cause := .addressRange, info1 := w64 d }
    else s) s

/-- DOMAIN_SET (R379): the route table gives each member 8 bytes with its ports as bits, the tenant map each local tenant 8 bytes with its
domain tenant number (log 10). A member whose every port is absent has no route (R380). -/
def execDomainSet (s : State) : Host.Outcome State Fault Refusal :=
  onCmd 0x0A false [all64, all64, all64, all64] (fun _ => true) (fun c _ s =>
    if 64 ≤ pQ c 1 then .done s stRefused
    else
      let row (a i : Nat) : Nat := rdN s (.host (a + 8 * i)) 8
      .done (loseMembers { s with domain := { self := pQ c 1, members := w64 (pQ c 2),
                                              routes := (List.range 64).map (fun i => (i, row (pQ c 3) i % 2 ^ 12)),
                                              tenants := (List.range 64).map (fun i => (i, row (pQ c 4) i)) } }) stOk) s

end Sys2Proof.Machine
end

