-- ==== Sys2Proof/Machine/Convert.lean ====
section
/-! DEFINITION. Class 4, conversions (R167 to R169). -/

set_option linter.unusedVariables false

namespace Sys2Proof.Machine

/-- Conversion of element lists: elements of `n` source registers to elements of destination registers (R167, R168). -/
def cvtElems (env : FEnv) (sat : Bool) (src dst : Ty) (xs : List Nat) : List Nat := xs.map (convert env sat src dst)

/-- Write a span of vector registers in the lanes of Active from a lane's values, first register first. -/
def wrSpan (w : Wave) (d : Nat) (act : LaneMask) (n : Nat) (f : Nat → List Word) : Wave :=
  (List.range n).foldl (fun x k => wrLanes x (d + k) act (fun l => (f l).getD k 0)) w

/-- The sub-elements of `n` consecutive registers of a lane. -/
def spanElems (w : Wave) (t : Ty) (r n l : Nat) : List Nat :=
  (List.range n).flatMap (fun k => (List.range (elemCount t)).map (elemOf t (rdV w (r + k) l)))

/-- `cvt` (R167): sub-elements at or above n become 0; between equal types `.sat` has no effect. -/
def execCvt (f : CvtF) (s : State) :
    Host.Outcome State Fault Refusal :=
  let n := min (elemCount f.src) (elemCount f.dst)
  laneOp 8 f.h f.d [vOp f.a] (some 6)
    (fun w l => ofElems f.dst (cvtElems (envOf w.mode f.rmo) (f.sat && f.src != f.dst) f.src f.dst ((spanElems w f.src f.a.toNat 1 l).take n))) s

/-- `pack` (R168). -/
def execPack (f : CvtF) (s : State) :
    Host.Outcome State Fault Refusal :=
  let n := f.src.width / f.dst.width
  issue (specH f.h 8 [vOp f.d 1 true, vOp f.a n] (some 6))
    (onWave (fun w => .ok (wrLanes w f.d.toNat (activeOf w f.h.mask) (fun l =>
      ofElems f.dst (cvtElems (envOf w.mode f.rmo) f.sat f.src f.dst (spanElems w f.src f.a.toNat n l)))))) s

/-- `unpack` (R168). -/
def execUnpack (f : CvtF) (s : State) :
    Host.Outcome State Fault Refusal :=
  let n := f.dst.width / f.src.width
  issue (specH f.h 8 [vOp f.d n true, vOp f.a] (some 6))
    (onWave (fun w => .ok (wrSpan w f.d.toNat (activeOf w f.h.mask) n (fun l =>
      let ys := cvtElems (envOf w.mode f.rmo) f.sat f.src f.dst (spanElems w f.src f.a.toNat 1 l)
      (List.range n).map (fun k => ofElems f.dst ((ys.drop (k * elemCount f.dst)).take (elemCount f.dst))))))) s

/-- `cb.dec` (R169): the BF16 entries of sixteen codes from the wave's codebook, with no DAZ or FTZ. -/
def execCbDec (f : CbDecF) (s : State) :
    Host.Outcome State Fault Refusal :=
  issue (specH f.h 8 [vOp f.d 4 true, vOp f.a] (some 6))
    (onWave (fun w => .ok (wrSpan w f.d.toNat (activeOf w f.h.mask) 4 (fun l =>
      let ys := (spanElems w .cb4 f.a.toNat 1 l).map (fun c => bitsAt w.cbA (16 * c) 16)
      (List.range 4).map (fun k => ofElems .bf16 ((ys.drop (4 * k)).take 4)))))) s

end Sys2Proof.Machine
end

