-- ==== Sys2Proof/Machine/CrossLane.lean ====
section
/-! DEFINITION. Class 5, cross-lane instructions (R170 to R174). -/

set_option linter.unusedVariables false

namespace Sys2Proof.Machine

/-- Where a destination element of a lane takes its value: element (lane, sub-element) of a, or no source (R171 to R173). -/
abbrev LaneSrc := Nat → Nat → Option (Nat × Nat)

/-- The lanes of Active that make an inactive read (R170). -/
def inactiveReaders (act : LaneMask) (k : Nat) (src : LaneSrc) : LaneMask :=
  maskOf (fun l => act.getLsbD l && (List.range k).any (fun j => match src l j with
    | some p => !act.getLsbD p.1
    | none => false))

/-- A cross-lane instruction (R170): LANE_INACTIVE_READ without `.z`, a zero element with it; a missing source gives 0. -/
def crossLane (f : XlF) (bOps : List Opnd) (src : Wave → LaneSrc) (s : State) : Host.Outcome State Fault Refusal :=
  issue (specH f.h 8 (vOp f.d 1 true :: vOp f.a :: bOps) (some 8))
    (onWave (fun w =>
      let act := activeOf w f.h.mask
      let bad := inactiveReaders act (elemCount f.ty) (src w)
      if !f.z && bad ≠ 0 then .error { cause := .laneInactiveRead, lanes := some bad }
      else .ok (wrLanes w f.d.toNat act (fun l => elemsOf f.ty (fun j =>
        match src w l j with
        | some p => if act.getLsbD p.1 then elemOf f.ty (rdV w f.a.toNat p.1) p.2 else 0
        | none => 0))))) s

/-- A 9-bit element index: lane and sub-element modulo k (R171). -/
def xlIndex (k i : Nat) : Nat × Nat := (i / 16 % 32, i % 16 % k)

/-- `xl.get` (R171). -/
def execXlGet (f : XlF) (s : State) :
    Host.Outcome State Fault Refusal :=
  let k := elemCount f.ty
  crossLane f [vOp f.b ((k + 3) / 4)] (fun w l j =>
    some (xlIndex k (bitsAt (rdV w (f.b.toNat + j / 4) l) (16 * (j % 4)) 9))) s

/-- `xl.bcast` (R171). -/
def execXlBcast (f : XlF) (s : State) :
    Host.Outcome State Fault Refusal :=
  crossLane f [sOp f.b] (fun w _ _ => some (xlIndex (elemCount f.ty) (bitsAt (rdS w f.b.toNat) 0 9))) s

/-- `xl.shup` (R172): element e - c, or 0. -/
def execXlShup (f : XlF) (s : State) :
    Host.Outcome State Fault Refusal :=
  let k := elemCount f.ty
  crossLane f [] (fun _ l j =>
    let e := l * k + j
    if e < f.b.toNat then none else some ((e - f.b.toNat) / k, (e - f.b.toNat) % k)) s

/-- `xl.shdn` (R172): element e + c, or 0. -/
def execXlShdn (f : XlF) (s : State) :
    Host.Outcome State Fault Refusal :=
  let k := elemCount f.ty
  crossLane f [] (fun _ l j =>
    let e := l * k + j
    if 32 * k ≤ e + f.b.toNat then none else some ((e + f.b.toNat) / k, (e + f.b.toNat) % k)) s

/-- `xl.xor` (R172): element e XOR c. -/
def execXlXor (f : XlF) (s : State) :
    Host.Outcome State Fault Refusal :=
  let k := elemCount f.ty
  crossLane f [] (fun _ l j =>
    let e := l * k + j
    some ((e ^^^ f.b.toNat) / k, (e ^^^ f.b.toNat) % k)) s

/-- `xl.reorder` (R173). -/
def execXlReorder (f : XlF) (s : State) :
    Host.Outcome State Fault Refusal :=
  crossLane f [sOp f.b 3] (fun w l _ =>
    let p := (rdS w f.b.toNat).toNat + (rdS w (f.b.toNat + 1)).toNat * 2 ^ 64 + (rdS w (f.b.toNat + 2)).toNat * 2 ^ 128
    some (p / 2 ^ (5 * l) % 32, 0)) s

/-- `xl.vote` (R174). -/
def execXlVote (f : XlVoteF) (s : State) :
    Host.Outcome State Fault Refusal :=
  issue (specH f.h 8 [sOp f.d 1 true, mOp f.a] (some 4))
    (whenActive f.h (onWave (fun w => .ok (wrS w f.d.toNat ((rdM w f.a.toNat &&& activeOf w f.h.mask).zeroExtend 64))))) s

/-- `xl.any` (R174). -/
def execXlAny (f : XlVoteF) (s : State) :
    Host.Outcome State Fault Refusal :=
  issue (specH f.h 8 [mOp f.d true, mOp f.a] (some 4))
    (whenActive f.h (onWave (fun w => .ok (wrM w f.d.toNat
      (if rdM w f.a.toNat &&& activeOf w f.h.mask ≠ 0 then BitVec.allOnes 32 else 0))))) s

/-- `xl.all` (R174). -/
def execXlAll (f : XlVoteF) (s : State) :
    Host.Outcome State Fault Refusal :=
  issue (specH f.h 8 [mOp f.d true, mOp f.a] (some 4))
    (whenActive f.h (onWave (fun w => .ok (wrM w f.d.toNat
      (if rdM w f.a.toNat &&& activeOf w f.h.mask = activeOf w f.h.mask then BitVec.allOnes 32 else 0))))) s

end Sys2Proof.Machine
end

