-- ==== Sys2Proof/Machine/Device.lean ====
section
/-! DEFINITION. The device as a whole: boot, self-test, identity (R383 to R385, R387, R389, R390), power (R391), heat (R392, R393), scrubbing and row repair
(R388, R395, R396), the shared-memory boundary (R55), peer links and requests (R58, R378 to R381), time (Table 1.2). -/

set_option linter.unusedVariables false

namespace Sys2Proof.Machine

/-! ### Boot (R383, R384, R389) -/

/-- The signature of a firmware slot covers the digest of its header and image (R383). -/
def slotValid : Option Slot → Bool
  | some x => Config.mldsaVerify Config.vendorKey (Config.shake256 (bytesOf 8 x.svn ++ x.image)) x.signature
  | none => false
def slotAt (f : Flash) (i : Nat) : Option Slot := if i = 0 then f.slotA else f.slotB
/-- A valid slot that is at or above MIN_SVN, with its SVN. -/
def slotSvn (f : Flash) (minSvn i : Nat) : Option Nat :=
  match slotAt f i with
  | some x => if slotValid (some x) && decide (minSvn ≤ x.svn) then some x.svn else none
  | none => none
/-- The accepted slot: the higher SVN, slot A when they are equal. -/
def acceptSlot (f : Flash) (minSvn : Nat) : Option Nat :=
  match slotSvn f minSvn 0, slotSvn f minSvn 1 with
  | some a, some b => some (if a < b then 1 else 0)
  | some _, none => some 0
  | none, some _ => some 1
  | none, none => none

def failBoot (s : State) (code : Nat) : State := { s with boot := { s.boot with state := .failed, fail := code } }

/-- A boot state's number, and the boot status register (Table 25.2). -/
def BootState.code : BootState → Nat
  | .reset => 0
  | .rom => 1
  | .selfTest => 2
  | .ready => 3
  | .failed => 4
def bootStatus (b : Boot) : Word := packBits 64 [(0, 3, b.state.code), (8, 8, b.fail), (16, 8, b.slot), (24, 8, b.svn)]
/-- What the PF's vendor-specific extended capability shows in configuration space in every boot state: the vendor ID and boot_status
(R384, R385). -/
def dvsec (s : State) : BitVec 16 × Word := (Config.vendorId, bootStatus s.boot)

/-- PERST_RELEASE (R383, R386, R389): the first step starts the ROM, STATE 1; the second is the ROM's end: it derives the identity, verifies
slots and configuration and starts the management processor. -/
def execPerstRelease (s : State) : Host.Outcome State Fault Refusal :=
  if s.boot.state = .reset then .next { s with power := .d0, boot := { state := .rom } }
  else if s.boot.state ≠ .rom then .next s
  else
    let seed := Config.pufSeed s.flash.helper
    let ident := Config.deriveKey seed 0
    let cfg := Config.deriveKey seed 1
    let s : State := { s with boot := { state := .rom, cfgPriv := cfg.1, cfgPub := cfg.2 } }
    if !slotValid s.flash.slotA && !slotValid s.flash.slotB then .next (failBoot s 1)
    else match cfgCurrent cfg.2 s.flash with
      | none => .next (failBoot s 3)
      | some r => match acceptSlot s.flash r.minSvn with
        | none => .next (failBoot s 2)
        | some i =>
          let x := (slotAt s.flash i).getD {}
          let digest := Config.shake256 x.image
          let al := Config.deriveKey (Config.shake256 (bytesOf 32 seed.toNat ++ bytesOf 32 digest.toNat)) 2
          let cert := Config.mldsaSign ident.1 (Config.shake256 (bytesOf 32 al.2.toNat ++ bytesOf 32 cfg.2.toNat))
          .next { s with boot := { state := .selfTest, fail := 0, slot := i, svn := x.svn % 256, digest := digest, aliasPriv := al.1, aliasPub := al.2,
                                   cfgPriv := cfg.1, cfgPub := cfg.2, cert := cert } }

/-- The cores after self-test (R13, R387): units that the record retires or the test finds faulty, 256 + q being quad q's spare; numbers the
record gives to spares stay with them; other retired cores take their quad's spare, or go out. A spare that the test finds faulty while it
serves no number counts as used: SPARE_FREE of its quad reads 0, on which Table 1.6 is silent (DESIGN CHOICE, log 82). -/
def retireCores (s : State) (units spared : List Nat) : State :=
  let keep := spared.filter (fun c => units.contains c && !units.contains (256 + c / 32))
  let dead := (units.filter (fun u => decide (256 ≤ u) && decide (u < 264))).map (· - 256)
  ((units.filter (fun u => decide (u < 256) && !keep.contains u))).foldl (fun s c => (retireCore s c).1)
    { s with coresOut := [], coresMoved := keep, sparesUsed := addNew dead (keep.map (· / 32)) }

/-- SELF_TEST (R384, R387): what the record retires and what the test finds faulty is retired, marked channels with it; the capability
registers are set, the updated record is written, STATE is READY; FAIL is 4 when no core or no channel is left, the record written all the
same. -/
def execSelfTest (s : State) : Host.Outcome State Fault Refusal :=
  if s.boot.state ≠ .selfTest then .next s
  else
    let r := (cfgCurrent s.boot.cfgPub s.flash).getD {}
    let t := s.input.found
    let s := retireCores { s with rowsSpare := r.rows, channelsMarked := [] } (addNew (addNew [] r.cores) t.cores) r.spares
    let s : State := { s with channelsOut := (addNew (addNew (addNew [] r.channels) r.marked) t.channels).filter (fun c => decide (c < 128)),
                              lanesOut := (addNew (addNew [] r.lanes) t.lanes).filter (fun l => decide (l < 48)) }
    let caps := capsOf s
    let s := writeConfig { s with caps := caps }
    if bitsAt caps.dev 16 9 = 0 ∨ 128 ≤ s.channelsOut.length then .next (failBoot s 4)
    else .next { s with boot := { s.boot with state := .ready } }

/-- ATTESTATION_REQUEST with the input's nonce (R390): nonce, image digest, SVN, SLOT, digest of the valid record, alias certificate, and a
signature over them. -/
def execAttestationRequest (s : State) : Host.Outcome State Fault Refusal :=
  if s.boot.state ≠ .ready ∧ s.boot.state ≠ .selfTest then .next s
  else
    let b := s.boot
    let cfg := ((cfgCurrent b.cfgPub s.flash).map cfgDigest).getD 0
    let fields : List (BitVec 256) := [s.input.nonce, b.digest, BitVec.ofNat 256 b.svn, BitVec.ofNat 256 b.slot, cfg, b.cert]
    let sig := Config.mldsaSign b.aliasPriv (Config.shake256 (fields.flatMap (fun x => bytesOf 32 x.toNat)))
    .next (Outward.put s (.attestation (fields ++ [sig])))

/-- What stands outside the device's power: flash, the host's memory, the peers', and the schedule of turns. -/
def powerOff (s : State) : State :=
  { State.reset with
    flash := s.flash, host := s.host, peer := s.peer, agenda := s.agenda, input := s.input, fresh := s.fresh, draw := s.draw
    outward := s.outward }

/-- PERST_ASSERT (Table 25.2): the device is back in reset. -/
def execPerstAssert (s : State) : Host.Outcome State Fault Refusal := .next (powerOff s)

/-! ### Power (R391) -/

/-- A core with the registers of Tables 19.2 to 19.4 as they are, and nothing else. -/
def Core.configured (c : Core) : Core :=
  { gatherM1 := c.gatherM1, quantumM1 := c.quantumM1, starveM1 := c.starveM1, part := c.part, spawnP := c.spawnP, contP := c.contP, copyP := c.copyP,
    readyP := c.readyP }
/-- What D3hot keeps (Table 25.3): shared memory, external memory, the time counter and the configuration, which is what the functions'
registers, the management commands, the device's registers and self-test have set; with it what stands outside the device. The cycle counter goes
on, the cores' event counters start again from 0 (log 84). -/
def d3hotKept (s : State) : State :=
  { powerOff s with
    cycle := s.cycle, time := s.time, ext := s.ext, shm := s.shm, shmTags := s.shmTags, shmSteps := s.shmSteps, poison := s.poison
    roots := s.roots, kds := s.kds, caps := s.caps, coresOut := s.coresOut, sparesUsed := s.sparesUsed, coresMoved := s.coresMoved
    channelsOut := s.channelsOut, channelsMarked := s.channelsMarked, lanesOut := s.lanesOut, rowErrors := s.rowErrors
    rowsSpare := s.rowsSpare, channelErrors := s.channelErrors
    cores := s.cores.map (fun (p : Nat × Core) => (p.1, p.2.configured))
    nextSeq := s.nextSeq, nextGid := s.nextGid, nextJoin := s.nextJoin, nextXfer := s.nextXfer, tickets := s.tickets, nextBatch := s.nextBatch
    rings := s.rings, streams := s.streams, funcs := s.funcs, vecUnmasked := s.vecUnmasked, vecPending := s.vecPending, devCfg := s.devCfg
    budgets := s.budgets, uses := s.uses
    outputs := s.outputs.map (fun (p : Nat × Output) =>
      (p.1, { bound := p.2.bound, desc := p.2.desc, tenant := p.2.tenant, func := p.2.func, seq := p.2.seq, base := p.2.base }))
    domain := s.domain, boot := s.boot, thermalTrip := s.thermalTrip, nextYield := s.nextYield, lastBalance := s.lastBalance }

/-- D3HOT_ENTRY: every ring that is not DISABLED is killed as QUEUE_KILL does, timetables are dropped, clocks stop, and what Table 25.3 does
not list is gone. -/
def execD3hotEntry (s : State) : Host.Outcome State Fault Refusal :=
  if !hostOpen s then .next s
  else
    let gs := (s.rings.filter (fun p => p.2.state != .disabled)).map (·.1)
    let s := gs.foldl (fun s g => endKill (killRing (s.modRing g (fun q => { q with state := .killing })) g) g) s
    .next { d3hotKept s with power := .d3hot }
/-- D0_RETURN: the functions' registers are as they were, with all rings DISABLED. -/
def execD0Return (s : State) : Host.Outcome State Fault Refusal :=
  if s.power ≠ .d3hot then .next s
  else .next { s with power := .d0, rings := s.rings.map (fun (p : Nat × Ring) => (p.1, { p.2 with state := .disabled })) }
/-- D3COLD_ENTRY: nothing is kept. With the flag power is lost while the record is being written: the copy that was the target is no longer
valid, and the other stays (R387; log 87). -/
def execD3coldEntry (s : State) : Host.Outcome State Fault Refusal :=
  let s : State := if s.input.flag && (s.boot.state == .selfTest || s.boot.state == .ready) then tearConfig s else s
  .next { (powerOff s) with power := .d3cold }

/-! ### Heat (R392, R393) -/

/-- Every cause of Table 17.7 (R298). -/
def allCauses : List Cause :=
  [.illegalOpcode, .reservedField, .regRange, .privilege, .stallUndersized, .laneInactiveRead, .branchDivergent, .breakpoint, .misaligned,
   .addressRange, .pageNotPresent, .pagePermission, .tagMisuse, .atomicTarget, .eccUncorrectable, .claimDeadlock, .spawnOverflow, .helpCycle,
   .nestDepth, .entryInvalid, .lockState, .boInvalid, .queueInvalid, .depUnderflow, .crewUnplaceable, .qoccRefused, .illegalConvergence,
   .tokenReuse, .recordInvalid, .accHandle, .feedState, .crewMismatch, .ssmConfig, .ringState, .traversalLogFull, .binFull, .traversalState,
   .userTrap, .killed, .heartbeatLost, .recoveryFailed, .replyInvalid, .packetInvalid, .queueOverrun, .validatorDenied, .partitionRefused]
/-- An error record to the host for which the manual gives neither cause nor INFO words: a free cause of Table 17.7, free words (log 39). -/
def hostRecordFree (s : State) : State :=
  let c := s.free 392
  let x := c.2.free 1
  let y := x.2.free 2
  hostRecord y.2 { cause := allCauses.getD (c.1 % 46) .illegalOpcode, info0 := w64 x.1, info1 := w64 y.1 }

/-- The level a temperature asks for (Table 25.4); temperatures are in 1/256 degree. -/
def heatLevel (t : Nat) : Nat := if 105 * 256 ≤ t then 3 else if 100 * 256 ≤ t then 2 else if 95 * 256 ≤ t then 1 else 0
/-- Entry temperature of a level. -/
def entryTemp (l : Nat) : Nat := if l = 1 then 95 * 256 else if l = 2 then 100 * 256 else 105 * 256
/-- The throttle level after a sample (R392). -/
def nextLevel (l temp power : Nat) : Nat :=
  let up := max (heatLevel temp) (if 1200 ≤ power then min 3 (l + 1) else 0)
  if l < up then up
  else if 0 < l ∧ temp + 5 * 256 ≤ entryTemp l ∧ power < 1100 then l - 1
  else l

/-- THERMAL_SAMPLE (R392, R393) with the input's highest sensor and mean power: the level, its record, and the trip at 110 degrees. -/
def execThermalSample (s : State) : Host.Outcome State Fault Refusal :=
  let temp := s.input.value.toNat % 2 ^ 16
  let power := s.input.frac.toNat % 2 ^ 16
  let l := s.devCfg.throttle
  let n := nextLevel l temp power
  let s : State := { s with devCfg := { s.devCfg with throttle := n, tmax := temp, powerW := power } }
  let s := if n = l then s else hostRecordFree s
  if 110 * 256 ≤ temp then
    let s := killTasks s (s.tasks.map (·.1)) 2
    .next { (Outward.put (hostRecordFree s) .thermalTrip) with thermalTrip := true }
  else .next s

/-! ### Errors of memory (R388, R395, R396) -/

/-- A record of a retired or repaired unit (Table 17.7, ECC_UNCORRECTABLE of a unit; log 39). -/
def unitRecord (s : State) (unit : Nat) : State := hostRecord s { cause := .eccUncorrectable, info0 := w64 unit, info1 := 1 }

/-- A unit of error correction comes to hold an uncorrectable error (R395, R297): a 64-byte line of external memory (0), a word of shared
memory (1) (log 28). -/
def poisonUnit (s : State) (mem unit : Nat) : State := if s.poison.contains (mem, unit) then s else { s with poison := s.poison ++ [(mem, unit)] }

/-- PATROL_SCRUB (R395): all memory has been read and corrected; the rows' counts of corrected errors begin again. With the flag a word of
shared memory, the input's, is found to hold an uncorrectable error. -/
def execPatrolScrub (s : State) : Host.Outcome State Fault Refusal :=
  let s : State := { s with rowErrors := [] }
  .next (if s.input.flag then poisonUnit s 1 s.input.idx else s)

/-- Mark a channel for retirement at the next power-on (R388, R396). -/
def markChannel (s : State) (ch : Nat) : State :=
  if s.channelsMarked.contains ch then s else unitRecord (writeConfig { s with channelsMarked := s.channelsMarked ++ [ch] }) ch
/-- ROW_REPAIR (R388, R396): a corrected error in a row (input's channel and row), or with the flag an uncorrectable one in the channel, in
the input's line. The sixteenth moves the row to a spare row; a channel that has used all its spare rows, or with a second uncorrectable
error, is marked for retirement. The copy changes no byte, and memory is in use, and its rows counted, only in READY (R384). -/
def execRowRepair (s : State) : Host.Outcome State Fault Refusal :=
  let ch := s.input.who % 128
  let row := s.input.idx
  let key := ch * 2 ^ 40 + row
  if s.boot.state ≠ .ready then .next s
  else if s.input.flag then
    let n := kget 0 ch s.channelErrors + 1
    let s : State := { poisonUnit s 0 row with channelErrors := kset ch n s.channelErrors }
    .next (if 2 ≤ n then markChannel s ch else s)
  else
    let n := kget 0 key s.rowErrors + 1
    if n < 16 then .next { s with rowErrors := kset key n s.rowErrors }
    else
      let s : State := { s with rowErrors := kdel key s.rowErrors }
      let used := (s.rowsSpare.filter (fun p => p.1 = ch)).length
      if used < Config.spareRows ch then
        let s := unitRecord (writeConfig { s with rowsSpare := s.rowsSpare ++ [(ch, row)] }) ch
        .next (if Config.spareRows ch ≤ used + 1 then markChannel s ch else s)
      else .next (markChannel s ch)

/-! ### Shared memory (R55) -/

/-- A tenant whose tables have a valid leaf for a step of the addressable part. -/
def mapsStep (s : State) (lo : Nat) : Option Nat :=
  (s.roots.filter (fun r => r.2 ≠ 0)).findSome? (fun r =>
    if (List.range 6144).any (fun i =>
      let va := 0xFE000000000000 + 65536 * i
      match walk s r.1 va with
      | .leaf lv e _ =>
        let pa := pteAddr e + va % 2 ^ pageBits lv
        decide (lo < pa + 65536) && decide (pa < lo + 2 ^ 25)
      | .fail _ _ => false
      | .ecc => false) then some r.1 else none)

/-- SHARED_BOUNDARY_MOVE (R55, R322): one step of 32 MiB, to the cache part with the flag, to the addressable part without. Refused while a
tenant maps the step, or where the cache part's floor would not hold. A step that comes back holds the bytes and tags it left with (log 93). -/
def execSharedBoundaryMove (s : State) : Host.Outcome State Fault Refusal :=
  if s.input.flag then
    (if s.shmSteps = 0 then .next s
     else match mapsStep s (2 ^ 25 * s.shmSteps) with
      | some t => .next (hostRecord s { cause := .partitionRefused, tenant := t, info0 := w64 (s.shmSteps - 1), info1 := w64 t })
      | none => .next { s with shmSteps := s.shmSteps - 1 })
  else if s.shmSteps < 10 then
    (let t : State := { s with shmSteps := s.shmSteps + 1 }
     if segFits t 0 then .next t else .next s)
  else .next s

/-! ### Peers (R58, R378 to R381) -/

/-- FLIT_RETRY (R378): programs see it only as time. -/
def execFlitRetry (s : State) : Host.Outcome State Fault Refusal := .next s

/-- PEER_LANE_RETIRE of the input's lane, at run time (R15, R17, R388): the record, the capability registers, the report; a port whose last
lane goes is absent, and members it alone led to leave the mask (R380). Before READY lanes are retired by self-test (R387). -/
def execPeerLaneRetire (s : State) : Host.Outcome State Fault Refusal :=
  let l := s.input.who % 48
  if s.lanesOut.contains l || s.boot.state != .ready then .next s
  else
    let s : State := { s with lanesOut := s.lanesOut ++ [l] }
    .next (loseMembers (unitRecord (writeConfig { s with caps := capsOf s }) l))

/-- DOMAIN_MEMBER_LOSS of the input's member (R380): the routes to it are lost beyond this device's own lanes; it leaves the mask, and later
accesses to its window raise ADDRESS_RANGE. -/
def execDomainMemberLoss (s : State) : Host.Outcome State Fault Refusal :=
  let d := s.input.who % 64
  if !s.domain.members.getLsbD d then .next s
  else .next (loseMembers { s with domain := { s.domain with routes := kset d 0 s.domain.routes } })

/-- A fault of a peer's request, returned to its issuer with this device's index (R58, Table 17.7). -/
def peerFail (s : State) (m : Nat) (e : Fail) : State := Outward.put s (.peerFault m e.cause (peerInfo s.domain.self e))

/-- PEER_REQUEST (R58, R381): translated with the matching tenant's tables and performed at the bank; the reply carries the value read. -/
def execPeerRequest (s : State) : Host.Outcome State Fault Refusal :=
  let q := s.input.req
  if !s.domain.members.getLsbD q.member then .next s
  else match domainTenant s q.tenant with
    | none => .next (peerFail s q.member (notPresent (peerAddr q.offset) 1 false false))
    | some t =>
      let who : Who := { tenant := t }
      let va := peerAddr q.offset
      match q.op with
      | .load n => match checkOne s who va n n { rd := true } .plain with
        | .error e => .next (peerFail s q.member e)
        | .ok l => .next (Outward.put (touch s t va false) (.peerReply q.member (w64 (rdN s l n))))
      | .store n v => match checkOne s who va n n { wr := true } .plain with
        | .error e => .next (peerFail s q.member e)
        | .ok l => .next (Outward.put (wrN (touch s t va true) l n v.toNat) (.peerReply q.member 0))
      | .atom op ty v w =>
        let n := ty.width / 8
        match checkOne s who va n n { rd := true, wr := true } .plain with
        | .error e => .next (peerFail s q.member e)
        | .ok l =>
          let old := rdN s l n
          let r := atLanes op ty old [(v.toNat % 2 ^ ty.width, w.toNat % 2 ^ ty.width)]
          let s := touch s t va r.wrote
          .next (Outward.put (if r.wrote then wrN s l n r.mem else s) (.peerReply q.member (w64 old)))

/-! ### Time -/

/-- PPS_AND_TIME_OF_DAY_INPUT (Table 1.2): the time counter comes up to the input's nanoseconds and fraction; it never goes back, so that no
wave reads a smaller time second (R182). -/
def execPpsAndTimeOfDayInput (s : State) : Host.Outcome State Fault Refusal :=
  .next { s with time := max s.time (s.input.value.toNat * 2 ^ 32 + s.input.frac.toNat) }

end Sys2Proof.Machine
end

