-- ==== Sys2Proof/Machine/Reduce.lean ====
section
/-! DEFINITION. Class 5, lane reductions and scans (R175, R109). -/

set_option linter.unusedVariables false

namespace Sys2Proof.Machine

/-- The operands of sub-element j of every lane, absent outside Active (R109). -/
def laneVals (w : Wave) (act : LaneMask) (env : FEnv) (t : Ty) (a j : Nat) : List (Option Nat) :=
  (List.range 32).map (fun l => if act.getLsbD l then some (rIn env t (elemOf t (rdV w a l) j)) else none)

/-- `red.lane` (R175): each sub-element position reduced by the tree of R109 into S[d]. -/
def redLane (op : ROp) (h : Hd) (d a : Field11) (t : Ty) (r : Rmo) (s : State) : Host.Outcome State Fault Refusal :=
  issue (specH h 8 [sOp d 1 true, vOp a] (some 16))
    (whenActive h (onWave (fun w =>
      let env := envOf w.mode r
      .ok (wrS w d.toNat (elemsOf t (fun j =>
        rOut env t ((treeReduce (rComb op env t) (laneVals w (activeOf w h.mask) env t a.toNat j)).getD 0))))))) s

/-- `scan.lane` (R175): the inclusive or exclusive scan of R109 into each lane of Active. -/
def scanLane (ex : Bool) (op : ROp) (h : Hd) (d a : Field11) (t : Ty) (r : Rmo) (s : State) : Host.Outcome State Fault Refusal :=
  issue (specH h 8 [vOp d 1 true, vOp a] (some 16))
    (onWave (fun w =>
      let env := envOf w.mode r
      let act := activeOf w h.mask
      let cols := (List.range (elemCount t)).map (fun j =>
        let incl := scanIncl (rComb op env t) (laneVals w act env t a.toNat j)
        if ex then scanExcl ((List.range 32).map act.getLsbD) (rIdent op t) incl else incl)
      .ok (wrLanes w d.toNat act (fun l => elemsOf t (fun j => rOut env t (((cols.getD j []).getD l none).getD 0)))))) s

/-- `red.lane.add` (R175, R109). -/
def execRedLaneAdd (f : RedAddF) (s : State) :
    Host.Outcome State Fault Refusal :=
  redLane .add f.h f.d f.a f.ty f.rmo s

/-- `red.lane.min` (R175, R109). -/
def execRedLaneMin (f : VUnF) (s : State) :
    Host.Outcome State Fault Refusal :=
  redLane .min f.h f.d f.a f.ty .mode s

/-- `red.lane.max` (R175, R109). -/
def execRedLaneMax (f : VUnF) (s : State) :
    Host.Outcome State Fault Refusal :=
  redLane .max f.h f.d f.a f.ty .mode s

/-- `red.lane.and` (R175, R109). -/
def execRedLaneAnd (f : VUnF) (s : State) :
    Host.Outcome State Fault Refusal :=
  redLane .and f.h f.d f.a f.ty .mode s

/-- `red.lane.or` (R175, R109). -/
def execRedLaneOr (f : VUnF) (s : State) :
    Host.Outcome State Fault Refusal :=
  redLane .or f.h f.d f.a f.ty .mode s

/-- `red.lane.xor` (R175, R109). -/
def execRedLaneXor (f : VUnF) (s : State) :
    Host.Outcome State Fault Refusal :=
  redLane .xor f.h f.d f.a f.ty .mode s

/-- `scan.lane.add` (R175, R109). -/
def execScanLaneAdd (f : RedAddF) (s : State) :
    Host.Outcome State Fault Refusal :=
  scanLane false .add f.h f.d f.a f.ty f.rmo s

/-- `scan.lane.min` (R175, R109). -/
def execScanLaneMin (f : VUnF) (s : State) :
    Host.Outcome State Fault Refusal :=
  scanLane false .min f.h f.d f.a f.ty .mode s

/-- `scan.lane.max` (R175, R109). -/
def execScanLaneMax (f : VUnF) (s : State) :
    Host.Outcome State Fault Refusal :=
  scanLane false .max f.h f.d f.a f.ty .mode s

/-- `scan.lane.and` (R175, R109). -/
def execScanLaneAnd (f : VUnF) (s : State) :
    Host.Outcome State Fault Refusal :=
  scanLane false .and f.h f.d f.a f.ty .mode s

/-- `scan.lane.or` (R175, R109). -/
def execScanLaneOr (f : VUnF) (s : State) :
    Host.Outcome State Fault Refusal :=
  scanLane false .or f.h f.d f.a f.ty .mode s

/-- `scan.lane.xor` (R175, R109). -/
def execScanLaneXor (f : VUnF) (s : State) :
    Host.Outcome State Fault Refusal :=
  scanLane false .xor f.h f.d f.a f.ty .mode s

/-- `scan.lane.add.ex` (R175, R109). -/
def execScanLaneAddEx (f : RedAddF) (s : State) :
    Host.Outcome State Fault Refusal :=
  scanLane true .add f.h f.d f.a f.ty f.rmo s

/-- `scan.lane.min.ex` (R175, R109). -/
def execScanLaneMinEx (f : VUnF) (s : State) :
    Host.Outcome State Fault Refusal :=
  scanLane true .min f.h f.d f.a f.ty .mode s

/-- `scan.lane.max.ex` (R175, R109). -/
def execScanLaneMaxEx (f : VUnF) (s : State) :
    Host.Outcome State Fault Refusal :=
  scanLane true .max f.h f.d f.a f.ty .mode s

/-- `scan.lane.and.ex` (R175, R109). -/
def execScanLaneAndEx (f : VUnF) (s : State) :
    Host.Outcome State Fault Refusal :=
  scanLane true .and f.h f.d f.a f.ty .mode s

/-- `scan.lane.or.ex` (R175, R109). -/
def execScanLaneOrEx (f : VUnF) (s : State) :
    Host.Outcome State Fault Refusal :=
  scanLane true .or f.h f.d f.a f.ty .mode s

/-- `scan.lane.xor.ex` (R175, R109). -/
def execScanLaneXorEx (f : VUnF) (s : State) :
    Host.Outcome State Fault Refusal :=
  scanLane true .xor f.h f.d f.a f.ty .mode s

end Sys2Proof.Machine
end

