-- ==== Sys2Proof/Machine/Tagged.lean ====
section
/-! DEFINITION. Class 8, tagged loads and stores (R67, R198 to R201). -/

set_option linter.unusedVariables false

namespace Sys2Proof.Machine

/-- What a tagged instruction does at a lane (Table 13.4): whether it waits and for which state, the tag it leaves, whether it reads data
or writes it. -/
structure TagOp where
  need : Option Bool
  after : Option Bool
  reads : Bool
  writes : Bool
  deriving DecidableEq, Repr

/-- Perform one lane (R198, R199). -/
def tagPerform (o : TagOp) (d b : Nat) (m : MemW) (s : State) (k : Nat) (l : Nat) (at_ : Loc) : State :=
  let n := m.ty.width / 8
  match s.wave? k with
  | none => s
  | some w =>
    let w' := if o.reads then wrV w d l (extTy m.ty (rdN s at_ n)) else w
    let s := s.setWave k { w' with done := w.done ||| maskOf (fun x => x == l) }
    let s := if o.writes then wrN s at_ n (rdV w b l).toNat else s
    match o.after with
    | none => s
    | some t => if n = 8 then wrTag (wrTag s at_ t) (at_.plus 4) t else wrTag s at_ t

/-- The loop of R199 over lanes (lane, address, place): each is performed, or the wave waits at it (R200). -/
def tagLoop (o : TagOp) (d b : Nat) (m : MemW) (k : Nat) : List (Nat × Nat × Loc) → State → Res
  | [], s =>
    if o.need.isSome then .ok (semAcquire (s.modWave k (fun w => endHelp w 0)) k m) else .ok (semAcquire s k m)
  | p :: r, s =>
    match s.wave? k with
    | none => .ok s
    | some w =>
      if w.done.getLsbD p.1 then tagLoop o d b m k r s
      else
        let two := decide (m.ty.width = 64)
        let go := tagLoop o d b m k r (tagPerform o d b m (touch s (tenantOf s k) p.2.1 (o.after.isSome || o.writes)) k p.1 p.2.2)
        match o.need with
        | none => go
        | some need =>
          if tagsAre s p.2.2 two need then go
          else match waitEnd s k w .tag p.2.1 with
            | some code => .ok (semAcquire ((sweepEnd s k w p.2.1).modWave k (fun w => endHelp w code)) k m)
            | none => helpWait s k .tag (w64 (p.2.1 + (if need then 2 ^ 56 else 0) + (if two then 2 ^ 57 else 0)))

/-- A tagged instruction (R199): the checks over all lanes first; where it issues again inside its Block, over the lanes it has still to
perform, whose registers hold what they held at issue (R6). -/
def tagBody (o : TagOp) (need : Need) (d b a : Field11) (m : MemW) (h : Hd) (off : Off) (s : State) (k : Nat) (w : Wave) : Res :=
  let n := m.ty.width / 8
  match checkLanes s (whoOf s k) ((laneAddrs w h.mask a off).filter (fun p => !w.done.getLsbD p.1)) n n need .tagged with
  | .error t => .trap t s
  | .ok ls => if activeOf w h.mask = 0 then .ok (semAcquire s k m) else tagLoop o d.toNat b.toNat m k ls s

/-- `tag.get` (Table 13.4, R201): 1 when full. -/
def tagGetBody (d a : Field11) (m : MemW) (h : Hd) (off : Off) (s : State) (k : Nat) (w : Wave) : Res :=
  match checkLanes s (whoOf s k) (laneAddrs w h.mask a off) 4 4 needRd .tagged with
  | .error t => .trap t s
  | .ok ls =>
    let w' := ls.foldl (fun (w : Wave) p => wrV w d.toNat p.1 (if rdTag s p.2.2 then 1 else 0)) w
    .ok (semAcquire (touchLanes (s.setWave k w') (tenantOf s k) ls false) k m)

/-- `tag.set` (Table 13.4, R201): the highest lane stands. -/
def tagSetBody (b a : Field11) (m : MemW) (h : Hd) (off : Off) (s : State) (k : Nat) (w : Wave) : Res :=
  match checkLanes s (whoOf s k) (laneAddrs w h.mask a off) 4 4 needWr .tagged with
  | .error t => .trap t s
  | .ok ls => .ok (ls.foldl (fun s p => wrTag s p.2.2 ((rdV w b.toNat p.1).getLsbD 0)) (touchLanes s (tenantOf s k) ls true))

/-- `ld.wf` (Table 13.4). -/
def execLdWf (f : LdF) (s : State) :
    Host.Outcome State Fault Refusal :=
  issue (specM f.h (offLen f.off) [vOp f.d 1 true, vOp f.a])
    (tagBody { need := some true, after := none, reads := true, writes := false } needRd f.d 0 f.a f.mem f.h f.off) s

/-- `ld.wfe` (Table 13.4). -/
def execLdWfe (f : LdF) (s : State) :
    Host.Outcome State Fault Refusal :=
  issue (specM f.h (offLen f.off) [vOp f.d 1 true, vOp f.a])
    (tagBody { need := some true, after := some false, reads := true, writes := false } needRw f.d 0 f.a f.mem f.h f.off) s

/-- `st.we` (Table 13.4). -/
def execStWe (f : StF) (s : State) :
    Host.Outcome State Fault Refusal :=
  issue (specM f.h (offLen f.off) [vOp f.a, vOp f.b])
    (tagBody { need := some false, after := some true, reads := false, writes := true } needRw 0 f.b f.a f.mem f.h f.off) s

/-- `st.f` (Table 13.4). -/
def execStF (f : StF) (s : State) :
    Host.Outcome State Fault Refusal :=
  issue (specM f.h (offLen f.off) [vOp f.a, vOp f.b])
    (tagBody { need := none, after := some true, reads := false, writes := true } needWr 0 f.b f.a f.mem f.h f.off) s

/-- `tag.get` (R201). -/
def execTagGet (f : LdF) (s : State) :
    Host.Outcome State Fault Refusal :=
  issue (specM f.h (offLen f.off) [vOp f.d 1 true, vOp f.a]) (tagGetBody f.d f.a f.mem f.h f.off) s

/-- `tag.set` (R201). -/
def execTagSet (f : StF) (s : State) :
    Host.Outcome State Fault Refusal :=
  issue (specM f.h (offLen f.off) [vOp f.a, vOp f.b]) (tagSetBody f.b f.a f.mem f.h f.off) s

end Sys2Proof.Machine
end

