-- ==== Sys2Proof/Machine/XaOps.lean ====
section
/-! DEFINITION. Class 5, the exact accumulator (R104 to R106, R176 to R178). -/

set_option linter.unusedVariables false

namespace Sys2Proof.Machine

/-- One term added to `xa` (R105). -/
def xaTerm (x : Xa) (v : FV) : Xa :=
  match v with
  | .nan => { x with nan := true }
  | .inf false => { x with pinf := true }
  | .inf true => { x with ninf := true }
  | .fin s n e =>
    let r := xaPut (xaInt x.x) (sgn s (n * 2 ^ (e + 1074).toNat))
    { x with x := r.1, ovf := x.ovf || r.2 }

/-- Terms of every sub-element of every lane of Active, lanes and then sub-elements ascending (R177): the order decides OVF where a partial sum
leaves the range (log 94). -/
def xaTerms (w : Wave) (act : LaneMask) (t : Ty) (f : Nat → Nat → FV) : Wave :=
  { w with xa := ((lanesOf act).flatMap (fun l => (List.range (elemCount t)).map (f l))).foldl xaTerm w.xa }

/-- An integer or floating-point element as an exact value (R177); DAZ has no effect (R102). -/
def xaVal (t : Ty) (x : Nat) : FV := if t.isF then fdec (fmtOf t) x else FV.ofInt (readInt t x)

/-- Chunk c of X, or the flag word (R178). -/
def xaChunk (x : Xa) (c : Nat) : Nat :=
  if c < 34 then bitsAt x.x (64 * c) 64
  else (if x.nan then 1 else 0) + (if x.pinf then 2 else 0) + (if x.ninf then 4 else 0) + (if x.ovf then 8 else 0)

/-- Replace chunk c of X, or the flags (R178). -/
def xaSetChunk (x : Xa) (c : Nat) (v : Word) : Xa :=
  if c < 34 then
    { x with x := BitVec.ofNat 2176 (x.x.toNat - bitsAt x.x (64 * c) 64 * 2 ^ (64 * c) + v.toNat * 2 ^ (64 * c)) }
  else { x with nan := v.getLsbD 0, pinf := v.getLsbD 1, ninf := v.getLsbD 2, ovf := v.getLsbD 3 }

/-- The rounding of R106. -/
def xaRound (x : Xa) (t : Ty) (rm : Rm) (sat : Bool) : Nat :=
  let f := fmtOf t
  let i := xaInt x.x
  fround f rm sat
    (if x.nan || x.ovf || (x.pinf && x.ninf) then .nan
     else if x.pinf then .inf false
     else if x.ninf then .inf true
     else if i = 0 then .fin false 0 0
     else .fin (decide (i < 0)) i.natAbs (-1074))

/-- `xa.clr` (R104). -/
def execXaClr (f : XaClrF) (s : State) :
    Host.Outcome State Fault Refusal :=
  issue (specH f.h 8 [] (some 1)) (whenActive f.h (onWave (fun w => .ok { w with xa := {} }))) s

/-- `xa.add` (R177). -/
def execXaAdd (f : XaAddF) (s : State) :
    Host.Outcome State Fault Refusal :=
  issue (specH f.h 8 [vOp f.a] (some 1))
    (whenActive f.h (onWave (fun w => .ok (xaTerms w (activeOf w f.h.mask) f.ty (fun l j =>
      xaVal f.ty (elemOf f.ty (rdV w f.a.toNat l) j)))))) s

/-- `xa.mac` (R177): exact products. -/
def execXaMac (f : XaMacF) (s : State) :
    Host.Outcome State Fault Refusal :=
  issue (specH f.h 8 [vOp f.a, vOp f.b] (some 1))
    (whenActive f.h (onWave (fun w => .ok (xaTerms w (activeOf w f.h.mask) f.ty (fun l j =>
      fmulv (xaVal f.ty (elemOf f.ty (rdV w f.a.toNat l) j)) (xaVal f.ty (elemOf f.ty (rdV w f.b.toNat l) j))))))) s

/-- `xa.rnd` (R178, R106); FTZ does not apply (R102). -/
def execXaRnd (f : XaRndF) (s : State) :
    Host.Outcome State Fault Refusal :=
  issue (specH f.h 8 [sOp f.d 1 true] (some 12))
    (whenActive f.h (onWave (fun w => .ok (wrS w f.d.toNat (w64 (xaRound w.xa f.ty (rmSel w.mode f.rmo) f.sat)))))) s

/-- `xa.get` (R178). -/
def execXaGet (f : XaGetF) (s : State) :
    Host.Outcome State Fault Refusal :=
  issue (specH f.h 8 [sOp f.d 1 true] (some 12))
    (whenActive f.h (onWave (fun w => .ok (wrS w f.d.toNat (w64 (xaChunk w.xa f.c.toNat)))))) s

/-- `xa.set` (R178). -/
def execXaSet (f : XaSetF) (s : State) :
    Host.Outcome State Fault Refusal :=
  issue (specH f.h 8 [sOp f.a] (some 1))
    (whenActive f.h (onWave (fun w => .ok { w with xa := xaSetChunk w.xa f.c.toNat (rdS w f.a.toNat) }))) s

/-- `xa.merge` (R178): 34 chunks and the flag word from S[a] upwards. -/
def execXaMerge (f : XaMergeF) (s : State) :
    Host.Outcome State Fault Refusal :=
  issue (specH f.h 8 [sOp f.a 35] (some 1))
    (whenActive f.h (onWave (fun w =>
      let y : Nat := (List.range 34).foldr (fun i acc => (rdS w (f.a.toNat + i)).toNat + 2 ^ 64 * acc) 0
      let fl := rdS w (f.a.toNat + 34)
      let r := xaPut (xaInt w.xa.x) (BitVec.ofNat 2176 y).toInt
      .ok { w with xa := { x := r.1, nan := w.xa.nan || fl.getLsbD 0, pinf := w.xa.pinf || fl.getLsbD 1,
                           ninf := w.xa.ninf || fl.getLsbD 2, ovf := w.xa.ovf || r.2 || fl.getLsbD 3 } }))) s

end Sys2Proof.Machine
end

