-- ==== Sys2Proof/Machine/Dispatch.lean ====
section
/-! DEFINITION. The one match that sends every instruction and every device step to its meaning. -/

namespace Sys2Proof.Machine

def exec (i : Instr) (s : State) : Host.Outcome State Fault Refusal :=
  match i with
  | .br f => Sys2Proof.Machine.execBr f s
  | .brDiv f => Sys2Proof.Machine.execBrDiv f s
  | .brEj f => Sys2Proof.Machine.execBrEj f s
  | .brx f => Sys2Proof.Machine.execBrx f s
  | .call f => Sys2Proof.Machine.execCall f s
  | .ret f => Sys2Proof.Machine.execRet f s
  | .rejoin f => Sys2Proof.Machine.execRejoin f s
  | .brk f => Sys2Proof.Machine.execBrk f s
  | .exit f => Sys2Proof.Machine.execExit f s
  | .nop f => Sys2Proof.Machine.execNop f s
  | .scalarAdd f => Sys2Proof.Machine.execScalarAdd f s
  | .scalarSub f => Sys2Proof.Machine.execScalarSub f s
  | .scalarMul f => Sys2Proof.Machine.execScalarMul f s
  | .scalarMulhi f => Sys2Proof.Machine.execScalarMulhi f s
  | .scalarDiv f => Sys2Proof.Machine.execScalarDiv f s
  | .scalarRem f => Sys2Proof.Machine.execScalarRem f s
  | .scalarMin f => Sys2Proof.Machine.execScalarMin f s
  | .scalarMax f => Sys2Proof.Machine.execScalarMax f s
  | .scalarAnd f => Sys2Proof.Machine.execScalarAnd f s
  | .scalarOr f => Sys2Proof.Machine.execScalarOr f s
  | .scalarXor f => Sys2Proof.Machine.execScalarXor f s
  | .scalarNot f => Sys2Proof.Machine.execScalarNot f s
  | .scalarShl f => Sys2Proof.Machine.execScalarShl f s
  | .scalarShr f => Sys2Proof.Machine.execScalarShr f s
  | .scalarCmp f => Sys2Proof.Machine.execScalarCmp f s
  | .scalarSel f => Sys2Proof.Machine.execScalarSel f s
  | .scalarMov f => Sys2Proof.Machine.execScalarMov f s
  | .scalarClz f => Sys2Proof.Machine.execScalarClz f s
  | .scalarPopc f => Sys2Proof.Machine.execScalarPopc f s
  | .vectorAdd f => Sys2Proof.Machine.execVectorAdd f s
  | .vectorSub f => Sys2Proof.Machine.execVectorSub f s
  | .vectorMul f => Sys2Proof.Machine.execVectorMul f s
  | .vectorMulhi f => Sys2Proof.Machine.execVectorMulhi f s
  | .vectorMin f => Sys2Proof.Machine.execVectorMin f s
  | .vectorMax f => Sys2Proof.Machine.execVectorMax f s
  | .vectorAbs f => Sys2Proof.Machine.execVectorAbs f s
  | .vectorNeg f => Sys2Proof.Machine.execVectorNeg f s
  | .vectorAnd f => Sys2Proof.Machine.execVectorAnd f s
  | .vectorOr f => Sys2Proof.Machine.execVectorOr f s
  | .vectorXor f => Sys2Proof.Machine.execVectorXor f s
  | .vectorNot f => Sys2Proof.Machine.execVectorNot f s
  | .vectorShl f => Sys2Proof.Machine.execVectorShl f s
  | .vectorShr f => Sys2Proof.Machine.execVectorShr f s
  | .vectorCmp f => Sys2Proof.Machine.execVectorCmp f s
  | .vectorSel f => Sys2Proof.Machine.execVectorSel f s
  | .vectorMov f => Sys2Proof.Machine.execVectorMov f s
  | .vectorClz f => Sys2Proof.Machine.execVectorClz f s
  | .vectorPopc f => Sys2Proof.Machine.execVectorPopc f s
  | .brev f => Sys2Proof.Machine.execBrev f s
  | .bfe f => Sys2Proof.Machine.execBfe f s
  | .madI32 f => Sys2Proof.Machine.execMadI32 f s
  | .madN32 f => Sys2Proof.Machine.execMadN32 f s
  | .madI64 f => Sys2Proof.Machine.execMadI64 f s
  | .madN64 f => Sys2Proof.Machine.execMadN64 f s
  | .fpAdd f => Sys2Proof.Machine.execFpAdd f s
  | .fpSub f => Sys2Proof.Machine.execFpSub f s
  | .fpMul f => Sys2Proof.Machine.execFpMul f s
  | .fpMin f => Sys2Proof.Machine.execFpMin f s
  | .fpMax f => Sys2Proof.Machine.execFpMax f s
  | .fpAbs f => Sys2Proof.Machine.execFpAbs f s
  | .fpNeg f => Sys2Proof.Machine.execFpNeg f s
  | .fpCmp f => Sys2Proof.Machine.execFpCmp f s
  | .rint f => Sys2Proof.Machine.execRint f s
  | .copysign f => Sys2Proof.Machine.execCopysign f s
  | .fclass f => Sys2Proof.Machine.execFclass f s
  | .ldexp f => Sys2Proof.Machine.execLdexp f s
  | .fmaF64 f => Sys2Proof.Machine.execFmaF64 f s
  | .fmaF32 f => Sys2Proof.Machine.execFmaF32 f s
  | .fmaF16 f => Sys2Proof.Machine.execFmaF16 f s
  | .fmaBf16 f => Sys2Proof.Machine.execFmaBf16 f s
  | .fnmaF64 f => Sys2Proof.Machine.execFnmaF64 f s
  | .fnmaF32 f => Sys2Proof.Machine.execFnmaF32 f s
  | .fnmaF16 f => Sys2Proof.Machine.execFnmaF16 f s
  | .fnmaBf16 f => Sys2Proof.Machine.execFnmaBf16 f s
  | .cvt f => Sys2Proof.Machine.execCvt f s
  | .pack f => Sys2Proof.Machine.execPack f s
  | .unpack f => Sys2Proof.Machine.execUnpack f s
  | .cbDec f => Sys2Proof.Machine.execCbDec f s
  | .xlGet f => Sys2Proof.Machine.execXlGet f s
  | .xlBcast f => Sys2Proof.Machine.execXlBcast f s
  | .xlShup f => Sys2Proof.Machine.execXlShup f s
  | .xlShdn f => Sys2Proof.Machine.execXlShdn f s
  | .xlXor f => Sys2Proof.Machine.execXlXor f s
  | .xlReorder f => Sys2Proof.Machine.execXlReorder f s
  | .xlVote f => Sys2Proof.Machine.execXlVote f s
  | .xlAny f => Sys2Proof.Machine.execXlAny f s
  | .xlAll f => Sys2Proof.Machine.execXlAll f s
  | .redLaneAdd f => Sys2Proof.Machine.execRedLaneAdd f s
  | .redLaneMin f => Sys2Proof.Machine.execRedLaneMin f s
  | .redLaneMax f => Sys2Proof.Machine.execRedLaneMax f s
  | .redLaneAnd f => Sys2Proof.Machine.execRedLaneAnd f s
  | .redLaneOr f => Sys2Proof.Machine.execRedLaneOr f s
  | .redLaneXor f => Sys2Proof.Machine.execRedLaneXor f s
  | .scanLaneAdd f => Sys2Proof.Machine.execScanLaneAdd f s
  | .scanLaneMin f => Sys2Proof.Machine.execScanLaneMin f s
  | .scanLaneMax f => Sys2Proof.Machine.execScanLaneMax f s
  | .scanLaneAnd f => Sys2Proof.Machine.execScanLaneAnd f s
  | .scanLaneOr f => Sys2Proof.Machine.execScanLaneOr f s
  | .scanLaneXor f => Sys2Proof.Machine.execScanLaneXor f s
  | .scanLaneAddEx f => Sys2Proof.Machine.execScanLaneAddEx f s
  | .scanLaneMinEx f => Sys2Proof.Machine.execScanLaneMinEx f s
  | .scanLaneMaxEx f => Sys2Proof.Machine.execScanLaneMaxEx f s
  | .scanLaneAndEx f => Sys2Proof.Machine.execScanLaneAndEx f s
  | .scanLaneOrEx f => Sys2Proof.Machine.execScanLaneOrEx f s
  | .scanLaneXorEx f => Sys2Proof.Machine.execScanLaneXorEx f s
  | .xaClr f => Sys2Proof.Machine.execXaClr f s
  | .xaAdd f => Sys2Proof.Machine.execXaAdd f s
  | .xaMac f => Sys2Proof.Machine.execXaMac f s
  | .xaRnd f => Sys2Proof.Machine.execXaRnd f s
  | .xaGet f => Sys2Proof.Machine.execXaGet f s
  | .xaSet f => Sys2Proof.Machine.execXaSet f s
  | .xaMerge f => Sys2Proof.Machine.execXaMerge f s
  | .rcp f => Sys2Proof.Machine.execRcp f s
  | .rsqrt f => Sys2Proof.Machine.execRsqrt f s
  | .exp2 f => Sys2Proof.Machine.execExp2 f s
  | .log2 f => Sys2Proof.Machine.execLog2 f s
  | .sin f => Sys2Proof.Machine.execSin f s
  | .cos f => Sys2Proof.Machine.execCos f s
  | .fpDiv f => Sys2Proof.Machine.execFpDiv f s
  | .sqrt f => Sys2Proof.Machine.execSqrt f s
  | .trap f => Sys2Proof.Machine.execTrap f s
  | .modeSet f => Sys2Proof.Machine.execModeSet f s
  | .modeGet f => Sys2Proof.Machine.execModeGet f s
  | .timeGet f => Sys2Proof.Machine.execTimeGet f s
  | .csrGet f => Sys2Proof.Machine.execCsrGet f s
  | .yield f => Sys2Proof.Machine.execYield f s
  | .sleepUntil f => Sys2Proof.Machine.execSleepUntil f s
  | .perfGet f => Sys2Proof.Machine.execPerfGet f s
  | .ld f => Sys2Proof.Machine.execLd f s
  | .st f => Sys2Proof.Machine.execSt f s
  | .ldRo f => Sys2Proof.Machine.execLdRo f s
  | .ldS f => Sys2Proof.Machine.execLdS f s
  | .stS f => Sys2Proof.Machine.execStS f s
  | .ldL f => Sys2Proof.Machine.execLdL f s
  | .stL f => Sys2Proof.Machine.execStL f s
  | .pf f => Sys2Proof.Machine.execPf f s
  | .ldWf f => Sys2Proof.Machine.execLdWf f s
  | .ldWfe f => Sys2Proof.Machine.execLdWfe f s
  | .stWe f => Sys2Proof.Machine.execStWe f s
  | .stF f => Sys2Proof.Machine.execStF f s
  | .tagGet f => Sys2Proof.Machine.execTagGet f s
  | .tagSet f => Sys2Proof.Machine.execTagSet f s
  | .atomAdd f => Sys2Proof.Machine.execAtomAdd f s
  | .atomMin f => Sys2Proof.Machine.execAtomMin f s
  | .atomMax f => Sys2Proof.Machine.execAtomMax f s
  | .atomAnd f => Sys2Proof.Machine.execAtomAnd f s
  | .atomOr f => Sys2Proof.Machine.execAtomOr f s
  | .atomXor f => Sys2Proof.Machine.execAtomXor f s
  | .atomExch f => Sys2Proof.Machine.execAtomExch f s
  | .atomIncWrap f => Sys2Proof.Machine.execAtomIncWrap f s
  | .atomAddBound f => Sys2Proof.Machine.execAtomAddBound f s
  | .atomCas f => Sys2Proof.Machine.execAtomCas f s
  | .redAdd f => Sys2Proof.Machine.execRedAdd f s
  | .redMin f => Sys2Proof.Machine.execRedMin f s
  | .redMax f => Sys2Proof.Machine.execRedMax f s
  | .redAnd f => Sys2Proof.Machine.execRedAnd f s
  | .redOr f => Sys2Proof.Machine.execRedOr f s
  | .redXor f => Sys2Proof.Machine.execRedXor f s
  | .redIncWrap f => Sys2Proof.Machine.execRedIncWrap f s
  | .fenceAcq f => Sys2Proof.Machine.execFenceAcq f s
  | .fenceRel f => Sys2Proof.Machine.execFenceRel f s
  | .fenceAr f => Sys2Proof.Machine.execFenceAr f s
  | .fenceSc f => Sys2Proof.Machine.execFenceSc f s
  | .roInv f => Sys2Proof.Machine.execRoInv f s
  | .boInit f => Sys2Proof.Machine.execBoInit f s
  | .boExpect f => Sys2Proof.Machine.execBoExpect f s
  | .boArrive f => Sys2Proof.Machine.execBoArrive f s
  | .boWait f => Sys2Proof.Machine.execBoWait f s
  | .lockAcq f => Sys2Proof.Machine.execLockAcq f s
  | .lockTry f => Sys2Proof.Machine.execLockTry f s
  | .lockRel f => Sys2Proof.Machine.execLockRel f s
  | .dqPush f => Sys2Proof.Machine.execDqPush f s
  | .dqPop f => Sys2Proof.Machine.execDqPop f s
  | .ownSet f => Sys2Proof.Machine.execOwnSet f s
  | .ownClr f => Sys2Proof.Machine.execOwnClr f s
  | .cpIn f => Sys2Proof.Machine.execCpIn f s
  | .cpOut f => Sys2Proof.Machine.execCpOut f s
  | .cpLl f => Sys2Proof.Machine.execCpLl f s
  | .fenceRec f => Sys2Proof.Machine.execFenceRec f s
  | .mmaF64 f => Sys2Proof.Machine.execMmaF64 f s
  | .mmaF32 f => Sys2Proof.Machine.execMmaF32 f s
  | .mmaF16 f => Sys2Proof.Machine.execMmaF16 f s
  | .mmaBf16 f => Sys2Proof.Machine.execMmaBf16 f s
  | .mmaF8e4 f => Sys2Proof.Machine.execMmaF8e4 f s
  | .mmaF8e5 f => Sys2Proof.Machine.execMmaF8e5 f s
  | .mmaI8 f => Sys2Proof.Machine.execMmaI8 f s
  | .mmaCb4 f => Sys2Proof.Machine.execMmaCb4 f s
  | .mmaCrewF64 f => Sys2Proof.Machine.execMmaCrewF64 f s
  | .mmaCrewF32 f => Sys2Proof.Machine.execMmaCrewF32 f s
  | .mmaCrewF16 f => Sys2Proof.Machine.execMmaCrewF16 f s
  | .mmaCrewBf16 f => Sys2Proof.Machine.execMmaCrewBf16 f s
  | .mmaCrewF8e4 f => Sys2Proof.Machine.execMmaCrewF8e4 f s
  | .mmaCrewF8e5 f => Sys2Proof.Machine.execMmaCrewF8e5 f s
  | .mmaCrewI8 f => Sys2Proof.Machine.execMmaCrewI8 f s
  | .mmaCrewCb4 f => Sys2Proof.Machine.execMmaCrewCb4 f s
  | .accClr f => Sys2Proof.Machine.execAccClr f s
  | .accLd f => Sys2Proof.Machine.execAccLd f s
  | .accSt f => Sys2Proof.Machine.execAccSt f s
  | .accMovGet f => Sys2Proof.Machine.execAccMovGet f s
  | .accMovPut f => Sys2Proof.Machine.execAccMovPut f s
  | .feedSkip f => Sys2Proof.Machine.execFeedSkip f s
  | .feedMark f => Sys2Proof.Machine.execFeedMark f s
  | .cbLoad f => Sys2Proof.Machine.execCbLoad f s
  | .ssm f => Sys2Proof.Machine.execSsm f s
  | .taskLaunch f => Sys2Proof.Machine.execTaskLaunch f s
  | .depDec f => Sys2Proof.Machine.execDepDec f s
  | .spawn f => Sys2Proof.Machine.execSpawn f s
  | .spawnFlush f => Sys2Proof.Machine.execSpawnFlush f s
  | .joinWait f => Sys2Proof.Machine.execJoinWait f s
  | .joinPoll f => Sys2Proof.Machine.execJoinPoll f s
  | .regClaim f => Sys2Proof.Machine.execRegClaim f s
  | .regGive f => Sys2Proof.Machine.execRegGive f s
  | .binEmit f => Sys2Proof.Machine.execBinEmit f s
  | .binEnd f => Sys2Proof.Machine.execBinEnd f s
  | .binEndReset f => Sys2Proof.Machine.execBinEndReset f s
  | .fragOut f => Sys2Proof.Machine.execFragOut f s
  | .fragOutInit f => Sys2Proof.Machine.execFragOutInit f s
  | .ringAcq f => Sys2Proof.Machine.execRingAcq f s
  | .ringAcqCons f => Sys2Proof.Machine.execRingAcqCons f s
  | .ringRel f => Sys2Proof.Machine.execRingRel f s
  | .ringRelCons f => Sys2Proof.Machine.execRingRelCons f s
  | .ringHalo f => Sys2Proof.Machine.execRingHalo f s
  | .rtTrace f => Sys2Proof.Machine.execRtTrace f s
  | .rtNext f => Sys2Proof.Machine.execRtNext f s
  | .rtAccept f => Sys2Proof.Machine.execRtAccept f s
  | .rtReplay f => Sys2Proof.Machine.execRtReplay f s
  | .addI64VectorCompact f => Sys2Proof.Machine.execAddI64VectorCompact f s
  | .addF32Compact f => Sys2Proof.Machine.execAddF32Compact f s
  | .mulF32Compact f => Sys2Proof.Machine.execMulF32Compact f s
  | .addF64Compact f => Sys2Proof.Machine.execAddF64Compact f s
  | .mulF64Compact f => Sys2Proof.Machine.execMulF64Compact f s
  | .andB64Compact f => Sys2Proof.Machine.execAndB64Compact f s
  | .orB64Compact f => Sys2Proof.Machine.execOrB64Compact f s
  | .xorB64Compact f => Sys2Proof.Machine.execXorB64Compact f s
  | .movB64VectorCompact f => Sys2Proof.Machine.execMovB64VectorCompact f s
  | .addI64ScalarCompact f => Sys2Proof.Machine.execAddI64ScalarCompact f s
  | .subI64ScalarCompact f => Sys2Proof.Machine.execSubI64ScalarCompact f s
  | .movB64ScalarCompact f => Sys2Proof.Machine.execMovB64ScalarCompact f s
  | .shlN64ScalarCompact f => Sys2Proof.Machine.execShlN64ScalarCompact f s
  | .addI32VectorCompact f => Sys2Proof.Machine.execAddI32VectorCompact f s
  | .nopCompact f => Sys2Proof.Machine.execNopCompact f s
  | .ldSB64Compact f => Sys2Proof.Machine.execLdSB64Compact f s
  | .stSB64Compact f => Sys2Proof.Machine.execStSB64Compact f s
  | .joinCountZero => Sys2Proof.Machine.execJoinCountZero s
  | .illegalOpcode => Sys2Proof.Machine.execIllegalOpcode s
  | .scoreboardResult => Sys2Proof.Machine.execScoreboardResult s
  | .sleepUntilWake => Sys2Proof.Machine.execSleepUntilWake s
  | .waiterRetest => Sys2Proof.Machine.execWaiterRetest s
  | .copyComplete => Sys2Proof.Machine.execCopyComplete s
  | .copyTransferFault => Sys2Proof.Machine.execCopyTransferFault s
  | .crewOperationStart => Sys2Proof.Machine.execCrewOperationStart s
  | .mmaComplete => Sys2Proof.Machine.execMmaComplete s
  | .ssmComplete => Sys2Proof.Machine.execSsmComplete s
  | .launchTableWaitEnd => Sys2Proof.Machine.execLaunchTableWaitEnd s
  | .spawnSegmentWaitEnd => Sys2Proof.Machine.execSpawnSegmentWaitEnd s
  | .claimServed => Sys2Proof.Machine.execClaimServed s
  | .ringAcqWake => Sys2Proof.Machine.execRingAcqWake s
  | .ageingQuantum => Sys2Proof.Machine.execAgeingQuantum s
  | .issueStarvation => Sys2Proof.Machine.execIssueStarvation s
  | .gatherTimeout => Sys2Proof.Machine.execGatherTimeout s
  | .gatheredWavePlace => Sys2Proof.Machine.execGatheredWavePlace s
  | .taskRetire => Sys2Proof.Machine.execTaskRetire s
  | .groupPlace => Sys2Proof.Machine.execGroupPlace s
  | .crewPlace => Sys2Proof.Machine.execCrewPlace s
  | .imageRestore => Sys2Proof.Machine.execImageRestore s
  | .preWaitExpiry => Sys2Proof.Machine.execPreWaitExpiry s
  | .loadBalancer => Sys2Proof.Machine.execLoadBalancer s
  | .partitionMoveComplete => Sys2Proof.Machine.execPartitionMoveComplete s
  | .stripStart => Sys2Proof.Machine.execStripStart s
  | .stripFinish => Sys2Proof.Machine.execStripFinish s
  | .rasterStripStart => Sys2Proof.Machine.execRasterStripStart s
  | .rasterTileEnd => Sys2Proof.Machine.execRasterTileEnd s
  | .fragmentBatch => Sys2Proof.Machine.execFragmentBatch s
  | .displayScanLine => Sys2Proof.Machine.execDisplayScanLine s
  | .encoderStrip => Sys2Proof.Machine.execEncoderStrip s
  | .tenantUseWindow => Sys2Proof.Machine.execTenantUseWindow s
  | .heartbeat => Sys2Proof.Machine.execHeartbeat s
  | .heartbeatLost => Sys2Proof.Machine.execHeartbeatLost s
  | .ringTailWrite => Sys2Proof.Machine.execRingTailWrite s
  | .sliceExpiry => Sys2Proof.Machine.execSliceExpiry s
  | .packetNop => Sys2Proof.Machine.execPacketNop s
  | .packetLaunch => Sys2Proof.Machine.execPacketLaunch s
  | .packetCopy => Sys2Proof.Machine.execPacketCopy s
  | .packetWrite => Sys2Proof.Machine.execPacketWrite s
  | .packetSignal => Sys2Proof.Machine.execPacketSignal s
  | .packetWriteSignal => Sys2Proof.Machine.execPacketWriteSignal s
  | .packetWait => Sys2Proof.Machine.execPacketWait s
  | .packetTimestamp => Sys2Proof.Machine.execPacketTimestamp s
  | .packetGraph => Sys2Proof.Machine.execPacketGraph s
  | .packetFence => Sys2Proof.Machine.execPacketFence s
  | .cond => Sys2Proof.Machine.execCond s
  | .streamIndexWrite => Sys2Proof.Machine.execStreamIndexWrite s
  | .replyIndexWrite => Sys2Proof.Machine.execReplyIndexWrite s
  | .replyResume => Sys2Proof.Machine.execReplyResume s
  | .replySkip => Sys2Proof.Machine.execReplySkip s
  | .replyKill => Sys2Proof.Machine.execReplyKill s
  | .coalesceTimeout => Sys2Proof.Machine.execCoalesceTimeout s
  | .queueSet => Sys2Proof.Machine.execQueueSet s
  | .queueStateDisable => Sys2Proof.Machine.execQueueStateDisable s
  | .queueStateActivate => Sys2Proof.Machine.execQueueStateActivate s
  | .queueKill => Sys2Proof.Machine.execQueueKill s
  | .queueKillComplete => Sys2Proof.Machine.execQueueKillComplete s
  | .streamSet => Sys2Proof.Machine.execStreamSet s
  | .setRoot => Sys2Proof.Machine.execSetRoot s
  | .invalidate => Sys2Proof.Machine.execInvalidate s
  | .timetable => Sys2Proof.Machine.execTimetable s
  | .bindOut => Sys2Proof.Machine.execBindOut s
  | .load => Sys2Proof.Machine.execLoad s
  | .domainSet => Sys2Proof.Machine.execDomainSet s
  | .registerWrite => Sys2Proof.Machine.execRegisterWrite s
  | .sharedBoundaryMove => Sys2Proof.Machine.execSharedBoundaryMove s
  | .peerRequest => Sys2Proof.Machine.execPeerRequest s
  | .flitRetry => Sys2Proof.Machine.execFlitRetry s
  | .peerLaneRetire => Sys2Proof.Machine.execPeerLaneRetire s
  | .domainMemberLoss => Sys2Proof.Machine.execDomainMemberLoss s
  | .perstRelease => Sys2Proof.Machine.execPerstRelease s
  | .selfTest => Sys2Proof.Machine.execSelfTest s
  | .attestationRequest => Sys2Proof.Machine.execAttestationRequest s
  | .d3hotEntry => Sys2Proof.Machine.execD3hotEntry s
  | .d0Return => Sys2Proof.Machine.execD0Return s
  | .d3coldEntry => Sys2Proof.Machine.execD3coldEntry s
  | .thermalSample => Sys2Proof.Machine.execThermalSample s
  | .patrolScrub => Sys2Proof.Machine.execPatrolScrub s
  | .rowRepair => Sys2Proof.Machine.execRowRepair s
  | .ppsAndTimeOfDayInput => Sys2Proof.Machine.execPpsAndTimeOfDayInput s
  | .vectorUnmask => Sys2Proof.Machine.execVectorUnmask s
  | .perstAssert => Sys2Proof.Machine.execPerstAssert s

end Sys2Proof.Machine
end

