-- ==== Sys2Proof/Machine/Specs.lean ====
section
/-! DEFINITION. What each instruction of a wave needs in order to issue, as tables over the instructions: its registers, length, stall count and
latency (R123 to R126), and the accesses of the lane instructions. The core's selection looks here at a wave's next instruction (R310), and the
statements speak of instructions by these tables. -/

set_option linter.unusedVariables false

namespace Sys2Proof.Machine

/-- The registers, length, stall count and latency of every instruction that acts on registers alone and raises no cause of its own
(Tables 11.1, 11.2, 9.8): classes 1 to 4, 6, the votes, reductions, scans and exact-accumulator instructions of class 5, and of classes 0
and 13 `nop`, `mode.get`, `time.get`, `csr.get` of an unprivileged index and `perf.get`. -/
def regSpec : Instr → Option Spec
  | .scalarAdd f => some (specH f.h (sbLen f.b) (sOp f.d 1 true :: sOp f.a :: sbOpnds f.b) (some 2))
  | .scalarSub f => some (specH f.h (sbLen f.b) (sOp f.d 1 true :: sOp f.a :: sbOpnds f.b) (some 2))
  | .scalarMin f => some (specH f.h (sbLen f.b) (sOp f.d 1 true :: sOp f.a :: sbOpnds f.b) (some 2))
  | .scalarMax f => some (specH f.h (sbLen f.b) (sOp f.d 1 true :: sOp f.a :: sbOpnds f.b) (some 2))
  | .scalarAnd f => some (specH f.h (sbLen f.b) (sOp f.d 1 true :: sOp f.a :: sbOpnds f.b) (some 2))
  | .scalarOr f => some (specH f.h (sbLen f.b) (sOp f.d 1 true :: sOp f.a :: sbOpnds f.b) (some 2))
  | .scalarXor f => some (specH f.h (sbLen f.b) (sOp f.d 1 true :: sOp f.a :: sbOpnds f.b) (some 2))
  | .scalarShl f => some (specH f.h (sbLen f.b) (sOp f.d 1 true :: sOp f.a :: sbOpnds f.b) (some 2))
  | .scalarShr f => some (specH f.h (sbLen f.b) (sOp f.d 1 true :: sOp f.a :: sbOpnds f.b) (some 2))
  | .scalarMul f => some (specH f.h (sbLen f.b) (sOp f.d 1 true :: sOp f.a :: sbOpnds f.b) (some 4))
  | .scalarMulhi f => some (specH f.h (sbLen f.b) (sOp f.d 1 true :: sOp f.a :: sbOpnds f.b) (some 4))
  | .scalarDiv f => some (specH f.h (sbLen f.b) (sOp f.d 1 true :: sOp f.a :: sbOpnds f.b) none)
  | .scalarRem f => some (specH f.h (sbLen f.b) (sOp f.d 1 true :: sOp f.a :: sbOpnds f.b) none)
  | .scalarNot f => some (specH f.h 8 [sOp f.d 1 true, sOp f.a] (some 2))
  | .scalarClz f => some (specH f.h 8 [sOp f.d 1 true, sOp f.a] (some 2))
  | .scalarPopc f => some (specH f.h 8 [sOp f.d 1 true, sOp f.a] (some 2))
  | .scalarMov f => some (specH f.h (sbLen f.b) (sOp f.d 1 true :: sbOpnds f.b) (some 2))
  | .scalarCmp f => some (specH f.h (sbLen f.b) (mOp f.d true :: sOp f.a :: sbOpnds f.b) (some 2))
  | .scalarSel f => some (specH f.h (sbLen f.b) (sOp f.d 1 true :: sOp f.a :: sbOpnds f.b ++ [sOp7 f.c]) (some 2))
  | .vectorAdd f => some (specH f.h (vbLen f.b) (vOp f.d 1 true :: vOp f.a :: vbOpnds f.b) (some 4))
  | .vectorSub f => some (specH f.h (vbLen f.b) (vOp f.d 1 true :: vOp f.a :: vbOpnds f.b) (some 4))
  | .vectorMin f => some (specH f.h (vbLen f.b) (vOp f.d 1 true :: vOp f.a :: vbOpnds f.b) (some 4))
  | .vectorMax f => some (specH f.h (vbLen f.b) (vOp f.d 1 true :: vOp f.a :: vbOpnds f.b) (some 4))
  | .vectorAnd f => some (specH f.h (vbLen f.b) (vOp f.d 1 true :: vOp f.a :: vbOpnds f.b) (some 4))
  | .vectorOr f => some (specH f.h (vbLen f.b) (vOp f.d 1 true :: vOp f.a :: vbOpnds f.b) (some 4))
  | .vectorXor f => some (specH f.h (vbLen f.b) (vOp f.d 1 true :: vOp f.a :: vbOpnds f.b) (some 4))
  | .vectorShl f => some (specH f.h (vbLen f.b) (vOp f.d 1 true :: vOp f.a :: vbOpnds f.b) (some 4))
  | .vectorShr f => some (specH f.h (vbLen f.b) (vOp f.d 1 true :: vOp f.a :: vbOpnds f.b) (some 4))
  | .bfe f => some (specH f.h (vbLen f.b) (vOp f.d 1 true :: vOp f.a :: vbOpnds f.b) (some 4))
  | .vectorMul f => some (specH f.h (vbLen f.b) (vOp f.d 1 true :: vOp f.a :: vbOpnds f.b) (some 6))
  | .vectorMulhi f => some (specH f.h (vbLen f.b) (vOp f.d 1 true :: vOp f.a :: vbOpnds f.b) (some 6))
  | .vectorAbs f => some (specH f.h 8 [vOp f.d 1 true, vOp f.a] (some 4))
  | .vectorNeg f => some (specH f.h 8 [vOp f.d 1 true, vOp f.a] (some 4))
  | .vectorNot f => some (specH f.h 8 [vOp f.d 1 true, vOp f.a] (some 4))
  | .vectorClz f => some (specH f.h 8 [vOp f.d 1 true, vOp f.a] (some 4))
  | .vectorPopc f => some (specH f.h 8 [vOp f.d 1 true, vOp f.a] (some 4))
  | .brev f => some (specH f.h 8 [vOp f.d 1 true, vOp f.a] (some 4))
  | .vectorMov f => some (specH f.h (vbLen f.b) (vOp f.d 1 true :: vbOpnds f.b) (some 4))
  | .vectorCmp f => some (specH f.h (vbLen f.b) (mOp f.d true :: vOp f.a :: vbOpnds f.b) (some 4))
  | .fpCmp f => some (specH f.h (vbLen f.b) (mOp f.d true :: vOp f.a :: vbOpnds f.b) (some 4))
  | .vectorSel f => some (specH f.h (vbLen f.b) (vOp f.d 1 true :: (vOp f.a :: vbOpnds f.b ++ [mOp3 f.c])) (some 4))
  | .madI32 f => some (specH f.h 8 [vOp f.d 1 true, vOp f.a, if f.bs then sOp f.b else vOp f.b, vOp f.c] (some 6))
  | .madN32 f => some (specH f.h 8 [vOp f.d 1 true, vOp f.a, if f.bs then sOp f.b else vOp f.b, vOp f.c] (some 6))
  | .madI64 f => some (specH f.h 8 [vOp f.d 1 true, vOp f.a, if f.bs then sOp f.b else vOp f.b, vOp f.c] (some 6))
  | .madN64 f => some (specH f.h 8 [vOp f.d 1 true, vOp f.a, if f.bs then sOp f.b else vOp f.b, vOp f.c] (some 6))
  | .fmaF64 f => some (specH f.h 8 [vOp f.d 1 true, vOp f.a, if f.bs then sOp f.b else vOp f.b, vOp f.c] (fpLat .f64))
  | .fnmaF64 f => some (specH f.h 8 [vOp f.d 1 true, vOp f.a, if f.bs then sOp f.b else vOp f.b, vOp f.c] (fpLat .f64))
  | .fmaF32 f => some (specH f.h 8 [vOp f.d 1 true, vOp f.a, if f.bs then sOp f.b else vOp f.b, vOp f.c] (fpLat .f32))
  | .fnmaF32 f => some (specH f.h 8 [vOp f.d 1 true, vOp f.a, if f.bs then sOp f.b else vOp f.b, vOp f.c] (fpLat .f32))
  | .fmaF16 f => some (specH f.h 8 [vOp f.d 1 true, vOp f.a, if f.bs then sOp f.b else vOp f.b, vOp f.c] (fpLat .f16))
  | .fnmaF16 f => some (specH f.h 8 [vOp f.d 1 true, vOp f.a, if f.bs then sOp f.b else vOp f.b, vOp f.c] (fpLat .f16))
  | .fmaBf16 f => some (specH f.h 8 [vOp f.d 1 true, vOp f.a, if f.bs then sOp f.b else vOp f.b, vOp f.c] (fpLat .bf16))
  | .fnmaBf16 f => some (specH f.h 8 [vOp f.d 1 true, vOp f.a, if f.bs then sOp f.b else vOp f.b, vOp f.c] (fpLat .bf16))
  | .fpAdd f => some (specH f.h (vbLen f.b) (vOp f.d 1 true :: vOp f.a :: vbOpnds f.b) (fpLat f.ty))
  | .fpSub f => some (specH f.h (vbLen f.b) (vOp f.d 1 true :: vOp f.a :: vbOpnds f.b) (fpLat f.ty))
  | .fpMul f => some (specH f.h (vbLen f.b) (vOp f.d 1 true :: vOp f.a :: vbOpnds f.b) (fpLat f.ty))
  | .ldexp f => some (specH f.h (vbLen f.b) (vOp f.d 1 true :: vOp f.a :: vbOpnds f.b) (fpLat f.ty))
  | .fpMin f => some (specH f.h (vbLen f.b) (vOp f.d 1 true :: vOp f.a :: vbOpnds f.b) (some 4))
  | .fpMax f => some (specH f.h (vbLen f.b) (vOp f.d 1 true :: vOp f.a :: vbOpnds f.b) (some 4))
  | .copysign f => some (specH f.h (vbLen f.b) (vOp f.d 1 true :: vOp f.a :: vbOpnds f.b) (some 4))
  | .fpAbs f => some (specH f.h 8 [vOp f.d 1 true, vOp f.a] (some 4))
  | .fpNeg f => some (specH f.h 8 [vOp f.d 1 true, vOp f.a] (some 4))
  | .fclass f => some (specH f.h 8 [vOp f.d 1 true, vOp f.a] (some 4))
  | .rint f => some (specH f.h 8 [vOp f.d 1 true, vOp f.a] (fpLat f.ty))
  | .cvt f => some (specH f.h 8 [vOp f.d 1 true, vOp f.a] (some 6))
  | .pack f => some (specH f.h 8 [vOp f.d 1 true, vOp f.a (f.src.width / f.dst.width)] (some 6))
  | .unpack f => some (specH f.h 8 [vOp f.d (f.dst.width / f.src.width) true, vOp f.a] (some 6))
  | .cbDec f => some (specH f.h 8 [vOp f.d 4 true, vOp f.a] (some 6))
  | .rcp f => some (specH f.h 8 [vOp f.d 1 true, vOp f.a] (some 16))
  | .rsqrt f => some (specH f.h 8 [vOp f.d 1 true, vOp f.a] (some 16))
  | .exp2 f => some (specH f.h 8 [vOp f.d 1 true, vOp f.a] (some 16))
  | .log2 f => some (specH f.h 8 [vOp f.d 1 true, vOp f.a] (some 16))
  | .sin f => some (specH f.h 8 [vOp f.d 1 true, vOp f.a] (some 16))
  | .cos f => some (specH f.h 8 [vOp f.d 1 true, vOp f.a] (some 16))
  | .fpDiv f => some (specH f.h 8 [vOp f.d 1 true, vOp f.a, vOp f.b] none)
  | .sqrt f => some (specH f.h 8 [vOp f.d 1 true, vOp f.a] none)
  | .xlVote f => some (specH f.h 8 [sOp f.d 1 true, mOp f.a] (some 4))
  | .xlAny f => some (specH f.h 8 [mOp f.d true, mOp f.a] (some 4))
  | .xlAll f => some (specH f.h 8 [mOp f.d true, mOp f.a] (some 4))
  | .redLaneAdd f => some (specH f.h 8 [sOp f.d 1 true, vOp f.a] (some 16))
  | .redLaneMin f => some (specH f.h 8 [sOp f.d 1 true, vOp f.a] (some 16))
  | .redLaneMax f => some (specH f.h 8 [sOp f.d 1 true, vOp f.a] (some 16))
  | .redLaneAnd f => some (specH f.h 8 [sOp f.d 1 true, vOp f.a] (some 16))
  | .redLaneOr f => some (specH f.h 8 [sOp f.d 1 true, vOp f.a] (some 16))
  | .redLaneXor f => some (specH f.h 8 [sOp f.d 1 true, vOp f.a] (some 16))
  | .scanLaneAdd f => some (specH f.h 8 [vOp f.d 1 true, vOp f.a] (some 16))
  | .scanLaneMin f => some (specH f.h 8 [vOp f.d 1 true, vOp f.a] (some 16))
  | .scanLaneMax f => some (specH f.h 8 [vOp f.d 1 true, vOp f.a] (some 16))
  | .scanLaneAnd f => some (specH f.h 8 [vOp f.d 1 true, vOp f.a] (some 16))
  | .scanLaneOr f => some (specH f.h 8 [vOp f.d 1 true, vOp f.a] (some 16))
  | .scanLaneXor f => some (specH f.h 8 [vOp f.d 1 true, vOp f.a] (some 16))
  | .scanLaneAddEx f => some (specH f.h 8 [vOp f.d 1 true, vOp f.a] (some 16))
  | .scanLaneMinEx f => some (specH f.h 8 [vOp f.d 1 true, vOp f.a] (some 16))
  | .scanLaneMaxEx f => some (specH f.h 8 [vOp f.d 1 true, vOp f.a] (some 16))
  | .scanLaneAndEx f => some (specH f.h 8 [vOp f.d 1 true, vOp f.a] (some 16))
  | .scanLaneOrEx f => some (specH f.h 8 [vOp f.d 1 true, vOp f.a] (some 16))
  | .scanLaneXorEx f => some (specH f.h 8 [vOp f.d 1 true, vOp f.a] (some 16))
  | .xaClr f => some (specH f.h 8 [] (some 1))
  | .xaAdd f => some (specH f.h 8 [vOp f.a] (some 1))
  | .xaMac f => some (specH f.h 8 [vOp f.a, vOp f.b] (some 1))
  | .xaRnd f => some (specH f.h 8 [sOp f.d 1 true] (some 12))
  | .xaGet f => some (specH f.h 8 [sOp f.d 1 true] (some 12))
  | .xaSet f => some (specH f.h 8 [sOp f.a] (some 1))
  | .xaMerge f => some (specH f.h 8 [sOp f.a 35] (some 1))
  | .nop f => some (spec0 8 f.stall [] [])
  | .modeGet f => some (specSys 8 f.stall [sOp f.d 1 true])
  | .perfGet f => some (specSys 8 f.stall [sOp f.d 1 true])
  | .timeGet f => some (specSys 8 f.stall [sOp f.d 2 true])
  | .csrGet f => if f.idx.toNat = 8 then some (specSys 8 f.stall [vOp f.d 1 true]) else if f.idx.toNat < 0x100 then some (specSys 8 f.stall [sOp f.d 1 true]) else none
  | .addI64VectorCompact f => some (specH (compactHd f.stall) 4 [vOp (wide f.d) 1 true, vOp (wide f.a), vOp (wide f.b)] (some 4))
  | .andB64Compact f => some (specH (compactHd f.stall) 4 [vOp (wide f.d) 1 true, vOp (wide f.a), vOp (wide f.b)] (some 4))
  | .orB64Compact f => some (specH (compactHd f.stall) 4 [vOp (wide f.d) 1 true, vOp (wide f.a), vOp (wide f.b)] (some 4))
  | .xorB64Compact f => some (specH (compactHd f.stall) 4 [vOp (wide f.d) 1 true, vOp (wide f.a), vOp (wide f.b)] (some 4))
  | .addI32VectorCompact f => some (specH (compactHd f.stall) 4 [vOp (wide f.d) 1 true, vOp (wide f.a), vOp (wide f.b)] (some 4))
  | .addF32Compact f => some (specH (compactHd f.stall) 4 [vOp (wide f.d) 1 true, vOp (wide f.a), vOp (wide f.b)] (some 6))
  | .mulF32Compact f => some (specH (compactHd f.stall) 4 [vOp (wide f.d) 1 true, vOp (wide f.a), vOp (wide f.b)] (some 6))
  | .addF64Compact f => some (specH (compactHd f.stall) 4 [vOp (wide f.d) 1 true, vOp (wide f.a), vOp (wide f.b)] (some 8))
  | .mulF64Compact f => some (specH (compactHd f.stall) 4 [vOp (wide f.d) 1 true, vOp (wide f.a), vOp (wide f.b)] (some 8))
  | .movB64VectorCompact f => some (specH (compactHd f.stall) 4 [vOp (wide f.d) 1 true, vOp (wide f.b)] (some 4))
  | .addI64ScalarCompact f => some (specH (compactHd f.stall) 4 [sOp (wide f.d) 1 true, sOp (wide f.a), sOp (wide f.b)] (some 2))
  | .subI64ScalarCompact f => some (specH (compactHd f.stall) 4 [sOp (wide f.d) 1 true, sOp (wide f.a), sOp (wide f.b)] (some 2))
  | .shlN64ScalarCompact f => some (specH (compactHd f.stall) 4 [sOp (wide f.d) 1 true, sOp (wide f.a), sOp (wide f.b)] (some 2))
  | .movB64ScalarCompact f => some (specH (compactHd f.stall) 4 [sOp (wide f.d) 1 true, sOp (wide f.b)] (some 2))
  | .nopCompact f => some ({ len := 4, stall := f.stall.toNat, opnds := [], lat := some 0 })
  | _ => none

/-- The cross-lane instructions as one shape: fields, operands after V[a], and the source of each destination element (R171 to R173): a
lane and a sub-element, or none beyond the lanes. -/
def crossShape : Instr → Option (XlF × List Opnd × (Wave → Nat → Nat → Option (Nat × Nat)))
  | .xlGet f => some (f, [vOp f.b ((elemCount f.ty + 3) / 4)], fun w l j =>
      let i := bitsAt (rdV w (f.b.toNat + j / 4) l) (16 * (j % 4)) 9
      some (i / 16, i % 16 % elemCount f.ty))
  | .xlBcast f => some (f, [sOp f.b], fun w _ _ =>
      let i := (rdS w f.b.toNat).toNat % 512
      some (i / 16, i % 16 % elemCount f.ty))
  | .xlShup f => some (f, [], fun _ l j =>
      let e := l * elemCount f.ty + j
      if e < f.b.toNat then none else some ((e - f.b.toNat) / elemCount f.ty, (e - f.b.toNat) % elemCount f.ty))
  | .xlShdn f => some (f, [], fun _ l j =>
      let e := l * elemCount f.ty + j + f.b.toNat
      if 32 * elemCount f.ty ≤ e then none else some (e / elemCount f.ty, e % elemCount f.ty))
  | .xlXor f => some (f, [], fun _ l j =>
      let e := (l * elemCount f.ty + j) ^^^ f.b.toNat
      some (e / elemCount f.ty, e % elemCount f.ty))
  | .xlReorder f => some (f, [sOp f.b 3], fun w l _ =>
      let p := (rdS w f.b.toNat).toNat + (rdS w (f.b.toNat + 1)).toNat * 2 ^ 64 + (rdS w (f.b.toNat + 2)).toNat * 2 ^ 128
      some (p / 2 ^ (5 * l) % 32, 0))
  | _ => none

/-- A lane instruction that makes one access a lane: what issuing needs, the lanes of Active with their addresses, the size of each access,
its needs and its further checks (R60, R190, R193 to R206). -/
structure LaneAcc where
  sp : Spec
  lanes : Wave → List (Nat × Nat)
  size : Nat
  need : Need
  extra : Extra := .plain

def ldAcc (f : LdF) (need : Need) (x : Extra) : LaneAcc :=
  { sp := specM f.h (offLen f.off) [vOp f.d 1 true, vOp f.a], lanes := fun w => laneAddrs w f.h.mask f.a f.off,
    size := f.mem.ty.width / 8, need := need, extra := x }
def stAcc (f : StF) (need : Need) (x : Extra) : LaneAcc :=
  { sp := specM f.h (offLen f.off) [vOp f.a, vOp f.b], lanes := fun w => laneAddrs w f.h.mask f.a f.off,
    size := f.mem.ty.width / 8, need := need, extra := x }
def atAcc (op : AtOp) (opc : Nat) (f : AtF) (n : Nat := 1) : LaneAcc :=
  { sp := specM f.h (offLen f.off) [vOp f.d 1 true, vOp f.a, vOp f.b n], lanes := fun w => laneAddrs w f.h.mask f.a f.off,
    size := f.mem.ty.width / 8, need := needRw, extra := .hostAtomic (hostAt op f.mem.ty false) opc }
def redAcc (op : AtOp) (opc : Nat) (f : StF) : LaneAcc :=
  { sp := specM f.h (offLen f.off) [vOp f.a, vOp f.b], lanes := fun w => laneAddrs w f.h.mask f.a f.off,
    size := f.mem.ty.width / 8, need := needRw, extra := .hostAtomic (hostAt op f.mem.ty true) opc }
def boundAcc (f : AtBF) : LaneAcc :=
  { sp := specM f.h 12 [vOp f.d 1 true, vOp f.a, vOp f.b 2, mOp3 f.m true], lanes := fun w => laneAddrs w f.h.mask f.a .none,
    size := f.mem.ty.width / 8, need := needRw, extra := .hostAtomic (hostAt .addBound f.mem.ty false) 0x218 }

def laneAcc : Instr → Option LaneAcc
  | .ld f => some (ldAcc f needRd .plain)
  | .ldRo f => some (ldAcc f needRd .plain)
  | .st f => some (stAcc f needWr .plain)
  | .ldL f => some { ldAcc f needRd .plain with lanes := fun w => localAddrs w f.h.mask f.a f.off }
  | .stL f => some { stAcc f needWr .plain with lanes := fun w => localAddrs w f.h.mask f.a f.off }
  | .ldWf f => some (ldAcc f needRd .tagged)
  | .ldWfe f => some (ldAcc f needRw .tagged)
  | .stWe f => some (stAcc f needRw .tagged)
  | .stF f => some (stAcc f needWr .tagged)
  | .tagGet f => some { ldAcc f needRd .tagged with size := 4 }
  | .tagSet f => some { stAcc f needWr .tagged with size := 4 }
  | .atomAdd f => some (atAcc .add 0x210 f)
  | .atomMin f => some (atAcc .min 0x211 f)
  | .atomMax f => some (atAcc .max 0x212 f)
  | .atomAnd f => some (atAcc .and 0x213 f)
  | .atomOr f => some (atAcc .or 0x214 f)
  | .atomXor f => some (atAcc .xor 0x215 f)
  | .atomExch f => some (atAcc .exch 0x216 f)
  | .atomIncWrap f => some (atAcc .incWrap 0x217 f)
  | .atomCas f => some (atAcc .cas 0x219 f 2)
  | .atomAddBound f => some (boundAcc f)
  | .redAdd f => some (redAcc .add 0x220 f)
  | .redMin f => some (redAcc .min 0x221 f)
  | .redMax f => some (redAcc .max 0x222 f)
  | .redAnd f => some (redAcc .and 0x223 f)
  | .redOr f => some (redAcc .or 0x224 f)
  | .redXor f => some (redAcc .xor 0x225 f)
  | .redIncWrap f => some (redAcc .incWrap 0x226 f)
  | _ => none

/-- The instructions of classes 7 to 10, 12 and 14 that act once for the wave, or on lanes only, and do nothing with Active empty (R189, R323):
predicate and what issuing needs. -/
def waveOnly : Instr → Option (Hd × Spec)
  | .ldS f => some (f.h, specM f.h (offLen f.off) [sOp f.d 1 true, sOp f.a])
  | .stS f => some (f.h, specM f.h (offLen f.off) [sOp f.a, sOp f.b])
  | .fenceAcq f | .fenceRel f | .fenceAr f | .fenceSc f => some (f.h, specM f.h 8 [])
  | .roInv f | .fenceRec f | .spawnFlush f => some (f.h, specM f.h 8 [])
  | .boInit f | .boExpect f | .boWait f => some (f.h, specM f.h (offLen f.off) [sOp f.a, sOp f.b])
  | .boArrive f => some (f.h, specM f.h (offLen f.off) [sOp f.d 1 true, sOp f.a, sOp f.b])
  | .lockAcq f | .lockRel f => some (f.h, specM f.h (offLen f.off) [sOp f.a])
  | .lockTry f => some (f.h, specM f.h (offLen f.off) [sOp f.d 1 true, sOp f.a])
  | .dqPush f | .dqPop f => some (f.h, specM f.h (offLen f.off) [sOp f.d 1 true, sOp f.a, sOp f.b])
  | .ownSet f => some (f.h, specM f.h (offLen f.off) [sOp f.d 1 true, sOp f.a, sOp f.b])
  | .ownClr f => some (f.h, specM f.h (offLen f.off) [sOp f.a])
  | .cpIn f => some (f.h, specCp f.h (some f.cw) f.tsr (if f.dsel = 0 then [sOp f.a] else []))
  | .cpOut f | .cpLl f => some (f.h, specCp f.h (some f.cw) f.tsr [sOp f.a])
  | .taskLaunch f | .joinPoll f => some (f.h, specM f.h 8 [sOp f.d 1 true, sOp f.a])
  | .depDec f | .joinWait f | .binEnd f | .binEndReset f => some (f.h, specM f.h 8 [sOp f.a])
  | .spawn f => some (f.h, specM f.h 12 [vOp f.a 4, sOp f.b])
  | .regClaim f | .regGive f => some (f.h, specM f.h 8 [])
  | .ringAcq f | .ringAcqCons f => some (f.h, specM f.h 8 [sOp f.d 2 true, sOp f.a])
  | .ringRel f | .ringRelCons f | .ringHalo f => some (f.h, specM f.h 8 [sOp f.a, sOp f.b])
  | .rtTrace f => some (f.h, specM f.h 8 [vOp f.a 4, sOp f.b, sOp7 f.c])
  | .rtNext f => some (f.h, specM f.h 8 [vOp f.d 3 true])
  | .rtReplay f => some (f.h, specM f.h 8 [sOp f.b, sOp7 f.c])
  | _ => none

/-- The matrix multiplies: format, whether it is a crew's, fields (R259, R263). -/
def mmaOf : Instr → Option (Ty × Bool × MmaF)
  | .mmaF64 f => some (.f64, false, f)
  | .mmaF32 f => some (.f32, false, f)
  | .mmaF16 f => some (.f16, false, f)
  | .mmaBf16 f => some (.bf16, false, f)
  | .mmaF8e4 f => some (.f8e4, false, f)
  | .mmaF8e5 f => some (.f8e5, false, f)
  | .mmaI8 f => some (.i8, false, f)
  | .mmaCb4 f => some (.cb4, false, f)
  | .mmaCrewF64 f => some (.f64, true, f)
  | .mmaCrewF32 f => some (.f32, true, f)
  | .mmaCrewF16 f => some (.f16, true, f)
  | .mmaCrewBf16 f => some (.bf16, true, f)
  | .mmaCrewF8e4 f => some (.f8e4, true, f)
  | .mmaCrewF8e5 f => some (.f8e5, true, f)
  | .mmaCrewI8 f => some (.i8, true, f)
  | .mmaCrewCb4 f => some (.cb4, true, f)
  | _ => none

/-- The instructions of class 11: predicate, what issuing needs, the handle they name, and whether their group must be a matrix group
(R242, R243). -/
def matrixSpec (i : Instr) : Option (Hd × Spec × Nat × Bool) :=
  match mmaOf i with
  | some (_, _, f) => some (f.h, specM f.h 8 [], f.ad.toNat, true)
  | none =>
    match i with
    | .accClr f => some (f.h, specM f.h 8 [], f.ad.toNat, true)
    | .accLd f => some (f.h, specCp f.h none f.tsr [], f.ad.toNat, true)
    | .accSt f => some (f.h, specCp f.h (some f.cw) f.tsr [sOp7 f.sb 3], f.ad.toNat, true)
    | .accMovGet f => some (f.h, specM f.h 8 [vOp f.d 1 true, sOp f.a], f.ad.toNat, true)
    | .accMovPut f => some (f.h, specM f.h 8 [vOp f.d, sOp f.a], f.ad.toNat, true)
    | .feedSkip f => some (f.h, specM f.h 8 [sOp f.a], 0, true)
    | .feedMark f => some (f.h, specM f.h 8 [sOp f.d 1 true], 0, true)
    | .cbLoad f => some (f.h, specM f.h 8 [sOp f.a], 0, false)
    | .ssm f => some (f.h, { specM f.h 8 [sOp f.a] with reads := predRead f.h.mask ++ cwReads f.cw, cw := cwWrites f.cw }, 0, true)
    | _ => none

/-- The control instructions of class 0 and 13, and the instructions of classes 12 and 14 to 15 that are in none of the tables above (R154 to
R160, R180 to R185, R197, R327, R335, R350). -/
def ctlSpec : Instr → Option Spec
  | .br f => some (spec0 (tgtLen f.tgt) f.stall [] (condRead f.cond))
  | .brDiv f | .brEj f => some (spec0 (tgtLen f.tgt) f.stall [] (condRead f.cond))
  | .brx f => some (spec0 8 f.stall [sOp f.a] (condRead f.cond))
  | .call f => some (spec0 (tgtLen f.tgt) f.stall [sOp f.d 1 true] [])
  | .ret f => some (spec0 8 f.stall [sOp f.a] [])
  | .rejoin f | .exit f => some (spec0 8 f.stall [] [])
  | .brk f => some (spec0 8 f.stall [] [])
  | .trap f => some { specSys 12 f.stall [] with reads := (List.range 8).map RegRef.s }
  | .modeSet f | .sleepUntil f => some (specSys 8 f.stall [sOp f.a])
  | .csrGet f => some { specSys 8 f.stall [sOp f.d 1 true] with priv := if 0x100 ≤ f.idx.toNat then some f.idx.toNat else none }
  | .yield f => some (specSys 8 f.stall [])
  | .pf f => some (specM f.h (offLen f.off) [vOp f.a])
  | .binEmit f => some (specM f.h 8 [mOp f.d true, vOp f.a 8, sOp f.b])
  | .fragOut f => some (specM f.h 8 [vOp f.d 3 true, sOp f.a, vOp f.b, { reg := .m f.m.toNat, dest := true }])
  | .fragOutInit f => some (specM f.h 8 [vOp f.d 3 true, sOp f.a, { reg := .m f.m.toNat, dest := true }])
  | .rtAccept f => some (specM f.h 8 [mOp f.d true, vOp f.a, vOp f.b])
  | .ldSB64Compact f => some (specM (compactHd f.stall) 4 [sOp (wide f.d) 1 true, sOp (wide f.a)])
  | .stSB64Compact f => some (specM (compactHd f.stall) 4 [sOp (wide f.a), sOp (wide f.b)])
  | _ => none

/-- What a wave's instruction needs in order to issue; none for the steps of the device. -/
def specOf (i : Instr) : Option Spec :=
  match regSpec i, laneAcc i, waveOnly i, matrixSpec i, crossShape i with
  | some sp, _, _, _, _ => some sp
  | none, some a, _, _, _ => some a.sp
  | none, none, some (_, sp), _, _ => some sp
  | none, none, none, some (_, sp, _, _), _ => some sp
  | none, none, none, none, some (f, bs, _) => some (specH f.h 8 (vOp f.d 1 true :: vOp f.a :: bs) (some 8))
  | none, none, none, none, none => ctlSpec i

end Sys2Proof.Machine
end

