-- ==== Sys2Proof/Machine/Turn.lean ====
section
/-! DEFINITION. One turn of the machine: who acts (log 3), time and counters (log 4), which waves a core can select (R310 to R312), fetching
an instruction's parcels (R113 to R115), the checks before the opcode's own meaning (R124, R398), and placing one instruction where the
next turn fetches it (log 2). -/

set_option linter.unusedVariables false

namespace Sys2Proof.Machine

/-! ### Fetch (R113 to R115, R124) -/

/-- The parcel at a place as a wave fetches it: as memory stands, or as the 64-byte line it lies in was when it was read since the wave's task
was published; one free choice for the line in this step, so that each line is whole (R115; log 42). -/
def codeWord (s : State) (k : Nat) (l : Loc) : Nat :=
  let seq := ((s.group? (gidOf k)).map (·.seq)).getD 0
  match s.codeLines.filter (fun c => c.at_ == l.line.1 && decide (seq < c.stamp)) with
  | [] => rdN s l 4
  | c :: r => match ((c :: r)[Config.free s.draw (4 * l.line.1.number + 2) % (r.length + 2)]?) with
    | some x => leNat ((x.bytes.drop l.line.2).take 4)
    | none => rdN s l 4

/-- One parcel of a wave at an address. -/
def fetchParcel (s : State) (k va : Nat) : Except Fail Parcel :=
  match checkOne s { tenant := tenantOf s k, ls := some (lsGroup s k), fetch := true } va 4 4 { ex := true } .plain with
  | .ok l => .ok (BitVec.ofNat 32 (codeWord s k l))
  | .error e => .error e

/-- Some consecutive parcels, lowest address first; the lowest-addressed that fails stops it. -/
def fetchMore (s : State) (k : Nat) : Nat → Nat → Except Fail (List Parcel)
  | 0, _ => .ok []
  | n + 1, va =>
    match fetchParcel s k va with
    | .error e => .error e
    | .ok p =>
      match fetchMore s k n (va + 4) with
      | .error e => .error e
      | .ok r => .ok (p :: r)

/-- The parcels of the instruction at an address: its length comes from the first two (R113). -/
def fetchAt (s : State) (k va : Nat) : Except Fail (List Parcel) :=
  match fetchParcel s k va with
  | .error e => .error e
  | .ok p0 =>
    if p0.getLsbD 0 = false then .ok [p0]
    else
      match fetchParcel s k (va + 4) with
      | .error e => .error e
      | .ok p1 =>
        match fetchMore s k (parcelCount p0 p1 - 2) (va + 8) with
        | .error e => .error e
        | .ok r => .ok (p0 :: p1 :: r)

/-- The walker's marks for the pages the parcels lie in (R64). -/
def fetchTouch (s : State) (k va count : Nat) : State := touchRange s (tenantOf s k) va (4 * count) false

/-! ### Selection (R310 to R312) -/

/-- Nothing but its registers and its place in the order keeps a wave from issuing: on its core, in no wait, no stall count outstanding, no
path change due (R37, R125, R310). -/
def issuable (s : State) (k : Nat) (w : Wave) : Bool :=
  s.power == .d0 && waveOn s k w && w.wait == .none && decide (w.helping = 0) && decide (w.stallUntil ≤ s.cycle) &&
    decide (w.age < (s.core (coreOf s k)).quantumM1 + 1)

/-- Whether a wave's next instruction reads or writes no pending register and no pending token holds it; the token that its completion word names is
none it writes as it issues (R86, R310). An instruction that would raise at its fetch or decoding has none. -/
def operandsReady (s : State) (k : Nat) (w : Wave) : Bool :=
  (w.pend.isEmpty && w.tokenPend.isEmpty) ||
    match fetchAt s k w.pc.toNat with
    | .error _ => true
    | .ok ps => match decode ps with
      | .instr i => match specOf i with
        | some sp => !(sp.touched.any (fun r => w.pend.contains r)) && !tokenBlocked sp w
        | none => true
      | .reserved _ => true

/-- A wave that is ready (R310). One whose next instruction touches a pending register may still issue in a turn: its result comes in that
cycle (log 4); it keeps no other wave waiting. -/
def surelyReady (s : State) (k : Nat) (w : Wave) : Bool := issuable s k w && operandsReady s k w

/-- The rank of a wave in a core's selection: the agent slot, strip chains, starved waves, adopted owners, the others (Table 19.9, R312). -/
def selectRank (s : State) (k : Nat) (w : Wave) : Nat :=
  if issueClass s k ≤ 2 then issueClass s k - 1 else if w.starved then 2 else issueClass s k

/-- Whether a core selects one wave before another: rank; a wave that has executed `yield` after those that have not, a later `yield` after
an earlier one; age (R185, R310 to R312). -/
def precedes (s : State) (a b : Nat × Wave) : Bool :=
  let ra := selectRank s a.1 a.2
  let rb := selectRank s b.1 b.2
  let older := ageLe a.2.key b.2.key && !(ageLe b.2.key a.2.key && decide (b.1 < a.1))
  decide (ra < rb) || (ra == rb && (match a.2.yielded, b.2.yielded with
    | none, some _ => true
    | some _, none => false
    | some x, some y => decide (x < y)
    | none, none => older))

/-- Waves that a core has issued in this cycle: at most one for each vector pipe (R310). -/
def issuedNow (s : State) (c : Nat) : Nat := if (s.core c).issueCycle = s.cycle then (s.core c).issueCount else 0
/-- One more wave issues on a core in this cycle. -/
def countIssue (s : State) (c : Nat) : State :=
  s.modCore c (fun x => { x with issueCycle := s.cycle, issueCount := if x.issueCycle = s.cycle then x.issueCount + 1 else 1 })

/-- Whether a wave may issue now: it can, a pipe of its core has not selected in this cycle, and no ready wave of the core comes before it
(R310); pipe 0's selection is the earlier turn of the cycle. -/
def mayIssue (s : State) (k : Nat) : Bool :=
  match s.wave? k with
  | none => false
  | some w =>
    issuable s k w && decide (issuedNow s (coreOf s k) < 2) &&
      !(s.waves.any (fun p => decide (p.1 ≠ k) && coreOf s p.1 == coreOf s k && surelyReady s p.1 p.2 && precedes s p (k, w)))

/-- What a turn comes to: an instruction whose meaning runs on a state, or a state with nothing more to run. -/
inductive Turned where
  | run (i : Instr) (s : State)
  | done (s : State)
  deriving Repr

/-- Wave k issues its next instruction: fetch, then decoding; a fault of the fetch and a reserved field take their exception (R114, R124
steps 1 to 3); an unassigned encoding is ILLEGAL_OPCODE, an event of its own (R118). -/
def issueTurn (s : State) (k : Nat) : Turned :=
  match s.wave? k with
  | none => .done s
  | some w =>
    match fetchAt s k w.pc.toNat with
    | .error e => .done (takeTrap (countIssue s (coreOf s k)) k 0 { (Fail.trap e) with lanes := some w.path, fetch := true })
    | .ok ps =>
      let t : State := { countIssue (fetchTouch s k w.pc.toNat ps.length) (coreOf s k) with cur := some k }
      match decode ps with
      | .reserved bit =>
        .done (takeTrap t k (4 * ps.length) { cause := .reservedField, info0 := infoParcels ps, info1 := w64 bit, lanes := some w.path })
      | .instr .illegalOpcode => .run .illegalOpcode { t with input := { value := infoParcels ps, idx := 4 * ps.length } }
      | .instr i => .run i t

/-! ### Time and counters (R186, R301, R312) -/

/-- Whether a queue has its turn: the merge unit served has a step that can run. Its turn uses the cycles that pass (R301). -/
def turnOn (s : State) : Bool := s.rings.any (fun p => decide (p.1 / 64 = s.cp.unit) && servable s p.1 p.2)

/-- What the passing cycles add to a wave: RESIDENT while it is on its core, and the cycles in which a wave of class 3 or 4 was ready, its stall count
past, and was not selected (R125, R186, R312); selection sets these to 0. -/
def tickWave (s : State) (n : Nat) (k : Nat) (w : Wave) : Wave :=
  if !waveOn s k w then w
  else
    { w with
      perfResident := w.perfResident + n
      unselected := if decide (3 ≤ issueClass s k) && surelyReady s k w then w.unselected + min n (s.cycle - w.stallUntil) else w.unselected }

/-- A turn begins: its input and its free choices stand, cycles and time pass, counters advance, caches read what the turn lets them read, and
ready groups unplaced for PRE_WAIT_US are marked (R306, R307). -/
def beginTurn (s : State) (t : Turn) (rest : List Turn) : State :=
  let s : State := { s with
    cycle := s.cycle + t.cycles, time := s.time + t.dt, draw := s.fresh, fresh := s.fresh + 1, peers := t.peers, agenda := rest
    input := t.input, held := t.held, cur := none }
  let s : State := t.captures.foldl capture s
  markOverdue (restImages { s with
    waves := s.waves.map (fun (p : Nat × Wave) => (p.1, tickWave s t.cycles p.1 p.2))
    cp := { s.cp with used := if turnOn s then s.cp.used + t.cycles else 0 } })

/-- An uncorrectable error in the core's own arrays (registers, local store, tiles, feeds; R395) meets a wave that would issue: the cause
names the unit (R297, Table 17.7; log 28). The instruction's length is known where it has been fetched, so that SKIP continues after it
(R291). -/
def coreError (s : State) (k : Nat) : State :=
  match s.wave? k with
  | none => s
  | some w =>
    match fetchAt s k w.pc.toNat with
    | .error e => takeTrap s k 0 { (Fail.trap e) with lanes := some w.path, fetch := true }
    | .ok ps => takeTrap s k (4 * ps.length) { cause := .eccUncorrectable, info0 := w64 (coreOf s k), info1 := 1 }

/-- Whether a step of the device can happen in a power state (R391, Table 25.3): in D3hot the clocks of cores, engines and outputs stand and
external memory is in self-refresh, so only changes of the power state, the time counter and the management processor's own work go on; in
D3cold nothing but PERST#. -/
def powered (p : Power) (i : Instr) : Bool :=
  match p, i with
  | .d0, _ => true
  | _, .perstRelease | _, .perstAssert => true
  | .d3hot, .d0Return | .d3hot, .d3coldEntry | .d3hot, .attestationRequest | .d3hot, .thermalSample | .d3hot, .ppsAndTimeOfDayInput => true
  | _, _ => false

/-- A turn: a wave that may issue issues, or meets an error of its core where the turn's input says so; a step of the device happens;
anything else changes nothing but time. -/
def runTurn (s : State) (a : Act) : Turned :=
  match a with
  | .issue k => if mayIssue s k then (if s.input.flag then .done (coreError s k) else issueTurn s k) else .done s
  | .event i => if i.isEvent && powered s.power i then .run i s else .done s

/-! ### The default order (log 3) -/

/-- The steps of the device that could happen now, each with its input; steps that come from outside it are not among them. -/
def offers (s : State) : List (Instr × Input) :=
  let ws := (s.waves.filter (fun p => waveOn s p.1 p.2)).map (·.1)
  let gs := (s.groups.filter (fun p => p.2.core?.isSome)).map (·.1)
  let each (ks : List Nat) (is : List Instr) : List (Instr × Input) := ks.flatMap (fun k => is.map (fun i => (i, { who := k })))
  let entries := List.range ((s.table.map (·.entries.length)).getD 0)
  let streams := kkeys s.streams
  each ws [.joinCountZero, .sleepUntilWake, .waiterRetest, .launchTableWaitEnd, .spawnSegmentWaitEnd, .ringAcqWake, .ageingQuantum,
           .issueStarvation, .fragmentBatch] ++
  each (kkeys s.xfers) [.copyComplete] ++
  each gs [.crewOperationStart, .mmaComplete, .ssmComplete] ++
  each (kkeys s.tasks) [.taskRetire] ++
  each ((s.threads.filterMap (·.batch)).eraseDups) [.gatheredWavePlace] ++
  each (List.range 256) [.claimServed, .gatherTimeout, .groupPlace, .crewPlace, .imageRestore, .preWaitExpiry, .partitionMoveComplete] ++
  each [0] [.loadBalancer, .sliceExpiry, .packetNop, .packetLaunch, .packetCopy, .packetWrite, .packetSignal, .packetWriteSignal, .packetWait,
            .packetTimestamp, .packetGraph, .packetFence, .cond] ++
  each entries [.stripStart, .stripFinish] ++
  each (kkeys s.outputs) [.displayScanLine, .encoderStrip] ++
  each (List.range 32) [.rasterStripStart, .rasterTileEnd] ++
  streams.flatMap (fun k => [Instr.replyResume, .replySkip, .replyKill, .coalesceTimeout].map (fun i => (i, { func := k / 64, who := k % 64 }))) ++
  (List.range 65).flatMap (fun f => [Instr.queueSet, .queueStateDisable, .queueStateActivate, .queueKill, .queueKillComplete, .streamSet, .setRoot,
    .invalidate, .timetable, .bindOut, .load, .domainSet].map (fun i => (i, { func := f }))) ++
  (if s.boot.state = .rom then [(Instr.perstRelease, ({} : Input))] else if s.boot.state = .selfTest then [(Instr.selfTest, ({} : Input))] else [])

/-- Whether an offered step would change the machine. -/
def offerOpen (s : State) (o : Instr × Input) : Bool :=
  match exec o.1 { s with input := o.2 } with
  | .next t => decide (t ≠ { s with input := o.2 })
  | _ => false

/-- The turn taken where no turn is laid down: the waves that may issue and the steps that are open, taken in rotation. -/
def defaultTurn (s : State) : Turn :=
  let acts : List Turn := ((s.waves.filter (fun p => mayIssue s p.1)).map (fun p => { what := .issue p.1 })) ++
    ((offers s).filter (offerOpen s)).map (fun o => { what := .event o.1, input := o.2 })
  (acts[s.cycle % acts.length]?).getD { what := .event .flitRetry }

/-- The next turn: the first laid down, else the default. -/
def turn (s : State) : Turned :=
  match s.agenda with
  | t :: rest => runTurn (beginTurn s t rest) t.what
  | [] => runTurn (beginTurn s (defaultTurn s) []) (defaultTurn s).what

/-! ### Placing one instruction (log 2) -/

/-- The bytes of parcels at their addresses (R4). -/
def parcelBytes (ps : List Parcel) : List Byte := ps.flatMap (fun p => leBytes 4 p.toNat)

/-- Code bytes where a wave's PC points, when that address translates. -/
def pokeCode (s : State) (k : Nat) (ps : List Parcel) : Option State :=
  match s.wave? k with
  | none => none
  | some w =>
    match resolve s { tenant := tenantOf s k, fetch := true } w.pc.toNat 28 { ex := true } with
    | .ok l => if mayIssue s k then some (wrBytes s l (parcelBytes ps)) else none
    | .error _ => none

/-- A context in which code runs: tenant 0 with a page of 64 GiB at address 0, a task of one group of one wave, resident on core 0, its PC
at 64 KiB, and a turn in which that wave issues. -/
def codeContext (s : State) (ps : List Parcel) : State :=
  let root := 0x20000
  let leafs := 0x22000
  let s := wrN s (.ext root) 8 (leafs + 1)
  let s := wrN s (.ext leafs) 8 0x1F
  let s := wrBytes s (.ext 0x10000) (parcelBytes ps)
  let gid := s.nextGid
  let rec64 : BitVec 512 := packBits 512 [(75, 11, 64), (90, 6, 1), (96, 32, 1)]
  let s : State := { s with
    roots := kset 0 root s.roots, nextGid := gid + 1, nextSeq := s.nextSeq + 1
    tasks := kset s.nextSeq { seq := s.nextSeq, root := s.nextSeq, rec64 := rec64, state := .ready, next := 1 } s.tasks
    agenda := { what := .issue (keyOf gid 0) } :: s.agenda }
  let s := s.setGroup gid { gid := gid, seq := s.nextSeq - 1, regs := 64, place := .resident 0 }
  s.setWave (keyOf gid 0) { pc := 0x10000, regCount := 64, key := { seq := s.nextSeq - 1 } }

/-- Store parcels where the next turn fetches: at the PC of the wave that the first turn lets issue, else in a context of its own. -/
def placeCode (s : State) (ps : List Parcel) : State :=
  match s.agenda with
  | { what := .issue k, input := i, cycles := _, dt := _, held := _, peers := _, captures := _ } :: _ => if i.flag then codeContext s ps else (pokeCode s k ps).getD (codeContext s ps)
  | _ => codeContext s ps

end Sys2Proof.Machine
end

