-- ==== Sys2Proof/Machine/Step.lean ====
section
/-! DEFINITION. The step of the machine: one turn (log 3), running the meaning of what it comes to; and placing one instruction where the next
step fetches it (log 2). -/

namespace Sys2Proof.Machine

/-- One step: a turn, and the meaning of the instruction or step of the device it comes to. -/
def step (s : State) : Host.Outcome State Fault Refusal :=
  match turn s with
  | .run i t => Sys2Proof.Machine.exec i t
  | .done t => .next t

/-- A state with the instruction of a table word stored where step fetches its next instruction. -/
def State.withFetchWord (s : State) (nbits w : Nat) : State := placeCode s (Sys2Proof.tableParcels nbits w)

end Sys2Proof.Machine
end

