-- ==== Sys2Proof/Laws/Decode.lean ====
section
/-! SUPPORT. The layers of the round trip: a word of fields reads back as the fields (Tables 9.2 and 9.3), parcels read back as the fields
(R113 to R117), and an instruction whose fields parse to it decodes to it. -/

set_option linter.unusedSimpArgs false

namespace Sys2Proof.Laws

theorem slice_hi {a k : Nat} (x : BitVec a) (y : BitVec k) (lo n : Nat) (h : k ≤ lo) :
    (x ++ y).extractLsb' lo n = x.extractLsb' (lo - k) n := by
  apply BitVec.eq_of_getLsbD_eq; intro i hi
  simp only [BitVec.getLsbD_append, BitVec.getLsbD_extractLsb']
  rw [if_neg (by omega), show lo + i - k = lo - k + i by omega]

theorem slice_lo {a k : Nat} (x : BitVec a) (y : BitVec k) : (x ++ y).extractLsb' 0 k = y := by
  apply BitVec.eq_of_getLsbD_eq; intro i hi
  simp [BitVec.getLsbD_append, hi]

theorem bit_hi {a k : Nat} (x : BitVec a) (y : BitVec k) (i : Nat) (h : k ≤ i) : (x ++ y).getLsbD i = x.getLsbD (i - k) := by
  rw [BitVec.getLsbD_append, if_neg (by omega)]

theorem bit_lo {a k : Nat} (x : BitVec a) (y : BitVec k) (i : Nat) (h : i < k) : (x ++ y).getLsbD i = y.getLsbD i := by
  rw [BitVec.getLsbD_append, if_pos h]

/-- The first two parcels read back as the fields they were made of. -/
theorem ofWord_word (f : Fld) : Fld.ofWord f.word f.lit f.tsr = f := by
  obtain ⟨f96, st, opc, d, a, b, c, m, md, lit, tsr⟩ := f
  simp only [Fld.ofWord, Fld.word, Fld.mk.injEq]
  refine ⟨?_, ?_, ?_, ?_, ?_, ?_, ?_, ?_, ?_, trivial, trivial⟩
  · simp (disch := decide) only [bit_lo]; cases f96 <;> simp
  · simp (disch := decide) only [slice_hi, slice_lo, Nat.reduceSub]
  · simp (disch := decide) only [slice_hi, slice_lo, Nat.reduceSub]
  · simp (disch := decide) only [slice_hi, slice_lo, Nat.reduceSub]
  · simp (disch := decide) only [slice_hi, slice_lo, Nat.reduceSub]
  · simp (disch := decide) only [slice_hi, slice_lo, Nat.reduceSub]
  · simp (disch := decide) only [slice_hi, slice_lo, Nat.reduceSub]
  · simp (disch := decide) only [slice_hi, slice_lo, Nat.reduceSub]
  · simp (disch := decide) only [bit_hi, Nat.reduceSub]; cases md <;> rfl

theorem slice_all {n : Nat} (x : BitVec n) : x.extractLsb' 0 n = x := by
  apply BitVec.eq_of_getLsbD_eq; intro i hi; simp [hi]

theorem ofWord_cword (f : CFld) : CFld.ofWord f.word = f := by
  obtain ⟨st, op, d, a, b⟩ := f
  simp only [CFld.ofWord, CFld.word, CFld.mk.injEq]
  refine ⟨?_, ?_, ?_, ?_, ?_⟩
  all_goals simp (disch := decide) only [slice_hi, slice_lo, slice_all, Nat.reduceSub]

theorem halves (x : BitVec 64) : x.extractLsb' 32 32 ++ x.extractLsb' 0 32 = x := by
  apply BitVec.eq_of_getLsbD_eq; intro i hi
  simp only [BitVec.getLsbD_append, BitVec.getLsbD_extractLsb']
  split <;> rename_i h
  · simp [h]
  · simp [show i - 32 < 32 by omega, show 32 + (i - 32) = i by omega]

theorem quarters (x : BitVec 128) :
    joinRec (x.extractLsb' 0 32) (x.extractLsb' 32 32) (x.extractLsb' 64 32) (x.extractLsb' 96 32) = x := by
  apply BitVec.eq_of_getLsbD_eq; intro i hi
  simp only [joinRec, BitVec.getLsbD_append, BitVec.getLsbD_extractLsb']
  split <;> rename_i h
  · simp [h]
  · split <;> rename_i h2
    · simp [show i - 32 < 32 by omega, show 32 + (i - 32) = i by omega]
    · split <;> rename_i h3
      · simp [show i - 32 - 32 < 32 by omega, show 64 + (i - 32 - 32) = i by omega]
      · simp [show i - 32 - 32 - 32 < 32 by omega, show 96 + (i - 32 - 32 - 32) = i by omega]

/-- Fields that parcels can hold: a literal only in a 96-bit form, a record exactly in classes 10 and 11 with MOD = 1 (R113). -/
abbrev FldOk (f : Fld) : Prop :=
  (f.form96 = false → f.lit = 0) ∧
    (f.tsr.isSome = true ↔ (f.opc.extractLsb' 6 4 = 10#4 ∨ f.opc.extractLsb' 6 4 = 11#4) ∧ f.md = true)

theorem rawOf_short (f : CFld) : rawOf (Raw.short f).parcels = .short f := by
  have h : f.word.getLsbD 0 = false := by simp (disch := decide) only [CFld.word, bit_lo]; decide
  simp only [rawOf, Raw.parcels, List.getD_cons_zero, h, if_true, ofWord_cword]

theorem word_bits (f : Fld) : f.word.getLsbD 0 = true ∧ f.word.getLsbD 1 = f.form96 ∧
    f.word.extractLsb' 12 4 = f.opc.extractLsb' 6 4 ∧ f.word.getLsbD 63 = f.md := by
  have h := congrArg Fld.form96 (ofWord_word f)
  have h2 := congrArg Fld.md (ofWord_word f)
  refine ⟨?_, h, ?_, h2⟩
  · simp (disch := decide) only [Fld.word, bit_lo]; cases f.form96 <;> simp
  · have h3 := congrArg Fld.opc (ofWord_word f)
    rw [← h3]; simp only [Fld.ofWord]
    apply BitVec.eq_of_getLsbD_eq; intro i hi
    simp only [BitVec.getLsbD_extractLsb', hi, show 6 + i < 10 by omega, decide_true, Bool.true_and]
    rw [show 6 + (6 + i) = 12 + i by omega]

/-- The first two parcels, by what the parcel count reads of them. -/
theorem head_bits (f : Fld) : (f.word.extractLsb' 0 32).getLsbD 0 = true ∧ (f.word.extractLsb' 0 32).getLsbD 1 = f.form96 ∧
    (f.word.extractLsb' 0 32).extractLsb' 12 4 = f.opc.extractLsb' 6 4 ∧ (f.word.extractLsb' 32 32).getLsbD 31 = f.md := by
  obtain ⟨h0, h1, h2, h3⟩ := word_bits f
  refine ⟨by simpa [BitVec.getLsbD_extractLsb'] using h0, by simpa [BitVec.getLsbD_extractLsb'] using h1, ?_,
    by simpa [BitVec.getLsbD_extractLsb'] using h3⟩
  rw [← h2]; apply BitVec.eq_of_getLsbD_eq; intro i hi
  simp [BitVec.getLsbD_extractLsb', hi, show 12 + i < 32 by omega]

theorem parcelCount_head (f : Fld) (h : FldOk f) (p0 p1 : Parcel) (e0 : p0.getLsbD 0 = true) (e1 : p0.getLsbD 1 = f.form96)
    (e2 : p0.extractLsb' 12 4 = f.opc.extractLsb' 6 4) (e3 : p1.getLsbD 31 = f.md) :
    parcelCount p0 p1 = (if f.form96 then 3 else 2) + (if f.tsr.isSome then 4 else 0) := by
  have hb : ((f.opc.extractLsb' 6 4 == 10#4 || f.opc.extractLsb' 6 4 == 11#4) && f.md) = f.tsr.isSome := by
    rw [Bool.eq_iff_iff, h.2]; simp
  rw [parcelCount, e0, e1, e2, e3, hb]; simp

/-- Parcels read back as the fields they were made of (R113 to R117). -/
theorem rawOf_long (f : Fld) (h : FldOk f) : rawOf (Raw.long f).parcels = .long f := by
  obtain ⟨e0, e1, e2, e3⟩ := head_bits f
  have hc := parcelCount_head f h _ _ e0 e1 e2 e3
  have hw := ofWord_word f
  rw [← halves f.word] at hw
  obtain ⟨l0, -⟩ := h
  simp only [Raw.parcels]
  generalize f.word.extractLsb' 0 32 = p0 at *
  generalize f.word.extractLsb' 32 32 = p1 at *
  cases hf : f.form96 <;> cases ht : f.tsr <;> rw [hf, ht] at hc <;> rw [hf] at e1 <;> rw [ht] at hw <;>
    simp only [BitVec.getLsbD_eq_getElem (show 0 < 32 by decide), BitVec.getLsbD_eq_getElem (show 1 < 32 by decide)] at e0 e1
  · rw [l0 hf] at hw; simpa [rawOf, e0, e1, hc] using hw
  · rw [l0 hf] at hw; simpa [rawOf, e0, e1, hc, quarters] using hw
  · simpa [rawOf, e0, e1, hc] using hw
  · simpa [rawOf, e0, e1, hc, quarters] using hw

theorem lowOne_zero (n : Nat) : lowOne (0#n) = [] := by
  have : (List.range n).find? (fun k => (0#n).getLsbD k) = none := by simp
  simp only [lowOne, this]

/-- An instruction whose fields parse to it, with no field out of its range, decodes to itself. -/
theorem decode_encode_long (i : Instr) (f : Fld) (hr : i.raw = some (.long f)) (hf : FldOk f) (hp : parseLong f = some (i, [])) :
    decode (encode i) = .instr i := by
  have hz : mustBeZero (.long f) i = [] := by simp [mustBeZero, hr, lowOne_zero]
  simp only [decode, encode, hr, rawOf_long f hf, Raw.parse, hp, hz]
  rfl

theorem decode_encode_short (i : Instr) (f : CFld) (hr : i.raw = some (.short f)) (hp : parseShort f = some (i, [])) :
    decode (encode i) = .instr i := by
  have hz : mustBeZero (.short f) i = [] := by simp [mustBeZero, hr, lowOne_zero]
  simp only [decode, encode, hr, rawOf_short f, Raw.parse, hp, hz]
  rfl

end Sys2Proof.Laws
end

