-- ==== Sys2Proof/Laws/Forms.lean ====
section
/-! SUPPORT. The fields of every form read back: for each form of the encoding tables, the parser of the form gives the form's fields. -/

set_option linter.unusedSimpArgs false

namespace Sys2Proof.Laws

@[simp] theorem tyW_ty (ty : Ty) (hi : BitVec 3) (sat : Bool) : (tyW ty hi sat).extractLsb' 0 5 = ty.code := by
  simp (disch := decide) only [tyW, slice_lo]
@[simp] theorem tyW_hi (ty : Ty) (hi : BitVec 3) (sat : Bool) : (tyW ty hi sat).extractLsb' 5 3 = hi := by
  simp (disch := decide) only [tyW, slice_hi, slice_lo, Nat.reduceSub]
@[simp] theorem tyW_sat (ty : Ty) (hi : BitVec 3) (sat : Bool) : (tyW ty hi sat).getLsbD 8 = sat := by
  simp (disch := decide) only [tyW, bit_hi, bit_lo, Nat.reduceSub]; cases sat <;> rfl
@[simp] theorem memC_sem (m : MemW) : (memC m).extractLsb' 0 3 = semCode m.sem := by
  simp (disch := decide) only [memC, slice_lo]
@[simp] theorem memC_scp (m : MemW) : (memC m).extractLsb' 3 3 = scpCode m.scp := by
  simp (disch := decide) only [memC, slice_hi, slice_lo, Nat.reduceSub]
@[simp] theorem memC_ty (m : MemW) : (memC m).extractLsb' 6 5 = m.ty.code := by
  simp (disch := decide) only [memC, slice_hi, slice_all, Nat.reduceSub]
@[simp] theorem scpC_scp (s : Scp) : (scpC s).extractLsb' 3 3 = scpCode s := by
  simp (disch := decide) only [scpC, slice_hi, slice_lo, Nat.reduceSub]
@[simp] theorem condW_neg (n : Bool) (m : BitVec 3) : (condW n m).getLsbD 3 = n := by
  simp (disch := decide) only [condW, bit_hi, bit_lo, Nat.reduceSub]; cases n <;> rfl
@[simp] theorem condW_m (n : Bool) (m : BitVec 3) : (condW n m).extractLsb' 0 3 = m := by
  simp (disch := decide) only [condW, slice_lo]
@[simp] theorem pCw_cwW (w : Cw) : pCw (cwW w) = w := by
  obtain ⟨b, s⟩ := w
  simp (disch := decide) only [pCw, cwW, slice_lo, bit_hi, Nat.reduceSub]; cases b <;> rfl
@[simp] theorem ofCode_code (ty : Ty) : Ty.ofCode ty.code = some ty := by cases ty <;> rfl
@[simp] theorem rmoOf_rmoCode (r : Rmo) : rmoOf (rmoCode r) = some r := by cases r <;> rfl
@[simp] theorem cndOf_cndCode (c : Cnd) : cndOf (cndCode c) = c := by cases c <;> rfl
@[simp] theorem semOf_semCode (c : Sem) : semOf (semCode c) = some c := by cases c <;> rfl
@[simp] theorem scpOf_scpCode (c : Scp) : scpOf (scpCode c) = some c := by cases c <;> rfl
@[simp] theorem rej_join (r : BitVec 22) : rejHi r ++ rejLo r = r := by
  apply BitVec.eq_of_getLsbD_eq; intro i hi
  simp only [rejHi, rejLo, BitVec.getLsbD_append, BitVec.getLsbD_extractLsb']
  split <;> rename_i h
  · simp [h]
  · simp [show i - 11 < 11 by omega, show 11 + (i - 11) = i by omega]

theorem pTy_of (tys : List Ty) (f : Fld) (ty : Ty) (hi : BitVec 3) (sat : Bool) (hc : f.c = tyW ty hi sat) (h : tys.contains ty = true) :
    pTy tys f = some ty := by simp [pTy, hc, Option.filter]; simpa using h
theorem pHi_of (f : Fld) (ty : Ty) (hi : BitVec 3) (sat : Bool) (hc : f.c = tyW ty hi sat) : pHi f = hi := by simp [pHi, hc]
theorem pSat_of (f : Fld) (ty : Ty) (hi : BitVec 3) (sat : Bool) (hc : f.c = tyW ty hi sat) : pSat f = sat := by rw [pSat, hc, tyW_sat]
theorem pRmo_of (f : Fld) (ty : Ty) (r : Rmo) (sat : Bool) (hc : f.c = tyW ty (rmoCode r) sat) : pRmo f = (r, []) := by
  simp [pRmo, pHi_of f _ _ _ hc]
theorem pCnd_of (fp : Bool) (f : Fld) (ty : Ty) (c : Cnd) (sat : Bool) (hc : f.c = tyW ty (cndCode c) sat) (h : cndOk fp ty c = true) :
    pCnd fp ty f = (c, []) := by simp [pCnd, pHi_of f _ _ _ hc, h]
theorem pMem_of (tys : List Ty) (sems : List Sem) (f : Fld) (m : MemW) (hc : f.c = memC m) (h : memOk tys sems m = true) :
    pMem tys sems f = some (m, []) := by
  obtain ⟨sem, scp, ty⟩ := m
  simp [memOk] at h
  simp [pMem, hc, Option.filter, h.1]
  rintro rfl
  exact (by simpa using h.2 : scp = Scp.wave).symm
theorem pScp_of (lock : Bool) (f : Fld) (s : Scp) (hc : f.c = scpC s) (h : lock = true → lockScpOk s = true) : pScp lock f = (s, []) := by
  cases lock <;> simp_all [pScp]

@[simp] theorem withSB_c (f : Fld) (b : SB) : (f.withSB b).c = f.c := by cases b <;> rfl
@[simp] theorem withVB_c (f : Fld) (b : VB) : (f.withVB b).c = f.c := by cases b <;> rfl
@[simp] theorem withOff_c (f : Fld) (b : Off) : (f.withOff b).c = f.c := by cases b <;> rfl
@[simp] theorem pSB_with (f : Fld) (b : SB) (h : f.form96 = false) : pSB (f.withSB b) = b := by cases b <;> simp [pSB, Fld.withSB, h]
@[simp] theorem pVB_with (f : Fld) (b : VB) (h : f.form96 = false) (h2 : f.md = false) : pVB (f.withVB b) = b := by
  cases b <;> simp [pVB, Fld.withVB, h, h2]
@[simp] theorem pOff_with (f : Fld) (b : Off) (h : f.form96 = false) : pOff (f.withOff b) = b := by cases b <;> simp [pOff, Fld.withOff, h]
@[simp] theorem pTgt_with (f : Fld) (b : Tgt) (h : f.form96 = false) : pTgt (f.withTgt b) = b := by cases b <;> simp [pTgt, Fld.withTgt, h]


theorem no96_of (f : Fld) (r : Parse) (h : f.form96 = false) : no96 f r = r := by simp [no96, h]
theorem only96_of (f : Fld) (r : Parse) (h : f.form96 = true) : only96 f r = r := by simp [only96, h]
@[simp] theorem sel_bit (b : Bool) : (0#10 ++ BitVec.ofBool b).getLsbD 0 = b := by
  rw [bit_lo _ _ _ (by decide)]; cases b <;> rfl
theorem lit0_of (res : Bool) (f : Fld) (h : f.form96 = false) : lit0 res f = some [] := by simp [lit0, h]

theorem rt_SBinSat (o : BitVec 10) (tys : List Ty) (mk : SBinSatF → Instr) (p : SBinSatF) (h : wfSBinSat tys p = true) :
    pSBinSat tys mk (eSBinSat o p) = some (mk p, []) := by
  simp only [wfSBinSat, Bool.and_eq_true, List.isEmpty_iff] at h
  have hc : (eSBinSat o p).c = tyW p.ty (0) p.sat := by simp [eSBinSat, eB]
  have hb : pSB (eSBinSat o p) = p.b := pSB_with _ _ rfl
  simp only [pSBinSat, pTy_of tys _ _ _ _ hc h.1, pSat_of _ _ _ _ hc, hb, h.2, List.append_nil]
  obtain ⟨⟨_, _⟩, d, a, b, ty, sat⟩ := p
  cases b <;> rfl

theorem rt_SBin (o : BitVec 10) (tys : List Ty) (mk : SBinF → Instr) (p : SBinF) (h : wfSBin tys p = true) :
    pSBin tys mk (eSBin o p) = some (mk p, []) := by
  simp only [wfSBin, Bool.and_eq_true, List.isEmpty_iff] at h
  have hc : (eSBin o p).c = tyW p.ty (0) false := by simp [eSBin, eB]
  have hb : pSB (eSBin o p) = p.b := pSB_with _ _ rfl
  simp only [pSBin, pTy_of tys _ _ _ _ hc h.1, hb, h.2, List.append_nil]
  obtain ⟨⟨_, _⟩, d, a, b, ty⟩ := p
  cases b <;> rfl

theorem rt_SUn (o : BitVec 10) (tys : List Ty) (res : Bool) (mk : SUnF → Instr) (p : SUnF) (h : wfSUn tys p = true) :
    pSUn tys res mk (eSUn o p) = some (mk p, []) := by
  simp only [wfSUn, Bool.and_eq_true, List.isEmpty_iff] at h
  have hc : (eSUn o p).c = tyW p.ty (0) false := by simp [eSUn, eB]
  simp only [pSUn, pTy_of tys _ _ _ _ hc h, lit0_of _ _ (show (eSUn o p).form96 = false from rfl), List.append_nil]
  obtain ⟨⟨_, _⟩, d, a, ty⟩ := p
  rfl

theorem rt_SMov (o : BitVec 10) (tys : List Ty) (mk : SMovF → Instr) (p : SMovF) (h : wfSMov tys p = true) :
    pSMov tys mk (eSMov o p) = some (mk p, []) := by
  simp only [wfSMov, Bool.and_eq_true, List.isEmpty_iff] at h
  have hc : (eSMov o p).c = tyW p.ty (0) false := by simp [eSMov, eB]
  have hb : pSB (eSMov o p) = p.b := pSB_with _ _ rfl
  simp only [pSMov, pTy_of tys _ _ _ _ hc h.1, hb, h.2, List.append_nil]
  obtain ⟨⟨_, _⟩, d, b, ty⟩ := p
  cases b <;> rfl

theorem rt_SCmp (o : BitVec 10)  (mk : SCmpF → Instr) (p : SCmpF) (h : wfSCmp p = true) :
    pSCmp  mk (eSCmp o p) = some (mk p, []) := by
  simp only [wfSCmp, Bool.and_eq_true, List.isEmpty_iff] at h
  have hc : (eSCmp o p).c = tyW p.ty (cndCode p.cnd) false := by simp [eSCmp, eB]
  have hb : pSB (eSCmp o p) = p.b := pSB_with _ _ rfl
  simp only [pSCmp, pTy_of _ _ _ _ _ hc h.1.1, pCnd_of false _ _ _ _ hc h.1.2, hb, h.2, List.append_nil]
  obtain ⟨⟨_, _⟩, d, a, b, ty, cnd⟩ := p
  cases b <;> rfl

theorem rt_VBinSat (o : BitVec 10) (tys : List Ty) (mk : VBinSatF → Instr) (p : VBinSatF) (h : wfVBinSat tys p = true) :
    pVBinSat tys mk (eVBinSat o p) = some (mk p, []) := by
  simp only [wfVBinSat, Bool.and_eq_true, List.isEmpty_iff] at h
  have hc : (eVBinSat o p).c = tyW p.ty (0) p.sat := by simp [eVBinSat, eB]
  have hb : pVB (eVBinSat o p) = p.b := pVB_with _ _ rfl rfl
  simp only [pVBinSat, pTy_of tys _ _ _ _ hc h.1, pSat_of _ _ _ _ hc, hb, h.2, List.append_nil]
  obtain ⟨⟨_, _⟩, d, a, b, ty, sat⟩ := p
  cases b <;> rfl

theorem rt_VBin (o : BitVec 10) (tys : List Ty) (mk : VBinF → Instr) (p : VBinF) (h : wfVBin tys p = true) :
    pVBin tys mk (eVBin o p) = some (mk p, []) := by
  simp only [wfVBin, Bool.and_eq_true, List.isEmpty_iff] at h
  have hc : (eVBin o p).c = tyW p.ty (0) false := by simp [eVBin, eB]
  have hb : pVB (eVBin o p) = p.b := pVB_with _ _ rfl rfl
  simp only [pVBin, pTy_of tys _ _ _ _ hc h.1, hb, h.2, List.append_nil]
  obtain ⟨⟨_, _⟩, d, a, b, ty⟩ := p
  cases b <;> rfl

theorem rt_VUnSat (o : BitVec 10) (tys : List Ty) (mk : VUnSatF → Instr) (p : VUnSatF) (h : wfVUnSat tys p = true) :
    pVUnSat tys mk (eVUnSat o p) = some (mk p, []) := by
  simp only [wfVUnSat, Bool.and_eq_true, List.isEmpty_iff] at h
  have hc : (eVUnSat o p).c = tyW p.ty (0) p.sat := by simp [eVUnSat, eB]
  simp only [pVUnSat, pTy_of tys _ _ _ _ hc h, pSat_of _ _ _ _ hc, lit0_of _ _ (show (eVUnSat o p).form96 = false from rfl), List.append_nil]
  obtain ⟨⟨_, _⟩, d, a, ty, sat⟩ := p
  rfl

theorem rt_VUn (o : BitVec 10) (tys : List Ty) (res : Bool) (mk : VUnF → Instr) (p : VUnF) (h : wfVUn tys p = true) :
    pVUn tys res mk (eVUn o p) = some (mk p, []) := by
  simp only [wfVUn, Bool.and_eq_true, List.isEmpty_iff] at h
  have hc : (eVUn o p).c = tyW p.ty (0) false := by simp [eVUn, eB]
  simp only [pVUn, pTy_of tys _ _ _ _ hc h, lit0_of _ _ (show (eVUn o p).form96 = false from rfl), List.append_nil]
  obtain ⟨⟨_, _⟩, d, a, ty⟩ := p
  rfl

theorem rt_VMov (o : BitVec 10) (tys : List Ty) (mk : VMovF → Instr) (p : VMovF) (h : wfVMov tys p = true) :
    pVMov tys mk (eVMov o p) = some (mk p, []) := by
  simp only [wfVMov, Bool.and_eq_true, List.isEmpty_iff] at h
  have hc : (eVMov o p).c = tyW p.ty (0) false := by simp [eVMov, eB]
  have hb : pVB (eVMov o p) = p.b := pVB_with _ _ rfl rfl
  simp only [pVMov, pTy_of tys _ _ _ _ hc h.1, hb, h.2, List.append_nil]
  obtain ⟨⟨_, _⟩, d, b, ty⟩ := p
  cases b <;> rfl

theorem rt_VCmp (o : BitVec 10) (fp : Bool) (mk : VCmpF → Instr) (p : VCmpF) (h : wfVCmp fp p = true) :
    pVCmp fp mk (eVCmp o p) = some (mk p, []) := by
  simp only [wfVCmp, Bool.and_eq_true, List.isEmpty_iff] at h
  have hc : (eVCmp o p).c = tyW p.ty (cndCode p.cnd) false := by simp [eVCmp, eB]
  have hb : pVB (eVCmp o p) = p.b := pVB_with _ _ rfl rfl
  simp only [pVCmp, pTy_of _ _ _ _ _ hc h.1.1, pCnd_of fp _ _ _ _ hc h.1.2, hb, h.2, List.append_nil]
  obtain ⟨⟨_, _⟩, d, a, b, ty, cnd⟩ := p
  cases b <;> rfl

theorem rt_FBin (o : BitVec 10)  (mk : FBinF → Instr) (p : FBinF) (h : wfFBin p = true) :
    pFBin  mk (eFBin o p) = some (mk p, []) := by
  simp only [wfFBin, Bool.and_eq_true, List.isEmpty_iff] at h
  have hc : (eFBin o p).c = tyW p.ty (rmoCode p.rmo) false := by simp [eFBin, eB]
  have hb : pVB (eFBin o p) = p.b := pVB_with _ _ rfl rfl
  simp only [pFBin, pTy_of _ _ _ _ _ hc h.1, pRmo_of _ _ _ _ hc, hb, h.2, List.append_nil]
  obtain ⟨⟨_, _⟩, d, a, b, ty, rmo⟩ := p
  cases b <;> rfl

theorem rt_FUnR (o : BitVec 10) (tys : List Ty) (res : Bool) (mk : FUnRF → Instr) (p : FUnRF) (h : wfFUnR tys p = true) :
    pFUnR tys res mk (eFUnR o p) = some (mk p, []) := by
  simp only [wfFUnR, Bool.and_eq_true, List.isEmpty_iff] at h
  have hc : (eFUnR o p).c = tyW p.ty (rmoCode p.rmo) false := by simp [eFUnR, eB]
  simp only [pFUnR, pTy_of tys _ _ _ _ hc h, pRmo_of _ _ _ _ hc, lit0_of _ _ (show (eFUnR o p).form96 = false from rfl), List.append_nil]
  obtain ⟨⟨_, _⟩, d, a, ty, rmo⟩ := p
  rfl

theorem rt_Xl (o : BitVec 10) (tys : List Ty) (mk : XlF → Instr) (p : XlF) (h : wfXl tys p = true) :
    pXl tys mk (eXl o p) = some (mk p, []) := by
  simp only [wfXl, Bool.and_eq_true, List.isEmpty_iff] at h
  have hc : (eXl o p).c = tyW p.ty (0) false := by simp [eXl, eB]
  simp only [pXl, no96_of _ _ (show (eXl o p).form96 = false from rfl), pTy_of tys _ _ _ _ hc h, List.append_nil]
  obtain ⟨⟨_, _⟩, z, d, a, b, ty⟩ := p
  rfl

theorem rt_XaAdd (o : BitVec 10)  (mk : XaAddF → Instr) (p : XaAddF) (h : wfXaAdd p = true) :
    pXaAdd  mk (eXaAdd o p) = some (mk p, []) := by
  simp only [wfXaAdd, Bool.and_eq_true, List.isEmpty_iff] at h
  have hc : (eXaAdd o p).c = tyW p.ty (0) false := by simp [eXaAdd, eB]
  simp only [pXaAdd, no96_of _ _ (show (eXaAdd o p).form96 = false from rfl), pTy_of _ _ _ _ _ hc h, List.append_nil]
  obtain ⟨⟨_, _⟩, a, ty⟩ := p
  rfl

theorem rt_XaMac (o : BitVec 10)  (mk : XaMacF → Instr) (p : XaMacF) (h : wfXaMac p = true) :
    pXaMac  mk (eXaMac o p) = some (mk p, []) := by
  simp only [wfXaMac, Bool.and_eq_true, List.isEmpty_iff] at h
  have hc : (eXaMac o p).c = tyW p.ty (0) false := by simp [eXaMac, eB]
  simp only [pXaMac, no96_of _ _ (show (eXaMac o p).form96 = false from rfl), pTy_of _ _ _ _ _ hc h, List.append_nil]
  obtain ⟨⟨_, _⟩, a, b, ty⟩ := p
  rfl

theorem rt_XaRnd (o : BitVec 10)  (mk : XaRndF → Instr) (p : XaRndF) (h : wfXaRnd p = true) :
    pXaRnd  mk (eXaRnd o p) = some (mk p, []) := by
  simp only [wfXaRnd, Bool.and_eq_true, List.isEmpty_iff] at h
  have hc : (eXaRnd o p).c = tyW p.ty (rmoCode p.rmo) p.sat := by simp [eXaRnd, eB]
  simp only [pXaRnd, no96_of _ _ (show (eXaRnd o p).form96 = false from rfl), pTy_of _ _ _ _ _ hc h, pSat_of _ _ _ _ hc, pRmo_of _ _ _ _ hc, List.append_nil]
  obtain ⟨⟨_, _⟩, d, ty, rmo, sat⟩ := p
  rfl

theorem rt_FDiv (o : BitVec 10)  (mk : FDivF → Instr) (p : FDivF) (h : wfFDiv p = true) :
    pFDiv  mk (eFDiv o p) = some (mk p, []) := by
  simp only [wfFDiv, Bool.and_eq_true, List.isEmpty_iff] at h
  have hc : (eFDiv o p).c = tyW p.ty (rmoCode p.rmo) false := by simp [eFDiv, eB]
  simp only [pFDiv, no96_of _ _ (show (eFDiv o p).form96 = false from rfl), pTy_of _ _ _ _ _ hc h, pRmo_of _ _ _ _ hc, List.append_nil]
  obtain ⟨⟨_, _⟩, d, a, b, ty, rmo⟩ := p
  rfl

theorem rt_Ldexp (o : BitVec 10)  (mk : FBinF → Instr) (p : FBinF) (h : wfLdexp p = true) :
    pLdexp  mk (eLdexp  o p) = some (mk p, []) := by
  simp only [wfLdexp, Bool.and_eq_true, List.isEmpty_iff] at h
  have hc : (eLdexp o p).c = tyW p.ty (rmoCode p.rmo) false := by simp [eLdexp, eFBin, eB]
  have hb : pVB (eLdexp o p) = p.b := pVB_with _ _ rfl rfl
  simp only [pLdexp, pTy_of _ _ _ _ _ hc h.1, pRmo_of _ _ _ _ hc, hb, h.2, List.append_nil]
  obtain ⟨⟨_, _⟩, d, a, b, ty, rmo⟩ := p
  cases b <;> rfl

theorem rt_Cvt (o : BitVec 10) (k : CvtKind) (mk : CvtF → Instr) (p : CvtF) (h : wfCvt k p = true) :
    pCvt k mk (eCvt  o p) = some (mk p, []) := by
  have hc : (eCvt o p).c = tyW p.dst (rmoCode p.rmo) p.sat := rfl
  have hd : tysF6IN.contains p.dst = true := by simp only [wfCvt, cvtOk, Bool.and_eq_true] at h; exact h.1.1
  have hs : (eCvt o p).b.extractLsb' 0 5 = p.src.code := by simp only [eCvt, withSB_c, withVB_c, eB, slice_lo]
  simp only [wfCvt] at h
  simp only [pCvt, no96_of _ _ (show (eCvt o p).form96 = false from rfl), pTy_of _ _ _ _ _ hc hd, pRmo_of _ _ _ _ hc, pSat_of _ _ _ _ hc, hs, ofCode_code, h, if_true]
  obtain ⟨⟨_, _⟩, d, a, src, dst, rmo, sat⟩ := p
  rfl

theorem rt_XlSh (o : BitVec 10)  (mk : XlF → Instr) (p : XlF) (h : wfXlSh p = true) :
    pXlSh  mk (eXlSh  o p) = some (mk p, []) := by
  simp only [wfXlSh, Bool.and_eq_true, decide_eq_true_eq] at h
  have hc : (eXlSh o p).c = tyW p.ty 0 false := rfl
  have hb : (eXlSh o p).b = p.b := rfl
  simp only [pXlSh, no96_of _ _ (show (eXlSh o p).form96 = false from rfl), pTy_of _ _ _ _ _ hc h.1, hb, h.2, if_true]
  obtain ⟨⟨_, _⟩, z, d, a, b, ty⟩ := p
  rfl

theorem rt_RedAdd (o : BitVec 10)  (mk : RedAddF → Instr) (p : RedAddF) (h : wfRedAdd p = true) :
    pRedAdd  mk (eRedAdd  o p) = some (mk p, []) := by
  simp only [wfRedAdd, Bool.and_eq_true, Bool.or_eq_true, beq_iff_eq] at h
  have hc : (eRedAdd o p).c = tyW p.ty (rmoCode p.rmo) false := rfl
  simp only [pRedAdd, no96_of _ _ (show (eRedAdd o p).form96 = false from rfl), pTy_of _ _ _ _ _ hc h.1, pRmo_of _ _ _ _ hc]
  obtain ⟨⟨_, _⟩, d, a, ty, rmo⟩ := p
  rcases h.2 with q | q <;> simp only at q
  · simp only [q, if_true]; rfl
  · subst q; cases ty.isF <;> rfl

theorem rt_XaGet (o : BitVec 10)  (mk : XaGetF → Instr) (p : XaGetF) (h : wfXaGet p = true) :
    pXaGet  mk (eXaGet  o p) = some (mk p, []) := by
  simp only [wfXaGet, decide_eq_true_eq] at h
  have hc : pChunk (eXaGet o p) = (p.c, []) := by simp only [pChunk, show (eXaGet o p).c = p.c from rfl, h, if_true]
  simp only [pXaGet, no96_of _ _ (show (eXaGet o p).form96 = false from rfl), hc]
  obtain ⟨⟨_, _⟩, d, c⟩ := p
  rfl

theorem rt_XaSet (o : BitVec 10)  (mk : XaSetF → Instr) (p : XaSetF) (h : wfXaSet p = true) :
    pXaSet  mk (eXaSet  o p) = some (mk p, []) := by
  simp only [wfXaSet, decide_eq_true_eq] at h
  have hc : pChunk (eXaSet o p) = (p.c, []) := by simp only [pChunk, show (eXaSet o p).c = p.c from rfl, h, if_true]
  simp only [pXaSet, no96_of _ _ (show (eXaSet o p).form96 = false from rfl), hc]
  obtain ⟨⟨_, _⟩, a, c⟩ := p
  rfl

theorem rt_Brx (o : BitVec 10)  (mk : BrxF → Instr) (p : BrxF) :
    pBrx  mk (eBrx  o p) = some (mk p, []) := by
  simp only [pBrx, no96_of _ _ (show (eBrx o p).form96 = false from rfl), show (eBrx o p).d = condW p.neg p.cond from rfl, condW_neg, condW_m]
  rfl

theorem rt_Br (o : BitVec 10)  (mk : BrF → Instr) (p : BrF) (h : (fun p : BrF => (tgtBad p.tgt).isEmpty) p = true) :
    pBr  mk (eBr  o p) = some (mk p, []) := by
  have ht : pTgt (eBr o p) = p.tgt := pTgt_with _ _ rfl
  have hd : (eBr o p).d = condW p.neg p.cond := by simp only [eBr]; cases p.tgt <;> rfl
  simp only [List.isEmpty_iff] at h
  simp only [pBr, ht, hd, condW_neg, condW_m, h]
  obtain ⟨neg, cond, tgt, stall⟩ := p
  cases tgt <;> rfl

theorem rt_BrD (o : BitVec 10)  (mk : BrDF → Instr) (p : BrDF) (h : (fun p : BrDF => (tgtBad p.tgt).isEmpty) p = true) :
    pBrD  mk (eBrD  o p) = some (mk p, []) := by
  have ht : pTgt (eBrD o p) = p.tgt := pTgt_with _ _ rfl
  have hd : (eBrD o p).d = condW p.neg p.cond ∧ (eBrD o p).a = rejHi p.rej ∧ (eBrD o p).b = rejLo p.rej := by
    simp only [eBrD]; cases p.tgt <;> exact ⟨rfl, rfl, rfl⟩
  simp only [List.isEmpty_iff] at h
  simp only [pBrD, ht, hd, condW_neg, condW_m, rej_join, h]
  obtain ⟨neg, cond, rej, tgt, stall⟩ := p
  cases tgt <;> rfl

theorem rt_Call (o : BitVec 10)  (mk : CallF → Instr) (p : CallF) (h : (fun p : CallF => (tgtBad p.tgt).isEmpty) p = true) :
    pCall  mk (eCall  o p) = some (mk p, []) := by
  have ht : pTgt (eCall o p) = p.tgt := pTgt_with _ _ rfl
  simp only [List.isEmpty_iff] at h
  simp only [pCall, ht, h]
  obtain ⟨d, tgt, stall⟩ := p
  cases tgt <;> rfl

theorem rt_Ret (o : BitVec 10)  (mk : RetF → Instr) (p : RetF) :
    pRet  mk (eRet  o p) = some (mk p, []) := by
  rfl

theorem rt_Nop (o : BitVec 10)  (mk : NopF → Instr) (p : NopF) :
    pNop  mk (eNop  o p) = some (mk p, []) := by
  rfl

theorem rt_Brk (o : BitVec 10)  (mk : BrkF → Instr) (p : BrkF) :
    pBrk  mk (eBrk  o p) = some (mk p, []) := by
  rfl

theorem rt_CbDec (o : BitVec 10)  (mk : CbDecF → Instr) (p : CbDecF) :
    pCbDec  mk (eCbDec  o p) = some (mk p, []) := by
  rfl

theorem rt_XlVote (o : BitVec 10)  (mk : XlVoteF → Instr) (p : XlVoteF) :
    pXlVote  mk (eXlVote  o p) = some (mk p, []) := by
  rfl

theorem rt_XaClr (o : BitVec 10)  (mk : XaClrF → Instr) (p : XaClrF) :
    pXaClr  mk (eXaClr  o p) = some (mk p, []) := by
  rfl

theorem rt_XaMerge (o : BitVec 10)  (mk : XaMergeF → Instr) (p : XaMergeF) :
    pXaMerge  mk (eXaMerge  o p) = some (mk p, []) := by
  rfl

theorem rt_SysS (o : BitVec 10)  (mk : SysSF → Instr) (p : SysSF) :
    pSysS  mk (eSysS  o p) = some (mk p, []) := by
  rfl

theorem rt_SysD (o : BitVec 10)  (mk : SysDF → Instr) (p : SysDF) :
    pSysD  mk (eSysD  o p) = some (mk p, []) := by
  rfl

theorem rt_Bare (o : BitVec 10)  (mk : BareF → Instr) (p : BareF) :
    pBare  mk (eBare  o p) = some (mk p, []) := by
  rfl

theorem rt_Mad (o : BitVec 10)  (mk : MadF → Instr) (p : MadF) :
    pMad  mk (eMad  o p) = some (mk p, []) := by
  rfl

theorem rt_DAB (o : BitVec 10)  (mk : DAB → Instr) (p : DAB) :
    pDAB  mk (eDAB  o p) = some (mk p, []) := by
  rfl

theorem rt_DOnly (o : BitVec 10)  (mk : DOnly → Instr) (p : DOnly) :
    pDOnly  mk (eDOnly  o p) = some (mk p, []) := by
  rfl

theorem rt_RegCl (o : BitVec 10)  (mk : RegClF → Instr) (p : RegClF) :
    pRegCl  mk (eRegCl  o p) = some (mk p, []) := by
  rfl

theorem rt_BinEmit (o : BitVec 10)  (mk : BinEmitF → Instr) (p : BinEmitF) :
    pBinEmit  mk (eBinEmit  o p) = some (mk p, []) := by
  rfl

theorem rt_SSel (o : BitVec 10)  (mk : SSelF → Instr) (p : SSelF) :
    pSSel  mk (eSSel  o p) = some (mk p, []) := by
  have hb : pSB (eSSel o p) = p.b := pSB_with _ _ rfl
  have hc : (eSSel o p).c.extractLsb' 0 7 = p.c := by simp only [eSSel, withSB_c, withVB_c, eB, slice_lo]
  simp only [pSSel, hb, hc]
  obtain ⟨⟨_, _⟩, d, a, b, c⟩ := p
  cases b <;> rfl

theorem rt_VSel (o : BitVec 10)  (mk : VSelF → Instr) (p : VSelF) :
    pVSel  mk (eVSel  o p) = some (mk p, []) := by
  have hb : pVB (eVSel o p) = p.b := pVB_with _ _ rfl rfl
  have hc : (eVSel o p).c.extractLsb' 0 3 = p.c := by simp only [eVSel, withSB_c, withVB_c, eB, slice_lo]
  simp only [pVSel, hb, hc]
  obtain ⟨⟨_, _⟩, d, a, b, c⟩ := p
  cases b <;> rfl

theorem low_zero (n : Nat) (x : BitVec n) (m from_ : Nat) (hm : n ≤ from_) (y : BitVec 32) (hy : ∀ k, from_ ≤ k → y.getLsbD k = false) :
    lowestOne y from_ m = none := by
  simp only [lowestOne, List.find?_eq_none, List.mem_map, List.mem_range]
  rintro k ⟨j, _, rfl⟩
  simp [hy (j + from_) (by omega)]

theorem rt_Trap (o : BitVec 10)  (mk : TrapF → Instr) (p : TrapF) :
    pTrap  mk (eTrap  o p) = some (mk p, []) := by
  have h1 : (0#16 ++ p.code).extractLsb' 0 16 = p.code := slice_lo _ _
  have h2 : lowestOne (0#16 ++ p.code) 16 16 = none := by
    apply low_zero 16 p.code; · omega
    intro k hk; rw [bit_hi _ _ _ hk]; simp
  have hl : (eTrap o p).lit = 0#16 ++ p.code := rfl
  simp only [pTrap, only96_of _ _ (show (eTrap o p).form96 = true from rfl), hl, h1, h2]
  rfl

theorem rt_Csr (o : BitVec 10)  (mk : SysIF → Instr) (p : SysIF) (h : wfCsr p = true) :
    pCsr  mk (eCsr  o p) = some (mk p, []) := by
  simp only [wfCsr] at h
  simp only [pCsr, no96_of _ _ (show (eCsr o p).form96 = false from rfl), show (eCsr o p).c = p.idx from rfl, h, if_true]
  rfl

theorem rt_Perf (o : BitVec 10)  (mk : SysIF → Instr) (p : SysIF) (h : wfPerf p = true) :
    pPerf  mk (ePerf  o p) = some (mk p, []) := by
  simp only [wfPerf] at h
  simp only [pPerf, no96_of _ _ (show (ePerf o p).form96 = false from rfl), show (ePerf o p).c = p.idx from rfl, h, if_true]
  rfl

theorem rt_Ld (o : BitVec 10) (tys : List Ty) (sems : List Sem) (mk : LdF → Instr) (p : LdF) (h : wfLd tys sems p = true) :
    pLd tys sems mk (eLd o p) = some (mk p, []) := by
  have hc : (eLd o p).c = memC p.mem := by simp [eLd, eB]
  have ho : pOff (eLd o p) = p.off := pOff_with _ _ rfl
  simp only [pLd, pMem_of _ _ _ _ hc h, ho]
  obtain ⟨⟨_, _⟩, d, a, mem, off⟩ := p
  cases off <;> rfl

theorem rt_St (o : BitVec 10) (tys : List Ty) (sems : List Sem) (mk : StF → Instr) (p : StF) (h : wfSt tys sems p = true) :
    pSt tys sems mk (eSt o p) = some (mk p, []) := by
  have hc : (eSt o p).c = memC p.mem := by simp [eSt, eB]
  have ho : pOff (eSt o p) = p.off := pOff_with _ _ rfl
  simp only [pSt, pMem_of _ _ _ _ hc h, ho]
  obtain ⟨⟨_, _⟩, a, b, mem, off⟩ := p
  cases off <;> rfl

theorem rt_At (o : BitVec 10) (tys : List Ty) (mk : AtF → Instr) (p : AtF) (h : wfAt tys p = true) :
    pAt tys mk (eAt o p) = some (mk p, []) := by
  have hc : (eAt o p).c = memC p.mem := by simp [eAt, eB]
  have ho : pOff (eAt o p) = p.off := pOff_with _ _ rfl
  simp only [pAt, pMem_of _ _ _ _ hc h, ho]
  obtain ⟨⟨_, _⟩, d, a, b, mem, off⟩ := p
  cases off <;> rfl

theorem rt_AtB (o : BitVec 10)  (mk : AtBF → Instr) (p : AtBF) (h : wfAtB p = true) :
    pAtB  mk (eAtB  o p) = some (mk p, []) := by
  have h1 : (0#29 ++ p.m).extractLsb' 0 3 = p.m := slice_lo _ _
  have h2 : lowestOne (0#29 ++ p.m) 3 29 = none := by
    apply low_zero 3 p.m; · omega
    intro k hk; rw [bit_hi _ _ _ hk]; simp
  have hl : (eAtB o p).lit = 0#29 ++ p.m := rfl
  have hc : (eAtB o p).c = memC p.mem := rfl
  simp only [pAtB, only96_of _ _ (show (eAtB o p).form96 = true from rfl), pMem_of _ _ _ _ hc h, hl, h1, h2]
  rfl

theorem rt_Pf (o : BitVec 10)  (mk : PfF → Instr) (p : PfF) :
    pPf  mk (ePf  o p) = some (mk p, []) := by
  have ho : pOff (ePf o p) = p.off := pOff_with _ _ rfl
  simp only [pPf, ho]
  obtain ⟨⟨_, _⟩, a, off⟩ := p
  cases off <;> rfl

theorem rt_Bo (o : BitVec 10)  (mk : BoF → Instr) (p : BoF) :
    pBo  mk (eBo  o p) = some (mk p, []) := by
  have ho : pOff (eBo o p) = p.off := pOff_with _ _ rfl
  simp only [pBo, ho]
  obtain ⟨⟨_, _⟩, a, b, off⟩ := p
  cases off <;> rfl

theorem rt_BoArrive (o : BitVec 10)  (mk : BoArriveF → Instr) (p : BoArriveF) :
    pBoArrive  mk (eBoArrive  o p) = some (mk p, []) := by
  have ho : pOff (eBoArrive o p) = p.off := pOff_with _ _ rfl
  simp only [pBoArrive, ho]
  obtain ⟨⟨_, _⟩, d, a, b, off⟩ := p
  cases off <;> rfl

theorem rt_OwnSet (o : BitVec 10)  (mk : OwnSetF → Instr) (p : OwnSetF) :
    pOwnSet  mk (eOwnSet  o p) = some (mk p, []) := by
  have ho : pOff (eOwnSet o p) = p.off := pOff_with _ _ rfl
  simp only [pOwnSet, ho]
  obtain ⟨⟨_, _⟩, d, a, b, off⟩ := p
  cases off <;> rfl

theorem rt_OwnClr (o : BitVec 10)  (mk : OwnClrF → Instr) (p : OwnClrF) :
    pOwnClr  mk (eOwnClr  o p) = some (mk p, []) := by
  have ho : pOff (eOwnClr o p) = p.off := pOff_with _ _ rfl
  simp only [pOwnClr, ho]
  obtain ⟨⟨_, _⟩, a, off⟩ := p
  cases off <;> rfl

theorem rt_Fence (o : BitVec 10)  (mk : FenceF → Instr) (p : FenceF) :
    pFence  mk (eFence  o p) = some (mk p, []) := by
  have hs := pScp_of false (eFence o p) p.scp rfl (by simp)
  simp only [pFence, no96_of _ _ (show (eFence o p).form96 = false from rfl), hs]
  rfl

theorem rt_Lock (o : BitVec 10)  (mk : LockF → Instr) (p : LockF) (h : wfLock p = true) :
    pLock  mk (eLock  o p) = some (mk p, []) := by
  have ho : pOff (eLock o p) = p.off := pOff_with _ _ rfl
  have hs := pScp_of true (eLock o p) p.scp (by simp [eLock, eB]) (fun _ => h)
  simp only [pLock, ho, hs]
  obtain ⟨⟨_, _⟩, a, scp, off⟩ := p
  cases off <;> rfl

theorem rt_LockTry (o : BitVec 10)  (mk : LockTryF → Instr) (p : LockTryF) (h : wfLockTry p = true) :
    pLockTry  mk (eLockTry  o p) = some (mk p, []) := by
  have ho : pOff (eLockTry o p) = p.off := pOff_with _ _ rfl
  have hs := pScp_of true (eLockTry o p) p.scp (by simp [eLockTry, eB]) (fun _ => h)
  simp only [pLockTry, ho, hs]
  obtain ⟨⟨_, _⟩, d, a, scp, off⟩ := p
  cases off <;> rfl

theorem rt_Dq (o : BitVec 10)  (mk : DqF → Instr) (p : DqF) (h : wfDq p = true) :
    pDq  mk (eDq  o p) = some (mk p, []) := by
  have ho : pOff (eDq o p) = p.off := pOff_with _ _ rfl
  have hs := pScp_of true (eDq o p) p.scp (by simp [eDq, eB]) (fun _ => h)
  simp only [pDq, ho, hs]
  obtain ⟨⟨_, _⟩, d, a, b, scp, off⟩ := p
  cases off <;> rfl

theorem rt_FeedSkip (o : BitVec 10)  (mk : FeedSkipF → Instr) (p : FeedSkipF) :
    pFeedSkip  mk (eFeedSkip  o p) = some (mk p, []) := by
  simp only [pFeedSkip, no96_of _ _ (show (eFeedSkip o p).form96 = false from rfl), show (eFeedSkip o p).b = 0#10 ++ BitVec.ofBool p.fsel from rfl, sel_bit]
  rfl

theorem rt_FeedMark (o : BitVec 10)  (mk : FeedMarkF → Instr) (p : FeedMarkF) :
    pFeedMark  mk (eFeedMark  o p) = some (mk p, []) := by
  simp only [pFeedMark, no96_of _ _ (show (eFeedMark o p).form96 = false from rfl), show (eFeedMark o p).b = 0#10 ++ BitVec.ofBool p.fsel from rfl, sel_bit]
  rfl

theorem rt_CbLoad (o : BitVec 10)  (mk : CbLoadF → Instr) (p : CbLoadF) :
    pCbLoad  mk (eCbLoad  o p) = some (mk p, []) := by
  simp only [pCbLoad, no96_of _ _ (show (eCbLoad o p).form96 = false from rfl), show (eCbLoad o p).d = 0#10 ++ BitVec.ofBool p.tsel from rfl, sel_bit]
  rfl

theorem rt_Ssm (o : BitVec 10)  (mk : SsmF → Instr) (p : SsmF) :
    pSsm  mk (eSsm  o p) = some (mk p, []) := by
  simp only [pSsm, no96_of _ _ (show (eSsm o p).form96 = false from rfl), show (eSsm o p).d = cwW p.cw from rfl, pCw_cwW]
  rfl

theorem rt_DA (o : BitVec 10) (k : BitVec 11) (mk : DA → Instr) (p : DA) :
    pDA  mk (eDA k o p) = some (mk p, []) := by
  rfl

theorem rt_A (o : BitVec 10) (k : BitVec 11) (mk : AOnly → Instr) (p : AOnly) :
    pA  mk (eA k o p) = some (mk p, []) := by
  rfl

theorem rt_AB (o : BitVec 10) (k : BitVec 11) (mk : ABF → Instr) (p : ABF) :
    pAB  mk (eAB k o p) = some (mk p, []) := by
  rfl

theorem rt_Spawn (o : BitVec 10)  (mk : SpawnF → Instr) (p : SpawnF) (h : wfSpawn p = true) :
    pSpawn  mk (eSpawn  o p) = some (mk p, []) := by
  simp only [wfSpawn, List.isEmpty_iff] at h
  simp only [pSpawn, only96_of _ _ (show (eSpawn o p).form96 = true from rfl), show (eSpawn o p).lit = p.tgt from rfl, h]
  rfl

theorem rt_RtTrace (o : BitVec 10)  (mk : RtTraceF → Instr) (p : RtTraceF) :
    pRtTrace  mk (eRtTrace  o p) = some (mk p, []) := by
  have hc : (eRtTrace o p).c.extractLsb' 0 7 = p.c := by simp only [eRtTrace, withSB_c, withVB_c, eB, slice_lo]
  simp only [pRtTrace, no96_of _ _ (show (eRtTrace o p).form96 = false from rfl), hc]
  rfl

theorem rt_RtReplay (o : BitVec 10)  (mk : RtReplayF → Instr) (p : RtReplayF) :
    pRtReplay  mk (eRtReplay  o p) = some (mk p, []) := by
  have hc : (eRtReplay o p).c.extractLsb' 0 7 = p.c := by simp only [eRtReplay, withSB_c, withVB_c, eB, slice_lo]
  simp only [pRtReplay, no96_of _ _ (show (eRtReplay o p).form96 = false from rfl), hc]
  rfl

theorem rt_AccClr (o : BitVec 10)  (mk : AccClrF → Instr) (p : AccClrF) (h : wfAccClr p = true) :
    pAccClr  mk (eAccClr  o p) = some (mk p, []) := by
  have h1 : (eAccClr o p).c = tyW p.ty 0 false := by simp only [eAccClr, eB, tyW]; cases p.ty <;> decide
  have h2 : (eAccClr o p).d.extractLsb' 0 4 = p.ad ∧ (eAccClr o p).a.extractLsb' 0 4 = p.mx ∧ (eAccClr o p).b.extractLsb' 0 4 = p.nx := by
    simp only [eAccClr, eB, slice_lo, and_self]
  simp only [pAccClr, no96_of _ _ (show (eAccClr o p).form96 = false from rfl), pTy_of _ _ _ _ _ h1 h, h2]
  rfl

theorem pRec_with (f : Fld) (r : Rec) (h : f.md = false) : pRec (f.withRec r) = r := by
  cases r <;> simp only [pRec, Fld.withRec, h, slice_lo]
@[simp] theorem withRec_d (f : Fld) (r : Rec) : (f.withRec r).d = f.d := by cases r <;> rfl
@[simp] theorem withRec_a (f : Fld) (r : Rec) : (f.withRec r).a = f.a := by cases r <;> rfl
@[simp] theorem withRec_b (f : Fld) (r : Rec) : (f.withRec r).b = f.b := by cases r <;> rfl
@[simp] theorem withRec_form96 (f : Fld) (r : Rec) : (f.withRec r).form96 = f.form96 := by cases r <;> rfl
@[simp] theorem withRec_hd (f : Fld) (r : Rec) : pHd (f.withRec r) = pHd f := by cases r <;> rfl
theorem pIty_of (f : Fld) (r : Rec) (t : Option Ty) (code : BitVec 5) (hr : pRec f = r) (hc : code = itC t) (h : recItyOk r t = true) :
    pIty f code = some t := by
  subst hc
  cases r <;> cases t <;> simp_all [pIty, recItyOk, itC]

theorem rt_Cp (o : BitVec 10) (k : CpKind) (mk : CpF → Instr) (p : CpF) (h : wfCp k p = true) :
    pCp k mk (eCp  o p) = some (mk p, []) := by
  simp only [wfCp, Bool.and_eq_true] at h
  have hr : pRec (eCp o p) = p.tsr := pRec_with _ _ rfl
  have hi : (eCp o p).b.extractLsb' 6 5 = itC p.ity := by
    simp (disch := decide) only [eCp, withRec_b, eB, slice_hi, slice_all, Nat.reduceSub]
  have hd : (eCp o p).b.extractLsb' 0 2 = p.dsel := by simp (disch := decide) only [eCp, withRec_b, eB, slice_lo]
  have hw : pCw (eCp o p).d = p.cw := by simp only [eCp, withRec_d, eB, pCw_cwW]
  have ha : (eCp o p).a = p.a := by simp only [eCp, withRec_a, eB]
  have hh : pHd (eCp o p) = p.h := (withRec_hd _ _).trans rfl
  simp only [pCp, no96_of _ _ (show (eCp o p).form96 = false by simp only [eCp, withRec_form96, eB]), hi, pIty_of _ _ _ _ hr rfl h.1, hd, hw, ha, hh, hr]
  obtain ⟨hd', cw, a, ity, dsel, tsr⟩ := p
  obtain ⟨h1, h2⟩ := h
  simp only at h2 ⊢
  by_cases hk : k = .cpin
  · simp only [hk, if_true, Bool.and_eq_true, bne_iff_ne, ne_eq, Bool.or_eq_true, beq_iff_eq] at h2 ⊢
    simp only [h2.1, if_false]
    by_cases hz : dsel = 0
    · simp [hz]
    · simp [hz, h2.2.resolve_left hz]
  · simp only [hk, if_false, beq_iff_eq] at h2 ⊢
    simp [h2]

theorem rt_AccLd (o : BitVec 10)  (mk : AccLdF → Instr) (p : AccLdF) (h : wfAccLd p = true) :
    pAccLd  mk (eAccLd  o p) = some (mk p, []) := by
  simp only [wfAccLd] at h
  have hr : pRec (eAccLd o p) = p.tsr := pRec_with _ _ rfl
  have hi : (eAccLd o p).b.extractLsb' 0 5 = itC p.ity := by simp (disch := decide) only [eAccLd, withRec_b, eB, slice_lo]
  have hd : (eAccLd o p).d.extractLsb' 0 4 = p.ad := by simp (disch := decide) only [eAccLd, withRec_d, eB, slice_lo]
  have hh : pHd (eAccLd o p) = p.h := (withRec_hd _ _).trans rfl
  simp only [pAccLd, no96_of _ _ (show (eAccLd o p).form96 = false by simp only [eAccLd, withRec_form96, eB]), hi, pIty_of _ _ _ _ hr rfl h, hd, hh, hr]

theorem rt_AccSt (o : BitVec 10)  (mk : AccStF → Instr) (p : AccStF) :
    pAccSt  mk (eAccSt  o p) = some (mk p, []) := by
  have hr : pRec (eAccSt o p) = p.tsr := pRec_with _ _ rfl
  have hb : (eAccSt o p).b.extractLsb' 0 7 = p.sb := by simp (disch := decide) only [eAccSt, withRec_b, eB, slice_lo]
  have hd : (eAccSt o p).d.extractLsb' 0 4 = p.ad := by simp (disch := decide) only [eAccSt, withRec_d, eB, slice_lo]
  have hw : pCw (eAccSt o p).a = p.cw := by simp only [eAccSt, withRec_a, eB, pCw_cwW]
  have hh : pHd (eAccSt o p) = p.h := (withRec_hd _ _).trans rfl
  simp only [pAccSt, no96_of _ _ (show (eAccSt o p).form96 = false by simp only [eAccSt, withRec_form96, eB]), hb, hd, hw, hh, hr]

theorem rt_Mma (o : BitVec 10) (scaled : Bool) (mk : MmaF → Instr) (p : MmaF) (h : wfMma scaled p = true) :
    pMma scaled mk (eMma  o p) = some (mk p, []) := by
  have h1 : (eMma o p).d.extractLsb' 0 4 = p.ad := by simp only [eMma, withSB_c, withVB_c, eB, slice_lo]
  have h2 : (eMma o p).a.extractLsb' 0 8 = p.kx := by simp only [eMma, withSB_c, withVB_c, eB, slice_lo]
  have h3 : (eMma o p).b.extractLsb' 0 3 = p.ablk := by simp (disch := decide) only [eMma, eB, slice_lo]
  have h4 : (eMma o p).b.extractLsb' 3 3 = p.bblk := by simp (disch := decide) only [eMma, eB, slice_hi, slice_lo, Nat.reduceSub]
  simp only [pMma, no96_of _ _ (show (eMma o p).form96 = false from rfl), h1, h2, h3, h4]
  obtain ⟨⟨_, _⟩, ad, kx, ablk, bblk⟩ := p
  cases scaled
  · simp only [wfMma, Bool.and_eq_true, beq_iff_eq, Bool.false_eq_true, if_false] at h
    simp [h, pHd, eMma, eB]
  · simp only [wfMma, Bool.and_eq_true, if_true] at h
    simp [h, pHd, eMma, eB]

theorem rt_AccMovGet (o : BitVec 10) (mg mp : AccMovF → Instr) (p : AccMovF) : pAccMov mg mp (eAccMov false o p) = some (mg p, []) := by
  obtain ⟨⟨_, _⟩, d, a, ad⟩ := p
  have hc : (0#6 ++ ad ++ BitVec.ofBool false).extractLsb' 1 4 = ad := by simp (disch := decide) only [slice_hi, slice_lo, Nat.reduceSub]
  have hz : (0#6 ++ ad ++ BitVec.ofBool false).getLsbD 0 = false := by simp (disch := decide) only [bit_lo]; rfl
  simp only [pAccMov, eAccMov, eB, no96, hc, hz]; rfl
theorem rt_AccMovPut (o : BitVec 10) (mg mp : AccMovF → Instr) (p : AccMovF) : pAccMov mg mp (eAccMov true o p) = some (mp p, []) := by
  obtain ⟨⟨_, _⟩, d, a, ad⟩ := p
  have hc : (0#6 ++ ad ++ BitVec.ofBool true).extractLsb' 1 4 = ad := by simp (disch := decide) only [slice_hi, slice_lo, Nat.reduceSub]
  have hz : (0#6 ++ ad ++ BitVec.ofBool true).getLsbD 0 = true := by simp (disch := decide) only [bit_lo]; rfl
  simp only [pAccMov, eAccMov, eB, no96, hc, hz]; rfl
theorem rt_FragOut (o : BitVec 10) (mk : FragOutF → Instr) (mi : FragInitF → Instr) (p : FragOutF) :
    pFrag mk mi (eFragOut o p) = some (mk p, []) := by
  obtain ⟨⟨_, _⟩, d, a, b, m⟩ := p
  have hc : (0#7 ++ 1#1 ++ m).extractLsb' 0 3 = m := by simp (disch := decide) only [slice_lo]
  have hz : (0#7 ++ 1#1 ++ m).getLsbD 3 = true := by simp (disch := decide) only [bit_hi, bit_lo]; rfl
  simp only [pFrag, eFragOut, eB, no96, hc, hz]; rfl
theorem rt_FragInit (o : BitVec 10) (mk : FragOutF → Instr) (mi : FragInitF → Instr) (p : FragInitF) :
    pFrag mk mi (eFragInit o p) = some (mi p, []) := by
  obtain ⟨⟨_, _⟩, d, a, m⟩ := p
  have hc : (0#8 ++ m).extractLsb' 0 3 = m := by simp (disch := decide) only [slice_lo]
  have hz : (0#8 ++ m).getLsbD 3 = false := by simp (disch := decide) only [bit_hi]; rfl
  simp only [pFrag, eFragInit, eB, no96, hc, hz]; rfl

end Sys2Proof.Laws
end

