-- ==== Sys2Proof/Laws/PerInstr.lean ====
section
/-! SUPPORT. Per instruction: decoding an encoded well-formed instruction gives it back (the encoding tables of chapters 9, 11, 13, 15 and 21). -/

set_option linter.unusedSimpArgs false

namespace Sys2Proof.Laws

/-- The parser of an opcode is its table entry. -/
theorem parseLong_of (f : Fld) (o : BitVec 10) (q : Fld → Parse) (r : Parse) (ho : f.opc = o)
    (ht : tableFind (o.toNat % 64) (opClass (o.toNat / 64)) = some q) (hq : q f = r) : parseLong f = r := by
  simp only [parseLong, ho, ht, hq]

theorem pC0_zero {r : Parse} (p0 p1 : Fld → Parse) (f : Fld) (h : f.c.getLsbD 0 = false) (hr : p0 f = r) : pC0 p0 p1 f = r := by simp only [pC0, h, hr]; rfl
theorem pC0_one {r : Parse} (p0 p1 : Fld → Parse) (f : Fld) (h : f.c.getLsbD 0 = true) (hr : p1 f = r) : pC0 p0 p1 f = r := by simp only [pC0, h, hr]; rfl

theorem ok_of (f : Fld) (o : BitVec 10) (ho : f.opc = o) (ht : f.tsr = none) (hl : f.form96 = false → f.lit = 0)
    (hc : (¬ (o.extractLsb' 6 4 = 10#4 ∨ o.extractLsb' 6 4 = 11#4)) ∨ f.md = false) : FldOk f := by
  refine ⟨hl, ?_⟩
  rw [ho, ht]
  rcases hc with h | h <;> simp [h]

theorem shape_eA (k : BitVec 11) (o : BitVec 10) (p : AOnly) :
    (eA k o p).opc = o ∧ (eA k o p).tsr = none ∧ ((eA k o p).form96 = false → (eA k o p).lit = 0) := by
  exact ⟨rfl, rfl, by simp [eA, eB, eBs]⟩

theorem shape_eAB (k : BitVec 11) (o : BitVec 10) (p : ABF) :
    (eAB k o p).opc = o ∧ (eAB k o p).tsr = none ∧ ((eAB k o p).form96 = false → (eAB k o p).lit = 0) := by
  exact ⟨rfl, rfl, by simp [eAB, eB, eBs]⟩

theorem shape_eAccClr  (o : BitVec 10) (p : AccClrF) :
    (eAccClr o p).opc = o ∧ (eAccClr o p).tsr = none ∧ ((eAccClr o p).form96 = false → (eAccClr o p).lit = 0) := by
  exact ⟨rfl, rfl, by simp [eAccClr, eB, eBs]⟩

theorem ok_eAccLd  (o : BitVec 10) (p : AccLdF) (hc : o.extractLsb' 6 4 = 10#4 ∨ o.extractLsb' 6 4 = 11#4) :
    (eAccLd o p).opc = o ∧ FldOk (eAccLd o p) := by
  simp only [eAccLd]; cases p.tsr <;> exact ⟨rfl, by simp [FldOk, Fld.withRec, eB, hc]⟩

theorem shape_eAccMov (put : Bool) (o : BitVec 10) (p : AccMovF) :
    (eAccMov put o p).opc = o ∧ (eAccMov put o p).tsr = none ∧ ((eAccMov put o p).form96 = false → (eAccMov put o p).lit = 0) := by
  exact ⟨rfl, rfl, by simp [eAccMov, eB, eBs]⟩

theorem ok_eAccSt  (o : BitVec 10) (p : AccStF) (hc : o.extractLsb' 6 4 = 10#4 ∨ o.extractLsb' 6 4 = 11#4) :
    (eAccSt o p).opc = o ∧ FldOk (eAccSt o p) := by
  simp only [eAccSt]; cases p.tsr <;> exact ⟨rfl, by simp [FldOk, Fld.withRec, eB, hc]⟩

theorem shape_eAt  (o : BitVec 10) (p : AtF) :
    (eAt o p).opc = o ∧ (eAt o p).tsr = none ∧ ((eAt o p).form96 = false → (eAt o p).lit = 0) := by
  simp only [eAt]; cases p.off <;> exact ⟨rfl, rfl, by simp [Fld.withOff, eB, eBs]⟩

theorem shape_eAtB  (o : BitVec 10) (p : AtBF) :
    (eAtB o p).opc = o ∧ (eAtB o p).tsr = none ∧ ((eAtB o p).form96 = false → (eAtB o p).lit = 0) := by
  exact ⟨rfl, rfl, by simp [eAtB, eB, eBs]⟩

theorem shape_eBare  (o : BitVec 10) (p : BareF) :
    (eBare o p).opc = o ∧ (eBare o p).tsr = none ∧ ((eBare o p).form96 = false → (eBare o p).lit = 0) := by
  exact ⟨rfl, rfl, by simp [eBare, eB, eBs]⟩

theorem shape_eBinEmit  (o : BitVec 10) (p : BinEmitF) :
    (eBinEmit o p).opc = o ∧ (eBinEmit o p).tsr = none ∧ ((eBinEmit o p).form96 = false → (eBinEmit o p).lit = 0) := by
  exact ⟨rfl, rfl, by simp [eBinEmit, eB, eBs]⟩

theorem shape_eBo  (o : BitVec 10) (p : BoF) :
    (eBo o p).opc = o ∧ (eBo o p).tsr = none ∧ ((eBo o p).form96 = false → (eBo o p).lit = 0) := by
  simp only [eBo]; cases p.off <;> exact ⟨rfl, rfl, by simp [Fld.withOff, eB, eBs]⟩

theorem shape_eBoArrive  (o : BitVec 10) (p : BoArriveF) :
    (eBoArrive o p).opc = o ∧ (eBoArrive o p).tsr = none ∧ ((eBoArrive o p).form96 = false → (eBoArrive o p).lit = 0) := by
  simp only [eBoArrive]; cases p.off <;> exact ⟨rfl, rfl, by simp [Fld.withOff, eB, eBs]⟩

theorem shape_eBr  (o : BitVec 10) (p : BrF) :
    (eBr o p).opc = o ∧ (eBr o p).tsr = none ∧ ((eBr o p).form96 = false → (eBr o p).lit = 0) := by
  simp only [eBr]; cases p.tgt <;> exact ⟨rfl, rfl, by simp [Fld.withTgt, eB, eBs]⟩

theorem shape_eBrD  (o : BitVec 10) (p : BrDF) :
    (eBrD o p).opc = o ∧ (eBrD o p).tsr = none ∧ ((eBrD o p).form96 = false → (eBrD o p).lit = 0) := by
  simp only [eBrD]; cases p.tgt <;> exact ⟨rfl, rfl, by simp [Fld.withTgt, eB, eBs]⟩

theorem shape_eBrk  (o : BitVec 10) (p : BrkF) :
    (eBrk o p).opc = o ∧ (eBrk o p).tsr = none ∧ ((eBrk o p).form96 = false → (eBrk o p).lit = 0) := by
  exact ⟨rfl, rfl, by simp [eBrk, eB, eBs]⟩

theorem shape_eBrx  (o : BitVec 10) (p : BrxF) :
    (eBrx o p).opc = o ∧ (eBrx o p).tsr = none ∧ ((eBrx o p).form96 = false → (eBrx o p).lit = 0) := by
  exact ⟨rfl, rfl, by simp [eBrx, eB, eBs]⟩

theorem shape_eCall  (o : BitVec 10) (p : CallF) :
    (eCall o p).opc = o ∧ (eCall o p).tsr = none ∧ ((eCall o p).form96 = false → (eCall o p).lit = 0) := by
  simp only [eCall]; cases p.tgt <;> exact ⟨rfl, rfl, by simp [Fld.withTgt, eB, eBs]⟩

theorem shape_eCbDec  (o : BitVec 10) (p : CbDecF) :
    (eCbDec o p).opc = o ∧ (eCbDec o p).tsr = none ∧ ((eCbDec o p).form96 = false → (eCbDec o p).lit = 0) := by
  exact ⟨rfl, rfl, by simp [eCbDec, eB, eBs]⟩

theorem shape_eCbLoad  (o : BitVec 10) (p : CbLoadF) :
    (eCbLoad o p).opc = o ∧ (eCbLoad o p).tsr = none ∧ ((eCbLoad o p).form96 = false → (eCbLoad o p).lit = 0) := by
  exact ⟨rfl, rfl, by simp [eCbLoad, eB, eBs]⟩

theorem ok_eCp  (o : BitVec 10) (p : CpF) (hc : o.extractLsb' 6 4 = 10#4 ∨ o.extractLsb' 6 4 = 11#4) :
    (eCp o p).opc = o ∧ FldOk (eCp o p) := by
  simp only [eCp]; cases p.tsr <;> exact ⟨rfl, by simp [FldOk, Fld.withRec, eB, hc]⟩

theorem shape_eCsr  (o : BitVec 10) (p : SysIF) :
    (eCsr o p).opc = o ∧ (eCsr o p).tsr = none ∧ ((eCsr o p).form96 = false → (eCsr o p).lit = 0) := by
  exact ⟨rfl, rfl, by simp [eCsr, eB, eBs]⟩

theorem shape_eCvt  (o : BitVec 10) (p : CvtF) :
    (eCvt o p).opc = o ∧ (eCvt o p).tsr = none ∧ ((eCvt o p).form96 = false → (eCvt o p).lit = 0) := by
  exact ⟨rfl, rfl, by simp [eCvt, eB, eBs]⟩

theorem shape_eDA (k : BitVec 11) (o : BitVec 10) (p : DA) :
    (eDA k o p).opc = o ∧ (eDA k o p).tsr = none ∧ ((eDA k o p).form96 = false → (eDA k o p).lit = 0) := by
  exact ⟨rfl, rfl, by simp [eDA, eB, eBs]⟩

theorem shape_eDAB  (o : BitVec 10) (p : DAB) :
    (eDAB o p).opc = o ∧ (eDAB o p).tsr = none ∧ ((eDAB o p).form96 = false → (eDAB o p).lit = 0) := by
  exact ⟨rfl, rfl, by simp [eDAB, eB, eBs]⟩

theorem shape_eDOnly  (o : BitVec 10) (p : DOnly) :
    (eDOnly o p).opc = o ∧ (eDOnly o p).tsr = none ∧ ((eDOnly o p).form96 = false → (eDOnly o p).lit = 0) := by
  exact ⟨rfl, rfl, by simp [eDOnly, eB, eBs]⟩

theorem shape_eDq  (o : BitVec 10) (p : DqF) :
    (eDq o p).opc = o ∧ (eDq o p).tsr = none ∧ ((eDq o p).form96 = false → (eDq o p).lit = 0) := by
  simp only [eDq]; cases p.off <;> exact ⟨rfl, rfl, by simp [Fld.withOff, eB, eBs]⟩

theorem shape_eFBin  (o : BitVec 10) (p : FBinF) :
    (eFBin o p).opc = o ∧ (eFBin o p).tsr = none ∧ ((eFBin o p).form96 = false → (eFBin o p).lit = 0) := by
  simp only [eFBin]; cases p.b <;> exact ⟨rfl, rfl, by simp [Fld.withVB, eB, eBs]⟩

theorem shape_eFDiv  (o : BitVec 10) (p : FDivF) :
    (eFDiv o p).opc = o ∧ (eFDiv o p).tsr = none ∧ ((eFDiv o p).form96 = false → (eFDiv o p).lit = 0) := by
  exact ⟨rfl, rfl, by simp [eFDiv, eB, eBs]⟩

theorem shape_eFUnR  (o : BitVec 10) (p : FUnRF) :
    (eFUnR o p).opc = o ∧ (eFUnR o p).tsr = none ∧ ((eFUnR o p).form96 = false → (eFUnR o p).lit = 0) := by
  exact ⟨rfl, rfl, by simp [eFUnR, eB, eBs]⟩

theorem shape_eFeedMark  (o : BitVec 10) (p : FeedMarkF) :
    (eFeedMark o p).opc = o ∧ (eFeedMark o p).tsr = none ∧ ((eFeedMark o p).form96 = false → (eFeedMark o p).lit = 0) := by
  exact ⟨rfl, rfl, by simp [eFeedMark, eB, eBs]⟩

theorem shape_eFeedSkip  (o : BitVec 10) (p : FeedSkipF) :
    (eFeedSkip o p).opc = o ∧ (eFeedSkip o p).tsr = none ∧ ((eFeedSkip o p).form96 = false → (eFeedSkip o p).lit = 0) := by
  exact ⟨rfl, rfl, by simp [eFeedSkip, eB, eBs]⟩

theorem shape_eFence  (o : BitVec 10) (p : FenceF) :
    (eFence o p).opc = o ∧ (eFence o p).tsr = none ∧ ((eFence o p).form96 = false → (eFence o p).lit = 0) := by
  exact ⟨rfl, rfl, by simp [eFence, eB, eBs]⟩

theorem shape_eFragInit  (o : BitVec 10) (p : FragInitF) :
    (eFragInit o p).opc = o ∧ (eFragInit o p).tsr = none ∧ ((eFragInit o p).form96 = false → (eFragInit o p).lit = 0) := by
  exact ⟨rfl, rfl, by simp [eFragInit, eB, eBs]⟩

theorem shape_eFragOut  (o : BitVec 10) (p : FragOutF) :
    (eFragOut o p).opc = o ∧ (eFragOut o p).tsr = none ∧ ((eFragOut o p).form96 = false → (eFragOut o p).lit = 0) := by
  exact ⟨rfl, rfl, by simp [eFragOut, eB, eBs]⟩

theorem shape_eLd  (o : BitVec 10) (p : LdF) :
    (eLd o p).opc = o ∧ (eLd o p).tsr = none ∧ ((eLd o p).form96 = false → (eLd o p).lit = 0) := by
  simp only [eLd]; cases p.off <;> exact ⟨rfl, rfl, by simp [Fld.withOff, eB, eBs]⟩

theorem shape_eLdexp  (o : BitVec 10) (p : FBinF) :
    (eLdexp o p).opc = o ∧ (eLdexp o p).tsr = none ∧ ((eLdexp o p).form96 = false → (eLdexp o p).lit = 0) := by
  simp only [eLdexp, eFBin]; cases p.b <;> exact ⟨rfl, rfl, by simp [Fld.withVB, eB, eBs]⟩

theorem shape_eLock  (o : BitVec 10) (p : LockF) :
    (eLock o p).opc = o ∧ (eLock o p).tsr = none ∧ ((eLock o p).form96 = false → (eLock o p).lit = 0) := by
  simp only [eLock]; cases p.off <;> exact ⟨rfl, rfl, by simp [Fld.withOff, eB, eBs]⟩

theorem shape_eLockTry  (o : BitVec 10) (p : LockTryF) :
    (eLockTry o p).opc = o ∧ (eLockTry o p).tsr = none ∧ ((eLockTry o p).form96 = false → (eLockTry o p).lit = 0) := by
  simp only [eLockTry]; cases p.off <;> exact ⟨rfl, rfl, by simp [Fld.withOff, eB, eBs]⟩

theorem shape_eMad  (o : BitVec 10) (p : MadF) :
    (eMad o p).opc = o ∧ (eMad o p).tsr = none ∧ ((eMad o p).form96 = false → (eMad o p).lit = 0) := by
  exact ⟨rfl, rfl, by simp [eMad, eB, eBs]⟩

theorem shape_eMma  (o : BitVec 10) (p : MmaF) :
    (eMma o p).opc = o ∧ (eMma o p).tsr = none ∧ ((eMma o p).form96 = false → (eMma o p).lit = 0) := by
  exact ⟨rfl, rfl, by simp [eMma, eB, eBs]⟩

theorem shape_eNop  (o : BitVec 10) (p : NopF) :
    (eNop o p).opc = o ∧ (eNop o p).tsr = none ∧ ((eNop o p).form96 = false → (eNop o p).lit = 0) := by
  exact ⟨rfl, rfl, by simp [eNop, eB, eBs]⟩

theorem shape_eOwnClr  (o : BitVec 10) (p : OwnClrF) :
    (eOwnClr o p).opc = o ∧ (eOwnClr o p).tsr = none ∧ ((eOwnClr o p).form96 = false → (eOwnClr o p).lit = 0) := by
  simp only [eOwnClr]; cases p.off <;> exact ⟨rfl, rfl, by simp [Fld.withOff, eB, eBs]⟩

theorem shape_eOwnSet  (o : BitVec 10) (p : OwnSetF) :
    (eOwnSet o p).opc = o ∧ (eOwnSet o p).tsr = none ∧ ((eOwnSet o p).form96 = false → (eOwnSet o p).lit = 0) := by
  simp only [eOwnSet]; cases p.off <;> exact ⟨rfl, rfl, by simp [Fld.withOff, eB, eBs]⟩

theorem shape_ePerf  (o : BitVec 10) (p : SysIF) :
    (ePerf o p).opc = o ∧ (ePerf o p).tsr = none ∧ ((ePerf o p).form96 = false → (ePerf o p).lit = 0) := by
  exact ⟨rfl, rfl, by simp [ePerf, eB, eBs]⟩

theorem shape_ePf  (o : BitVec 10) (p : PfF) :
    (ePf o p).opc = o ∧ (ePf o p).tsr = none ∧ ((ePf o p).form96 = false → (ePf o p).lit = 0) := by
  simp only [ePf]; cases p.off <;> exact ⟨rfl, rfl, by simp [Fld.withOff, eB, eBs]⟩

theorem shape_eRedAdd  (o : BitVec 10) (p : RedAddF) :
    (eRedAdd o p).opc = o ∧ (eRedAdd o p).tsr = none ∧ ((eRedAdd o p).form96 = false → (eRedAdd o p).lit = 0) := by
  exact ⟨rfl, rfl, by simp [eRedAdd, eB, eBs]⟩

theorem shape_eRegCl  (o : BitVec 10) (p : RegClF) :
    (eRegCl o p).opc = o ∧ (eRegCl o p).tsr = none ∧ ((eRegCl o p).form96 = false → (eRegCl o p).lit = 0) := by
  exact ⟨rfl, rfl, by simp [eRegCl, eB, eBs]⟩

theorem shape_eRet  (o : BitVec 10) (p : RetF) :
    (eRet o p).opc = o ∧ (eRet o p).tsr = none ∧ ((eRet o p).form96 = false → (eRet o p).lit = 0) := by
  exact ⟨rfl, rfl, by simp [eRet, eB, eBs]⟩

theorem shape_eRtReplay  (o : BitVec 10) (p : RtReplayF) :
    (eRtReplay o p).opc = o ∧ (eRtReplay o p).tsr = none ∧ ((eRtReplay o p).form96 = false → (eRtReplay o p).lit = 0) := by
  exact ⟨rfl, rfl, by simp [eRtReplay, eB, eBs]⟩

theorem shape_eRtTrace  (o : BitVec 10) (p : RtTraceF) :
    (eRtTrace o p).opc = o ∧ (eRtTrace o p).tsr = none ∧ ((eRtTrace o p).form96 = false → (eRtTrace o p).lit = 0) := by
  exact ⟨rfl, rfl, by simp [eRtTrace, eB, eBs]⟩

theorem shape_eSBin  (o : BitVec 10) (p : SBinF) :
    (eSBin o p).opc = o ∧ (eSBin o p).tsr = none ∧ ((eSBin o p).form96 = false → (eSBin o p).lit = 0) := by
  simp only [eSBin]; cases p.b <;> exact ⟨rfl, rfl, by simp [Fld.withSB, eB, eBs]⟩

theorem shape_eSBinSat  (o : BitVec 10) (p : SBinSatF) :
    (eSBinSat o p).opc = o ∧ (eSBinSat o p).tsr = none ∧ ((eSBinSat o p).form96 = false → (eSBinSat o p).lit = 0) := by
  simp only [eSBinSat]; cases p.b <;> exact ⟨rfl, rfl, by simp [Fld.withSB, eB, eBs]⟩

theorem shape_eSCmp  (o : BitVec 10) (p : SCmpF) :
    (eSCmp o p).opc = o ∧ (eSCmp o p).tsr = none ∧ ((eSCmp o p).form96 = false → (eSCmp o p).lit = 0) := by
  simp only [eSCmp]; cases p.b <;> exact ⟨rfl, rfl, by simp [Fld.withSB, eB, eBs]⟩

theorem shape_eSMov  (o : BitVec 10) (p : SMovF) :
    (eSMov o p).opc = o ∧ (eSMov o p).tsr = none ∧ ((eSMov o p).form96 = false → (eSMov o p).lit = 0) := by
  simp only [eSMov]; cases p.b <;> exact ⟨rfl, rfl, by simp [Fld.withSB, eB, eBs]⟩

theorem shape_eSSel  (o : BitVec 10) (p : SSelF) :
    (eSSel o p).opc = o ∧ (eSSel o p).tsr = none ∧ ((eSSel o p).form96 = false → (eSSel o p).lit = 0) := by
  simp only [eSSel]; cases p.b <;> exact ⟨rfl, rfl, by simp [Fld.withSB, eB, eBs]⟩

theorem shape_eSUn  (o : BitVec 10) (p : SUnF) :
    (eSUn o p).opc = o ∧ (eSUn o p).tsr = none ∧ ((eSUn o p).form96 = false → (eSUn o p).lit = 0) := by
  exact ⟨rfl, rfl, by simp [eSUn, eB, eBs]⟩

theorem shape_eSpawn  (o : BitVec 10) (p : SpawnF) :
    (eSpawn o p).opc = o ∧ (eSpawn o p).tsr = none ∧ ((eSpawn o p).form96 = false → (eSpawn o p).lit = 0) := by
  exact ⟨rfl, rfl, by simp [eSpawn, eB, eBs]⟩

theorem shape_eSsm  (o : BitVec 10) (p : SsmF) :
    (eSsm o p).opc = o ∧ (eSsm o p).tsr = none ∧ ((eSsm o p).form96 = false → (eSsm o p).lit = 0) := by
  exact ⟨rfl, rfl, by simp [eSsm, eB, eBs]⟩

theorem shape_eSt  (o : BitVec 10) (p : StF) :
    (eSt o p).opc = o ∧ (eSt o p).tsr = none ∧ ((eSt o p).form96 = false → (eSt o p).lit = 0) := by
  simp only [eSt]; cases p.off <;> exact ⟨rfl, rfl, by simp [Fld.withOff, eB, eBs]⟩

theorem shape_eSysD  (o : BitVec 10) (p : SysDF) :
    (eSysD o p).opc = o ∧ (eSysD o p).tsr = none ∧ ((eSysD o p).form96 = false → (eSysD o p).lit = 0) := by
  exact ⟨rfl, rfl, by simp [eSysD, eB, eBs]⟩

theorem shape_eSysS  (o : BitVec 10) (p : SysSF) :
    (eSysS o p).opc = o ∧ (eSysS o p).tsr = none ∧ ((eSysS o p).form96 = false → (eSysS o p).lit = 0) := by
  exact ⟨rfl, rfl, by simp [eSysS, eB, eBs]⟩

theorem shape_eTrap  (o : BitVec 10) (p : TrapF) :
    (eTrap o p).opc = o ∧ (eTrap o p).tsr = none ∧ ((eTrap o p).form96 = false → (eTrap o p).lit = 0) := by
  exact ⟨rfl, rfl, by simp [eTrap, eB, eBs]⟩

theorem shape_eVBin  (o : BitVec 10) (p : VBinF) :
    (eVBin o p).opc = o ∧ (eVBin o p).tsr = none ∧ ((eVBin o p).form96 = false → (eVBin o p).lit = 0) := by
  simp only [eVBin]; cases p.b <;> exact ⟨rfl, rfl, by simp [Fld.withVB, eB, eBs]⟩

theorem shape_eVBinSat  (o : BitVec 10) (p : VBinSatF) :
    (eVBinSat o p).opc = o ∧ (eVBinSat o p).tsr = none ∧ ((eVBinSat o p).form96 = false → (eVBinSat o p).lit = 0) := by
  simp only [eVBinSat]; cases p.b <;> exact ⟨rfl, rfl, by simp [Fld.withVB, eB, eBs]⟩

theorem shape_eVCmp  (o : BitVec 10) (p : VCmpF) :
    (eVCmp o p).opc = o ∧ (eVCmp o p).tsr = none ∧ ((eVCmp o p).form96 = false → (eVCmp o p).lit = 0) := by
  simp only [eVCmp]; cases p.b <;> exact ⟨rfl, rfl, by simp [Fld.withVB, eB, eBs]⟩

theorem shape_eVMov  (o : BitVec 10) (p : VMovF) :
    (eVMov o p).opc = o ∧ (eVMov o p).tsr = none ∧ ((eVMov o p).form96 = false → (eVMov o p).lit = 0) := by
  simp only [eVMov]; cases p.b <;> exact ⟨rfl, rfl, by simp [Fld.withVB, eB, eBs]⟩

theorem shape_eVSel  (o : BitVec 10) (p : VSelF) :
    (eVSel o p).opc = o ∧ (eVSel o p).tsr = none ∧ ((eVSel o p).form96 = false → (eVSel o p).lit = 0) := by
  simp only [eVSel]; cases p.b <;> exact ⟨rfl, rfl, by simp [Fld.withVB, eB, eBs]⟩

theorem shape_eVUn  (o : BitVec 10) (p : VUnF) :
    (eVUn o p).opc = o ∧ (eVUn o p).tsr = none ∧ ((eVUn o p).form96 = false → (eVUn o p).lit = 0) := by
  exact ⟨rfl, rfl, by simp [eVUn, eB, eBs]⟩

theorem shape_eVUnSat  (o : BitVec 10) (p : VUnSatF) :
    (eVUnSat o p).opc = o ∧ (eVUnSat o p).tsr = none ∧ ((eVUnSat o p).form96 = false → (eVUnSat o p).lit = 0) := by
  exact ⟨rfl, rfl, by simp [eVUnSat, eB, eBs]⟩

theorem shape_eXaAdd  (o : BitVec 10) (p : XaAddF) :
    (eXaAdd o p).opc = o ∧ (eXaAdd o p).tsr = none ∧ ((eXaAdd o p).form96 = false → (eXaAdd o p).lit = 0) := by
  exact ⟨rfl, rfl, by simp [eXaAdd, eB, eBs]⟩

theorem shape_eXaClr  (o : BitVec 10) (p : XaClrF) :
    (eXaClr o p).opc = o ∧ (eXaClr o p).tsr = none ∧ ((eXaClr o p).form96 = false → (eXaClr o p).lit = 0) := by
  exact ⟨rfl, rfl, by simp [eXaClr, eB, eBs]⟩

theorem shape_eXaGet  (o : BitVec 10) (p : XaGetF) :
    (eXaGet o p).opc = o ∧ (eXaGet o p).tsr = none ∧ ((eXaGet o p).form96 = false → (eXaGet o p).lit = 0) := by
  exact ⟨rfl, rfl, by simp [eXaGet, eB, eBs]⟩

theorem shape_eXaMac  (o : BitVec 10) (p : XaMacF) :
    (eXaMac o p).opc = o ∧ (eXaMac o p).tsr = none ∧ ((eXaMac o p).form96 = false → (eXaMac o p).lit = 0) := by
  exact ⟨rfl, rfl, by simp [eXaMac, eB, eBs]⟩

theorem shape_eXaMerge  (o : BitVec 10) (p : XaMergeF) :
    (eXaMerge o p).opc = o ∧ (eXaMerge o p).tsr = none ∧ ((eXaMerge o p).form96 = false → (eXaMerge o p).lit = 0) := by
  exact ⟨rfl, rfl, by simp [eXaMerge, eB, eBs]⟩

theorem shape_eXaRnd  (o : BitVec 10) (p : XaRndF) :
    (eXaRnd o p).opc = o ∧ (eXaRnd o p).tsr = none ∧ ((eXaRnd o p).form96 = false → (eXaRnd o p).lit = 0) := by
  exact ⟨rfl, rfl, by simp [eXaRnd, eB, eBs]⟩

theorem shape_eXaSet  (o : BitVec 10) (p : XaSetF) :
    (eXaSet o p).opc = o ∧ (eXaSet o p).tsr = none ∧ ((eXaSet o p).form96 = false → (eXaSet o p).lit = 0) := by
  exact ⟨rfl, rfl, by simp [eXaSet, eB, eBs]⟩

theorem shape_eXl  (o : BitVec 10) (p : XlF) :
    (eXl o p).opc = o ∧ (eXl o p).tsr = none ∧ ((eXl o p).form96 = false → (eXl o p).lit = 0) := by
  exact ⟨rfl, rfl, by simp [eXl, eB, eBs]⟩

theorem shape_eXlSh  (o : BitVec 10) (p : XlF) :
    (eXlSh o p).opc = o ∧ (eXlSh o p).tsr = none ∧ ((eXlSh o p).form96 = false → (eXlSh o p).lit = 0) := by
  exact ⟨rfl, rfl, by simp [eXlSh, eXl, eB, eBs]⟩

theorem shape_eXlVote  (o : BitVec 10) (p : XlVoteF) :
    (eXlVote o p).opc = o ∧ (eXlVote o p).tsr = none ∧ ((eXlVote o p).form96 = false → (eXlVote o p).lit = 0) := by
  exact ⟨rfl, rfl, by simp [eXlVote, eB, eBs]⟩

/-- Decoding an encoded well-formed instruction gives it back. -/
def RoundTrip.Statement (i : Instr) : Prop := i.wf = true → decode (encode i) = .instr i

theorem RoundTrip.br (p : BrF) : RoundTrip.Statement (.br p) := fun h =>
  have q := shape_eBr 0x000 p
  decode_encode_long _ _ rfl (ok_of _ _ q.1 q.2.1 q.2.2 (.inl (by decide))) (parseLong_of _ _ _ _ q.1 rfl (rt_Br _ _ p h))
theorem RoundTrip.brDiv (p : BrDF) : RoundTrip.Statement (.brDiv p) := fun h =>
  have q := shape_eBrD 0x001 p
  decode_encode_long _ _ rfl (ok_of _ _ q.1 q.2.1 q.2.2 (.inl (by decide))) (parseLong_of _ _ _ _ q.1 rfl (rt_BrD _ _ p h))
theorem RoundTrip.brEj (p : BrDF) : RoundTrip.Statement (.brEj p) := fun h =>
  have q := shape_eBrD 0x002 p
  decode_encode_long _ _ rfl (ok_of _ _ q.1 q.2.1 q.2.2 (.inl (by decide))) (parseLong_of _ _ _ _ q.1 rfl (rt_BrD _ _ p h))
theorem RoundTrip.brx (p : BrxF) : RoundTrip.Statement (.brx p) := fun _ =>
  have q := shape_eBrx 0x003 p
  decode_encode_long _ _ rfl (ok_of _ _ q.1 q.2.1 q.2.2 (.inl (by decide))) (parseLong_of _ _ _ _ q.1 rfl (rt_Brx _ _ p))
theorem RoundTrip.call (p : CallF) : RoundTrip.Statement (.call p) := fun h =>
  have q := shape_eCall 0x004 p
  decode_encode_long _ _ rfl (ok_of _ _ q.1 q.2.1 q.2.2 (.inl (by decide))) (parseLong_of _ _ _ _ q.1 rfl (rt_Call _ _ p h))
theorem RoundTrip.ret (p : RetF) : RoundTrip.Statement (.ret p) := fun _ =>
  have q := shape_eRet 0x005 p
  decode_encode_long _ _ rfl (ok_of _ _ q.1 q.2.1 q.2.2 (.inl (by decide))) (parseLong_of _ _ _ _ q.1 rfl (rt_Ret _ _ p))
theorem RoundTrip.rejoin (p : NopF) : RoundTrip.Statement (.rejoin p) := fun _ =>
  have q := shape_eNop 0x006 p
  decode_encode_long _ _ rfl (ok_of _ _ q.1 q.2.1 q.2.2 (.inl (by decide))) (parseLong_of _ _ _ _ q.1 rfl (rt_Nop _ _ p))
theorem RoundTrip.brk (p : BrkF) : RoundTrip.Statement (.brk p) := fun _ =>
  have q := shape_eBrk 0x007 p
  decode_encode_long _ _ rfl (ok_of _ _ q.1 q.2.1 q.2.2 (.inl (by decide))) (parseLong_of _ _ _ _ q.1 rfl (rt_Brk _ _ p))
theorem RoundTrip.exit (p : NopF) : RoundTrip.Statement (.exit p) := fun _ =>
  have q := shape_eNop 0x008 p
  decode_encode_long _ _ rfl (ok_of _ _ q.1 q.2.1 q.2.2 (.inl (by decide))) (parseLong_of _ _ _ _ q.1 rfl (rt_Nop _ _ p))
theorem RoundTrip.nop (p : NopF) : RoundTrip.Statement (.nop p) := fun _ =>
  have q := shape_eNop 0x00F p
  decode_encode_long _ _ rfl (ok_of _ _ q.1 q.2.1 q.2.2 (.inl (by decide))) (parseLong_of _ _ _ _ q.1 rfl (rt_Nop _ _ p))
theorem RoundTrip.scalarAdd (p : SBinSatF) : RoundTrip.Statement (.scalarAdd p) := fun h =>
  have q := shape_eSBinSat 0x040 p
  decode_encode_long _ _ rfl (ok_of _ _ q.1 q.2.1 q.2.2 (.inl (by decide))) (parseLong_of _ _ _ _ q.1 rfl (rt_SBinSat _ _ _ p h))
theorem RoundTrip.scalarSub (p : SBinSatF) : RoundTrip.Statement (.scalarSub p) := fun h =>
  have q := shape_eSBinSat 0x041 p
  decode_encode_long _ _ rfl (ok_of _ _ q.1 q.2.1 q.2.2 (.inl (by decide))) (parseLong_of _ _ _ _ q.1 rfl (rt_SBinSat _ _ _ p h))
theorem RoundTrip.scalarMul (p : SBinF) : RoundTrip.Statement (.scalarMul p) := fun h =>
  have q := shape_eSBin 0x042 p
  decode_encode_long _ _ rfl (ok_of _ _ q.1 q.2.1 q.2.2 (.inl (by decide))) (parseLong_of _ _ _ _ q.1 rfl (rt_SBin _ _ _ p h))
theorem RoundTrip.scalarMulhi (p : SBinF) : RoundTrip.Statement (.scalarMulhi p) := fun h =>
  have q := shape_eSBin 0x043 p
  decode_encode_long _ _ rfl (ok_of _ _ q.1 q.2.1 q.2.2 (.inl (by decide))) (parseLong_of _ _ _ _ q.1 rfl (rt_SBin _ _ _ p h))
theorem RoundTrip.scalarDiv (p : SBinF) : RoundTrip.Statement (.scalarDiv p) := fun h =>
  have q := shape_eSBin 0x044 p
  decode_encode_long _ _ rfl (ok_of _ _ q.1 q.2.1 q.2.2 (.inl (by decide))) (parseLong_of _ _ _ _ q.1 rfl (rt_SBin _ _ _ p h))
theorem RoundTrip.scalarRem (p : SBinF) : RoundTrip.Statement (.scalarRem p) := fun h =>
  have q := shape_eSBin 0x045 p
  decode_encode_long _ _ rfl (ok_of _ _ q.1 q.2.1 q.2.2 (.inl (by decide))) (parseLong_of _ _ _ _ q.1 rfl (rt_SBin _ _ _ p h))
theorem RoundTrip.scalarMin (p : SBinF) : RoundTrip.Statement (.scalarMin p) := fun h =>
  have q := shape_eSBin 0x046 p
  decode_encode_long _ _ rfl (ok_of _ _ q.1 q.2.1 q.2.2 (.inl (by decide))) (parseLong_of _ _ _ _ q.1 rfl (rt_SBin _ _ _ p h))
theorem RoundTrip.scalarMax (p : SBinF) : RoundTrip.Statement (.scalarMax p) := fun h =>
  have q := shape_eSBin 0x047 p
  decode_encode_long _ _ rfl (ok_of _ _ q.1 q.2.1 q.2.2 (.inl (by decide))) (parseLong_of _ _ _ _ q.1 rfl (rt_SBin _ _ _ p h))
theorem RoundTrip.scalarAnd (p : SBinF) : RoundTrip.Statement (.scalarAnd p) := fun h =>
  have q := shape_eSBin 0x048 p
  decode_encode_long _ _ rfl (ok_of _ _ q.1 q.2.1 q.2.2 (.inl (by decide))) (parseLong_of _ _ _ _ q.1 rfl (rt_SBin _ _ _ p h))
theorem RoundTrip.scalarOr (p : SBinF) : RoundTrip.Statement (.scalarOr p) := fun h =>
  have q := shape_eSBin 0x049 p
  decode_encode_long _ _ rfl (ok_of _ _ q.1 q.2.1 q.2.2 (.inl (by decide))) (parseLong_of _ _ _ _ q.1 rfl (rt_SBin _ _ _ p h))
theorem RoundTrip.scalarXor (p : SBinF) : RoundTrip.Statement (.scalarXor p) := fun h =>
  have q := shape_eSBin 0x04A p
  decode_encode_long _ _ rfl (ok_of _ _ q.1 q.2.1 q.2.2 (.inl (by decide))) (parseLong_of _ _ _ _ q.1 rfl (rt_SBin _ _ _ p h))
theorem RoundTrip.scalarNot (p : SUnF) : RoundTrip.Statement (.scalarNot p) := fun h =>
  have q := shape_eSUn 0x04B p
  decode_encode_long _ _ rfl (ok_of _ _ q.1 q.2.1 q.2.2 (.inl (by decide))) (parseLong_of _ _ _ _ q.1 rfl (rt_SUn _ _ _ _ p h))
theorem RoundTrip.scalarShl (p : SBinF) : RoundTrip.Statement (.scalarShl p) := fun h =>
  have q := shape_eSBin 0x04C p
  decode_encode_long _ _ rfl (ok_of _ _ q.1 q.2.1 q.2.2 (.inl (by decide))) (parseLong_of _ _ _ _ q.1 rfl (rt_SBin _ _ _ p h))
theorem RoundTrip.scalarShr (p : SBinF) : RoundTrip.Statement (.scalarShr p) := fun h =>
  have q := shape_eSBin 0x04D p
  decode_encode_long _ _ rfl (ok_of _ _ q.1 q.2.1 q.2.2 (.inl (by decide))) (parseLong_of _ _ _ _ q.1 rfl (rt_SBin _ _ _ p h))
theorem RoundTrip.scalarCmp (p : SCmpF) : RoundTrip.Statement (.scalarCmp p) := fun h =>
  have q := shape_eSCmp 0x04E p
  decode_encode_long _ _ rfl (ok_of _ _ q.1 q.2.1 q.2.2 (.inl (by decide))) (parseLong_of _ _ _ _ q.1 rfl (rt_SCmp _ _ p h))
theorem RoundTrip.scalarSel (p : SSelF) : RoundTrip.Statement (.scalarSel p) := fun _ =>
  have q := shape_eSSel 0x04F p
  decode_encode_long _ _ rfl (ok_of _ _ q.1 q.2.1 q.2.2 (.inl (by decide))) (parseLong_of _ _ _ _ q.1 rfl (rt_SSel _ _ p))
theorem RoundTrip.scalarMov (p : SMovF) : RoundTrip.Statement (.scalarMov p) := fun h =>
  have q := shape_eSMov 0x050 p
  decode_encode_long _ _ rfl (ok_of _ _ q.1 q.2.1 q.2.2 (.inl (by decide))) (parseLong_of _ _ _ _ q.1 rfl (rt_SMov _ _ _ p h))
theorem RoundTrip.scalarClz (p : SUnF) : RoundTrip.Statement (.scalarClz p) := fun h =>
  have q := shape_eSUn 0x051 p
  decode_encode_long _ _ rfl (ok_of _ _ q.1 q.2.1 q.2.2 (.inl (by decide))) (parseLong_of _ _ _ _ q.1 rfl (rt_SUn _ _ _ _ p h))
theorem RoundTrip.scalarPopc (p : SUnF) : RoundTrip.Statement (.scalarPopc p) := fun h =>
  have q := shape_eSUn 0x052 p
  decode_encode_long _ _ rfl (ok_of _ _ q.1 q.2.1 q.2.2 (.inl (by decide))) (parseLong_of _ _ _ _ q.1 rfl (rt_SUn _ _ _ _ p h))
theorem RoundTrip.vectorAdd (p : VBinSatF) : RoundTrip.Statement (.vectorAdd p) := fun h =>
  have q := shape_eVBinSat 0x080 p
  decode_encode_long _ _ rfl (ok_of _ _ q.1 q.2.1 q.2.2 (.inl (by decide))) (parseLong_of _ _ _ _ q.1 rfl (rt_VBinSat _ _ _ p h))
theorem RoundTrip.vectorSub (p : VBinSatF) : RoundTrip.Statement (.vectorSub p) := fun h =>
  have q := shape_eVBinSat 0x081 p
  decode_encode_long _ _ rfl (ok_of _ _ q.1 q.2.1 q.2.2 (.inl (by decide))) (parseLong_of _ _ _ _ q.1 rfl (rt_VBinSat _ _ _ p h))
theorem RoundTrip.vectorMul (p : VBinF) : RoundTrip.Statement (.vectorMul p) := fun h =>
  have q := shape_eVBin 0x082 p
  decode_encode_long _ _ rfl (ok_of _ _ q.1 q.2.1 q.2.2 (.inl (by decide))) (parseLong_of _ _ _ _ q.1 rfl (rt_VBin _ _ _ p h))
theorem RoundTrip.vectorMulhi (p : VBinF) : RoundTrip.Statement (.vectorMulhi p) := fun h =>
  have q := shape_eVBin 0x083 p
  decode_encode_long _ _ rfl (ok_of _ _ q.1 q.2.1 q.2.2 (.inl (by decide))) (parseLong_of _ _ _ _ q.1 rfl (rt_VBin _ _ _ p h))
theorem RoundTrip.vectorMin (p : VBinF) : RoundTrip.Statement (.vectorMin p) := fun h =>
  have q := shape_eVBin 0x084 p
  decode_encode_long _ _ rfl (ok_of _ _ q.1 q.2.1 q.2.2 (.inl (by decide))) (parseLong_of _ _ _ _ q.1 rfl (rt_VBin _ _ _ p h))
theorem RoundTrip.vectorMax (p : VBinF) : RoundTrip.Statement (.vectorMax p) := fun h =>
  have q := shape_eVBin 0x085 p
  decode_encode_long _ _ rfl (ok_of _ _ q.1 q.2.1 q.2.2 (.inl (by decide))) (parseLong_of _ _ _ _ q.1 rfl (rt_VBin _ _ _ p h))
theorem RoundTrip.vectorAbs (p : VUnSatF) : RoundTrip.Statement (.vectorAbs p) := fun h =>
  have q := shape_eVUnSat 0x086 p
  decode_encode_long _ _ rfl (ok_of _ _ q.1 q.2.1 q.2.2 (.inl (by decide))) (parseLong_of _ _ _ _ q.1 rfl (rt_VUnSat _ _ _ p h))
theorem RoundTrip.vectorNeg (p : VUnSatF) : RoundTrip.Statement (.vectorNeg p) := fun h =>
  have q := shape_eVUnSat 0x087 p
  decode_encode_long _ _ rfl (ok_of _ _ q.1 q.2.1 q.2.2 (.inl (by decide))) (parseLong_of _ _ _ _ q.1 rfl (rt_VUnSat _ _ _ p h))
theorem RoundTrip.vectorAnd (p : VBinF) : RoundTrip.Statement (.vectorAnd p) := fun h =>
  have q := shape_eVBin 0x088 p
  decode_encode_long _ _ rfl (ok_of _ _ q.1 q.2.1 q.2.2 (.inl (by decide))) (parseLong_of _ _ _ _ q.1 rfl (rt_VBin _ _ _ p h))
theorem RoundTrip.vectorOr (p : VBinF) : RoundTrip.Statement (.vectorOr p) := fun h =>
  have q := shape_eVBin 0x089 p
  decode_encode_long _ _ rfl (ok_of _ _ q.1 q.2.1 q.2.2 (.inl (by decide))) (parseLong_of _ _ _ _ q.1 rfl (rt_VBin _ _ _ p h))
theorem RoundTrip.vectorXor (p : VBinF) : RoundTrip.Statement (.vectorXor p) := fun h =>
  have q := shape_eVBin 0x08A p
  decode_encode_long _ _ rfl (ok_of _ _ q.1 q.2.1 q.2.2 (.inl (by decide))) (parseLong_of _ _ _ _ q.1 rfl (rt_VBin _ _ _ p h))
theorem RoundTrip.vectorNot (p : VUnF) : RoundTrip.Statement (.vectorNot p) := fun h =>
  have q := shape_eVUn 0x08B p
  decode_encode_long _ _ rfl (ok_of _ _ q.1 q.2.1 q.2.2 (.inl (by decide))) (parseLong_of _ _ _ _ q.1 rfl (rt_VUn _ _ _ _ p h))
theorem RoundTrip.vectorShl (p : VBinF) : RoundTrip.Statement (.vectorShl p) := fun h =>
  have q := shape_eVBin 0x08C p
  decode_encode_long _ _ rfl (ok_of _ _ q.1 q.2.1 q.2.2 (.inl (by decide))) (parseLong_of _ _ _ _ q.1 rfl (rt_VBin _ _ _ p h))
theorem RoundTrip.vectorShr (p : VBinF) : RoundTrip.Statement (.vectorShr p) := fun h =>
  have q := shape_eVBin 0x08D p
  decode_encode_long _ _ rfl (ok_of _ _ q.1 q.2.1 q.2.2 (.inl (by decide))) (parseLong_of _ _ _ _ q.1 rfl (rt_VBin _ _ _ p h))
theorem RoundTrip.vectorCmp (p : VCmpF) : RoundTrip.Statement (.vectorCmp p) := fun h =>
  have q := shape_eVCmp 0x08E p
  decode_encode_long _ _ rfl (ok_of _ _ q.1 q.2.1 q.2.2 (.inl (by decide))) (parseLong_of _ _ _ _ q.1 rfl (rt_VCmp _ _ _ p h))
theorem RoundTrip.vectorSel (p : VSelF) : RoundTrip.Statement (.vectorSel p) := fun _ =>
  have q := shape_eVSel 0x08F p
  decode_encode_long _ _ rfl (ok_of _ _ q.1 q.2.1 q.2.2 (.inl (by decide))) (parseLong_of _ _ _ _ q.1 rfl (rt_VSel _ _ p))
theorem RoundTrip.vectorMov (p : VMovF) : RoundTrip.Statement (.vectorMov p) := fun h =>
  have q := shape_eVMov 0x090 p
  decode_encode_long _ _ rfl (ok_of _ _ q.1 q.2.1 q.2.2 (.inl (by decide))) (parseLong_of _ _ _ _ q.1 rfl (rt_VMov _ _ _ p h))
theorem RoundTrip.vectorClz (p : VUnF) : RoundTrip.Statement (.vectorClz p) := fun h =>
  have q := shape_eVUn 0x091 p
  decode_encode_long _ _ rfl (ok_of _ _ q.1 q.2.1 q.2.2 (.inl (by decide))) (parseLong_of _ _ _ _ q.1 rfl (rt_VUn _ _ _ _ p h))
theorem RoundTrip.vectorPopc (p : VUnF) : RoundTrip.Statement (.vectorPopc p) := fun h =>
  have q := shape_eVUn 0x092 p
  decode_encode_long _ _ rfl (ok_of _ _ q.1 q.2.1 q.2.2 (.inl (by decide))) (parseLong_of _ _ _ _ q.1 rfl (rt_VUn _ _ _ _ p h))
theorem RoundTrip.brev (p : VUnF) : RoundTrip.Statement (.brev p) := fun h =>
  have q := shape_eVUn 0x093 p
  decode_encode_long _ _ rfl (ok_of _ _ q.1 q.2.1 q.2.2 (.inl (by decide))) (parseLong_of _ _ _ _ q.1 rfl (rt_VUn _ _ _ _ p h))
theorem RoundTrip.bfe (p : VBinF) : RoundTrip.Statement (.bfe p) := fun h =>
  have q := shape_eVBin 0x094 p
  decode_encode_long _ _ rfl (ok_of _ _ q.1 q.2.1 q.2.2 (.inl (by decide))) (parseLong_of _ _ _ _ q.1 rfl (rt_VBin _ _ _ p h))
theorem RoundTrip.madI32 (p : MadF) : RoundTrip.Statement (.madI32 p) := fun _ =>
  have q := shape_eMad 0x098 p
  decode_encode_long _ _ rfl (ok_of _ _ q.1 q.2.1 q.2.2 (.inl (by decide))) (parseLong_of _ _ _ _ q.1 rfl (rt_Mad _ _ p))
theorem RoundTrip.madN32 (p : MadF) : RoundTrip.Statement (.madN32 p) := fun _ =>
  have q := shape_eMad 0x099 p
  decode_encode_long _ _ rfl (ok_of _ _ q.1 q.2.1 q.2.2 (.inl (by decide))) (parseLong_of _ _ _ _ q.1 rfl (rt_Mad _ _ p))
theorem RoundTrip.madI64 (p : MadF) : RoundTrip.Statement (.madI64 p) := fun _ =>
  have q := shape_eMad 0x09A p
  decode_encode_long _ _ rfl (ok_of _ _ q.1 q.2.1 q.2.2 (.inl (by decide))) (parseLong_of _ _ _ _ q.1 rfl (rt_Mad _ _ p))
theorem RoundTrip.madN64 (p : MadF) : RoundTrip.Statement (.madN64 p) := fun _ =>
  have q := shape_eMad 0x09B p
  decode_encode_long _ _ rfl (ok_of _ _ q.1 q.2.1 q.2.2 (.inl (by decide))) (parseLong_of _ _ _ _ q.1 rfl (rt_Mad _ _ p))
theorem RoundTrip.fpAdd (p : FBinF) : RoundTrip.Statement (.fpAdd p) := fun h =>
  have q := shape_eFBin 0x0C0 p
  decode_encode_long _ _ rfl (ok_of _ _ q.1 q.2.1 q.2.2 (.inl (by decide))) (parseLong_of _ _ _ _ q.1 rfl (rt_FBin _ _ p h))
theorem RoundTrip.fpSub (p : FBinF) : RoundTrip.Statement (.fpSub p) := fun h =>
  have q := shape_eFBin 0x0C1 p
  decode_encode_long _ _ rfl (ok_of _ _ q.1 q.2.1 q.2.2 (.inl (by decide))) (parseLong_of _ _ _ _ q.1 rfl (rt_FBin _ _ p h))
theorem RoundTrip.fpMul (p : FBinF) : RoundTrip.Statement (.fpMul p) := fun h =>
  have q := shape_eFBin 0x0C2 p
  decode_encode_long _ _ rfl (ok_of _ _ q.1 q.2.1 q.2.2 (.inl (by decide))) (parseLong_of _ _ _ _ q.1 rfl (rt_FBin _ _ p h))
theorem RoundTrip.fpMin (p : VBinF) : RoundTrip.Statement (.fpMin p) := fun h =>
  have q := shape_eVBin 0x0C3 p
  decode_encode_long _ _ rfl (ok_of _ _ q.1 q.2.1 q.2.2 (.inl (by decide))) (parseLong_of _ _ _ _ q.1 rfl (rt_VBin _ _ _ p h))
theorem RoundTrip.fpMax (p : VBinF) : RoundTrip.Statement (.fpMax p) := fun h =>
  have q := shape_eVBin 0x0C4 p
  decode_encode_long _ _ rfl (ok_of _ _ q.1 q.2.1 q.2.2 (.inl (by decide))) (parseLong_of _ _ _ _ q.1 rfl (rt_VBin _ _ _ p h))
theorem RoundTrip.fpAbs (p : VUnF) : RoundTrip.Statement (.fpAbs p) := fun h =>
  have q := shape_eVUn 0x0C5 p
  decode_encode_long _ _ rfl (ok_of _ _ q.1 q.2.1 q.2.2 (.inl (by decide))) (parseLong_of _ _ _ _ q.1 rfl (rt_VUn _ _ _ _ p h))
theorem RoundTrip.fpNeg (p : VUnF) : RoundTrip.Statement (.fpNeg p) := fun h =>
  have q := shape_eVUn 0x0C6 p
  decode_encode_long _ _ rfl (ok_of _ _ q.1 q.2.1 q.2.2 (.inl (by decide))) (parseLong_of _ _ _ _ q.1 rfl (rt_VUn _ _ _ _ p h))
theorem RoundTrip.fpCmp (p : VCmpF) : RoundTrip.Statement (.fpCmp p) := fun h =>
  have q := shape_eVCmp 0x0C7 p
  decode_encode_long _ _ rfl (ok_of _ _ q.1 q.2.1 q.2.2 (.inl (by decide))) (parseLong_of _ _ _ _ q.1 rfl (rt_VCmp _ _ _ p h))
theorem RoundTrip.rint (p : FUnRF) : RoundTrip.Statement (.rint p) := fun h =>
  have q := shape_eFUnR 0x0C8 p
  decode_encode_long _ _ rfl (ok_of _ _ q.1 q.2.1 q.2.2 (.inl (by decide))) (parseLong_of _ _ _ _ q.1 rfl (rt_FUnR _ _ _ _ p h))
theorem RoundTrip.copysign (p : VBinF) : RoundTrip.Statement (.copysign p) := fun h =>
  have q := shape_eVBin 0x0C9 p
  decode_encode_long _ _ rfl (ok_of _ _ q.1 q.2.1 q.2.2 (.inl (by decide))) (parseLong_of _ _ _ _ q.1 rfl (rt_VBin _ _ _ p h))
theorem RoundTrip.fclass (p : VUnF) : RoundTrip.Statement (.fclass p) := fun h =>
  have q := shape_eVUn 0x0CA p
  decode_encode_long _ _ rfl (ok_of _ _ q.1 q.2.1 q.2.2 (.inl (by decide))) (parseLong_of _ _ _ _ q.1 rfl (rt_VUn _ _ _ _ p h))
theorem RoundTrip.ldexp (p : FBinF) : RoundTrip.Statement (.ldexp p) := fun h =>
  have q := shape_eLdexp 0x0CB p
  decode_encode_long _ _ rfl (ok_of _ _ q.1 q.2.1 q.2.2 (.inl (by decide))) (parseLong_of _ _ _ _ q.1 rfl (rt_Ldexp _ _ p h))
theorem RoundTrip.fmaF64 (p : MadF) : RoundTrip.Statement (.fmaF64 p) := fun _ =>
  have q := shape_eMad 0x0D0 p
  decode_encode_long _ _ rfl (ok_of _ _ q.1 q.2.1 q.2.2 (.inl (by decide))) (parseLong_of _ _ _ _ q.1 rfl (rt_Mad _ _ p))
theorem RoundTrip.fmaF32 (p : MadF) : RoundTrip.Statement (.fmaF32 p) := fun _ =>
  have q := shape_eMad 0x0D1 p
  decode_encode_long _ _ rfl (ok_of _ _ q.1 q.2.1 q.2.2 (.inl (by decide))) (parseLong_of _ _ _ _ q.1 rfl (rt_Mad _ _ p))
theorem RoundTrip.fmaF16 (p : MadF) : RoundTrip.Statement (.fmaF16 p) := fun _ =>
  have q := shape_eMad 0x0D2 p
  decode_encode_long _ _ rfl (ok_of _ _ q.1 q.2.1 q.2.2 (.inl (by decide))) (parseLong_of _ _ _ _ q.1 rfl (rt_Mad _ _ p))
theorem RoundTrip.fmaBf16 (p : MadF) : RoundTrip.Statement (.fmaBf16 p) := fun _ =>
  have q := shape_eMad 0x0D3 p
  decode_encode_long _ _ rfl (ok_of _ _ q.1 q.2.1 q.2.2 (.inl (by decide))) (parseLong_of _ _ _ _ q.1 rfl (rt_Mad _ _ p))
theorem RoundTrip.fnmaF64 (p : MadF) : RoundTrip.Statement (.fnmaF64 p) := fun _ =>
  have q := shape_eMad 0x0D4 p
  decode_encode_long _ _ rfl (ok_of _ _ q.1 q.2.1 q.2.2 (.inl (by decide))) (parseLong_of _ _ _ _ q.1 rfl (rt_Mad _ _ p))
theorem RoundTrip.fnmaF32 (p : MadF) : RoundTrip.Statement (.fnmaF32 p) := fun _ =>
  have q := shape_eMad 0x0D5 p
  decode_encode_long _ _ rfl (ok_of _ _ q.1 q.2.1 q.2.2 (.inl (by decide))) (parseLong_of _ _ _ _ q.1 rfl (rt_Mad _ _ p))
theorem RoundTrip.fnmaF16 (p : MadF) : RoundTrip.Statement (.fnmaF16 p) := fun _ =>
  have q := shape_eMad 0x0D6 p
  decode_encode_long _ _ rfl (ok_of _ _ q.1 q.2.1 q.2.2 (.inl (by decide))) (parseLong_of _ _ _ _ q.1 rfl (rt_Mad _ _ p))
theorem RoundTrip.fnmaBf16 (p : MadF) : RoundTrip.Statement (.fnmaBf16 p) := fun _ =>
  have q := shape_eMad 0x0D7 p
  decode_encode_long _ _ rfl (ok_of _ _ q.1 q.2.1 q.2.2 (.inl (by decide))) (parseLong_of _ _ _ _ q.1 rfl (rt_Mad _ _ p))
theorem RoundTrip.cvt (p : CvtF) : RoundTrip.Statement (.cvt p) := fun h =>
  have q := shape_eCvt 0x100 p
  decode_encode_long _ _ rfl (ok_of _ _ q.1 q.2.1 q.2.2 (.inl (by decide))) (parseLong_of _ _ _ _ q.1 rfl (rt_Cvt _ _ _ p h))
theorem RoundTrip.pack (p : CvtF) : RoundTrip.Statement (.pack p) := fun h =>
  have q := shape_eCvt 0x101 p
  decode_encode_long _ _ rfl (ok_of _ _ q.1 q.2.1 q.2.2 (.inl (by decide))) (parseLong_of _ _ _ _ q.1 rfl (rt_Cvt _ _ _ p h))
theorem RoundTrip.unpack (p : CvtF) : RoundTrip.Statement (.unpack p) := fun h =>
  have q := shape_eCvt 0x102 p
  decode_encode_long _ _ rfl (ok_of _ _ q.1 q.2.1 q.2.2 (.inl (by decide))) (parseLong_of _ _ _ _ q.1 rfl (rt_Cvt _ _ _ p h))
theorem RoundTrip.cbDec (p : CbDecF) : RoundTrip.Statement (.cbDec p) := fun _ =>
  have q := shape_eCbDec 0x103 p
  decode_encode_long _ _ rfl (ok_of _ _ q.1 q.2.1 q.2.2 (.inl (by decide))) (parseLong_of _ _ _ _ q.1 rfl (rt_CbDec _ _ p))
theorem RoundTrip.xlGet (p : XlF) : RoundTrip.Statement (.xlGet p) := fun h =>
  have q := shape_eXl 0x140 p
  decode_encode_long _ _ rfl (ok_of _ _ q.1 q.2.1 q.2.2 (.inl (by decide))) (parseLong_of _ _ _ _ q.1 rfl (rt_Xl _ _ _ p h))
theorem RoundTrip.xlBcast (p : XlF) : RoundTrip.Statement (.xlBcast p) := fun h =>
  have q := shape_eXl 0x141 p
  decode_encode_long _ _ rfl (ok_of _ _ q.1 q.2.1 q.2.2 (.inl (by decide))) (parseLong_of _ _ _ _ q.1 rfl (rt_Xl _ _ _ p h))
theorem RoundTrip.xlShup (p : XlF) : RoundTrip.Statement (.xlShup p) := fun h =>
  have q := shape_eXlSh 0x142 p
  decode_encode_long _ _ rfl (ok_of _ _ q.1 q.2.1 q.2.2 (.inl (by decide))) (parseLong_of _ _ _ _ q.1 rfl (rt_XlSh _ _ p h))
theorem RoundTrip.xlShdn (p : XlF) : RoundTrip.Statement (.xlShdn p) := fun h =>
  have q := shape_eXlSh 0x143 p
  decode_encode_long _ _ rfl (ok_of _ _ q.1 q.2.1 q.2.2 (.inl (by decide))) (parseLong_of _ _ _ _ q.1 rfl (rt_XlSh _ _ p h))
theorem RoundTrip.xlXor (p : XlF) : RoundTrip.Statement (.xlXor p) := fun h =>
  have q := shape_eXlSh 0x144 p
  decode_encode_long _ _ rfl (ok_of _ _ q.1 q.2.1 q.2.2 (.inl (by decide))) (parseLong_of _ _ _ _ q.1 rfl (rt_XlSh _ _ p h))
theorem RoundTrip.xlReorder (p : XlF) : RoundTrip.Statement (.xlReorder p) := fun h =>
  have q := shape_eXl 0x145 p
  decode_encode_long _ _ rfl (ok_of _ _ q.1 q.2.1 q.2.2 (.inl (by decide))) (parseLong_of _ _ _ _ q.1 rfl (rt_Xl _ _ _ p h))
theorem RoundTrip.xlVote (p : XlVoteF) : RoundTrip.Statement (.xlVote p) := fun _ =>
  have q := shape_eXlVote 0x146 p
  decode_encode_long _ _ rfl (ok_of _ _ q.1 q.2.1 q.2.2 (.inl (by decide))) (parseLong_of _ _ _ _ q.1 rfl (rt_XlVote _ _ p))
theorem RoundTrip.xlAny (p : XlVoteF) : RoundTrip.Statement (.xlAny p) := fun _ =>
  have q := shape_eXlVote 0x147 p
  decode_encode_long _ _ rfl (ok_of _ _ q.1 q.2.1 q.2.2 (.inl (by decide))) (parseLong_of _ _ _ _ q.1 rfl (rt_XlVote _ _ p))
theorem RoundTrip.xlAll (p : XlVoteF) : RoundTrip.Statement (.xlAll p) := fun _ =>
  have q := shape_eXlVote 0x148 p
  decode_encode_long _ _ rfl (ok_of _ _ q.1 q.2.1 q.2.2 (.inl (by decide))) (parseLong_of _ _ _ _ q.1 rfl (rt_XlVote _ _ p))
theorem RoundTrip.redLaneAdd (p : RedAddF) : RoundTrip.Statement (.redLaneAdd p) := fun h =>
  have q := shape_eRedAdd 0x150 p
  decode_encode_long _ _ rfl (ok_of _ _ q.1 q.2.1 q.2.2 (.inl (by decide))) (parseLong_of _ _ _ _ q.1 rfl (rt_RedAdd _ _ p h))
theorem RoundTrip.redLaneMin (p : VUnF) : RoundTrip.Statement (.redLaneMin p) := fun h =>
  have q := shape_eVUn 0x151 p
  decode_encode_long _ _ rfl (ok_of _ _ q.1 q.2.1 q.2.2 (.inl (by decide))) (parseLong_of _ _ _ _ q.1 rfl (rt_VUn _ _ _ _ p h))
theorem RoundTrip.redLaneMax (p : VUnF) : RoundTrip.Statement (.redLaneMax p) := fun h =>
  have q := shape_eVUn 0x152 p
  decode_encode_long _ _ rfl (ok_of _ _ q.1 q.2.1 q.2.2 (.inl (by decide))) (parseLong_of _ _ _ _ q.1 rfl (rt_VUn _ _ _ _ p h))
theorem RoundTrip.redLaneAnd (p : VUnF) : RoundTrip.Statement (.redLaneAnd p) := fun h =>
  have q := shape_eVUn 0x153 p
  decode_encode_long _ _ rfl (ok_of _ _ q.1 q.2.1 q.2.2 (.inl (by decide))) (parseLong_of _ _ _ _ q.1 rfl (rt_VUn _ _ _ _ p h))
theorem RoundTrip.redLaneOr (p : VUnF) : RoundTrip.Statement (.redLaneOr p) := fun h =>
  have q := shape_eVUn 0x154 p
  decode_encode_long _ _ rfl (ok_of _ _ q.1 q.2.1 q.2.2 (.inl (by decide))) (parseLong_of _ _ _ _ q.1 rfl (rt_VUn _ _ _ _ p h))
theorem RoundTrip.redLaneXor (p : VUnF) : RoundTrip.Statement (.redLaneXor p) := fun h =>
  have q := shape_eVUn 0x155 p
  decode_encode_long _ _ rfl (ok_of _ _ q.1 q.2.1 q.2.2 (.inl (by decide))) (parseLong_of _ _ _ _ q.1 rfl (rt_VUn _ _ _ _ p h))
theorem RoundTrip.scanLaneAdd (p : RedAddF) : RoundTrip.Statement (.scanLaneAdd p) := fun h =>
  have q := shape_eRedAdd 0x158 p
  decode_encode_long _ _ rfl (ok_of _ _ q.1 q.2.1 q.2.2 (.inl (by decide))) (parseLong_of _ _ _ _ q.1 rfl (rt_RedAdd _ _ p h))
theorem RoundTrip.scanLaneMin (p : VUnF) : RoundTrip.Statement (.scanLaneMin p) := fun h =>
  have q := shape_eVUn 0x159 p
  decode_encode_long _ _ rfl (ok_of _ _ q.1 q.2.1 q.2.2 (.inl (by decide))) (parseLong_of _ _ _ _ q.1 rfl (rt_VUn _ _ _ _ p h))
theorem RoundTrip.scanLaneMax (p : VUnF) : RoundTrip.Statement (.scanLaneMax p) := fun h =>
  have q := shape_eVUn 0x15A p
  decode_encode_long _ _ rfl (ok_of _ _ q.1 q.2.1 q.2.2 (.inl (by decide))) (parseLong_of _ _ _ _ q.1 rfl (rt_VUn _ _ _ _ p h))
theorem RoundTrip.scanLaneAnd (p : VUnF) : RoundTrip.Statement (.scanLaneAnd p) := fun h =>
  have q := shape_eVUn 0x15B p
  decode_encode_long _ _ rfl (ok_of _ _ q.1 q.2.1 q.2.2 (.inl (by decide))) (parseLong_of _ _ _ _ q.1 rfl (rt_VUn _ _ _ _ p h))
theorem RoundTrip.scanLaneOr (p : VUnF) : RoundTrip.Statement (.scanLaneOr p) := fun h =>
  have q := shape_eVUn 0x15C p
  decode_encode_long _ _ rfl (ok_of _ _ q.1 q.2.1 q.2.2 (.inl (by decide))) (parseLong_of _ _ _ _ q.1 rfl (rt_VUn _ _ _ _ p h))
theorem RoundTrip.scanLaneXor (p : VUnF) : RoundTrip.Statement (.scanLaneXor p) := fun h =>
  have q := shape_eVUn 0x15D p
  decode_encode_long _ _ rfl (ok_of _ _ q.1 q.2.1 q.2.2 (.inl (by decide))) (parseLong_of _ _ _ _ q.1 rfl (rt_VUn _ _ _ _ p h))
theorem RoundTrip.scanLaneAddEx (p : RedAddF) : RoundTrip.Statement (.scanLaneAddEx p) := fun h =>
  have q := shape_eRedAdd 0x160 p
  decode_encode_long _ _ rfl (ok_of _ _ q.1 q.2.1 q.2.2 (.inl (by decide))) (parseLong_of _ _ _ _ q.1 rfl (rt_RedAdd _ _ p h))
theorem RoundTrip.scanLaneMinEx (p : VUnF) : RoundTrip.Statement (.scanLaneMinEx p) := fun h =>
  have q := shape_eVUn 0x161 p
  decode_encode_long _ _ rfl (ok_of _ _ q.1 q.2.1 q.2.2 (.inl (by decide))) (parseLong_of _ _ _ _ q.1 rfl (rt_VUn _ _ _ _ p h))
theorem RoundTrip.scanLaneMaxEx (p : VUnF) : RoundTrip.Statement (.scanLaneMaxEx p) := fun h =>
  have q := shape_eVUn 0x162 p
  decode_encode_long _ _ rfl (ok_of _ _ q.1 q.2.1 q.2.2 (.inl (by decide))) (parseLong_of _ _ _ _ q.1 rfl (rt_VUn _ _ _ _ p h))
theorem RoundTrip.scanLaneAndEx (p : VUnF) : RoundTrip.Statement (.scanLaneAndEx p) := fun h =>
  have q := shape_eVUn 0x163 p
  decode_encode_long _ _ rfl (ok_of _ _ q.1 q.2.1 q.2.2 (.inl (by decide))) (parseLong_of _ _ _ _ q.1 rfl (rt_VUn _ _ _ _ p h))
theorem RoundTrip.scanLaneOrEx (p : VUnF) : RoundTrip.Statement (.scanLaneOrEx p) := fun h =>
  have q := shape_eVUn 0x164 p
  decode_encode_long _ _ rfl (ok_of _ _ q.1 q.2.1 q.2.2 (.inl (by decide))) (parseLong_of _ _ _ _ q.1 rfl (rt_VUn _ _ _ _ p h))
theorem RoundTrip.scanLaneXorEx (p : VUnF) : RoundTrip.Statement (.scanLaneXorEx p) := fun h =>
  have q := shape_eVUn 0x165 p
  decode_encode_long _ _ rfl (ok_of _ _ q.1 q.2.1 q.2.2 (.inl (by decide))) (parseLong_of _ _ _ _ q.1 rfl (rt_VUn _ _ _ _ p h))
theorem RoundTrip.xaClr (p : XaClrF) : RoundTrip.Statement (.xaClr p) := fun _ =>
  have q := shape_eXaClr 0x170 p
  decode_encode_long _ _ rfl (ok_of _ _ q.1 q.2.1 q.2.2 (.inl (by decide))) (parseLong_of _ _ _ _ q.1 rfl (rt_XaClr _ _ p))
theorem RoundTrip.xaAdd (p : XaAddF) : RoundTrip.Statement (.xaAdd p) := fun h =>
  have q := shape_eXaAdd 0x171 p
  decode_encode_long _ _ rfl (ok_of _ _ q.1 q.2.1 q.2.2 (.inl (by decide))) (parseLong_of _ _ _ _ q.1 rfl (rt_XaAdd _ _ p h))
theorem RoundTrip.xaMac (p : XaMacF) : RoundTrip.Statement (.xaMac p) := fun h =>
  have q := shape_eXaMac 0x172 p
  decode_encode_long _ _ rfl (ok_of _ _ q.1 q.2.1 q.2.2 (.inl (by decide))) (parseLong_of _ _ _ _ q.1 rfl (rt_XaMac _ _ p h))
theorem RoundTrip.xaRnd (p : XaRndF) : RoundTrip.Statement (.xaRnd p) := fun h =>
  have q := shape_eXaRnd 0x173 p
  decode_encode_long _ _ rfl (ok_of _ _ q.1 q.2.1 q.2.2 (.inl (by decide))) (parseLong_of _ _ _ _ q.1 rfl (rt_XaRnd _ _ p h))
theorem RoundTrip.xaGet (p : XaGetF) : RoundTrip.Statement (.xaGet p) := fun h =>
  have q := shape_eXaGet 0x174 p
  decode_encode_long _ _ rfl (ok_of _ _ q.1 q.2.1 q.2.2 (.inl (by decide))) (parseLong_of _ _ _ _ q.1 rfl (rt_XaGet _ _ p h))
theorem RoundTrip.xaSet (p : XaSetF) : RoundTrip.Statement (.xaSet p) := fun h =>
  have q := shape_eXaSet 0x175 p
  decode_encode_long _ _ rfl (ok_of _ _ q.1 q.2.1 q.2.2 (.inl (by decide))) (parseLong_of _ _ _ _ q.1 rfl (rt_XaSet _ _ p h))
theorem RoundTrip.xaMerge (p : XaMergeF) : RoundTrip.Statement (.xaMerge p) := fun _ =>
  have q := shape_eXaMerge 0x176 p
  decode_encode_long _ _ rfl (ok_of _ _ q.1 q.2.1 q.2.2 (.inl (by decide))) (parseLong_of _ _ _ _ q.1 rfl (rt_XaMerge _ _ p))
theorem RoundTrip.rcp (p : VUnF) : RoundTrip.Statement (.rcp p) := fun h =>
  have q := shape_eVUn 0x180 p
  decode_encode_long _ _ rfl (ok_of _ _ q.1 q.2.1 q.2.2 (.inl (by decide))) (parseLong_of _ _ _ _ q.1 rfl (rt_VUn _ _ _ _ p h))
theorem RoundTrip.rsqrt (p : VUnF) : RoundTrip.Statement (.rsqrt p) := fun h =>
  have q := shape_eVUn 0x181 p
  decode_encode_long _ _ rfl (ok_of _ _ q.1 q.2.1 q.2.2 (.inl (by decide))) (parseLong_of _ _ _ _ q.1 rfl (rt_VUn _ _ _ _ p h))
theorem RoundTrip.exp2 (p : VUnF) : RoundTrip.Statement (.exp2 p) := fun h =>
  have q := shape_eVUn 0x182 p
  decode_encode_long _ _ rfl (ok_of _ _ q.1 q.2.1 q.2.2 (.inl (by decide))) (parseLong_of _ _ _ _ q.1 rfl (rt_VUn _ _ _ _ p h))
theorem RoundTrip.log2 (p : VUnF) : RoundTrip.Statement (.log2 p) := fun h =>
  have q := shape_eVUn 0x183 p
  decode_encode_long _ _ rfl (ok_of _ _ q.1 q.2.1 q.2.2 (.inl (by decide))) (parseLong_of _ _ _ _ q.1 rfl (rt_VUn _ _ _ _ p h))
theorem RoundTrip.sin (p : VUnF) : RoundTrip.Statement (.sin p) := fun h =>
  have q := shape_eVUn 0x184 p
  decode_encode_long _ _ rfl (ok_of _ _ q.1 q.2.1 q.2.2 (.inl (by decide))) (parseLong_of _ _ _ _ q.1 rfl (rt_VUn _ _ _ _ p h))
theorem RoundTrip.cos (p : VUnF) : RoundTrip.Statement (.cos p) := fun h =>
  have q := shape_eVUn 0x185 p
  decode_encode_long _ _ rfl (ok_of _ _ q.1 q.2.1 q.2.2 (.inl (by decide))) (parseLong_of _ _ _ _ q.1 rfl (rt_VUn _ _ _ _ p h))
theorem RoundTrip.fpDiv (p : FDivF) : RoundTrip.Statement (.fpDiv p) := fun h =>
  have q := shape_eFDiv 0x186 p
  decode_encode_long _ _ rfl (ok_of _ _ q.1 q.2.1 q.2.2 (.inl (by decide))) (parseLong_of _ _ _ _ q.1 rfl (rt_FDiv _ _ p h))
theorem RoundTrip.sqrt (p : FUnRF) : RoundTrip.Statement (.sqrt p) := fun h =>
  have q := shape_eFUnR 0x187 p
  decode_encode_long _ _ rfl (ok_of _ _ q.1 q.2.1 q.2.2 (.inl (by decide))) (parseLong_of _ _ _ _ q.1 rfl (rt_FUnR _ _ _ _ p h))
theorem RoundTrip.trap (p : TrapF) : RoundTrip.Statement (.trap p) := fun _ =>
  have q := shape_eTrap 0x340 p
  decode_encode_long _ _ rfl (ok_of _ _ q.1 q.2.1 q.2.2 (.inl (by decide))) (parseLong_of _ _ _ _ q.1 rfl (rt_Trap _ _ p))
theorem RoundTrip.modeSet (p : SysSF) : RoundTrip.Statement (.modeSet p) := fun _ =>
  have q := shape_eSysS 0x341 p
  decode_encode_long _ _ rfl (ok_of _ _ q.1 q.2.1 q.2.2 (.inl (by decide))) (parseLong_of _ _ _ _ q.1 rfl (rt_SysS _ _ p))
theorem RoundTrip.modeGet (p : SysDF) : RoundTrip.Statement (.modeGet p) := fun _ =>
  have q := shape_eSysD 0x342 p
  decode_encode_long _ _ rfl (ok_of _ _ q.1 q.2.1 q.2.2 (.inl (by decide))) (parseLong_of _ _ _ _ q.1 rfl (rt_SysD _ _ p))
theorem RoundTrip.timeGet (p : SysDF) : RoundTrip.Statement (.timeGet p) := fun _ =>
  have q := shape_eSysD 0x343 p
  decode_encode_long _ _ rfl (ok_of _ _ q.1 q.2.1 q.2.2 (.inl (by decide))) (parseLong_of _ _ _ _ q.1 rfl (rt_SysD _ _ p))
theorem RoundTrip.csrGet (p : SysIF) : RoundTrip.Statement (.csrGet p) := fun h =>
  have q := shape_eCsr 0x344 p
  decode_encode_long _ _ rfl (ok_of _ _ q.1 q.2.1 q.2.2 (.inl (by decide))) (parseLong_of _ _ _ _ q.1 rfl (rt_Csr _ _ p h))
theorem RoundTrip.yield (p : NopF) : RoundTrip.Statement (.yield p) := fun _ =>
  have q := shape_eNop 0x345 p
  decode_encode_long _ _ rfl (ok_of _ _ q.1 q.2.1 q.2.2 (.inl (by decide))) (parseLong_of _ _ _ _ q.1 rfl (rt_Nop _ _ p))
theorem RoundTrip.sleepUntil (p : SysSF) : RoundTrip.Statement (.sleepUntil p) := fun _ =>
  have q := shape_eSysS 0x346 p
  decode_encode_long _ _ rfl (ok_of _ _ q.1 q.2.1 q.2.2 (.inl (by decide))) (parseLong_of _ _ _ _ q.1 rfl (rt_SysS _ _ p))
theorem RoundTrip.perfGet (p : SysIF) : RoundTrip.Statement (.perfGet p) := fun h =>
  have q := shape_ePerf 0x347 p
  decode_encode_long _ _ rfl (ok_of _ _ q.1 q.2.1 q.2.2 (.inl (by decide))) (parseLong_of _ _ _ _ q.1 rfl (rt_Perf _ _ p h))
theorem RoundTrip.ld (p : LdF) : RoundTrip.Statement (.ld p) := fun h =>
  have q := shape_eLd 0x1C0 p
  decode_encode_long _ _ rfl (ok_of _ _ q.1 q.2.1 q.2.2 (.inl (by decide))) (parseLong_of _ _ _ _ q.1 rfl (rt_Ld _ _ _ _ p h))
theorem RoundTrip.st (p : StF) : RoundTrip.Statement (.st p) := fun h =>
  have q := shape_eSt 0x1C1 p
  decode_encode_long _ _ rfl (ok_of _ _ q.1 q.2.1 q.2.2 (.inl (by decide))) (parseLong_of _ _ _ _ q.1 rfl (rt_St _ _ _ _ p h))
theorem RoundTrip.ldRo (p : LdF) : RoundTrip.Statement (.ldRo p) := fun h =>
  have q := shape_eLd 0x1C2 p
  decode_encode_long _ _ rfl (ok_of _ _ q.1 q.2.1 q.2.2 (.inl (by decide))) (parseLong_of _ _ _ _ q.1 rfl (rt_Ld _ _ _ _ p h))
theorem RoundTrip.ldS (p : LdF) : RoundTrip.Statement (.ldS p) := fun h =>
  have q := shape_eLd 0x1C3 p
  decode_encode_long _ _ rfl (ok_of _ _ q.1 q.2.1 q.2.2 (.inl (by decide))) (parseLong_of _ _ _ _ q.1 rfl (rt_Ld _ _ _ _ p h))
theorem RoundTrip.stS (p : StF) : RoundTrip.Statement (.stS p) := fun h =>
  have q := shape_eSt 0x1C4 p
  decode_encode_long _ _ rfl (ok_of _ _ q.1 q.2.1 q.2.2 (.inl (by decide))) (parseLong_of _ _ _ _ q.1 rfl (rt_St _ _ _ _ p h))
theorem RoundTrip.ldL (p : LdF) : RoundTrip.Statement (.ldL p) := fun h =>
  have q := shape_eLd 0x1C5 p
  decode_encode_long _ _ rfl (ok_of _ _ q.1 q.2.1 q.2.2 (.inl (by decide))) (parseLong_of _ _ _ _ q.1 rfl (rt_Ld _ _ _ _ p h))
theorem RoundTrip.stL (p : StF) : RoundTrip.Statement (.stL p) := fun h =>
  have q := shape_eSt 0x1C6 p
  decode_encode_long _ _ rfl (ok_of _ _ q.1 q.2.1 q.2.2 (.inl (by decide))) (parseLong_of _ _ _ _ q.1 rfl (rt_St _ _ _ _ p h))
theorem RoundTrip.pf (p : PfF) : RoundTrip.Statement (.pf p) := fun _ =>
  have q := shape_ePf 0x1C7 p
  decode_encode_long _ _ rfl (ok_of _ _ q.1 q.2.1 q.2.2 (.inl (by decide))) (parseLong_of _ _ _ _ q.1 rfl (rt_Pf _ _ p))
theorem RoundTrip.ldWf (p : LdF) : RoundTrip.Statement (.ldWf p) := fun h =>
  have q := shape_eLd 0x200 p
  decode_encode_long _ _ rfl (ok_of _ _ q.1 q.2.1 q.2.2 (.inl (by decide))) (parseLong_of _ _ _ _ q.1 rfl (rt_Ld _ _ _ _ p h))
theorem RoundTrip.ldWfe (p : LdF) : RoundTrip.Statement (.ldWfe p) := fun h =>
  have q := shape_eLd 0x201 p
  decode_encode_long _ _ rfl (ok_of _ _ q.1 q.2.1 q.2.2 (.inl (by decide))) (parseLong_of _ _ _ _ q.1 rfl (rt_Ld _ _ _ _ p h))
theorem RoundTrip.stWe (p : StF) : RoundTrip.Statement (.stWe p) := fun h =>
  have q := shape_eSt 0x202 p
  decode_encode_long _ _ rfl (ok_of _ _ q.1 q.2.1 q.2.2 (.inl (by decide))) (parseLong_of _ _ _ _ q.1 rfl (rt_St _ _ _ _ p h))
theorem RoundTrip.stF (p : StF) : RoundTrip.Statement (.stF p) := fun h =>
  have q := shape_eSt 0x203 p
  decode_encode_long _ _ rfl (ok_of _ _ q.1 q.2.1 q.2.2 (.inl (by decide))) (parseLong_of _ _ _ _ q.1 rfl (rt_St _ _ _ _ p h))
theorem RoundTrip.tagGet (p : LdF) : RoundTrip.Statement (.tagGet p) := fun h =>
  have q := shape_eLd 0x204 p
  decode_encode_long _ _ rfl (ok_of _ _ q.1 q.2.1 q.2.2 (.inl (by decide))) (parseLong_of _ _ _ _ q.1 rfl (rt_Ld _ _ _ _ p h))
theorem RoundTrip.tagSet (p : StF) : RoundTrip.Statement (.tagSet p) := fun h =>
  have q := shape_eSt 0x205 p
  decode_encode_long _ _ rfl (ok_of _ _ q.1 q.2.1 q.2.2 (.inl (by decide))) (parseLong_of _ _ _ _ q.1 rfl (rt_St _ _ _ _ p h))
theorem RoundTrip.atomAdd (p : AtF) : RoundTrip.Statement (.atomAdd p) := fun h =>
  have q := shape_eAt 0x210 p
  decode_encode_long _ _ rfl (ok_of _ _ q.1 q.2.1 q.2.2 (.inl (by decide))) (parseLong_of _ _ _ _ q.1 rfl (rt_At _ _ _ p h))
theorem RoundTrip.atomMin (p : AtF) : RoundTrip.Statement (.atomMin p) := fun h =>
  have q := shape_eAt 0x211 p
  decode_encode_long _ _ rfl (ok_of _ _ q.1 q.2.1 q.2.2 (.inl (by decide))) (parseLong_of _ _ _ _ q.1 rfl (rt_At _ _ _ p h))
theorem RoundTrip.atomMax (p : AtF) : RoundTrip.Statement (.atomMax p) := fun h =>
  have q := shape_eAt 0x212 p
  decode_encode_long _ _ rfl (ok_of _ _ q.1 q.2.1 q.2.2 (.inl (by decide))) (parseLong_of _ _ _ _ q.1 rfl (rt_At _ _ _ p h))
theorem RoundTrip.atomAnd (p : AtF) : RoundTrip.Statement (.atomAnd p) := fun h =>
  have q := shape_eAt 0x213 p
  decode_encode_long _ _ rfl (ok_of _ _ q.1 q.2.1 q.2.2 (.inl (by decide))) (parseLong_of _ _ _ _ q.1 rfl (rt_At _ _ _ p h))
theorem RoundTrip.atomOr (p : AtF) : RoundTrip.Statement (.atomOr p) := fun h =>
  have q := shape_eAt 0x214 p
  decode_encode_long _ _ rfl (ok_of _ _ q.1 q.2.1 q.2.2 (.inl (by decide))) (parseLong_of _ _ _ _ q.1 rfl (rt_At _ _ _ p h))
theorem RoundTrip.atomXor (p : AtF) : RoundTrip.Statement (.atomXor p) := fun h =>
  have q := shape_eAt 0x215 p
  decode_encode_long _ _ rfl (ok_of _ _ q.1 q.2.1 q.2.2 (.inl (by decide))) (parseLong_of _ _ _ _ q.1 rfl (rt_At _ _ _ p h))
theorem RoundTrip.atomExch (p : AtF) : RoundTrip.Statement (.atomExch p) := fun h =>
  have q := shape_eAt 0x216 p
  decode_encode_long _ _ rfl (ok_of _ _ q.1 q.2.1 q.2.2 (.inl (by decide))) (parseLong_of _ _ _ _ q.1 rfl (rt_At _ _ _ p h))
theorem RoundTrip.atomIncWrap (p : AtF) : RoundTrip.Statement (.atomIncWrap p) := fun h =>
  have q := shape_eAt 0x217 p
  decode_encode_long _ _ rfl (ok_of _ _ q.1 q.2.1 q.2.2 (.inl (by decide))) (parseLong_of _ _ _ _ q.1 rfl (rt_At _ _ _ p h))
theorem RoundTrip.atomAddBound (p : AtBF) : RoundTrip.Statement (.atomAddBound p) := fun h =>
  have q := shape_eAtB 0x218 p
  decode_encode_long _ _ rfl (ok_of _ _ q.1 q.2.1 q.2.2 (.inl (by decide))) (parseLong_of _ _ _ _ q.1 rfl (rt_AtB _ _ p h))
theorem RoundTrip.atomCas (p : AtF) : RoundTrip.Statement (.atomCas p) := fun h =>
  have q := shape_eAt 0x219 p
  decode_encode_long _ _ rfl (ok_of _ _ q.1 q.2.1 q.2.2 (.inl (by decide))) (parseLong_of _ _ _ _ q.1 rfl (rt_At _ _ _ p h))
theorem RoundTrip.redAdd (p : StF) : RoundTrip.Statement (.redAdd p) := fun h =>
  have q := shape_eSt 0x220 p
  decode_encode_long _ _ rfl (ok_of _ _ q.1 q.2.1 q.2.2 (.inl (by decide))) (parseLong_of _ _ _ _ q.1 rfl (rt_St _ _ _ _ p h))
theorem RoundTrip.redMin (p : StF) : RoundTrip.Statement (.redMin p) := fun h =>
  have q := shape_eSt 0x221 p
  decode_encode_long _ _ rfl (ok_of _ _ q.1 q.2.1 q.2.2 (.inl (by decide))) (parseLong_of _ _ _ _ q.1 rfl (rt_St _ _ _ _ p h))
theorem RoundTrip.redMax (p : StF) : RoundTrip.Statement (.redMax p) := fun h =>
  have q := shape_eSt 0x222 p
  decode_encode_long _ _ rfl (ok_of _ _ q.1 q.2.1 q.2.2 (.inl (by decide))) (parseLong_of _ _ _ _ q.1 rfl (rt_St _ _ _ _ p h))
theorem RoundTrip.redAnd (p : StF) : RoundTrip.Statement (.redAnd p) := fun h =>
  have q := shape_eSt 0x223 p
  decode_encode_long _ _ rfl (ok_of _ _ q.1 q.2.1 q.2.2 (.inl (by decide))) (parseLong_of _ _ _ _ q.1 rfl (rt_St _ _ _ _ p h))
theorem RoundTrip.redOr (p : StF) : RoundTrip.Statement (.redOr p) := fun h =>
  have q := shape_eSt 0x224 p
  decode_encode_long _ _ rfl (ok_of _ _ q.1 q.2.1 q.2.2 (.inl (by decide))) (parseLong_of _ _ _ _ q.1 rfl (rt_St _ _ _ _ p h))
theorem RoundTrip.redXor (p : StF) : RoundTrip.Statement (.redXor p) := fun h =>
  have q := shape_eSt 0x225 p
  decode_encode_long _ _ rfl (ok_of _ _ q.1 q.2.1 q.2.2 (.inl (by decide))) (parseLong_of _ _ _ _ q.1 rfl (rt_St _ _ _ _ p h))
theorem RoundTrip.redIncWrap (p : StF) : RoundTrip.Statement (.redIncWrap p) := fun h =>
  have q := shape_eSt 0x226 p
  decode_encode_long _ _ rfl (ok_of _ _ q.1 q.2.1 q.2.2 (.inl (by decide))) (parseLong_of _ _ _ _ q.1 rfl (rt_St _ _ _ _ p h))
theorem RoundTrip.fenceAcq (p : FenceF) : RoundTrip.Statement (.fenceAcq p) := fun _ =>
  have q := shape_eFence 0x240 p
  decode_encode_long _ _ rfl (ok_of _ _ q.1 q.2.1 q.2.2 (.inl (by decide))) (parseLong_of _ _ _ _ q.1 rfl (rt_Fence _ _ p))
theorem RoundTrip.fenceRel (p : FenceF) : RoundTrip.Statement (.fenceRel p) := fun _ =>
  have q := shape_eFence 0x241 p
  decode_encode_long _ _ rfl (ok_of _ _ q.1 q.2.1 q.2.2 (.inl (by decide))) (parseLong_of _ _ _ _ q.1 rfl (rt_Fence _ _ p))
theorem RoundTrip.fenceAr (p : FenceF) : RoundTrip.Statement (.fenceAr p) := fun _ =>
  have q := shape_eFence 0x242 p
  decode_encode_long _ _ rfl (ok_of _ _ q.1 q.2.1 q.2.2 (.inl (by decide))) (parseLong_of _ _ _ _ q.1 rfl (rt_Fence _ _ p))
theorem RoundTrip.fenceSc (p : FenceF) : RoundTrip.Statement (.fenceSc p) := fun _ =>
  have q := shape_eFence 0x243 p
  decode_encode_long _ _ rfl (ok_of _ _ q.1 q.2.1 q.2.2 (.inl (by decide))) (parseLong_of _ _ _ _ q.1 rfl (rt_Fence _ _ p))
theorem RoundTrip.roInv (p : BareF) : RoundTrip.Statement (.roInv p) := fun _ =>
  have q := shape_eBare 0x244 p
  decode_encode_long _ _ rfl (ok_of _ _ q.1 q.2.1 q.2.2 (.inl (by decide))) (parseLong_of _ _ _ _ q.1 rfl (rt_Bare _ _ p))
theorem RoundTrip.boInit (p : BoF) : RoundTrip.Statement (.boInit p) := fun _ =>
  have q := shape_eBo 0x248 p
  decode_encode_long _ _ rfl (ok_of _ _ q.1 q.2.1 q.2.2 (.inl (by decide))) (parseLong_of _ _ _ _ q.1 rfl (rt_Bo _ _ p))
theorem RoundTrip.boExpect (p : BoF) : RoundTrip.Statement (.boExpect p) := fun _ =>
  have q := shape_eBo 0x249 p
  decode_encode_long _ _ rfl (ok_of _ _ q.1 q.2.1 q.2.2 (.inl (by decide))) (parseLong_of _ _ _ _ q.1 rfl (rt_Bo _ _ p))
theorem RoundTrip.boArrive (p : BoArriveF) : RoundTrip.Statement (.boArrive p) := fun _ =>
  have q := shape_eBoArrive 0x24A p
  decode_encode_long _ _ rfl (ok_of _ _ q.1 q.2.1 q.2.2 (.inl (by decide))) (parseLong_of _ _ _ _ q.1 rfl (rt_BoArrive _ _ p))
theorem RoundTrip.boWait (p : BoF) : RoundTrip.Statement (.boWait p) := fun _ =>
  have q := shape_eBo 0x24B p
  decode_encode_long _ _ rfl (ok_of _ _ q.1 q.2.1 q.2.2 (.inl (by decide))) (parseLong_of _ _ _ _ q.1 rfl (rt_Bo _ _ p))
theorem RoundTrip.lockAcq (p : LockF) : RoundTrip.Statement (.lockAcq p) := fun h =>
  have q := shape_eLock 0x250 p
  decode_encode_long _ _ rfl (ok_of _ _ q.1 q.2.1 q.2.2 (.inl (by decide))) (parseLong_of _ _ _ _ q.1 rfl (rt_Lock _ _ p h))
theorem RoundTrip.lockTry (p : LockTryF) : RoundTrip.Statement (.lockTry p) := fun h =>
  have q := shape_eLockTry 0x251 p
  decode_encode_long _ _ rfl (ok_of _ _ q.1 q.2.1 q.2.2 (.inl (by decide))) (parseLong_of _ _ _ _ q.1 rfl (rt_LockTry _ _ p h))
theorem RoundTrip.lockRel (p : LockF) : RoundTrip.Statement (.lockRel p) := fun h =>
  have q := shape_eLock 0x252 p
  decode_encode_long _ _ rfl (ok_of _ _ q.1 q.2.1 q.2.2 (.inl (by decide))) (parseLong_of _ _ _ _ q.1 rfl (rt_Lock _ _ p h))
theorem RoundTrip.dqPush (p : DqF) : RoundTrip.Statement (.dqPush p) := fun h =>
  have q := shape_eDq 0x258 p
  decode_encode_long _ _ rfl (ok_of _ _ q.1 q.2.1 q.2.2 (.inl (by decide))) (parseLong_of _ _ _ _ q.1 rfl (rt_Dq _ _ p h))
theorem RoundTrip.dqPop (p : DqF) : RoundTrip.Statement (.dqPop p) := fun h =>
  have q := shape_eDq 0x259 p
  decode_encode_long _ _ rfl (ok_of _ _ q.1 q.2.1 q.2.2 (.inl (by decide))) (parseLong_of _ _ _ _ q.1 rfl (rt_Dq _ _ p h))
theorem RoundTrip.ownSet (p : OwnSetF) : RoundTrip.Statement (.ownSet p) := fun _ =>
  have q := shape_eOwnSet 0x260 p
  decode_encode_long _ _ rfl (ok_of _ _ q.1 q.2.1 q.2.2 (.inl (by decide))) (parseLong_of _ _ _ _ q.1 rfl (rt_OwnSet _ _ p))
theorem RoundTrip.ownClr (p : OwnClrF) : RoundTrip.Statement (.ownClr p) := fun _ =>
  have q := shape_eOwnClr 0x261 p
  decode_encode_long _ _ rfl (ok_of _ _ q.1 q.2.1 q.2.2 (.inl (by decide))) (parseLong_of _ _ _ _ q.1 rfl (rt_OwnClr _ _ p))
theorem RoundTrip.cpIn (p : CpF) : RoundTrip.Statement (.cpIn p) := fun h =>
  have q := ok_eCp 0x280 p (by decide)
  decode_encode_long _ _ rfl q.2 (parseLong_of _ _ _ _ q.1 rfl (rt_Cp _ _ _ p h))
theorem RoundTrip.cpOut (p : CpF) : RoundTrip.Statement (.cpOut p) := fun h =>
  have q := ok_eCp 0x281 p (by decide)
  decode_encode_long _ _ rfl q.2 (parseLong_of _ _ _ _ q.1 rfl (rt_Cp _ _ _ p h))
theorem RoundTrip.cpLl (p : CpF) : RoundTrip.Statement (.cpLl p) := fun h =>
  have q := ok_eCp 0x282 p (by decide)
  decode_encode_long _ _ rfl q.2 (parseLong_of _ _ _ _ q.1 rfl (rt_Cp _ _ _ p h))
theorem RoundTrip.fenceRec (p : BareF) : RoundTrip.Statement (.fenceRec p) := fun _ =>
  have q := shape_eBare 0x283 p
  decode_encode_long _ _ rfl (ok_of _ _ q.1 q.2.1 q.2.2 (.inr rfl)) (parseLong_of _ _ _ _ q.1 rfl (rt_Bare _ _ p))
theorem RoundTrip.mmaF64 (p : MmaF) : RoundTrip.Statement (.mmaF64 p) := fun h =>
  have q := shape_eMma 0x2C0 p
  decode_encode_long _ _ rfl (ok_of _ _ q.1 q.2.1 q.2.2 (.inr rfl)) (parseLong_of _ _ _ _ q.1 rfl (rt_Mma _ _ _ p h))
theorem RoundTrip.mmaF32 (p : MmaF) : RoundTrip.Statement (.mmaF32 p) := fun h =>
  have q := shape_eMma 0x2C1 p
  decode_encode_long _ _ rfl (ok_of _ _ q.1 q.2.1 q.2.2 (.inr rfl)) (parseLong_of _ _ _ _ q.1 rfl (rt_Mma _ _ _ p h))
theorem RoundTrip.mmaF16 (p : MmaF) : RoundTrip.Statement (.mmaF16 p) := fun h =>
  have q := shape_eMma 0x2C2 p
  decode_encode_long _ _ rfl (ok_of _ _ q.1 q.2.1 q.2.2 (.inr rfl)) (parseLong_of _ _ _ _ q.1 rfl (rt_Mma _ _ _ p h))
theorem RoundTrip.mmaBf16 (p : MmaF) : RoundTrip.Statement (.mmaBf16 p) := fun h =>
  have q := shape_eMma 0x2C3 p
  decode_encode_long _ _ rfl (ok_of _ _ q.1 q.2.1 q.2.2 (.inr rfl)) (parseLong_of _ _ _ _ q.1 rfl (rt_Mma _ _ _ p h))
theorem RoundTrip.mmaF8e4 (p : MmaF) : RoundTrip.Statement (.mmaF8e4 p) := fun h =>
  have q := shape_eMma 0x2C4 p
  decode_encode_long _ _ rfl (ok_of _ _ q.1 q.2.1 q.2.2 (.inr rfl)) (parseLong_of _ _ _ _ q.1 rfl (rt_Mma _ _ _ p h))
theorem RoundTrip.mmaF8e5 (p : MmaF) : RoundTrip.Statement (.mmaF8e5 p) := fun h =>
  have q := shape_eMma 0x2C5 p
  decode_encode_long _ _ rfl (ok_of _ _ q.1 q.2.1 q.2.2 (.inr rfl)) (parseLong_of _ _ _ _ q.1 rfl (rt_Mma _ _ _ p h))
theorem RoundTrip.mmaI8 (p : MmaF) : RoundTrip.Statement (.mmaI8 p) := fun h =>
  have q := shape_eMma 0x2C6 p
  decode_encode_long _ _ rfl (ok_of _ _ q.1 q.2.1 q.2.2 (.inr rfl)) (parseLong_of _ _ _ _ q.1 rfl (rt_Mma _ _ _ p h))
theorem RoundTrip.mmaCb4 (p : MmaF) : RoundTrip.Statement (.mmaCb4 p) := fun h =>
  have q := shape_eMma 0x2C7 p
  decode_encode_long _ _ rfl (ok_of _ _ q.1 q.2.1 q.2.2 (.inr rfl)) (parseLong_of _ _ _ _ q.1 rfl (rt_Mma _ _ _ p h))
theorem RoundTrip.mmaCrewF64 (p : MmaF) : RoundTrip.Statement (.mmaCrewF64 p) := fun h =>
  have q := shape_eMma 0x2C8 p
  decode_encode_long _ _ rfl (ok_of _ _ q.1 q.2.1 q.2.2 (.inr rfl)) (parseLong_of _ _ _ _ q.1 rfl (rt_Mma _ _ _ p h))
theorem RoundTrip.mmaCrewF32 (p : MmaF) : RoundTrip.Statement (.mmaCrewF32 p) := fun h =>
  have q := shape_eMma 0x2C9 p
  decode_encode_long _ _ rfl (ok_of _ _ q.1 q.2.1 q.2.2 (.inr rfl)) (parseLong_of _ _ _ _ q.1 rfl (rt_Mma _ _ _ p h))
theorem RoundTrip.mmaCrewF16 (p : MmaF) : RoundTrip.Statement (.mmaCrewF16 p) := fun h =>
  have q := shape_eMma 0x2CA p
  decode_encode_long _ _ rfl (ok_of _ _ q.1 q.2.1 q.2.2 (.inr rfl)) (parseLong_of _ _ _ _ q.1 rfl (rt_Mma _ _ _ p h))
theorem RoundTrip.mmaCrewBf16 (p : MmaF) : RoundTrip.Statement (.mmaCrewBf16 p) := fun h =>
  have q := shape_eMma 0x2CB p
  decode_encode_long _ _ rfl (ok_of _ _ q.1 q.2.1 q.2.2 (.inr rfl)) (parseLong_of _ _ _ _ q.1 rfl (rt_Mma _ _ _ p h))
theorem RoundTrip.mmaCrewF8e4 (p : MmaF) : RoundTrip.Statement (.mmaCrewF8e4 p) := fun h =>
  have q := shape_eMma 0x2CC p
  decode_encode_long _ _ rfl (ok_of _ _ q.1 q.2.1 q.2.2 (.inr rfl)) (parseLong_of _ _ _ _ q.1 rfl (rt_Mma _ _ _ p h))
theorem RoundTrip.mmaCrewF8e5 (p : MmaF) : RoundTrip.Statement (.mmaCrewF8e5 p) := fun h =>
  have q := shape_eMma 0x2CD p
  decode_encode_long _ _ rfl (ok_of _ _ q.1 q.2.1 q.2.2 (.inr rfl)) (parseLong_of _ _ _ _ q.1 rfl (rt_Mma _ _ _ p h))
theorem RoundTrip.mmaCrewI8 (p : MmaF) : RoundTrip.Statement (.mmaCrewI8 p) := fun h =>
  have q := shape_eMma 0x2CE p
  decode_encode_long _ _ rfl (ok_of _ _ q.1 q.2.1 q.2.2 (.inr rfl)) (parseLong_of _ _ _ _ q.1 rfl (rt_Mma _ _ _ p h))
theorem RoundTrip.mmaCrewCb4 (p : MmaF) : RoundTrip.Statement (.mmaCrewCb4 p) := fun h =>
  have q := shape_eMma 0x2CF p
  decode_encode_long _ _ rfl (ok_of _ _ q.1 q.2.1 q.2.2 (.inr rfl)) (parseLong_of _ _ _ _ q.1 rfl (rt_Mma _ _ _ p h))
theorem RoundTrip.accClr (p : AccClrF) : RoundTrip.Statement (.accClr p) := fun h =>
  have q := shape_eAccClr 0x2D0 p
  decode_encode_long _ _ rfl (ok_of _ _ q.1 q.2.1 q.2.2 (.inr rfl)) (parseLong_of _ _ _ _ q.1 rfl (rt_AccClr _ _ p h))
theorem RoundTrip.accLd (p : AccLdF) : RoundTrip.Statement (.accLd p) := fun h =>
  have q := ok_eAccLd 0x2D1 p (by decide)
  decode_encode_long _ _ rfl q.2 (parseLong_of _ _ _ _ q.1 rfl (rt_AccLd _ _ p h))
theorem RoundTrip.accSt (p : AccStF) : RoundTrip.Statement (.accSt p) := fun h =>
  have q := ok_eAccSt 0x2D2 p (by decide)
  decode_encode_long _ _ rfl q.2 (parseLong_of _ _ _ _ q.1 rfl (rt_AccSt _ _ p))
theorem RoundTrip.accMovGet (p : AccMovF) : RoundTrip.Statement (.accMovGet p) := fun _ =>
  have q := shape_eAccMov false 0x2D3 p
  decode_encode_long _ _ rfl (ok_of _ _ q.1 q.2.1 q.2.2 (.inr rfl)) (parseLong_of _ _ _ _ q.1 rfl (rt_AccMovGet _ _ _ p))
theorem RoundTrip.accMovPut (p : AccMovF) : RoundTrip.Statement (.accMovPut p) := fun _ =>
  have q := shape_eAccMov true 0x2D3 p
  decode_encode_long _ _ rfl (ok_of _ _ q.1 q.2.1 q.2.2 (.inr rfl)) (parseLong_of _ _ _ _ q.1 rfl (rt_AccMovPut _ _ _ p))
theorem RoundTrip.feedSkip (p : FeedSkipF) : RoundTrip.Statement (.feedSkip p) := fun _ =>
  have q := shape_eFeedSkip 0x2D4 p
  decode_encode_long _ _ rfl (ok_of _ _ q.1 q.2.1 q.2.2 (.inr rfl)) (parseLong_of _ _ _ _ q.1 rfl (rt_FeedSkip _ _ p))
theorem RoundTrip.feedMark (p : FeedMarkF) : RoundTrip.Statement (.feedMark p) := fun _ =>
  have q := shape_eFeedMark 0x2D5 p
  decode_encode_long _ _ rfl (ok_of _ _ q.1 q.2.1 q.2.2 (.inr rfl)) (parseLong_of _ _ _ _ q.1 rfl (rt_FeedMark _ _ p))
theorem RoundTrip.cbLoad (p : CbLoadF) : RoundTrip.Statement (.cbLoad p) := fun _ =>
  have q := shape_eCbLoad 0x2D6 p
  decode_encode_long _ _ rfl (ok_of _ _ q.1 q.2.1 q.2.2 (.inr rfl)) (parseLong_of _ _ _ _ q.1 rfl (rt_CbLoad _ _ p))
theorem RoundTrip.ssm (p : SsmF) : RoundTrip.Statement (.ssm p) := fun _ =>
  have q := shape_eSsm 0x2E0 p
  decode_encode_long _ _ rfl (ok_of _ _ q.1 q.2.1 q.2.2 (.inr rfl)) (parseLong_of _ _ _ _ q.1 rfl (rt_Ssm _ _ p))
theorem RoundTrip.taskLaunch (p : DA) : RoundTrip.Statement (.taskLaunch p) := fun _ =>
  have q := shape_eDA 0 0x300 p
  decode_encode_long _ _ rfl (ok_of _ _ q.1 q.2.1 q.2.2 (.inl (by decide))) (parseLong_of _ _ _ _ q.1 rfl (rt_DA _ _ _ p))
theorem RoundTrip.depDec (p : AOnly) : RoundTrip.Statement (.depDec p) := fun _ =>
  have q := shape_eA 0 0x301 p
  decode_encode_long _ _ rfl (ok_of _ _ q.1 q.2.1 q.2.2 (.inl (by decide))) (parseLong_of _ _ _ _ q.1 rfl (rt_A _ _ _ p))
theorem RoundTrip.spawn (p : SpawnF) : RoundTrip.Statement (.spawn p) := fun h =>
  have q := shape_eSpawn 0x308 p
  decode_encode_long _ _ rfl (ok_of _ _ q.1 q.2.1 q.2.2 (.inl (by decide))) (parseLong_of _ _ _ _ q.1 rfl (rt_Spawn _ _ p h))
theorem RoundTrip.spawnFlush (p : BareF) : RoundTrip.Statement (.spawnFlush p) := fun _ =>
  have q := shape_eBare 0x309 p
  decode_encode_long _ _ rfl (ok_of _ _ q.1 q.2.1 q.2.2 (.inl (by decide))) (parseLong_of _ _ _ _ q.1 rfl (rt_Bare _ _ p))
theorem RoundTrip.joinWait (p : AOnly) : RoundTrip.Statement (.joinWait p) := fun _ =>
  have q := shape_eA 0 0x30A p
  decode_encode_long _ _ rfl (ok_of _ _ q.1 q.2.1 q.2.2 (.inl (by decide))) (parseLong_of _ _ _ _ q.1 rfl (rt_A _ _ _ p))
theorem RoundTrip.joinPoll (p : DA) : RoundTrip.Statement (.joinPoll p) := fun _ =>
  have q := shape_eDA 0 0x30B p
  decode_encode_long _ _ rfl (ok_of _ _ q.1 q.2.1 q.2.2 (.inl (by decide))) (parseLong_of _ _ _ _ q.1 rfl (rt_DA _ _ _ p))
theorem RoundTrip.regClaim (p : RegClF) : RoundTrip.Statement (.regClaim p) := fun _ =>
  have q := shape_eRegCl 0x310 p
  decode_encode_long _ _ rfl (ok_of _ _ q.1 q.2.1 q.2.2 (.inl (by decide))) (parseLong_of _ _ _ _ q.1 rfl (rt_RegCl _ _ p))
theorem RoundTrip.regGive (p : RegClF) : RoundTrip.Statement (.regGive p) := fun _ =>
  have q := shape_eRegCl 0x311 p
  decode_encode_long _ _ rfl (ok_of _ _ q.1 q.2.1 q.2.2 (.inl (by decide))) (parseLong_of _ _ _ _ q.1 rfl (rt_RegCl _ _ p))
theorem RoundTrip.binEmit (p : BinEmitF) : RoundTrip.Statement (.binEmit p) := fun _ =>
  have q := shape_eBinEmit 0x380 p
  decode_encode_long _ _ rfl (ok_of _ _ q.1 q.2.1 q.2.2 (.inl (by decide))) (parseLong_of _ _ _ _ q.1 rfl (rt_BinEmit _ _ p))
theorem RoundTrip.binEnd (p : AOnly) : RoundTrip.Statement (.binEnd p) := fun _ =>
  have q := shape_eA 0 0x381 p
  decode_encode_long _ _ rfl (ok_of _ _ q.1 q.2.1 q.2.2 (.inl (by decide))) (parseLong_of _ _ _ _ q.1 rfl (pC0_zero _ _ _ (show (0#11).getLsbD 0 = false by decide) (rt_A _ _ _ p)))
theorem RoundTrip.binEndReset (p : AOnly) : RoundTrip.Statement (.binEndReset p) := fun _ =>
  have q := shape_eA 1 0x381 p
  decode_encode_long _ _ rfl (ok_of _ _ q.1 q.2.1 q.2.2 (.inl (by decide))) (parseLong_of _ _ _ _ q.1 rfl (pC0_one _ _ _ (show (1#11).getLsbD 0 = true by decide) (rt_A _ _ _ p)))
theorem RoundTrip.fragOut (p : FragOutF) : RoundTrip.Statement (.fragOut p) := fun _ =>
  have q := shape_eFragOut 0x382 p
  decode_encode_long _ _ rfl (ok_of _ _ q.1 q.2.1 q.2.2 (.inl (by decide))) (parseLong_of _ _ _ _ q.1 rfl (rt_FragOut _ _ _ p))
theorem RoundTrip.fragOutInit (p : FragInitF) : RoundTrip.Statement (.fragOutInit p) := fun _ =>
  have q := shape_eFragInit 0x382 p
  decode_encode_long _ _ rfl (ok_of _ _ q.1 q.2.1 q.2.2 (.inl (by decide))) (parseLong_of _ _ _ _ q.1 rfl (rt_FragInit _ _ _ p))
theorem RoundTrip.ringAcq (p : DA) : RoundTrip.Statement (.ringAcq p) := fun _ =>
  have q := shape_eDA 0 0x388 p
  decode_encode_long _ _ rfl (ok_of _ _ q.1 q.2.1 q.2.2 (.inl (by decide))) (parseLong_of _ _ _ _ q.1 rfl (pC0_zero _ _ _ (show (0#11).getLsbD 0 = false by decide) (rt_DA _ _ _ p)))
theorem RoundTrip.ringAcqCons (p : DA) : RoundTrip.Statement (.ringAcqCons p) := fun _ =>
  have q := shape_eDA 1 0x388 p
  decode_encode_long _ _ rfl (ok_of _ _ q.1 q.2.1 q.2.2 (.inl (by decide))) (parseLong_of _ _ _ _ q.1 rfl (pC0_one _ _ _ (show (1#11).getLsbD 0 = true by decide) (rt_DA _ _ _ p)))
theorem RoundTrip.ringRel (p : ABF) : RoundTrip.Statement (.ringRel p) := fun _ =>
  have q := shape_eAB 0 0x389 p
  decode_encode_long _ _ rfl (ok_of _ _ q.1 q.2.1 q.2.2 (.inl (by decide))) (parseLong_of _ _ _ _ q.1 rfl (pC0_zero _ _ _ (show (0#11).getLsbD 0 = false by decide) (rt_AB _ _ _ p)))
theorem RoundTrip.ringRelCons (p : ABF) : RoundTrip.Statement (.ringRelCons p) := fun _ =>
  have q := shape_eAB 1 0x389 p
  decode_encode_long _ _ rfl (ok_of _ _ q.1 q.2.1 q.2.2 (.inl (by decide))) (parseLong_of _ _ _ _ q.1 rfl (pC0_one _ _ _ (show (1#11).getLsbD 0 = true by decide) (rt_AB _ _ _ p)))
theorem RoundTrip.ringHalo (p : ABF) : RoundTrip.Statement (.ringHalo p) := fun _ =>
  have q := shape_eAB 0 0x38A p
  decode_encode_long _ _ rfl (ok_of _ _ q.1 q.2.1 q.2.2 (.inl (by decide))) (parseLong_of _ _ _ _ q.1 rfl (rt_AB _ _ _ p))
theorem RoundTrip.rtTrace (p : RtTraceF) : RoundTrip.Statement (.rtTrace p) := fun _ =>
  have q := shape_eRtTrace 0x390 p
  decode_encode_long _ _ rfl (ok_of _ _ q.1 q.2.1 q.2.2 (.inl (by decide))) (parseLong_of _ _ _ _ q.1 rfl (rt_RtTrace _ _ p))
theorem RoundTrip.rtNext (p : DOnly) : RoundTrip.Statement (.rtNext p) := fun _ =>
  have q := shape_eDOnly 0x391 p
  decode_encode_long _ _ rfl (ok_of _ _ q.1 q.2.1 q.2.2 (.inl (by decide))) (parseLong_of _ _ _ _ q.1 rfl (rt_DOnly _ _ p))
theorem RoundTrip.rtAccept (p : DAB) : RoundTrip.Statement (.rtAccept p) := fun _ =>
  have q := shape_eDAB 0x392 p
  decode_encode_long _ _ rfl (ok_of _ _ q.1 q.2.1 q.2.2 (.inl (by decide))) (parseLong_of _ _ _ _ q.1 rfl (rt_DAB _ _ p))
theorem RoundTrip.rtReplay (p : RtReplayF) : RoundTrip.Statement (.rtReplay p) := fun _ =>
  have q := shape_eRtReplay 0x393 p
  decode_encode_long _ _ rfl (ok_of _ _ q.1 q.2.1 q.2.2 (.inl (by decide))) (parseLong_of _ _ _ _ q.1 rfl (rt_RtReplay _ _ p))
theorem RoundTrip.addI64VectorCompact (p : CompactF) : RoundTrip.Statement (.addI64VectorCompact p) := fun _ => decode_encode_short _ _ rfl rfl
theorem RoundTrip.addF32Compact (p : CompactF) : RoundTrip.Statement (.addF32Compact p) := fun _ => decode_encode_short _ _ rfl rfl
theorem RoundTrip.mulF32Compact (p : CompactF) : RoundTrip.Statement (.mulF32Compact p) := fun _ => decode_encode_short _ _ rfl rfl
theorem RoundTrip.addF64Compact (p : CompactF) : RoundTrip.Statement (.addF64Compact p) := fun _ => decode_encode_short _ _ rfl rfl
theorem RoundTrip.mulF64Compact (p : CompactF) : RoundTrip.Statement (.mulF64Compact p) := fun _ => decode_encode_short _ _ rfl rfl
theorem RoundTrip.andB64Compact (p : CompactF) : RoundTrip.Statement (.andB64Compact p) := fun _ => decode_encode_short _ _ rfl rfl
theorem RoundTrip.orB64Compact (p : CompactF) : RoundTrip.Statement (.orB64Compact p) := fun _ => decode_encode_short _ _ rfl rfl
theorem RoundTrip.xorB64Compact (p : CompactF) : RoundTrip.Statement (.xorB64Compact p) := fun _ => decode_encode_short _ _ rfl rfl
theorem RoundTrip.movB64VectorCompact (p : CompactDBF) : RoundTrip.Statement (.movB64VectorCompact p) := fun _ => decode_encode_short _ _ rfl rfl
theorem RoundTrip.addI64ScalarCompact (p : CompactF) : RoundTrip.Statement (.addI64ScalarCompact p) := fun _ => decode_encode_short _ _ rfl rfl
theorem RoundTrip.subI64ScalarCompact (p : CompactF) : RoundTrip.Statement (.subI64ScalarCompact p) := fun _ => decode_encode_short _ _ rfl rfl
theorem RoundTrip.movB64ScalarCompact (p : CompactDBF) : RoundTrip.Statement (.movB64ScalarCompact p) := fun _ => decode_encode_short _ _ rfl rfl
theorem RoundTrip.shlN64ScalarCompact (p : CompactF) : RoundTrip.Statement (.shlN64ScalarCompact p) := fun _ => decode_encode_short _ _ rfl rfl
theorem RoundTrip.addI32VectorCompact (p : CompactF) : RoundTrip.Statement (.addI32VectorCompact p) := fun _ => decode_encode_short _ _ rfl rfl
theorem RoundTrip.nopCompact (p : CompactNF) : RoundTrip.Statement (.nopCompact p) := fun _ => decode_encode_short _ _ rfl rfl
theorem RoundTrip.ldSB64Compact (p : CompactDAF) : RoundTrip.Statement (.ldSB64Compact p) := fun _ => decode_encode_short _ _ rfl rfl
theorem RoundTrip.stSB64Compact (p : CompactABF) : RoundTrip.Statement (.stSB64Compact p) := fun _ => decode_encode_short _ _ rfl rfl
theorem RoundTrip.joinCountZero : RoundTrip.Statement .joinCountZero := fun h => Bool.noConfusion h
theorem RoundTrip.illegalOpcode : RoundTrip.Statement .illegalOpcode := fun h => Bool.noConfusion h
theorem RoundTrip.scoreboardResult : RoundTrip.Statement .scoreboardResult := fun h => Bool.noConfusion h
theorem RoundTrip.sleepUntilWake : RoundTrip.Statement .sleepUntilWake := fun h => Bool.noConfusion h
theorem RoundTrip.waiterRetest : RoundTrip.Statement .waiterRetest := fun h => Bool.noConfusion h
theorem RoundTrip.copyComplete : RoundTrip.Statement .copyComplete := fun h => Bool.noConfusion h
theorem RoundTrip.copyTransferFault : RoundTrip.Statement .copyTransferFault := fun h => Bool.noConfusion h
theorem RoundTrip.crewOperationStart : RoundTrip.Statement .crewOperationStart := fun h => Bool.noConfusion h
theorem RoundTrip.mmaComplete : RoundTrip.Statement .mmaComplete := fun h => Bool.noConfusion h
theorem RoundTrip.ssmComplete : RoundTrip.Statement .ssmComplete := fun h => Bool.noConfusion h
theorem RoundTrip.launchTableWaitEnd : RoundTrip.Statement .launchTableWaitEnd := fun h => Bool.noConfusion h
theorem RoundTrip.spawnSegmentWaitEnd : RoundTrip.Statement .spawnSegmentWaitEnd := fun h => Bool.noConfusion h
theorem RoundTrip.claimServed : RoundTrip.Statement .claimServed := fun h => Bool.noConfusion h
theorem RoundTrip.ringAcqWake : RoundTrip.Statement .ringAcqWake := fun h => Bool.noConfusion h
theorem RoundTrip.ageingQuantum : RoundTrip.Statement .ageingQuantum := fun h => Bool.noConfusion h
theorem RoundTrip.issueStarvation : RoundTrip.Statement .issueStarvation := fun h => Bool.noConfusion h
theorem RoundTrip.gatherTimeout : RoundTrip.Statement .gatherTimeout := fun h => Bool.noConfusion h
theorem RoundTrip.gatheredWavePlace : RoundTrip.Statement .gatheredWavePlace := fun h => Bool.noConfusion h
theorem RoundTrip.taskRetire : RoundTrip.Statement .taskRetire := fun h => Bool.noConfusion h
theorem RoundTrip.groupPlace : RoundTrip.Statement .groupPlace := fun h => Bool.noConfusion h
theorem RoundTrip.crewPlace : RoundTrip.Statement .crewPlace := fun h => Bool.noConfusion h
theorem RoundTrip.imageRestore : RoundTrip.Statement .imageRestore := fun h => Bool.noConfusion h
theorem RoundTrip.preWaitExpiry : RoundTrip.Statement .preWaitExpiry := fun h => Bool.noConfusion h
theorem RoundTrip.loadBalancer : RoundTrip.Statement .loadBalancer := fun h => Bool.noConfusion h
theorem RoundTrip.partitionMoveComplete : RoundTrip.Statement .partitionMoveComplete := fun h => Bool.noConfusion h
theorem RoundTrip.stripStart : RoundTrip.Statement .stripStart := fun h => Bool.noConfusion h
theorem RoundTrip.stripFinish : RoundTrip.Statement .stripFinish := fun h => Bool.noConfusion h
theorem RoundTrip.rasterStripStart : RoundTrip.Statement .rasterStripStart := fun h => Bool.noConfusion h
theorem RoundTrip.rasterTileEnd : RoundTrip.Statement .rasterTileEnd := fun h => Bool.noConfusion h
theorem RoundTrip.fragmentBatch : RoundTrip.Statement .fragmentBatch := fun h => Bool.noConfusion h
theorem RoundTrip.displayScanLine : RoundTrip.Statement .displayScanLine := fun h => Bool.noConfusion h
theorem RoundTrip.encoderStrip : RoundTrip.Statement .encoderStrip := fun h => Bool.noConfusion h
theorem RoundTrip.tenantUseWindow : RoundTrip.Statement .tenantUseWindow := fun h => Bool.noConfusion h
theorem RoundTrip.heartbeat : RoundTrip.Statement .heartbeat := fun h => Bool.noConfusion h
theorem RoundTrip.heartbeatLost : RoundTrip.Statement .heartbeatLost := fun h => Bool.noConfusion h
theorem RoundTrip.ringTailWrite : RoundTrip.Statement .ringTailWrite := fun h => Bool.noConfusion h
theorem RoundTrip.sliceExpiry : RoundTrip.Statement .sliceExpiry := fun h => Bool.noConfusion h
theorem RoundTrip.packetNop : RoundTrip.Statement .packetNop := fun h => Bool.noConfusion h
theorem RoundTrip.packetLaunch : RoundTrip.Statement .packetLaunch := fun h => Bool.noConfusion h
theorem RoundTrip.packetCopy : RoundTrip.Statement .packetCopy := fun h => Bool.noConfusion h
theorem RoundTrip.packetWrite : RoundTrip.Statement .packetWrite := fun h => Bool.noConfusion h
theorem RoundTrip.packetSignal : RoundTrip.Statement .packetSignal := fun h => Bool.noConfusion h
theorem RoundTrip.packetWriteSignal : RoundTrip.Statement .packetWriteSignal := fun h => Bool.noConfusion h
theorem RoundTrip.packetWait : RoundTrip.Statement .packetWait := fun h => Bool.noConfusion h
theorem RoundTrip.packetTimestamp : RoundTrip.Statement .packetTimestamp := fun h => Bool.noConfusion h
theorem RoundTrip.packetGraph : RoundTrip.Statement .packetGraph := fun h => Bool.noConfusion h
theorem RoundTrip.packetFence : RoundTrip.Statement .packetFence := fun h => Bool.noConfusion h
theorem RoundTrip.cond : RoundTrip.Statement .cond := fun h => Bool.noConfusion h
theorem RoundTrip.streamIndexWrite : RoundTrip.Statement .streamIndexWrite := fun h => Bool.noConfusion h
theorem RoundTrip.replyIndexWrite : RoundTrip.Statement .replyIndexWrite := fun h => Bool.noConfusion h
theorem RoundTrip.replyResume : RoundTrip.Statement .replyResume := fun h => Bool.noConfusion h
theorem RoundTrip.replySkip : RoundTrip.Statement .replySkip := fun h => Bool.noConfusion h
theorem RoundTrip.replyKill : RoundTrip.Statement .replyKill := fun h => Bool.noConfusion h
theorem RoundTrip.coalesceTimeout : RoundTrip.Statement .coalesceTimeout := fun h => Bool.noConfusion h
theorem RoundTrip.queueSet : RoundTrip.Statement .queueSet := fun h => Bool.noConfusion h
theorem RoundTrip.queueStateDisable : RoundTrip.Statement .queueStateDisable := fun h => Bool.noConfusion h
theorem RoundTrip.queueStateActivate : RoundTrip.Statement .queueStateActivate := fun h => Bool.noConfusion h
theorem RoundTrip.queueKill : RoundTrip.Statement .queueKill := fun h => Bool.noConfusion h
theorem RoundTrip.queueKillComplete : RoundTrip.Statement .queueKillComplete := fun h => Bool.noConfusion h
theorem RoundTrip.streamSet : RoundTrip.Statement .streamSet := fun h => Bool.noConfusion h
theorem RoundTrip.setRoot : RoundTrip.Statement .setRoot := fun h => Bool.noConfusion h
theorem RoundTrip.invalidate : RoundTrip.Statement .invalidate := fun h => Bool.noConfusion h
theorem RoundTrip.timetable : RoundTrip.Statement .timetable := fun h => Bool.noConfusion h
theorem RoundTrip.bindOut : RoundTrip.Statement .bindOut := fun h => Bool.noConfusion h
theorem RoundTrip.load : RoundTrip.Statement .load := fun h => Bool.noConfusion h
theorem RoundTrip.domainSet : RoundTrip.Statement .domainSet := fun h => Bool.noConfusion h
theorem RoundTrip.registerWrite : RoundTrip.Statement .registerWrite := fun h => Bool.noConfusion h
theorem RoundTrip.sharedBoundaryMove : RoundTrip.Statement .sharedBoundaryMove := fun h => Bool.noConfusion h
theorem RoundTrip.peerRequest : RoundTrip.Statement .peerRequest := fun h => Bool.noConfusion h
theorem RoundTrip.flitRetry : RoundTrip.Statement .flitRetry := fun h => Bool.noConfusion h
theorem RoundTrip.peerLaneRetire : RoundTrip.Statement .peerLaneRetire := fun h => Bool.noConfusion h
theorem RoundTrip.domainMemberLoss : RoundTrip.Statement .domainMemberLoss := fun h => Bool.noConfusion h
theorem RoundTrip.perstRelease : RoundTrip.Statement .perstRelease := fun h => Bool.noConfusion h
theorem RoundTrip.selfTest : RoundTrip.Statement .selfTest := fun h => Bool.noConfusion h
theorem RoundTrip.attestationRequest : RoundTrip.Statement .attestationRequest := fun h => Bool.noConfusion h
theorem RoundTrip.d3hotEntry : RoundTrip.Statement .d3hotEntry := fun h => Bool.noConfusion h
theorem RoundTrip.d0Return : RoundTrip.Statement .d0Return := fun h => Bool.noConfusion h
theorem RoundTrip.d3coldEntry : RoundTrip.Statement .d3coldEntry := fun h => Bool.noConfusion h
theorem RoundTrip.thermalSample : RoundTrip.Statement .thermalSample := fun h => Bool.noConfusion h
theorem RoundTrip.patrolScrub : RoundTrip.Statement .patrolScrub := fun h => Bool.noConfusion h
theorem RoundTrip.rowRepair : RoundTrip.Statement .rowRepair := fun h => Bool.noConfusion h
theorem RoundTrip.ppsAndTimeOfDayInput : RoundTrip.Statement .ppsAndTimeOfDayInput := fun h => Bool.noConfusion h
theorem RoundTrip.vectorUnmask : RoundTrip.Statement .vectorUnmask := fun h => Bool.noConfusion h
theorem RoundTrip.perstAssert : RoundTrip.Statement .perstAssert := fun h => Bool.noConfusion h

end Sys2Proof.Laws
end

