-- ==== Sys2Proof/Safety.lean ====
section
/-! DEFINITION. The vocabulary of the statements: when an instruction issues with nothing in its way (R124, R126, R310), the state its meaning
starts from, what it may have changed when it has completed, and which registers each register-only instruction reads and writes. -/

namespace Sys2Proof.Machine

/-- A register the instruction touches is not complete when it issues: it was given too small a stall count (R126). -/
def early (sp : Spec) (w : Wave) : Bool := (undersized w (sp.touched ++ sp.cw)).isSome

/-- Wave k is the selected one and its next instruction meets none of the causes of R124 steps 4 to 6, nor a pending token (R310): its
registers exist and are writable, its special register is not privileged or the wave is its core's agent, and a result it needs too early is waited for, not trapped
(CHECK = 0, R126). -/
structure Clear (sp : Spec) (s : State) (k : Nat) (w : Wave) : Prop where
  cur : s.cur = some k
  wave : s.wave? k = some w
  regs : ∀ o ∈ sp.opnds, regBad w o = none
  priv : privBad sp s k = none
  stall : early sp w = true → modeCheck w.mode = false
  token : tokenBlocked sp w = false

/-- The wave as its instruction's own effect finds it: the results it touches complete, the cycles it was held counted, `yield` used up
(R126, R185, R186). -/
def entryWave (sp : Spec) (s : State) (w : Wave) : Wave :=
  if early sp w then
    { w with fixed := w.fixed.filter (fun f => !(sp.touched ++ sp.cw).contains f.1)
             perfHeld := w.perfHeld + shortfall w (sp.touched ++ sp.cw) + s.held
             yielded := none }
  else { w with perfHeld := w.perfHeld + s.held, yielded := none }

/-- The state as the instruction's own effect finds it: an undersized stall count is counted on the core (R126). -/
def entryState (sp : Spec) (s : State) (k : Nat) (w : Wave) : State :=
  (if early sp w then s.modCore (coreOf s k) (fun c => { c with fixups := c.fixups + 1 }) else s).setWave k (entryWave sp s w)

/-- What an instruction's meaning comes to: booked as issued, with the PC past it or where it jumped; an exception; a wait. -/
def finish (sp : Spec) (s : State) (k : Nat) (w : Wave) : Res → State
  | .ok t => book sp k (coreOf s k) w true t
  | .jump t => book sp k (coreOf s k) w false t
  | .trap e t => takeTrap t k sp.len (e.withLanes sp w)
  | .wait x a t => enterWait t k x a

/-- The state after an instruction that only sets its wave's registers: the wave it leaves, booked. -/
def doneWith (sp : Spec) (s : State) (k : Nat) (w x : Wave) : State :=
  finish sp s k w (.ok ((entryState sp s k w).setWave k x))

/-- What issuing an instruction always leaves of a wave: everything but its program counter, scoreboard, counters and selection marks
(R37, R125, R126, R185, R186, R312) and its registers and exact accumulator. -/
def wavePart (w w' : Wave) : Wave :=
  { w with pc := w'.pc, v := w'.v, s := w'.s, m := w'.m, xa := w'.xa, fixed := w'.fixed, decl := w'.decl, pend := w'.pend,
           stallUntil := w'.stallUntil, age := w'.age, perfIssued := w'.perfIssued, perfHeld := w'.perfHeld, done := w'.done,
           grant := w'.grant, retest := w'.retest, starved := w'.starved, unselected := w'.unselected, yielded := w'.yielded }

/-- Registers not listed hold what they held. -/
structure SameRegs (ds : List RegRef) (w w' : Wave) : Prop where
  v : ∀ r l, l < 32 → .v r ∉ ds → rdV w' r l = rdV w r l
  s : ∀ r, .s r ∉ ds → rdS w' r = rdS w r
  m : ∀ r, .m r ∉ ds → rdM w' r = rdM w r

/-- An instruction of wave k that acts on registers and its PC alone has completed: of the machine only waves and cores' counters have
changed, of the waves only its own, of that only the registers listed, and its PC is where the instruction sent it. -/
structure RanTo (pc : Word) (ds : List RegRef) (s : State) (k : Nat) (w : Wave) (t : State) (w' : Wave) : Prop where
  wave : t.wave? k = some w'
  rest : t = { s with waves := t.waves, cores := t.cores }
  others : ∀ j, j ≠ k → t.wave? j = s.wave? j
  part : w' = wavePart w w'
  regs : SameRegs ds w w'
  pc : w'.pc = pc
  cores : ∀ c, t.core c = { s.core c with issued := (t.core c).issued, fixups := (t.core c).fixups }

/-- The same, with the PC past the instruction. -/
abbrev RanRegs (sp : Spec) (ds : List RegRef) (s : State) (k : Nat) (w : Wave) (t : State) (w' : Wave) : Prop :=
  RanTo (w.pc + w64 sp.len) ds s k w t w'

/-- The same for a path change: the path mask, the token stack and the PC may change as well (R30, R37). -/
structure RanPath (s : State) (k : Nat) (w : Wave) (t : State) (w' : Wave) : Prop where
  wave : t.wave? k = some w'
  rest : t = { s with waves := t.waves, cores := t.cores, joins := t.joins }
  others : ∀ j, j ≠ k → t.wave? j = s.wave? j
  part : w' = { wavePart w w' with path := w'.path, tokens := w'.tokens }
  regs : SameRegs [] w w'
  cores : ∀ c, t.core c = { s.core c with issued := (t.core c).issued, fixups := (t.core c).fixups, pathChanges := (t.core c).pathChanges }

/-- The instructions that write the exact accumulator (R177, R178). -/
def writesXa : Instr → Bool
  | .xaClr _ | .xaAdd _ | .xaMac _ | .xaSet _ | .xaMerge _ => true
  | _ => false

/-- A register-only instruction that sets S[d], when Active is not empty, to a value taken from the wave as it stood (R148). -/
def SetsS (i : Instr) (h : Hd) (d : Field11) (val : Wave → Word) : Prop :=
  ∀ sp, regSpec i = some sp → ∀ s k w, Clear sp s k w → ∃ t w', exec i s = .next t ∧ RanRegs sp sp.dests s k w t w' ∧
    rdS w' d.toNat = if activeOf w h.mask = 0 then rdS w d.toNat else val w

/-- A register-only instruction that sets M[d], when Active is not empty; `m0` still reads all ones. -/
def SetsM (i : Instr) (h : Hd) (d : Field11) (val : Wave → LaneMask) : Prop :=
  ∀ sp, regSpec i = some sp → ∀ s k w, Clear sp s k w → ∃ t w', exec i s = .next t ∧ RanRegs sp sp.dests s k w t w' ∧
    rdM w' d.toNat = if activeOf w h.mask = 0 then rdM w d.toNat else val w

/-- A lane instruction that sets V[d] in the lanes of Active, sub-element by sub-element; the other lanes keep V[d] (R148, R163). -/
def SetsV (i : Instr) (h : Hd) (d : Field11) (t : Ty) (val : Wave → Nat → Nat → Nat) : Prop :=
  ∀ sp, regSpec i = some sp → ∀ s k w, Clear sp s k w → ∃ u w', exec i s = .next u ∧ RanRegs sp sp.dests s k w u w' ∧
    ∀ l, l < 32 →
      ((activeOf w h.mask).getLsbD l = true → ∀ j, j < elemCount t → elemOf t (rdV w' d.toNat l) j = val w l j) ∧
      ((activeOf w h.mask).getLsbD l = false → rdV w' d.toNat l = rdV w d.toNat l)

/-- The same, for whole lanes. -/
def SetsLanes (i : Instr) (h : Hd) (d : Field11) (val : Wave → Nat → Word) : Prop :=
  ∀ sp, regSpec i = some sp → ∀ s k w, Clear sp s k w → ∃ u w', exec i s = .next u ∧ RanRegs sp sp.dests s k w u w' ∧
    ∀ l, l < 32 → rdV w' d.toNat l = if (activeOf w h.mask).getLsbD l then val w l else rdV w d.toNat l

/-! ### Numbers -/

/-- The number a finite value stands for (R93). -/
def FV.rat : FV → ℚ
  | .fin s n e => (if s then -1 else 1) * n * (2 : ℚ) ^ e
  | _ => 0

/-- Bits x of a format stand for the number u. -/
def Fmt.Is (f : Fmt) (x : Nat) (u : ℝ) : Prop := x < 2 ^ f.width ∧ (∃ s n e, fdec f x = .fin s n e) ∧ u = ((fdec f x).rat : ℝ)

/-- A magnitude that RNE rounds beyond the largest finite value: past the middle between it and the next significand, or at that middle when the
largest finite value's last significand bit is 1 (R99 steps 2 and 3). -/
def Fmt.Beyond (f : Fmt) (y : ℝ) : Prop :=
  let m := (fdec f f.maxBits).rat
  let h := m + (m - (fdec f (f.maxBits - 1)).rat) / 2
  (h : ℝ) < |y| ∨ (|y| = (h : ℝ) ∧ f.maxBits % 2 = 1)

/-- r is the bits of the exact value y, of sign `neg`, rounded in a mode (R99, Table 7.3): in RTZ the value of the format greatest in magnitude
that is no further from 0 than y; in RUP and RDN the least value at or above y and the greatest at or below it, or the infinity where there is
none; in RNE the nearest value, a tie going to the even significand, or the infinity beyond the format. A finite result has y's sign. -/
structure Fmt.Rounds (f : Fmt) (m : Rm) (neg : Bool) (y : ℝ) (r : Nat) : Prop where
  sign : ∀ u, f.Is r u → (2 ^ (f.width - 1) ≤ r ↔ neg = true)
  rtz : m = .rtz → ∃ v, f.Is r v ∧ |v| ≤ |y| ∧ 0 ≤ v * y ∧ ∀ x u, f.Is x u → |u| ≤ |y| → |u| ≤ |v|
  rup : m = .rup → (∃ x u, f.Is x u ∧ y ≤ u) → ∃ v, f.Is r v ∧ y ≤ v ∧ ∀ x u, f.Is x u → y ≤ u → v ≤ u
  rupOver : m = .rup → (∀ x u, f.Is x u → u < y) → r = f.infBits false
  rdn : m = .rdn → (∃ x u, f.Is x u ∧ u ≤ y) → ∃ v, f.Is r v ∧ v ≤ y ∧ ∀ x u, f.Is x u → u ≤ y → u ≤ v
  rdnOver : m = .rdn → (∀ x u, f.Is x u → y < u) → r = f.infBits true
  rne : m = .rne → ¬ f.Beyond y → ∃ v, f.Is r v ∧ ∀ x u, f.Is x u → |v - y| ≤ |u - y| ∧ (|v - y| = |u - y| → u ≠ v → r % 2 = 0)
  rneOver : m = .rne → f.Beyond y → r = f.infBits neg

/-- x is the exact value y rounded once under RNE; of which sign a zero is, is left open. -/
def Fmt.RoundsTo (f : Fmt) (y : ℚ) (x : Nat) : Prop := ∃ neg, f.Rounds .rne neg (y : ℝ) x

/-- At some precision that `refine` reaches, both ends of the enclosure, scaled by 2^sh, round to one value (log 9). -/
def EndsAgree (f : Fmt) (iv : Nat → Iv) (sh : Int) (p : Nat) : Prop :=
  ∃ j, j < 6 ∧ roundFix f (p * 2 ^ j) (iv (p * 2 ^ j)).lo sh = roundFix f (p * 2 ^ j) (iv (p * 2 ^ j)).hi sh

/-- The reduction tree of R109: after d of its passes, place k holds its own value combined with that of place k + 2^(d-1). -/
def laneTree (f : Nat → Nat → Nat) (x : Nat → Option Nat) : Nat → Nat → Option Nat
  | 0, k => x k
  | d + 1, k => optComb f (laneTree f x d k) (laneTree f x d (k + 2 ^ d))
/-- The inclusive scan of R109: in pass d every place from 2^d up combines with the place 2^d below it. -/
def laneScan (f : Nat → Nat → Nat) (x : Nat → Option Nat) : Nat → Nat → Option Nat
  | 0, k => x k
  | d + 1, k => if k < 2 ^ d then laneScan f x d k else optComb f (laneScan f x d (k - 2 ^ d)) (laneScan f x d k)
/-- The operand of each lane, absent outside Active; DAZ applies as it is read (R109). -/
def laneIn (w : Wave) (m : BitVec 3) (env : FEnv) (t : Ty) (a : Field11) (j k : Nat) : Option Nat :=
  if (activeOf w m).getLsbD k then some (if t.isF then flush env.daz (fmtOf t) (elemOf t (rdV w a.toNat k) j) else elemOf t (rdV w a.toNat k) j)
  else none
/-- The highest active lane below one. -/
def laneBelow (act : LaneMask) (l : Nat) : Option Nat := ((List.range l).filter (fun m => act.getLsbD m)).getLast?

/-- A term of the exact accumulator in units of 2^-1074 (R105). -/
def xaUnits (v : FV) : Int := ⌊v.rat * 2 ^ 1074⌋
/-- Terms added to the exact accumulator, one after another (R105): X modulo 2^2176, and the sticky flags. -/
structure XaAdds (ts : List FV) (x x' : Xa) : Prop where
  exact : ∀ v ∈ ts, (xaUnits v : ℚ) = v.rat * 2 ^ 1074
  sum : x'.x = x.x + BitVec.ofInt 2176 (ts.map xaUnits).sum
  nan : x'.nan = true ↔ x.nan = true ∨ FV.nan ∈ ts
  pinf : x'.pinf = true ↔ x.pinf = true ∨ FV.inf false ∈ ts
  ninf : x'.ninf = true ↔ x.ninf = true ∨ FV.inf true ∈ ts
  ovf : x'.ovf = true ↔ x.ovf = true ∨ ∃ n v, ts[n]? = some v ∧
    let y := (x.x + BitVec.ofInt 2176 ((ts.take n).map xaUnits).sum).toInt + xaUnits v
    (y < -2 ^ 2175 ∨ 2 ^ 2175 ≤ y)

/-- The 64-bit form of a compact register instruction, with `m0` and the fields Table 9.8 fixes. -/
def compactTwin : Instr → Option Instr
  | .addI64VectorCompact f => some (.vectorAdd { h := compactHd f.stall, d := wide f.d, a := wide f.a, b := .vec (wide f.b), ty := .i64, sat := false })
  | .addI32VectorCompact f => some (.vectorAdd { h := compactHd f.stall, d := wide f.d, a := wide f.a, b := .vec (wide f.b), ty := .i32, sat := false })
  | .addF32Compact f => some (.fpAdd { h := compactHd f.stall, d := wide f.d, a := wide f.a, b := .vec (wide f.b), ty := .f32, rmo := .mode })
  | .mulF32Compact f => some (.fpMul { h := compactHd f.stall, d := wide f.d, a := wide f.a, b := .vec (wide f.b), ty := .f32, rmo := .mode })
  | .addF64Compact f => some (.fpAdd { h := compactHd f.stall, d := wide f.d, a := wide f.a, b := .vec (wide f.b), ty := .f64, rmo := .mode })
  | .mulF64Compact f => some (.fpMul { h := compactHd f.stall, d := wide f.d, a := wide f.a, b := .vec (wide f.b), ty := .f64, rmo := .mode })
  | .andB64Compact f => some (.vectorAnd { h := compactHd f.stall, d := wide f.d, a := wide f.a, b := .vec (wide f.b), ty := .b64 })
  | .orB64Compact f => some (.vectorOr { h := compactHd f.stall, d := wide f.d, a := wide f.a, b := .vec (wide f.b), ty := .b64 })
  | .xorB64Compact f => some (.vectorXor { h := compactHd f.stall, d := wide f.d, a := wide f.a, b := .vec (wide f.b), ty := .b64 })
  | .movB64VectorCompact f => some (.vectorMov { h := compactHd f.stall, d := wide f.d, b := .vec (wide f.b), ty := .b64 })
  | .addI64ScalarCompact f => some (.scalarAdd { h := compactHd f.stall, d := wide f.d, a := wide f.a, b := .reg (wide f.b), ty := .i64, sat := false })
  | .subI64ScalarCompact f => some (.scalarSub { h := compactHd f.stall, d := wide f.d, a := wide f.a, b := .reg (wide f.b), ty := .i64, sat := false })
  | .shlN64ScalarCompact f => some (.scalarShl { h := compactHd f.stall, d := wide f.d, a := wide f.a, b := .reg (wide f.b), ty := .n64 })
  | .movB64ScalarCompact f => some (.scalarMov { h := compactHd f.stall, d := wide f.d, b := .reg (wide f.b), ty := .b64 })
  | .nopCompact f => some (.nop { stall := f.stall.zeroExtend 4 })
  | _ => none

/-- The w-bit value of a scalar register read in a type, as a number (R149, R161). -/
def scaI (w : Wave) (t : Ty) (r : Field11) : Int := readInt t (rdS w r.toNat).toNat
def sbI (w : Wave) (t : Ty) (b : SB) : Int := readInt t (sbVal w t b)
/-- Sub-element j of a lane, and of operand b, read in a type, as a number (R149, R163). -/
def vecI (w : Wave) (t : Ty) (r : Field11) (l j : Nat) : Int := readInt t (elemOf t (rdV w r.toNat l) j)
def vbI (w : Wave) (t : Ty) (b : VB) (l j : Nat) : Int := readInt t (vbElem w t b l j)

/-! ### Memory -/

/-- The cell a place names: which memory, and the key in it. -/
def Loc.cell : Loc → Nat × Nat
  | .ext a => (0, a)
  | .shm a => (1, a)
  | .host a => (2, a)
  | .peer d t o => (3, peerKey d t o)
  | .ls g o => (4 + g, o)
/-- The tagged word a place lies in (R67). -/
def Loc.wordCell (l : Loc) : Nat × Nat := (l.cell.1, l.cell.2 / 4)
/-- A place outside a list of ranges (first place, bytes), and outside their tagged words. -/
def Loc.outside (l : Loc) (xs : List (Loc × Nat)) : Prop := ∀ p ∈ xs, ∀ i, i < p.2 → l.cell ≠ (p.1.plus i).cell
def Loc.outsideWords (l : Loc) (xs : List (Loc × Nat)) : Prop := ∀ p ∈ xs, ∀ i, i < p.2 → l.wordCell ≠ (p.1.plus i).wordCell

/-- The table entries an access passes, root first: the walker marks them in place (R61, R64). The window of the device's own index goes through
its own tables (R58); an access to another window passes none. -/
def entriesOf (s : State) (tenant va : Nat) : List Nat :=
  let x := (ownWindow s tenant va).getD (tenant, va)
  if x.2 < 2 ^ 53 ∨ (0xFE000000000000 ≤ x.2 ∧ x.2 < 0xFE000018000000) then
    match walkUsed s x.1 x.2 with
    | .leaf _ _ path => path
    | .fail _ _ => []
    | .ecc => []
  else []
/-- The entries that accesses made one after another pass. -/
def entriesAll (s : State) (tenant : Nat) (write : Bool) : List Nat → List Nat
  | [] => []
  | va :: r => entriesOf s tenant va ++ entriesAll (touch s tenant va write) tenant write r

/-- What an access to memory may change of the machine: the bytes and tags of the ranges listed; of every table entry passed its A and D
bits, which can only become 1 (R64); translations remembered; waves, cores' counters, read-only caches and node caches; errors of memory that
a stored range overwrites whole (R395; log 28). Nothing else. -/
structure MemSame (stored tagged : List (Loc × Nat)) (marks : List Nat) (s t : State) : Prop where
  rest : t = { s with waves := t.waves, cores := t.cores, groups := t.groups, ext := t.ext, shm := t.shm, shmTags := t.shmTags,
                      host := t.host, peer := t.peer, tlb := t.tlb, poison := t.poison,
                      nodeCaches := t.nodeCaches }
  groups : ∀ g, (t.group? g).map (fun x => { x with ls := [], lsTags := [] }) = (s.group? g).map (fun x => { x with ls := [], lsTags := [] })
  cores : ∀ c, t.core c = { s.core c with issued := (t.core c).issued, fixups := (t.core c).fixups, roCache := (t.core c).roCache }
  bytes : ∀ l, l.outside stored → (∀ a ∈ marks, l ≠ .ext a) → rdByte t l = rdByte s l
  marks : ∀ a ∈ marks, (Loc.ext a).outside stored → ∃ b ∈ [0x00#8, 0x20#8, 0x40#8, 0x60#8], rdByte t (.ext a) = rdByte s (.ext a) ||| b
  tags : ∀ l, l.outsideWords tagged → rdTag t l = rdTag s l
  poison : ∀ p, p ∈ t.poison → p ∈ s.poison
  cleared : ∀ p ∈ s.poison, p ∈ t.poison ∨ ∃ r ∈ stored, ∃ a, eccPlace r.1 = some (p.1, a) ∧ eccWithin p.1 a r.2 p.2 = true

/-- A memory instruction of wave k has completed: memory as above, of the waves only its own has changed, of that only the registers listed
beside its counters and scoreboard, its PC is past it, and an acquire of device scope or wider (`inv`) has emptied the issuing core's
read-only cache and its cluster's node cache (R91, R347), which are otherwise untouched. -/
structure RanMem (sp : Spec) (ds : List RegRef) (stored tagged : List (Loc × Nat)) (marks : List Nat) (inv : Bool)
    (s : State) (k : Nat) (w : Wave) (t : State) (w' : Wave) : Prop where
  wave : t.wave? k = some w'
  mem : MemSame stored tagged marks s t
  others : ∀ j, j ≠ k → t.wave? j = s.wave? j
  part : w' = { wavePart w w' with status := w'.status, ownerEnd := w'.ownerEnd, helping := w'.helping }
  regs : SameRegs ds w w'
  pc : w'.pc = w.pc + w64 sp.len
  ro : ∀ c, (t.core c).roCache = if inv = true ∧ c = coreOf s k then [] else (s.core c).roCache
  nodes : ∀ c, kget [] c t.nodeCaches = if inv = true ∧ c = coreOf s k / 8 then [] else kget [] c s.nodeCaches

/-- A wave's status, and what it says of a wait's owner, as they stood (no waiting instruction). -/
def SameWait (w w' : Wave) : Prop := w'.status = w.status ∧ w'.ownerEnd = w.ownerEnd ∧ w'.helping = w.helping

/-- Wave k has gone to sleep in a wait at its instruction: its registers and path stand, its results are complete, and memory is as it was but
for the marks of the entries passed; a record of the ownership table that names a retired task may have gone (R232). -/
structure Waits (x : Wait) (marks : List Nat) (s : State) (k : Nat) (w : Wave) (t : State) : Prop where
  wave : ∃ w', t.wave? k = some w' ∧ w' = { wavePart w w' with wait := x, waitArg := w'.waitArg } ∧ w'.pc = w.pc ∧ SameRegs [] w w' ∧
    w'.fixed = [] ∧ w'.pend = [] ∧ w'.xa = w.xa
  mem : MemSame [] [] marks s { t with owns := s.owns }
  others : ∀ j, j ≠ k → t.wave? j = s.wave? j
/-- A divergent branch that ejects (R32, R33, R35, R36): with pool blocks for its minority, the wave goes on with its registers and with the majority at its side of the
branch, and each lane of the minority becomes a continuation thread at the other side, with the lane's vector registers and the wave's scalar
registers, masks and `mode`, referencing the object j of which `counted` speaks; then the core's threads are gathered. Without blocks the wave
waits for a segment, or takes SPAWN_OVERFLOW. -/
def EjectsOrWaits (i : Instr) (sp : Spec) (s : State) (k : Nat) (w : Wave) (hold fail : LaneMask) (target : Word)
    (counted : State → Wave → Nat → Nat → Prop) : Prop :=
  let taken := decide (popMask hold ≤ popMask fail)
  let out := if taken then hold else fail
  let next := w.pc + w64 sp.len
  let seq := ((s.group? (gidOf k)).map (·.seq)).getD 0
  let g := grantBlocks (entryState sp s k w) (coreOf s k) seq .cont (popMask out) (contBlocks (entryWave sp s w))
  (∀ ps, g = .places ps → ∃ u x j ts, exec i s = .next (book sp k (coreOf s k) w false (gather u (coreOf s k))) ∧ u.wave? k = some x ∧
    x.path = (if taken then fail else hold) ∧ x.pc = (if taken then next else target) ∧ SameRegs [] w x ∧ x.xa = w.xa ∧ counted u x j (popMask out) ∧
    u.threads = s.threads ++ ts ∧ ts.map (·.info.originLane) = lanesOf out ∧
    ∀ t ∈ ts, t.cont = true ∧ t.entry = (if taken then target else next) ∧ t.info.join = some j ∧ t.info.originWave = k ∧
      t.regs = w.regCount ∧ t.s = w.s ∧ t.m = w.m ∧ t.mode = w.mode ∧ ∀ r, kget 0 r t.v = rdV w r t.info.originLane) ∧
  (g = .wait → exec i s = .next (parkBlockedOwner
    (startWait (entryState sp s k w) k .segment (segArg .cont (popMask out) (contBlocks (entryWave sp s w)))) k)) ∧
  (∀ n, g = .overflow n → exec i s = .next (takeTrap (entryState sp s k w) k sp.len
    { cause := .spawnOverflow, info0 := w64 n, info1 := w64 (((s.task? seq).map recQocc).getD 0), lanes := some w.path }))
/-- The lanes ejected with a full stack are counted in the object of the top token, created if it has none, to which a new object of their
branch is forwarded (R33, R36). -/
def CountsInTop (s : State) (tok : Token) (rest : List Token) (rejoin : Word) (u : State) (x : Wave) (j n : Nat) : Prop :=
  ∃ top, (tok.join = some top ∨ tok.join = none ∧ top = s.nextJoin) ∧ x.tokens = rest ++ [{ tok with join := some top }] ∧
    joinObj u j = { rejoin := rejoin, forward := some top } ∧
    (joinObj u top).count = (if tok.join = none then 0 else (joinObj s top).count) + n

/-- Nobody is helped by the group of wave k, or by its origin group where it is a continuation wave's (R35, R50). -/
def NoHelper (s : State) (k : Nat) : Prop := ∀ g, s.group? (originGroup s (gidOf k)) = some g → g.helper = none
/-- The first register of an event (Table 21.12): EV, ACC, INDEX and the distance. -/
def evWord (ev t index : Nat) (acc : Bool) : Nat := ev + (if acc then 8 else 0) + index % 256 * 2 ^ 8 + t * 2 ^ 32
/-- The registers of an ended ray's final event (Table 21.12): a miss, or the hit with its record and its weights or attribute. -/
def finalRegs (r : Ray) : Nat × Nat × Nat :=
  if r.done = some 1 then (evWord 1 0 0 false, 0, 0)
  else if r.done = some 2 then (match r.hit with
    | some h => (evWord 2 h.t h.index h.user, h.addr, h.attr)
    | none => (evWord 2 0 0 false, 0, 0))
  else (0, 0, 0)
/-- One lane's part of an `rt.next`: V[d] to V[d + 2] of lane l are x, the lane's ray is as `ray` says, and nothing else of the wave changes. -/
def NextGives (who : Who) (at_ : RtAt) (lg k d : Nat) (s : State) (w : Wave) (l : Nat) (x : Nat × Nat × Nat) (ray : Option Ray → Prop) : Prop :=
  ∃ s' w', nextLanes who at_ lg k d [l] s = .ok s' ∧ s'.wave? k = some w' ∧ w' = { w with v := w'.v, rays := w'.rays } ∧
    (∀ q m, m < 32 → rdV w' q m = if m ≠ l then rdV w q m else if q = d + 2 then w64 x.2.2 else if q = d + 1 then w64 x.2.1
      else if q = d then w64 x.1 else rdV w q m) ∧
    ray (kfind l w'.rays) ∧ ∀ m, m ≠ l → kfind m w'.rays = kfind m w.rays

/-- What the scan of R274 to R277 computes: for each head the recurrence in the stepwise or the chunked form, chosen from L and T alone, on FP32
values rounded as written, and the results' bytes in dense order. -/
def ScanGives (c : Scan) (x b cc dt a st : List Nat) : Prop :=
  ∃ hend y : Nat → Nat → Nat → Nat,
    (let out (t : Ty) (vs : List Nat) : List Byte := vs.flatMap (fun v => leBytes (tyBytes t) (convert envRne false .f32 t v))
     scanOut c x b cc dt a st =
      (out c.sf ((List.range c.h).flatMap (fun h => (List.range c.n).flatMap (fun n => (List.range c.p).map (hend h n)))),
       out c.yf ((List.range c.h).flatMap (fun h => (List.range c.l).flatMap (fun t => (List.range c.p).map (y h t)))),
       if c.l < c.t then 1 else 3)) ∧
    ∀ h, h < c.h →
      let e (t : Nat) : Nat := mul32 (dt.getD (h * c.l + t) 0) (a.getD h 0)
      let bt (t n : Nat) : Nat := mul32 (dt.getD (h * c.l + t) 0) (b.getD (t * c.n + n) 0)
      let ct (t n : Nat) : Nat := cc.getD (t * c.n + n) 0
      let xt (t p : Nat) : Nat := x.getD ((h * c.l + t) * c.p + p) 0
      let h0 (n p : Nat) : Nat := st.getD ((h * c.n + n) * c.p + p) 0
      (c.l < c.t → ∃ hs : Nat → Nat → Nat → Nat, (∀ n p, n < c.n → p < c.p → hs 0 n p = h0 n p ∧ hend h n p = hs c.l n p) ∧
        ∀ t p, t < c.l → p < c.p →
          (∀ n, n < c.n → hs (t + 1) n p = fma32 (exp32 (e t)) (hs t n p) (mul32 (bt t n) (xt t p))) ∧
          y h t p = dot32 ((List.range c.n).map (fun n => (ct t n, hs (t + 1) n p)))) ∧
      (c.t ≤ c.l → ∃ es : Nat → Nat, es 0 = e 0 ∧ (∀ t, t + 1 < c.l → es (t + 1) = add32 (es t) (e (t + 1))) ∧
        let w (t s : Nat) : Nat := exp32 (sub32 (es t) (es s))
        (∀ t p, t < c.l → p < c.p → y h t p = dot32 ((List.range c.n).map (fun n => (mul32 (exp32 (es t)) (ct t n), h0 n p)) ++
          (List.range (t + 1)).map (fun s => (mul32 (w t s) (dot32 ((List.range c.n).map (fun n => (ct t n, bt s n)))), xt s p)))) ∧
        ∀ n p, n < c.n → p < c.p → hend h n p = dot32 ((exp32 (es (c.l - 1)), h0 n p) ::
          (List.range c.l).map (fun s => (mul32 (w (c.l - 1) s) (bt s n), xt s p))))

/-- A step of the device is for wave k, which is on its core and has not ended. -/
structure Named (s : State) (k : Nat) (w : Wave) : Prop where
  who : s.input.who = k
  wave : s.wave? k = some w
  on : waveOn s k w = true

/-! ### Transfers -/

/-- A byte with the nibble of place n of a plane replaced (R97, R210). -/
def putNib (old : Byte) (n x : Nat) : Byte :=
  if n % 2 = 0 then old.extractLsb' 4 4 ++ BitVec.ofNat 4 x else BitVec.ofNat 4 x ++ old.extractLsb' 0 4
/-- Byte b of the element stored at place n of a plane, or its nibble for CB4, where the access passes the checks (R60, R97, R136). -/
def planeRead (s : State) (who : Who) (ty : Ty) (base n b : Nat) : Except Fail Nat :=
  if ty = .cb4 then (engRd s who (base + n / 2)).map (fun x => x.toNat / 16 ^ (n % 2) % 16)
  else (engRd s who (base + ty.width / 8 * n + b)).map (fun x => x.toNat)
/-- The bytes of a record in dense order (R136, R210, R246 to R248, Tables 9.11 and 15.2): the element with indices i0 to i3, its place in memory by
the layout, two CB4 elements to a byte, and the elements that the metadata of layout 4 names. -/
def RecordReads (s : State) (who : Who) (sh : Shape) : Prop :=
  (∀ i0 i1 i2 i3, i0 < sh.ext0 → i1 < sh.ext1 → i2 < sh.ext2 → i3 < sh.ext3 →
    let e := i0 + sh.ext0 * (i1 + sh.ext1 * (i2 + sh.ext2 * i3))
    let base := sh.base.toNat
    let size := sh.ty.width / 8
    let n := elemIndex sh i0 i1 i2 i3
    let r := i2 * sh.str2 + i3 * sh.str3
    (sh.layout = 0 → n = i0 + i1 * sh.str1 + r) ∧ (sh.layout = 1 → n = i0 * sh.str1 + i1 + r) ∧
    (sh.layout = 2 → n = 256 * (i0 / 16 + i1 / 16 * sh.str1) + 16 * (i1 % 16) + i0 % 16 + r) ∧
    (sh.layout = 3 → n = 1024 * (i0 / 32 + i1 / 32 * sh.str1) + 32 * (i1 % 32) + i0 % 32 + r) ∧ denseIndex sh e = n ∧
    (sh.ty ≠ .cb4 → ∀ b, b < size → denseByte s who sh (size * e + b) = (elemByte s who sh e b).map (BitVec.ofNat 8)) ∧
    (sh.layout ≠ 4 → ∀ b, elemByte s who sh e b = planeRead s who sh.ty base n b) ∧
    (sh.layout = 4 → ∀ b g q v0 v1 m, i0 = 4 * g + q → q < 4 → let at_ := i1 * sh.str1 + i2 * sh.str2
      planeRead s who sh.ty base (2 * g + at_) b = .ok v0 → planeRead s who sh.ty base (2 * g + 1 + at_) b = .ok v1 →
      engRd s who (base + sh.str3 + (g + at_ / 2) / 2) = .ok m → let nib := m.toNat / 16 ^ ((g + at_ / 2) % 2) % 16
      elemByte s who sh e b = .ok (if q = nib / 4 then v1 else if q = nib % 4 then v0 else 0))) ∧
  ∀ p x y, sh.ty = .cb4 → elemByte s who sh (2 * p) 0 = .ok x → elemByte s who sh (2 * p + 1) 0 = .ok y →
    denseByte s who sh p = .ok (BitVec.ofNat 8 (x + 16 * y))
/-- Byte p of a transfer moves: from the record's place in dense order to the dense side, or from there to the record's place; nothing else of memory
changes but the marks of the walker (R64, R210, R212, R228, R257, R268). -/
def MovesByte (s : State) (x : Xfer) (p : Nat) : Prop :=
  let who := x.who s
  let sh := x.shape
  let lg := lsGroup s (keyOf x.gid 0)
  let here : Loc := .ls lg (x.dense.toNat + p - 0xFF000000000000)
  let at_ := x.dense.toNat + p
  let marks := entriesAll s x.tenant false (denseAddrs sh p)
  (∀ b, denseByte s who sh p = .ok b →
    (x.kind = .cpIn → (s.group? lg).isSome = true → ∃ t, xferByte s x p = .ok (t, x) ∧ MemSame [(here, 1)] [] marks s t ∧ rdByte t here = b) ∧
    (x.kind = .accLd → ∃ t, xferByte s x p = .ok (t, { x with data := x.data ++ [b] }) ∧ MemSame [] [] marks s t) ∧
    (x.kind = .cpLl → let u := denseTouch s x.tenant sh p
      (∀ l, checkOne u who at_ 1 1 needWr .plain = .ok l → ∃ t, xferByte s x p = .ok (t, x) ∧
        MemSame [(l, 1)] [] (marks ++ entriesOf u x.tenant at_) s t ∧ rdByte t l = b) ∧
      ∀ e, checkOne u who at_ 1 1 needWr .plain = .error e → xferByte s x p = .error e)) ∧
  (x.kind = .cpIn ∨ x.kind = .accLd ∨ x.kind = .cpLl → ∀ e, denseByte s who sh p = .error e → xferByte s x p = .error e) ∧
  (x.kind = .cpOut ∨ x.kind = .accSt → let v : Byte := if x.kind = .cpOut then rdByte s here else x.data.getD p 0
    (sh.ty ≠ .cb4 → let size := sh.ty.width / 8
      let a := sh.base.toNat + size * denseIndex sh (p / size) + p % size
      (∀ l, checkOne s who a 1 1 needWr .plain = .ok l → ∃ t, xferByte s x p = .ok (t, x) ∧ MemSame [(l, 1)] [] (entriesOf s x.tenant a) s t ∧
        rdByte t l = v) ∧
      ∀ e, checkOne s who a 1 1 needWr .plain = .error e → xferByte s x p = .error e) ∧
    (sh.ty = .cb4 → let n0 := denseIndex sh (2 * p)
      let n1 := denseIndex sh (2 * p + 1)
      let a0 := sh.base.toNat + n0 / 2
      let a1 := sh.base.toNat + n1 / 2
      (∀ l0, checkOne s who a0 1 1 needWr .plain = .ok l0 → ∃ u, MemSame [(l0, 1)] [] (entriesOf s x.tenant a0) s u ∧
        rdByte u l0 = putNib (rdByte s l0) n0 (v.toNat % 16) ∧
        (∀ l1, checkOne u who a1 1 1 needWr .plain = .ok l1 → ∃ t, xferByte s x p = .ok (t, x) ∧ MemSame [(l1, 1)] [] (entriesOf u x.tenant a1) u t ∧
          rdByte t l1 = putNib (rdByte u l1) n1 (v.toNat / 16)) ∧
        ∀ e, checkOne u who a1 1 1 needWr .plain = .error e → xferByte s x p = .error e) ∧
      ∀ e, checkOne s who a0 1 1 needWr .plain = .error e → xferByte s x p = .error e)) ∧
  (x.kind = .dqPush → let u := touch s x.tenant at_ false
    (∀ b l, engRd s who at_ = .ok b → checkOne u who (x.at_ + p) 1 1 needWr .plain = .ok l → ∃ t, xferByte s x p = .ok (t, x) ∧
      MemSame [(l, 1)] [] (entriesOf s x.tenant at_ ++ entriesOf u x.tenant (x.at_ + p)) s t ∧ rdByte t l = b) ∧
    (∀ e, engRd s who at_ = .error e → xferByte s x p = .error e) ∧
    ∀ b e, engRd s who at_ = .ok b → checkOne u who (x.at_ + p) 1 1 needWr .plain = .error e → xferByte s x p = .error e)

/-- The acquire of a MEM word that empties the read-only cache (R191, R91). -/
def memInv (m : MemW) : Bool :=
  match m.sem with
  | .acq | .ar | .sc => Scp.wide m.scp
  | _ => false

/-- Every access of a lane instruction passes the checks of R60, at the place given for its lane. -/
def LaneAcc.Passes (a : LaneAcc) (s : State) (k : Nat) (w : Wave) (place : Nat → Loc) : Prop :=
  ∀ p ∈ a.lanes w, checkOne s (whoOf s k) p.2 a.size a.size a.need a.extra = .ok (place p.1)
/-- The bytes a lane instruction stores to, and the table entries its accesses pass. -/
def LaneAcc.ranges (a : LaneAcc) (w : Wave) (place : Nat → Loc) : List (Loc × Nat) := (a.lanes w).map (fun p => (place p.1, a.size))
/-- The table entries that the accesses of an atomic pass, one address after another. -/
def atEntries (op : AtOp) (t : Ty) (tenant : Nat) (val : Nat → Nat × Nat) : List (List (Nat × Nat × Loc)) → State → List Nat
  | [], _ => []
  | g :: r, s => (match g with
      | [] => []
      | p :: _ => entriesOf s tenant p.2.1) ++ atEntries op t tenant val r (atGroup op t tenant val s g).1
def LaneAcc.entries (a : LaneAcc) (s : State) (k : Nat) (w : Wave) (write : Bool) : List Nat :=
  entriesAll s (tenantOf s k) write ((a.lanes w).map (·.2))

/-- The atomics and reductions: operation, opcode, type, the lane operand's register, and the destination where there is one (Table 13.5). -/
def atomicOf : Instr → Option (AtOp × Nat × MemW × Field11 × Option Field11)
  | .atomAdd f => some (.add, 0x210, f.mem, f.b, some f.d)
  | .atomMin f => some (.min, 0x211, f.mem, f.b, some f.d)
  | .atomMax f => some (.max, 0x212, f.mem, f.b, some f.d)
  | .atomAnd f => some (.and, 0x213, f.mem, f.b, some f.d)
  | .atomOr f => some (.or, 0x214, f.mem, f.b, some f.d)
  | .atomXor f => some (.xor, 0x215, f.mem, f.b, some f.d)
  | .atomExch f => some (.exch, 0x216, f.mem, f.b, some f.d)
  | .atomIncWrap f => some (.incWrap, 0x217, f.mem, f.b, some f.d)
  | .atomAddBound f => some (.addBound, 0x218, f.mem, f.b, some f.d)
  | .atomCas f => some (.cas, 0x219, f.mem, f.b, some f.d)
  | .redAdd f => some (.add, 0x220, f.mem, f.b, none)
  | .redMin f => some (.min, 0x221, f.mem, f.b, none)
  | .redMax f => some (.max, 0x222, f.mem, f.b, none)
  | .redAnd f => some (.and, 0x223, f.mem, f.b, none)
  | .redOr f => some (.or, 0x224, f.mem, f.b, none)
  | .redXor f => some (.xor, 0x225, f.mem, f.b, none)
  | .redIncWrap f => some (.incWrap, 0x226, f.mem, f.b, none)
  | _ => none
/-- The lane operand and, for `cas` and `add.bound`, the one after it. -/
def atOperand (w : Wave) (t : Ty) (b : Field11) (l : Nat) : Nat × Nat :=
  ((rdV w b.toNat l).toNat % 2 ^ t.width, (rdV w (b.toNat + 1) l).toNat % 2 ^ t.width)
/-- The value an operation leaves in a word alone, if it writes one (Table 13.5, R203, R204). -/
def atNew (op : AtOp) (t : Ty) (old v w : Nat) : Option Nat :=
  match op with
  | .add => some (if t.isF then fBin .add envRne t old v else wrapTo t.width (readInt t old + readInt t v))
  | .min => some (if t.isF then fBin .min envRne t old v else wrapTo t.width (min (readInt t old) (readInt t v)))
  | .max => some (if t.isF then fBin .max envRne t old v else wrapTo t.width (max (readInt t old) (readInt t v)))
  | .and => some (old &&& v)
  | .or => some (old ||| v)
  | .xor => some (old ^^^ v)
  | .exch => some v
  | .incWrap => some (if v ≤ old then 0 else old + 1)
  | .addBound => if old + v ≤ w then some (old + v) else none
  | .cas => if old = v then some w else none

end Sys2Proof.Machine
end

