-- ==== Sys2Proof/Certificates/Slice0/Obligations.lean ====
section
/-! DEFINITION. The statements about the machine, each from the numbered rules its docstring names. -/

open Sys2Proof Sys2Proof.Machine

/-! ### Classes 1 to 6 -/

/-- R148, R149, R123 to R126: every register-only instruction, in every operand form and type, completes whenever nothing of R124 stands in
its way, and of the whole machine changes only its destination registers (and the exact accumulator, for the instructions that write it),
the counters and the scoreboard; its PC moves past it. -/
def Obligations.RegisterInstructionsComplete : Prop :=
  ∀ i sp, regSpec i = some sp → ∀ s k w, Clear sp s k w → ∃ t w', exec i s = .next t ∧ RanRegs sp sp.dests s k w t w' ∧
    (writesXa i = false → w'.xa = w.xa)

/-- Table 11.4, R161, R149: the class 1 integer results, for every type and operand form, as numbers.
R162: class 1 `cmp` writes every bit of M[d] and `sel` moves all 64 bits. -/
def Obligations.ScalarResults : Prop :=
  ((∀ f, SetsS (.scalarAdd f) f.h f.d (fun w => extTy f.ty (wrapTo f.ty.width
    (if f.sat then clampTy f.ty (scaI w f.ty f.a + sbI w f.ty f.b) else scaI w f.ty f.a + sbI w f.ty f.b)))) ∧
  (∀ f, SetsS (.scalarSub f) f.h f.d (fun w => extTy f.ty (wrapTo f.ty.width
    (if f.sat then clampTy f.ty (scaI w f.ty f.a - sbI w f.ty f.b) else scaI w f.ty f.a - sbI w f.ty f.b)))) ∧
  (∀ f, SetsS (.scalarMul f) f.h f.d (fun w => extTy f.ty (wrapTo f.ty.width (scaI w f.ty f.a * sbI w f.ty f.b)))) ∧
  (∀ f, SetsS (.scalarMulhi f) f.h f.d (fun w => extTy f.ty (wrapTo f.ty.width (scaI w f.ty f.a * sbI w f.ty f.b / 2 ^ f.ty.width)))) ∧
  (∀ f, SetsS (.scalarDiv f) f.h f.d (fun w => extTy f.ty (if sbI w f.ty f.b = 0 then 2 ^ f.ty.width - 1
    else wrapTo f.ty.width ((scaI w f.ty f.a).tdiv (sbI w f.ty f.b))))) ∧
  (∀ f, SetsS (.scalarRem f) f.h f.d (fun w => extTy f.ty (if sbI w f.ty f.b = 0 then (rdS w f.a.toNat).toNat
    else wrapTo f.ty.width ((scaI w f.ty f.a).tmod (sbI w f.ty f.b))))) ∧
  (∀ f, SetsS (.scalarMin f) f.h f.d (fun w => extTy f.ty (wrapTo f.ty.width (min (scaI w f.ty f.a) (sbI w f.ty f.b))))) ∧
  (∀ f, SetsS (.scalarMax f) f.h f.d (fun w => extTy f.ty (wrapTo f.ty.width (max (scaI w f.ty f.a) (sbI w f.ty f.b))))) ∧
  (∀ f, SetsS (.scalarAnd f) f.h f.d (fun w => extTy f.ty ((rdS w f.a.toNat).toNat &&& sbVal w f.ty f.b))) ∧
  (∀ f, SetsS (.scalarOr f) f.h f.d (fun w => extTy f.ty ((rdS w f.a.toNat).toNat ||| sbVal w f.ty f.b))) ∧
  (∀ f, SetsS (.scalarXor f) f.h f.d (fun w => extTy f.ty ((rdS w f.a.toNat).toNat ^^^ sbVal w f.ty f.b))) ∧
  (∀ f, SetsS (.scalarNot f) f.h f.d (fun w => extTy f.ty (~~~ rdS w f.a.toNat).toNat)) ∧
  (∀ f, SetsS (.scalarShl f) f.h f.d (fun w => extTy f.ty ((rdS w f.a.toNat).toNat * 2 ^ (sbVal w f.ty f.b % 2 ^ f.ty.width)))) ∧
  (∀ f, SetsS (.scalarShr f) f.h f.d (fun w => extTy f.ty (wrapTo f.ty.width (scaI w f.ty f.a / 2 ^ (sbVal w f.ty f.b % 2 ^ f.ty.width))))) ∧
  (∀ f, SetsS (.scalarClz f) f.h f.d (fun w => extTy f.ty (if (rdS w f.a.toNat).toNat % 2 ^ f.ty.width = 0 then f.ty.width
    else f.ty.width - 1 - Nat.log2 ((rdS w f.a.toNat).toNat % 2 ^ f.ty.width)))) ∧
  (∀ f, SetsS (.scalarPopc f) f.h f.d (fun w => extTy f.ty
    ((List.range f.ty.width).filter (fun n => (rdS w f.a.toNat).getLsbD n)).length)) ∧
  (∀ f, SetsS (.scalarMov f) f.h f.d (fun w => extTy f.ty (sbVal w f.ty f.b)))) ∧
  ((∀ f, SetsM (.scalarCmp f) f.h f.d (fun w => if (match f.cnd with
      | .eq => decide (scaI w f.ty f.a = sbI w f.ty f.b) | .ne => decide (scaI w f.ty f.a ≠ sbI w f.ty f.b)
      | .lt => decide (scaI w f.ty f.a < sbI w f.ty f.b) | .le => decide (scaI w f.ty f.a ≤ sbI w f.ty f.b)
      | .gt => decide (scaI w f.ty f.a > sbI w f.ty f.b) | .ge => decide (scaI w f.ty f.a ≥ sbI w f.ty f.b)
      | .unord => false | .ord => true) then BitVec.allOnes 32 else 0)) ∧
  (∀ f, SetsS (.scalarSel f) f.h f.d (fun w => if rdS w f.c.toNat ≠ 0 then rdS w f.a.toNat
    else match f.b with
      | .reg b => rdS w b.toNat
      | .lit v => v.zeroExtend 64)))
/-- Table 11.4, R163, R164: the class 2 results in every sub-element of every lane of Active, for every type and operand form (vector, scalar
under BS, literal); `sel` and `mad` on whole lanes.
R163: class 2 `cmp` sets bit L of M[d] for each lane L of Active in which x cnd y holds in every sub-element, and every other bit is 0.
(That a 32-bit `mad` under BS reads S[b] as two sub-elements is the model's reading of R164 against R149, log 18.) -/
def Obligations.VectorIntegerAndCompare : Prop :=
  ((∀ f, SetsV (.vectorAdd f) f.h f.d f.ty (fun w l j => wrapTo f.ty.width
    (if f.sat then clampTy f.ty (vecI w f.ty f.a l j + vbI w f.ty f.b l j) else vecI w f.ty f.a l j + vbI w f.ty f.b l j))) ∧
  (∀ f, SetsV (.vectorSub f) f.h f.d f.ty (fun w l j => wrapTo f.ty.width
    (if f.sat then clampTy f.ty (vecI w f.ty f.a l j - vbI w f.ty f.b l j) else vecI w f.ty f.a l j - vbI w f.ty f.b l j))) ∧
  (∀ f, SetsV (.vectorMul f) f.h f.d f.ty (fun w l j => wrapTo f.ty.width (vecI w f.ty f.a l j * vbI w f.ty f.b l j))) ∧
  (∀ f, SetsV (.vectorMulhi f) f.h f.d f.ty (fun w l j => wrapTo f.ty.width (vecI w f.ty f.a l j * vbI w f.ty f.b l j / 2 ^ f.ty.width))) ∧
  (∀ f, SetsV (.vectorMin f) f.h f.d f.ty (fun w l j => wrapTo f.ty.width (min (vecI w f.ty f.a l j) (vbI w f.ty f.b l j)))) ∧
  (∀ f, SetsV (.vectorMax f) f.h f.d f.ty (fun w l j => wrapTo f.ty.width (max (vecI w f.ty f.a l j) (vbI w f.ty f.b l j)))) ∧
  (∀ f, SetsV (.vectorAbs f) f.h f.d f.ty (fun w l j => wrapTo f.ty.width
    (if f.sat then clampTy f.ty (vecI w f.ty f.a l j).natAbs else (vecI w f.ty f.a l j).natAbs))) ∧
  (∀ f, SetsV (.vectorNeg f) f.h f.d f.ty (fun w l j => wrapTo f.ty.width
    (if f.sat then clampTy f.ty (-(vecI w f.ty f.a l j)) else -(vecI w f.ty f.a l j)))) ∧
  (∀ f, SetsV (.vectorAnd f) f.h f.d f.ty (fun w l j => elemOf f.ty (rdV w f.a.toNat l) j &&& vbElem w f.ty f.b l j % 2 ^ f.ty.width)) ∧
  (∀ f, SetsV (.vectorOr f) f.h f.d f.ty (fun w l j => elemOf f.ty (rdV w f.a.toNat l) j ||| vbElem w f.ty f.b l j % 2 ^ f.ty.width)) ∧
  (∀ f, SetsV (.vectorXor f) f.h f.d f.ty (fun w l j => elemOf f.ty (rdV w f.a.toNat l) j ^^^ vbElem w f.ty f.b l j % 2 ^ f.ty.width)) ∧
  (∀ f, SetsV (.vectorNot f) f.h f.d f.ty (fun w l j => 2 ^ f.ty.width - 1 - elemOf f.ty (rdV w f.a.toNat l) j)) ∧
  (∀ f, SetsV (.vectorShl f) f.h f.d f.ty (fun w l j =>
    elemOf f.ty (rdV w f.a.toNat l) j * 2 ^ (vbElem w f.ty f.b l j % 2 ^ f.ty.width) % 2 ^ f.ty.width)) ∧
  (∀ f, SetsV (.vectorShr f) f.h f.d f.ty (fun w l j =>
    wrapTo f.ty.width (vecI w f.ty f.a l j / 2 ^ (vbElem w f.ty f.b l j % 2 ^ f.ty.width)))) ∧
  (∀ f, SetsV (.vectorClz f) f.h f.d f.ty (fun w l j => (if elemOf f.ty (rdV w f.a.toNat l) j = 0 then f.ty.width
    else f.ty.width - 1 - Nat.log2 (elemOf f.ty (rdV w f.a.toNat l) j)) % 2 ^ f.ty.width)) ∧
  (∀ f, SetsV (.vectorPopc f) f.h f.d f.ty (fun w l j =>
    ((List.range f.ty.width).filter (fun n => (elemOf f.ty (rdV w f.a.toNat l) j).testBit n)).length % 2 ^ f.ty.width)) ∧
  (∀ f, SetsV (.brev f) f.h f.d f.ty (fun w l j =>
    ((List.range f.ty.width).map (fun n => if (elemOf f.ty (rdV w f.a.toNat l) j).testBit (f.ty.width - 1 - n) then 2 ^ n else 0)).sum)) ∧
  (∀ f, SetsV (.bfe f) f.h f.d f.ty (fun w l j =>
    let off := vbElem w f.ty f.b l j % 256
    let n := vbElem w f.ty f.b l j % 2 ^ f.ty.width / 256 % 256
    let r := elemOf f.ty (rdV w f.a.toNat l) j / 2 ^ off % 2 ^ n
    if n = 0 then 0 else wrapTo f.ty.width (if f.ty.isI && r.testBit (n - 1) then (r : Int) - 2 ^ n else r))) ∧
  (∀ f, SetsV (.vectorMov f) f.h f.d f.ty (fun w l j => vbElem w f.ty f.b l j % 2 ^ f.ty.width)) ∧
  (∀ f, SetsLanes (.vectorSel f) f.h f.d (fun w l => if (rdM w f.c.toNat).getLsbD l then rdV w f.a.toNat l else vbLane w f.b l)) ∧
  (∀ f, SetsLanes (.madI32 f) f.h f.d (fun w l =>
    let x := rdV w f.a.toNat l
    let y := if f.bs then rdS w f.b.toNat else rdV w f.b.toNat l
    rdV w f.c.toNat l + (x.extractLsb' 0 32).signExtend 64 * (y.extractLsb' 0 32).signExtend 64
      + (x.extractLsb' 32 32).signExtend 64 * (y.extractLsb' 32 32).signExtend 64)) ∧
  (∀ f, SetsLanes (.madN32 f) f.h f.d (fun w l =>
    let x := rdV w f.a.toNat l
    let y := if f.bs then rdS w f.b.toNat else rdV w f.b.toNat l
    rdV w f.c.toNat l + (x.extractLsb' 0 32).zeroExtend 64 * (y.extractLsb' 0 32).zeroExtend 64
      + (x.extractLsb' 32 32).zeroExtend 64 * (y.extractLsb' 32 32).zeroExtend 64)) ∧
  (∀ f, SetsLanes (.madI64 f) f.h f.d (fun w l =>
    rdV w f.a.toNat l * (if f.bs then rdS w f.b.toNat else rdV w f.b.toNat l) + rdV w f.c.toNat l)) ∧
  (∀ f, SetsLanes (.madN64 f) f.h f.d (fun w l =>
    rdV w f.a.toNat l * (if f.bs then rdS w f.b.toNat else rdV w f.b.toNat l) + rdV w f.c.toNat l))) ∧
  (∀ f sp, regSpec (.vectorCmp f) = some sp → ∀ s k w, Clear sp s k w → ∃ t w', exec (.vectorCmp f) s = .next t ∧
    RanRegs sp sp.dests s k w t w' ∧ ∀ l, l < 32 → ((rdM w' f.d.toNat).getLsbD l = true ↔ (activeOf w f.h.mask).getLsbD l = true ∧
      ∀ j, j < elemCount f.ty →
        match f.cnd with
        | .eq => vecI w f.ty f.a l j = vbI w f.ty f.b l j | .ne => vecI w f.ty f.a l j ≠ vbI w f.ty f.b l j
        | .lt => vecI w f.ty f.a l j < vbI w f.ty f.b l j | .le => vecI w f.ty f.a l j ≤ vbI w f.ty f.b l j
        | .gt => vecI w f.ty f.a l j > vbI w f.ty f.b l j | .ge => vecI w f.ty f.a l j ≥ vbI w f.ty f.b l j
        | .unord => False | .ord => True))

/-- Table 11.5, R165, R95, R101, R102: class 3 `add`, `sub`, `mul`, `fma` and `fnma` are the exact result on the operands as DAZ reads them,
rounded once in the mode the encoding or `mode` names, and flushed as FTZ asks; `rint` rounds to an integral value of x's sign; `min` and
`max` order -0 below +0 and pass over one NaN; `abs`, `neg` and `copysign` set the sign bit alone of a value that is no NaN; `fclass` sets
the one bit of x's class.
R166: class 3 `cmp` sets bit L of M[d] for each lane L of Active in which the condition holds in every sub-element; a NaN makes the
ordered ones false.
R93, R94: in each of the six formats a bit pattern that is no NaN is the rounding, in every mode, of the value it stands for, and a NaN
pattern rounds to the canonical NaN: rounding an exactly representable value changes nothing. (The sign of a difference of two zeros of one sign
is read from R165's words as they stand, for `sub` and `fnma` alike: the model's reading, log 17.) -/
def Obligations.FloatResults : Prop :=
  ((∀ f, SetsV (.fpAdd f) f.h f.d f.ty (fun w l j => fwr (envOf w.mode f.rmo) f.ty (fadd (rmSel w.mode f.rmo)
    (frd (envOf w.mode f.rmo) f.ty (elemOf f.ty (rdV w f.a.toNat l) j)) (frd (envOf w.mode f.rmo) f.ty (vbElem w f.ty f.b l j))) % 2 ^ f.ty.width)) ∧
  (∀ f, SetsV (.fpSub f) f.h f.d f.ty (fun w l j => fwr (envOf w.mode f.rmo) f.ty (fsubv (rmSel w.mode f.rmo)
    (frd (envOf w.mode f.rmo) f.ty (elemOf f.ty (rdV w f.a.toNat l) j)) (frd (envOf w.mode f.rmo) f.ty (vbElem w f.ty f.b l j))) % 2 ^ f.ty.width)) ∧
  (∀ f, SetsV (.fpMul f) f.h f.d f.ty (fun w l j => fwr (envOf w.mode f.rmo) f.ty (fmulv
    (frd (envOf w.mode f.rmo) f.ty (elemOf f.ty (rdV w f.a.toNat l) j)) (frd (envOf w.mode f.rmo) f.ty (vbElem w f.ty f.b l j))) % 2 ^ f.ty.width)) ∧
  (∀ f p, p ∈ [(Instr.fmaF64 f, Ty.f64, false), (.fmaF32 f, .f32, false), (.fmaF16 f, .f16, false), (.fmaBf16 f, .bf16, false),
      (.fnmaF64 f, .f64, true), (.fnmaF32 f, .f32, true), (.fnmaF16 f, .f16, true), (.fnmaBf16 f, .bf16, true)] →
    SetsV p.1 f.h f.d p.2.1 (fun w l j =>
      let x := frd (envOf w.mode .mode) p.2.1 (elemOf p.2.1 (rdV w f.a.toNat l) j)
      let y := frd (envOf w.mode .mode) p.2.1 (if f.bs then (rdS w f.b.toNat).toNat % 2 ^ p.2.1.width else elemOf p.2.1 (rdV w f.b.toNat l) j)
      let c := frd (envOf w.mode .mode) p.2.1 (elemOf p.2.1 (rdV w f.c.toNat l) j)
      fwr (envOf w.mode .mode) p.2.1 (if p.2.2 then fsubv (rmSel w.mode .mode) c (fmulv x y) else fadd (rmSel w.mode .mode) c (fmulv x y))
        % 2 ^ p.2.1.width)) ∧
  (∀ f, SetsV (.rint f) f.h f.d f.ty (fun w l j => fwr (envOf w.mode f.rmo) f.ty
    (match frd (envOf w.mode f.rmo) f.ty (elemOf f.ty (rdV w f.a.toNat l) j) with
      | .fin s n e => if e ≥ 0 then .fin s n e else .fin s (rscale (rmSel w.mode f.rmo) s n 1 e 0) 0
      | v => v) % 2 ^ f.ty.width))) ∧
  ((∀ f p, p ∈ [(Instr.fpMin f, false), (.fpMax f, true)] → f.ty ∈ tysF4 → SetsV p.1 f.h f.d f.ty (fun w l j =>
    let x := flush (w.mode.getLsbD 2) (fmtOf f.ty) (elemOf f.ty (rdV w f.a.toNat l) j)
    let y := flush (w.mode.getLsbD 2) (fmtOf f.ty) (vbElem w f.ty f.b l j)
    let u := fdec (fmtOf f.ty) x
    let v := fdec (fmtOf f.ty) y
    flush (w.mode.getLsbD 3) (fmtOf f.ty) (if u.isNan then (if v.isNan then (fmtOf f.ty).nanBits else y)
      else if v.isNan then x else if (if p.2 then fltv v u else fltv u v) then x else y) % 2 ^ f.ty.width)) ∧
  (∀ f, f.ty ∈ tysF4 → SetsV (.fpAbs f) f.h f.d f.ty (fun w l j =>
    let x := flush (w.mode.getLsbD 2) (fmtOf f.ty) (elemOf f.ty (rdV w f.a.toNat l) j)
    if (fdec (fmtOf f.ty) x).isNan then (fmtOf f.ty).nanBits
    else flush (w.mode.getLsbD 3) (fmtOf f.ty) (x % 2 ^ (f.ty.width - 1)))) ∧
  (∀ f, f.ty ∈ tysF4 → SetsV (.fpNeg f) f.h f.d f.ty (fun w l j =>
    let x := flush (w.mode.getLsbD 2) (fmtOf f.ty) (elemOf f.ty (rdV w f.a.toNat l) j)
    if (fdec (fmtOf f.ty) x).isNan then (fmtOf f.ty).nanBits
    else flush (w.mode.getLsbD 3) (fmtOf f.ty) (x ^^^ 2 ^ (f.ty.width - 1)))) ∧
  (∀ f, f.ty ∈ tysF4 → SetsV (.copysign f) f.h f.d f.ty (fun w l j =>
    let x := flush (w.mode.getLsbD 2) (fmtOf f.ty) (elemOf f.ty (rdV w f.a.toNat l) j)
    let y := vbElem w f.ty f.b l j
    if (fdec (fmtOf f.ty) x).isNan then (fmtOf f.ty).nanBits
    else flush (w.mode.getLsbD 3) (fmtOf f.ty) (x % 2 ^ (f.ty.width - 1) + (if y.testBit (f.ty.width - 1) then 2 ^ (f.ty.width - 1) else 0)))) ∧
  (∀ f, f.ty ∈ tysF4 → SetsV (.fclass f) f.h f.d f.ty (fun w l j =>
    let x := elemOf f.ty (rdV w f.a.toNat l) j
    let neg := x.testBit (f.ty.width - 1)
    let mag := x % 2 ^ (f.ty.width - 1)
    let top := (fmtOf f.ty).infBits false
    if top < mag then 2 ^ 8 else if mag = top then (if neg then 2 ^ 0 else 2 ^ 7)
    else if mag = 0 then (if neg then 2 ^ 3 else 2 ^ 4) else if mag < 2 ^ (fmtOf f.ty).fb then (if neg then 2 ^ 2 else 2 ^ 5)
    else (if neg then 2 ^ 1 else 2 ^ 6)))) ∧
  (∀ f sp, regSpec (.fpCmp f) = some sp → ∀ s k w, Clear sp s k w → ∃ t w', exec (.fpCmp f) s = .next t ∧
    RanRegs sp sp.dests s k w t w' ∧ ∀ l, l < 32 → ((rdM w' f.d.toNat).getLsbD l = true ↔ (activeOf w f.h.mask).getLsbD l = true ∧
      ∀ j, j < elemCount f.ty →
        let x := frd (envOf w.mode .mode) f.ty (elemOf f.ty (rdV w f.a.toNat l) j)
        let y := frd (envOf w.mode .mode) f.ty (vbElem w f.ty f.b l j)
        match f.cnd with
        | .unord => x = .nan ∨ y = .nan | .ord => x ≠ .nan ∧ y ≠ .nan
        | .ne => x = .nan ∨ y = .nan ∨ fcmpv x y ≠ 0 | .eq => x ≠ .nan ∧ y ≠ .nan ∧ fcmpv x y = 0
        | .lt => x ≠ .nan ∧ y ≠ .nan ∧ fcmpv x y < 0 | .le => x ≠ .nan ∧ y ≠ .nan ∧ fcmpv x y ≤ 0
        | .gt => x ≠ .nan ∧ y ≠ .nan ∧ fcmpv x y > 0 | .ge => x ≠ .nan ∧ y ≠ .nan ∧ fcmpv x y ≥ 0)) ∧
  (∀ t, t ∈ tysF6 → ∀ m x, x < 2 ^ t.width →
    fround (fmtOf t) m false (fdec (fmtOf t) x) = if (fdec (fmtOf t) x).isNan then (fmtOf t).nanBits else x)

/-- R99, R100, Table 7.3: an exact value num / den × 2^e is rounded, in each of the six formats and the four modes, to the value the mode asks
for among all the values of the format, or to the overflow result; with SAT a result beyond the format is the largest finite value.
R98, R165: `fadd`, `fsubv` and `fmulv`, by which the floating-point results are stated, are the exact sum, difference and product of finite
values; an exact zero sum or difference is +0, or -0 in RDN, but for two zero operands of one sign (a difference of zeros: the rule's words
as they stand, log 17).
R99 step 4: a value converted to an integer is rounded by the same rules. -/
def Obligations.RoundingIsCorrect : Prop :=
  (∀ t, t ∈ tysF6 → ∀ m s (n d : Nat) (e : Int), 0 < d →
    (fmtOf t).Rounds m s (((if s then -1 else 1) * (n : ℝ) / d * (2 : ℝ) ^ e)) (roundQ (fmtOf t) m false s n d e) ∧
    (∀ u, (fmtOf t).Is (roundQ (fmtOf t) m false s n d e) u → roundQ (fmtOf t) m true s n d e = roundQ (fmtOf t) m false s n d e) ∧
    ((∀ u, ¬ (fmtOf t).Is (roundQ (fmtOf t) m false s n d e) u) →
      roundQ (fmtOf t) m true s n d e = (fmtOf t).sign s + (fmtOf t).maxBits)) ∧
  (∀ m a x e b y g, ∃ c z k, fadd m (.fin a x e) (.fin b y g) = .fin c z k ∧
    (FV.fin c z k).rat = (FV.fin a x e).rat + (FV.fin b y g).rat ∧
    (z = 0 → c = if x = 0 ∧ y = 0 ∧ a = b then a else decide (m = .rdn))) ∧
  (∀ m a x e b y g, ∃ c z k, fsubv m (.fin a x e) (.fin b y g) = .fin c z k ∧
    (FV.fin c z k).rat = (FV.fin a x e).rat - (FV.fin b y g).rat ∧
    (z = 0 → c = if x = 0 ∧ y = 0 ∧ a = b then a else decide (m = .rdn))) ∧
  (∀ a x e b y g, ∃ z k, fmulv (.fin a x e) (.fin b y g) = .fin (a != b) z k ∧
    (FV.fin (a != b) z k).rat = (FV.fin a x e).rat * (FV.fin b y g).rat) ∧
  (∀ s n e, fint .rdn s n e = ⌊(FV.fin s n e).rat⌋ ∧ fint .rup s n e = ⌈(FV.fin s n e).rat⌉ ∧
    fint .rtz s n e = (if s then ⌈(FV.fin s n e).rat⌉ else ⌊(FV.fin s n e).rat⌋) ∧
    |(fint .rne s n e : ℚ) - (FV.fin s n e).rat| ≤ 1 / 2 ∧
    (|(fint .rne s n e : ℚ) - (FV.fin s n e).rat| = 1 / 2 → Even (fint .rne s n e)))

/-- R179, R111, R112, Table 7.7: `rcp`, `rsqrt`, `div` and `sqrt` are the exact value rounded once; the six functions of R112 give the values of
Table 7.7 at their special operands, NaN for a NaN, `exp2` of an integer n the rounding of 2^n, and `log2` of 2^n the rounding of n. (Of other
operands of `exp2`, `log2`, `sin` and `cos` speaks `TranscendentalsRounded`; their enclosures are log 9's.)
Table 11.5: `ldexp` is x × 2^n, n the sub-element of b read as a signed integer, rounded once. -/
def Obligations.SpecialFunctions : Prop :=
  (∀ f p, p ∈ [(Instr.rcp f, SpecFn.rcp), (.rsqrt f, .rsqrt), (.exp2 f, .exp2), (.log2 f, .log2), (.sin f, .sin), (.cos f, .cos)] →
    SetsV p.1 f.h f.d f.ty (fun w l j =>
      specFn (envOf w.mode .mode) f.ty p.2 (elemOf f.ty (rdV w f.a.toNat l) j) % 2 ^ f.ty.width)) ∧
  (∀ f, SetsV (.fpDiv f) f.h f.d f.ty (fun w l j => flush (w.mode.getLsbD 3) (fmtOf f.ty) (fdiv (fmtOf f.ty) (rmSel w.mode f.rmo)
    (frd (envOf w.mode f.rmo) f.ty (elemOf f.ty (rdV w f.a.toNat l) j))
    (frd (envOf w.mode f.rmo) f.ty (elemOf f.ty (rdV w f.b.toNat l) j))) % 2 ^ f.ty.width)) ∧
  (∀ f, SetsV (.sqrt f) f.h f.d f.ty (fun w l j => flush (w.mode.getLsbD 3) (fmtOf f.ty) (fsqrt (fmtOf f.ty) (rmSel w.mode f.rmo)
    (frd (envOf w.mode f.rmo) f.ty (elemOf f.ty (rdV w f.a.toNat l) j))) % 2 ^ f.ty.width)) ∧
  (∀ f, SetsV (.ldexp f) f.h f.d f.ty (fun w l j => fBin .ldexp (envOf w.mode f.rmo) f.ty (elemOf f.ty (rdV w f.a.toNat l) j)
    (vbElem w (ldexpTy f.ty) f.b l j) % 2 ^ f.ty.width)) ∧
  (∀ t, t ∈ tysF4 →
    (∀ m a p e b q g, p ≠ 0 → q ≠ 0 → (fmtOf t).Rounds m (a != b) (((FV.fin a p e).rat / (FV.fin b q g).rat : ℚ) : ℝ)
      (fdiv (fmtOf t) m (.fin a p e) (.fin b q g))) ∧
    (∀ m x, fdiv (fmtOf t) m .nan x = (fmtOf t).nanBits ∧ fdiv (fmtOf t) m x .nan = (fmtOf t).nanBits) ∧
    (∀ m a b, fdiv (fmtOf t) m (.inf a) (.inf b) = (fmtOf t).nanBits) ∧
    (∀ m a b q g, fdiv (fmtOf t) m (.inf a) (.fin b q g) = (fmtOf t).infBits (a != b)) ∧
    (∀ m a b p e, fdiv (fmtOf t) m (.fin a p e) (.inf b) = (fmtOf t).sign (a != b)) ∧
    (∀ m a p e b g, fdiv (fmtOf t) m (.fin a p e) (.fin b 0 g) = if p = 0 then (fmtOf t).nanBits else (fmtOf t).infBits (a != b)) ∧
    (∀ m a b q e g, q ≠ 0 → fdiv (fmtOf t) m (.fin a 0 e) (.fin b q g) = (fmtOf t).sign (a != b)) ∧
    (∀ m n e, n ≠ 0 → (fmtOf t).Rounds m false (Real.sqrt (FV.fin false n e).rat) (fsqrt (fmtOf t) m (.fin false n e)) ∧
      fsqrt (fmtOf t) m (.fin true n e) = (fmtOf t).nanBits) ∧
    (∀ m s e, fsqrt (fmtOf t) m (.fin s 0 e) = (fmtOf t).sign s) ∧
    (∀ m, fsqrt (fmtOf t) m .nan = (fmtOf t).nanBits ∧ fsqrt (fmtOf t) m (.inf false) = (fmtOf t).infBits false ∧
      fsqrt (fmtOf t) m (.inf true) = (fmtOf t).nanBits)) ∧
  (∀ t, t ∈ tysF4 → ∀ env x,
    (frd env t x = .nan → ∀ fn, specFn env t fn x = (fmtOf t).nanBits) ∧
    (∀ s e, frd env t x = .fin s 0 e → specFn env t .rcp x = (fmtOf t).infBits s ∧ specFn env t .rsqrt x = (fmtOf t).infBits s ∧
      specFn env t .exp2 x = roundQ (fmtOf t) .rne false false 1 1 0 ∧ specFn env t .log2 x = (fmtOf t).infBits true ∧
      specFn env t .sin x = (fmtOf t).sign s ∧ specFn env t .cos x = roundQ (fmtOf t) .rne false false 1 1 0) ∧
    (∀ s, frd env t x = .inf s → specFn env t .rcp x = (fmtOf t).sign s ∧
      specFn env t .rsqrt x = (if s then (fmtOf t).nanBits else (fmtOf t).sign false) ∧
      specFn env t .exp2 x = (if s then (fmtOf t).sign false else (fmtOf t).infBits false) ∧
      specFn env t .log2 x = (if s then (fmtOf t).nanBits else (fmtOf t).infBits false) ∧
      specFn env t .sin x = (fmtOf t).nanBits ∧ specFn env t .cos x = (fmtOf t).nanBits) ∧
    (∀ s n e, n ≠ 0 → frd env t x = .fin s n e →
      (∃ r, specFn env t .rcp x = flush env.ftz (fmtOf t) r ∧ (fmtOf t).Rounds .rne s ((((FV.fin s n e).rat)⁻¹ : ℚ) : ℝ) r) ∧
      (s = true → specFn env t .rsqrt x = (fmtOf t).nanBits ∧ specFn env t .log2 x = (fmtOf t).nanBits) ∧
      (s = false → ∃ r, specFn env t .rsqrt x = flush env.ftz (fmtOf t) r ∧
        (fmtOf t).Rounds .rne false (Real.sqrt (FV.fin s n e).rat)⁻¹ r) ∧
      (∀ i : Int, (FV.fin s n e).rat = i → specFn env t .exp2 x = flush env.ftz (fmtOf t) (roundQ (fmtOf t) .rne false false 1 1 i)) ∧
      (∀ i : Int, (FV.fin s n e).rat = (2 : ℚ) ^ i →
        specFn env t .log2 x = flush env.ftz (fmtOf t) (roundQ (fmtOf t) .rne false (decide (i < 0)) i.natAbs 1 0))) ∧
    (∀ y, (frd env t x = .nan → fBin .ldexp env t x y = (fmtOf t).nanBits) ∧
      (∀ s, frd env t x = .inf s → fBin .ldexp env t x y = (fmtOf t).infBits s) ∧
      (∀ s n e, frd env t x = .fin s n e → ∃ r, fBin .ldexp env t x y = flush env.ftz (fmtOf t) r ∧
        (fmtOf t).Rounds env.rm s (((FV.fin s n e).rat * (2 : ℚ) ^ readInt (ldexpTy t) y : ℚ) : ℝ) r)))

/-- R111, R112: at every finite operand other than 0 `exp2`, `log2`, `sin` and `cos` give the exact real value rounded once under RNE, with FTZ on the
result: where the value is rational, and elsewhere whenever the two ends of the model's enclosure of it come to round alike at one of the
precisions it tries. (That they always do is the model's reading, log 9.) -/
def Obligations.TranscendentalsRounded : Prop :=
  ∀ t, t ∈ tysF4 → ∀ env x s n e, n ≠ 0 → frd env t x = .fin s n e →
    let f := fmtOf t
    let v : ℝ := ((FV.fin s n e).rat : ℝ)
    let gives (fn : SpecFn) (y : ℝ) : Prop := ∀ neg : Bool, (neg = true ↔ y < 0) →
      ∃ r, specFn env t fn x = flush env.ftz f r ∧ f.Rounds .rne neg y r
    let whole := fint .rdn s n e
    let part := (sgn s n - whole * 2 ^ (-e).toNat).toNat
    (12 < e + Nat.log2 n ∨ 0 ≤ e ∨ part = 0 ∨ EndsAgree f (fun p => ivExp2 p part e) whole (128 + depthOf part e) → gives .exp2 ((2 : ℝ) ^ v)) ∧
    (s = false → n = 2 ^ Nat.log2 n ∨ EndsAgree f (fun p => ivLog2 p n e) 0 (160 + f.fb) → gives .log2 (Real.logb 2 v)) ∧
    (EndsAgree f (fun p => ivTrig false p n e) 0 (160 + f.fb + 2 * depthOf n e) → gives .sin (Real.sin v)) ∧
    (EndsAgree f (fun p => ivTrig true p n e) 0 (160 + f.fb + 2 * depthOf n e) → gives .cos (Real.cos v))

/-- R167, Table 7.5: `cvt` converts sub-element by sub-element the first min(64/ws, 64/wd) of them, and the others of V[d] become 0; between
equal types SAT has no effect. R168: `pack` takes element e from element e mod ks of V[a + e div ks], `unpack` writes element e of V[a] to element
e mod kd of V[d + e div kd]. R169: `cb.dec` writes the codebook entry of code e to element e mod 4 of V[d + e div 4].
Table 7.5, R96, R99: a conversion to FP rounds the exact value once; NaN and infinities keep their kind, with SAT an infinity becomes the largest
finite value; from FP to an integer the value is rounded to an integer and clamped, and NaN becomes 0; between integers the low bits are kept,
or with SAT the value is clamped. -/
def Obligations.Conversions : Prop :=
  ((∀ f, SetsV (.cvt f) f.h f.d f.dst (fun w l j => if j < elemCount f.src then
    convert (envOf w.mode f.rmo) (f.sat && f.src != f.dst) f.src f.dst (elemOf f.src (rdV w f.a.toNat l) j) % 2 ^ f.dst.width else 0)) ∧
  (∀ f, f.dst.width < f.src.width → SetsV (.pack f) f.h f.d f.dst (fun w l j => convert (envOf w.mode f.rmo) f.sat f.src f.dst
    (elemOf f.src (rdV w (f.a.toNat + j / elemCount f.src) l) (j % elemCount f.src)) % 2 ^ f.dst.width)) ∧
  (∀ f sp, regSpec (.unpack f) = some sp → f.src.width < f.dst.width → ∀ s k w, Clear sp s k w →
    ∃ t w', exec (.unpack f) s = .next t ∧ RanRegs sp sp.dests s k w t w' ∧ ∀ l, l < 32 →
      ((activeOf w f.h.mask).getLsbD l = true → ∀ e, e < elemCount f.src →
        elemOf f.dst (rdV w' (f.d.toNat + e / elemCount f.dst) l) (e % elemCount f.dst) =
          convert (envOf w.mode f.rmo) f.sat f.src f.dst (elemOf f.src (rdV w f.a.toNat l) e) % 2 ^ f.dst.width) ∧
      ((activeOf w f.h.mask).getLsbD l = false → ∀ q, rdV w' q l = rdV w q l)) ∧
  (∀ f sp, regSpec (.cbDec f) = some sp → ∀ s k w, Clear sp s k w →
    ∃ t w', exec (.cbDec f) s = .next t ∧ RanRegs sp sp.dests s k w t w' ∧ ∀ l, l < 32 →
      ((activeOf w f.h.mask).getLsbD l = true → ∀ e, e < 16 → elemOf .bf16 (rdV w' (f.d.toNat + e / 4) l) (e % 4) =
        w.cbA.toNat / 2 ^ (16 * ((rdV w f.a.toNat l).toNat / 2 ^ (4 * e) % 16)) % 2 ^ 16) ∧
      ((activeOf w f.h.mask).getLsbD l = false → ∀ q, rdV w' q l = rdV w q l))) ∧
  ((∀ env src dst x, src ∈ tysF6IN → dst ∈ tysIN →
    (src.isF = false → convert env false src dst x = wrapTo dst.width (readInt src x)) ∧
    (src.isF = false → dst.width ≤ src.width → convert env true src dst x = wrapTo dst.width (clampTy dst (readInt src x))) ∧
    (src.isF = false → src.width < dst.width → convert env true src dst x = wrapTo dst.width (readInt src x)) ∧
    (∀ sat, src.isF = true → frd env src x = .nan → convert env sat src dst x = 0) ∧
    (∀ sat b, src.isF = true → frd env src x = .inf b → convert env sat src dst x = wrapTo dst.width (if b then tyMin dst else tyMax dst)) ∧
    (∀ sat b n e, src.isF = true → frd env src x = .fin b n e →
      convert env sat src dst x = wrapTo dst.width (clampTy dst (fint env.rm b n e)))) ∧
  (∀ env sat src dst x, src ∈ tysF6IN → dst ∈ tysF6 →
    (src.isF = false → convert env sat src dst x = flush env.ftz (fmtOf dst)
      (roundQ (fmtOf dst) env.rm sat (decide (readInt src x < 0)) (readInt src x).natAbs 1 0)) ∧
    (src.isF = true → frd env src x = .nan → convert env sat src dst x = (fmtOf dst).nanBits) ∧
    (∀ b, src.isF = true → frd env src x = .inf b → convert env sat src dst x =
      if sat then (fmtOf dst).sign b + (fmtOf dst).maxBits else (fmtOf dst).infBits b) ∧
    (∀ b n e, src.isF = true → frd env src x = .fin b n e →
      convert env sat src dst x = flush env.ftz (fmtOf dst) (roundQ (fmtOf dst) env.rm sat b n 1 e))))

/-- R174: `xl.vote` gathers M[a] over Active into S[d]; `xl.any` and `xl.all` write every bit of M[d].
R109, R175: `red.lane` of a bitwise operation is that operation over the lanes of Active, sub-element by sub-element; of integers `add` is their
sum, `min` and `max` their least and greatest. For every type `red.lane` combines the lanes by the tree of R109, `scan.lane` by its five passes,
and the exclusive scan gives a lane the result of the highest active lane below, or the identity; DAZ is applied to each lane's operand, FTZ to
each combination and to what is written, and an operand combined with nothing else keeps a NaN's payload (log 81). -/
def Obligations.VotesAndReductions : Prop :=
  ((∀ f, SetsS (.xlVote f) f.h f.d (fun w => (rdM w f.a.toNat &&& activeOf w f.h.mask).zeroExtend 64)) ∧
  (∀ f, SetsM (.xlAny f) f.h f.d (fun w => if rdM w f.a.toNat &&& activeOf w f.h.mask ≠ 0 then BitVec.allOnes 32 else 0)) ∧
  (∀ f, SetsM (.xlAll f) f.h f.d (fun w => if rdM w f.a.toNat &&& activeOf w f.h.mask = activeOf w f.h.mask then BitVec.allOnes 32 else 0))) ∧
  ((∀ f, f.ty ∈ tysINB → SetsS (.redLaneAnd f) f.h f.d (fun w => elemsOf f.ty (fun j =>
    (lanesOf (activeOf w f.h.mask)).foldl (fun a l => a &&& elemOf f.ty (rdV w f.a.toNat l) j) (2 ^ f.ty.width - 1)))) ∧
  (∀ f, f.ty ∈ tysINB → SetsS (.redLaneOr f) f.h f.d (fun w => elemsOf f.ty (fun j =>
    (lanesOf (activeOf w f.h.mask)).foldl (fun a l => a ||| elemOf f.ty (rdV w f.a.toNat l) j) 0))) ∧
  (∀ f, f.ty ∈ tysINB → SetsS (.redLaneXor f) f.h f.d (fun w => elemsOf f.ty (fun j =>
    (lanesOf (activeOf w f.h.mask)).foldl (fun a l => a ^^^ elemOf f.ty (rdV w f.a.toNat l) j) 0)))) ∧
  ((∀ f, f.ty ∈ tysIN → SetsS (.redLaneAdd f) f.h f.d (fun w => elemsOf f.ty (fun j =>
    wrapTo f.ty.width (((lanesOf (activeOf w f.h.mask)).map (fun l => vecI w f.ty f.a l j)).sum)))) ∧
  (∀ f, f.ty ∈ tysIN → SetsS (.redLaneMin f) f.h f.d (fun w => elemsOf f.ty (fun j =>
    wrapTo f.ty.width ((lanesOf (activeOf w f.h.mask)).foldl (fun a l => min a (vecI w f.ty f.a l j)) (tyMax f.ty))))) ∧
  (∀ f, f.ty ∈ tysIN → SetsS (.redLaneMax f) f.h f.d (fun w => elemsOf f.ty (fun j =>
    wrapTo f.ty.width ((lanesOf (activeOf w f.h.mask)).foldl (fun a l => max a (vecI w f.ty f.a l j)) (tyMin f.ty)))))) ∧
  ((∀ f, SetsS (.redLaneAdd f) f.h f.d (fun w => elemsOf f.ty (fun j => rOut (envOf w.mode f.rmo) f.ty
    ((laneTree (rComb .add (envOf w.mode f.rmo) f.ty) (laneIn w f.h.mask (envOf w.mode f.rmo) f.ty f.a j) 5 0).getD 0)))) ∧
  (∀ f p, p ∈ [(Instr.redLaneMin f, ROp.min), (.redLaneMax f, .max), (.redLaneAnd f, .and), (.redLaneOr f, .or), (.redLaneXor f, .xor)] →
    SetsS p.1 f.h f.d (fun w => elemsOf f.ty (fun j => rOut (envOf w.mode .mode) f.ty
      ((laneTree (rComb p.2 (envOf w.mode .mode) f.ty) (laneIn w f.h.mask (envOf w.mode .mode) f.ty f.a j) 5 0).getD 0)))) ∧
  (∀ f, SetsV (.scanLaneAdd f) f.h f.d f.ty (fun w l j => rOut (envOf w.mode f.rmo) f.ty
    ((laneScan (rComb .add (envOf w.mode f.rmo) f.ty) (laneIn w f.h.mask (envOf w.mode f.rmo) f.ty f.a j) 5 l).getD 0) % 2 ^ f.ty.width)) ∧
  (∀ f p, p ∈ [(Instr.scanLaneMin f, ROp.min), (.scanLaneMax f, .max), (.scanLaneAnd f, .and), (.scanLaneOr f, .or), (.scanLaneXor f, .xor)] →
    SetsV p.1 f.h f.d f.ty (fun w l j => rOut (envOf w.mode .mode) f.ty
      ((laneScan (rComb p.2 (envOf w.mode .mode) f.ty) (laneIn w f.h.mask (envOf w.mode .mode) f.ty f.a j) 5 l).getD 0) % 2 ^ f.ty.width)) ∧
  (∀ f, SetsV (.scanLaneAddEx f) f.h f.d f.ty (fun w l j => rOut (envOf w.mode f.rmo) f.ty
    (match laneBelow (activeOf w f.h.mask) l with
      | some m => (laneScan (rComb .add (envOf w.mode f.rmo) f.ty) (laneIn w f.h.mask (envOf w.mode f.rmo) f.ty f.a j) 5 m).getD 0
      | none => 0) % 2 ^ f.ty.width)) ∧
  (∀ f p, p ∈ [(Instr.scanLaneMinEx f, ROp.min, if f.ty.isF then (fmtOf f.ty).infBits false else wrapTo f.ty.width (tyMax f.ty)),
      (.scanLaneMaxEx f, .max, if f.ty.isF then (fmtOf f.ty).infBits true else wrapTo f.ty.width (tyMin f.ty)),
      (.scanLaneAndEx f, .and, 2 ^ f.ty.width - 1), (.scanLaneOrEx f, .or, 0), (.scanLaneXorEx f, .xor, 0)] →
    SetsV p.1 f.h f.d f.ty (fun w l j => rOut (envOf w.mode .mode) f.ty
      (match laneBelow (activeOf w f.h.mask) l with
        | some m => (laneScan (rComb p.2.1 (envOf w.mode .mode) f.ty) (laneIn w f.h.mask (envOf w.mode .mode) f.ty f.a j) 5 m).getD 0
        | none => p.2.2) % 2 ^ f.ty.width))) ∧
  ((∀ env t x y, t ∈ tysF4 → rComb .add env t x y =
    flush env.ftz (fmtOf t) (fround (fmtOf t) env.rm false (fadd env.rm (fdec (fmtOf t) x) (fdec (fmtOf t) y)))) ∧
  (∀ env t x y, t ∈ tysIN → rComb .add env t x y = wrapTo t.width (readInt t x + readInt t y) ∧
    rComb .min env t x y = wrapTo t.width (min (readInt t x) (readInt t y)) ∧
    rComb .max env t x y = wrapTo t.width (max (readInt t x) (readInt t y))))

/-- R170 to R173: a cross-lane instruction whose lanes of Active read only lanes of Active, or that carries Z, completes: each destination
sub-element takes the source element its rule names, 0 for an inactive source under Z and for a source beyond the lanes, and lanes outside Active
keep V[d] (R148); otherwise it takes
LANE_INACTIVE_READ with the reading lanes in its record, and no register changes. -/
def Obligations.CrossLaneMovesOrTraps : Prop :=
  ∀ f bOps src i, crossShape i = some (f, bOps, src) → ∀ s k w,
    Clear (specH f.h 8 (vOp f.d 1 true :: vOp f.a :: bOps) (some 8)) s k w →
      (f.z = true ∨ (∀ l j m n, l < 32 → j < elemCount f.ty → (activeOf w f.h.mask).getLsbD l = true → src w l j = some (m, n) →
          (activeOf w f.h.mask).getLsbD m = true) →
        ∃ t w', exec i s = .next t ∧
          RanRegs (specH f.h 8 (vOp f.d 1 true :: vOp f.a :: bOps) (some 8)) [.v f.d.toNat] s k w t w' ∧ w'.xa = w.xa ∧
          (∀ l, l < 32 → (activeOf w f.h.mask).getLsbD l = true → ∀ j, j < elemCount f.ty →
            elemOf f.ty (rdV w' f.d.toNat l) j = match src w l j with
              | some (m, n) => if (activeOf w f.h.mask).getLsbD m then elemOf f.ty (rdV w f.a.toNat m) n else 0
              | none => 0) ∧
          ∀ l, l < 32 → (activeOf w f.h.mask).getLsbD l = false → rdV w' f.d.toNat l = rdV w f.d.toNat l) ∧
      (f.z = false → ∀ l j m n, l < 32 → j < elemCount f.ty → (activeOf w f.h.mask).getLsbD l = true → src w l j = some (m, n) →
          (activeOf w f.h.mask).getLsbD m = false →
        ∃ lanes : LaneMask, (∀ n, n < 32 → (lanes.getLsbD n = true ↔ (activeOf w f.h.mask).getLsbD n = true ∧ ∃ j m q, j < elemCount f.ty ∧
            src w n j = some (m, q) ∧ (activeOf w f.h.mask).getLsbD m = false)) ∧ exec i s = .next (takeTrap
          (entryState (specH f.h 8 (vOp f.d 1 true :: vOp f.a :: bOps) (some 8)) s k w) k 8
          { cause := .laneInactiveRead, lanes := some lanes }))

/-- R104, R105, R177, R178: `xa.clr` clears the accumulator and its flags; `xa.get` and `xa.set` read and replace a chunk of X, or as chunk 34 the
four flags; adding an integer type adds every sub-element of every lane of Active, exactly and modulo 2^2176, in units of 2^-1074; `xa.add` of a
floating-point type and `xa.mac` add every finite term or product so, set NAN, PINF and NINF for the others, and the flags stay set; OVF is set
by a partial sum outside the accumulator's range, in the order of lanes ascending, which is the model's choice (log 94: R105 gives no order). `xa.merge` adds 34 chunks and ORs
the flags.
R106: `xa.rnd` rounds X × 2^-1074 once, NaN after NAN, OVF or both infinities, an infinity after one of them, +0 for zero. -/
def Obligations.ExactAccumulator : Prop :=
  (∀ f s k w, Clear (specH f.h 8 [] (some 1)) s k w → activeOf w f.h.mask ≠ 0 →
    ∃ t w', exec (.xaClr f) s = .next t ∧ RanRegs (specH f.h 8 [] (some 1)) [] s k w t w' ∧ w'.xa = {}) ∧
  (∀ f : XaGetF, f.c.toNat < 34 → SetsS (.xaGet f) f.h f.d (fun w => w.xa.x.extractLsb' (64 * f.c.toNat) 64)) ∧
  (∀ (f : XaSetF) s k w, f.c.toNat < 34 → Clear (specH f.h 8 [sOp f.a] (some 1)) s k w → activeOf w f.h.mask ≠ 0 →
    ∃ t w', exec (.xaSet f) s = .next t ∧ RanRegs (specH f.h 8 [sOp f.a] (some 1)) [] s k w t w' ∧
      ∀ c, c < 34 → w'.xa.x.extractLsb' (64 * c) 64 = if c = f.c.toNat then rdS w f.a.toNat else w.xa.x.extractLsb' (64 * c) 64) ∧
  (∀ (f : XaAddF) s k w, f.ty ∈ tysIN → Clear (specH f.h 8 [vOp f.a] (some 1)) s k w → activeOf w f.h.mask ≠ 0 →
    ∃ t w', exec (.xaAdd f) s = .next t ∧ RanRegs (specH f.h 8 [vOp f.a] (some 1)) [] s k w t w' ∧
      w'.xa.x = w.xa.x + BitVec.ofInt 2176 (2 ^ 1074 * (((lanesOf (activeOf w f.h.mask)).flatMap (fun l =>
        (List.range (elemCount f.ty)).map (fun j => vecI w f.ty f.a l j))).sum)) ∧
      w'.xa.nan = w.xa.nan ∧ w'.xa.pinf = w.xa.pinf ∧ w'.xa.ninf = w.xa.ninf) ∧
  (∀ (f : XaAddF) s k w, f.ty ∈ tysF6IN → Clear (specH f.h 8 [vOp f.a] (some 1)) s k w → activeOf w f.h.mask ≠ 0 →
    ∃ t w', exec (.xaAdd f) s = .next t ∧ RanRegs (specH f.h 8 [vOp f.a] (some 1)) [] s k w t w' ∧
      XaAdds ((lanesOf (activeOf w f.h.mask)).flatMap (fun l => (List.range (elemCount f.ty)).map (fun j =>
        xaVal f.ty (elemOf f.ty (rdV w f.a.toNat l) j)))) w.xa w'.xa) ∧
  (∀ (f : XaMacF) s k w, f.ty ∈ tysMac → Clear (specH f.h 8 [vOp f.a, vOp f.b] (some 1)) s k w → activeOf w f.h.mask ≠ 0 →
    ∃ t w', exec (.xaMac f) s = .next t ∧ RanRegs (specH f.h 8 [vOp f.a, vOp f.b] (some 1)) [] s k w t w' ∧
      XaAdds ((lanesOf (activeOf w f.h.mask)).flatMap (fun l => (List.range (elemCount f.ty)).map (fun j =>
        fmulv (xaVal f.ty (elemOf f.ty (rdV w f.a.toNat l) j)) (xaVal f.ty (elemOf f.ty (rdV w f.b.toNat l) j))))) w.xa w'.xa) ∧
  (∀ f : XaRndF, SetsS (.xaRnd f) f.h f.d (fun w => w64 (
    if w.xa.nan ∨ w.xa.ovf ∨ (w.xa.pinf ∧ w.xa.ninf) then (fmtOf f.ty).nanBits
    else if w.xa.pinf ∨ w.xa.ninf then
      (if f.sat then (fmtOf f.ty).sign w.xa.ninf + (fmtOf f.ty).maxBits else (fmtOf f.ty).infBits w.xa.ninf)
    else roundQ (fmtOf f.ty) (rmSel w.mode f.rmo) f.sat (decide (w.xa.x.toInt < 0)) w.xa.x.toInt.natAbs 1 (-1074)))) ∧
  (∀ f : XaGetF, f.c.toNat = 34 → SetsS (.xaGet f) f.h f.d (fun w =>
    w64 (w.xa.nan.toNat + 2 * w.xa.pinf.toNat + 4 * w.xa.ninf.toNat + 8 * w.xa.ovf.toNat))) ∧
  (∀ (f : XaSetF) s k w, f.c.toNat ≤ 34 → Clear (specH f.h 8 [sOp f.a] (some 1)) s k w → activeOf w f.h.mask ≠ 0 →
    ∃ t w', exec (.xaSet f) s = .next t ∧ RanRegs (specH f.h 8 [sOp f.a] (some 1)) [] s k w t w' ∧
      (f.c.toNat = 34 → w'.xa =
        { x := w.xa.x, nan := (rdS w f.a.toNat).getLsbD 0, pinf := (rdS w f.a.toNat).getLsbD 1,
          ninf := (rdS w f.a.toNat).getLsbD 2, ovf := (rdS w f.a.toNat).getLsbD 3 }) ∧
      (f.c.toNat < 34 → w'.xa = { w.xa with x := w'.xa.x })) ∧
  (∀ (f : XaMergeF) s k w, Clear (specH f.h 8 [sOp f.a 35] (some 1)) s k w → activeOf w f.h.mask ≠ 0 →
    ∃ t w', exec (.xaMerge f) s = .next t ∧ RanRegs (specH f.h 8 [sOp f.a 35] (some 1)) [] s k w t w' ∧
      ∃ y : BitVec 2176, (∀ c, c < 34 → y.extractLsb' (64 * c) 64 = rdS w (f.a.toNat + c)) ∧ w'.xa.x = w.xa.x + y ∧
        w'.xa.nan = (w.xa.nan || (rdS w (f.a.toNat + 34)).getLsbD 0) ∧ w'.xa.pinf = (w.xa.pinf || (rdS w (f.a.toNat + 34)).getLsbD 1) ∧
        w'.xa.ninf = (w.xa.ninf || (rdS w (f.a.toNat + 34)).getLsbD 2) ∧
        w'.xa.ovf = (w.xa.ovf || (rdS w (f.a.toNat + 34)).getLsbD 3 ||
          decide (w.xa.x.toInt + y.toInt < -2 ^ 2175 ∨ 2 ^ 2175 ≤ w.xa.x.toInt + y.toInt)))

/-- R116, R132, Table 9.8: a compact register instruction does what its 64-bit form does with `m0` and the fixed fields of Table 9.8, and its PC
moves on by one parcel instead of two. -/
def Obligations.CompactForms : Prop :=
  ∀ i j sp, compactTwin i = some j → specOf i = some sp → ∀ s k w, Clear sp s k w →
    ∃ t w', exec i s = .next t ∧ RanRegs sp sp.dests s k w t w' ∧ exec j s = .next (t.setWave k { w' with pc := w'.pc + 4 })

/-! ### Class 0: control -/

/-- R154, R153, R114: `br` and `brx` with a uniform condition jump when it holds in every lane of the path and fall through when it holds in
none, changing nothing else; a divergent condition raises BRANCH_DIVERGENT with the lanes in which it holds, and a taken `brx` to a
misaligned address MISALIGNED.
R157: `call sd, target` sets S[d] = PC + len, then PC = target; `ret sa` sets PC = S[a]. Neither touches the token stack. -/
def Obligations.BranchesAndCalls : Prop :=
  ((∀ f s k w, Clear (spec0 (tgtLen f.tgt) f.stall [] (condRead f.cond)) s k w →
    let hold : LaneMask := (if f.neg then ~~~ rdM w f.cond.toNat else rdM w f.cond.toNat) &&& w.path
    (hold = w.path → ∃ t w', exec (.br f) s = .next t ∧ RanTo (tgtOf w.pc f.tgt) [] s k w t w' ∧ w'.xa = w.xa) ∧
    (hold ≠ w.path → hold = 0 → ∃ t w', exec (.br f) s = .next t ∧ RanTo (w.pc + w64 (tgtLen f.tgt)) [] s k w t w' ∧ w'.xa = w.xa) ∧
    (hold ≠ w.path → hold ≠ 0 → exec (.br f) s = .next (takeTrap (entryState (spec0 (tgtLen f.tgt) f.stall [] (condRead f.cond)) s k w) k
      (tgtLen f.tgt) { cause := .branchDivergent, info0 := hold.zeroExtend 64, lanes := some w.path }))) ∧
  (∀ f s k w, Clear (spec0 8 f.stall [sOp f.a] (condRead f.cond)) s k w →
    let hold : LaneMask := (if f.neg then ~~~ rdM w f.cond.toNat else rdM w f.cond.toNat) &&& w.path
    (hold = w.path → (rdS w f.a.toNat).toNat % 4 = 0 →
      ∃ t w', exec (.brx f) s = .next t ∧ RanTo (rdS w f.a.toNat) [] s k w t w' ∧ w'.xa = w.xa) ∧
    (hold = w.path → (rdS w f.a.toNat).toNat % 4 ≠ 0 →
      exec (.brx f) s = .next (takeTrap (entryState (spec0 8 f.stall [sOp f.a] (condRead f.cond)) s k w) k 8
        { cause := .misaligned, info0 := rdS w f.a.toNat, info1 := 4, lanes := some w.path })) ∧
    (hold ≠ w.path → hold = 0 → ∃ t w', exec (.brx f) s = .next t ∧ RanTo (w.pc + 8) [] s k w t w' ∧ w'.xa = w.xa) ∧
    (hold ≠ w.path → hold ≠ 0 → exec (.brx f) s = .next (takeTrap (entryState (spec0 8 f.stall [sOp f.a] (condRead f.cond)) s k w) k 8
      { cause := .branchDivergent, info0 := hold.zeroExtend 64, lanes := some w.path })))) ∧
  ((∀ f s k w, Clear (spec0 (tgtLen f.tgt) f.stall [sOp f.d 1 true] []) s k w →
    ∃ t w', exec (.call f) s = .next t ∧ RanTo (tgtOf w.pc f.tgt) [.s f.d.toNat] s k w t w' ∧ w'.xa = w.xa ∧
      rdS w' f.d.toNat = w.pc + w64 (tgtLen f.tgt)) ∧
  (∀ f s k w, Clear (spec0 8 f.stall [sOp f.a] []) s k w →
    ((rdS w f.a.toNat).toNat % 4 = 0 → ∃ t w', exec (.ret f) s = .next t ∧ RanTo (rdS w f.a.toNat) [] s k w t w' ∧ w'.xa = w.xa) ∧
    ((rdS w f.a.toNat).toNat % 4 ≠ 0 → exec (.ret f) s = .next (takeTrap (entryState (spec0 8 f.stall [sOp f.a] []) s k w) k 8
      { cause := .misaligned, info0 := rdS w f.a.toNat, info1 := 4, lanes := some w.path }))))

/-- R31, R155: `br.div` with the stack not full pushes a token: the lanes in which the condition holds go on at the target, the others are
pending at the fall-through; when it holds in none the path falls through with nothing pending. R33: with a full stack and a uniform
condition the path moves whole and nothing is pushed.
R32, R156: `br.ej` with a uniform condition moves the whole path and, with the stack not full, pushes a token with nothing pending.
R32, R33, R35, R36: `br.ej` with a divergent condition, and `br.div` with one and a full stack, eject the minority, the taken lanes when the sides
are equal: each lane of it becomes a continuation thread at its side of the branch with its registers, counted in a join object, and the
majority goes on at its own side with its registers as they stood; R42, R322: without pool blocks for it they wait for a segment, or, past the
queue's declared occupancy, take SPAWN_OVERFLOW (how blocks and segments are counted is the model's, log 33; the order of the two, log 59). With the stack not full `br.ej` pushes a token with
a new object; with a full stack the object is forwarded to the top token's, which counts the lanes. -/
def Obligations.DivergentBranches : Prop :=
  (∀ f s k w, Clear (spec0 (tgtLen f.tgt) f.stall [] (condRead f.cond)) s k w →
    let hold : LaneMask := (if f.neg then ~~~ rdM w f.cond.toNat else rdM w f.cond.toNat) &&& w.path
    let fail : LaneMask := w.path &&& ~~~ hold
    let next : Word := w.pc + w64 (tgtLen f.tgt)
    let rejoin : Word := w.pc + 4 * f.rej.signExtend 64
    (w.tokens.length < 8 → ∃ t w', exec (.brDiv f) s = .next t ∧ RanPath s k w t w' ∧
      (hold ≠ 0 → w'.path = hold ∧ w'.pc = tgtOf w.pc f.tgt ∧
        w'.tokens = w.tokens ++ [{ rejoin := rejoin, entry := w.path, pend := fail, pendPc := next }]) ∧
      (hold = 0 → w'.path = fail ∧ w'.pc = next ∧ w'.tokens = w.tokens ++ [{ rejoin := rejoin, entry := w.path }])) ∧
    (8 ≤ w.tokens.length → hold = 0 ∨ fail = 0 → ∃ t w', exec (.brDiv f) s = .next t ∧ RanPath s k w t w' ∧
      w'.path = w.path ∧ w'.tokens = w.tokens ∧ w'.pc = if hold ≠ 0 then tgtOf w.pc f.tgt else next)) ∧
  (∀ f s k w, Clear (spec0 (tgtLen f.tgt) f.stall [] (condRead f.cond)) s k w →
    let hold : LaneMask := (if f.neg then ~~~ rdM w f.cond.toNat else rdM w f.cond.toNat) &&& w.path
    let fail : LaneMask := w.path &&& ~~~ hold
    let next : Word := w.pc + w64 (tgtLen f.tgt)
    let rejoin : Word := w.pc + 4 * f.rej.signExtend 64
    (hold = 0 ∨ fail = 0 → ∃ t w', exec (.brEj f) s = .next t ∧ RanPath s k w t w' ∧ w'.path = w.path ∧
      (w'.pc = if hold ≠ 0 then tgtOf w.pc f.tgt else next) ∧
      w'.tokens = if w.tokens.length < 8 then w.tokens ++ [{ rejoin := rejoin, entry := w.path }] else w.tokens) ∧
    (hold ≠ 0 → fail ≠ 0 → (∃ g, s.group? (gidOf k) = some g) → w.tokens.length < 8 →
      EjectsOrWaits (.brEj f) (spec0 (tgtLen f.tgt) f.stall [] (condRead f.cond)) s k w hold fail (tgtOf w.pc f.tgt) (fun u x j n =>
        x.tokens = w.tokens ++ [{ rejoin := rejoin, entry := w.path, join := some j }] ∧ joinObj u j = { count := n, rejoin := rejoin })) ∧
    (∀ tok rest, hold ≠ 0 → fail ≠ 0 → (∃ g, s.group? (gidOf k) = some g) → w.tokens = rest ++ [tok] → 8 ≤ w.tokens.length →
      (∀ top, tok.join = some top → top ≠ s.nextJoin ∧ (kfind top s.joins).isSome = true) →
      EjectsOrWaits (.brEj f) (spec0 (tgtLen f.tgt) f.stall [] (condRead f.cond)) s k w hold fail (tgtOf w.pc f.tgt)
        (CountsInTop s tok rest rejoin))) ∧
  (∀ f s k w, Clear (spec0 (tgtLen f.tgt) f.stall [] (condRead f.cond)) s k w →
    let hold : LaneMask := (if f.neg then ~~~ rdM w f.cond.toNat else rdM w f.cond.toNat) &&& w.path
    let fail : LaneMask := w.path &&& ~~~ hold
    ∀ tok rest, hold ≠ 0 → fail ≠ 0 → (∃ g, s.group? (gidOf k) = some g) → w.tokens = rest ++ [tok] → 8 ≤ w.tokens.length →
      (∀ top, tok.join = some top → top ≠ s.nextJoin ∧ (kfind top s.joins).isSome = true) →
      EjectsOrWaits (.brDiv f) (spec0 (tgtLen f.tgt) f.stall [] (condRead f.cond)) s k w hold fail (tgtOf w.pc f.tgt)
        (CountsInTop s tok rest (w.pc + 4 * f.rej.signExtend 64)))

/-- R34, R36, R158: `rejoin` at the top token's REJOIN lets its pending lanes run, or, when none is left and the count of its join object is 0, pops
the token: the lanes of its entry mask that have not exited go on after the `rejoin`; with a count above 0 the wave waits. With no token, in a wave that is no continuation, or at
another address it does nothing.
R35: `rejoin` in a continuation wave whose own stack is empty acts lane by lane: a lane whose object has this REJOIN passes to the object it is
forwarded to, or returns its vector registers to its origin lane, leaves the wave and is taken off the count; the others go on.
R159: `exit` ends the lanes of the current path. While the top token has pending lanes they run next; when lanes of its
entry mask are left, they run after its `rejoin`, once the count of its join object is 0, for which the wave waits; with no token left the wave ends, and with its last wave the group. R41, R159: the exit of a
spawned lane is taken off its family's count, that of a continuation lane off its object's count, and its origin lane exits. -/
def Obligations.RejoinAndExit : Prop :=
  (∀ f s k w, Clear (spec0 8 f.stall [] []) s k w →
    (w.tokens = [] → isCont s k = false → ∃ t w', exec (.rejoin f) s = .next t ∧ RanTo (w.pc + 8) [] s k w t w' ∧ w'.xa = w.xa) ∧
    (∀ tok rest, w.tokens = rest ++ [tok] → tok.rejoin ≠ w.pc →
      ∃ t w', exec (.rejoin f) s = .next t ∧ RanTo (w.pc + 8) [] s k w t w' ∧ w'.xa = w.xa) ∧
    (∀ tok rest, w.tokens = rest ++ [tok] → tok.rejoin = w.pc → tok.pend &&& ~~~ w.exited ≠ 0 →
      ∃ t w', exec (.rejoin f) s = .next t ∧ RanPath s k w t w' ∧ w'.path = tok.pend &&& ~~~ w.exited ∧ w'.pc = tok.pendPc ∧
        w'.tokens = rest ++ [{ tok with pend := 0 }]) ∧
    (∀ tok rest, w.tokens = rest ++ [tok] → tok.rejoin = w.pc → tok.pend &&& ~~~ w.exited = 0 → joinCount s tok.join = 0 →
      tok.entry &&& ~~~ w.exited ≠ 0 →
      ∃ t w', exec (.rejoin f) s = .next t ∧ RanPath s k w t w' ∧ w'.path = tok.entry &&& ~~~ w.exited ∧ w'.pc = tok.rejoin + 8 ∧
        w'.tokens = rest) ∧
    (∀ tok rest, w.tokens = rest ++ [tok] → tok.rejoin = w.pc → tok.pend &&& ~~~ w.exited = 0 → joinCount s tok.join ≠ 0 →
      ∃ t w', exec (.rejoin f) s = .next t ∧ t.wave? k = some w' ∧ w'.wait = .joinCount ∧ w'.path = w.path ∧ w'.pc = w.pc ∧
        w'.tokens = rest ++ [{ tok with pend := 0 }] ∧ SameRegs [] w w')) ∧
  (∀ f s k w, Clear (spec0 8 f.stall [] []) s k w → isCont s k = false → (∀ l, (kget {} l w.lanes).family = 0) →
    (∀ tok rest, w.tokens = rest ++ [tok] → tok.pend &&& ~~~ (w.exited ||| w.path) ≠ 0 →
      ∃ t w', exec (.exit f) s = .next t ∧ t.wave? k = some w' ∧ w'.exited = w.exited ||| w.path ∧
        w'.path = tok.pend &&& ~~~ (w.exited ||| w.path) ∧ w'.pc = tok.pendPc ∧ w'.tokens = rest ++ [{ tok with pend := 0 }] ∧
        SameRegs [] w w') ∧
    (∀ tok rest, w.tokens = rest ++ [tok] → tok.pend &&& ~~~ (w.exited ||| w.path) = 0 → joinCount s tok.join ≠ 0 →
      ∃ t w', exec (.exit f) s = .next t ∧ t.wave? k = some w' ∧ w'.wait = .joinCount ∧ w'.exited = w.exited ||| w.path ∧ w'.path = 0 ∧
        w'.tokens = rest ++ [{ tok with pend := 0 }] ∧ SameRegs [] w w') ∧
    (∀ tok rest, w.tokens = rest ++ [tok] → tok.pend &&& ~~~ (w.exited ||| w.path) = 0 → joinCount s tok.join = 0 →
      tok.entry &&& ~~~ (w.exited ||| w.path) ≠ 0 →
      ∃ t w', exec (.exit f) s = .next t ∧ t.wave? k = some w' ∧ w'.exited = w.exited ||| w.path ∧
        w'.path = tok.entry &&& ~~~ (w.exited ||| w.path) ∧ w'.pc = tok.rejoin + 8 ∧ w'.tokens = rest ∧ SameRegs [] w w') ∧
    (w.tokens = [] → ∃ u x, u = (entryState (spec0 8 f.stall [] []) s k w).setWave k x ∧
      x = { entryWave (spec0 8 f.stall [] []) s w with exited := w.exited ||| w.path, path := 0 } ∧
      exec (.exit f) s = .next (book (spec0 8 f.stall [] []) k (coreOf s k) w false (waveEnd u k)))) ∧
  (∀ s k w g, ksorted s.waves = true → s.wave? k = some w → s.group? (gidOf k) = some g →
    (∀ j x, j ≠ k → gidOf j = gidOf k → s.wave? j = some x → x.ended = true) → g.crew ≤ 1 → (waveEnd s k).group? (gidOf k) = none ∧
      (waveEnd s k).wave? k = none) ∧
  (∀ s k w g, s.wave? k = some w → s.group? (gidOf k) = some g → g.helper = none →
    (∃ j x, j ≠ k ∧ gidOf j = gidOf k ∧ s.wave? j = some x ∧ x.ended = false) → (s.core (coreOf s k)).claims = [] →
      ∃ w', (waveEnd s k).wave? k = some w' ∧ w'.ended = true ∧ w'.path = 0 ∧ w'.tiles = [] ∧ w'.regCount = 0) ∧
  (∀ f s k w, Clear (spec0 8 f.stall [] []) s k w → isCont s k = true → w.tokens = [] →
    ∃ u x, x = { entryWave (spec0 8 f.stall [] []) s w with fixed := [], pend := [], retest := false, decl := 0 } ∧
      u = gcJoins ((lanesOf w.path).foldl (rejoinLane w.pc k) ((entryState (spec0 8 f.stall [] []) s k w).setWave k x)) none ∧
      ∀ y, u.wave? k = some y → exec (.rejoin f) s = .next (if y.path = 0
        then book (spec0 8 f.stall [] []) k (coreOf s k) w false (exitLoop (exitFuel u k) u k)
        else book (spec0 8 f.stall [] []) k (coreOf s k) w true u)) ∧
  (∀ p k s l w i j, s.wave? k = some w → kget {} l w.lanes = i → i.join = some j →
    ((joinObj s j).rejoin ≠ p → rejoinLane p k s l = s) ∧
    (∀ d, (joinObj s j).rejoin = p → (joinObj s j).forward = some d →
      rejoinLane p k s l = s.setWave k { w with lanes := kset l { i with join := some d } w.lanes }) ∧
    (∀ o, l < 32 → (joinObj s j).rejoin = p → (joinObj s j).forward = none → i.originWave ≠ k → s.wave? i.originWave = some o →
      i.originLane < 32 → ∃ o' w', (rejoinLane p k s l).wave? i.originWave = some o' ∧ (rejoinLane p k s l).wave? k = some w' ∧
        (∀ r, r < w.regCount → r < o.regCount → rdV o' r i.originLane = rdV w r l) ∧
        (∀ r m, m < 32 → m ≠ i.originLane → rdV o' r m = rdV o r m) ∧
        (kfind j s.joins ≠ none → (joinObj (rejoinLane p k s l) j).count = (joinObj s j).count - 1) ∧
        (∀ m, m < 32 → (w'.path.getLsbD m = true ↔ w.path.getLsbD m = true ∧ m ≠ l) ∧
          (w'.present.getLsbD m = true ↔ w.present.getLsbD m = true ∧ m ≠ l)))) ∧
  (∀ f s k w, Clear (spec0 8 f.stall [] []) s k w → ∃ u x v, u = (entryState (spec0 8 f.stall [] []) s k w).setWave k x ∧
      x = { entryWave (spec0 8 f.stall [] []) s w with exited := w.exited ||| w.path, path := 0 } ∧
      v = (lanesOf w.path).foldl (fun z l => if isCont z k then contLaneExit (z.waves.length + 1) z k l else laneFamilyExit z k l) u ∧
      exec (.exit f) s = .next (parkJoined s k (book (spec0 8 f.stall [] []) k (coreOf s k) w false (exitLoop (exitFuel v k) v k)))) ∧
  (∀ s k w g l a, s.wave? k = some w → s.group? (gidOf k) = some g → (kget {} l w.lanes).family ≠ 0 →
    checkObj s { tenant := g.tenant } (kget {} l w.lanes).family 8 8 { rd := true, wr := true } = .ok a →
    laneFamilyExit s k l = wrN (touch s g.tenant (kget {} l w.lanes).family true) a 8
      (rdN s a 8 / 2 ^ 32 * 2 ^ 32 + (rdN s a 8 % 2 ^ 32 + 2 ^ 32 - 1) % 2 ^ 32)) ∧
  (∀ n s k w l j, s.wave? k = some w → (kget {} l w.lanes).join = some j → (kget {} l w.lanes).originWave ≠ k →
    isCont s (kget {} l w.lanes).originWave = false → ∃ u, contLaneExit (n + 1) s k l =
        laneFamilyExit u (kget {} l w.lanes).originWave (kget {} l w.lanes).originLane ∧
      u.joins = (subJoin s (joinEnd s (s.joins.length + 1) j) 1).joins ∧
      u.waves = ((s.setWave k { w with lanes := kset l { kget {} l w.lanes with blocks := 0, join := none } w.lanes }).modWave
        (kget {} l w.lanes).originWave (fun o => { o with exited := o.exited ||| maskOf (fun m => m == (kget {} l w.lanes).originLane) })).waves)

/-! ### Exceptions and class 13 -/

/-- R124 steps 4 to 6, R123, R183, R126: every instruction of a wave that names a register that does not exist, a privileged special register
(in a wave that is no agent), or (with CHECK set) a result given too small a stall count takes its cause before any effect, in this order; one
that names a pending token then waits for it (R86). So `csr.get` of an index from 0x100 takes PRIVILEGE in every wave but its core's agent.
R123: a vector register at or above 1,536 or the wave's register count, a scalar register at or above 128, a mask register at or above 8
and a write of `m0` are out of range, on the highest register of the operand; nothing else is.
R243, R242: every instruction of class 11 needs all lanes active, or raises ILLEGAL_CONVERGENCE; all but `cb.load` need a matrix group, or
raise ACC_HANDLE with REASON 6. Both come before anything else the instruction does.
R189: a wave instruction of the memory chapters with Active empty has no effect: it issues, and changes nothing but counters and its PC. (Which register
the record of a stall count names where several were given too few cycles is log 101's; INFO0 of REASON 6 where no handle is named, log 104's.) -/
def Obligations.ChecksBeforeEffects : Prop :=
  (∀ i sp, specOf i = some sp → ∀ s k w, s.cur = some k → s.wave? k = some w → w.wait ≠ .claim →
    (∀ o t, sp.opnds.find? (fun o => (regBad w o).isSome) = some o → regBad w o = some t →
      exec i s = .next (takeTrap s k sp.len { t with lanes := some (activeOf w sp.mask) })) ∧
    (∀ n, (∀ o ∈ sp.opnds, regBad w o = none) → sp.priv = some n → agentWave s k = false →
      exec i s = .next (takeTrap s k sp.len { cause := .privilege, info0 := BitVec.ofNat 64 n, lanes := some (activeOf w sp.mask) })) ∧
    (∀ r d, (∀ o ∈ sp.opnds, regBad w o = none) → sp.priv = none ∨ agentWave s k = true → undersized w (sp.touched ++ sp.cw) = some (r, d) →
      modeCheck w.mode = true →
      exec i s = .next (takeTrap s k sp.len
        { cause := .stallUndersized, info0 := BitVec.ofNat 64 (r.kind * 2 ^ 56 + r.idx), info1 := BitVec.ofNat 64 d,
          lanes := some (activeOf w sp.mask) })) ∧
    ((∀ o ∈ sp.opnds, regBad w o = none) → sp.priv = none ∨ agentWave s k = true → early sp w = false → tokenBlocked sp w = true →
      exec i s = .next (parkBlockedOwner (s.setWave k { w with perfHeld := w.perfHeld + s.held, wait := .token, waitArg := 0 }) k))) ∧
  (∀ f s k w, s.cur = some k → s.wave? k = some w → 0x100 ≤ f.idx.toNat → f.d.toNat < 128 → agentWave s k = false →
    exec (.csrGet f) s = .next (takeTrap s k 8 { cause := .privilege, info0 := BitVec.ofNat 64 f.idx.toNat, lanes := some w.path })) ∧
  (∀ w r n dest, 0 < n →
    (regBad w { reg := .v r, n := n, dest := dest } = none ↔ r + n - 1 < 1536 ∧ r + n - 1 < w.regCount) ∧
    (regBad w { reg := .s r, n := n, dest := dest } = none ↔ r + n - 1 < 128) ∧
    (regBad w { reg := .m r, n := n, dest := dest } = none ↔ r + n - 1 < 8 ∧ (dest = true → r ≠ 0)) ∧
    (∀ o t, regBad w o = some t → t.cause = .regRange ∧ t.info0 = BitVec.ofNat 64 o.reg.kind ∧ t.info1 = BitVec.ofNat 64 (o.reg.idx + o.n - 1))) ∧
  (∀ i h sp ad grp, matrixSpec i = some (h, sp, ad, grp) → ∀ s k w, Clear sp s k w →
    (activeOf w h.mask ≠ BitVec.allOnes 32 → exec i s = .next (takeTrap (entryState sp s k w) k sp.len
      { cause := .illegalConvergence, lanes := some (activeOf w h.mask) })) ∧
    (activeOf w h.mask = BitVec.allOnes 32 → grp = true → isMatrix s k = false → exec i s = .next (takeTrap (entryState sp s k w) k sp.len
      { cause := .accHandle, reason := 6, info0 := w64 ad, lanes := some (BitVec.allOnes 32) }))) ∧
  (∀ i h sp, waveOnly i = some (h, sp) → ∀ s k w, Clear sp s k w → activeOf w h.mask = 0 → w.wait ≠ .claim →
    ∃ t w', exec i s = .next t ∧ RanRegs sp [] s k w t w' ∧ w'.xa = w.xa)

/-- R289, R290: a trap parks the trapping wave's group, a group of no crew, as a faulted image: its cause, its trapping wave, that wave's PC
and the instruction's length are kept, and it is on no core; the wave's registers, path and PC stay as they stood. Its record goes first to the
error stream of the group's queue: cause, reason, the core, the tenant, the lanes, the wave's PC, the task, the group, its image's address and the
INFO words. R374, R372: a stream that is set and not full takes an entry at its next index and counts it; one that is full holds it.
R265: a trap in a member of a crew parks every member so, with the same trapping wave, its matrix operations to begin anew. R297: an uncorrectable
error in a group with REPLAY writes no record: the group, off its core, holds no wave, local store or matrix operation and starts again from its
launch image under its identifier, and the other members of its crew leave their cores with it as saved images (log 88).
R289, Table 17.4: the record of a trap holds its cause and reason, the core, the tenant, the lanes it names, the address of the trapping
instruction, the task, the group, and the INFO words, each in its field. (That a continuation wave's fault is its adopted owner's is log 96's; what a
replayed group drops, log 98's. Which streams exist is log 29's; that the record's crew bit means a crew of more than one, log 50's.) -/
def Obligations.TakingAnException : Prop :=
  (∀ s k w g len t, s.wave? k = some w → s.group? (gidOf k) = some g → g.crew ≤ 1 → g.origin = .grid → g.helper = none →
    ¬ (t.cause = .eccUncorrectable ∧ g.replay = true) → (∀ p ∈ s.groups, p.2.origin ≠ .continuation (gidOf k)) →
    ∃ g' w', (takeTrap s k len t).group? (gidOf k) = some g' ∧ (takeTrap s k len t).wave? k = some w' ∧
      g'.place = .faulted t.cause ∧ g'.faultWave = k ∧ g'.faultPc = w.pc ∧ g'.faultLen = len ∧ g'.fetchFault = t.fetch ∧
      w' = { w with fixed := [], pend := [], retest := false, evicted := false, watch := w'.watch }) ∧
  (∀ s k w g len t m x, s.wave? k = some w → s.group? (gidOf k) = some g → g.origin = .grid → 1 < g.crew →
    ¬ (t.cause = .eccUncorrectable ∧ g.replay = true) → s.group? m = some x → x.seq = g.seq → x.crewLead = g.crewLead → x.origin = .grid →
    ∃ x', (takeTrap s k len t).group? m = some x' ∧ x'.place = .faulted t.cause ∧ x'.faultWave = k ∧ x'.faultPc = w.pc ∧ x'.faultLen = len ∧
      x'.fetchFault = t.fetch ∧ (x.mq.length = x'.mq.length ∧ ∀ e ∈ x'.mq, e.started = false)) ∧
  (∀ s k w g len t, s.wave? k = some w → s.group? (gidOf k) = some g → g.origin = .grid → t.cause = .eccUncorrectable → g.replay = true →
    (∃ g', (takeTrap s k len t).group? (gidOf k) = some g' ∧ g'.place = .saved ∧ g'.launchFault = true ∧ g'.ls = [] ∧ g'.mq = [] ∧ g'.seq = g.seq ∧
      g'.groupid = g.groupid) ∧
    (∀ j, gidOf j = gidOf k → (takeTrap s k len t).wave? j = none) ∧ (takeTrap s k len t).streams = s.streams ∧
    (∀ m x, 1 < g.crew → m ≠ gidOf k → s.group? m = some x → x.seq = g.seq → x.crewLead = g.crewLead → x.origin = .grid →
      ∃ x', (takeTrap s k len t).group? m = some x' ∧ x'.place = .saved ∧ x'.launchFault = x.launchFault)) ∧
  (∀ s k w g len t, s.wave? k = some w → s.group? (gidOf k) = some g → ¬ (t.cause = .eccUncorrectable ∧ g.replay = true) →
    let adopted := ((s.group? (originGroup s (gidOf k))).bind (·.helper)).isSome
    ∃ r, takeTrap s k len t = parkFaulted (errorRecord s (g.ring.getD 0) r) k t.cause w.pc len t.fetch ∧
      r = { cause := t.cause, reason := t.reason, core := g.core?.getD g.lastCore, tenant := g.tenant
            lanes := t.lanes.getD w.path, pc := w.pc, seq := g.seq, gid := gidOf k, adopted := adopted, crew := decide (1 < g.crew), park := g.img + w64 w.waveid,
            info0 := t.info0, info1 := t.info1 }) ∧
  (∀ s q r st, kfind (streamKey (s.ring q).func (s.ring q).estream) s.streams = some st → st.kind ≠ 3 →
    (st.full = false → st.held = [] → ∃ st', kfind (streamKey (s.ring q).func (s.ring q).estream) (errorRecord s q r).streams = some st' ∧
      st'.pi = st.pi + 1 ∧ st'.ci = st.ci ∧
      (st.piaddr.toNat + 8 ≤ st.base.toNat + 64 * (st.pi.toNat % 2 ^ st.log2n) ∨ st.base.toNat + 64 * (st.pi.toNat % 2 ^ st.log2n) + 64 ≤ st.piaddr.toNat →
        rdN (errorRecord s q r) (.host (st.base.toNat + 64 * (st.pi.toNat % 2 ^ st.log2n))) 64 = (r.bits s.ns).toNat) ∧
      rdN (errorRecord s q r) (.host st.piaddr.toNat) 8 = (st.pi + 1).toNat) ∧
    (st.full = true ∨ st.held ≠ [] → ∃ m, m = kset (streamKey (s.ring q).func (s.ring q).estream)
      { st with held := st.held ++ [(r.bits s.ns, r.irq)] } s.streams ∧ errorRecord s q r = { s with streams := m })) ∧
  (∀ (r : Record) ns, r.reason < 2 ^ 8 → r.core < 2 ^ 8 → r.tenant < 2 ^ 6 → r.seq < 2 ^ 64 → r.gid < 2 ^ 62 → ns < 2 ^ 64 →
    (r.bits ns).extractLsb' 0 8 = BitVec.ofNat 8 r.cause.code ∧ (r.bits ns).extractLsb' 8 8 = BitVec.ofNat 8 r.reason ∧
    (r.bits ns).extractLsb' 16 8 = BitVec.ofNat 8 r.core ∧ (r.bits ns).extractLsb' 24 6 = BitVec.ofNat 6 r.tenant ∧
    (r.bits ns).extractLsb' 30 2 = 0 ∧ (r.bits ns).extractLsb' 32 32 = r.lanes ∧ (r.bits ns).extractLsb' 64 64 = r.pc ∧
    (r.bits ns).extractLsb' 128 64 = BitVec.ofNat 64 r.seq ∧ (r.bits ns).extractLsb' 192 62 = BitVec.ofNat 62 r.gid ∧
    (r.bits ns).getLsbD 254 = r.adopted ∧ (r.bits ns).getLsbD 255 = r.crew ∧
    (r.bits ns).extractLsb' 256 64 = r.park ∧ (r.bits ns).extractLsb' 320 64 = r.info0 ∧ (r.bits ns).extractLsb' 384 64 = r.info1 ∧
    (r.bits ns).extractLsb' 448 64 = BitVec.ofNat 64 ns)

/-- R160, R181, R101, R180, R185: `brk` takes BREAKPOINT with its code; `mode.set` sets `mode` to S[a], or takes RESERVED_FIELD with REASON 1 at
the lowest reserved bit set; `trap` parks its wave alone, in `trap`, until a reply, and gives its record (R292, Table 17.6) in two entries to the
system-call stream of its queue's function, if it has one; `sleep.until` goes on once the time counter has reached
S[a], and waits before.
R181, R182, R183, R186, R185, Tables 11.6 and 11.8: reading `mode`, the time counter, the special registers and the counters, and
`yield`, which marks the wave youngest of its class and changes nothing else. (The model's choices: the cycles and the time that a turn takes, log 4;
the cycles that the scoreboard held the wave, counter 0x002, log 14; which stream a system call takes, log 29; the time counter past 2^64 ns, log 99;
the depth that a gathered wave reads, log 22; that a wave of an agent slot is
one whose group is marked so, log 27.) -/
def Obligations.SystemRegisters : Prop :=
  ((∀ f s k w, Clear (spec0 8 f.stall [] []) s k w → exec (.brk f) s = .next (takeTrap (entryState (spec0 8 f.stall [] []) s k w) k 8
    { cause := .breakpoint, info0 := f.code.zeroExtend 64, lanes := some w.path })) ∧
  (∀ f s k w, Clear (specSys 8 f.stall [sOp f.a]) s k w →
    ((rdS w f.a.toNat).extractLsb' 5 59 = 0 → ∃ t w', exec (.modeSet f) s = .next t ∧ t.wave? k = some w' ∧ w'.mode = rdS w f.a.toNat ∧
      w'.pc = w.pc + 8 ∧ w' = { wavePart w w' with mode := w'.mode } ∧ SameRegs [] w w' ∧ t = { s with waves := t.waves, cores := t.cores }) ∧
    (∀ b, 5 ≤ b → b < 64 → (rdS w f.a.toNat).getLsbD b = true → (∀ c, 5 ≤ c → c < b → (rdS w f.a.toNat).getLsbD c = false) →
      exec (.modeSet f) s = .next (takeTrap (entryState (specSys 8 f.stall [sOp f.a]) s k w) k 8
        { cause := .reservedField, reason := 1, info0 := infoParcels (encode (.modeSet f)), info1 := BitVec.ofNat 64 b, lanes := some w.path }))) ∧
  (∀ f s k w g, Clear { specSys 12 f.stall [] with reads := (List.range 8).map RegRef.s } s k w → s.group? (gidOf k) = some g →
    ∃ t w', exec (.trap f) s = .next t ∧ t.wave? k = some w' ∧ w'.wait = .trap ∧ w'.pc = w.pc + 12 ∧ SameRegs [] w w' ∧
      w'.path = w.path ∧ w'.tokens = w.tokens ∧ w'.mode = w.mode ∧
      (NoHelper s k → let func := (s.ring (g.ring.getD 0)).func
        let e := entryState { specSys 12 f.stall [] with reads := (List.range 8).map RegRef.s } s k w
        let r := syscallBits e w g (w.pc + 12) f.code
        (syscallStream s func = none → t.streams = s.streams ∧ t.host = s.host) ∧
        (∀ n, syscallStream s func = some n → let u := streamEntry (streamEntry e func n (r.extractLsb' 0 512) false) func n (r.extractLsb' 512 512) false
          t.streams = u.streams ∧ t.host = u.host))) ∧
  (∀ s w g rpc code, let r := syscallBits s w g rpc code
    r.extractLsb' 0 16 = code ∧ r.extractLsb' 16 6 = BitVec.ofNat 6 g.tenant ∧ r.extractLsb' 22 42 = 0 ∧ r.extractLsb' 64 64 = rpc ∧
    r.extractLsb' 128 64 = g.img + w64 w.waveid ∧ r.extractLsb' 192 64 = w64 g.seq ∧ r.extractLsb' 768 256 = 0 ∧
    ∀ n, n < 8 → r.extractLsb' (256 + 64 * n) 64 = rdS w n) ∧
  (∀ f s k w, Clear (specSys 8 f.stall [sOp f.a]) s k w →
    ((rdS w f.a.toNat).toNat ≤ s.time / 2 ^ 32 → ∃ t w', exec (.sleepUntil f) s = .next t ∧
      RanRegs (specSys 8 f.stall [sOp f.a]) [] s k w t w' ∧ w'.xa = w.xa) ∧
    (s.time / 2 ^ 32 < (rdS w f.a.toNat).toNat → ∃ t w', exec (.sleepUntil f) s = .next t ∧ t.wave? k = some w' ∧ w'.wait = .sleep ∧
      w'.waitArg = rdS w f.a.toNat ∧ w'.pc = w.pc ∧ SameRegs [] w w'))) ∧
  ((∀ f s k w, Clear (specSys 8 f.stall [sOp f.d 1 true]) s k w → ∃ t w', exec (.modeGet f) s = .next t ∧
    RanRegs (specSys 8 f.stall [sOp f.d 1 true]) [.s f.d.toNat] s k w t w' ∧ rdS w' f.d.toNat = w.mode) ∧
  (∀ f s k w, Clear (specSys 8 f.stall [sOp f.d 2 true]) s k w → ∃ t w', exec (.timeGet f) s = .next t ∧
    RanRegs (specSys 8 f.stall [sOp f.d 2 true]) [.s f.d.toNat, .s (f.d.toNat + 1)] s k w t w' ∧
    rdS w' f.d.toNat = BitVec.ofNat 64 (s.time / 2 ^ 32) ∧ rdS w' (f.d.toNat + 1) = BitVec.ofNat 64 (s.time % 2 ^ 32)) ∧
  (∀ f s k w g, f.idx.toNat < 0x100 → f.idx.toNat ≠ 8 → s.group? (gidOf k) = some g → Clear (specSys 8 f.stall [sOp f.d 1 true]) s k w →
    ∃ t w', exec (.csrGet f) s = .next t ∧ RanRegs (specSys 8 f.stall [sOp f.d 1 true]) [.s f.d.toNat] s k w t w' ∧
      (f.idx = 0 → rdS w' f.d.toNat = BitVec.ofNat 64 w.role) ∧ (f.idx = 1 → rdS w' f.d.toNat = BitVec.ofNat 64 w.waveid) ∧
      (f.idx = 2 → rdS w' f.d.toNat = BitVec.ofNat 64 g.groupid) ∧ (f.idx = 3 → rdS w' f.d.toNat = w.status) ∧
      (f.idx = 4 → rdS w' f.d.toNat = BitVec.ofNat 64 g.seq) ∧ (f.idx = 5 → rdS w' f.d.toNat = BitVec.ofNat 64 (coreOf s k)) ∧
      (∀ n, n < 4 → f.idx.toNat = 0x11 + n → rdS w' f.d.toNat = s.caps.cluster.getD n 0) ∧ (f.idx = 6 → rdS w' f.d.toNat = BitVec.ofNat 64 g.depth) ∧
      (f.idx = 7 → rdS w' f.d.toNat = BitVec.ofNat 64 w.regCount) ∧ (f.idx = 9 → rdS w' f.d.toNat = BitVec.ofNat 64 g.tenant) ∧
      (f.idx = 0x10 → rdS w' f.d.toNat = s.caps.dev) ∧ (f.idx = 0x15 → rdS w' f.d.toNat = s.caps.spare)) ∧
  (∀ f s k w, f.idx.toNat = 8 → Clear (specSys 8 f.stall [vOp f.d 1 true]) s k w → ∃ t w', exec (.csrGet f) s = .next t ∧
    RanRegs (specSys 8 f.stall [vOp f.d 1 true]) [.v f.d.toNat] s k w t w' ∧
    ∀ l, l < 32 → rdV w' f.d.toNat l = if w.path.getLsbD l then BitVec.ofNat 64 l else rdV w f.d.toNat l) ∧
  (∀ f s k w sp, 0x100 ≤ f.idx.toNat → sp = { specSys 8 f.stall [sOp f.d 1 true] with priv := some f.idx.toNat } → Clear sp s k w →
    ∃ t w', exec (.csrGet f) s = .next t ∧ RanRegs sp [.s f.d.toNat] s k w t w' ∧ rdS w' f.d.toNat = privValue s (coreOf s k) f.idx.toNat) ∧
  (∀ s c, (let x := privValue s c 0x100; x.extractLsb' 0 16 = BitVec.ofNat 16 (s.core c).starveM1 ∧ x.extractLsb' 16 16 = BitVec.ofNat 16 (s.core c).quantumM1 ∧
        x.extractLsb' 32 16 = BitVec.ofNat 16 (s.core c).gatherM1) ∧
    (let x := privValue s c 0x200; x.extractLsb' 0 2 = BitVec.ofNat 2 s.devCfg.throttle ∧ x.extractLsb' 16 16 = BitVec.ofNat 16 s.devCfg.tmax ∧
        x.extractLsb' 32 16 = BitVec.ofNat 16 s.devCfg.powerW) ∧
    (∀ i, i ∈ [0x106, 0x107, 0x10B, 0x13F, 0x1C0, 0x1FF, 0x201, 0x7FF] → privValue s c i = 0)) ∧
  (∀ f s k w sp, sp = specSys 8 f.stall [sOp f.d 1 true] → Clear sp s k w → ∃ t w', exec (.perfGet f) s = .next t ∧
    RanRegs sp [.s f.d.toNat] s k w t w' ∧ rdS w' f.d.toNat = (if f.idx = 0 then BitVec.ofNat 64 w.perfResident
      else if f.idx = 1 then BitVec.ofNat 64 w.perfIssued else if f.idx = 2 then BitVec.ofNat 64 (entryWave sp s w).perfHeld
      else if f.idx = 0x10 then BitVec.ofNat 64 s.cycle else if f.idx = 0x11 then BitVec.ofNat 64 (s.core (coreOf s k)).issued
      else if f.idx = 0x20 then BitVec.ofNat 64 (s.core (coreOf s k)).pathChanges
      else if f.idx = 0x21 then BitVec.ofNat 64 ((entryState sp s k w).core (coreOf s k)).fixups
      else if f.idx = 0x22 then BitVec.ofNat 64 (s.core (coreOf s k)).ejected
      else if f.idx = 0x23 then BitVec.ofNat 64 (s.core (coreOf s k)).adoptions
      else if f.idx = 0x24 then BitVec.ofNat 64 (s.core (coreOf s k)).claimsQueued else 0)) ∧
  (∀ f s k w, Clear (specSys 8 f.stall []) s k w → ∃ t w', exec (.yield f) s = .next t ∧ t.wave? k = some w' ∧
    t = { s with waves := t.waves, cores := t.cores, nextYield := s.nextYield + 1 } ∧ (∀ j, j ≠ k → t.wave? j = s.wave? j) ∧
    w' = wavePart w w' ∧ SameRegs [] w w' ∧ w'.xa = w.xa ∧ w'.pc = w.pc + 8 ∧ w'.yielded = some s.nextYield))

/-! ### Classes 7 and 8: memory -/

/-- R60, R189, R190: the checks run over every lane of Active before any access is made. When one fails, the instruction makes none: it takes
the cause of the first check that any lane fails, for the lowest lane that fails it. R199: a tagged instruction that issues again inside its Block
checks the lanes it has still to perform. -/
def Obligations.AccessChecksComeFirst : Prop :=
  (∀ i a, laneAcc i = some a → ∀ s k w, Clear a.sp s k w → w.done = 0 → ∀ t,
    checkLanes s (whoOf s k) (a.lanes w) a.size a.size a.need a.extra = .error t →
    exec i s = .next (takeTrap (entryState a.sp s k w) k a.sp.len (t.withLanes a.sp w))) ∧
  (∀ i a, (∃ f, i = .ldWf f ∨ i = .ldWfe f) ∨ (∃ f, i = .stWe f ∨ i = .stF f) → laneAcc i = some a → ∀ s k w, Clear a.sp s k w → ∀ t,
    checkLanes s (whoOf s k) ((a.lanes w).filter (fun p => !w.done.getLsbD p.1)) a.size a.size a.need a.extra = .error t →
    exec i s = .next (takeTrap (entryState a.sp s k w) k a.sp.len (t.withLanes a.sp w))) ∧
  (∀ s who xs size align need x t, checkLanes s who xs size align need x = .error t →
    ∃ pre p post e, xs = pre ++ p :: post ∧ checkOne s who p.2 size align need x = .error e ∧ t = e.trap ∧
      (∀ q ∈ pre, ∀ f, checkOne s who q.2 size align need x = .error f → e.stage < f.stage) ∧
      (∀ q ∈ post, ∀ f, checkOne s who q.2 size align need x = .error f → e.stage ≤ f.stage)) ∧
  (∀ s who va size align need x e, checkOne s who va size align need x = .error e →
    (va % align ≠ 0 → e = { stage := 0, cause := .misaligned, info0 := w64 va, info1 := w64 size }) ∧
    (va % align = 0 → ∀ f, resolve s who va size need = .error f → e = f) ∧
    (va % align = 0 → ∀ l, resolve s who va size need = .ok l → ∀ f, extraFail va x = some f → e = f) ∧
    (va % align = 0 → ∀ l, resolve s who va size need = .ok l → extraFail va x = none →
      poisoned s l size (need.rd || need.ex) = true ∧ e = { stage := 6, cause := .eccUncorrectable, info0 := w64 va }))

/-- R193, R190: `ld` and `ld.l` set V[d], in every lane of Active, to the element at the lane's address, extended by type; the other lanes
keep V[d] and nothing is stored.
R196, R90, R59: `ld.ro` is such a load whose element comes whole from memory, or whole from a line of 64 bytes that the issuing core's read-only
cache held (log 6: which of them, and that lines are 64 bytes, is the model's); R69: lanes of one address read one value. (Also the model's: a byte
nothing has written reads 0, log 1; the result stands in the register at once, marked pending, log 13; which translation is used, log 7; that an
acquire of device scope empties the read-only cache whatever the window, log 100.)
R194, R69, R190: `st` and `st.l` store the low bytes of V[b], in every lane of Active, at the lane's address; where lanes store to one byte, the
highest lane's value stands. No other byte changes, and no register. -/
def Obligations.LaneLoadsAndStores : Prop :=
  (∀ i f a, i = .ld f ∨ i = .ldL f → laneAcc i = some a → ∀ s k w place, Clear a.sp s k w → a.Passes s k w place →
    ∃ t w', exec i s = .next t ∧ RanMem a.sp [.v f.d.toNat] [] [] (a.entries s k w false) (memInv f.mem) s k w t w' ∧ SameWait w w' ∧ w'.xa = w.xa ∧
      ∀ l, l < 32 → rdV w' f.d.toNat l =
        if (activeOf w f.h.mask).getLsbD l then extTy f.mem.ty (rdN s (place l) a.size) else rdV w f.d.toNat l) ∧
  (∀ f a, laneAcc (.ldRo f) = some a → ∀ s k w place, Clear a.sp s k w → a.Passes s k w place →
    ∃ t w', exec (.ldRo f) s = .next t ∧ t.wave? k = some w' ∧ MemSame [] [] (a.entries s k w false) s t ∧ (∀ j, j ≠ k → t.wave? j = s.wave? j) ∧
      w' = wavePart w w' ∧ w'.xa = w.xa ∧ SameRegs [.v f.d.toNat] w w' ∧ w'.pc = w.pc + w64 a.sp.len ∧
      (∀ l, l < 32 → (activeOf w f.h.mask).getLsbD l = false → rdV w' f.d.toNat l = rdV w f.d.toNat l) ∧
      (∀ l, l < 32 → (activeOf w f.h.mask).getLsbD l = true → rdV w' f.d.toNat l = extTy f.mem.ty (rdN t (place l) a.size) ∨
        ∃ b ∈ (s.core (coreOf s k)).roCache, b.at_ = (place l).line.1 ∧ b.bytes.length = 64 ∧ roSince s w.key.seq < b.stamp ∧
          rdV w' f.d.toNat l = extTy f.mem.ty (leNat ((b.bytes.drop (place l).line.2).take a.size))) ∧
      (∀ p ∈ a.lanes w, ∀ q ∈ a.lanes w, p.2 = q.2 → rdV w' f.d.toNat p.1 = rdV w' f.d.toNat q.1) ∧
      (∀ c, c ≠ coreOf s k → (t.core c).roCache = (s.core c).roCache)) ∧
  (∀ i f a, i = .st f ∨ i = .stL f → laneAcc i = some a → ∀ s k w place, Clear a.sp s k w → a.Passes s k w place →
    ∃ t w', exec i s = .next t ∧ RanMem a.sp [] (a.ranges w place) [] (a.entries s k w true) false s k w t w' ∧ SameWait w w' ∧ w'.xa = w.xa ∧
      ∀ l, l < 32 → (activeOf w f.h.mask).getLsbD l = true → ∀ i, i < a.size →
        (∀ m, l < m → m < 32 → (activeOf w f.h.mask).getLsbD m = true → ∀ j, j < a.size → ((place m).plus j).cell ≠ ((place l).plus i).cell) →
        rdByte t ((place l).plus i) = (rdV w f.b.toNat l).extractLsb' (8 * i) 8)

/-- R195, R197, R132: `ld.s` and `st.s` and their compact forms move one element between S and memory, when Active is not empty, or take the
failed check's cause; `pf` changes nothing. (That an acquire of device scope empties the read-only cache whatever the window is the model's,
log 100.) -/
def Obligations.ScalarLoadsAndStores : Prop :=
  let load (i : Instr) (h : Hd) (len : Nat) (d a : Field11) (m : MemW) (o : Off) : Prop :=
    let sp := specM h len [sOp d 1 true, sOp a]
    let n := m.ty.width / 8
    ∀ s k w, Clear sp s k w → let va := addrOf (rdS w a.toNat) o
      (activeOf w h.mask = 0 → ∃ t w', exec i s = .next t ∧ RanRegs sp [] s k w t w' ∧ w'.xa = w.xa) ∧
      (activeOf w h.mask ≠ 0 → ∀ e, checkOne s (whoOf s k) va n n needRd .plain = .error e →
        exec i s = .next (takeTrap (entryState sp s k w) k len (e.trap.withLanes sp w))) ∧
      (activeOf w h.mask ≠ 0 → ∀ l, checkOne s (whoOf s k) va n n needRd .plain = .ok l →
        ∃ t w', exec i s = .next t ∧ RanMem sp [.s d.toNat] [] [] (entriesOf s (tenantOf s k) va) (memInv m) s k w t w' ∧ SameWait w w' ∧
          w'.xa = w.xa ∧ rdS w' d.toNat = extTy m.ty (rdN s l n))
  let store (i : Instr) (h : Hd) (len : Nat) (a b : Field11) (m : MemW) (o : Off) : Prop :=
    let sp := specM h len [sOp a, sOp b]
    let n := m.ty.width / 8
    ∀ s k w, Clear sp s k w → let va := addrOf (rdS w a.toNat) o
      (activeOf w h.mask = 0 → ∃ t w', exec i s = .next t ∧ RanRegs sp [] s k w t w' ∧ w'.xa = w.xa) ∧
      (activeOf w h.mask ≠ 0 → ∀ e, checkOne s (whoOf s k) va n n needWr .plain = .error e →
        exec i s = .next (takeTrap (entryState sp s k w) k len (e.trap.withLanes sp w))) ∧
      (activeOf w h.mask ≠ 0 → ∀ l, checkOne s (whoOf s k) va n n needWr .plain = .ok l →
        ∃ t w', exec i s = .next t ∧ RanMem sp [] [(l, n)] [] (entriesOf s (tenantOf s k) va) false s k w t w' ∧ SameWait w w' ∧ w'.xa = w.xa ∧
          ∀ j, j < n → rdByte t (l.plus j) = (rdS w b.toNat).extractLsb' (8 * j) 8)
  (∀ f, load (.ldS f) f.h (offLen f.off) f.d f.a f.mem f.off) ∧
  (∀ f, load (.ldSB64Compact f) { mask := 0, stall := f.stall.zeroExtend 4 } 4 (f.d.zeroExtend 11) (f.a.zeroExtend 11)
    { sem := .plain, scp := .wave, ty := .b64 } .none) ∧
  (∀ f, store (.stS f) f.h (offLen f.off) f.a f.b f.mem f.off) ∧
  (∀ f, store (.stSB64Compact f) { mask := 0, stall := f.stall.zeroExtend 4 } 4 (f.a.zeroExtend 11) (f.b.zeroExtend 11)
    { sem := .plain, scp := .wave, ty := .b64 } .none) ∧
  (∀ f s k w, Clear (specM f.h (offLen f.off) [vOp f.a]) s k w →
    ∃ t w', exec (.pf f) s = .next t ∧ RanRegs (specM f.h (offLen f.off) [vOp f.a]) [] s k w t w' ∧ w'.xa = w.xa)

/-- R198, R199, Table 13.4: with the tag it waits for at every word not yet done, and no word named by two lanes, `ld.wf` loads, `ld.wfe`
loads and empties, `st.we` stores and fills, and the wave's status becomes 0; `st.f` stores and fills whatever the tags were, the highest
lane of a word standing. Lanes already done are not performed again.
R201, Table 13.4: `tag.get` gives each lane of Active 1 when its word's tag is full and 0 when empty; `tag.set` sets the tag to bit 0 of
V[b], the highest lane of a word standing. Neither touches data. (The model's: results stand at once, marked pending, log 13; which translation is
used, log 7; that an acquire of device scope on local store empties the read-only cache, log 100.) -/
def Obligations.TaggedAccesses : Prop :=
  (let todo (a : LaneAcc) (w : Wave) : List (Nat × Nat) := (a.lanes w).filter (fun p => !w.done.getLsbD p.1)
  let ranges (a : LaneAcc) (w : Wave) (place : Nat → Loc) : List (Loc × Nat) := (todo a w).map (fun p => (place p.1, a.size))
  let passes (a : LaneAcc) (s : State) (k : Nat) (w : Wave) (place : Nat → Loc) : Prop :=
    ∀ p ∈ todo a w, checkOne s (whoOf s k) p.2 a.size a.size a.need a.extra = .ok (place p.1)
  let apart (a : LaneAcc) (w : Wave) (place : Nat → Loc) : Prop :=
    ∀ p ∈ todo a w, ∀ q ∈ todo a w, p.1 ≠ q.1 → ∀ i, i < a.size → ((place p.1).plus i).outsideWords [(place q.1, a.size)]
  let tags (a : LaneAcc) (w : Wave) (place : Nat → Loc) (s : State) (v : Bool) : Prop :=
    ∀ p ∈ todo a w, ∀ i, i < a.size → rdTag s ((place p.1).plus i) = v
  (∀ i f a need, (i = .ldWf f ∧ need = false) ∨ (i = .ldWfe f ∧ need = true) → laneAcc i = some a → f.mem.ty.width = 32 ∨ f.mem.ty.width = 64 →
    ∀ s k w place, Clear a.sp s k w → passes a s k w place → tags a w place s true → (need = true → apart a w place) →
    ∃ t w', exec i s = .next t ∧
      RanMem a.sp [.v f.d.toNat] [] (if need then ranges a w place else []) (entriesAll s (tenantOf s k) need ((todo a w).map (·.2))) (memInv f.mem)
        s k w t w' ∧ w'.xa = w.xa ∧
      (a.lanes w ≠ [] → w'.status = 0 ∧ w'.helping = 0) ∧ (need = true → tags a w place t false) ∧
      (∀ p ∈ todo a w, rdV w' f.d.toNat p.1 = extTy f.mem.ty (rdN s (place p.1) a.size)) ∧
      (∀ l, l < 32 → l ∉ (todo a w).map (·.1) → rdV w' f.d.toNat l = rdV w f.d.toNat l)) ∧
  (∀ f a, laneAcc (.stWe f) = some a → f.mem.ty.width = 32 ∨ f.mem.ty.width = 64 →
    ∀ s k w place, Clear a.sp s k w → passes a s k w place → tags a w place s false → apart a w place →
    ∃ t w', exec (.stWe f) s = .next t ∧
      RanMem a.sp [] (ranges a w place) (ranges a w place) (entriesAll s (tenantOf s k) true ((todo a w).map (·.2))) (memInv f.mem) s k w t w' ∧
      w'.xa = w.xa ∧ (a.lanes w ≠ [] → w'.status = 0 ∧ w'.helping = 0) ∧ tags a w place t true ∧
      (∀ p ∈ todo a w, ∀ j, j < a.size → rdByte t ((place p.1).plus j) = (rdV w f.b.toNat p.1).extractLsb' (8 * j) 8)) ∧
  (∀ f a, laneAcc (.stF f) = some a → f.mem.ty.width = 32 ∨ f.mem.ty.width = 64 →
    ∀ s k w place, Clear a.sp s k w → passes a s k w place →
    ∃ t w', exec (.stF f) s = .next t ∧
      RanMem a.sp [] (ranges a w place) (ranges a w place) (entriesAll s (tenantOf s k) true ((todo a w).map (·.2))) (memInv f.mem) s k w t w' ∧
      SameWait w w' ∧ w'.xa = w.xa ∧ tags a w place t true ∧
      (∀ p ∈ todo a w, ∀ j, j < a.size →
        (∀ q ∈ todo a w, p.1 < q.1 → ∀ m, m < a.size → ((place q.1).plus m).cell ≠ ((place p.1).plus j).cell) →
        rdByte t ((place p.1).plus j) = (rdV w f.b.toNat p.1).extractLsb' (8 * j) 8))) ∧
  ((∀ f a, laneAcc (.tagGet f) = some a → ∀ s k w place, Clear a.sp s k w → a.Passes s k w place →
    ∃ t w', exec (.tagGet f) s = .next t ∧ RanMem a.sp [.v f.d.toNat] [] [] (a.entries s k w false) (memInv f.mem) s k w t w' ∧ SameWait w w' ∧
      w'.xa = w.xa ∧ ∀ l, l < 32 → rdV w' f.d.toNat l =
        if (activeOf w f.h.mask).getLsbD l then (if rdTag s (place l) then 1 else 0) else rdV w f.d.toNat l) ∧
  (∀ f a, laneAcc (.tagSet f) = some a → ∀ s k w place, Clear a.sp s k w → a.Passes s k w place →
    ∃ t w', exec (.tagSet f) s = .next t ∧ RanMem a.sp [] [] (a.ranges w place) (a.entries s k w true) false s k w t w' ∧ SameWait w w' ∧
      w'.xa = w.xa ∧ ∀ l, l < 32 → (activeOf w f.h.mask).getLsbD l = true →
        (∀ m, l < m → m < 32 → (activeOf w f.h.mask).getLsbD m = true → (place m).wordCell ≠ (place l).wordCell) →
        rdTag t (place l) = (rdV w f.b.toNat l).getLsbD 0))

/-- R202 to R205, Table 13.5: an atomic or a reduction whose lanes name distinct words, none of them in a table entry its accesses pass,
leaves in each word the operation's value on the old value and V[b] (and V[b+1]), where it writes one; an atomic gives V[d] the old value, and
`atom.add.bound` gives M[m] the lanes whose sum stayed within the bound and 0 elsewhere.
R81 to R83, Table 13.6: of the lanes that name one address, the word takes, and each lane is given, what `atLanes` makes of their operands in
ascending order. Bitwise and integer operations give each lane the old value combined with those below
it; `exch` passes each lane's value to the next and stores the highest; float `add` rounds the prefix, then the sum with the old value; the
others act one lane after another. (The model's readings: M[m] of `atom.add.bound` is 0 outside Active, log 47; host memory completes every atomic,
log 11; results stand at once, log 13; an acquire of device scope on local store empties the read-only cache, log 100.) -/
def Obligations.Atomics : Prop :=
  (∀ i a op opc m b d, laneAcc i = some a → atomicOf i = some (op, opc, m, b, d) → m.ty.width = 32 ∨ m.ty.width = 64 →
    (m.ty.isF = true → op = .add ∨ op = .min ∨ op = .max) →
    ∀ s k w place, Clear a.sp s k w → a.Passes s k w place →
    (∀ p ∈ a.lanes w, ∀ q ∈ a.lanes w, p.1 ≠ q.1 → ∀ j, j < a.size → ((place p.1).plus j).outside [(place q.1, a.size)]) →
    let ls := (a.lanes w).map (fun p => (p.1, p.2, place p.1))
    let marks := atEntries op m.ty (tenantOf s k) (atOperand w m.ty b) (atGroups ls) (entryState a.sp s k w)
    (∀ p ∈ a.lanes w, ∀ j, j < a.size → ∀ e ∈ marks, (place p.1).plus j ≠ .ext e) →
    let old (l : Nat) : Nat := rdN s (place l) a.size
    let new (l : Nat) : Option Nat := atNew op m.ty (old l) (atOperand w m.ty b l).1 (atOperand w m.ty b l).2
    ∃ t w', exec i s = .next t ∧
      RanMem a.sp (a.sp.dests) (((a.lanes w).filter (fun p => (new p.1).isSome)).map (fun p => (place p.1, a.size))) [] marks (memInv m) s k w t w' ∧
      SameWait w w' ∧ w'.xa = w.xa ∧ (∀ p ∈ a.lanes w, rdN t (place p.1) a.size = (new p.1).getD (old p.1)) ∧
      (∀ r, d = some r → ∀ l, l < 32 → rdV w' r.toNat l = if l ∈ (a.lanes w).map (·.1) then extTy m.ty (old l) else rdV w r.toNat l) ∧
      (∀ f, i = .atomAddBound f → ∀ l, l < 32 → f.m ≠ 0 →
        (rdM w' f.m.toNat).getLsbD l = decide (l ∈ (a.lanes w).map (·.1) ∧ (new l).isSome = true))) ∧
  (∀ i a op opc m b d, laneAcc i = some a → atomicOf i = some (op, opc, m, b, d) → m.ty.width = 32 ∨ m.ty.width = 64 →
    (m.ty.isF = true → op = .add ∨ op = .min ∨ op = .max) →
    ∀ s k w place, Clear a.sp s k w → a.Passes s k w place →
    (∀ p ∈ a.lanes w, ∀ q ∈ a.lanes w, p.2 ≠ q.2 → ∀ j, j < a.size → ((place p.1).plus j).outside [(place q.1, a.size)]) →
    let ls := (a.lanes w).map (fun p => (p.1, p.2, place p.1))
    let marks := atEntries op m.ty (tenantOf s k) (atOperand w m.ty b) (atGroups ls) (entryState a.sp s k w)
    (∀ p ∈ a.lanes w, ∀ j, j < a.size → ∀ e ∈ marks, (place p.1).plus j ≠ .ext e) →
    let mine (p : Nat × Nat) : List (Nat × Nat) := (a.lanes w).filter (fun q => q.2 == p.2)
    let res (p : Nat × Nat) : AtRes := atLanes op m.ty (rdN s (place p.1) a.size) ((mine p).map (fun q => atOperand w m.ty b q.1))
    ∃ t w', exec i s = .next t ∧
      RanMem a.sp (a.sp.dests) (((a.lanes w).filter (fun p => (res p).wrote)).map (fun p => (place p.1, a.size))) [] marks (memInv m) s k w t w' ∧
      SameWait w w' ∧ w'.xa = w.xa ∧ ∀ p ∈ a.lanes w, rdN t (place p.1) a.size = (res p).mem ∧
        ∀ (n : Nat) (q : Nat × Nat) (x : Nat × Bool), (mine p)[n]? = some q → (res p).olds[n]? = some x →
          (∀ r, d = some r → rdV w' r.toNat q.1 = extTy m.ty x.1) ∧ (∀ f, i = .atomAddBound f → f.m ≠ 0 → (rdM w' f.m.toNat).getLsbD q.1 = x.2)) ∧
  ((∀ t old vs, t.isF = false → old < 2 ^ t.width → vs ≠ [] →
    (atLanes .add t old vs).mem = wrapTo t.width (readInt t old + (vs.map (fun p => readInt t p.1)).sum) ∧
    (∀ j, j < vs.length → ((atLanes .add t old vs).olds[j]?).map (·.1) =
      some (wrapTo t.width (readInt t old + ((vs.take j).map (fun p => readInt t p.1)).sum)))) ∧
  (∀ t old vs, t.isF = false → old < 2 ^ t.width → (∀ p ∈ vs, p.1 < 2 ^ t.width) → vs ≠ [] →
    (atLanes .xor t old vs).mem = vs.foldl (fun x p => x ^^^ p.1) old ∧ (atLanes .and t old vs).mem = vs.foldl (fun x p => x &&& p.1) old ∧
    (atLanes .or t old vs).mem = vs.foldl (fun x p => x ||| p.1) old ∧
    (∀ j, j < vs.length → ((atLanes .or t old vs).olds[j]?).map (·.1) = some ((vs.take j).foldl (fun x p => x ||| p.1) old))) ∧
  (∀ t old vs, (atLanes .exch t old vs).mem = (vs.map (·.1)).getLast?.getD old ∧
    (atLanes .exch t old vs).olds.map (·.1) = (old :: vs.map (·.1)).take vs.length) ∧
  (∀ op t old v w vs, op = .cas ∨ op = .incWrap ∨ op = .addBound →
    atLanes op t old ((v, w) :: vs) =
      let r := atLanes op t ((atNew op t old v w).getD old) vs
      { mem := r.mem, wrote := r.wrote || (atNew op t old v w).isSome, olds := (old, (atNew op t old v w).isSome) :: r.olds }) ∧
  (∀ old a b c, (atLanes .add .f32 old [(a, 0), (b, 0), (c, 0)]) =
    let r (x y : Nat) : Nat := fBin .add envRne .f32 x y
    { mem := r old (r (r a b) c), wrote := true, olds := [(old, true), (r old a, true), (r old (r a b), true)] }))
/-! ### Class 9: synchronisation -/

/-- R207, R208, R91, R214: a fence accesses nothing; an acquire of device scope or wider, and `ro.inv`, empty the issuing core's read-only
cache, `fence.rec` its record cache, and no other core's.
R215, R217 to R220: on the object at Addr(S[a], off): a failed check is the cause; `bo.init` stores PHASE 0, EXPECT S[b], ARRIVED 0;
`bo.expect` adds to EXPECT, then adds 0; `bo.arrive` adds S[b] and gives the phase before; values out of range raise BO_INVALID and leave the
object; `bo.wait` completes with status 0 once PHASE differs (R90 names no wait on an object among the events that empty the read-only cache).
R216: an addition to a barrier object inverts PHASE and takes EXPECT off when the sum reaches it, at most once. (Which permissions each of them
needs is the model's reading of R63, log 44.) -/
def Obligations.FencesAndBarrierObjects : Prop :=
  (∀ i f inv, (i = .fenceAcq f ∨ i = .fenceAr f ∨ i = .fenceSc f) ∧ inv = Scp.wide f.scp ∨ i = .fenceRel f ∧ inv = false →
    ∀ s k w, Clear (specM f.h 8 []) s k w → activeOf w f.h.mask ≠ 0 →
      ∃ t w', exec i s = .next t ∧ RanMem (specM f.h 8 []) [] [] [] [] inv s k w t w' ∧ SameWait w w' ∧ w'.xa = w.xa) ∧
  (∀ f s k w, Clear (specM f.h 8 []) s k w → activeOf w f.h.mask ≠ 0 →
    (∃ t w', exec (.roInv f) s = .next t ∧ RanMem (specM f.h 8 []) [] [] [] [] true s k w t w' ∧ SameWait w w' ∧ w'.xa = w.xa) ∧
    (∃ t w', exec (.fenceRec f) s = .next t ∧ t.wave? k = some w' ∧ w' = wavePart w w' ∧ SameRegs [] w w' ∧ w'.xa = w.xa ∧ w'.pc = w.pc + 8 ∧
      t = { s with waves := t.waves, cores := t.cores } ∧ (∀ j, j ≠ k → t.wave? j = s.wave? j) ∧
      (t.core (coreOf s k)).recCache = [] ∧
      ∀ c, t.core c = { s.core c with issued := (t.core c).issued, fixups := (t.core c).fixups,
                                      recCache := if c = coreOf s k then [] else (s.core c).recCache })) ∧
  ((∀ i h a off need sp, (∃ f, (i = .boInit f ∧ need = needWr ∨ i = .boExpect f ∧ need = needRw ∨ i = .boWait f ∧ need = needRd) ∧ h = f.h ∧ a = f.a ∧
        off = f.off) ∨ (∃ f, i = .boArrive f ∧ need = needRw ∧ h = f.h ∧ a = f.a ∧ off = f.off) → waveOnly i = some (h, sp) →
    ∀ s k w e, Clear sp s k w → activeOf w h.mask ≠ 0 → checkOne s (whoOf s k) (addrOf (rdS w a.toNat) off) 8 8 need .tagged = .error e →
      exec i s = .next (takeTrap (entryState sp s k w) k sp.len (e.trap.withLanes sp w))) ∧
  (∀ f sp, waveOnly (.boInit f) = some (f.h, sp) → ∀ s k w l, Clear sp s k w → activeOf w f.h.mask ≠ 0 → let va := addrOf (rdS w f.a.toNat) f.off
    checkOne s (whoOf s k) va 8 8 needWr .tagged = .ok l → let n := (rdS w f.b.toNat).toNat
    (1 ≤ n → n < 2 ^ 31 → ∃ t w', exec (.boInit f) s = .next t ∧
      RanMem sp [] [(l, 8)] [] (entriesOf s (tenantOf s k) va) false s k w t w' ∧ SameWait w w' ∧ w'.xa = w.xa ∧ rdN t l 8 = n * 2 ^ 32) ∧
    (n = 0 ∨ 2 ^ 31 ≤ n → exec (.boInit f) s = .next (takeTrap (touch (entryState sp s k w) (tenantOf s k) va false) k sp.len
        { cause := .boInvalid, info0 := w64 va, info1 := rdS w f.b.toNat, lanes := some (activeOf w f.h.mask) }) ∧
      rdN (touch (entryState sp s k w) (tenantOf s k) va false) l 8 = rdN s l 8)) ∧
  (∀ f sp, waveOnly (.boExpect f) = some (f.h, sp) → ∀ s k w l, Clear sp s k w → activeOf w f.h.mask ≠ 0 → let va := addrOf (rdS w f.a.toNat) f.off
    checkOne s (whoOf s k) va 8 8 needRw .tagged = .ok l → let v := rdS w f.b.toNat
    ∀ ph ex arr, rdN s l 8 = ph * 2 ^ 63 + ex * 2 ^ 32 + arr → ph < 2 → ex < 2 ^ 31 → arr < 2 ^ 32 → let e : Int := (ex : Int) + v.toInt
    (-(2 ^ 31) ≤ v.toInt → v.toInt < 2 ^ 31 → 1 ≤ e → e ≤ 2 ^ 31 - 1 → ∃ t w', exec (.boExpect f) s = .next t ∧
      RanMem sp [] [(l, 8)] [] (entriesOf s (tenantOf s k) va) false s k w t w' ∧ SameWait w w' ∧ w'.xa = w.xa ∧
      rdN t l 8 = boAdd (ph * 2 ^ 63 + e.toNat * 2 ^ 32 + arr) 0) ∧
    (¬ (-(2 ^ 31) ≤ v.toInt ∧ v.toInt < 2 ^ 31) ∨ e < 1 ∨ 2 ^ 31 - 1 < e → exec (.boExpect f) s = .next (takeTrap (touch (entryState sp s k w) (tenantOf s k) va false) k sp.len
        { cause := .boInvalid, info0 := w64 va, info1 := v, lanes := some (activeOf w f.h.mask) }) ∧
      rdN (touch (entryState sp s k w) (tenantOf s k) va false) l 8 = rdN s l 8)) ∧
  (∀ f sp, waveOnly (.boArrive f) = some (f.h, sp) → ∀ s k w l, Clear sp s k w → activeOf w f.h.mask ≠ 0 → let va := addrOf (rdS w f.a.toNat) f.off
    checkOne s (whoOf s k) va 8 8 needRw .tagged = .ok l → let n := (rdS w f.b.toNat).toNat
    (n < 2 ^ 31 → ∃ t w', exec (.boArrive f) s = .next t ∧
      RanMem sp [.s f.d.toNat] [(l, 8)] [] (entriesOf s (tenantOf s k) va) false s k w t w' ∧ SameWait w w' ∧ w'.xa = w.xa ∧
      rdS w' f.d.toNat = w64 (rdN s l 8 / 2 ^ 63) ∧ rdN t l 8 = boAdd (rdN s l 8) n) ∧
    (2 ^ 31 ≤ n → exec (.boArrive f) s = .next (takeTrap (touch (entryState sp s k w) (tenantOf s k) va false) k sp.len
        { cause := .boInvalid, info0 := w64 va, info1 := rdS w f.b.toNat, lanes := some (activeOf w f.h.mask) }) ∧
      rdN (touch (entryState sp s k w) (tenantOf s k) va false) l 8 = rdN s l 8)) ∧
  (∀ f sp, waveOnly (.boWait f) = some (f.h, sp) → ∀ s k w l, Clear sp s k w → activeOf w f.h.mask ≠ 0 → let va := addrOf (rdS w f.a.toNat) f.off
    checkOne s (whoOf s k) va 8 8 needRd .tagged = .ok l → rdN s l 8 / 2 ^ 63 ≠ (rdS w f.b.toNat).toNat % 2 →
    ∃ t w', exec (.boWait f) s = .next t ∧
      RanMem sp [] [] [] (entriesOf s (tenantOf s k) va) false s k w t w' ∧ w'.xa = w.xa ∧ w'.status = 0 ∧ w'.helping = 0)) ∧
  (∀ ph ex arr n, ph < 2 → ex < 2 ^ 31 → arr < 2 ^ 32 →
    let x := ph * 2 ^ 63 + ex * 2 ^ 32 + arr
    boAdd x n = (if ex ≤ arr + n then (1 - ph) * 2 ^ 63 + ex * 2 ^ 32 + (arr + n - ex) % 2 ^ 32 else ph * 2 ^ 63 + ex * 2 ^ 32 + (arr + n)))

/-- R221 to R225, R189: a failed check is the cause; `lock.acq` takes a free lock for the group, reports a broken one in `status`, and raises
LOCK_STATE, before it has waited, on a lock the group holds or with its list full; `lock.try` answers 0 to 4 and changes nothing but on 0; `lock.rel` frees a held
lock and raises LOCK_STATE on any other.
R231, R232: `own.set` makes the record of a shared-window word name a task and gives 1, or 0 with the table full; a task number 0 removes
it; `own.clr` removes it. Every other record, and memory, stays; an address that fails R60 (of permissions none is asked, log 74), or lies in
another window, is a cause. -/
def Obligations.LocksAndOwners : Prop :=
  (let groupAs (t s : State) (k : Nat) : State := t.modGroup (gidOf k) (fun g => { g with locks := groupLocks s k })
  (∀ i h a off sp, (∃ f, (i = .lockAcq f ∨ i = .lockRel f) ∧ h = f.h ∧ a = f.a ∧ off = f.off) ∨
      (∃ f, i = .lockTry f ∧ h = f.h ∧ a = f.a ∧ off = f.off) → waveOnly i = some (h, sp) →
    ∀ s k w e, Clear sp s k w → activeOf w h.mask ≠ 0 → checkObj s (whoOf s k) (addrOf (rdS w a.toNat) off) 16 16 needRw = .error e →
      exec i s = .next (takeTrap (entryState sp s k w) k sp.len (e.trap.withLanes sp w))) ∧
  (∀ f sp, waveOnly (.lockAcq f) = some (f.h, sp) → ∀ s k w l, Clear sp s k w → activeOf w f.h.mask ≠ 0 → let va := addrOf (rdS w f.a.toNat) f.off
    checkObj s (whoOf s k) va 16 16 needRw = .ok l → ∀ g, s.group? (gidOf k) = some g →
    let st := rdN s l 8 / 2 ^ 62
    let own := rdN s l 8 % 2 ^ 62 = gidOf k
    let marks := entriesOf s (tenantOf s k) va
    (w.retest = false → 16 ≤ g.locks.length ∨ (st = 1 ∧ own) → exec (.lockAcq f) s = .next (takeTrap (touch (entryState sp s k w) (tenantOf s k) va false) k sp.len
      { cause := .lockState, info0 := w64 va, info1 := w64 st, lanes := some (activeOf w f.h.mask) }) ∧
      rdN (touch (entryState sp s k w) (tenantOf s k) va false) l 16 = rdN s l 16) ∧
    (g.locks.length < 16 → st = 0 → ∃ t w' g', exec (.lockAcq f) s = .next t ∧
      RanMem sp [] [(l, 16)] [] marks (Scp.wide f.scp) s k w (groupAs t s k) w' ∧ w'.xa = w.xa ∧ w'.status = 0 ∧
      rdN t l 8 = gidOf k % 2 ^ 62 + 2 ^ 62 ∧ (g.seq < 2 ^ 64 → rdN t (l.plus 8) 8 = if g.origin = .grid then g.seq else 0) ∧
      t.group? (gidOf k) = some g' ∧ g'.locks = g.locks ++ [va]) ∧
    (g.locks.length < 16 → 2 ≤ st → ∃ t w', exec (.lockAcq f) s = .next t ∧
      RanMem sp [] [] [] marks (Scp.wide f.scp) s k w t w' ∧ w'.xa = w.xa ∧ w'.status = if st = 3 then 1 else 2)) ∧
  (∀ f sp, waveOnly (.lockTry f) = some (f.h, sp) → ∀ s k w l, Clear sp s k w → activeOf w f.h.mask ≠ 0 → let va := addrOf (rdS w f.a.toNat) f.off
    checkObj s (whoOf s k) va 16 16 needRw = .ok l → ∀ g, s.group? (gidOf k) = some g →
    let st := rdN s l 8 / 2 ^ 62
    let own := rdN s l 8 % 2 ^ 62 = gidOf k
    let marks := entriesOf s (tenantOf s k) va
    (g.locks.length < 16 → st = 0 → ∃ t w' g', exec (.lockTry f) s = .next t ∧
      RanMem sp [.s f.d.toNat] [(l, 16)] [] marks (Scp.wide f.scp) s k w (groupAs t s k) w' ∧ SameWait w w' ∧ w'.xa = w.xa ∧
      rdS w' f.d.toNat = 0 ∧ rdN t l 8 = gidOf k % 2 ^ 62 + 2 ^ 62 ∧ t.group? (gidOf k) = some g' ∧ g'.locks = g.locks ++ [va]) ∧
    (16 ≤ g.locks.length ∨ st ≠ 0 → ∃ t w', exec (.lockTry f) s = .next t ∧
      RanMem sp [.s f.d.toNat] [] [] marks false s k w t w' ∧ SameWait w w' ∧ w'.xa = w.xa ∧
      rdS w' f.d.toNat = if 16 ≤ g.locks.length ∨ (st = 1 ∧ own) then 4 else w64 st)) ∧
  (∀ f sp, waveOnly (.lockRel f) = some (f.h, sp) → ∀ s k w l, Clear sp s k w → activeOf w f.h.mask ≠ 0 → let va := addrOf (rdS w f.a.toNat) f.off
    checkObj s (whoOf s k) va 16 16 needRw = .ok l →
    let st := rdN s l 8 / 2 ^ 62
    let own := rdN s l 8 % 2 ^ 62 = gidOf k
    (st = 1 → own → ∃ t w', exec (.lockRel f) s = .next t ∧
      RanMem sp [] [(l, 16)] [] (entriesOf s (tenantOf s k) va) false s k w (groupAs t s k) w' ∧ SameWait w w' ∧ w'.xa = w.xa ∧ rdN t l 16 = 0 ∧
      (∀ g g', s.group? (gidOf k) = some g → t.group? (gidOf k) = some g' → ∀ a ∈ g'.locks, a ∈ g.locks ∧
        resolve (touch (entryState sp s k w) (tenantOf s k) va false) (whoOf s k) a 16 {} ≠ .ok l)) ∧
    (¬ (st = 1 ∧ own) → exec (.lockRel f) s = .next (takeTrap (touch (entryState sp s k w) (tenantOf s k) va false) k sp.len
      { cause := .lockState, info0 := w64 va, info1 := w64 st, lanes := some (activeOf w f.h.mask) }) ∧
      rdN (touch (entryState sp s k w) (tenantOf s k) va false) l 16 = rdN s l 16))) ∧
  (let same (s t : State) (ten va : Nat) : Prop := ∀ a b, (a, b) ≠ (ten, va) → ownFind t a b = ownFind s a b
  (∀ f sp, waveOnly (.ownSet f) = some (f.h, sp) → ∀ s k w, Clear sp s k w → activeOf w f.h.mask ≠ 0 → let va := addrOf (rdS w f.a.toNat) f.off
    let ten := tenantOf s k
    let q := (rdS w f.b.toNat).toNat
    (∀ l, checkObj s (whoOf s k) va 4 4 {} = .ok l →
      ∃ t w', exec (.ownSet f) s = .next t ∧ RanRegs sp [.s f.d.toNat] s k w { t with owns := s.owns } w' ∧ w'.xa = w.xa ∧ same s t ten va ∧
        (q = 0 → rdS w' f.d.toNat = 1 ∧ ownFind t ten va = none) ∧
        (q ≠ 0 → (ownDel s ten va).owns.length < 262144 → rdS w' f.d.toNat = 1 ∧ ownFind t ten va = some q) ∧
        (q ≠ 0 → 262144 ≤ (ownDel s ten va).owns.length → rdS w' f.d.toNat = 0 ∧ t.owns = s.owns)) ∧
    (∀ e, checkObj s (whoOf s k) va 4 4 {} = .error e → exec (.ownSet f) s = .next (takeTrap (entryState sp s k w) k sp.len (e.trap.withLanes sp w))) ∧
    (va % 4 ≠ 0 → exec (.ownSet f) s = .next (takeTrap (entryState sp s k w) k sp.len
      { cause := .misaligned, info0 := w64 va, info1 := 4, lanes := some (activeOf w f.h.mask) })) ∧
    (va % 4 = 0 → ∀ l, resolve s (whoOf s k) va 4 {} = .ok l → inShared va = false → exec (.ownSet f) s = .next (takeTrap (entryState sp s k w) k sp.len
      { cause := .tagMisuse, info0 := w64 va, lanes := some (activeOf w f.h.mask) }))) ∧
  (∀ f sp, waveOnly (.ownClr f) = some (f.h, sp) → ∀ s k w, Clear sp s k w → activeOf w f.h.mask ≠ 0 → let va := addrOf (rdS w f.a.toNat) f.off
    (∀ l, checkObj s (whoOf s k) va 4 4 {} = .ok l →
      ∃ t w', exec (.ownClr f) s = .next t ∧ RanRegs sp [] s k w { t with owns := s.owns } w' ∧ w'.xa = w.xa ∧ same s t (tenantOf s k) va ∧
        ownFind t (tenantOf s k) va = none) ∧
    (∀ e, checkObj s (whoOf s k) va 4 4 {} = .error e → exec (.ownClr f) s = .next (takeTrap (entryState sp s k w) k sp.len (e.trap.withLanes sp w)))))

/-- R45, R50, R199, R220, R222, R237: with its condition unmet and no owner to help, a tagged instruction, `bo.wait`, `lock.acq` and
`join.wait` put the wave to sleep at the instruction, which keeps its registers; nothing is stored. R199: a tagged instruction performs its lanes in
ascending order up to the first whose word has not the tag it waits for, a word that an earlier lane of it has just emptied or filled among them;
it sleeps there, with the lanes before performed and marked done. -/
def Obligations.UnmetWaitsSleep : Prop :=
  (∀ i a need, (∃ f, (i = .ldWf f ∨ i = .ldWfe f) ∧ need = true ∧ (f.mem.ty.width = 32 ∨ f.mem.ty.width = 64)) ∨
      (∃ f, i = .stWe f ∧ need = false ∧ (f.mem.ty.width = 32 ∨ f.mem.ty.width = 64)) → laneAcc i = some a →
    ∀ s k w place, Clear a.sp s k w → a.Passes s k w place → ∀ p rest, (a.lanes w).filter (fun p => !w.done.getLsbD p.1) = p :: rest →
    rdTag s (place p.1) ≠ need → w.ownerEnd = 0 → NoHelper s k → waitOwner s (whoOf s k) .tag p.2 = none →
    ∃ t, exec i s = .next t ∧ Waits .tag [] s k w t) ∧
  (∀ i a m d st wr need, (∃ f, i = .ldWf f ∧ (m, d, st, wr, need) = (f.mem, some f.d, none, false, true)) ∨
      (∃ f, i = .ldWfe f ∧ (m, d, st, wr, need) = (f.mem, some f.d, none, true, true)) ∨
      (∃ f, i = .stWe f ∧ (m, d, st, wr, need) = (f.mem, none, some f.b, true, false)) → laneAcc i = some a → m.ty.width = 32 ∨ m.ty.width = 64 →
    ∀ s k w (place : Nat → Loc), Clear a.sp s k w → ∀ pre p post, (a.lanes w).filter (fun p => !w.done.getLsbD p.1) = pre ++ p :: post →
    (∀ q ∈ pre ++ p :: post, checkOne s (whoOf s k) q.2 a.size a.size a.need a.extra = .ok (place q.1)) →
    let words := pre.map (fun q => (place q.1, a.size))
    (∀ q ∈ pre, ∀ j, j < a.size → rdTag s ((place q.1).plus j) = need) →
    (wr = true → ∀ q ∈ pre, ∀ r ∈ pre, q.1 ≠ r.1 → ∀ j, j < a.size → ((place q.1).plus j).outsideWords [(place r.1, a.size)]) →
    ((place p.1).outsideWords words ∧ rdTag s (place p.1) ≠ need) ∨ (wr = true ∧ ∃ q ∈ pre, (place q.1).wordCell = (place p.1).wordCell) →
    w.ownerEnd = 0 → NoHelper s k → waitOwner s (whoOf s k) .tag p.2 = none →
    ∃ t w', exec i s = .next t ∧ t.wave? k = some w' ∧ w'.wait = .tag ∧ w'.pc = w.pc ∧ w'.status = w.status ∧
      w'.done = w.done ||| maskOf (fun l => pre.any (fun q => q.1 = l)) ∧ SameRegs (d.map (fun r => RegRef.v r.toNat)).toList w w' ∧
      (∀ j, j ≠ k → t.wave? j = s.wave? j) ∧
      MemSame (if st.isSome then words else []) (if wr then words else []) (entriesAll s (tenantOf s k) wr (pre.map (·.2))) s { t with owns := s.owns } ∧
      (wr = true → ∀ q ∈ pre, ∀ j, j < a.size → rdTag t ((place q.1).plus j) = !need) ∧
      (∀ r, d = some r → ∀ l, l < 32 →
        (∀ q ∈ pre, q.1 = l → rdV w' r.toNat l = extTy m.ty (rdN s (place l) a.size)) ∧
        (l ∉ pre.map (·.1) → rdV w' r.toNat l = rdV w r.toNat l)) ∧
      (∀ r, st = some r → ∀ q ∈ pre, ∀ j, j < a.size → rdByte t ((place q.1).plus j) = (rdV w r.toNat q.1).extractLsb' (8 * j) 8)) ∧
  (∀ f sp, waveOnly (.boWait f) = some (f.h, sp) → ∀ s k w l, Clear sp s k w → activeOf w f.h.mask ≠ 0 → let va := addrOf (rdS w f.a.toNat) f.off
    checkOne s (whoOf s k) va 8 8 needRd .tagged = .ok l → rdN s l 8 / 2 ^ 63 = (rdS w f.b.toNat).toNat % 2 →
    w.ownerEnd = 0 → NoHelper s k → waitOwner s (whoOf s k) .bo va = none →
    ∃ t, exec (.boWait f) s = .next t ∧ Waits .bo (entriesOf s (tenantOf s k) va) s k w t) ∧
  (∀ f sp, waveOnly (.lockAcq f) = some (f.h, sp) → ∀ s k w l, Clear sp s k w → activeOf w f.h.mask ≠ 0 → let va := addrOf (rdS w f.a.toNat) f.off
    checkObj s (whoOf s k) va 16 16 needRw = .ok l → (groupLocks s k).length < 16 → rdN s l 8 / 2 ^ 62 = 1 → rdN s l 8 % 2 ^ 62 ≠ gidOf k →
    w.ownerEnd = 0 → NoHelper s k → waitOwner (touch s (tenantOf s k) va false) (whoOf s k) .lock va = none →
    ∃ t, exec (.lockAcq f) s = .next t ∧ Waits .lock (entriesOf s (tenantOf s k) va) s k w t) ∧
  (∀ f sp, waveOnly (.joinWait f) = some (f.h, sp) → ∀ s k w l, Clear sp s k w → activeOf w f.h.mask ≠ 0 → let va := (rdS w f.a.toNat).toNat
    va ≠ 0 → checkObj s (whoOf s k) va 8 8 needRd = .ok l → rdN s l 8 % 2 ^ 32 ≠ 0 →
    (rdN s l 8 / 2 ^ 48 = 0 ∨ rdN s l 8 % 2 ^ 32 ≠ rdN s l 8 / 2 ^ 48) → w.ownerEnd = 0 → NoHelper s k → waitOwner s (whoOf s k) .joinFamily va = none →
    ∃ t, exec (.joinWait f) s = .next t ∧ Waits .joinFamily (entriesOf s (tenantOf s k) va) s k w t)

/-- R226 to R230: a header that breaks R227 is QUEUE_INVALID; with a well-formed one, a push into a queue with room reserves ticket RESV, marks its entry, and hands the payload to
the copy engine; a pop of a published ticket takes it, copies its slot unless it is void, and frees its entry. Full and empty queues, and a
full copy engine, are waited for, the queue first (log 45). A slot's entry, or the slot to be copied, that fails R60 is the cause, and the queue stays as it stands (the
order of that check is log 45's). -/
def Obligations.QueueInstructions : Prop :=
  (∀ f sp, waveOnly (.dqPush f) = some (f.h, sp) → ∀ s k w l, Clear sp s k w → activeOf w f.h.mask ≠ 0 → let va := addrOf (rdS w f.a.toNat) f.off
    let e := entryState sp s k w
    let who := whoOf s k
    checkObj e who va 64 64 needRw = .ok l → (dqBad e who va = true → exec (.dqPush f) s = .next (takeTrap e k sp.len
        { cause := .queueInvalid, info0 := w64 va, lanes := some (activeOf w f.h.mask) })) ∧ (dqBad e who va = false → let q := dqAt e who va
    checkDense e who (rdS w f.b.toNat).toNat q.sbytes needRd = none → let u := touch e (tenantOf s k) va false
    let t := dqWord u who q.resv
    (q.slots ≤ (t + 2 ^ 32 - dqWord u who q.free) % 2 ^ 32 → w.ownerEnd = 0 → NoHelper s k → waitOwner u who .dqPush va = none →
      ∃ x, exec (.dqPush f) s = .next x ∧ Waits .dqPush (entriesOf s (tenantOf s k) va) s k w x) ∧
    ((t + 2 ^ 32 - dqWord u who q.free) % 2 ^ 32 < q.slots →
    (copyFull u (coreOf s k) = true → exec (.dqPush f) s = .next (parkBlockedOwner (startWait u k .copySlot 0) k)) ∧
    (copyFull u (coreOf s k) = false → ∀ x, dqEntryFail u who q t = some x →
      exec (.dqPush f) s = .next (takeTrap u k sp.len (x.trap.withLanes sp w))) ∧
    (copyFull u (coreOf s k) = false → dqEntryFail u who q t = none → exec (.dqPush f) s = .next (book sp k (coreOf s k) w true (startXfer
      (State.setWave (wrVa (dqSet u who q.resv ((t + 1) % 2 ^ 32)) who (q.entry t) (leBytes 16 (1 + t * 2 ^ 32 + myTask u k * 2 ^ 64))) k
        (wrS (endHelp (entryWave sp s w) 0) f.d.toNat (w64 t)))
      { kind := .dqPush, gid := gidOf k, wave := k, core := coreOf s k, tenant := tenantOf s k, seq := ((s.group? (gidOf k)).map (·.seq)).getD 0,
        pc := w.pc, bytes := q.sbytes, dense := rdS w f.b.toNat, at_ := q.slot t, queue := w64 va, ticket := t, slot := t % q.slots })))))) ∧
  (∀ f sp, waveOnly (.dqPop f) = some (f.h, sp) → ∀ s k w l, Clear sp s k w → activeOf w f.h.mask ≠ 0 → let va := addrOf (rdS w f.a.toNat) f.off
    let e := entryState sp s k w
    let who := whoOf s k
    let dst := (rdS w f.b.toNat).toNat
    checkObj e who va 64 64 needRw = .ok l → (dqBad e who va = true → exec (.dqPop f) s = .next (takeTrap e k sp.len
        { cause := .queueInvalid, info0 := w64 va, lanes := some (activeOf w f.h.mask) })) ∧ (dqBad e who va = false → let q := dqAt e who va
    checkDense e who dst q.sbytes needWr = none → let u := touch e (tenantOf s k) va false
    let t := dqWord u who q.take
    (t = dqWord u who q.pub → w.ownerEnd = 0 → NoHelper s k → waitOwner u who .dqPop va = none →
      ∃ x, exec (.dqPop f) s = .next x ∧ Waits .dqPop (entriesOf s (tenantOf s k) va) s k w x) ∧
    (t ≠ dqWord u who q.pub → ∀ x, popFail u who q t = some x → exec (.dqPop f) s = .next (takeTrap u k sp.len (x.trap.withLanes sp w))) ∧
    (t ≠ dqWord u who q.pub → popFail u who q t = none → let u1 := dqSet u who q.take ((t + 1) % 2 ^ 32)
      let v := dqWord u1 who (q.entry t) / 4 % 4
      let u2 := acquire (dqSet u1 who (q.entry t) (4 * v + 3)) (coreOf s k) f.scp
      let u3 := if v = 0 then wrVa (touchRange u2 (tenantOf s k) (q.slot t) q.sbytes false) who dst (rdVa u2 who (q.slot t) q.sbytes) else u2
      exec (.dqPop f) s = .next (book sp k (coreOf s k) w true (dqRelease who q (q.slots + 1)
        (dqSet (u3.setWave k (wrS (endHelp (entryWave sp s w) (if v = 0 then 0 else if v = 1 then 1 else 2)) f.d.toNat (w64 t))) who (q.entry t)
          (4 * v)))))))

/-! ### Class 10: copies -/

/-- R209 to R213, R250, R138, R211: a copy issued with a free slot, its completion word, record and dense range in order, is a transfer in
flight, from the record as obtained; a feed copy takes the feed's next positions. A token still pending is TOKEN_REUSE at once (before the wait for
a slot, as R211's step 2 precedes its issue); with no slot the wave waits; a completion word or record that fails is the cause, and nothing starts. -/
def Obligations.CopyInstructions : Prop :=
  ∀ (i : Instr) (f : CpF) (a : Spec) (lay : Nat) (kind : XferKind) (localOnly : Bool) (need : Need), (i = .cpIn f ∧ f.dsel = 0 ∧ lay = 4 ∧ kind = .cpIn ∧ localOnly = true ∧ need = needWr) ∨
      (i = .cpOut f ∧ lay = 3 ∧ kind = .cpOut ∧ localOnly = true ∧ need = needRd) ∨
      (i = .cpLl f ∧ lay = 4 ∧ kind = .cpLl ∧ localOnly = false ∧ need = needWr) ∨
      (i = .cpIn f ∧ f.dsel ≠ 0 ∧ lay = 4 ∧ kind = (if f.dsel = 2 then .feedB else .feedA) ∧ localOnly = false ∧ need = {}) →
    waveOnly i = some (f.h, a) → ∀ s k w, Clear a s k w → activeOf w f.h.mask ≠ 0 →
    let e := entryState a s k w
    let x := entryWave a s w
    (f.cw.bo = false → f.cw.sreg.toNat ∈ w.tokenPend → exec i s = .next (takeTrap e k a.len
      { cause := .tokenReuse, info0 := w64 f.cw.sreg.toNat, lanes := some (activeOf w f.h.mask) })) ∧
    (tokenReused w f.cw = false → copyFull e (coreOf s k) = true → exec i s = .next (parkBlockedOwner (startWait e k .copySlot 0) k)) ∧
    (tokenReused w f.cw = false → copyFull e (coreOf s k) = false → ∀ t, cwCheck e k x f.cw = .error t →
      exec i s = .next (takeTrap e k a.len (t.withLanes a w))) ∧
    (tokenReused w f.cw = false → copyFull e (coreOf s k) = false → ∀ c t, cwCheck e k x f.cw = .ok c →
      obtainRecord e k x f.tsr (f.ity.getD .b8) (copyBad lay) = .error t → exec i s = .next (takeTrap t.2 k a.len (t.1.withLanes a w))) ∧
    (tokenReused w f.cw = false → copyFull e (coreOf s k) = false → ∀ c u sh, cwCheck e k x f.cw = .ok c → obtainRecord e k x f.tsr (f.ity.getD .b8) (copyBad lay) = .ok (u, sh) →
      (kind ≠ .feedA → kind ≠ .feedB → denseBad u k (rdS w f.a.toNat).toNat sh.bytes localOnly need = none →
        exec i s = .next (book a k (coreOf s k) w true (startXfer u { newXfer u k x kind c (Cw.word f.cw) sh with dense := rdS w f.a.toNat }))) ∧
      (kind = .feedA ∨ kind = .feedB → ∀ g, u.group? (gidOf k) = some g →
        let fd := g.feed (f.dsel == 2)
        (g.matrix = true → exec i s = .next (book a k (coreOf s k) w true (startXfer
          (u.setGroup (gidOf k) (g.setFeed (f.dsel == 2) { fd with fillIssued := fd.fillIssued + sh.bytes }))
          { newXfer u k x kind c (Cw.word f.cw) sh with at_ := fd.fillIssued }))) ∧
        (g.matrix = false → exec i s = .next (takeTrap u k a.len
          { cause := .feedState, reason := 1, info0 := (if f.dsel = 2 then 1 else 0 : Word), lanes := some (activeOf w f.h.mask) }))))

/-! ### Class 11: matrices and scans -/

/-- R259 to R261, R263, R245, R249, R256: `mma` and `mma.crew` with a free slot, a tile of the format's type and enough operand bytes copied
take the next CONSUME positions of both feeds and enter the matrix queue with both tables; otherwise they wait or raise, in order, ACC_HANDLE
REASON 1 or 2 or FEED_STATE REASON 2 (where the wait for a slot stands in that order, and that A is named where both feeds fall short, is log 103's).
R107, R108, R261: completing an operation sets tile element (i, j) to the old element plus the products of row i of A and row j of B: for
`i8` the integer sum, wrapped to 32 bits; for `f64` a chain of fused steps; for the others one rounding of the exact sum of the scaled
products. Only its tile changes. -/
def Obligations.MatrixMultiply : Prop :=
  (∀ i fmt crew f, mmaOf i = some (fmt, crew, f) → ∀ s k w g, Clear (specM f.h 8 []) s k w → s.group? (gidOf k) = some g → g.matrix = true →
    activeOf w f.h.mask = BitVec.allOnes 32 →
    let sp := specM f.h 8 []
    let e := entryState sp s k w
    let ad := f.ad.toNat
    let inCrew := crew && decide (1 < g.crew)
    let bytes (rows blk : Nat) : Nat := rows * (16 * (f.kx.toNat + 1)) * fmt.width / 8 + (if blk = 0 then 0 else rows * (16 * (f.kx.toNat + 1)) / blk)
    (ldPending s k ad = true → exec i s = .next (parkBlockedOwner (startWait e k .handle (w64 ad)) k)) ∧
    (ldPending s k ad = false → kfind ad w.tiles = none → exec i s = .next (takeTrap e k 8
      { cause := .accHandle, reason := 1, info0 := w64 ad, lanes := some (BitVec.allOnes 32) })) ∧
    (ldPending s k ad = false → ∀ t, kfind ad w.tiles = some t →
      (t.ty ≠ mmaTile fmt → exec i s = .next (takeTrap e k 8
        { cause := .accHandle, reason := 2, info0 := w64 ad, lanes := some (BitVec.allOnes 32) })) ∧
      (t.ty = mmaTile fmt → 8 ≤ g.mq.length → exec i s = .next (parkBlockedOwner (startWait e k .matrixSlot 0) k)) ∧
      (t.ty = mmaTile fmt → g.mq.length < 8 →
        let nA := bytes t.m (blkSize f.ablk)
        let nB := if inCrew = true ∧ g.rank ≠ 0 then 0 else bytes t.n (blkSize f.bblk)
        (g.feedA.fillIssued < g.feedA.consume + nA → exec i s = .next (takeTrap e k 8
          { cause := .feedState, reason := 2, info0 := 0, lanes := some (BitVec.allOnes 32) })) ∧
        (g.feedA.consume + nA ≤ g.feedA.fillIssued → g.feedB.fillIssued < g.feedB.consume + nB → exec i s = .next (takeTrap e k 8
          { cause := .feedState, reason := 2, info0 := 1, lanes := some (BitVec.allOnes 32) })) ∧
        (g.feedA.consume + nA ≤ g.feedA.fillIssued → g.feedB.consume + nB ≤ g.feedB.fillIssued →
          exec i s = .next (book sp k (coreOf s k) w true (e.setGroup (gidOf k) { g with
            mq := g.mq ++ [{ wave := k, pc := w.pc, parcels := infoParcels (encode i), crew := inCrew, fmt := fmt, ad := ad, m := t.m, n := t.n,
                             k := 16 * (f.kx.toNat + 1), ablk := blkSize f.ablk, bblk := blkSize f.bblk, pA := g.feedA.consume, pB := g.feedB.consume,
                             nA := nA, nB := nB, tabA := w.cbA, tabB := w.cbB, opNo := if inCrew = true then g.crewOps + 1 else 0 }]
            feedA := { g.feedA with consume := g.feedA.consume + nA }
            feedB := { g.feedB with consume := g.feedB.consume + nB }
            crewOps := if inCrew = true then g.crewOps + 1 else g.crewOps })))))) ∧
  (∀ (e : MqEntry) tabB t as bs i j, i < e.m → j < e.n →
    let old := (t.e.getD (i * e.n + j) 0).toNat
    let new := ((mmaTileOut e tabB t as bs).e.getD (i * e.n + j) 0).toNat
    let rowA := operandRow e.fmt e.tabA as e.m e.k e.ablk i
    let rowB := operandRow e.fmt tabB bs e.n e.k e.bblk j
    (mmaTileOut e tabB t as bs).ty = t.ty ∧ (mmaTileOut e tabB t as bs).m = t.m ∧ (mmaTileOut e tabB t as bs).n = t.n ∧
    (e.fmt = .i8 → new = wrapTo 32 (readInt .i32 old + ((List.range e.k).map (fun x =>
      readInt .i8 (as.getD (i * e.k + x) 0).toNat * readInt .i8 (bs.getD (j * e.k + x) 0).toNat)).sum)) ∧
    (e.fmt ≠ .i8 → e.fmt ≠ .f64 → new = fround (fmtOf .f32) .rne false
      (fsum (fdec (fmtOf .f32) old :: (List.range e.k).map (fun x => fmulv (rowA.getD x .nan) (rowB.getD x .nan)))) % 2 ^ 64) ∧
    (e.fmt = .f64 → new = ((List.range e.k).foldl (fun c x => fround (fmtOf .f64) .rne false
      (fadd .rne (fdec (fmtOf .f64) c) (fmulv (rowA.getD x .nan) (rowB.getD x .nan)))) old) % 2 ^ 64))

/-- R255 to R258: with no operation pending on the handle, `acc.clr` makes a tile of zeros where it fits (REASON 3 where it cannot, a wait
where only `acc.st` transfers are in the way), and `acc.mov.get` and `acc.mov.put` move the elements of 32 rows, one a lane, between a tile and a
vector register (REASON 5 for a place outside it); a handle without a tile is REASON 1. -/
def Obligations.TileInstructions : Prop :=
  (∀ f s k w g, Clear (specM f.h 8 []) s k w → s.group? (gidOf k) = some g → g.matrix = true → activeOf w f.h.mask = BitVec.allOnes 32 →
    mqPending g k f.ad.toNat = false → ldPending s k f.ad.toNat = false →
    let ad := f.ad.toNat
    let m := 16 * (f.mx.toNat + 1)
    let n := 16 * (f.nx.toNat + 1)
    let e := (entryState (specM f.h 8 []) s k w).setWave k { entryWave (specM f.h 8 []) s w with tiles := kdel ad w.tiles }
    let need := m * n * (f.ty.width / 8)
    (g.accKib * 1024 < accUsed e (gidOf k) + need → exec (.accClr f) s = .next (takeTrap e k 8
      { cause := .accHandle, reason := 3, info0 := w64 ad, lanes := some (BitVec.allOnes 32) })) ∧
    (accUsed e (gidOf k) + need ≤ g.accKib * 1024 → g.accKib * 1024 < accUsed e (gidOf k) + accHeld e (gidOf k) + need →
      exec (.accClr f) s = .next (parkBlockedOwner (startWait e k .accSpace (w64 ad)) k)) ∧
    (accUsed e (gidOf k) + accHeld e (gidOf k) + need ≤ g.accKib * 1024 → ∃ t w', exec (.accClr f) s = .next t ∧ t.wave? k = some w' ∧
      t = { s with waves := t.waves, cores := t.cores } ∧ (∀ j, j ≠ k → t.wave? j = s.wave? j) ∧ w' = { wavePart w w' with tiles := w'.tiles } ∧
      SameRegs [] w w' ∧ w'.xa = w.xa ∧ w'.pc = w.pc + 8 ∧
      kfind ad w'.tiles = some { ty := f.ty, m := m, n := n, e := List.replicate (m * n) 0 } ∧ ∀ h, h ≠ ad → kfind h w'.tiles = kfind h w.tiles)) ∧
  (∀ f s k w g t, Clear (specM f.h 8 [vOp f.d 1 true, sOp f.a]) s k w → s.group? (gidOf k) = some g → g.matrix = true →
    activeOf w f.h.mask = BitVec.allOnes 32 → mqPending g k f.ad.toNat = false → ldPending s k f.ad.toNat = false →
    kfind f.ad.toNat w.tiles = some t → let r := bitsAt (rdS w f.a.toNat) 0 16
    let c := bitsAt (rdS w f.a.toNat) 16 16
    (r < t.m → c < t.n → t.ty = .f64 ∨ c % 2 = 0 → ∃ u w', exec (.accMovGet f) s = .next u ∧
      RanRegs (specM f.h 8 [vOp f.d 1 true, sOp f.a]) [.v f.d.toNat] s k w u w' ∧ w'.xa = w.xa ∧
      ∀ l, l < 32 → rdV w' f.d.toNat l = if t.m ≤ r + l then 0
        else if t.ty = .f64 then w64 (t.e.getD ((r + l) * t.n + c) 0).toNat
        else w64 ((t.e.getD ((r + l) * t.n + c) 0).toNat + 2 ^ 32 * (t.e.getD ((r + l) * t.n + c + 1) 0).toNat)) ∧
    (t.m ≤ r ∨ t.n ≤ c ∨ (t.ty ≠ .f64 ∧ c % 2 = 1) → exec (.accMovGet f) s = .next (takeTrap
      (entryState (specM f.h 8 [vOp f.d 1 true, sOp f.a]) s k w) k 8
      { cause := .accHandle, reason := 5, info0 := w64 f.ad.toNat, lanes := some (BitVec.allOnes 32) }))) ∧
  (∀ f s k w g t, Clear (specM f.h 8 [vOp f.d, sOp f.a]) s k w → s.group? (gidOf k) = some g → g.matrix = true →
    activeOf w f.h.mask = BitVec.allOnes 32 → mqPending g k f.ad.toNat = false → ldPending s k f.ad.toNat = false →
    kfind f.ad.toNat w.tiles = some t → t.e.length = t.m * t.n → let r := bitsAt (rdS w f.a.toNat) 0 16
    let c := bitsAt (rdS w f.a.toNat) 16 16
    r < t.m → c < t.n → (t.ty = .f64 ∨ (c % 2 = 0 ∧ t.n % 2 = 0)) → ∃ u w' t', exec (.accMovPut f) s = .next u ∧ u.wave? k = some w' ∧
      u = { s with waves := u.waves, cores := u.cores } ∧ (∀ j, j ≠ k → u.wave? j = s.wave? j) ∧ w' = { wavePart w w' with tiles := w'.tiles } ∧
      SameRegs [] w w' ∧ w'.xa = w.xa ∧ w'.pc = w.pc + 8 ∧ kfind f.ad.toNat w'.tiles = some t' ∧
      (∀ h, h ≠ f.ad.toNat → kfind h w'.tiles = kfind h w.tiles) ∧ t'.ty = t.ty ∧ t'.m = t.m ∧ t'.n = t.n ∧
      ∀ i j, i < t.m → j < t.n → t'.e.getD (i * t.n + j) 0 =
        if r ≤ i ∧ i < r + 32 ∧ (j = c ∨ (t.ty ≠ .f64 ∧ j = c + 1)) then
          (if t.ty = .f64 then rdV w f.d.toNat (i - r)
           else if j = c then w64 ((rdV w f.d.toNat (i - r)).toNat % 2 ^ 32) else w64 ((rdV w f.d.toNat (i - r)).toNat / 2 ^ 32))
        else t.e.getD (i * t.n + j) 0) ∧
  (∀ f s k w g t, Clear (specM f.h 8 [vOp f.d, sOp f.a]) s k w → s.group? (gidOf k) = some g → g.matrix = true →
    activeOf w f.h.mask = BitVec.allOnes 32 → mqPending g k f.ad.toNat = false → ldPending s k f.ad.toNat = false →
    kfind f.ad.toNat w.tiles = some t → let r := bitsAt (rdS w f.a.toNat) 0 16
    let c := bitsAt (rdS w f.a.toNat) 16 16
    t.m ≤ r ∨ t.n ≤ c ∨ (t.ty ≠ .f64 ∧ c % 2 = 1) → exec (.accMovPut f) s = .next (takeTrap
      (entryState (specM f.h 8 [vOp f.d, sOp f.a]) s k w) k 8
      { cause := .accHandle, reason := 5, info0 := w64 f.ad.toNat, lanes := some (BitVec.allOnes 32) })) ∧
  (∀ i h sp ad grp, matrixSpec i = some (h, sp, ad, grp) → (∃ f, i = .accMovGet f) ∨ (∃ f, i = .accMovPut f) → ∀ s k w g, Clear sp s k w →
    s.group? (gidOf k) = some g → g.matrix = true → activeOf w h.mask = BitVec.allOnes 32 →
    (mqPending g k ad = true ∨ ldPending s k ad = true → exec i s = .next (parkBlockedOwner (startWait (entryState sp s k w) k .handle (w64 ad)) k)) ∧
    (mqPending g k ad = false → ldPending s k ad = false → kfind ad w.tiles = none → exec i s = .next (takeTrap (entryState sp s k w) k sp.len
      { cause := .accHandle, reason := 1, info0 := w64 ad, lanes := some (BitVec.allOnes 32) })))

/-- R257, R266 to R268: `acc.ld` of a tile from a record that fits it is a transfer that fills the handle; `acc.st` with a well-formed
epilogue word converts the tile, element by element, frees the handle and starts the transfer of the converted bytes, its space held until it
completes. (The order of their stalls and causes is the model's, log 103.) -/
def Obligations.TileTransfers : Prop :=
  (∀ f sp h ad grp, matrixSpec (.accLd f) = some (h, sp, ad, grp) → ∀ s k w g t u sh, Clear sp s k w → s.group? (gidOf k) = some g →
    g.matrix = true → activeOf w f.h.mask = BitVec.allOnes 32 → copyFull (entryState sp s k w) (coreOf s k) = false → mqPending g k ad = false →
    ldPending s k ad = false → kfind ad w.tiles = some t →
    obtainRecord (entryState sp s k w) k (entryWave sp s w) f.tsr (f.ity.getD .b8) (tileBad t (accLdTys t)) = .ok (u, sh) →
    exec (.accLd f) s = .next (book sp k (coreOf s k) w true (startXfer u { newXfer u k (entryWave sp s w) .accLd .none 0 sh with handle := ad }))) ∧
  (∀ f sp h ad grp, matrixSpec (.accSt f) = some (h, sp, ad, grp) → ∀ s k w g t u sh c oty, Clear sp s k w → s.group? (gidOf k) = some g →
    g.matrix = true → activeOf w f.h.mask = BitVec.allOnes 32 → let e := entryState sp s k w
    let x := entryWave sp s w
    tokenReused w f.cw = false → copyFull e (coreOf s k) = false → cwCheck e k x f.cw = .ok c → mqPending g k ad = false → ldPending s k ad = false → kfind ad w.tiles = some t →
    let ew := (rdS w f.sb.toNat).toNat
    epilogueTy t.ty ew = some oty → obtainRecord e k x f.tsr oty (tileBad t [oty]) = .ok (u, sh) →
    let ba := (rdS w (f.sb.toNat + 2)).toNat
    let bz := if t.ty = .f64 then 8 else 4
    (ew / 2 ^ 42 % 2 = 1 → ba % bz = 0 ∧ denseBad u k ba (t.n * bz) true needRd = none) →
    let bias (j : Nat) : Option Nat :=
      if ew / 2 ^ 42 % 2 = 1 then some (leNat (((rdVa u (whoOf s k) ba (t.n * bz)).drop (bz * j)).take bz)) else none
    ∃ data, exec (.accSt f) s = .next (book sp k (coreOf s k) w true (startXfer (u.setWave k { x with tiles := kdel ad x.tiles })
        { newXfer u k x .accSt c (Cw.word f.cw) sh with handle := ad, data := data, held := t.m * t.n * (t.ty.width / 8) })) ∧
      data.length = t.m * t.n * (oty.width / 8) ∧
      ∀ i j, i < t.m → j < t.n → ∀ y, y < oty.width / 8 → data.getD ((i * t.n + j) * (oty.width / 8) + y) 0 =
        (leBytes (oty.width / 8) (epilogueElem t.ty oty ew (rdS w (f.sb.toNat + 1)) (bias j) (t.e.getD (i * t.n + j) 0).toNat)).getD y 0)

/-- R252, R253, R262: `feed.mark` gives CONSUME; `feed.skip` takes CONSUME over bytes already issued (FEED_STATE REASON 2 otherwise);
`cb.load` loads one table from memory. -/
def Obligations.FeedAndCodebookInstructions : Prop :=
  (∀ f s k w g, Clear (specM f.h 8 [sOp f.d 1 true]) s k w → s.group? (gidOf k) = some g → g.matrix = true →
    activeOf w f.h.mask = BitVec.allOnes 32 → ∃ t w', exec (.feedMark f) s = .next t ∧
      RanRegs (specM f.h 8 [sOp f.d 1 true]) [.s f.d.toNat] s k w t w' ∧ w'.xa = w.xa ∧
      rdS w' f.d.toNat = w64 (if f.fsel then g.feedB.consume else g.feedA.consume)) ∧
  (∀ f s k w g, Clear (specM f.h 8 [sOp f.a]) s k w → s.group? (gidOf k) = some g → g.matrix = true →
    activeOf w f.h.mask = BitVec.allOnes 32 → let n := (rdS w f.a.toNat).toNat
    let x := if f.fsel then g.feedB else g.feedA
    let e := entryState (specM f.h 8 [sOp f.a]) s k w
    (x.fillIssued < x.consume + n → exec (.feedSkip f) s = .next (takeTrap e k 8
      { cause := .feedState, reason := 2, info0 := (if f.fsel then 1 else 0 : Word), lanes := some (BitVec.allOnes 32) })) ∧
    (x.consume + n ≤ x.fillIssued → exec (.feedSkip f) s = .next (book (specM f.h 8 [sOp f.a]) k (coreOf s k) w true (afterMatrix [gidOf k]
      (e.setGroup (gidOf k) (if f.fsel then { g with feedB := { x with consume := x.consume + n, skips := x.skips ++ [(x.consume, x.consume + n)] } }
        else { g with feedA := { x with consume := x.consume + n, skips := x.skips ++ [(x.consume, x.consume + n)] } })))))) ∧
  (∀ f s k w, Clear (specM f.h 8 [sOp f.a]) s k w → activeOf w f.h.mask = BitVec.allOnes 32 → let va := (rdS w f.a.toNat).toNat
    (∀ e, checkOne s (whoOf s k) va 32 32 needRd .plain = .error e →
      exec (.cbLoad f) s = .next (takeTrap (entryState (specM f.h 8 [sOp f.a]) s k w) k 8 (e.trap.withLanes (specM f.h 8 [sOp f.a]) w))) ∧
    (∀ l, checkOne s (whoOf s k) va 32 32 needRd .plain = .ok l → ∃ t w', exec (.cbLoad f) s = .next t ∧ t.wave? k = some w' ∧
      MemSame [] [] (entriesOf s (tenantOf s k) va) s t ∧ (∀ j, j ≠ k → t.wave? j = s.wave? j) ∧
      w' = { wavePart w w' with cbA := w'.cbA, cbB := w'.cbB } ∧ SameRegs [] w w' ∧ w'.xa = w.xa ∧ w'.pc = w.pc + 8 ∧
      w'.cbA = (if f.tsel then w.cbA else BitVec.ofNat 256 (rdN s l 32)) ∧ w'.cbB = (if f.tsel then BitVec.ofNat 256 (rdN s l 32) else w.cbB)))

/-- R273, R245, R271, R86: `ssm` raises TOKEN_REUSE for a token still pending, waits for a slot of the matrix queue, then checks its completion
word, its block's alignment and place, the block's fields (SSM_CONFIG at the lowest that fails) and the feeds; when all pass it takes its feed bytes
and enters the queue with the block as read. (Where the wait for a slot stands in this order is the model's, log 103.) -/
def Obligations.ScanIssues : Prop :=
  ∀ f h sp ad grp, matrixSpec (.ssm f) = some (h, sp, ad, grp) → ∀ s k w g, Clear sp s k w → s.group? (gidOf k) = some g → g.matrix = true →
    activeOf w f.h.mask = BitVec.allOnes 32 → let e := entryState sp s k w
    let x := entryWave sp s w
    let va := (rdS w f.a.toNat).toNat
    let blk := va - 0xFF000000000000
    let b : BitVec 512 := BitVec.ofNat 512 (rdN s (.ls (lsGroup s k) blk) 64)
    let all : Option LaneMask := some (BitVec.allOnes 32)
    (tokenReused w f.cw = true → exec (.ssm f) s = .next (takeTrap e k 8
      { cause := .tokenReuse, info0 := w64 f.cw.sreg.toNat, lanes := all })) ∧
    (tokenReused w f.cw = false → 8 ≤ g.mq.length → exec (.ssm f) s = .next (parkBlockedOwner (startWait e k .matrixSlot 0) k)) ∧
    (tokenReused w f.cw = false → g.mq.length < 8 → ∀ t, cwCheck e k x f.cw = .error t → exec (.ssm f) s = .next (takeTrap e k 8 (t.withLanes sp w))) ∧
    (tokenReused w f.cw = false → g.mq.length < 8 → ∀ c, cwCheck e k x f.cw = .ok c →
      (va % 64 ≠ 0 → exec (.ssm f) s = .next (takeTrap e k 8 { cause := .misaligned, info0 := w64 va, info1 := 64, lanes := all })) ∧
      (va % 64 = 0 → inLocal va = false ∨ g.lsKib * 1024 < blk + 64 → exec (.ssm f) s = .next (takeTrap e k 8
        { cause := .addressRange, info0 := w64 va, lanes := all })) ∧
      (va % 64 = 0 → inLocal va = true → blk + 64 ≤ g.lsKib * 1024 →
        (∀ n, (ssmBad b blk (g.lsKib * 1024)).min? = some n → exec (.ssm f) s = .next (takeTrap e k 8
          { cause := .ssmConfig, info0 := w64 va, info1 := w64 n, lanes := all })) ∧
        (ssmBad b blk (g.lsKib * 1024) = [] → let c' := scanOf b
          let nA := if c'.src then c'.xLen else 0
          let nB := if c'.src then c'.bLen + c'.cLen else 0
          (g.feedA.fillIssued < g.feedA.consume + nA → exec (.ssm f) s = .next (takeTrap e k 8
            { cause := .feedState, reason := 2, info0 := 0, lanes := all })) ∧
          (g.feedA.consume + nA ≤ g.feedA.fillIssued → g.feedB.fillIssued < g.feedB.consume + nB → exec (.ssm f) s = .next (takeTrap e k 8
            { cause := .feedState, reason := 2, info0 := 1, lanes := all })) ∧
          (g.feedA.consume + nA ≤ g.feedA.fillIssued → g.feedB.consume + nB ≤ g.feedB.fillIssued →
            exec (.ssm f) s = .next (book sp k (coreOf s k) w true (cwStart (e.setGroup (gidOf k) { g with
              mq := g.mq ++ [{ wave := k, pc := w.pc, parcels := infoParcels (encode (.ssm f)), ssm := true, pA := g.feedA.consume,
                               pB := g.feedB.consume, nA := nA, nB := nB, tabA := w.cbA, tabB := w.cbB, block := b, blockAt := blk, cw := c }]
              feedA := { g.feedA with consume := g.feedA.consume + nA }
              feedB := { g.feedB with consume := g.feedB.consume + nB } }) c)))))) 

/-! ### Class 12: tasks, spawning, joins, register claims -/

/-- R19 to R22, R233: `task.launch` at depth 10 raises NEST_DEPTH; a failed check of its 64 bytes is the cause; a record that R21 refuses makes
no task, an error record names its lowest failing field, and S[d] is 0; a record without counter and family makes the next task in sequence,
ready at depth one more, and S[d] is its number; with the launch table full the wave waits.
R22, R41, R42, R323: a record with a counter makes an armed task whose number is written beside COUNT, ready at once where COUNT is 0; one with a
family adds 1 to its OUTSTANDING; one on a queue in declared-occupancy mode takes ceil(QOCC / 1,024) segments, or makes a refused task where they do
not fit; a counter or family that cannot be reached makes a refused task too. S[d] is its number in each case.
R234, R304, R399: `dep.dec` takes one from COUNT; at 1 it also releases the task armed on the counter; at 0 the counter stays and a
DEP_UNDERFLOW record is written, without a trap. (The model's choices: NEST_DEPTH gives the refused depth 11, log 21; when the launch table counts as
full, log 33; the stream of a record with none set, log 29.) -/
def Obligations.LaunchAndDependence : Prop :=
  (∀ f s k w g, Clear (specM f.h 8 [sOp f.d 1 true, sOp f.a]) s k w → activeOf w f.h.mask ≠ 0 → s.group? (gidOf k) = some g →
    let sp := specM f.h 8 [sOp f.d 1 true, sOp f.a]
    let e := entryState sp s k w
    let va := (rdS w f.a.toNat).toNat
    let depth := ((s.task? g.seq).map (·.depth)).getD g.depth
    (10 ≤ depth → exec (.taskLaunch f) s = .next (takeTrap e k 8
      { cause := .nestDepth, info0 := w64 (depth + 1), lanes := some (activeOf w f.h.mask) })) ∧
    (depth < 10 → ∀ x, checkOne s (whoOf s k) va 64 64 needRd .plain = .error x →
      exec (.taskLaunch f) s = .next (takeTrap e k 8 (x.trap.withLanes sp w))) ∧
    (depth < 10 → ∀ l, checkOne s (whoOf s k) va 64 64 needRd .plain = .ok l →
      let r : BitVec 512 := BitVec.ofNat 512 (rdN s l 64)
      let u := touch e g.tenant va false
      let t : Task := { seq := s.nextSeq, rec64 := r }
      (recBad r ≠ [] → ∃ b x, (recBad r).min? = some b ∧ Record.cause x = .recordInvalid ∧ x.info1 = w64 b ∧ x.info0 = rdS w f.a.toNat ∧
        x.tenant = g.tenant ∧ x.pc = w.pc ∧ x.seq = g.seq ∧ x.gid = gidOf k ∧ exec (.taskLaunch f) s = .next (book sp k (coreOf s k) w true ((errorRecord u (g.ring.getD 0) x).setWave k
          (wrS (entryWave sp s w) f.d.toNat 0)))) ∧
      (recBad r = [] → recCrew t ≤ maxCrew s → recFamily t = 0 → recDep t = 0 → (s.ring (g.ring.getD 0)).docc = false →
        (launchFull s = true → exec (.taskLaunch f) s = .next (parkBlockedOwner (startWait e k .launchTable 0) k)) ∧
        (launchFull s = false → ∃ v w' t', exec (.taskLaunch f) s = .next v ∧ v.wave? k = some w' ∧ w' = wavePart w w' ∧ w'.xa = w.xa ∧
          SameRegs [.s f.d.toNat] w w' ∧ w'.pc = w.pc + 8 ∧ rdS w' f.d.toNat = w64 s.nextSeq ∧ v.nextSeq = s.nextSeq + 1 ∧
          v.task? s.nextSeq = some t' ∧ t'.state = .ready ∧ t'.rec64 = r ∧ t'.depth = depth + 1 ∧ t'.tenant = g.tenant ∧ t'.parent = some g.seq ∧
          t'.ring = g.ring.getD 0 ∧ t'.chain = g.chain ∧ (∀ q, q ≠ s.nextSeq → v.task? q = s.task? q) ∧ v.groups = s.groups)) ∧
      (recBad r = [] → recCrew t ≤ maxCrew s → s.task? s.nextSeq = none →
        let docc := (s.ring (g.ring.getD 0)).docc
        let becomes (st : TaskState) (more : State → Task → Prop) : Prop := ∃ v w' t', exec (.taskLaunch f) s = .next v ∧ v.wave? k = some w' ∧
          SameRegs [.s f.d.toNat] w w' ∧ w'.pc = w.pc + 8 ∧ rdS w' f.d.toNat = w64 s.nextSeq ∧ v.nextSeq = s.nextSeq + 1 ∧
          v.task? s.nextSeq = some t' ∧ t'.rec64 = r ∧ t'.state = st ∧ more v t'
        (recDep t ≠ 0 → recFamily t = 0 →
          (∀ a, checkObj u { tenant := g.tenant } (recDep t) 16 16 needRw = .ok a → s.nextSeq < 2 ^ 64 →
            (rdN u a 4 ≠ 0 → becomes .armed (fun v _ => rdN v (a.plus 8) 8 = s.nextSeq ∧ rdN v a 4 = rdN u a 4)) ∧
            (rdN u a 4 = 0 → docc = false → launchFull s = false → becomes .ready (fun v _ => rdN v (a.plus 8) 8 = s.nextSeq)) ∧
            (rdN u a 4 = 0 → launchFull s = true → exec (.taskLaunch f) s = .next (parkBlockedOwner (startWait e k .launchTable 0) k))) ∧
          (∀ x, checkObj u { tenant := g.tenant } (recDep t) 16 16 needRw = .error x → becomes .refused (fun _ _ => True))) ∧
        (recDep t = 0 → recFamily t ≠ 0 → launchFull s = false →
          (∀ a, checkObj u { tenant := g.tenant } (recFamily t) 8 8 needRw = .ok a → docc = false → rdN u a 8 % 2 ^ 32 + 1 < 2 ^ 32 →
            becomes .ready (fun v _ => rdN v a 8 = rdN u a 8 + 1)) ∧
          (∀ x, checkObj u { tenant := g.tenant } (recFamily t) 8 8 needRw = .error x → becomes .refused (fun _ _ => True))) ∧
        (recDep t = 0 → recFamily t = 0 → docc = true → launchFull s = false → let n := (recQocc t + 1023) / 1024
          (segFits s n = true → becomes .ready (fun _ t' => t'.segs = n)) ∧
          (segFits s n = false → becomes .refused (fun _ t' => t'.segs = 0)))))) ∧
  (∀ f s k w, Clear (specM f.h 8 [sOp f.a]) s k w → activeOf w f.h.mask ≠ 0 → let sp := specM f.h 8 [sOp f.a]
    let va := (rdS w f.a.toNat).toNat
    (∀ x, checkObj s (whoOf s k) va 16 16 needRw = .error x →
      exec (.depDec f) s = .next (takeTrap (entryState sp s k w) k 8 (x.trap.withLanes sp w))) ∧
    (∀ l, checkObj s (whoOf s k) va 16 16 needRw = .ok l → let c := rdN s l 4
      let task := rdN s (l.plus 8) 8
      let u (wr : Bool) := touch (entryState sp s k w) (tenantOf s k) va wr
      (2 ≤ c ∨ (c = 1 ∧ task = 0) → ∃ t w', exec (.depDec f) s = .next t ∧
        RanMem sp [] [(l, 4)] [] (entriesOf s (tenantOf s k) va) false s k w t w' ∧ SameWait w w' ∧ w'.xa = w.xa ∧ rdN t l 4 = c - 1) ∧
      (c = 1 → task ≠ 0 → exec (.depDec f) s = .next (book sp k (coreOf s k) w true (releaseTask (wrN (u true) l 4 0) task))) ∧
      (c = 0 → ∃ r : Record, r.cause = .depUnderflow ∧ r.info0 = rdS w f.a.toNat ∧ r.pc = w.pc ∧ r.gid = gidOf k ∧
        exec (.depDec f) s = .next (book sp k (coreOf s k) w true (errorRecord (u false) (((s.group? (gidOf k)).bind (·.ring)).getD 0) r)))))

/-- R235, R39 to R42: `spawn` with an entry for its target, a family that passes R60 and room in the pool adds one waiting thread for each lane
of Active, its payload the four registers, counts them in the family's OUTSTANDING, and gathers full waves; without room the wave waits for a segment,
or takes SPAWN_OVERFLOW (log 33); no entry is ENTRY_INVALID, depth 10 NEST_DEPTH. `spawn.flush` launches the task's waiting threads.
R237, R238, R41: `join.wait` completes with status 0 when OUTSTANDING is 0 and with 1 when every outstanding descendant has faulted, and
acquires at device scope; `join.poll` gives the whole family and acquires when OUTSTANDING is 0. Neither stores. (That both ask RD alone of the family
is the model's reading, log 44.) -/
def Obligations.SpawnAndJoin : Prop :=
  ((∀ f s k w g, Clear (specM f.h 12 [vOp f.a 4, sOp f.b]) s k w → activeOf w f.h.mask ≠ 0 → s.group? (gidOf k) = some g →
    let sp := specM f.h 12 [vOp f.a 4, sOp f.b]
    let e := entryState sp s k w
    let act := lanesOf (activeOf w f.h.mask)
    let depth (l : Nat) : Nat := (kget { depth := g.depth } l w.lanes).depth
    let tgt := w.pc + sext32 f.tgt
    let fam := (rdS w f.b.toNat).toNat
    (∀ l ∈ act, 10 ≤ depth l → ∃ t, exec (.spawn f) s = .next (takeTrap e k 12 t) ∧ t.cause = .nestDepth) ∧
    ((∀ l ∈ act, depth l < 10) → spawnEntry s g.tenant w.pc tgt = none → exec (.spawn f) s = .next (takeTrap e k 12
      { cause := .entryInvalid, info0 := tgt, lanes := some (activeOf w f.h.mask) })) ∧
    ((∀ l ∈ act, depth l < 10) → ∀ d, spawnEntry s g.tenant w.pc tgt = some d → fam = 0 →
      (grantBlocks e (coreOf s k) g.seq .spawn act.length 1 = .wait →
        exec (.spawn f) s = .next (parkBlockedOwner (startWait e k .segment (segArg .spawn act.length 1)) k)) ∧
      (∀ n, grantBlocks e (coreOf s k) g.seq .spawn act.length 1 = .overflow n → exec (.spawn f) s = .next (takeTrap e k 12
        { cause := .spawnOverflow, info0 := w64 n, info1 := w64 (((s.task? g.seq).map recQocc).getD 0), lanes := some (activeOf w f.h.mask) }))) ∧
    ((∀ l ∈ act, depth l < 10) → ∀ d, spawnEntry s g.tenant w.pc tgt = some d → ∀ ps,
      grantBlocks e (coreOf s k) g.seq .spawn act.length 1 = .places ps →
      (fam ≠ 0 → ∀ x, checkObj s (whoOf s k) fam 8 8 needRw = .error x → exec (.spawn f) s = .next (takeTrap e k 12 (x.trap.withLanes sp w))) ∧
      (∀ fl, (fam = 0 ∧ fl = none) ∨ (fam ≠ 0 ∧ ∃ l, checkObj s (whoOf s k) fam 8 8 needRw = .ok l ∧ fl = some l) →
        ∃ u ts, exec (.spawn f) s = .next (book sp k (coreOf s k) w true (gather { u with threads := s.threads ++ ts } (coreOf s k))) ∧
          ts.length = act.length ∧ (fl = none → u = e) ∧
          (∀ l, fl = some l → MemSame [(l, 8)] [] (entriesOf s g.tenant fam) e u ∧
            (rdN s l 8 % 2 ^ 32 + act.length < 2 ^ 32 → rdN u l 8 = rdN s l 8 + act.length)) ∧
          ∀ j, j < act.length → ∃ t ∈ ts[j]?, t.entry = w64 (bitsAt d.bits 192 64) ∧ t.info.family = fam ∧ t.info.depth = depth (act.getD j 0) + 1 ∧
            t.seq = g.seq ∧ t.regs = bitsAt d.bits 90 11 ∧ t.cont = false ∧
            ∀ r, r < 4 → kget 0 r t.v = rdV w (f.a.toNat + r) (act.getD j 0)))) ∧
  (∀ f s k w g, Clear (specM f.h 8 []) s k w → activeOf w f.h.mask ≠ 0 → s.group? (gidOf k) = some g →
    exec (.spawnFlush f) s = .next (book (specM f.h 8 []) k (coreOf s k) w true
      (formPartial (fun t => t.seq = g.seq) (s.threads.length + 1) (entryState (specM f.h 8 []) s k w))))) ∧
  ((∀ f s k w l, Clear (specM f.h 8 [sOp f.a]) s k w → activeOf w f.h.mask ≠ 0 → let va := (rdS w f.a.toNat).toNat
    va ≠ 0 → checkObj s (whoOf s k) va 8 8 needRd = .ok l → let x := rdN s l 8
    x % 2 ^ 32 = 0 ∨ (x / 2 ^ 48 ≠ 0 ∧ x % 2 ^ 32 = x / 2 ^ 48) → ∃ t w', exec (.joinWait f) s = .next t ∧
      RanMem (specM f.h 8 [sOp f.a]) [] [] [] (entriesOf s (tenantOf s k) va) true s k w t w' ∧ w'.xa = w.xa ∧
      w'.status = if x % 2 ^ 32 = 0 then 0 else 1) ∧
  (∀ f s k w l, Clear (specM f.h 8 [sOp f.d 1 true, sOp f.a]) s k w → activeOf w f.h.mask ≠ 0 → let va := (rdS w f.a.toNat).toNat
    va ≠ 0 → checkObj s (whoOf s k) va 8 8 needRd = .ok l → ∃ t w', exec (.joinPoll f) s = .next t ∧
      RanMem (specM f.h 8 [sOp f.d 1 true, sOp f.a]) [.s f.d.toNat] [] [] (entriesOf s (tenantOf s k) va) (decide (rdN s l 8 % 2 ^ 32 = 0)) s k w t w' ∧
      SameWait w w' ∧ w'.xa = w.xa ∧ rdS w' f.d.toNat = w64 (rdN s l 8)))

/-- R26 to R29, R239: a claim that fits behind an empty queue adds registers that read 0, from the group's budget first, then the core's free
registers; one that does not, queues its wave, looks for the deadlock of R29, and parks the group where it was adopted and nothing of it can run (R50; the order of
the two is log 89's); `reg.give` takes the top registers into the group's budget. A count that is no multiple of 8, or
a wave's count outside 8 to 1,536, is REG_RANGE; that INFO1 is the instruction's n, and that an evicted wave's claim keeps its place, are the model's
readings (logs 40 and 70). -/
def Obligations.RegisterClaims : Prop :=
  (∀ f s k w g, Clear (specM f.h 8 []) s k w → activeOf w f.h.mask ≠ 0 → s.group? (gidOf k) = some g → w.wait = .none → w.evicted = false →
    let n := f.n.toNat
    (n % 8 ≠ 0 ∨ w.regCount + n < 8 ∨ 1536 < w.regCount + n → exec (.regClaim f) s = .next (takeTrap (entryState (specM f.h 8 []) s k w) k 8
      { cause := .regRange, info0 := 0, info1 := w64 n, lanes := some (activeOf w f.h.mask) })) ∧
    (n % 8 = 0 → 8 ≤ w.regCount + n → w.regCount + n ≤ 1536 → (s.core (coreOf s k)).claims = [] → n ≤ g.budgetFree + freeRegs s (coreOf s k) →
      ∃ t w' g', exec (.regClaim f) s = .next t ∧ t.wave? k = some w' ∧ t.group? (gidOf k) = some g' ∧
        t = { s with waves := t.waves, cores := t.cores, groups := t.groups } ∧ (∀ j, j ≠ k → t.wave? j = s.wave? j) ∧
        (∀ h, h ≠ gidOf k → t.group? h = s.group? h) ∧ w' = { wavePart w w' with regCount := w.regCount + n } ∧ w'.pc = w.pc + 8 ∧ w'.xa = w.xa ∧
        (∀ r l, l < 32 → rdV w' r l = if r < w.regCount then rdV w r l else 0) ∧ w'.s = w.s ∧ w'.m = w.m ∧
        g' = { g with budgetFree := g.budgetFree - min n g.budgetFree, took := g.took + (n - min n g.budgetFree) }) ∧
    (n % 8 = 0 → 8 ≤ w.regCount + n → w.regCount + n ≤ 1536 → (s.core (coreOf s k)).claims ≠ [] ∨ g.budgetFree + freeRegs s (coreOf s k) < n →
      ∃ u w', exec (.regClaim f) s = .next (parkBlockedOwner (settleClaims u (coreOf s k) (gidOf k)) k) ∧
        (∀ v, NoHelper v k → parkBlockedOwner v k = v) ∧
        u.wave? k = some w' ∧ w'.wait = .claim ∧
        w'.claim = some (n, s.time / 2 ^ 32) ∧ w'.pc = w.pc ∧ w'.regCount = w.regCount ∧ k ∈ (u.core (coreOf s k)).claims ∧ u.groups = s.groups)) ∧
  (∀ f s k w, Clear (specM f.h 8 []) s k w → activeOf w f.h.mask ≠ 0 → let n := f.n.toNat
    let e := entryState (specM f.h 8 []) s k w
    (n % 8 ≠ 0 ∨ w.regCount < n + 8 ∨ 1536 + n < w.regCount → exec (.regGive f) s = .next (takeTrap e k 8
      { cause := .regRange, info0 := 0, info1 := w64 n, lanes := some (activeOf w f.h.mask) })) ∧
    (n % 8 = 0 → n + 8 ≤ w.regCount → w.regCount ≤ 1536 + n → ∃ u w', exec (.regGive f) s =
        .next (book (specM f.h 8 []) k (coreOf s k) w true (settleClaims u (coreOf s k) (gidOf k))) ∧ u.wave? k = some w' ∧
      w'.regCount = w.regCount - n ∧ (∀ r l, l < 32 → rdV w' r l = if r < w.regCount - n then rdV w r l else 0) ∧ w'.s = w.s ∧ w'.m = w.m ∧
      u = { s with waves := u.waves, cores := u.cores, groups := u.groups } ∧ (∀ j, j ≠ k → u.wave? j = s.wave? j) ∧
      (u.group? (gidOf k)) = (s.group? (gidOf k)).map (fun g => { g with budgetFree := g.budgetFree + n })))

/-! ### Class 14: graphics -/

/-- R325 to R329: a malformed bin set is BIN_FULL; `bin.end` closes it; `bin.end.reset` waits while it has readers, then checks, and clears,
its counters and entries and opens it; `bin.emit` emits lane by lane, and M[d] names the lanes that emitted.
R327, R328: a primitive whose area is 0, whose facing is culled, or that has a coordinate not finite or out of range is dropped: it names no
strip and emits nothing, in an open bin set. R328: a kept one names the strips below NSTRIP that hold a line whose centre lies within its rows;
with room in the array and in each strip it takes number PNEXT, which goes up by one as does each strip's COUNT, is stored there, and each strip
has its entry; else BIN_FULL names the array, or the lowest full strip, and the lane. -/
def Obligations.Bins : Prop :=
  ((∀ i f, i = .binEnd f ∨ i = .binEndReset f → ∀ s k w, Clear (specM f.h 8 [sOp f.a]) s k w → activeOf w f.h.mask ≠ 0 →
    let sp := specM f.h 8 [sOp f.a]
    let va := (rdS w f.a.toNat).toNat
    let e := entryState sp s k w
    let b := binSetAt e (whoOf s k) va
    let u := touch e (tenantOf s k) va false
    let failed := earlier (checkRange u (whoOf s k) (b.counter 0) (16 * b.nstrip) needRw)
      (checkRange u (whoOf s k) b.entries (8 * b.nstrip * b.cap) needRw)
    (∀ x, checkObj s (whoOf s k) va 64 64 needRw = .error x → exec i s = .next (takeTrap e k 8 (x.trap.withLanes sp w))) ∧
    (∀ l, checkObj s (whoOf s k) va 64 64 needRw = .ok l →
      (b.bad = true → exec i s = .next (takeTrap e k 8
        { cause := .binFull, info0 := rdS w f.a.toNat, info1 := 0xFFFFFFFC, lanes := some (activeOf w f.h.mask) })) ∧
      (b.bad = false → i = .binEnd f → exec i s = .next (book sp k (coreOf s k) w true (setBinState u (whoOf s k) b 1))) ∧
      (b.bad = false → i = .binEndReset f →
        (b.readers ≠ 0 → exec i s = .next (parkBlockedOwner (startWait u k .binReaders (rdS w f.a.toNat)) k)) ∧
        (b.readers = 0 → ∀ x, failed = some x → exec i s = .next (takeTrap u k 8 (x.trap.withLanes sp w))) ∧
        (b.readers = 0 → failed = none → exec i s = .next (book sp k (coreOf s k) w true
          (resetBins (touchRange u (tenantOf s k) b.entries (8 * b.nstrip * b.cap) true) (whoOf s k) b)))))) ∧
  (∀ f s k w, Clear (specM f.h 8 [mOp f.d true, vOp f.a 8, sOp f.b]) s k w → let sp := specM f.h 8 [mOp f.d true, vOp f.a 8, sOp f.b]
    let va := (rdS w f.b.toNat).toNat
    let e := entryState sp s k w
    let b := binSetAt e (whoOf s k) va
    let act := activeOf w f.h.mask
    (act = 0 → ∃ t w', exec (.binEmit f) s = .next t ∧ RanRegs sp [.m f.d.toNat] s k w t w' ∧ w'.xa = w.xa ∧ (f.d ≠ 0 → rdM w' f.d.toNat = 0)) ∧
    (act ≠ 0 → ∀ l, checkObj s (whoOf s k) va 64 64 needRw = .ok l → b.bad = false → ∀ u,
      emitLanes b f.a.toNat k (lanesOf act) (touch e (tenantOf s k) va false) = .ok u →
      ∃ t w' x, exec (.binEmit f) s = .next t ∧ t.wave? k = some w' ∧ u.wave? k = some x ∧ SameRegs [.m f.d.toNat] w w' ∧ w'.pc = w.pc + 8 ∧
        w'.emitted = 0 ∧ w'.done = 0 ∧ (f.d ≠ 0 → rdM w' f.d.toNat = x.emitted &&& act) ∧ t = { u with waves := t.waves, cores := t.cores }) ∧
    (act ≠ 0 → ∀ l, checkObj s (whoOf s k) va 64 64 needRw = .ok l → b.bad = false → ∀ t u,
      emitLanes b f.a.toNat k (lanesOf act) (touch e (tenantOf s k) va false) = .error (t, u) →
      exec (.binEmit f) s = .next (takeTrap u k 8 (t.withLanes sp w))))) ∧
  (∀ b p who s, Prim.cull p ≠ 3 → (binSetAt s who (BinSet.va b)).state ≠ 1 →
    (Prim.verts p = none ∨ ∃ vs, Prim.verts p = some vs ∧ (triArea vs = 0 ∨ (Prim.cull p = 1 ∧ triArea vs < 0) ∨ (Prim.cull p = 2 ∧ 0 < triArea vs))) →
    emitLane b p who s = .ok (s, false)) ∧
  (∀ (b : BinSet) vs st, 0 < b.sh → (st ∈ primStrips b vs ↔ st < b.nstrip ∧ ∃ py : Nat, py / b.sh = st ∧
    min (min (vy vs 0) (vy vs 1)) (vy vs 2) ≤ 256 * py + 128 ∧ 256 * (py : Int) + 128 ≤ max (max (vy vs 0) (vy vs 1)) (vy vs 2))) ∧
  (∀ b0 p who s vs, let b := binSetAt s who (BinSet.va b0)
    BinSet.va b0 % 64 = 0 → Prim.cull p ≠ 3 → b.state ≠ 1 → Prim.kept p = some vs → let ss := primStrips b vs
    (ss = [] → emitLane b0 p who s = .ok (s, false)) ∧
    ∀ c : Nat → Loc, ss ≠ [] → (∀ st ∈ ss, checkObj s who (b.counter st) 4 4 needRw = .ok (c st)) → let n (st : Nat) : Nat := rdN s (c st) 4
      (∀ st ∈ ss, word32 s who (b.counter st) = n st) →
      (b.pnext = b.pcap → emitLane b0 p who s = .error { cause := .binFull, info0 := w64 b.va, info1 := 0xFFFFFFFD }) ∧
      (∀ st, b.pnext ≠ b.pcap → ss.find? (fun x => n x = b.cap) = some st →
        emitLane b0 p who s = .error { cause := .binFull, info0 := w64 b.va, info1 := w64 st }) ∧
      (∀ hd pl (en : Nat → Loc), b.pnext ≠ b.pcap → (∀ st ∈ ss, n st ≠ b.cap) → resolve s who (b.va + 32) 4 {} = .ok hd →
        checkOne s who (b.prim b.pnext) 64 64 needWr .plain = .ok pl →
        (∀ st ∈ ss, checkOne s who (b.entry st (n st)) 8 8 needWr .plain = .ok (en st)) →
        let stored := (hd, 4) :: (pl, 64) :: (ss.map (fun st => (c st, 4)) ++ ss.map (fun st => (en st, 8)))
        let marks := ((b.va + 32) :: b.prim b.pnext :: (ss.map b.counter ++ ss.map (fun st => b.entry st (n st)))).flatMap (entriesOf s who.tenant)
        stored.Pairwise (fun x y => ∀ i, i < x.2 → (x.1.plus i).outside [y]) → (∀ x ∈ stored, ∀ i, i < x.2 → ∀ e ∈ marks, x.1.plus i ≠ .ext e) →
        ∃ u, emitLane b0 p who s = .ok (u, true) ∧ rdN u hd 4 = (b.pnext + 1) % 2 ^ 32 ∧ rdN u pl 64 = p.toNat ∧
          (∀ st ∈ ss, rdN u (c st) 4 = (n st + 1) % 2 ^ 32 ∧ rdN u (en st) 8 = b.pnext + 2 ^ 63) ∧
          (∀ l, l.outside stored → (∀ e ∈ marks, l ≠ .ext e) → rdByte u l = rdByte s l))) ∧
  (∀ b a k l r s w, s.wave? k = some w → let p : Prim := BitVec.ofNat 512 ((List.range 8).foldr (fun j x => (rdV w (a + j) l).toNat + 2 ^ 64 * x) 0)
    let bit := maskOf (fun x => x == l)
    (w.done.getLsbD l = true → emitLanes b a k (l :: r) s = emitLanes b a k r s) ∧
    (w.done.getLsbD l = false → (∀ u e, emitLane b p (whoOf s k) s = .ok (u, e) → ∃ v, emitLanes b a k (l :: r) s = emitLanes b a k r v ∧
        v = { u with waves := v.waves } ∧ (∀ j, j ≠ k → v.wave? j = u.wave? j) ∧ ∀ x, u.wave? k = some x → v.wave? k = some { x with
          done := x.done ||| bit, emitted := if e then x.emitted ||| bit else x.emitted &&& ~~~ bit }) ∧
      (∀ t, emitLane b p (whoOf s k) s = .error t → emitLanes b a k (l :: r) s =
        .error (if t.cause = .binFull then { t with lanes := some bit } else t, s))))

/-- R336 to R341: with a well-formed header, `ring.acq` of a FREE slot and `ring.acq.cons` of a published one mark it held, advance ACQ or TAKE
and give its address and sequence, waiting otherwise; `ring.rel` publishes a slot its group fills, `ring.rel.cons` is done with one it holds;
any other slot is RING_STATE. The header passes the checks of R60 first, then each slot entry in turn. `ring.halo` gives back a slot, or has it given
back on its release; below the first sequence acquired it does nothing, and which sequences those are is the model's choice (log 83); that the
sequence is S[b][31:0] is its reading (log 67). -/
def Obligations.RingInstructions : Prop :=
  (∀ i h sp a, (∃ f, (i = .ringAcq f ∨ i = .ringAcqCons f) ∧ a = f.a) ∨ (∃ f, (i = .ringRel f ∨ i = .ringRelCons f ∨ i = .ringHalo f) ∧ a = f.a) →
    waveOnly i = some (h, sp) → ∀ s k w, Clear sp s k w → activeOf w h.mask ≠ 0 → let va := (rdS w a.toNat).toNat
    (∀ x, checkObj s (whoOf s k) va 64 64 needRw = .error x → exec i s = .next (takeTrap (entryState sp s k w) k 8 (x.trap.withLanes sp w))) ∧
    (∀ l, checkObj s (whoOf s k) va 64 64 needRw = .ok l → ringBad (ringHdr (entryState sp s k w) (whoOf s k) va) = true →
      exec i s = .next (takeTrap (entryState sp s k w) k 8
        { cause := .ringState, info0 := rdS w a.toNat, info1 := 0xFFFFFFFF, lanes := some (activeOf w h.mask) }))) ∧
  (∀ i f sp, i = .ringAcq f ∨ i = .ringAcqCons f → waveOnly i = some (f.h, sp) → ∀ s k w l, Clear sp s k w → activeOf w f.h.mask ≠ 0 →
    let va := (rdS w f.a.toNat).toNat
    let e := entryState sp s k w
    let who := whoOf s k
    let h := ringHdr e who va
    let v := touch e (tenantOf s k) va false
    let gives (t : State) (i x : Nat) (cons : Bool) : State := acquire (State.setWave (holdSlot t k va (if cons then hTake h else hAcq h) cons) k
      (ringResult (entryWave sp s w) f.d.toNat i h (w64 x))) (coreOf s k) .dev
    checkObj s who va 64 64 needRw = .ok l → ringBad h = false →
    let slot (j : Nat) := touch v (tenantOf s k) (slotVa va j) false
    (i = .ringAcq f → let j := hAslot h
      let u := slot j
      let x := slotRd u who va j
      (∀ y, checkObj v who (slotVa va j) 16 16 needRw = .error y → exec i s = .next (takeTrap v k 8 (y.trap.withLanes sp w))) ∧
      ∀ m, checkObj v who (slotVa va j) 16 16 needRw = .ok m → (4 < bitsAt x 0 3 → exec i s = .next (takeTrap u k 8 { cause := .ringState, info0 := w64 va, info1 := w64 j, lanes := some (activeOf w f.h.mask) })) ∧
      (1 ≤ bitsAt x 0 3 → bitsAt x 0 3 ≤ 4 → exec i s = .next (parkBlockedOwner (startWait u k .ringAcq (w64 va)) k)) ∧
      (bitsAt x 0 3 = 0 → exec i s = .next (book sp k (coreOf s k) w true (gives
        (slotWr (wrVa (wrVa (noteAcq u who va h) who (va + 24) (leBytes 4 ((hAcq h + 1) % 2 ^ 32))) who (va + 40) [BitVec.ofNat 8 ((j + 1) % hNslot h)]) who va j
          (mkSlot 1 false false 0 (hAcq h) (gidOf k))) j (hAcq h) false)))) ∧
    (i = .ringAcqCons f → let q := hTake h
      let j := ringSlot h q
      let u := slot j
      let x := slotRd u who va j
      ((hCons h).testBit 12 = false → exec i s = .next (takeTrap v k 8
        { cause := .ringState, info0 := w64 va, info1 := 0xFFFFFFFF, lanes := some (activeOf w f.h.mask) })) ∧
      ((hCons h).testBit 12 = true → ¬ seqDiff q (hPub h) < 0 → exec i s = .next (parkBlockedOwner (startWait v k .ringAcq (w64 va)) k)) ∧
      ((hCons h).testBit 12 = true → seqDiff q (hPub h) < 0 → ∀ y, checkObj v who (slotVa va j) 16 16 needRw = .error y →
        exec i s = .next (takeTrap v k 8 (y.trap.withLanes sp w))) ∧
      ∀ m, checkObj v who (slotVa va j) 16 16 needRw = .ok m →
      ((hCons h).testBit 12 = true → seqDiff q (hPub h) < 0 → eSeq x ≠ q ∨ (bitsAt x 0 3 ≠ 2 ∧ bitsAt x 0 3 ≠ 3) → exec i s = .next (takeTrap u k 8
        { cause := .ringState, info0 := w64 va, info1 := w64 j, lanes := some (activeOf w f.h.mask) })) ∧
      ((hCons h).testBit 12 = true → seqDiff q (hPub h) < 0 → eSeq x = q → bitsAt x 0 3 = 2 ∨ bitsAt x 0 3 = 3 → exec i s = .next (book sp k (coreOf s k) w true (gives
        (slotWr (wrVa u who (va + 32) (leBytes 4 ((q + 1) % 2 ^ 32))) who va j (mkSlot 3 (eLate x) (eHrel x) (eDone x) q (gidOf k))) j
          (q + (if eLate x then 2 ^ 63 else 0)) true))))) ∧
  (∀ i f sp, i = .ringRel f ∨ i = .ringRelCons f ∨ i = .ringHalo f → waveOnly i = some (f.h, sp) → ∀ s k w l, Clear sp s k w →
    activeOf w f.h.mask ≠ 0 → let va := (rdS w f.a.toNat).toNat
    let e := entryState sp s k w
    let who := whoOf s k
    let h := ringHdr e who va
    let v := touch e (tenantOf s k) va false
    let q := (rdS w f.b.toNat).toNat % 2 ^ 32
    let j := ringSlot h q
    let u := touch v (tenantOf s k) (slotVa va j) false
    let x := slotRd u who va j
    let bad : Trap := { cause := .ringState, info0 := w64 va, info1 := w64 j, lanes := some (activeOf w f.h.mask) }
    checkObj s who va 64 64 needRw = .ok l → ringBad h = false →
    (∀ y, checkObj v who (slotVa va j) 16 16 needRw = .error y → exec i s = .next (takeTrap v k 8 (y.trap.withLanes sp w))) ∧
    ∀ m, checkObj v who (slotVa va j) 16 16 needRw = .ok m →
    (i = .ringRel f → let next := advanceFail u who va h j (hNslot h + 1) (hPub h)
      (bitsAt x 0 3 = 1 → eSeq x = q → eHolder x = gidOf k → ∀ y, next = some y → exec i s = .next (takeTrap u k 8 (y.trap.withLanes sp w))) ∧
      (bitsAt x 0 3 = 1 → eSeq x = q → eHolder x = gidOf k → next = none → exec i s = .next (book sp k (coreOf s k) w true
        (dropSlot (ringPublish u who va j false) k va q false))) ∧
      (bitsAt x 0 3 ≠ 1 ∨ eSeq x ≠ q ∨ eHolder x ≠ gidOf k → exec i s = .next (takeTrap u k 8 bad))) ∧
    (i = .ringRelCons f → ∀ g, s.group? (gidOf k) = some g →
      ((va, q, true) ∈ g.slots → exec i s = .next (book sp k (coreOf s k) w true (dropSlot (ringFinish u who va j 12) k va q true))) ∧
      ((va, q, true) ∉ g.slots → exec i s = .next (takeTrap u k 8 bad))) ∧
    (i = .ringHalo f → (eSeq x = q → bitsAt x 0 3 = 4 → exec i s = .next (book sp k (coreOf s k) w true (slotWr u who va j (setSt x 0)))) ∧
      (eSeq x = q → bitsAt x 0 3 = 2 ∨ bitsAt x 0 3 = 3 → exec i s = .next (book sp k (coreOf s k) w true
        (slotWr u who va j (mkSlot (bitsAt x 0 3) (eLate x) true (eDone x) q (eHolder x))))) ∧
      (eSeq x ≠ q ∨ (bitsAt x 0 3 ≠ 2 ∧ bitsAt x 0 3 ≠ 3 ∧ bitsAt x 0 3 ≠ 4) →
        (beforeFirst u who va h q = true → exec i s = .next (book sp k (coreOf s k) w true u)) ∧
        (beforeFirst u who va h q = false → exec i s = .next (takeTrap u k 8 bad)))))

/-- R335: `frag.out` and `frag.out.init` commit or drop the current batch, then take the batch that has been delivered, its lanes in M[m] and its
fragments in V[d] to V[d+2], or wait for one; before its group is bound, or with b = 0, `frag.out` is RING_STATE.
R330: the group's first `frag.out.init` reads its descriptor and the bin set's header, after their checks, and binds the group to the strip at its
cluster's raster unit; a descriptor that breaks Table 21.4 is RING_STATE, and while the unit serves another strip the wave waits. (The order of the
checks on the descriptor's address and on the bin set is the model's, log 106.) -/
def Obligations.FragmentInstructions : Prop :=
  let sp (h : Hd) (d a : Field11) (m : BitVec 3) (b : Option Field11) : Spec :=
    specM h 8 ([vOp d 3 true, sOp a] ++ (b.map vOp).toList ++ [{ reg := .m m.toNat, dest := true }])
  (∀ f s k w, Clear (sp f.h f.d f.a f.m (some f.b)) s k w → let e := entryState (sp f.h f.d f.a f.m (some f.b)) s k w
    let x := entryWave (sp f.h f.d f.a f.m (some f.b)) s w
    (f.b = 0 ∨ (s.group? (gidOf k)).bind (·.raster) = none → exec (.fragOut f) s = .next (takeTrap e k 8
      { cause := .ringState, info0 := rdS w f.a.toNat, info1 := 0xFFFFFFFE, lanes := some (activeOf w f.h.mask) })) ∧
    (f.b ≠ 0 → ∀ r, (s.group? (gidOf k)).bind (·.raster) = some r → let c := commitCur (activeOf w f.h.mask) f.b r.desc e k x
      (w.batch = none → exec (.fragOut f) s = .next (parkBlockedOwner (startWait c k .fragBatch 0) k)) ∧
      (∀ m, w.batch = some m → ∃ y z, c.wave? k = some y ∧ z = { wrM (fragResults c k y f.d.toNat m) f.m.toNat m with cur := m, batch := none } ∧
        exec (.fragOut f) s = .next (book (sp f.h f.d f.a f.m (some f.b)) k (coreOf s k) w true (c.setWave k z))))) ∧
  (∀ f s k w g, Clear (sp f.h f.d f.a f.m none) s k w → s.group? (gidOf k) = some g → g.raster.isSome = true →
    let e := entryState (sp f.h f.d f.a f.m none) s k w
    let c := commitCur 0 0 0 e k (entryWave (sp f.h f.d f.a f.m none) s w)
    (w.batch = none → exec (.fragOutInit f) s = .next (parkBlockedOwner (startWait c k .fragBatch 0) k)) ∧
    (∀ m, w.batch = some m → ∃ y z, c.wave? k = some y ∧ z = { wrM (fragResults c k y f.d.toNat m) f.m.toNat m with cur := m, batch := none } ∧
      exec (.fragOutInit f) s = .next (book (sp f.h f.d f.a f.m none) k (coreOf s k) w true (c.setWave k z)))) ∧
  (∀ f s k w g, Clear (sp f.h f.d f.a f.m none) s k w → s.group? (gidOf k) = some g → g.raster = none →
    let e := entryState (sp f.h f.d f.a f.m none) s k w
    let who : Who := { tenant := g.tenant }
    let va := (rdS w f.a.toNat).toNat
    let all : Option LaneMask := some (activeOf w f.h.mask)
    (∀ y, checkOne s (whoOf s k) va 64 64 needRd .plain = .error y →
      exec (.fragOutInit f) s = .next (takeTrap e k 8 (y.trap.withLanes (sp f.h f.d f.a f.m none) w))) ∧
    (∀ l, checkOne s (whoOf s k) va 64 64 needRd .plain = .ok l → let d : BitVec 512 := BitVec.ofNat 512 (rdN s l 64)
      let bad := rasterBad d (binSetAt s who (dBinset d)) (((s.group? (lsGroup s k)).map (·.lsKib)).getD 0)
      let u := touch e g.tenant (dBinset d) false
      let cl := coreOf s k / 8
      let r := s.raster cl
      let same : Prop := r.tenant = g.tenant ∧ r.binset = w64 (dBinset d) ∧ r.strip = dStrip d
      (inLocal va = false → exec (.fragOutInit f) s = .next (takeTrap e k 8 { cause := .addressRange, info0 := w64 va, lanes := all })) ∧
      (inLocal va = true → (∀ y, checkObj s who (dBinset d) 64 64 needRw = .error y →
        exec (.fragOutInit f) s = .next (takeTrap e k 8 (y.trap.withLanes (sp f.h f.d f.a f.m none) w))) ∧
      (∀ m, checkObj s who (dBinset d) 64 64 needRw = .ok m →
        (bad = true → exec (.fragOutInit f) s = .next (takeTrap e k 8
          { cause := .ringState, info0 := w64 va, info1 := 0xFFFFFFFF, lanes := all })) ∧
        (bad = false → r.busy = true → ¬ same → exec (.fragOutInit f) s = .next (parkBlockedOwner (startWait u k .rasterUnit (w64 va)) k)) ∧
        (bad = false → r.busy = false ∨ same → ∃ v, v = { u with rasters := v.rasters, groups := v.groups } ∧
          v.group? (gidOf k) = some { g with raster := some { desc := d, descAt := w64 va, cluster := cl } } ∧
          (∀ h, h ≠ gidOf k → v.group? h = u.group? h) ∧ (∀ c, c ≠ cl → v.raster c = s.raster c) ∧
          v.raster cl = (if r.busy then { r with groups := r.groups ++ [gidOf k] }
            else { r with binset := w64 (dBinset d), strip := dStrip d, tenant := g.tenant, busy := true, started := false, groups := [gidOf k],
                          nreg := dNreg d, tiles := [], level := 0 }) ∧
          (let c := commitCur 0 0 0 v k (entryWave (sp f.h f.d f.a f.m none) s w)
          (w.batch = none → exec (.fragOutInit f) s = .next (parkBlockedOwner (startWait c k .fragBatch 0) k)) ∧
          (∀ m, w.batch = some m → ∃ y z, c.wave? k = some y ∧ z = { wrM (fragResults c k y f.d.toNat m) f.m.toNat m with cur := m, batch := none } ∧
            exec (.fragOutInit f) s = .next (book (sp f.h f.d f.a f.m none) k (coreOf s k) w true (c.setWave k z)))))))))

/-- R351, R353, R352: `rt.trace` with a well-formed context starts a ray in each lane of Active, with the values of its registers; it writes the
ray-state blocks and, with LOG set, a log header of zeros for each ray. NaN, no direction or a ray still live is TRAVERSAL_STATE, a malformed
context RING_STATE, and a header that fails R60 the cause.
R354, Table 21.12: `rt.next` gives each lane the three registers of its ray's next event: none, an ended ray's final event again, a miss or a hit
where nothing waits to be visited, a user candidate, a hit that ends a FIRST ray, a logged triangle or user candidate of a replay, or its logged
end; lane after lane, each from the state that the last left. R351: a block that software has changed, and whose check word fails, is
TRAVERSAL_STATE reason 4.
R355: `rt.accept` commits a candidate nearer than the ray's end, once, and M[d] says in which lanes; in a replay it gives the logged HIT.
R346, R347, R350, R352: the visit of a stack entry: one farther than the ray's end is skipped; a reference of kind 3, a misaligned or invalid node is
TRAVERSAL_STATE reason 2, a failed read its cause, a log without room TRAVERSAL_LOG_FULL, a stack beyond 56 entries reason 5; else the hit
children go on the stack, the nearest on top; a leaf's triangles are taken in turn, each hit within the ray committed.
R356: `rt.replay` starts a replay in each lane from a log whose FINAL is 1 or 2; another FINAL is TRAVERSAL_STATE reason 3. (How far a ray has come is
kept with the wave, the blocks' bytes are free values, and what a changed block says is free: log 23; the order of the checks on a context, log 106.) -/
def Obligations.TraversalInstructions : Prop :=
  (∀ i h sp b, (∃ f, i = .rtTrace f ∧ b = f.b) ∨ (∃ f, i = .rtReplay f ∧ b = f.b) → waveOnly i = some (h, sp) → ∀ s k w, Clear sp s k w →
    activeOf w h.mask ≠ 0 → let va := (rdS w b.toNat).toNat
    let e := entryState sp s k w
    (∀ x, checkOne s (whoOf s k) va 64 64 needRd .plain = .error x → exec i s = .next (takeTrap e k 8 (x.trap.withLanes sp w))) ∧
    (∀ l, checkOne s (whoOf s k) va 64 64 needRd .plain = .ok l →
      (inLocal va = false → exec i s = .next (takeTrap e k 8 { cause := .addressRange, info0 := w64 va, lanes := some (activeOf w h.mask) })) ∧
      (inLocal va = true → contextBad (BitVec.ofNat 512 (rdN s l 64)) (((s.group? (lsGroup s k)).map (·.lsKib)).getD 0) = true →
        exec i s = .next (takeTrap e k 8 { cause := .ringState, info0 := w64 va, info1 := 0xFFFFFFFF, lanes := some (activeOf w h.mask) })))) ∧
  (∀ f sp, waveOnly (.rtTrace f) = some (f.h, sp) → ∀ s k w l, Clear sp s k w → activeOf w f.h.mask ≠ 0 → let va := (rdS w f.b.toNat).toNat
    checkOne s (whoOf s k) va 64 64 needRd .plain = .ok l → inLocal va = true → let c : BitVec 512 := BitVec.ofNat 512 (rdN s l 64)
    contextBad c (((s.group? (lsGroup s k)).map (·.lsKib)).getD 0) = false →
    let act := lanesOf (activeOf w f.h.mask)
    let ray (l : Nat) : Ray := newRay w f.a.toNat l ((rdS w f.c.toNat).toNat + l) c
    let bad (l : Nat) : Bool := rayBad (ray l) || rayLive w l
    let header (l : Nat) : Except Fail Loc := checkOne s (whoOf s k) (ray l).loga 16 16 needWr .plain
    let blocks : List (Loc × Nat) := act.map (fun l => (.ls (lsGroup s k) (cState c + 1024 * l), 1024))
    (∀ l ∈ act, bad l = true → (∀ m ∈ act, m < l → bad m = false) →
      exec (.rtTrace f) s = .next (takeTrap (entryState sp s k w) k 8
        { cause := .traversalState, reason := if rayBad (ray l) then 1 else 6, info0 := w64 ((rdS w f.c.toNat).toNat + l),
          lanes := some (activeOf w f.h.mask) })) ∧
    ((∀ l ∈ act, bad l = false) → c.getLsbD 144 = true → ∀ x, worst (act.map header) = some x →
      exec (.rtTrace f) s = .next (takeTrap (entryState sp s k w) k 8 (x.trap.withLanes sp w))) ∧
    (∀ place : Nat → Loc, (∀ l ∈ act, bad l = false) → (c.getLsbD 144 = true → ∀ l ∈ act, header l = .ok (place l)) →
      ∃ t w', exec (.rtTrace f) s = .next t ∧ t.wave? k = some w' ∧ w' = { wavePart w w' with rays := w'.rays } ∧ SameRegs [] w w' ∧ w'.xa = w.xa ∧
        w'.pc = w.pc + 8 ∧ (∀ j, j ≠ k → t.wave? j = s.wave? j) ∧
        MemSame (blocks ++ (if c.getLsbD 144 then act.map (fun l => (place l, 16)) else [])) []
          (if c.getLsbD 144 then entriesAll s (tenantOf s k) true (act.map (fun l => (ray l).loga)) else []) s { t with fresh := s.fresh } ∧
        (c.getLsbD 144 = true → ∀ l ∈ act, (∀ i, i < 16 → ((place l).plus i).outside blocks) → rdN t (place l) 16 = 0) ∧
        ∀ l, l < 32 → kfind l w'.rays = if (activeOf w f.h.mask).getLsbD l
          then some { ray l with shadow := ((kfind l w'.rays).map (·.shadow)).getD 0 } else kfind l w.rays)) ∧
  (∀ f sp, waveOnly (.rtNext f) = some (f.h, sp) → ∀ s k w, Clear sp s k w → activeOf w f.h.mask ≠ 0 →
    let act := lanesOf (activeOf w f.h.mask)
    let run : Except Trap State := nextLanes (whoOf s k) { core := coreOf s k, since := roSince s w.key.seq } (lsGroup s k) k f.d.toNat act (entryState sp s k w)
    (∀ u, run = .ok u → exec (.rtNext f) s = .next (book sp k (coreOf s k) w true u)) ∧
    (∀ t, run = .error t → exec (.rtNext f) s = .next (takeTrap (entryState sp s k w) k 8 (t.withLanes sp w))) ∧
    (let ovr (r : Ray) : Prop := r.done.isSome = true ∧ (r.replay = true ∨ (r.cand = none ∧ r.done ≠ some 3))
     let last (r : Ray) : Prop := r.replay = false ∧ r.log = false ∧
       (r.done = some 3 ∨ (r.done = none ∧ r.leaf = none ∧ r.stack = [] ∧ rdN s (.ls (lsGroup s k) r.block) 1024 = r.shadow))
     let ended (r : Ray) : Ray := { r with done := some (if r.done = some 3 ∨ r.hit.isSome = true then 2 else 1) }
     (∀ l ∈ act, ∀ r, kfind l w.rays = some r → ovr r ∨ last r) →
      ∃ t w', exec (.rtNext f) s = .next t ∧ t.wave? k = some w' ∧ t = { s with waves := t.waves, cores := t.cores } ∧
        (∀ j, j ≠ k → t.wave? j = s.wave? j) ∧ w' = { wavePart w w' with rays := w'.rays } ∧ w'.xa = w.xa ∧ w'.pc = w.pc + 8 ∧
        SameRegs [.v f.d.toNat, .v (f.d.toNat + 1), .v (f.d.toNat + 2)] w w' ∧
        ∀ l, l < 32 →
          ((activeOf w f.h.mask).getLsbD l = false → kfind l w'.rays = kfind l w.rays ∧ ∀ q, rdV w' q l = rdV w q l) ∧
          ((activeOf w f.h.mask).getLsbD l = true → ∀ x : Nat × Nat × Nat,
            (kfind l w.rays = none ∧ x = (0, 0, 0)) ∨ (∃ r, kfind l w.rays = some r ∧ ovr r ∧ x = finalRegs r) ∨
              (∃ r, kfind l w.rays = some r ∧ last r ∧ x = finalRegs (ended r)) →
            rdV w' f.d.toNat l = w64 x.1 ∧ rdV w' (f.d.toNat + 1) l = w64 x.2.1 ∧ rdV w' (f.d.toNat + 2) l = w64 x.2.2))) ∧
  (∀ who at_ lg k d l rest s, nextLanes who at_ lg k d (l :: rest) s = match nextLanes who at_ lg k d [l] s with
    | .ok s' => nextLanes who at_ lg k d rest s'
    | .error t => .error t) ∧
  (∀ who at_ lg k d s w l, s.wave? k = some w → l < 32 →
    (kfind l w.rays = none → NextGives who at_ lg k d s w l (0, 0, 0) (· = none)) ∧
    (∀ r, kfind l w.rays = some r →
      (r.done.isSome = true → r.replay = true ∨ (r.cand = none ∧ r.done ≠ some 3) → NextGives who at_ lg k d s w l (finalRegs r) (· = some r)) ∧
      (r.done = some 3 → r.replay = false → r.log = false → NextGives who at_ lg k d s w l (finalRegs { r with done := some 2 })
        (fun y => ∃ r', y = some r' ∧ r'.done = some 2 ∧ r'.hit = r.hit)) ∧
      (rayNow s lg r = none → nextLanes who at_ lg k d [l] s = .error { cause := .traversalState, reason := 4, info0 := w64 r.idx }) ∧
      (∀ r0, r.done = none → rayNow s lg r = some r0 →
        (r0.replay = false → r0.cand = none →
          (r0.log = false → r0.leaf = none → r0.stack = [] → let n := if r0.hit.isSome then 2 else 1
            NextGives who at_ lg k d s w l (finalRegs { r0 with done := some n }) (fun y => ∃ r', y = some r' ∧ r'.done = some n ∧ r'.hit = r0.hit)) ∧
          (∀ a n tn i p, r0.leaf = some (a, 2, n, tn, i) → i < n → checkOne s who (a + 16 * i) 16 16 needRd .plain = .ok p →
            NextGives who at_ lg k d s w l (evWord 3 r0.tmax i false, a + 16 * i, tn) (fun y => ∃ r', y = some r' ∧
              r'.cand = some (a + 16 * i, i, tn) ∧ r'.tried = false ∧ r'.leaf = some (a, 2, n, tn, i + 1) ∧ r'.tmax = r0.tmax ∧ r'.hit = r0.hit ∧
              r'.done = none)) ∧
          (∀ a kind n tn i s1 x q, r0.log = false → r0.first = true → r0.leaf = some (a, kind, n, tn, i) → kind ≠ 2 → i < n →
            rtRead who at_ false (a + 48 * i) 3 s = .ok (s1, x) → triTest r0 (recCoord x) = some q → le32 r0.tmin q.t = true →
            lt32 q.t r0.tmax = true → NextGives who at_ lg k d s w l (evWord 2 q.t i false, a + 48 * i, q.b1 + q.b2 * 2 ^ 32)
              (fun y => ∃ r', y = some r' ∧ r'.done = some 2 ∧ r'.tmax = q.t))) ∧
        (∀ h, r0.replay = true → checkOne s who r0.loga 16 16 needRd .plain = .ok h →
          let s1 := touch s who.tenant r0.loga false
          let va := r0.loga + 16 * r0.logPos
          (field (rdN s h 16) 0 32 < r0.logPos → NextGives who at_ lg k d s w l (finalRegs { r0 with done := some (field (rdN s h 16) 32 3) })
            (fun y => ∃ r', y = some r' ∧ r'.done = some (field (rdN s h 16) 32 3) ∧ r'.hit = r0.hit)) ∧
          (r0.logPos ≤ field (rdN s h 16) 0 32 → ∀ p, checkOne s1 who va 16 16 needRd .plain = .ok p →
            let x := rdN s1 p 16
            let acc := decide (field x 8 1 = 1)
            let at2 : Option (Nat × Nat × Nat) := some (field x 64 64, field x 16 8, field x 32 32)
            (field x 24 8 = 2 → ∀ s3 y, rtRead who at_ false (field x 64 64) 3 (touch s1 who.tenant va false) = .ok (s3, y) →
              ∃ b1 b2, NextGives who at_ lg k d s w l (evWord 4 (field x 32 32) (field x 16 8) acc, field x 64 64, b1 + b2 * 2 ^ 32)
                  (fun y => ∃ r', y = some r' ∧ r'.lastHit = acc ∧ r'.cand = at2 ∧ r'.logPos = r0.logPos + 1) ∧
                (∀ q, triTest { r0 with logPos := r0.logPos + 1 } (recCoord y) = some q → r0.o ≠ [] → b1 = q.b1 ∧ b2 = q.b2)) ∧
            (field x 24 8 = 3 → NextGives who at_ lg k d s w l (evWord 5 (field x 32 32) (field x 16 8) acc, field x 64 64, 0)
              (fun y => ∃ r', y = some r' ∧ r'.lastHit = acc ∧ r'.cand = at2 ∧ r'.logPos = r0.logPos + 1))))))) ∧
  (∀ who at_ lg k d s w l r0, s.wave? k = some w → (∃ r, kfind l w.rays = some r ∧ r.done = none ∧ rayNow s lg r = some r0) → r0.done = none →
    r0.replay = false → r0.cand = none → let stops (t : Trap) : Prop := nextLanes who at_ lg k d [l] s = .error t
    let goes (s' : State) (r' : Ray) : Prop := ∀ n, rayRun who at_ (n + 1) s r0 = rayRun who at_ n s' r'
    let full : Prop := r0.log = true ∧ r0.logn ≤ r0.logCount + 1
    let logFull : Trap := { cause := .traversalLogFull, info0 := w64 r0.loga, info1 := w64 r0.logn }
    let bad (n : Nat) : Trap := { cause := .traversalState, reason := n, info0 := w64 r0.idx }
    (∀ st e, r0.leaf = none → r0.stack = st ++ [e] → let a := refAddr e.ref
      (lt32 r0.tmax e.tn = true → goes s { r0 with stack := st }) ∧
      (lt32 r0.tmax e.tn = false → (refKind e.ref = 3 ∨ refKind e.ref = 0 ∧ a % 128 ≠ 0 → stops (bad 2)) ∧
        (refKind e.ref = 1 ∨ refKind e.ref = 2 → goes s { r0 with stack := st, leaf := some (a, refKind e.ref, refCount e.ref, e.tn, 0) }) ∧
        (refKind e.ref = 0 → a % 128 = 0 → (∀ x, rtRead who at_ true a 8 s = .error (.fail x) → stops { x.trap with lanes := none }) ∧
          ∀ s1 n, rtRead who at_ true a 8 s = .ok (s1, n) → (nodeBad n = true → stops (bad 2)) ∧ (nodeBad n = false → full → stops logFull) ∧
            (nodeBad n = false → r0.log = false → ∃ hits : List RayEntry,
              hits.Pairwise (fun x y => lt32 x.tn y.tn = true ∨ (lt32 y.tn x.tn = false ∧ x.idx < y.idx)) ∧
              (∀ x, x ∈ hits ↔ x.idx < 8 ∧ nodeValid n x.idx = true ∧ x.ref = nodeRef n x.idx ∧ boxTest r0 n x.idx = some x.tn) ∧
              (56 < st.length + hits.length → stops (bad 5)) ∧
              (st.length + hits.length ≤ 56 → goes (prefetchNodes who at_ s1 (hits.map (·.ref))) { r0 with stack := st ++ hits.reverse }))))) ∧
    (∀ a kind n tn i, r0.leaf = some (a, kind, n, tn, i) → (n ≤ i → goes s { r0 with leaf := none }) ∧
      (i < n → kind ≠ 2 → (∀ x, rtRead who at_ false (a + 48 * i) 3 s = .error (.fail x) → stops { x.trap with lanes := none }) ∧
        ∀ s1 x, rtRead who at_ false (a + 48 * i) 3 s = .ok (s1, x) → (full → stops logFull) ∧
          (r0.log = false → let next := some (a, kind, n, tn, i + 1)
            ((∀ q, triTest r0 (recCoord x) = some q → le32 r0.tmin q.t = false ∨ lt32 q.t r0.tmax = false) → goes s1 { r0 with leaf := next }) ∧
            (∀ q, triTest r0 (recCoord x) = some q → le32 r0.tmin q.t = true → lt32 q.t r0.tmax = true → r0.first = false →
              goes s1 { r0 with leaf := next, tmax := q.t
                                hit := some { user := false, t := q.t, addr := a + 48 * i, attr := q.b1 + q.b2 * 2 ^ 32, index := i } }))))) ∧
  (∀ who s r addr t kind index hit, (r.log = false → logEntry who s r addr t kind index hit = .ok (s, r)) ∧
    (r.log = true → r.logn ≤ r.logCount + 1 → logEntry who s r addr t kind index hit = .error .logFull) ∧
    (r.log = true → r.logCount + 1 < r.logn → ∀ l h, checkOne s who (r.loga + 16 * (r.logCount + 1)) 16 16 needWr .plain = .ok l →
      checkOne s who r.loga 16 16 needWr .plain = .ok h → ∃ u v, logEntry who s r addr t kind index hit = .ok (v, { r with logCount := r.logCount + 1 }) ∧
        MemSame [(l, 16)] [] (entriesOf s who.tenant (r.loga + 16 * (r.logCount + 1))) s u ∧
        rdN u l 16 = (addr * 2 ^ 64 + t * 2 ^ 32 + kind * 2 ^ 24 + index * 2 ^ 16 + (if hit then 2 ^ 8 else 0)) % 2 ^ 128 ∧
        MemSame [(h, 4)] [] (entriesOf u who.tenant r.loga) u v ∧ rdN v h 4 = (r.logCount + 1) % 2 ^ 32)) ∧
  (∀ f s k w, Clear (specM f.h 8 [mOp f.d true, vOp f.a, vOp f.b]) s k w → ∃ t w', exec (.rtAccept f) s = .next t ∧ t.wave? k = some w' ∧
    t = { s with waves := t.waves, cores := t.cores } ∧ (∀ j, j ≠ k → t.wave? j = s.wave? j) ∧
    w' = { wavePart w w' with rays := w'.rays } ∧ SameRegs [.m f.d.toNat] w w' ∧ w'.xa = w.xa ∧ w'.pc = w.pc + 8 ∧
    ∀ l, l < 32 → let bit (b : Bool) : Prop := f.d ≠ 0 → (rdM w' f.d.toNat).getLsbD l = b
      let t64 := fround (fmtOf .f32) .rne false (fdec (fmtOf .f64) (rdV w f.a.toNat l).toNat)
      ((activeOf w f.h.mask).getLsbD l = false → kfind l w'.rays = kfind l w.rays ∧ bit false) ∧
      ((activeOf w f.h.mask).getLsbD l = true → kfind l w.rays = none → kfind l w'.rays = none ∧ bit false) ∧
      (∀ r, (activeOf w f.h.mask).getLsbD l = true → kfind l w.rays = some r →
        (r.replay = true → kfind l w'.rays = some r ∧ bit (r.lastHit && r.cand.isSome)) ∧
        (r.replay = false → r.cand = none ∨ r.tried = true → kfind l w'.rays = some r ∧ bit false) ∧
        (∀ a i tn, r.replay = false → r.tried = false → r.cand = some (a, i, tn) →
          (le32 r.tmin t64 = true → lt32 t64 r.tmax = true → bit true ∧ kfind l w'.rays = some { r with
            tried := true, accepted := true, tmax := t64, done := if r.first then some 3 else r.done
            hit := some { user := true, t := t64, addr := a, attr := (rdV w f.b.toNat l).toNat, index := i } }) ∧
          (le32 r.tmin t64 = false ∨ lt32 t64 r.tmax = false → bit false ∧ kfind l w'.rays = some { r with tried := true })))) ∧
  (∀ f sp, waveOnly (.rtReplay f) = some (f.h, sp) → ∀ s k w l, Clear sp s k w → activeOf w f.h.mask ≠ 0 → let va := (rdS w f.b.toNat).toNat
    checkOne s (whoOf s k) va 64 64 needRd .plain = .ok l → inLocal va = true → let c : BitVec 512 := BitVec.ofNat 512 (rdN s l 64)
    contextBad c (((s.group? (lsGroup s k)).map (·.lsKib)).getD 0) = false →
    let act := lanesOf (activeOf w f.h.mask)
    let loga (l : Nat) : Nat := bitsAt c 64 64 + 16 * bitsAt c 128 16 * ((rdS w f.c.toNat).toNat + l)
    let header (l : Nat) : Except Fail Loc := checkOne s (whoOf s k) (loga l) 16 16 needRd .plain
    (∀ x, worst (act.map header) = some x → exec (.rtReplay f) s = .next (takeTrap (entryState sp s k w) k 8 (x.trap.withLanes sp w))) ∧
    (∀ place : Nat → Loc, (∀ l ∈ act, header l = .ok (place l)) → let final (l : Nat) : Nat := field (rdN s (place l) 16) 32 3
      (∀ l ∈ act, final l = 0 ∨ 2 < final l → (∀ m ∈ act, m < l → final m = 1 ∨ final m = 2) → exec (.rtReplay f) s = .next (takeTrap
        (entryState sp s k w) k 8 { cause := .traversalState, reason := 3, info0 := w64 ((rdS w f.c.toNat).toNat + l),
                                    lanes := some (activeOf w f.h.mask) })) ∧
      ((∀ l ∈ act, final l = 1 ∨ final l = 2) →
        ∃ t w', exec (.rtReplay f) s = .next t ∧ t.wave? k = some w' ∧ w' = { wavePart w w' with rays := w'.rays } ∧ SameRegs [] w w' ∧ w'.xa = w.xa ∧
          w'.pc = w.pc + 8 ∧ (∀ j, j ≠ k → t.wave? j = s.wave? j) ∧
          MemSame (act.map (fun l => (.ls (lsGroup s k) (cState c + 1024 * l), 1024))) [] (entriesAll s (tenantOf s k) false (act.map loga)) s
            { t with fresh := s.fresh } ∧
          ∀ l, l < 32 → ((activeOf w f.h.mask).getLsbD l = false → kfind l w'.rays = kfind l w.rays) ∧
            ((activeOf w f.h.mask).getLsbD l = true → ∃ r, kfind l w'.rays = some r ∧ r.replay = true ∧
              r.idx = (rdS w f.c.toNat).toNat + l ∧ r.loga = loga l ∧ r.logPos = 1 ∧ r.hit = none ∧ r.cand = none ∧ r.done = none))))

/-- R346, R348: a box's bounds are the exact ones rounded outwards; an axis gives the distances of the exact quotients rounded outwards, or a miss where
the ray runs beside the box; the child is hit when the greatest entry is not above the least exit. R346: which nodes are invalid.
R349: the triangle test in ray space, every rounding RNE: the axes, the sheared vertices, U, V and W in FP32, or in FP64 where one is 0, the hit
inside the edges or on those it owns, and t, b1 and b2 the exact quotients rounded once; CULL.
R331 to R333: a sample is covered by the edge functions and the top-left rule; depth and weights are the exact quotients rounded once; a block of a level
gives one fragment with a bit for each covered pixel, and its centre's weights and depth; a tile's fragments are those of its strip's kept
primitives. (The signs of zeros are left open here.) -/
def Obligations.BoxesTrianglesAndCoverage : Prop :=
  let val (x : Nat) : ℚ := (v32 x).rat
  (∀ n c k hi, isFin (nodeOrigin n k) = true → ∃ neg, f32.Rounds (if hi then .rup else .rdn) neg
    ((val (nodeOrigin n k) + nodeBox n c (if hi then k + 3 else k) * (2 : ℚ) ^ ((nodeExp n k : Int) - 127) : ℚ) : ℝ) (nodeBound n c k hi)) ∧
  (∀ n, nodeBad n = true ↔ (∃ k, k < 3 ∧ (nodeExp n k = 0 ∨ nodeExp n k = 255 ∨ isFin (nodeOrigin n k) = false)) ∨
    ∃ c, c < 8 ∧ nodeValid n c = true ∧ (refKind (nodeRef n c) = 3 ∨ ∃ k, k < 3 ∧ nodeBox n c (k + 3) < nodeBox n c k)) ∧
  (∀ o d lo hi, isFin o = true → isFin d = true → isFin lo = true → isFin hi = true →
    (val d = 0 → axisTest o d lo hi = if val o < val lo ∨ val hi < val o then none else some (f32.infBits true, f32.infBits false)) ∧
    (val d ≠ 0 → ∃ tn tf a b, axisTest o d lo hi = some (tn, tf) ∧
      f32.Rounds .rdn a ((((if 0 < val d then val lo else val hi) - val o) / val d : ℚ) : ℝ) tn ∧
      f32.Rounds .rup b ((((if 0 < val d then val hi else val lo) - val o) / val d : ℚ) : ℝ) tf)) ∧
  (∀ r n c, let ax (k : Nat) := axisTest (r.o.getD k 0) (r.d.getD k 0) (nodeBound n c k false) (nodeBound n c k true)
    ((∃ k, k < 3 ∧ ax k = none) → boxTest r n c = none) ∧
    ∀ x y z, ax 0 = some x → ax 1 = some y → ax 2 = some z →
      let tn := maxf (maxf (maxf r.tmin x.1) y.1) z.1
      let tf := minf (minf (minf r.tmax x.2) y.2) z.2
      boxTest r n c = if le32 tn tf = true then some tn else none) ∧
  (∀ x y, (v32 x).isNan = false → (v32 y).isNan = false → (maxf x y = x ∨ maxf x y = y) ∧ le32 x (maxf x y) = true ∧ le32 y (maxf x y) = true ∧
    (minf x y = x ∨ minf x y = y) ∧ le32 (minf x y) x = true ∧ le32 (minf x y) y = true) ∧
  (∀ d : List Nat, (∀ k, k < 3 → isFin (d.getD k 0) = true) → (∃ k, k < 3 ∧ val (d.getD k 0) ≠ 0) →
    let x := triAxes d
    let z := x.2.2
    z < 3 ∧ (∀ j, j < 3 → |val (d.getD j 0)| ≤ |val (d.getD z 0)|) ∧ (∀ j, j < z → |val (d.getD j 0)| < |val (d.getD z 0)|) ∧
      (0 < val (d.getD z 0) → x.1 = (z + 1) % 3 ∧ x.2.1 = (z + 2) % 3) ∧ (val (d.getD z 0) < 0 → x.1 = (z + 2) % 3 ∧ x.2.1 = (z + 1) % 3)) ∧
  (∀ (r : Ray) (p : Nat → Nat), let x := triAxes r.d
    let dz := r.d.getD x.2.2 0
    let sz := fdiv f32 .rne (FV.ofInt 1) (v32 dz)
    let rel := triRel r p
    (∀ k, isFin (p k) = true → isFin (r.o.getD k 0) = true → f32.RoundsTo (val (p k) - val (r.o.getD k 0)) (rel k)) ∧
    (isFin dz = true → val dz ≠ 0 → f32.RoundsTo (1 / val dz) sz ∧
      ∀ k, isFin (r.d.getD k 0) = true → f32.RoundsTo (val (r.d.getD k 0) / val dz) (triShear r k)) ∧
    (isFin (rel x.2.2) = true →
      (isFin (rel x.1) = true → isFin (triShear r x.1) = true →
        f32.RoundsTo (val (rel x.1) - val (triShear r x.1) * val (rel x.2.2)) (triPoint r p).1) ∧
      (isFin (rel x.2.1) = true → isFin (triShear r x.2.1) = true →
        f32.RoundsTo (val (rel x.2.1) - val (triShear r x.2.1) * val (rel x.2.2)) (triPoint r p).2.1) ∧
      (isFin sz = true → f32.RoundsTo (val sz * val (rel x.2.2)) (triPoint r p).2.2))) ∧
  (∀ (a b c : Nat × Nat × Nat), (∀ p ∈ [a, b, c], isFin p.1 = true ∧ isFin p.2.1 = true) →
    (∀ f, f = fmtOf .f32 ∨ f = fmtOf .f64 → ∃ u v w, triEdges f a b c = [fdec f u, fdec f v, fdec f w] ∧
      f.RoundsTo (val c.1 * val b.2.1 - val c.2.1 * val b.1) u ∧ f.RoundsTo (val a.1 * val c.2.1 - val a.2.1 * val c.1) v ∧
      f.RoundsTo (val b.1 * val a.2.1 - val b.2.1 * val a.1) w) ∧
    ((∃ x ∈ triEdges f32 a b c, x.isZero = true) → triUvw a b c = triEdges (fmtOf .f64) a b c) ∧
    ((∀ x ∈ triEdges f32 a b c, x.isZero = false) → triUvw a b c = triEdges f32 a b c)) ∧
  (∀ (r : Ray) vs, let a := triPoint r (vs 0)
    let b := triPoint r (vs 1)
    let c := triPoint r (vs 2)
    let e := triUvw a b c
    let u := (e.getD 0 .nan).rat
    let v := (e.getD 1 .nan).rat
    let w := (e.getD 2 .nan).rat
    let det := u + v + w
    let edge (y : ℚ) (p q : Nat × Nat × Nat) : Prop :=
      let dx := if det < 0 then val p.1 - val q.1 else val q.1 - val p.1
      let dy := if det < 0 then val p.2.1 - val q.2.1 else val q.2.1 - val p.2.1
      0 < (if det < 0 then -y else y) ∨ y = 0 ∧ (0 < dy ∨ dy = 0 ∧ dx < 0)
    (∀ x ∈ e, ∃ s n m, x = FV.fin s n m) → (∀ p ∈ [a, b, c], isFin p.1 = true ∧ isFin p.2.1 = true ∧ isFin p.2.2 = true) →
    (det = 0 ∨ (r.cull = 1 ∧ det < 0) ∨ (r.cull = 2 ∧ 0 < det) → triTest r vs = none) ∧
    (det ≠ 0 → (r.cull = 1 → 0 < det) → (r.cull = 2 → det < 0) → let inside := edge u b c ∧ edge v c a ∧ edge w a b
      (¬ inside → triTest r vs = none) ∧
      (inside → ∃ q, triTest r vs = some q ∧ f32.RoundsTo ((u * val a.2.2 + v * val b.2.2 + w * val c.2.2) / det) q.t ∧
        f32.RoundsTo (v / det) q.b1 ∧ f32.RoundsTo (w / det) q.b2))) ∧
  (∀ x0 y0 x1 y1 x2 y2 px py : Int, let vs := [(x0, y0), (x1, y1), (x2, y2)]
    let area := (x1 - x0) * (y2 - y0) - (y1 - y0) * (x2 - x0)
    let us := if area < 0 then [(x0, y0), (x2, y2), (x1, y1)] else vs
    let e (us : List (Int × Int)) (k : Nat) : Int := (vx us ((k + 1) % 3) - vx us k) * (py - vy us k) + (vy us k - vy us ((k + 1) % 3)) * (px - vx us k)
    triArea vs = area ∧
    (covered vs px py = true ↔ ∀ k, k < 3 → 0 < e us k ∨ e us k = 0 ∧
      (0 < vy us k - vy us ((k + 1) % 3) ∨ vy us k = vy us ((k + 1) % 3) ∧ 0 < vx us ((k + 1) % 3) - vx us k)) ∧
    (area ≠ 0 → (∀ k, k < 3 → f32.RoundsTo ((e vs k : ℚ) / area) (weightAt vs k px py)) ∧
      ∀ p : Prim, (∀ k, k < 3 → isFin (p.coord k 2) = true) → f32.RoundsTo
        ((e vs 1 * val (p.coord 0 2) + e vs 2 * val (p.coord 1 2) + e vs 0 * val (p.coord 2 2)) / area) (depthAt p vs px py))) ∧
  (levelBlock 0 = (1, 1) ∧ levelBlock 1 = (1, 2) ∧ levelBlock 2 = (2, 2) ∧ levelBlock 3 = (2, 4) ∧ levelBlock 4 = (4, 4)) ∧
  (∀ g d sh level idx p vs bx y, let bw := (levelBlock level).1
    let bh := (levelBlock level).2
    let px (dx : Nat) : Int := 256 * ((dX0 d + bx + dx : Nat) : Int) + 128
    let py (dy : Nat) : Int := 256 * ((dStrip d * sh + y + dy : Nat) : Int) + 128
    let on (dx dy : Nat) : Prop := covered vs (px dx) (py dy) = true ∧ (v32 (depthAt p vs (px dx) (py dy))).isNan = false
    let cx : Int := 256 * ((dX0 d + bx : Nat) : Int) + 128 * bw
    let cy : Int := 256 * ((dStrip d * sh + y : Nat) : Int) + 128 * bh
    ((∀ dx dy, dx < bw → dy < bh → ¬ on dx dy) → fragOf g d sh level idx p vs bx y = none) ∧
    ((∃ dx dy, dx < bw ∧ dy < bh ∧ on dx dy) → ∃ f, fragOf g d sh level idx p vs bx y = some f ∧ f.gid = g ∧ f.x = bx ∧ f.y = y ∧ f.level = level ∧
      f.prim = idx ∧ f.owner = none ∧ (∀ dx dy, dx < bw → dy < bh → (f.cover.testBit (dy * bw + dx) = true ↔ on dx dy)) ∧ f.cover < 2 ^ (bw * bh) ∧
      f.l1 = weightAt vs 2 cx cy ∧ f.l2 = weightAt vs 0 cx cy ∧ f.z = depthAt p vs cx cy)) ∧
  (∀ s who b d g level tx f, f ∈ tileFrags s who b d g level tx ↔ ∃ q ∈ stripPrims s who b (dStrip d), ∃ vs, Prim.kept q.2 = some vs ∧
    ∃ i j, i < 32 / (levelBlock level).1 ∧ j < b.sh / (levelBlock level).2 ∧
      fragOf g d b.sh level q.1 q.2 vs (tx + (levelBlock level).1 * i) ((levelBlock level).2 * j) = some f)

/-! ### What the device does between instructions: waits, transfers, matrix and raster units -/

/-- R34, R50, R118, R152, R185, R303, R322, R338: how each wait ends, the wave's instruction then issuing again. A sleep ends at its deadline, a wait for
the launch table or for a segment once there is one, and each stands till then; the wake of a ring's wait and the retest of a helping waiter make the
wave test its condition again, and it sleeps again where that does not hold; a token's completion ends its wave's wait for a token; a
completion of a core's engines (copies, matrix operations) ends every wait on that core for a copy slot, a matrix slot, a handle or accumulator
space; the raster unit's release ends the waits for a unit and for a bin set's readers. A pending result is in its register; a wave waiting at `rejoin` or `exit` pops its token once the join count is 0, and the stall count
of its `rejoin`, which the wait keeps, runs from there (R125); an encoding that is no
instruction is ILLEGAL_OPCODE. (The model's choices: the step that ends a wait comes when the agenda lets it, log 3; when a pending result comes,
log 13; how segments and launch-table entries are counted, log 33.) -/
def Obligations.WaitsEnd : Prop :=
  (∀ s k w, Named s k w →
    (w.wait = .sleep → exec .sleepUntilWake s = .next (if w.waitArg.toNat ≤ s.ns then clearWait s k else s)) ∧
    (w.wait.helps = true → exec .waiterRetest s = .next (if w.helping = 0 ∨ w.grant = true then (clearWait s k).modWave k (fun w => { w with retest := true }) else s)) ∧
    (w.wait = .launchTable → exec .launchTableWaitEnd s = .next (if launchFull s then s else clearWait s k)) ∧
    (w.wait = .segment → exec .spawnSegmentWaitEnd s = .next
      (if segGranted s (coreOf s k) (((s.group? (gidOf k)).map (·.seq)).getD 0) w.waitArg then clearWait s k else s)) ∧
    (w.wait = .ringAcq → exec .ringAcqWake s = .next (clearWait s k)) ∧
    (∃ t w', exec .scoreboardResult s = .next t ∧ t.wave? k = some w' ∧ w' = { w with pend := w.pend.eraseIdx s.input.idx } ∧
      (∀ j, j ≠ k → t.wave? j = s.wave? j) ∧ t = { s with waves := t.waves }) ∧
    (∀ tok rest, w.wait = .joinCount → w.tokens = rest ++ [tok] → joinCount s tok.join = 0 → tok.entry &&& ~~~ w.exited ≠ 0 →
      ∃ t w', exec .joinCountZero s = .next t ∧ t.wave? k = some w' ∧ w'.wait = .none ∧ w'.path = tok.entry &&& ~~~ w.exited ∧
        w'.pc = tok.rejoin + 8 ∧ w'.tokens = rest ∧ w'.exited = w.exited ∧ SameRegs [] w w' ∧ (∀ j, j ≠ k → t.wave? j = s.wave? j) ∧
        w'.stallUntil = if w.waitArg = 1 then w.stallUntil else s.cycle + 1 + w.waitArg.toNat / 2) ∧
    (∀ tok rest, w.wait = .joinCount → w.tokens = rest ++ [tok] → joinCount s tok.join ≠ 0 → exec .joinCountZero s = .next s)) ∧
  (∀ x : Wait, x.engine = true ↔ x = .copySlot ∨ x = .matrixSlot ∨ x = .handle ∨ x = .accSpace) ∧
  (∀ s c j w, s.wave? j = some w → (wakeEngine s c).wave? j = some
    (if w.wait.engine = true ∧ (s.group? (gidOf j)).bind (·.core?) = some c then { w with wait := .none, waitArg := 0 } else w)) ∧
  (∀ s k r n w, s.wave? k = some w → ∃ w', (complete s (.token k r) n).wave? k = some w' ∧ w'.tokenPend = w.tokenPend.erase r ∧
    w'.wait = if w.wait = .token then .none else w.wait) ∧
  (∀ s cl, (s.raster cl).busy = true → (s.raster cl).started = true →
    (∀ g ∈ (s.raster cl).groups, ∀ rb, (s.group? g).bind (·.raster) = some rb → rb.told = true) →
    ((unitSettle s cl).raster cl).busy = false ∧ ∀ j w, s.wave? j = some w → (unitSettle s cl).wave? j = some
      (if w.wait = .rasterUnit ∨ w.wait = .binReaders then { w with wait := .none, waitArg := 0 } else w)) ∧
  (∀ s k w, s.cur = some k → s.wave? k = some w → exec .illegalOpcode s = .next (takeTrap s k s.input.idx
    { cause := .illegalOpcode, info0 := s.input.value, lanes := some w.path }))

/-- R37, R312, R28: at the end of an ageing quantum the pending lanes of the top token run and the former path becomes pending. Where the top
token has none and a lower one has, and blocks are granted, the current path is ejected as continuation threads counted in the top token's object,
the tokens above the pending one are forwarded and popped, and its pending lanes run; without blocks the wave waits, and where the queue's declared
occupancy would be passed, as with nothing pending at all, only the count of issues restarts. A wave passed over too long is starved; the claim at
the head of a core's queue that fits is served, its wave goes on after its instruction with the registers added, and the claims behind it are served
in turn; a head that does not fit holds the queue. (That a PEND whose lanes have all exited counts as empty is the model's reading, log 77; that an
ejection without blocks waits, and one past the declared occupancy restarts the count, log 59; how blocks and segments are granted, log 33.) -/
def Obligations.AgeingStarvationAndClaims : Prop :=
  (∀ s k w, Named s k w → w.wait = .none → (s.core (coreOf s k)).quantumM1 + 1 ≤ w.age →
    (∀ tok rest, w.tokens = rest ++ [tok] → tok.pend &&& ~~~ w.exited ≠ 0 →
      ∃ t w', exec .ageingQuantum s = .next t ∧ t.wave? k = some w' ∧ w'.path = tok.pend &&& ~~~ w.exited ∧ w'.pc = tok.pendPc ∧
        w'.tokens = rest ++ [{ tok with pend := w.path, pendPc := w.pc }] ∧ w'.age = 0 ∧ SameRegs [] w w' ∧
        (∀ j, j ≠ k → t.wave? j = s.wave? j) ∧ t = { s with waves := t.waves, cores := t.cores } ∧
        ∀ c, t.core c = { s.core c with pathChanges := (s.core c).pathChanges + if c = coreOf s k then 1 else 0 }) ∧
    ((∀ tok ∈ w.tokens, tok.pend &&& ~~~ w.exited = 0) → exec .ageingQuantum s = .next (s.setWave k { w with age := 0 })) ∧
    (∀ lower p upper tok, w.tokens = lower ++ p :: (upper ++ [tok]) → p.pend &&& ~~~ w.exited ≠ 0 →
      (∀ x ∈ upper ++ [tok], x.pend &&& ~~~ w.exited = 0) → let n := popMask w.path
      let g := grantBlocks s (coreOf s k) (((s.group? (gidOf k)).map (·.seq)).getD 0) .cont n (contBlocks w)
      (g = .wait → exec .ageingQuantum s = .next s) ∧
      (∀ m, g = .overflow m → exec .ageingQuantum s = .next (s.setWave k { w with age := 0 })) ∧
      (∀ ps, g = .places ps → (s.group? (gidOf k)).isSome = true → ∃ u x ts j q z, exec .ageingQuantum s = .next (gather u (coreOf s k)) ∧
        u.wave? k = some x ∧ x.path = p.pend &&& ~~~ w.exited ∧ x.pc = p.pendPc ∧ x.age = 0 ∧ SameRegs [] w x ∧
        x.tokens = lower ++ [{ p with join := some q, pend := 0, pendPc := z }] ∧ (tok.join = some j ∨ tok.join = none ∧ j = s.nextJoin) ∧
        (u.core (coreOf s k)).pathChanges = (s.core (coreOf s k)).pathChanges + 1 ∧ (∀ i, i ≠ k → u.wave? i = s.wave? i) ∧
        u.threads = s.threads ++ ts ∧ ts.map (·.info.originLane) = lanesOf w.path ∧
        (∀ t ∈ ts, t.cont = true ∧ t.entry = w.pc ∧ t.info.join = some j ∧ t.info.originWave = k ∧ t.regs = w.regCount ∧ t.s = w.s ∧ t.m = w.m ∧
          t.mode = w.mode ∧ ∀ r, kget 0 r t.v = rdV w r t.info.originLane) ∧
        (upper = [] → tok.join.isNone = true ∨ tok.join ≠ p.join → (∀ y, tok.join = some y ∨ p.join = some y → y < s.nextJoin ∧ (kfind y s.joins).isSome = true) →
          (joinObj u q).count = joinCount s p.join + joinCount s tok.join + n)))) ∧
  (∀ s k w, Named s k w → w.age < (s.core (coreOf s k)).quantumM1 + 1 → exec .ageingQuantum s = .next s) ∧
  (∀ s k w, Named s k w → w.wait = .none → 3 ≤ issueClass s k → (s.core (coreOf s k)).starveM1 + 1 ≤ w.unselected →
    exec .issueStarvation s = .next (s.setWave k { w with starved := true })) ∧
  (∀ s c, s.input.who = c → (s.core c).claims = [] → exec .claimServed s = .next s) ∧
  (∀ s, ∃ t, exec .claimServed s = .next t) ∧
  (∀ s c k q n stamp w g, s.input.who = c → (s.core c).claims = k :: q → s.wave? k = some w → s.group? (gidOf k) = some g →
    w.wait = .claim → w.claim = some (n, stamp) →
    (g.budgetFree + freeRegs s c < n → exec .claimServed s = .next s) ∧
    (n ≤ g.budgetFree + freeRegs s c → ∃ t w', exec .claimServed s = exec .claimServed t ∧ (q = [] → exec .claimServed s = .next t) ∧
      t.input = s.input ∧ (∀ j, j ≠ k → t.wave? j = s.wave? j) ∧ t.wave? k = some w' ∧ w'.wait = .none ∧ w'.claim = none ∧
      w'.regCount = w.regCount + n ∧ w'.pc = w.pc + 8 ∧ w'.s = w.s ∧ w'.m = w.m ∧
      (∀ r l, l < 32 → rdV w' r l = if r < w.regCount then rdV w r l else 0) ∧ (t.core c).claims = q ∧
      ∃ g', t.group? (gidOf k) = some g' ∧
        g' = { g with budgetFree := g.budgetFree - min n g.budgetFree, took := g.took + (n - min n g.budgetFree) }))

/-- R210, R212, R213, R228, R246 to R248, R257, R268, Table 13.10: the two events of the copy engine always give a next state. A transfer of a
resident group moves its bytes from its position in dense order, each from its place to its place by the record's addressing, every other byte of
memory as it was but for the walker's marks; at its end its slot is free, a token's register holds the completion with the byte count, the tile of
an `acc.ld` holds the elements converted, a `dq.push` publishes its ticket; where an access fails, the transfer keeps the position of the
byte that failed and takes the cause. R251, R253: bytes of a feed copy arrive: READ passes the skips they end, and a feed copy that READ has passed is
complete; one that cannot deliver a byte for which its FIFO has room takes the cause. (That the remaining bytes move in one step, that a `cp.out`
writes elements of one address in dense order, and that a NaN of an `acc.ld` becomes canonical are the model's choices, logs 12, 73 and
102; what the publication of a `dq.push` may find is log 45; which translation an access uses is free, log 7.) -/
def Obligations.TransfersComplete : Prop :=
  (∀ s, (∃ t, exec .copyComplete s = .next t) ∧ ∃ t, exec .copyTransferFault s = .next t) ∧
  (∀ s i x g c, s.input.who = i → kfind i s.xfers = some x → x.id = i → s.group? x.gid = some g → g.core? = some c →
    (x.kind = .feedA ∨ x.kind = .feedB → exec .copyComplete s = .next (let t := passFeeds s x.gid
      if t.xfers.length < s.xfers.length then wakeEngine t c else t)) ∧
    (x.kind ≠ .feedA → x.kind ≠ .feedB → ∀ t y, xferRun (x.bytes + 1) s x = (t, y, none) →
      exec .copyComplete s = .next (wakeEngine (finishXfer t y) c) ∧ exec .copyTransferFault s = .next s ∧
      (x.kind = .cpIn ∨ x.kind = .cpOut ∨ x.kind = .cpLl ∨ x.kind = .accSt → ∀ k r w, x.cw = .token k r → s.wave? k = some w →
        ∃ u w', exec .copyComplete s = .next u ∧ kfind i u.xfers = none ∧ u.wave? k = some w' ∧
          rdS w' r = w64 (2 ^ 56 + x.bytes % 2 ^ 31)) ∧
      (x.kind = .accLd → ∀ w m, s.wave? x.wave = some w → kfind x.handle w.tiles = some m → ∃ u w' m', exec .copyComplete s = .next u ∧
        kfind i u.xfers = none ∧ u.wave? x.wave = some w' ∧ w'.tiles = kset x.handle m' w.tiles ∧ m' = { m with e := m'.e } ∧
        ∀ n, n < m.m * m.n → let size := x.shape.ty.width / 8
          m'.e[n]? = some (w64 (convert envRne false x.shape.ty m.ty (leNat ((y.data.drop (size * n)).take size))))) ∧
      (x.kind = .dqPush → let v : State := { t with xfers := kdel i t.xfers }
        exec .copyComplete s = .next (wakeEngine (dqPublish v (x.who v) (dqAt v (x.who v) x.queue.toNat) x.ticket 0) c))) ∧
    (x.kind ≠ .feedA → x.kind ≠ .feedB → ∀ t y e, xferRun (x.bytes + 1) s x = (t, y, some e) →
      exec .copyComplete s = .next (faultXfer t y e) ∧ exec .copyTransferFault s = .next (faultXfer t y e) ∧
      ∀ w, t.wave? x.wave = some w → faultXfer t y e = takeTrapAt { t with xfers := kset i y t.xfers } x.wave x.pc 0 e.trap) ∧
    (x.kind ≠ .feedA → x.kind ≠ .feedB → x.pos ≤ x.bytes → ∀ t y r, xferRun (x.bytes + 1) s x = (t, y, r) →
      y = { x with pos := y.pos, data := y.data } ∧ x.pos ≤ y.pos ∧ y.pos ≤ x.bytes ∧
      (∃ st : Nat → State × Xfer, st x.pos = (s, x) ∧ st y.pos = (t, y) ∧ ∀ p, x.pos ≤ p → p < y.pos → (st p).2.pos = p ∧
        ∃ z, xferByte (st p).1 (st p).2 p = .ok z ∧ st (p + 1) = (z.1, { z.2 with pos := p + 1 })) ∧
      (r = none → y.pos = x.bytes) ∧
      ∀ e, r = some e → (y.pos < x.bytes ∧ xferByte t y y.pos = .error e) ∨ (y.pos = x.bytes ∧ pushFail t y = some e)) ∧
    (x.kind = .feedA ∨ x.kind = .feedB → exec .copyTransferFault s = .next (match feedFail s x.gid g (x.kind == .feedB) with
      | some (p, e) => if p = i then faultXfer s x e else s
      | none => s))) ∧
  (∀ s x p, MovesByte s x p) ∧ ∀ s who sh, RecordReads s who sh

/-- R245, R261, R263, R264: the operation at the head of a group's matrix queue completes: its entry leaves the queue and the tile holds the
products added to it; a scan stores its state and its outputs, which the recurrence of R274 to R277 gives, and its status quadword; a crew's operation
starts and completes on every member together with the B bytes of rank 0, only while every member is on its core with that operation begun, or, where
a byte cannot be delivered, on none; the lowest rank that disagrees takes CREW_MISMATCH. What happens to an
operation once a member, or rank 0, has exited, the instant at which operands are read, and the sign of zero in a scan's fused steps are the model's
choices (logs 80, 12 and 66). -/
def Obligations.MatrixUnitSteps : Prop :=
  (∀ s gid g c e rest as bs, s.input.who = gid → s.group? gid = some g → g.core? = some c → g.mq = e :: rest → e.ssm = false → e.crew = false →
    operandRead s gid false e.pA e.nA = .ok as → operandRead s gid true e.pB e.nB = .ok bs →
    ∃ u v, exec .mmaComplete s = .next (afterMatrix [gid] v) ∧ u = feedTouch (feedTouch s gid false e.pA e.nA) gid true e.pB e.nB ∧
      (∃ g', v.group? gid = some g' ∧ g'.mq = rest ∧ (e.nA = 0 → g'.feedA = g.feedA) ∧ (e.nA ≠ 0 → g'.feedA.read = e.pA + e.nA) ∧
        (e.nB = 0 → g'.feedB = g.feedB) ∧ (e.nB ≠ 0 → g'.feedB.read = e.pB + e.nB)) ∧
      (∀ w t, u.wave? e.wave = some w → kfind e.ad w.tiles = some t →
        v.wave? e.wave = some { w with tiles := kset e.ad (mmaTileOut e e.tabB t as bs) w.tiles }) ∧
      v = { u with waves := v.waves, groups := v.groups }) ∧
  (∀ s gid g, s.input.who = gid → s.group? gid = some g → (∀ e ∈ g.mq.head?, e.ssm = true ∨ e.crew = true ∧ e.started = false) →
    exec .mmaComplete s = .next s) ∧
  (∀ s gid g c e rest z, s.input.who = gid → s.group? gid = some g → g.core? = some c → g.mq = e :: rest → e.ssm = false → e.crew = true →
    (crewRanks s gid).head? = some z → ∀ q qs, z.2.mq = q :: qs → let ids := (crewRanks s gid).map (·.1)
    let ready : Prop := z.2.rank = 0 ∧
      ∀ p ∈ crewRanks s gid, p.2.core?.isSome = true ∧ ∃ x xs, p.2.mq = x :: xs ∧ x.crew = true ∧ x.opNo = e.opNo ∧ x.started = true
    (¬ ready → exec .mmaComplete s = .next s) ∧
    (ready →
      (∀ x, headsRead s ids = .error x → exec .mmaComplete s = .next (feedStop s x)) ∧
      (∀ xs x, headsRead s ids = .ok xs → operandRead s z.1 true q.pB q.nB = .error x → exec .mmaComplete s = .next (feedStop s x)) ∧
      (∀ xs bs, headsRead s ids = .ok xs → operandRead s z.1 true q.pB q.nB = .ok bs → xs.map (·.1) = ids ∧
        exec .mmaComplete s = .next (afterMatrix ids (xs.foldl (fun s p => mmaFinish p.1 q.tabB p.2 bs s) s))))) ∧
  (∀ s gid g c e rest as bs, s.input.who = gid → s.group? gid = some g → g.core? = some c → g.mq = e :: rest → e.ssm = true →
    operandRead s gid false e.pA e.nA = .ok as → operandRead s gid true e.pB e.nB = .ok bs →
    let q := scanOf e.block
    let lg := lsGroup s (keyOf gid 0)
    let rd (a n : Nat) : List Byte := rdBytes s (.ls lg a) n
    let r := scanOut q (vals32 q.xf (if q.src then as else rd q.xa q.xLen) (q.h * q.l * q.p))
      (vals32 q.bf (if q.src then bs.take q.bLen else rd q.ba q.bLen) (q.l * q.n))
      (vals32 q.cf (if q.src then bs.drop q.bLen else rd q.ca q.cLen) (q.l * q.n)) (vals32 q.dtf (rd q.dta q.dtLen) (q.h * q.l))
      (vals32 .f32 (rd q.aa q.aLen) q.h) (vals32 q.sf (rd q.sa q.sLen) (q.h * q.n * q.p))
    let u := wrN (wrBytes (wrBytes (feedTouch (feedTouch s gid false e.pA e.nA) gid true e.pB e.nB) (.ls lg q.sa) r.1) (.ls lg q.ya) r.2.1)
      (.ls lg (e.blockAt + 56)) 8 r.2.2
    ∃ v, exec .ssmComplete s = .next (afterMatrix [gid] (complete v e.cw (q.sLen + q.yLen + 8))) ∧
      (∃ g', v.group? gid = some g' ∧ g'.mq = rest ∧ (e.nA = 0 → g'.feedA = g.feedA) ∧ (e.nA ≠ 0 → g'.feedA.read = e.pA + e.nA) ∧
        (e.nB = 0 → g'.feedB = g.feedB) ∧ (e.nB ≠ 0 → g'.feedB.read = e.pB + e.nB)) ∧
      v = { u with groups := v.groups } ∧ ∀ l, rdByte v l = rdByte u l) ∧
  (∀ (c : Scan) x b cc dt a st, 0 < c.l → 0 < c.p → x.length = c.h * c.l * c.p → b.length = c.l * c.n → cc.length = c.l * c.n → dt.length = c.h * c.l →
    a.length = c.h → st.length = c.h * c.n * c.p → ScanGives c x b cc dt a st) ∧
  (∀ s gid g, s.input.who = gid → s.group? gid = some g → let ops := (g.mq.filter (·.crew)).map (·.opNo)
    (∀ n, ops.find? (crewLacks s gid) = some n → exec .crewOperationStart s = .next (crewLeft s gid n)) ∧
    (ops.find? (crewLacks s gid) = none →
      (∀ n rest r h e, ops = n :: rest → crewDisagrees s gid n = some (r, some h, e) → exec .crewOperationStart s = .next (takeTrapAt s e.wave e.pc 0
        { cause := .crewMismatch, info0 := w64 r, info1 := w64 n, lanes := some (BitVec.allOnes 32) })) ∧
      ((∀ n ∈ ops, crewDisagrees s gid n = none) →
        ((∀ n ∈ ops.head?, crewReady s gid n = false) → exec .crewOperationStart s = .next s) ∧
        (∀ n rest, ops = n :: rest → crewReady s gid n = true → ∃ t, exec .crewOperationStart s = .next t ∧ t = { s with groups := t.groups } ∧
          (∀ p ∈ crewRanks s gid, ∀ g e rest, s.group? p.1 = some g → g.mq = e :: rest → ∃ g' e', t.group? p.1 = some g' ∧ g'.mq = e' :: rest ∧
            e' = { e with started := true }) ∧
          ∀ h, (∀ p ∈ crewRanks s gid, p.1 ≠ h) → t.group? h = s.group? h))))

/-- R317, R320, R329, R330, R333 to R335, R342 to R345: an entry starts its chain at its START on the cluster chosen, or its occurrence is passed
where no cluster is free; the cluster is one whose raster unit is idle, with enough available cores and the most render cores that no chain holds, the
lowest on a tie; the chain takes the lowest-numbered of its cores, render cores first, and its head is published at PRIO 7 with PART 0; at its FINISH the sequence bound to it is late unless it is below PUB, and LATE counts it once (log 37); a display takes its line from the strip's slot or the late
strip's colour; an encoder begins a strip and, once its stream has room, codes it as one tile row, of bytes the spec leaves open (log 25); the raster
unit starts once its regions are bound and the bins closed, goes from
tile to tile, and delivers its fragments to waiting waves. (Also the model's: which entry of the timetable comes when, log 36; what a line not yet
published shows, log 37; the raster unit's corners, log 68.) -/
def Obligations.StripsOutputsAndRaster : Prop :=
  (∀ s t e, replaceTable s = s → s.table = some t → t.entries[s.input.who]? = some e → tValid e = true → let n := kget 0 s.input.who t.started
    (s.ns < tStart e + n * tPeriod e → exec .stripStart s = .next s) ∧
    (tPeriod e = 0 → 0 < n → exec .stripStart s = .next s) ∧
    (tStart e + n * tPeriod e ≤ s.ns → (tPeriod e = 0 → n = 0) →
      (chainCluster s (tCores e) = none → exec .stripStart s = .next (countStart s s.input.who)) ∧
      (∀ k, chainCluster s (tCores e) = some k →
        (∀ u, launchChain s t e (tFinish e + n * tPeriod e) k = some u → exec .stripStart s = .next (countStart u s.input.who)) ∧
        (launchChain s t e (tFinish e + n * tPeriod e) k = none → exec .stripStart s = .next s)))) ∧
  (∀ s n, let fits (k : Nat) : Prop := k < 32 ∧ (s.raster k).busy = false ∧ n ≤ (clusterCores s k).length
    let render (k : Nat) : Nat := ((clusterCores s k).filter (fun c => (s.core c).part == 0 && (s.core c).chains.isEmpty)).length
    (chainCluster s n = none ↔ ∀ k, ¬ fits k) ∧
    ∀ k, chainCluster s n = some k → fits k ∧ ∀ j, fits j → render j < render k ∨ (render j = render k ∧ k ≤ j)) ∧
  (∀ s k n, n ≤ (clusterCores s k).length → (chainCores s k n).length = n ∧ (chainCores s k n).Nodup ∧
    ∀ c ∈ chainCores s k n, c ∈ clusterCores s k ∧ ∀ d ∈ clusterCores s k, d ∉ chainCores s k n →
      ((s.core c).part = 0 ∧ (s.core d).part ≠ 0) ∨ (((s.core c).part = 0 ↔ (s.core d).part = 0) ∧ c < d)) ∧
  (∀ s t (e : BitVec 512) finish k l u id, let q := s.ring t.ring
    let cs := chainCores s k (tCores e)
    let head := s.nextSeq
    let taken := emptyCores (cs.foldl (fun s c => s.modCore c (fun x => { x with part := 0, chains := head :: x.chains, moving := false })) s) cs
    let chain (u : State) (id : Nat) : Chain := { entry := e, head := id, cluster := k, cores := cs, launched := u.ns, finish := finish }
    let r : BitVec 512 := BitVec.ofNat 512 (rdN s l 64)
    checkOne s { tenant := q.tenant } (tChain e) 64 64 { rd := true } .plain = .ok l →
    publish (touch taken q.tenant (tChain e) false) (chainRecord r) (w64 (tChain e)) q.tenant t.ring 1 none {} (some head)
      { cause := .recordInvalid, tenant := q.tenant } = .ok u id → ((u.task? id).map (·.state)) ≠ some .refused →
    launchChain s t e finish k = some { u with chains := kset id (chain u id) u.chains } ∧
      bitsAt (chainRecord r) 228 3 = 7 ∧ bitsAt (chainRecord r) 226 2 = 0 ∧
      ∀ i, i < 226 ∨ 231 ≤ i → (chainRecord r).getLsbD i = r.getLsbD i) ∧
  (∀ s t e, s.table = some t → t.entries[s.input.who]? = some e → tValid e = true → let n := kget 0 s.input.who t.finished
    let o := kget {} (tOut e) s.outputs
    let who : Who := { tenant := o.tenant }
    let va := bitsAt o.desc 0 56
    let h := ringHdr s who va
    (kget 0 s.input.who t.started ≤ n ∨ s.ns < tFinish e + n * tPeriod e → exec .stripFinish s = .next s) ∧
    (n < kget 0 s.input.who t.started → tFinish e + n * tPeriod e ≤ s.ns →
      let q := boundSeq t o (tOut e) s.input.who n
      let seen := hdrTouch s o.tenant va
      let late := countLate seen who va (tOut e) q
      (o.bound = false → exec .stripFinish s = .next (countFinish s s.input.who)) ∧
      (o.bound = true → seqDiff q (hPub h) < 0 → exec .stripFinish s = .next (countFinish seen s.input.who)) ∧
      (o.bound = true → ¬ seqDiff q (hPub h) < 0 → exec .stripFinish s = .next (countFinish
        ((ringOutputs late who va).foldl (fun s o' => skipStrip s o' q (bitsAt e 128 32)) late) s.input.who)))) ∧
  (∀ s out o, s.input.who = out → out < 4 → kfind out s.outputs = some o → o.bound = true → let d := o.desc
    let who : Who := { tenant := o.tenant }
    let h := ringHdr s who (oRing d)
    let y := o.line % (oHeight d + oVblank d)
    (s.time * 1000 < (oT0 d * 1000 + o.line * oLinePs d) * 2 ^ 32 → exec .displayScanLine s = .next s) ∧
    ((oT0 d * 1000 + o.line * oLinePs d) * 2 ^ 32 ≤ s.time * 1000 →
      (oHeight d ≤ y → exec .displayScanLine s = .next (setOutput s out { o with line := o.line + 1, started := true })) ∧
      (y < oHeight d → ∃ t px fill, exec .displayScanLine s = .next t ∧ t.outward = s.outward ++ [.displayLine out y fill px] ∧
        px.length = 4 * oWidth d ∧ (∃ o', kfind out t.outputs = some o' ∧ o'.line = o.line + 1) ∧
        (∀ c, stripSeen s out o who h = .late c → fill = true ∧ px = pixelBytes (oPfmt d) (List.replicate (oWidth d) c)) ∧
        (∀ i, stripSeen s out o who h = .slot i → fill = false ∧
          px = pixelBytes (oPfmt d) (slotLine (beginSlot (hdrTouch s o.tenant (oRing d)) who (oRing d) i) who h i (y % max (hLines h) 1) (oWidth d)))))) ∧
  (∀ s out o, s.input.who = out → 4 ≤ out → out < 12 → kfind out s.outputs = some o → o.bound = true → let d := o.desc
    let who : Who := { tenant := o.tenant }
    let h := ringHdr s who (oRing d)
    let n := min (hLines h) (oHeight d - o.rows % cdiv (oHeight d) (hLines h) * hLines h)
    hLines h = 64 ∨ hLines h = 128 →
      let begun := { o with coding := true, started := true }
      let s1 := hdrTouch s o.tenant (oRing d)
      (stripSeen s out o who h = .no ∨ (o.coding = true ∧ streamOpen s o.func (oStream d) = false) → exec .encoderStrip s = .next s1) ∧
      (o.coding = false → (∀ c, stripSeen s out o who h = .late c → exec .encoderStrip s = .next (setOutput s1 out begun)) ∧
        (∀ i, stripSeen s out o who h = .slot i → exec .encoderStrip s = .next (setOutput (beginSlot s1 who (oRing d) i) out begun))) ∧
      (o.coding = true → streamOpen s o.func (oStream d) = true → ∀ c, stripSeen s out o who h = .late c → ∃ o', exec .encoderStrip s = .next
        (codeRow (setOutput s1 out o') out o (hLines h) true (List.replicate n (List.replicate (oWidth d) c))) ∧
          o'.seq = o.seq + 1 ∧ o'.rows = o.rows + 1 ∧ o'.coding = false) ∧
      (o.coding = true → streamOpen s o.func (oStream d) = true → ∀ i, stripSeen s out o who h = .slot i → ∃ u, exec .encoderStrip s = .next
        (ringFinish (codeRow u out o (hLines h) false ((List.range n).map (fun y => slotLine s1 who h i y (oWidth d)))) who (oRing d) i out) ∧
          (kget {} out u.outputs).seq = o.seq + 1 ∧ (kget {} out u.outputs).rows = o.rows + 1 ∧ (kget {} out u.outputs).coding = false)) ∧
  (∀ s cl, s.input.who = cl → let r := s.raster cl
    let b := binSetAt s { tenant := r.tenant } r.binset.toNat
    (r.busy = false ∨ r.started = true ∨ r.groups.length < r.nreg ∨ b.state ≠ 1 → exec .rasterStripStart s = .next s) ∧
    (r.busy = true → r.started = false → r.nreg ≤ r.groups.length → b.state = 1 → ∃ u, exec .rasterStripStart s = .next (loadTile u cl) ∧
      (u.raster cl).started = true ∧ (u.raster cl).tiles = unitTiles (setWord32 s { tenant := r.tenant } (b.va + 36) ((b.readers + 1) % 2 ^ 32)) r.groups)) ∧
  (∀ s cl, s.input.who = cl → let r := s.raster cl
    (r.tiles = [] → exec .rasterTileEnd s = .next (unitSettle s cl)) ∧
    (∀ p rest, r.tiles = p :: rest → (r.started = false ∨ (∃ f ∈ r.frags, f.owner = none) → exec .rasterTileEnd s = .next s) ∧
      (r.started = true → (∀ f ∈ r.frags, f.owner ≠ none) → unitChain s cl = none →
        exec .rasterTileEnd s = .next (loadTile (s.modRaster cl (fun r => { r with tiles := rest })) cl)) ∧
      (r.started = true → (∀ f ∈ r.frags, f.owner ≠ none) → ∀ c x, unitChain s cl = some (c, x) →
        let n : Nat × Nat := if rest = [] then (r.level, x.streak)
          else shadeStep s.ns x.launched (x.done + 1) (tTiles x.entry) x.finish (tGuard x.entry) (tCeil x.entry) r.level x.streak
        ∃ u, exec .rasterTileEnd s = .next (loadTile u cl) ∧ (u.raster cl).tiles = rest ∧ (u.raster cl).level = n.1 ∧
          kfind c u.chains = some { x with done := x.done + 1, streak := n.2 }))) ∧
  (∀ s k w, s.input.who = k → s.wave? k = some w → let r := s.raster (clusterOf s k)
    let give := ((deliverable s (gidOf k) [] r.frags 0).zip (lanesOf w.path)).take 32
    (w.wait ≠ .fragBatch → exec .fragmentBatch s = .next s) ∧
    (w.wait = .fragBatch → give ≠ [] → ∃ t w', exec .fragmentBatch s = .next t ∧ t.wave? k = some w' ∧
      w' = { w with wait := .none, batch := some (maskOf (fun l => give.any (fun p => p.2 = l))) }) ∧
    (w.wait = .fragBatch → give = [] → regionsDone s (clusterOf s k) (gidOf k) = false → exec .fragmentBatch s = .next s) ∧
    (w.wait = .fragBatch → give = [] → regionsDone s (clusterOf s k) (gidOf k) = true → ∃ t w', exec .fragmentBatch s = .next t ∧
      t.wave? k = some w' ∧ w'.wait = .none ∧ w'.batch = some 0))

/-! ### Agents, the balancer, tenants, the heartbeat -/

/-- R20, R23, R28, R35, R40, R270, R282, R304 to R308, R313, R314, R319: the oldest waiting thread's partial wave is launched when its time is up; a
batch starts as a one-wave group, and the start of a group empties its core's read-only cache; a settled task retires; an agent starts the next group of the task that is first in the order, its waves from
the launch image, or restores an image, a KIND 4 one that its core can take before all. The order is PRIO, sequence number, images first, `groupid`, and
the first is the earliest in it that the core can take and that no overdue group of higher PRIO bars; a core takes a group where R306 lets it.
Pre-emption waits its interval and serves the groups that have been overdue and that none of higher PRIO bars; the balancer marks at most one core: with
too few render cores the highest-numbered compute core without a chain, with too many the lowest-numbered idle render core; a marked core changes
partition when its residents admit it. (The model's choices: the agents' work is done by steps, log 27; what a restore takes up, log 20; how pools are
counted, log 33; the clocks of pre-emption, log 69; partial waves at the spawn queue's cap, log 53; R16's report of a crew that fits nowhere,
log 62; what pre-emption evicts for a wave slot, log 91; which share a KIND 4 image is tested with, log 97.) -/
def Obligations.AgentsPlaceAndRetire : Prop :=
  (∀ s c, s.input.who = c → let ws := s.threads.filter (fun t => t.core = c && t.batch.isNone)
    ((∀ t ∈ ws, s.cycle < t.stamp + (s.core c).gatherM1 + 1) → exec .gatherTimeout s = .next s) ∧
    (∀ t ∈ ws, t.stamp + (s.core c).gatherM1 + 1 ≤ s.cycle →
      ∃ a ∈ ws, (∀ b ∈ ws, a.stamp ≤ b.stamp) ∧ exec .gatherTimeout s = .next (markBatch s a 32))) ∧
  (∀ s b, s.input.who = b → (gatherCore s b = none → exec .gatheredWavePlace s = .next s) ∧
    (∀ c a, gatherCore s b = some (c, a) → let ts := s.threads.filter (fun t => t.batch == some b)
      ∃ t g w x, exec .gatheredWavePlace s = .next t ∧ ts.head? = some x ∧ t.group? s.nextGid = some g ∧ g.place = .resident c ∧ g.img = a ∧
        g.nwaves = 1 ∧ (t.core c).roCache = [] ∧ (∀ y, s.task? x.seq = some y → g.seq = y.seq) ∧ t.nextGid = s.nextGid + 1 ∧ t.threads = s.threads.filter (fun t => t.batch != some b) ∧
        t.wave? (keyOf s.nextGid 0) = some w ∧ w.path = maskOf (fun l => decide (l < ts.length)) ∧ w.present = w.path ∧ w.pc = x.entry ∧
        w.regCount = x.regs ∧ ∀ y, s.task? x.seq = some y → w.role = bitsAt (recRole y) 0 2)) ∧
  (∀ s q t, s.input.who = q → s.task? q = some t → t.state = .ready → recGroups t ≤ t.next → recGroups t ≤ t.exitedGroups →
    (∀ p ∈ s.groups, p.2.seq ≠ q) → (∀ h ∈ s.threads, h.seq ≠ q) →
    (∀ p ∈ s.tasks, p.2.parent = some q → p.2.state ≠ .armed ∧ p.2.state ≠ .ready) → exec .taskRetire s = .next (retireTask s q)) ∧
  (∀ s q t, s.input.who = q → s.task? q = some t → t.exitedGroups < recGroups t → exec .taskRetire s = .next s) ∧
  (∀ s, (readySet s).Pairwise (fun a b => let x := Cand.key s a
    let y := Cand.key s b
    x.1 < y.1 ∨ x.1 = y.1 ∧ (x.2.1 < y.2.1 ∨ x.2.1 = y.2.1 ∧ (x.2.2.1 < y.2.2.1 ∨ x.2.2.1 = y.2.2.1 ∧ x.2.2.2 ≤ y.2.2.2)))) ∧
  (∀ s q t, s.task? q = some t → Cand.key s (.start q) = (7 - recPrio t, q, 1, t.next)) ∧
  (∀ s g x, s.group? g = some x → Cand.key s (.image g) = (7 - x.prio, x.seq, 0, x.groupid)) ∧
  (∀ s q, Cand.start q ∈ readySet s ↔ ∃ t, (q, t) ∈ s.tasks ∧ t.state = .ready ∧ t.next < recGroups t) ∧
  (∀ s g, Cand.image g ∈ readySet s ↔ ∃ x, (g, x) ∈ s.groups ∧ imageListed s g x = true) ∧
  (∀ s c x cs, pick s c = some (x, cs) → placeAt s c x = some cs ∧ barred s c x = false ∧
    ∃ xs ys, readySet s = xs ++ x :: ys ∧ ∀ y ∈ xs, placeAt s c y = none ∨ barred s c y = true) ∧
  (∀ s c x, barred s c x = true ↔ ∃ y ∈ readySet s, Cand.prio s x < Cand.prio s y ∧ (Cand.part s y = 2 ∨ Cand.part s y = (s.core c).part) ∧
    (Cand.marked s y = true ∨ overdue s y = true)) ∧
  (∀ s c q t, s.task? q = some t → recCrew t ≤ 1 →
    let ok : Prop := partialReady s c = none ∧ coreAvail s c = true ∧ (recPart t = 2 ∨ recPart t = (s.core c).part) ∧
      (t.chain = none → (s.core c).moving = false ∧ (s.core c).chains = []) ∧ (∀ h, t.chain = some h → h ∈ (s.core c).chains) ∧
      recWaves t ≤ freeSlots s c ∧ recWaves t * recRegs t ≤ freeRegs s c ∧ recLs t ≤ freeLs s c ∧ recAcc t ≤ freeAcc s c ∧
      (0 < recAcc t → ∀ p ∈ residents s c, p.2.matrix = false) ∧ poolRoom s c .ready 1 = true ∧
      (t.chain = none → budgetOk s t.tenant (shareOf (decide (0 < recAcc t)) (recWaves t) (recRegs t) (recLs t) (recAcc t)) 0 = true) ∧
      (imgReserve s t.ring (recLs t) (recAcc t)).isSome = true
    (ok → placeAt s c (.start q) = some [c]) ∧ (¬ ok → placeAt s c (.start q) = none)) ∧
  (∀ s c, s.input.who = c →
    (∀ k, partialReady s c = some k → exec .imageRestore s = .next (settleGroups (restoreWave s k) [gidOf k]) ∧ exec .groupPlace s = .next s ∧ exec .crewPlace s = .next s) ∧
    (partialReady s c = none → pick s c = none → exec .groupPlace s = .next s ∧ exec .crewPlace s = .next s ∧
      exec .imageRestore s = .next (reportCrews s)) ∧
    (partialReady s c = none → ∀ g cs, pick s c = some (.image g, cs) → exec .imageRestore s = .next (place s (.image g) cs) ∧
      exec .groupPlace s = .next s ∧ exec .crewPlace s = .next s) ∧
    (partialReady s c = none → ∀ q cs, pick s c = some (.start q, cs) →
      (Cand.crew s (.start q) ≤ 1 → exec .groupPlace s = .next (place s (.start q) cs) ∧ exec .crewPlace s = .next s) ∧
      (1 < Cand.crew s (.start q) → exec .crewPlace s = .next (place s (.start q) cs) ∧ exec .groupPlace s = .next s)) ∧
    (partialReady s c = none → ∀ q t a i, pick s c = some (.start q, [c]) → s.task? q = some t → recCrew t ≤ 1 →
      imgReserve s t.ring (recLs t) (recAcc t) = some a →
      readLaunch (State.setGroup { (roInvalidate (s.modTask q (fun x => { x with
          next := x.next + 1, readyAt := s.time, overdue := false, started := if t.next = 0 then s.draw else t.started })) c) with nextGid := s.nextGid + 1 }
        s.nextGid (groupOf t s.nextGid t.next c a)) t.tenant (recImage t).toNat (recRegs t) (recLs t) t.depth = .ok i → i.wave.claim = none →
      (∀ k ∈ (s.core c).claims, gidOf k ≠ s.nextGid) →
      ∃ u g, exec .groupPlace s = .next u ∧ u.group? s.nextGid = some g ∧ g.place = .resident c ∧ g.groupid = t.next ∧ g.seq = t.seq ∧ g.ls = i.ls ∧
        u.nextGid = s.nextGid + 1 ∧ (u.core c).roCache = [] ∧
        (∃ t', u.task? q = some t' ∧ t'.next = t.next + 1 ∧ t'.overdue = false ∧ t'.started = if t.next = 0 then s.draw else t.started) ∧
        ∀ n, n < recWaves t → ∃ w, u.wave? (keyOf s.nextGid n) = some w ∧ w.waveid = n ∧ w.pc = i.wave.pc ∧ rdS w 0 = recArg t ∧
          w.role = bitsAt (recRole t) (2 * n) 2 ∧ w.regCount = recRegs t)) ∧
  (∀ s c, s.input.who = c →
    (∀ e, (s.core c).lastEvict = some e → s.time < e + 100000 * 2 ^ 32 → exec .preWaitExpiry s = .next s) ∧
    ((partialReady s c).isSome = true → exec .preWaitExpiry s = .next s) ∧
    ((∀ e, (s.core c).lastEvict = some e → e + 100000 * 2 ^ 32 ≤ s.time) → partialReady s c = none →
      let due (x : Cand) : Bool := (Cand.marked s x || overdue s x) && !barred s c x
      ((∀ x ∈ readySet s, due x = false ∨ preempt s c x = none) → exec .preWaitExpiry s = .next s) ∧
      (∀ xs x ys t, readySet s = xs ++ x :: ys → (∀ y ∈ xs, due y = false ∨ preempt s c y = none) → due x = true → preempt s c x = some t →
        exec .preWaitExpiry s = .next (match placeOn t (restFree s) c x with
          | some cs => place t x cs
          | none => t)))) ∧
  (∀ s, (s.ns < s.lastBalance + 100000 → exec .loadBalancer s = .next s) ∧
    (s.lastBalance + 100000 ≤ s.ns → ∃ t, exec .loadBalancer s = .next t ∧ t = { s with lastBalance := s.ns, cores := t.cores } ∧
      (∀ c, t.core c = s.core c ∨ t.core c = { s.core c with moving := true } ∧ (s.core c).chains = []) ∧
      (∀ c d, t.core c ≠ s.core c → t.core d ≠ s.core d → c = d) ∧
      ((∃ c, c < 256 ∧ coreAvail s c = true ∧ (s.core c).moving = true) → t.cores = s.cores) ∧
      ((∀ c, c < 256 → coreAvail s c = true → (s.core c).moving = false) →
        let render (c : Nat) : Prop := c < 256 ∧ coreAvail s c = true ∧ (s.core c).part = 0 ∧ (s.core c).chains = []
        let compute (c : Nat) : Prop := c < 256 ∧ coreAvail s c = true ∧ (s.core c).part = 1
        let n := ((List.range 256).filter (fun c => coreAvail s c && (s.core c).part == 0 && (s.core c).chains.isEmpty)).length
        let m := ((List.range 256).filter (fun c => coreAvail s c && (s.core c).part == 1)).length
        (n < demand s → s.devCfg.computeMin < m → ∀ c, compute c → (s.core c).chains = [] →
          (∀ d, compute d → (s.core d).chains = [] → d ≤ c) → t.core c = { s.core c with moving := true }) ∧
        (demand s < n → ∀ c, render c → (∀ p ∈ residents s c, p.2.agent = true) →
          (∀ d, render d → (∀ p ∈ residents s d, p.2.agent = true) → c ≤ d) → t.core c = { s.core c with moving := true }) ∧
        (n < demand s → m ≤ s.devCfg.computeMin → t.cores = s.cores) ∧ (n = demand s → t.cores = s.cores)))) ∧
  (∀ s c, s.input.who = c → let new := 1 - (s.core c).part
    ((s.core c).moving = false → exec .partitionMoveComplete s = .next s) ∧
    ((s.core c).moving = true → (∃ p ∈ residents s c, p.2.part ≠ 2 ∧ p.2.part ≠ new) → exec .partitionMoveComplete s = .next s) ∧
    ((s.core c).moving = true → (∀ p ∈ residents s c, p.2.part = 2 ∨ p.2.part = new) →
      exec .partitionMoveComplete s = .next (s.modCore c (fun k => { k with part := new, moving := false }))))

/-- R295, R296, R13, R17, R321: a beat is noted; a core that has missed two is captured, retired or given its quad's spare, its images restored, and
recorded; with a failed capture its tasks are killed, with RECOVERY_FAILED for each captured group to its task's queue; the measure of a tenant's use replaces the last. (The model's choices: how use is measured, log
26; the fields of a unit's record, logs 39 and 71; the capabilities afterwards, log 64.) -/
def Obligations.HeartbeatAndUse : Prop :=
  (∀ s, ∃ t, exec .heartbeat s = .next t ∧ t = { s with cores := t.cores } ∧
    ∀ c, t.core c = if c = s.input.who % 256 then { s.core c with beatAt := s.ns } else s.core c) ∧
  (∀ s c, s.input.who % 256 = c → s.boot.state ≠ .ready ∨ coreAvail s c = false ∨ s.ns < (s.core c).beatAt + 200000 →
    exec .heartbeatLost s = .next s) ∧
  (∀ s c, s.input.who % 256 = c → s.boot.state = .ready → coreAvail s c = true → (s.core c).beatAt + 200000 ≤ s.ns →
    let gs := ((residents s c).flatMap (fun p => parkSet s p.1)).eraseDups
    let r := retireCore (captureCore s c) c
    let u := writeConfig (State.modCore { r.1 with caps := capsOf r.1 } c (fun k => { k with claims := [], recCache := [], roCache := [] }))
    let v := hostRecord u { cause := .heartbeatLost, core := c, info0 := w64 c, info1 := if r.2 then w64 (c / 32) else 0xFF }
    (s.input.flag = true → exec .heartbeatLost s = .next (killTasks (gs.foldl (fun s g => match s.group? g with
        | some x => errorRecord s (x.ring.getD 0)
            { cause := .recoveryFailed, core := x.lastCore, tenant := x.tenant, seq := x.seq, gid := g, crew := decide (1 < x.crew), info0 := w64 c }
        | none => s) v)
      ((gs.filterMap (fun g => (s.group? g).map (·.seq))).eraseDups) 2)) ∧
    (s.input.flag = false → r.2 = false → exec .heartbeatLost s = .next v) ∧
    (s.input.flag = false → r.2 = true → exec .heartbeatLost s = .next (settleGroups (gs.foldl (fun s g => match s.group? g with
      | some x => if x.lastCore = c && x.crew ≤ 1 && comesBack s c x then restoreGroup s g c else s
      | none => s) v) gs))) ∧
  (∀ s c, (s.sparesUsed.contains (c / 32) = true → retireCore s c = ({ s with coresOut := s.coresOut ++ [c] }, false)) ∧
    (s.sparesUsed.contains (c / 32) = false →
      retireCore s c = ({ s with sparesUsed := s.sparesUsed ++ [c / 32], coresMoved := s.coresMoved ++ [c] }, true))) ∧
  (∀ s, ∃ t, exec .tenantUseWindow s = .next t ∧ t = { s with uses := t.uses } ∧
    ∀ n, kfind n t.uses = if n = s.input.who % 64 then some { units := 0, bw := s.input.value.toNat % 2 ^ 16, pwr := s.input.frac.toNat % 2 ^ 16 }
      else kfind n s.uses)

/-! ### Rings, packets, graphs -/

/-- R300 to R302, R361, R365 to R371: the ring that is next executes one step. A packet that is invalid, denied, or whose access fails puts its ring
into ERROR with a record, HEAD kept: its form is checked first, then the validator's ranges, for a graph first those that hold the node; else it
has the effect of its opcode, gives its completion record, and HEAD passes it; WAIT holds while its
condition fails; COPY goes on by 64 KiB; in a graph the node that follows is NEXT, or of COND the one chosen, and after the last the packet is
done. What has passed the checks is what every later step of the packet or node runs. A packet with BAR, or a SIGNAL, WRITE_SIGNAL or FENCE, holds its ring
before its first step until every task that earlier packets and nodes of the ring have published has settled; a WAIT holds it while its condition
fails, and a step that would write to a full stream waits. A unit's turn ends when it has nothing to execute. (The model's readings: the permissions
that SIGNAL asks for, log 44; the order of the checks, log 56; what has passed runs as it was read, log 95; a COPY node is one step, log 57; records
with no stream to go to, log 29.) -/
def Obligations.PacketSteps : Prop :=
  let steps : List (Instr × Nat) := [(.packetNop, 0), (.packetLaunch, 1), (.packetCopy, 2), (.packetWrite, 3), (.packetSignal, 4),
    (.packetWriteSignal, 5), (.packetWait, 6), (.packetTimestamp, 7), (.packetGraph, 8), (.packetFence, 9), (.cond, 10)]
  (∀ s, cpNext s = none → ∀ p ∈ steps, exec p.1 s = .next s) ∧
  (∀ s g, cpNext s = some g → ∀ p ∈ steps, stepOp s g ≠ p.2 → exec p.1 s = .next s) ∧
  (∀ s g, cpNext s = some g → let q := s.ring g
    (∀ pc p e, itemOf s q = .error (.fail pc p e) → exec .packetNop s = .next (endTurn (serveAt
      (ringFail (if pc = headAddr q then s else touch s q.tenant (headAddr q) false) g pc p e) g false))) ∧
    (∀ pc p r, itemOf s q = .error (.bad pc p r) → exec .packetNop s = .next (endTurn (serveAt (ringError (itemRead s g) g
      (ringRecord g q pc p .packetInvalid r (w64 g) (w64 q.head.toNat))) g false))) ∧
    (∀ pc p r, itemOf s q = .error (.denied pc p r) → exec .packetNop s = .next (endTurn (serveAt (ringError (itemRead s g) g
      (ringRecord g q pc p .validatorDenied r (w64 g) (w64 q.head.toNat))) g false)))) ∧
  (∀ s q, q.checked = none → (∀ e, ringRead s q (headAddr q) = .error e → itemOf s q = .error (.fail (headAddr q) 0 e)) ∧
    (∀ p, ringRead s q (headAddr q) = .ok p →
      (∀ r, pktBad false p = some r → itemOf s q = .error (.bad (headAddr q) p r)) ∧
      (pktBad false p = none → let v := validate s q (some (pOp p)) (namedBytes s q p)
        (∀ e, v = .error e → itemOf s q = .error (.fail (headAddr q) p e)) ∧
        (∀ r, v = .ok (some r) → itemOf s q = .error (.denied (headAddr q) p r)) ∧
        (v = .ok none → itemOf s q = itemOf s { q with checked := some p })))) ∧
  (∀ s q p, q.checked = some p →
    (pOp p ≠ 8 → itemOf s q = .ok { pc := headAddr q, pkt := p, head := p, headAt := headAddr q, node := none }) ∧
    (pOp p = 8 → let n := q.node.getD (pQ p 2 % 2 ^ 16)
      let a := pQ p 1 + 64 * n
      let ok (x : BitVec 512) : Prop := itemOf s q = .ok { pc := a, pkt := x, head := p, headAt := headAddr q, node := some n }
      let v := validate s q none [(a, 64)]
      (∀ x, q.nodeChecked = some x → ok x) ∧
      (q.nodeChecked = none → (∀ e, v = .error e → itemOf s q = .error (.fail a p e)) ∧ (∀ r, v = .ok (some r) → itemOf s q = .error (.denied a p r)) ∧
        (v = .ok none → (∀ e, ringRead s q a = .error e → itemOf s q = .error (.fail a p e)) ∧
          (∀ x, ringRead s q a = .ok x → let y := validate s q (some (pOp x)) (namedBytes s q x)
            (∀ r, pktBad true x = some r → itemOf s q = .error (.bad a x r)) ∧
            (pktBad true x = none → (∀ e, y = .error e → itemOf s q = .error (.fail a x e)) ∧
              (∀ r, y = .ok (some r) → itemOf s q = .error (.denied a x r)) ∧ (y = .ok none → ok x))))))) ∧
  (∀ s q op named, (q.val = 0 → validate s q op named = .ok none) ∧ (q.val ≠ 0 → (∀ e, validBlock s q = .error e → validate s q op named = .error e) ∧
    (∀ b, validBlock s q = .ok b → (∀ n, op = some n → b.1.testBit n = false → validate s q op named = .ok (some 1)) ∧
      ((∀ n, op = some n → b.1.testBit n = true) → validate s q op named =
        if named.all (fun n => coveredBy b.2 16 n.1 (n.1 + n.2)) = true then .ok none else .ok (some 2))))) ∧
  (∀ s0 g i, cpNext s0 = some g → itemOf s0 (s0.ring g) = .ok i → i.node = none →
    let s := (itemRead s0 g).modRing g (fun x => { x with checked := some i.head, nodeChecked := none })
    let q := s0.ring g
    let p := i.pkt
    let done (u : State) : State := endTurn (serveAt (passHead (itemRecord u g q i.pc p) g) g false)
    let fails (u : State) (e : Fail) : State := endTurn (serveAt (ringFail u g i.pc p e) g false)
    (pOp p = 0 → exec .packetNop s0 = .next (done s)) ∧
    (pOp p = 9 → exec .packetFence s0 = .next (done s)) ∧
    (pOp p = 1 → (∀ e, ringRead s q (pQ p 1) = .error e → exec .packetLaunch s0 = .next (fails s e)) ∧
      (∀ r, ringRead s q (pQ p 1) = .ok r →
        let a := publish (touch s q.tenant (pQ p 1) false) r (w64 (pQ p 1)) q.tenant g 1 none
          { pkt := w64 i.pc, index := q.head.toNat, tag := pTag p, irq := pIrq p, counts := true } none
          (ringRecord g q i.pc p .recordInvalid 0 0 0)
        (∀ u n, a = .ok u n → exec .packetLaunch s0 = .next (done u)) ∧ (∀ u, a = .refused u → exec .packetLaunch s0 = .next (done u)) ∧
        (a = .wait → exec .packetLaunch s0 = .next (endTurn (itemRead s0 g))))) ∧
    (pOp p = 2 → let o := 65536 * q.step.toNat
      let n := min 65536 (pQ p 3 - o)
      (∀ e, ringCopy s q (pQ p 1 + o) (pQ p 2 + o) n = .error e → exec .packetCopy s0 = .next (fails s e)) ∧
      (∀ u, ringCopy s q (pQ p 1 + o) (pQ p 2 + o) n = .ok u → exec .packetCopy s0 = .next (if pQ p 3 ≤ o + n then done u
        else endTurn (serveAt (u.modRing g (fun x => { x with step := x.step + 1, held := false })) g true)))) ∧
    (pOp p = 3 → let r := ringStores q ((List.range (pQ p 2 % 8)).map (fun k => (pQ p 1 + 8 * k, pQ p (3 + k)))) s
      exec .packetWrite s0 = .next (match r.2 with
        | none => done r.1
        | some e => fails r.1 e)) ∧
    (pOp p = 4 → ∀ l, checkOne s { tenant := q.tenant } (pQ p 1) 8 8 { rd := decide (pQ p 3 % 4 ≠ 0), wr := true }
        (.hostAtomic (decide (pQ p 3 % 4 ≠ 2)) 0) = .ok l → ∃ u, exec .packetSignal s0 = .next (done u) ∧
        rdN u l 8 = (if pQ p 3 % 4 = 0 then pQ p 2 else if pQ p 3 % 4 = 1 then (rdN s l 8 + pQ p 2) % 2 ^ 64 else max (rdN s l 8) (pQ p 2)) ∧
        u = wrN (touch s q.tenant (pQ p 1) true) l 8 (rdN u l 8)) ∧
    (pOp p = 4 → ∀ e, checkOne s { tenant := q.tenant } (pQ p 1) 8 8 { rd := decide (pQ p 3 % 4 ≠ 0), wr := true }
        (.hostAtomic (decide (pQ p 3 % 4 ≠ 2)) 0) = .error e → exec .packetSignal s0 = .next (fails s e)) ∧
    (pOp p = 5 → ∀ u e, ringStore s q (pQ p 1) (pQ p 2) = .ok u → checkOne u { tenant := q.tenant } (pQ p 3) 8 8
        { rd := decide (pQ p 5 % 4 ≠ 0), wr := true } (.hostAtomic (decide (pQ p 5 % 4 ≠ 2)) 0) = .error e →
      exec .packetWriteSignal s0 = .next (fails u e)) ∧
    (pOp p = 5 → ∀ u v, ringStore s q (pQ p 1) (pQ p 2) = .ok u → ringSignal u q (pQ p 3) (pQ p 4) (pQ p 5 % 4) = .done v →
      exec .packetWriteSignal s0 = .next (done v)) ∧
    (pOp p = 5 → ∀ e, ringStore s q (pQ p 1) (pQ p 2) = .error e → exec .packetWriteSignal s0 = .next (fails s e)) ∧
    (pOp p = 6 → (∀ e, ringLoad s q (pQ p 1) = .error e → exec .packetWait s0 = .next (fails s e)) ∧
      (∀ x, ringLoad s q (pQ p 1) = .ok x → let u := touch s q.tenant (pQ p 1) false
        exec .packetWait s0 = .next (if cmpHolds (pQ p 4) (x &&& pQ p 3) (pQ p 2) then done u
          else endTurn (serveAt (u.modRing g (fun y => { y with held := true, step := y.step + 1, node := none })) g false)))) ∧
    (pOp p = 7 → ∀ l, checkOne s { tenant := q.tenant } (pQ p 1) 16 16 { wr := true } .plain = .ok l → ∃ u, exec .packetTimestamp s0 = .next (done u) ∧
      u = wrN (wrN (touch s q.tenant (pQ p 1) true) l 8 s.ns) (l.plus 8) 8 s.frac ∧ (s.ns < 2 ^ 64 → rdN u l 8 = s.ns) ∧ rdN u (l.plus 8) 8 = s.frac)) ∧
  (∀ s0 g i n, cpNext s0 = some g → itemOf s0 (s0.ring g) = .ok i → i.node = some n →
    let s := (itemRead s0 g).modRing g (fun x => { x with checked := some i.head, nodeChecked := some i.pkt })
    let q := s0.ring g
    let p := i.pkt
    let goes (u : State) (m : Nat) : State := endTurn (if m = 0xFFFF then serveAt (passHead (itemRecord (itemRecord u g q i.pc p) g q i.headAt i.head) g) g false
      else serveAt ((itemRecord u g q i.pc p).modRing g (fun x => { x with step := x.step + 1, node := some m, held := false, nodeChecked := none })) g true)
    (pOp p ≠ 10 → ∀ u, itemBody s g q i = .done u → exec .packetGraph s0 = .next (goes u (pNext p))) ∧
    (pOp p ≠ 10 → ∀ u, itemBody s g q i = .hold u → exec .packetGraph s0 = .next (endTurn (serveAt
      (u.modRing g (fun x => { x with held := true, node := some n })) g false))) ∧
    (pOp p ≠ 10 → itemBody s g q i = .wait → exec .packetGraph s0 = .next (endTurn (itemRead s0 g))) ∧
    (pOp p ≠ 10 → ∀ u e, itemBody s g q i = .err e u → exec .packetGraph s0 = .next (endTurn (serveAt (ringFail u g i.pc p e) g false))) ∧
    (pOp p = 10 → (∀ e, ringLoad s q (pQ p 1) = .error e → exec .cond s0 = .next (endTurn (serveAt (ringFail s g i.pc p e) g false))) ∧
      (∀ x, ringLoad s q (pQ p 1) = .ok x → exec .cond s0 = .next (goes (touch s q.tenant (pQ p 1) false)
        (if cmpHolds (pQ p 4) (x &&& pQ p 2) (pQ p 3) then pNext p else bitsAt p 272 16))))) ∧
  (∀ s g q i, itemOf s q = .ok i →
    let bar : Prop := ((pBar i.pkt = true ∨ pOp i.pkt = 4 ∨ pOp i.pkt = 5 ∨ pOp i.pkt = 9) ∧ (i.node.isSome = true ∨ q.step = 0)) ∨
      (pBar i.head = true ∧ q.step = 0)
    let open_ : Prop := ∃ p ∈ s.tasks, p.2.ring = g ∧ p.2.src.counts = true ∧ (p.2.state = .armed ∨ p.2.state = .ready)
    let waits : Prop := pOp i.pkt = 6 ∧ q.held = true ∧ ∃ x, ringLoad s q (pQ i.pkt 1) = .ok x ∧ cmpHolds (pQ i.pkt 4) (x &&& pQ i.pkt 3) (pQ i.pkt 2) = false
    (servable s g q = true ↔ q.state = .active ∧ q.head ≠ q.tail ∧ ¬ (bar ∧ open_) ∧ ¬ waits ∧ heldEntries (ringStep s g) ≤ heldEntries s)) ∧
  (∀ s g, cpNext s = some g → s.cp.used < s.devCfg.slice ∧ ∃ q, (g, q) ∈ s.rings ∧ servable s g q = true) ∧
  (∀ u, ((∃ p ∈ u.rings, p.1 / 64 = u.cp.unit ∧ servable u p.1 p.2 = true) → endTurn u = u) ∧
    ((∀ p ∈ u.rings, p.1 / 64 = u.cp.unit → servable u p.1 p.2 = false) →
      endTurn u = { u with cp := { u.cp with unit := (u.cp.unit + 1) % 256, used := 0 } })) ∧
  (∀ s, (s.cp.used < s.devCfg.slice → exec .sliceExpiry s = .next s) ∧
    (s.devCfg.slice ≤ s.cp.used → ∃ t, exec .sliceExpiry s = .next t ∧ t = { s with cp := t.cp } ∧ t.cp.used = 0 ∧ t.cp.pos = s.cp.pos ∧
      (t.cp.unit = s.cp.unit ∨ ∃ p ∈ s.rings, servable s p.1 p.2 = true ∧ t.cp.unit = p.1 / 64)))

/-! ### The host's writes and replies -/

/-- R299, R359, R362, R372 to R374: a tail within the ring's room becomes TAIL, one beyond it is QUEUE_OVERRUN and ERROR; stream and reply indices;
an interrupt of entries that have waited TIME_US; a vector is masked and unmasked, and a pending one is sent when it is unmasked; a register takes a
value that keeps its map and refuses any other. A read of BAR0 gives a ring's HEAD and STATE to the function that owns it, the command registers, and
0 elsewhere and before READY (R359, R384); where it gives nothing the table has a write-only register, or power is not D0 (log 84). -/
def Obligations.HostWrites : Prop :=
  (∀ s g t, s.input.who = g → s.input.value.setWidth 32 = t → let q := s.ring g
    (hostOpen s = false ∨ q.func ≠ s.input.func ∨ q.state ≠ .active → exec .ringTailWrite s = .next s) ∧
    (hostOpen s = true → q.func = s.input.func → q.state = .active →
      ((t - q.tail).toNat + (q.tail - q.head).toNat ≤ 2 ^ q.log2n → exec .ringTailWrite s = .next (s.modRing g (fun x => { x with tail := t }))) ∧
      (2 ^ q.log2n < (t - q.tail).toNat + (q.tail - q.head).toNat → ∃ u, exec .ringTailWrite s = .next u ∧ (u.ring g).state = .error ∧
        (u.ring g).head = q.head ∧ (u.ring g).tail = q.tail ∧
        u = ringError s g (ringRecord g q (headAddr q) 0 .queueOverrun 0 (w64 g) (t.setWidth 64))))) ∧
  (∀ s st, let n := s.input.who % 64
    kfind (streamKey s.input.func n) s.streams = some st → hostOpen s = true →
    (st.kind ≠ 3 → exec .replyIndexWrite s = .next s ∧ exec .streamIndexWrite s = .next (streamDrain s.input.func n (st.held.length + 1)
      { s with streams := kset (streamKey s.input.func n) { st with ci := s.input.value.setWidth 32 } s.streams })) ∧
    (st.kind = 3 → exec .streamIndexWrite s = .next s ∧ exec .replyIndexWrite s = .next
      { s with streams := kset (streamKey s.input.func n) { st with pi := s.input.value.setWidth 32 } s.streams })) ∧
  (∀ s st, let n := s.input.who % 64
    kfind (streamKey s.input.func n) s.streams = some st →
    (st.timeUs = 0 ∨ st.pend = 0 ∨ s.time < st.oldest + st.timeUs * 1000 * 2 ^ 32 → exec .coalesceTimeout s = .next s) ∧
    (st.timeUs ≠ 0 → st.pend ≠ 0 → st.oldest + st.timeUs * 1000 * 2 ^ 32 ≤ s.time → exec .coalesceTimeout s = .next
      (sendVec { s with streams := kset (streamKey s.input.func n) { st with pend := 0 } s.streams } s.input.func st.vec))) ∧
  (∀ s, hostOpen s = false → exec .vectorUnmask s = .next s) ∧
  (∀ s, hostOpen s = true → s.input.flag = true → exec .vectorUnmask s = .next
    { s with vecUnmasked := s.vecUnmasked.filter (fun x => x != (s.input.func, s.input.who)) }) ∧
  (∀ s v, v = (s.input.func, s.input.who) → hostOpen s = true → s.input.flag = false → ∃ t, exec .vectorUnmask s = .next t ∧ v ∈ t.vecUnmasked ∧ (∀ x ∈ s.vecUnmasked, x ∈ t.vecUnmasked) ∧
    t = { s with vecUnmasked := t.vecUnmasked, vecPending := s.vecPending.erase v,
                 outward := s.outward ++ if v ∈ s.vecPending then [.msix v.1 v.2] else [] }) ∧
  (∀ s c v, s.input.reg = .coreCfg c → s.input.value = v → c < 256 → let ok := 31 ≤ bitsAt v 32 16 ∧ 255 ≤ bitsAt v 16 16 ∧ 255 ≤ bitsAt v 0 16
    (ok → exec .registerWrite s = .next (s.modCore c (fun k => { k with gatherM1 := bitsAt v 32 16, quantumM1 := bitsAt v 16 16,
                                                                         starveM1 := bitsAt v 0 16 }))) ∧
    (¬ ok → exec .registerWrite s = .next s)) ∧
  (∀ s c q v, (s.input.reg = .poolSpawn c ∧ q = .spawn) ∨ (s.input.reg = .poolCont c ∧ q = .cont) ∨ (s.input.reg = .poolCopy c ∧ q = .copy) ∨
      (s.input.reg = .poolReady c ∧ q = .ready) → s.input.value = v → c < 256 → let p : Pool := { qmin := bitsAt v 0 12, qcap := bitsAt v 16 12 }
    (poolOk (s.core c) q p = false → exec .registerWrite s = .next s) ∧
    (poolOk (s.core c) q p = true → ∃ t, exec .registerWrite s = .next t ∧ (t.core c).pool q = p ∧
      (∀ r, r ≠ q → (t.core c).pool r = (s.core c).pool r) ∧ (∀ d, d ≠ c → t.core d = s.core d) ∧ t = { s with cores := t.cores })) ∧
  (∀ s v, s.input.value = v →
    (s.input.reg = .feCfg → let ok := 1 ≤ bitsAt v 32 16 ∧ 256 ≤ bitsAt v 0 32
      exec .registerWrite s = .next (if ok then { s with devCfg := { s.devCfg with preWaitUs := bitsAt v 32 16, slice := bitsAt v 0 32 } } else s)) ∧
    (s.input.reg = .segCfg → exec .registerWrite s = .next
      (if bitsAt v 0 16 ≤ 1024 then { s with devCfg := { s.devCfg with segLimit := bitsAt v 0 16 } } else s)) ∧
    (s.input.reg = .balCfg → let ok := 1 ≤ bitsAt v 24 8 ∧ bitsAt v 16 8 ≤ 32 ∧ bitsAt v 0 9 ≤ 256
      exec .registerWrite s = .next (if ok then
        { s with devCfg := { s.devCfg with leadUs := bitsAt v 24 8, rclust := bitsAt v 16 8, computeMin := bitsAt v 0 9 } } else s)) ∧
    (∀ c, s.input.reg = .partState c ∨ s.input.reg = .tenantUse c → exec .registerWrite s = .next s) ∧
    (∀ n, s.input.reg = .tenantBudget n → n < 64 → exec .registerWrite s = .next
      { s with budgets := kset n { units := bitsAt v 0 19, bw := bitsAt v 32 16, pwr := bitsAt v 48 16 } s.budgets }) ∧
    (∀ n, s.input.reg = .cmdTail n → hostOpen s = true → exec .registerWrite s = .next
      { s with funcs := kset n { (kget {} n s.funcs) with cmdTail := v.setWidth 32 } s.funcs })) ∧
  (∀ s func off, (s.boot.state ≠ .ready → barRead s func off = some 0) ∧ (s.boot.state = .ready → s.power = .d0 →
    (∀ g, g < 16384 → off = 8 * g → ((s.ring g).func ≠ func → barRead s func off = some 0) ∧
      ((s.ring g).func = func → ∃ x, barRead s func off = some x ∧ bitsAt x 0 32 = (s.ring g).head.toNat ∧ bitsAt x 32 2 = (s.ring g).state.code ∧
        bitsAt x 34 30 = 0)) ∧
    (off = 0x30018 → barRead s func off = some ((kget {} func s.funcs).cmdHead.setWidth 64)) ∧
    (off = 0x30020 → barRead s func off = some (kget {} func s.funcs).cmdLast) ∧ (0x30020 < off → barRead s func off = some 0)))

/-- R285, R290 to R292, R294: the return from an exception. RESUME takes a parked group out of its park and its instruction issues again, or, after
`brk`, the one that follows; a wave parked in `trap` takes `s0` and `s1` from the reply,
and its resumption is an acquire that empties its core's read-only cache. SKIP goes on after the instruction, but not after a fault
of its fetch. With a continuation wave's park the owner's group that was parked for it resumes too (log 96). KILL kills the group's task. A reply that names no park, or no action, changes nothing and is recorded. Each is taken from its ring.
(The model's readings: SKIP of a transfer's fault, log 55; reserved bits of a reply, log 60; whose park a reply may name, log 71; the fields of
REPLY_INVALID, log 85.) -/
def Obligations.RepliesToParks : Prop :=
  (∀ s, replyEntry s = none → exec .replyResume s = .next s ∧ exec .replySkip s = .next s ∧ exec .replyKill s = .next s) ∧
  (∀ s st e, replyEntry s = some (st, e) → let u := takeReply s st
    (kfind (streamKey s.input.func (s.input.who % 64)) u.streams = some { st with ci := st.ci + 1 }) ∧
    (3 ≤ rAction e → exec .replyResume s = .next (replyInvalid u (parkedAt u s.input.func (rPark e)) e)) ∧
    (parkedAt u s.input.func (rPark e) = none → (rAction e = 0 → exec .replyResume s = .next (replyInvalid u none e)) ∧
      (rAction e = 1 → exec .replySkip s = .next (replyInvalid u none e)) ∧ (rAction e = 2 → exec .replyKill s = .next (replyInvalid u none e))) ∧
    (∀ g x w c, parkedAt u s.input.func (rPark e) = some (.fault g) → u.group? g = some x → x.place = .faulted c → x.crew ≤ 1 →
      u.wave? x.faultWave = some w →
      let leaves (ev : Instr) (past : Bool) : Prop := ∃ t x' w', exec ev s = .next t ∧ t.group? g = some x' ∧ x'.place = .saved ∧
        t.wave? x.faultWave = some w' ∧ SameRegs [] w w' ∧ w'.path = w.path ∧ w'.wait = (if w.wait = .trap then .trap else .none) ∧
        w'.pc = if past = true ∧ 0 < x.faultLen then x.faultPc + w64 x.faultLen else w.pc
      (rAction e = 0 → leaves .replyResume (decide (c = .breakpoint))) ∧ (rAction e = 1 → x.fetchFault = false → leaves .replySkip true) ∧
      (rAction e = 1 → x.fetchFault = true → exec .replySkip s = .next (replyInvalid u (some (.fault g)) e)) ∧
      (rAction e = 2 → exec .replyKill s = .next (killTasks u [x.seq] 0))) ∧
    (∀ k w, parkedAt u s.input.func (rPark e) = some (.trap k) → u.wave? k = some w →
      (rAction e = 0 → ∃ t w', exec .replyResume s = .next t ∧ t.wave? k = some w' ∧ w'.wait = .none ∧ rdS w' 0 = w64 (bitsAt e 128 64) ∧
        rdS w' 1 = w64 (bitsAt e 192 64) ∧ SameRegs [.s 0, .s 1] w w' ∧ w'.pc = w.pc ∧
        t = { (roInvalidate u (coreOf u k)) with waves := t.waves } ∧
        ∀ j, j ≠ k → t.wave? j = u.wave? j) ∧
      (rAction e = 1 → exec .replySkip s = .next (roInvalidate (u.modWave k (fun w => { w with wait := .none })) (coreOf u k)) ∧
        (u.modWave k (fun w => { w with wait := .none })).wave? k = some { w with wait := .none }) ∧
      (rAction e = 2 → ∀ x, u.group? (gidOf k) = some x → exec .replyKill s = .next (killTasks u [x.seq] 0))))

/-! ### Management commands -/

/-- R61, R65, R145, R294, R316, R342, R358 to R360, R363, R364, R372, R376, R377, R379: a command in READY and D0 completes with a status: its head
moves, CMD_LAST holds its code, status and result. A virtual function's command that only the physical one may give is DENIED, reserved fields or
values out of range REFUSED; otherwise it has its effect: a ring that runs again has its packet checked again (R363, R369), a stream keeps what it
holds (R374; log 61), and a domain keeps the members that a route leads to (R380; logs 10 and 86). Tenants of LOAD and BIND_OUT: logs 19 and 37.
(The model's readings besides: QUEUE_SET of a ring that has run, log 30; reserved bits, log 60; the order within a timetable, log 36.) -/
def Obligations.ManagementCommands : Prop :=
  let cmds : List (Instr × Nat × Bool × List Nat) := [(.queueSet, 1, false, [all64, all64]), (.queueStateDisable, 2, true, [all64, all64, all64]),
    (.queueStateActivate, 2, true, [all64, all64, all64]), (.streamSet, 4, true, [all64, all64]), (.setRoot, 5, false, [all64, all64]),
    (.invalidate, 6, true, [all64, all64, all64]), (.timetable, 7, false, [all64, all64, all64]), (.bindOut, 8, false, [all64, all64]),
    (.load, 9, true, [all64, all64, all64]), (.domainSet, 10, false, [all64, all64, all64, all64])]
  (∀ s, cmdNow s s.input.func = none → ∀ x ∈ cmds, exec x.1 s = .next s) ∧
  (∀ s c a, cmdNow s s.input.func = some (c, a) → ∀ x ∈ cmds, pOp c = x.2.1 →
    x.1 ≠ .queueStateDisable ∨ pQ c 2 ≠ 1 → x.1 ≠ .queueStateActivate ∨ pQ c 2 = 1 →
    (s.input.func ≠ 0 → x.2.2.1 = false → exec x.1 s = .next (completeCmd s s.input.func c a 5 0)) ∧
    (s.input.func = 0 ∨ x.2.2.1 = true → cmdBad c x.2.2.2 = true → exec x.1 s = .next (completeCmd s s.input.func c a 2 0))) ∧
  (∀ s c a st r, let f := kget {} s.input.func s.funcs
    ∃ f', kfind s.input.func (completeCmd s s.input.func c a st r).funcs = some f' ∧ f'.cmdHead = f.cmdHead + 1 ∧ f'.cmdTail = f.cmdTail ∧
      f'.cmdLast = packBits 64 [(56, 8, pOp c), (48, 8, st), (0, 48, r.toNat)]) ∧
  (∀ s c a, cmdNow s s.input.func = some (c, a) → let func := s.input.func
    let ok (used : List Nat) : Prop := cmdBad c used = false
    let fin (u : State) (r : Word) : State := completeCmd u func c a 0 r
    let refused : State := completeCmd s func c a 2 0
    (pOp c = 0 ∨ 10 < pOp c → exec .queueSet s = .next (completeCmd s func c a (if func = 0 then 2 else 5) 0)) ∧
    (pOp c = 1 → func = 0 → ok [all64, all64] → let x := BitVec.ofNat 512 (rdN s (.host (pQ c 2)) 64)
      exec .queueSet s = .next (if 16384 ≤ pQ c 1 ∨ (s.ring (pQ c 1)).state ≠ .disabled ∨ ctxBad x = true then refused
        else fin (s.modRing (pQ c 1) (fun _ => ringOf x)) 0)) ∧
    (pOp c = 2 → pQ c 2 ≠ 1 → ok [all64, all64, all64] → pQ c 1 < 16384 → mayRing s func (pQ c 1) = true →
      exec .queueStateDisable s = .next (if pQ c 2 ≠ 0 ∨ (s.ring (pQ c 1)).state = .killing then refused
        else fin (s.modRing (pQ c 1) (fun q => { q with state := .disabled })) 0)) ∧
    (pOp c = 2 → pQ c 2 = 1 → ok [all64, all64, all64] → pQ c 1 < 16384 → mayRing s func (pQ c 1) = true → let q := s.ring (pQ c 1)
      let h : BitVec 32 := BitVec.ofNat 32 (pQ c 3)
      (q.state = .killing → exec .queueStateActivate s = .next refused) ∧ (q.state = .active → exec .queueStateActivate s = .next (fin s 0)) ∧
      (q.state = .disabled → exec .queueStateActivate s = .next
        (fin (s.modRing (pQ c 1) (fun q => { q with state := .active, checked := none, nodeChecked := none })) 0)) ∧
      (q.state = .error → 2 ^ 32 ≤ pQ c 3 ∨ (q.tail - q.head).toNat < (h - q.head).toNat → exec .queueStateActivate s = .next refused) ∧
      (q.state = .error → pQ c 3 < 2 ^ 32 → (h - q.head).toNat ≤ (q.tail - q.head).toNat → h ≠ q.head → exec .queueStateActivate s = .next
        (fin (s.modRing (pQ c 1) (fun q => { q with
          state := .active, head := h, step := 0, node := none, held := false, checked := none, nodeChecked := none })) 0)) ∧
      (q.state = .error → pQ c 3 < 2 ^ 32 → h = q.head → exec .queueStateActivate s = .next
        (fin (s.modRing (pQ c 1) (fun q => { q with state := .active, checked := none, nodeChecked := none })) 0))) ∧
    (pQ c 1 < 16384 → mayRing s func (pQ c 1) = false →
      (pOp c = 3 → ok [all64] → (func, pQ c 1) ∉ s.killing → exec .queueKill s = .next (completeCmd s func c a 5 0)) ∧
      (pOp c = 2 → ok [all64, all64, all64] → pQ c 2 = 1 → exec .queueStateActivate s = .next (completeCmd s func c a 5 0)) ∧
      (pOp c = 2 → ok [all64, all64, all64] → pQ c 2 ≠ 1 → exec .queueStateDisable s = .next (completeCmd s func c a 5 0))) ∧
    (16384 ≤ pQ c 1 → (pOp c = 3 → ok [all64] → (func, pQ c 1) ∉ s.killing → exec .queueKill s = .next refused) ∧
      (pOp c = 2 → ok [all64, all64, all64] → pQ c 2 = 1 → exec .queueStateActivate s = .next refused) ∧
      (pOp c = 2 → ok [all64, all64, all64] → pQ c 2 ≠ 1 → exec .queueStateDisable s = .next refused)) ∧
    (pOp c = 3 → cmdBad c [all64] = true →
      ((func, pQ c 1) ∉ s.killing → exec .queueKill s = .next refused ∧ exec .queueKillComplete s = .next s) ∧
      ((func, pQ c 1) ∈ s.killing → exec .queueKillComplete s = .next refused ∧ exec .queueKill s = .next s)) ∧
    (pOp c = 6 → ok [all64, all64, all64] → (64 ≤ pQ c 1 → exec .invalidate s = .next refused) ∧
      (pQ c 1 < 64 → mayReply func (pQ c 1) = false → exec .invalidate s = .next (completeCmd s func c a 5 0))) ∧
    (pOp c = 3 → ok [all64] → pQ c 1 < 16384 → mayRing s func (pQ c 1) = true →
      ((func, pQ c 1) ∉ s.killing → exec .queueKillComplete s = .next s ∧ exec .queueKill s = .next
        { killTasks (s.modRing (pQ c 1) (fun q => { q with state := .killing })) ((s.tasks.filter (fun p => p.2.ring == pQ c 1)).map (·.1)) 1 with
          killing := (func, pQ c 1) :: s.killing }) ∧
      ((func, pQ c 1) ∈ s.killing → ∃ u, exec .queueKillComplete s = .next (fin u 0) ∧ exec .queueKill s = .next s ∧
        (u.ring (pQ c 1)).state = .disabled ∧ (u.ring (pQ c 1)).head = (s.ring (pQ c 1)).tail ∧ (u.ring (pQ c 1)).tail = (s.ring (pQ c 1)).tail ∧
        u = { s with rings := u.rings, killing := s.killing.erase (func, pQ c 1) })) ∧
    (pOp c = 4 → ok [all64, all64] → let d := BitVec.ofNat 256 (rdN s (.host (pQ c 2)) 32)
      exec .streamSet s = .next (if 64 ≤ pQ c 1 ∨ streamBad func (pQ c 1) d = true then refused
        else fin (let held := (kget {} (streamKey func (pQ c 1)) s.streams).held
                  let u : State := { s with streams := kset (streamKey func (pQ c 1)) { streamOf d with held := held } s.streams }
                  if (streamOf d).kind = 3 then u else streamDrain func (pQ c 1) (held.length + 1) u) 0)) ∧
    (pOp c = 5 → func = 0 → ok [all64, all64] → exec .setRoot s = .next (if 64 ≤ pQ c 1 ∨ pQ c 2 % 8192 ≠ 0 then refused
        else fin { s with roots := kset (pQ c 1) (pQ c 2) s.roots } 0)) ∧
    (pOp c = 6 → ok [all64, all64, all64] → pQ c 1 < 64 → mayReply func (pQ c 1) = true → ∃ u, exec .invalidate s = .next (fin u 0) ∧
      u = { s with tlb := u.tlb } ∧ (∀ x ∈ u.tlb, x ∈ s.tlb) ∧
      ∀ x ∈ s.tlb, x ∈ u.tlb ↔ ¬ (x.tenant = pQ c 1 ∧ x.page * 2 ^ pageBits x.level < pQ c 2 + pQ c 3 ∧
        pQ c 2 < x.page * 2 ^ pageBits x.level + 2 ^ pageBits x.level)) ∧
    (pOp c = 7 → func = 0 → ok [all64, all64, all64] →
      (pQ c 2 = 0 ∨ 4096 < pQ c 2 ∨ 16384 ≤ pQ c 3 → exec .timetable s = .next refused) ∧
      (0 < pQ c 2 → pQ c 2 ≤ 4096 → pQ c 3 < 16384 →
        let es := (List.range (pQ c 2)).map (fun i => BitVec.ofNat 512 (rdN s (.host (pQ c 1 + 64 * i)) 64))
        (∀ i, tableBad s es = some i → exec .timetable s = .next (completeCmd s func c a 3 (w64 i))) ∧
        (tableBad s es = none → exec .timetable s = .next (fin (replaceTable { s with nextTable := some { entries := es, ring := pQ c 3 } }) 0)))) ∧
    (pOp c = 8 → func = 0 → ok [all64, all64] → let d := BitVec.ofNat 512 (rdN s (.host (pQ c 2)) 64)
      (12 ≤ pQ c 1 ∨ outputBad (pQ c 1) d = true → exec .bindOut s = .next refused) ∧
      (pQ c 1 < 12 → outputBad (pQ c 1) d = false → ∃ u o, exec .bindOut s = .next (fin u 0) ∧ u = { (hdrTouch s o.tenant (oRing d)) with outputs := kset (pQ c 1) o s.outputs } ∧
        o.bound = true ∧ o.desc = d ∧ o.func = func ∧ o.line = 0 ∧ o.late = [] ∧
        o.seq = BitVec.ofNat 32 (hPub (ringHdr s { tenant := o.tenant } (oRing d))) ∧ o.base = o.seq ∧
        o.levels = (kget {} (pQ c 1) s.outputs).levels)) ∧
    (pOp c = 9 → ok [all64, all64, all64] → let r := loadObject s (func - 1) (rdBytes s (.host (pQ c 1)) (pQ c 2))
      (∀ e, r = .error e → exec .load s = .next (completeCmd (writeLoadErr s (pQ c 3) e) func c a 4 0)) ∧
      (∀ x, r = .ok x → exec .load s = .next (fin (writeLoaded s (func - 1) (pQ c 3) x) 0))) ∧
    (pOp c = 10 → func = 0 → ok [all64, all64, all64, all64] → (64 ≤ pQ c 1 → exec .domainSet s = .next refused) ∧
      (pQ c 1 < 64 → let row (a i : Nat) : Nat := rdN s (.host (a + 8 * i)) 8
        exec .domainSet s = .next (fin (loseMembers { s with domain :=
          { self := pQ c 1, members := w64 (pQ c 2), routes := (List.range 64).map (fun i => (i, row (pQ c 3) i % 2 ^ 12)),
            tenants := (List.range 64).map (fun i => (i, row (pQ c 4) i)) } }) 0))))

/-! ### The device: boot, power, heat, errors of memory, peers, time -/

/-- R383 to R387, R389 to R391, Table 25.2, Table 25.3: PERST# released starts the ROM; with the slots and the configuration record verified the
accepted slot starts, else STATE is FAILED with its code; the self-test retires parts, writes the record with the units it found, and makes the
device READY, or FAILED where no core or no channel is left; PERST# and D3cold leave nothing of the device but its flash; D3hot kills every ring,
drops the timetables and keeps only what Table 25.3 lists (log 84), and D0 again finds every ring DISABLED; an attestation is signed with the alias
key. The boot status register shows STATE, FAIL, SLOT and SVN. Keys, digests and signatures are uninterpreted (log 24); a write torn by a loss of
power leaves the other copy (log 87). -/
def Obligations.BootAndPower : Prop :=
  (∀ s, s.boot.state ≠ .reset → s.boot.state ≠ .rom → exec .perstRelease s = .next s) ∧
  (∀ s, s.boot.state = .reset → exec .perstRelease s = .next { s with power := .d0, boot := { state := .rom } }) ∧
  (∀ s, s.boot.state = .rom → let cfg := Config.deriveKey (Config.pufSeed s.flash.helper) 1
    let slots := slotValid s.flash.slotA || slotValid s.flash.slotB
    let rec_ := cfgCurrent cfg.2 s.flash
    let slot := rec_.bind (fun r => acceptSlot s.flash r.minSvn)
    ∃ t, exec .perstRelease s = .next t ∧ t = { s with boot := t.boot } ∧
      t.boot.state = (if slots = true ∧ slot.isSome = true then .selfTest else .failed) ∧
      t.boot.fail = (if slots = false then 1 else if rec_ = none then 3 else if slot = none then 2 else 0) ∧
      (t.boot.state = .failed ∨ t.boot.slot = slot.getD 0 ∧ t.boot.digest = Config.shake256 ((slotAt s.flash (slot.getD 0)).getD {}).image ∧
        t.boot.svn = ((slotAt s.flash (slot.getD 0)).getD {}).svn % 256 ∧ t.boot.cfgPub = cfg.2)) ∧
  (∀ f min, let a := slotSvn f min 0
    let b := slotSvn f min 1
    acceptSlot f min = if a = none ∧ b = none then none else if b = none then some 0 else if a = none then some 1
      else some (if a.getD 0 < b.getD 0 then 1 else 0)) ∧
  (∀ s, s.boot.state ≠ .selfTest → exec .selfTest s = .next s) ∧
  (∀ s, s.boot.state = .selfTest → ∃ t, exec .selfTest s = .next t ∧
    (∀ c ∈ s.input.found.cores, c < 256 → c ∈ t.coresOut ∨ c ∈ t.coresMoved) ∧ (∀ c ∈ s.input.found.channels, c < 128 → c ∈ t.channelsOut) ∧
    (∀ l ∈ s.input.found.lanes, l < 48 → l ∈ t.lanesOut) ∧
    t.caps = capsOf t ∧ t.channelsMarked = [] ∧
    (let old := cfgCurrent s.boot.cfgPub s.flash
     let rec_ := cfgNow t (((old.map (·.sequence)).getD 0) + 1) ((old.map (·.minSvn)).getD 0)
     t.flash = if writesCopy1 s = true then { s.flash with copy1 := some rec_ } else { s.flash with copy0 := some rec_ }) ∧
    t.boot = (if bitsAt t.caps.dev 16 9 = 0 ∨ 128 ≤ t.channelsOut.length then { s.boot with state := .failed, fail := 4 }
      else { s.boot with state := .ready })) ∧
  (∀ s, dvsec s = (Config.vendorId, bootStatus s.boot) ∧ bitsAt (bootStatus s.boot) 0 3 = s.boot.state.code ∧
    bitsAt (bootStatus s.boot) 8 8 = s.boot.fail % 256 ∧ bitsAt (bootStatus s.boot) 16 8 = s.boot.slot % 256 ∧
    bitsAt (bootStatus s.boot) 24 8 = s.boot.svn % 256 ∧ bitsAt (bootStatus s.boot) 3 5 = 0 ∧ bitsAt (bootStatus s.boot) 32 32 = 0) ∧
  (∀ s, (s.boot.state ≠ .ready → s.boot.state ≠ .selfTest → exec .attestationRequest s = .next s) ∧
    (s.boot.state = .ready ∨ s.boot.state = .selfTest →
      let fields : List (BitVec 256) := [s.input.nonce, s.boot.digest, BitVec.ofNat 256 s.boot.svn, BitVec.ofNat 256 s.boot.slot,
        ((cfgCurrent s.boot.cfgPub s.flash).map cfgDigest).getD 0, s.boot.cert]
      exec .attestationRequest s = .next { s with outward := s.outward ++ [.attestation (fields ++
        [Config.mldsaSign s.boot.aliasPriv (Config.shake256 (fields.flatMap (fun x => leBytes 32 x.toNat)))])] })) ∧
  (∀ s, ∃ t, exec .perstAssert s = .next t ∧ t.boot = {} ∧ t.groups = [] ∧ t.tasks = [] ∧ t.rings = [] ∧ t.ext = [] ∧ t.shm = [] ∧ t.flash = s.flash ∧
    t.host = s.host ∧ t.peer = s.peer ∧ (s.input.flag = false → exec .d3coldEntry s = .next { t with power := .d3cold }) ∧
    (s.input.flag = true → s.boot.state = .selfTest ∨ s.boot.state = .ready → exec .d3coldEntry s = .next { t with
      power := .d3cold
      flash := if writesCopy1 s = true then { s.flash with copy1 := none } else { s.flash with copy0 := none } })) ∧
  (∀ s, hostOpen s = false → exec .d3hotEntry s = .next s) ∧
  (∀ s, hostOpen s = true → ∃ t, exec .d3hotEntry s = .next t ∧ t.power = .d3hot ∧ t.table = none ∧ t.nextTable = none ∧
    t.groups = [] ∧ t.waves = [] ∧ t.tasks = [] ∧ t.threads = [] ∧ t.xfers = [] ∧ t.chains = [] ∧ t.time = s.time ∧ t.boot = s.boot ∧
    ∀ g, (t.ring g).state = .disabled ∧ ((s.ring g).state ≠ .disabled → (t.ring g).head = (s.ring g).tail ∧ (t.ring g).tail = (s.ring g).tail)) ∧
  (∀ s, (s.power ≠ .d3hot → exec .d0Return s = .next s) ∧ (s.power = .d3hot → ∃ t, exec .d0Return s = .next t ∧ t.power = .d0 ∧
    t = { s with power := .d0, rings := t.rings } ∧ ∀ g q, kfind g s.rings = some q → kfind g t.rings = some { q with state := .disabled }))

/-- R15, R55, R58, R378, R380, R381, R388, R392, R393, R395, R396, Table 1.2: the throttle level rises to the thresholds reached of the highest
temperature and the mean power, and falls by one where the temperature is 5 degrees below the level's entry and the power below 1,100 W; the
device trips at 110 degrees; sixteen corrected errors move a row to a spare; a lost lane leaves the capabilities, and a member to which no
route is left leaves the domain, with its record (log 86); the records of heat and units have free words (log 39), and the records go to stream 1 of the physical function (log 29); which units of memory hold an
error is an input (log 28), as what is measured is (log 26) and how many spare rows there are (log 38); the shared memory's boundary moves a step where no tenant maps it, and
the step keeps its bytes and tags (log 93); a peer's request is translated, performed and answered, or its fault
returned; the time counter comes up to the time of day and never goes back (log 70). -/
def Obligations.HeatErrorsPeersAndTime : Prop :=
  (∀ s, let temp := s.input.value.toNat % 2 ^ 16
    let n := nextLevel s.devCfg.throttle temp (s.input.frac.toNat % 2 ^ 16)
    (temp < 110 * 256 → ∃ t, exec .thermalSample s = .next t ∧ t.devCfg.throttle = n ∧ t.devCfg.tmax = temp ∧ t.thermalTrip = s.thermalTrip ∧
      (n = s.devCfg.throttle → t = { s with devCfg := t.devCfg })) ∧
    (110 * 256 ≤ temp → ∃ t, exec .thermalSample s = .next t ∧ t.thermalTrip = true)) ∧
  (∀ t, heatLevel t ≤ 3 ∧ (1 ≤ heatLevel t ↔ 95 * 256 ≤ t) ∧ (2 ≤ heatLevel t ↔ 100 * 256 ≤ t) ∧ (3 ≤ heatLevel t ↔ 105 * 256 ≤ t)) ∧
  (∀ l t p, l ≤ 3 → (heatLevel t ≤ nextLevel l t p) ∧ nextLevel l t p ≤ 3 ∧ l ≤ nextLevel l t p + 1 ∧
    (1200 ≤ p → l < 3 → l < nextLevel l t p) ∧
    (l < heatLevel t ∨ 1200 ≤ p ∧ l < 3 → nextLevel l t p = max (heatLevel t) (if 1200 ≤ p then min 3 (l + 1) else 0)) ∧
    (heatLevel t ≤ l → p < 1200 ∨ l = 3 → let below : Prop := (l = 1 ∧ t + 5 * 256 ≤ 95 * 256) ∨ (l = 2 ∧ t + 5 * 256 ≤ 100 * 256) ∨
        (l = 3 ∧ t + 5 * 256 ≤ 105 * 256)
      (below ∧ p < 1100 → nextLevel l t p = l - 1) ∧ (¬ (below ∧ p < 1100) → nextLevel l t p = l))) ∧
  (∀ s, (s.input.flag = false → exec .patrolScrub s = .next { s with rowErrors := [] }) ∧
    (s.input.flag = true → exec .patrolScrub s = .next { s with rowErrors := [], poison := s.poison ++ if (1, s.input.idx) ∈ s.poison then []
      else [(1, s.input.idx)] }) ∧ exec .flitRetry s = .next s) ∧
  (∀ s, s.boot.state ≠ .ready → exec .rowRepair s = .next s) ∧
  (∀ s, s.boot.state = .ready → s.input.flag = false → let ch := s.input.who % 128
    let key := ch * 2 ^ 40 + s.input.idx
    (kget 0 key s.rowErrors < 15 → exec .rowRepair s = .next { s with rowErrors := kset key (kget 0 key s.rowErrors + 1) s.rowErrors }) ∧
    (15 ≤ kget 0 key s.rowErrors → ∃ t, exec .rowRepair s = .next t ∧
      if (s.rowsSpare.filter (fun p => p.1 = ch)).length < Config.spareRows ch
      then t.rowsSpare = s.rowsSpare ++ [(ch, s.input.idx)] ∧
        (if Config.spareRows ch ≤ (s.rowsSpare.filter (fun p => p.1 = ch)).length + 1 then ch ∈ t.channelsMarked else t.channelsMarked = s.channelsMarked)
      else t.rowsSpare = s.rowsSpare ∧ ch ∈ t.channelsMarked)) ∧
  (∀ s, s.boot.state = .ready → s.input.flag = true → let ch := s.input.who % 128
    ∃ t, exec .rowRepair s = .next t ∧ kget 0 ch t.channelErrors = kget 0 ch s.channelErrors + 1 ∧ t.rowErrors = s.rowErrors ∧
      (∀ p, p ∈ t.poison ↔ p ∈ s.poison ∨ p = (0, s.input.idx)) ∧
      (1 ≤ kget 0 ch s.channelErrors → ch ∈ t.channelsMarked) ∧ (kget 0 ch s.channelErrors = 0 → t.channelsMarked = s.channelsMarked)) ∧
  (∀ s, let l := s.input.who % 48
    (l ∈ s.lanesOut ∨ s.boot.state ≠ .ready → exec .peerLaneRetire s = .next s) ∧
    (l ∉ s.lanesOut → s.boot.state = .ready → ∃ t, exec .peerLaneRetire s = .next t ∧ t.lanesOut = s.lanesOut ++ [l] ∧
      t.caps = capsOf { s with lanesOut := t.lanesOut } ∧ ∀ d, d < 64 → t.domain.members.getLsbD d =
        (s.domain.members.getLsbD d && routed s.domain t.lanesOut d))) ∧
  (∀ s d, d < 64 → (loseMembers s).domain.members.getLsbD d = (s.domain.members.getLsbD d && routed s.domain s.lanesOut d)) ∧
  (∀ s, let d := s.input.who % 64
    (s.domain.members.getLsbD d = false → exec .domainMemberLoss s = .next s) ∧
    (s.domain.members.getLsbD d = true → (∀ i, i < 64 → i ≠ d → s.domain.members.getLsbD i = true → routed s.domain s.lanesOut i = true) →
      exec .domainMemberLoss s = .next (hostRecord
        { s with domain := { s.domain with routes := kset d 0 s.domain.routes, members := s.domain.members &&& ~~~ w64 (2 ^ d) } }
        { cause := .addressRange, info1 := w64 d }))) ∧
  (∀ s, (s.input.flag = true → (s.shmSteps = 0 → exec .sharedBoundaryMove s = .next s) ∧
      (s.shmSteps ≠ 0 → mapsStep s (2 ^ 25 * s.shmSteps) = none → exec .sharedBoundaryMove s = .next { s with shmSteps := s.shmSteps - 1 }) ∧
      (∀ t, s.shmSteps ≠ 0 → mapsStep s (2 ^ 25 * s.shmSteps) = some t → exec .sharedBoundaryMove s = .next
        (hostRecord s { cause := .partitionRefused, tenant := t, info0 := w64 (s.shmSteps - 1), info1 := w64 t }))) ∧
    (s.input.flag = false → exec .sharedBoundaryMove s = .next
      (if s.shmSteps < 10 ∧ segFits { s with shmSteps := s.shmSteps + 1 } 0 = true then { s with shmSteps := s.shmSteps + 1 } else s))) ∧
  (∀ s q, s.input.req = q → let va := peerAddr q.offset
    (s.domain.members.getLsbD q.member = false → exec .peerRequest s = .next s) ∧
    (s.domain.members.getLsbD q.member = true → domainTenant s q.tenant = none → ∃ e : Fail, e.cause = .pageNotPresent ∧
      exec .peerRequest s = .next (peerFail s q.member e)) ∧
    (∀ t, s.domain.members.getLsbD q.member = true → domainTenant s q.tenant = some t →
      (∀ n l, q.op = .load n → checkOne s { tenant := t } va n n { rd := true } .plain = .ok l → ∃ u, exec .peerRequest s = .next u ∧
        u = { touch s t va false with outward := s.outward ++ [.peerReply q.member (w64 (rdN s l n))] }) ∧
      (∀ n v l, q.op = .store n v → checkOne s { tenant := t } va n n { wr := true } .plain = .ok l → ∃ u, exec .peerRequest s = .next u ∧
        u.outward = s.outward ++ [.peerReply q.member 0] ∧ rdN u l n = v.toNat % 2 ^ (8 * n)) ∧
      (∀ n e, q.op = .load n → checkOne s { tenant := t } va n n { rd := true } .plain = .error e →
        exec .peerRequest s = .next (peerFail s q.member e)) ∧
      (∀ op ty v w l, q.op = .atom op ty v w → checkOne s { tenant := t } va (ty.width / 8) (ty.width / 8) { rd := true, wr := true } .plain = .ok l →
        ∃ u, exec .peerRequest s = .next u ∧ u.outward = s.outward ++ [.peerReply q.member (w64 (rdN s l (ty.width / 8)))]))) ∧
  (∀ s, exec .ppsAndTimeOfDayInput s = .next { s with time := max s.time (s.input.value.toNat * 2 ^ 32 + s.input.frac.toNat) })

/-! ### The whole machine: reset, memory, encodings, the step -/

/-- The reset columns of Tables 1.4 to 1.6, 19.2 to 19.8, 23.2, 23.3 and 25.2: the capabilities are those of a full part, every core is in the
compute partition with its default periods and pools, the device registers are at their defaults, no ring serves, the device is in reset. (Values
the manual does not give are not stated here, log 8; that a pool's held blocks are counted from what waits is the model's, log 33.) The memories are in canonical form: with `StepKeepsMemory`, in every state a run reaches. -/
def Obligations.ResetValues : Prop :=
  let s := State.reset
  s.boot.state = .reset ∧ s.boot.fail = 0 ∧ s.caps.dev = 0x0030808801000600 ∧ s.caps.cluster = List.replicate 4 0x88888888 ∧ s.caps.spare = 0xFF ∧
  (∀ c, (s.core c).gatherM1 = 255 ∧ (s.core c).quantumM1 = 1023 ∧ (s.core c).starveM1 = 4095 ∧ (s.core c).part = 1 ∧ (s.core c).moving = false ∧
    (s.core c).chains = [] ∧ (s.core c).spawnP = ⟨512, 1536⟩ ∧ (s.core c).contP = ⟨512, 1536⟩ ∧ (s.core c).copyP = ⟨256, 1024⟩ ∧
    (s.core c).readyP = ⟨128, 512⟩ ∧ heldOf s c .spawn = 0 ∧ heldOf s c .cont = 0 ∧ heldOf s c .copy = 0 ∧ heldOf s c .ready = 0) ∧
  s.devCfg.preWaitUs = 200 ∧ s.devCfg.slice = 4096 ∧ s.devCfg.segLimit = 1024 ∧ segUsed s = 0 ∧ s.devCfg.leadUs = 100 ∧ s.devCfg.rclust = 8 ∧
  s.devCfg.computeMin = 0 ∧ (∀ g, (s.ring g).state = .disabled ∧ (s.ring g).head = 0 ∧ (s.ring g).tail = 0 ∧ (s.ring g).step = 0) ∧
  s.table = none ∧ s.domain.members = 0 ∧ s.groups = [] ∧ s.waves = [] ∧ s.tasks = [] ∧ s.memWf = true

/-- Every step keeps every memory of the machine, and every group's local store, in canonical form: addresses strictly rising, and no byte listed
that an unlisted address reads as. -/
def Obligations.StepKeepsMemory : Prop := ∀ s t, s.memWf = true → step s = .next t → t.memWf = true

/-- R60, R289: nothing the machine does stops it: whatever the state, a step answers a next state. A fault of an instruction is an exception taken,
an encoding that is none is ILLEGAL_OPCODE, a wait is a state of its wave. -/
def Obligations.StepAlwaysCompletes : Prop := ∀ s, ∃ t, step s = .next t

/-- R113 to R115, R118, R124, R310: a step in which a wave may issue fetches the parcels at its PC and runs the meaning of the instruction they decode
to; a fault of the fetch and a reserved field are taken as exceptions, a wave that may not issue does nothing; an uncorrectable error of the core's
arrays, where the turn's input brings one, is taken instead (R297, log 28); a step of the device that its power state allows (R391, log 84) runs its own
meaning with its input. Each parcel is the four bytes at its checked address, where no line of code stands written since its wave's task was published
(R115; log 42: else one free choice for each line). That the agenda says who acts is the model's (log 3). -/
def Obligations.StepRunsDecoded : Prop :=
  (∀ s t rest k w, s.agenda = t :: rest → t.what = .issue k → let b := beginTurn s t rest
    b.wave? k = some w →
    (mayIssue b k = false → step s = .next b) ∧
    (mayIssue b k = true → t.input.flag = true → ∀ ps, fetchAt b k w.pc.toNat = .ok ps →
      step s = .next (takeTrap b k (4 * ps.length) { cause := .eccUncorrectable, info0 := w64 (coreOf b k), info1 := 1 })) ∧
    (mayIssue b k = true → ∀ e, fetchAt b k w.pc.toNat = .error e →
      step s = .next (takeTrap (if t.input.flag then b else countIssue b (coreOf b k)) k 0
        { cause := e.cause, info0 := e.info0, info1 := e.info1, lanes := some w.path, fetch := true })) ∧
    (mayIssue b k = true → t.input.flag = false → ∀ ps, fetchAt b k w.pc.toNat = .ok ps →
      let u : State := { countIssue (fetchTouch b k w.pc.toNat ps.length) (coreOf b k) with cur := some k }
      (∀ i, decode ps = .instr i → i ≠ .illegalOpcode → step s = exec i u) ∧
      (decode ps = .instr .illegalOpcode →
        step s = exec .illegalOpcode { u with input := { value := infoParcels ps, idx := 4 * ps.length } }) ∧
      (∀ n, decode ps = .reserved n → step s = .next (takeTrap u k (4 * ps.length)
        { cause := .reservedField, info0 := infoParcels ps, info1 := w64 n, lanes := some w.path })))) ∧
  (∀ s t rest i, s.agenda = t :: rest → t.what = .event i →
    let b := beginTurn s t rest
    (i.isEvent = true → powered b.power i = true → step s = exec i b) ∧ (i.isEvent = false ∨ powered b.power i = false → step s = .next b)) ∧
  (∀ s k va ps, fetchAt s k va = .ok ps → ∀ j p, ps[j]? = some p → ∃ l,
    (s.codeLines.all (fun c => c.at_ != l.line.1) = true → p = BitVec.ofNat 32 (rdN s l 4)) ∧
    checkOne s { tenant := tenantOf s k, ls := some (lsGroup s k), fetch := true } (va + 4 * j) 4 4 { ex := true } .plain = .ok l)

/-- Chapters 9 to 22: the words the manual writes out decode to the instructions it writes them for. -/
def Obligations.DecodeOfWrittenWords : Prop :=
  decode [0x2804300D, 0x30020180] = .instr (.fpAdd { h := ⟨3, 3⟩, d := 4, a := 5, b := .vec 6, ty := .f32, rmo := .mode }) ∧
  decode [0x00000822] = .instr (.addF64Compact { d := 1, a := 0, b := 0, stall := 1 }) ∧
  decode [0x000A0043, 0x00000800, 0x00000040] = .instr (.brDiv { neg := true, cond := 2, rej := 32, tgt := .far 64, stall := 0 }) ∧
  decode [0x10068603, 0x07000100, 0x00000005] =
    .instr (.atomAddBound { h := ⟨0, 0⟩, d := 6, a := 2, b := 4, mem := ⟨.plain, .wave, .n32⟩, m := 5 }) ∧
  decode [0x100A5141, 0x80260200] = .instr (.xlReorder { h := ⟨0, 0⟩, z := true, d := 10, a := 2, b := 8, ty := .b64 }) ∧
  decode [0xF801B101, 0x00000680] = .instr (.mmaF8e4 { h := ⟨0, 0⟩, ad := 1, kx := 31, ablk := 2, bblk := 3 }) ∧
  decode [0x4800B481, 0x001A0500] = .instr (.accSt { h := ⟨0, 0⟩, ad := 0, cw := ⟨false, 9⟩, sb := 20, tsr := .mem 13 }) ∧
  decode [0x200AE201, 0x00020000] = .instr (.ringAcqCons { h := ⟨0, 0⟩, d := 10, a := 4 }) ∧
  decode [0xA000E281, 0x00000740] = .instr (.ringHalo { h := ⟨0, 0⟩, a := 20, b := 29 })

/-- Tables 9.2 to 9.4, 9.6, 9.8, 11.1, 13.1, 15.1, 21.1: encoding and decoding agree for every well-formed instruction, with every operand at every
value its encoding admits: no bit of an encoding is dropped, and the parcels, of the length their own first bits give, are all read. -/
def Obligations.RoundTripAll : Prop :=
  ∀ i, i.wf = true → decode (encode i) = .instr i ∧ ∃ p ps, encode i = p :: ps ∧
    (p.getLsbD 0 = false → ps = []) ∧ (∀ q qs, p.getLsbD 0 = true → ps = q :: qs → parcelCount p q = ps.length + 1)
end

