-- ==== Sys2Proof/Laws/KMap.lean ====
section
/-! SUPPORT. The laws of sparse data by key: reading after a write, and the canonical form that every operation keeps. -/

namespace Sys2Proof.Laws

open Sys2Proof.Machine

variable {α : Type}

/-! ### Reading after a write -/

@[simp] theorem kfind_nil (k : Nat) : kfind k ([] : List (Nat × α)) = none := rfl

@[simp] theorem kfind_kset_same (k : Nat) (v : α) (m : List (Nat × α)) : kfind k (kset k v m) = some v := by
  induction m with
  | nil => simp [kset, kfind]
  | cons p r ih =>
    obtain ⟨a, b⟩ := p
    by_cases h1 : a < k
    · simp [kset, kfind, h1, ih, Nat.ne_of_lt h1]
    · by_cases h2 : a = k
      · simp [kset, kfind, h2]
      · simp only [kset, h1, h2, if_false]; simp [kfind]

@[simp] theorem kfind_kset_ne {j k : Nat} (h : j ≠ k) (v : α) (m : List (Nat × α)) : kfind j (kset k v m) = kfind j m := by
  induction m with
  | nil => simp [kset, kfind, Ne.symm h]
  | cons p r ih =>
    obtain ⟨a, b⟩ := p
    by_cases h1 : a < k
    · simp only [kset, h1, if_true, kfind, ih]
    · by_cases h2 : a = k
      · subst h2; simp only [kset, lt_irrefl, if_false, if_true, kfind, if_neg (Ne.symm h)]
      · simp only [kset, h1, h2, if_false, kfind, if_neg (Ne.symm h)]

theorem kset_kset (k : Nat) (u v : α) (m : List (Nat × α)) : kset k v (kset k u m) = kset k v m := by
  induction m with
  | nil => simp [kset]
  | cons p r ih =>
    obtain ⟨a, b⟩ := p
    simp only [kset]
    split_ifs with h1 h2
    · simp only [kset, h1, if_true, ih]
    · simp [kset]
    · simp [kset]

theorem kfind_kset (j k : Nat) (v : α) (m : List (Nat × α)) : kfind j (kset k v m) = if j = k then some v else kfind j m := by
  split
  · subst j; simp
  · simp [*]

@[simp] theorem kget_kset_same (d : α) (k : Nat) (v : α) (m : List (Nat × α)) : kget d k (kset k v m) = v := by simp [kget]

@[simp] theorem kget_kset_ne (d : α) {j k : Nat} (h : j ≠ k) (v : α) (m : List (Nat × α)) : kget d j (kset k v m) = kget d j m := by
  simp [kget, h]

/-- Keys of a sorted list are above a bound that its first key is above. -/
theorem ksorted_cons {p : Nat × α} {r : List (Nat × α)} (h : ksorted (p :: r) = true) : ksorted r = true ∧ ∀ q ∈ r, p.1 < q.1 := by
  induction r generalizing p with
  | nil => simp [ksorted]
  | cons q r ih =>
    simp only [ksorted, Bool.and_eq_true, decide_eq_true_eq] at h
    obtain ⟨h1, h2⟩ := h
    refine ⟨h2, fun x hx => ?_⟩
    rcases List.mem_cons.1 hx with rfl | hx
    · exact h1
    · exact lt_trans h1 ((ih h2).2 x hx)

theorem ksorted_mk {p : Nat × α} {r : List (Nat × α)} (h : ksorted r = true) (hp : ∀ q ∈ r, p.1 < q.1) : ksorted (p :: r) = true := by
  cases r with
  | nil => rfl
  | cons q r => simp only [ksorted, Bool.and_eq_true, decide_eq_true_eq]; exact ⟨hp q (by simp), h⟩

theorem kfind_none_of_lt {k : Nat} {m : List (Nat × α)} (h : ∀ q ∈ m, k < q.1) : kfind k m = none := by
  induction m with
  | nil => rfl
  | cons p r ih =>
    have := h p (by simp)
    simp only [kfind]
    rw [if_neg (by omega)]
    exact ih fun q hq => h q (by simp [hq])

@[simp] theorem kfind_kdel_same (k : Nat) (m : List (Nat × α)) : kfind k (kdel k m) = none := by
  induction m with
  | nil => rfl
  | cons p r ih =>
    obtain ⟨a, b⟩ := p
    by_cases h : a = k
    · simpa [kdel, h] using ih
    · simpa [kdel, kfind, h] using ih

@[simp] theorem kfind_kdel_ne {j k : Nat} (hj : j ≠ k) (m : List (Nat × α)) : kfind j (kdel k m) = kfind j m := by
  induction m with
  | nil => rfl
  | cons p r ih =>
    obtain ⟨a, b⟩ := p
    by_cases h : a = k
    · subst h; simp [kdel, kfind, Ne.symm hj, ih]
    · simp [kdel, kfind, h, ih]

/-- Reading a map with a default after a write. -/
theorem kget_kput [DecidableEq α] (d : α) (m : List (Nat × α)) (j k : Nat) (v : α) :
    kget d j (kput d k v m) = if j = k then v else kget d j m := by
  by_cases hv : v = d
  · by_cases hj : j = k
    · subst hj; simp [kput, hv, kget]
    · simp [kput, hv, kget, hj]
  · by_cases hj : j = k
    · subst hj; simp [kput, hv]
    · simp [kput, hv, hj]

/-! ### The canonical form -/

theorem mem_kset {k : Nat} {v : α} {m : List (Nat × α)} {q : Nat × α} (h : q ∈ kset k v m) : q = (k, v) ∨ q ∈ m := by
  induction m with
  | nil => simpa [kset] using h
  | cons p r ih =>
    obtain ⟨a, b⟩ := p
    simp only [kset] at h
    split_ifs at h
    · rcases List.mem_cons.1 h with h | h
      · exact .inr (by simp [h])
      · rcases ih h with h | h
        · exact .inl h
        · exact .inr (by simp [h])
    · rcases List.mem_cons.1 h with h | h
      · exact .inl h
      · exact .inr (by simp [h])
    · rcases List.mem_cons.1 h with h | h
      · exact .inl h
      · exact .inr h

theorem mem_kdel {k : Nat} {m : List (Nat × α)} {q : Nat × α} (h : q ∈ kdel k m) : q ∈ m := by
  induction m with
  | nil => simp [kdel] at h
  | cons p r ih =>
    obtain ⟨a, b⟩ := p
    simp only [kdel] at h
    split_ifs at h
    · exact List.mem_cons_of_mem _ (ih h)
    · rcases List.mem_cons.1 h with h | h
      · simp [h]
      · exact List.mem_cons_of_mem _ (ih h)

theorem ksorted_kset {m : List (Nat × α)} (h : ksorted m = true) (k : Nat) (v : α) : ksorted (kset k v m) = true := by
  induction m with
  | nil => rfl
  | cons p r ih =>
    obtain ⟨a, b⟩ := p
    have hc := ksorted_cons h
    by_cases h1 : a < k
    · simp only [kset, h1, if_true]
      refine ksorted_mk (ih hc.1) fun q hq => ?_
      rcases mem_kset hq with rfl | hq
      · exact h1
      · exact hc.2 q hq
    · by_cases h2 : a = k
      · subst h2
        simp only [kset, lt_irrefl, if_false, if_true]
        exact ksorted_mk hc.1 hc.2
      · simp only [kset, h1, h2, if_false]
        refine ksorted_mk h fun q hq => ?_
        have : k < a := by omega
        rcases List.mem_cons.1 hq with rfl | hq
        · exact this
        · exact lt_trans this (hc.2 q hq)

theorem ksorted_kdel {m : List (Nat × α)} (h : ksorted m = true) (k : Nat) : ksorted (kdel k m) = true := by
  induction m with
  | nil => rfl
  | cons p r ih =>
    obtain ⟨a, b⟩ := p
    have hc := ksorted_cons h
    simp only [kdel]
    split_ifs
    · exact ih hc.1
    · exact ksorted_mk (ih hc.1) fun q hq => hc.2 q (mem_kdel hq)

theorem ksorted_filter {m : List (Nat × α)} (h : ksorted m = true) (f : Nat × α → Bool) : ksorted (m.filter f) = true := by
  induction m with
  | nil => rfl
  | cons p r ih =>
    have hc := ksorted_cons h
    simp only [List.filter_cons]
    split
    · exact ksorted_mk (ih hc.1) fun q hq => hc.2 q (List.mem_filter.1 hq).1
    · exact ih hc.1

theorem kcanon_iff [DecidableEq α] {d : α} {m : List (Nat × α)} : kcanon d m = true ↔ ksorted m = true ∧ ∀ q ∈ m, q.2 ≠ d := by
  simp [kcanon, List.all_eq_true]

/-- A write keeps the canonical form. -/
theorem kcanon_kput [DecidableEq α] {d : α} {m : List (Nat × α)} (h : kcanon d m = true) (k : Nat) (v : α) : kcanon d (kput d k v m) = true := by
  rw [kcanon_iff] at h ⊢
  by_cases hv : v = d
  · simp only [kput, hv, if_true]
    exact ⟨ksorted_kdel h.1 k, fun q hq => h.2 q (mem_kdel hq)⟩
  · simp only [kput, hv, if_false]
    refine ⟨ksorted_kset h.1 k v, fun q hq => ?_⟩
    rcases mem_kset hq with rfl | hq
    · exact hv
    · exact h.2 q hq

theorem kcanon_filter [DecidableEq α] {d : α} {m : List (Nat × α)} (h : kcanon d m = true) (f : Nat × α → Bool) : kcanon d (m.filter f) = true := by
  rw [kcanon_iff] at h ⊢
  exact ⟨ksorted_filter h.1 f, fun q hq => h.2 q (List.mem_filter.1 hq).1⟩

@[simp] theorem kcanon_nil [DecidableEq α] (d : α) : kcanon d ([] : List (Nat × α)) = true := rfl

/-- Equal maps: two canonical maps that read the same are the same list. -/
theorem kcanon_ext [DecidableEq α] {d : α} {m n : List (Nat × α)} (hm : kcanon d m = true) (hn : kcanon d n = true)
    (h : ∀ k, kget d k m = kget d k n) : m = n := by
  induction m generalizing n with
  | nil =>
    cases n with
    | nil => rfl
    | cons q r =>
      have := h q.1
      rw [kcanon_iff] at hn
      simp [kget, kfind] at this
      exact absurd this.symm (hn.2 q (by simp))
  | cons p r ih =>
    rw [kcanon_iff] at hm
    cases n with
    | nil =>
      have := h p.1
      simp [kget, kfind] at this
      exact absurd this (hm.2 p (by simp))
    | cons q t =>
      rw [kcanon_iff] at hn
      have hp := ksorted_cons hm.1
      have hq := ksorted_cons hn.1
      have hkey : p.1 = q.1 := by
        rcases lt_trichotomy p.1 q.1 with hlt | he | hlt
        · have := h p.1
          rw [show kget d p.1 (p :: r) = p.2 by simp [kget, kfind]] at this
          rw [show kget d p.1 (q :: t) = d by
            simp only [kget, kfind]; rw [if_neg (by omega), kfind_none_of_lt fun x hx => lt_trans hlt (hq.2 x hx)]; rfl] at this
          exact absurd this (hm.2 p (by simp))
        · exact he
        · have := h q.1
          rw [show kget d q.1 (q :: t) = q.2 by simp [kget, kfind]] at this
          rw [show kget d q.1 (p :: r) = d by
            simp only [kget, kfind]; rw [if_neg (by omega), kfind_none_of_lt fun x hx => lt_trans hlt (hp.2 x hx)]; rfl] at this
          exact absurd this.symm (hn.2 q (by simp))
      have hval : p.2 = q.2 := by
        have := h p.1
        rw [show kget d p.1 (p :: r) = p.2 by simp [kget, kfind], show kget d p.1 (q :: t) = q.2 by simp [kget, kfind, hkey]] at this
        exact this
      have htail : r = t := by
        refine ih (kcanon_iff.2 ⟨hp.1, fun x hx => hm.2 x (by simp [hx])⟩) (kcanon_iff.2 ⟨hq.1, fun x hx => hn.2 x (by simp [hx])⟩) fun k => ?_
        by_cases hk : k = p.1
        · rw [show kget d k r = d by rw [hk]; simp [kget, kfind_none_of_lt hp.2],
            show kget d k t = d by rw [hk, hkey]; simp [kget, kfind_none_of_lt hq.2]]
        · by_cases hk2 : p.1 < k
          · have := h k
            have e1 : ¬ p.1 = k := by omega
            have e2 : ¬ q.1 = k := by omega
            simpa [kget, kfind, e1, e2] using this
          · have hlt : k < p.1 := by omega
            rw [show kget d k r = d by simp [kget, kfind_none_of_lt fun x hx => lt_trans hlt (hp.2 x hx)],
              show kget d k t = d by simp [kget, kfind_none_of_lt fun x hx => lt_trans (hkey ▸ hlt) (hq.2 x hx)]]
      rw [htail]; exact congrArg (· :: t) (Prod.ext hkey hval)

end Sys2Proof.Laws
end

