-- ==== Sys2Proof/Laws/State.lean ====
section
/-! SUPPORT. What each update of the state does to each of its fields, so that no later proof unfolds a record update. -/

namespace Sys2Proof.Machine

/-! ### setWave -/

@[simp] theorem State.setWave_agenda (s : State) (k : Nat) (w : Wave) : (s.setWave k w).agenda = s.agenda := rfl
@[simp] theorem State.setWave_input (s : State) (k : Nat) (w : Wave) : (s.setWave k w).input = s.input := rfl
@[simp] theorem State.setWave_held (s : State) (k : Nat) (w : Wave) : (s.setWave k w).held = s.held := rfl
@[simp] theorem State.setWave_draw (s : State) (k : Nat) (w : Wave) : (s.setWave k w).draw = s.draw := rfl
@[simp] theorem State.setWave_peers (s : State) (k : Nat) (w : Wave) : (s.setWave k w).peers = s.peers := rfl
@[simp] theorem State.setWave_releasedQ (s : State) (k : Nat) (w : Wave) : (s.setWave k w).releasedQ = s.releasedQ := rfl
@[simp] theorem State.setWave_nextYield (s : State) (k : Nat) (w : Wave) : (s.setWave k w).nextYield = s.nextYield := rfl
@[simp] theorem State.setWave_nodeCaches (s : State) (k : Nat) (w : Wave) : (s.setWave k w).nodeCaches = s.nodeCaches := rfl
@[simp] theorem State.setWave_codeLines (s : State) (k : Nat) (w : Wave) : (s.setWave k w).codeLines = s.codeLines := rfl
@[simp] theorem State.setWave_ringsAcq (s : State) (k : Nat) (w : Wave) : (s.setWave k w).ringsAcq = s.ringsAcq := rfl
@[simp] theorem State.setWave_cur (s : State) (k : Nat) (w : Wave) : (s.setWave k w).cur = s.cur := rfl
@[simp] theorem State.setWave_fresh (s : State) (k : Nat) (w : Wave) : (s.setWave k w).fresh = s.fresh := rfl
@[simp] theorem State.setWave_cycle (s : State) (k : Nat) (w : Wave) : (s.setWave k w).cycle = s.cycle := rfl
@[simp] theorem State.setWave_time (s : State) (k : Nat) (w : Wave) : (s.setWave k w).time = s.time := rfl
@[simp] theorem State.setWave_ext (s : State) (k : Nat) (w : Wave) : (s.setWave k w).ext = s.ext := rfl
@[simp] theorem State.setWave_shm (s : State) (k : Nat) (w : Wave) : (s.setWave k w).shm = s.shm := rfl
@[simp] theorem State.setWave_shmTags (s : State) (k : Nat) (w : Wave) : (s.setWave k w).shmTags = s.shmTags := rfl
@[simp] theorem State.setWave_host (s : State) (k : Nat) (w : Wave) : (s.setWave k w).host = s.host := rfl
@[simp] theorem State.setWave_peer (s : State) (k : Nat) (w : Wave) : (s.setWave k w).peer = s.peer := rfl
@[simp] theorem State.setWave_shmSteps (s : State) (k : Nat) (w : Wave) : (s.setWave k w).shmSteps = s.shmSteps := rfl
@[simp] theorem State.setWave_poison (s : State) (k : Nat) (w : Wave) : (s.setWave k w).poison = s.poison := rfl
@[simp] theorem State.setWave_roots (s : State) (k : Nat) (w : Wave) : (s.setWave k w).roots = s.roots := rfl
@[simp] theorem State.setWave_tlb (s : State) (k : Nat) (w : Wave) : (s.setWave k w).tlb = s.tlb := rfl
@[simp] theorem State.setWave_caps (s : State) (k : Nat) (w : Wave) : (s.setWave k w).caps = s.caps := rfl
@[simp] theorem State.setWave_coresOut (s : State) (k : Nat) (w : Wave) : (s.setWave k w).coresOut = s.coresOut := rfl
@[simp] theorem State.setWave_sparesUsed (s : State) (k : Nat) (w : Wave) : (s.setWave k w).sparesUsed = s.sparesUsed := rfl
@[simp] theorem State.setWave_coresMoved (s : State) (k : Nat) (w : Wave) : (s.setWave k w).coresMoved = s.coresMoved := rfl
@[simp] theorem State.setWave_channelsOut (s : State) (k : Nat) (w : Wave) : (s.setWave k w).channelsOut = s.channelsOut := rfl
@[simp] theorem State.setWave_channelsMarked (s : State) (k : Nat) (w : Wave) : (s.setWave k w).channelsMarked = s.channelsMarked := rfl
@[simp] theorem State.setWave_lanesOut (s : State) (k : Nat) (w : Wave) : (s.setWave k w).lanesOut = s.lanesOut := rfl
@[simp] theorem State.setWave_rowErrors (s : State) (k : Nat) (w : Wave) : (s.setWave k w).rowErrors = s.rowErrors := rfl
@[simp] theorem State.setWave_rowsSpare (s : State) (k : Nat) (w : Wave) : (s.setWave k w).rowsSpare = s.rowsSpare := rfl
@[simp] theorem State.setWave_channelErrors (s : State) (k : Nat) (w : Wave) : (s.setWave k w).channelErrors = s.channelErrors := rfl
@[simp] theorem State.setWave_cores (s : State) (k : Nat) (w : Wave) : (s.setWave k w).cores = s.cores := rfl
@[simp] theorem State.setWave_groups (s : State) (k : Nat) (w : Wave) : (s.setWave k w).groups = s.groups := rfl
@[simp] theorem State.setWave_waves (s : State) (k : Nat) (w : Wave) : (s.setWave k w).waves = kset k w s.waves := rfl
@[simp] theorem State.setWave_tasks (s : State) (k : Nat) (w : Wave) : (s.setWave k w).tasks = s.tasks := rfl
@[simp] theorem State.setWave_joins (s : State) (k : Nat) (w : Wave) : (s.setWave k w).joins = s.joins := rfl
@[simp] theorem State.setWave_threads (s : State) (k : Nat) (w : Wave) : (s.setWave k w).threads = s.threads := rfl
@[simp] theorem State.setWave_xfers (s : State) (k : Nat) (w : Wave) : (s.setWave k w).xfers = s.xfers := rfl
@[simp] theorem State.setWave_owns (s : State) (k : Nat) (w : Wave) : (s.setWave k w).owns = s.owns := rfl
@[simp] theorem State.setWave_kds (s : State) (k : Nat) (w : Wave) : (s.setWave k w).kds = s.kds := rfl
@[simp] theorem State.setWave_nextSeq (s : State) (k : Nat) (w : Wave) : (s.setWave k w).nextSeq = s.nextSeq := rfl
@[simp] theorem State.setWave_nextGid (s : State) (k : Nat) (w : Wave) : (s.setWave k w).nextGid = s.nextGid := rfl
@[simp] theorem State.setWave_nextJoin (s : State) (k : Nat) (w : Wave) : (s.setWave k w).nextJoin = s.nextJoin := rfl
@[simp] theorem State.setWave_nextXfer (s : State) (k : Nat) (w : Wave) : (s.setWave k w).nextXfer = s.nextXfer := rfl
@[simp] theorem State.setWave_tickets (s : State) (k : Nat) (w : Wave) : (s.setWave k w).tickets = s.tickets := rfl
@[simp] theorem State.setWave_nextBatch (s : State) (k : Nat) (w : Wave) : (s.setWave k w).nextBatch = s.nextBatch := rfl
@[simp] theorem State.setWave_rings (s : State) (k : Nat) (w : Wave) : (s.setWave k w).rings = s.rings := rfl
@[simp] theorem State.setWave_cp (s : State) (k : Nat) (w : Wave) : (s.setWave k w).cp = s.cp := rfl
@[simp] theorem State.setWave_streams (s : State) (k : Nat) (w : Wave) : (s.setWave k w).streams = s.streams := rfl
@[simp] theorem State.setWave_funcs (s : State) (k : Nat) (w : Wave) : (s.setWave k w).funcs = s.funcs := rfl
@[simp] theorem State.setWave_vecUnmasked (s : State) (k : Nat) (w : Wave) : (s.setWave k w).vecUnmasked = s.vecUnmasked := rfl
@[simp] theorem State.setWave_vecPending (s : State) (k : Nat) (w : Wave) : (s.setWave k w).vecPending = s.vecPending := rfl
@[simp] theorem State.setWave_devCfg (s : State) (k : Nat) (w : Wave) : (s.setWave k w).devCfg = s.devCfg := rfl
@[simp] theorem State.setWave_budgets (s : State) (k : Nat) (w : Wave) : (s.setWave k w).budgets = s.budgets := rfl
@[simp] theorem State.setWave_uses (s : State) (k : Nat) (w : Wave) : (s.setWave k w).uses = s.uses := rfl
@[simp] theorem State.setWave_table (s : State) (k : Nat) (w : Wave) : (s.setWave k w).table = s.table := rfl
@[simp] theorem State.setWave_nextTable (s : State) (k : Nat) (w : Wave) : (s.setWave k w).nextTable = s.nextTable := rfl
@[simp] theorem State.setWave_chains (s : State) (k : Nat) (w : Wave) : (s.setWave k w).chains = s.chains := rfl
@[simp] theorem State.setWave_outputs (s : State) (k : Nat) (w : Wave) : (s.setWave k w).outputs = s.outputs := rfl
@[simp] theorem State.setWave_rasters (s : State) (k : Nat) (w : Wave) : (s.setWave k w).rasters = s.rasters := rfl
@[simp] theorem State.setWave_domain (s : State) (k : Nat) (w : Wave) : (s.setWave k w).domain = s.domain := rfl
@[simp] theorem State.setWave_boot (s : State) (k : Nat) (w : Wave) : (s.setWave k w).boot = s.boot := rfl
@[simp] theorem State.setWave_flash (s : State) (k : Nat) (w : Wave) : (s.setWave k w).flash = s.flash := rfl
@[simp] theorem State.setWave_power (s : State) (k : Nat) (w : Wave) : (s.setWave k w).power = s.power := rfl
@[simp] theorem State.setWave_thermalTrip (s : State) (k : Nat) (w : Wave) : (s.setWave k w).thermalTrip = s.thermalTrip := rfl
@[simp] theorem State.setWave_outward (s : State) (k : Nat) (w : Wave) : (s.setWave k w).outward = s.outward := rfl
@[simp] theorem State.setWave_killing (s : State) (k : Nat) (w : Wave) : (s.setWave k w).killing = s.killing := rfl
@[simp] theorem State.setWave_reported (s : State) (k : Nat) (w : Wave) : (s.setWave k w).reported = s.reported := rfl
@[simp] theorem State.setWave_lastBalance (s : State) (k : Nat) (w : Wave) : (s.setWave k w).lastBalance = s.lastBalance := rfl

/-! ### modWave -/

@[simp] theorem State.modWave_agenda (s : State) (k : Nat) (f : Wave → Wave) : (s.modWave k f).agenda = s.agenda := rfl
@[simp] theorem State.modWave_input (s : State) (k : Nat) (f : Wave → Wave) : (s.modWave k f).input = s.input := rfl
@[simp] theorem State.modWave_held (s : State) (k : Nat) (f : Wave → Wave) : (s.modWave k f).held = s.held := rfl
@[simp] theorem State.modWave_draw (s : State) (k : Nat) (f : Wave → Wave) : (s.modWave k f).draw = s.draw := rfl
@[simp] theorem State.modWave_peers (s : State) (k : Nat) (f : Wave → Wave) : (s.modWave k f).peers = s.peers := rfl
@[simp] theorem State.modWave_releasedQ (s : State) (k : Nat) (f : Wave → Wave) : (s.modWave k f).releasedQ = s.releasedQ := rfl
@[simp] theorem State.modWave_nextYield (s : State) (k : Nat) (f : Wave → Wave) : (s.modWave k f).nextYield = s.nextYield := rfl
@[simp] theorem State.modWave_nodeCaches (s : State) (k : Nat) (f : Wave → Wave) : (s.modWave k f).nodeCaches = s.nodeCaches := rfl
@[simp] theorem State.modWave_codeLines (s : State) (k : Nat) (f : Wave → Wave) : (s.modWave k f).codeLines = s.codeLines := rfl
@[simp] theorem State.modWave_ringsAcq (s : State) (k : Nat) (f : Wave → Wave) : (s.modWave k f).ringsAcq = s.ringsAcq := rfl
@[simp] theorem State.modWave_cur (s : State) (k : Nat) (f : Wave → Wave) : (s.modWave k f).cur = s.cur := rfl
@[simp] theorem State.modWave_fresh (s : State) (k : Nat) (f : Wave → Wave) : (s.modWave k f).fresh = s.fresh := rfl
@[simp] theorem State.modWave_cycle (s : State) (k : Nat) (f : Wave → Wave) : (s.modWave k f).cycle = s.cycle := rfl
@[simp] theorem State.modWave_time (s : State) (k : Nat) (f : Wave → Wave) : (s.modWave k f).time = s.time := rfl
@[simp] theorem State.modWave_ext (s : State) (k : Nat) (f : Wave → Wave) : (s.modWave k f).ext = s.ext := rfl
@[simp] theorem State.modWave_shm (s : State) (k : Nat) (f : Wave → Wave) : (s.modWave k f).shm = s.shm := rfl
@[simp] theorem State.modWave_shmTags (s : State) (k : Nat) (f : Wave → Wave) : (s.modWave k f).shmTags = s.shmTags := rfl
@[simp] theorem State.modWave_host (s : State) (k : Nat) (f : Wave → Wave) : (s.modWave k f).host = s.host := rfl
@[simp] theorem State.modWave_peer (s : State) (k : Nat) (f : Wave → Wave) : (s.modWave k f).peer = s.peer := rfl
@[simp] theorem State.modWave_shmSteps (s : State) (k : Nat) (f : Wave → Wave) : (s.modWave k f).shmSteps = s.shmSteps := rfl
@[simp] theorem State.modWave_poison (s : State) (k : Nat) (f : Wave → Wave) : (s.modWave k f).poison = s.poison := rfl
@[simp] theorem State.modWave_roots (s : State) (k : Nat) (f : Wave → Wave) : (s.modWave k f).roots = s.roots := rfl
@[simp] theorem State.modWave_tlb (s : State) (k : Nat) (f : Wave → Wave) : (s.modWave k f).tlb = s.tlb := rfl
@[simp] theorem State.modWave_caps (s : State) (k : Nat) (f : Wave → Wave) : (s.modWave k f).caps = s.caps := rfl
@[simp] theorem State.modWave_coresOut (s : State) (k : Nat) (f : Wave → Wave) : (s.modWave k f).coresOut = s.coresOut := rfl
@[simp] theorem State.modWave_sparesUsed (s : State) (k : Nat) (f : Wave → Wave) : (s.modWave k f).sparesUsed = s.sparesUsed := rfl
@[simp] theorem State.modWave_coresMoved (s : State) (k : Nat) (f : Wave → Wave) : (s.modWave k f).coresMoved = s.coresMoved := rfl
@[simp] theorem State.modWave_channelsOut (s : State) (k : Nat) (f : Wave → Wave) : (s.modWave k f).channelsOut = s.channelsOut := rfl
@[simp] theorem State.modWave_channelsMarked (s : State) (k : Nat) (f : Wave → Wave) : (s.modWave k f).channelsMarked = s.channelsMarked := rfl
@[simp] theorem State.modWave_lanesOut (s : State) (k : Nat) (f : Wave → Wave) : (s.modWave k f).lanesOut = s.lanesOut := rfl
@[simp] theorem State.modWave_rowErrors (s : State) (k : Nat) (f : Wave → Wave) : (s.modWave k f).rowErrors = s.rowErrors := rfl
@[simp] theorem State.modWave_rowsSpare (s : State) (k : Nat) (f : Wave → Wave) : (s.modWave k f).rowsSpare = s.rowsSpare := rfl
@[simp] theorem State.modWave_channelErrors (s : State) (k : Nat) (f : Wave → Wave) : (s.modWave k f).channelErrors = s.channelErrors := rfl
@[simp] theorem State.modWave_cores (s : State) (k : Nat) (f : Wave → Wave) : (s.modWave k f).cores = s.cores := rfl
@[simp] theorem State.modWave_groups (s : State) (k : Nat) (f : Wave → Wave) : (s.modWave k f).groups = s.groups := rfl
@[simp] theorem State.modWave_waves (s : State) (k : Nat) (f : Wave → Wave) : (s.modWave k f).waves = kmod k f s.waves := rfl
@[simp] theorem State.modWave_tasks (s : State) (k : Nat) (f : Wave → Wave) : (s.modWave k f).tasks = s.tasks := rfl
@[simp] theorem State.modWave_joins (s : State) (k : Nat) (f : Wave → Wave) : (s.modWave k f).joins = s.joins := rfl
@[simp] theorem State.modWave_threads (s : State) (k : Nat) (f : Wave → Wave) : (s.modWave k f).threads = s.threads := rfl
@[simp] theorem State.modWave_xfers (s : State) (k : Nat) (f : Wave → Wave) : (s.modWave k f).xfers = s.xfers := rfl
@[simp] theorem State.modWave_owns (s : State) (k : Nat) (f : Wave → Wave) : (s.modWave k f).owns = s.owns := rfl
@[simp] theorem State.modWave_kds (s : State) (k : Nat) (f : Wave → Wave) : (s.modWave k f).kds = s.kds := rfl
@[simp] theorem State.modWave_nextSeq (s : State) (k : Nat) (f : Wave → Wave) : (s.modWave k f).nextSeq = s.nextSeq := rfl
@[simp] theorem State.modWave_nextGid (s : State) (k : Nat) (f : Wave → Wave) : (s.modWave k f).nextGid = s.nextGid := rfl
@[simp] theorem State.modWave_nextJoin (s : State) (k : Nat) (f : Wave → Wave) : (s.modWave k f).nextJoin = s.nextJoin := rfl
@[simp] theorem State.modWave_nextXfer (s : State) (k : Nat) (f : Wave → Wave) : (s.modWave k f).nextXfer = s.nextXfer := rfl
@[simp] theorem State.modWave_tickets (s : State) (k : Nat) (f : Wave → Wave) : (s.modWave k f).tickets = s.tickets := rfl
@[simp] theorem State.modWave_nextBatch (s : State) (k : Nat) (f : Wave → Wave) : (s.modWave k f).nextBatch = s.nextBatch := rfl
@[simp] theorem State.modWave_rings (s : State) (k : Nat) (f : Wave → Wave) : (s.modWave k f).rings = s.rings := rfl
@[simp] theorem State.modWave_cp (s : State) (k : Nat) (f : Wave → Wave) : (s.modWave k f).cp = s.cp := rfl
@[simp] theorem State.modWave_streams (s : State) (k : Nat) (f : Wave → Wave) : (s.modWave k f).streams = s.streams := rfl
@[simp] theorem State.modWave_funcs (s : State) (k : Nat) (f : Wave → Wave) : (s.modWave k f).funcs = s.funcs := rfl
@[simp] theorem State.modWave_vecUnmasked (s : State) (k : Nat) (f : Wave → Wave) : (s.modWave k f).vecUnmasked = s.vecUnmasked := rfl
@[simp] theorem State.modWave_vecPending (s : State) (k : Nat) (f : Wave → Wave) : (s.modWave k f).vecPending = s.vecPending := rfl
@[simp] theorem State.modWave_devCfg (s : State) (k : Nat) (f : Wave → Wave) : (s.modWave k f).devCfg = s.devCfg := rfl
@[simp] theorem State.modWave_budgets (s : State) (k : Nat) (f : Wave → Wave) : (s.modWave k f).budgets = s.budgets := rfl
@[simp] theorem State.modWave_uses (s : State) (k : Nat) (f : Wave → Wave) : (s.modWave k f).uses = s.uses := rfl
@[simp] theorem State.modWave_table (s : State) (k : Nat) (f : Wave → Wave) : (s.modWave k f).table = s.table := rfl
@[simp] theorem State.modWave_nextTable (s : State) (k : Nat) (f : Wave → Wave) : (s.modWave k f).nextTable = s.nextTable := rfl
@[simp] theorem State.modWave_chains (s : State) (k : Nat) (f : Wave → Wave) : (s.modWave k f).chains = s.chains := rfl
@[simp] theorem State.modWave_outputs (s : State) (k : Nat) (f : Wave → Wave) : (s.modWave k f).outputs = s.outputs := rfl
@[simp] theorem State.modWave_rasters (s : State) (k : Nat) (f : Wave → Wave) : (s.modWave k f).rasters = s.rasters := rfl
@[simp] theorem State.modWave_domain (s : State) (k : Nat) (f : Wave → Wave) : (s.modWave k f).domain = s.domain := rfl
@[simp] theorem State.modWave_boot (s : State) (k : Nat) (f : Wave → Wave) : (s.modWave k f).boot = s.boot := rfl
@[simp] theorem State.modWave_flash (s : State) (k : Nat) (f : Wave → Wave) : (s.modWave k f).flash = s.flash := rfl
@[simp] theorem State.modWave_power (s : State) (k : Nat) (f : Wave → Wave) : (s.modWave k f).power = s.power := rfl
@[simp] theorem State.modWave_thermalTrip (s : State) (k : Nat) (f : Wave → Wave) : (s.modWave k f).thermalTrip = s.thermalTrip := rfl
@[simp] theorem State.modWave_outward (s : State) (k : Nat) (f : Wave → Wave) : (s.modWave k f).outward = s.outward := rfl
@[simp] theorem State.modWave_killing (s : State) (k : Nat) (f : Wave → Wave) : (s.modWave k f).killing = s.killing := rfl
@[simp] theorem State.modWave_reported (s : State) (k : Nat) (f : Wave → Wave) : (s.modWave k f).reported = s.reported := rfl
@[simp] theorem State.modWave_lastBalance (s : State) (k : Nat) (f : Wave → Wave) : (s.modWave k f).lastBalance = s.lastBalance := rfl

/-! ### setGroup -/

@[simp] theorem State.setGroup_agenda (s : State) (g : Nat) (x : Group) : (s.setGroup g x).agenda = s.agenda := rfl
@[simp] theorem State.setGroup_input (s : State) (g : Nat) (x : Group) : (s.setGroup g x).input = s.input := rfl
@[simp] theorem State.setGroup_held (s : State) (g : Nat) (x : Group) : (s.setGroup g x).held = s.held := rfl
@[simp] theorem State.setGroup_draw (s : State) (g : Nat) (x : Group) : (s.setGroup g x).draw = s.draw := rfl
@[simp] theorem State.setGroup_peers (s : State) (g : Nat) (x : Group) : (s.setGroup g x).peers = s.peers := rfl
@[simp] theorem State.setGroup_releasedQ (s : State) (g : Nat) (x : Group) : (s.setGroup g x).releasedQ = s.releasedQ := rfl
@[simp] theorem State.setGroup_nextYield (s : State) (g : Nat) (x : Group) : (s.setGroup g x).nextYield = s.nextYield := rfl
@[simp] theorem State.setGroup_nodeCaches (s : State) (g : Nat) (x : Group) : (s.setGroup g x).nodeCaches = s.nodeCaches := rfl
@[simp] theorem State.setGroup_codeLines (s : State) (g : Nat) (x : Group) : (s.setGroup g x).codeLines = s.codeLines := rfl
@[simp] theorem State.setGroup_ringsAcq (s : State) (g : Nat) (x : Group) : (s.setGroup g x).ringsAcq = s.ringsAcq := rfl
@[simp] theorem State.setGroup_cur (s : State) (g : Nat) (x : Group) : (s.setGroup g x).cur = s.cur := rfl
@[simp] theorem State.setGroup_fresh (s : State) (g : Nat) (x : Group) : (s.setGroup g x).fresh = s.fresh := rfl
@[simp] theorem State.setGroup_cycle (s : State) (g : Nat) (x : Group) : (s.setGroup g x).cycle = s.cycle := rfl
@[simp] theorem State.setGroup_time (s : State) (g : Nat) (x : Group) : (s.setGroup g x).time = s.time := rfl
@[simp] theorem State.setGroup_ext (s : State) (g : Nat) (x : Group) : (s.setGroup g x).ext = s.ext := rfl
@[simp] theorem State.setGroup_shm (s : State) (g : Nat) (x : Group) : (s.setGroup g x).shm = s.shm := rfl
@[simp] theorem State.setGroup_shmTags (s : State) (g : Nat) (x : Group) : (s.setGroup g x).shmTags = s.shmTags := rfl
@[simp] theorem State.setGroup_host (s : State) (g : Nat) (x : Group) : (s.setGroup g x).host = s.host := rfl
@[simp] theorem State.setGroup_peer (s : State) (g : Nat) (x : Group) : (s.setGroup g x).peer = s.peer := rfl
@[simp] theorem State.setGroup_shmSteps (s : State) (g : Nat) (x : Group) : (s.setGroup g x).shmSteps = s.shmSteps := rfl
@[simp] theorem State.setGroup_poison (s : State) (g : Nat) (x : Group) : (s.setGroup g x).poison = s.poison := rfl
@[simp] theorem State.setGroup_roots (s : State) (g : Nat) (x : Group) : (s.setGroup g x).roots = s.roots := rfl
@[simp] theorem State.setGroup_tlb (s : State) (g : Nat) (x : Group) : (s.setGroup g x).tlb = s.tlb := rfl
@[simp] theorem State.setGroup_caps (s : State) (g : Nat) (x : Group) : (s.setGroup g x).caps = s.caps := rfl
@[simp] theorem State.setGroup_coresOut (s : State) (g : Nat) (x : Group) : (s.setGroup g x).coresOut = s.coresOut := rfl
@[simp] theorem State.setGroup_sparesUsed (s : State) (g : Nat) (x : Group) : (s.setGroup g x).sparesUsed = s.sparesUsed := rfl
@[simp] theorem State.setGroup_coresMoved (s : State) (g : Nat) (x : Group) : (s.setGroup g x).coresMoved = s.coresMoved := rfl
@[simp] theorem State.setGroup_channelsOut (s : State) (g : Nat) (x : Group) : (s.setGroup g x).channelsOut = s.channelsOut := rfl
@[simp] theorem State.setGroup_channelsMarked (s : State) (g : Nat) (x : Group) : (s.setGroup g x).channelsMarked = s.channelsMarked := rfl
@[simp] theorem State.setGroup_lanesOut (s : State) (g : Nat) (x : Group) : (s.setGroup g x).lanesOut = s.lanesOut := rfl
@[simp] theorem State.setGroup_rowErrors (s : State) (g : Nat) (x : Group) : (s.setGroup g x).rowErrors = s.rowErrors := rfl
@[simp] theorem State.setGroup_rowsSpare (s : State) (g : Nat) (x : Group) : (s.setGroup g x).rowsSpare = s.rowsSpare := rfl
@[simp] theorem State.setGroup_channelErrors (s : State) (g : Nat) (x : Group) : (s.setGroup g x).channelErrors = s.channelErrors := rfl
@[simp] theorem State.setGroup_cores (s : State) (g : Nat) (x : Group) : (s.setGroup g x).cores = s.cores := rfl
@[simp] theorem State.setGroup_groups (s : State) (g : Nat) (x : Group) : (s.setGroup g x).groups = kset g x s.groups := rfl
@[simp] theorem State.setGroup_waves (s : State) (g : Nat) (x : Group) : (s.setGroup g x).waves = s.waves := rfl
@[simp] theorem State.setGroup_tasks (s : State) (g : Nat) (x : Group) : (s.setGroup g x).tasks = s.tasks := rfl
@[simp] theorem State.setGroup_joins (s : State) (g : Nat) (x : Group) : (s.setGroup g x).joins = s.joins := rfl
@[simp] theorem State.setGroup_threads (s : State) (g : Nat) (x : Group) : (s.setGroup g x).threads = s.threads := rfl
@[simp] theorem State.setGroup_xfers (s : State) (g : Nat) (x : Group) : (s.setGroup g x).xfers = s.xfers := rfl
@[simp] theorem State.setGroup_owns (s : State) (g : Nat) (x : Group) : (s.setGroup g x).owns = s.owns := rfl
@[simp] theorem State.setGroup_kds (s : State) (g : Nat) (x : Group) : (s.setGroup g x).kds = s.kds := rfl
@[simp] theorem State.setGroup_nextSeq (s : State) (g : Nat) (x : Group) : (s.setGroup g x).nextSeq = s.nextSeq := rfl
@[simp] theorem State.setGroup_nextGid (s : State) (g : Nat) (x : Group) : (s.setGroup g x).nextGid = s.nextGid := rfl
@[simp] theorem State.setGroup_nextJoin (s : State) (g : Nat) (x : Group) : (s.setGroup g x).nextJoin = s.nextJoin := rfl
@[simp] theorem State.setGroup_nextXfer (s : State) (g : Nat) (x : Group) : (s.setGroup g x).nextXfer = s.nextXfer := rfl
@[simp] theorem State.setGroup_tickets (s : State) (g : Nat) (x : Group) : (s.setGroup g x).tickets = s.tickets := rfl
@[simp] theorem State.setGroup_nextBatch (s : State) (g : Nat) (x : Group) : (s.setGroup g x).nextBatch = s.nextBatch := rfl
@[simp] theorem State.setGroup_rings (s : State) (g : Nat) (x : Group) : (s.setGroup g x).rings = s.rings := rfl
@[simp] theorem State.setGroup_cp (s : State) (g : Nat) (x : Group) : (s.setGroup g x).cp = s.cp := rfl
@[simp] theorem State.setGroup_streams (s : State) (g : Nat) (x : Group) : (s.setGroup g x).streams = s.streams := rfl
@[simp] theorem State.setGroup_funcs (s : State) (g : Nat) (x : Group) : (s.setGroup g x).funcs = s.funcs := rfl
@[simp] theorem State.setGroup_vecUnmasked (s : State) (g : Nat) (x : Group) : (s.setGroup g x).vecUnmasked = s.vecUnmasked := rfl
@[simp] theorem State.setGroup_vecPending (s : State) (g : Nat) (x : Group) : (s.setGroup g x).vecPending = s.vecPending := rfl
@[simp] theorem State.setGroup_devCfg (s : State) (g : Nat) (x : Group) : (s.setGroup g x).devCfg = s.devCfg := rfl
@[simp] theorem State.setGroup_budgets (s : State) (g : Nat) (x : Group) : (s.setGroup g x).budgets = s.budgets := rfl
@[simp] theorem State.setGroup_uses (s : State) (g : Nat) (x : Group) : (s.setGroup g x).uses = s.uses := rfl
@[simp] theorem State.setGroup_table (s : State) (g : Nat) (x : Group) : (s.setGroup g x).table = s.table := rfl
@[simp] theorem State.setGroup_nextTable (s : State) (g : Nat) (x : Group) : (s.setGroup g x).nextTable = s.nextTable := rfl
@[simp] theorem State.setGroup_chains (s : State) (g : Nat) (x : Group) : (s.setGroup g x).chains = s.chains := rfl
@[simp] theorem State.setGroup_outputs (s : State) (g : Nat) (x : Group) : (s.setGroup g x).outputs = s.outputs := rfl
@[simp] theorem State.setGroup_rasters (s : State) (g : Nat) (x : Group) : (s.setGroup g x).rasters = s.rasters := rfl
@[simp] theorem State.setGroup_domain (s : State) (g : Nat) (x : Group) : (s.setGroup g x).domain = s.domain := rfl
@[simp] theorem State.setGroup_boot (s : State) (g : Nat) (x : Group) : (s.setGroup g x).boot = s.boot := rfl
@[simp] theorem State.setGroup_flash (s : State) (g : Nat) (x : Group) : (s.setGroup g x).flash = s.flash := rfl
@[simp] theorem State.setGroup_power (s : State) (g : Nat) (x : Group) : (s.setGroup g x).power = s.power := rfl
@[simp] theorem State.setGroup_thermalTrip (s : State) (g : Nat) (x : Group) : (s.setGroup g x).thermalTrip = s.thermalTrip := rfl
@[simp] theorem State.setGroup_outward (s : State) (g : Nat) (x : Group) : (s.setGroup g x).outward = s.outward := rfl
@[simp] theorem State.setGroup_killing (s : State) (g : Nat) (x : Group) : (s.setGroup g x).killing = s.killing := rfl
@[simp] theorem State.setGroup_reported (s : State) (g : Nat) (x : Group) : (s.setGroup g x).reported = s.reported := rfl
@[simp] theorem State.setGroup_lastBalance (s : State) (g : Nat) (x : Group) : (s.setGroup g x).lastBalance = s.lastBalance := rfl

/-! ### modGroup -/

@[simp] theorem State.modGroup_agenda (s : State) (g : Nat) (f : Group → Group) : (s.modGroup g f).agenda = s.agenda := rfl
@[simp] theorem State.modGroup_input (s : State) (g : Nat) (f : Group → Group) : (s.modGroup g f).input = s.input := rfl
@[simp] theorem State.modGroup_held (s : State) (g : Nat) (f : Group → Group) : (s.modGroup g f).held = s.held := rfl
@[simp] theorem State.modGroup_draw (s : State) (g : Nat) (f : Group → Group) : (s.modGroup g f).draw = s.draw := rfl
@[simp] theorem State.modGroup_peers (s : State) (g : Nat) (f : Group → Group) : (s.modGroup g f).peers = s.peers := rfl
@[simp] theorem State.modGroup_releasedQ (s : State) (g : Nat) (f : Group → Group) : (s.modGroup g f).releasedQ = s.releasedQ := rfl
@[simp] theorem State.modGroup_nextYield (s : State) (g : Nat) (f : Group → Group) : (s.modGroup g f).nextYield = s.nextYield := rfl
@[simp] theorem State.modGroup_nodeCaches (s : State) (g : Nat) (f : Group → Group) : (s.modGroup g f).nodeCaches = s.nodeCaches := rfl
@[simp] theorem State.modGroup_codeLines (s : State) (g : Nat) (f : Group → Group) : (s.modGroup g f).codeLines = s.codeLines := rfl
@[simp] theorem State.modGroup_ringsAcq (s : State) (g : Nat) (f : Group → Group) : (s.modGroup g f).ringsAcq = s.ringsAcq := rfl
@[simp] theorem State.modGroup_cur (s : State) (g : Nat) (f : Group → Group) : (s.modGroup g f).cur = s.cur := rfl
@[simp] theorem State.modGroup_fresh (s : State) (g : Nat) (f : Group → Group) : (s.modGroup g f).fresh = s.fresh := rfl
@[simp] theorem State.modGroup_cycle (s : State) (g : Nat) (f : Group → Group) : (s.modGroup g f).cycle = s.cycle := rfl
@[simp] theorem State.modGroup_time (s : State) (g : Nat) (f : Group → Group) : (s.modGroup g f).time = s.time := rfl
@[simp] theorem State.modGroup_ext (s : State) (g : Nat) (f : Group → Group) : (s.modGroup g f).ext = s.ext := rfl
@[simp] theorem State.modGroup_shm (s : State) (g : Nat) (f : Group → Group) : (s.modGroup g f).shm = s.shm := rfl
@[simp] theorem State.modGroup_shmTags (s : State) (g : Nat) (f : Group → Group) : (s.modGroup g f).shmTags = s.shmTags := rfl
@[simp] theorem State.modGroup_host (s : State) (g : Nat) (f : Group → Group) : (s.modGroup g f).host = s.host := rfl
@[simp] theorem State.modGroup_peer (s : State) (g : Nat) (f : Group → Group) : (s.modGroup g f).peer = s.peer := rfl
@[simp] theorem State.modGroup_shmSteps (s : State) (g : Nat) (f : Group → Group) : (s.modGroup g f).shmSteps = s.shmSteps := rfl
@[simp] theorem State.modGroup_poison (s : State) (g : Nat) (f : Group → Group) : (s.modGroup g f).poison = s.poison := rfl
@[simp] theorem State.modGroup_roots (s : State) (g : Nat) (f : Group → Group) : (s.modGroup g f).roots = s.roots := rfl
@[simp] theorem State.modGroup_tlb (s : State) (g : Nat) (f : Group → Group) : (s.modGroup g f).tlb = s.tlb := rfl
@[simp] theorem State.modGroup_caps (s : State) (g : Nat) (f : Group → Group) : (s.modGroup g f).caps = s.caps := rfl
@[simp] theorem State.modGroup_coresOut (s : State) (g : Nat) (f : Group → Group) : (s.modGroup g f).coresOut = s.coresOut := rfl
@[simp] theorem State.modGroup_sparesUsed (s : State) (g : Nat) (f : Group → Group) : (s.modGroup g f).sparesUsed = s.sparesUsed := rfl
@[simp] theorem State.modGroup_coresMoved (s : State) (g : Nat) (f : Group → Group) : (s.modGroup g f).coresMoved = s.coresMoved := rfl
@[simp] theorem State.modGroup_channelsOut (s : State) (g : Nat) (f : Group → Group) : (s.modGroup g f).channelsOut = s.channelsOut := rfl
@[simp] theorem State.modGroup_channelsMarked (s : State) (g : Nat) (f : Group → Group) : (s.modGroup g f).channelsMarked = s.channelsMarked := rfl
@[simp] theorem State.modGroup_lanesOut (s : State) (g : Nat) (f : Group → Group) : (s.modGroup g f).lanesOut = s.lanesOut := rfl
@[simp] theorem State.modGroup_rowErrors (s : State) (g : Nat) (f : Group → Group) : (s.modGroup g f).rowErrors = s.rowErrors := rfl
@[simp] theorem State.modGroup_rowsSpare (s : State) (g : Nat) (f : Group → Group) : (s.modGroup g f).rowsSpare = s.rowsSpare := rfl
@[simp] theorem State.modGroup_channelErrors (s : State) (g : Nat) (f : Group → Group) : (s.modGroup g f).channelErrors = s.channelErrors := rfl
@[simp] theorem State.modGroup_cores (s : State) (g : Nat) (f : Group → Group) : (s.modGroup g f).cores = s.cores := rfl
@[simp] theorem State.modGroup_groups (s : State) (g : Nat) (f : Group → Group) : (s.modGroup g f).groups = kmod g f s.groups := rfl
@[simp] theorem State.modGroup_waves (s : State) (g : Nat) (f : Group → Group) : (s.modGroup g f).waves = s.waves := rfl
@[simp] theorem State.modGroup_tasks (s : State) (g : Nat) (f : Group → Group) : (s.modGroup g f).tasks = s.tasks := rfl
@[simp] theorem State.modGroup_joins (s : State) (g : Nat) (f : Group → Group) : (s.modGroup g f).joins = s.joins := rfl
@[simp] theorem State.modGroup_threads (s : State) (g : Nat) (f : Group → Group) : (s.modGroup g f).threads = s.threads := rfl
@[simp] theorem State.modGroup_xfers (s : State) (g : Nat) (f : Group → Group) : (s.modGroup g f).xfers = s.xfers := rfl
@[simp] theorem State.modGroup_owns (s : State) (g : Nat) (f : Group → Group) : (s.modGroup g f).owns = s.owns := rfl
@[simp] theorem State.modGroup_kds (s : State) (g : Nat) (f : Group → Group) : (s.modGroup g f).kds = s.kds := rfl
@[simp] theorem State.modGroup_nextSeq (s : State) (g : Nat) (f : Group → Group) : (s.modGroup g f).nextSeq = s.nextSeq := rfl
@[simp] theorem State.modGroup_nextGid (s : State) (g : Nat) (f : Group → Group) : (s.modGroup g f).nextGid = s.nextGid := rfl
@[simp] theorem State.modGroup_nextJoin (s : State) (g : Nat) (f : Group → Group) : (s.modGroup g f).nextJoin = s.nextJoin := rfl
@[simp] theorem State.modGroup_nextXfer (s : State) (g : Nat) (f : Group → Group) : (s.modGroup g f).nextXfer = s.nextXfer := rfl
@[simp] theorem State.modGroup_tickets (s : State) (g : Nat) (f : Group → Group) : (s.modGroup g f).tickets = s.tickets := rfl
@[simp] theorem State.modGroup_nextBatch (s : State) (g : Nat) (f : Group → Group) : (s.modGroup g f).nextBatch = s.nextBatch := rfl
@[simp] theorem State.modGroup_rings (s : State) (g : Nat) (f : Group → Group) : (s.modGroup g f).rings = s.rings := rfl
@[simp] theorem State.modGroup_cp (s : State) (g : Nat) (f : Group → Group) : (s.modGroup g f).cp = s.cp := rfl
@[simp] theorem State.modGroup_streams (s : State) (g : Nat) (f : Group → Group) : (s.modGroup g f).streams = s.streams := rfl
@[simp] theorem State.modGroup_funcs (s : State) (g : Nat) (f : Group → Group) : (s.modGroup g f).funcs = s.funcs := rfl
@[simp] theorem State.modGroup_vecUnmasked (s : State) (g : Nat) (f : Group → Group) : (s.modGroup g f).vecUnmasked = s.vecUnmasked := rfl
@[simp] theorem State.modGroup_vecPending (s : State) (g : Nat) (f : Group → Group) : (s.modGroup g f).vecPending = s.vecPending := rfl
@[simp] theorem State.modGroup_devCfg (s : State) (g : Nat) (f : Group → Group) : (s.modGroup g f).devCfg = s.devCfg := rfl
@[simp] theorem State.modGroup_budgets (s : State) (g : Nat) (f : Group → Group) : (s.modGroup g f).budgets = s.budgets := rfl
@[simp] theorem State.modGroup_uses (s : State) (g : Nat) (f : Group → Group) : (s.modGroup g f).uses = s.uses := rfl
@[simp] theorem State.modGroup_table (s : State) (g : Nat) (f : Group → Group) : (s.modGroup g f).table = s.table := rfl
@[simp] theorem State.modGroup_nextTable (s : State) (g : Nat) (f : Group → Group) : (s.modGroup g f).nextTable = s.nextTable := rfl
@[simp] theorem State.modGroup_chains (s : State) (g : Nat) (f : Group → Group) : (s.modGroup g f).chains = s.chains := rfl
@[simp] theorem State.modGroup_outputs (s : State) (g : Nat) (f : Group → Group) : (s.modGroup g f).outputs = s.outputs := rfl
@[simp] theorem State.modGroup_rasters (s : State) (g : Nat) (f : Group → Group) : (s.modGroup g f).rasters = s.rasters := rfl
@[simp] theorem State.modGroup_domain (s : State) (g : Nat) (f : Group → Group) : (s.modGroup g f).domain = s.domain := rfl
@[simp] theorem State.modGroup_boot (s : State) (g : Nat) (f : Group → Group) : (s.modGroup g f).boot = s.boot := rfl
@[simp] theorem State.modGroup_flash (s : State) (g : Nat) (f : Group → Group) : (s.modGroup g f).flash = s.flash := rfl
@[simp] theorem State.modGroup_power (s : State) (g : Nat) (f : Group → Group) : (s.modGroup g f).power = s.power := rfl
@[simp] theorem State.modGroup_thermalTrip (s : State) (g : Nat) (f : Group → Group) : (s.modGroup g f).thermalTrip = s.thermalTrip := rfl
@[simp] theorem State.modGroup_outward (s : State) (g : Nat) (f : Group → Group) : (s.modGroup g f).outward = s.outward := rfl
@[simp] theorem State.modGroup_killing (s : State) (g : Nat) (f : Group → Group) : (s.modGroup g f).killing = s.killing := rfl
@[simp] theorem State.modGroup_reported (s : State) (g : Nat) (f : Group → Group) : (s.modGroup g f).reported = s.reported := rfl
@[simp] theorem State.modGroup_lastBalance (s : State) (g : Nat) (f : Group → Group) : (s.modGroup g f).lastBalance = s.lastBalance := rfl

/-! ### modTask -/

@[simp] theorem State.modTask_agenda (s : State) (q : Nat) (f : Task → Task) : (s.modTask q f).agenda = s.agenda := rfl
@[simp] theorem State.modTask_input (s : State) (q : Nat) (f : Task → Task) : (s.modTask q f).input = s.input := rfl
@[simp] theorem State.modTask_held (s : State) (q : Nat) (f : Task → Task) : (s.modTask q f).held = s.held := rfl
@[simp] theorem State.modTask_draw (s : State) (q : Nat) (f : Task → Task) : (s.modTask q f).draw = s.draw := rfl
@[simp] theorem State.modTask_peers (s : State) (q : Nat) (f : Task → Task) : (s.modTask q f).peers = s.peers := rfl
@[simp] theorem State.modTask_releasedQ (s : State) (q : Nat) (f : Task → Task) : (s.modTask q f).releasedQ = s.releasedQ := rfl
@[simp] theorem State.modTask_nextYield (s : State) (q : Nat) (f : Task → Task) : (s.modTask q f).nextYield = s.nextYield := rfl
@[simp] theorem State.modTask_nodeCaches (s : State) (q : Nat) (f : Task → Task) : (s.modTask q f).nodeCaches = s.nodeCaches := rfl
@[simp] theorem State.modTask_codeLines (s : State) (q : Nat) (f : Task → Task) : (s.modTask q f).codeLines = s.codeLines := rfl
@[simp] theorem State.modTask_ringsAcq (s : State) (q : Nat) (f : Task → Task) : (s.modTask q f).ringsAcq = s.ringsAcq := rfl
@[simp] theorem State.modTask_cur (s : State) (q : Nat) (f : Task → Task) : (s.modTask q f).cur = s.cur := rfl
@[simp] theorem State.modTask_fresh (s : State) (q : Nat) (f : Task → Task) : (s.modTask q f).fresh = s.fresh := rfl
@[simp] theorem State.modTask_cycle (s : State) (q : Nat) (f : Task → Task) : (s.modTask q f).cycle = s.cycle := rfl
@[simp] theorem State.modTask_time (s : State) (q : Nat) (f : Task → Task) : (s.modTask q f).time = s.time := rfl
@[simp] theorem State.modTask_ext (s : State) (q : Nat) (f : Task → Task) : (s.modTask q f).ext = s.ext := rfl
@[simp] theorem State.modTask_shm (s : State) (q : Nat) (f : Task → Task) : (s.modTask q f).shm = s.shm := rfl
@[simp] theorem State.modTask_shmTags (s : State) (q : Nat) (f : Task → Task) : (s.modTask q f).shmTags = s.shmTags := rfl
@[simp] theorem State.modTask_host (s : State) (q : Nat) (f : Task → Task) : (s.modTask q f).host = s.host := rfl
@[simp] theorem State.modTask_peer (s : State) (q : Nat) (f : Task → Task) : (s.modTask q f).peer = s.peer := rfl
@[simp] theorem State.modTask_shmSteps (s : State) (q : Nat) (f : Task → Task) : (s.modTask q f).shmSteps = s.shmSteps := rfl
@[simp] theorem State.modTask_poison (s : State) (q : Nat) (f : Task → Task) : (s.modTask q f).poison = s.poison := rfl
@[simp] theorem State.modTask_roots (s : State) (q : Nat) (f : Task → Task) : (s.modTask q f).roots = s.roots := rfl
@[simp] theorem State.modTask_tlb (s : State) (q : Nat) (f : Task → Task) : (s.modTask q f).tlb = s.tlb := rfl
@[simp] theorem State.modTask_caps (s : State) (q : Nat) (f : Task → Task) : (s.modTask q f).caps = s.caps := rfl
@[simp] theorem State.modTask_coresOut (s : State) (q : Nat) (f : Task → Task) : (s.modTask q f).coresOut = s.coresOut := rfl
@[simp] theorem State.modTask_sparesUsed (s : State) (q : Nat) (f : Task → Task) : (s.modTask q f).sparesUsed = s.sparesUsed := rfl
@[simp] theorem State.modTask_coresMoved (s : State) (q : Nat) (f : Task → Task) : (s.modTask q f).coresMoved = s.coresMoved := rfl
@[simp] theorem State.modTask_channelsOut (s : State) (q : Nat) (f : Task → Task) : (s.modTask q f).channelsOut = s.channelsOut := rfl
@[simp] theorem State.modTask_channelsMarked (s : State) (q : Nat) (f : Task → Task) : (s.modTask q f).channelsMarked = s.channelsMarked := rfl
@[simp] theorem State.modTask_lanesOut (s : State) (q : Nat) (f : Task → Task) : (s.modTask q f).lanesOut = s.lanesOut := rfl
@[simp] theorem State.modTask_rowErrors (s : State) (q : Nat) (f : Task → Task) : (s.modTask q f).rowErrors = s.rowErrors := rfl
@[simp] theorem State.modTask_rowsSpare (s : State) (q : Nat) (f : Task → Task) : (s.modTask q f).rowsSpare = s.rowsSpare := rfl
@[simp] theorem State.modTask_channelErrors (s : State) (q : Nat) (f : Task → Task) : (s.modTask q f).channelErrors = s.channelErrors := rfl
@[simp] theorem State.modTask_cores (s : State) (q : Nat) (f : Task → Task) : (s.modTask q f).cores = s.cores := rfl
@[simp] theorem State.modTask_groups (s : State) (q : Nat) (f : Task → Task) : (s.modTask q f).groups = s.groups := rfl
@[simp] theorem State.modTask_waves (s : State) (q : Nat) (f : Task → Task) : (s.modTask q f).waves = s.waves := rfl
@[simp] theorem State.modTask_tasks (s : State) (q : Nat) (f : Task → Task) : (s.modTask q f).tasks = kmod q f s.tasks := rfl
@[simp] theorem State.modTask_joins (s : State) (q : Nat) (f : Task → Task) : (s.modTask q f).joins = s.joins := rfl
@[simp] theorem State.modTask_threads (s : State) (q : Nat) (f : Task → Task) : (s.modTask q f).threads = s.threads := rfl
@[simp] theorem State.modTask_xfers (s : State) (q : Nat) (f : Task → Task) : (s.modTask q f).xfers = s.xfers := rfl
@[simp] theorem State.modTask_owns (s : State) (q : Nat) (f : Task → Task) : (s.modTask q f).owns = s.owns := rfl
@[simp] theorem State.modTask_kds (s : State) (q : Nat) (f : Task → Task) : (s.modTask q f).kds = s.kds := rfl
@[simp] theorem State.modTask_nextSeq (s : State) (q : Nat) (f : Task → Task) : (s.modTask q f).nextSeq = s.nextSeq := rfl
@[simp] theorem State.modTask_nextGid (s : State) (q : Nat) (f : Task → Task) : (s.modTask q f).nextGid = s.nextGid := rfl
@[simp] theorem State.modTask_nextJoin (s : State) (q : Nat) (f : Task → Task) : (s.modTask q f).nextJoin = s.nextJoin := rfl
@[simp] theorem State.modTask_nextXfer (s : State) (q : Nat) (f : Task → Task) : (s.modTask q f).nextXfer = s.nextXfer := rfl
@[simp] theorem State.modTask_tickets (s : State) (q : Nat) (f : Task → Task) : (s.modTask q f).tickets = s.tickets := rfl
@[simp] theorem State.modTask_nextBatch (s : State) (q : Nat) (f : Task → Task) : (s.modTask q f).nextBatch = s.nextBatch := rfl
@[simp] theorem State.modTask_rings (s : State) (q : Nat) (f : Task → Task) : (s.modTask q f).rings = s.rings := rfl
@[simp] theorem State.modTask_cp (s : State) (q : Nat) (f : Task → Task) : (s.modTask q f).cp = s.cp := rfl
@[simp] theorem State.modTask_streams (s : State) (q : Nat) (f : Task → Task) : (s.modTask q f).streams = s.streams := rfl
@[simp] theorem State.modTask_funcs (s : State) (q : Nat) (f : Task → Task) : (s.modTask q f).funcs = s.funcs := rfl
@[simp] theorem State.modTask_vecUnmasked (s : State) (q : Nat) (f : Task → Task) : (s.modTask q f).vecUnmasked = s.vecUnmasked := rfl
@[simp] theorem State.modTask_vecPending (s : State) (q : Nat) (f : Task → Task) : (s.modTask q f).vecPending = s.vecPending := rfl
@[simp] theorem State.modTask_devCfg (s : State) (q : Nat) (f : Task → Task) : (s.modTask q f).devCfg = s.devCfg := rfl
@[simp] theorem State.modTask_budgets (s : State) (q : Nat) (f : Task → Task) : (s.modTask q f).budgets = s.budgets := rfl
@[simp] theorem State.modTask_uses (s : State) (q : Nat) (f : Task → Task) : (s.modTask q f).uses = s.uses := rfl
@[simp] theorem State.modTask_table (s : State) (q : Nat) (f : Task → Task) : (s.modTask q f).table = s.table := rfl
@[simp] theorem State.modTask_nextTable (s : State) (q : Nat) (f : Task → Task) : (s.modTask q f).nextTable = s.nextTable := rfl
@[simp] theorem State.modTask_chains (s : State) (q : Nat) (f : Task → Task) : (s.modTask q f).chains = s.chains := rfl
@[simp] theorem State.modTask_outputs (s : State) (q : Nat) (f : Task → Task) : (s.modTask q f).outputs = s.outputs := rfl
@[simp] theorem State.modTask_rasters (s : State) (q : Nat) (f : Task → Task) : (s.modTask q f).rasters = s.rasters := rfl
@[simp] theorem State.modTask_domain (s : State) (q : Nat) (f : Task → Task) : (s.modTask q f).domain = s.domain := rfl
@[simp] theorem State.modTask_boot (s : State) (q : Nat) (f : Task → Task) : (s.modTask q f).boot = s.boot := rfl
@[simp] theorem State.modTask_flash (s : State) (q : Nat) (f : Task → Task) : (s.modTask q f).flash = s.flash := rfl
@[simp] theorem State.modTask_power (s : State) (q : Nat) (f : Task → Task) : (s.modTask q f).power = s.power := rfl
@[simp] theorem State.modTask_thermalTrip (s : State) (q : Nat) (f : Task → Task) : (s.modTask q f).thermalTrip = s.thermalTrip := rfl
@[simp] theorem State.modTask_outward (s : State) (q : Nat) (f : Task → Task) : (s.modTask q f).outward = s.outward := rfl
@[simp] theorem State.modTask_killing (s : State) (q : Nat) (f : Task → Task) : (s.modTask q f).killing = s.killing := rfl
@[simp] theorem State.modTask_reported (s : State) (q : Nat) (f : Task → Task) : (s.modTask q f).reported = s.reported := rfl
@[simp] theorem State.modTask_lastBalance (s : State) (q : Nat) (f : Task → Task) : (s.modTask q f).lastBalance = s.lastBalance := rfl

/-! ### modCore -/

@[simp] theorem State.modCore_agenda (s : State) (c : Nat) (f : Core → Core) : (s.modCore c f).agenda = s.agenda := rfl
@[simp] theorem State.modCore_input (s : State) (c : Nat) (f : Core → Core) : (s.modCore c f).input = s.input := rfl
@[simp] theorem State.modCore_held (s : State) (c : Nat) (f : Core → Core) : (s.modCore c f).held = s.held := rfl
@[simp] theorem State.modCore_draw (s : State) (c : Nat) (f : Core → Core) : (s.modCore c f).draw = s.draw := rfl
@[simp] theorem State.modCore_peers (s : State) (c : Nat) (f : Core → Core) : (s.modCore c f).peers = s.peers := rfl
@[simp] theorem State.modCore_releasedQ (s : State) (c : Nat) (f : Core → Core) : (s.modCore c f).releasedQ = s.releasedQ := rfl
@[simp] theorem State.modCore_nextYield (s : State) (c : Nat) (f : Core → Core) : (s.modCore c f).nextYield = s.nextYield := rfl
@[simp] theorem State.modCore_nodeCaches (s : State) (c : Nat) (f : Core → Core) : (s.modCore c f).nodeCaches = s.nodeCaches := rfl
@[simp] theorem State.modCore_codeLines (s : State) (c : Nat) (f : Core → Core) : (s.modCore c f).codeLines = s.codeLines := rfl
@[simp] theorem State.modCore_ringsAcq (s : State) (c : Nat) (f : Core → Core) : (s.modCore c f).ringsAcq = s.ringsAcq := rfl
@[simp] theorem State.modCore_cur (s : State) (c : Nat) (f : Core → Core) : (s.modCore c f).cur = s.cur := rfl
@[simp] theorem State.modCore_fresh (s : State) (c : Nat) (f : Core → Core) : (s.modCore c f).fresh = s.fresh := rfl
@[simp] theorem State.modCore_cycle (s : State) (c : Nat) (f : Core → Core) : (s.modCore c f).cycle = s.cycle := rfl
@[simp] theorem State.modCore_time (s : State) (c : Nat) (f : Core → Core) : (s.modCore c f).time = s.time := rfl
@[simp] theorem State.modCore_ext (s : State) (c : Nat) (f : Core → Core) : (s.modCore c f).ext = s.ext := rfl
@[simp] theorem State.modCore_shm (s : State) (c : Nat) (f : Core → Core) : (s.modCore c f).shm = s.shm := rfl
@[simp] theorem State.modCore_shmTags (s : State) (c : Nat) (f : Core → Core) : (s.modCore c f).shmTags = s.shmTags := rfl
@[simp] theorem State.modCore_host (s : State) (c : Nat) (f : Core → Core) : (s.modCore c f).host = s.host := rfl
@[simp] theorem State.modCore_peer (s : State) (c : Nat) (f : Core → Core) : (s.modCore c f).peer = s.peer := rfl
@[simp] theorem State.modCore_shmSteps (s : State) (c : Nat) (f : Core → Core) : (s.modCore c f).shmSteps = s.shmSteps := rfl
@[simp] theorem State.modCore_poison (s : State) (c : Nat) (f : Core → Core) : (s.modCore c f).poison = s.poison := rfl
@[simp] theorem State.modCore_roots (s : State) (c : Nat) (f : Core → Core) : (s.modCore c f).roots = s.roots := rfl
@[simp] theorem State.modCore_tlb (s : State) (c : Nat) (f : Core → Core) : (s.modCore c f).tlb = s.tlb := rfl
@[simp] theorem State.modCore_caps (s : State) (c : Nat) (f : Core → Core) : (s.modCore c f).caps = s.caps := rfl
@[simp] theorem State.modCore_coresOut (s : State) (c : Nat) (f : Core → Core) : (s.modCore c f).coresOut = s.coresOut := rfl
@[simp] theorem State.modCore_sparesUsed (s : State) (c : Nat) (f : Core → Core) : (s.modCore c f).sparesUsed = s.sparesUsed := rfl
@[simp] theorem State.modCore_coresMoved (s : State) (c : Nat) (f : Core → Core) : (s.modCore c f).coresMoved = s.coresMoved := rfl
@[simp] theorem State.modCore_channelsOut (s : State) (c : Nat) (f : Core → Core) : (s.modCore c f).channelsOut = s.channelsOut := rfl
@[simp] theorem State.modCore_channelsMarked (s : State) (c : Nat) (f : Core → Core) : (s.modCore c f).channelsMarked = s.channelsMarked := rfl
@[simp] theorem State.modCore_lanesOut (s : State) (c : Nat) (f : Core → Core) : (s.modCore c f).lanesOut = s.lanesOut := rfl
@[simp] theorem State.modCore_rowErrors (s : State) (c : Nat) (f : Core → Core) : (s.modCore c f).rowErrors = s.rowErrors := rfl
@[simp] theorem State.modCore_rowsSpare (s : State) (c : Nat) (f : Core → Core) : (s.modCore c f).rowsSpare = s.rowsSpare := rfl
@[simp] theorem State.modCore_channelErrors (s : State) (c : Nat) (f : Core → Core) : (s.modCore c f).channelErrors = s.channelErrors := rfl
@[simp] theorem State.modCore_cores (s : State) (c : Nat) (f : Core → Core) : (s.modCore c f).cores = kset c (f (s.core c)) s.cores := rfl
@[simp] theorem State.modCore_groups (s : State) (c : Nat) (f : Core → Core) : (s.modCore c f).groups = s.groups := rfl
@[simp] theorem State.modCore_waves (s : State) (c : Nat) (f : Core → Core) : (s.modCore c f).waves = s.waves := rfl
@[simp] theorem State.modCore_tasks (s : State) (c : Nat) (f : Core → Core) : (s.modCore c f).tasks = s.tasks := rfl
@[simp] theorem State.modCore_joins (s : State) (c : Nat) (f : Core → Core) : (s.modCore c f).joins = s.joins := rfl
@[simp] theorem State.modCore_threads (s : State) (c : Nat) (f : Core → Core) : (s.modCore c f).threads = s.threads := rfl
@[simp] theorem State.modCore_xfers (s : State) (c : Nat) (f : Core → Core) : (s.modCore c f).xfers = s.xfers := rfl
@[simp] theorem State.modCore_owns (s : State) (c : Nat) (f : Core → Core) : (s.modCore c f).owns = s.owns := rfl
@[simp] theorem State.modCore_kds (s : State) (c : Nat) (f : Core → Core) : (s.modCore c f).kds = s.kds := rfl
@[simp] theorem State.modCore_nextSeq (s : State) (c : Nat) (f : Core → Core) : (s.modCore c f).nextSeq = s.nextSeq := rfl
@[simp] theorem State.modCore_nextGid (s : State) (c : Nat) (f : Core → Core) : (s.modCore c f).nextGid = s.nextGid := rfl
@[simp] theorem State.modCore_nextJoin (s : State) (c : Nat) (f : Core → Core) : (s.modCore c f).nextJoin = s.nextJoin := rfl
@[simp] theorem State.modCore_nextXfer (s : State) (c : Nat) (f : Core → Core) : (s.modCore c f).nextXfer = s.nextXfer := rfl
@[simp] theorem State.modCore_tickets (s : State) (c : Nat) (f : Core → Core) : (s.modCore c f).tickets = s.tickets := rfl
@[simp] theorem State.modCore_nextBatch (s : State) (c : Nat) (f : Core → Core) : (s.modCore c f).nextBatch = s.nextBatch := rfl
@[simp] theorem State.modCore_rings (s : State) (c : Nat) (f : Core → Core) : (s.modCore c f).rings = s.rings := rfl
@[simp] theorem State.modCore_cp (s : State) (c : Nat) (f : Core → Core) : (s.modCore c f).cp = s.cp := rfl
@[simp] theorem State.modCore_streams (s : State) (c : Nat) (f : Core → Core) : (s.modCore c f).streams = s.streams := rfl
@[simp] theorem State.modCore_funcs (s : State) (c : Nat) (f : Core → Core) : (s.modCore c f).funcs = s.funcs := rfl
@[simp] theorem State.modCore_vecUnmasked (s : State) (c : Nat) (f : Core → Core) : (s.modCore c f).vecUnmasked = s.vecUnmasked := rfl
@[simp] theorem State.modCore_vecPending (s : State) (c : Nat) (f : Core → Core) : (s.modCore c f).vecPending = s.vecPending := rfl
@[simp] theorem State.modCore_devCfg (s : State) (c : Nat) (f : Core → Core) : (s.modCore c f).devCfg = s.devCfg := rfl
@[simp] theorem State.modCore_budgets (s : State) (c : Nat) (f : Core → Core) : (s.modCore c f).budgets = s.budgets := rfl
@[simp] theorem State.modCore_uses (s : State) (c : Nat) (f : Core → Core) : (s.modCore c f).uses = s.uses := rfl
@[simp] theorem State.modCore_table (s : State) (c : Nat) (f : Core → Core) : (s.modCore c f).table = s.table := rfl
@[simp] theorem State.modCore_nextTable (s : State) (c : Nat) (f : Core → Core) : (s.modCore c f).nextTable = s.nextTable := rfl
@[simp] theorem State.modCore_chains (s : State) (c : Nat) (f : Core → Core) : (s.modCore c f).chains = s.chains := rfl
@[simp] theorem State.modCore_outputs (s : State) (c : Nat) (f : Core → Core) : (s.modCore c f).outputs = s.outputs := rfl
@[simp] theorem State.modCore_rasters (s : State) (c : Nat) (f : Core → Core) : (s.modCore c f).rasters = s.rasters := rfl
@[simp] theorem State.modCore_domain (s : State) (c : Nat) (f : Core → Core) : (s.modCore c f).domain = s.domain := rfl
@[simp] theorem State.modCore_boot (s : State) (c : Nat) (f : Core → Core) : (s.modCore c f).boot = s.boot := rfl
@[simp] theorem State.modCore_flash (s : State) (c : Nat) (f : Core → Core) : (s.modCore c f).flash = s.flash := rfl
@[simp] theorem State.modCore_power (s : State) (c : Nat) (f : Core → Core) : (s.modCore c f).power = s.power := rfl
@[simp] theorem State.modCore_thermalTrip (s : State) (c : Nat) (f : Core → Core) : (s.modCore c f).thermalTrip = s.thermalTrip := rfl
@[simp] theorem State.modCore_outward (s : State) (c : Nat) (f : Core → Core) : (s.modCore c f).outward = s.outward := rfl
@[simp] theorem State.modCore_killing (s : State) (c : Nat) (f : Core → Core) : (s.modCore c f).killing = s.killing := rfl
@[simp] theorem State.modCore_reported (s : State) (c : Nat) (f : Core → Core) : (s.modCore c f).reported = s.reported := rfl
@[simp] theorem State.modCore_lastBalance (s : State) (c : Nat) (f : Core → Core) : (s.modCore c f).lastBalance = s.lastBalance := rfl

/-! ### modRing -/

@[simp] theorem State.modRing_agenda (s : State) (g : Nat) (f : Ring → Ring) : (s.modRing g f).agenda = s.agenda := rfl
@[simp] theorem State.modRing_input (s : State) (g : Nat) (f : Ring → Ring) : (s.modRing g f).input = s.input := rfl
@[simp] theorem State.modRing_held (s : State) (g : Nat) (f : Ring → Ring) : (s.modRing g f).held = s.held := rfl
@[simp] theorem State.modRing_draw (s : State) (g : Nat) (f : Ring → Ring) : (s.modRing g f).draw = s.draw := rfl
@[simp] theorem State.modRing_peers (s : State) (g : Nat) (f : Ring → Ring) : (s.modRing g f).peers = s.peers := rfl
@[simp] theorem State.modRing_releasedQ (s : State) (g : Nat) (f : Ring → Ring) : (s.modRing g f).releasedQ = s.releasedQ := rfl
@[simp] theorem State.modRing_nextYield (s : State) (g : Nat) (f : Ring → Ring) : (s.modRing g f).nextYield = s.nextYield := rfl
@[simp] theorem State.modRing_nodeCaches (s : State) (g : Nat) (f : Ring → Ring) : (s.modRing g f).nodeCaches = s.nodeCaches := rfl
@[simp] theorem State.modRing_codeLines (s : State) (g : Nat) (f : Ring → Ring) : (s.modRing g f).codeLines = s.codeLines := rfl
@[simp] theorem State.modRing_ringsAcq (s : State) (g : Nat) (f : Ring → Ring) : (s.modRing g f).ringsAcq = s.ringsAcq := rfl
@[simp] theorem State.modRing_cur (s : State) (g : Nat) (f : Ring → Ring) : (s.modRing g f).cur = s.cur := rfl
@[simp] theorem State.modRing_fresh (s : State) (g : Nat) (f : Ring → Ring) : (s.modRing g f).fresh = s.fresh := rfl
@[simp] theorem State.modRing_cycle (s : State) (g : Nat) (f : Ring → Ring) : (s.modRing g f).cycle = s.cycle := rfl
@[simp] theorem State.modRing_time (s : State) (g : Nat) (f : Ring → Ring) : (s.modRing g f).time = s.time := rfl
@[simp] theorem State.modRing_ext (s : State) (g : Nat) (f : Ring → Ring) : (s.modRing g f).ext = s.ext := rfl
@[simp] theorem State.modRing_shm (s : State) (g : Nat) (f : Ring → Ring) : (s.modRing g f).shm = s.shm := rfl
@[simp] theorem State.modRing_shmTags (s : State) (g : Nat) (f : Ring → Ring) : (s.modRing g f).shmTags = s.shmTags := rfl
@[simp] theorem State.modRing_host (s : State) (g : Nat) (f : Ring → Ring) : (s.modRing g f).host = s.host := rfl
@[simp] theorem State.modRing_peer (s : State) (g : Nat) (f : Ring → Ring) : (s.modRing g f).peer = s.peer := rfl
@[simp] theorem State.modRing_shmSteps (s : State) (g : Nat) (f : Ring → Ring) : (s.modRing g f).shmSteps = s.shmSteps := rfl
@[simp] theorem State.modRing_poison (s : State) (g : Nat) (f : Ring → Ring) : (s.modRing g f).poison = s.poison := rfl
@[simp] theorem State.modRing_roots (s : State) (g : Nat) (f : Ring → Ring) : (s.modRing g f).roots = s.roots := rfl
@[simp] theorem State.modRing_tlb (s : State) (g : Nat) (f : Ring → Ring) : (s.modRing g f).tlb = s.tlb := rfl
@[simp] theorem State.modRing_caps (s : State) (g : Nat) (f : Ring → Ring) : (s.modRing g f).caps = s.caps := rfl
@[simp] theorem State.modRing_coresOut (s : State) (g : Nat) (f : Ring → Ring) : (s.modRing g f).coresOut = s.coresOut := rfl
@[simp] theorem State.modRing_sparesUsed (s : State) (g : Nat) (f : Ring → Ring) : (s.modRing g f).sparesUsed = s.sparesUsed := rfl
@[simp] theorem State.modRing_coresMoved (s : State) (g : Nat) (f : Ring → Ring) : (s.modRing g f).coresMoved = s.coresMoved := rfl
@[simp] theorem State.modRing_channelsOut (s : State) (g : Nat) (f : Ring → Ring) : (s.modRing g f).channelsOut = s.channelsOut := rfl
@[simp] theorem State.modRing_channelsMarked (s : State) (g : Nat) (f : Ring → Ring) : (s.modRing g f).channelsMarked = s.channelsMarked := rfl
@[simp] theorem State.modRing_lanesOut (s : State) (g : Nat) (f : Ring → Ring) : (s.modRing g f).lanesOut = s.lanesOut := rfl
@[simp] theorem State.modRing_rowErrors (s : State) (g : Nat) (f : Ring → Ring) : (s.modRing g f).rowErrors = s.rowErrors := rfl
@[simp] theorem State.modRing_rowsSpare (s : State) (g : Nat) (f : Ring → Ring) : (s.modRing g f).rowsSpare = s.rowsSpare := rfl
@[simp] theorem State.modRing_channelErrors (s : State) (g : Nat) (f : Ring → Ring) : (s.modRing g f).channelErrors = s.channelErrors := rfl
@[simp] theorem State.modRing_cores (s : State) (g : Nat) (f : Ring → Ring) : (s.modRing g f).cores = s.cores := rfl
@[simp] theorem State.modRing_groups (s : State) (g : Nat) (f : Ring → Ring) : (s.modRing g f).groups = s.groups := rfl
@[simp] theorem State.modRing_waves (s : State) (g : Nat) (f : Ring → Ring) : (s.modRing g f).waves = s.waves := rfl
@[simp] theorem State.modRing_tasks (s : State) (g : Nat) (f : Ring → Ring) : (s.modRing g f).tasks = s.tasks := rfl
@[simp] theorem State.modRing_joins (s : State) (g : Nat) (f : Ring → Ring) : (s.modRing g f).joins = s.joins := rfl
@[simp] theorem State.modRing_threads (s : State) (g : Nat) (f : Ring → Ring) : (s.modRing g f).threads = s.threads := rfl
@[simp] theorem State.modRing_xfers (s : State) (g : Nat) (f : Ring → Ring) : (s.modRing g f).xfers = s.xfers := rfl
@[simp] theorem State.modRing_owns (s : State) (g : Nat) (f : Ring → Ring) : (s.modRing g f).owns = s.owns := rfl
@[simp] theorem State.modRing_kds (s : State) (g : Nat) (f : Ring → Ring) : (s.modRing g f).kds = s.kds := rfl
@[simp] theorem State.modRing_nextSeq (s : State) (g : Nat) (f : Ring → Ring) : (s.modRing g f).nextSeq = s.nextSeq := rfl
@[simp] theorem State.modRing_nextGid (s : State) (g : Nat) (f : Ring → Ring) : (s.modRing g f).nextGid = s.nextGid := rfl
@[simp] theorem State.modRing_nextJoin (s : State) (g : Nat) (f : Ring → Ring) : (s.modRing g f).nextJoin = s.nextJoin := rfl
@[simp] theorem State.modRing_nextXfer (s : State) (g : Nat) (f : Ring → Ring) : (s.modRing g f).nextXfer = s.nextXfer := rfl
@[simp] theorem State.modRing_tickets (s : State) (g : Nat) (f : Ring → Ring) : (s.modRing g f).tickets = s.tickets := rfl
@[simp] theorem State.modRing_nextBatch (s : State) (g : Nat) (f : Ring → Ring) : (s.modRing g f).nextBatch = s.nextBatch := rfl
@[simp] theorem State.modRing_rings (s : State) (g : Nat) (f : Ring → Ring) : (s.modRing g f).rings = kset g (f (s.ring g)) s.rings := rfl
@[simp] theorem State.modRing_cp (s : State) (g : Nat) (f : Ring → Ring) : (s.modRing g f).cp = s.cp := rfl
@[simp] theorem State.modRing_streams (s : State) (g : Nat) (f : Ring → Ring) : (s.modRing g f).streams = s.streams := rfl
@[simp] theorem State.modRing_funcs (s : State) (g : Nat) (f : Ring → Ring) : (s.modRing g f).funcs = s.funcs := rfl
@[simp] theorem State.modRing_vecUnmasked (s : State) (g : Nat) (f : Ring → Ring) : (s.modRing g f).vecUnmasked = s.vecUnmasked := rfl
@[simp] theorem State.modRing_vecPending (s : State) (g : Nat) (f : Ring → Ring) : (s.modRing g f).vecPending = s.vecPending := rfl
@[simp] theorem State.modRing_devCfg (s : State) (g : Nat) (f : Ring → Ring) : (s.modRing g f).devCfg = s.devCfg := rfl
@[simp] theorem State.modRing_budgets (s : State) (g : Nat) (f : Ring → Ring) : (s.modRing g f).budgets = s.budgets := rfl
@[simp] theorem State.modRing_uses (s : State) (g : Nat) (f : Ring → Ring) : (s.modRing g f).uses = s.uses := rfl
@[simp] theorem State.modRing_table (s : State) (g : Nat) (f : Ring → Ring) : (s.modRing g f).table = s.table := rfl
@[simp] theorem State.modRing_nextTable (s : State) (g : Nat) (f : Ring → Ring) : (s.modRing g f).nextTable = s.nextTable := rfl
@[simp] theorem State.modRing_chains (s : State) (g : Nat) (f : Ring → Ring) : (s.modRing g f).chains = s.chains := rfl
@[simp] theorem State.modRing_outputs (s : State) (g : Nat) (f : Ring → Ring) : (s.modRing g f).outputs = s.outputs := rfl
@[simp] theorem State.modRing_rasters (s : State) (g : Nat) (f : Ring → Ring) : (s.modRing g f).rasters = s.rasters := rfl
@[simp] theorem State.modRing_domain (s : State) (g : Nat) (f : Ring → Ring) : (s.modRing g f).domain = s.domain := rfl
@[simp] theorem State.modRing_boot (s : State) (g : Nat) (f : Ring → Ring) : (s.modRing g f).boot = s.boot := rfl
@[simp] theorem State.modRing_flash (s : State) (g : Nat) (f : Ring → Ring) : (s.modRing g f).flash = s.flash := rfl
@[simp] theorem State.modRing_power (s : State) (g : Nat) (f : Ring → Ring) : (s.modRing g f).power = s.power := rfl
@[simp] theorem State.modRing_thermalTrip (s : State) (g : Nat) (f : Ring → Ring) : (s.modRing g f).thermalTrip = s.thermalTrip := rfl
@[simp] theorem State.modRing_outward (s : State) (g : Nat) (f : Ring → Ring) : (s.modRing g f).outward = s.outward := rfl
@[simp] theorem State.modRing_killing (s : State) (g : Nat) (f : Ring → Ring) : (s.modRing g f).killing = s.killing := rfl
@[simp] theorem State.modRing_reported (s : State) (g : Nat) (f : Ring → Ring) : (s.modRing g f).reported = s.reported := rfl
@[simp] theorem State.modRing_lastBalance (s : State) (g : Nat) (f : Ring → Ring) : (s.modRing g f).lastBalance = s.lastBalance := rfl

end Sys2Proof.Machine
end

