-- ==== Sys2Proof/Laws/Mem.lean ====
section
/-! SUPPORT. The laws of the parts of the state and of memory: reading after a write, what a write leaves alone, and the canonical form,
which every operation on memory keeps. -/

namespace Sys2Proof.Machine

open Sys2Proof.Laws

/-! ### Waves, groups, cores -/

@[simp] theorem wave?_setWave_same (s : State) (k : Nat) (w : Wave) : (s.setWave k w).wave? k = some w := by simp [State.wave?]
@[simp] theorem wave?_setWave_ne (s : State) {j k : Nat} (h : j ≠ k) (w : Wave) : (s.setWave k w).wave? j = s.wave? j := by
  simp [State.wave?, h]
@[simp] theorem group?_setWave (s : State) (k : Nat) (w : Wave) (g : Nat) : (s.setWave k w).group? g = s.group? g := rfl
@[simp] theorem task?_setWave (s : State) (k : Nat) (w : Wave) (q : Nat) : (s.setWave k w).task? q = s.task? q := rfl
@[simp] theorem core_setWave (s : State) (k : Nat) (w : Wave) (c : Nat) : (s.setWave k w).core c = s.core c := rfl

theorem wave?_modWave (s : State) (j k : Nat) (f : Wave → Wave) :
    (s.modWave k f).wave? j = if j = k then (s.wave? k).map f else s.wave? j := by
  simp only [State.wave?, State.modWave_waves, kmod]
  by_cases h : j = k
  · subst h; cases hw : kfind j s.waves <;> simp [hw]
  · cases hw : kfind k s.waves <;> simp [h]
@[simp] theorem wave?_modWave_same (s : State) (k : Nat) (f : Wave → Wave) : (s.modWave k f).wave? k = (s.wave? k).map f := by
  simp [wave?_modWave]
@[simp] theorem wave?_modWave_ne (s : State) {j k : Nat} (h : j ≠ k) (f : Wave → Wave) : (s.modWave k f).wave? j = s.wave? j := by
  simp [wave?_modWave, h]
@[simp] theorem group?_modWave (s : State) (k : Nat) (f : Wave → Wave) (g : Nat) : (s.modWave k f).group? g = s.group? g := rfl
@[simp] theorem core_modWave (s : State) (k : Nat) (f : Wave → Wave) (c : Nat) : (s.modWave k f).core c = s.core c := rfl

@[simp] theorem wave?_modCore (s : State) (c : Nat) (f : Core → Core) (k : Nat) : (s.modCore c f).wave? k = s.wave? k := rfl
@[simp] theorem group?_modCore (s : State) (c : Nat) (f : Core → Core) (g : Nat) : (s.modCore c f).group? g = s.group? g := rfl
@[simp] theorem core_modCore_same (s : State) (c : Nat) (f : Core → Core) : (s.modCore c f).core c = f (s.core c) := by simp [State.core]
@[simp] theorem core_modCore_ne (s : State) {c d : Nat} (h : d ≠ c) (f : Core → Core) : (s.modCore c f).core d = s.core d := by
  simp [State.core, h]

@[simp] theorem wave?_modGroup (s : State) (g : Nat) (f : Group → Group) (k : Nat) : (s.modGroup g f).wave? k = s.wave? k := rfl
@[simp] theorem wave?_setGroup (s : State) (g : Nat) (x : Group) (k : Nat) : (s.setGroup g x).wave? k = s.wave? k := rfl
@[simp] theorem group?_setGroup_same (s : State) (g : Nat) (x : Group) : (s.setGroup g x).group? g = some x := by simp [State.group?]
@[simp] theorem group?_setGroup_ne (s : State) {g h : Nat} (e : h ≠ g) (x : Group) : (s.setGroup g x).group? h = s.group? h := by
  simp [State.group?, e]
theorem group?_modGroup (s : State) (h g : Nat) (f : Group → Group) :
    (s.modGroup g f).group? h = if h = g then (s.group? g).map f else s.group? h := by
  simp only [State.group?, State.modGroup_groups, kmod]
  by_cases e : h = g
  · subst e; cases hw : kfind h s.groups <;> simp [hw]
  · cases hw : kfind g s.groups <;> simp [e]

/-! ### The canonical form -/

/-- The five parts of the canonical form. -/
theorem memWf_iff {s : State} : s.memWf = true ↔
    kcanon 0#8 s.ext = true ∧ kcanon 0#8 s.shm = true ∧ kcanon 0#8 s.host = true ∧ kcanon 0#8 s.peer = true ∧
      ∀ p ∈ s.groups, kcanon 0#8 p.2.ls = true := by
  simp [State.memWf, Memory.wf, and_assoc]

/-- A state with the same memories and groups is as canonical. -/
theorem memWf_congr {s t : State} (h : s.memWf = true) (h1 : t.ext = s.ext) (h2 : t.shm = s.shm) (h3 : t.host = s.host) (h4 : t.peer = s.peer)
    (h5 : t.groups = s.groups) : t.memWf = true := by
  rw [memWf_iff] at *; rw [h1, h2, h3, h4, h5]; exact h

theorem mem_of_group? {s : State} {g : Nat} {x : Group} (h : s.group? g = some x) : (g, x) ∈ s.groups := by
  have : ∀ m : List (Nat × Group), kfind g m = some x → (g, x) ∈ m := by
    intro m
    induction m with
    | nil => simp
    | cons p r ih =>
      obtain ⟨a, b⟩ := p
      simp only [kfind]
      split_ifs with h1
      · rintro ⟨⟩; subst h1; exact List.mem_cons_self
      · intro h; exact List.mem_cons_of_mem _ (ih h)
  exact this _ h

/-- The local store of a group of a canonical state is canonical. -/
theorem ls_wf {s : State} (h : s.memWf = true) {g : Nat} {x : Group} (hx : s.group? g = some x) : kcanon 0#8 x.ls = true :=
  (memWf_iff.1 h).2.2.2.2 _ (mem_of_group? hx)

theorem memWf_setGroup {s : State} (h : s.memWf = true) (g : Nat) {x : Group} (hx : kcanon 0#8 x.ls = true) : (s.setGroup g x).memWf = true := by
  rw [memWf_iff] at *
  refine ⟨h.1, h.2.1, h.2.2.1, h.2.2.2.1, fun p hp => ?_⟩
  rcases mem_kset hp with rfl | hp
  · exact hx
  · exact h.2.2.2.2 p hp

theorem memWf_modGroup {s : State} (h : s.memWf = true) (g : Nat) {f : Group → Group}
    (hf : ∀ x, kcanon 0#8 x.ls = true → kcanon 0#8 (f x).ls = true) : (s.modGroup g f).memWf = true := by
  cases hg : kfind g s.groups with
  | none => refine memWf_congr h rfl rfl rfl rfl ?_; simp [kmod, hg]
  | some x =>
    have : s.modGroup g f = s.setGroup g (f x) := by simp [State.modGroup, State.setGroup, kmod, hg]
    rw [this]; exact memWf_setGroup h g (hf x (ls_wf h hg))

@[simp] theorem memWf_setWave (s : State) (k : Nat) (w : Wave) : (s.setWave k w).memWf = s.memWf := rfl
@[simp] theorem memWf_modWave (s : State) (k : Nat) (f : Wave → Wave) : (s.modWave k f).memWf = s.memWf := rfl
@[simp] theorem memWf_modTask (s : State) (q : Nat) (f : Task → Task) : (s.modTask q f).memWf = s.memWf := rfl
@[simp] theorem memWf_modCore (s : State) (c : Nat) (f : Core → Core) : (s.modCore c f).memWf = s.memWf := rfl
@[simp] theorem memWf_modRing (s : State) (g : Nat) (f : Ring → Ring) : (s.modRing g f).memWf = s.memWf := rfl

/-! ### Bytes -/

/-- Writing a byte keeps the canonical form. -/
theorem memWf_wrByte {s : State} (h : s.memWf = true) (l : Loc) (b : Byte) : (wrByte s l b).memWf = true := by
  have h' := memWf_iff.1 h
  cases l with
  | ext a => exact memWf_iff.2 ⟨kcanon_kput h'.1 a b, h'.2⟩
  | shm a => exact memWf_iff.2 ⟨h'.1, kcanon_kput h'.2.1 a b, h'.2.2⟩
  | host a => exact memWf_iff.2 ⟨h'.1, h'.2.1, kcanon_kput h'.2.2.1 a b, h'.2.2.2⟩
  | peer d t o => exact memWf_iff.2 ⟨h'.1, h'.2.1, h'.2.2.1, kcanon_kput h'.2.2.2.1 _ b, h'.2.2.2.2⟩
  | ls g o => exact memWf_modGroup h g fun x hx => kcanon_kput hx o b

theorem memWf_wrBytes {s : State} (h : s.memWf = true) (l : Loc) (bs : List Byte) : (wrBytes s l bs).memWf = true := by
  induction bs generalizing s l with
  | nil => exact h
  | cons b r ih => exact ih (memWf_wrByte h l b) _

/-- Clearing errors of memory changes no byte. -/
theorem clearPoison_rest (s : State) (l : Loc) (n : Nat) : clearPoison s l n = { s with poison := (clearPoison s l n).poison } := by
  unfold clearPoison
  split
  · split <;> rfl
  · rfl
@[simp] theorem memWf_clearPoison (s : State) (l : Loc) (n : Nat) : (clearPoison s l n).memWf = s.memWf := by rw [clearPoison_rest]; rfl
@[simp] theorem rdByte_clearPoison (s : State) (l m : Loc) (n : Nat) : rdByte (clearPoison s l n) m = rdByte s m := by rw [clearPoison_rest]; rfl

theorem memWf_wrN {s : State} (h : s.memWf = true) (l : Loc) (n v : Nat) : (wrN s l n v).memWf = true := by
  unfold wrN; rw [memWf_clearPoison]; exact memWf_wrBytes h l _

theorem memWf_wrTag {s : State} (h : s.memWf = true) (l : Loc) (t : Bool) : (wrTag s l t).memWf = true := by
  cases l with
  | shm a => exact h
  | ls g o => exact memWf_modGroup h g fun x hx => hx
  | ext a => exact h
  | host a => exact h
  | peer d t o => exact h

/-- A local place exists when its group does; the others always do. -/
def Loc.here (s : State) : Loc → Bool
  | .ls g _ => (s.group? g).isSome
  | _ => true

/-- Reading a byte after a byte was written: the written byte at the same cell, the old byte elsewhere. -/
theorem rdByte_wrByte (s : State) (l m : Loc) (b : Byte) (hl : l.here s = true) :
    rdByte (wrByte s l b) m = if m.cell = l.cell then b else rdByte s m := by
  cases l with
  | ls g o =>
    cases m with
    | ls g' o' =>
      by_cases hgg : g' = g
      · subst hgg
        obtain ⟨x, hx⟩ := Option.isSome_iff_exists.1 hl
        simp [wrByte, rdByte, group?_modGroup, hx, Loc.cell, kget_kput]
      · simp [wrByte, rdByte, group?_modGroup, hgg, Loc.cell]
    | _ => simp [wrByte, rdByte, Loc.cell]; try omega
  | ext a =>
    cases m with
    | ext a' => simp [wrByte, rdByte, Loc.cell, kget_kput]
    | ls g o => simp only [wrByte, rdByte, Loc.cell, State.group?, Prod.mk.injEq]; rw [if_neg (by omega)]
    | _ => simp [wrByte, rdByte, Loc.cell]
  | shm a =>
    cases m with
    | shm a' => simp [wrByte, rdByte, Loc.cell, kget_kput]
    | ls g o => simp only [wrByte, rdByte, Loc.cell, State.group?, Prod.mk.injEq]; rw [if_neg (by omega)]
    | _ => simp [wrByte, rdByte, Loc.cell]
  | host a =>
    cases m with
    | host a' => simp [wrByte, rdByte, Loc.cell, kget_kput]
    | ls g o => simp only [wrByte, rdByte, Loc.cell, State.group?, Prod.mk.injEq]; rw [if_neg (by omega)]
    | _ => simp [wrByte, rdByte, Loc.cell]
  | peer d t o =>
    cases m with
    | peer d' t' o' => simp [wrByte, rdByte, Loc.cell, kget_kput]
    | ls g o => simp only [wrByte, rdByte, Loc.cell, State.group?, Prod.mk.injEq]; rw [if_neg (by omega)]
    | _ => simp [wrByte, rdByte, Loc.cell]

end Sys2Proof.Machine
end

