-- ==== Sys2Proof/Laws/Issue.lean ====
section
/-! SUPPORT. Issuing an instruction, said once: with nothing in the way the body runs on the entry state and its answer is finished; what
finishing leaves of the wave and the state; the registers that writing lanes leaves alone. -/

namespace Sys2Proof.Laws

open Sys2Proof.Machine

/-- With nothing in its way, an instruction runs its body on the entry state and wave. -/
theorem issue_clear {sp : Spec} {s : State} {k : Nat} {w : Wave} (h : Clear sp s k w) (body : State → Nat → Wave → Res) :
    issue sp body s = .next (finish sp s k w (body (entryState sp s k w) k (entryWave sp s w))) := by
  have h1 : sp.opnds.findSome? (regBad w) = none := List.findSome?_eq_none_iff.2 h.regs
  simp only [issue, h.cur, h.wave, preIssue, h1, h.priv]
  cases hu : undersized w (sp.touched ++ sp.cw) with
  | none =>
    have he : early sp w = false := by simp [early, hu]
    simp only [h.token, entryState, entryWave, he]
    simp only [Bool.false_eq_true, if_false]
    generalize body _ _ _ = r
    cases r <;> rfl
  | some p =>
    obtain ⟨r, d⟩ := p
    have he : early sp w = true := by simp [early, hu]
    have hm := h.stall he
    simp only [hm, h.token, entryState, entryWave, he]
    simp only [Bool.false_eq_true, if_false, if_true]
    generalize body _ _ _ = r
    cases r <;> rfl

@[simp] theorem entryWave_v (sp : Spec) (s : State) (w : Wave) : (entryWave sp s w).v = w.v := by unfold entryWave; split <;> rfl
@[simp] theorem entryWave_s (sp : Spec) (s : State) (w : Wave) : (entryWave sp s w).s = w.s := by unfold entryWave; split <;> rfl
@[simp] theorem entryWave_m (sp : Spec) (s : State) (w : Wave) : (entryWave sp s w).m = w.m := by unfold entryWave; split <;> rfl
@[simp] theorem entryWave_pc (sp : Spec) (s : State) (w : Wave) : (entryWave sp s w).pc = w.pc := by unfold entryWave; split <;> rfl
@[simp] theorem entryWave_path (sp : Spec) (s : State) (w : Wave) : (entryWave sp s w).path = w.path := by unfold entryWave; split <;> rfl
@[simp] theorem entryWave_mode (sp : Spec) (s : State) (w : Wave) : (entryWave sp s w).mode = w.mode := by unfold entryWave; split <;> rfl
@[simp] theorem entryWave_tokens (sp : Spec) (s : State) (w : Wave) : (entryWave sp s w).tokens = w.tokens := by unfold entryWave; split <;> rfl
@[simp] theorem entryWave_xa (sp : Spec) (s : State) (w : Wave) : (entryWave sp s w).xa = w.xa := by unfold entryWave; split <;> rfl
@[simp] theorem entryWave_yielded (sp : Spec) (s : State) (w : Wave) : (entryWave sp s w).yielded = none := by unfold entryWave; split <;> rfl
@[simp] theorem rdV_entry (sp : Spec) (s : State) (w : Wave) (r l : Nat) : rdV (entryWave sp s w) r l = rdV w r l := by simp [rdV]
@[simp] theorem rdS_entry (sp : Spec) (s : State) (w : Wave) (r : Nat) : rdS (entryWave sp s w) r = rdS w r := by simp [rdS]
@[simp] theorem rdM_entry (sp : Spec) (s : State) (w : Wave) (r : Nat) : rdM (entryWave sp s w) r = rdM w r := by simp [rdM]
@[simp] theorem activeOf_entry (sp : Spec) (s : State) (w : Wave) (m : BitVec 3) : activeOf (entryWave sp s w) m = activeOf w m := by
  simp [activeOf]
theorem entryWave_part (sp : Spec) (s : State) (w : Wave) : entryWave sp s w = wavePart w (entryWave sp s w) := by
  unfold entryWave; split <;> rfl

theorem entryState_rest (sp : Spec) (s : State) (k : Nat) (w : Wave) :
    entryState sp s k w = { s with waves := (entryState sp s k w).waves, cores := (entryState sp s k w).cores } := by
  unfold entryState; split <;> rfl
@[simp] theorem entryState_wave (sp : Spec) (s : State) (k : Nat) (w : Wave) : (entryState sp s k w).wave? k = some (entryWave sp s w) := by
  simp [entryState]
theorem entryState_others (sp : Spec) (s : State) {j k : Nat} (w : Wave) (h : j ≠ k) : (entryState sp s k w).wave? j = s.wave? j := by
  unfold entryState; rw [wave?_setWave_ne _ h]; split <;> rfl
/-- Only the two counters of issuing change on a core (R126, R186). -/
theorem entryState_core (sp : Spec) (s : State) (k : Nat) (w : Wave) (c : Nat) :
    (entryState sp s k w).core c = { s.core c with fixups := ((entryState sp s k w).core c).fixups } := by
  unfold entryState
  split
  · by_cases h : c = coreOf s k
    · subst h; simp
    · simp [h]
  · rfl
theorem modCore_issued (s : State) (d c : Nat) :
    (s.modCore d (fun x => { x with issued := x.issued + 1 })).core c =
      { s.core c with issued := ((s.modCore d (fun x => { x with issued := x.issued + 1 })).core c).issued } := by
  by_cases h : c = d
  · subst h; simp
  · simp [h]
theorem modCore_rest (s : State) (c : Nat) (f : Core → Core) : s.modCore c f = { s with cores := (s.modCore c f).cores } := rfl

/-- An answer that only sets the wave's registers completes the instruction (R148). -/
theorem ranRegs_ok {sp : Spec} {s : State} {k : Nat} {w : Wave} {ds : List RegRef} {x : Wave} {t : State}
    (hp : x = wavePart (entryWave sp s w) x) (hpc : x.pc = w.pc) (hr : SameRegs ds w x)
    (ht : t = finish sp s k w (.ok ((entryState sp s k w).setWave k x))) :
    RanRegs sp ds s k w t (bookWave sp s.cycle w true x) := by
  have hs := entryState_rest sp s k w
  have hc : (entryState sp s k w).cycle = s.cycle := by rw [hs]
  subst ht
  refine ⟨?_, ?_, ?_, ?_, ?_, ?_, fun c => ?_⟩
  · simp [finish, book, hc]
  · simp only [finish, book, State.modCore, State.modWave, State.setWave]
    rw [hs]
  · intro j hj
    simp [finish, book, hj, entryState_others sp s w hj]
  · rw [hp, entryWave_part]; rfl
  · exact ⟨hr.v, hr.s, hr.m⟩
  · simp [bookWave, hpc]
  · have e := entryState_core sp s k w c
    simp only [finish, book]
    rw [modCore_issued]
    simp only [core_modWave, core_setWave]
    rw [e]

theorem sameRegs_refl (ds : List RegRef) (w : Wave) : SameRegs ds w w := ⟨fun _ _ _ _ => rfl, fun _ _ => rfl, fun _ _ => rfl⟩
theorem sameRegs_entry {sp : Spec} {s : State} {w x : Wave} {ds : List RegRef} (h : SameRegs ds (entryWave sp s w) x) : SameRegs ds w x :=
  ⟨fun r l a b => by simpa using h.v r l a b, fun r a => by simpa using h.s r a, fun r a => by simpa using h.m r a⟩

/-! ### Registers -/

theorem rdS_wrS (w : Wave) (r q : Nat) (x : Word) : rdS (wrS w r x) q = if q = r then x else rdS w q := by simp [rdS, wrS, kget_kput]
theorem rdV_wrS (w : Wave) (r q l : Nat) (x : Word) : rdV (wrS w r x) q l = rdV w q l := rfl
theorem rdM_wrS (w : Wave) (r q : Nat) (x : Word) : rdM (wrS w r x) q = rdM w q := rfl
theorem rdM_wrM (w : Wave) (r q : Nat) (x : LaneMask) : rdM (wrM w r x) q = if q = 0 then BitVec.allOnes 32 else if q = r then x else rdM w q := by
  unfold rdM wrM
  by_cases hq : q = 0
  · simp [hq]
  · by_cases hr : r = 0
    · simp [hq, hr]
    · simp [hq, hr, kget_kput]
theorem rdV_wrM (w : Wave) (r q l : Nat) (x : LaneMask) : rdV (wrM w r x) q l = rdV w q l := by unfold wrM; split <;> rfl
theorem rdS_wrM (w : Wave) (r q : Nat) (x : LaneMask) : rdS (wrM w r x) q = rdS w q := by unfold wrM; split <;> rfl
theorem rdV_wrV (w : Wave) (r l q m : Nat) (x : Word) (hl : l < 32) (hm : m < 32) :
    rdV (wrV w r l x) q m = if q = r ∧ m = l then x else rdV w q m := by
  simp only [rdV, wrV, kget_kput]
  by_cases h : q = r ∧ m = l
  · simp [h]
  · rw [if_neg h, if_neg (by omega)]

theorem wrLanes_aux (r : Nat) (act : LaneMask) (f : Nat → Word) (ls : List Nat) (hls : ∀ l ∈ ls, l < 32) (w : Wave) (q m : Nat) (hm : m < 32) :
    rdV (ls.foldl (fun w l => if act.getLsbD l then wrV w r l (f l) else w) w) q m =
      if q = r ∧ m ∈ ls ∧ act.getLsbD m then f m else rdV w q m := by
  induction ls generalizing w with
  | nil => simp
  | cons a ls ih =>
    rw [List.foldl_cons, ih (fun l h => hls l (List.mem_cons_of_mem _ h))]
    have ha := hls a List.mem_cons_self
    by_cases h1 : q = r ∧ m ∈ ls ∧ act.getLsbD m
    · rw [if_pos h1, if_pos ⟨h1.1, List.mem_cons_of_mem _ h1.2.1, h1.2.2⟩]
    · rw [if_neg h1]
      by_cases h2 : act.getLsbD a
      · simp only [h2, if_true]
        rw [rdV_wrV _ _ _ _ _ _ ha hm]
        by_cases h3 : q = r ∧ m = a
        · obtain ⟨rfl, rfl⟩ := h3; simp [h2]
        · rw [if_neg h3, if_neg]
          rintro ⟨e1, e2, e3⟩
          rcases List.mem_cons.1 e2 with e | e
          · exact h3 ⟨e1, e⟩
          · exact h1 ⟨e1, e, e3⟩
      · simp only [h2]
        rw [if_neg (by decide), if_neg]
        rintro ⟨e1, e2, e3⟩
        rcases List.mem_cons.1 e2 with e | e
        · subst e; exact h2 e3
        · exact h1 ⟨e1, e, e3⟩

/-- Writing lanes writes exactly the lanes of the mask (R148). -/
theorem rdV_wrLanes (w : Wave) (r : Nat) (act : LaneMask) (f : Nat → Word) (q m : Nat) (hm : m < 32) :
    rdV (wrLanes w r act f) q m = if q = r ∧ act.getLsbD m then f m else rdV w q m := by
  unfold wrLanes
  rw [wrLanes_aux r act f _ (fun l h => List.mem_range.1 h) w q m hm]
  simp [hm]

theorem wrLanes_eq (w : Wave) (r : Nat) (act : LaneMask) (f : Nat → Word) : wrLanes w r act f = { w with v := (wrLanes w r act f).v } := by
  unfold wrLanes
  generalize List.range 32 = ls
  induction ls generalizing w with
  | nil => rfl
  | cons a ls ih =>
    rw [List.foldl_cons, ih]
    split <;> rfl
@[simp] theorem wrLanes_s (w : Wave) (r : Nat) (act : LaneMask) (f : Nat → Word) : (wrLanes w r act f).s = w.s := by rw [wrLanes_eq]
@[simp] theorem wrLanes_m (w : Wave) (r : Nat) (act : LaneMask) (f : Nat → Word) : (wrLanes w r act f).m = w.m := by rw [wrLanes_eq]
@[simp] theorem wrLanes_pc (w : Wave) (r : Nat) (act : LaneMask) (f : Nat → Word) : (wrLanes w r act f).pc = w.pc := by rw [wrLanes_eq]
@[simp] theorem wrLanes_xa (w : Wave) (r : Nat) (act : LaneMask) (f : Nat → Word) : (wrLanes w r act f).xa = w.xa := by rw [wrLanes_eq]
@[simp] theorem wrLanes_yielded (w : Wave) (r : Nat) (act : LaneMask) (f : Nat → Word) : (wrLanes w r act f).yielded = w.yielded := by
  rw [wrLanes_eq]
theorem rdS_wrLanes (w : Wave) (r : Nat) (act : LaneMask) (f : Nat → Word) (q : Nat) : rdS (wrLanes w r act f) q = rdS w q := by simp [rdS]
theorem rdM_wrLanes (w : Wave) (r : Nat) (act : LaneMask) (f : Nat → Word) (q : Nat) : rdM (wrLanes w r act f) q = rdM w q := by simp [rdM]

end Sys2Proof.Laws
end

