-- ==== Sys2Proof/Laws/RegOps.lean ====
section
/-! SUPPORT. The shared operations of the register-only instructions, each said once: the state it comes to when nothing is in its way. -/

namespace Sys2Proof.Laws

open Sys2Proof.Machine

theorem setWave_setWave (s : State) (k : Nat) (u v : Wave) : (s.setWave k u).setWave k v = s.setWave k v := by
  simp [State.setWave, kset_kset]
theorem entryState_set (sp : Spec) (s : State) (k : Nat) (w : Wave) : (entryState sp s k w).setWave k (entryWave sp s w) = entryState sp s k w := by
  simp only [entryState, setWave_setWave]

/-- A body that only sets the wave's registers. -/
theorem onWave_clear {sp : Spec} {s : State} {k : Nat} {w : Wave} (h : Clear sp s k w) (f : Wave → Wave) :
    issue sp (onWave (fun w => .ok (f w))) s = .next (doneWith sp s k w (f (entryWave sp s w))) := by
  rw [issue_clear h]; rfl

/-- The same, with effect only when Active is not empty (R148, R189). -/
theorem whenActive_clear {sp : Spec} {s : State} {k : Nat} {w : Wave} (h : Clear sp s k w) (hd : Hd) (f : Wave → Wave) :
    issue sp (whenActive hd (onWave (fun w => .ok (f w)))) s =
      .next (doneWith sp s k w (if activeOf w hd.mask = 0 then entryWave sp s w else f (entryWave sp s w))) := by
  rw [issue_clear h]
  simp only [whenActive, onWave, activeOf_entry, doneWith]
  split <;> simp [entryState_set]

/-- A class 1 instruction writes S[d], and nothing when Active is empty (R148, R161). -/
theorem scalarOp_clear {len : Nat} {h : Hd} {d : Field11} {ops : List Opnd} {lat : Option Nat} {s : State} {k : Nat} {w : Wave} {sp : Spec}
    (hsp : sp = specH h len (sOp d 1 true :: ops) lat) (c : Clear sp s k w) (t : Ty) (f : Wave → Nat) :
    scalarOp len h d ops lat t f s = .next (doneWith sp s k w
      (if activeOf w h.mask = 0 then entryWave sp s w else wrS (entryWave sp s w) d.toNat (extTy t (f (entryWave sp s w))))) := by
  subst hsp; exact whenActive_clear c h _

/-- A lane instruction writes the lanes of Active of V[d] (R148). -/
theorem laneOp_clear {len : Nat} {h : Hd} {d : Field11} {ops : List Opnd} {lat : Option Nat} {s : State} {k : Nat} {w : Wave} {sp : Spec}
    (hsp : sp = specH h len (vOp d 1 true :: ops) lat) (c : Clear sp s k w) (f : Wave → Nat → Word) :
    laneOp len h d ops lat f s = .next (doneWith sp s k w
      (wrLanes (entryWave sp s w) d.toNat (activeOf w h.mask) (f (entryWave sp s w)))) := by
  subst hsp; rw [laneOp, onWave_clear c]; simp

theorem sameRegs_wrS (ds : List RegRef) (w : Wave) (d : Nat) (x : Word) (h : .s d ∈ ds) : SameRegs ds w (wrS w d x) :=
  ⟨fun _ _ _ _ => rfl, fun r hr => by rw [rdS_wrS, if_neg]; rintro rfl; exact hr h, fun _ _ => rfl⟩
theorem sameRegs_wrM (ds : List RegRef) (w : Wave) (d : Nat) (x : LaneMask) (h : .m d ∈ ds) : SameRegs ds w (wrM w d x) :=
  ⟨fun _ _ _ _ => rdV_wrM .., fun _ _ => rdS_wrM .., fun r hr => by
    rw [rdM_wrM]; split_ifs with h1 h2
    · simp [rdM, h1]
    · subst h2; exact absurd h hr
    · rfl⟩
theorem sameRegs_wrLanes (ds : List RegRef) (w : Wave) (d : Nat) (act : LaneMask) (f : Nat → Word) (h : .v d ∈ ds) :
    SameRegs ds w (wrLanes w d act f) :=
  ⟨fun r l hl hr => by rw [rdV_wrLanes _ _ _ _ _ _ hl, if_neg]; rintro ⟨rfl, -⟩; exact hr h, fun _ _ => rdS_wrLanes .., fun _ _ => rdM_wrLanes ..⟩
theorem sameRegs_trans {ds : List RegRef} {w x y : Wave} (h : SameRegs ds w x) (h2 : SameRegs ds x y) : SameRegs ds w y :=
  ⟨fun r l a b => (h2.v r l a b).trans (h.v r l a b), fun r a => (h2.s r a).trans (h.s r a), fun r a => (h2.m r a).trans (h.m r a)⟩

/-- A wave before booking: only registers (and, where told, the exact accumulator) changed. -/
def RegDone (xa : Bool) (ds : List RegRef) (e x : Wave) : Prop :=
  x = wavePart e x ∧ x.pc = e.pc ∧ SameRegs ds e x ∧ (xa = false → x.xa = e.xa)

theorem regDone_refl (xa : Bool) (ds : List RegRef) (e : Wave) : RegDone xa ds e e := ⟨rfl, rfl, sameRegs_refl _ _, fun _ => rfl⟩
theorem regDone_if {xa : Bool} {ds : List RegRef} {e x : Wave} {p : Prop} [Decidable p] (h : RegDone xa ds e x) :
    RegDone xa ds e (if p then e else x) := by split; exacts [regDone_refl .., h]
theorem regDone_wrS (xa : Bool) (ds : List RegRef) (e : Wave) (d : Nat) (x : Word) (h : .s d ∈ ds) : RegDone xa ds e (wrS e d x) :=
  ⟨rfl, rfl, sameRegs_wrS _ _ _ _ h, fun _ => rfl⟩
theorem regDone_wrM (xa : Bool) (ds : List RegRef) (e : Wave) (d : Nat) (x : LaneMask) (h : .m d ∈ ds) : RegDone xa ds e (wrM e d x) := by
  refine ⟨?_, ?_, sameRegs_wrM _ _ _ _ h, fun _ => ?_⟩ <;> unfold wrM <;> split <;> rfl
theorem regDone_wrLanes (xa : Bool) (ds : List RegRef) (e : Wave) (d : Nat) (act : LaneMask) (f : Nat → Word) (h : .v d ∈ ds) :
    RegDone xa ds e (wrLanes e d act f) :=
  ⟨by rw [wrLanes_eq]; rfl, by simp, sameRegs_wrLanes _ _ _ _ _ h, fun _ => by simp⟩
theorem regDone_xa (ds : List RegRef) (e : Wave) (y : Xa) : RegDone true ds e { e with xa := y } :=
  ⟨rfl, rfl, ⟨fun _ _ _ _ => rfl, fun _ _ => rfl, fun _ _ => rfl⟩, fun h => Bool.noConfusion h⟩
theorem regDone_trans {xa : Bool} {ds : List RegRef} {e x y : Wave} (h : RegDone xa ds e x) (g : RegDone xa ds x y) : RegDone xa ds e y := by
  obtain ⟨a1, a2, a3, a4⟩ := h
  obtain ⟨b1, b2, b3, b4⟩ := g
  refine ⟨?_, b2.trans a2, sameRegs_trans a3 b3, fun q => (b4 q).trans (a4 q)⟩
  rw [b1]; conv_lhs => rw [a1]
  rfl
theorem regDone_wrSpan (xa : Bool) (ds : List RegRef) (e : Wave) (d : Nat) (act : LaneMask) (n : Nat) (f : Nat → List Word)
    (h : ∀ k, k < n → .v (d + k) ∈ ds) : RegDone xa ds e (wrSpan e d act n f) := by
  unfold wrSpan
  induction n with
  | zero => exact regDone_refl ..
  | succ n ih =>
    rw [List.range_succ, List.foldl_append, List.foldl_cons, List.foldl_nil]
    exact regDone_trans (ih (fun k hk => h k (by omega))) (regDone_wrLanes _ _ _ _ _ _ (h n (by omega)))

/-- A register-only instruction leaves a wave with only its destinations changed, and completes. -/
def RegRan (xa : Bool) (o : Host.Outcome State Fault Refusal) (sp : Spec) (s : State) (k : Nat) (w : Wave) : Prop :=
  ∃ x, o = .next (doneWith sp s k w x) ∧ RegDone xa sp.dests (entryWave sp s w) x

/-- What completing leaves: the wave's registers are those the body left. -/
theorem ran_with {xa : Bool} {o : Host.Outcome State Fault Refusal} {sp : Spec} {s : State} {k : Nat} {w x : Wave}
    (h : o = .next (doneWith sp s k w x)) (hx : RegDone xa sp.dests (entryWave sp s w) x) :
    ∃ t w', o = .next t ∧ RanRegs sp sp.dests s k w t w' ∧ w'.v = x.v ∧ w'.s = x.s ∧ w'.m = x.m ∧ w'.xa = x.xa :=
  ⟨_, _, h, ranRegs_ok hx.1 (by rw [hx.2.1]; simp) (sameRegs_entry hx.2.2.1) rfl, rfl, rfl, rfl, rfl⟩

theorem ranRegs_of {xa : Bool} {o : Host.Outcome State Fault Refusal} {sp : Spec} {s : State} {k : Nat} {w : Wave} (h : RegRan xa o sp s k w) :
    ∃ t w', o = .next t ∧ RanRegs sp sp.dests s k w t w' ∧ (xa = false → w'.xa = w.xa) := by
  obtain ⟨x, h1, hx⟩ := h
  obtain ⟨t, w', e1, e2, -, -, -, e6⟩ := ran_with h1 hx
  exact ⟨t, w', e1, e2, fun q => by rw [e6, hx.2.2.2 q]; simp⟩

theorem mem_dests {sp : Spec} {o : Opnd} (h : o ∈ sp.opnds) (hd : o.dest = true) {k : Nat} (hk : k < o.n) : o.reg.up k ∈ sp.dests := by
  simp only [Spec.dests, List.mem_flatMap, List.mem_filter]
  exact ⟨o, ⟨h, hd⟩, List.mem_map.2 ⟨k, List.mem_range.2 hk, rfl⟩⟩

theorem mem_dests_head {sp : Spec} {h : Hd} {len : Nat} {o : Opnd} {ops : List Opnd} {lat : Option Nat}
    (hsp : sp = specH h len (o :: ops) lat) (hd : o.dest = true) (hn : o.n = 1) : o.reg.up 0 ∈ sp.dests :=
  mem_dests (by rw [hsp]; exact List.mem_cons_self) hd (by omega)

theorem scalarOp_ran {len : Nat} {h : Hd} {d : Field11} {ops : List Opnd} {lat : Option Nat} {s : State} {k : Nat} {w : Wave} {sp : Spec}
    (hsp : sp = specH h len (sOp d 1 true :: ops) lat) (c : Clear sp s k w) (t : Ty) (f : Wave → Nat) (xa : Bool) :
    RegRan xa (scalarOp len h d ops lat t f s) sp s k w := by
  have hd : RegRef.s d.toNat ∈ sp.dests := mem_dests_head hsp rfl rfl
  exact ⟨_, scalarOp_clear hsp c t f, regDone_if (regDone_wrS _ _ _ _ _ hd)⟩

theorem laneOp_ran {len : Nat} {h : Hd} {d : Field11} {ops : List Opnd} {lat : Option Nat} {s : State} {k : Nat} {w : Wave} {sp : Spec}
    (hsp : sp = specH h len (vOp d 1 true :: ops) lat) (c : Clear sp s k w) (f : Wave → Nat → Word) (xa : Bool) :
    RegRan xa (laneOp len h d ops lat f s) sp s k w := by
  have hd : RegRef.v d.toNat ∈ sp.dests := mem_dests_head hsp rfl rfl
  exact ⟨_, laneOp_clear hsp c f, regDone_wrLanes _ _ _ _ _ _ hd⟩

theorem onWave_ran {sp : Spec} {s : State} {k : Nat} {w : Wave} (c : Clear sp s k w) (f : Wave → Wave) (xa : Bool)
    (hf : RegDone xa sp.dests (entryWave sp s w) (f (entryWave sp s w))) : RegRan xa (issue sp (onWave (fun w => .ok (f w))) s) sp s k w :=
  ⟨_, onWave_clear c f, hf⟩
theorem whenActive_ran {sp : Spec} {s : State} {k : Nat} {w : Wave} (c : Clear sp s k w) (hd : Hd) (f : Wave → Wave) (xa : Bool)
    (hf : RegDone xa sp.dests (entryWave sp s w) (f (entryWave sp s w))) :
    RegRan xa (issue sp (whenActive hd (onWave (fun w => .ok (f w)))) s) sp s k w :=
  ⟨_, whenActive_clear c hd f, regDone_if hf⟩
/-- A body that sets the wave from the state it is given. -/
theorem body_ran {sp : Spec} {s : State} {k : Nat} {w : Wave} (c : Clear sp s k w) (f : State → Nat → Wave → Wave) (xa : Bool)
    (hf : RegDone xa sp.dests (entryWave sp s w) (f (entryState sp s k w) k (entryWave sp s w))) :
    RegRan xa (issue sp (fun s k w => .ok (s.setWave k (f s k w))) s) sp s k w :=
  ⟨_, by rw [issue_clear c]; rfl, hf⟩

/-! ### Values -/

/-- A class 1 instruction's value. -/
theorem setsS_of {i : Instr} {len : Nat} {h : Hd} {d : Field11} {ops : List Opnd} {lat : Option Nat} {t : Ty} {f : Wave → Nat} {val : Wave → Word}
    (he : ∀ s, exec i s = scalarOp len h d ops lat t f s) (hr : regSpec i = some (specH h len (sOp d 1 true :: ops) lat))
    (hf : ∀ sp s w, f (entryWave sp s w) = f w) (hv : ∀ w, extTy t (f w) = val w) : SetsS i h d val := by
  intro sp hsp s k w c
  have hsp' := Option.some.inj (hr.symm.trans hsp)
  have hd : RegRef.s d.toNat ∈ sp.dests := mem_dests_head hsp'.symm rfl rfl
  obtain ⟨u, w', h1, h2, -, h4, -⟩ := ran_with (xa := false) ((he s).trans (scalarOp_clear hsp'.symm c t f)) (regDone_if (regDone_wrS _ _ _ _ _ hd))
  refine ⟨u, w', h1, h2, ?_⟩
  rw [rdS, h4]
  split
  · simp [rdS]
  · rw [← rdS, rdS_wrS, if_pos rfl, hf, hv]

/-- A class 1 instruction whose body writes S[d] whole. -/
theorem setsS_whole {i : Instr} {len : Nat} {h : Hd} {d : Field11} {ops : List Opnd} {lat : Option Nat} {f : Wave → Word} {val : Wave → Word}
    (he : ∀ s, exec i s = issue (specH h len (sOp d 1 true :: ops) lat) (whenActive h (onWave (fun w => .ok (wrS w d.toNat (f w))))) s)
    (hr : regSpec i = some (specH h len (sOp d 1 true :: ops) lat)) (hf : ∀ sp s w, f (entryWave sp s w) = val w) : SetsS i h d val := by
  intro sp hsp s k w c
  have hsp' := Option.some.inj (hr.symm.trans hsp)
  have hd : RegRef.s d.toNat ∈ sp.dests := mem_dests_head hsp'.symm rfl rfl
  subst hsp'
  obtain ⟨u, w', h1, h2, -, h4, -⟩ := ran_with (xa := false) ((he s).trans (whenActive_clear c h _)) (regDone_if (regDone_wrS _ _ _ _ _ hd))
  refine ⟨u, w', h1, h2, ?_⟩
  rw [rdS, h4]
  split
  · simp [rdS]
  · rw [← rdS, rdS_wrS, if_pos rfl, hf]

/-- A mask destination is never `m0` once an instruction issues (R123). -/
theorem mask_dest_ne {sp : Spec} {s : State} {k : Nat} {w : Wave} (c : Clear sp s k w) {d : Field11} (h : mOp d true ∈ sp.opnds) : d.toNat ≠ 0 := by
  intro h0
  have := c.regs _ h
  simp [regBad, mOp, RegRef.idx, h0] at this

/-- An instruction whose body writes M[d]. -/
theorem setsM_whole {i : Instr} {len : Nat} {h : Hd} {d : Field11} {ops : List Opnd} {lat : Option Nat} {f val : Wave → LaneMask}
    (he : ∀ s, exec i s = issue (specH h len (mOp d true :: ops) lat) (whenActive h (onWave (fun w => .ok (wrM w d.toNat (f w))))) s)
    (hr : regSpec i = some (specH h len (mOp d true :: ops) lat)) (hf : ∀ sp s w, f (entryWave sp s w) = val w) : SetsM i h d val := by
  intro sp hsp s k w c
  have hsp' := Option.some.inj (hr.symm.trans hsp)
  have hd : RegRef.m d.toNat ∈ sp.dests := mem_dests_head hsp'.symm rfl rfl
  subst hsp'
  have h0 := mask_dest_ne c (d := d) List.mem_cons_self
  obtain ⟨u, w', h1, h2, -, -, h5, -⟩ := ran_with (xa := false) ((he s).trans (whenActive_clear c h _)) (regDone_if (regDone_wrM _ _ _ _ _ hd))
  refine ⟨u, w', h1, h2, ?_⟩
  rw [rdM, h5, ← rdM]
  split
  · simp
  · rw [rdM_wrM, if_neg h0, if_pos rfl, hf]

/-- A lane instruction's lanes. -/
theorem setsLanes_of {i : Instr} {len : Nat} {h : Hd} {d : Field11} {ops : List Opnd} {lat : Option Nat} {f val : Wave → Nat → Word}
    (he : ∀ s, exec i s = laneOp len h d ops lat f s) (hr : regSpec i = some (specH h len (vOp d 1 true :: ops) lat))
    (hf : ∀ sp s w l, f (entryWave sp s w) l = val w l) : SetsLanes i h d val := by
  intro sp hsp s k w c
  have hsp' := Option.some.inj (hr.symm.trans hsp)
  have hd : RegRef.v d.toNat ∈ sp.dests := mem_dests_head hsp'.symm rfl rfl
  obtain ⟨u, w', h1, h2, h3, -⟩ := ran_with (xa := false) ((he s).trans (laneOp_clear hsp'.symm c f)) (regDone_wrLanes _ _ _ _ _ _ hd)
  refine ⟨u, w', h1, h2, fun l hl => ?_⟩
  rw [rdV, h3, ← rdV, rdV_wrLanes _ _ _ _ _ _ hl, hf]
  simp

end Sys2Proof.Laws
end

