-- ==== Sys2Proof/Laws/RegRan.lean ====
section
/-! SUPPORT. Per register-only instruction: with nothing in its way it completes, and only its destinations change. -/

namespace Sys2Proof.Laws
open Sys2Proof.Machine

theorem ran_nop (f : NopF) (s : State) (k : Nat) (w : Wave) (c : Clear (spec0 8 f.stall [] []) s k w) :
    RegRan false (exec (.nop f) s) (spec0 8 f.stall [] []) s k w := by
  show RegRan _ (execNop f s) _ s k w
  unfold execNop 
  exact ⟨entryWave _ s w, by rw [issue_clear c]; simp only [doneWith, entryState_set], regDone_refl ..⟩
theorem ran_scalarAdd (f : SBinSatF) (s : State) (k : Nat) (w : Wave) (c : Clear (specH f.h (sbLen f.b) (sOp f.d 1 true :: sOp f.a :: sbOpnds f.b) (some 2)) s k w) :
    RegRan false (exec (.scalarAdd f) s) (specH f.h (sbLen f.b) (sOp f.d 1 true :: sOp f.a :: sbOpnds f.b) (some 2)) s k w := by
  show RegRan _ (execScalarAdd f s) _ s k w
  unfold execScalarAdd scalarBin
  exact scalarOp_ran rfl c _ _ _
theorem ran_scalarSub (f : SBinSatF) (s : State) (k : Nat) (w : Wave) (c : Clear (specH f.h (sbLen f.b) (sOp f.d 1 true :: sOp f.a :: sbOpnds f.b) (some 2)) s k w) :
    RegRan false (exec (.scalarSub f) s) (specH f.h (sbLen f.b) (sOp f.d 1 true :: sOp f.a :: sbOpnds f.b) (some 2)) s k w := by
  show RegRan _ (execScalarSub f s) _ s k w
  unfold execScalarSub scalarBin
  exact scalarOp_ran rfl c _ _ _
theorem ran_scalarMul (f : SBinF) (s : State) (k : Nat) (w : Wave) (c : Clear (specH f.h (sbLen f.b) (sOp f.d 1 true :: sOp f.a :: sbOpnds f.b) (some 4)) s k w) :
    RegRan false (exec (.scalarMul f) s) (specH f.h (sbLen f.b) (sOp f.d 1 true :: sOp f.a :: sbOpnds f.b) (some 4)) s k w := by
  show RegRan _ (execScalarMul f s) _ s k w
  unfold execScalarMul scalarBin
  exact scalarOp_ran rfl c _ _ _
theorem ran_scalarMulhi (f : SBinF) (s : State) (k : Nat) (w : Wave) (c : Clear (specH f.h (sbLen f.b) (sOp f.d 1 true :: sOp f.a :: sbOpnds f.b) (some 4)) s k w) :
    RegRan false (exec (.scalarMulhi f) s) (specH f.h (sbLen f.b) (sOp f.d 1 true :: sOp f.a :: sbOpnds f.b) (some 4)) s k w := by
  show RegRan _ (execScalarMulhi f s) _ s k w
  unfold execScalarMulhi scalarBin
  exact scalarOp_ran rfl c _ _ _
theorem ran_scalarDiv (f : SBinF) (s : State) (k : Nat) (w : Wave) (c : Clear (specH f.h (sbLen f.b) (sOp f.d 1 true :: sOp f.a :: sbOpnds f.b) none) s k w) :
    RegRan false (exec (.scalarDiv f) s) (specH f.h (sbLen f.b) (sOp f.d 1 true :: sOp f.a :: sbOpnds f.b) none) s k w := by
  show RegRan _ (execScalarDiv f s) _ s k w
  unfold execScalarDiv scalarBin
  exact scalarOp_ran rfl c _ _ _
theorem ran_scalarRem (f : SBinF) (s : State) (k : Nat) (w : Wave) (c : Clear (specH f.h (sbLen f.b) (sOp f.d 1 true :: sOp f.a :: sbOpnds f.b) none) s k w) :
    RegRan false (exec (.scalarRem f) s) (specH f.h (sbLen f.b) (sOp f.d 1 true :: sOp f.a :: sbOpnds f.b) none) s k w := by
  show RegRan _ (execScalarRem f s) _ s k w
  unfold execScalarRem scalarBin
  exact scalarOp_ran rfl c _ _ _
theorem ran_scalarMin (f : SBinF) (s : State) (k : Nat) (w : Wave) (c : Clear (specH f.h (sbLen f.b) (sOp f.d 1 true :: sOp f.a :: sbOpnds f.b) (some 2)) s k w) :
    RegRan false (exec (.scalarMin f) s) (specH f.h (sbLen f.b) (sOp f.d 1 true :: sOp f.a :: sbOpnds f.b) (some 2)) s k w := by
  show RegRan _ (execScalarMin f s) _ s k w
  unfold execScalarMin scalarBin
  exact scalarOp_ran rfl c _ _ _
theorem ran_scalarMax (f : SBinF) (s : State) (k : Nat) (w : Wave) (c : Clear (specH f.h (sbLen f.b) (sOp f.d 1 true :: sOp f.a :: sbOpnds f.b) (some 2)) s k w) :
    RegRan false (exec (.scalarMax f) s) (specH f.h (sbLen f.b) (sOp f.d 1 true :: sOp f.a :: sbOpnds f.b) (some 2)) s k w := by
  show RegRan _ (execScalarMax f s) _ s k w
  unfold execScalarMax scalarBin
  exact scalarOp_ran rfl c _ _ _
theorem ran_scalarAnd (f : SBinF) (s : State) (k : Nat) (w : Wave) (c : Clear (specH f.h (sbLen f.b) (sOp f.d 1 true :: sOp f.a :: sbOpnds f.b) (some 2)) s k w) :
    RegRan false (exec (.scalarAnd f) s) (specH f.h (sbLen f.b) (sOp f.d 1 true :: sOp f.a :: sbOpnds f.b) (some 2)) s k w := by
  show RegRan _ (execScalarAnd f s) _ s k w
  unfold execScalarAnd scalarBin
  exact scalarOp_ran rfl c _ _ _
theorem ran_scalarOr (f : SBinF) (s : State) (k : Nat) (w : Wave) (c : Clear (specH f.h (sbLen f.b) (sOp f.d 1 true :: sOp f.a :: sbOpnds f.b) (some 2)) s k w) :
    RegRan false (exec (.scalarOr f) s) (specH f.h (sbLen f.b) (sOp f.d 1 true :: sOp f.a :: sbOpnds f.b) (some 2)) s k w := by
  show RegRan _ (execScalarOr f s) _ s k w
  unfold execScalarOr scalarBin
  exact scalarOp_ran rfl c _ _ _
theorem ran_scalarXor (f : SBinF) (s : State) (k : Nat) (w : Wave) (c : Clear (specH f.h (sbLen f.b) (sOp f.d 1 true :: sOp f.a :: sbOpnds f.b) (some 2)) s k w) :
    RegRan false (exec (.scalarXor f) s) (specH f.h (sbLen f.b) (sOp f.d 1 true :: sOp f.a :: sbOpnds f.b) (some 2)) s k w := by
  show RegRan _ (execScalarXor f s) _ s k w
  unfold execScalarXor scalarBin
  exact scalarOp_ran rfl c _ _ _
theorem ran_scalarNot (f : SUnF) (s : State) (k : Nat) (w : Wave) (c : Clear (specH f.h 8 [sOp f.d 1 true, sOp f.a] (some 2)) s k w) :
    RegRan false (exec (.scalarNot f) s) (specH f.h 8 [sOp f.d 1 true, sOp f.a] (some 2)) s k w := by
  show RegRan _ (execScalarNot f s) _ s k w
  unfold execScalarNot scalarUn
  exact scalarOp_ran rfl c _ _ _
theorem ran_scalarShl (f : SBinF) (s : State) (k : Nat) (w : Wave) (c : Clear (specH f.h (sbLen f.b) (sOp f.d 1 true :: sOp f.a :: sbOpnds f.b) (some 2)) s k w) :
    RegRan false (exec (.scalarShl f) s) (specH f.h (sbLen f.b) (sOp f.d 1 true :: sOp f.a :: sbOpnds f.b) (some 2)) s k w := by
  show RegRan _ (execScalarShl f s) _ s k w
  unfold execScalarShl scalarBin
  exact scalarOp_ran rfl c _ _ _
theorem ran_scalarShr (f : SBinF) (s : State) (k : Nat) (w : Wave) (c : Clear (specH f.h (sbLen f.b) (sOp f.d 1 true :: sOp f.a :: sbOpnds f.b) (some 2)) s k w) :
    RegRan false (exec (.scalarShr f) s) (specH f.h (sbLen f.b) (sOp f.d 1 true :: sOp f.a :: sbOpnds f.b) (some 2)) s k w := by
  show RegRan _ (execScalarShr f s) _ s k w
  unfold execScalarShr scalarBin
  exact scalarOp_ran rfl c _ _ _
theorem ran_scalarCmp (f : SCmpF) (s : State) (k : Nat) (w : Wave) (c : Clear (specH f.h (sbLen f.b) (mOp f.d true :: sOp f.a :: sbOpnds f.b) (some 2)) s k w) :
    RegRan false (exec (.scalarCmp f) s) (specH f.h (sbLen f.b) (mOp f.d true :: sOp f.a :: sbOpnds f.b) (some 2)) s k w := by
  show RegRan _ (execScalarCmp f s) _ s k w
  unfold execScalarCmp 
  exact whenActive_ran c _ _ _ (regDone_wrM _ _ _ _ _ (mem_dests (k := 0) (o := mOp f.d true) (List.mem_cons_self) rfl Nat.one_pos))
theorem ran_scalarSel (f : SSelF) (s : State) (k : Nat) (w : Wave) (c : Clear (specH f.h (sbLen f.b) (sOp f.d 1 true :: sOp f.a :: sbOpnds f.b ++ [sOp7 f.c]) (some 2)) s k w) :
    RegRan false (exec (.scalarSel f) s) (specH f.h (sbLen f.b) (sOp f.d 1 true :: sOp f.a :: sbOpnds f.b ++ [sOp7 f.c]) (some 2)) s k w := by
  show RegRan _ (execScalarSel f s) _ s k w
  unfold execScalarSel 
  exact whenActive_ran c _ _ _ (regDone_wrS _ _ _ _ _ (mem_dests (k := 0) (o := sOp f.d 1 true) (List.mem_cons_self) rfl Nat.one_pos))
theorem ran_scalarMov (f : SMovF) (s : State) (k : Nat) (w : Wave) (c : Clear (specH f.h (sbLen f.b) (sOp f.d 1 true :: sbOpnds f.b) (some 2)) s k w) :
    RegRan false (exec (.scalarMov f) s) (specH f.h (sbLen f.b) (sOp f.d 1 true :: sbOpnds f.b) (some 2)) s k w := by
  show RegRan _ (execScalarMov f s) _ s k w
  unfold execScalarMov 
  exact scalarOp_ran rfl c _ _ _
theorem ran_scalarClz (f : SUnF) (s : State) (k : Nat) (w : Wave) (c : Clear (specH f.h 8 [sOp f.d 1 true, sOp f.a] (some 2)) s k w) :
    RegRan false (exec (.scalarClz f) s) (specH f.h 8 [sOp f.d 1 true, sOp f.a] (some 2)) s k w := by
  show RegRan _ (execScalarClz f s) _ s k w
  unfold execScalarClz scalarUn
  exact scalarOp_ran rfl c _ _ _
theorem ran_scalarPopc (f : SUnF) (s : State) (k : Nat) (w : Wave) (c : Clear (specH f.h 8 [sOp f.d 1 true, sOp f.a] (some 2)) s k w) :
    RegRan false (exec (.scalarPopc f) s) (specH f.h 8 [sOp f.d 1 true, sOp f.a] (some 2)) s k w := by
  show RegRan _ (execScalarPopc f s) _ s k w
  unfold execScalarPopc scalarUn
  exact scalarOp_ran rfl c _ _ _
theorem ran_vectorAdd (f : VBinSatF) (s : State) (k : Nat) (w : Wave) (c : Clear (specH f.h (vbLen f.b) (vOp f.d 1 true :: vOp f.a :: vbOpnds f.b) (some 4)) s k w) :
    RegRan false (exec (.vectorAdd f) s) (specH f.h (vbLen f.b) (vOp f.d 1 true :: vOp f.a :: vbOpnds f.b) (some 4)) s k w := by
  show RegRan _ (execVectorAdd f s) _ s k w
  unfold execVectorAdd vecInt vecBin
  exact laneOp_ran rfl c _ _
theorem ran_vectorSub (f : VBinSatF) (s : State) (k : Nat) (w : Wave) (c : Clear (specH f.h (vbLen f.b) (vOp f.d 1 true :: vOp f.a :: vbOpnds f.b) (some 4)) s k w) :
    RegRan false (exec (.vectorSub f) s) (specH f.h (vbLen f.b) (vOp f.d 1 true :: vOp f.a :: vbOpnds f.b) (some 4)) s k w := by
  show RegRan _ (execVectorSub f s) _ s k w
  unfold execVectorSub vecInt vecBin
  exact laneOp_ran rfl c _ _
theorem ran_vectorMul (f : VBinF) (s : State) (k : Nat) (w : Wave) (c : Clear (specH f.h (vbLen f.b) (vOp f.d 1 true :: vOp f.a :: vbOpnds f.b) (some 6)) s k w) :
    RegRan false (exec (.vectorMul f) s) (specH f.h (vbLen f.b) (vOp f.d 1 true :: vOp f.a :: vbOpnds f.b) (some 6)) s k w := by
  show RegRan _ (execVectorMul f s) _ s k w
  unfold execVectorMul vecInt vecBin
  exact laneOp_ran rfl c _ _
theorem ran_vectorMulhi (f : VBinF) (s : State) (k : Nat) (w : Wave) (c : Clear (specH f.h (vbLen f.b) (vOp f.d 1 true :: vOp f.a :: vbOpnds f.b) (some 6)) s k w) :
    RegRan false (exec (.vectorMulhi f) s) (specH f.h (vbLen f.b) (vOp f.d 1 true :: vOp f.a :: vbOpnds f.b) (some 6)) s k w := by
  show RegRan _ (execVectorMulhi f s) _ s k w
  unfold execVectorMulhi vecInt vecBin
  exact laneOp_ran rfl c _ _
theorem ran_vectorMin (f : VBinF) (s : State) (k : Nat) (w : Wave) (c : Clear (specH f.h (vbLen f.b) (vOp f.d 1 true :: vOp f.a :: vbOpnds f.b) (some 4)) s k w) :
    RegRan false (exec (.vectorMin f) s) (specH f.h (vbLen f.b) (vOp f.d 1 true :: vOp f.a :: vbOpnds f.b) (some 4)) s k w := by
  show RegRan _ (execVectorMin f s) _ s k w
  unfold execVectorMin vecInt vecBin
  exact laneOp_ran rfl c _ _
theorem ran_vectorMax (f : VBinF) (s : State) (k : Nat) (w : Wave) (c : Clear (specH f.h (vbLen f.b) (vOp f.d 1 true :: vOp f.a :: vbOpnds f.b) (some 4)) s k w) :
    RegRan false (exec (.vectorMax f) s) (specH f.h (vbLen f.b) (vOp f.d 1 true :: vOp f.a :: vbOpnds f.b) (some 4)) s k w := by
  show RegRan _ (execVectorMax f s) _ s k w
  unfold execVectorMax vecInt vecBin
  exact laneOp_ran rfl c _ _
theorem ran_vectorAbs (f : VUnSatF) (s : State) (k : Nat) (w : Wave) (c : Clear (specH f.h 8 [vOp f.d 1 true, vOp f.a] (some 4)) s k w) :
    RegRan false (exec (.vectorAbs f) s) (specH f.h 8 [vOp f.d 1 true, vOp f.a] (some 4)) s k w := by
  show RegRan _ (execVectorAbs f s) _ s k w
  unfold execVectorAbs vecUn
  exact laneOp_ran rfl c _ _
theorem ran_vectorNeg (f : VUnSatF) (s : State) (k : Nat) (w : Wave) (c : Clear (specH f.h 8 [vOp f.d 1 true, vOp f.a] (some 4)) s k w) :
    RegRan false (exec (.vectorNeg f) s) (specH f.h 8 [vOp f.d 1 true, vOp f.a] (some 4)) s k w := by
  show RegRan _ (execVectorNeg f s) _ s k w
  unfold execVectorNeg vecUn
  exact laneOp_ran rfl c _ _
theorem ran_vectorAnd (f : VBinF) (s : State) (k : Nat) (w : Wave) (c : Clear (specH f.h (vbLen f.b) (vOp f.d 1 true :: vOp f.a :: vbOpnds f.b) (some 4)) s k w) :
    RegRan false (exec (.vectorAnd f) s) (specH f.h (vbLen f.b) (vOp f.d 1 true :: vOp f.a :: vbOpnds f.b) (some 4)) s k w := by
  show RegRan _ (execVectorAnd f s) _ s k w
  unfold execVectorAnd vecInt vecBin
  exact laneOp_ran rfl c _ _
theorem ran_vectorOr (f : VBinF) (s : State) (k : Nat) (w : Wave) (c : Clear (specH f.h (vbLen f.b) (vOp f.d 1 true :: vOp f.a :: vbOpnds f.b) (some 4)) s k w) :
    RegRan false (exec (.vectorOr f) s) (specH f.h (vbLen f.b) (vOp f.d 1 true :: vOp f.a :: vbOpnds f.b) (some 4)) s k w := by
  show RegRan _ (execVectorOr f s) _ s k w
  unfold execVectorOr vecInt vecBin
  exact laneOp_ran rfl c _ _
theorem ran_vectorXor (f : VBinF) (s : State) (k : Nat) (w : Wave) (c : Clear (specH f.h (vbLen f.b) (vOp f.d 1 true :: vOp f.a :: vbOpnds f.b) (some 4)) s k w) :
    RegRan false (exec (.vectorXor f) s) (specH f.h (vbLen f.b) (vOp f.d 1 true :: vOp f.a :: vbOpnds f.b) (some 4)) s k w := by
  show RegRan _ (execVectorXor f s) _ s k w
  unfold execVectorXor vecInt vecBin
  exact laneOp_ran rfl c _ _
theorem ran_vectorNot (f : VUnF) (s : State) (k : Nat) (w : Wave) (c : Clear (specH f.h 8 [vOp f.d 1 true, vOp f.a] (some 4)) s k w) :
    RegRan false (exec (.vectorNot f) s) (specH f.h 8 [vOp f.d 1 true, vOp f.a] (some 4)) s k w := by
  show RegRan _ (execVectorNot f s) _ s k w
  unfold execVectorNot vecUn
  exact laneOp_ran rfl c _ _
theorem ran_vectorShl (f : VBinF) (s : State) (k : Nat) (w : Wave) (c : Clear (specH f.h (vbLen f.b) (vOp f.d 1 true :: vOp f.a :: vbOpnds f.b) (some 4)) s k w) :
    RegRan false (exec (.vectorShl f) s) (specH f.h (vbLen f.b) (vOp f.d 1 true :: vOp f.a :: vbOpnds f.b) (some 4)) s k w := by
  show RegRan _ (execVectorShl f s) _ s k w
  unfold execVectorShl vecInt vecBin
  exact laneOp_ran rfl c _ _
theorem ran_vectorShr (f : VBinF) (s : State) (k : Nat) (w : Wave) (c : Clear (specH f.h (vbLen f.b) (vOp f.d 1 true :: vOp f.a :: vbOpnds f.b) (some 4)) s k w) :
    RegRan false (exec (.vectorShr f) s) (specH f.h (vbLen f.b) (vOp f.d 1 true :: vOp f.a :: vbOpnds f.b) (some 4)) s k w := by
  show RegRan _ (execVectorShr f s) _ s k w
  unfold execVectorShr vecInt vecBin
  exact laneOp_ran rfl c _ _
theorem ran_vectorCmp (f : VCmpF) (s : State) (k : Nat) (w : Wave) (c : Clear (specH f.h (vbLen f.b) (mOp f.d true :: vOp f.a :: vbOpnds f.b) (some 4)) s k w) :
    RegRan false (exec (.vectorCmp f) s) (specH f.h (vbLen f.b) (mOp f.d true :: vOp f.a :: vbOpnds f.b) (some 4)) s k w := by
  show RegRan _ (execVectorCmp f s) _ s k w
  unfold execVectorCmp vecCmp
  exact onWave_ran c _ _ (regDone_wrM _ _ _ _ _ (mem_dests (k := 0) (o := mOp f.d true) (List.mem_cons_self) rfl Nat.one_pos))
theorem ran_vectorSel (f : VSelF) (s : State) (k : Nat) (w : Wave) (c : Clear (specH f.h (vbLen f.b) (vOp f.d 1 true :: (vOp f.a :: vbOpnds f.b ++ [mOp3 f.c])) (some 4)) s k w) :
    RegRan false (exec (.vectorSel f) s) (specH f.h (vbLen f.b) (vOp f.d 1 true :: (vOp f.a :: vbOpnds f.b ++ [mOp3 f.c])) (some 4)) s k w := by
  show RegRan _ (execVectorSel f s) _ s k w
  unfold execVectorSel 
  exact laneOp_ran rfl c _ _
theorem ran_vectorMov (f : VMovF) (s : State) (k : Nat) (w : Wave) (c : Clear (specH f.h (vbLen f.b) (vOp f.d 1 true :: vbOpnds f.b) (some 4)) s k w) :
    RegRan false (exec (.vectorMov f) s) (specH f.h (vbLen f.b) (vOp f.d 1 true :: vbOpnds f.b) (some 4)) s k w := by
  show RegRan _ (execVectorMov f s) _ s k w
  unfold execVectorMov 
  exact laneOp_ran rfl c _ _
theorem ran_vectorClz (f : VUnF) (s : State) (k : Nat) (w : Wave) (c : Clear (specH f.h 8 [vOp f.d 1 true, vOp f.a] (some 4)) s k w) :
    RegRan false (exec (.vectorClz f) s) (specH f.h 8 [vOp f.d 1 true, vOp f.a] (some 4)) s k w := by
  show RegRan _ (execVectorClz f s) _ s k w
  unfold execVectorClz vecUn
  exact laneOp_ran rfl c _ _
theorem ran_vectorPopc (f : VUnF) (s : State) (k : Nat) (w : Wave) (c : Clear (specH f.h 8 [vOp f.d 1 true, vOp f.a] (some 4)) s k w) :
    RegRan false (exec (.vectorPopc f) s) (specH f.h 8 [vOp f.d 1 true, vOp f.a] (some 4)) s k w := by
  show RegRan _ (execVectorPopc f s) _ s k w
  unfold execVectorPopc vecUn
  exact laneOp_ran rfl c _ _
theorem ran_brev (f : VUnF) (s : State) (k : Nat) (w : Wave) (c : Clear (specH f.h 8 [vOp f.d 1 true, vOp f.a] (some 4)) s k w) :
    RegRan false (exec (.brev f) s) (specH f.h 8 [vOp f.d 1 true, vOp f.a] (some 4)) s k w := by
  show RegRan _ (execBrev f s) _ s k w
  unfold execBrev vecUn
  exact laneOp_ran rfl c _ _
theorem ran_bfe (f : VBinF) (s : State) (k : Nat) (w : Wave) (c : Clear (specH f.h (vbLen f.b) (vOp f.d 1 true :: vOp f.a :: vbOpnds f.b) (some 4)) s k w) :
    RegRan false (exec (.bfe f) s) (specH f.h (vbLen f.b) (vOp f.d 1 true :: vOp f.a :: vbOpnds f.b) (some 4)) s k w := by
  show RegRan _ (execBfe f s) _ s k w
  unfold execBfe vecInt vecBin
  exact laneOp_ran rfl c _ _
theorem ran_madI32 (f : MadF) (s : State) (k : Nat) (w : Wave) (c : Clear (specH f.h 8 [vOp f.d 1 true, vOp f.a, if f.bs then sOp f.b else vOp f.b, vOp f.c] (some 6)) s k w) :
    RegRan false (exec (.madI32 f) s) (specH f.h 8 [vOp f.d 1 true, vOp f.a, if f.bs then sOp f.b else vOp f.b, vOp f.c] (some 6)) s k w := by
  show RegRan _ (execMadI32 f s) _ s k w
  unfold execMadI32 vecMad
  exact laneOp_ran rfl c _ _
theorem ran_madN32 (f : MadF) (s : State) (k : Nat) (w : Wave) (c : Clear (specH f.h 8 [vOp f.d 1 true, vOp f.a, if f.bs then sOp f.b else vOp f.b, vOp f.c] (some 6)) s k w) :
    RegRan false (exec (.madN32 f) s) (specH f.h 8 [vOp f.d 1 true, vOp f.a, if f.bs then sOp f.b else vOp f.b, vOp f.c] (some 6)) s k w := by
  show RegRan _ (execMadN32 f s) _ s k w
  unfold execMadN32 vecMad
  exact laneOp_ran rfl c _ _
theorem ran_madI64 (f : MadF) (s : State) (k : Nat) (w : Wave) (c : Clear (specH f.h 8 [vOp f.d 1 true, vOp f.a, if f.bs then sOp f.b else vOp f.b, vOp f.c] (some 6)) s k w) :
    RegRan false (exec (.madI64 f) s) (specH f.h 8 [vOp f.d 1 true, vOp f.a, if f.bs then sOp f.b else vOp f.b, vOp f.c] (some 6)) s k w := by
  show RegRan _ (execMadI64 f s) _ s k w
  unfold execMadI64 vecMad
  exact laneOp_ran rfl c _ _
theorem ran_madN64 (f : MadF) (s : State) (k : Nat) (w : Wave) (c : Clear (specH f.h 8 [vOp f.d 1 true, vOp f.a, if f.bs then sOp f.b else vOp f.b, vOp f.c] (some 6)) s k w) :
    RegRan false (exec (.madN64 f) s) (specH f.h 8 [vOp f.d 1 true, vOp f.a, if f.bs then sOp f.b else vOp f.b, vOp f.c] (some 6)) s k w := by
  show RegRan _ (execMadN64 f s) _ s k w
  unfold execMadN64 vecMad
  exact laneOp_ran rfl c _ _
theorem ran_fpAdd (f : FBinF) (s : State) (k : Nat) (w : Wave) (c : Clear (specH f.h (vbLen f.b) (vOp f.d 1 true :: vOp f.a :: vbOpnds f.b) (fpLat f.ty)) s k w) :
    RegRan false (exec (.fpAdd f) s) (specH f.h (vbLen f.b) (vOp f.d 1 true :: vOp f.a :: vbOpnds f.b) (fpLat f.ty)) s k w := by
  show RegRan _ (execFpAdd f s) _ s k w
  unfold execFpAdd vecFp vecBin
  exact laneOp_ran rfl c _ _
theorem ran_fpSub (f : FBinF) (s : State) (k : Nat) (w : Wave) (c : Clear (specH f.h (vbLen f.b) (vOp f.d 1 true :: vOp f.a :: vbOpnds f.b) (fpLat f.ty)) s k w) :
    RegRan false (exec (.fpSub f) s) (specH f.h (vbLen f.b) (vOp f.d 1 true :: vOp f.a :: vbOpnds f.b) (fpLat f.ty)) s k w := by
  show RegRan _ (execFpSub f s) _ s k w
  unfold execFpSub vecFp vecBin
  exact laneOp_ran rfl c _ _
theorem ran_fpMul (f : FBinF) (s : State) (k : Nat) (w : Wave) (c : Clear (specH f.h (vbLen f.b) (vOp f.d 1 true :: vOp f.a :: vbOpnds f.b) (fpLat f.ty)) s k w) :
    RegRan false (exec (.fpMul f) s) (specH f.h (vbLen f.b) (vOp f.d 1 true :: vOp f.a :: vbOpnds f.b) (fpLat f.ty)) s k w := by
  show RegRan _ (execFpMul f s) _ s k w
  unfold execFpMul vecFp vecBin
  exact laneOp_ran rfl c _ _
theorem ran_fpMin (f : VBinF) (s : State) (k : Nat) (w : Wave) (c : Clear (specH f.h (vbLen f.b) (vOp f.d 1 true :: vOp f.a :: vbOpnds f.b) (some 4)) s k w) :
    RegRan false (exec (.fpMin f) s) (specH f.h (vbLen f.b) (vOp f.d 1 true :: vOp f.a :: vbOpnds f.b) (some 4)) s k w := by
  show RegRan _ (execFpMin f s) _ s k w
  unfold execFpMin vecFp vecBin
  exact laneOp_ran rfl c _ _
theorem ran_fpMax (f : VBinF) (s : State) (k : Nat) (w : Wave) (c : Clear (specH f.h (vbLen f.b) (vOp f.d 1 true :: vOp f.a :: vbOpnds f.b) (some 4)) s k w) :
    RegRan false (exec (.fpMax f) s) (specH f.h (vbLen f.b) (vOp f.d 1 true :: vOp f.a :: vbOpnds f.b) (some 4)) s k w := by
  show RegRan _ (execFpMax f s) _ s k w
  unfold execFpMax vecFp vecBin
  exact laneOp_ran rfl c _ _
theorem ran_fpAbs (f : VUnF) (s : State) (k : Nat) (w : Wave) (c : Clear (specH f.h 8 [vOp f.d 1 true, vOp f.a] (some 4)) s k w) :
    RegRan false (exec (.fpAbs f) s) (specH f.h 8 [vOp f.d 1 true, vOp f.a] (some 4)) s k w := by
  show RegRan _ (execFpAbs f s) _ s k w
  unfold execFpAbs vecUn
  exact laneOp_ran rfl c _ _
theorem ran_fpNeg (f : VUnF) (s : State) (k : Nat) (w : Wave) (c : Clear (specH f.h 8 [vOp f.d 1 true, vOp f.a] (some 4)) s k w) :
    RegRan false (exec (.fpNeg f) s) (specH f.h 8 [vOp f.d 1 true, vOp f.a] (some 4)) s k w := by
  show RegRan _ (execFpNeg f s) _ s k w
  unfold execFpNeg vecUn
  exact laneOp_ran rfl c _ _
theorem ran_fpCmp (f : VCmpF) (s : State) (k : Nat) (w : Wave) (c : Clear (specH f.h (vbLen f.b) (mOp f.d true :: vOp f.a :: vbOpnds f.b) (some 4)) s k w) :
    RegRan false (exec (.fpCmp f) s) (specH f.h (vbLen f.b) (mOp f.d true :: vOp f.a :: vbOpnds f.b) (some 4)) s k w := by
  show RegRan _ (execFpCmp f s) _ s k w
  unfold execFpCmp vecCmp
  exact onWave_ran c _ _ (regDone_wrM _ _ _ _ _ (mem_dests (k := 0) (o := mOp f.d true) (List.mem_cons_self) rfl Nat.one_pos))
theorem ran_rint (f : FUnRF) (s : State) (k : Nat) (w : Wave) (c : Clear (specH f.h 8 [vOp f.d 1 true, vOp f.a] (fpLat f.ty)) s k w) :
    RegRan false (exec (.rint f) s) (specH f.h 8 [vOp f.d 1 true, vOp f.a] (fpLat f.ty)) s k w := by
  show RegRan _ (execRint f s) _ s k w
  unfold execRint vecUn
  exact laneOp_ran rfl c _ _
theorem ran_copysign (f : VBinF) (s : State) (k : Nat) (w : Wave) (c : Clear (specH f.h (vbLen f.b) (vOp f.d 1 true :: vOp f.a :: vbOpnds f.b) (some 4)) s k w) :
    RegRan false (exec (.copysign f) s) (specH f.h (vbLen f.b) (vOp f.d 1 true :: vOp f.a :: vbOpnds f.b) (some 4)) s k w := by
  show RegRan _ (execCopysign f s) _ s k w
  unfold execCopysign vecFp vecBin
  exact laneOp_ran rfl c _ _
theorem ran_fclass (f : VUnF) (s : State) (k : Nat) (w : Wave) (c : Clear (specH f.h 8 [vOp f.d 1 true, vOp f.a] (some 4)) s k w) :
    RegRan false (exec (.fclass f) s) (specH f.h 8 [vOp f.d 1 true, vOp f.a] (some 4)) s k w := by
  show RegRan _ (execFclass f s) _ s k w
  unfold execFclass vecUn
  exact laneOp_ran rfl c _ _
theorem ran_ldexp (f : FBinF) (s : State) (k : Nat) (w : Wave) (c : Clear (specH f.h (vbLen f.b) (vOp f.d 1 true :: vOp f.a :: vbOpnds f.b) (fpLat f.ty)) s k w) :
    RegRan false (exec (.ldexp f) s) (specH f.h (vbLen f.b) (vOp f.d 1 true :: vOp f.a :: vbOpnds f.b) (fpLat f.ty)) s k w := by
  show RegRan _ (execLdexp f s) _ s k w
  unfold execLdexp 
  exact laneOp_ran rfl c _ _
theorem ran_fmaF64 (f : MadF) (s : State) (k : Nat) (w : Wave) (c : Clear (specH f.h 8 [vOp f.d 1 true, vOp f.a, if f.bs then sOp f.b else vOp f.b, vOp f.c] (fpLat .f64)) s k w) :
    RegRan false (exec (.fmaF64 f) s) (specH f.h 8 [vOp f.d 1 true, vOp f.a, if f.bs then sOp f.b else vOp f.b, vOp f.c] (fpLat .f64)) s k w := by
  show RegRan _ (execFmaF64 f s) _ s k w
  unfold execFmaF64 vecFma
  exact laneOp_ran rfl c _ _
theorem ran_fmaF32 (f : MadF) (s : State) (k : Nat) (w : Wave) (c : Clear (specH f.h 8 [vOp f.d 1 true, vOp f.a, if f.bs then sOp f.b else vOp f.b, vOp f.c] (fpLat .f32)) s k w) :
    RegRan false (exec (.fmaF32 f) s) (specH f.h 8 [vOp f.d 1 true, vOp f.a, if f.bs then sOp f.b else vOp f.b, vOp f.c] (fpLat .f32)) s k w := by
  show RegRan _ (execFmaF32 f s) _ s k w
  unfold execFmaF32 vecFma
  exact laneOp_ran rfl c _ _
theorem ran_fmaF16 (f : MadF) (s : State) (k : Nat) (w : Wave) (c : Clear (specH f.h 8 [vOp f.d 1 true, vOp f.a, if f.bs then sOp f.b else vOp f.b, vOp f.c] (fpLat .f16)) s k w) :
    RegRan false (exec (.fmaF16 f) s) (specH f.h 8 [vOp f.d 1 true, vOp f.a, if f.bs then sOp f.b else vOp f.b, vOp f.c] (fpLat .f16)) s k w := by
  show RegRan _ (execFmaF16 f s) _ s k w
  unfold execFmaF16 vecFma
  exact laneOp_ran rfl c _ _
theorem ran_fmaBf16 (f : MadF) (s : State) (k : Nat) (w : Wave) (c : Clear (specH f.h 8 [vOp f.d 1 true, vOp f.a, if f.bs then sOp f.b else vOp f.b, vOp f.c] (fpLat .bf16)) s k w) :
    RegRan false (exec (.fmaBf16 f) s) (specH f.h 8 [vOp f.d 1 true, vOp f.a, if f.bs then sOp f.b else vOp f.b, vOp f.c] (fpLat .bf16)) s k w := by
  show RegRan _ (execFmaBf16 f s) _ s k w
  unfold execFmaBf16 vecFma
  exact laneOp_ran rfl c _ _
theorem ran_fnmaF64 (f : MadF) (s : State) (k : Nat) (w : Wave) (c : Clear (specH f.h 8 [vOp f.d 1 true, vOp f.a, if f.bs then sOp f.b else vOp f.b, vOp f.c] (fpLat .f64)) s k w) :
    RegRan false (exec (.fnmaF64 f) s) (specH f.h 8 [vOp f.d 1 true, vOp f.a, if f.bs then sOp f.b else vOp f.b, vOp f.c] (fpLat .f64)) s k w := by
  show RegRan _ (execFnmaF64 f s) _ s k w
  unfold execFnmaF64 vecFma
  exact laneOp_ran rfl c _ _
theorem ran_fnmaF32 (f : MadF) (s : State) (k : Nat) (w : Wave) (c : Clear (specH f.h 8 [vOp f.d 1 true, vOp f.a, if f.bs then sOp f.b else vOp f.b, vOp f.c] (fpLat .f32)) s k w) :
    RegRan false (exec (.fnmaF32 f) s) (specH f.h 8 [vOp f.d 1 true, vOp f.a, if f.bs then sOp f.b else vOp f.b, vOp f.c] (fpLat .f32)) s k w := by
  show RegRan _ (execFnmaF32 f s) _ s k w
  unfold execFnmaF32 vecFma
  exact laneOp_ran rfl c _ _
theorem ran_fnmaF16 (f : MadF) (s : State) (k : Nat) (w : Wave) (c : Clear (specH f.h 8 [vOp f.d 1 true, vOp f.a, if f.bs then sOp f.b else vOp f.b, vOp f.c] (fpLat .f16)) s k w) :
    RegRan false (exec (.fnmaF16 f) s) (specH f.h 8 [vOp f.d 1 true, vOp f.a, if f.bs then sOp f.b else vOp f.b, vOp f.c] (fpLat .f16)) s k w := by
  show RegRan _ (execFnmaF16 f s) _ s k w
  unfold execFnmaF16 vecFma
  exact laneOp_ran rfl c _ _
theorem ran_fnmaBf16 (f : MadF) (s : State) (k : Nat) (w : Wave) (c : Clear (specH f.h 8 [vOp f.d 1 true, vOp f.a, if f.bs then sOp f.b else vOp f.b, vOp f.c] (fpLat .bf16)) s k w) :
    RegRan false (exec (.fnmaBf16 f) s) (specH f.h 8 [vOp f.d 1 true, vOp f.a, if f.bs then sOp f.b else vOp f.b, vOp f.c] (fpLat .bf16)) s k w := by
  show RegRan _ (execFnmaBf16 f s) _ s k w
  unfold execFnmaBf16 vecFma
  exact laneOp_ran rfl c _ _
theorem ran_cvt (f : CvtF) (s : State) (k : Nat) (w : Wave) (c : Clear (specH f.h 8 [vOp f.d 1 true, vOp f.a] (some 6)) s k w) :
    RegRan false (exec (.cvt f) s) (specH f.h 8 [vOp f.d 1 true, vOp f.a] (some 6)) s k w := by
  show RegRan _ (execCvt f s) _ s k w
  unfold execCvt 
  exact laneOp_ran rfl c _ _
theorem ran_pack (f : CvtF) (s : State) (k : Nat) (w : Wave) (c : Clear (specH f.h 8 [vOp f.d 1 true, vOp f.a (f.src.width / f.dst.width)] (some 6)) s k w) :
    RegRan false (exec (.pack f) s) (specH f.h 8 [vOp f.d 1 true, vOp f.a (f.src.width / f.dst.width)] (some 6)) s k w := by
  show RegRan _ (execPack f s) _ s k w
  unfold execPack 
  exact onWave_ran c _ _ (regDone_wrLanes _ _ _ _ _ _ (mem_dests (k := 0) (o := vOp f.d 1 true) (List.mem_cons_self) rfl Nat.one_pos))
theorem ran_unpack (f : CvtF) (s : State) (k : Nat) (w : Wave) (c : Clear (specH f.h 8 [vOp f.d (f.dst.width / f.src.width) true, vOp f.a] (some 6)) s k w) :
    RegRan false (exec (.unpack f) s) (specH f.h 8 [vOp f.d (f.dst.width / f.src.width) true, vOp f.a] (some 6)) s k w := by
  show RegRan _ (execUnpack f s) _ s k w
  unfold execUnpack 
  exact onWave_ran c _ _ (regDone_wrSpan _ _ _ _ _ _ _ (fun k hk => mem_dests (k := k) (o := vOp f.d (f.dst.width / f.src.width) true) List.mem_cons_self rfl hk))
theorem ran_cbDec (f : CbDecF) (s : State) (k : Nat) (w : Wave) (c : Clear (specH f.h 8 [vOp f.d 4 true, vOp f.a] (some 6)) s k w) :
    RegRan false (exec (.cbDec f) s) (specH f.h 8 [vOp f.d 4 true, vOp f.a] (some 6)) s k w := by
  show RegRan _ (execCbDec f s) _ s k w
  unfold execCbDec 
  exact onWave_ran c _ _ (regDone_wrSpan _ _ _ _ _ _ _ (fun k hk => mem_dests (k := k) (o := vOp f.d 4 true) List.mem_cons_self rfl hk))
theorem ran_xlVote (f : XlVoteF) (s : State) (k : Nat) (w : Wave) (c : Clear (specH f.h 8 [sOp f.d 1 true, mOp f.a] (some 4)) s k w) :
    RegRan false (exec (.xlVote f) s) (specH f.h 8 [sOp f.d 1 true, mOp f.a] (some 4)) s k w := by
  show RegRan _ (execXlVote f s) _ s k w
  unfold execXlVote 
  exact whenActive_ran c _ _ _ (regDone_wrS _ _ _ _ _ (mem_dests (k := 0) (o := sOp f.d 1 true) (List.mem_cons_self) rfl Nat.one_pos))
theorem ran_xlAny (f : XlVoteF) (s : State) (k : Nat) (w : Wave) (c : Clear (specH f.h 8 [mOp f.d true, mOp f.a] (some 4)) s k w) :
    RegRan false (exec (.xlAny f) s) (specH f.h 8 [mOp f.d true, mOp f.a] (some 4)) s k w := by
  show RegRan _ (execXlAny f s) _ s k w
  unfold execXlAny 
  exact whenActive_ran c _ _ _ (regDone_wrM _ _ _ _ _ (mem_dests (k := 0) (o := mOp f.d true) (List.mem_cons_self) rfl Nat.one_pos))
theorem ran_xlAll (f : XlVoteF) (s : State) (k : Nat) (w : Wave) (c : Clear (specH f.h 8 [mOp f.d true, mOp f.a] (some 4)) s k w) :
    RegRan false (exec (.xlAll f) s) (specH f.h 8 [mOp f.d true, mOp f.a] (some 4)) s k w := by
  show RegRan _ (execXlAll f s) _ s k w
  unfold execXlAll 
  exact whenActive_ran c _ _ _ (regDone_wrM _ _ _ _ _ (mem_dests (k := 0) (o := mOp f.d true) (List.mem_cons_self) rfl Nat.one_pos))
theorem ran_redLaneAdd (f : RedAddF) (s : State) (k : Nat) (w : Wave) (c : Clear (specH f.h 8 [sOp f.d 1 true, vOp f.a] (some 16)) s k w) :
    RegRan false (exec (.redLaneAdd f) s) (specH f.h 8 [sOp f.d 1 true, vOp f.a] (some 16)) s k w := by
  show RegRan _ (execRedLaneAdd f s) _ s k w
  unfold execRedLaneAdd redLane
  exact whenActive_ran c _ _ _ (regDone_wrS _ _ _ _ _ (mem_dests (k := 0) (o := sOp f.d 1 true) (List.mem_cons_self) rfl Nat.one_pos))
theorem ran_redLaneMin (f : VUnF) (s : State) (k : Nat) (w : Wave) (c : Clear (specH f.h 8 [sOp f.d 1 true, vOp f.a] (some 16)) s k w) :
    RegRan false (exec (.redLaneMin f) s) (specH f.h 8 [sOp f.d 1 true, vOp f.a] (some 16)) s k w := by
  show RegRan _ (execRedLaneMin f s) _ s k w
  unfold execRedLaneMin redLane
  exact whenActive_ran c _ _ _ (regDone_wrS _ _ _ _ _ (mem_dests (k := 0) (o := sOp f.d 1 true) (List.mem_cons_self) rfl Nat.one_pos))
theorem ran_redLaneMax (f : VUnF) (s : State) (k : Nat) (w : Wave) (c : Clear (specH f.h 8 [sOp f.d 1 true, vOp f.a] (some 16)) s k w) :
    RegRan false (exec (.redLaneMax f) s) (specH f.h 8 [sOp f.d 1 true, vOp f.a] (some 16)) s k w := by
  show RegRan _ (execRedLaneMax f s) _ s k w
  unfold execRedLaneMax redLane
  exact whenActive_ran c _ _ _ (regDone_wrS _ _ _ _ _ (mem_dests (k := 0) (o := sOp f.d 1 true) (List.mem_cons_self) rfl Nat.one_pos))
theorem ran_redLaneAnd (f : VUnF) (s : State) (k : Nat) (w : Wave) (c : Clear (specH f.h 8 [sOp f.d 1 true, vOp f.a] (some 16)) s k w) :
    RegRan false (exec (.redLaneAnd f) s) (specH f.h 8 [sOp f.d 1 true, vOp f.a] (some 16)) s k w := by
  show RegRan _ (execRedLaneAnd f s) _ s k w
  unfold execRedLaneAnd redLane
  exact whenActive_ran c _ _ _ (regDone_wrS _ _ _ _ _ (mem_dests (k := 0) (o := sOp f.d 1 true) (List.mem_cons_self) rfl Nat.one_pos))
theorem ran_redLaneOr (f : VUnF) (s : State) (k : Nat) (w : Wave) (c : Clear (specH f.h 8 [sOp f.d 1 true, vOp f.a] (some 16)) s k w) :
    RegRan false (exec (.redLaneOr f) s) (specH f.h 8 [sOp f.d 1 true, vOp f.a] (some 16)) s k w := by
  show RegRan _ (execRedLaneOr f s) _ s k w
  unfold execRedLaneOr redLane
  exact whenActive_ran c _ _ _ (regDone_wrS _ _ _ _ _ (mem_dests (k := 0) (o := sOp f.d 1 true) (List.mem_cons_self) rfl Nat.one_pos))
theorem ran_redLaneXor (f : VUnF) (s : State) (k : Nat) (w : Wave) (c : Clear (specH f.h 8 [sOp f.d 1 true, vOp f.a] (some 16)) s k w) :
    RegRan false (exec (.redLaneXor f) s) (specH f.h 8 [sOp f.d 1 true, vOp f.a] (some 16)) s k w := by
  show RegRan _ (execRedLaneXor f s) _ s k w
  unfold execRedLaneXor redLane
  exact whenActive_ran c _ _ _ (regDone_wrS _ _ _ _ _ (mem_dests (k := 0) (o := sOp f.d 1 true) (List.mem_cons_self) rfl Nat.one_pos))
theorem ran_scanLaneAdd (f : RedAddF) (s : State) (k : Nat) (w : Wave) (c : Clear (specH f.h 8 [vOp f.d 1 true, vOp f.a] (some 16)) s k w) :
    RegRan false (exec (.scanLaneAdd f) s) (specH f.h 8 [vOp f.d 1 true, vOp f.a] (some 16)) s k w := by
  show RegRan _ (execScanLaneAdd f s) _ s k w
  unfold execScanLaneAdd scanLane
  exact onWave_ran c _ _ (regDone_wrLanes _ _ _ _ _ _ (mem_dests (k := 0) (o := vOp f.d 1 true) (List.mem_cons_self) rfl Nat.one_pos))
theorem ran_scanLaneMin (f : VUnF) (s : State) (k : Nat) (w : Wave) (c : Clear (specH f.h 8 [vOp f.d 1 true, vOp f.a] (some 16)) s k w) :
    RegRan false (exec (.scanLaneMin f) s) (specH f.h 8 [vOp f.d 1 true, vOp f.a] (some 16)) s k w := by
  show RegRan _ (execScanLaneMin f s) _ s k w
  unfold execScanLaneMin scanLane
  exact onWave_ran c _ _ (regDone_wrLanes _ _ _ _ _ _ (mem_dests (k := 0) (o := vOp f.d 1 true) (List.mem_cons_self) rfl Nat.one_pos))
theorem ran_scanLaneMax (f : VUnF) (s : State) (k : Nat) (w : Wave) (c : Clear (specH f.h 8 [vOp f.d 1 true, vOp f.a] (some 16)) s k w) :
    RegRan false (exec (.scanLaneMax f) s) (specH f.h 8 [vOp f.d 1 true, vOp f.a] (some 16)) s k w := by
  show RegRan _ (execScanLaneMax f s) _ s k w
  unfold execScanLaneMax scanLane
  exact onWave_ran c _ _ (regDone_wrLanes _ _ _ _ _ _ (mem_dests (k := 0) (o := vOp f.d 1 true) (List.mem_cons_self) rfl Nat.one_pos))
theorem ran_scanLaneAnd (f : VUnF) (s : State) (k : Nat) (w : Wave) (c : Clear (specH f.h 8 [vOp f.d 1 true, vOp f.a] (some 16)) s k w) :
    RegRan false (exec (.scanLaneAnd f) s) (specH f.h 8 [vOp f.d 1 true, vOp f.a] (some 16)) s k w := by
  show RegRan _ (execScanLaneAnd f s) _ s k w
  unfold execScanLaneAnd scanLane
  exact onWave_ran c _ _ (regDone_wrLanes _ _ _ _ _ _ (mem_dests (k := 0) (o := vOp f.d 1 true) (List.mem_cons_self) rfl Nat.one_pos))
theorem ran_scanLaneOr (f : VUnF) (s : State) (k : Nat) (w : Wave) (c : Clear (specH f.h 8 [vOp f.d 1 true, vOp f.a] (some 16)) s k w) :
    RegRan false (exec (.scanLaneOr f) s) (specH f.h 8 [vOp f.d 1 true, vOp f.a] (some 16)) s k w := by
  show RegRan _ (execScanLaneOr f s) _ s k w
  unfold execScanLaneOr scanLane
  exact onWave_ran c _ _ (regDone_wrLanes _ _ _ _ _ _ (mem_dests (k := 0) (o := vOp f.d 1 true) (List.mem_cons_self) rfl Nat.one_pos))
theorem ran_scanLaneXor (f : VUnF) (s : State) (k : Nat) (w : Wave) (c : Clear (specH f.h 8 [vOp f.d 1 true, vOp f.a] (some 16)) s k w) :
    RegRan false (exec (.scanLaneXor f) s) (specH f.h 8 [vOp f.d 1 true, vOp f.a] (some 16)) s k w := by
  show RegRan _ (execScanLaneXor f s) _ s k w
  unfold execScanLaneXor scanLane
  exact onWave_ran c _ _ (regDone_wrLanes _ _ _ _ _ _ (mem_dests (k := 0) (o := vOp f.d 1 true) (List.mem_cons_self) rfl Nat.one_pos))
theorem ran_scanLaneAddEx (f : RedAddF) (s : State) (k : Nat) (w : Wave) (c : Clear (specH f.h 8 [vOp f.d 1 true, vOp f.a] (some 16)) s k w) :
    RegRan false (exec (.scanLaneAddEx f) s) (specH f.h 8 [vOp f.d 1 true, vOp f.a] (some 16)) s k w := by
  show RegRan _ (execScanLaneAddEx f s) _ s k w
  unfold execScanLaneAddEx scanLane
  exact onWave_ran c _ _ (regDone_wrLanes _ _ _ _ _ _ (mem_dests (k := 0) (o := vOp f.d 1 true) (List.mem_cons_self) rfl Nat.one_pos))
theorem ran_scanLaneMinEx (f : VUnF) (s : State) (k : Nat) (w : Wave) (c : Clear (specH f.h 8 [vOp f.d 1 true, vOp f.a] (some 16)) s k w) :
    RegRan false (exec (.scanLaneMinEx f) s) (specH f.h 8 [vOp f.d 1 true, vOp f.a] (some 16)) s k w := by
  show RegRan _ (execScanLaneMinEx f s) _ s k w
  unfold execScanLaneMinEx scanLane
  exact onWave_ran c _ _ (regDone_wrLanes _ _ _ _ _ _ (mem_dests (k := 0) (o := vOp f.d 1 true) (List.mem_cons_self) rfl Nat.one_pos))
theorem ran_scanLaneMaxEx (f : VUnF) (s : State) (k : Nat) (w : Wave) (c : Clear (specH f.h 8 [vOp f.d 1 true, vOp f.a] (some 16)) s k w) :
    RegRan false (exec (.scanLaneMaxEx f) s) (specH f.h 8 [vOp f.d 1 true, vOp f.a] (some 16)) s k w := by
  show RegRan _ (execScanLaneMaxEx f s) _ s k w
  unfold execScanLaneMaxEx scanLane
  exact onWave_ran c _ _ (regDone_wrLanes _ _ _ _ _ _ (mem_dests (k := 0) (o := vOp f.d 1 true) (List.mem_cons_self) rfl Nat.one_pos))
theorem ran_scanLaneAndEx (f : VUnF) (s : State) (k : Nat) (w : Wave) (c : Clear (specH f.h 8 [vOp f.d 1 true, vOp f.a] (some 16)) s k w) :
    RegRan false (exec (.scanLaneAndEx f) s) (specH f.h 8 [vOp f.d 1 true, vOp f.a] (some 16)) s k w := by
  show RegRan _ (execScanLaneAndEx f s) _ s k w
  unfold execScanLaneAndEx scanLane
  exact onWave_ran c _ _ (regDone_wrLanes _ _ _ _ _ _ (mem_dests (k := 0) (o := vOp f.d 1 true) (List.mem_cons_self) rfl Nat.one_pos))
theorem ran_scanLaneOrEx (f : VUnF) (s : State) (k : Nat) (w : Wave) (c : Clear (specH f.h 8 [vOp f.d 1 true, vOp f.a] (some 16)) s k w) :
    RegRan false (exec (.scanLaneOrEx f) s) (specH f.h 8 [vOp f.d 1 true, vOp f.a] (some 16)) s k w := by
  show RegRan _ (execScanLaneOrEx f s) _ s k w
  unfold execScanLaneOrEx scanLane
  exact onWave_ran c _ _ (regDone_wrLanes _ _ _ _ _ _ (mem_dests (k := 0) (o := vOp f.d 1 true) (List.mem_cons_self) rfl Nat.one_pos))
theorem ran_scanLaneXorEx (f : VUnF) (s : State) (k : Nat) (w : Wave) (c : Clear (specH f.h 8 [vOp f.d 1 true, vOp f.a] (some 16)) s k w) :
    RegRan false (exec (.scanLaneXorEx f) s) (specH f.h 8 [vOp f.d 1 true, vOp f.a] (some 16)) s k w := by
  show RegRan _ (execScanLaneXorEx f s) _ s k w
  unfold execScanLaneXorEx scanLane
  exact onWave_ran c _ _ (regDone_wrLanes _ _ _ _ _ _ (mem_dests (k := 0) (o := vOp f.d 1 true) (List.mem_cons_self) rfl Nat.one_pos))
theorem ran_xaClr (f : XaClrF) (s : State) (k : Nat) (w : Wave) (c : Clear (specH f.h 8 [] (some 1)) s k w) :
    RegRan true (exec (.xaClr f) s) (specH f.h 8 [] (some 1)) s k w := by
  show RegRan _ (execXaClr f s) _ s k w
  unfold execXaClr 
  exact whenActive_ran c _ _ _ (regDone_xa ..)
theorem ran_xaAdd (f : XaAddF) (s : State) (k : Nat) (w : Wave) (c : Clear (specH f.h 8 [vOp f.a] (some 1)) s k w) :
    RegRan true (exec (.xaAdd f) s) (specH f.h 8 [vOp f.a] (some 1)) s k w := by
  show RegRan _ (execXaAdd f s) _ s k w
  unfold execXaAdd 
  exact whenActive_ran c _ _ _ (regDone_xa ..)
theorem ran_xaMac (f : XaMacF) (s : State) (k : Nat) (w : Wave) (c : Clear (specH f.h 8 [vOp f.a, vOp f.b] (some 1)) s k w) :
    RegRan true (exec (.xaMac f) s) (specH f.h 8 [vOp f.a, vOp f.b] (some 1)) s k w := by
  show RegRan _ (execXaMac f s) _ s k w
  unfold execXaMac 
  exact whenActive_ran c _ _ _ (regDone_xa ..)
theorem ran_xaRnd (f : XaRndF) (s : State) (k : Nat) (w : Wave) (c : Clear (specH f.h 8 [sOp f.d 1 true] (some 12)) s k w) :
    RegRan false (exec (.xaRnd f) s) (specH f.h 8 [sOp f.d 1 true] (some 12)) s k w := by
  show RegRan _ (execXaRnd f s) _ s k w
  unfold execXaRnd 
  exact whenActive_ran c _ _ _ (regDone_wrS _ _ _ _ _ (mem_dests (k := 0) (o := sOp f.d 1 true) (List.mem_cons_self) rfl Nat.one_pos))
theorem ran_xaGet (f : XaGetF) (s : State) (k : Nat) (w : Wave) (c : Clear (specH f.h 8 [sOp f.d 1 true] (some 12)) s k w) :
    RegRan false (exec (.xaGet f) s) (specH f.h 8 [sOp f.d 1 true] (some 12)) s k w := by
  show RegRan _ (execXaGet f s) _ s k w
  unfold execXaGet 
  exact whenActive_ran c _ _ _ (regDone_wrS _ _ _ _ _ (mem_dests (k := 0) (o := sOp f.d 1 true) (List.mem_cons_self) rfl Nat.one_pos))
theorem ran_xaSet (f : XaSetF) (s : State) (k : Nat) (w : Wave) (c : Clear (specH f.h 8 [sOp f.a] (some 1)) s k w) :
    RegRan true (exec (.xaSet f) s) (specH f.h 8 [sOp f.a] (some 1)) s k w := by
  show RegRan _ (execXaSet f s) _ s k w
  unfold execXaSet 
  exact whenActive_ran c _ _ _ (regDone_xa ..)
theorem ran_xaMerge (f : XaMergeF) (s : State) (k : Nat) (w : Wave) (c : Clear (specH f.h 8 [sOp f.a 35] (some 1)) s k w) :
    RegRan true (exec (.xaMerge f) s) (specH f.h 8 [sOp f.a 35] (some 1)) s k w := by
  show RegRan _ (execXaMerge f s) _ s k w
  unfold execXaMerge 
  exact whenActive_ran c _ _ _ (regDone_xa ..)
theorem ran_rcp (f : VUnF) (s : State) (k : Nat) (w : Wave) (c : Clear (specH f.h 8 [vOp f.d 1 true, vOp f.a] (some 16)) s k w) :
    RegRan false (exec (.rcp f) s) (specH f.h 8 [vOp f.d 1 true, vOp f.a] (some 16)) s k w := by
  show RegRan _ (execRcp f s) _ s k w
  unfold execRcp vecSpecial vecUn
  exact laneOp_ran rfl c _ _
theorem ran_rsqrt (f : VUnF) (s : State) (k : Nat) (w : Wave) (c : Clear (specH f.h 8 [vOp f.d 1 true, vOp f.a] (some 16)) s k w) :
    RegRan false (exec (.rsqrt f) s) (specH f.h 8 [vOp f.d 1 true, vOp f.a] (some 16)) s k w := by
  show RegRan _ (execRsqrt f s) _ s k w
  unfold execRsqrt vecSpecial vecUn
  exact laneOp_ran rfl c _ _
theorem ran_exp2 (f : VUnF) (s : State) (k : Nat) (w : Wave) (c : Clear (specH f.h 8 [vOp f.d 1 true, vOp f.a] (some 16)) s k w) :
    RegRan false (exec (.exp2 f) s) (specH f.h 8 [vOp f.d 1 true, vOp f.a] (some 16)) s k w := by
  show RegRan _ (execExp2 f s) _ s k w
  unfold execExp2 vecSpecial vecUn
  exact laneOp_ran rfl c _ _
theorem ran_log2 (f : VUnF) (s : State) (k : Nat) (w : Wave) (c : Clear (specH f.h 8 [vOp f.d 1 true, vOp f.a] (some 16)) s k w) :
    RegRan false (exec (.log2 f) s) (specH f.h 8 [vOp f.d 1 true, vOp f.a] (some 16)) s k w := by
  show RegRan _ (execLog2 f s) _ s k w
  unfold execLog2 vecSpecial vecUn
  exact laneOp_ran rfl c _ _
theorem ran_sin (f : VUnF) (s : State) (k : Nat) (w : Wave) (c : Clear (specH f.h 8 [vOp f.d 1 true, vOp f.a] (some 16)) s k w) :
    RegRan false (exec (.sin f) s) (specH f.h 8 [vOp f.d 1 true, vOp f.a] (some 16)) s k w := by
  show RegRan _ (execSin f s) _ s k w
  unfold execSin vecSpecial vecUn
  exact laneOp_ran rfl c _ _
theorem ran_cos (f : VUnF) (s : State) (k : Nat) (w : Wave) (c : Clear (specH f.h 8 [vOp f.d 1 true, vOp f.a] (some 16)) s k w) :
    RegRan false (exec (.cos f) s) (specH f.h 8 [vOp f.d 1 true, vOp f.a] (some 16)) s k w := by
  show RegRan _ (execCos f s) _ s k w
  unfold execCos vecSpecial vecUn
  exact laneOp_ran rfl c _ _
theorem ran_fpDiv (f : FDivF) (s : State) (k : Nat) (w : Wave) (c : Clear (specH f.h 8 [vOp f.d 1 true, vOp f.a, vOp f.b] none) s k w) :
    RegRan false (exec (.fpDiv f) s) (specH f.h 8 [vOp f.d 1 true, vOp f.a, vOp f.b] none) s k w := by
  show RegRan _ (execFpDiv f s) _ s k w
  unfold execFpDiv 
  exact laneOp_ran rfl c _ _
theorem ran_sqrt (f : FUnRF) (s : State) (k : Nat) (w : Wave) (c : Clear (specH f.h 8 [vOp f.d 1 true, vOp f.a] none) s k w) :
    RegRan false (exec (.sqrt f) s) (specH f.h 8 [vOp f.d 1 true, vOp f.a] none) s k w := by
  show RegRan _ (execSqrt f s) _ s k w
  unfold execSqrt vecUn
  exact laneOp_ran rfl c _ _
theorem ran_modeGet (f : SysDF) (s : State) (k : Nat) (w : Wave) (c : Clear (specSys 8 f.stall [sOp f.d 1 true]) s k w) :
    RegRan false (exec (.modeGet f) s) (specSys 8 f.stall [sOp f.d 1 true]) s k w := by
  show RegRan _ (execModeGet f s) _ s k w
  unfold execModeGet 
  exact onWave_ran c _ _ (regDone_wrS _ _ _ _ _ (mem_dests (k := 0) (o := sOp f.d 1 true) (List.mem_cons_self) rfl Nat.one_pos))
theorem ran_timeGet (f : SysDF) (s : State) (k : Nat) (w : Wave) (c : Clear (specSys 8 f.stall [sOp f.d 2 true]) s k w) :
    RegRan false (exec (.timeGet f) s) (specSys 8 f.stall [sOp f.d 2 true]) s k w := by
  show RegRan _ (execTimeGet f s) _ s k w
  unfold execTimeGet 
  exact body_ran c _ _ (regDone_trans (regDone_wrS _ _ _ _ _ (mem_dests (k := 0) (o := sOp f.d 2 true) (List.mem_cons_self) rfl Nat.two_pos)) (regDone_wrS _ _ _ _ _ (mem_dests (k := 1) (o := sOp f.d 2 true) (List.mem_cons_self) rfl Nat.one_lt_two)))
theorem ran_perfGet (f : SysIF) (s : State) (k : Nat) (w : Wave) (c : Clear (specSys 8 f.stall [sOp f.d 1 true]) s k w) :
    RegRan false (exec (.perfGet f) s) (specSys 8 f.stall [sOp f.d 1 true]) s k w := by
  show RegRan _ (execPerfGet f s) _ s k w
  unfold execPerfGet 
  exact body_ran c _ _ (regDone_wrS _ _ _ _ _ (mem_dests (k := 0) (o := sOp f.d 1 true) (List.mem_cons_self) rfl Nat.one_pos))
theorem ran_addI64VectorCompact (f : CompactF) (s : State) (k : Nat) (w : Wave) (c : Clear (specH (compactHd f.stall) 4 [vOp (wide f.d) 1 true, vOp (wide f.a), vOp (wide f.b)] (some 4)) s k w) :
    RegRan false (exec (.addI64VectorCompact f) s) (specH (compactHd f.stall) 4 [vOp (wide f.d) 1 true, vOp (wide f.a), vOp (wide f.b)] (some 4)) s k w := by
  show RegRan _ (execAddI64VectorCompact f s) _ s k w
  unfold execAddI64VectorCompact compactVec
  exact laneOp_ran rfl c _ _
theorem ran_addF32Compact (f : CompactF) (s : State) (k : Nat) (w : Wave) (c : Clear (specH (compactHd f.stall) 4 [vOp (wide f.d) 1 true, vOp (wide f.a), vOp (wide f.b)] (some 6)) s k w) :
    RegRan false (exec (.addF32Compact f) s) (specH (compactHd f.stall) 4 [vOp (wide f.d) 1 true, vOp (wide f.a), vOp (wide f.b)] (some 6)) s k w := by
  show RegRan _ (execAddF32Compact f s) _ s k w
  unfold execAddF32Compact compactVec
  exact laneOp_ran rfl c _ _
theorem ran_mulF32Compact (f : CompactF) (s : State) (k : Nat) (w : Wave) (c : Clear (specH (compactHd f.stall) 4 [vOp (wide f.d) 1 true, vOp (wide f.a), vOp (wide f.b)] (some 6)) s k w) :
    RegRan false (exec (.mulF32Compact f) s) (specH (compactHd f.stall) 4 [vOp (wide f.d) 1 true, vOp (wide f.a), vOp (wide f.b)] (some 6)) s k w := by
  show RegRan _ (execMulF32Compact f s) _ s k w
  unfold execMulF32Compact compactVec
  exact laneOp_ran rfl c _ _
theorem ran_addF64Compact (f : CompactF) (s : State) (k : Nat) (w : Wave) (c : Clear (specH (compactHd f.stall) 4 [vOp (wide f.d) 1 true, vOp (wide f.a), vOp (wide f.b)] (some 8)) s k w) :
    RegRan false (exec (.addF64Compact f) s) (specH (compactHd f.stall) 4 [vOp (wide f.d) 1 true, vOp (wide f.a), vOp (wide f.b)] (some 8)) s k w := by
  show RegRan _ (execAddF64Compact f s) _ s k w
  unfold execAddF64Compact compactVec
  exact laneOp_ran rfl c _ _
theorem ran_mulF64Compact (f : CompactF) (s : State) (k : Nat) (w : Wave) (c : Clear (specH (compactHd f.stall) 4 [vOp (wide f.d) 1 true, vOp (wide f.a), vOp (wide f.b)] (some 8)) s k w) :
    RegRan false (exec (.mulF64Compact f) s) (specH (compactHd f.stall) 4 [vOp (wide f.d) 1 true, vOp (wide f.a), vOp (wide f.b)] (some 8)) s k w := by
  show RegRan _ (execMulF64Compact f s) _ s k w
  unfold execMulF64Compact compactVec
  exact laneOp_ran rfl c _ _
theorem ran_andB64Compact (f : CompactF) (s : State) (k : Nat) (w : Wave) (c : Clear (specH (compactHd f.stall) 4 [vOp (wide f.d) 1 true, vOp (wide f.a), vOp (wide f.b)] (some 4)) s k w) :
    RegRan false (exec (.andB64Compact f) s) (specH (compactHd f.stall) 4 [vOp (wide f.d) 1 true, vOp (wide f.a), vOp (wide f.b)] (some 4)) s k w := by
  show RegRan _ (execAndB64Compact f s) _ s k w
  unfold execAndB64Compact compactVec
  exact laneOp_ran rfl c _ _
theorem ran_orB64Compact (f : CompactF) (s : State) (k : Nat) (w : Wave) (c : Clear (specH (compactHd f.stall) 4 [vOp (wide f.d) 1 true, vOp (wide f.a), vOp (wide f.b)] (some 4)) s k w) :
    RegRan false (exec (.orB64Compact f) s) (specH (compactHd f.stall) 4 [vOp (wide f.d) 1 true, vOp (wide f.a), vOp (wide f.b)] (some 4)) s k w := by
  show RegRan _ (execOrB64Compact f s) _ s k w
  unfold execOrB64Compact compactVec
  exact laneOp_ran rfl c _ _
theorem ran_xorB64Compact (f : CompactF) (s : State) (k : Nat) (w : Wave) (c : Clear (specH (compactHd f.stall) 4 [vOp (wide f.d) 1 true, vOp (wide f.a), vOp (wide f.b)] (some 4)) s k w) :
    RegRan false (exec (.xorB64Compact f) s) (specH (compactHd f.stall) 4 [vOp (wide f.d) 1 true, vOp (wide f.a), vOp (wide f.b)] (some 4)) s k w := by
  show RegRan _ (execXorB64Compact f s) _ s k w
  unfold execXorB64Compact compactVec
  exact laneOp_ran rfl c _ _
theorem ran_movB64VectorCompact (f : CompactDBF) (s : State) (k : Nat) (w : Wave) (c : Clear (specH (compactHd f.stall) 4 [vOp (wide f.d) 1 true, vOp (wide f.b)] (some 4)) s k w) :
    RegRan false (exec (.movB64VectorCompact f) s) (specH (compactHd f.stall) 4 [vOp (wide f.d) 1 true, vOp (wide f.b)] (some 4)) s k w := by
  show RegRan _ (execMovB64VectorCompact f s) _ s k w
  unfold execMovB64VectorCompact 
  exact laneOp_ran rfl c _ _
theorem ran_addI64ScalarCompact (f : CompactF) (s : State) (k : Nat) (w : Wave) (c : Clear (specH (compactHd f.stall) 4 [sOp (wide f.d) 1 true, sOp (wide f.a), sOp (wide f.b)] (some 2)) s k w) :
    RegRan false (exec (.addI64ScalarCompact f) s) (specH (compactHd f.stall) 4 [sOp (wide f.d) 1 true, sOp (wide f.a), sOp (wide f.b)] (some 2)) s k w := by
  show RegRan _ (execAddI64ScalarCompact f s) _ s k w
  unfold execAddI64ScalarCompact compactSca
  exact scalarOp_ran rfl c _ _ _
theorem ran_subI64ScalarCompact (f : CompactF) (s : State) (k : Nat) (w : Wave) (c : Clear (specH (compactHd f.stall) 4 [sOp (wide f.d) 1 true, sOp (wide f.a), sOp (wide f.b)] (some 2)) s k w) :
    RegRan false (exec (.subI64ScalarCompact f) s) (specH (compactHd f.stall) 4 [sOp (wide f.d) 1 true, sOp (wide f.a), sOp (wide f.b)] (some 2)) s k w := by
  show RegRan _ (execSubI64ScalarCompact f s) _ s k w
  unfold execSubI64ScalarCompact compactSca
  exact scalarOp_ran rfl c _ _ _
theorem ran_movB64ScalarCompact (f : CompactDBF) (s : State) (k : Nat) (w : Wave) (c : Clear (specH (compactHd f.stall) 4 [sOp (wide f.d) 1 true, sOp (wide f.b)] (some 2)) s k w) :
    RegRan false (exec (.movB64ScalarCompact f) s) (specH (compactHd f.stall) 4 [sOp (wide f.d) 1 true, sOp (wide f.b)] (some 2)) s k w := by
  show RegRan _ (execMovB64ScalarCompact f s) _ s k w
  unfold execMovB64ScalarCompact 
  exact scalarOp_ran rfl c _ _ _
theorem ran_shlN64ScalarCompact (f : CompactF) (s : State) (k : Nat) (w : Wave) (c : Clear (specH (compactHd f.stall) 4 [sOp (wide f.d) 1 true, sOp (wide f.a), sOp (wide f.b)] (some 2)) s k w) :
    RegRan false (exec (.shlN64ScalarCompact f) s) (specH (compactHd f.stall) 4 [sOp (wide f.d) 1 true, sOp (wide f.a), sOp (wide f.b)] (some 2)) s k w := by
  show RegRan _ (execShlN64ScalarCompact f s) _ s k w
  unfold execShlN64ScalarCompact compactSca
  exact scalarOp_ran rfl c _ _ _
theorem ran_addI32VectorCompact (f : CompactF) (s : State) (k : Nat) (w : Wave) (c : Clear (specH (compactHd f.stall) 4 [vOp (wide f.d) 1 true, vOp (wide f.a), vOp (wide f.b)] (some 4)) s k w) :
    RegRan false (exec (.addI32VectorCompact f) s) (specH (compactHd f.stall) 4 [vOp (wide f.d) 1 true, vOp (wide f.a), vOp (wide f.b)] (some 4)) s k w := by
  show RegRan _ (execAddI32VectorCompact f s) _ s k w
  unfold execAddI32VectorCompact compactVec
  exact laneOp_ran rfl c _ _
theorem ran_nopCompact (f : CompactNF) (s : State) (k : Nat) (w : Wave) (c : Clear ({ len := 4, stall := f.stall.toNat, opnds := [], lat := some 0 }) s k w) :
    RegRan false (exec (.nopCompact f) s) ({ len := 4, stall := f.stall.toNat, opnds := [], lat := some 0 }) s k w := by
  show RegRan _ (execNopCompact f s) _ s k w
  unfold execNopCompact 
  exact ⟨entryWave _ s w, by rw [issue_clear c]; simp only [doneWith, entryState_set], regDone_refl ..⟩
theorem ran_csrGet (f : SysIF) (sp : Spec) (h : regSpec (.csrGet f) = some sp) (s : State) (k : Nat) (w : Wave) (c : Clear sp s k w) :
    RegRan false (exec (.csrGet f) s) sp s k w := by
  show RegRan _ (execCsrGet f s) _ s k w
  have h : (if f.idx.toNat = 8 then some (specSys 8 f.stall [vOp f.d 1 true])
    else if f.idx.toNat < 0x100 then some (specSys 8 f.stall [sOp f.d 1 true]) else none) = some sp := h
  split_ifs at h with h1 h2 <;> cases h <;> unfold execCsrGet
  · simp only [h1, if_true]
    exact onWave_ran c _ _ (regDone_wrLanes _ _ _ _ _ _ (mem_dests (k := 0) (o := vOp f.d 1 true) (List.mem_cons_self) rfl Nat.one_pos))
  · simp only [h1, if_false, if_neg (Nat.not_le.2 h2)]
    exact body_ran c _ _ (regDone_wrS _ _ _ _ _ (mem_dests (k := 0) (o := sOp f.d 1 true) (List.mem_cons_self) rfl Nat.one_pos))

end Sys2Proof.Laws
end

