-- ==== Sys2Proof/Laws/Arith.lean ====
section
/-! SUPPORT. Numbers in registers: reading a w-bit pattern in its type, packing sub-elements, and the operand forms on the entry wave. -/

namespace Sys2Proof.Laws

open Sys2Proof.Machine

theorem width_pos (t : Ty) : 0 < t.width := by cases t <;> decide
theorem width_le (t : Ty) : t.width ≤ 64 := by cases t <;> decide

theorem readInt_mod (t : Ty) (x : Nat) : readInt t (x % 2 ^ t.width) = readInt t x := by simp [readInt]

/-- Wrapping what a pattern reads as gives the pattern back. -/
theorem wrap_readInt (t : Ty) (x : Nat) : wrapTo t.width (readInt t x) = x % 2 ^ t.width := by
  have : ((x % 2 ^ t.width : Nat) : Int) % 2 ^ t.width = ((x % 2 ^ t.width : Nat) : Int) := by push_cast; exact Int.emod_emod_of_dvd _ dvd_rfl
  have h2 : (((x % 2 ^ t.width : Nat) : Int) % 2 ^ t.width).toNat = x % 2 ^ t.width := by rw [this, Int.toNat_natCast]
  simp only [wrapTo, readInt]
  split
  · rw [Int.sub_emod_right, h2]
  · exact h2

theorem extTy_mod (t : Ty) (x : Nat) : extTy t (x % 2 ^ t.width) = extTy t x := by simp [extTy, readInt]
theorem extTy_congr (t : Ty) (x y : Nat) (h : x % 2 ^ t.width = y % 2 ^ t.width) : extTy t x = extTy t y := by
  rw [← extTy_mod, h, extTy_mod]

theorem sbVal_entry (sp : Spec) (s : State) (w : Wave) (t : Ty) (b : SB) : sbVal (entryWave sp s w) t b = sbVal w t b := by cases b <;> simp [sbVal]
theorem vbElem_entry (sp : Spec) (s : State) (w : Wave) (t : Ty) (b : VB) (l j : Nat) :
    vbElem (entryWave sp s w) t b l j = vbElem w t b l j := by cases b <;> simp [vbElem]
theorem vbLane_entry (sp : Spec) (s : State) (w : Wave) (b : VB) (l : Nat) : vbLane (entryWave sp s w) b l = vbLane w b l := by
  cases b <;> simp [vbLane]

/-- A left shift by w or more leaves nothing. -/
theorem shl_mod (w x y : Nat) : (if w ≤ y then 0 else x % 2 ^ w * 2 ^ y % 2 ^ w) % 2 ^ w = x * 2 ^ y % 2 ^ w := by
  split
  · rename_i h
    obtain ⟨k, rfl⟩ := Nat.exists_eq_add_of_le h
    rw [pow_add, ← mul_assoc, mul_comm x, mul_assoc, Nat.mul_mod_right]; simp
  · rw [Nat.mod_mod, Nat.mul_mod, Nat.mod_mod, ← Nat.mul_mod]

/-- A right shift by w or more leaves the sign. -/
theorem shr_wrap (t : Ty) (x y : Nat) :
    (if t.width ≤ y then (if t.isI && decide (readInt t x < 0) then 2 ^ t.width - 1 else 0) else wrapTo t.width (readInt t x / 2 ^ y)) =
      wrapTo t.width (readInt t x / 2 ^ y) := by
  split
  · rename_i h
    have hlt : readInt t x < 2 ^ t.width := by
      have h1 : ((x % 2 ^ t.width : Nat) : Int) < 2 ^ t.width := by exact_mod_cast Nat.mod_lt _ (by positivity)
      have h0 : (0 : Int) < 2 ^ t.width := by positivity
      simp only [readInt]; split <;> omega
    have hpw : (2 : Int) ^ t.width ≤ 2 ^ y := pow_le_pow_right₀ (by norm_num) h
    have hy : (0 : Int) < 2 ^ y := by positivity
    by_cases hneg : readInt t x < 0
    · have hI : t.isI = true := by
        by_contra hc
        simp only [readInt, Bool.not_eq_true _ ▸ hc] at hneg
        simp at hneg; omega
      have hge : -(2 : Int) ^ t.width ≤ readInt t x := by
        have h1 : (0 : Int) ≤ ((x % 2 ^ t.width : Nat) : Int) := Int.natCast_nonneg _
        have h0 : (0 : Int) < 2 ^ t.width := by positivity
        simp only [readInt]; split <;> push_cast at * <;> linarith
      have hd : readInt t x / 2 ^ y = -1 := by
        rw [Int.ediv_eq_iff_of_pos hy]; constructor <;> omega
      rw [hd, if_pos (by simp [hI, hneg]), wrapTo]
      have : ((-1 : Int) % 2 ^ t.width) = 2 ^ t.width - 1 := by
        have h1 : (1 : Int) ≤ 2 ^ t.width := by exact_mod_cast Nat.one_le_two_pow
        rw [← Int.add_emod_right]
        exact (Int.emod_eq_of_lt (by omega) (by omega)).trans (by ring)
      rw [this]
      have h1 : 1 ≤ 2 ^ t.width := Nat.one_le_two_pow
      have : ((2 : Int) ^ t.width - 1) = ((2 ^ t.width - 1 : Nat) : Int) := by push_cast [h1]; ring
      rw [this, Int.toNat_natCast]
    · have hd : readInt t x / 2 ^ y = 0 := Int.ediv_eq_zero_of_lt (by omega) (by omega)
      rw [hd, if_neg (by simp [hneg])]; simp [wrapTo]
  · rfl

/-! ### Sub-elements -/

theorem packed_div (t : Nat) (xs : List Nat) (j : Nat) :
    (xs.foldr (fun x a => x % 2 ^ t + 2 ^ t * a) 0) / 2 ^ (t * j) % 2 ^ t = xs.getD j 0 % 2 ^ t := by
  induction xs generalizing j with
  | nil => simp
  | cons x r ih =>
    have hp : 0 < 2 ^ t := by positivity
    cases j with
    | zero => simp [Nat.add_mul_mod_self_left]
    | succ j =>
      rw [List.foldr_cons, Nat.mul_succ, Nat.add_comm (t * j) t, pow_add, ← Nat.div_div_eq_div_mul,
        Nat.add_mul_div_left _ _ hp, Nat.div_eq_of_lt (Nat.mod_lt _ hp), Nat.zero_add, ih]
      simp

theorem packed_lt (t : Nat) (xs : List Nat) : xs.foldr (fun x a => x % 2 ^ t + 2 ^ t * a) 0 < 2 ^ (t * xs.length) := by
  induction xs with
  | nil => simp
  | cons x r ih =>
    have hp : 0 < 2 ^ t := by positivity
    have := Nat.mod_lt x hp
    rw [List.foldr_cons, List.length_cons, Nat.mul_succ, Nat.add_comm (t * r.length) t, pow_add]
    nlinarith

theorem elemCount_mul (t : Ty) : t.width * elemCount t = 64 := by cases t <;> decide

/-- A sub-element of a packed lane. -/
theorem elemOf_elemsOf (t : Ty) (f : Nat → Nat) (j : Nat) (hj : j < elemCount t) : elemOf t (elemsOf t f) j = f j % 2 ^ t.width := by
  have hlt : ((List.range (elemCount t)).map f).foldr (fun x a => x % 2 ^ t.width + 2 ^ t.width * a) 0 < 2 ^ 64 := by
    have := packed_lt t.width ((List.range (elemCount t)).map f)
    rwa [List.length_map, List.length_range, elemCount_mul] at this
  simp only [elemOf, elemsOf, ofElems, w64, BitVec.toNat_ofNat, Nat.mod_eq_of_lt hlt, packed_div]
  simp [hj]

theorem setsV_of {i : Instr} {len : Nat} {h : Hd} {d : Field11} {ops : List Opnd} {lat : Option Nat} {t : Ty} {f : Wave → Nat → Nat → Nat}
    {val : Wave → Nat → Nat → Nat}
    (he : ∀ s, exec i s = laneOp len h d ops lat (fun w l => elemsOf t (f w l)) s) (hr : regSpec i = some (specH h len (vOp d 1 true :: ops) lat))
    (hf : ∀ sp s w l j, f (entryWave sp s w) l j % 2 ^ t.width = val w l j) : SetsV i h d t val := by
  intro sp hsp s k w c
  have hsp' := Option.some.inj (hr.symm.trans hsp)
  have hd : RegRef.v d.toNat ∈ sp.dests := mem_dests_head hsp'.symm rfl rfl
  obtain ⟨u, w', h1, h2, h3, -⟩ := ran_with (xa := false) ((he s).trans (laneOp_clear hsp'.symm c _)) (regDone_wrLanes _ _ _ _ _ _ hd)
  refine ⟨u, w', h1, h2, fun l hl => ⟨fun ha j hj => ?_, fun ha => ?_⟩⟩
  · rw [rdV, h3, ← rdV, rdV_wrLanes _ _ _ _ _ _ hl, if_pos ⟨rfl, ha⟩, elemOf_elemsOf _ _ _ hj, hf]
  · rw [rdV, h3, ← rdV, rdV_wrLanes _ _ _ _ _ _ hl, if_neg (by simp [ha])]; simp

end Sys2Proof.Laws
end

