-- ==== Sys2Proof/Tests/Slice0.lean ====
section
/-! SUPPORT. Tests: ill-formed terms refused, words of the manual decoded, single steps with results from the manual's worked examples, and for
each statement with hypotheses a concrete state that meets them. -/

namespace Sys2Proof.Tests

set_option Elab.async false

open Sys2Proof Sys2Proof.Machine

/-! ### A small state -/

/-- Wave 0 of group 1, alone on core 0, with 64 registers. -/
def w0 : Wave := { pc := 0x10000, regCount := 512, key := { seq := 1 }, s := [(1, 0xFF000000000000), (2, 0x40000), (3, 7), (4, 3)] }
/-- Group 1 with 4 KiB of local store. -/
def g0 : Group := { gid := 1, seq := 1, regs := 512, lsKib := 4, place := .resident 0 }
/-- Tenant 0 maps 64 GiB at address 0 and the shared window; task 1 has one group, group 1, whose wave is selected. -/
def s0 : State :=
  { ext := [(0x20000, 0x01), (0x20001, 0x20), (0x20002, 0x02), (0x21FC0, 0x01), (0x21FC1, 0x40), (0x21FC2, 0x02), (0x22000, 0x1F), (0x24000, 0x1F)], roots := [(0, 0x20000)], nextGid := 2, nextSeq := 2,
    tasks := [(1, { seq := 1, root := 1, rec64 := packBits 512 [(75, 11, 64), (90, 6, 1), (96, 32, 1)], state := .ready, next := 1 })],
    groups := [(1, g0)], waves := [(32, w0)], cur := some 32 }
/-- The state with another wave in place of its wave. -/
def sw (w : Wave) : State := { s0 with waves := [(32, w)] }
/-- The state an outcome leads to. -/
def after : Host.Outcome State Fault Refusal → State
  | .next t => t
  | _ => {}
/-- Wave 32 of a state, and what its registers hold. -/
def wv (s : State) : Wave := (s.wave? 32).getD {}
def sreg (s : State) (r : Nat) : Nat := (rdS (wv s) r).toNat
def vreg (s : State) (r l : Nat) : Nat := (rdV (wv s) r l).toNat
def mreg (s : State) (r : Nat) : Nat := (rdM (wv s) r).toNat
/-- No predicate, no stall. -/
def h0 : Hd := ⟨0, 0⟩

/-- A wave with no result and no token pending meets an instruction whose registers exist. -/
theorem clear_sw (sp : Spec) (w : Wave) (hf : w.fixed = []) (ht : w.tokenPend = []) (hr : ∀ o ∈ sp.opnds, regBad w o = none)
    (hp : sp.priv = none) : Clear sp (sw w) 32 w := by
  refine ⟨rfl, ?_, hr, ?_, ?_, ?_⟩
  · simp [sw, State.wave?, kfind]
  · simp [privBad, hp]
  · simp [early, undersized, hf]
  · simp only [tokenBlocked, ht]
    simp
    intro _ x _; cases x <;> rfl
theorem clear_s0 (sp : Spec) (hr : ∀ o ∈ sp.opnds, regBad w0 o = none) (hp : sp.priv = none) : Clear sp s0 32 w0 :=
  clear_sw sp w0 rfl rfl hr hp

theorem test_scalar_add_wraps : sreg (after (exec (.scalarAdd { h := h0, d := 5, a := 3, b := .lit 0xFFFFFFFF, ty := .i32, sat := false }) s0)) 5 = 6 := by
  decide

/-! ### Decoding: one word for each instruction, composed field by field from Tables 9.2, 9.3, 9.6, 9.8, 11.1, 13.1, 13.7, 13.8, 15.1, 21.1
(every field used at a value of its own, stall count 9, predicate 2 where one is admitted) -/

/-- Every word of a list decodes to its instruction. -/
def decodes (xs : List (List (BitVec 32) × Instr)) : Bool := xs.all (fun p => decide (decode p.1 = .instr p.2))
def words_control1 : List (List (BitVec 32) × Instr) := [
    ([0x000B0025, 0x0FFC0000], .br { neg := true, cond := 3, tgt := .short 0x7FE, stall := 9 }),
    ([0x90050067, 0x0000D140, 0x00000100], .brDiv { neg := false, cond := 5, rej := 0x9345, tgt := .far 0x100, stall := 9 }),
    ([0x080D00A5, 0x000C0080], .brEj { neg := true, cond := 5, rej := 0x802, tgt := .short 6, stall := 9 }),
    ([0x880600E5, 0x00000000], .brx { neg := false, cond := 6, a := 17, stall := 9 }),
    ([0x00120127, 0x00000000, 0xFFFFFFF0], .call { d := 18, tgt := .far 0xFFFFFFF0, stall := 9 }),
    ([0x98000165, 0x00000000], .ret { a := 19, stall := 9 }),
    ([0x000001A5, 0x00000000], .rejoin { stall := 9 }),
    ([0x000001E5, 0x0B4A0000], .brk { code := 0x5A5, stall := 9 }),
    ([0x00000225, 0x00000000], .exit { stall := 9 }),
    ([0x000003E5, 0x00000000], .nop { stall := 9 })]
theorem test_decode_control1 : decodes words_control1 = true := by decide
def words_scalar1 : List (List (BitVec 32) × Instr) := [
    ([0x580A1025, 0x221C0300], .scalarAdd { h := ⟨2, 9⟩, d := 10, a := 11, b := .reg 12, ty := .n32, sat := true }),
    ([0x580A1065, 0x221C0300], .scalarSub { h := ⟨2, 9⟩, d := 10, a := 11, b := .reg 12, ty := .n32, sat := true }),
    ([0x580A10A5, 0x201C0300], .scalarMul { h := ⟨2, 9⟩, d := 10, a := 11, b := .reg 12, ty := .n32 }),
    ([0x580A10E5, 0x201C0300], .scalarMulhi { h := ⟨2, 9⟩, d := 10, a := 11, b := .reg 12, ty := .n32 }),
    ([0x580A1125, 0x201C0300], .scalarDiv { h := ⟨2, 9⟩, d := 10, a := 11, b := .reg 12, ty := .n32 }),
    ([0x580A1165, 0x201C0300], .scalarRem { h := ⟨2, 9⟩, d := 10, a := 11, b := .reg 12, ty := .n32 }),
    ([0x580A11A5, 0x201C0300], .scalarMin { h := ⟨2, 9⟩, d := 10, a := 11, b := .reg 12, ty := .n32 }),
    ([0x580A11E5, 0x201C0300], .scalarMax { h := ⟨2, 9⟩, d := 10, a := 11, b := .reg 12, ty := .n32 }),
    ([0x580A1225, 0x201C0300], .scalarAnd { h := ⟨2, 9⟩, d := 10, a := 11, b := .reg 12, ty := .n32 }),
    ([0x580A1265, 0x201C0300], .scalarOr { h := ⟨2, 9⟩, d := 10, a := 11, b := .reg 12, ty := .n32 }),
    ([0x580A12A5, 0x201C0300], .scalarXor { h := ⟨2, 9⟩, d := 10, a := 11, b := .reg 12, ty := .n32 }),
    ([0x580A12E5, 0x20220000], .scalarNot { h := ⟨2, 9⟩, d := 10, a := 11, ty := .b16 })]
theorem test_decode_scalar1 : decodes words_scalar1 = true := by decide
def words_scalar2 : List (List (BitVec 32) × Instr) := [
    ([0x580A1327, 0x20160000, 0xFFFFFFFF], .scalarShl { h := ⟨2, 9⟩, d := 10, a := 11, b := .lit 0xFFFFFFFF, ty := .i64 }),
    ([0x580A1365, 0x20100300], .scalarShr { h := ⟨2, 9⟩, d := 10, a := 11, b := .reg 12, ty := .i8 }),
    ([0x580413A5, 0x21520300], .scalarCmp { h := ⟨2, 9⟩, d := 4, a := 11, b := .reg 12, ty := .i16, cnd := .ge }),
    ([0x580A13E5, 0x20C80300], .scalarSel { h := ⟨2, 9⟩, d := 10, a := 11, b := .reg 12, c := 100 }),
    ([0x000A1427, 0x201A0000, 0x00001234], .scalarMov { h := ⟨2, 9⟩, d := 10, b := .lit 0x1234, ty := .n16 }),
    ([0x580A1465, 0x201E0000], .scalarClz { h := ⟨2, 9⟩, d := 10, a := 11, ty := .n64 }),
    ([0x580A14A5, 0x20260000], .scalarPopc { h := ⟨2, 9⟩, d := 10, a := 11, ty := .b64 })]
theorem test_decode_scalar2 : decodes words_scalar2 = true := by decide
def words_vector1 : List (List (BitVec 32) × Instr) := [
    ([0x692C2025, 0x20124B89], .vectorAdd { h := ⟨2, 9⟩, d := 300, a := 301, b := .vec 302, ty := .i16, sat := false }),
    ([0x692C2065, 0xA2120309], .vectorSub { h := ⟨2, 9⟩, d := 300, a := 301, b := .sca 12, ty := .i16, sat := true }),
    ([0x692C20A5, 0x20124B89], .vectorMul { h := ⟨2, 9⟩, d := 300, a := 301, b := .vec 302, ty := .i16 }),
    ([0x692C20E5, 0xA0120309], .vectorMulhi { h := ⟨2, 9⟩, d := 300, a := 301, b := .sca 12, ty := .i16 }),
    ([0x692C2125, 0x20124B89], .vectorMin { h := ⟨2, 9⟩, d := 300, a := 301, b := .vec 302, ty := .i16 }),
    ([0x692C2165, 0xA0120309], .vectorMax { h := ⟨2, 9⟩, d := 300, a := 301, b := .sca 12, ty := .i16 }),
    ([0x692C21A5, 0x22100009], .vectorAbs { h := ⟨2, 9⟩, d := 300, a := 301, ty := .i8, sat := true }),
    ([0x692C21E5, 0x22100009], .vectorNeg { h := ⟨2, 9⟩, d := 300, a := 301, ty := .i8, sat := true }),
    ([0x692C2225, 0x20124B89], .vectorAnd { h := ⟨2, 9⟩, d := 300, a := 301, b := .vec 302, ty := .i16 }),
    ([0x692C2265, 0xA0120309], .vectorOr { h := ⟨2, 9⟩, d := 300, a := 301, b := .sca 12, ty := .i16 }),
    ([0x692C22A5, 0x20124B89], .vectorXor { h := ⟨2, 9⟩, d := 300, a := 301, b := .vec 302, ty := .i16 }),
    ([0x692C22E5, 0x20200009], .vectorNot { h := ⟨2, 9⟩, d := 300, a := 301, ty := .b8 })]
theorem test_decode_vector1 : decodes words_vector1 = true := by decide
def words_vector2 : List (List (BitVec 32) × Instr) := [
    ([0x692C2325, 0x20124B89], .vectorShl { h := ⟨2, 9⟩, d := 300, a := 301, b := .vec 302, ty := .i16 }),
    ([0x692C2365, 0xA0120309], .vectorShr { h := ⟨2, 9⟩, d := 300, a := 301, b := .sca 12, ty := .i16 }),
    ([0x680523A7, 0x20980009, 0x0000007F], .vectorCmp { h := ⟨2, 9⟩, d := 5, a := 301, b := .lit 0x7F, ty := .n8, cnd := .lt }),
    ([0x692C23E5, 0x200C4B89], .vectorSel { h := ⟨2, 9⟩, d := 300, a := 301, b := .vec 302, c := 6 }),
    ([0x012C2425, 0xA0240300], .vectorMov { h := ⟨2, 9⟩, d := 300, b := .sca 12, ty := .b32 }),
    ([0x692C2465, 0x201C0009], .vectorClz { h := ⟨2, 9⟩, d := 300, a := 301, ty := .n32 }),
    ([0x692C24A5, 0x201C0009], .vectorPopc { h := ⟨2, 9⟩, d := 300, a := 301, ty := .n32 }),
    ([0x692C24E5, 0x201C0009], .brev { h := ⟨2, 9⟩, d := 300, a := 301, ty := .n32 }),
    ([0x692C2525, 0x20164B89], .bfe { h := ⟨2, 9⟩, d := 300, a := 301, b := .vec 302, ty := .i64 }),
    ([0x692C2625, 0x225E4B89], .madI32 { h := ⟨2, 9⟩, d := 300, a := 301, bs := false, b := 302, c := 303 }),
    ([0x692C2665, 0xA25E0309], .madN32 { h := ⟨2, 9⟩, d := 300, a := 301, bs := true, b := 12, c := 303 }),
    ([0x692C26A5, 0x225E4B89], .madI64 { h := ⟨2, 9⟩, d := 300, a := 301, bs := false, b := 302, c := 303 })]
theorem test_decode_vector2 : decodes words_vector2 = true := by decide
def words_vector3 : List (List (BitVec 32) × Instr) := [
    ([0x692C26E5, 0xA25E0309], .madN64 { h := ⟨2, 9⟩, d := 300, a := 301, bs := true, b := 12, c := 303 })]
theorem test_decode_vector3 : decodes words_vector3 = true := by decide
def words_float1 : List (List (BitVec 32) × Instr) := [
    ([0x692C3025, 0x21044B89], .fpAdd { h := ⟨2, 9⟩, d := 300, a := 301, b := .vec 302, ty := .f16, rmo := .rne }),
    ([0x692C3065, 0x21844B89], .fpSub { h := ⟨2, 9⟩, d := 300, a := 301, b := .vec 302, ty := .f16, rmo := .rup }),
    ([0x692C30A5, 0x21C44B89], .fpMul { h := ⟨2, 9⟩, d := 300, a := 301, b := .vec 302, ty := .f16, rmo := .rdn }),
    ([0x692C30E5, 0xA0000309], .fpMin { h := ⟨2, 9⟩, d := 300, a := 301, b := .sca 12, ty := .f64 }),
    ([0x692C3125, 0xA0000309], .fpMax { h := ⟨2, 9⟩, d := 300, a := 301, b := .sca 12, ty := .f64 }),
    ([0x692C3265, 0xA0000309], .copysign { h := ⟨2, 9⟩, d := 300, a := 301, b := .sca 12, ty := .f64 }),
    ([0x692C3165, 0x20060009], .fpAbs { h := ⟨2, 9⟩, d := 300, a := 301, ty := .bf16 }),
    ([0x692C31A5, 0x20060009], .fpNeg { h := ⟨2, 9⟩, d := 300, a := 301, ty := .bf16 }),
    ([0x692C32A5, 0x20060009], .fclass { h := ⟨2, 9⟩, d := 300, a := 301, ty := .bf16 }),
    ([0x680531E5, 0x21824B89], .fpCmp { h := ⟨2, 9⟩, d := 5, a := 301, b := .vec 302, ty := .f32, cnd := .unord }),
    ([0x692C3225, 0x21420009], .rint { h := ⟨2, 9⟩, d := 300, a := 301, ty := .f32, rmo := .rtz }),
    ([0x692C32E7, 0x20000009, 0xFFFFFFFE], .ldexp { h := ⟨2, 9⟩, d := 300, a := 301, b := .lit 0xFFFFFFFE, ty := .f64, rmo := .mode })]
theorem test_decode_float1 : decodes words_float1 = true := by decide
def words_float2 : List (List (BitVec 32) × Instr) := [
    ([0x692C3425, 0x225E4B89], .fmaF64 { h := ⟨2, 9⟩, d := 300, a := 301, bs := false, b := 302, c := 303 }),
    ([0x692C3465, 0xA25E0309], .fmaF32 { h := ⟨2, 9⟩, d := 300, a := 301, bs := true, b := 12, c := 303 }),
    ([0x692C34A5, 0x225E4B89], .fmaF16 { h := ⟨2, 9⟩, d := 300, a := 301, bs := false, b := 302, c := 303 }),
    ([0x692C34E5, 0xA25E0309], .fmaBf16 { h := ⟨2, 9⟩, d := 300, a := 301, bs := true, b := 12, c := 303 }),
    ([0x692C3525, 0x225E4B89], .fnmaF64 { h := ⟨2, 9⟩, d := 300, a := 301, bs := false, b := 302, c := 303 }),
    ([0x692C3565, 0xA25E0309], .fnmaF32 { h := ⟨2, 9⟩, d := 300, a := 301, bs := true, b := 12, c := 303 }),
    ([0x692C35A5, 0x225E4B89], .fnmaF16 { h := ⟨2, 9⟩, d := 300, a := 301, bs := false, b := 302, c := 303 }),
    ([0x692C35E5, 0xA25E0309], .fnmaBf16 { h := ⟨2, 9⟩, d := 300, a := 301, bs := true, b := 12, c := 303 })]
theorem test_decode_float2 : decodes words_float2 = true := by decide
def words_convert1 : List (List (BitVec 32) × Instr) := [
    ([0x692C4025, 0x23920049], .cvt { h := ⟨2, 9⟩, d := 300, a := 301, src := .f32, dst := .i16, rmo := .rup, sat := true }),
    ([0x692C4065, 0x201802C9], .pack { h := ⟨2, 9⟩, d := 300, a := 301, src := .i64, dst := .n8, rmo := .mode, sat := false }),
    ([0x692C40A5, 0x20020149], .unpack { h := ⟨2, 9⟩, d := 300, a := 301, src := .f8e5, dst := .f32, rmo := .mode, sat := false }),
    ([0x692C40E5, 0x20000009], .cbDec { h := ⟨2, 9⟩, d := 300, a := 301 })]
theorem test_decode_convert1 : decodes words_convert1 = true := by decide
def words_cross1 : List (List (BitVec 32) × Instr) := [
    ([0x692C5025, 0x20240509], .xlGet { h := ⟨2, 9⟩, z := false, d := 300, a := 301, b := 20, ty := .b32 }),
    ([0x692C5065, 0xA0240549], .xlBcast { h := ⟨2, 9⟩, z := true, d := 300, a := 301, b := 21, ty := .b32 }),
    ([0x692C50A5, 0x20240589], .xlShup { h := ⟨2, 9⟩, z := false, d := 300, a := 301, b := 22, ty := .b32 }),
    ([0x692C50E5, 0xA02405C9], .xlShdn { h := ⟨2, 9⟩, z := true, d := 300, a := 301, b := 23, ty := .b32 }),
    ([0x692C5125, 0x20240609], .xlXor { h := ⟨2, 9⟩, z := false, d := 300, a := 301, b := 24, ty := .b32 }),
    ([0x692C5165, 0x20260789], .xlReorder { h := ⟨2, 9⟩, z := false, d := 300, a := 301, b := 30, ty := .b64 }),
    ([0x180451A5, 0x20000000], .xlVote { h := ⟨2, 9⟩, d := 4, a := 3 }),
    ([0x180551E5, 0x20000000], .xlAny { h := ⟨2, 9⟩, d := 5, a := 3 }),
    ([0x18065225, 0x20000000], .xlAll { h := ⟨2, 9⟩, d := 6, a := 3 }),
    ([0x68285425, 0x21020009], .redLaneAdd { h := ⟨2, 9⟩, d := 40, a := 301, ty := .f32, rmo := .rne }),
    ([0x68295465, 0x20020009], .redLaneMin { h := ⟨2, 9⟩, d := 41, a := 301, ty := .f32 }),
    ([0x682A54A5, 0x20020009], .redLaneMax { h := ⟨2, 9⟩, d := 42, a := 301, ty := .f32 })]
theorem test_decode_cross1 : decodes words_cross1 = true := by decide
def words_cross2 : List (List (BitVec 32) × Instr) := [
    ([0x682B54E5, 0x20220009], .redLaneAnd { h := ⟨2, 9⟩, d := 43, a := 301, ty := .b16 }),
    ([0x682C5525, 0x20220009], .redLaneOr { h := ⟨2, 9⟩, d := 44, a := 301, ty := .b16 }),
    ([0x682D5565, 0x20220009], .redLaneXor { h := ⟨2, 9⟩, d := 45, a := 301, ty := .b16 }),
    ([0x68285625, 0x21020009], .scanLaneAdd { h := ⟨2, 9⟩, d := 40, a := 301, ty := .f32, rmo := .rne }),
    ([0x68295665, 0x20020009], .scanLaneMin { h := ⟨2, 9⟩, d := 41, a := 301, ty := .f32 }),
    ([0x682A56A5, 0x20020009], .scanLaneMax { h := ⟨2, 9⟩, d := 42, a := 301, ty := .f32 }),
    ([0x682B56E5, 0x20220009], .scanLaneAnd { h := ⟨2, 9⟩, d := 43, a := 301, ty := .b16 }),
    ([0x682C5725, 0x20220009], .scanLaneOr { h := ⟨2, 9⟩, d := 44, a := 301, ty := .b16 }),
    ([0x682D5765, 0x20220009], .scanLaneXor { h := ⟨2, 9⟩, d := 45, a := 301, ty := .b16 }),
    ([0x68285825, 0x21020009], .scanLaneAddEx { h := ⟨2, 9⟩, d := 40, a := 301, ty := .f32, rmo := .rne }),
    ([0x68295865, 0x20020009], .scanLaneMinEx { h := ⟨2, 9⟩, d := 41, a := 301, ty := .f32 }),
    ([0x682A58A5, 0x20020009], .scanLaneMaxEx { h := ⟨2, 9⟩, d := 42, a := 301, ty := .f32 })]
theorem test_decode_cross2 : decodes words_cross2 = true := by decide
def words_cross3 : List (List (BitVec 32) × Instr) := [
    ([0x682B58E5, 0x20220009], .scanLaneAndEx { h := ⟨2, 9⟩, d := 43, a := 301, ty := .b16 }),
    ([0x682C5925, 0x20220009], .scanLaneOrEx { h := ⟨2, 9⟩, d := 44, a := 301, ty := .b16 }),
    ([0x682D5965, 0x20220009], .scanLaneXorEx { h := ⟨2, 9⟩, d := 45, a := 301, ty := .b16 })]
theorem test_decode_cross3 : decodes words_cross3 = true := by decide
def words_special1 : List (List (BitVec 32) × Instr) := [
    ([0x00005C25, 0x20000000], .xaClr { h := ⟨2, 9⟩ }),
    ([0x68005C65, 0x20080009], .xaAdd { h := ⟨2, 9⟩, a := 301, ty := .f8e4 }),
    ([0x68005CA5, 0x20064B89], .xaMac { h := ⟨2, 9⟩, a := 301, b := 302, ty := .bf16 }),
    ([0x00285CE5, 0x23C40000], .xaRnd { h := ⟨2, 9⟩, d := 40, ty := .f16, rmo := .rdn, sat := true }),
    ([0x00285D25, 0x20440000], .xaGet { h := ⟨2, 9⟩, d := 40, c := 34 }),
    ([0x48005D65, 0x200E0001], .xaSet { h := ⟨2, 9⟩, a := 41, c := 7 }),
    ([0x48005DA5, 0x20000001], .xaMerge { h := ⟨2, 9⟩, a := 41 }),
    ([0x692C6025, 0x20040009], .rcp { h := ⟨2, 9⟩, d := 300, a := 301, ty := .f16 }),
    ([0x692C6065, 0x20040009], .rsqrt { h := ⟨2, 9⟩, d := 300, a := 301, ty := .f16 }),
    ([0x692C60A5, 0x20040009], .exp2 { h := ⟨2, 9⟩, d := 300, a := 301, ty := .f16 }),
    ([0x692C60E5, 0x20040009], .log2 { h := ⟨2, 9⟩, d := 300, a := 301, ty := .f16 }),
    ([0x692C6125, 0x20040009], .sin { h := ⟨2, 9⟩, d := 300, a := 301, ty := .f16 })]
theorem test_decode_special1 : decodes words_special1 = true := by decide
def words_special2 : List (List (BitVec 32) × Instr) := [
    ([0x692C6165, 0x20040009], .cos { h := ⟨2, 9⟩, d := 300, a := 301, ty := .f16 }),
    ([0x692C61A5, 0x21404B89], .fpDiv { h := ⟨2, 9⟩, d := 300, a := 301, b := 302, ty := .f64, rmo := .rtz }),
    ([0x692C61E5, 0x20020009], .sqrt { h := ⟨2, 9⟩, d := 300, a := 301, ty := .f32, rmo := .mode }),
    ([0x0000D027, 0x00000000, 0x0000BEEF], .trap { code := 0xBEEF, stall := 9 }),
    ([0x4800D065, 0x00000001], .modeSet { a := 41, stall := 9 }),
    ([0x0028D0A5, 0x00000000], .modeGet { d := 40, stall := 9 }),
    ([0x0028D0E5, 0x00000000], .timeGet { d := 40, stall := 9 }),
    ([0x0028D125, 0x02020000], .csrGet { d := 40, idx := 0x101, stall := 9 }),
    ([0x0000D165, 0x00000000], .yield { stall := 9 }),
    ([0x4800D1A5, 0x00000001], .sleepUntil { a := 41, stall := 9 }),
    ([0x0028D1E5, 0x00420000], .perfGet { d := 40, idx := 0x021, stall := 9 })]
theorem test_decode_special2 : decodes words_special2 = true := by decide
def words_memory1 : List (List (BitVec 32) × Instr) := [
    ([0x692C7025, 0x24B20009], .ld { h := ⟨2, 9⟩, d := 300, a := 301, mem := ⟨.acq, .dev, .i16⟩, off := .none }),
    ([0x68007067, 0x28544B89, 0xFFFFFFFC], .st { h := ⟨2, 9⟩, a := 301, b := 302, mem := ⟨.rel, .sys, .b8⟩, off := .lit 0xFFFFFFFC }),
    ([0x692C70A7, 0x27000009, 0x00000008], .ldRo { h := ⟨2, 9⟩, d := 300, a := 301, mem := ⟨.plain, .wave, .n32⟩, off := .lit 8 }),
    ([0x482870E5, 0x29920001], .ldS { h := ⟨2, 9⟩, d := 40, a := 41, mem := ⟨.acq, .group, .b64⟩, off := .none }),
    ([0x48007125, 0x25800A81], .stS { h := ⟨2, 9⟩, a := 41, b := 42, mem := ⟨.plain, .wave, .i64⟩, off := .none }),
    ([0x692C7165, 0x29000009], .ldL { h := ⟨2, 9⟩, d := 300, a := 301, mem := ⟨.plain, .wave, .b32⟩, off := .none }),
    ([0x680071A5, 0x27804B89], .stL { h := ⟨2, 9⟩, a := 301, b := 302, mem := ⟨.plain, .wave, .n64⟩, off := .none }),
    ([0x680071E7, 0x20000009, 0x00000040], .pf { h := ⟨2, 9⟩, a := 301, off := .lit 64 }),
    ([0x692C8025, 0x25000009], .ldWf { h := ⟨2, 9⟩, d := 300, a := 301, mem := ⟨.plain, .wave, .i32⟩, off := .none }),
    ([0x692C8065, 0x27A60009], .ldWfe { h := ⟨2, 9⟩, d := 300, a := 301, mem := ⟨.ar, .crew, .n64⟩, off := .none }),
    ([0x680080A5, 0x29444B89], .stWe { h := ⟨2, 9⟩, a := 301, b := 302, mem := ⟨.rel, .dom, .b32⟩, off := .none }),
    ([0x680080E5, 0x29804B89], .stF { h := ⟨2, 9⟩, a := 301, b := 302, mem := ⟨.plain, .wave, .b64⟩, off := .none })]
theorem test_decode_memory1 : decodes words_memory1 = true := by decide
def words_memory2 : List (List (BitVec 32) × Instr) := [
    ([0x692C8125, 0x29000009], .tagGet { h := ⟨2, 9⟩, d := 300, a := 301, mem := ⟨.plain, .wave, .b32⟩, off := .none }),
    ([0x68008165, 0x29004B89], .tagSet { h := ⟨2, 9⟩, a := 301, b := 302, mem := ⟨.plain, .wave, .b32⟩, off := .none })]
theorem test_decode_memory2 : decodes words_memory2 = true := by decide
def words_atomic1 : List (List (BitVec 32) × Instr) := [
    ([0x692C8425, 0x20B84B89], .atomAdd { h := ⟨2, 9⟩, d := 300, a := 301, b := 302, mem := ⟨.sc, .dev, .f32⟩, off := .none }),
    ([0x68008825, 0x20B44B89], .redAdd { h := ⟨2, 9⟩, a := 301, b := 302, mem := ⟨.rel, .dev, .f32⟩, off := .none }),
    ([0x692C8465, 0x25384B89], .atomMin { h := ⟨2, 9⟩, d := 300, a := 301, b := 302, mem := ⟨.sc, .dev, .i32⟩, off := .none }),
    ([0x68008865, 0x25344B89], .redMin { h := ⟨2, 9⟩, a := 301, b := 302, mem := ⟨.rel, .dev, .i32⟩, off := .none }),
    ([0x692C84A5, 0x27B84B89], .atomMax { h := ⟨2, 9⟩, d := 300, a := 301, b := 302, mem := ⟨.sc, .dev, .n64⟩, off := .none }),
    ([0x680088A5, 0x27B44B89], .redMax { h := ⟨2, 9⟩, a := 301, b := 302, mem := ⟨.rel, .dev, .n64⟩, off := .none }),
    ([0x692C84E5, 0x29384B89], .atomAnd { h := ⟨2, 9⟩, d := 300, a := 301, b := 302, mem := ⟨.sc, .dev, .b32⟩, off := .none }),
    ([0x680088E5, 0x29344B89], .redAnd { h := ⟨2, 9⟩, a := 301, b := 302, mem := ⟨.rel, .dev, .b32⟩, off := .none }),
    ([0x692C8525, 0x29B84B89], .atomOr { h := ⟨2, 9⟩, d := 300, a := 301, b := 302, mem := ⟨.sc, .dev, .b64⟩, off := .none }),
    ([0x68008925, 0x29B44B89], .redOr { h := ⟨2, 9⟩, a := 301, b := 302, mem := ⟨.rel, .dev, .b64⟩, off := .none }),
    ([0x692C8565, 0x29384B89], .atomXor { h := ⟨2, 9⟩, d := 300, a := 301, b := 302, mem := ⟨.sc, .dev, .b32⟩, off := .none }),
    ([0x68008965, 0x29344B89], .redXor { h := ⟨2, 9⟩, a := 301, b := 302, mem := ⟨.rel, .dev, .b32⟩, off := .none })]
theorem test_decode_atomic1 : decodes words_atomic1 = true := by decide
def words_atomic2 : List (List (BitVec 32) × Instr) := [
    ([0x692C85A5, 0x29B84B89], .atomExch { h := ⟨2, 9⟩, d := 300, a := 301, b := 302, mem := ⟨.sc, .dev, .b64⟩, off := .none }),
    ([0x692C85E5, 0x27384B89], .atomIncWrap { h := ⟨2, 9⟩, d := 300, a := 301, b := 302, mem := ⟨.sc, .dev, .n32⟩, off := .none }),
    ([0x680089A5, 0x27804B89], .redIncWrap { h := ⟨2, 9⟩, a := 301, b := 302, mem := ⟨.plain, .wave, .n64⟩, off := .none }),
    ([0x692C8627, 0x27804B89, 0x00000004], .atomAddBound { h := ⟨2, 9⟩, d := 300, a := 301, b := 302, mem := ⟨.plain, .wave, .n64⟩, m := 4 }),
    ([0x692C8667, 0x29964B89, 0x00000010], .atomCas { h := ⟨2, 9⟩, d := 300, a := 301, b := 302, mem := ⟨.ar, .group, .b64⟩, off := .lit 16 })]
theorem test_decode_atomic2 : decodes words_atomic2 = true := by decide
def words_sync1 : List (List (BitVec 32) × Instr) := [
    ([0x00009025, 0x20300000], .fenceAcq { h := ⟨2, 9⟩, scp := .dev }),
    ([0x00009065, 0x20300000], .fenceRel { h := ⟨2, 9⟩, scp := .dev }),
    ([0x000090A5, 0x20300000], .fenceAr { h := ⟨2, 9⟩, scp := .dev }),
    ([0x000090E5, 0x20300000], .fenceSc { h := ⟨2, 9⟩, scp := .dev }),
    ([0x00009125, 0x20000000], .roInv { h := ⟨2, 9⟩ }),
    ([0x48009225, 0x20000A81], .boInit { h := ⟨2, 9⟩, a := 41, b := 42, off := .none }),
    ([0x48009265, 0x20000A81], .boExpect { h := ⟨2, 9⟩, a := 41, b := 42, off := .none }),
    ([0x480092E5, 0x20000A81], .boWait { h := ⟨2, 9⟩, a := 41, b := 42, off := .none }),
    ([0x482892A7, 0x20000A81, 0x00000008], .boArrive { h := ⟨2, 9⟩, d := 40, a := 41, b := 42, off := .lit 8 }),
    ([0x48009425, 0x20300001], .lockAcq { h := ⟨2, 9⟩, a := 41, scp := .dev, off := .none }),
    ([0x48289465, 0x20100001], .lockTry { h := ⟨2, 9⟩, d := 40, a := 41, scp := .group, off := .none }),
    ([0x480094A5, 0x20500001], .lockRel { h := ⟨2, 9⟩, a := 41, scp := .sys, off := .none })]
theorem test_decode_sync1 : decodes words_sync1 = true := by decide
def words_sync2 : List (List (BitVec 32) × Instr) := [
    ([0x48289625, 0x20300A81], .dqPush { h := ⟨2, 9⟩, d := 40, a := 41, b := 42, scp := .dev, off := .none }),
    ([0x48289667, 0x20400A81, 0x00000040], .dqPop { h := ⟨2, 9⟩, d := 40, a := 41, b := 42, scp := .dom, off := .lit 64 }),
    ([0x48289825, 0x20000A81], .ownSet { h := ⟨2, 9⟩, d := 40, a := 41, b := 42, off := .none }),
    ([0x48009867, 0x20000001, 0x00000004], .ownClr { h := ⟨2, 9⟩, a := 41, off := .lit 4 })]
theorem test_decode_sync2 : decodes words_sync2 = true := by decide
def words_copy1 : List (List (BitVec 32) × Instr) := [
    ([0x042BA025, 0x20580040], .cpIn { h := ⟨2, 9⟩, cw := ⟨true, 43⟩, a := 0, ity := none, dsel := 1, tsr := .mem 44 }),
    ([0x482BA065, 0xA0002001, 0xDEADBE00, 0x00080000, 0x00020001, 0x00040003], .cpOut { h := ⟨2, 9⟩, cw := ⟨false, 43⟩, a := 41, ity := some .f16, dsel := 0, tsr := .inl 0x400030002000100080000deadbe00 }),
    ([0x482BA0A5, 0x20580001], .cpLl { h := ⟨2, 9⟩, cw := ⟨false, 43⟩, a := 41, ity := none, dsel := 0, tsr := .mem 44 }),
    ([0x0000A0E5, 0x20000000], .fenceRec { h := ⟨2, 9⟩ })]
theorem test_decode_copy1 : decodes words_copy1 = true := by decide
def words_matrix1 : List (List (BitVec 32) × Instr) := [
    ([0xF809B025, 0x20000000], .mmaF64 { h := ⟨2, 9⟩, ad := 9, kx := 31, ablk := 0, bblk := 0 }),
    ([0x780AB225, 0x20000000], .mmaCrewF64 { h := ⟨2, 9⟩, ad := 10, kx := 15, ablk := 0, bblk := 0 }),
    ([0xF809B065, 0x20000000], .mmaF32 { h := ⟨2, 9⟩, ad := 9, kx := 31, ablk := 0, bblk := 0 }),
    ([0x780AB265, 0x20000000], .mmaCrewF32 { h := ⟨2, 9⟩, ad := 10, kx := 15, ablk := 0, bblk := 0 }),
    ([0xF809B0A5, 0x20000000], .mmaF16 { h := ⟨2, 9⟩, ad := 9, kx := 31, ablk := 0, bblk := 0 }),
    ([0x780AB2A5, 0x20000000], .mmaCrewF16 { h := ⟨2, 9⟩, ad := 10, kx := 15, ablk := 0, bblk := 0 }),
    ([0xF809B0E5, 0x20000000], .mmaBf16 { h := ⟨2, 9⟩, ad := 9, kx := 31, ablk := 0, bblk := 0 }),
    ([0x780AB2E5, 0x20000000], .mmaCrewBf16 { h := ⟨2, 9⟩, ad := 10, kx := 15, ablk := 0, bblk := 0 }),
    ([0xF809B125, 0x20000440], .mmaF8e4 { h := ⟨2, 9⟩, ad := 9, kx := 31, ablk := 1, bblk := 2 }),
    ([0x780AB325, 0x20000280], .mmaCrewF8e4 { h := ⟨2, 9⟩, ad := 10, kx := 15, ablk := 2, bblk := 1 }),
    ([0xF809B165, 0x20000440], .mmaF8e5 { h := ⟨2, 9⟩, ad := 9, kx := 31, ablk := 1, bblk := 2 }),
    ([0x780AB365, 0x20000280], .mmaCrewF8e5 { h := ⟨2, 9⟩, ad := 10, kx := 15, ablk := 2, bblk := 1 })]
theorem test_decode_matrix1 : decodes words_matrix1 = true := by decide
def words_matrix2 : List (List (BitVec 32) × Instr) := [
    ([0xF809B1A5, 0x20000000], .mmaI8 { h := ⟨2, 9⟩, ad := 9, kx := 31, ablk := 0, bblk := 0 }),
    ([0x780AB3A5, 0x20000000], .mmaCrewI8 { h := ⟨2, 9⟩, ad := 10, kx := 15, ablk := 0, bblk := 0 }),
    ([0xF809B1E5, 0x20000440], .mmaCb4 { h := ⟨2, 9⟩, ad := 9, kx := 31, ablk := 1, bblk := 2 }),
    ([0x780AB3E5, 0x20000280], .mmaCrewCb4 { h := ⟨2, 9⟩, ad := 10, kx := 15, ablk := 2, bblk := 1 }),
    ([0x3809B425, 0x201400C0], .accClr { h := ⟨2, 9⟩, ad := 9, mx := 7, nx := 3, ty := .i32 }),
    ([0x0009B465, 0xA0000080, 0xDEADBE00, 0x00080000, 0x00020001, 0x00040003], .accLd { h := ⟨2, 9⟩, ad := 9, ity := some .f16, tsr := .inl 0x400030002000100080000deadbe00 }),
    ([0x5809B4A5, 0x20580521], .accSt { h := ⟨2, 9⟩, ad := 9, cw := ⟨true, 43⟩, sb := 20, tsr := .mem 44 }),
    ([0x492CB4E5, 0x20240001], .accMovGet { h := ⟨2, 9⟩, d := 300, a := 41, ad := 9 }),
    ([0x492CB4E5, 0x20260001], .accMovPut { h := ⟨2, 9⟩, d := 300, a := 41, ad := 9 }),
    ([0x4800B525, 0x20000041], .feedSkip { h := ⟨2, 9⟩, a := 41, fsel := true }),
    ([0x0028B565, 0x20000040], .feedMark { h := ⟨2, 9⟩, d := 40, fsel := true }),
    ([0x4801B5A5, 0x20000001], .cbLoad { h := ⟨2, 9⟩, tsel := true, a := 41 })]
theorem test_decode_matrix2 : decodes words_matrix2 = true := by decide
def words_matrix3 : List (List (BitVec 32) × Instr) := [
    ([0x4C2BB825, 0x20000001], .ssm { h := ⟨2, 9⟩, cw := ⟨true, 43⟩, a := 41 })]
theorem test_decode_matrix3 : decodes words_matrix3 = true := by decide
def words_tasks1 : List (List (BitVec 32) × Instr) := [
    ([0x4828C025, 0x20000001], .taskLaunch { h := ⟨2, 9⟩, d := 40, a := 41 }),
    ([0x4800C065, 0x20000001], .depDec { h := ⟨2, 9⟩, a := 41 }),
    ([0x6800C227, 0x20000A89, 0xFFFFFF00], .spawn { h := ⟨2, 9⟩, a := 301, b := 42, tgt := 0xFFFFFF00 }),
    ([0x0000C265, 0x20000000], .spawnFlush { h := ⟨2, 9⟩ }),
    ([0x4800C2A5, 0x20000001], .joinWait { h := ⟨2, 9⟩, a := 41 }),
    ([0x4828C2E5, 0x20000001], .joinPoll { h := ⟨2, 9⟩, d := 40, a := 41 }),
    ([0x0000C425, 0x20300000], .regClaim { h := ⟨2, 9⟩, n := 24 }),
    ([0x0000C465, 0x20400000], .regGive { h := ⟨2, 9⟩, n := 32 })]
theorem test_decode_tasks1 : decodes words_tasks1 = true := by decide
def words_graphics1 : List (List (BitVec 32) × Instr) := [
    ([0x6804E025, 0x20000A89], .binEmit { h := ⟨2, 9⟩, d := 4, a := 301, b := 42 }),
    ([0x4800E065, 0x20000001], .binEnd { h := ⟨2, 9⟩, a := 41 }),
    ([0x4800E065, 0x20020001], .binEndReset { h := ⟨2, 9⟩, a := 41 }),
    ([0x492CE0A5, 0x201A4B81], .fragOut { h := ⟨2, 9⟩, d := 300, a := 41, b := 302, m := 5 }),
    ([0x492CE0A5, 0x200A0001], .fragOutInit { h := ⟨2, 9⟩, d := 300, a := 41, m := 5 }),
    ([0x4828E225, 0x20000001], .ringAcq { h := ⟨2, 9⟩, d := 40, a := 41 }),
    ([0x4828E225, 0x20020001], .ringAcqCons { h := ⟨2, 9⟩, d := 40, a := 41 }),
    ([0x4800E265, 0x20000A81], .ringRel { h := ⟨2, 9⟩, a := 41, b := 42 }),
    ([0x4800E265, 0x20020A81], .ringRelCons { h := ⟨2, 9⟩, a := 41, b := 42 }),
    ([0x4800E2A5, 0x20000A81], .ringHalo { h := ⟨2, 9⟩, a := 41, b := 42 }),
    ([0x6800E425, 0x20560A89], .rtTrace { h := ⟨2, 9⟩, a := 301, b := 42, c := 43 }),
    ([0x012CE465, 0x20000000], .rtNext { h := ⟨2, 9⟩, d := 300 })]
theorem test_decode_graphics1 : decodes words_graphics1 = true := by decide
def words_graphics2 : List (List (BitVec 32) × Instr) := [
    ([0x6804E4A5, 0x20004B89], .rtAccept { h := ⟨2, 9⟩, d := 4, a := 301, b := 302 }),
    ([0x0000E4E5, 0x20560A80], .rtReplay { h := ⟨2, 9⟩, b := 42, c := 43 })]
theorem test_decode_graphics2 : decodes words_graphics2 = true := by decide
def words_compact1 : List (List (BitVec 32) × Instr) := [
    ([0xA16B200C], .addI64VectorCompact { d := 100, a := 90, b := 80, stall := 2 }),
    ([0xA16B2014], .addF32Compact { d := 100, a := 90, b := 80, stall := 2 }),
    ([0xA16B201C], .mulF32Compact { d := 100, a := 90, b := 80, stall := 2 }),
    ([0xA16B2024], .addF64Compact { d := 100, a := 90, b := 80, stall := 2 }),
    ([0xA16B202C], .mulF64Compact { d := 100, a := 90, b := 80, stall := 2 }),
    ([0xA16B2034], .andB64Compact { d := 100, a := 90, b := 80, stall := 2 }),
    ([0xA16B203C], .orB64Compact { d := 100, a := 90, b := 80, stall := 2 }),
    ([0xA16B2044], .xorB64Compact { d := 100, a := 90, b := 80, stall := 2 }),
    ([0xA16B2054], .addI64ScalarCompact { d := 100, a := 90, b := 80, stall := 2 }),
    ([0xA16B205C], .subI64ScalarCompact { d := 100, a := 90, b := 80, stall := 2 }),
    ([0xA16B206C], .shlN64ScalarCompact { d := 100, a := 90, b := 80, stall := 2 }),
    ([0xA16B2074], .addI32VectorCompact { d := 100, a := 90, b := 80, stall := 2 })]
theorem test_decode_compact1 : decodes words_compact1 = true := by decide
def words_compact2 : List (List (BitVec 32) × Instr) := [
    ([0xA003204C], .movB64VectorCompact { d := 100, b := 80, stall := 2 }),
    ([0xA0032064], .movB64ScalarCompact { d := 100, b := 80, stall := 2 }),
    ([0x0000007C], .nopCompact { stall := 2 }),
    ([0x016B2084], .ldSB64Compact { d := 100, a := 90, stall := 2 }),
    ([0xA168008C], .stSB64Compact { a := 90, b := 80, stall := 2 })]
theorem test_decode_compact2 : decodes words_compact2 = true := by decide
/-- Every word above: one instruction of each constructor. -/
def allWords : List (List (List (BitVec 32) × Instr)) := [words_control1, words_scalar1, words_scalar2, words_vector1, words_vector2, words_vector3, words_float1, words_float2, words_convert1, words_cross1, words_cross2, words_cross3, words_special1, words_special2, words_memory1, words_memory2, words_atomic1, words_atomic2, words_sync1, words_sync2, words_copy1, words_matrix1, words_matrix2, words_matrix3, words_tasks1, words_graphics1, words_graphics2, words_compact1, words_compact2]

/-! ### Ill-formed terms: each check of WellFormed refuses one -/

/-- None of a list of terms is an instruction of the part. -/
def illFormed (xs : List Instr) : Bool := xs.all (fun i => !i.wf)

/-- Types an operation does not admit (Table 11.2). -/
theorem test_wf_types : illFormed [
    .scalarAdd { h := h0, d := 1, a := 2, b := .reg 3, ty := .b32, sat := false }, .scalarMul { h := h0, d := 1, a := 2, b := .reg 3, ty := .f32 },
    .scalarNot { h := h0, d := 1, a := 2, ty := .f64 }, .scalarMov { h := h0, d := 1, b := .reg 3, ty := .cb4 },
    .scalarCmp { h := h0, d := 1, a := 2, b := .reg 3, ty := .f32, cnd := .eq },
    .vectorAdd { h := h0, d := 1, a := 2, b := .vec 3, ty := .b8, sat := false }, .vectorAbs { h := h0, d := 1, a := 2, ty := .n8, sat := false },
    .vectorMov { h := h0, d := 1, b := .vec 3, ty := .f32 }, .bfe { h := h0, d := 1, a := 2, b := .vec 3, ty := .b32 },
    .fpAdd { h := h0, d := 1, a := 2, b := .vec 3, ty := .f8e4, rmo := .mode }, .fpCmp { h := h0, d := 1, a := 2, b := .vec 3, ty := .i32, cnd := .eq },
    .rint { h := h0, d := 1, a := 2, ty := .i64, rmo := .mode }, .ldexp { h := h0, d := 1, a := 2, b := .vec 3, ty := .i32, rmo := .mode },
    .xlGet { h := h0, z := true, d := 1, a := 2, b := 3, ty := .n32 }, .xlReorder { h := h0, z := true, d := 1, a := 2, b := 3, ty := .b32 },
    .redLaneMin { h := h0, d := 1, a := 2, ty := .b32 }, .redLaneAnd { h := h0, d := 1, a := 2, ty := .f32 },
    .xaAdd { h := h0, a := 2, ty := .cb4 }, .xaMac { h := h0, a := 2, b := 3, ty := .f64 }, .xaRnd { h := h0, d := 1, ty := .i32, rmo := .mode, sat := true },
    .rcp { h := h0, d := 1, a := 2, ty := .f8e4 }, .fpDiv { h := h0, d := 1, a := 2, b := 3, ty := .f16, rmo := .mode },
    .accClr { h := h0, ad := 1, mx := 0, nx := 0, ty := .i16 }] = true := by decide
/-- Literals that break R122 or R131, and compare conditions of R120. -/
theorem test_wf_literals : illFormed [
    .scalarAdd { h := h0, d := 1, a := 2, b := .lit 0x8000, ty := .i16, sat := false },
    .scalarAnd { h := h0, d := 1, a := 2, b := .lit 0x10000, ty := .b16 }, .vectorAdd { h := h0, d := 1, a := 2, b := .lit 0x100, ty := .n8, sat := false },
    .fpAdd { h := h0, d := 1, a := 2, b := .lit 0x10000, ty := .f16, rmo := .mode }, .ldexp { h := h0, d := 1, a := 2, b := .lit 0x8000, ty := .bf16, rmo := .mode },
    .br { neg := false, cond := 0, tgt := .far 2, stall := 0 }, .call { d := 1, tgt := .far 1, stall := 0 }, .spawn { h := h0, a := 1, b := 2, tgt := 3 },
    .brDiv { neg := false, cond := 0, rej := 0, tgt := .far 1, stall := 0 }, .brEj { neg := false, cond := 0, rej := 0, tgt := .far 2, stall := 0 },
    .scalarCmp { h := h0, d := 1, a := 2, b := .reg 3, ty := .b32, cnd := .lt }, .scalarCmp { h := h0, d := 1, a := 2, b := .reg 3, ty := .i32, cnd := .unord },
    .vectorCmp { h := h0, d := 1, a := 2, b := .vec 3, ty := .n32, cnd := .ord }] = true := by decide
/-- Rounding on an integer sum, conversions, shift constants, chunks, register numbers of class 13. -/
theorem test_wf_fields : illFormed [
    .redLaneAdd { h := h0, d := 1, a := 2, ty := .i32, rmo := .rne }, .cvt { h := h0, d := 1, a := 2, src := .b32, dst := .f32, rmo := .mode, sat := false },
    .pack { h := h0, d := 1, a := 2, src := .f32, dst := .f32, rmo := .mode, sat := false },
    .unpack { h := h0, d := 1, a := 2, src := .f32, dst := .f16, rmo := .mode, sat := false },
    .xlShup { h := h0, z := true, d := 1, a := 2, b := 32, ty := .b64 }, .xaGet { h := h0, d := 1, c := 35 }, .xaSet { h := h0, a := 1, c := 35 },
    .csrGet { d := 1, idx := 0x00A, stall := 0 }, .perfGet { d := 1, idx := 0x003, stall := 0 }] = true := by decide
/-- MEM words, scopes and copy selectors (R121, R191, R209), block codes (R244, R259). -/
theorem test_wf_memory : illFormed [
    .ld { h := h0, d := 1, a := 2, mem := ⟨.plain, .dev, .b32⟩, off := .none }, .ld { h := h0, d := 1, a := 2, mem := ⟨.rel, .dev, .b32⟩, off := .none },
    .ld { h := h0, d := 1, a := 2, mem := ⟨.plain, .wave, .f32⟩, off := .none }, .st { h := h0, a := 2, b := 1, mem := ⟨.acq, .dev, .b32⟩, off := .none },
    .ldRo { h := h0, d := 1, a := 2, mem := ⟨.acq, .dev, .b32⟩, off := .none }, .ldWf { h := h0, d := 1, a := 2, mem := ⟨.plain, .wave, .b16⟩, off := .none },
    .tagGet { h := h0, d := 1, a := 2, mem := ⟨.plain, .wave, .n32⟩, off := .none }, .ldWfe { h := h0, d := 1, a := 2, mem := ⟨.sc, .dev, .b32⟩, off := .none },
    .atomAnd { h := h0, d := 1, a := 2, b := 3, mem := ⟨.plain, .wave, .n32⟩, off := .none }, .redAdd { h := h0, a := 2, b := 3, mem := ⟨.acq, .dev, .n32⟩, off := .none },
    .atomAddBound { h := h0, d := 1, a := 2, b := 3, mem := ⟨.plain, .wave, .i32⟩, m := 1 },
    .lockAcq { h := h0, a := 1, scp := .wave, off := .none }, .lockTry { h := h0, d := 1, a := 2, scp := .wave, off := .none },
    .dqPush { h := h0, d := 1, a := 2, b := 3, scp := .wave, off := .none },
    .cpIn { h := h0, cw := ⟨false, 1⟩, a := 2, ity := none, dsel := 1, tsr := .mem 1 }, .cpIn { h := h0, cw := ⟨false, 1⟩, a := 0, ity := none, dsel := 3, tsr := .mem 1 },
    .cpOut { h := h0, cw := ⟨false, 1⟩, a := 2, ity := none, dsel := 1, tsr := .mem 1 }, .cpLl { h := h0, cw := ⟨false, 1⟩, a := 2, ity := some .f16, dsel := 0, tsr := .mem 1 },
    .cpLl { h := h0, cw := ⟨false, 1⟩, a := 2, ity := none, dsel := 0, tsr := .inl 0 }, .accLd { h := h0, ad := 1, ity := some .f32, tsr := .mem 1 },
    .mmaF16 { h := h0, ad := 1, kx := 0, ablk := 1, bblk := 0 }, .mmaF8e4 { h := h0, ad := 1, kx := 0, ablk := 5, bblk := 0 },
    .mmaF8e4 { h := h0, ad := 1, kx := 0, ablk := 0, bblk := 2 }] = true := by decide
/-- A step of the device is no code. -/
theorem test_wf_events : illFormed [.illegalOpcode, .joinCountZero, .groupPlace, .perstAssert] = true := by decide
/-- Encodings that are no instruction: an unlisted OP8 and opcode10, a literal form of an opcode that has none, a type not admitted (R118, R119,
R130); reserved fields, by their lowest bit (R119, R398). -/
theorem test_decode_refuses : decode [0] = .instr .illegalOpcode ∧ decode [0x0000F001, 0] = .instr .illegalOpcode ∧
    decode [0x00000203, 0, 0] = .instr .illegalOpcode ∧ decode [0x00001001, 0x00020000] = .instr .illegalOpcode ∧
    decode [0x00010201, 0] = .reserved 16 ∧ decode [0x00000201, 0x80000000] = .reserved 63 := by decide

/-! ### States that meet the hypotheses of the statements, each clause at a boundary value where it has a range -/

/-- What `Clear` asks of wave 32 beyond its being the selected wave, as a check. -/
def clr (sp : Spec) (w : Wave) : Bool :=
  sp.opnds.all (fun o => decide (regBad w o = none)) && decide (sp.priv = none) && (!early sp w || !modeCheck w.mode) && !tokenBlocked sp w
theorem clear_of_clr (sp : Spec) (s : State) (w : Wave) (hc : s.cur = some 32) (hw : s.wave? 32 = some w) (h : clr sp w = true) : Clear sp s 32 w := by
  simp only [clr, Bool.and_eq_true, decide_eq_true_eq, List.all_eq_true, Bool.or_eq_true, Bool.not_eq_true'] at h
  obtain ⟨⟨⟨c, d⟩, e⟩, f⟩ := h
  exact ⟨hc, hw, c, by simp [privBad, d], fun he => e.resolve_left (by simp [he]), f⟩
/-- The small states select their wave. -/
theorem sw_selects (w : Wave) : (sw w).cur = some 32 ∧ (sw w).wave? 32 = some w := ⟨rfl, rfl⟩
theorem s0_selects : s0.cur = some 32 ∧ s0.wave? 32 = some w0 := ⟨rfl, rfl⟩
/-- At the small state nothing stands in the way of any instruction of the decode tests that the table of needs names, but for the privilege of
a special register (`csr.get` of 0x101). -/
def allClear (ws : List (List (List (BitVec 32) × Instr))) : Bool :=
  ws.all (fun l => l.all (fun p => match specOf p.2 with
    | some sp => clr { sp with priv := none } w0
    | none => true))
theorem witness_clear_1 : allClear (allWords.take 8) = true := by decide
theorem witness_clear_2 : allClear (allWords.drop 8) = true := by decide
/-- RegisterInstructionsComplete, ScalarResults, VectorIntegerAndCompare, VotesAndReductions: the tables name the instructions. -/
theorem witness_regSpec : (words_scalar1 ++ words_scalar2 ++ words_vector1 ++ words_vector2).all (fun p => (regSpec p.2).isSome) = true := by decide
/-- FloatResults and Conversions: formats, patterns, NaN and infinity at the ends of their ranges. -/
theorem witness_formats : Ty.f8e5 ∈ tysF6 ∧ 255 < 2 ^ Ty.f8e5.width ∧ Ty.f16 ∈ tysF6IN ∧ Ty.n8 ∈ tysIN ∧ Ty.f16.isF = true ∧
    frd envRne .f16 0x7E00 = .nan ∧ frd envRne .f16 0xFC00 = .inf true ∧ Ty.i64.isF = false ∧ Ty.n8.width ≤ Ty.i64.width ∧ Ty.b8 ∈ tysINB := by decide

/-- A cross-lane read of an inactive lane: `xl.shdn` by 1 at lanes 0 and 1, lane 2 inactive. -/
def shdn : XlF := { h := h0, z := false, d := 8, a := 9, b := 1, ty := .b64 }
def w3 : Wave := { w0 with path := 3 }
theorem witness_cross : clr (specH h0 8 [vOp 8 1 true, vOp 9] (some 8)) w3 = true ∧ (activeOf w3 h0.mask).getLsbD 1 = true ∧
    (activeOf w3 h0.mask).getLsbD 2 = false ∧ (crossShape (.xlShdn shdn)).map (fun p => p.2.2 w3 1 0) = some (some (2, 0)) ∧
    (crossShape (.xlShdn { shdn with z := true })).isSome = true ∧
    (crossShape (.xlXor { shdn with ty := .b64, b := 1 })).map (fun p => [0, 1].map (fun l => p.2.2 w3 l 0)) = some [some (1, 0), some (0, 0)] := by decide
theorem witness_accumulator : clr (specH h0 8 [sOp 1] (some 1)) w0 = true ∧ activeOf w0 h0.mask ≠ 0 ∧ (33 : Field11).toNat < 34 ∧ Ty.n64 ∈ tysIN := by decide

/-! Class 0 -/
/-- Lanes 0 to 3 run, and m1 holds in lanes 0 and 1. -/
def wb (toks : List Token) : Wave := { w0 with path := 0xF, m := [(1, 3)], tokens := toks, s := [(1, 0x2000), (2, 0x2001)] }
/-- The lanes in which a condition holds. -/
def holds (neg : Bool) (c : Nat) (w : Wave) : LaneMask := (if neg then ~~~ rdM w c else rdM w c) &&& w.path
theorem witness_branches : clr (spec0 8 0 [sOp 1] (condRead 1)) (wb []) = true ∧ holds false 0 (wb []) = (wb []).path ∧
    holds true 0 (wb []) = 0 ∧ holds true 0 (wb []) ≠ (wb []).path ∧ holds false 1 (wb []) ≠ (wb []).path ∧ holds false 1 (wb []) ≠ 0 ∧
    (rdS (wb []) 1).toNat % 4 = 0 ∧ (rdS (wb []) 2).toNat % 4 ≠ 0 ∧ clr (spec0 12 0 [sOp 5 1 true] []) (wb []) = true := by decide
/-- A wave whose tokens are given, at a `rejoin` at 0x10000. -/
def tok1 : Token := { rejoin := 0x10000, entry := 0xFF, pend := 0xF0, pendPc := 0x3000 }
theorem witness_divergent : (wb (List.replicate 7 tok1)).tokens.length < 8 ∧ 8 ≤ (wb (List.replicate 8 tok1)).tokens.length ∧
    clr (spec0 8 0 [] (condRead 1)) (wb (List.replicate 7 tok1)) = true ∧
    clr (spec0 8 0 [] (condRead 0)) (wb (List.replicate 8 tok1)) = true ∧
    holds true 0 (wb (List.replicate 8 tok1)) = 0 ∧ (wb []).path &&& ~~~ holds false 0 (wb []) = 0 ∧
    (match grantBlocks (entryState (spec0 8 0 [] (condRead 1)) (sw (wb [])) 32 (wb [])) 0 1 .cont 2 (contBlocks (wb [])) with
     | .places _ => true
     | _ => false) = true := by decide
theorem witness_rejoin : clr (spec0 8 0 [] []) (wb []) = true ∧ isCont (sw (wb [])) 32 = false ∧
    ({ tok1 with rejoin := 0x20000 } : Token).rejoin ≠ (wb []).pc ∧ tok1.rejoin = (wb []).pc ∧ tok1.pend &&& ~~~ (wb [tok1]).exited ≠ 0 ∧
    ({ tok1 with pend := 0 } : Token).pend &&& ~~~ (wb [tok1]).exited = 0 ∧ tok1.join = none ∧ tok1.entry &&& ~~~ (wb [tok1]).exited ≠ 0 ∧
    tok1.pend &&& ~~~ ((wb [tok1]).exited ||| (wb [tok1]).path) ≠ 0 ∧ tok1.entry &&& ~~~ ((wb [tok1]).exited ||| (wb [tok1]).path) ≠ 0 ∧
    clr (spec0 8 0 [] []) (wb [tok1]) = true := by decide
theorem witness_lanes_of_no_family : ∀ l, (kget ({} : LaneInfo) l (wb [tok1]).lanes).family = 0 := fun _ => rfl

/-! Exceptions and class 13 -/
/-- V1535 with 1,536 registers exists; V512 with 512 does not; S128 and M8 never do; `m0` is no destination; a result due in two cycles is
read with CHECK set. -/
def wc : Wave := { w0 with mode := 0x10, fixed := [(.s 1, 2)] }
theorem witness_checks : (regBad w0 (vOp 512)).isSome = true ∧ regBad { w0 with regCount := 1536 } (vOp 1535) = none ∧
    (regBad { w0 with regCount := 2000 } (vOp 1536)).isSome = true ∧ regBad w0 (sOp 127) = none ∧ (regBad w0 (sOp 128)).isSome = true ∧
    regBad w0 (mOp 7 true) = none ∧ (regBad w0 (mOp 0 true)).isSome = true ∧
    ({ specSys 8 0 [sOp 5 1 true] with priv := some 0x100 } : Spec).priv = some 0x100 ∧ modeCheck wc.mode = true ∧
    (undersized wc ((specH h0 8 [sOp 5 1 true, sOp 1] (some 2)).touched)).isSome = true := by decide
theorem witness_exception : s0.group? (gidOf 32) = some g0 ∧ g0.crew ≤ 1 ∧ g0.origin = .grid ∧ g0.helper = none ∧
    g0.replay = false ∧ (∀ p ∈ s0.groups, p.2.origin ≠ .continuation (gidOf 32)) := by decide
theorem witness_record : ({ cause := .breakpoint, reason := 255, core := 255, tenant := 63, seq := 2 ^ 64 - 1, gid := 2 ^ 62 - 1 } : Record).reason < 2 ^ 8 ∧
    (255 < 2 ^ 8 ∧ 63 < 2 ^ 6 ∧ 2 ^ 64 - 1 < 2 ^ 64 ∧ 2 ^ 62 - 1 < 2 ^ 62) := by decide
/-- `mode.set` of 0x1F and of values whose lowest reserved bit is 5 and 63; `sleep.until` at and after the time; the special registers. -/
def wm (x : Word) : Wave := { w0 with s := [(1, x)] }
theorem witness_system : clr (specSys 8 0 [sOp 1]) (wm 0x1F) = true ∧ (rdS (wm 0x1F) 1).extractLsb' 5 59 = 0 ∧
    (rdS (wm 0x20) 1).getLsbD 5 = true ∧ (rdS (wm 0x8000000000000000) 1).getLsbD 63 = true ∧
    (∀ c, c < 63 → 5 ≤ c → (rdS (wm 0x8000000000000000) 1).getLsbD c = false) ∧
    (rdS (wm 7) 1).toNat ≤ ({ sw (wm 7) with time := 7 * 2 ^ 32 } : State).time / 2 ^ 32 ∧
    ({ sw (wm 8) with time := 8 * 2 ^ 32 - 1 } : State).time / 2 ^ 32 < (rdS (wm 8) 1).toNat ∧
    clr { specSys 12 0 [] with reads := (List.range 8).map RegRef.s } w0 = true ∧ clr (specSys 8 0 [sOp 5 2 true]) w0 = true ∧
    (0xFF : Field11).toNat < 0x100 ∧ (8 : Field11).toNat = 8 ∧ clr (specSys 8 0 [vOp 5 1 true]) w0 = true := by decide

/-! Classes 7 and 8 -/
/-- Lanes 0 and 1 run; V9 holds an address and the next word's, V10 data, S1 an address, S2 data. -/
def wl (x : Word) (d : Word := 4) : Wave :=
  { w0 with path := 3, v := [(32 * 9, x), (32 * 9 + 1, x + d), (32 * 10, 5), (32 * 10 + 1, 6)], s := [(1, x), (2, 0x30000)], m := [(1, 0)] }
def okAll (a : LaneAcc) (s : State) (w : Wave) (place : Nat → Loc) : Bool :=
  (a.lanes w).all (fun p => match checkOne s (whoOf s 32) p.2 a.size a.size a.need a.extra with
    | .ok l => decide (l = place p.1)
    | .error _ => false)
theorem passes_of_ok (a : LaneAcc) (s : State) (w : Wave) (place : Nat → Loc) (h : okAll a s w place = true) : a.Passes s 32 w place := by
  intro p hp
  have := List.all_eq_true.1 h p hp
  revert this
  cases checkOne s (whoOf s 32) p.2 a.size a.size a.need a.extra <;> simp
def isErr (e : Except Fail Loc) (st : Nat) (c : Cause) : Bool :=
  match e with
  | .error x => decide (x.stage = st) && decide (x.cause = c)
  | .ok _ => false
def isOk (e : Except Fail Loc) (l : Loc) : Bool :=
  match e with
  | .ok x => decide (x = l)
  | .error _ => false
theorem eq_of_isOk (e : Except Fail Loc) (l : Loc) (h : isOk e l = true) : e = .ok l := by cases e <;> simp_all [isOk]
def ld0 (t : Ty) : LdF := { h := h0, d := 8, a := 9, mem := ⟨.plain, .wave, t⟩, off := .none }
def st0 (t : Ty) : StF := { h := h0, a := 9, b := 10, mem := ⟨.plain, .wave, t⟩, off := .none }
def at0 (t : Ty) : AtF := { h := h0, d := 8, a := 9, b := 10, mem := ⟨.plain, .wave, t⟩, off := .none }
/-- The end of the mapped 64 GiB, the end of local store, the shared window after its reserved 32 MiB. -/
def top : Word := 0xFFFFFFFF8
def lsTop : Word := 0xFF000000000FF8
def shb : Word := 0xFE000002000000
def extAt (x d l : Nat) : Loc := .ext (x + d * l)
def lsAt (x d l : Nat) : Loc := .ls 1 (x + d * l)
def shmAt (x d l : Nat) : Loc := .shm (x + d * l)
theorem witness_access_checks : isErr (checkOne s0 (whoOf s0 32) 0x101 4 4 needRd .plain) 0 .misaligned = true ∧
    isErr (checkOne s0 (whoOf s0 32) 0x1000000000 4 4 needRd .plain) 2 .pageNotPresent = true ∧
    isErr (checkOne s0 (whoOf s0 32) 0x100 4 4 needRd .tagged) 4 .tagMisuse = true ∧ (extraFail 0x100 .tagged).isSome = true ∧
    isErr (checkOne { s0 with poison := [(0, 4)] } (whoOf s0 32) 0x100 4 4 needRd .plain) 6 .eccUncorrectable = true ∧
    (match checkLanes (sw (wl 0x1000000000)) (whoOf s0 32) ((ldAcc (ld0 .b32) needRd .plain).lanes (wl 0x1000000000)) 4 4 needRd .plain with
     | .error _ => true
     | .ok _ => false) = true := by decide
theorem witness_loads : okAll (ldAcc (ld0 .b32) needRd .plain) (sw (wl top)) (wl top) (extAt 0xFFFFFFFF8 4) = true ∧
    okAll { ldAcc (ld0 .n8) needRd .plain with lanes := fun w => localAddrs w 0 9 .none } (sw (wl 0xFFE 1)) (wl 0xFFE 1) (lsAt 0xFFE 1) = true ∧
    (laneAcc (.ld (ld0 .b32))).isSome = true ∧ (laneAcc (.ldL (ld0 .n8))).isSome = true ∧ (laneAcc (.ldRo (ld0 .i16))).isSome = true ∧
    okAll (ldAcc (ld0 .i16) needRd .plain) (sw (wl shb 2)) (wl shb 2) (shmAt 0x2000000 2) = true ∧ clr (ldAcc (ld0 .b32) needRd .plain).sp (wl top) = true := by
  decide
theorem witness_stores : okAll (stAcc (st0 .b64) needWr .plain) (sw (wl 0x100 8)) (wl 0x100 8) (extAt 0x100 8) = true ∧
    okAll { stAcc (st0 .b32) needWr .plain with lanes := fun w => localAddrs w 0 9 .none } (sw (wl 0xFF8)) (wl 0xFF8) (lsAt 0xFF8 4) = true ∧
    (activeOf (wl 0x100 8) h0.mask).getLsbD 1 = true ∧ (∀ j, j < 8 → ((extAt 0x100 8 1).plus j).cell ≠ ((extAt 0x100 8 0).plus 7).cell) ∧
    clr (stAcc (st0 .b64) needWr .plain).sp (wl 0x100 8) = true := by decide
theorem witness_scalar_memory : activeOf (wl 0x100) 1 = 0 ∧ activeOf (wl 0x100) h0.mask ≠ 0 ∧
    isErr (checkOne (sw (wl 0x102)) (whoOf (sw (wl 0x102)) 32) (addrOf (rdS (wl 0x102) 1) .none) 8 8 needWr .plain) 0 .misaligned = true ∧
    isOk (checkOne (sw (wl top)) (whoOf (sw (wl top)) 32) (addrOf (rdS (wl top) 1) .none) 8 8 needWr .plain) (.ext 0xFFFFFFFF8) = true ∧
    clr (specM h0 8 [sOp 5 1 true, sOp 1]) (wl top) = true ∧ clr (specM ⟨1, 0⟩ 8 [sOp 1, sOp 2]) (wl top) = true ∧ clr (specM h0 8 [vOp 9]) (wl top) = true := by decide
/-- The state with the tags of local words 0 and 1 full. -/
def fulls (w : Wave) : State := { sw w with groups := [(1, { g0 with lsTags := [(0, true), (1, true)] })] }
def lsb : Word := 0xFF000000000000
theorem witness_tagged : okAll (ldAcc (ld0 .b32) needRw .tagged) (fulls (wl lsb)) (wl lsb) (lsAt 0 4) = true ∧ rdTag (fulls (wl lsb)) (lsAt 0 4 1) = true ∧
    (laneAcc (.ldWfe (ld0 .b32))).isSome = true ∧ Ty.b32.width = 32 ∧ (∀ i, i < 4 → ((lsAt 0 4 0).plus i).wordCell ≠ (lsAt 0 4 1).wordCell) ∧
    okAll (stAcc (st0 .b32) needRw .tagged) (sw (wl lsb)) (wl lsb) (lsAt 0 4) = true ∧ rdTag (sw (wl lsb)) (lsAt 0 4 0) = false ∧
    okAll (stAcc (st0 .b64) needWr .tagged) (sw (wl shb 8)) (wl shb 8) (shmAt 0x2000000 8) = true ∧ Ty.b64.width = 64 ∧
    okAll { stAcc (st0 .b32) needWr .tagged with size := 4 } (sw (wl lsb)) (wl lsb) (lsAt 0 4) = true := by decide
theorem witness_atomics : okAll (atAcc .add 0x210 (at0 .f32)) (sw (wl 0x100)) (wl 0x100) (extAt 0x100 4) = true ∧
    atomicOf (.atomAdd (at0 .f32)) = some (.add, 0x210, ⟨.plain, .wave, .f32⟩, 10, some 8) ∧ (laneAcc (.atomAdd (at0 .f32))).isSome = true ∧
    (∀ i, i < 4 → ∀ j, j < 4 → ((extAt 0x100 4 0).plus i).cell ≠ ((extAt 0x100 4 1).plus j).cell) ∧
    (∀ e ∈ atEntries .add .f32 0 (atOperand (wl 0x100) .f32 10) (atGroups [(0, 0x100, extAt 0x100 4 0), (1, 0x104, extAt 0x100 4 1)])
      (entryState (atAcc .add 0x210 (at0 .f32)).sp (sw (wl 0x100)) 32 (wl 0x100)), e = 0x20000 ∨ e = 0x22000) ∧
    Ty.n32.isF = false ∧ 2 ^ 32 - 1 < 2 ^ Ty.n32.width := by decide

/-! Classes 9 and 10 -/
/-- S1 an address in the shared window, S2 a value; the object at the address holds x in n bytes. -/
def ws (a v : Word) : Wave := { w0 with s := [(1, a), (2, v), (20, 0x100000001), (22, 0x40000)], m := [(1, 0)] }
def obj (n x : Nat) (w : Wave) : State := wrN (sw w) (.shm 0x2000000) n x
def objAt (s : State) : Except Fail Loc := checkObj s (whoOf s 32) 0xFE000002000000 16 16 needRw
def isOkE {α β : Type} (e : Except α β) : Bool :=
  match e with
  | .ok _ => true
  | .error _ => false
theorem witness_empty_active : activeOf (ws shb 0) 1 = 0 ∧ (ws shb 0).wait ≠ .claim ∧ clr (specM ⟨1, 0⟩ 8 [sOp 1, sOp 2]) (ws shb 0) = true ∧
    activeOf (ws shb 0) h0.mask ≠ 0 ∧ clr (specM h0 8 []) (ws shb 0) = true := by decide
theorem witness_barrier_objects :
    isOk (checkOne (obj 8 (2 ^ 63 + 2 ^ 32) (ws shb 1)) (whoOf s0 32) (addrOf shb .none) 8 8 needRw .tagged) (.shm 0x2000000) = true ∧
    rdN (obj 8 (2 ^ 63 + 5 * 2 ^ 32 + 4) (ws shb 1)) (.shm 0x2000000) 8 = 1 * 2 ^ 63 + 5 * 2 ^ 32 + 4 ∧
    isErr (checkOne s0 (whoOf s0 32) (addrOf 0x100 .none) 8 8 needWr .tagged) 4 .tagMisuse = true ∧
    (let e : Int := (5 : Int) + (BitVec.ofInt 64 (-4)).toInt
     1 ≤ e ∧ e ≤ 2 ^ 31 - 1) ∧ (let e : Int := (5 : Int) + (0x7FFFFFFA : Word).toInt
     1 ≤ e ∧ e = 2 ^ 31 - 1) ∧ ¬ ((0x80000000 : Word).toInt < 2 ^ 31) ∧ (5 : Int) + (BitVec.ofInt 64 (-5)).toInt < 1 ∧
    (rdS (ws shb 0x7FFFFFFF) 2).toNat < 2 ^ 31 ∧ 2 ^ 31 ≤ (rdS (ws shb 0x80000000) 2).toNat ∧
    rdN (obj 8 (2 ^ 63) (ws shb 2)) (.shm 0x2000000) 8 / 2 ^ 63 ≠ (rdS (ws shb 2) 2).toNat % 2 ∧
    rdN (obj 8 (2 ^ 63) (ws shb 3)) (.shm 0x2000000) 8 / 2 ^ 63 = (rdS (ws shb 3) 2).toNat % 2 ∧ (1 < 2 ∧ 2 ^ 31 - 1 < 2 ^ 31 ∧ 2 ^ 32 - 1 < 2 ^ 32) := by
  decide
/-- A lock held by group 1, by group 7, broken, free; a group that holds 15 locks and one that holds 16. -/
theorem witness_locks : isOk (objAt (obj 8 (2 ^ 62 + 1) (ws shb 0))) (.shm 0x2000000) = true ∧
    rdN (obj 8 (2 ^ 62 + 1) (ws shb 0)) (.shm 0x2000000) 8 % 2 ^ 62 = gidOf 32 ∧ rdN (obj 8 (2 ^ 62 + 7) (ws shb 0)) (.shm 0x2000000) 8 / 2 ^ 62 = 1 ∧
    rdN (obj 8 (2 ^ 62 + 7) (ws shb 0)) (.shm 0x2000000) 8 % 2 ^ 62 ≠ gidOf 32 ∧ rdN (obj 8 (3 * 2 ^ 62) (ws shb 0)) (.shm 0x2000000) 8 / 2 ^ 62 = 3 ∧
    rdN (sw (ws shb 0)) (.shm 0x2000000) 8 / 2 ^ 62 = 0 ∧ ({ g0 with locks := List.replicate 15 0 } : Group).locks.length < 16 ∧
    16 ≤ ({ g0 with locks := List.replicate 16 0 } : Group).locks.length ∧ s0.group? (gidOf 32) = some g0 ∧ g0.seq < 2 ^ 64 ∧
    isErr (objAt { s0 with shmSteps := 0 }) 2 .pageNotPresent = true ∧ (groupLocks s0 32).length < 16 := by decide
theorem witness_owners : inShared 0xFE000002000000 = true ∧ 0xFE000002000000 % 4 = 0 ∧ (rdS (ws shb 0) 2).toNat = 0 ∧ (rdS (ws shb 9) 2).toNat ≠ 0 ∧
    (ownDel s0 0 0xFE000002000000).owns.length < 262144 ∧ (addrOf 0xFE000002000002 .none) % 4 ≠ 0 ∧ addrOf 0x5FFFFFFFFFFFFC .none % 4 = 0 ∧
    addrOf 0x5FFFFFFFFFFFFC .none < 0x60000000000000 := by decide
theorem witness_owner_table_full : 262144 ≤ (ownDel { s0 with owns := List.replicate 262144 { tenant := 1, addr := 0, seq := 1 } } 0 0xFE000002000000).owns.length := by
  have h : ∀ n, (ownDel { s0 with owns := List.replicate n { tenant := 1, addr := 0, seq := 1 } } 0 0xFE000002000000).owns.length = n := by
    intro n; simp [ownDel]
  exact (h 262144).ge
theorem witness_waits : waitOwner (sw (ws shb 1)) (whoOf s0 32) .bo 0xFE000002000000 = none ∧ (ws shb 1).ownerEnd = 0 ∧ g0.helper = none ∧
    waitOwner (touch (obj 8 (2 ^ 62 + 7) (ws shb 0)) 0 0xFE000002000000 true) (whoOf s0 32) .lock 0xFE000002000000 = none ∧
    waitOwner (obj 8 1 (ws shb 0)) (whoOf s0 32) .joinFamily 0xFE000002000000 = none ∧ rdN (obj 8 1 (ws shb 0)) (.shm 0x2000000) 8 % 2 ^ 32 ≠ 0 ∧
    rdN (obj 8 1 (ws shb 0)) (.shm 0x2000000) 8 / 2 ^ 48 = 0 ∧
    (ldAcc (ld0 .b32) needRd .tagged).lanes (wl lsb) ≠ [] ∧ (wl lsb).done = 0 ∧ rdTag (sw (wl lsb)) (lsAt 0 4 0) ≠ true := by decide +kernel
theorem witness_no_helper (w : Wave) : NoHelper (sw w) 32 := by
  intro g hg
  have ho : originGroup (sw w) (gidOf 32) = 1 := rfl
  have : g = g0 := by rw [ho] at hg; simpa [sw, s0, State.group?, kfind] using hg.symm
  rw [this]; rfl
/-- An empty queue of two slots of 16 bytes, and one whose ticket 0 is published. -/
def dqEmpty (w : Wave) : State := obj 64 (2 * 2 ^ 128 + 2 ^ 160 + 2 ^ 192) w
def dqFullOne (w : Wave) : State := wrN (obj 64 (1 + 2 ^ 32 + 2 * 2 ^ 128 + 2 ^ 160 + 2 ^ 192) w) (.shm 0x2000040) 16 2
def q0 : Dq := dqAt (dqEmpty (ws shb 0x100)) (whoOf s0 32) 0xFE000002000000
theorem witness_queues : isOk (checkObj (dqEmpty (ws shb 0x100)) (whoOf s0 32) 0xFE000002000000 64 64 needRw) (.shm 0x2000000) = true ∧
    dqBad (dqEmpty (ws shb 0x100)) (whoOf s0 32) 0xFE000002000000 = false ∧ q0.slots = 2 ∧ q0.sbytes = 16 ∧
    checkRange (dqEmpty (ws shb 0x100)) (whoOf s0 32) 0x100 q0.sbytes needRd = none ∧
    (dqWord (dqEmpty (ws shb 0x100)) (whoOf s0 32) q0.resv + 2 ^ 32 - dqWord (dqEmpty (ws shb 0x100)) (whoOf s0 32) q0.free) % 2 ^ 32 < q0.slots ∧
    copyFull (dqEmpty (ws shb 0x100)) 0 = false ∧ dqWord (dqEmpty (ws shb 0x100)) (whoOf s0 32) q0.take = dqWord (dqEmpty (ws shb 0x100)) (whoOf s0 32) q0.pub ∧
    waitOwner (dqEmpty (ws shb 0x100)) (whoOf s0 32) .dqPop 0xFE000002000000 = none ∧
    dqWord (dqFullOne (ws shb 0x100)) (whoOf s0 32) q0.take ≠ dqWord (dqFullOne (ws shb 0x100)) (whoOf s0 32) q0.pub := by decide +kernel
/-- Sixteen transfers in flight. -/
def busy : State := { s0 with xfers := (List.range 16).map (fun i => (i, { id := i, gid := 1, wave := 32, core := 0 })) }
def inlRec : BitVec 128 := 0x00010001_00010010_0010_000000000200
theorem witness_copies : copyFull s0 0 = false ∧ copyFull busy 0 = true ∧ isOkE (cwCheck s0 32 w0 ⟨false, 9⟩) = true ∧
    isOkE (cwCheck s0 32 { w0 with tokenPend := [9] } ⟨false, 9⟩) = false ∧
    isOkE (obtainRecord s0 32 w0 (.inl inlRec) .b8 (copyBad 4)) = true ∧ isOkE (obtainRecord s0 32 w0 (.inl 0xF00000000000) .b8 (copyBad 4)) = false ∧
    denseBad s0 32 0xFF000000000F00 256 true needWr = none ∧ (0 : BitVec 2) ≠ 2 ∧ g0.matrix = false ∧ ({ g0 with matrix := true } : Group).matrix = true ∧
    XferKind.cpIn ≠ .feedA ∧ clr (specCp h0 (some ⟨false, 9⟩) (.inl inlRec) [sOp 1]) w0 = true := by decide +kernel

/-! Class 11 -/
/-- A matrix group with 16 KiB of accumulator store, feeds of given lengths and a queue. -/
def gm (fa fb : Nat) (mq : List MqEntry) : Group :=
  { g0 with matrix := true, accKib := 16, lsKib := 64, feedA := { fillIssued := fa }, feedB := { fillIssued := fb }, mq := mq }
def sg (g : Group) (w : Wave) : State := { sw w with groups := [(1, g)] }
/-- Handle 2 holds a 16 by 32 tile of f32. -/
def tile : Tile := { ty := .f32, m := 16, n := 32, e := List.replicate 512 0 }
def wt : Wave := { w0 with tiles := [(2, tile)], s := [(1, 0xFF000000000000), (5, 0x00100000), (20, 0x100000000)] }
theorem witness_matrix_group : activeOf w3 h0.mask ≠ BitVec.allOnes 32 ∧ activeOf w0 h0.mask = BitVec.allOnes 32 ∧ isMatrix s0 32 = false ∧
    (matrixSpec (.cbLoad { h := h0, tsel := true, a := 1 })).isSome = true ∧ (matrixSpec (.accClr { h := h0, ad := 15, mx := 0, nx := 15, ty := .f64 })).isSome = true := by
  decide
/-- `mma.f16 a2` with K = 16 takes 512 bytes of feed A and 1,024 of feed B. -/
theorem witness_mma : mmaOf (.mmaF16 { h := h0, ad := 2, kx := 0, ablk := 0, bblk := 0 }) = some (.f16, false, { h := h0, ad := 2, kx := 0, ablk := 0, bblk := 0 }) ∧
    clr (specM h0 8 []) wt = true ∧ (sg (gm 512 1024 []) wt).group? (gidOf 32) = some (gm 512 1024 []) ∧ kfind 2 wt.tiles = some tile ∧ kfind 3 wt.tiles = none ∧
    tile.ty = mmaTile .f16 ∧ tile.ty ≠ mmaTile .f64 ∧ 16 * 16 * Ty.f16.width / 8 = 512 ∧ (gm 512 1024 []).feedA.consume + 512 ≤ (gm 512 1024 []).feedA.fillIssued ∧
    (gm 511 1024 []).feedA.fillIssued < (gm 511 1024 []).feedA.consume + 512 ∧ (gm 512 1023 []).feedB.fillIssued < (gm 512 1023 []).feedB.consume + 1024 ∧
    8 ≤ (gm 0 0 (List.replicate 8 {})).mq.length ∧ (gm 0 0 (List.replicate 7 {})).mq.length < 8 ∧ ldPending (sg (gm 0 0 []) wt) 32 2 = false ∧
    ldPending { sg (gm 0 0 []) wt with xfers := [(0, { kind := .accLd, wave := 32, handle := 2 })] } 32 2 = true ∧ 15 < ({ m := 16, n := 32 } : MqEntry).m := by
  decide +kernel
theorem witness_tiles : mqPending (gm 0 0 []) 32 2 = false ∧ mqPending (gm 0 0 [{ wave := 32, ad := 2 }]) 32 2 = true ∧
    (let e (h : Nat) : State := { sg (gm 0 0 []) wt with xfers := [(0, { gid := 1, held := h })] }
     accUsed (e 0) 1 = 2048 ∧ accUsed (e 0) 1 + accHeld (e 0) 1 + 14336 ≤ (gm 0 0 []).accKib * 1024 ∧ (gm 0 0 []).accKib * 1024 < accUsed (e 0) 1 + 16384 ∧
     (gm 0 0 []).accKib * 1024 < accUsed (e 1) 1 + accHeld (e 1) 1 + 14336) ∧
    clr (specM h0 8 [vOp 8 1 true, sOp 5]) wt = true ∧ bitsAt (rdS wt 5) 0 16 < tile.m ∧ bitsAt (rdS wt 5) 16 16 = 16 ∧ 16 % 2 = 0 ∧ tile.n % 2 = 0 ∧
    tile.e.length = tile.m * tile.n ∧ tile.m ≤ bitsAt (0x00000010 : Word) 0 16 ∧ tile.n ≤ bitsAt (0x00200000 : Word) 16 16 := by decide +kernel
/-- A record of 32 by 16 elements at 0x100, inline. -/
def tileRec : BitVec 128 := 0x0000_0020_0001_0010_0020_000000000100
theorem witness_tile_transfers : isOkE (obtainRecord (sg (gm 0 0 []) wt) 32 wt (.inl tileRec) .f32 (tileBad tile (accLdTys tile))) = true ∧
    epilogueTy .f32 (rdS wt 20).toNat = some .f32 ∧ isOkE (obtainRecord (sg (gm 0 0 []) wt) 32 wt (.inl tileRec) .f32 (tileBad tile [.f32])) = true ∧
    copyFull (sg (gm 0 0 []) wt) 0 = false ∧ isOkE (cwCheck (sg (gm 0 0 []) wt) 32 wt ⟨false, 9⟩) = true ∧ (rdS wt 20).toNat / 2 ^ 42 % 2 ≠ 1 ∧
    (2 ^ 42 + 2 ^ 32) / 2 ^ 42 % 2 = 1 ∧ denseBad (sg (gm 0 0 []) wt) 32 0xFF000000000000 (32 * 4) true needRd = none ∧
    clr (specCp h0 (some ⟨false, 9⟩) (.inl tileRec) [sOp7 20 3]) wt = true := by decide +kernel
theorem witness_feeds : (gm 8 0 []).feedA.consume + 8 ≤ (gm 8 0 []).feedA.fillIssued ∧ (gm 7 0 []).feedA.fillIssued < (gm 7 0 []).feedA.consume + 8 ∧
    isOk (checkOne (sw w0) (whoOf s0 32) 0xFF000000000FE0 32 32 needRd .plain) (.ls 1 0xFE0) = true ∧
    isErr (checkOne (sw w0) (whoOf s0 32) 0x110 32 32 needRd .plain) 0 .misaligned = true := by decide
/-- A control block in order: L = 1, P = 32, H = 1, N = 16, its regions apart in 64 KiB of local store. -/
def scanBlock : BitVec 512 := packBits 512 [(0, 16, 1), (32, 9, 32), (64, 19, 0x400), (96, 19, 0x800), (128, 19, 0xC00), (160, 19, 0x1000), (192, 19, 0x1400),
  (224, 19, 0x2000), (256, 19, 0x4000)]
theorem witness_scan : ssmBad scanBlock 0 65536 = [] ∧ (ssmBad 0 0 65536).min? = some 0 ∧ (rdS wt 1).toNat % 64 = 0 ∧ inLocal (rdS wt 1).toNat = true ∧
    inLocal 0x1000 = false ∧ 65536 < 65472 + 64 + 1 ∧ (gm 0 0 []).lsKib * 1024 < 0x10000 + 64 ∧
    rdN (wrN (sg (gm 0 0 []) wt) (.ls 1 0) 64 scanBlock.toNat) (.ls 1 0) 64 = scanBlock.toNat ∧
    (scanOf scanBlock).src = false ∧ isOkE (cwCheck s0 32 { w0 with tokenPend := [9] } ⟨false, 9⟩) = false := by decide +kernel

/-! Class 12 -/
/-- A launch record of one group of one wave of 8 registers. -/
def rec1 : BitVec 512 := packBits 512 [(56, 8, 1), (75, 11, 8), (86, 4, 1), (90, 6, 1), (96, 32, 1)]
/-- The record at 0x100; the wave's group is at depth d. -/
def sl (d : Nat) (x : BitVec 512) : State := wrN { sw (wl 0x100) with groups := [(1, { g0 with depth := d })] } (.ext 0x100) 64 x.toNat
theorem witness_launch : recBad rec1 = [] ∧ recBad (rec1 ||| 1) ≠ [] ∧ BitVec.ofNat 512 (rdN (sl 9 rec1) (.ext 0x100) 64) = rec1 ∧
    isOk (checkOne (sl 9 rec1) (whoOf s0 32) (rdS (wl 0x100) 1).toNat 64 64 needRd .plain) (.ext 0x100) = true ∧
    isErr (checkOne (sl 9 rec1) (whoOf s0 32) 0x120 64 64 needRd .plain) 0 .misaligned = true ∧
    recCrew { seq := 1, rec64 := rec1 } ≤ maxCrew (sl 9 rec1) ∧ recFamily { seq := 1, rec64 := rec1 } = 0 ∧ recDep { seq := 1, rec64 := rec1 } = 0 ∧
    ((sl 9 rec1).ring 0).docc = false ∧ launchFull (sl 9 rec1) = false ∧ clr (specM h0 8 [sOp 5 1 true, sOp 1]) (wl 0x100) = true ∧
    ((sl 10 rec1).group? 1).map (·.depth) = some 10 := by decide +kernel
theorem witness_launch_table_full : launchFull { s0 with tasks := List.replicate 65536 (1, { seq := 1, state := .ready }) } = true := by
  have h : ∀ n, launchUsed { s0 with tasks := List.replicate n (1, { seq := 1, state := .ready }) } = n := by
    intro n; simp [launchUsed]
  simp only [launchFull, h, decide_eq_true_eq]
  exact Nat.le_refl _
theorem witness_counters : isOk (objAt (obj 16 2 (ws shb 0))) (.shm 0x2000000) = true ∧ rdN (obj 16 (1 + 9 * 2 ^ 64) (ws shb 0)) (.shm 0x2000000) 4 = 1 ∧
    rdN (obj 16 (1 + 9 * 2 ^ 64) (ws shb 0)) (Loc.shm 0x2000008) 8 = 9 ∧ rdN (sw (ws shb 0)) (.shm 0x2000000) 4 = 0 ∧
    2 ≤ rdN (obj 16 2 (ws shb 0)) (.shm 0x2000000) 4 := by decide +kernel
/-- Code at 0x10000 whose descriptor names a spawned entry at 0x10100. -/
def sk (d : Nat) (w : Wave) : State :=
  { sw w with groups := [(1, { g0 with depth := d })],
              kds := [{ tenant := 0, bits := packBits 256 [(64, 1, 1), (90, 11, 8), (192, 64, 0x10100)], lo := 0x10000, hi := 0x20000 }] }
theorem witness_spawn : (spawnEntry (sk 9 (ws shb 0)) 0 0x10000 0x10100).isSome = true ∧ spawnEntry s0 0 0x10000 0x10100 = none ∧
    clr (specM h0 12 [vOp 8 4, sOp 2]) (ws shb 0) = true ∧ (∀ l ∈ lanesOf (activeOf w3 h0.mask), (kget ({ depth := 9 } : LaneInfo) l w3.lanes).depth < 10) ∧
    (∀ l ∈ lanesOf (activeOf w3 h0.mask), 10 ≤ (kget ({ depth := 10 } : LaneInfo) l w3.lanes).depth) ∧
    (match grantBlocks (entryState (specM h0 12 [vOp 8 4, sOp 2]) (sk 9 (ws shb 0)) 32 (ws shb 0)) 0 1 .spawn 32 1 with
     | .places _ => true
     | _ => false) = true ∧ (rdS (ws shb 0) 2).toNat = 0 ∧
    isOk (checkObj (sk 9 (ws shb 0)) (whoOf s0 32) 0xFE000002000000 8 8 needRw) (.shm 0x2000000) = true ∧
    isErr (checkObj (sk 9 (ws shb 0)) (whoOf s0 32) 0x100 8 8 needRw) 4 .tagMisuse = true ∧ 4294967263 + 32 < 2 ^ 32 := by decide +kernel
theorem witness_join : isOk (checkObj (obj 8 (3 + 3 * 2 ^ 48) (ws shb 0)) (whoOf s0 32) (rdS (ws shb 0) 1).toNat 8 8 needRd) (.shm 0x2000000) = true ∧
    rdN (obj 8 (3 + 3 * 2 ^ 48) (ws shb 0)) (.shm 0x2000000) 8 / 2 ^ 48 = 3 ∧ rdN (obj 8 (3 + 3 * 2 ^ 48) (ws shb 0)) (.shm 0x2000000) 8 % 2 ^ 32 = 3 ∧
    rdN (sw (ws shb 0)) (.shm 0x2000000) 8 % 2 ^ 32 = 0 ∧ (rdS (ws shb 0) 1).toNat ≠ 0 := by decide
theorem witness_claims : w0.wait = .none ∧ w0.evicted = false ∧ 1024 % 8 = 0 ∧ w0.regCount + 1024 ≤ 1536 ∧ 1536 < w0.regCount + 1032 ∧
    ({ w0 with regCount := 0 } : Wave).regCount + 7 < 8 ∧ (s0.core 0).claims = [] ∧ 1024 ≤ g0.budgetFree + freeRegs s0 0 ∧
    ({ g0 with budgetFree := 0, nwaves := 4 } : Group).budgetFree + freeRegs { s0 with groups := [(1, { g0 with nwaves := 4 })] } 0 < 1024 ∧
    504 + 8 ≤ w0.regCount ∧ w0.regCount < 505 + 8 ∧ ({ s0 with cores := [(0, { claims := [33] })] } : State).cores ≠ [] := by decide +kernel

/-! Class 14 -/
/-- A bin set of one strip of 8 lines with room for two primitives, and one with a reader. -/
def bins (st rd : Nat) : Nat := 2 ^ 16 + 8 * 2 ^ 40 + st * 2 ^ 48 + 2 ^ 56 + 2 * 2 ^ 64 + 2 * 2 ^ 96 + 0xFE000002000100 * 2 ^ 128 + 0xFE000002000200 * 2 ^ 192 +
  rd * 2 ^ 288
def binSt (st rd : Nat) (w : Wave) : State := obj 64 (bins st rd) w
theorem witness_bins : (binSetAt (binSt 1 0 (ws shb 0)) (whoOf s0 32) 0xFE000002000000).bad = false ∧ (binSetAt s0 (whoOf s0 32) 0xFE000002000000).bad = true ∧
    (binSetAt (binSt 1 0 (ws shb 0)) (whoOf s0 32) 0xFE000002000000).readers = 0 ∧ (binSetAt (binSt 1 1 (ws shb 0)) (whoOf s0 32) 0xFE000002000000).readers ≠ 0 ∧
    checkRange (binSt 1 0 (ws shb 0)) (whoOf s0 32) 0xFE000002000100 (8 * 1 * 2) needRw = none ∧
    isOk (checkObj (binSt 0 0 (ws shb 0)) (whoOf s0 32) 0xFE000002000000 64 64 needRw) (.shm 0x2000000) = true ∧
    (binSetAt (binSt 0 0 (ws shb 0)) (whoOf s0 32) 0xFE000002000000).state ≠ 1 ∧ clr (specM h0 8 [mOp 4 true, vOp 8 8, sOp 1]) (ws shb 0) = true ∧
    isOkE (emitLanes (binSetAt (binSt 0 0 (ws shb 0)) (whoOf s0 32) 0xFE000002000000) 8 32 [0] (binSt 0 0 (ws shb 0))) = true ∧
    isOkE (emitLanes (binSetAt (binSt 1 0 (ws shb 0)) (whoOf s0 32) 0xFE000002000000) 8 32 [0] (binSt 1 0 (ws shb 0))) = false := by decide +kernel
/-- A ring of two slots of 8 lines, one consumer wave (bit 12): ACQ, PUB and TAKE given; slot 0 in a state with a sequence. -/
def ringSt (acq pub take st q : Nat) (w : Wave) : State :=
  wrN (obj 64 (64 + 8 * 2 ^ 16 + 2 * 2 ^ 48 + 2 ^ 56 + 4096 * 2 ^ 64 + 0xFE000002001000 * 2 ^ 128 + acq * 2 ^ 192 + pub * 2 ^ 224 + take * 2 ^ 256) w)
    (.shm 0x2000040) 16 (st + q * 2 ^ 32 + 2 ^ 64)
def rh (s : State) : BitVec 512 := ringHdr s (whoOf s0 32) 0xFE000002000000
theorem witness_rings : ringBad (rh (ringSt 0 0 0 0 0 (ws shb 0))) = false ∧ ringBad (rh s0) = true ∧ (hCons (rh (ringSt 0 0 0 0 0 (ws shb 0)))).testBit 12 = true ∧
    ¬ seqDiff (hTake (rh (ringSt 0 0 0 0 0 (ws shb 0)))) (hPub (rh (ringSt 0 0 0 0 0 (ws shb 0)))) < 0 ∧
    seqDiff (hTake (rh (ringSt 1 1 0 2 0 (ws shb 0)))) (hPub (rh (ringSt 1 1 0 2 0 (ws shb 0)))) < 0 ∧ ringSlot (rh (ringSt 1 1 0 2 0 (ws shb 0))) 0 = 1 ∧
    Sys2Proof.Machine.eSt (slotRd (ringSt 0 0 0 4 0 (ws shb 0)) (whoOf s0 32) 0xFE000002000000 0) = 4 ∧
    eHolder (slotRd (ringSt 0 0 0 1 0 (ws shb 0)) (whoOf s0 32) 0xFE000002000000 0) = gidOf 32 ∧
    eSeq (slotRd (ringSt 0 0 0 1 7 (ws shb 0)) (whoOf s0 32) 0xFE000002000000 0) = 7 ∧ (rdS (ws shb 7) 2).toNat % 2 ^ 32 = 7 ∧ 2 ^ 31 ≤ 0x80000000 ∧
    ((0xFE000002000000, 7, true) : Nat × Nat × Bool) ∈ ({ g0 with slots := [(0xFE000002000000, 7, true)] } : Group).slots := by decide +kernel
theorem witness_fragments : clr (specM h0 8 ([vOp 8 3 true, sOp 1] ++ (some (vOp 20)).toList ++ [{ reg := .m 3, dest := true }])) w0 = true ∧
    ({ g0 with raster := some {} } : Group).raster.isSome = true ∧ g0.raster = none ∧ ({ w0 with batch := some 3 } : Wave).batch = some 3 := by decide
/-- A traversal context at local offset 0: its ray state at 1,024, no log; and one with a log of two entries. -/
def ctx (log : Nat) : BitVec 512 := packBits 512 [(0, 56, 0x1000), (56, 8, 1), (64, 64, 0x2000), (128, 16, 2), (144, 1, log), (160, 19, 1024)]
/-- A ray along x from the origin, in every lane: origin 0, direction (1, 0, 0), from 0 to infinity. -/
def wr : Wave := { w0 with path := 1, v := [(32 * 10, 0x3F80000000000000), (32 * 11, 0x7F80000000000000)], s := [(1, 0xFF000000000000)] }
def wray (x : Word) : Wave := { wr with v := [(32 * 10, 0x000000003F800000), (32 * 11, x)] }
theorem witness_contexts : contextBad (ctx 0) 64 = false ∧ contextBad (ctx 1) 64 = false ∧ contextBad (ctx 0) 32 = true ∧ contextBad (packBits 512 [(0, 56, 0x1000), (56, 8, 1), (128, 16, 1), (160, 19, 1024)]) 64 = true ∧
    isOk (checkOne (sg (gm 0 0 []) wr) (whoOf s0 32) (rdS wr 1).toNat 64 64 needRd .plain) (.ls 1 0) = true ∧ inLocal (rdS wr 1).toNat = true ∧
    clr (specM h0 8 [vOp 8 4, sOp 1, sOp7 2]) wr = true ∧ (ctx 0).getLsbD 144 = false ∧ rayLive wr 0 = false := by decide +kernel
theorem witness_rays : (rayBad (newRay (wray 0x7F80000000000000) 8 0 0 (ctx 0)) = false) ∧ rayBad (newRay (wray 0x7FC0000000000000) 8 0 0 (ctx 0)) = true ∧
    rayLive { wr with rays := [(0, newRay (wray 0) 8 0 0 (ctx 0))] } 0 = true := by decide +kernel
theorem witness_replay : isOk (checkOne (wrN (sw wr) (.ext 0x2000) 16 (2 ^ 32)) (whoOf s0 32) 0x2000 16 16 needRd .plain) (.ext 0x2000) = true ∧
    field (rdN (wrN (sw wr) (.ext 0x2000) 16 (2 ^ 32)) (.ext 0x2000) 16) 32 3 = 1 ∧ clr (specM h0 8 [sOp 1, sOp7 2]) wr = true := by decide +kernel

/-! Steps of the device -/
/-- The device step names wave 32 (or unit n). -/
def ev (n : Nat) (s : State) : State := { s with input := { who := n } }
theorem named_of_on (s : State) (w : Wave) (hi : s.input.who = 32) (hw : s.wave? 32 = some w) (h : waveOn s 32 w = true) : Named s 32 w := ⟨hi, hw, h⟩
theorem witness_waits_end : waveOn (ev 32 (sw { w0 with wait := .sleep, waitArg := 5 })) 32 { w0 with wait := .sleep, waitArg := 5 } = true ∧
    (5 : Word).toNat ≤ ({ s0 with time := 5 * 2 ^ 32 } : State).ns ∧ ¬ (5 : Word).toNat ≤ ({ s0 with time := 5 * 2 ^ 32 - 1 } : State).ns ∧
    Wait.helps .tag = true ∧ launchFull s0 = false ∧ segFits s0 1 = true ∧ segFits { s0 with devCfg := { s0.devCfg with segLimit := 0 } } 1 = false ∧
    joinCount s0 ({ tok1 with join := some 1 } : Token).join = 0 ∧ joinCount { s0 with joins := [(1, { count := 1 })] } ({ tok1 with join := some 1 } : Token).join ≠ 0 ∧
    ({ tok1 with join := some 1 } : Token).entry &&& ~~~ w0.exited ≠ 0 := by decide +kernel
theorem witness_ageing : (s0.core 0).quantumM1 + 1 ≤ ({ wb [tok1] with age := 1024 } : Wave).age ∧ ({ wb [tok1] with age := 1023 } : Wave).age < (s0.core 0).quantumM1 + 1 ∧
    coreOf s0 32 = 0 ∧ tok1.pend &&& ~~~ (wb [tok1]).exited ≠ 0 ∧ ({ tok1 with pend := 0 } : Token).pend &&& ~~~ (wb [tok1]).exited = 0 ∧
    3 ≤ issueClass s0 32 ∧ (s0.core 0).starveM1 + 1 ≤ ({ w0 with unselected := 4096 } : Wave).unselected ∧
    ({ w0 with wait := .claim, claim := some (1536, 0) } : Wave).claim = some (1536, 0) ∧ 1536 ≤ g0.budgetFree + freeRegs s0 0 ∧
    g0.budgetFree + freeRegs s0 0 < 1544 := by decide +kernel
/-- A copy of 16 bytes of local store, under way in the last byte, to a mapped page; the same to an unmapped one; a feed copy. -/
def xf (base : Word) (k : XferKind) : Xfer :=
  { id := 3, kind := k, gid := 1, wave := 32, cw := .token 32 9, pos := 15, bytes := 16, shape := { (recInline w0 0 .b8).1 with base := base, ext0 := 16, ext1 := 1, ext2 := 1 },
    dense := 0xFF000000000000 }
theorem witness_moves : (denseByte s0 ((xf 0x100 .cpIn).who s0) (xf 0x100 .cpIn).shape 3 = .ok 0) ∧ (s0.group? 1).isSome = true ∧
    lsGroup s0 (keyOf 1 0) = 1 ∧ putNib 0x5A#8 4 0xF = 0x5F#8 ∧ putNib 0x5A#8 5 0xF = 0xFA#8 ∧
    isOkE (checkOne s0 ((xf 0x100 .cpOut).who s0) 0x103 1 1 needWr .plain) = true ∧
    isOkE (checkOne s0 ((xf 0x100 .cpOut).who s0) 0x1000000000 1 1 needWr .plain) = false ∧
    isOkE (denseByte s0 ((xf 0x1000000000 .cpLl).who s0) (xf 0x1000000000 .cpLl).shape 3) = false ∧
    (xferRun 17 s0 (xf 0x1000000000 .cpOut)).2.1.pos = 15 ∧ elemIndex { (xf 0 .cpIn).shape with layout := 2, str1 := 2 } 17 3 0 0 = 256 * 1 + 16 * 3 + 1 ∧
    elemIndex { (xf 0 .cpIn).shape with layout := 3, str1 := 2 } 33 33 0 0 = 1024 * 3 + 32 + 1 ∧ w0.tiles = [] := by decide +kernel
theorem witness_transfers : (ev 3 { s0 with xfers := [(3, xf 0x100 .cpOut)] }).input.who = 3 ∧ g0.core? = some 0 ∧
    (xferRun 17 s0 (xf 0x100 .cpOut)).2.2 = none ∧ (xferRun 17 s0 (xf 0x1000000000 .cpOut)).2.2.isSome = true ∧ (xf 0x100 .cpOut).pos ≤ 16 ∧
    ((xf 0x100 .feedA).kind = .feedA ∧ (xf 0x100 .cpOut).kind ≠ .feedB) := by decide +kernel
theorem witness_matrix_unit : (g0.mq = [] ∧ ∀ e ∈ g0.mq.head?, e.ssm = true) ∧ isOkE (feedBytes (sg (gm 0 0 [{ m := 16 }]) w0) 1 false 0 0) = true ∧
    (let e : MqEntry := { crew := true, started := true }
     mmaReady (sg (gm 0 0 [e]) w0) 1 = true ∧ isOkE (mmaFinishAll (sg (gm 0 0 [e]) w0) 1 e [1]) = true ∧
     isOkE (headsRead (sg (gm 0 0 [{ nA := 512 }]) w0) [1]) = false) ∧
    crewReady (sg (gm 0 0 [{ crew := true, opNo := 1 }]) w0) 1 0 = false ∧
    (let s : State := { s0 with groups := [(1, { gm 0 0 [{ crew := true }] with crew := 2, crewLead := 1 }),
                                         (2, { gm 0 0 [{ crew := true, fmt := .f16 }] with gid := 2, crew := 2, crewLead := 1, rank := 1 })] }
     crewReady s 1 0 = true ∧ (crewDisagrees s 1 0).isSome = true ∧ crewLacks s 1 0 = false) ∧
    (let s : State := { s0 with groups := [(1, { gm 0 0 [{ crew := true }] with crew := 2, crewLead := 1 }),
                                         (2, { gm 0 0 [{ crew := true }] with gid := 2, crew := 2, crewLead := 1, rank := 1 })] }
     crewReady s 1 0 = true ∧ crewDisagrees s 1 0 = none) := by decide +kernel
/-- A table of one valid entry that starts at 1,000 and finishes at 2,000, on output 4 or 0, for two cores. -/
def ent (out : Nat) : BitVec 512 := packBits 512 [(0, 1, 1), (96, 4, out), (100, 4, 2), (384, 64, 2000), (448, 64, 1000)]
def tbl (out ns n : Nat) : State := { s0 with time := ns * 2 ^ 32, table := some { entries := [ent out], started := [(0, n)] } }
theorem witness_strips : replaceTable (tbl 0 999 0) = tbl 0 999 0 ∧ tValid (ent 0) = true ∧ (tbl 0 999 0).ns < tStart (ent 0) ∧ tStart (ent 0) ≤ (tbl 0 1000 0).ns ∧
    tPeriod (ent 0) = 0 ∧ (chainCluster (tbl 0 1000 0) 2).isSome = true ∧
    chainCluster { tbl 0 1000 0 with coresOut := List.range 256 } 2 = none ∧ (tbl 0 1999 1).ns < tFinish (ent 0) ∧ tFinish (ent 0) ≤ (tbl 0 2000 1).ns ∧
    kget 0 0 ({ entries := [ent 0], started := [(0, 1)] } : Timetable).finished < kget 0 0 ({ entries := [ent 0], started := [(0, 1)] } : Timetable).started ∧
    (kget ({} : Output) 0 s0.outputs).bound = false ∧ (launchChain (tbl 0 1000 0) { entries := [ent 0] } (ent 0) 2000 0).isSome = true := by decide +kernel
/-- Output 0 or 4 bound to the ring at the shared address, one consumer bit set: 16 lines of 8 pixels, a line every microsecond from 0. -/
def outDesc : BitVec 512 := packBits 512 [(0, 56, 0xFE000002000000), (64, 16, 8), (80, 16, 16), (224, 32, 1000000)]
def outSt (out : Nat) (pub ns line : Nat) (late : List (Nat × Nat)) : State :=
  { wrN s0 (.shm 0x2000000) 64 (64 + 64 * 2 ^ 16 + 2 * 2 ^ 48 + 2 ^ 56 + 2 ^ out * 2 ^ 64 + 0xFE000002001000 * 2 ^ 128 + pub * 2 ^ 192 + pub * 2 ^ 224) with
    time := ns * 2 ^ 32, outputs := [(out, { bound := true, desc := outDesc, line := line, late := late })] }
def seen (out : Nat) (s : State) : StripSeen := stripSeen s out (kget {} out s.outputs) { tenant := 0 } (ringHdr s { tenant := 0 } 0xFE000002000000)
theorem witness_outputs : (outSt 0 1 999 1 []).time * 1000 < (oT0 outDesc * 1000 + 1 * oLinePs outDesc) * 2 ^ 32 ∧
    (oT0 outDesc * 1000 + 1 * oLinePs outDesc) * 2 ^ 32 ≤ (outSt 0 1 1000 1 []).time * 1000 ∧ 15 % (oHeight outDesc + oVblank outDesc) < oHeight outDesc ∧
    seen 0 (outSt 0 1 1000 1 []) = .slot 1 ∧ seen 0 (outSt 0 0 1000 1 []) = .no ∧ seen 0 (outSt 0 0 1000 1 [(0, 7)]) = .late 7 ∧
    seen 4 (outSt 4 1 0 0 []) = .slot 1 ∧ hLines (ringHdr (outSt 4 1 0 0 []) { tenant := 0 } 0xFE000002000000) = 64 ∧
    streamOpen s0 0 0 = true ∧ streamOpen { s0 with streams := [(0, { held := [(0, false)] })] } 0 0 = false := by decide +kernel
theorem witness_raster : (let r : Raster := { busy := true, nreg := 1, groups := [1], binset := shb }
     (binSetAt { binSt 1 0 (ws shb 0) with rasters := [(0, r)] } { tenant := r.tenant } r.binset.toNat).state = 1 ∧ r.nreg ≤ r.groups.length ∧
     (binSetAt { binSt 0 0 (ws shb 0) with rasters := [(0, r)] } { tenant := r.tenant } r.binset.toNat).state ≠ 1) ∧
    unitChain { s0 with rasters := [(0, { groups := [1] })] } 0 = none ∧
    (unitChain { s0 with rasters := [(0, { groups := [1] })], groups := [(1, { g0 with chain := some 9 })], chains := [(9, {})] } 0).isSome = true ∧
    (let f : Frag := { gid := 1, x := 0, y := 0, cover := 1, level := 0, l1 := 0, l2 := 0, z := 0, prim := 0 }
     ((deliverable s0 1 [] [f] 0).zip (lanesOf w0.path)).take 32 = [(0, 0)]) ∧ ((deliverable s0 1 [] [] 0).zip (lanesOf w0.path)).take 32 = [] ∧
    regionsDone s0 0 1 = false ∧ regionsDone { s0 with groups := [(1, { g0 with raster := some { told := true } })] } 0 1 = true := by decide +kernel

/-- Threads waiting on core 0, and a batch of them. -/
def thr (stamp : Nat) (b : Option Nat) : Thread := { seq := 1, core := 0, entry := 0x10100, stamp := stamp, batch := b }
theorem witness_gather : ({ s0 with cycle := 255 } : State).cycle < (thr 0 none).stamp + (s0.core 0).gatherM1 + 1 ∧
    (thr 0 none).stamp + (s0.core 0).gatherM1 + 1 ≤ ({ s0 with cycle := 256 } : State).cycle ∧ gatherCore s0 5 = none ∧
    (gatherCore { s0 with threads := [thr 0 (some 5)], rings := [(0, { imgSize := 64 })] } 5).isSome = true := by decide +kernel
/-- A ready task of PRIO p with a local store of n KiB. -/
def task2 (p n : Nat) : Task :=
  { seq := 5, root := 5, rec64 := packBits 512 [(56, 8, 1), (65, 10, n), (75, 11, 8), (86, 4, 1), (90, 6, 1), (96, 32, 1), (226, 2, 2), (228, 3, p)], state := .ready }
def two (p n : Nat) : State := { s0 with tasks := s0.tasks ++ [(5, task2 p n)], rings := [(0, { imgSize := 64 })] }
theorem witness_retire : recGroups { task2 0 0 with next := 1, exitedGroups := 1 } ≤ 1 ∧ (task2 0 0).state = .ready ∧ (∀ p ∈ s0.groups, p.2.seq ≠ 5) ∧
    (two 0 0).threads = [] ∧ (∀ p ∈ (two 0 0).tasks, p.2.parent ≠ some 5) ∧ (task2 0 0).exitedGroups < recGroups (task2 0 0) := by decide +kernel
/-- A launch image at address 0: no waves beside wave 0, an empty local part. -/
theorem witness_place : partialReady (two 0 0) 0 = none ∧ pick (two 0 0) 0 = some (.start 5, [0]) ∧ Cand.crew (two 0 0) (.start 5) ≤ 1 ∧ pick s0 0 = none ∧
    recCrew (task2 0 0) ≤ 1 ∧ (imgReserve (two 0 0) 0 0 0).isSome = true ∧
    partialReady { s0 with waves := [(32, { w0 with evicted := true })] } 0 = some 32 ∧
    (match pick { s0 with groups := [(1, { g0 with place := .saved })] } 0 with
     | some (.image 1, _) => true
     | _ => false) = true ∧
    Cand.crew { two 0 0 with tasks := [(5, { task2 0 0 with rec64 := packBits 512 [(86, 4, 2)] })] } (.start 5) = 2 := by decide +kernel
def onlyCore0 (p n us : Nat) : State := { two p n with coresOut := (List.range 255).map (· + 1), time := us * 1000 * 2 ^ 32 }
theorem witness_preempt : readySet (onlyCore0 2 512 200) = [.start 5] ∧ overdue (onlyCore0 2 512 200) (.start 5) = true ∧
    overdue (onlyCore0 2 512 199) (.start 5) = false ∧ (preempt (onlyCore0 2 512 200) 0 (.start 5)).isSome = true ∧
    (preempt (onlyCore0 1 512 200) 0 (.start 5)).isSome = false ∧
    (s0.core 0).lastEvict = none ∧ (200 * 1000 * 2 ^ 32 < 150 * 1000 * 2 ^ 32 + 100000 * 2 ^ 32) := by decide +kernel
theorem witness_balancer : ({ s0 with time := 99999 * 2 ^ 32 } : State).ns < s0.lastBalance + 100000 ∧ s0.lastBalance + 100000 ≤ ({ s0 with time := 100000 * 2 ^ 32 } : State).ns ∧
    (∃ p ∈ residents { s0 with groups := [(1, { g0 with part := 1 })], cores := [(0, { moving := true })] } 0, p.2.part ≠ 2 ∧ p.2.part ≠ 1 - (s0.core 0).part) ∧
    (∀ p ∈ residents s0 0, p.2.part = 2) ∧ (({ s0 with cores := [(0, { moving := true })] } : State).core 0).moving = true ∧ (s0.core 0).moving = false := by
  decide +kernel
theorem witness_heartbeat : coreAvail s0 255 = true ∧ coreAvail { s0 with coresOut := [255] } 255 = false ∧ ({ s0 with time := 199999 * 2 ^ 32 } : State).ns < (s0.core 0).beatAt + 200000 ∧
    (s0.core 0).beatAt + 200000 ≤ ({ s0 with time := 200000 * 2 ^ 32 } : State).ns ∧ (retireCore (captureCore s0 0) 0).2 = true ∧
    (retireCore (captureCore { s0 with sparesUsed := [0] } 0) 0).2 = false ∧ ({ s0 with sparesUsed := [7] } : State).sparesUsed.contains (255 / 32) = true := by decide +kernel

/-- Ring 0 at 0x1000 with the packet given, its STEP and node. -/
def rg (st : BitVec 32) (n : Option Nat) : Ring := { state := .active, tail := 1, base := 0x1000, step := st, node := n }
def pk (q : Ring) (x : List (Nat × Nat × Nat)) : State := { wrN s0 (.ext 0x1000) 64 (packBits 512 x).toNat with rings := [(0, q)] }
/-- One packet of each opcode, in order of opcode; a graph whose node 0 is given. -/
def packets : List (List (Nat × Nat × Nat)) := [[(0, 8, 0)], [(0, 8, 1), (64, 64, 0x2000)], [(0, 8, 2), (64, 64, 0x2000), (128, 64, 0x40000), (192, 64, 64)],
  [(0, 8, 3), (64, 64, 0x2000), (128, 64, 5), (192, 64, 1)], [(0, 8, 4), (64, 64, 0x2000), (128, 64, 3), (192, 64, 2)],
  [(0, 8, 5), (64, 64, 0x2000), (192, 64, 0x3000), (256, 64, 9)], [(0, 8, 6), (64, 64, 0x2000), (128, 64, 0)], [(0, 8, 7), (64, 64, 0x2000)],
  [(0, 8, 8), (64, 64, 0x3000)], [(0, 8, 9)]]
def oneItem (x : List (Nat × Nat × Nat)) (q : Ring) : Bool :=
  match itemOf (pk q x) q with
  | .ok i => i.node.isNone && (pktBad false i.pkt).isNone && decide (stepOp (pk q x) 0 = pOp i.pkt) && decide (cpNext (pk q x) = some 0)
  | .error _ => false
/-- The validator denies the packet at HEAD for its opcode. -/
def denied (s : State) (q : Ring) : Bool :=
  match itemOf s q with
  | .error (.denied _ _ r) => decide (r = 1)
  | _ => false
theorem witness_packets : (packets.take 8 ++ packets.drop 9).all (fun x => oneItem x (rg 0 none)) = true ∧ cpNext s0 = none ∧
    cpNext { pk (rg 0 none) [(0, 8, 9)] with cp := { used := 4096 } } = none ∧ ({} : DevCfg).slice = 4096 ∧
    (match itemOf (pk (rg 0 none) [(0, 8, 9)]) { rg 0 none with base := 0x1000000000 } with
     | .error _ => true
     | .ok _ => false) = true ∧ pktBad false (packBits 512 [(0, 8, 11)]) = some 1 ∧
    denied (pk { rg 0 none with val := 0x5000 } [(0, 8, 9)]) { rg 0 none with val := 0x5000 } = true ∧
    isOkE (validate s0 (rg 0 none) (some 9) []) = true := by decide +kernel
theorem witness_packet_effects : isOkE (ringRead s0 (rg 0 none) 0x2000) = true ∧ isOkE (ringRead s0 (rg 0 none) 0x1000000000) = false ∧
    isOkE (ringCopy s0 (rg 0 none) 0x2000 0x3000 16) = true ∧ isOkE (ringCopy s0 (rg 0 none) 0x1000000000 0x3000 16) = false ∧
    isOk (checkOne s0 { tenant := 0 } 0x2000 8 8 { rd := true, wr := true } (.hostAtomic true 0)) (.ext 0x2000) = true ∧
    isOkE (ringStore s0 (rg 0 none) 0x2000 7) = true ∧ isOkE (ringLoad s0 (rg 0 none) 0x2000) = true ∧
    (match publish s0 rec1 0x2000 0 0 1 none {} none { cause := .recordInvalid } with
     | .ok _ _ => true
     | _ => false) = true := by decide +kernel
/-- A graph at 0x3000 whose node 0 is a NOP, and one whose node 0 is COND. -/
def graph (op : Nat) : State := wrN (pk (rg 0 none) (packets.getD 8 [])) (.ext 0x3000) 64 (op + 0xFFFF * 2 ^ 16)
def nodeItem (op : Nat) : Bool :=
  match itemOf (graph op) (rg 0 none) with
  | .ok i => decide (i.node = some 0) && (pktBad true i.pkt).isNone && decide (stepOp (graph op) 0 = if op = 10 then 10 else 8) && decide (cpNext (graph op) = some 0)
  | .error _ => false
theorem witness_graph : nodeItem 0 = true ∧ nodeItem 10 = true := by decide +kernel

/-- The device ready; ring 0 of 16 entries. -/
def host (s : State) : State := { s with boot := { s.boot with state := .ready }, power := .d0 }
theorem witness_host_writes : hostOpen (host s0) = true ∧ hostOpen s0 = false ∧ (rg 0 none).state = .active ∧
    ((17 : BitVec 32) - (rg 0 none).tail).toNat + ((rg 0 none).tail - (rg 0 none).head).toNat = 17 ∧ 2 ^ (rg 0 none).log2n < 17 ∧
    ((16 : BitVec 32) - (rg 0 none).tail).toNat + ((rg 0 none).tail - (rg 0 none).head).toNat ≤ 2 ^ (rg 0 none).log2n ∧
    kfind (streamKey 0 63) [(63, ({ kind := 3 } : Stream))] = some { kind := 3 } ∧ ({ timeUs := 1, pend := 1 } : Stream).timeUs ≠ 0 ∧
    (999 * 2 ^ 32 < 0 + 1 * 1000 * 2 ^ 32) ∧ (0 + 1 * 1000 * 2 ^ 32 ≤ 1000 * 2 ^ 32) ∧
    (let v : Word := 0x1F00FF00FF
     31 ≤ bitsAt v 32 16 ∧ 255 ≤ bitsAt v 16 16 ∧ 255 ≤ bitsAt v 0 16) ∧ ¬ (31 ≤ bitsAt (0x1E00FF00FF : Word) 32 16) ∧
    poolOk {} .spawn { qmin := 1152, qcap := 2048 } = true ∧ poolOk {} .spawn { qmin := 1153, qcap := 2048 } = false := by decide +kernel
/-- A reply ring of function 0 whose next entry names a park: group 1 faulted at its image 0x4000, or its wave in `trap`. -/
def rep (act : Nat) (s : State) : State :=
  { wrN s (.host 0x100) 32 (0x4000 + act * 2 ^ 64) with boot := { s.boot with state := .ready }, streams := [(0, { kind := 3, base := 0x100, pi := 1 })] }
def faulted : State := { s0 with groups := [(1, { g0 with place := .faulted .breakpoint, faultWave := 32, faultLen := 8, img := 0x4000, ring := some 0 })] }
def trapped : State := { sw { w0 with wait := .trap } with groups := [(1, { g0 with img := 0x4000, ring := some 0 })] }
def entryAction (s : State) : Option Nat := (replyEntry s).map (fun p => rAction p.2)
theorem witness_replies : replyEntry s0 = none ∧ [0, 1, 2, 3].map (fun a => entryAction (rep a faulted)) = [some 0, some 1, some 2, some 3] ∧
    (match replyEntry (rep 0 faulted) with
     | some (st, e) => decide (parkedAt (takeReply (rep 0 faulted) st) 0 (rPark e) = some (.fault 1))
     | none => false) = true ∧
    (match replyEntry (rep 0 trapped) with
     | some (st, e) => decide (parkedAt (takeReply (rep 0 trapped) st) 0 (rPark e) = some (.trap 32))
     | none => false) = true ∧
    (match replyEntry (rep 0 s0) with
     | some (st, e) => decide (parkedAt (takeReply (rep 0 s0) st) 0 (rPark e) = none)
     | none => false) = true := by decide +kernel

/-- Function f's next command, its table entries or context at host address 0x1000. -/
def cmd (f : Nat) (x : List (Nat × Nat × Nat)) (at1000 : Nat) (s : State) : State :=
  { wrN (wrN (host s) (.host 0) 64 (packBits 512 x).toNat) (.host 0x1000) 64 at1000 with funcs := [(f, { cmdTail := 1 })], input := { func := f } }
def cmdIs (op : Nat) (s : State) : Bool :=
  match cmdNow s s.input.func with
  | some (c, _) => decide (pOp c = op) && !cmdBad c [all64, all64, all64]
  | none => false
theorem witness_commands : cmdNow s0 0 = none ∧ (List.range 10).all (fun i => cmdIs (i + 1) (cmd 0 [(0, 8, i + 1)] 0 s0)) = true ∧ cmdIs 1 (cmd 64 [(0, 8, 1)] 0 s0) = true ∧
    cmdBad (packBits 512 [(0, 8, 1), (256, 64, 1)]) [all64, all64] = true ∧ cmdIs 11 (cmd 0 [(0, 8, 11)] 0 s0) = true := by decide +kernel
/-- A ring context, a stream, a table entry and an output that are accepted. -/
def ctxOk : BitVec 512 := packBits 512 [(224, 7, 4), (256, 64, 0x1000)]
def streamOk : BitVec 256 := packBits 256 [(68, 4, 1), (72, 8, 4), (80, 16, 1)]
theorem witness_command_fields : ctxBad ctxOk = false ∧ ctxBad 0 = true ∧ streamBad 0 63 streamOk = false ∧ streamBad 0 0 0 = true ∧ mayRing s0 5 16383 = false ∧
    mayRing s0 0 16383 = true ∧ mayReply 64 63 = true ∧ tableBad s0 [0] = none ∧ (tableBad s0 [1]).isSome = true ∧ outputBad 0 outDesc = false ∧ outputBad 0 0 = true ∧
    isOkE (loadObject s0 0 []) = false ∧ 0x7000 % 8192 ≠ 0 ∧ 0x8000 % 8192 = 0 ∧ (0, 5) ∉ s0.killing ∧
    (let q : Ring := { state := .error, head := 3, tail := 7 }
     (q.tail - q.head).toNat < ((8 : BitVec 32) - q.head).toNat ∧ ((7 : BitVec 32) - q.head).toNat ≤ (q.tail - q.head).toNat ∧ (3 : BitVec 32) = q.head) := by
  decide +kernel
theorem witness_boot : (State.reset).boot.state = .reset ∧ s0.boot.state = .reset ∧ ({ s0 with boot := { state := .selfTest } } : State).boot.state ≠ .ready ∧
    ({ s0 with power := .d3hot } : State).power = .d3hot ∧ 255 < 256 ∧ 127 < 128 ∧ 47 < 48 := by decide
theorem witness_heat : (110 * 256 - 1) % 2 ^ 16 < 110 * 256 ∧ 110 * 256 ≤ (110 * 256) % 2 ^ 16 ∧ 1200 ≤ 1200 ∧ 2 < 3 ∧
    kget 0 (127 * 2 ^ 40 + 5) [(127 * 2 ^ 40 + 5, 14)] < 15 ∧ 15 ≤ kget 0 (127 * 2 ^ 40 + 5) [(127 * 2 ^ 40 + 5, 15)] ∧ 1 ≤ kget 0 127 [(127, 1)] ∧
    (47 ∈ ({ s0 with lanesOut := [47] } : State).lanesOut) ∧ (47 ∉ s0.lanesOut) ∧ (0x8000000000000000 : Word).getLsbD 63 = true := by decide +kernel
theorem witness_memory_form : State.reset.memWf = true ∧ s0.memWf = true := by decide
/-- A turn that issues wave 32, its code a `nop` at 0x10000 in compact form; a reserved field; an unmapped PC; a step of the device. -/
def fetchSt (p : Nat) (pc : Word) : State :=
  { wrN (sw { w0 with pc := pc }) (.ext 0x10000) 8 p with agenda := [{ what := .issue 32 }] }
theorem witness_step : (match step (fetchSt 0x78 0x10000) with
     | .next t => decide ((wv t).pc = 0x10004)
     | _ => false) = true ∧
    mayIssue (fetchSt 0x78 0x10000) 32 = true ∧ mayIssue (sw { w0 with wait := .sleep }) 32 = false ∧
    (match fetchAt (fetchSt 0x78 0x10000) 32 0x10000 with
     | .ok ps => decide (decode ps = .instr (.nopCompact { stall := 0 }))
     | .error _ => false) = true ∧
    (match fetchAt (fetchSt 0x78 0x1000000000) 32 0x1000000000 with
     | .ok _ => false
     | .error e => decide (e.cause = .pageNotPresent)) = true ∧ Instr.isEvent .heartbeat = true := by decide +kernel

/-- A turn that brings an error of the core's arrays: the group parks with ECC_UNCORRECTABLE before it issues (R297, R395). -/
theorem witness_core_error : (match step { fetchSt 0x78 0x10000 with agenda := [{ what := .issue 32, input := { flag := true } }] } with
     | .next t => decide ((t.group? 1).map (·.place) = some (.faulted .eccUncorrectable))
     | _ => false) = true := by decide +kernel

/-- RoundingIsCorrect: 1 / 1 is a value of every format; 2^2000 rounds to no finite value of FP64; a tie of conversion to an integer. -/
theorem witness_rounding : Ty.f8e5 ∈ tysF6 ∧ (0 : Nat) < 1 ∧
    (∃ u, (fmtOf .f16).Is (roundQ (fmtOf .f16) .rne false false 1 1 0) u) ∧
    (∀ u, ¬ (fmtOf .f64).Is (roundQ (fmtOf .f64) .rne false false 1 1 2000) u) ∧ (Rm.rdn = .rdn ∧ Rm.rne ≠ .rdn) := by
  refine ⟨by decide, by decide, ⟨_, by decide, ⟨false, 1024, -10, by decide⟩, rfl⟩, ?_, by decide⟩
  rintro u ⟨-, ⟨s, n, e, h⟩, -⟩
  exact absurd h (by rw [show fdec (fmtOf .f64) (roundQ (fmtOf .f64) .rne false false 1 1 2000) = .inf false by decide]; simp)
/-- SpecialFunctions: NaN, zero, infinity, a positive and a negative number, an integer and a power of 2, in FP16. -/
theorem witness_special : Ty.bf16 ∈ tysF4 ∧ frd envRne .f16 0x7E00 = .nan ∧ frd envRne .f16 0x8000 = .fin true 0 (-24) ∧ frd envRne .f16 0x7C00 = .inf false ∧
    frd envRne .f16 0x4200 = .fin false 1536 (-9) ∧ frd envRne .f16 0xC200 = .fin true 1536 (-9) ∧ (1536 : Nat) ≠ 0 := by decide
theorem witness_powers : (FV.fin false 1536 (-9)).rat = (3 : Int) ∧ (FV.fin false 1024 (-9)).rat = (2 : ℚ) ^ (1 : Int) := by
  constructor <;> simp [FV.rat] <;> norm_num
/-- Conversions, VotesAndReductions, ExactAccumulator: types at the ends of their lists. -/
theorem witness_type_lists : Ty.n8.width < Ty.i16.width ∧ (regSpec (.unpack { h := h0, d := 4, a := 5, src := .f8e4, dst := .f64, rmo := .mode, sat := false })).isSome = true ∧
    Ty.f8e4.width < Ty.f64.width ∧ (regSpec (.cbDec { h := h0, d := 4, a := 5 })).isSome = true ∧ frd envRne .f64 0x3FF0000000000000 = .fin false (2 ^ 52) (-52) ∧
    Ty.f64 ∈ tysF4 ∧ Ty.bf16 ∈ tysMac ∧ Ty.f8e5 ∈ tysF6IN ∧ (34 : Field11).toNat = 34 ∧ 5 < 32 := by decide
/-- CompactForms: each compact register form has its twin and its needs. -/
theorem witness_compact : ((words_compact1 ++ words_compact2).filter (fun p => (compactTwin p.2).isSome && (specOf p.2).isSome)).length = 15 := by decide
/-- CrossLaneMovesOrTraps reads; DivergentBranches: a divergent condition with a full stack whose top token has an object, or none. -/
def wfull (j : Option Nat) : Wave := wb (List.replicate 7 tok1 ++ [{ tok1 with join := j }])
def sfull (j : Option Nat) : State := { sw (wfull j) with joins := [(4, { count := 1 })], nextJoin := 5 }
theorem witness_ejection : clr (spec0 8 0 [] (condRead 1)) (wfull (some 4)) = true ∧ holds false 1 (wfull none) ≠ 0 ∧
    (wfull none).path &&& ~~~ holds false 1 (wfull none) ≠ 0 ∧ (sfull none).group? (gidOf 32) = some g0 ∧ 8 ≤ (wfull none).tokens.length ∧
    (4 ≠ (sfull (some 4)).nextJoin ∧ (kfind 4 (sfull (some 4)).joins).isSome = true) ∧ ({ tok1 with join := none } : Token).join = none ∧
    (match grantBlocks (entryState (spec0 8 0 [] (condRead 1)) (sfull (some 4)) 32 (wfull (some 4))) 0 1 .cont 2 (contBlocks (wfull none)) with
     | .places _ => true
     | _ => false) = true ∧
    (match grantBlocks { sfull none with devCfg := { ({} : DevCfg) with segLimit := 0 }, cores := [(0, { contP := ⟨0, 0⟩ })] } 0 1 .cont 2 (contBlocks (wfull none)) with
     | .wait => true
     | _ => false) = true := by decide +kernel
/-- RejoinAndExit: a continuation wave of group 2 whose lane 0 came from lane 5 of wave 32, counted in object 4. -/
def contLane (fwd : Option Nat) : State :=
  { s0 with groups := [(1, g0), (2, { g0 with gid := 2, origin := .continuation 1 })], cur := some 64,
            waves := [(32, w0), (64, { w0 with path := 1, present := 1, lanes := [(0, { join := some 4, originWave := 32, originLane := 5 })] })],
            joins := [(4, { count := 1, rejoin := 0x10000, forward := fwd })] }
theorem witness_continuation : isCont (contLane none) 64 = true ∧ ((contLane none).wave? 64).map (·.tokens) = some [] ∧
    clr (spec0 8 0 [] []) { w0 with path := 1 } = true ∧ (joinObj (contLane none) 4).rejoin = 0x10000 ∧ (joinObj (contLane none) 4).rejoin ≠ 0x20000 ∧
    (joinObj (contLane (some 3)) 4).forward = some 3 ∧ (joinObj (contLane none) 4).forward = none ∧ (32 : Nat) ≠ 64 ∧ ((contLane none).wave? 32).isSome = true ∧
    (kfind 4 (contLane none).joins).isSome = true ∧ isCont (contLane none) 32 = false ∧ 31 < 32 := by decide
theorem witness_exit_ends : ksorted s0.waves = true ∧ s0.group? (gidOf 32) = some g0 ∧ g0.crew ≤ 1 ∧ w0.tokens = [] ∧
    (let s : State := { s0 with waves := [(32, w0), (33, { w0 with waveid := 1 })] }
     gidOf 33 = gidOf 32 ∧ (s.wave? 33).map (·.ended) = some false ∧ (s.core (coreOf s 32)).claims = []) := by decide
/-- A spawned lane whose family lies in the shared window. -/
theorem witness_family_exit : (kget {} 0 ({ w0 with lanes := [(0, { family := 0xFE000002000000 })] } : Wave).lanes : LaneInfo).family ≠ 0 ∧
    isOk (checkObj s0 { tenant := g0.tenant } 0xFE000002000000 8 8 { rd := true, wr := true }) (.shm 0x2000000) = true := by decide
/-- ChecksBeforeEffects: V512 of 512 registers, a privileged index without the agent's mark, a pending token named. -/
theorem witness_first_checks : (specOf (.vectorMov { h := h0, d := 512, b := .vec 1, ty := .b64 })).map (fun sp => sp.opnds.any (fun o => (regBad w0 o).isSome)) = some true ∧
    agentWave s0 32 = false ∧ (specOf (.csrGet { d := 5, idx := 0x100, stall := 0 })).map (·.priv) = some (some 0x100) ∧ 0x100 ≤ (0x7FF : Field11).toNat ∧
    (specOf (.scalarNot { h := h0, d := 5, a := 9, ty := .b64 })).map (fun sp => tokenBlocked sp { w0 with tokenPend := [9] }) = some true := by decide
/-- The agent slot of core 0 reads a privileged index. -/
def sAgent : State := { s0 with groups := [(1, { g0 with agent := true })] }
theorem witness_agent : agentWave sAgent 32 = true ∧ Clear { specSys 8 0 [sOp 5 1 true] with priv := some 0x100 } sAgent 32 w0 := by
  refine ⟨by decide, ⟨rfl, rfl, ?_, by decide, fun h => absurd h (by decide), by decide⟩⟩
  intro o ho
  have : o = sOp 5 1 true := by simpa [specSys] using ho
  subst this; decide
/-- TakingAnException: the error stream of ring 0 set with room, full, and holding. -/
theorem witness_streams : (let st : Stream := { kind := 1, log2n := 4 }
     kfind (streamKey (s0.ring 0).func (s0.ring 0).estream) [(streamKey 0 0, st)] = some st ∧ st.kind ≠ 3 ∧ st.full = false ∧ st.held = []) ∧
    ({ kind := 1, log2n := 4, pi := 16 } : Stream).full = true ∧ (0x1000 + 8 ≤ 0x2000 + 64 * (0 % 2 ^ 4)) := by decide
/-- The last 64 bytes of the shared memory: a queue's or ring's header passes there, and its entries do not. -/
def shEnd : Nat := 0xFE000015FFFFC0
theorem witness_slot_checks : isOkE (checkObj s0 (whoOf s0 32) shEnd 64 64 needRw) = true ∧ (dqEntryFail s0 (whoOf s0 32) { va := shEnd, slots := 2, sbytes := 16 } 0).isSome = true ∧
    dqEntryFail (dqFullOne (ws shb 0x100)) (whoOf s0 32) q0 0 = none ∧ popFail (dqFullOne (ws shb 0x100)) (whoOf s0 32) q0 0 = none ∧
    (popFail s0 (whoOf s0 32) { va := shEnd, slots := 2, sbytes := 16 } 0).isSome = true ∧ isOkE (checkObj s0 (whoOf s0 32) (slotVa shEnd 0) 16 16 needRw) = false := by decide +kernel
/-- Ownership: an address R60 accepts, one past the window, one of another memory. -/
theorem witness_owner_checks : isOkE (checkObj s0 (whoOf s0 32) 0xFE000002000000 4 4 {}) = true ∧ isOkE (checkObj s0 (whoOf s0 32) 0xFE000018000000 4 4 {}) = false ∧
    isOkE (resolve s0 (whoOf s0 32) 0x100 4 {}) = true ∧ inShared 0x100 = false := by decide +kernel
/-- A tagged load that issues again with lane 0 done: lane 1 alone is to be checked and performed; a further lane fails. -/
theorem witness_retest : (let w : Wave := { wl lsb with done := 1 }
     ((ldAcc (ld0 .b32) needRw .tagged).lanes w).filter (fun p => !w.done.getLsbD p.1) = [(1, 0xFF000000000004)] ∧
     (match checkLanes (sw w) (whoOf s0 32) (((ldAcc (ld0 .b32) needRw .tagged).lanes { w with v := [(32 * 9, 1), (32 * 9 + 1, 0x102)] }).filter (fun p => !w.done.getLsbD p.1)) 4 4 needRw .tagged with
      | .error e => decide (e.cause = .misaligned)
      | .ok _ => false) = true) := by decide +kernel
/-- A token still pending, as a copy's and a scan's completion. -/
theorem witness_token_reuse : tokenReused { w0 with tokenPend := [9] } ⟨false, 9⟩ = true ∧ tokenReused w0 ⟨false, 9⟩ = false ∧ (⟨false, 9⟩ : Cw).sreg.toNat ∈ ({ w0 with tokenPend := [9] } : Wave).tokenPend := by decide
/-- A task at depth 10, one at depth 9, and a group of no task. -/
theorem witness_depth : (((s0.task? g0.seq).map (·.depth)).getD g0.depth < 10) ∧
    10 ≤ (({ s0 with tasks := [(1, { seq := 1, depth := 10 })] } : State).task? g0.seq |>.map (·.depth)).getD g0.depth := by decide
/-- Bins of which the counters or the entries fail; ring publication that meets an entry it cannot read, and a sequence never acquired. -/
theorem witness_bins_fail : (let b := binSetAt (binSt 1 0 (ws shb 0)) (whoOf s0 32) 0xFE000002000000
     earlier (checkRange (binSt 1 0 (ws shb 0)) (whoOf s0 32) (b.counter 0) (16 * b.nstrip) needRw) (checkRange (binSt 1 0 (ws shb 0)) (whoOf s0 32) b.entries (8 * b.nstrip * b.cap) needRw) = none) ∧
    (earlier none (checkRange s0 (whoOf s0 32) shEnd 128 needRw)).isSome = true := by decide +kernel
theorem witness_ring_fail : isOkE (checkObj (ringSt 0 0 0 1 0 (ws shb 0)) (whoOf s0 32) (slotVa 0xFE000002000000 0) 16 16 needRw) = true ∧
    advanceFail (ringSt 1 0 0 1 0 (ws shb 0)) (whoOf s0 32) 0xFE000002000000 (rh (ringSt 1 0 0 1 0 (ws shb 0))) 0 3 0 = none ∧
    beforeFirst (ringSt 0 0 0 0 0 (ws shb 0)) (whoOf s0 32) 0xFE000002000000 (rh (ringSt 0 0 0 0 0 (ws shb 0))) 0xFFFFFFFF = true ∧
    beforeFirst (ringSt 1 0 0 1 0 (ws shb 0)) (whoOf s0 32) 0xFE000002000000 (rh (ringSt 1 0 0 1 0 (ws shb 0))) 0 = false := by decide +kernel
theorem witness_ring_fail2 : (advanceFail s0 (whoOf s0 32) shEnd (rh (ringSt 2 0 0 1 0 (ws shb 0))) 0 3 0).isSome = true := by decide +kernel
/-- A wave of a group that nobody helps; a claim that does not fit. -/
theorem witness_claim_waits : g0.helper = none ∧ (({ s0 with cores := [(0, { claims := [33] })] } : State).core 0).claims ≠ [] := by decide
/-- WaitsEnd: a wave that waits at `exit` and at `rejoin` with stall count 9. -/
theorem witness_wait_stalls : ({ w0 with wait := .joinCount, waitArg := 1 } : Wave).waitArg = 1 ∧ ({ w0 with wait := .joinCount, waitArg := 18 } : Wave).waitArg ≠ 1 := by decide
/-- MatrixUnitSteps: a crew of two whose operation has started, rank 0 present or gone, its bytes there or not; a scan entry; a member that left. -/
def crew2 (e : MqEntry) (gone : List (Nat × Nat × List MqEntry)) (r : Nat) : State :=
  { s0 with groups := [(1, { gm 0 0 [e] with crew := 2, crewLead := 1, crewGone := gone, rank := r }), (2, { gm 0 0 [e] with gid := 2, crew := 2, crewLead := 1, rank := r + 1 })] }
def crewZ (s : State) : Option Nat := ((crewRanks s 1).head?).map (fun z => z.2.rank)
theorem witness_crew_steps : (let e : MqEntry := { crew := true, started := true }
     crewZ (crew2 e [] 0) = some 0 ∧ crewZ (crew2 e [] 1) = some 1 ∧ isOkE (headsRead (crew2 e [] 0) [1, 2]) = true ∧
     isOkE (operandRead (crew2 e [] 0) 1 true 0 0) = true ∧ isOkE (operandRead (crew2 e [] 0) 1 true 0 64) = false ∧
     isOkE (headsRead (crew2 { e with nA := 64 } [] 0) [1, 2]) = false) ∧
    (let e : MqEntry := { crew := true, opNo := 3 }
     [3].find? (crewLacks (crew2 e [(1, 2, [])] 0) 1) = some 3 ∧ [3].find? (crewLacks (crew2 e [(1, 3, [])] 0) 1) = none ∧
     crewReady (crew2 e [] 0) 1 3 = true ∧ crewDisagrees (crew2 e [] 0) 1 3 = none) ∧ ({ ssm := true } : MqEntry).ssm = true := by decide +kernel
/-- StripsOutputsAndRaster: an encoder that has begun, with its stream open and full. -/
def coding (s : State) : State := { s with outputs := s.outputs.map (fun p => (p.1, { p.2 with coding := true })) }
theorem witness_coding : (kget {} 4 (coding (outSt 4 1 0 0 [])).outputs).coding = true ∧ (kget {} 4 (outSt 4 1 0 0 []).outputs).coding = false ∧
    seen 4 (coding (outSt 4 1 0 0 [])) = .slot 1 ∧ seen 4 (outSt 4 0 0 0 [(0, 7)]) = .late 7 ∧ streamOpen (coding (outSt 4 1 0 0 [])) 0 0 = true := by decide +kernel
/-- An entry due at its FINISH on a bound output: its sequence below PUB, and not. -/
def finSt (pub : Nat) : State :=
  { outSt 4 pub 2000 0 [] with table := some { entries := [ent 4], started := [(0, 1)] } }
def finQ (s : State) : Nat := boundSeq { entries := [ent 4], started := [(0, 1)] } (kget {} 4 s.outputs) 4 0 0
theorem witness_finish : seqDiff (finQ (finSt 1)) (hPub (ringHdr (finSt 1) { tenant := 0 } 0xFE000002000000)) < 0 ∧
    ¬ seqDiff (finQ (finSt 0)) (hPub (ringHdr (finSt 0) { tenant := 0 } 0xFE000002000000)) < 0 ∧ (kget {} 4 (finSt 1).outputs).bound = true ∧
    tFinish (ent 4) ≤ (finSt 1).ns := by decide +kernel
/-- AgentsPlaceAndRetire: a task whose launch image is read; a marked candidate for pre-emption. Here `two 0 0` with a launch image of 2,560 bytes at address 0, whose only section is the one of type 1. -/
def imaged : State := wrN (two 0 0) (.ext 0) 256
  (packBits 2048 [(0, 31, 0xA00), (38, 6, 1), (56, 8, 1), (512, 32, 0x100), (544, 32, 0x900), (576, 8, 1)]).toNat
theorem witness_launch_read : imaged.task? 5 = some (task2 0 0) ∧ recCrew (task2 0 0) ≤ 1 ∧ 0 < recWaves (task2 0 0) ∧
    (match imgReserve imaged 0 0 0 with
     | some a => match readLaunch (State.setGroup { (roInvalidate (imaged.modTask 5 (fun x => { x with
         next := x.next + 1, readyAt := imaged.time, overdue := false, started := if (task2 0 0).next = 0 then imaged.draw else (task2 0 0).started })) 0) with nextGid := imaged.nextGid + 1 } imaged.nextGid
         (groupOf (task2 0 0) imaged.nextGid (task2 0 0).next 0 a)) 0 (recImage (task2 0 0)).toNat (recRegs (task2 0 0)) (recLs (task2 0 0)) 0 with
       | .ok i => i.wave.claim.isNone
       | .error _ => false
     | none => false) = true := by decide +kernel
def marked : State := { onlyCore0 2 512 0 with tasks := (onlyCore0 2 512 0).tasks.map (fun p => (p.1, { p.2 with overdue := true })) }
theorem witness_marked : Cand.marked marked (.start 5) = true ∧ readySet marked = [.start 5] ∧ Cand.marked (onlyCore0 2 512 0) (.start 5) = false ∧
    partialReady marked 0 = none ∧ barred marked 0 (.start 5) = false ∧ (imaged.core 0).claims = [] := by decide +kernel
/-- PacketSteps: a packet checked already, and one whose validator block denies or admits its opcode; a node outside the ranges. -/
def vq : Ring := { rg 0 none with val := 0x5000 }
def vs (ops lo hi : Nat) (x : List (Nat × Nat × Nat)) : State :=
  wrN (wrN (wrN (wrN (pk vq x) (.ext 0x5000) 8 ops) (.ext 0x5008) 8 1) (.ext 0x5010) 8 lo) (.ext 0x5018) 8 hi
theorem witness_validator : isOkE (validBlock (vs 0x200 0 0 [(0, 8, 9)]) vq) = true ∧ (0x200 : Nat).testBit 9 = true ∧ (0 : Nat).testBit 9 = false ∧
    isOkE (validBlock s0 { vq with val := 0x1000000000 }) = false ∧ (rg 0 none).checked = none ∧ (rg 0 none).nodeChecked = none ∧ oneItem [(0, 8, 0)] { rg 0 none with checked := some (packBits 512 [(0, 8, 0)]) } = true ∧
    validate (vs 0x100 0x3000 0x3040 []) vq none [(0x3000, 64)] = .ok none ∧ validate (vs 0x100 0x3000 0x3040 []) vq none [(0x3040, 64)] = .ok (some 2) := by decide +kernel
/-- RejoinAndExit: a token whose object has no count left, and one it has. ExceptionsAreTaken: a crew of two, and a group with REPLAY. -/
theorem witness_join_counts : joinCount { sw (wb []) with joins := [(4, {})] } ({ tok1 with join := some 4 } : Token).join = 0 ∧
    joinCount { sw (wb []) with joins := [(4, { count := 1 })] } ({ tok1 with join := some 4 } : Token).join ≠ 0 ∧
    1 < ({ g0 with crew := 2 } : Group).crew ∧ ¬ (Cause.breakpoint = .eccUncorrectable ∧ g0.replay = true) ∧ ({ g0 with replay := true } : Group).replay = true := by
  decide
/-- LaunchAndDependence: records with a counter, a family, and a queue in declared-occupancy mode with room for no segment and for one. -/
def recOf (dep fam qocc : Nat) : Task := { seq := 1, rec64 := rec1 ||| packBits 512 [(384, 56, fam), (256, 56, dep), (240, 16, qocc)] }
theorem witness_launch_forms : s0.task? s0.nextSeq = none ∧ launchFull s0 = false ∧
    recDep (recOf 0xFE000002000000 0 0) = 0xFE000002000000 ∧ recFamily (recOf 0xFE000002000000 0 0) = 0 ∧
    recDep (recOf 0 0xFE000002000000 0) = 0 ∧ recFamily (recOf 0 0xFE000002000000 0) = 0xFE000002000000 ∧ recCrew (recOf 0 0 1) ≤ maxCrew s0 ∧
    recBad (recOf 0xFE000002000000 0 0).rec64 = [] ∧ recBad (recOf 0 0xFE000002000000 0).rec64 = [] ∧
    rdN (obj 16 2 (ws shb 0)) (.shm 0x2000000) 4 ≠ 0 ∧ rdN (sw (ws shb 0)) (.shm 0x2000000) 4 = 0 ∧ rdN (obj 8 3 (ws shb 0)) (.shm 0x2000000) 8 % 2 ^ 32 + 1 < 2 ^ 32 ∧
    (recQocc (recOf 0 0 1) + 1023) / 1024 = 1 ∧ segFits s0 1 = true ∧ segFits { s0 with devCfg := { s0.devCfg with segLimit := 0 } } 1 = false ∧
    ({ s0 with rings := [(0, { docc := true })] } : State).ring 0 ≠ s0.ring 0 := by decide +kernel
/-- FragmentInstructions: a descriptor in local store that is accepted. -/
def rdesc : BitVec 512 := packBits 512 [(0, 56, 0xFE000002000000), (56, 8, 1), (96, 16, 32), (124, 4, 1), (160, 19, 1024)]
theorem witness_first_bind : g0.raster = none ∧ rasterBad rdesc (binSetAt (binSt 1 0 (ws shb 0)) { tenant := 0 } (dBinset rdesc)) 4 = false ∧
    rasterBad 0 (binSetAt s0 { tenant := 0 } 0) 4 = true ∧ isOkE (checkObj (binSt 1 0 (ws shb 0)) { tenant := 0 } (dBinset rdesc) 64 64 needRw) = true ∧
    isOkE (checkOne s0 (whoOf s0 32) 0xFF000000000000 64 64 needRd .plain) = true ∧ ((s0.group? (lsGroup s0 32)).map (·.lsKib)) = some 4 ∧
    (s0.raster 0).busy = false ∧ ({ busy := true, strip := 1 } : Raster).strip ≠ dStrip rdesc := by decide +kernel
/-- TraversalInstructions: rays that have ended, or are ended by their next step; a candidate to take, a hit that ends a FIRST ray, and entries of a replay. -/
def ry (done : Option Nat) : Ray := { done := done, hit := some { user := true, t := 7, addr := 8, attr := 9, index := 3 } }
theorem witness_ray_events : finalRegs (ry (some 2)) = (2 + 8 + 3 * 2 ^ 8 + 7 * 2 ^ 32, 8, 9) ∧ finalRegs (ry (some 1)) = (1, 0, 0) ∧
    ((ry (some 2)).done.isSome = true ∧ (ry (some 2)).cand = none ∧ (ry (some 2)).done ≠ some 3) ∧ (ry (some 3)).log = false ∧
    (ry none).leaf = none ∧ (ry none).stack = [] ∧ rdN s0 (.ls 1 0) 1024 = (ry none).shadow ∧ rayNow s0 1 (ry none) = some (ry none) ∧
    isOkE (checkOne s0 (whoOf s0 32) (0x2000 + 16 * 1) 16 16 needRd .plain) = true ∧ (1 : Nat) < 2 ∧
    isOkE (rtRead (whoOf s0 32) { core := 0, since := 0 } false 0x2000 3 s0) = true ∧
    field (rdN (wrN s0 (.ext 0x2000) 16 (1 + 2 ^ 32)) (.ext 0x2000) 16) 0 32 < 2 ∧ ({ ry none with replay := true, logPos := 2 } : Ray).logPos = 2 ∧
    field (2 * 2 ^ 24) 24 8 = 2 ∧ field (3 * 2 ^ 24) 24 8 = 3 := by decide +kernel
/-- A triangle record that the ray along x hits at 1 with FIRST set. -/
def triRay : Ray := { o := [0, 0, 0], d := [0x3F800000, 0, 0], tmin := 0, tmax := inf32, first := true }
def triCoord (v k : Nat) : Nat := ([[0x3F800000, 0xBF800000, 0xBF800000], [0x3F800000, 0x40400000, 0xBF800000], [0x3F800000, 0xBF800000, 0x40400000]].getD v []).getD k 0
theorem witness_triangle : (match triTest triRay triCoord with
    | some q => le32 triRay.tmin q.t && lt32 q.t triRay.tmax && decide (q.t = 0x3F800000)
    | none => false) = true := by decide +kernel
/-- rt.trace with LOG in one lane, rt.accept of a candidate in one lane: nearer than the ray's end, and not. -/
theorem witness_trace_and_accept : (ctx 1).getLsbD 144 = true ∧
    isOk (checkOne s0 (whoOf s0 32) (newRay wr 8 0 0 (ctx 1)).loga 16 16 needWr .plain) (.ext 0x2000) = true ∧
    lt32 0x3F800000 ({ tmax := inf32 } : Ray).tmax = true ∧ lt32 0x3F800000 ({ tmax := 0 } : Ray).tmax = false ∧
    ({ replay := true, lastHit := true, cand := some (1, 2, 3) } : Ray).cand.isSome = true := by decide +kernel
/-- AgeingStarvationAndClaims: the top token has nothing pending, the one below has; blocks are there, are not, or would pass QOCC. -/
def wage : Wave := { wb [tok1, { tok1 with pend := 0, join := some 4 }] with age := 1024 }
theorem witness_ageing_ejects : wage.tokens = [] ++ tok1 :: ([] ++ [{ tok1 with pend := 0, join := some 4 }]) ∧ tok1.pend &&& ~~~ wage.exited ≠ 0 ∧
    (∀ x ∈ ([] : List Token) ++ [{ tok1 with pend := 0, join := some 4 }], x.pend &&& ~~~ wage.exited = 0) ∧
    (match grantBlocks (sw wage) 0 1 .cont (popMask wage.path) (contBlocks wage) with
     | .places _ => true
     | _ => false) = true ∧
    (match grantBlocks { sw wage with devCfg := { ({} : DevCfg) with segLimit := 0 }, cores := [(0, { contP := ⟨0, 0⟩ })] } 0 1 .cont 4 (contBlocks wage) with
     | .wait => true
     | _ => false) = true ∧
    (match grantBlocks { sw wage with rings := [(0, { docc := true })] } 0 1 .cont 4 (contBlocks wage) with
     | .overflow _ => true
     | _ => false) = true ∧ (4 < (sfull none).nextJoin ∧ (kfind 4 (sfull none).joins).isSome = true) ∧ segGranted s0 0 1 (segArg .spawn 1 1) = true := by decide +kernel
/-- MatrixUnitSteps: a scan of one step in the stepwise form, and of one in the chunked form. -/
theorem witness_scan_values : (let c : Scan := { scanOf scanBlock with t := 2 }
     0 < c.l ∧ 0 < c.p ∧ (List.replicate (c.h * c.l * c.p) 0).length = c.h * c.l * c.p ∧ c.l < c.t) ∧
    (let c : Scan := { scanOf scanBlock with t := 1 }
     c.t ≤ c.l) := by decide +kernel
/-- PacketSteps: a launch record that is refused; a publication that waits. -/
theorem witness_publication : (match publish s0 (rec1 ||| 1) 0x2000 0 0 1 none {} none { cause := .recordInvalid } with
     | .refused _ => true
     | _ => false) = true := by decide +kernel
/-- ManagementCommands: QUEUE_KILL with a reserved bit, a ring and a tenant out of range. -/
theorem witness_command_ranges : cmdBad (packBits 512 [(0, 8, 3), (128, 64, 1)]) [all64] = true ∧ 16384 ≤ pQ (packBits 512 [(0, 8, 3), (64, 64, 16384)]) 1 ∧
    cmdBad (packBits 512 [(0, 8, 3), (64, 64, 16384)]) [all64] = false ∧ 64 ≤ pQ (packBits 512 [(0, 8, 6), (64, 64, 64)]) 1 ∧ mayReply 5 63 = false ∧
    ((0, 5) : Nat × Nat) ∈ [((0, 5) : Nat × Nat)] := by decide +kernel
/-- HostWrites: a vector masked and unmasked, a register offset of a ring. -/
theorem witness_bar : hostOpen { host s0 with input := { flag := true } } = true ∧ (8 * 16383 < 0x30018) ∧ (s0.ring 5).func = 0 ∧ (1 : Nat) ≠ (s0.ring 5).func := by decide
/-- ManagementCommands, HeatErrorsPeersAndTime: a route over a port whose lanes remain, and are gone. -/
def dom (s : State) : State := { s with domain := { self := 0, members := 0b110, routes := [(1, 1), (2, 2)], tenants := [(0, 63)] } }
theorem witness_routes : routed (dom s0).domain [] 1 = true ∧ routed (dom s0).domain [0, 1, 2, 3] 1 = false ∧ routed (dom s0).domain [0, 1, 2, 3] 2 = true ∧
    (dom s0).domain.members.getLsbD 2 = true ∧ domainTenant (dom s0) 63 = some 0 := by decide +kernel
/-- BootAndPower: out of PERST#, the ROM; a torn write while READY; D3hot from D0 and READY. -/
theorem witness_power : ({ s0 with boot := { state := .rom } } : State).boot.state = .rom ∧ (host s0).boot.state = .ready ∧
    ({ host s0 with input := { flag := true } } : State).input.flag = true ∧ ({ host s0 with power := .d3hot } : State).power = .d3hot := by decide
/-- StepRunsDecoded: a device step that its power state does not allow; a turn in which another line of the code was written since. -/
theorem witness_step_power : powered .d3hot .displayScanLine = false ∧ powered .d0 .displayScanLine = true ∧ Instr.isEvent .displayScanLine = true ∧
    Instr.isEvent (.nopCompact { stall := 0 }) = false ∧ s0.codeLines.all (fun c => c.at_ != (Loc.ext 0x10000).line.1) = true := by decide
/-! Witnesses of clauses about records, partly performed instructions, bins, traversal, rasterisation, claims and the balancer -/

/-- SystemRegisters: a function with and without a system-call stream. -/
theorem witness_trap_record : syscallStream s0 0 = none ∧ syscallStream { s0 with streams := [(1, { kind := 2 })] } 0 = some 1 := by decide +kernel
/-- TranscendentalsRounded: the ends of the enclosures at 1, 3 and 1/2 agree at the first precision. -/
theorem witness_ends_agree : EndsAgree (fmtOf .f32) (fun p => ivTrig false p 1 0) 0 (160 + 23) ∧
    EndsAgree (fmtOf .bf16) (fun p => ivTrig true p 1 0) 0 (160 + 7) ∧ EndsAgree (fmtOf .bf16) (fun p => ivLog2 p 3 0) 0 (160 + 7) ∧
    EndsAgree (fmtOf .bf16) (fun p => ivExp2 p 1 (-1)) 0 (128 + 1) :=
  ⟨⟨0, by decide, by decide +kernel⟩, ⟨0, by decide, by decide +kernel⟩, ⟨0, by decide, by decide +kernel⟩, ⟨0, by decide, by decide +kernel⟩⟩
/-- Atomics: two lanes on one address. -/
theorem witness_one_address : okAll (atAcc .add 0x210 (at0 .f32)) (sw (wl 0x100 0)) (wl 0x100 0) (extAt 0x100 0) = true ∧
    (atAcc .add 0x210 (at0 .f32)).lanes (wl 0x100 0) = [(0, 0x100), (1, 0x100)] ∧
    (∀ e ∈ atEntries .add .f32 0 (atOperand (wl 0x100 0) .f32 10) (atGroups [(0, 0x100, extAt 0x100 0 0), (1, 0x100, extAt 0x100 0 1)])
      (entryState (atAcc .add 0x210 (at0 .f32)).sp (sw (wl 0x100 0)) 32 (wl 0x100 0)), e = 0x20000 ∨ e = 0x22000) := by decide
/-- UnmetWaitsSleep: word 0 is full and word 1 empty, lane 0 is performed and lane 1 waits; or both name word 0, which lane 0 empties. -/
def half (w : Wave) : State := { sw w with groups := [(1, { g0 with lsTags := [(0, true)] })] }
theorem witness_partly : okAll (ldAcc (ld0 .b32) needRw .tagged) (half (wl lsb)) (wl lsb) (lsAt 0 4) = true ∧
    (ldAcc (ld0 .b32) needRw .tagged).lanes (wl lsb) = [(0, 0xFF000000000000)] ++ (1, 0xFF000000000004) :: [] ∧ (wl lsb).done = 0 ∧ (wl lsb).ownerEnd = 0 ∧
    (∀ j, j < 4 → rdTag (half (wl lsb)) ((lsAt 0 4 0).plus j) = true) ∧ rdTag (half (wl lsb)) (lsAt 0 4 1) = false ∧
    waitOwner (half (wl lsb)) (whoOf s0 32) .tag 0xFF000000000004 = none ∧
    okAll (ldAcc (ld0 .b32) needRw .tagged) (half (wl lsb 0)) (wl lsb 0) (lsAt 0 0) = true ∧ (lsAt 0 0 0).wordCell = (lsAt 0 0 1).wordCell ∧
    waitOwner (half (wl lsb 0)) (whoOf s0 32) .tag 0xFF000000000000 = none := by decide +kernel
/-- QueueInstructions: a header that passes R60 and breaks R227. -/
theorem witness_queue_invalid : isOkE (checkObj s0 (whoOf s0 32) 0xFE000002000000 64 64 needRw) = true ∧ dqBad s0 (whoOf s0 32) 0xFE000002000000 = true := by
  decide +kernel
/-- Bins: the triangle (0, 0), (8, 0), (0, 8) names strip 0 of an open set; the array is full; the strip is full. -/
def prim0 : Prim := packBits 512 [(96, 32, 0x41000000), (224, 32, 0x41000000)]
def bset (s : State) : BinSet := binSetAt s (whoOf s0 32) 0xFE000002000000
def binCount (n : Nat) : State := setWord32 (binSt 0 0 (ws shb 0)) (whoOf s0 32) ((bset (binSt 0 0 (ws shb 0))).counter 0) n
def binPnext (n : Nat) : State := setWord32 (binSt 0 0 (ws shb 0)) (whoOf s0 32) 0xFE000002000020 n
def binFailure (s : State) : Option Nat :=
  match emitLane (bset s) prim0 (whoOf s0 32) s with
  | .error t => some t.info1.toNat
  | .ok _ => none
theorem witness_bins_emit : Prim.kept prim0 = some [(0, 0), (2048, 0), (0, 2048)] ∧ prim0.cull ≠ 3 ∧ (bset (binSt 0 0 (ws shb 0))).state ≠ 1 ∧
    primStrips (bset (binSt 0 0 (ws shb 0))) [(0, 0), (2048, 0), (0, 2048)] = [0] ∧
    isOk (checkObj (binSt 0 0 (ws shb 0)) (whoOf s0 32) ((bset (binSt 0 0 (ws shb 0))).counter 0) 4 4 needRw) (.shm 0x2000040) = true ∧
    (bset (binSt 0 0 (ws shb 0))).pnext ≠ (bset (binSt 0 0 (ws shb 0))).pcap ∧ (bset (binPnext 2)).pnext = (bset (binPnext 2)).pcap ∧
    binFailure (binPnext 2) = some 0xFFFFFFFD ∧ binFailure (binCount 2) = some 0 ∧ binFailure (binCount 1) = none ∧ 0xFE000002000000 % 64 = 0 := by
  decide +kernel
/-- TraversalInstructions: visits of a stack entry and of a leaf: an inner node that is read, valid or not, a reference of kind 3, a node misaligned,
an entry farther than the ray's end, a log without room. -/
def nodeAt : Nat := 0x3000
def node0 : Nat := (2 ^ 96 + 2 ^ 104 + 2 ^ 112) * 127
def withNode (n : Nat) : State := wrN s0 (.ext nodeAt) 128 n
def rNode : Ray := { triRay with stack := [{ ref := nodeAt, tn := 0 }], shadow := rdN s0 (.ls 1 0) 1024 }
def nodeRead (n : Nat) : Option Bool :=
  match rtRead (whoOf s0 32) { core := 0, since := 0 } true nodeAt 8 (withNode n) with
  | .ok r => some (nodeBad r.2)
  | .error _ => none
theorem witness_visits : refKind nodeAt = 0 ∧ refAddr nodeAt % 128 = 0 ∧ refKind (3 * 2 ^ 62) = 3 ∧ refAddr (nodeAt + 64) % 128 ≠ 0 ∧ refKind (2 ^ 62) = 1 ∧
    lt32 rNode.tmax 0 = false ∧ lt32 ({ rNode with tmax := 0 } : Ray).tmax 0x3F800000 = true ∧ rayNow s0 1 rNode = some rNode ∧
    nodeRead node0 = some false ∧ nodeRead 0 = some true ∧
    (match rtRead (whoOf s0 32) { core := 0, since := 0 } true 0x1000000000 8 s0 with
     | .error (.fail _) => true
     | _ => false) = true ∧ ({ rNode with log := true, logn := 2, logCount := 1 } : Ray).logn ≤ 1 + 1 ∧
    isOk (checkOne s0 (whoOf s0 32) (0x2000 + 16 * (0 + 1)) 16 16 needWr .plain) (.ext 0x2010) = true := by decide +kernel
/-- BoxesTrianglesAndCoverage: a node with finite origin and exponents, axes beside and along the ray, a triangle met in finite edges, a sample covered and a
block with and without a covered pixel. -/
def rv : List (Int × Int) := [(0, 0), (2048, 0), (0, 2048)]
def triP (v : Nat) : Nat × Nat × Nat := triPoint triRay (triCoord v)
theorem witness_geometry : isFin (nodeOrigin node0 0) = true ∧ nodeBad node0 = false ∧ nodeBad 0 = true ∧
    axisTest 0x40000000 0 0 0x3F800000 = none ∧ (axisTest 0 0x3F800000 0x3F800000 0x40000000).isSome = true ∧ (boxTest triRay node0 0).isSome = true ∧
    triAxes triRay.d = (1, 2, 0) ∧ (triUvw (triP 0) (triP 1) (triP 2)).all (fun x => !x.isNan && !x.isZero) = true ∧
    [triP 0, triP 1, triP 2].all (fun p => isFin p.1 && isFin p.2.1 && isFin p.2.2) = true ∧ 0 < triArea rv ∧ covered rv 128 128 = true ∧
    covered rv 2000 2000 = false ∧ (fragOf 1 rdesc 8 0 0 prim0 rv 0 0).isSome = true ∧ fragOf 1 rdesc 8 0 0 prim0 rv 9 0 = none := by decide +kernel
/-- WaitsEnd: waits of the engines, of a token, of the raster unit and of a bin set's readers. -/
theorem witness_engine_waits : Wait.engine .handle = true ∧ (s0.group? (gidOf 32)).bind (·.core?) = some 0 ∧
    (({ s0 with rasters := [(0, { busy := true, started := true, groups := [1] })] } : State).raster 0).started = true ∧
    (s0.group? 1).bind (·.raster) = none ∧ ({ w0 with tokenPend := [9], wait := .token } : Wave).tokenPend.erase 9 = [] := by decide +kernel
/-- AgeingStarvationAndClaims: two claims queued; the first fits. -/
def claims2 : State :=
  { s0 with cores := [(0, { claims := [32, 33] })],
            waves := [(32, { w0 with wait := .claim, claim := some (8, 0) }), (33, { w0 with waveid := 1, wait := .claim, claim := some (1024, 0) })] }
theorem witness_claim_queue : (claims2.core 0).claims = 32 :: [33] ∧ (claims2.wave? 32).map (·.claim) = some (some (8, 0)) ∧
    claims2.group? (gidOf 32) = some g0 ∧ 8 ≤ g0.budgetFree + freeRegs claims2 0 := by decide +kernel
/-- StripsOutputsAndRaster: a cluster that fits two cores; none with every core out; a launch record of the chain that is mapped. -/
theorem witness_chain_cores : chainCluster s0 2 = some 0 ∧ 2 ≤ (clusterCores s0 0).length ∧ chainCores s0 0 2 = [0, 1] ∧
    isOkE (checkOne s0 { tenant := 0 } (tChain (ent 0)) 64 64 { rd := true } .plain) = true := by decide +kernel
/-- AgentsPlaceAndRetire: all cores render and nothing demands them, core 1 being idle; all compute and two are demanded. -/
def rendering : State := { s0 with cores := (List.range 256).map (fun c => (c, { part := 0 })) }
def computing : State := { s0 with table := some { entries := [ent 0] } }
theorem witness_balancer_moves : demand rendering = 0 ∧ residents rendering 1 = [] ∧ coreAvail rendering 1 = true ∧ (rendering.core 1).part = 0 ∧
    (rendering.core 1).chains = [] ∧ (rendering.core 1).moving = false ∧ demand computing = 2 ∧ (computing.core 255).part = 1 ∧
    coreAvail computing 255 = true ∧ computing.devCfg.computeMin < 256 := by decide +kernel
/-- PacketSteps: a task that an earlier packet of the ring published holds a BAR; none does; a WAIT that loads. -/
def launched : State :=
  { s0 with tasks := s0.tasks ++ [(5, { task2 0 0 with src := { pkt := 0, index := 0, tag := 0, irq := false, counts := true } })] }
theorem witness_bar_holds : launched.tasks.any (fun p => p.2.ring == 0 && p.2.src.counts && p.2.state == .ready) = true ∧
    s0.tasks.any (fun p => p.2.src.counts) = false ∧ isOkE (ringLoad s0 (rg 0 none) 0x2000) = true ∧ (s0.cp.used < s0.devCfg.slice) := by decide +kernel

/-! ### Single steps, with results from the manual's tables and examples -/

/-- Table 13.6: `inc.wrap` and `add.bound` at their corners, `.n32`. -/
theorem test_atomic_corners : let m := 2 ^ 32 - 1
    [(5, 0), (m - 1, m), (m, m), (7, 5)].map (fun p => (atLanes .incWrap .n32 p.1 [(p.2, 0)]).mem) = [0, m, 0, 0] ∧
    [(0, 0, 0), (5, 0, 0), (m - 1, 1, m), (m, 1, m), (9, 0, 5)].map (fun p => let r := atLanes .addBound .n32 p.1 [(p.2.1, p.2.2)]
      (r.mem, r.olds.map (·.2))) = [(0, [true]), (5, [false]), (m, [true]), (m, [false]), (9, [false])] := by decide +kernel
/-- `red.inc.wrap.n32` of V10 in one lane on memory that holds Max, bound Max: memory becomes 0. -/
theorem test_red_inc_wrap : rdN (after (exec (.redIncWrap (st0 .n32))
    (wrN (sw { wl 0x100 with path := 1, v := [(32 * 9, 0x100), (32 * 10, 0xFFFFFFFF)] }) (.ext 0x100) 4 (2 ^ 32 - 1)))) (.ext 0x100) 4 = 0 := by decide +kernel
/-- Table 19.11: T0 = 0, FINISH_NS = 100,000, GUARD_NS = 5,000, TILES = 10, CEIL = 0; level and streak after each tile. -/
theorem test_shading_levels : [(12000, 1, 0, 0), (21000, 2, 1, 0), (27000, 3, 2, 0), (32000, 4, 2, 0), (37000, 5, 2, 1), (44000, 6, 1, 0)].map
    (fun p => shadeStep p.1 0 p.2.1 10 100000 5000 0 p.2.2.1 p.2.2.2) = [(1, 0), (2, 0), (2, 0), (2, 1), (1, 0), (1, 1)] := by decide
/-- Capabilities of a full part (Table 1.4 to 1.6), and after a core of a quad whose spare is used has been retired. -/
theorem test_capabilities : (capsOf {}).dev = 0x0030808801000600 ∧ (capsOf { coresOut := [83], sparesUsed := [2] }).dev = 0x00308087_00FF_0600 ∧
    (capsOf { coresOut := [83], sparesUsed := [2] }).spare = 0xFB := by decide +kernel
/-- R110: lanes 0 to 3 combine as (x0 + x1) + (x2 + x3): with 2^24, 1, 1, -2^24 that is 1 in FP32, where one lane after another gives 0. -/
theorem test_reduction_order : sreg (after (exec (.redLaneAdd { h := h0, d := 5, a := 9, ty := .f32, rmo := .rne })
    (sw { w0 with path := 0xF, v := [(32 * 9, 0x4B800000), (32 * 9 + 1, 0x3F800000), (32 * 9 + 2, 0x3F800000), (32 * 9 + 3, 0xCB800000)] }))) 5 = 0x3F800000 := by
  decide +kernel
/-- Division by zero gives all ones, the remainder the dividend (Table 11.4). -/
theorem test_div_zero : sreg (after (exec (.scalarDiv { h := h0, d := 5, a := 3, b := .reg 9, ty := .i32 }) s0)) 5 = 2 ^ 64 - 1 ∧
    sreg (after (exec (.scalarRem { h := h0, d := 5, a := 3, b := .reg 9, ty := .i32 }) s0)) 5 = 7 := by decide +kernel
/-- A signed shift right by the width or more leaves the sign alone (Table 11.4). -/
theorem test_shr : sreg (after (exec (.scalarShr { h := h0, d := 5, a := 1, b := .lit 0x21, ty := .i8 })
    (sw { w0 with s := [(1, 0x80)] }))) 5 = 2 ^ 64 - 1 := by decide +kernel
/-- `mad.i32` adds both products: 2 × 3 + (-1) × 5 + 10 = 11. -/
theorem test_mad : vreg (after (exec (.madI32 { h := h0, d := 4, a := 5, bs := false, b := 6, c := 7 })
    (sw { w0 with path := 1, v := [(160, 0xFFFFFFFF_00000002), (192, 0x00000005_00000003), (224, 10)] }))) 4 0 = 11 := by decide +kernel
/-- 1.0 + 1.0 = 2.0 in the lanes of the predicate alone. -/
theorem test_fp_add : let s := after (exec (.fpAdd { h := ⟨3, 0⟩, d := 4, a := 5, b := .lit 0x3F800000, ty := .f32, rmo := .mode })
      (sw { w0 with path := 3, m := [(3, 1)], v := [(160, 0x3F8000003F800000), (161, 0x3F800000)] }))
    vreg s 4 0 = 0x4000000040000000 ∧ vreg s 4 1 = 0 := by decide +kernel
/-- 0x7E00 converted with saturation: FP16 NaN gives 0, infinity the largest `.i16` (Table 7.5). -/
theorem test_cvt : vreg (after (exec (.cvt { h := h0, d := 4, a := 5, src := .f16, dst := .i16, rmo := .mode, sat := true })
    (sw { w0 with path := 1, v := [(160, 0x00003C00_7C007E00)] }))) 4 0 = 0x0000_0001_7FFF_0000 := by decide +kernel
/-- A load reads little-endian and extends the sign; a store of a byte leaves its neighbours. -/
theorem test_ld : vreg (after (exec (.ld (ld0 .i16)) (wrN (sw { wl 0x100 with path := 1 }) (.ext 0x100) 2 0x8001))) 8 0 = 2 ^ 64 - 0x7FFF := by decide +kernel
theorem test_st : rdN (after (exec (.st (st0 .b8)) (wrN (sw { wl 0x101 with path := 1 }) (.ext 0x100) 4 0x44332211))) (.ext 0x100) 4 = 0x44330511 := by decide +kernel
/-- A load of two lanes whose first lies past the mapped pages parks the group: PAGE_NOT_PRESENT (R60, R289). -/
theorem test_ld_fault : ((after (exec (.ld (ld0 .b32)) (sw { wl 0x1000000000 with path := 6, v := [(32 * 9 + 1, 0x1000000000), (32 * 9 + 2, 0x100)] }))).group? 1).map
    (·.place) = some (.faulted .pageNotPresent) := by decide +kernel
/-- Barrier object: the last of two arrivals inverts PHASE and gives the phase before. -/
theorem test_bo_arrive : let s := after (exec (.boArrive { h := h0, d := 5, a := 1, b := 2, off := .none }) (obj 8 (2 * 2 ^ 32 + 1) (ws shb 1)))
    rdN s (.shm 0x2000000) 8 = 2 ^ 63 + 2 * 2 ^ 32 ∧ sreg s 5 = 0 := by decide +kernel
/-- A divergent branch, then the rejoin that runs the other side. -/
theorem test_br_div : let w := wv (after (exec (.brDiv { neg := false, cond := 1, rej := 32, tgt := .short 16, stall := 0 }) (sw (wb []))))
    w.path = 3 ∧ w.pc = 0x10040 ∧ w.tokens = [{ rejoin := 0x10080, entry := 0xF, pend := 0xC, pendPc := 0x10008 }] := by decide +kernel
theorem test_rejoin : let w := wv (after (exec (.rejoin { stall := 0 }) (sw (wb [tok1]))))
    w.path = 0xF0 ∧ w.pc = 0x3000 := by decide +kernel
/-- `xl.bcast.b32` of element 16: lane 1, sub-element 0. -/
theorem test_xl_bcast : vreg (after (exec (.xlBcast { h := h0, z := false, d := 8, a := 9, b := 1, ty := .b32 })
    (sw { w0 with path := 3, v := [(32 * 9, 0x11), (32 * 9 + 1, 0x22)], s := [(1, 16)] }))) 8 0 = 0x00000022_00000022 := by decide +kernel
/-- X is in units of 2^-1074: adding the integer 1 sets bit 1,074, which chunk 16 holds at bit 50 (R104, R177). -/
theorem test_xa : sreg (after (exec (.xaGet { h := h0, d := 5, c := 16 })
    (after (exec (.xaAdd { h := h0, a := 9, ty := .i64 }) (sw { w0 with path := 1, v := [(32 * 9, 1)] }))))) 5 = 2 ^ 50 := by decide +kernel
/-- A lock taken by group 1 names it; the group lists it. -/
theorem test_lock : let s := after (exec (.lockAcq { h := h0, a := 1, scp := .dev, off := .none }) (sw (ws shb 0)))
    rdN s (.shm 0x2000000) 8 = 2 ^ 62 + 1 ∧ groupLocks s 32 = [0xFE000002000000] := by decide +kernel
/-- `mma.i8` completed: 1 × 1 over K = 16 is 16 in every element. -/
theorem test_mma : ((mmaTileOut { fmt := .i8, m := 16, n := 16, k := 16 } 0 { ty := .i32, m := 16, n := 16, e := List.replicate 256 0 } (List.replicate 256 1)
    (List.replicate 256 1)).e.getD 255 0) = 16 := by decide +kernel
/-- A host's tail write beyond the ring's room puts the ring into ERROR (R362). -/
theorem test_queue_overrun : let s : State := { host s0 with rings := [(0, { state := .active, tail := 16 })], input := { who := 0, value := 17 } }
    ((after (exec .ringTailWrite s)).ring 0).state = .error ∧ ((after (exec .ringTailWrite s)).ring 0).tail = 16 := by decide +kernel
/-- A WRITE packet stores its quad words and HEAD passes it. -/
theorem test_packet_write : let s := after (exec .packetWrite (pk (rg 0 none) (packets.getD 3 [])))
    (s.ring 0).head = 1 ∧ (s.ring 0).state = .active := by decide +kernel

end Sys2Proof.Tests
end

section
/-! SUPPORT. The turn's input is not state that the device works on: writing memory, stowing groups as images and sending records leave it as it
was, so a step that decides on it at its end decides on what it was given. -/

namespace Sys2Proof.Laws

open Sys2Proof.Machine

/-! ### Memory, marks and images -/

/-- What each step of a fold leaves of the input, the fold leaves. -/
theorem foldl_input {α : Type} {f : State → α → State} (h : ∀ s x, (f s x).input = s.input) (xs : List α) (s : State) :
    (xs.foldl f s).input = s.input := by
  induction xs generalizing s with
  | nil => rfl
  | cons x xs ih => exact (ih _).trans (h s x)

@[simp] theorem wrByte_input (s : State) (l : Loc) (b : Byte) : (wrByte s l b).input = s.input := by cases l <;> rfl

@[simp] theorem wrBytes_input (s : State) (l : Loc) (bs : List Byte) : (wrBytes s l bs).input = s.input := by
  induction bs generalizing s l with
  | nil => rfl
  | cons b r ih => exact (ih _ _).trans (wrByte_input s l b)

@[simp] theorem clearPoison_input (s : State) (l : Loc) (n : Nat) : (clearPoison s l n).input = s.input := by rw [clearPoison_rest]

@[simp] theorem wrN_input (s : State) (l : Loc) (n v : Nat) : (wrN s l n v).input = s.input := by simp [wrN]

@[simp] theorem orEntry_input (s : State) (a bits : Nat) : (orEntry s a bits).input = s.input := by
  simp only [orEntry]
  split
  · rfl
  · exact wrN_input _ _ _ _

@[simp] theorem touchOwn_input (s : State) (tenant va : Nat) (write : Bool) : (touchOwn s tenant va write).input = s.input := by
  have marked (path : List Nat) : (path.foldl (fun s a => orEntry s a 0x20) s).input = s.input :=
    foldl_input (fun t a => orEntry_input t a 0x20) path s
  unfold touchOwn
  split
  · cases walkUsed s tenant va with
    | leaf lv e path =>
      dsimp only
      split
      · split <;> simp [marked]
      · split <;> simp [marked]
    | _ => rfl
  · rfl

@[simp] theorem touch_input (s : State) (tenant va : Nat) (write : Bool) : (touch s tenant va write).input = s.input := by
  unfold touch
  split <;> exact touchOwn_input _ _ _ _

@[simp] theorem clearBytes_input (s : State) (l : Loc) (n : Nat) : (clearBytes s l n).input = s.input := by cases l <;> rfl

@[simp] theorem pokeVa_input (s : State) (who : Who) (va : Nat) (bs : List Byte) : (pokeVa s who va bs).input = s.input := by
  refine foldl_input (fun t p => ?_) _ s
  split
  · simp
  · rfl

@[simp] theorem wrFields_input (s : State) (tenant va len : Nat) (fs : List ImgField) : (wrFields s tenant va len fs).input = s.input := by
  refine (foldl_input (fun t f => ?_) fs _).trans (foldl_input (fun t p => ?_) _ s)
  · split
    · rfl
    · exact pokeVa_input _ _ _ _
  · split
    · simp
    · rfl

@[simp] theorem writeImage_input (s : State) (gid kind : Nat) (ws : List Wave) (cause : Option Nat) :
    (writeImage s gid kind ws cause).input = s.input := by
  unfold writeImage
  split
  · rfl
  · split
    · rfl
    · exact wrFields_input _ _ _ _ _

/-! ### Groups leave a core -/

@[simp] theorem stowGroup_input (s : State) (g : Nat) (p : Place) : (stowGroup s g p).input = s.input := by
  unfold stowGroup
  split
  · rfl
  · rename_i x _
    cases x.core? <;> simp

@[simp] theorem stowContinuationsAs_input (p : Place) (s : State) (g : Nat) : (stowContinuationsAs p s g).input = s.input :=
  foldl_input (f := fun t (q : Nat × Group) => stowGroup t q.1 p) (fun t q => stowGroup_input t q.1 p) _ s

@[simp] theorem captureCore_input (s : State) (c : Nat) : (captureCore s c).input = s.input :=
  foldl_input (fun t g => by simp) _ s

@[simp] theorem retireCore_input (s : State) (c : Nat) : (retireCore s c).1.input = s.input := by
  simp only [retireCore]
  split <;> rfl

@[simp] theorem writeConfig_input (s : State) : (writeConfig s).input = s.input := by
  simp only [writeConfig]
  split <;> rfl

/-! ### Streams -/

@[simp] theorem sendVec_input (s : State) (func vec : Nat) : (sendVec s func vec).input = s.input := by
  unfold sendVec
  split <;> rfl

@[simp] theorem streamPut_input (s : State) (func n : Nat) (st : Stream) (e : BitVec 512) (irq : Bool) :
    (streamPut s func n st e irq).input = s.input := by
  simp only [streamPut]
  split <;> simp

@[simp] theorem streamEntry_input (s : State) (func n : Nat) (e : BitVec 512) (irq : Bool) : (streamEntry s func n e irq).input = s.input := by
  unfold streamEntry
  split
  · rfl
  · split
    · rfl
    · split
      · rfl
      · exact streamPut_input _ _ _ _ _ _

@[simp] theorem hostRecord_input (s : State) (r : Record) : (hostRecord s r).input = s.input := streamEntry_input _ _ _ _ _

end Sys2Proof.Laws
end

section
/-! PROOF. Heartbeats, the recovery of a core, and the measure of a tenant's use (R295, R296, R13, R17, R321). -/

namespace Sys2Proof.Laws

open Sys2Proof.Machine

theorem exec_heartbeat (s : State) : exec .heartbeat s = .next (s.modCore (s.input.who % 256) (fun k => { k with beatAt := s.ns })) := rfl
theorem exec_tenantUseWindow (s : State) : exec .tenantUseWindow s =
    .next { s with
      uses := kset (s.input.who % 64) { units := 0, bw := s.input.value.toNat % 2 ^ 16, pwr := s.input.frac.toNat % 2 ^ 16 } s.uses } := rfl

/-- Reading any core after one has been changed. -/
theorem core_modCore (s : State) (c d : Nat) (f : Core → Core) : (s.modCore c f).core d = if d = c then f (s.core d) else s.core d := by
  split
  · subst d; simp
  · simp [*]

/-! ### What a lost core leaves -/

/-- The groups whose capture the loss of a core asks for: its residents, each with its crew (R295). -/
def lostGroups (s : State) (c : Nat) : List Nat := ((residents s c).flatMap (fun p => parkSet s p.1)).eraseDups

/-- A core captured and then retired, and whether a spare serves in its place (R295, R13). -/
def capturedRetired (s : State) (c : Nat) : State × Bool := retireCore (captureCore s c) c

/-- A lost core captured, retired, and reported: capabilities, configuration record, then the host's record (R17, R388). -/
def lossReported (s : State) (c : Nat) : State :=
  let r := capturedRetired s c
  hostRecord (writeConfig (State.modCore { r.1 with caps := capsOf r.1 } c (fun k => { k with claims := [], recCache := [], roCache := [] })))
    { cause := .heartbeatLost, core := c, info0 := w64 c, info1 := if r.2 then w64 (c / 32) else 0xFF }

/-- Whether the capture itself failed is asked after the loss has been reported, and is still what the input said. -/
theorem lossReported_input (s : State) (c : Nat) : (lossReported s c).input = s.input := by
  simp [lossReported, capturedRetired]

/-- RECOVERY_FAILED for a group of a lost core, to the error stream of its task's queue (R399, Table 17.8). -/
def reportUnrecovered (c : Nat) (s : State) (g : Nat) : State :=
  match s.group? g with
  | some x => errorRecord s (x.ring.getD 0)
      { cause := .recoveryFailed, core := x.lastCore, tenant := x.tenant, seq := x.seq, gid := g, crew := decide (1 < x.crew), info0 := w64 c }
  | none => s

/-- A captured group returns to the number of its core, which a spare now serves, if it may (R295, R321). -/
def bringBack (c : Nat) (s : State) (g : Nat) : State :=
  match s.group? g with
  | some x => if x.lastCore = c && x.crew ≤ 1 && comesBack s c x then restoreGroup s g c else s
  | none => s

/-- A core whose beats are not due, that is out, or that does not run yet, is not lost. -/
theorem heartbeatLost_idle {s : State} {c : Nat} (hc : s.input.who % 256 = c)
    (h : s.boot.state ≠ .ready ∨ coreAvail s c = false ∨ s.ns < (s.core c).beatAt + 200000) : exec .heartbeatLost s = .next s := by
  subst hc
  exact if_pos h

/-- The loss of a core: reported, then by the input's flag and by the spare its tasks are killed, its groups come back, or its images wait. -/
theorem heartbeatLost_due {s : State} {c : Nat} (hc : s.input.who % 256 = c) (hb : s.boot.state = .ready) (ha : coreAvail s c = true)
    (hn : (s.core c).beatAt + 200000 ≤ s.ns) : exec .heartbeatLost s =
      if s.input.flag then
        .next (killTasks ((lostGroups s c).foldl (reportUnrecovered c) (lossReported s c))
          ((lostGroups s c).filterMap (fun g => (s.group? g).map (·.seq))).eraseDups 2)
      else if (capturedRetired s c).2 then
        .next (settleGroups ((lostGroups s c).foldl (bringBack c) (lossReported s c)) (lostGroups s c))
      else .next (lossReported s c) := by
  rw [← congrArg Input.flag (lossReported_input s c)]
  subst hc
  refine if_neg ?_
  rintro (h | h | h)
  · exact h hb
  · exact Bool.false_ne_true (h.symm.trans ha)
  · exact absurd hn (Nat.not_le.2 h)

theorem retireCore_of_spare_used {s : State} {c : Nat} (h : s.sparesUsed.contains (c / 32) = true) :
    retireCore s c = ({ s with coresOut := s.coresOut ++ [c] }, false) := if_pos h
theorem retireCore_of_spare_free {s : State} {c : Nat} (h : s.sparesUsed.contains (c / 32) = false) :
    retireCore s c = ({ s with sparesUsed := s.sparesUsed ++ [c / 32], coresMoved := s.coresMoved ++ [c] }, true) :=
  if_neg (ne_true_of_eq_false h)

/-- Settles O48. The step that recovers a core reads its flag only after the capture and the record, which leave the input as it was
(`lossReported_input`). -/
theorem heartbeatAndUse : Obligations.HeartbeatAndUse := by
  unfold Obligations.HeartbeatAndUse
  refine ⟨fun s => ?beat, fun s c hc h => heartbeatLost_idle hc h, fun s c hc hb ha hn => ?lost,
    fun s c => ⟨retireCore_of_spare_used, retireCore_of_spare_free⟩, fun s => ?use⟩
  case beat => exact ⟨_, exec_heartbeat s, rfl, fun c => core_modCore s _ c _⟩
  case lost =>
    have hrun := heartbeatLost_due hc hb ha hn
    refine ⟨fun hf => ?_, fun hf hr => ?_, fun hf hr => ?_⟩
    · exact hrun.trans (if_pos hf)
    · exact (hrun.trans (if_neg (ne_true_of_eq_false hf))).trans (if_neg (ne_true_of_eq_false hr))
    · exact (hrun.trans (if_neg (ne_true_of_eq_false hf))).trans (if_pos hr)
  case use => exact ⟨_, exec_tenantUseWindow s, rfl, fun n => kfind_kset n _ _ s.uses⟩

end Sys2Proof.Laws
end

section
/-! SUPPORT. What writing memory, walking tables and sending records leave of the machine: every wave, core, task and queue as it was, so that
the operations built from them are followed through these parts without being unfolded. -/

namespace Sys2Proof.Laws

open Sys2Proof.Machine

/-- Of the machine only memory, its errors, remembered translations, and the streams and interrupts to the host may differ. -/
structure MemIO (s t : State) : Prop where
  rest : t = { s with ext := t.ext, shm := t.shm, host := t.host, peer := t.peer, poison := t.poison, tlb := t.tlb, groups := t.groups,
                      streams := t.streams, outward := t.outward, vecPending := t.vecPending }

section Parts

variable {s t u : State}

theorem MemIO.refl (s : State) : MemIO s s := ⟨rfl⟩
theorem MemIO.trans (h : MemIO s t) (h2 : MemIO t u) : MemIO s u := ⟨by rw [h2.rest, h.rest]⟩

theorem MemIO.foldl {α : Type} {f : State → α → State} (h : ∀ s x, MemIO s (f s x)) (xs : List α) (s : State) : MemIO s (xs.foldl f s) := by
  induction xs generalizing s with
  | nil => exact .refl s
  | cons x xs ih => exact (h s x).trans (ih _)

theorem MemIO.cur (h : MemIO s t) : t.cur = s.cur := (congrArg State.cur h.rest :)
theorem MemIO.waves (h : MemIO s t) : t.waves = s.waves := (congrArg State.waves h.rest :)
theorem MemIO.tasks (h : MemIO s t) : t.tasks = s.tasks := (congrArg State.tasks h.rest :)
theorem MemIO.rings (h : MemIO s t) : t.rings = s.rings := (congrArg State.rings h.rest :)
theorem MemIO.nextSeq (h : MemIO s t) : t.nextSeq = s.nextSeq := (congrArg State.nextSeq h.rest :)
theorem MemIO.wave? (h : MemIO s t) (k : Nat) : t.wave? k = s.wave? k := congrArg (kfind k) h.waves
theorem MemIO.task? (h : MemIO s t) (q : Nat) : t.task? q = s.task? q := congrArg (kfind q) h.tasks
theorem MemIO.ring (h : MemIO s t) (q : Nat) : t.ring q = s.ring q := congrArg (kget ({} : Ring) q) h.rings

end Parts

/-! ### Memory and tables -/

theorem memIO_wrByte (s : State) (l : Loc) (b : Byte) : MemIO s (wrByte s l b) := by cases l <;> exact ⟨rfl⟩

theorem memIO_wrBytes (s : State) (l : Loc) (bs : List Byte) : MemIO s (wrBytes s l bs) := by
  induction bs generalizing s l with
  | nil => exact .refl s
  | cons b r ih => exact (memIO_wrByte s l b).trans (ih _ _)

theorem memIO_clearPoison (s : State) (l : Loc) (n : Nat) : MemIO s (clearPoison s l n) := ⟨by rw [clearPoison_rest]⟩

theorem memIO_wrN (s : State) (l : Loc) (n v : Nat) : MemIO s (wrN s l n v) := (memIO_wrBytes s l _).trans (memIO_clearPoison _ l n)

theorem memIO_orEntry (s : State) (a bits : Nat) : MemIO s (orEntry s a bits) := by
  simp only [orEntry]
  split
  · exact .refl s
  · exact memIO_wrN s _ _ _

theorem memIO_remember (s : State) (e : TlbEntry) : MemIO s { s with tlb := e :: s.tlb } := ⟨rfl⟩

theorem memIO_touchOwn (s : State) (tenant va : Nat) (write : Bool) : MemIO s (touchOwn s tenant va write) := by
  have passed (path : List Nat) : MemIO s (path.foldl (fun s a => orEntry s a 0x20) s) := .foldl (fun t a => memIO_orEntry t a 0x20) path s
  unfold touchOwn
  split
  · cases walkUsed s tenant va with
    | fail lv fmt => exact .refl s
    | ecc => exact .refl s
    | leaf lv e path =>
      have marked : MemIO s (match write, path.getLast? with
          | true, some a => orEntry (path.foldl (fun s a => orEntry s a 0x20) s) a 0x40
          | _, _ => path.foldl (fun s a => orEntry s a 0x20) s) := by
        split
        · exact (passed path).trans (memIO_orEntry _ _ _)
        · exact passed path
      dsimp only
      split
      · exact marked
      · exact marked.trans (memIO_remember _ _)
  · exact .refl s

theorem memIO_touch (s : State) (tenant va : Nat) (write : Bool) : MemIO s (touch s tenant va write) := by
  unfold touch
  split <;> exact memIO_touchOwn _ _ _ _

theorem memIO_touchRange (s : State) (tenant va bytes : Nat) (write : Bool) : MemIO s (touchRange s tenant va bytes write) := by
  unfold touchRange
  split
  · exact .refl s
  · exact .foldl (fun t k => memIO_touch t tenant _ write) _ s

theorem memIO_pokeVa (s : State) (who : Who) (va : Nat) (bs : List Byte) : MemIO s (pokeVa s who va bs) := by
  refine .foldl (fun t p => ?_) _ s
  split
  · exact (memIO_wrBytes t _ _).trans (memIO_clearPoison _ _ _)
  · exact .refl t

theorem memIO_wrVa (s : State) (who : Who) (va : Nat) (bs : List Byte) : MemIO s (wrVa s who va bs) :=
  (memIO_pokeVa s who va bs).trans (memIO_touchRange _ _ _ _ _)

theorem memIO_setWord32 (s : State) (who : Who) (va v : Nat) : MemIO s (setWord32 s who va v) := memIO_wrVa _ _ _ _

theorem memIO_clearBytes (s : State) (l : Loc) (n : Nat) : MemIO s (clearBytes s l n) := by cases l <;> exact ⟨rfl⟩

theorem memIO_wrFields (s : State) (tenant va len : Nat) (fs : List ImgField) : MemIO s (wrFields s tenant va len fs) := by
  refine (MemIO.foldl (fun t p => ?_) (pagesOf va len) s).trans (.foldl (fun t f => ?_) fs _)
  · split
    · exact (memIO_touch t _ _ _).trans (memIO_clearBytes _ _ _)
    · exact .refl t
  · split
    · exact .refl t
    · exact memIO_pokeVa t _ _ _

theorem memIO_writeImage (s : State) (gid kind : Nat) (ws : List Wave) (cause : Option Nat) : MemIO s (writeImage s gid kind ws cause) := by
  unfold writeImage
  split
  · exact .refl s
  · split
    · exact .refl s
    · exact memIO_wrFields _ _ _ _ _

/-! ### Records and families -/

theorem memIO_sendVec (s : State) (func vec : Nat) : MemIO s (sendVec s func vec) := by
  unfold sendVec
  split <;> exact ⟨rfl⟩

theorem memIO_streamPut (s : State) (func n : Nat) (st : Stream) (e : BitVec 512) (irq : Bool) : MemIO s (streamPut s func n st e irq) := by
  have put (t : State) (x : Stream) : MemIO t { t with streams := kset (streamKey func n) x t.streams } := ⟨rfl⟩
  have written := (memIO_wrN s (.host (st.base.toNat + 64 * (st.pi.toNat % 2 ^ st.log2n))) 64 e.toNat).trans
    (memIO_wrN _ (.host st.piaddr.toNat) 8 (st.pi + 1).toNat)
  simp only [streamPut]
  split
  · exact (written.trans (put _ _)).trans (memIO_sendVec _ _ _)
  · exact written.trans (put _ _)

theorem memIO_streamEntry (s : State) (func n : Nat) (e : BitVec 512) (irq : Bool) : MemIO s (streamEntry s func n e irq) := by
  unfold streamEntry
  split
  · exact .refl s
  · split
    · exact .refl s
    · split
      · exact ⟨rfl⟩
      · exact memIO_streamPut _ _ _ _ _ _

theorem memIO_errorRecord (s : State) (ring : Nat) (r : Record) : MemIO s (errorRecord s ring r) := memIO_streamEntry _ _ _ _ _

theorem memIO_taskRecord (s : State) (t : Task) (status : Nat) : MemIO s (taskRecord s t status) := memIO_streamEntry _ _ _ _ _

theorem memIO_familyUpdate (s : State) (ring tenant addr : Nat) (f : Nat → Nat) (r : Record) :
    MemIO s (familyUpdate s ring tenant addr f r).1 := by
  unfold familyUpdate
  split
  · exact (memIO_touch s _ _ _).trans (memIO_wrN _ _ _ _)
  · exact memIO_errorRecord s _ _

end Sys2Proof.Laws
end

section
/-! PROOF. How each wait of a wave ends (R34, R50, R118, R152, R185, R303, R322, R338). -/

namespace Sys2Proof.Laws

open Sys2Proof.Machine

/-- A wave whose wait has ended: its instruction issues again. -/
def awake (w : Wave) : Wave := { w with wait := .none, waitArg := 0 }

theorem sameRegs_of {ds : List RegRef} {w x : Wave} (hv : x.v = w.v) (hs : x.s = w.s) (hm : x.m = w.m) : SameRegs ds w x :=
  ⟨fun r l _ _ => by rw [rdV, hv, rdV], fun r _ => by rw [rdS, hs, rdS], fun r _ => by rw [rdM, hm, rdM]⟩

/-! ### Waves changed all over the machine -/

/-- Reading a map in which the values that meet a condition have been changed. -/
theorem kfind_map_if {α : Type} (c : Nat × α → Prop) [DecidablePred c] (g : α → α) (k : Nat) (m : List (Nat × α)) :
    kfind k (m.map (fun p => if c p then (p.1, g p.2) else p)) = (kfind k m).map (fun v => if c (k, v) then g v else v) := by
  induction m with
  | nil => rfl
  | cons p r ih =>
    obtain ⟨a, v⟩ := p
    by_cases h : a = k
    · subst h
      by_cases hc : c (a, v) <;> simp [kfind, hc]
    · by_cases hc : c (a, v) <;> simp [kfind, hc, h, ih]

/-- The waves of a core that wait for one of its engines issue again; every other wave stands. -/
theorem wave?_wakeEngine {s : State} {j : Nat} {w : Wave} (c : Nat) (h : s.wave? j = some w) : (wakeEngine s c).wave? j =
    some (if w.wait.engine = true ∧ (s.group? (gidOf j)).bind (·.core?) = some c then awake w else w) := by
  refine (kfind_map_if _ awake j s.waves).trans ?_
  rw [show kfind j s.waves = some w from h]
  cases hg : s.group? (gidOf j) <;> simp [hg]

theorem wave?_wakeAll {s : State} {j : Nat} {w : Wave} (x : Wait) (h : s.wave? j = some w) :
    (wakeAll s x).wave? j = some (if w.wait = x then awake w else w) := by
  refine (kfind_map_if _ awake j s.waves).trans ?_
  rw [show kfind j s.waves = some w from h, Option.map_some]

theorem engine_iff (x : Wait) : x.engine = true ↔ x = .copySlot ∨ x = .matrixSlot ∨ x = .handle ∨ x = .accSpace := by
  cases x <;> simp [Wait.engine]

/-! ### Events that name a wave -/

/-- An event whose wave is on its core happens where its condition holds, and leaves the state as it is where not. -/
theorem onWaiter_named {s : State} {k : Nat} {w : Wave} (h : Named s k w) (ok : Wave → Bool) (f : Wave → State) :
    onWaiter s ok f = .next (if ok w = true then f w else s) := by
  obtain ⟨rfl, hw, hon⟩ := h
  simp only [onWaiter, hw, hon, Bool.true_and]
  split <;> rfl

section Events

variable {s : State} {k : Nat} {w : Wave}

theorem sleepUntilWake_named (h : Named s k w) (hw : w.wait = .sleep) :
    exec .sleepUntilWake s = .next (if w.waitArg.toNat ≤ s.ns then clearWait s k else s) := by
  refine (onWaiter_named h _ _).trans ?_
  simp [hw, h.who]

theorem waiterRetest_named (h : Named s k w) (hw : w.wait.helps = true) : exec .waiterRetest s =
    .next (if w.helping = 0 ∨ w.grant = true then (clearWait s k).modWave k (fun w => { w with retest := true }) else s) := by
  refine (onWaiter_named h _ _).trans ?_
  simp [hw, h.who]

theorem launchTableWaitEnd_named (h : Named s k w) (hw : w.wait = .launchTable) :
    exec .launchTableWaitEnd s = .next (if launchFull s then s else clearWait s k) := by
  refine (onWaiter_named h _ _).trans ?_
  cases hl : launchFull s <;> simp [hw, h.who]

theorem spawnSegmentWaitEnd_named (h : Named s k w) (hw : w.wait = .segment) : exec .spawnSegmentWaitEnd s =
    .next (if segGranted s (coreOf s k) (((s.group? (gidOf k)).map (·.seq)).getD 0) w.waitArg then clearWait s k else s) := by
  refine (onWaiter_named h _ _).trans ?_
  simp [hw, h.who]

theorem ringAcqWake_named (h : Named s k w) (hw : w.wait = .ringAcq) : exec .ringAcqWake s = .next (clearWait s k) := by
  refine (onWaiter_named h _ _).trans ?_
  simp [hw, h.who]

theorem scoreboardResult_named (h : Named s k w) :
    exec .scoreboardResult s = .next (s.setWave k { w with pend := w.pend.eraseIdx s.input.idx }) := by
  refine (onWaiter_named h _ _).trans ?_
  simp [h.who]

end Events

/-! ### The join count -/

theorem top?_append {w : Wave} {rest : List Token} {tok : Token} (h : w.tokens = rest ++ [tok]) : w.top? = some tok := by
  simp [Wave.top?, h]

@[simp] theorem wave?_gcJoins (s : State) (popped : Option Nat) (k : Nat) : (gcJoins s popped).wave? k = s.wave? k := rfl

/-- A wave whose top token is popped: the lanes of the entry mask that have not exited are after its `rejoin`. -/
def poppedTo (w : Wave) (tok : Token) : Wave := { w.pop with path := tok.entry &&& ~~~ w.exited, pc := tok.rejoin + 8 }

theorem popToken_top {s : State} {k : Nat} {w : Wave} {tok : Token} (hw : s.wave? k = some w) (ht : w.top? = some tok) :
    popToken s k = gcJoins (s.setWave k (poppedTo w tok)) tok.join := by
  simp only [popToken, hw, ht, poppedTo]

/-- Lanes on the path go on: there is nothing for R159 to do. -/
theorem exitLoop_onPath {s : State} {k : Nat} {w : Wave} (hw : s.wave? k = some w) (hp : w.path ≠ 0) (n : Nat) : exitLoop n s k = s := by
  cases n with
  | zero => rfl
  | succ n =>
    simp only [exitLoop, hw]
    exact if_pos hp

/-- A wave whose wait has not changed leaves its group where it is. -/
theorem parkJoined_sameWait {s t : State} {k : Nat} {v w : Wave} (hv : s.wave? k = some v) (hw : t.wave? k = some w)
    (h : w.wait = v.wait) : parkJoined s k t = t := by
  simp [parkJoined, hv, hw, h]

/-- The issue of a `rejoin` or an `exit` whose wait has ended: an `exit` starts its count of issues anew, a `rejoin` is booked with the stall
count that its wait kept (R125, R159). -/
def joined (s : State) (k : Nat) (w : Wave) (t : State) : State :=
  if w.waitArg = 1 then t.modWave k (fun x => { x with age := 0 })
  else book { len := 8, stall := w.waitArg.toNat / 2, opnds := [], lat := some 0 } k (coreOf s k) w false t

theorem joined_same {s t : State} {k : Nat} {w x : Wave} (h : t.wave? k = some x) : ∃ y, (joined s k w t).wave? k = some y ∧
    y = { wavePart x y with pc := x.pc, v := x.v, s := x.s, m := x.m } ∧
    y.stallUntil = if w.waitArg = 1 then x.stallUntil else t.cycle + 1 + w.waitArg.toNat / 2 := by
  unfold joined
  split
  · exact ⟨{ x with age := 0 }, by simp [h], rfl, rfl⟩
  · exact ⟨bookWave { len := 8, stall := w.waitArg.toNat / 2, opnds := [], lat := some 0 } t.cycle w false x, by simp [book, h], rfl, rfl⟩

theorem joined_others (s t : State) (w : Wave) {j k : Nat} (h : j ≠ k) : (joined s k w t).wave? j = t.wave? j := by
  unfold joined
  split
  · simp [h]
  · simp [book, h]

section JoinCount

variable {s : State} {k : Nat} {w : Wave} {rest : List Token} {tok : Token}

/-- The join count is 0: the wave pops its token and goes on. -/
theorem joinCountZero_zero (h : Named s k w) (hw : w.wait = .joinCount) (ht : w.top? = some tok) (hc : joinCount s tok.join = 0)
    (hl : tok.entry &&& ~~~ w.exited ≠ 0) :
    exec .joinCountZero s = .next (joined s k w (gcJoins ((clearWait s k).setWave k (poppedTo (awake w) tok)) tok.join)) := by
  have hclear : (clearWait s k).wave? k = some (awake w) := by simp [clearWait, h.wave, awake]
  have hpop : (gcJoins ((clearWait s k).setWave k (poppedTo (awake w) tok)) tok.join).wave? k = some (poppedTo (awake w) tok) := by simp
  obtain ⟨y, hy, hpart, -⟩ := joined_same (s := s) (w := w) hpop
  have hwait : y.wait = (poppedTo (awake w) tok).wait := (congrArg Wave.wait hpart :)
  refine (onWaiter_named h _ _).trans ?_
  simp only [h.who, hw, ht, Option.bind_some, hc, beq_self_eq_true, decide_true, Bool.and_self, if_true, popToken_top hclear ht,
    exitLoop_onPath hpop hl]
  exact congrArg _ (parkJoined_sameWait hpop hy hwait)

theorem joinCountZero_waits (h : Named s k w) (ht : w.top? = some tok) (hc : joinCount s tok.join ≠ 0) : exec .joinCountZero s = .next s := by
  refine (onWaiter_named h _ _).trans ?_
  simp [ht, hc]

end JoinCount

/-! ### Completions -/

/-- A token's completion ends its wave's wait for a token (R86, R213). -/
theorem wave?_complete_token {s : State} {k : Nat} {w : Wave} (r n : Nat) (h : s.wave? k = some w) :
    ∃ w', (complete s (.token k r) n).wave? k = some w' ∧ w'.tokenPend = w.tokenPend.erase r ∧
      w'.wait = if w.wait = .token then .none else w.wait := by
  simp [complete, h]

/-- With every bound group told, the unit is set free and the waits for a unit and for a bin set's readers end, memory and outputs aside. -/
theorem unitSettle_eq {s : State} {cl : Nat} (hb : (s.raster cl).busy = true) (hs : (s.raster cl).started = true)
    (ht : ∀ g ∈ (s.raster cl).groups, ∀ rb, (s.group? g).bind (·.raster) = some rb → rb.told = true) :
    ∃ t : State, t.waves = s.waves ∧ unitSettle s cl = wakeAll (wakeAll (t.modRaster cl (fun r =>
      { r with busy := false, started := false, groups := [], tiles := [] })) .rasterUnit) .binReaders := by
  have hcount := memIO_setWord32 s { tenant := (s.raster cl).tenant } ((s.raster cl).binset.toNat + 36)
    ((word32 s { tenant := (s.raster cl).tenant } ((s.raster cl).binset.toNat + 36) + 2 ^ 32 - 1) % 2 ^ 32)
  simp only [unitSettle, hb, hs, Bool.true_and]
  rw [if_pos]
  · refine ⟨_, ?_, rfl⟩
    split
    · exact hcount.waves
    · exact hcount.waves
  · refine List.isEmpty_iff.2 (List.filter_eq_nil_iff.2 fun g hg => ?_)
    cases hr : (s.group? g).bind (·.raster) with
    | none => exact Bool.false_ne_true
    | some rb => simp [ht g hg rb hr]

/-- A unit whose bound groups have all been told is free, and the waves that waited for it or for its bin set issue again (R329, R330, R335). -/
theorem unitSettle_told {s : State} {cl : Nat} (hb : (s.raster cl).busy = true) (hs : (s.raster cl).started = true)
    (ht : ∀ g ∈ (s.raster cl).groups, ∀ rb, (s.group? g).bind (·.raster) = some rb → rb.told = true) :
    ((unitSettle s cl).raster cl).busy = false ∧ ∀ j w, s.wave? j = some w →
      (unitSettle s cl).wave? j = some (if w.wait = .rasterUnit ∨ w.wait = .binReaders then awake w else w) := by
  obtain ⟨t, hwaves, he⟩ := unitSettle_eq hb hs ht
  rw [he]
  refine ⟨?_, fun j w hw => ?_⟩
  · simp [State.raster, wakeAll, State.modRaster]
  · refine (wave?_wakeAll _ (wave?_wakeAll _ ((congrArg (kfind j) hwaves).trans hw))).trans ?_
    by_cases h1 : w.wait = .rasterUnit
    · simp [h1, awake]
    · simp [h1]

/-- Settles O42: one lemma per end of a wait; the ends that a unit or an engine brings hold of every wave at once. -/
theorem waitsEnd : Obligations.WaitsEnd := by
  unfold Obligations.WaitsEnd
  refine ⟨fun s k w h => ⟨sleepUntilWake_named h, waiterRetest_named h, launchTableWaitEnd_named h, spawnSegmentWaitEnd_named h,
    ringAcqWake_named h, ?result, fun tok rest hw ht hc hl => ?zero, fun tok rest _ ht => joinCountZero_waits h (top?_append ht)⟩,
    engine_iff, fun s c j w => wave?_wakeEngine c, fun s k r n w => wave?_complete_token r n, fun s cl => unitSettle_told, ?illegal⟩
  case result =>
    exact ⟨_, _, scoreboardResult_named h, wave?_setWave_same _ _ _, rfl, fun j hj => wave?_setWave_ne _ hj _, rfl⟩
  case zero =>
    have hpop : (gcJoins ((clearWait s k).setWave k (poppedTo (awake w) tok)) tok.join).wave? k = some (poppedTo (awake w) tok) := by simp
    obtain ⟨y, hy, hpart, hstall⟩ := joined_same (s := s) (w := w) hpop
    have htokens : (poppedTo (awake w) tok).tokens = rest := by simp [poppedTo, awake, Wave.pop, ht]
    have hothers (j : Nat) (hj : j ≠ k) :
        (gcJoins ((clearWait s k).setWave k (poppedTo (awake w) tok)) tok.join).wave? j = s.wave? j := by simp [clearWait, hj]
    refine ⟨_, y, joinCountZero_zero h hw (top?_append ht) hc hl, hy, ?_, ?_, ?_, ?_, ?_, ?_,
      fun j hj => (joined_others _ _ _ hj).trans (hothers j hj), hstall⟩
    all_goals rw [hpart]
    · rfl
    · rfl
    · rfl
    · exact htokens
    · rfl
    · exact sameRegs_of rfl rfl rfl
  case illegal =>
    intro s k w hc hw
    show execIllegalOpcode s = _
    simp only [execIllegalOpcode, hc, hw]

end Sys2Proof.Laws
end
section
/-! SUPPORT. Hidden join objects and the ejection of lanes (R32, R33, R35, R36): the object of a top token, what counting, forwarding and
collecting leave of an object, and the continuation threads that an ejection makes. -/

namespace Sys2Proof.Laws

open Sys2Proof.Machine

/-! ### Maps -/

theorem kfind_kmod {α : Type} (j k : Nat) (f : α → α) (m : List (Nat × α)) :
    kfind j (kmod k f m) = if j = k then (kfind k m).map f else kfind j m := by
  cases hk : kfind k m with
  | none => by_cases h : j = k <;> simp [kmod, hk, h]
  | some v => simp [kmod, hk, kfind_kset]

theorem mem_of_kfind {α : Type} {k : Nat} {v : α} {m : List (Nat × α)} (h : kfind k m = some v) : (k, v) ∈ m := by
  induction m with
  | nil => simp at h
  | cons p r ih =>
    obtain ⟨a, b⟩ := p
    by_cases ha : a = k
    · subst ha
      obtain rfl : b = v := by simpa [kfind] using h
      exact List.mem_cons_self
    · exact List.mem_cons_of_mem _ (ih (by simpa [kfind, ha] using h))

/-- An entry that is kept is still read. -/
theorem kfind_filter_of {α : Type} {k : Nat} {v : α} {m : List (Nat × α)} (h : kfind k m = some v) (c : Nat × α → Bool) (hc : c (k, v) = true) :
    kfind k (m.filter c) = some v := by
  induction m with
  | nil => simp at h
  | cons p r ih =>
    obtain ⟨a, b⟩ := p
    by_cases ha : a = k
    · subst ha
      obtain rfl : b = v := by simpa [kfind] using h
      simp [hc, kfind]
    · have hr : kfind k r = some v := by simpa [kfind, ha] using h
      by_cases hp : c (a, b) = true <;> simp [hp, kfind, ha, ih hr]

/-! ### Join objects -/

theorem joinCount_some (s : State) (j : Nat) : joinCount s (some j) = (joinObj s j).count := rfl

theorem joinObj_of_kfind {s t : State} {j : Nat} (h : kfind j t.joins = kfind j s.joins) : joinObj t j = joinObj s j := by
  simp [joinObj, kget, h]

theorem joinObj_addJoin_same {s : State} {j : Nat} (n : Nat) (h : (kfind j s.joins).isSome = true) :
    joinObj (addJoin s j n) j = { joinObj s j with count := (joinObj s j).count + n } := by
  obtain ⟨o, ho⟩ := Option.isSome_iff_exists.1 h
  simp [joinObj, addJoin, kget, kfind_kmod, ho]

theorem kfind_addJoin_ne (s : State) {i j : Nat} (n : Nat) (h : i ≠ j) : kfind i (addJoin s j n).joins = kfind i s.joins := by
  simp [addJoin, kfind_kmod, h]

theorem isSome_addJoin (s : State) (i j n : Nat) : (kfind i (addJoin s j n).joins).isSome = (kfind i s.joins).isSome := by
  by_cases h : i = j <;> simp [addJoin, kfind_kmod, h]

/-- An object that others are forwarded to takes over the count of a forwarded one, and collecting unreferenced objects leaves it (R36). -/
theorem joinObj_forwarded {s : State} {j q : Nat} (hne : q ≠ j) (hq : (kfind q s.joins).isSome = true) :
    joinObj (gcJoins (forwardJoin s j q) none) q = { joinObj s q with count := (joinObj s q).count + (joinObj s j).count } := by
  obtain ⟨o, ho⟩ := Option.isSome_iff_exists.1 hq
  have hfwd : kfind q (forwardJoin s j q).joins = some { o with count := o.count + (joinObj s j).count } := by
    simp [forwardJoin, addJoin, kfind_kmod, hne, ho]
  have hj : kfind j (forwardJoin s j q).joins = some { joinObj s j with count := 0, forward := some q } := by
    simp [forwardJoin, addJoin, kfind_kmod, Ne.symm hne]
  have hused : (forwardJoin s j q).joins.any (fun p => p.2.forward == some q) = true :=
    List.any_eq_true.2 ⟨_, mem_of_kfind hj, by simp⟩
  have hkept : kfind q (gcJoins (forwardJoin s j q) none).joins = some { o with count := o.count + (joinObj s j).count } :=
    kfind_filter_of hfwd _ (by cases o.forward <;> simp [hused])
  simp [joinObj, kget, hkept, ho]

/-- The object of a wave's top token is there: the token's own, or a new one that nothing counts in yet (R36). -/
structure TopJoin (s : State) (k : Nat) (w : Wave) (rest : List Token) (tok : Token) (t : State) (j : Nat) : Prop where
  frame : t = { s with waves := t.waves, joins := t.joins, nextJoin := t.nextJoin }
  wave : t.wave? k = some { w with tokens := rest ++ [{ tok with join := some j }] }
  others : ∀ i, i ≠ k → t.wave? i = s.wave? i
  which : tok.join = some j ∧ t.joins = s.joins ∧ t.nextJoin = s.nextJoin ∨
    tok.join = none ∧ j = s.nextJoin ∧ t.joins = kset s.nextJoin { rejoin := tok.rejoin } s.joins ∧ t.nextJoin = s.nextJoin + 1

section TopJoin

variable {s t : State} {k j : Nat} {w : Wave} {rest : List Token} {tok : Token}

theorem topJoin_top (hw : s.wave? k = some w) (ht : w.tokens = rest ++ [tok]) :
    ∃ t j, topJoin s k = (t, some j) ∧ TopJoin s k w rest tok t j := by
  have hdrop : w.tokens.dropLast = rest := by simp [ht]
  cases hj : tok.join with
  | some j =>
    have hw' : w = { w with tokens := rest ++ [{ tok with join := some j }] } := by rw [← hj, ← ht]
    exact ⟨s, j, by simp [topJoin, hw, top?_append ht, hj], rfl, hw' ▸ hw, fun _ _ => rfl, .inl ⟨hj, rfl, rfl⟩⟩
  | none =>
    refine ⟨(newJoin s { rejoin := tok.rejoin }).1.setWave k (w.setTop { tok with join := some s.nextJoin }), s.nextJoin,
      by simp only [topJoin, hw, top?_append ht, hj]; rfl, rfl, ?_, fun i hi => ?_, .inr ⟨hj, rfl, rfl, rfl⟩⟩
    · rw [wave?_setWave_same]; simp [Wave.setTop, hdrop]
    · exact wave?_setWave_ne _ hi _

theorem TopJoin.own (h : TopJoin s k w rest tok t j) : tok.join = some j ∨ tok.join = none ∧ j = s.nextJoin :=
  h.which.imp And.left fun ⟨h1, h2, _⟩ => ⟨h1, h2⟩

/-- Every other object stands. -/
theorem TopJoin.kfind_ne (h : TopJoin s k w rest tok t j) {i : Nat} (hi : i ≠ s.nextJoin) : kfind i t.joins = kfind i s.joins := by
  rcases h.which with ⟨-, hjoins, -⟩ | ⟨-, -, hjoins, -⟩
  · rw [hjoins]
  · rw [hjoins, kfind_kset_ne hi]

/-- What the object counts is what its token counted. -/
theorem TopJoin.count (h : TopJoin s k w rest tok t j) : (joinObj t j).count = joinCount s tok.join := by
  rcases h.which with ⟨htok, hjoins, -⟩ | ⟨htok, rfl, hjoins, -⟩
  · rw [htok, joinCount_some, joinObj_of_kfind (congrArg (kfind j) hjoins)]
  · simp [htok, joinCount, joinObj, hjoins]

/-- The object is listed, if the token's own was. -/
theorem TopJoin.isSome (h : TopJoin s k w rest tok t j) (hs : ∀ i, tok.join = some i → (kfind i s.joins).isSome = true) :
    (kfind j t.joins).isSome = true := by
  rcases h.which with ⟨htok, hjoins, -⟩ | ⟨-, rfl, hjoins, -⟩
  · rw [hjoins]; exact hs j htok
  · simp [hjoins]

theorem TopJoin.nextJoin (h : TopJoin s k w rest tok t j) (hs : tok.join = none ∨ j ≠ s.nextJoin) : j ≠ t.nextJoin := by
  rcases h.which with ⟨htok, -, hnext⟩ | ⟨-, rfl, -, hnext⟩
  · rw [hnext]; exact hs.resolve_left (by simp [htok])
  · omega

end TopJoin

/-! ### Ejection -/

/-- A continuation thread at a side of a branch: the registers of its lane of a wave, counted in object j (R35). -/
def Continues (w : Wave) (k : Nat) (pc : Word) (j : Nat) (t : Thread) : Prop :=
  t.cont = true ∧ t.entry = pc ∧ t.info.join = some j ∧ t.info.originWave = k ∧ t.regs = w.regCount ∧ t.s = w.s ∧ t.m = w.m ∧ t.mode = w.mode ∧
    ∀ r, kget 0 r t.v = rdV w r t.info.originLane

/-- The registers of one lane, as a thread carries them. -/
theorem kget_lane (v : List (Nat × Word)) (r l : Nat) (hl : l < 32) :
    kget 0 r ((v.filter (fun p => p.1 % 32 = l)).map (fun p => (p.1 / 32, p.2))) = kget 0 (32 * r + l) v := by
  unfold kget
  induction v with
  | nil => rfl
  | cons p v ih =>
    obtain ⟨a, x⟩ := p
    by_cases h : a = 32 * r + l
    · have hlane : a % 32 = l := by omega
      have hreg : a / 32 = r := by omega
      rw [List.filter_cons_of_pos (by simpa using hlane)]
      simp only [List.map_cons, kfind]
      rw [if_pos hreg, if_pos h]
    · by_cases hlane : a % 32 = l
      · have hreg : a / 32 ≠ r := by omega
        simpa [kfind, hlane, hreg, h] using ih
      · simpa [kfind, hlane, h] using ih

theorem lt_of_mem_lanesOf {m : LaneMask} {l : Nat} (h : l ∈ lanesOf m) : l < 32 := List.mem_range.1 (List.mem_filter.1 h).1

/-- The lanes of a mask leave a wave: one thread each, in their order, and nothing else of the machine but the path and the count of ejected lanes. -/
theorem ejectLanes_spec {s : State} {k : Nat} {w : Wave} (hw : s.wave? k = some w) (hg : (s.group? (gidOf k)).isSome = true) (lanes : LaneMask)
    (pc : Word) (j : Nat) (ps : List BlockPlace) : ∃ ts n, ejectLanes s k lanes pc j ps =
      State.modCore { s with waves := kset k { w with path := w.path &&& ~~~ lanes } s.waves, threads := s.threads ++ ts } (coreOf s k)
        (fun c => { c with ejected := c.ejected + n }) ∧
      ts.map (·.info.originLane) = lanesOf lanes ∧ ∀ t ∈ ts, Continues w k pc j t := by
  obtain ⟨g, hg⟩ := Option.isSome_iff_exists.1 hg
  simp only [ejectLanes, hw, hg]
  refine ⟨_, _, rfl, ?_, ?_⟩
  · exact List.ext_getElem (by simp) (by simp)
  · intro t ht
    obtain ⟨i, hi, rfl⟩ := List.mem_mapIdx.1 ht
    refine ⟨rfl, rfl, rfl, rfl, rfl, rfl, rfl, rfl, fun r => ?_⟩
    exact kget_lane _ _ _ (lt_of_mem_lanesOf (List.getElem_mem hi))

end Sys2Proof.Laws
end

section
/-! PROOF. Divergent branches: the path, the token stack, and the ejection of a minority (R31 to R36, R155, R156). -/

namespace Sys2Proof.Laws

open Sys2Proof.Machine

/-! ### What a branch leaves -/

/-- The wave of a branch at its start: its results complete and its declared distances clear (R128). -/
def branchWave (w : Wave) : Wave := { w.settle with decl := 0 }

@[simp] theorem branchWave_v (w : Wave) : (branchWave w).v = w.v := rfl
@[simp] theorem branchWave_s (w : Wave) : (branchWave w).s = w.s := rfl
@[simp] theorem branchWave_m (w : Wave) : (branchWave w).m = w.m := rfl
@[simp] theorem branchWave_xa (w : Wave) : (branchWave w).xa = w.xa := rfl
@[simp] theorem branchWave_mode (w : Wave) : (branchWave w).mode = w.mode := rfl
@[simp] theorem branchWave_regCount (w : Wave) : (branchWave w).regCount = w.regCount := rfl
@[simp] theorem branchWave_path (w : Wave) : (branchWave w).path = w.path := rfl
@[simp] theorem branchWave_tokens (w : Wave) : (branchWave w).tokens = w.tokens := rfl

/-- Active without a predicate is the path (R7). -/
theorem activeOf_zero (w : Wave) : activeOf w 0 = w.path := by
  unfold activeOf
  rw [show rdM w (0 : BitVec 3).toNat = BitVec.allOnes 32 from rfl]
  exact BitVec.and_allOnes

@[simp] theorem condOf_entry (sp : Spec) (s : State) (w : Wave) (neg : Bool) (c : BitVec 3) : condOf (entryWave sp s w) neg c = condOf w neg c := by
  simp [condOf]

@[simp] theorem entryWave_regCount (sp : Spec) (s : State) (w : Wave) : (entryWave sp s w).regCount = w.regCount := by unfold entryWave; split <;> rfl

/-- A wave with only its path, tokens and PC changed, from the entry wave with its results complete. -/
def pathWave (sp : Spec) (s : State) (w : Wave) (path : LaneMask) (tokens : List Token) (pc : Word) : Wave :=
  { branchWave (entryWave sp s w) with path := path, tokens := tokens, pc := pc }

theorem pathWave_path (sp : Spec) (s : State) (w : Wave) (tokens : List Token) (pc : Word) :
    { branchWave (entryWave sp s w) with tokens := tokens, pc := pc } = pathWave sp s w w.path tokens pc := by
  simp only [pathWave, branchWave_path, entryWave_path]

theorem pathWave_path_tokens (sp : Spec) (s : State) (w : Wave) (pc : Word) :
    { branchWave (entryWave sp s w) with pc := pc } = pathWave sp s w w.path w.tokens pc := by
  simp only [pathWave, branchWave_path, branchWave_tokens, entryWave_path, entryWave_tokens]

@[simp] theorem bookWave_v (sp : Spec) (cycle : Nat) (old : Wave) (adv : Bool) (w : Wave) : (bookWave sp cycle old adv w).v = w.v := rfl
@[simp] theorem bookWave_s (sp : Spec) (cycle : Nat) (old : Wave) (adv : Bool) (w : Wave) : (bookWave sp cycle old adv w).s = w.s := rfl
@[simp] theorem bookWave_m (sp : Spec) (cycle : Nat) (old : Wave) (adv : Bool) (w : Wave) : (bookWave sp cycle old adv w).m = w.m := rfl

section Registers

variable (sp : Spec) (s : State) (w : Wave) (path : LaneMask) (tokens : List Token) (pc : Word)

@[simp] theorem pathWave_v : (pathWave sp s w path tokens pc).v = w.v := by simp [pathWave]
@[simp] theorem pathWave_s : (pathWave sp s w path tokens pc).s = w.s := by simp [pathWave]
@[simp] theorem pathWave_m : (pathWave sp s w path tokens pc).m = w.m := by simp [pathWave]
@[simp] theorem pathWave_xa : (pathWave sp s w path tokens pc).xa = w.xa := by simp [pathWave]
@[simp] theorem pathWave_mode : (pathWave sp s w path tokens pc).mode = w.mode := by simp [pathWave]
@[simp] theorem pathWave_regCount : (pathWave sp s w path tokens pc).regCount = w.regCount := by simp [pathWave]

end Registers

theorem pathWave_booked_part {sp : Spec} {s : State} {w y : Wave} {cycle : Nat} {path : LaneMask} {tokens : List Token} {pc : Word}
    (hy : y = bookWave sp cycle w false (pathWave sp s w path tokens pc)) : y = { wavePart w y with path := y.path, tokens := y.tokens } := by
  obtain ⟨x, hx⟩ : ∃ x, entryWave sp s w = wavePart w x := ⟨_, entryWave_part sp s w⟩
  rw [hy, pathWave, hx]
  rfl

/-- A jump that sets a wave's path, tokens and PC completes its instruction as a path change (R30, R37). -/
theorem ranPath_jump (sp : Spec) (s : State) (k : Nat) (w : Wave) (path : LaneMask) (tokens : List Token) (pc : Word) :
    RanPath s k w (book sp k (coreOf s k) w false ((entryState sp s k w).setWave k (pathWave sp s w path tokens pc)))
      (bookWave sp s.cycle w false (pathWave sp s w path tokens pc)) := by
  have hs := entryState_rest sp s k w
  have hc : (entryState sp s k w).cycle = s.cycle := by rw [hs]
  refine ⟨?_, ?_, fun j hj => ?_, ?_, sameRegs_of (by simp) (by simp) (by simp), fun c => ?_⟩
  · simp [book, hc]
  · obtain ⟨ws, cs, hws⟩ : ∃ ws cs, entryState sp s k w = { s with waves := ws, cores := cs } := ⟨_, _, hs⟩
    rw [hws]
    rfl
  · simp [book, hj, entryState_others sp s w hj]
  · exact pathWave_booked_part rfl
  · have e := entryState_core sp s k w c
    simp only [book]
    rw [modCore_issued]
    simp only [core_modWave, core_setWave]
    rw [e]

section Branch

variable {s : State} {k : Nat} {w : Wave} {sp : Spec} {i : Instr} {body : State → Nat → Wave → Res}

/-- A branch whose body jumps with a path, tokens and a PC. -/
theorem branch_jumps (h : Clear sp s k w) (hi : exec i s = issue sp body s) {path : LaneMask} {tokens : List Token} {pc : Word}
    (hb : body (entryState sp s k w) k (entryWave sp s w) = .jump ((entryState sp s k w).setWave k (pathWave sp s w path tokens pc))) :
    ∃ t w', exec i s = .next t ∧ RanPath s k w t w' ∧ w'.path = path ∧ w'.tokens = tokens ∧ w'.pc = pc := by
  refine ⟨_, _, ?_, ranPath_jump sp s k w path tokens pc, rfl, rfl, rfl⟩
  rw [hi, issue_clear h, hb]
  rfl

end Branch

/-! ### br.div and br.ej without ejection -/

section Bodies

variable (sp : Spec) (s : State) (k : Nat) (w : Wave) (neg : Bool) (c : BitVec 3) (rej : BitVec 22) (tgt : Tgt) (len : Nat)

/-- The lanes in which a branch's condition holds, of the path. -/
abbrev holdOf (w : Wave) (neg : Bool) (c : BitVec 3) : LaneMask := condOf w neg c &&& w.path
abbrev failOf (w : Wave) (neg : Bool) (c : BitVec 3) : LaneMask := w.path &&& ~~~ holdOf w neg c

theorem divBody_taken (hl : w.tokens.length < 8) (ht : holdOf w neg c ≠ 0) :
    divBody neg c rej tgt len (entryState sp s k w) k (entryWave sp s w) = .jump ((entryState sp s k w).setWave k (pathWave sp s w (holdOf w neg c)
      (w.tokens ++ [{ rejoin := rejOf w.pc rej, entry := w.path, pend := failOf w neg c, pendPc := w.pc + w64 len }]) (tgtOf w.pc tgt))) := by
  simp only [divBody, condOf_entry, entryWave_path, entryWave_pc, entryWave_tokens]
  rw [if_pos hl, if_pos ht]
  rfl

theorem divBody_notTaken (hl : w.tokens.length < 8) (ht : holdOf w neg c = 0) :
    divBody neg c rej tgt len (entryState sp s k w) k (entryWave sp s w) = .jump ((entryState sp s k w).setWave k (pathWave sp s w (failOf w neg c)
      (w.tokens ++ [{ rejoin := rejOf w.pc rej, entry := w.path }]) (w.pc + w64 len))) := by
  simp only [divBody, condOf_entry, entryWave_path, entryWave_pc, entryWave_tokens]
  rw [if_pos hl, if_neg (not_not.2 ht)]
  rfl

theorem divBody_full_uniform (hl : 8 ≤ w.tokens.length) (hu : holdOf w neg c = 0 ∨ failOf w neg c = 0) :
    divBody neg c rej tgt len (entryState sp s k w) k (entryWave sp s w) = .jump ((entryState sp s k w).setWave k (pathWave sp s w w.path w.tokens
      (if holdOf w neg c ≠ 0 then tgtOf w.pc tgt else w.pc + w64 len))) := by
  simp only [divBody, condOf_entry, entryWave_path, entryWave_pc, entryWave_tokens]
  rw [if_neg (Nat.not_lt.2 hl), if_pos hu]
  exact congrArg (fun x => Res.jump ((entryState sp s k w).setWave k x)) (pathWave_path_tokens sp s w _)

theorem divBody_full_divergent (hl : 8 ≤ w.tokens.length) (ht : holdOf w neg c ≠ 0) (hf : failOf w neg c ≠ 0) :
    divBody neg c rej tgt len (entryState sp s k w) k (entryWave sp s w) = ejectSplit true (rejOf w.pc rej) (tgtOf w.pc tgt) (w.pc + w64 len)
      (holdOf w neg c) (failOf w neg c) (entryState sp s k w) k (entryWave sp s w) := by
  simp only [divBody, condOf_entry, entryWave_path, entryWave_pc, entryWave_tokens]
  rw [if_neg (Nat.not_lt.2 hl), if_neg (not_or.2 ⟨ht, hf⟩)]

theorem ejBody_uniform (hu : holdOf w neg c = 0 ∨ failOf w neg c = 0) :
    ejBody neg c rej tgt len (entryState sp s k w) k (entryWave sp s w) = .jump ((entryState sp s k w).setWave k (pathWave sp s w w.path
      (if w.tokens.length < 8 then w.tokens ++ [{ rejoin := rejOf w.pc rej, entry := w.path }] else w.tokens)
      (if holdOf w neg c ≠ 0 then tgtOf w.pc tgt else w.pc + w64 len))) := by
  simp only [ejBody, condOf_entry, entryWave_path, entryWave_pc, entryWave_tokens]
  rw [if_pos hu]
  by_cases hl : w.tokens.length < 8
  · rw [if_neg (by simpa using hl), if_pos hl]
    exact congrArg (fun x => Res.jump ((entryState sp s k w).setWave k x)) (pathWave_path sp s w _ _)
  · rw [if_pos (by simpa using hl), if_neg hl]
    exact congrArg (fun x => Res.jump ((entryState sp s k w).setWave k x)) (pathWave_path_tokens sp s w _)

theorem ejBody_divergent (ht : holdOf w neg c ≠ 0) (hf : failOf w neg c ≠ 0) :
    ejBody neg c rej tgt len (entryState sp s k w) k (entryWave sp s w) = ejectSplit (decide (8 ≤ w.tokens.length)) (rejOf w.pc rej)
      (tgtOf w.pc tgt) (w.pc + w64 len) (holdOf w neg c) (failOf w neg c) (entryState sp s k w) k (entryWave sp s w) := by
  simp only [ejBody, condOf_entry, entryWave_path, entryWave_pc, entryWave_tokens]
  rw [if_neg (not_or.2 ⟨ht, hf⟩)]

end Bodies

/-! ### Ejection at a branch -/

/-- The state and the object with which a split's minority is ejected: with a full stack a new object forwarded to the top token's, which
counts the lanes; else a new token with a new object (R32, R33, R36). -/
def splitJoin (full : Bool) (rejoin : Word) (n : Nat) (s : State) (k : Nat) (w : Wave) : State × Nat :=
  if full then
    (match topJoin s k with
     | (s, some top) => (let r := newJoin s { rejoin := rejoin, forward := some top }
                         (addJoin r.1 top n, r.2))
     | (s, none) => newJoin s { count := n, rejoin := rejoin })
  else
    (let r := newJoin s { count := n, rejoin := rejoin }
     (r.1.setWave k { w with tokens := w.tokens ++ [{ rejoin := rejoin, entry := w.path, join := some r.2 }] }, r.2))

theorem ejectSplit_places {full : Bool} {rejoin target next : Word} {t f : LaneMask} {s : State} {k : Nat} {w : Wave} {ps : List BlockPlace}
    {taken : Bool} {out : LaneMask} (htaken : taken = minorityTaken t f) (hout : out = if taken then t else f)
    (hg : grantBlocks s (coreOf s k) (((s.group? (gidOf k)).map (·.seq)).getD 0) .cont (popMask out) (contBlocks w) = .places ps) :
    ejectSplit full rejoin target next t f s k w =
      (let p := splitJoin full rejoin (popMask out) (s.setWave k (branchWave w)) k (branchWave w)
       .jump (gather ((ejectLanes p.1 k out (if taken then target else next) p.2 ps).modWave k
         (fun x => { x with path := if taken then f else t, pc := if taken then next else target })) (coreOf s k))) := by
  subst htaken hout
  simp only [ejectSplit, hg]
  rfl

section Refused

variable {full : Bool} {rejoin target next : Word} {t f : LaneMask} {s : State} {k : Nat} {w : Wave}

theorem ejectSplit_wait {n : Nat} (hn : n = popMask (if minorityTaken t f then t else f))
    (hg : grantBlocks s (coreOf s k) (((s.group? (gidOf k)).map (·.seq)).getD 0) .cont n (contBlocks w) = .wait) :
    ejectSplit full rejoin target next t f s k w = .wait .segment (segArg .cont n (contBlocks w)) s := by
  subst hn
  simp only [ejectSplit, hg]

theorem ejectSplit_overflow {n : Nat} {need : Nat} (hn : n = popMask (if minorityTaken t f then t else f))
    (hg : grantBlocks s (coreOf s k) (((s.group? (gidOf k)).map (·.seq)).getD 0) .cont n (contBlocks w) = .overflow need) :
    ejectSplit full rejoin target next t f s k w = .trap
      { cause := .spawnOverflow, info0 := w64 need, info1 := w64 (((s.task? (((s.group? (gidOf k)).map (·.seq)).getD 0)).map recQocc).getD 0) } s := by
  subst hn
  simp only [ejectSplit, hg]

end Refused

/-- The state in which lanes are ejected: beside the wave's tokens only join objects have changed. -/
structure Prepared (s : State) (k : Nat) (w : Wave) (tokens : List Token) (t : State) : Prop where
  frame : t = { s with waves := t.waves, joins := t.joins, nextJoin := t.nextJoin }
  wave : t.wave? k = some { w with tokens := tokens }

/-- A token with a new object is pushed, which counts the lanes to be ejected (R32). -/
theorem splitJoin_push (rejoin : Word) (n : Nat) (s : State) (k : Nat) (w : Wave) :
    Prepared s k w (w.tokens ++ [{ rejoin := rejoin, entry := w.path, join := some (splitJoin false rejoin n s k w).2 }])
      (splitJoin false rejoin n s k w).1 ∧
    joinObj (splitJoin false rejoin n s k w).1 (splitJoin false rejoin n s k w).2 = { count := n, rejoin := rejoin } := by
  refine ⟨⟨rfl, wave?_setWave_same _ _ _⟩, ?_⟩
  simp [splitJoin, newJoin, joinObj]

/-- With a full stack a new object is forwarded to the top token's, which counts the lanes to be ejected (R33, R36). -/
theorem splitJoin_top {s : State} {k : Nat} {w : Wave} {rest : List Token} {tok : Token} (hw : s.wave? k = some w)
    (ht : w.tokens = rest ++ [tok]) (hs : ∀ top, tok.join = some top → top ≠ s.nextJoin ∧ (kfind top s.joins).isSome = true)
    (rejoin : Word) (n : Nat) : ∃ u j top, splitJoin true rejoin n s k w = (u, j) ∧ (tok.join = some top ∨ tok.join = none ∧ top = s.nextJoin) ∧
      Prepared s k w (rest ++ [{ tok with join := some top }]) u ∧ joinObj u j = { rejoin := rejoin, forward := some top } ∧
      (joinObj u top).count = (if tok.join = none then 0 else (joinObj s top).count) + n := by
  obtain ⟨t, top, he, h⟩ := topJoin_top hw ht
  have hne : top ≠ t.nextJoin := h.nextJoin (h.own.elim (fun hj => .inr (hs top hj).1) (fun hj => .inl hj.1))
  have hnew : kfind top (newJoin t { rejoin := rejoin, forward := some top }).1.joins = kfind top t.joins := kfind_kset_ne hne _ _
  have hlisted : (kfind top (newJoin t { rejoin := rejoin, forward := some top }).1.joins).isSome = true :=
    hnew ▸ h.isSome (fun i hi => (hs i hi).2)
  refine ⟨addJoin (newJoin t { rejoin := rejoin, forward := some top }).1 top n, t.nextJoin, top, ?_, h.own, ⟨?_, h.wave⟩, ?_, ?_⟩
  · simp only [splitJoin, he, if_true]; rfl
  · conv_lhs => rw [h.frame]
    rfl
  · rw [joinObj_of_kfind (kfind_addJoin_ne _ _ hne.symm)]
    simp [newJoin, joinObj]
  · rw [joinObj_addJoin_same n hlisted, joinObj_of_kfind hnew]
    show (joinObj t top).count + n = _
    rw [h.count]
    rcases h.own with hj | ⟨hj, -⟩ <;> simp [hj, joinCount]

/-- Lanes leave a wave whose join objects are prepared, and the rest of it goes on at a PC: its registers stand, and each lane is a thread. -/
theorem prepared_ejected {s t : State} {k : Nat} {w : Wave} {tokens : List Token} (h : Prepared s k w tokens t)
    (hg : (s.group? (gidOf k)).isSome = true) (out : LaneMask) (at_ : Word) (j : Nat) (ps : List BlockPlace) (path : LaneMask) (pc : Word) :
    let u := (ejectLanes t k out at_ j ps).modWave k (fun x => { x with path := path, pc := pc })
    u.wave? k = some { w with tokens := tokens, path := path, pc := pc } ∧ u.joins = t.joins ∧
      ∃ ts, u.threads = s.threads ++ ts ∧ ts.map (·.info.originLane) = lanesOf out ∧ ∀ x ∈ ts, Continues w k at_ j x := by
  have hgroup : t.group? (gidOf k) = s.group? (gidOf k) := by rw [h.frame]; rfl
  have hthreads : t.threads = s.threads := by rw [h.frame]
  obtain ⟨ts, n, he, hlanes, hcont⟩ := ejectLanes_spec h.wave (hgroup ▸ hg) out at_ j ps
  simp only [he]
  refine ⟨?_, rfl, ts, ?_, hlanes, hcont⟩
  · simp [State.wave?, State.modWave, kfind_kmod]
  · rw [← hthreads]; rfl

/-- `splitJoin` as an issuing wave comes to it. -/
abbrev splitAt (sp : Spec) (s : State) (k : Nat) (w : Wave) (full : Bool) (rejoin : Word) (n : Nat) : State × Nat :=
  splitJoin full rejoin n ((entryState sp s k w).setWave k (branchWave (entryWave sp s w))) k (branchWave (entryWave sp s w))

theorem continues_entry {sp : Spec} {s : State} {w : Wave} {k j : Nat} {pc : Word} {t : Thread}
    (h : Continues (branchWave (entryWave sp s w)) k pc j t) : Continues w k pc j t := by
  simpa [Continues, rdV] using h

/-- An instruction that comes to a split of its path ejects the minority, waits for blocks, or takes SPAWN_OVERFLOW (R32, R33, R35, R42, R322). -/
theorem ejectsOrWaits_of_split {i : Instr} {sp : Spec} {body : State → Nat → Wave → Res} {s : State} {k : Nat} {w : Wave} {full : Bool}
    {rejoin target : Word} {hold fail : LaneMask} {counted : State → Wave → Nat → Nat → Prop} (h : Clear sp s k w) (hmask : sp.mask = 0)
    (hi : exec i s = issue sp body s) (hg : ∃ g, s.group? (gidOf k) = some g)
    (hb : body (entryState sp s k w) k (entryWave sp s w) =
      ejectSplit full rejoin target (w.pc + w64 sp.len) hold fail (entryState sp s k w) k (entryWave sp s w))
    (hc : ∀ n, ∃ tokens, Prepared (entryState sp s k w) k (branchWave (entryWave sp s w)) tokens (splitAt sp s k w full rejoin n).1 ∧
      ∀ u x, x.tokens = tokens → u.joins = (splitAt sp s k w full rejoin n).1.joins → counted u x (splitAt sp s k w full rejoin n).2 n) :
    EjectsOrWaits i sp s k w hold fail target counted := by
  have hs := entryState_rest sp s k w
  have hgroup : (entryState sp s k w).group? (gidOf k) = s.group? (gidOf k) := by rw [hs]; rfl
  have hcore : coreOf (entryState sp s k w) k = coreOf s k := by simp only [coreOf, hgroup]
  have htasks (q : Nat) : (entryState sp s k w).task? q = s.task? q := by rw [hs]; rfl
  have hexec := hi.trans (issue_clear h body)
  rw [hb] at hexec
  refine ⟨fun ps hps => ?_, fun hwait => ?_, fun n hover => ?_⟩
  · rw [ejectSplit_places rfl rfl (by rw [hcore, hgroup]; exact hps), hcore] at hexec
    obtain ⟨tokens, hprep, hcounted⟩ := hc (popMask (if minorityTaken hold fail then hold else fail))
    obtain ⟨hwave, hjoins, ts, hthreads, hlanes, hcont⟩ := prepared_ejected hprep (by rw [hgroup, Option.isSome_iff_exists]; exact hg)
      (if minorityTaken hold fail then hold else fail) (if minorityTaken hold fail then target else w.pc + w64 sp.len)
      (splitAt sp s k w full rejoin (popMask (if minorityTaken hold fail then hold else fail))).2 ps
      (if minorityTaken hold fail then fail else hold) (if minorityTaken hold fail then w.pc + w64 sp.len else target)
    refine ⟨_, _, _, ts, hexec, hwave, rfl, rfl, sameRegs_of ?_ ?_ ?_, ?_, hcounted _ _ rfl hjoins, ?_, hlanes, fun t ht => continues_entry (hcont t ht)⟩
    · simp
    · simp
    · simp
    · simp
    · exact hthreads.trans (by rw [hs])
  · rw [hexec, ejectSplit_wait rfl (by rw [hcore, hgroup]; exact hwait)]
    simp only [finish, enterWait, reduceCtorEq, if_false]
    rfl
  · rw [hexec, ejectSplit_overflow rfl (by rw [hcore, hgroup]; exact hover), hgroup, htasks]
    have hlanes : activeOf w sp.mask = w.path := by rw [hmask]; exact activeOf_zero w
    simp only [finish, Trap.withLanes, hlanes, Option.getD_none]

section Counted

variable {sp : Spec} {s : State} {k : Nat} {w : Wave}

/-- With room on the stack the new token's object counts the lanes. -/
theorem counted_push (rejoin : Word) (n : Nat) :
    ∃ tokens, Prepared (entryState sp s k w) k (branchWave (entryWave sp s w)) tokens (splitAt sp s k w false rejoin n).1 ∧
      ∀ (u : State) (x : Wave), x.tokens = tokens → u.joins = (splitAt sp s k w false rejoin n).1.joins →
        x.tokens = w.tokens ++ [{ rejoin := rejoin, entry := w.path, join := some (splitAt sp s k w false rejoin n).2 }] ∧
        joinObj u (splitAt sp s k w false rejoin n).2 = { count := n, rejoin := rejoin } := by
  obtain ⟨hprep, hobj⟩ := splitJoin_push rejoin n ((entryState sp s k w).setWave k (branchWave (entryWave sp s w))) k (branchWave (entryWave sp s w))
  refine ⟨_, ⟨hprep.frame, hprep.wave⟩, fun u x hx hu => ⟨hx.trans (by simp), ?_⟩⟩
  rw [joinObj_of_kfind (congrArg (kfind _) hu), hobj]

/-- With a full stack the lanes are counted in the top token's object. -/
theorem counted_top {tok : Token} {rest : List Token} (ht : w.tokens = rest ++ [tok])
    (hs : ∀ top, tok.join = some top → top ≠ s.nextJoin ∧ (kfind top s.joins).isSome = true) (rejoin : Word) (n : Nat) :
    ∃ tokens, Prepared (entryState sp s k w) k (branchWave (entryWave sp s w)) tokens (splitAt sp s k w true rejoin n).1 ∧
      ∀ u x, x.tokens = tokens → u.joins = (splitAt sp s k w true rejoin n).1.joins →
        CountsInTop s tok rest rejoin u x (splitAt sp s k w true rejoin n).2 n := by
  have hrest := entryState_rest sp s k w
  have hjoins : ((entryState sp s k w).setWave k (branchWave (entryWave sp s w))).joins = s.joins := by rw [hrest]; rfl
  have hnext : ((entryState sp s k w).setWave k (branchWave (entryWave sp s w))).nextJoin = s.nextJoin := by rw [hrest]; rfl
  obtain ⟨u, j, top, he, hown, hprep, hobj, hcount⟩ := splitJoin_top
    (s := (entryState sp s k w).setWave k (branchWave (entryWave sp s w))) (w := branchWave (entryWave sp s w)) (wave?_setWave_same _ _ _)
    (by simpa using ht) (by rw [hjoins, hnext]; exact hs) rejoin n
  rw [splitAt, he]
  refine ⟨_, ⟨hprep.frame, hprep.wave⟩, fun u' x hx hu => ⟨top, by rwa [hnext] at hown, hx, ?_, ?_⟩⟩
  · rw [joinObj_of_kfind (congrArg (kfind _) hu), hobj]
  · rw [joinObj_of_kfind (congrArg (kfind _) hu), hcount, joinObj_of_kfind (congrArg (kfind _) hjoins)]

end Counted

/-- Settles O13: the bodies of the two branches without ejection come to one jump each; a split that ejects is one lemma, whatever object counts
its lanes. -/
theorem divergentBranches : Obligations.DivergentBranches := by
  unfold Obligations.DivergentBranches
  refine ⟨fun f s k w h => ⟨fun hl => ?room, fun hl hu => ?full⟩,
    fun f s k w h => ⟨fun hu => ?uniform, fun ht hf hg hl => ?push, fun tok rest ht hf hg htok hl hs => ?top⟩,
    fun f s k w h tok rest ht hf hg htok hl hs => ?divTop⟩
  case room =>
    by_cases ht : holdOf w f.neg f.cond = 0
    · obtain ⟨t, w', hexec, hran, hpath, htokens, hpc⟩ := branch_jumps h (i := .brDiv f) rfl (divBody_notTaken _ s k w f.neg f.cond f.rej f.tgt _ hl ht)
      exact ⟨t, w', hexec, hran, fun hne => absurd ht hne, fun _ => ⟨hpath, hpc, htokens⟩⟩
    · obtain ⟨t, w', hexec, hran, hpath, htokens, hpc⟩ := branch_jumps h (i := .brDiv f) rfl (divBody_taken _ s k w f.neg f.cond f.rej f.tgt _ hl ht)
      exact ⟨t, w', hexec, hran, fun _ => ⟨hpath, hpc, htokens⟩, fun h0 => absurd h0 ht⟩
  case full => exact branch_jumps h rfl (divBody_full_uniform _ s k w f.neg f.cond f.rej f.tgt _ hl hu)
  case uniform =>
    obtain ⟨t, w', hexec, hran, hpath, htokens, hpc⟩ := branch_jumps h (i := .brEj f) rfl (ejBody_uniform _ s k w f.neg f.cond f.rej f.tgt _ hu)
    exact ⟨t, w', hexec, hran, hpath, hpc, htokens⟩
  case push =>
    have hroom : decide (8 ≤ w.tokens.length) = false := decide_eq_false (Nat.not_le.2 hl)
    have hbody := ejBody_divergent (spec0 (tgtLen f.tgt) f.stall [] (condRead f.cond)) s k w f.neg f.cond f.rej f.tgt (tgtLen f.tgt) ht hf
    rw [hroom] at hbody
    exact ejectsOrWaits_of_split h rfl rfl hg hbody (counted_push _)
  case top =>
    have hfull : decide (8 ≤ w.tokens.length) = true := decide_eq_true hl
    have hbody := ejBody_divergent (spec0 (tgtLen f.tgt) f.stall [] (condRead f.cond)) s k w f.neg f.cond f.rej f.tgt (tgtLen f.tgt) ht hf
    rw [hfull] at hbody
    exact ejectsOrWaits_of_split h rfl rfl hg hbody (counted_top htok hs _)
  case divTop =>
    exact ejectsOrWaits_of_split h rfl rfl hg (divBody_full_divergent _ s k w f.neg f.cond f.rej f.tgt _ hl ht hf) (counted_top htok hs _)

end Sys2Proof.Laws
end
section
/-! SUPPORT. Register claims (R26 to R29): what serving one gives its wave and its group, the queue's order, and the counts they go by. -/

namespace Sys2Proof.Laws

open Sys2Proof.Machine

/-! ### Registers kept below a count -/

theorem kfind_filter_key {α : Type} (c : Nat → Bool) (k : Nat) (m : List (Nat × α)) :
    kfind k (m.filter (fun p => c p.1)) = if c k = true then kfind k m else none := by
  induction m with
  | nil => simp
  | cons p r ih =>
    obtain ⟨a, b⟩ := p
    by_cases ha : a = k
    · subst ha
      by_cases hc : c a = true
      · simp [kfind, hc]
      · simp [hc, ih]
    · by_cases hc : c a = true <;> simp [kfind, hc, ha, ih]

/-- Vector registers at and above a count read 0 once they are dropped; those below stand. -/
theorem rdV_keepBelow {w x : Wave} {n : Nat} (hx : x.v = w.v.filter (fun p => decide (p.1 / 32 < n))) (r : Nat) {l : Nat} (hl : l < 32) :
    rdV x r l = if r < n then rdV w r l else 0 := by
  have hreg : (32 * r + l) / 32 = r := by omega
  simp only [rdV, kget, hx, kfind_filter_key (fun i => decide (i / 32 < n)), hreg, decide_eq_true_eq]
  split <;> rfl

/-! ### A claim served -/

/-- A wave with n registers more, which read 0. -/
def withRegs (n : Nat) (w : Wave) : Wave :=
  { w with regCount := w.regCount + n, v := w.v.filter (fun p => decide (p.1 / 32 < w.regCount)), heldRegs := if w.evicted then w.heldRegs + n else w.heldRegs }

/-- A group whose wave has been given n registers: from its unassigned budget first, then from the core (R26). -/
def gaveRegs (n : Nat) (g : Group) : Group :=
  { g with budgetFree := g.budgetFree - min n g.budgetFree, took := g.took + (n - min n g.budgetFree) }

theorem serveClaim_eq {s : State} {k : Nat} {w : Wave} {g : Group} (hw : s.wave? k = some w) (hg : s.group? (gidOf k) = some g) (c n : Nat) :
    serveClaim s c k n = (s.setGroup (gidOf k) (gaveRegs n g)).setWave k (withRegs n w) := by
  simp only [serveClaim, hw, hg]
  rfl

theorem claimFits_iff {s : State} {k : Nat} {g : Group} (hg : s.group? (gidOf k) = some g) (c n : Nat) :
    claimFits s c k n = true ↔ n ≤ g.budgetFree + freeRegs s c := by simp [claimFits, hg]

/-- A wave whose claim has been served goes on after its instruction, its wait over (R239). -/
def claimedWave (cycle : Nat) (w : Wave) : Wave :=
  bookWave { len := 8, stall := w.waitArg.toNat, opnds := [], lat := some 0 } cycle w true { w with wait := .none, waitArg := 0, claim := none }

theorem claimDone_eq (s : State) (c k : Nat) :
    claimDone s c k = (s.modCore c (fun x => { x with issued := x.issued + 1 })).modWave k (claimedWave s.cycle) := rfl

/-! ### The queue -/

section Queue

variable {s : State} {c k n m : Nat} {q : List Nat} {w : Wave} {g : Group}

theorem serveClaims_empty (h : (s.core c).claims = []) (m : Nat) : serveClaims c m s = s := by
  cases m with
  | zero => rfl
  | succ m => simp only [serveClaims, h]

/-- A head that does not fit holds the queue (R28). -/
theorem serveClaims_held (h : (s.core c).claims = k :: q) (hw : s.wave? k = some w) (hc : claimFits s c k ((w.claim.map (·.1)).getD 0) = false) (m : Nat) :
    serveClaims c m s = s := by
  cases m with
  | zero => rfl
  | succ m => simp [serveClaims, h, hw, hc]

/-- The head of the queue served: it leaves the queue with its registers, and its wave goes on. -/
def servedHead (s : State) (c k n : Nat) (q : List Nat) : State :=
  claimDone ((serveClaim s c k n).modCore c (fun x => { x with claims := q })) c k

theorem serveClaims_fits (h : (s.core c).claims = k :: q) (hw : s.wave? k = some w) (hn : (w.claim.map (·.1)).getD 0 = n)
    (hc : claimFits s c k n = true) (m : Nat) : serveClaims c (m + 1) s = serveClaims c m (servedHead s c k n q) := by
  simp only [serveClaims, h, hw, hn, hc, if_true, servedHead]

end Queue

end Sys2Proof.Laws
end
section
/-! PROOF. The end of an ageing quantum, starvation, and the service of a queue of claims (R28, R37, R312). -/

namespace Sys2Proof.Laws

open Sys2Proof.Machine

/-! ### Popping to a pending path -/

/-- The tokens of a wave whose token p has come to the top, its object there, and its pending path now runs. -/
def runTop (y : Wave) (lower : List Token) (p : Token) (q : Nat) : Wave :=
  runPending { y with tokens := lower ++ [{ p with join := some q }], pc := 0 } { p with join := some q } 0

section Popping

variable {s : State} {k : Nat} {y : Wave}

/-- A token with pending lanes at the top runs them. -/
theorem popToPending_runs {tok : Token} (hw : s.wave? k = some y) (ht : y.top? = some tok) (hp : pendOf y tok ≠ 0) (n : Nat) :
    popToPending (n + 1) s k = s.setWave k (runPending { y with pc := 0 } tok 0) := by
  simp only [popToPending, hw, ht]
  exact if_pos hp

/-- A token with nothing pending is popped, its object forwarded to that of the token below (R36). -/
theorem popToPending_forwards {rest : List Token} {p tok : Token} {j : Nat} (hw : s.wave? k = some y) (ht : y.tokens = rest ++ [p, tok])
    (hp : pendOf y tok = 0) (hj : tok.join = some j) (n : Nat) : ∃ v q, TopJoin (s.setWave k y.pop) k y.pop rest p v q ∧
      popToPending (n + 1) s k = popToPending n (gcJoins (forwardJoin v j q) none) k := by
  have htop : y.top? = some tok := top?_append (rest := rest ++ [p]) (by simp [ht])
  have hpop : y.pop.tokens = rest ++ [p] := by simp [Wave.pop, ht]
  obtain ⟨v, q, hv, hspec⟩ := topJoin_top (wave?_setWave_same s k y.pop) hpop
  refine ⟨v, q, hspec, ?_⟩
  simp only [popToPending, hw, htop, hp, hj, hv, ne_eq, not_true_eq_false, if_false]

/-- What forwarding a popped token's object leaves: the wave with the token below on top, its object there. -/
theorem TopJoin.forwarded {rest : List Token} {p : Token} {v : State} {q : Nat} (h : TopJoin (s.setWave k y.pop) k y.pop rest p v q) (j : Nat) :
    (gcJoins (forwardJoin v j q) none).wave? k = some { y with tokens := rest ++ [{ p with join := some q }] } ∧
    (∀ i, i ≠ k → (gcJoins (forwardJoin v j q) none).wave? i = s.wave? i) ∧
    ∃ ws js m, gcJoins (forwardJoin v j q) none = { s with waves := ws, joins := js, nextJoin := m } := by
  refine ⟨h.wave, fun i hi => (h.others i hi).trans (wave?_setWave_ne s hi _), v.waves, (gcJoins (forwardJoin v j q) none).joins, v.nextJoin, ?_⟩
  have hframe := h.frame
  obtain ⟨ws, js, m, rfl⟩ : ∃ ws js m, v = { s with waves := ws, joins := js, nextJoin := m } := ⟨v.waves, v.joins, v.nextJoin, hframe⟩
  rfl

/-- The tokens above one with pending lanes are forwarded and popped, and its pending lanes run (R37). -/
theorem popToPending_spec {lower : List Token} {p : Token} (upper : List Token) : ∀ {s : State} {y : Wave} {tok : Token} {j n : Nat},
    s.wave? k = some y → y.tokens = lower ++ p :: (upper ++ [tok]) → pendOf y p ≠ 0 → (∀ x ∈ upper ++ [tok], pendOf y x = 0) → tok.join = some j →
    upper.length + 2 ≤ n → ∃ t q, popToPending n s k = t.setWave k (runTop y lower p q) ∧ (∀ i, i ≠ k → t.wave? i = s.wave? i) ∧
      (∃ ws js m, t = { s with waves := ws, joins := js, nextJoin := m }) ∧
      (upper = [] → ∃ v, TopJoin (s.setWave k y.pop) k y.pop lower p v q ∧ t = gcJoins (forwardJoin v j q) none) := by
  induction upper using List.reverseRecOn with
  | nil =>
    intro s y tok j n hw ht hp hup hj hn
    obtain ⟨n, rfl⟩ : ∃ m, n = m + 2 := ⟨n - 2, by simp at hn; omega⟩
    obtain ⟨v, q, hspec, hpop⟩ := popToPending_forwards (rest := lower) (p := p) hw ht (hup tok (by simp)) hj (n + 1)
    obtain ⟨hwave, hothers, hframe⟩ := hspec.forwarded j
    refine ⟨_, q, hpop.trans (popToPending_runs hwave (top?_append (rest := lower) rfl) hp n), hothers, hframe, fun _ => ⟨v, hspec, rfl⟩⟩
  | append_singleton upper x ih =>
    intro s y tok j n hw ht hp hup hj hn
    obtain ⟨n, rfl⟩ : ∃ m, n = m + 1 := ⟨n - 1, by omega⟩
    obtain ⟨v, q, hspec, hpop⟩ := popToPending_forwards (rest := lower ++ p :: upper) (p := x) hw (by simp [ht]) (hup tok (by simp)) hj n
    obtain ⟨hwave, hothers, ws, js, m, hframe⟩ := hspec.forwarded j
    obtain ⟨t, q', hrun, hothers', ⟨ws', js', m', hframe'⟩, -⟩ := ih (tok := { x with join := some q }) (n := n) hwave (by simp) hp
      (fun z hz => by
        rcases List.mem_append.1 hz with hz | hz
        · exact hup z (by simp [hz])
        · obtain rfl := List.mem_singleton.1 hz
          exact hup x (by simp)) rfl (by simp at hn; omega)
    refine ⟨t, q', hpop.trans hrun, fun i hi => (hothers' i hi).trans (hothers i hi), ⟨ws', js', m', by rw [hframe', hframe]⟩, fun h => by simp at h⟩

end Popping

/-! ### The end of a quantum -/

section Ageing

variable {s : State} {k : Nat} {w : Wave}

/-- The count of path changes of a core goes up by one. -/
def changedPath (s : State) (c : Nat) : State := s.modCore c (fun x => { x with pathChanges := x.pathChanges + 1 })

theorem core_changedPath (s : State) (c d : Nat) :
    (changedPath s c).core d = { s.core d with pathChanges := (s.core d).pathChanges + if d = c then 1 else 0 } := by
  rw [changedPath, core_modCore]
  split <;> rfl

/-- A wave whose quantum has not passed keeps its path. -/
theorem ageingQuantum_early (h : Named s k w) (ha : w.age < (s.core (coreOf s k)).quantumM1 + 1) : exec .ageingQuantum s = .next s := by
  refine (onWaiter_named h _ _).trans (congrArg _ (if_neg ?_))
  simp [h.who, Nat.lt_succ_iff.1 ha]

/-- The pending lanes of the top token run, and the former path is pending (R37). -/
theorem ageingQuantum_swaps {tok : Token} (h : Named s k w) (hwait : w.wait = .none) (ha : (s.core (coreOf s k)).quantumM1 + 1 ≤ w.age)
    (ht : w.top? = some tok) (hp : pendOf w tok ≠ 0) :
    exec .ageingQuantum s = .next (changedPath (s.setWave k (runPending w tok w.path)) (coreOf s k)) := by
  refine (onWaiter_named h _ _).trans (congrArg _ ((if_pos ?_).trans ?_))
  · simp [hwait, h.who, ha]
  · simp only [h.who, ht]
    exact if_pos hp

/-- With nothing pending only the count of issues restarts. -/
theorem ageingQuantum_restarts (h : Named s k w) (hwait : w.wait = .none) (ha : (s.core (coreOf s k)).quantumM1 + 1 ≤ w.age)
    (hp : ∀ tok ∈ w.tokens, pendOf w tok = 0) : exec .ageingQuantum s = .next (s.setWave k { w with age := 0 }) := by
  refine (onWaiter_named h _ _).trans (congrArg _ ((if_pos ?_).trans ?_))
  · simp [hwait, h.who, ha]
  · cases ht : w.top? with
    | none => rw [h.who]
    | some tok =>
      have htok : ¬ pendOf w tok ≠ 0 := not_not.2 (hp tok (List.mem_of_getLast? ht))
      simp only [h.who]
      rw [if_neg htok, if_pos (by simpa using hp)]

/-- The current path ejected as threads counted in object j, and the tokens above a pending path popped (R37). -/
def agedOut (s r : State) (j k : Nat) (w : Wave) (ps : List BlockPlace) : State :=
  changedPath (popToPending (w.tokens.length + 1) (ejectLanes (addJoin r j (popMask w.path)) k w.path w.pc j ps) k) (coreOf s k)

/-- With nothing pending at the top but something below, it is the grant of blocks that decides (R37, R42). -/
theorem ageingQuantum_below {tok : Token} (h : Named s k w) (hwait : w.wait = .none) (ha : (s.core (coreOf s k)).quantumM1 + 1 ≤ w.age)
    (ht : w.top? = some tok) (hp : pendOf w tok = 0) (hall : w.tokens.all (fun x => pendOf w x == 0) = false) :
    exec .ageingQuantum s = .next
      (match grantBlocks s (coreOf s k) (((s.group? (gidOf k)).map (·.seq)).getD 0) .cont (popMask w.path) (contBlocks w) with
       | .overflow _ => s.setWave k { w with age := 0 }
       | .wait => s
       | .places ps =>
         match topJoin (s.setWave k w.settle) k with
         | (_, none) => s.setWave k { w with age := 0 }
         | (r, some j) => gather (agedOut s r j k w ps) (coreOf s k)) := by
  refine (onWaiter_named h _ _).trans (congrArg _ ((if_pos (by simp [hwait, h.who, ha])).trans ?_))
  simp only [h.who, ht]
  rw [if_neg (not_not.2 hp), if_neg (ne_true_of_eq_false hall)]
  cases grantBlocks s (coreOf s k) (((s.group? (gidOf k)).map (·.seq)).getD 0) .cont (popMask w.path) (contBlocks w) with
  | overflow n => rfl
  | wait => rfl
  | places ps => cases topJoin (s.setWave k w.settle) k with
    | mk r o => cases o <;> rfl

/-- A machine whose wave's lanes have left it as threads: the wave, the threads and the count of ejected lanes are all that changed. -/
structure LanesLeft (s : State) (k : Nat) (w : Wave) (lanes : LaneMask) (ts : List Thread) (t : State) : Prop where
  frame : t = { s with waves := t.waves, threads := s.threads ++ ts, cores := t.cores }
  wave : t.wave? k = some { w with path := w.path &&& ~~~ lanes }
  others : ∀ i, i ≠ k → t.wave? i = s.wave? i
  changes : ∀ c, (t.core c).pathChanges = (s.core c).pathChanges

theorem ejectLanes_left (hw : s.wave? k = some w) (hg : (s.group? (gidOf k)).isSome = true) (lanes : LaneMask) (pc : Word) (j : Nat)
    (ps : List BlockPlace) : ∃ ts, LanesLeft s k w lanes ts (ejectLanes s k lanes pc j ps) ∧ ts.map (·.info.originLane) = lanesOf lanes ∧
      ∀ t ∈ ts, Continues w k pc j t := by
  obtain ⟨ts, n, he, hlanes, hcont⟩ := ejectLanes_spec hw hg lanes pc j ps
  rw [he]
  refine ⟨ts, ⟨rfl, ?_, fun i hi => ?_, fun c => ?_⟩, hlanes, hcont⟩
  · simp [State.wave?]
  · simp [State.wave?, hi]
  · rw [core_modCore]
    split <;> rfl

/-- What the object that a popped token's is forwarded to counts, when lanes have been counted in that token's (R35, R36). -/
theorem joinObj_popped {s v e r : State} {k j q n : Nat} {w x : Wave} {rest lower : List Token} {p tok : Token}
    (hr : TopJoin s k w rest tok r j) (he : e.joins = (addJoin r j n).joins ∧ e.nextJoin = r.nextJoin) (hv : TopJoin e k x lower p v q)
    (hne : tok.join.isNone = true ∨ tok.join ≠ p.join)
    (hlisted : ∀ y, tok.join = some y ∨ p.join = some y → y < s.nextJoin ∧ (kfind y s.joins).isSome = true) :
    (joinObj (gcJoins (forwardJoin v j q) none) q).count = joinCount s p.join + joinCount s tok.join + n := by
  obtain ⟨hjoins, hnext⟩ := he
  have hown : tok.join = none ∨ j ≠ s.nextJoin := hr.own.elim (fun h => .inr (Nat.ne_of_lt (hlisted j (.inl h)).1)) fun h => .inl h.1
  have hjr : j ≠ r.nextJoin := hr.nextJoin hown
  have hsome : (kfind j r.joins).isSome = true := hr.isSome fun i hi => (hlisted i (.inl hi)).2
  have hpj : ∀ i, p.join = some i → i ≠ j ∧ i ≠ s.nextJoin := by
    intro i hi
    have hlt := (hlisted i (.inr hi)).1
    refine ⟨fun hij => ?_, Nat.ne_of_lt hlt⟩
    subst hij
    rcases hr.own with h | ⟨-, h⟩
    · simp [h, hi] at hne
    · omega
  have hkind : ∀ i, p.join = some i → kfind i e.joins = kfind i s.joins := fun i hi => by
    rw [hjoins, kfind_addJoin_ne _ _ (hpj i hi).1, hr.kfind_ne (hpj i hi).2]
  have hqj : q ≠ j := by
    rcases hv.own with h | ⟨-, h⟩
    · exact (hpj q h).1
    · rw [h, hnext]; exact hjr.symm
  have hq : (kfind q v.joins).isSome = true := hv.isSome fun i hi => by rw [hkind i hi]; exact (hlisted i (.inr hi)).2
  have hcount : (joinObj v j).count = joinCount s tok.join + n := by
    rw [joinObj_of_kfind (hv.kfind_ne (hnext ▸ hjr)), joinObj_of_kfind (congrArg (kfind j) hjoins), joinObj_addJoin_same n hsome, ← hr.count]
  have hpcount : joinCount e p.join = joinCount s p.join := by
    cases hp : p.join with
    | none => rfl
    | some i => rw [joinCount_some, joinCount_some, joinObj_of_kfind (hkind i hp)]
  rw [joinObj_forwarded hqj hq, hv.count, hcount, hpcount, Nat.add_assoc]

/-- The current path ejected and a lower token's pending lanes running (R37). -/
theorem agedOut_spec {lower upper : List Token} {p tok : Token} {r : State} {j : Nat} (ht : w.tokens = lower ++ p :: (upper ++ [tok]))
    (hr : TopJoin (s.setWave k w.settle) k w.settle (lower ++ p :: upper) tok r j) (hg : (s.group? (gidOf k)).isSome = true)
    (hp : pendOf w p ≠ 0) (hup : ∀ x ∈ upper ++ [tok], pendOf w x = 0) (ps : List BlockPlace) :
    ∃ y q ts, (agedOut s r j k w ps).wave? k = some (runTop y lower p q) ∧ y = { w.settle with tokens := y.tokens, path := y.path } ∧
      ((agedOut s r j k w ps).core (coreOf s k)).pathChanges = (s.core (coreOf s k)).pathChanges + 1 ∧
      (∀ i, i ≠ k → (agedOut s r j k w ps).wave? i = s.wave? i) ∧ (agedOut s r j k w ps).threads = s.threads ++ ts ∧
      ts.map (·.info.originLane) = lanesOf w.path ∧ (∀ t ∈ ts, Continues w k w.pc j t) ∧
      (upper = [] → tok.join.isNone = true ∨ tok.join ≠ p.join →
        (∀ y, tok.join = some y ∨ p.join = some y → y < s.nextJoin ∧ (kfind y s.joins).isSome = true) →
        (joinObj (agedOut s r j k w ps) q).count = joinCount s p.join + joinCount s tok.join + popMask w.path) := by
  have hrframe : (addJoin r j (popMask w.path)) = { s with waves := r.waves, joins := (addJoin r j (popMask w.path)).joins, nextJoin := r.nextJoin } :=
    congrArg (fun t => addJoin t j (popMask w.path)) hr.frame
  obtain ⟨ts, hleft, hlanes, hcont⟩ := ejectLanes_left (s := addJoin r j (popMask w.path)) hr.wave (by rw [hrframe]; exact hg) w.path w.pc j ps
  unfold agedOut
  generalize ejectLanes (addJoin r j (popMask w.path)) k w.path w.pc j ps = e at hleft ⊢
  have hmask : ∀ x ∈ upper ++ [{ tok with join := some j }], pendOf w x = 0 := fun x hx => by
    rcases List.mem_append.1 hx with hx | hx
    · exact hup x (by simp [hx])
    · obtain rfl := List.mem_singleton.1 hx
      exact hup tok (by simp)
  obtain ⟨t, q, hrun, hothers, ⟨ws, js, m, hframe⟩, hone⟩ := popToPending_spec (lower := lower) (p := p) upper (n := w.tokens.length + 1)
    hleft.wave (by simp) hp hmask rfl (by simp [ht]; omega)
  have hthreads : e.threads = s.threads ++ ts := by rw [hleft.frame, hrframe]
  rw [hrun]
  refine ⟨_, q, ts, wave?_setWave_same _ _ _, rfl, ?_, fun i hi => ?_, ?_, hlanes, hcont, fun hnil hne hlisted => ?_⟩
  · have hcore : ∀ x, (t.setWave k x).core (coreOf s k) = e.core (coreOf s k) := fun _ => by rw [hframe]; rfl
    rw [core_changedPath, if_pos rfl, hcore]
    refine congrArg (· + 1) ((hleft.changes _).trans ?_)
    rw [hrframe]
    rfl
  · exact (wave?_setWave_ne _ hi _).trans ((hothers i hi).trans ((hleft.others i hi).trans ((hr.others i hi).trans (wave?_setWave_ne _ hi _))))
  · rw [← hthreads, hframe]
    rfl
  · subst hnil
    obtain ⟨v, hv, rfl⟩ := hone rfl
    refine joinObj_popped (s := s.setWave k w.settle) hr ?_ hv hne hlisted
    exact ⟨(congrArg State.joins hleft.frame :), (congrArg State.nextJoin hleft.frame :)⟩

end Ageing

/-! ### A queue of claims -/

theorem claimServed_eq {s : State} {c : Nat} (h : s.input.who = c) :
    exec .claimServed s = .next (serveClaims c ((s.core c).claims.length + 1) s) := by
  subst h
  rfl

theorem input_modWave (s : State) (k : Nat) (f : Wave → Wave) : (s.modWave k f).input = s.input := rfl
theorem input_modCore (s : State) (c : Nat) (f : Core → Core) : (s.modCore c f).input = s.input := rfl

/-- A queue whose head has been served and left. -/
theorem claims_servedHead (s : State) (c k n : Nat) (q : List Nat) : ((servedHead s c k n q).core c).claims = q := by
  rw [servedHead, claimDone_eq]
  simp

/-- The head served: its wave has the registers and goes on, its group has given them; no other wave changes (R26, R28). -/
theorem servedHead_wave {s : State} {k n : Nat} {w : Wave} {g : Group} (hw : s.wave? k = some w) (hg : s.group? (gidOf k) = some g) (c : Nat)
    (q : List Nat) : (servedHead s c k n q).wave? k = some (claimedWave s.cycle (withRegs n w)) ∧
      (∀ j, j ≠ k → (servedHead s c k n q).wave? j = s.wave? j) ∧ (servedHead s c k n q).group? (gidOf k) = some (gaveRegs n g) ∧
      (servedHead s c k n q).input = s.input := by
  rw [servedHead, claimDone_eq, serveClaim_eq hw hg]
  refine ⟨?_, fun j hj => ?_, ?_, ?_⟩
  · rw [wave?_modWave_same, wave?_modCore, wave?_modCore, wave?_setWave_same, Option.map_some]
    exact congrArg (fun n => some (claimedWave n _)) rfl
  · simp [hj]
  · rw [group?_modWave]
    simp
  · rw [input_modWave, input_modCore, input_modCore]
    rfl

/-- Settles O43: an ageing quantum by what is pending, the queue of claims by whether its head fits. -/
theorem ageingStarvationAndClaims : Obligations.AgeingStarvationAndClaims := by
  unfold Obligations.AgeingStarvationAndClaims
  refine ⟨fun s k w h hwait ha => ⟨fun tok rest ht hp => ?swap, ageingQuantum_restarts h hwait ha, fun lower p upper tok ht hp hup => ?below⟩,
    fun s k w h ha => ageingQuantum_early h ha, fun s k w h hwait hcls hun => ?starve, fun s c hc hnil => ?none, fun s => ⟨_, claimServed_eq rfl⟩,
    fun s c k q n stamp w g hc hq hw hg hwait hclaim => ⟨fun hn => ?held, fun hn => ?fits⟩⟩
  case swap =>
    refine ⟨_, runPending w tok w.path, ageingQuantum_swaps h hwait ha (top?_append ht) hp, wave?_setWave_same _ _ _, rfl, rfl, ?_, rfl,
      sameRegs_of rfl rfl rfl, fun j hj => wave?_setWave_ne _ hj _, rfl, fun c => core_changedPath _ _ _⟩
    simp [runPending, Wave.setTop, Wave.settle, ht]
  case below =>
    have htop : w.top? = some tok := top?_append (rest := lower ++ p :: upper) (by simp [ht])
    have hall : w.tokens.all (fun x => pendOf w x == 0) = false := by
      rw [List.all_eq_false]
      exact ⟨p, by simp [ht], by simpa [pendOf] using hp⟩
    have hexec := ageingQuantum_below h hwait ha htop (hup tok (by simp)) hall
    refine ⟨fun hg => ?_, fun m hg => ?_, fun ps hg hgroup => ?_⟩
    · rw [hexec, hg]
    · rw [hexec, hg]
    · obtain ⟨r, j, hr, htj⟩ := topJoin_top (wave?_setWave_same s k w.settle) (rest := lower ++ p :: upper) (tok := tok) (by simp [ht, Wave.settle])
      obtain ⟨y, q, ts, hwave, hy, hchanges, hothers, hthreads, hlanes, hcont, hcount⟩ := agedOut_spec ht htj hgroup hp hup ps
      rw [hg, hr] at hexec
      refine ⟨agedOut s r j k w ps, runTop y lower p q, ts, j, q, 0, hexec, hwave, ?_, rfl, rfl, sameRegs_of ?_ ?_ ?_, ?_, htj.own, hchanges, hothers,
        hthreads, hlanes, hcont, hcount⟩
      all_goals rw [hy]
      · rfl
      · rfl
      · rfl
      · rfl
      · simp [runTop, runPending, Wave.setTop, Wave.settle]
  case starve =>
    refine (onWaiter_named h _ _).trans (congrArg _ ((if_pos ?_).trans ?_))
    · simp [hwait, h.who, hcls, hun]
    · rw [h.who]
  case none => rw [claimServed_eq hc, serveClaims_empty hnil]
  case held =>
    have hfits : claimFits s c k ((w.claim.map (·.1)).getD 0) = false := by
      rw [Bool.eq_false_iff, ne_eq, claimFits_iff hg]
      simpa [hclaim] using hn
    rw [claimServed_eq hc, serveClaims_held hq hw hfits]
  case fits =>
    obtain ⟨hwave, hothers, hgroup, hinput⟩ := servedHead_wave (n := n) hw hg c q
    have hclaims := claims_servedHead s c k n q
    have hserved : exec .claimServed s = exec .claimServed (servedHead s c k n q) := by
      rw [claimServed_eq hc, claimServed_eq (hinput ▸ hc), serveClaims_fits hq hw (by simp [hclaim]) ((claimFits_iff hg c n).2 hn), hq, hclaims]
      rfl
    refine ⟨_, _, hserved, fun hnil => ?_, hinput, hothers, hwave, ?_, ?_, ?_, ?_, ?_, ?_, fun r l hl => ?_, hclaims, _, hgroup, rfl⟩
    · rw [hserved, claimServed_eq (hinput ▸ hc), serveClaims_empty (hclaims.trans hnil)]
    · rfl
    · rfl
    · rfl
    · rfl
    · rfl
    · rfl
    · exact rdV_keepBelow rfl r hl

end Sys2Proof.Laws
end
section
/-! PROOF. `reg.claim` and `reg.give` (R26 to R29, R239): what serving at once, queueing and giving leave. -/

namespace Sys2Proof.Laws

open Sys2Proof.Machine

/-! ### The waits of the waves -/

/-- The current wave, and what each wave waits for, as they were. -/
structure WaitsKept (s t : State) : Prop where
  cur : t.cur = s.cur
  waits : ∀ j, (t.wave? j).map (·.wait) = (s.wave? j).map (·.wait)

section WaitsKept

variable {s t u : State}

theorem WaitsKept.refl (s : State) : WaitsKept s s := ⟨rfl, fun _ => rfl⟩
theorem WaitsKept.trans (h : WaitsKept s t) (h2 : WaitsKept t u) : WaitsKept s u :=
  ⟨h2.cur.trans h.cur, fun j => (h2.waits j).trans (h.waits j)⟩

theorem WaitsKept.of_waves (hc : t.cur = s.cur) (hw : t.waves = s.waves) : WaitsKept s t := ⟨hc, fun j => by simp only [State.wave?, hw]⟩

theorem MemIO.waitsKept (h : MemIO s t) : WaitsKept s t := .of_waves h.cur h.waves

theorem WaitsKept.foldl {α : Type} {f : State → α → State} (h : ∀ s x, WaitsKept s (f s x)) (xs : List α) (s : State) :
    WaitsKept s (xs.foldl f s) := by
  induction xs generalizing s with
  | nil => exact .refl s
  | cons x xs ih => exact (h s x).trans (ih _)

/-- A wave that waits for anything but a claim does so still. -/
theorem WaitsKept.no_claim (h : WaitsKept s t) {k : Nat} {w : Wave} (hw : s.wave? k = some w) (hwait : w.wait ≠ .claim) :
    ∀ x, t.wave? k = some x → x.wait ≠ .claim := by
  intro x hx hclaim
  have hkept := h.waits k
  rw [hx, hw] at hkept
  exact hwait ((Option.some.inj hkept).symm.trans hclaim)

theorem waitsKept_modWave (s : State) (k : Nat) {f : Wave → Wave} (hf : ∀ w, (f w).wait = w.wait) : WaitsKept s (s.modWave k f) := by
  refine ⟨rfl, fun j => ?_⟩
  rw [wave?_modWave]
  split
  · subst j
    cases s.wave? k <;> simp [hf]
  · rfl

theorem waitsKept_failHelper (s : State) (k : Nat) : WaitsKept s (failHelper s k) := waitsKept_modWave s k fun _ => rfl

theorem waitsKept_modTask (s : State) (q : Nat) (f : Task → Task) : WaitsKept s (s.modTask q f) := ⟨rfl, fun _ => rfl⟩
theorem waitsKept_modGroup (s : State) (g : Nat) (f : Group → Group) : WaitsKept s (s.modGroup g f) := ⟨rfl, fun _ => rfl⟩

/-- Waves changed all over the machine that keep their waits. -/
theorem waitsKept_mapWaves {f : Nat × Wave → Nat × Wave} (hc : t.cur = s.cur) (hw : t.waves = s.waves.map f)
    (hf : ∀ q, (f q).1 = q.1 ∧ (f q).2.wait = q.2.wait) : WaitsKept s t := by
  refine ⟨hc, fun j => ?_⟩
  simp only [State.wave?, hw]
  induction s.waves with
  | nil => rfl
  | cons q r ih =>
    obtain ⟨hkey, hwait⟩ := hf q
    simp only [List.map_cons, kfind, hkey]
    split
    · simp [hwait]
    · exact ih

theorem waitsKept_stowGroup (s : State) (g : Nat) (p : Place) : WaitsKept s (stowGroup s g p) := by
  unfold stowGroup
  split
  · exact .refl s
  · refine WaitsKept.trans ?_ (memIO_writeImage _ _ _ _ _).waitsKept
    split
    · exact waitsKept_mapWaves rfl rfl fun q => by split <;> exact ⟨rfl, rfl⟩
    · exact waitsKept_mapWaves rfl rfl fun q => by split <;> exact ⟨rfl, rfl⟩

theorem waitsKept_stowContinuations (s : State) (g : Nat) : WaitsKept s (stowContinuations s g) :=
  .foldl (f := fun t (q : Nat × Group) => stowGroup t q.1 .saved) (fun t q => waitsKept_stowGroup t q.1 .saved) _ s

/-- The families that a parked group counts in, added to one after another, and those in which the update was made (R290). -/
def faultsAdded (s : State) (g : Nat) (x : Group) : State × List Nat :=
  (faultFamilies s g).foldl (fun a f =>
    let u := familyUpdate a.1 (x.ring.getD 0) x.tenant f (famAddFaults 1) (famRecord x g)
    (u.1, if u.2 then a.2 ++ [f] else a.2)) (s, [])

theorem waitsKept_faultsAdded (s : State) (g : Nat) (x : Group) : WaitsKept s (faultsAdded s g x).1 :=
  List.foldlRecOn (motive := fun a : State × List Nat => WaitsKept s a.1) _ _ (.refl s) fun _ ha _ _ =>
    ha.trans (memIO_familyUpdate _ _ _ _ _ _).waitsKept

theorem waitsKept_countFaults (s : State) (g : Nat) : WaitsKept s (countFaults s g) := by
  unfold countFaults
  split
  · exact .refl s
  · next x _ =>
    refine WaitsKept.trans (waitsKept_faultsAdded s g x) ?_
    dsimp only
    split
    · exact waitsKept_modGroup _ _ _
    · split
      · exact waitsKept_modGroup _ _ _
      · refine WaitsKept.trans ?_ (waitsKept_modGroup _ _ _)
        refine WaitsKept.trans ?_ (waitsKept_modTask _ _ _)
        refine WaitsKept.trans ?_ (memIO_familyUpdate _ _ _ _ _ _).waitsKept
        exact waitsKept_modGroup _ _ _

theorem waitsKept_parkFaulted (s : State) (k : Nat) (cause : Cause) (pc : Word) (len : Nat) (fetch : Bool) :
    WaitsKept s (parkFaulted s k cause pc len fetch) := by
  refine .foldl (fun s g => ?_) _ s
  refine WaitsKept.trans ?_ (waitsKept_modGroup _ _ _)
  refine WaitsKept.trans ?_ (waitsKept_countFaults _ _)
  refine WaitsKept.trans ((waitsKept_stowGroup s g (.faulted cause)).trans (waitsKept_stowContinuations _ g)) ?_
  split
  · split
    · exact (waitsKept_failHelper _ _).trans (waitsKept_modGroup _ _ _)
    · exact .refl _
  · exact .refl _

/-- An exception that does not restart its group leaves every wave in the wait it was in (R289). -/
theorem waitsKept_takeTrap (s : State) (k len : Nat) {t : Trap} (h : t.cause ≠ .eccUncorrectable) : WaitsKept s (takeTrap s k len t) := by
  unfold takeTrap takeTrapAt
  split
  · rw [if_neg fun hc => h hc.1]
    exact (memIO_errorRecord _ _ _).waitsKept.trans (waitsKept_parkFaulted _ _ _ _ _ _)
  · exact .refl s

end WaitsKept

/-! ### Reading the state that an instruction enters -/

section Entry

variable {sp : Spec} {s : State} {k : Nat} {w : Wave}

/-- An instruction with lanes active has its effect on the entry state (R148). -/
theorem issue_active (h : Clear sp s k w) {hd : Hd} (ha : activeOf w hd.mask ≠ 0) (body : State → Nat → Wave → Res) :
    issue sp (whenActive hd body) s = .next (finish sp s k w (body (entryState sp s k w) k (entryWave sp s w))) := by
  rw [issue_clear h, whenActive, activeOf_entry, if_neg ha]

theorem group?_entry (sp : Spec) (s : State) (k : Nat) (w : Wave) (g : Nat) : (entryState sp s k w).group? g = s.group? g := by
  rw [entryState_rest]; rfl
theorem coreOf_entry (sp : Spec) (s : State) (k : Nat) (w : Wave) (j : Nat) : coreOf (entryState sp s k w) j = coreOf s j := by
  simp only [coreOf, group?_entry]
theorem claims_entry (sp : Spec) (s : State) (k : Nat) (w : Wave) (c : Nat) : ((entryState sp s k w).core c).claims = (s.core c).claims := by
  rw [entryState_core]
theorem ns_entry (sp : Spec) (s : State) (k : Nat) (w : Wave) : (entryState sp s k w).ns = s.time / 2 ^ 32 := by rw [entryState_rest]; rfl
theorem cur_entry (sp : Spec) (s : State) (k : Nat) (w : Wave) : (entryState sp s k w).cur = s.cur := by rw [entryState_rest]
theorem entryWave_evicted (sp : Spec) (s : State) (w : Wave) : (entryWave sp s w).evicted = w.evicted := by unfold entryWave; split <;> rfl
theorem entryWave_wait (sp : Spec) (s : State) (w : Wave) : (entryWave sp s w).wait = w.wait := by unfold entryWave; split <;> rfl

theorem cur_modWave (s : State) (k : Nat) (f : Wave → Wave) : (s.modWave k f).cur = s.cur := rfl
theorem cur_modCore (s : State) (c : Nat) (f : Core → Core) : (s.modCore c f).cur = s.cur := rfl
theorem cur_setWave (s : State) (k : Nat) (w : Wave) : (s.setWave k w).cur = s.cur := rfl
theorem cur_setGroup (s : State) (g : Nat) (x : Group) : (s.setGroup g x).cur = s.cur := rfl
theorem cycle_setWave (s : State) (k : Nat) (w : Wave) : (s.setWave k w).cycle = s.cycle := rfl
theorem cycle_setGroup (s : State) (g : Nat) (x : Group) : (s.setGroup g x).cycle = s.cycle := rfl
theorem groups_modWave (s : State) (k : Nat) (f : Wave → Wave) : (s.modWave k f).groups = s.groups := rfl
theorem groups_modCore (s : State) (c : Nat) (f : Core → Core) : (s.modCore c f).groups = s.groups := rfl

/-! ### The free registers of a core -/

/-- A sum over the waves of a group stands when a wave that adds nothing to it is replaced by another that adds nothing. -/
theorem sum_kset {α : Type} (p : Nat → Bool) (f : α → Nat) {v v' : α} (hv : f v = 0) (hv' : f v' = 0) (m : List (Nat × α)) (hm : kfind k m = some v) :
    (((kset k v' m).filter (fun q => p q.1)).map (fun q => f q.2)).sum = ((m.filter (fun q => p q.1)).map (fun q => f q.2)).sum := by
  induction m with
  | nil => simp at hm
  | cons q r ih =>
    obtain ⟨a, b⟩ := q
    simp only [kset]
    by_cases ha : a = k
    · subst ha
      obtain rfl : b = v := by simpa [kfind] using hm
      cases hp : p a <;> simp [hp, hv, hv']
    · have hr : kfind k r = some v := by simpa [kfind, ha] using hm
      by_cases hlt : a < k
      · cases hp : p a <;> simp [hlt, hp, ih hr]
      · cases hp : p k <;> simp [hlt, ha, hp, hv']

/-- The registers that no group reserves are as before an instruction of a wave that is on its core (R26). -/
theorem freeRegs_entry (hw : s.wave? k = some w) (he : w.evicted = false) (c : Nat) : freeRegs (entryState sp s k w) c = freeRegs s c := by
  have hgroups : (entryState sp s k w).groups = s.groups := (congrArg State.groups (entryState_rest sp s k w) :)
  have hwaves : (entryState sp s k w).waves = kset k (entryWave sp s w) s.waves := by unfold entryState; split <;> rfl
  have hevicted (g : Nat) : evictedRegs (entryState sp s k w) g = evictedRegs s g := by
    simp only [evictedRegs, State.wavesOf, hwaves]
    exact sum_kset (fun i => decide (gidOf i = g)) (fun x => if x.evicted then x.regCount - x.heldRegs else 0) (v := w)
      (v' := entryWave sp s w) (by simp [he]) (by simp [he, entryWave_evicted]) s.waves hw
  simp only [freeRegs, residents, hgroups, hevicted]

end Entry

/-! ### reg.claim -/

/-- A count that is no multiple of 8, or that leaves a wave a count out of range (R26). -/
theorem claimBad_bad {n : Nat} {count : Int} (h : n % 8 ≠ 0 ∨ count < 8 ∨ 1536 < count) :
    claimBad n count = some { cause := .regRange, info0 := 0, info1 := w64 n } := if_pos h
theorem claimBad_good {n : Nat} {count : Int} (h8 : n % 8 = 0) (hlo : 8 ≤ count) (hhi : count ≤ 1536) : claimBad n count = none :=
  if_neg (by omega)

section Claim

variable {f : RegClF} {s : State} {k : Nat} {w : Wave}

/-- A result in which the current wave does not wait for a claim stands. -/
theorem afterClaim_stands (hcur : s.cur = some k) (h : ∀ w, s.wave? k = some w → w.wait ≠ .claim) : afterClaim (.next s) = .next s := by
  simp only [afterClaim, hcur]
  cases hw : s.wave? k with
  | none => rfl
  | some w => exact if_neg (h w hw)

/-- A claim that has queued looks for the deadlock, then parks an adopted owner of which nothing can run (log 89). -/
theorem afterClaim_queued (hcur : s.cur = some k) (hw : s.wave? k = some w) (h : w.wait = .claim) :
    afterClaim (.next s) = .next (parkBlockedOwner (settleClaims s (coreOf s k) (gidOf k)) k) := by
  simp only [afterClaim, hcur, hw]
  exact if_pos h

/-- An owner without a helper is not parked (R50). -/
theorem parkBlockedOwner_noHelper (h : NoHelper s k) : parkBlockedOwner s k = s := by
  simp only [parkBlockedOwner]
  cases hg : s.group? (originGroup s (gidOf k)) with
  | none => rfl
  | some g => simp only [h g hg]

/-- A claim with a bad count takes REG_RANGE. -/
theorem regClaim_bad (h : Clear (specM f.h 8 []) s k w) (ha : activeOf w f.h.mask ≠ 0) (hwait : w.wait = .none)
    (hn : f.n.toNat % 8 ≠ 0 ∨ w.regCount + f.n.toNat < 8 ∨ 1536 < w.regCount + f.n.toNat) :
    exec (.regClaim f) s = .next (takeTrap (entryState (specM f.h 8 []) s k w) k 8
      { cause := .regRange, info0 := 0, info1 := w64 f.n.toNat, lanes := some (activeOf w f.h.mask) }) := by
  have hbody : regClaimBody f (entryState (specM f.h 8 []) s k w) k (entryWave (specM f.h 8 []) s w) =
      .trap { cause := .regRange, info0 := 0, info1 := w64 f.n.toNat } (entryState (specM f.h 8 []) s k w) := by
    simp only [regClaimBody, entryWave_regCount]
    rw [claimBad_bad (by omega)]
  refine (congrArg afterClaim (issue_active h ha _)).trans ?_
  rw [hbody]
  have hkept := waitsKept_takeTrap (entryState (specM f.h 8 []) s k w) k 8
    (t := { cause := .regRange, info0 := 0, info1 := w64 f.n.toNat, lanes := some (activeOf w f.h.mask) }) (by simp)
  exact afterClaim_stands (hkept.cur.trans ((cur_entry ..).trans h.cur))
    (hkept.no_claim (entryState_wave ..) (by rw [entryWave_wait, hwait]; simp))

theorem bookWave_wait (sp : Spec) (cycle : Nat) (old : Wave) (adv : Bool) (w : Wave) : (bookWave sp cycle old adv w).wait = w.wait := rfl
@[simp] theorem bookWave_xa (sp : Spec) (cycle : Nat) (old : Wave) (adv : Bool) (w : Wave) : (bookWave sp cycle old adv w).xa = w.xa := rfl
@[simp] theorem bookWave_pc (sp : Spec) (cycle : Nat) (old : Wave) (w : Wave) : (bookWave sp cycle old true w).pc = w.pc + w64 sp.len := rfl
@[simp] theorem withRegs_pc (n : Nat) (w : Wave) : (withRegs n w).pc = w.pc := rfl
@[simp] theorem withRegs_xa (n : Nat) (w : Wave) : (withRegs n w).xa = w.xa := rfl
@[simp] theorem withRegs_s (n : Nat) (w : Wave) : (withRegs n w).s = w.s := rfl
@[simp] theorem withRegs_m (n : Nat) (w : Wave) : (withRegs n w).m = w.m := rfl
@[simp] theorem withRegs_v (n : Nat) (w : Wave) : (withRegs n w).v = w.v.filter (fun p => decide (p.1 / 32 < w.regCount)) := rfl
theorem withRegs_wait (n : Nat) (w : Wave) : (withRegs n w).wait = w.wait := rfl

/-- What serving at once leaves of a wave: its count of registers, and the registers it had. -/
theorem served_part {sp : Spec} {y : Wave} {n cycle : Nat} (he : w.evicted = false)
    (hy : y = bookWave sp cycle w true (withRegs n (entryWave sp s w))) : y = { wavePart w y with regCount := w.regCount + n } := by
  obtain ⟨x, hx⟩ : ∃ x, entryWave sp s w = wavePart w x := ⟨_, entryWave_part sp s w⟩
  have hcore : ¬ (wavePart w x).evicted = true := ne_true_of_eq_false he
  rw [hy, hx, withRegs, if_neg hcore]
  rfl

/-- A claim that fits behind an empty queue is served at its issue. -/
theorem regClaim_served {g : Group} (h : Clear (specM f.h 8 []) s k w) (ha : activeOf w f.h.mask ≠ 0) (hg : s.group? (gidOf k) = some g)
    (hwait : w.wait = .none) (he : w.evicted = false) (h8 : f.n.toNat % 8 = 0) (hlo : 8 ≤ w.regCount + f.n.toNat)
    (hhi : w.regCount + f.n.toNat ≤ 1536) (hq : (s.core (coreOf s k)).claims = []) (hfit : f.n.toNat ≤ g.budgetFree + freeRegs s (coreOf s k)) :
    exec (.regClaim f) s = .next (book (specM f.h 8 []) k (coreOf s k) w true
      (((entryState (specM f.h 8 []) s k w).setGroup (gidOf k) (gaveRegs f.n.toNat g)).setWave k (withRegs f.n.toNat (entryWave (specM f.h 8 []) s w)))) := by
  have hge := (group?_entry (specM f.h 8 []) s k w (gidOf k)).trans hg
  have hfits : claimFits (entryState (specM f.h 8 []) s k w) (coreOf s k) k f.n.toNat = true := by
    rw [claimFits_iff hge, freeRegs_entry h.wave he]
    exact hfit
  have hbody : regClaimBody f (entryState (specM f.h 8 []) s k w) k (entryWave (specM f.h 8 []) s w) =
      .ok (serveClaim (entryState (specM f.h 8 []) s k w) (coreOf s k) k f.n.toNat) := by
    simp only [regClaimBody, entryWave_regCount]
    rw [claimBad_good h8 (by omega) (by omega)]
    simp only [coreOf_entry, claims_entry, hq, hfits]
    rfl
  refine (congrArg afterClaim (issue_active h ha _)).trans ?_
  rw [hbody, serveClaim_eq (entryState_wave ..) hge]
  simp only [finish, book]
  refine afterClaim_stands (k := k) ?_ fun x hx => ?_
  · rw [cur_modCore, cur_modWave, cur_setWave, cur_setGroup, cur_entry, h.cur]
  simp only [wave?_modCore, wave?_modWave_same, wave?_setWave_same, Option.map_some, Option.some.injEq] at hx
  rw [← hx, bookWave_wait, withRegs_wait, entryWave_wait, hwait]
  simp

/-- A wave whose claim has queued. -/
def queuedState (s : State) (c k n : Nat) (a : Word) : State :=
  startWait ((queueClaim (s.modWave k (fun w => { w with claim := some (n, s.ns) })) c k s.ns).modCore c
    (fun x => { x with claimsQueued := x.claimsQueued + 1 })) k .claim a

theorem queuedState_wave {s : State} {k : Nat} {x : Wave} (hw : s.wave? k = some x) (c n : Nat) (a : Word) : (queuedState s c k n a).wave? k =
    some { x with claim := some (n, s.ns), wait := .claim, waitArg := a, unselected := 0, starved := false } := by
  simp [queuedState, startWait, queueClaim, hw, Wait.blocks]

theorem queuedState_group? (s : State) (c k n : Nat) (a : Word) (g : Nat) : (queuedState s c k n a).group? g = s.group? g := by
  simp only [queuedState, startWait, queueClaim, group?_modWave, group?_modCore]
theorem queuedState_cur (s : State) (c k n : Nat) (a : Word) : (queuedState s c k n a).cur = s.cur := by
  simp only [queuedState, startWait, queueClaim, cur_modWave, cur_modCore]
theorem queuedState_groups (s : State) (c k n : Nat) (a : Word) : (queuedState s c k n a).groups = s.groups := by
  simp only [queuedState, startWait, queueClaim, groups_modWave, groups_modCore]

theorem queuedState_queued (s : State) (c k n : Nat) (a : Word) : k ∈ ((queuedState s c k n a).core c).claims := by
  simp [queuedState, startWait, queueClaim]

/-- A claim that does not fit, or that finds others in the queue, queues its wave. -/
theorem regClaim_queued {g : Group} (h : Clear (specM f.h 8 []) s k w) (ha : activeOf w f.h.mask ≠ 0) (hg : s.group? (gidOf k) = some g)
    (he : w.evicted = false) (h8 : f.n.toNat % 8 = 0) (hlo : 8 ≤ w.regCount + f.n.toNat) (hhi : w.regCount + f.n.toNat ≤ 1536)
    (hq : (s.core (coreOf s k)).claims ≠ [] ∨ g.budgetFree + freeRegs s (coreOf s k) < f.n.toNat) (u : State)
    (hu : u = queuedState (entryState (specM f.h 8 []) s k w) (coreOf s k) k f.n.toNat (w64 f.h.stall.toNat)) :
    exec (.regClaim f) s = .next (parkBlockedOwner (settleClaims u (coreOf s k) (gidOf k)) k) := by
  have hge := (group?_entry (specM f.h 8 []) s k w (gidOf k)).trans hg
  have hfits : ((s.core (coreOf s k)).claims.isEmpty && claimFits (entryState (specM f.h 8 []) s k w) (coreOf s k) k f.n.toNat) = false := by
    rcases hq with hq | hq
    · simp [hq]
    · rw [Bool.and_eq_false_iff]
      right
      rw [Bool.eq_false_iff, ne_eq, claimFits_iff hge, freeRegs_entry h.wave he]
      omega
  have hbody : finish (specM f.h 8 []) s k w (regClaimBody f (entryState (specM f.h 8 []) s k w) k (entryWave (specM f.h 8 []) s w)) = u := by
    simp only [regClaimBody, entryWave_regCount]
    rw [claimBad_good h8 (by omega) (by omega)]
    simp only [coreOf_entry, claims_entry, hfits, hu]
    rfl
  refine (congrArg afterClaim (issue_active h ha _)).trans ?_
  rw [hbody]
  have hcore : coreOf u k = coreOf s k := by
    rw [hu, ← coreOf_entry (specM f.h 8 []) s k w k]
    simp only [coreOf, queuedState_group?]
  rw [afterClaim_queued (by rw [hu, queuedState_cur, cur_entry, h.cur]) (by rw [hu]; exact queuedState_wave (entryState_wave ..) _ _ _) rfl, hcore]

/-! ### reg.give -/

/-- A wave that has given its top registers into its group's budget (R26). -/
def gaveState (s : State) (k n : Nat) (w : Wave) : State :=
  (s.setWave k (giveRegs w (w.regCount - n))).modGroup (gidOf k) (fun g => { g with budgetFree := g.budgetFree + n })

theorem group?_gaveState (s : State) (k n : Nat) (w : Wave) :
    (gaveState s k n w).group? (gidOf k) = (s.group? (gidOf k)).map (fun g => { g with budgetFree := g.budgetFree + n }) := by
  rw [gaveState, group?_modGroup, if_pos rfl, group?_setWave]

theorem coreOf_gaveState (s : State) (k n : Nat) (w : Wave) : coreOf (gaveState s k n w) k = coreOf s k := by
  rw [coreOf, group?_gaveState, coreOf]
  cases s.group? (gidOf k) <;> rfl

/-- Giving with a bad count takes REG_RANGE. -/
theorem regGive_bad (h : Clear (specM f.h 8 []) s k w) (ha : activeOf w f.h.mask ≠ 0)
    (hn : f.n.toNat % 8 ≠ 0 ∨ w.regCount < f.n.toNat + 8 ∨ 1536 + f.n.toNat < w.regCount) :
    exec (.regGive f) s = .next (takeTrap (entryState (specM f.h 8 []) s k w) k 8
      { cause := .regRange, info0 := 0, info1 := w64 f.n.toNat, lanes := some (activeOf w f.h.mask) }) := by
  have hbody : regGiveBody f (entryState (specM f.h 8 []) s k w) k (entryWave (specM f.h 8 []) s w) =
      .trap { cause := .regRange, info0 := 0, info1 := w64 f.n.toNat } (entryState (specM f.h 8 []) s k w) := by
    simp only [regGiveBody, entryWave_regCount]
    rw [claimBad_bad (by omega)]
  exact (issue_active h ha _).trans (by rw [hbody]; rfl)

/-- Registers given go to the group's budget, and the queue of claims is served (R28). -/
theorem regGive_gives (h : Clear (specM f.h 8 []) s k w) (ha : activeOf w f.h.mask ≠ 0) (h8 : f.n.toNat % 8 = 0)
    (hlo : f.n.toNat + 8 ≤ w.regCount) (hhi : w.regCount ≤ 1536 + f.n.toNat) :
    exec (.regGive f) s = .next (book (specM f.h 8 []) k (coreOf s k) w true (settleClaims
      (gaveState (entryState (specM f.h 8 []) s k w) k f.n.toNat (entryWave (specM f.h 8 []) s w)) (coreOf s k) (gidOf k))) := by
  have hbody : regGiveBody f (entryState (specM f.h 8 []) s k w) k (entryWave (specM f.h 8 []) s w) =
      .ok (settleClaims (gaveState (entryState (specM f.h 8 []) s k w) k f.n.toNat (entryWave (specM f.h 8 []) s w)) (coreOf s k) (gidOf k)) := by
    have hgood : claimBad f.n.toNat ((entryWave (specM f.h 8 []) s w).regCount - f.n.toNat) = none := by
      rw [entryWave_regCount]
      exact claimBad_good h8 (by omega) (by omega)
    simp only [regGiveBody, hgood]
    rw [← coreOf_entry (specM f.h 8 []) s k w k, ← coreOf_gaveState (entryState (specM f.h 8 []) s k w) k f.n.toNat]
    rfl
  exact (issue_active h ha _).trans (by rw [hbody]; rfl)

end Claim

/-- Settles O37: a claim served at once, queued or refused, and registers given or refused. -/
theorem registerClaims : Obligations.RegisterClaims := by
  unfold Obligations.RegisterClaims
  refine ⟨fun f s k w g h ha hg hwait he => ⟨regClaim_bad h ha hwait, fun h8 hlo hhi hq hfit => ?served, fun h8 hlo hhi hq => ?queued⟩,
    fun f s k w h ha => ⟨regGive_bad h ha, fun h8 hlo hhi => ?gives⟩⟩
  case served =>
    have hs := entryState_rest (specM f.h 8 []) s k w
    refine ⟨_, bookWave (specM f.h 8 []) s.cycle w true (withRegs f.n.toNat (entryWave (specM f.h 8 []) s w)), gaveRegs f.n.toNat g,
      regClaim_served h ha hg hwait he h8 hlo hhi hq hfit, ?_, ?_, ?_, fun j hj => ?_, fun i hi => ?_, served_part he rfl, ?_, ?_, fun r l hl => ?_, ?_, ?_, rfl⟩
    · have hcycle : (entryState (specM f.h 8 []) s k w).cycle = s.cycle := by rw [hs]
      rw [book, wave?_modCore, wave?_modWave_same, wave?_setWave_same, Option.map_some, cycle_setWave, cycle_setGroup, hcycle]
    · rw [book, group?_modCore, group?_modWave, group?_setWave, group?_setGroup_same]
    · obtain ⟨ws, cs, hws⟩ : ∃ ws cs, entryState (specM f.h 8 []) s k w = { s with waves := ws, cores := cs } := ⟨_, _, hs⟩
      rw [hws]
      rfl
    · rw [book, wave?_modCore, wave?_modWave_ne _ hj, wave?_setWave_ne _ hj, wave?_setGroup, entryState_others _ _ _ hj]
    · rw [book, group?_modCore, group?_modWave, group?_setWave, group?_setGroup_ne _ hi, group?_entry]
    · rw [bookWave_pc, withRegs_pc, entryWave_pc]
      rfl
    · simp
    · rw [rdV_keepBelow (w := entryWave (specM f.h 8 []) s w) (n := w.regCount) (by simp) r hl, rdV_entry]
    · simp
    · simp
  case queued =>
    have hwave := queuedState_wave (entryState_wave (specM f.h 8 []) s k w) (coreOf s k) f.n.toNat (w64 f.h.stall.toNat)
    refine ⟨_, _, regClaim_queued h ha hg he h8 hlo hhi hq _ rfl, fun v => parkBlockedOwner_noHelper, hwave, rfl, ?_, ?_, ?_, queuedState_queued .., ?_⟩
    · simp only [ns_entry]
    · simp
    · simp
    · rw [queuedState_groups, entryState_rest]
  case gives =>
    refine ⟨_, giveRegs (entryWave (specM f.h 8 []) s w) (w.regCount - f.n.toNat), regGive_gives h ha h8 hlo hhi, ?_, rfl,
      fun r l hl => ?_, ?_, ?_, ?_, fun j hj => ?_, ?_⟩
    · rw [gaveState, wave?_modGroup, wave?_setWave_same, entryWave_regCount]
    · exact (rdV_keepBelow (w := entryWave (specM f.h 8 []) s w) rfl r hl).trans (by rw [rdV_entry])
    · exact entryWave_s ..
    · exact entryWave_m ..
    · obtain ⟨ws, cs, hws⟩ : ∃ ws cs, entryState (specM f.h 8 []) s k w = { s with waves := ws, cores := cs } := ⟨_, _, entryState_rest ..⟩
      rw [hws]
      rfl
    · rw [gaveState, wave?_modGroup, wave?_setWave_ne _ hj, entryState_others _ _ _ hj]
    · rw [group?_gaveState, group?_entry]

end Sys2Proof.Laws
end
section
/-! SUPPORT. Bytes, values and the walker's marks: what a store leaves at each place, and what an access leaves in the tables it passes (R4, R64). -/

namespace Sys2Proof.Laws

open Sys2Proof.Machine

/-! ### Little-endian values -/

@[simp] theorem length_leBytes (n v : Nat) : (leBytes n v).length = n := by
  induction n generalizing v with
  | zero => rfl
  | succ n ih => simp [leBytes, ih]

theorem leNat_leBytes (n v : Nat) : leNat (leBytes n v) = v % 256 ^ n := by
  induction n generalizing v with
  | zero => simp [leBytes, leNat, Nat.mod_one]
  | succ n ih => rw [leBytes, leNat, ih, BitVec.toNat_ofNat, show 2 ^ 8 = 256 from rfl, pow_succ', Nat.mod_mul]

theorem getD_leBytes {n i : Nat} (h : i < n) (v : Nat) : (leBytes n v).getD i 0 = BitVec.ofNat 8 (v / 256 ^ i) := by
  induction n generalizing v i with
  | zero => omega
  | succ n ih =>
    cases i with
    | zero => simp [leBytes]
    | succ i => rw [leBytes, List.getD_cons_succ, ih (by omega), Nat.div_div_eq_div_mul, pow_succ']

/-- A byte of the value that some bytes make. -/
theorem byte_leNat (bs : List Byte) {i : Nat} (h : i < bs.length) : BitVec.ofNat 8 (leNat bs / 256 ^ i) = bs.getD i 0 := by
  induction bs generalizing i with
  | nil => simp at h
  | cons b r ih =>
    have hb : b.toNat < 256 := b.isLt
    cases i with
    | zero =>
      apply BitVec.eq_of_toNat_eq
      simp [leNat]
      omega
    | succ i =>
      have hdiv : leNat (b :: r) / 256 = leNat r := by rw [leNat]; omega
      rw [pow_succ', ← Nat.div_div_eq_div_mul, hdiv, ih (by simpa using h), List.getD_cons_succ]

/-! ### Stores -/

theorem cell_plus (l : Loc) (n : Nat) : (l.plus n).cell = (l.cell.1, l.cell.2 + n) := by
  cases l <;> simp [Loc.plus, Loc.cell, peerKey, Nat.add_assoc]

theorem here_plus (l : Loc) (n : Nat) (s : State) : (l.plus n).here s = l.here s := by cases l <;> rfl

/-- A store makes no local store come or go. -/
theorem here_wrByte (s : State) (l m : Loc) (b : Byte) : m.here (wrByte s l b) = m.here s := by
  cases m with
  | ls g o =>
    cases l with
    | ls g' o' =>
      simp only [Loc.here, wrByte, group?_modGroup]
      split
      · subst g; simp
      · rfl
    | _ => rfl
  | _ => rfl

/-- A byte after a store: of the bytes stored, or as it was. -/
theorem rdByte_wrBytes {s : State} {l : Loc} (hl : l.here s = true) (bs : List Byte) (m : Loc) : rdByte (wrBytes s l bs) m =
    if m.cell.1 = l.cell.1 ∧ l.cell.2 ≤ m.cell.2 ∧ m.cell.2 < l.cell.2 + bs.length then bs.getD (m.cell.2 - l.cell.2) 0 else rdByte s m := by
  induction bs generalizing s l with
  | nil => rw [if_neg (by simp)]; rfl
  | cons b r ih =>
    rw [wrBytes, ih (by rw [here_plus, here_wrByte, hl]), cell_plus, rdByte_wrByte _ _ _ _ hl]
    simp only [List.length_cons, Prod.ext_iff]
    by_cases h1 : m.cell.1 = l.cell.1
    · by_cases h2 : m.cell.2 = l.cell.2
      · simp [h1, h2]
      · by_cases h3 : l.cell.2 + 1 ≤ m.cell.2 ∧ m.cell.2 < l.cell.2 + 1 + r.length
        · obtain ⟨i, hi⟩ : ∃ i, m.cell.2 - l.cell.2 = i + 1 := ⟨m.cell.2 - l.cell.2 - 1, by omega⟩
          rw [if_pos ⟨h1, h3⟩, if_pos (by omega), hi, List.getD_cons_succ]
          congr 1
          omega
        · rw [if_neg (by omega), if_neg (by omega), if_neg (by omega)]
    · simp [h1]

theorem rdByte_wrN {s : State} {l : Loc} (hl : l.here s = true) (n v : Nat) (m : Loc) : rdByte (wrN s l n v) m =
    if m.cell.1 = l.cell.1 ∧ l.cell.2 ≤ m.cell.2 ∧ m.cell.2 < l.cell.2 + n then BitVec.ofNat 8 (v / 256 ^ (m.cell.2 - l.cell.2)) else rdByte s m := by
  rw [wrN, rdByte_clearPoison, rdByte_wrBytes hl, length_leBytes]
  by_cases h : m.cell.1 = l.cell.1 ∧ l.cell.2 ≤ m.cell.2 ∧ m.cell.2 < l.cell.2 + n
  · rw [if_pos h, if_pos h, getD_leBytes (by omega)]
  · rw [if_neg h, if_neg h]

theorem rdByte_wrN_outside {s : State} {l m : Loc} {n : Nat} (hl : l.here s = true) (v : Nat) (h : m.outside [(l, n)]) :
    rdByte (wrN s l n v) m = rdByte s m := by
  rw [rdByte_wrN hl, if_neg]
  rintro ⟨h1, h2, h3⟩
  refine h (l, n) (by simp) (m.cell.2 - l.cell.2) (by simp; omega) ?_
  rw [cell_plus]
  exact Prod.ext h1 (by simp; omega)

/-- Values are equal where their bytes are. -/
theorem rdN_congr {s t : State} {l : Loc} {n : Nat} (h : ∀ i, i < n → rdByte t (l.plus i) = rdByte s (l.plus i)) : rdN t l n = rdN s l n := by
  simp only [rdN, rdBytes]
  exact congrArg leNat (List.map_congr_left fun i hi => h i (List.mem_range.1 hi))

theorem leNat_lt (bs : List Byte) : leNat bs < 256 ^ bs.length := by
  induction bs with
  | nil => simp [leNat]
  | cons b r ih =>
    have hb : b.toNat < 256 := b.isLt
    rw [leNat, List.length_cons, pow_succ']
    omega

theorem rdN_lt (s : State) (l : Loc) (n : Nat) : rdN s l n < 256 ^ n := by
  have hlen : (rdBytes s l n).length = n := by simp [rdBytes]
  exact (leNat_lt _).trans_eq (by rw [hlen])

theorem rdN_wrN_same {s : State} {l : Loc} (hl : l.here s = true) (n v : Nat) : rdN (wrN s l n v) l n = v % 256 ^ n := by
  rw [← leNat_leBytes, rdN, rdBytes]
  refine congrArg leNat (List.ext_getElem (by simp) fun i hi _ => ?_)
  have hn : i < n := by simpa using hi
  rw [List.getElem_eq_getD (l := leBytes n v) 0, getD_leBytes hn]
  simp only [List.getElem_map, List.getElem_range]
  rw [rdByte_wrN hl, cell_plus, if_pos (by simp [hn])]
  simp

theorem rdN_wrN_word {s : State} {l : Loc} (hl : l.here s = true) {v : Nat} (hv : v < 2 ^ 64) : rdN (wrN s l 8 v) l 8 = v := by
  rw [rdN_wrN_same hl, show 256 ^ 8 = 2 ^ 64 from rfl, Nat.mod_eq_of_lt hv]

/-- A value in places apart from a store stands. -/
theorem rdN_wrN_apart {s : State} {l m : Loc} {n k : Nat} (hl : l.here s = true) (v : Nat)
    (h : m.cell.1 = l.cell.1 → m.cell.2 + k ≤ l.cell.2 ∨ l.cell.2 + n ≤ m.cell.2) : rdN (wrN s l n v) m k = rdN s m k := by
  refine rdN_congr fun i hi => ?_
  rw [rdByte_wrN hl, cell_plus, if_neg]
  rintro ⟨h1, h2, h3⟩
  have := h h1
  omega

/-! ### The walker's marks -/

/-- What an access may leave in external memory: of the entries listed the A and D bits set, every other byte as it was; and a translation
remembered. Nothing else (R64, R65). -/
structure Touched (marks : List Nat) (s t : State) : Prop where
  rest : t = { s with ext := t.ext, tlb := t.tlb }
  bytes : ∀ a, ∃ b ∈ [0x00#8, 0x20#8, 0x40#8, 0x60#8], rdByte t (.ext a) = rdByte s (.ext a) ||| b ∧ (a ∉ marks → b = 0)

/-- The marks of two accesses make one of the four. -/
theorem or_marks {b c : Byte} (hb : b ∈ [0x00#8, 0x20#8, 0x40#8, 0x60#8]) (hc : c ∈ [0x00#8, 0x20#8, 0x40#8, 0x60#8]) :
    b ||| c ∈ [0x00#8, 0x20#8, 0x40#8, 0x60#8] := by
  have all : ∀ b ∈ [0x00#8, 0x20#8, 0x40#8, 0x60#8], ∀ c ∈ [0x00#8, 0x20#8, 0x40#8, 0x60#8], b ||| c ∈ [0x00#8, 0x20#8, 0x40#8, 0x60#8] := by decide
  exact all b hb c hc

section Touched

variable {marks : List Nat} {s t u : State}

theorem Touched.of_ext (h : t = { s with tlb := t.tlb }) : Touched marks s t := by
  refine ⟨by rw [h], fun a => ⟨0, by simp, ?_, fun _ => rfl⟩⟩
  rw [h]
  simp [rdByte]

/-- Where only external memory differs, what the two have in common. -/
theorem rest_of_ext (h : t = { s with ext := t.ext }) : t = { s with ext := t.ext, tlb := t.tlb } := by rw [h]

theorem Touched.refl (marks : List Nat) (s : State) : Touched marks s s := .of_ext rfl

theorem Touched.trans (h : Touched marks s t) (h2 : Touched marks t u) : Touched marks s u := by
  refine ⟨by rw [h2.rest, h.rest], fun a => ?_⟩
  obtain ⟨b, hb, hbyte, hzero⟩ := h.bytes a
  obtain ⟨c, hc, hbyte2, hzero2⟩ := h2.bytes a
  exact ⟨b ||| c, or_marks hb hc, by rw [hbyte2, hbyte, BitVec.or_assoc], fun ha => by rw [hzero ha, hzero2 ha]; rfl⟩

/-- The bytes of the other memories are as they were. -/
theorem Touched.rdByte_shm (h : Touched marks s t) (a : Nat) : rdByte t (.shm a) = rdByte s (.shm a) := by rw [h.rest]; rfl

theorem Touched.rdByte_outside (h : Touched marks s t) {l : Loc} (hl : ∀ a ∈ marks, l ≠ .ext a) : rdByte t l = rdByte s l := by
  cases l with
  | ext a =>
    obtain ⟨b, -, hbyte, hzero⟩ := h.bytes a
    rw [hbyte, hzero fun ha => hl a ha rfl]
    simp
  | _ => rw [h.rest]; rfl

theorem Touched.rdN_shm (h : Touched marks s t) (a n : Nat) : rdN t (.shm a) n = rdN s (.shm a) n := rdN_congr fun i _ => h.rdByte_shm (a + i)

end Touched

/-- No unit of external memory lies within eight bytes: a mark leaves the errors as they are. -/
theorem clearPoison_entry (s : State) (a : Nat) : clearPoison s (.ext a) 8 = s := by
  have hin (u : Nat) : eccWithin 0 a 8 u = false := by simp [eccWithin, eccSpan]; omega
  have hnone : s.poison.any (fun p => p.1 == 0 && eccWithin 0 a 8 p.2) = false := by simp [hin]
  simp only [clearPoison, eccPlace, hnone, Bool.false_eq_true, if_false]

theorem wrBytes_ext_rest (s : State) (a : Nat) (bs : List Byte) : wrBytes s (.ext a) bs = { s with ext := (wrBytes s (.ext a) bs).ext } := by
  induction bs generalizing s a with
  | nil => rfl
  | cons b r ih => exact (ih _ _).trans rfl

/-- Bits of the first byte set in an entry: that byte has them, the others stand. -/
theorem byte_or_entry {x bits i : Nat} (hbits : bits < 256) :
    BitVec.ofNat 8 ((x ||| bits) / 256 ^ i) = BitVec.ofNat 8 (x / 256 ^ i) ||| (if i = 0 then BitVec.ofNat 8 bits else 0) := by
  rw [show 256 ^ i = 2 ^ (8 * i) from by rw [pow_mul]; rfl, ← Nat.shiftRight_eq_div_pow, ← Nat.shiftRight_eq_div_pow, Nat.shiftRight_or_distrib,
    BitVec.ofNat_or]
  congr 1
  split
  · next h => simp [h]
  · next h =>
    rw [Nat.shiftRight_eq_div_pow, Nat.div_eq_of_lt]
    · rfl
    · exact lt_of_lt_of_le hbits (Nat.pow_le_pow_right (n := 2) (by omega) (show 8 ≤ 8 * i by omega))

theorem orEntry_touched {marks : List Nat} {a bits : Nat} (ha : a ∈ marks) (hbits : bits = 0x20 ∨ bits = 0x40) (s : State) :
    Touched marks s (orEntry s a bits) := by
  simp only [orEntry]
  split
  · exact .refl _ s
  · have hlt : bits < 256 := by omega
    refine ⟨?_, fun m => ?_⟩
    · rw [wrN, clearPoison_entry]
      exact rest_of_ext (wrBytes_ext_rest s a _)
    · have hread := rdByte_wrN (s := s) (l := .ext a) rfl 8 (rdN s (.ext a) 8 ||| bits) (.ext m)
      by_cases hm : a ≤ m ∧ m < a + 8
      · obtain ⟨i, rfl⟩ : ∃ i, m = a + i := ⟨m - a, by omega⟩
        rw [if_pos ⟨rfl, hm⟩, byte_or_entry hlt] at hread
        refine ⟨if i = 0 then BitVec.ofNat 8 bits else 0, ?_, hread.trans ?_, fun hmark => if_neg ?_⟩
        · rcases hbits with rfl | rfl <;> by_cases hi : i = 0 <;> simp [hi]
        · simp only [Loc.cell, Nat.add_sub_cancel_left]
          congr 1
          rw [rdN, byte_leNat _ (by simp [rdBytes]; omega), rdBytes]
          simp [show i < 8 by omega, Loc.plus]
        · rintro rfl
          exact hmark ha
      · rw [if_neg (fun h => hm h.2)] at hread
        exact ⟨0, by simp, by rw [hread]; simp, fun _ => rfl⟩

theorem foldl_orEntry_touched {marks path : List Nat} (h : ∀ a ∈ path, a ∈ marks) (s : State) :
    Touched marks s (path.foldl (fun s a => orEntry s a 0x20) s) := by
  induction path generalizing s with
  | nil => exact .refl _ s
  | cons a r ih => exact (orEntry_touched (h a (by simp)) (.inl rfl) s).trans (ih (fun b hb => h b (by simp [hb])) _)

/-- The entries passed by an access at an address outside the peer windows. -/
def pathOf (s : State) (tenant va : Nat) : List Nat :=
  if va < 2 ^ 53 ∨ (0xFE000000000000 ≤ va ∧ va < 0xFE000018000000) then
    (match walkUsed s tenant va with
     | .leaf _ _ path => path
     | .fail _ _ => []
     | .ecc => [])
  else []

theorem touchOwn_touched (s : State) (tenant va : Nat) (write : Bool) : Touched (pathOf s tenant va) s (touchOwn s tenant va write) := by
  unfold touchOwn pathOf
  split
  · cases walkUsed s tenant va with
    | fail lv fmt => exact .refl _ s
    | ecc => exact .refl _ s
    | leaf lv e path =>
      have passed := foldl_orEntry_touched (marks := path) (fun a ha => ha) s
      have marked : Touched path s (match write, path.getLast? with
          | true, some a => orEntry (path.foldl (fun s a => orEntry s a 0x20) s) a 0x40
          | _, _ => path.foldl (fun s a => orEntry s a 0x20) s) := by
        split
        · next a ha => exact passed.trans (orEntry_touched (List.mem_of_getLast? ha) (.inr rfl) _)
        · exact passed
      dsimp only
      split
      · exact marked
      · exact marked.trans (.of_ext rfl)
  · exact .refl _ s

/-- An access leaves the marks of the entries it passes, and nothing else. -/
theorem touch_touched (s : State) (tenant va : Nat) (write : Bool) : Touched (entriesOf s tenant va) s (touch s tenant va write) := by
  unfold touch entriesOf
  cases ownWindow s tenant va with
  | none => exact touchOwn_touched s tenant va write
  | some x => exact touchOwn_touched s x.1 x.2 write

/-! ### Objects in shared memory -/

/-- An address of the shared window names a place in shared memory (R57). -/
theorem resolve_shared {s : State} {who : Who} {va size : Nat} {need : Need} {l : Loc} (hv : inShared va = true)
    (h : resolve s who va size need = .ok l) : ∃ a, l = .shm a := by
  obtain ⟨hlo, hhi⟩ : 0xFE000000000000 ≤ va ∧ va < 0xFE000020000000 := by simpa [inShared] using hv
  have hpeer : inPeer va = false := by simp [inPeer]; omega
  rw [resolve, if_pos hpeer, resolveOwn, if_neg (by omega), if_neg (by omega)] at h
  split at h
  · split at h
    · next pa _ => exact ⟨pa, (Except.ok.inj h).symm⟩
    · exact absurd h (by simp)
  · rw [if_neg (by omega)] at h
    exact absurd h (by simp)

/-- What the checks of an object give lies in shared memory. -/
theorem checkObj_shm {s : State} {who : Who} {va size align : Nat} {need : Need} {l : Loc} (h : checkObj s who va size align need = .ok l) :
    ∃ a, l = .shm a := by
  by_cases hal : va % align ≠ 0
  · rw [checkObj, if_pos hal] at h
    exact absurd h (by simp)
  rw [checkObj, if_neg hal, checkOne, if_neg hal] at h
  cases hr : resolve s who va size need with
  | error e => simp [hr] at h
  | ok m =>
    simp only [hr, extraFail] at h
    by_cases hv : inShared va = true
    · rw [if_pos hv] at h
      by_cases hp : poisoned s m size (need.rd || need.ex) = true
      · simp [hp] at h
      · obtain rfl : m = l := by simpa [hp] using h
        exact resolve_shared hv hr
    · simp [hv] at h

theorem wrBytes_shm_rest (s : State) (a : Nat) (bs : List Byte) : wrBytes s (.shm a) bs = { s with shm := (wrBytes s (.shm a) bs).shm } := by
  induction bs generalizing s a with
  | nil => rfl
  | cons b r ih => exact (ih _ _).trans rfl

/-- A store to shared memory changes its bytes, and the errors in it. -/
theorem wrN_shm_rest (s : State) (a n v : Nat) : wrN s (.shm a) n v = { s with shm := (wrN s (.shm a) n v).shm, poison := (wrN s (.shm a) n v).poison } := by
  rw [wrN, clearPoison_rest, wrBytes_shm_rest]

theorem wrN_poison (s : State) (l : Loc) (n v : Nat) : (wrN s l n v).poison = (clearPoison s l n).poison := by
  have h : (wrBytes s l (leBytes n v)).poison = s.poison := by
    generalize leBytes n v = bs
    induction bs generalizing s l with
    | nil => rfl
    | cons b r ih => exact (ih _ _).trans (by cases l <;> rfl)
  rw [wrN, clearPoison, h, clearPoison]
  cases eccPlace l with
  | none => exact h
  | some p =>
    dsimp only
    split
    · rfl
    · exact h

/-- Only errors in units stored whole go (R395; log 28). -/
theorem mem_poison_wrN (s : State) (l : Loc) (n v : Nat) (p : Nat × Nat) : p ∈ (wrN s l n v).poison ↔
    p ∈ s.poison ∧ ¬ ∃ a, eccPlace l = some (p.1, a) ∧ eccWithin p.1 a n p.2 = true := by
  rw [wrN_poison, clearPoison]
  cases hl : eccPlace l with
  | none => simp
  | some q =>
    obtain ⟨m, a⟩ := q
    have hgone : (∃ b, some (m, a) = some (p.1, b) ∧ eccWithin p.1 b n p.2 = true) ↔ p.1 = m ∧ eccWithin m a n p.2 = true := by
      constructor
      · rintro ⟨b, heq, hin⟩
        obtain ⟨rfl, rfl⟩ : m = p.1 ∧ a = b := by simpa using heq
        exact ⟨rfl, hin⟩
      · rintro ⟨rfl, hin⟩
        exact ⟨a, rfl, hin⟩
    rw [hgone]
    dsimp only
    split
    · simp [imp_iff_not_or]
    · next hany =>
      refine ⟨fun hp => ⟨hp, fun hin => hany (List.any_eq_true.2 ⟨p, hp, by simpa using hin⟩)⟩, fun hp => hp.1⟩

end Sys2Proof.Laws
end
section
/-! SUPPORT. Memory as an instruction finds it and leaves it: what the entry state shares with the state before, and when an instruction that has
stored in shared memory has completed. -/

namespace Sys2Proof.Laws

open Sys2Proof.Machine

/-! ### Memory in the entry state -/

section Entry

variable (sp : Spec) (s : State) (k : Nat) (w : Wave)

/-- An instruction finds the machine as it was but for its wave and its core. -/
theorem entry_eq : ∃ ws cs, entryState sp s k w = { s with waves := ws, cores := cs } := ⟨_, _, entryState_rest sp s k w⟩

theorem checkOne_entry (who : Who) (va size align : Nat) (need : Need) (x : Extra) :
    checkOne (entryState sp s k w) who va size align need x = checkOne s who va size align need x := by
  obtain ⟨ws, cs, h⟩ := entry_eq sp s k w
  rw [h]
  rfl

theorem checkObj_entry (who : Who) (va size align : Nat) (need : Need) :
    checkObj (entryState sp s k w) who va size align need = checkObj s who va size align need := by
  simp only [checkObj, checkOne_entry]

theorem entriesOf_entry (tenant va : Nat) : entriesOf (entryState sp s k w) tenant va = entriesOf s tenant va := by
  obtain ⟨ws, cs, h⟩ := entry_eq sp s k w
  rw [h]
  rfl

theorem rdByte_entry (l : Loc) : rdByte (entryState sp s k w) l = rdByte s l := by
  obtain ⟨ws, cs, h⟩ := entry_eq sp s k w
  rw [h]
  cases l <;> rfl

theorem rdN_entry (l : Loc) (n : Nat) : rdN (entryState sp s k w) l n = rdN s l n := rdN_congr fun _ _ => rdByte_entry ..

theorem whoOf_entry (j : Nat) : whoOf (entryState sp s k w) j = whoOf s j := by
  obtain ⟨ws, cs, h⟩ := entry_eq sp s k w
  rw [h]
  rfl

theorem tenantOf_entry (j : Nat) : tenantOf (entryState sp s k w) j = tenantOf s j := by
  obtain ⟨ws, cs, h⟩ := entry_eq sp s k w
  rw [h]
  rfl

theorem cycle_entry : (entryState sp s k w).cycle = s.cycle := by rw [entryState_rest]

end Entry

/-! ### A booked instruction -/

section Book

variable (sp : Spec) (k c : Nat) (old : Wave) (adv : Bool) (s : State)

theorem rdByte_modWave (f : Wave → Wave) (l : Loc) : rdByte (s.modWave k f) l = rdByte s l := by cases l <;> rfl
theorem rdByte_modCore (f : Core → Core) (l : Loc) : rdByte (s.modCore c f) l = rdByte s l := by cases l <;> rfl
theorem rdByte_book (l : Loc) : rdByte (book sp k c old adv s) l = rdByte s l := by rw [book, rdByte_modCore, rdByte_modWave]
theorem rdN_book (l : Loc) (n : Nat) : rdN (book sp k c old adv s) l n = rdN s l n := rdN_congr fun _ _ => rdByte_book ..

theorem poison_modWave (f : Wave → Wave) : (s.modWave k f).poison = s.poison := rfl
theorem poison_modCore (f : Core → Core) : (s.modCore c f).poison = s.poison := rfl

theorem wave?_book : (book sp k c old adv s).wave? k = (s.wave? k).map (bookWave sp s.cycle old adv) := by
  rw [book, wave?_modCore, wave?_modWave_same]
theorem wave?_book_ne {j : Nat} (h : j ≠ k) : (book sp k c old adv s).wave? j = s.wave? j := by
  rw [book, wave?_modCore, wave?_modWave_ne _ h]

end Book

theorem booked_part (sp : Spec) (s : State) (w : Wave) (cycle : Nat) {y : Wave} (hy : y = bookWave sp cycle w true (entryWave sp s w)) :
    y = wavePart w y := by
  obtain ⟨x, hx⟩ : ∃ x, entryWave sp s w = wavePart w x := ⟨_, entryWave_part sp s w⟩
  rw [hy, hx]
  rfl

theorem booked_sameWait (sp : Spec) (s : State) (w : Wave) (cycle : Nat) : SameWait w (bookWave sp cycle w true (entryWave sp s w)) := by
  have h := booked_part sp s w cycle rfl
  exact ⟨(congrArg Wave.status h :), (congrArg Wave.ownerEnd h :), (congrArg Wave.helping h :)⟩

/-- An instruction that has only stored in shared memory, and left marks in tables, has completed. -/
theorem ranMem_book {sp : Spec} {s : State} {k : Nat} {w : Wave} {stored : List (Loc × Nat)} {marks : List Nat} {v : State}
    (hrest : v = { entryState sp s k w with ext := v.ext, shm := v.shm, tlb := v.tlb, poison := v.poison })
    (hbytes : ∀ l, l.outside stored → (∀ a ∈ marks, l ≠ .ext a) → rdByte v l = rdByte s l)
    (hmarks : ∀ a ∈ marks, (Loc.ext a).outside stored → ∃ b ∈ [0x00#8, 0x20#8, 0x40#8, 0x60#8], rdByte v (.ext a) = rdByte s (.ext a) ||| b)
    (hpoison : ∀ p, p ∈ v.poison → p ∈ s.poison)
    (hcleared : ∀ p ∈ s.poison, p ∈ v.poison ∨ ∃ r ∈ stored, ∃ a, eccPlace r.1 = some (p.1, a) ∧ eccWithin p.1 a r.2 p.2 = true) :
    RanMem sp [] stored [] marks false s k w (book sp k (coreOf s k) w true v) (bookWave sp s.cycle w true (entryWave sp s w)) := by
  have hwave (j : Nat) : v.wave? j = (entryState sp s k w).wave? j := by rw [hrest]; rfl
  have hcore (c : Nat) : v.core c = (entryState sp s k w).core c := by rw [hrest]; rfl
  have hcycle : v.cycle = s.cycle := by rw [hrest]; exact cycle_entry ..
  have hbooked (c : Nat) : (book sp k (coreOf s k) w true v).core c = { s.core c with
      issued := ((book sp k (coreOf s k) w true v).core c).issued, fixups := ((book sp k (coreOf s k) w true v).core c).fixups } := by
    have he := entryState_core sp s k w c
    rw [book, modCore_issued, core_modWave, hcore, he]
  have hro (c : Nat) : ((book sp k (coreOf s k) w true v).core c).roCache = (s.core c).roCache := (congrArg Core.roCache (hbooked c) :)
  have hpois : (book sp k (coreOf s k) w true v).poison = v.poison := by rw [book, poison_modCore, poison_modWave]
  obtain ⟨ws, cs, he⟩ := entry_eq sp s k w
  obtain ⟨ex, sh, tl, po, hv⟩ : ∃ ex sh tl po, v = { s with waves := ws, cores := cs, ext := ex, shm := sh, tlb := tl, poison := po } :=
    ⟨_, _, _, _, hrest.trans (by rw [he])⟩
  refine ⟨?_, ⟨?_, fun g => ?_, fun c => ?_, fun l hl hm => ?_, fun a ha hl => ?_, fun l _ => ?_, fun p hp => ?_, fun p hp => ?_⟩, fun j hj => ?_,
    ?_, sameRegs_of ?_ ?_ ?_, ?_, fun c => ?_, fun c => ?_⟩
  · rw [wave?_book, hwave, entryState_wave, Option.map_some, hcycle]
  · rw [hv]; rfl
  · rw [hv]; rfl
  · rw [hro]; exact hbooked c
  · rw [rdByte_book, hbytes l hl hm]
  · rw [rdByte_book]; exact hmarks a ha hl
  · rw [hv]; cases l <;> rfl
  · exact hpoison p (hpois ▸ hp)
  · rw [hpois]; exact hcleared p hp
  · rw [wave?_book_ne _ _ _ _ _ _ hj, hwave, entryState_others sp s w hj]
  · rw [← booked_part sp s w s.cycle rfl]
  · simp
  · simp
  · simp
  · simp
  · simp [hro]
  · rw [hv]; simp; rfl

/-- An instruction that has marked the tables it passed and stored a value in shared memory has completed. -/
theorem ranMem_store {sp : Spec} {s u : State} {k : Nat} {w : Wave} {marks : List Nat} (hu : Touched marks (entryState sp s k w) u) (a n x : Nat) :
    RanMem sp [] [(.shm a, n)] [] marks false s k w (book sp k (coreOf s k) w true (wrN u (.shm a) n x))
      (bookWave sp s.cycle w true (entryWave sp s w)) := by
  have hstored := wrN_shm_rest u a n x
  have hpois : u.poison = s.poison := by rw [hu.rest]; exact (congrArg State.poison (entryState_rest sp s k w) :)
  have hout {l : Loc} (hl : l.outside [(.shm a, n)]) : rdByte (wrN u (.shm a) n x) l = rdByte u l := rdByte_wrN_outside rfl x hl
  refine ranMem_book ?_ (fun l hl hm => ?_) (fun b hb hl => ?_) (fun p hp => ?_) fun p hp => ?_
  · generalize wrN u (.shm a) n x = v at hstored ⊢
    rw [hstored, hu.rest]
  · rw [hout hl, hu.rdByte_outside hm, rdByte_entry]
  · obtain ⟨c, hc, hbyte, -⟩ := hu.bytes b
    exact ⟨c, hc, by rw [hout hl, hbyte, rdByte_entry]⟩
  · rw [← hpois]
    exact ((mem_poison_wrN u _ n x p).1 hp).1
  · rw [mem_poison_wrN, hpois]
    by_cases hgone : ∃ b, eccPlace (.shm a) = some (p.1, b) ∧ eccWithin p.1 b n p.2 = true
    · exact .inr ⟨_, List.mem_singleton_self _, hgone⟩
    · exact .inl ⟨hp, hgone⟩

end Sys2Proof.Laws
end
section
/-! PROOF. `dep.dec` (R234, R304, R399): the counter taken down, a task released, an underflow recorded. -/

namespace Sys2Proof.Laws

open Sys2Proof.Machine

/-- A value in shared memory as an access leaves it that marks tables in external memory. -/
theorem rdN_touch_shm (s : State) (tenant va : Nat) (write : Bool) (a n : Nat) : rdN (touch s tenant va write) (.shm a) n = rdN s (.shm a) n :=
  (touch_touched s tenant va write).rdN_shm a n

section DepDec

variable {f : AOnly} {s : State} {k : Nat} {w : Wave} {l : Loc}

/-- The tables marked on the way to a counter of a wave. -/
abbrev counterSeen (f : AOnly) (s : State) (k : Nat) (w : Wave) (write : Bool) : State :=
  touch (entryState (specM f.h 8 [sOp f.a]) s k w) (tenantOf s k) (rdS w f.a.toNat).toNat write

/-- A counter taken down: its task released at 1, an underflow recorded at 0 (R234, R304). -/
def countedDown (u : State) (l : Loc) (ring : Nat) (r : Record) (c task : Nat) : State :=
  if c = 0 then errorRecord u ring r else if c = 1 ∧ task ≠ 0 then releaseTask (wrN u l 4 0) task else wrN u l 4 (c - 1)

/-- What a counter's decrement at its bank comes to. -/
theorem depDecrement_counts (u : State) (l : Loc) (ring : Nat) (r : Record) :
    (if (depDecrement u l).2.2 then Res.ok (errorRecord (depDecrement u l).1 ring r)
     else .ok (match (depDecrement u l).2.1 with
       | some q => releaseTask (depDecrement u l).1 q
       | none => (depDecrement u l).1)) = .ok (countedDown u l ring r (rdN u l 4) (rdN u (l.plus 8) 8)) := by
  unfold depDecrement countedDown
  by_cases h0 : rdN u l 4 = 0
  · simp [h0]
  · by_cases h1 : rdN u l 4 = 1 ∧ rdN u (l.plus 8) 8 ≠ 0
    · obtain ⟨h1, h2⟩ := h1
      simp [h1, h2]
    · simp [h0, h1]

theorem depDec_body (hl : checkObj s (whoOf s k) (rdS w f.a.toNat).toNat 16 16 needRw = .ok l) :
    depDecBody f (entryState (specM f.h 8 [sOp f.a]) s k w) k (entryWave (specM f.h 8 [sOp f.a]) s w) =
      .ok (countedDown (counterSeen f s k w (decide (rdN s l 4 ≠ 0))) l (((s.group? (gidOf k)).bind (·.ring)).getD 0)
        (instrRecord (entryState (specM f.h 8 [sOp f.a]) s k w) k (entryWave (specM f.h 8 [sOp f.a]) s w) .depUnderflow (rdS w f.a.toNat) 0)
        (rdN s l 4) (rdN s (l.plus 8) 8)) := by
  obtain ⟨a, rfl⟩ := checkObj_shm hl
  have hcount : rdN (entryState (specM f.h 8 [sOp f.a]) s k w) (.shm a) 4 = rdN s (.shm a) 4 := rdN_entry ..
  have hseen (wr : Bool) (b n : Nat) : rdN (counterSeen f s k w wr) (.shm b) n = rdN s (.shm b) n := (rdN_touch_shm ..).trans (rdN_entry ..)
  have hva : w64 (rdS w f.a.toNat).toNat = rdS w f.a.toNat := BitVec.ofNat_toNat .. |>.trans (by simp)
  have hbne : (rdN s (.shm a) 4 != 0) = decide (rdN s (.shm a) 4 ≠ 0) := by
    rw [Bool.eq_iff_iff]
    simp
  unfold depDecBody
  simp only [rdS_entry, whoOf_entry, checkObj_entry, tenantOf_entry, group?_entry, hl, hcount, hbne, hva]
  refine (depDecrement_counts _ _ _ _).trans ?_
  exact congrArg Res.ok (congrArg₂ (countedDown _ _ _ _) (hseen _ a 4) (hseen _ (a + 8) 8))

/-- A counter that passes its checks is taken down. -/
theorem depDec_reached (h : Clear (specM f.h 8 [sOp f.a]) s k w) (ha : activeOf w f.h.mask ≠ 0)
    (hl : checkObj s (whoOf s k) (rdS w f.a.toNat).toNat 16 16 needRw = .ok l) : exec (.depDec f) s = .next
      (book (specM f.h 8 [sOp f.a]) k (coreOf s k) w true
        (countedDown (counterSeen f s k w (decide (rdN s l 4 ≠ 0))) l (((s.group? (gidOf k)).bind (·.ring)).getD 0)
          (instrRecord (entryState (specM f.h 8 [sOp f.a]) s k w) k (entryWave (specM f.h 8 [sOp f.a]) s w) .depUnderflow (rdS w f.a.toNat) 0)
          (rdN s l 4) (rdN s (l.plus 8) 8))) := by
  refine (issue_active h ha _).trans ?_
  rw [depDec_body hl]
  rfl

/-- A failed check of the counter is the cause. -/
theorem depDec_fails (h : Clear (specM f.h 8 [sOp f.a]) s k w) (ha : activeOf w f.h.mask ≠ 0) {x : Fail}
    (hx : checkObj s (whoOf s k) (rdS w f.a.toNat).toNat 16 16 needRw = .error x) :
    exec (.depDec f) s = .next (takeTrap (entryState (specM f.h 8 [sOp f.a]) s k w) k 8 (x.trap.withLanes (specM f.h 8 [sOp f.a]) w)) := by
  have hbody : depDecBody f (entryState (specM f.h 8 [sOp f.a]) s k w) k (entryWave (specM f.h 8 [sOp f.a]) s w) =
      .trap x.trap (entryState (specM f.h 8 [sOp f.a]) s k w) := by
    unfold depDecBody
    simp only [rdS_entry, whoOf_entry, checkObj_entry, hx]
  refine (issue_active h ha _).trans ?_
  rw [hbody]
  rfl

/-- A counter that is taken down without releasing a task: it is one less, and nothing else of memory changes. -/
theorem depDec_counts (h : Clear (specM f.h 8 [sOp f.a]) s k w) (ha : activeOf w f.h.mask ≠ 0)
    (hl : checkObj s (whoOf s k) (rdS w f.a.toNat).toNat 16 16 needRw = .ok l) (hc : 2 ≤ rdN s l 4 ∨ rdN s l 4 = 1 ∧ rdN s (l.plus 8) 8 = 0) :
    ∃ t w', exec (.depDec f) s = .next t ∧ RanMem (specM f.h 8 [sOp f.a]) [] [(l, 4)] []
      (entriesOf s (tenantOf s k) (rdS w f.a.toNat).toNat) false s k w t w' ∧ SameWait w w' ∧ w'.xa = w.xa ∧ rdN t l 4 = rdN s l 4 - 1 := by
  obtain ⟨a, rfl⟩ := checkObj_shm hl
  have hexec := depDec_reached h ha hl
  have hdown (u : State) (ring : Nat) (r : Record) : countedDown u (.shm a) ring r (rdN s (.shm a) 4) (rdN s (Loc.plus 8 (.shm a)) 8) =
      wrN u (.shm a) 4 (rdN s (.shm a) 4 - 1) := by
    rw [countedDown, if_neg (by omega), if_neg (by omega)]
  rw [hdown] at hexec
  have htouched := touch_touched (entryState (specM f.h 8 [sOp f.a]) s k w) (tenantOf s k) (rdS w f.a.toNat).toNat (decide (rdN s (.shm a) 4 ≠ 0))
  rw [entriesOf_entry] at htouched
  have hlt := rdN_lt s (.shm a) 4
  refine ⟨_, _, hexec, ranMem_store htouched a 4 _, booked_sameWait .., ?_, ?_⟩
  · simp
  · rw [rdN_book, rdN_wrN_same rfl, Nat.mod_eq_of_lt (by omega)]

end DepDec

end Sys2Proof.Laws
end
section
/-! SUPPORT. Publication (R19 to R22, R42, R303, R323, R400): the task that a record makes, what becomes of it, and what else of the machine stands. -/

namespace Sys2Proof.Laws

open Sys2Proof.Machine

/-! ### A task listed, ready or refused -/

theorem task?_modTask (s : State) (q p : Nat) (f : Task → Task) : (s.modTask q f).task? p = if p = q then (s.task? q).map f else s.task? p :=
  kfind_kmod p q f s.tasks

theorem MemIO.cycle {s t : State} (h : MemIO s t) : t.cycle = s.cycle := (congrArg State.cycle h.rest :)

/-- The machine with a task listed under the next number (R24). -/
def listed (u : State) (t : Task) : State := { u with nextSeq := u.nextSeq + 1, tasks := kset u.nextSeq t u.tasks }

theorem checkObj_listed (u : State) (t : Task) (who : Who) (va size align : Nat) (need : Need) :
    checkObj (listed u t) who va size align need = checkObj u who va size align need := rfl

/-- A task has been published in a state: listed under its number, in a state of readiness, with segments; every other task, and every wave, is
as it was. -/
structure Published (u : State) (t : Task) (st : TaskState) (n : Nat) (p : State) : Prop where
  waves : p.waves = u.waves
  cycle : p.cycle = u.cycle
  rings : p.rings = u.rings
  nextSeq : p.nextSeq = u.nextSeq + 1
  task : ∃ at_, p.task? u.nextSeq = some { t with state := st, segs := n, readyAt := at_ }
  others : ∀ q, q ≠ u.nextSeq → p.task? q = u.task? q

section Published

variable {u p p' : State} {t : Task} {st : TaskState} {n : Nat}

theorem published_listed (u : State) (t : Task) : Published u t t.state t.segs (listed u t) where
  waves := rfl
  cycle := rfl
  rings := rfl
  nextSeq := rfl
  task := ⟨t.readyAt, by simp [listed, State.task?]⟩
  others := fun q hq => by simp [listed, State.task?, hq]

theorem Published.memIO (h : Published u t st n p) (hm : MemIO p p') : Published u t st n p' where
  waves := hm.waves.trans h.waves
  cycle := hm.cycle.trans h.cycle
  rings := hm.rings.trans h.rings
  nextSeq := hm.nextSeq.trans h.nextSeq
  task := by simpa only [hm.task?] using h.task
  others := fun q hq => (hm.task? q).trans (h.others q hq)

/-- The task's own state of readiness changed. -/
theorem Published.modTask (h : Published u t st n p) {f : Task → Task} {st' : TaskState} {n' : Nat}
    (hf : ∀ at_, ∃ x, f { t with state := st, segs := n, readyAt := at_ } = { t with state := st', segs := n', readyAt := x }) :
    Published u t st' n' (p.modTask u.nextSeq f) where
  waves := h.waves
  cycle := h.cycle
  rings := h.rings
  nextSeq := h.nextSeq
  task := by
    obtain ⟨at_, ht⟩ := h.task
    obtain ⟨x, hx⟩ := hf at_
    exact ⟨x, by rw [task?_modTask, if_pos rfl, ht, Option.map_some, hx]⟩
  others := fun q hq => by rw [task?_modTask, if_neg hq]; exact h.others q hq

/-- A refused task settles without segments (R42). -/
theorem Published.refuse (h : Published u t st n p) {reach : Bool} (hr : recFamily t = 0 ∨ reach = false) :
    Published u t .refused 0 (refuseTask p u.nextSeq reach) := by
  obtain ⟨at_, ht⟩ := h.task
  have hfam : ¬ (recFamily { t with state := st, segs := n, readyAt := at_ } ≠ 0 ∧ reach = true) := by
    rintro ⟨h1, h2⟩
    rcases hr with hr | hr
    · exact h1 hr
    · simp [hr] at h2
  simp only [refuseTask, ht]
  rw [if_neg hfam]
  exact (h.modTask fun at_ => ⟨at_, rfl⟩).memIO (memIO_taskRecord _ _ _)

/-- A task of a queue that does not reserve segments is ready (R303). -/
theorem Published.ready (h : Published u t st n p) (hd : (u.ring t.ring).docc = false) : Published u t .ready 0 (makeReady p u.nextSeq) ∧
    (makeReady p u.nextSeq).groups = p.groups ∧ ∀ l n, rdN (makeReady p u.nextSeq) l n = rdN p l n := by
  obtain ⟨at_, ht⟩ := h.task
  have hdocc : (p.ring t.ring).docc = false := by rw [← hd, State.ring, h.rings]; rfl
  simp only [makeReady, ht, hdocc]
  refine ⟨?_, rfl, fun l n => rdN_congr fun i _ => by cases l <;> rfl⟩
  have hticket : Published u t st n { p with tickets := p.tickets + 1 } := ⟨h.waves, h.cycle, h.rings, h.nextSeq, ⟨at_, ht⟩, h.others⟩
  exact hticket.modTask fun _ => ⟨_, rfl⟩

/-- In declared-occupancy mode a task's segments are reserved, or it is refused (R42, R323). -/
theorem Published.reserve (h : Published u t st n p) (hd : (u.ring t.ring).docc = true) :
    (segFits p (cdiv (recQocc t) 1024) = true → Published u t .ready (cdiv (recQocc t) 1024) (makeReady p u.nextSeq)) ∧
    (segFits p (cdiv (recQocc t) 1024) = false → recFamily t = 0 → Published u t .refused 0 (makeReady p u.nextSeq)) := by
  obtain ⟨at_, ht⟩ := h.task
  have hdocc : (p.ring t.ring).docc = true := by rw [← hd, State.ring, h.rings]; rfl
  have hqocc : recQocc { t with state := st, segs := n, readyAt := at_ } = recQocc t := rfl
  refine ⟨fun hfits => ?_, fun hfits hfam => ?_⟩
  · simp only [makeReady, ht, hdocc, hqocc, hfits]
    have hticket : Published u t st n { p with tickets := p.tickets + 1 } := ⟨h.waves, h.cycle, h.rings, h.nextSeq, ⟨at_, ht⟩, h.others⟩
    exact hticket.modTask fun _ => ⟨_, rfl⟩
  · simp only [makeReady, ht, hdocc, hqocc, hfits]
    exact (h.memIO (memIO_errorRecord _ _ _)).refuse (.inl hfam)

end Published

/-! ### The update of a family -/

theorem familyUpdate_reached {s : State} {tenant addr : Nat} {l : Loc} (hl : checkObj s { tenant := tenant } addr 8 8 needRw = .ok l) (ring : Nat)
    (f : Nat → Nat) (r : Record) : familyUpdate s ring tenant addr f r = (wrN (touch s tenant addr true) l 8 (f (rdN s l 8)), true) := by
  rw [needRw] at hl
  simp only [familyUpdate, hl]

theorem familyUpdate_missed {s : State} {tenant addr : Nat} {x : Fail} (hx : checkObj s { tenant := tenant } addr 8 8 needRw = .error x) (ring : Nat)
    (f : Nat → Nat) (r : Record) : (familyUpdate s ring tenant addr f r).2 = false := by
  rw [needRw] at hx
  simp only [familyUpdate, hx]

/-! ### Publication of a record -/

/-- The task that a record makes (R19 to R22, R24). -/
def newTask (u : State) (r : BitVec 512) (tenant ring depth : Nat) (parent : Option Nat) (src : Source) (chain : Option Nat) : Task :=
  { seq := u.nextSeq, tenant := tenant, ring := ring, depth := depth, parent := parent, rec64 := r, chain := chain, src := src, born := u.cycle,
    root := (parent.bind (fun p => (u.task? p).map (·.root))).getD u.nextSeq }

section Publish

variable {u : State} {r : BitVec 512} {at_ : Word} {tenant ring depth : Nat} {parent : Option Nat} {src : Source} {chain : Option Nat} {base : Record}
variable {t : Task} (ht : t = newTask u r tenant ring depth parent src chain) (hb : recBad r = []) (hc : recCrew t ≤ maxCrew u)

/-- A record that R21 refuses makes no task: an error record names its lowest failing field. -/
theorem publish_refused (hb : recBad r ≠ []) : ∃ b, (recBad r).min? = some b ∧ publish u r at_ tenant ring depth parent src chain base =
    .refused (errorRecord u ring { base with cause := .recordInvalid, tenant := tenant, info0 := at_, info1 := w64 b }) := by
  cases hm : (recBad r).min? with
  | none => exact absurd (List.min?_eq_none_iff.1 hm) hb
  | some b => exact ⟨b, rfl, by simp only [publish, hm]⟩

theorem ok_if (b : Bool) (x y : State) (q : Nat) : (if (!b) = true then PubRes.ok y q else .ok x q) = .ok (if b then x else y) q := by cases b <;> rfl

include ht hb hc

/-- The first steps of publishing an accepted record: with its counter at 0 and the launch table full the wave waits. -/
theorem publish_waits (hready : recDep t = 0 ∨ ∃ l, checkObj u { tenant := tenant } (recDep t) 16 16 needRw = .ok l ∧ rdN u l 4 = 0)
    (hfull : launchFull u = true) : publish u r at_ tenant ring depth parent src chain base = .wait := by
  subst ht
  have hcrew := not_lt.2 hc
  simp only [newTask, needRw] at hready hcrew
  simp only [publish, hb, List.min?_nil]
  rw [if_neg hcrew, if_pos]
  rcases hready with hdep | ⟨l, hl, hzero⟩
  · simp [hdep, hfull]
  · simp [hl, hzero, hfull]

/-- A record with neither counter nor family makes a task that enters its ready queue. -/
theorem publish_plain (hdep : recDep t = 0) (hfam : recFamily t = 0) (hfull : launchFull u = false) :
    publish u r at_ tenant ring depth parent src chain base = .ok (makeReady (listed u t) u.nextSeq) u.nextSeq := by
  subst ht
  have hcrew := not_lt.2 hc
  simp only [newTask] at hdep hfam hcrew
  simp only [publish, hb, List.min?_nil]
  rw [if_neg hcrew, if_neg (by simp [hfull]), hdep, hfam]
  rfl

/-- A record with a counter makes a task armed on it, its number beside COUNT; at COUNT 0 it enters its ready queue (R22). -/
theorem publish_armed (hdep : recDep t ≠ 0) (hfam : recFamily t = 0) {l : Loc}
    (hl : checkObj u { tenant := tenant } (recDep t) 16 16 needRw = .ok l) (hfull : rdN u l 4 ≠ 0 ∨ launchFull u = false) :
    publish u r at_ tenant ring depth parent src chain base =
      .ok (let p := wrN (touch (listed u t) tenant (recDep t) true) (l.plus 8) 8 u.nextSeq
        if rdN u l 4 = 0 then makeReady p u.nextSeq else p) u.nextSeq := by
  subst ht
  have hcrew := not_lt.2 hc
  simp only [newTask, needRw] at hdep hfam hl hcrew
  simp only [publish, hb, List.min?_nil]
  rw [if_neg hcrew, if_neg (by rcases hfull with h | h <;> simp [hdep, hl, h]), hfam]
  simp only [if_true, Bool.not_true, Bool.false_eq_true, if_false, hdep, hl, decide_false, Bool.false_or, decide_eq_true_eq]
  rfl

/-- A counter that cannot be reached makes a refused task (R22). -/
theorem publish_unarmed (hdep : recDep t ≠ 0) (hfam : recFamily t = 0) {x : Fail}
    (hx : checkObj u { tenant := tenant } (recDep t) 16 16 needRw = .error x) : ∃ e, publish u r at_ tenant ring depth parent src chain base =
      .ok (refuseTask (errorRecord (listed u t) ring e) u.nextSeq true) u.nextSeq := by
  subst ht
  have hcrew := not_lt.2 hc
  simp only [newTask, needRw] at hdep hfam hx hcrew
  simp only [publish, hb, List.min?_nil]
  rw [if_neg hcrew, if_neg (by simp [hdep, hx]), hfam]
  simp only [if_true, Bool.not_true, Bool.false_eq_true, if_false, hdep, hx]
  exact ⟨_, rfl⟩

/-- A record with a family: the update of its OUTSTANDING, then the ready queue; a family that cannot be reached makes a refused task (R41). -/
theorem publish_family (hdep : recDep t = 0) (hfam : recFamily t ≠ 0) (hfull : launchFull u = false) :
    ∃ e, publish u r at_ tenant ring depth parent src chain base =
      (let q := familyUpdate (listed u t) ring tenant (recFamily t) (famAddOut 1) e
       .ok (if q.2 then makeReady q.1 u.nextSeq else refuseTask q.1 u.nextSeq false) u.nextSeq) := by
  subst ht
  have hcrew := not_lt.2 hc
  simp only [newTask] at hdep hfam hcrew
  simp only [publish, hb, List.min?_nil]
  rw [if_neg hcrew, if_neg (by simp [hfull]), hdep]
  refine ⟨feRecord (newTask u r tenant ring depth parent src chain) .pageNotPresent 0 0, ?_⟩
  simp only [hfam, if_false, if_true]
  exact ok_if _ _ _ _

end Publish

end Sys2Proof.Laws
end
section
/-! SUPPORT. The segments in use (R322, R323): their count does not change with an instruction's issue or a task newly listed. -/

namespace Sys2Proof.Laws

open Sys2Proof.Machine

/-! ### Lists without duplicates, in order -/

theorem nodup_eraseDups {α : Type} [BEq α] [LawfulBEq α] (xs : List α) : xs.eraseDups.Nodup := by
  match xs with
  | [] => simp
  | x :: r =>
    rw [List.eraseDups_cons, List.nodup_cons]
    exact ⟨by simp [List.mem_eraseDups], nodup_eraseDups _⟩
termination_by xs.length
decreasing_by exact Nat.lt_succ_of_le (List.length_filter_le ..)

theorem length_insertBy {α : Type} (le : α → α → Bool) (x : α) (xs : List α) : (insertBy le x xs).length = xs.length + 1 := by
  induction xs with
  | nil => rfl
  | cons y r ih => simp only [insertBy]; split <;> simp [ih]

theorem length_sortBy {α : Type} (le : α → α → Bool) (xs : List α) : (sortBy le xs).length = xs.length := by
  suffices h : ∀ ys, (xs.foldl (fun a x => insertBy le x a) ys).length = ys.length + xs.length by simpa [sortBy] using h []
  induction xs with
  | nil => simp
  | cons x r ih => intro ys; rw [List.foldl_cons, ih, length_insertBy, List.length_cons]; omega

/-! ### Segments -/

/-- The segments in which blocks lie, as often as blocks name them. -/
def segNames (bs : List Block) : List Nat := bs.flatMap (fun b => if b.place = 1 then b.segs.map (·.1) else [])

theorem length_segsOf {bs cs : List Block} (h : ∀ i, i ∈ segNames bs ↔ i ∈ segNames cs) : (segsOf bs).length = (segsOf cs).length := by
  rw [segsOf, segsOf, length_sortBy, length_sortBy]
  exact ((List.perm_ext_iff_of_nodup (nodup_eraseDups _) (nodup_eraseDups _)).2 fun i => by
    rw [List.mem_eraseDups, List.mem_eraseDups]; exact h i).length_eq

theorem mem_segNames (s : State) (i : Nat) : i ∈ segNames (allBlocks s) ↔
    (∃ t ∈ s.threads, t.info.place = 1 ∧ i ∈ t.info.segs.map (·.1)) ∨
    ∃ p ∈ s.waves, ∃ q ∈ p.2.lanes, 0 < q.2.blocks ∧ q.2.place = 1 ∧ i ∈ q.2.segs.map (·.1) := by
  have hnames (b : Block) : i ∈ (if b.place = 1 then b.segs.map (·.1) else []) ↔ b.place = 1 ∧ i ∈ b.segs.map (·.1) := by
    split <;> simp [*]
  simp only [segNames, List.mem_flatMap, hnames, allBlocks, List.mem_append, or_and_right, exists_or]
  refine or_congr ?_ ?_
  · simp only [List.mem_map, exists_exists_and_eq_and]
  · constructor
    · rintro ⟨b, ⟨p, hp, hb⟩, hseg⟩
      obtain ⟨q, hq, rfl⟩ := List.mem_map.1 hb
      obtain ⟨hq, hblocks⟩ := List.mem_filter.1 hq
      exact ⟨p, hp, q, hq, of_decide_eq_true hblocks, hseg⟩
    · rintro ⟨p, hp, q, hq, hblocks, hseg⟩
      exact ⟨_, ⟨p, hp, List.mem_map.2 ⟨q, List.mem_filter.2 ⟨hq, decide_eq_true hblocks⟩, rfl⟩⟩, hseg⟩

/-- An entry that is replaced is the one that is read. -/
theorem mem_kset_or {α : Type} {k : Nat} {v x : α} {m : List (Nat × α)} (hv : kfind k m = some v) {p : Nat × α} (hp : p ∈ m) :
    p ∈ kset k x m ∨ p = (k, v) := by
  induction m with
  | nil => simp at hp
  | cons q r ih =>
    obtain ⟨a, b⟩ := q
    simp only [kset]
    by_cases ha : a = k
    · subst ha
      obtain rfl : b = v := by simpa [kfind] using hv
      rcases List.mem_cons.1 hp with rfl | hp
      · exact .inr rfl
      · exact .inl (by simp [hp])
    · have hr : kfind k r = some v := by simpa [kfind, ha] using hv
      by_cases hlt : a < k
      · rw [if_pos hlt]
        rcases List.mem_cons.1 hp with rfl | hp
        · exact .inl (by simp)
        · exact (ih hr hp).imp_left (List.mem_cons_of_mem _)
      · rw [if_neg hlt, if_neg ha]
        exact .inl (List.mem_cons_of_mem _ hp)

/-- A wave replaced by one with the same lanes: something holds of some wave's lanes as it did. -/
theorem exists_lanes_kset {k : Nat} {w x : Wave} {m : List (Nat × Wave)} (hw : kfind k m = some w) (hx : x.lanes = w.lanes)
    (P : List (Nat × LaneInfo) → Prop) : (∃ p ∈ kset k x m, P p.2.lanes) ↔ ∃ p ∈ m, P p.2.lanes := by
  constructor
  · rintro ⟨p, hp, hP⟩
    rcases mem_kset hp with rfl | hp
    · exact ⟨(k, w), mem_of_kfind hw, hx ▸ hP⟩
    · exact ⟨p, hp, hP⟩
  · rintro ⟨p, hp, hP⟩
    rcases mem_kset_or (x := x) hw hp with hp | rfl
    · exact ⟨p, hp, hP⟩
    · exact ⟨(k, x), mem_of_kfind (kfind_kset_same ..), hx ▸ hP⟩

theorem sum_kset_new {α : Type} {k : Nat} {v : α} {f : α → Nat} (hv : f v = 0) {m : List (Nat × α)} (hm : kfind k m = none) :
    ((kset k v m).map (fun p => f p.2)).sum = (m.map (fun p => f p.2)).sum := by
  induction m with
  | nil => simp [kset, hv]
  | cons q r ih =>
    obtain ⟨a, b⟩ := q
    by_cases ha : a = k
    · simp [kfind, ha] at hm
    · have hr : kfind k r = none := by simpa [kfind, ha] using hm
      by_cases hlt : a < k <;> simp [kset, hlt, ha, hv, ih hr]

theorem entryWave_lanes (sp : Spec) (s : State) (w : Wave) : (entryWave sp s w).lanes = w.lanes := by unfold entryWave; split <;> rfl

/-- With a task newly listed that has no segments, and a wave at its instruction, as many segments may be taken as before (R322). -/
theorem segFits_listed {sp : Spec} {s : State} {k : Nat} {w : Wave} (hw : s.wave? k = some w) {t : Task} (ht : t.segs = 0) {p : State}
    (hrest : p = { s with waves := kset k (entryWave sp s w) s.waves, cores := p.cores, ext := p.ext, tlb := p.tlb }) (hnew : p.task? p.nextSeq = none)
    (n : Nat) : segFits (listed p t) n = segFits s n := by
  have hlinked : (linkedSegs (listed p t)).length = (linkedSegs s).length := by
    refine length_segsOf fun i => ?_
    have hthreads : (listed p t).threads = s.threads := by rw [hrest]; rfl
    have hwaves : (listed p t).waves = kset k (entryWave sp s w) s.waves := by rw [hrest]; rfl
    rw [mem_segNames, mem_segNames, hthreads, hwaves]
    exact or_congr .rfl (exists_lanes_kset hw (entryWave_lanes ..)
      (fun ls => ∃ q ∈ ls, 0 < q.2.blocks ∧ q.2.place = 1 ∧ i ∈ q.2.segs.map (·.1)))
  have htasks : ((listed p t).tasks.map (·.2.segs)).sum = (s.tasks.map (·.2.segs)).sum := by
    have hs : p.tasks = s.tasks := (congrArg State.tasks hrest :)
    rw [← hs]
    exact sum_kset_new (f := Task.segs) ht hnew
  have hlimit : (listed p t).devCfg = s.devCfg := by rw [hrest]; rfl
  have hsteps : (listed p t).shmSteps = s.shmSteps := by rw [hrest]; rfl
  have hused : segUsed (listed p t) = segUsed s := congrArg₂ (· + ·) hlinked htasks
  rw [segFits, hused, hlimit, hsteps, segFits]

end Sys2Proof.Laws
end
section
/-! PROOF. `task.launch` (R19 to R22, R41, R42, R233, R323). -/

namespace Sys2Proof.Laws

open Sys2Proof.Machine

/-- One more outstanding descendant, where the count does not pass its field (R41). -/
theorem famAddOut_one {x : Nat} (h : x % 2 ^ 32 + 1 < 2 ^ 32) : famAddOut 1 x = x + 1 := by
  have hout : famOut x + 1 < 2 ^ 32 := h
  have hwrap : wrapTo 32 ((famOut x : Int) + 1) = famOut x + 1 := by
    simp only [wrapTo]
    omega
  rw [famAddOut, hwrap, famOut]
  omega

/-! ### The instruction about the publication -/

section Launch

variable {f : DA} {s : State} {k : Nat} {w : Wave} {g : Group}

abbrev launchSpec (f : DA) : Spec := specM f.h 8 [sOp f.d 1 true, sOp f.a]
/-- The depth of the task that launches (R24). -/
abbrev launchDepth (s : State) (g : Group) : Nat := ((s.task? g.seq).map (·.depth)).getD g.depth
/-- The tables marked on the way to a record. -/
abbrev recordSeen (f : DA) (s : State) (k : Nat) (w : Wave) (g : Group) : State :=
  touch (entryState (launchSpec f) s k w) g.tenant (rdS w f.a.toNat).toNat false

theorem task?_entry (sp : Spec) (s : State) (k : Nat) (w : Wave) (q : Nat) : (entryState sp s k w).task? q = s.task? q := by
  rw [entryState_rest]; rfl

/-- Depth 10 launches nothing. -/
theorem taskLaunch_deep (h : Clear (launchSpec f) s k w) (ha : activeOf w f.h.mask ≠ 0) (hg : s.group? (gidOf k) = some g)
    (hd : 10 ≤ launchDepth s g) : exec (.taskLaunch f) s = .next (takeTrap (entryState (launchSpec f) s k w) k 8
      { cause := .nestDepth, info0 := w64 (launchDepth s g + 1), lanes := some (activeOf w f.h.mask) }) := by
  have hbody : taskLaunchBody f (entryState (launchSpec f) s k w) k (entryWave (launchSpec f) s w) =
      .trap { cause := .nestDepth, info0 := w64 (launchDepth s g + 1) } (entryState (launchSpec f) s k w) := by
    unfold taskLaunchBody
    simp only [group?_entry, hg, task?_entry]
    rw [if_pos hd]
  refine (issue_active h ha _).trans ?_
  rw [hbody]
  rfl

/-- A record that fails its checks is the cause. -/
theorem taskLaunch_fails (h : Clear (launchSpec f) s k w) (ha : activeOf w f.h.mask ≠ 0) (hg : s.group? (gidOf k) = some g)
    (hd : launchDepth s g < 10) {x : Fail} (hx : checkOne s (whoOf s k) (rdS w f.a.toNat).toNat 64 64 needRd .plain = .error x) :
    exec (.taskLaunch f) s = .next (takeTrap (entryState (launchSpec f) s k w) k 8 (x.trap.withLanes (launchSpec f) w)) := by
  have hbody : taskLaunchBody f (entryState (launchSpec f) s k w) k (entryWave (launchSpec f) s w) =
      .trap x.trap (entryState (launchSpec f) s k w) := by
    unfold taskLaunchBody
    simp only [group?_entry, hg, task?_entry, rdS_entry, whoOf_entry, checkOne_entry, hx]
    rw [if_neg (not_le.2 hd)]
  refine (issue_active h ha _).trans ?_
  rw [hbody]
  rfl

/-- What the publication of a wave's record comes to. -/
abbrev launchOf (f : DA) (s : State) (k : Nat) (w : Wave) (g : Group) (l : Loc) : PubRes :=
  publish (recordSeen f s k w g) (BitVec.ofNat 512 (rdN s l 64)) (rdS w f.a.toNat) g.tenant (g.ring.getD 0) (launchDepth s g + 1) (some g.seq) {} g.chain
    (instrRecord (entryState (launchSpec f) s k w) k (entryWave (launchSpec f) s w) .recordInvalid 0 0)

theorem nextSeq_modWave (s : State) (k : Nat) (f : Wave → Wave) : (s.modWave k f).nextSeq = s.nextSeq := rfl
theorem nextSeq_modCore (s : State) (c : Nat) (f : Core → Core) : (s.modCore c f).nextSeq = s.nextSeq := rfl
theorem task?_modWave (s : State) (k : Nat) (f : Wave → Wave) (q : Nat) : (s.modWave k f).task? q = s.task? q := rfl
theorem task?_modCore (s : State) (c : Nat) (f : Core → Core) (q : Nat) : (s.modCore c f).task? q = s.task? q := rfl
theorem cycle_modWave (s : State) (k : Nat) (f : Wave → Wave) : (s.modWave k f).cycle = s.cycle := rfl

variable {l : Loc}

/-- What a publication makes of the instruction: a wait, or S[d] 0, or S[d] the number of the task. -/
def launchAnswer (f : DA) (e : State) (k : Nat) (x : Wave) : PubRes → Res
  | .wait => .wait .launchTable 0 e
  | .refused p => .ok (p.setWave k (wrS x f.d.toNat 0))
  | .ok p q => .ok (p.modWave k (fun w => wrS w f.d.toNat (w64 q)))

theorem launchAnswer_match (f : DA) (e : State) (k : Nat) (x : Wave) (r : PubRes) : (match r with
    | .wait => Res.wait .launchTable 0 e
    | .refused p => .ok (p.setWave k (wrS x f.d.toNat 0))
    | .ok p q => .ok (p.modWave k (fun w => wrS w f.d.toNat (w64 q)))) = launchAnswer f e k x r := by
  cases r <;> rfl

/-- A record that passes its checks is published. -/
theorem taskLaunch_body (hg : s.group? (gidOf k) = some g) (hd : launchDepth s g < 10)
    (hl : checkOne s (whoOf s k) (rdS w f.a.toNat).toNat 64 64 needRd .plain = .ok l) :
    taskLaunchBody f (entryState (launchSpec f) s k w) k (entryWave (launchSpec f) s w) =
      launchAnswer f (entryState (launchSpec f) s k w) k (entryWave (launchSpec f) s w) (launchOf f s k w g l) := by
  have hva : w64 (rdS w f.a.toNat).toNat = rdS w f.a.toNat := BitVec.ofNat_toNat .. |>.trans (by simp)
  unfold taskLaunchBody
  simp only [group?_entry, hg, task?_entry, rdS_entry, whoOf_entry, checkOne_entry, hl, rdN_entry, hva]
  rw [if_neg (not_le.2 hd)]
  simp only [launchOf, recordSeen, launchDepth]
  generalize publish _ _ _ _ _ _ _ _ _ _ = r
  exact launchAnswer_match f _ k _ r

/-- With the launch table full the wave waits (R303). -/
theorem taskLaunch_waits (h : Clear (launchSpec f) s k w) (ha : activeOf w f.h.mask ≠ 0) (hg : s.group? (gidOf k) = some g)
    (hd : launchDepth s g < 10) (hl : checkOne s (whoOf s k) (rdS w f.a.toNat).toNat 64 64 needRd .plain = .ok l)
    (hp : launchOf f s k w g l = .wait) :
    exec (.taskLaunch f) s = .next (parkBlockedOwner (startWait (entryState (launchSpec f) s k w) k .launchTable 0) k) := by
  refine (issue_active h ha _).trans ?_
  rw [taskLaunch_body hg hd hl, hp]
  simp only [launchAnswer, finish, enterWait, reduceCtorEq, if_false]

theorem taskLaunch_refused (h : Clear (launchSpec f) s k w) (ha : activeOf w f.h.mask ≠ 0) (hg : s.group? (gidOf k) = some g)
    (hd : launchDepth s g < 10) (hl : checkOne s (whoOf s k) (rdS w f.a.toNat).toNat 64 64 needRd .plain = .ok l) {p : State}
    (hp : launchOf f s k w g l = .refused p) :
    exec (.taskLaunch f) s = .next (book (launchSpec f) k (coreOf s k) w true (p.setWave k (wrS (entryWave (launchSpec f) s w) f.d.toNat 0))) := by
  refine (issue_active h ha _).trans ?_
  rw [taskLaunch_body hg hd hl, hp]
  rfl

/-- A wave that has launched a task: the task's number in its register, the instruction booked. -/
def launchedWave (f : DA) (s : State) (w : Wave) : Wave :=
  bookWave (launchSpec f) s.cycle w true (wrS (entryWave (launchSpec f) s w) f.d.toNat (w64 s.nextSeq))

theorem wrS_pc (w : Wave) (r : Nat) (x : Word) : (wrS w r x).pc = w.pc := rfl
theorem wrS_xa (w : Wave) (r : Nat) (x : Word) : (wrS w r x).xa = w.xa := rfl

/-- Booking an instruction leaves its wave's registers. -/
theorem sameRegs_booked {ds : List RegRef} {sp : Spec} {cycle : Nat} {old w x : Wave} {adv : Bool} (h : SameRegs ds w x) :
    SameRegs ds w (bookWave sp cycle old adv x) :=
  ⟨fun r l hl hr => by rw [rdV, bookWave_v]; exact h.v r l hl hr, fun r hr => by rw [rdS, bookWave_s]; exact h.s r hr,
    fun r hr => by rw [rdM, bookWave_m]; exact h.m r hr⟩

theorem launchedWave_part (f : DA) (s : State) (w : Wave) : launchedWave f s w = wavePart w (launchedWave f s w) := by
  obtain ⟨x, hx⟩ : ∃ x, entryWave (launchSpec f) s w = wavePart w x := ⟨_, entryWave_part ..⟩
  rw [launchedWave, hx]
  rfl

theorem launchedWave_regs (f : DA) (s : State) (w : Wave) : SameRegs [.s f.d.toNat] w (launchedWave f s w) ∧
    rdS (launchedWave f s w) f.d.toNat = w64 s.nextSeq := by
  have hregs : SameRegs [.s f.d.toNat] w (wrS (entryWave (launchSpec f) s w) f.d.toNat (w64 s.nextSeq)) :=
    sameRegs_entry (sameRegs_wrS _ _ _ _ (by simp))
  have hnum := rdS_wrS (entryWave (launchSpec f) s w) f.d.toNat f.d.toNat (w64 s.nextSeq)
  rw [if_pos rfl] at hnum
  rw [launchedWave]
  generalize wrS (entryWave (launchSpec f) s w) f.d.toNat (w64 s.nextSeq) = x at hregs hnum ⊢
  exact ⟨sameRegs_booked hregs, by rw [rdS, bookWave_s]; exact hnum⟩

theorem launchedWave_pc (f : DA) (s : State) (w : Wave) : (launchedWave f s w).pc = w.pc + 8 := by
  rw [launchedWave, bookWave_pc, wrS_pc, entryWave_pc]
  rfl

theorem launchedWave_xa (f : DA) (s : State) (w : Wave) : (launchedWave f s w).xa = w.xa := by
  rw [launchedWave, bookWave_xa, wrS_xa, entryWave_xa]

theorem recordSeen_rest (f : DA) (s : State) (k : Nat) (w : Wave) (g : Group) : recordSeen f s k w g = { s with
    waves := kset k (entryWave (launchSpec f) s w) s.waves, cores := (recordSeen f s k w g).cores, ext := (recordSeen f s k w g).ext,
    tlb := (recordSeen f s k w g).tlb } := by
  have hwaves : (entryState (launchSpec f) s k w).waves = kset k (entryWave (launchSpec f) s w) s.waves := by unfold entryState; split <;> rfl
  have hrest := entryState_rest (launchSpec f) s k w
  have hseen := (touch_touched (entryState (launchSpec f) s k w) g.tenant (rdS w f.a.toNat).toNat false).rest
  rw [hwaves] at hrest
  obtain ⟨cs, he⟩ : ∃ cs, entryState (launchSpec f) s k w = { s with waves := kset k (entryWave (launchSpec f) s w) s.waves, cores := cs } := ⟨_, hrest⟩
  rw [recordSeen]
  generalize touch (entryState (launchSpec f) s k w) g.tenant (rdS w f.a.toNat).toNat false = u at hseen ⊢
  rw [hseen, he]

theorem maxCrew_seen (f : DA) (s : State) (k : Nat) (w : Wave) (g : Group) : maxCrew (recordSeen f s k w g) = maxCrew s := by
  rw [recordSeen_rest]; rfl
theorem launchFull_seen (f : DA) (s : State) (k : Nat) (w : Wave) (g : Group) : launchFull (recordSeen f s k w g) = launchFull s := by
  rw [recordSeen_rest]; rfl
theorem ring_seen (f : DA) (s : State) (k : Nat) (w : Wave) (g : Group) (q : Nat) : (recordSeen f s k w g).ring q = s.ring q := by
  rw [recordSeen_rest]; rfl
theorem nextSeq_seen (f : DA) (s : State) (k : Nat) (w : Wave) (g : Group) : (recordSeen f s k w g).nextSeq = s.nextSeq := by
  rw [recordSeen_rest]
theorem task?_seen (f : DA) (s : State) (k : Nat) (w : Wave) (g : Group) (q : Nat) : (recordSeen f s k w g).task? q = s.task? q :=
  congrArg (kfind q) (congrArg State.tasks (recordSeen_rest f s k w g) :)
theorem cycle_seen (f : DA) (s : State) (k : Nat) (w : Wave) (g : Group) : (recordSeen f s k w g).cycle = s.cycle := by
  rw [recordSeen_rest]
theorem wave?_seen (f : DA) (s : State) (k : Nat) (w : Wave) (g : Group) :
    (recordSeen f s k w g).wave? k = some (entryWave (launchSpec f) s w) :=
  (congrArg (kfind k) (congrArg State.waves (recordSeen_rest f s k w g) :)).trans (kfind_kset_same ..)

/-- A task published and launched: the wave goes on with its number. -/
theorem taskLaunch_published (h : Clear (launchSpec f) s k w) (ha : activeOf w f.h.mask ≠ 0) (hg : s.group? (gidOf k) = some g)
    (hd : launchDepth s g < 10) (hl : checkOne s (whoOf s k) (rdS w f.a.toNat).toNat 64 64 needRd .plain = .ok l) {p : State} {t : Task}
    {st : TaskState} {n : Nat} (hp : launchOf f s k w g l = .ok p (recordSeen f s k w g).nextSeq) (hpub : Published (recordSeen f s k w g) t st n p) :
    ∃ v, exec (.taskLaunch f) s = .next v ∧ v.wave? k = some (launchedWave f s w) ∧ v.nextSeq = s.nextSeq + 1 ∧
      (∃ at_, v.task? s.nextSeq = some { t with state := st, segs := n, readyAt := at_ }) ∧ (∀ q, q ≠ s.nextSeq → v.task? q = s.task? q) ∧
      v.groups = p.groups ∧ ∀ m i, rdN v m i = rdN p m i := by
  have hexec := issue_active h ha (taskLaunchBody f)
  rw [taskLaunch_body hg hd hl, hp, launchAnswer] at hexec
  have hnext : (recordSeen f s k w g).nextSeq = s.nextSeq := nextSeq_seen ..
  have hcycle : p.cycle = s.cycle := hpub.cycle.trans (cycle_seen ..)
  have hwave : p.wave? k = some (entryWave (launchSpec f) s w) := (congrArg (kfind k) hpub.waves).trans (wave?_seen ..)
  rw [hnext] at hexec
  refine ⟨_, hexec, ?_, ?_, ?_, fun q hq => ?_, ?_, fun m i => ?_⟩
  · simp only [finish, wave?_book, wave?_modWave_same, hwave, Option.map_some, launchedWave, cycle_modWave, hcycle]
  · rw [finish, book, nextSeq_modCore, nextSeq_modWave, nextSeq_modWave, hpub.nextSeq, hnext]
  · obtain ⟨at_, ht⟩ := hpub.task
    rw [hnext] at ht
    exact ⟨at_, by rw [finish, book, task?_modCore, task?_modWave, task?_modWave, ht]⟩
  · rw [finish, book, task?_modCore, task?_modWave, task?_modWave, hpub.others q (by rwa [hnext]), task?_seen]
  · rw [finish, book, groups_modCore, groups_modWave, groups_modWave]
  · rw [finish, rdN_book]
    exact rdN_congr fun j _ => rdByte_modWave ..

/-- The task that a wave's record makes. -/
abbrev launchTask (f : DA) (s : State) (k : Nat) (w : Wave) (g : Group) (l : Loc) : Task :=
  newTask (recordSeen f s k w g) (BitVec.ofNat 512 (rdN s l 64)) g.tenant (g.ring.getD 0) (launchDepth s g + 1) (some g.seq) {} g.chain

/-- A launch that has made a task in a state of readiness, of which `more` holds. -/
def LaunchedAs (f : DA) (s : State) (k : Nat) (w : Wave) (r : BitVec 512) (st : TaskState) (more : State → Task → Prop) : Prop :=
  ∃ v w' t', exec (.taskLaunch f) s = .next v ∧ v.wave? k = some w' ∧ SameRegs [.s f.d.toNat] w w' ∧ w'.pc = w.pc + 8 ∧
    rdS w' f.d.toNat = w64 s.nextSeq ∧ v.nextSeq = s.nextSeq + 1 ∧ v.task? s.nextSeq = some t' ∧ t'.rec64 = r ∧ t'.state = st ∧ more v t'

theorem launchedAs_published (h : Clear (launchSpec f) s k w) (ha : activeOf w f.h.mask ≠ 0) (hg : s.group? (gidOf k) = some g)
    (hd : launchDepth s g < 10) (hl : checkOne s (whoOf s k) (rdS w f.a.toNat).toNat 64 64 needRd .plain = .ok l) {p : State} {st : TaskState}
    {n : Nat} (hp : launchOf f s k w g l = .ok p (recordSeen f s k w g).nextSeq)
    (hpub : Published (recordSeen f s k w g) (launchTask f s k w g l) st n p) {more : State → Task → Prop}
    (hmore : ∀ v t', (∀ m i, rdN v m i = rdN p m i) → t'.segs = n → more v t') :
    LaunchedAs f s k w (BitVec.ofNat 512 (rdN s l 64)) st more := by
  obtain ⟨v, hexec, hwave, hnext, ⟨at_, htask⟩, -, -, hmem⟩ := taskLaunch_published h ha hg hd hl hp hpub
  obtain ⟨hregs, hnum⟩ := launchedWave_regs f s w
  exact ⟨v, _, _, hexec, hwave, hregs, launchedWave_pc .., hnum, hnext, htask, rfl, rfl, hmore v _ hmem rfl⟩

/-! ### What a record becomes -/

section Accepted

variable (h : Clear (launchSpec f) s k w) (ha : activeOf w f.h.mask ≠ 0) (hg : s.group? (gidOf k) = some g) (hd : launchDepth s g < 10)
variable (hl : checkOne s (whoOf s k) (rdS w f.a.toNat).toNat 64 64 needRd .plain = .ok l)
variable (hb : recBad (BitVec.ofNat 512 (rdN s l 64)) = []) (hc : recCrew (launchTask f s k w g l) ≤ maxCrew s)

theorem rdN_listed (u : State) (t : Task) (m : Loc) (n : Nat) : rdN (listed u t) m n = rdN u m n := rdN_congr fun i _ => by cases m <;> rfl

include h ha hg hd hl hb hc

/-- With its counter at 0 and the launch table full the wave waits (R303). -/
theorem launch_full (hready : recDep (launchTask f s k w g l) = 0 ∨ ∃ a, checkObj (recordSeen f s k w g) { tenant := g.tenant }
      (recDep (launchTask f s k w g l)) 16 16 needRw = .ok a ∧ rdN (recordSeen f s k w g) a 4 = 0) (hfull : launchFull s = true) :
    exec (.taskLaunch f) s = .next (parkBlockedOwner (startWait (entryState (launchSpec f) s k w) k .launchTable 0) k) :=
  taskLaunch_waits h ha hg hd hl (publish_waits rfl hb (by rwa [maxCrew_seen]) hready (by rwa [launchFull_seen]))

/-- A record with a counter above 0 becomes an armed task, its number beside COUNT (R22). -/
theorem launch_armed (hdep : recDep (launchTask f s k w g l) ≠ 0) (hfam : recFamily (launchTask f s k w g l) = 0) {a : Loc}
    (hobj : checkObj (recordSeen f s k w g) { tenant := g.tenant } (recDep (launchTask f s k w g l)) 16 16 needRw = .ok a)
    (hnum : s.nextSeq < 2 ^ 64) (hcount : rdN (recordSeen f s k w g) a 4 ≠ 0) :
    LaunchedAs f s k w (BitVec.ofNat 512 (rdN s l 64)) .armed
      (fun v _ => rdN v (a.plus 8) 8 = s.nextSeq ∧ rdN v a 4 = rdN (recordSeen f s k w g) a 4) := by
  have hp := publish_armed (at_ := rdS w f.a.toNat) (base := instrRecord (entryState (launchSpec f) s k w) k (entryWave (launchSpec f) s w) .recordInvalid 0 0)
    rfl hb (by rwa [maxCrew_seen]) hdep hfam hobj (.inl hcount)
  simp only [if_neg hcount] at hp
  obtain ⟨b, rfl⟩ := checkObj_shm hobj
  refine launchedAs_published h ha hg hd hl hp (((published_listed _ _).memIO (memIO_touch _ _ _ _)).memIO (memIO_wrN _ _ _ _)) fun v t' hmem _ => ⟨?_, ?_⟩
  · rw [hmem, nextSeq_seen, rdN_wrN_word rfl hnum]
  · rw [hmem, rdN_wrN_apart rfl _ (fun _ => .inl (by simp [Loc.plus, Loc.cell])), rdN_touch_shm, rdN_listed]

/-- A record with a counter at 0 becomes a ready task (R22). -/
theorem launch_armed_zero (hdep : recDep (launchTask f s k w g l) ≠ 0) (hfam : recFamily (launchTask f s k w g l) = 0) {a : Loc}
    (hobj : checkObj (recordSeen f s k w g) { tenant := g.tenant } (recDep (launchTask f s k w g l)) 16 16 needRw = .ok a)
    (hnum : s.nextSeq < 2 ^ 64) (hcount : rdN (recordSeen f s k w g) a 4 = 0) (hdocc : (s.ring (g.ring.getD 0)).docc = false)
    (hfull : launchFull s = false) :
    LaunchedAs f s k w (BitVec.ofNat 512 (rdN s l 64)) .ready (fun v _ => rdN v (a.plus 8) 8 = s.nextSeq) := by
  have hp := publish_armed (at_ := rdS w f.a.toNat) (base := instrRecord (entryState (launchSpec f) s k w) k (entryWave (launchSpec f) s w) .recordInvalid 0 0)
    rfl hb (by rwa [maxCrew_seen]) hdep hfam hobj (.inr (by rwa [launchFull_seen]))
  simp only [if_pos hcount] at hp
  obtain ⟨b, rfl⟩ := checkObj_shm hobj
  obtain ⟨hpub, -, hkept⟩ := (((published_listed (recordSeen f s k w g) (launchTask f s k w g l)).memIO (memIO_touch _ g.tenant
    (recDep (launchTask f s k w g l)) true)).memIO (memIO_wrN _ (Loc.plus 8 (.shm b)) 8 (recordSeen f s k w g).nextSeq)).ready
    ((congrArg Ring.docc (ring_seen ..)).trans hdocc)
  refine launchedAs_published h ha hg hd hl hp hpub fun v t' hmem _ => ?_
  rw [hmem, hkept, nextSeq_seen, rdN_wrN_word rfl hnum]

/-- A counter that cannot be reached makes a refused task (R22). -/
theorem launch_unarmed (hdep : recDep (launchTask f s k w g l) ≠ 0) (hfam : recFamily (launchTask f s k w g l) = 0) {x : Fail}
    (hx : checkObj (recordSeen f s k w g) { tenant := g.tenant } (recDep (launchTask f s k w g l)) 16 16 needRw = .error x) :
    LaunchedAs f s k w (BitVec.ofNat 512 (rdN s l 64)) .refused (fun _ _ => True) := by
  obtain ⟨e, hp⟩ := publish_unarmed (at_ := rdS w f.a.toNat)
    (base := instrRecord (entryState (launchSpec f) s k w) k (entryWave (launchSpec f) s w) .recordInvalid 0 0)
    rfl hb (by rwa [maxCrew_seen]) hdep hfam hx
  exact launchedAs_published h ha hg hd hl hp (((published_listed _ _).memIO (memIO_errorRecord _ _ _)).refuse (.inl hfam)) fun _ _ _ _ => trivial

/-- A record with a family counts the task in its OUTSTANDING; one whose family cannot be reached becomes a refused task (R41, R400). -/
theorem launch_family (hdep : recDep (launchTask f s k w g l) = 0) (hfam : recFamily (launchTask f s k w g l) ≠ 0) (hfull : launchFull s = false) :
    (∀ a, checkObj (recordSeen f s k w g) { tenant := g.tenant } (recFamily (launchTask f s k w g l)) 8 8 needRw = .ok a →
      (s.ring (g.ring.getD 0)).docc = false → rdN (recordSeen f s k w g) a 8 % 2 ^ 32 + 1 < 2 ^ 32 →
      LaunchedAs f s k w (BitVec.ofNat 512 (rdN s l 64)) .ready (fun v _ => rdN v a 8 = rdN (recordSeen f s k w g) a 8 + 1)) ∧
    (∀ x, checkObj (recordSeen f s k w g) { tenant := g.tenant } (recFamily (launchTask f s k w g l)) 8 8 needRw = .error x →
      LaunchedAs f s k w (BitVec.ofNat 512 (rdN s l 64)) .refused (fun _ _ => True)) := by
  obtain ⟨e, hp⟩ := publish_family (at_ := rdS w f.a.toNat)
    (base := instrRecord (entryState (launchSpec f) s k w) k (entryWave (launchSpec f) s w) .recordInvalid 0 0)
    rfl hb (by rwa [maxCrew_seen]) hdep hfam (by rwa [launchFull_seen])
  refine ⟨fun a hobj hdocc hroom => ?_, fun x hx => ?_⟩
  · rw [← checkObj_listed (recordSeen f s k w g) (launchTask f s k w g l)] at hobj
    simp only [familyUpdate_reached hobj, if_true] at hp
    obtain ⟨b, rfl⟩ := checkObj_shm hobj
    obtain ⟨hpub, -, hkept⟩ := ((published_listed (recordSeen f s k w g) (launchTask f s k w g l)).memIO
      ((memIO_touch _ g.tenant (recFamily (launchTask f s k w g l)) true).trans (memIO_wrN _ (.shm b) 8 (famAddOut 1 (rdN (listed (recordSeen f s k w g)
        (launchTask f s k w g l)) (.shm b) 8))))).ready ((congrArg Ring.docc (ring_seen ..)).trans hdocc)
    have hlt : rdN (recordSeen f s k w g) (.shm b) 8 < 256 ^ 8 := rdN_lt ..
    have hcount := hkept (.shm b) 8
    rw [rdN_listed, famAddOut_one hroom, rdN_wrN_word rfl (by omega)] at hcount
    rw [rdN_listed, famAddOut_one hroom] at hp hpub
    generalize makeReady _ _ = p at hp hpub hcount
    exact launchedAs_published h ha hg hd hl hp hpub fun v t' hmem _ => by rw [hmem, hcount]
  · rw [← checkObj_listed (recordSeen f s k w g) (launchTask f s k w g l)] at hx
    simp only [familyUpdate_missed hx, Bool.false_eq_true, if_false] at hp
    exact launchedAs_published h ha hg hd hl hp (((published_listed _ _).memIO (memIO_familyUpdate _ _ _ _ _ _)).refuse (.inr rfl))
      fun _ _ _ _ => trivial

/-- On a queue in declared-occupancy mode segments are reserved for the task, or it is refused (R42, R323). -/
theorem launch_reserves (hnew : s.task? s.nextSeq = none) (hdep : recDep (launchTask f s k w g l) = 0)
    (hfam : recFamily (launchTask f s k w g l) = 0) (hdocc : (s.ring (g.ring.getD 0)).docc = true) (hfull : launchFull s = false) :
    (segFits s (cdiv (recQocc (launchTask f s k w g l)) 1024) = true →
      LaunchedAs f s k w (BitVec.ofNat 512 (rdN s l 64)) .ready (fun _ t' => t'.segs = cdiv (recQocc (launchTask f s k w g l)) 1024)) ∧
    (segFits s (cdiv (recQocc (launchTask f s k w g l)) 1024) = false →
      LaunchedAs f s k w (BitVec.ofNat 512 (rdN s l 64)) .refused (fun _ t' => t'.segs = 0)) := by
  have hp := publish_plain (at_ := rdS w f.a.toNat)
    (base := instrRecord (entryState (launchSpec f) s k w) k (entryWave (launchSpec f) s w) .recordInvalid 0 0)
    rfl hb (by rwa [maxCrew_seen]) hdep hfam (by rwa [launchFull_seen])
  have hseen := recordSeen_rest f s k w g
  have hfresh : (recordSeen f s k w g).task? (recordSeen f s k w g).nextSeq = none := by
    rw [nextSeq_seen, task?_seen, hnew]
  obtain ⟨hfits, hnot⟩ := (published_listed (recordSeen f s k w g) (launchTask f s k w g l)).reserve ((congrArg Ring.docc (ring_seen ..)).trans hdocc)
  rw [segFits_listed h.wave rfl hseen hfresh] at hfits hnot
  exact ⟨fun hn => launchedAs_published h ha hg hd hl hp (hfits hn) fun _ _ _ hsegs => hsegs,
    fun hn => launchedAs_published h ha hg hd hl hp (hnot hn hfam) fun _ _ _ hsegs => hsegs⟩

end Accepted

end Launch

/-- Settles O35: a launch by what its record names, a counter by its COUNT. -/
theorem launchAndDependence : Obligations.LaunchAndDependence := by
  unfold Obligations.LaunchAndDependence
  refine ⟨fun f s k w g h ha hg => ⟨taskLaunch_deep h ha hg, fun hd x hx => taskLaunch_fails h ha hg hd hx, fun hd l hl => ⟨fun hb => ?refused,
      fun hb hc hfam hdep hdocc => ⟨fun hfull => ?full, fun hfull => ?ready⟩, fun hb hc hnew =>
      ⟨fun hdep hfam => ⟨fun a hobj hnum => ⟨?armed, ?zero, ?zeroFull⟩, fun x hx => ?unarmed⟩, fun hdep hfam hfull => ?family, fun hdep hfam hdocc hfull => ?reserves⟩⟩⟩,
    fun f s k w h ha => ⟨fun x hx => depDec_fails h ha hx, fun l hl => ⟨depDec_counts h ha hl, fun hc htask => ?release, fun hc => ?underflow⟩⟩⟩
  case refused =>
    obtain ⟨b, hmin, hp⟩ := publish_refused (u := recordSeen f s k w g) (at_ := rdS w f.a.toNat) (tenant := g.tenant) (ring := g.ring.getD 0)
      (depth := launchDepth s g + 1) (parent := some g.seq) (src := {}) (chain := g.chain)
      (base := instrRecord (entryState (launchSpec f) s k w) k (entryWave (launchSpec f) s w) .recordInvalid 0 0) hb
    refine ⟨b, _, hmin, ?_, ?_, ?_, ?_, ?_, ?_, ?_, taskLaunch_refused h ha hg hd hl hp⟩
    · rfl
    · rfl
    · rfl
    · rfl
    · exact entryWave_pc ..
    · simp only [instrRecord, group?_entry, hg, Option.map_some, Option.getD_some]
    · rfl
  case full => exact launch_full h ha hg hd hl hb hc (.inl hdep) hfull
  case ready =>
    have hp := publish_plain (u := recordSeen f s k w g) (r := BitVec.ofNat 512 (rdN s l 64)) (at_ := rdS w f.a.toNat)
      (base := instrRecord (entryState (launchSpec f) s k w) k (entryWave (launchSpec f) s w) .recordInvalid 0 0) (t := launchTask f s k w g l)
      rfl hb (by rw [maxCrew_seen]; exact hc) hdep hfam (by rw [launchFull_seen]; exact hfull)
    obtain ⟨hpub, hgroups, -⟩ := (published_listed (recordSeen f s k w g) (launchTask f s k w g l)).ready ((congrArg Ring.docc (ring_seen ..)).trans hdocc)
    obtain ⟨v, hexec, hwave, hnext, ⟨at_, htask⟩, hothers, hgr, -⟩ := taskLaunch_published h ha hg hd hl hp hpub
    obtain ⟨hregs, hnum⟩ := launchedWave_regs f s w
    have hseen : (recordSeen f s k w g).groups = s.groups := (congrArg State.groups (recordSeen_rest f s k w g) :)
    exact ⟨v, _, _, hexec, hwave, launchedWave_part f s w, launchedWave_xa f s w, hregs, launchedWave_pc f s w, hnum, hnext, htask, rfl, rfl, rfl, rfl, rfl,
      rfl, rfl, hothers, hgr.trans (hgroups.trans hseen)⟩
  case armed => exact fun hcount => launch_armed h ha hg hd hl hb hc hdep hfam hobj hnum hcount
  case zero => exact fun hcount hdocc hfull => launch_armed_zero h ha hg hd hl hb hc hdep hfam hobj hnum hcount hdocc hfull
  case zeroFull => exact fun hcount hfull => launch_full h ha hg hd hl hb hc (.inr ⟨a, hobj, hcount⟩) hfull
  case unarmed => exact launch_unarmed h ha hg hd hl hb hc hdep hfam hx
  case family => exact launch_family h ha hg hd hl hb hc hdep hfam hfull
  case reserves => exact launch_reserves h ha hg hd hl hb hc hnew hdep hfam hdocc hfull
  case release =>
    have hexec := depDec_reached h ha hl
    have hdown (u : State) (ring : Nat) (r : Record) : countedDown u l ring r (rdN s l 4) (rdN s (l.plus 8) 8) =
        releaseTask (wrN u l 4 0) (rdN s (l.plus 8) 8) := by
      rw [countedDown, hc, if_neg one_ne_zero, if_pos ⟨rfl, htask⟩]
    rw [hdown, hc] at hexec
    exact hexec
  case underflow =>
    have hexec := depDec_reached h ha hl
    rw [countedDown, if_pos hc, hc] at hexec
    exact ⟨_, rfl, rfl, entryWave_pc .., rfl, hexec⟩

end Sys2Proof.Laws
end

section
/-! SUPPORT. Rounding to nearest (R99): the magnitudes of a format in the order of their bits, and `roundQ` as the nearest of them. -/

namespace Sys2Proof.Laws

open Sys2Proof.Machine

/-- A format with infinities, a fraction and two exponent bits or more: what the formats of the special functions have in common (Table 7.1). -/
structure Ieee (f : Fmt) : Prop where
  inf : f.hasInf = true
  fraction : 0 < f.fb
  exponent : f.fb + 2 < f.width

theorem ieee_fmtOf {t : Ty} (ht : t ∈ tysF4) : Ieee (fmtOf t) := by
  fin_cases ht <;> exact ⟨rfl, by decide, by decide⟩

section Sign

variable {f : Fmt} {s : Bool} {b : Nat}

theorem sign_false (f : Fmt) : f.sign false = 0 := rfl
theorem sign_true (f : Fmt) : f.sign true = 2 ^ (f.width - 1) := rfl

/-- The sign bit is above the others. -/
theorem two_pow_le_sign_add (hb : b < 2 ^ (f.width - 1)) : 2 ^ (f.width - 1) ≤ f.sign s + b ↔ s = true := by
  cases s <;> simp [sign_false, sign_true, hb]

theorem sign_add_mod (hb : b < 2 ^ (f.width - 1)) : (f.sign s + b) % 2 ^ (f.width - 1) = b := by
  cases s <;> simp [sign_false, sign_true, Nat.mod_eq_of_lt hb]

theorem sign_add_mod_two (hf : Ieee f) : (f.sign s + b) % 2 = b % 2 := by
  obtain ⟨j, hj⟩ : ∃ j, f.width - 1 = j + 1 := ⟨f.width - 2, by have := hf.exponent; omega⟩
  cases s
  · simp [sign_false]
  · rw [sign_true, hj, pow_succ]
    omega

end Sign

/-! ### The magnitudes of a format -/

/-- The magnitude that exponent and fraction bits stand for (R93), going on beyond the format's largest exponent: from 2^(fb+1) on, each
2^fb bit patterns reach as far again as all before them. -/
noncomputable def mag (f : Fmt) (b : Nat) : ℝ :=
  ((b - (b / 2 ^ f.fb - 1) * 2 ^ f.fb : Nat) : ℝ) * 2 ^ (((b / 2 ^ f.fb - 1 : Nat) : Int) + (1 - f.bias - f.fb))

section Magnitudes

variable {f : Fmt} {b c : Nat}

theorem mag_scale {k q : Nat} (hq : q ≤ 2 * 2 ^ f.fb) (hk : k = 0 ∨ 2 ^ f.fb ≤ q) :
    mag f (k * 2 ^ f.fb + q) = q * 2 ^ ((k : Int) + (1 - f.bias - f.fb)) := by
  have hpos : 0 < 2 ^ f.fb := Nat.two_pow_pos _
  have hdiv : (k * 2 ^ f.fb + q) / 2 ^ f.fb = k + q / 2 ^ f.fb := by rw [Nat.add_comm, Nat.add_mul_div_right _ _ hpos, Nat.add_comm]
  rcases hq.lt_or_eq with hlt | rfl
  · have hfield : (k * 2 ^ f.fb + q) / 2 ^ f.fb - 1 = k := by
      rcases hk with rfl | hk
      · have := Nat.div_lt_of_lt_mul (Nat.mul_comm 2 _ ▸ hlt)
        omega
      · have : q / 2 ^ f.fb = 1 := Nat.div_eq_of_lt_le (by omega) (by omega)
        omega
    rw [mag, hfield, Nat.add_sub_cancel_left]
  · have hfield : (k * 2 ^ f.fb + 2 * 2 ^ f.fb) / 2 ^ f.fb - 1 = k + 1 := by rw [hdiv, Nat.mul_div_cancel _ hpos]; rfl
    have hrest : k * 2 ^ f.fb + 2 * 2 ^ f.fb - (k + 1) * 2 ^ f.fb = 2 ^ f.fb := by rw [← Nat.add_mul, ← Nat.sub_mul]; simp
    rw [mag, hfield, hrest]
    push_cast
    rw [show (k : Int) + 1 + (1 - f.bias - f.fb) = (k + (1 - f.bias - f.fb)) + 1 by ring, zpow_add_one₀ two_ne_zero]
    ring

/-- Every bit pattern lies in one stretch of equal steps with the next. -/
theorem bits_scale (f : Fmt) (b : Nat) : ∃ k q, b = k * 2 ^ f.fb + q ∧ q < 2 * 2 ^ f.fb ∧ (k = 0 ∨ 2 ^ f.fb ≤ q) := by
  have hpos : 0 < 2 ^ f.fb := Nat.two_pow_pos _
  have hdm := Nat.div_add_mod' b (2 ^ f.fb)
  have hm := Nat.mod_lt b hpos
  rcases hd : b / 2 ^ f.fb with _ | k
  · exact ⟨0, b, by omega, by rw [hd] at hdm; omega, .inl rfl⟩
  · rw [hd, Nat.succ_mul] at hdm
    exact ⟨k, b % 2 ^ f.fb + 2 ^ f.fb, by omega, by omega, .inr (by omega)⟩

theorem mag_strictMono (f : Fmt) : StrictMono (mag f) := by
  refine strictMono_nat_of_lt_succ fun b => ?_
  obtain ⟨k, q, rfl, hq, hk⟩ := bits_scale f b
  rw [Nat.add_assoc, mag_scale hq.le hk, mag_scale (by omega) (by omega)]
  have : (0 : ℝ) < 2 ^ ((k : Int) + (1 - f.bias - f.fb)) := by positivity
  push_cast
  nlinarith

theorem mag_zero (f : Fmt) : mag f 0 = 0 := by simp [mag]

theorem mag_nonneg (f : Fmt) (b : Nat) : 0 ≤ mag f b := mag_zero f ▸ (mag_strictMono f).monotone b.zero_le

end Magnitudes

/-- The real number of a sign and a magnitude. -/
def signed (s : Bool) (a : ℝ) : ℝ := if s then -a else a

@[simp] theorem signed_false (a : ℝ) : signed false a = a := rfl
@[simp] theorem signed_true (a : ℝ) : signed true a = -a := rfl
@[simp] theorem abs_signed (s : Bool) (a : ℝ) : |signed s a| = |a| := by cases s <;> simp
theorem signed_not (s : Bool) (a : ℝ) : signed (!s) a = -signed s a := by cases s <;> simp

theorem rat_fin (s : Bool) (n : Nat) (e : Int) : ((FV.fin s n e).rat : ℝ) = signed s (n * 2 ^ e) := by
  cases s <;> simp [FV.rat]

section Patterns

variable {f : Fmt} {s : Bool} {b x r : Nat} {u y : ℝ}

theorem Ieee.two_pow_width (hf : Ieee f) : 2 ^ f.width = 2 * 2 ^ (f.width - 1) := by
  rw [← pow_succ', Nat.sub_add_cancel (by have := hf.exponent; omega)]

theorem Ieee.eMax_mul (hf : Ieee f) : f.eMax * 2 ^ f.fb + 2 ^ f.fb = 2 ^ (f.width - 1) := by
  have := hf.exponent
  rw [Fmt.eMax, ← Nat.succ_mul, Nat.succ_eq_add_one, Nat.sub_add_cancel (Nat.one_le_two_pow), ← pow_add]
  congr 1
  omega

theorem Ieee.three_le_eMax (hf : Ieee f) : 3 ≤ f.eMax := by
  have := hf.exponent
  have : 2 ^ 2 ≤ 2 ^ (f.width - 1 - f.fb) := Nat.pow_le_pow_right (by omega) (by omega)
  unfold Fmt.eMax
  omega

theorem Ieee.maxBits (hf : Ieee f) : f.maxBits + 1 = f.eMax * 2 ^ f.fb := by
  have : 0 < f.eMax * 2 ^ f.fb := Nat.mul_pos (by have := hf.three_le_eMax; omega) (Nat.two_pow_pos _)
  rw [Fmt.maxBits, if_pos hf.inf, Nat.sub_add_cancel this]

theorem Ieee.maxBits_odd (hf : Ieee f) : f.maxBits % 2 = 1 := by
  have h := hf.maxBits
  obtain ⟨n, hn⟩ := Nat.exists_eq_succ_of_ne_zero hf.fraction.ne'
  rw [hn, pow_succ, ← Nat.mul_assoc] at h
  omega

theorem Ieee.maxBits_succ_lt (hf : Ieee f) : f.maxBits + 1 < 2 ^ (f.width - 1) := by
  rw [hf.maxBits, ← hf.eMax_mul]
  exact Nat.lt_add_of_pos_right (Nat.two_pow_pos _)

theorem sign_add_lt (hf : Ieee f) (hb : b < 2 ^ (f.width - 1)) : f.sign s + b < 2 ^ f.width := by
  rw [hf.two_pow_width]
  cases s <;> simp only [sign_false, sign_true] <;> omega

/-- Every pattern is a sign and the bits below it. -/
theorem exists_sign_add (hf : Ieee f) (hx : x < 2 ^ f.width) : ∃ s b, b < 2 ^ (f.width - 1) ∧ x = f.sign s + b := by
  rw [hf.two_pow_width] at hx
  rcases Nat.lt_or_ge x (2 ^ (f.width - 1)) with h | h
  · exact ⟨false, x, h, by rw [sign_false, Nat.zero_add]⟩
  · exact ⟨true, x - 2 ^ (f.width - 1), by omega, by rw [sign_true]; omega⟩

/-- R93: a pattern whose exponent field is not all ones is a sign and a magnitude. -/
theorem fdec_finite (hf : Ieee f) (hb : b ≤ f.maxBits) :
    ∃ n e, fdec f (f.sign s + b) = .fin s n e ∧ (n : ℝ) * 2 ^ e = mag f b := by
  have hlt : b < 2 ^ (f.width - 1) := by have := hf.maxBits_succ_lt; omega
  have hsign : decide (2 ^ (f.width - 1) ≤ (f.sign s + b) % 2 ^ f.width) = s := by
    rw [Nat.mod_eq_of_lt (sign_add_lt hf hlt), Bool.eq_iff_iff, decide_eq_true_iff, two_pow_le_sign_add hlt]
  have hfield : b / 2 ^ f.fb ≠ f.eMax := (Nat.div_lt_of_lt_mul (by have := hf.maxBits; rw [Nat.mul_comm]; omega)).ne
  simp only [fdec, sign_add_mod hlt, hsign, hfield, false_and, if_false]
  rcases hd : b / 2 ^ f.fb with _ | k
  · have : b % 2 ^ f.fb = b := by simpa [hd] using Nat.div_add_mod' b (2 ^ f.fb)
    refine ⟨_, _, rfl, ?_⟩
    simp [mag, hd, this]
  · have : b - k * 2 ^ f.fb = b % 2 ^ f.fb + 2 ^ f.fb := by
      have := Nat.div_add_mod' b (2 ^ f.fb)
      rw [hd, Nat.succ_mul] at this
      omega
    refine ⟨_, _, rfl, ?_⟩
    rw [mag, hd, Nat.add_sub_cancel, this]
    push_cast
    congr 2
    ring

theorem is_sign_add (hf : Ieee f) (hb : b ≤ f.maxBits) : f.Is (f.sign s + b) (signed s (mag f b)) := by
  obtain ⟨n, e, hdec, hval⟩ := fdec_finite (s := s) hf hb
  have := hf.maxBits_succ_lt
  exact ⟨sign_add_lt hf (by omega), ⟨s, n, e, hdec⟩, by rw [hdec, rat_fin, hval]⟩

/-- The patterns that stand for numbers are those of a sign and a magnitude up to the largest. -/
theorem Is.parts (hf : Ieee f) (h : f.Is x u) : ∃ s b, b ≤ f.maxBits ∧ x = f.sign s + b ∧ u = signed s (mag f b) := by
  obtain ⟨hx, ⟨s, n, e, hdec⟩, hu⟩ := h
  obtain ⟨s', b, hb, rfl⟩ := exists_sign_add hf hx
  have hle : b ≤ f.maxBits := by
    have hmax := hf.maxBits
    have hmul := hf.eMax_mul
    by_contra hgt
    have hfield : b / 2 ^ f.fb = f.eMax := Nat.div_eq_of_lt_le (by omega) (by rw [Nat.succ_mul]; omega)
    simp only [fdec, sign_add_mod hb, hfield, hf.inf, and_self, if_true] at hdec
    split at hdec <;> cases hdec
  exact ⟨s', b, hle, rfl, hu.trans (is_sign_add hf hle).2.2.symm⟩

theorem infBits_eq (hf : Ieee f) : f.infBits s = f.sign s + (f.maxBits + 1) := by
  rw [Fmt.infBits, if_pos hf.inf, hf.maxBits]

theorem not_is_infBits (hf : Ieee f) : ¬ f.Is (f.infBits s) u := by
  intro h
  obtain ⟨s', b, hb, hx, -⟩ := Is.parts hf h
  have hlt := hf.maxBits_succ_lt
  rw [infBits_eq hf] at hx
  have := congrArg (· % 2 ^ (f.width - 1)) hx
  simp only [sign_add_mod hlt, sign_add_mod (show b < 2 ^ (f.width - 1) by omega)] at this
  omega

/-- R99: beyond the format is at or above the middle between the largest finite magnitude and the one that would follow it. -/
theorem beyond_iff (hf : Ieee f) : f.Beyond y ↔ mag f f.maxBits + mag f (f.maxBits + 1) ≤ 2 * |y| := by
  have h3 := hf.three_le_eMax
  have hmax := hf.maxBits
  have hp : 2 ≤ 2 ^ f.fb := Nat.le_self_pow hf.fraction.ne' 2
  obtain ⟨k, hk⟩ : ∃ k, f.eMax = k + 2 := ⟨f.eMax - 2, by omega⟩
  rw [hk, Nat.add_mul] at hmax
  have hpred : f.maxBits - 1 = k * 2 ^ f.fb + (2 * 2 ^ f.fb - 2) := by omega
  have htop : f.maxBits = k * 2 ^ f.fb + (2 * 2 ^ f.fb - 1) := by omega
  have hrat {b : Nat} (hb : b ≤ f.maxBits) : ((fdec f b).rat : ℝ) = mag f b := by
    simpa [sign_false] using (is_sign_add (s := false) hf hb).2.2.symm
  have hodd := hf.maxBits_odd
  have heven : mag f f.maxBits - mag f (f.maxBits - 1) = mag f (f.maxBits + 1) - mag f f.maxBits := by
    rw [hmax, hpred, htop, mag_scale (by omega) (by omega), mag_scale (by omega) (by omega), mag_scale le_rfl (by omega),
      Nat.cast_sub (by omega), Nat.cast_sub (by omega)]
    push_cast
    ring
  simp only [Fmt.Beyond, hodd, and_true]
  push_cast
  rw [hrat le_rfl, hrat (Nat.sub_le _ _), heven, eq_comm, ← le_iff_lt_or_eq]
  constructor <;> intro h <;> linarith

end Patterns

end Sys2Proof.Laws
end

section
/-! SUPPORT. `roundQ` under RNE is the nearest value, a tie going to the even one; what lies between two numbers that round alike rounds
as they do. -/

namespace Sys2Proof.Laws

open Sys2Proof.Machine

/-! ### The nearest magnitude -/

theorem rdiv_rne (s : Bool) (n d : Nat) (hd : 0 < d) : ∃ r, rdiv .rne s n d = r ∧ |(n / d : ℝ) - r| ≤ 1 / 2 ∧
    (|(n / d : ℝ) - r| = 1 / 2 → r % 2 = 0) := by
  have hd' : (0 : ℝ) < d := Nat.cast_pos.2 hd
  have hval : (n / d : ℝ) = (n / d : Nat) + (n % d : Nat) / d := by
    rw [div_eq_iff hd'.ne', add_mul, div_mul_cancel₀ _ hd'.ne']
    exact_mod_cast (Nat.div_add_mod' n d).symm
  have hr0 : (0 : ℝ) ≤ (n % d : Nat) / d := by positivity
  have hr1 : ((n % d : Nat) / d : ℝ) < 1 := (div_lt_one hd').2 (by exact_mod_cast Nat.mod_lt n hd)
  have hlow : 2 * (n % d) < d ↔ ((n % d : Nat) / d : ℝ) < 1 / 2 := by
    rw [div_lt_div_iff₀ hd' two_pos]; norm_cast; rw [one_mul, Nat.mul_comm]
  have hhigh : d < 2 * (n % d) ↔ 1 / 2 < ((n % d : Nat) / d : ℝ) := by
    rw [div_lt_div_iff₀ two_pos hd']; norm_cast; rw [one_mul, Nat.mul_comm]
  rw [hval]
  generalize ((n % d : Nat) / d : ℝ) = t at *
  simp only [rdiv, hlow, hhigh]
  split
  next h => exact ⟨_, rfl, abs_le.2 ⟨by linarith, by linarith⟩, fun ht => by rw [add_sub_cancel_left, abs_of_nonneg hr0] at ht; linarith⟩
  next h =>
    split
    next h' =>
      refine ⟨_, rfl, abs_le.2 ⟨by push_cast; linarith, by push_cast; linarith⟩, fun ht => ?_⟩
      rw [Nat.cast_add, Nat.cast_one, add_sub_add_left_eq_sub, abs_of_neg (by linarith)] at ht
      linarith
    next h' =>
      split
      next heven => exact ⟨_, rfl, abs_le.2 ⟨by linarith, by linarith⟩, fun _ => heven⟩
      next hodd => exact ⟨_, rfl, abs_le.2 ⟨by push_cast; linarith, by push_cast; linarith⟩, fun _ => by omega⟩

theorem rscale_rne (s : Bool) (n : Nat) (e u : Int) : ∃ r, rscale .rne s n 1 e u = r ∧ |n * (2 : ℝ) ^ (e - u) - r| ≤ 1 / 2 ∧
    (|n * (2 : ℝ) ^ (e - u) - r| = 1 / 2 → r % 2 = 0) := by
  unfold rscale
  split
  next h =>
    obtain ⟨k, hk⟩ := Int.eq_ofNat_of_zero_le (sub_nonneg.2 h)
    simpa [hk] using rdiv_rne s (n * 2 ^ k) 1 one_pos
  next h =>
    obtain ⟨k, hk⟩ := Int.eq_ofNat_of_zero_le (show 0 ≤ u - e by omega)
    have := rdiv_rne s n (2 ^ k) (Nat.two_pow_pos _)
    rw [show e - u = -(k : Int) by omega, hk]
    simpa [div_eq_mul_inv] using this

/-- Of all magnitudes that of b is nearest to a, and b is even where another is as near. -/
def Nearest (f : Fmt) (b : Nat) (a : ℝ) : Prop :=
  ∀ c, |mag f b - a| ≤ |mag f c - a| ∧ (|mag f b - a| = |mag f c - a| → c ≠ b → b % 2 = 0)

section Nearest

variable {f : Fmt} {b : Nat} {a : ℝ}

/-- To be nearest is to be no further than the neighbours. -/
theorem Nearest.of_above (ha : mag f b ≤ a) (h : 2 * a ≤ mag f b + mag f (b + 1))
    (heven : 2 * a = mag f b + mag f (b + 1) → b % 2 = 0) : Nearest f b a := by
  intro c
  rw [abs_of_nonpos (sub_nonpos.2 ha)]
  rcases lt_trichotomy c b with hc | rfl | hc
  · have := mag_strictMono f hc
    rw [abs_of_nonpos (by linarith)]
    exact ⟨by linarith, fun ht => by linarith⟩
  · exact ⟨by rw [abs_of_nonpos (sub_nonpos.2 ha)], fun _ hne => absurd rfl hne⟩
  · have := (mag_strictMono f).monotone (Nat.succ_le_of_lt hc)
    have hlt := mag_strictMono f (Nat.lt_succ_self b)
    simp only [Nat.succ_eq_add_one] at this hlt
    rw [abs_of_nonneg (by linarith)]
    exact ⟨by linarith, fun ht _ => heven (by linarith)⟩

theorem Nearest.of_below (ha : a < mag f (b + 1)) (h : mag f b + mag f (b + 1) ≤ 2 * a)
    (heven : mag f b + mag f (b + 1) = 2 * a → (b + 1) % 2 = 0) : Nearest f (b + 1) a := by
  intro c
  rw [abs_of_pos (sub_pos.2 ha)]
  rcases lt_trichotomy c (b + 1) with hc | rfl | hc
  · have := (mag_strictMono f).monotone (Nat.le_of_lt_succ hc)
    have hlt := mag_strictMono f (Nat.lt_succ_self b)
    simp only [Nat.succ_eq_add_one] at hlt
    rw [abs_of_nonpos (by linarith)]
    exact ⟨by linarith, fun ht _ => heven (by linarith)⟩
  · exact ⟨by rw [abs_of_pos (sub_pos.2 ha)], fun _ hne => absurd rfl hne⟩
  · have := mag_strictMono f hc
    rw [abs_of_pos (by linarith)]
    exact ⟨by linarith, fun ht => by linarith⟩

/-- An integer nearest to a significand gives the bits nearest to the number. -/
theorem Nearest.of_significand (hf : Ieee f) {k r : Nat} {x : ℝ} (hlow : k = 0 ∨ 2 ^ f.fb ≤ x) (h0 : 0 ≤ x) (hhigh : x < 2 * 2 ^ f.fb)
    (hr : |x - r| ≤ 1 / 2) (heven : |x - r| = 1 / 2 → r % 2 = 0) :
    Nearest f (k * 2 ^ f.fb + r) (x * 2 ^ ((k : Int) + (1 - f.bias - f.fb))) := by
  have hstep : (0 : ℝ) < 2 ^ ((k : Int) + (1 - f.bias - f.fb)) := by positivity
  have hpar : (k * 2 ^ f.fb + r) % 2 = r % 2 := by
    obtain ⟨j, hj⟩ := Nat.exists_eq_succ_of_ne_zero hf.fraction.ne'
    rw [hj, pow_succ, ← Nat.mul_assoc]
    omega
  obtain ⟨hge, hle⟩ := abs_le.1 hr
  have hrle : r ≤ 2 * 2 ^ f.fb := by
    have : (r : ℝ) < (2 * 2 ^ f.fb + 1 : Nat) := by push_cast; linarith
    exact Nat.le_of_lt_succ (by exact_mod_cast this)
  have hrlow : k = 0 ∨ 2 ^ f.fb ≤ r := hlow.imp_right fun h => by
    have : ((2 ^ f.fb : Nat) : ℝ) < (r + 1 : Nat) := by push_cast; linarith
    exact Nat.le_of_lt_succ (by exact_mod_cast this)
  rcases le_or_gt (r : ℝ) x with hx | hx
  · have hlt : r < 2 * 2 ^ f.fb := by exact_mod_cast hx.trans_lt hhigh
    refine .of_above ?_ ?_ ?_ <;> rw [mag_scale hrle hrlow]
    · gcongr
    · rw [Nat.add_assoc, mag_scale hlt (by omega)]
      push_cast
      nlinarith
    · rw [Nat.add_assoc, mag_scale hlt (by omega), hpar, ← add_mul, ← mul_assoc, mul_left_inj' hstep.ne']
      push_cast
      intro ht
      exact heven (by rw [abs_of_nonneg (by linarith)]; linarith)
  · obtain ⟨q, rfl⟩ : ∃ q, r = q + 1 := Nat.exists_eq_succ_of_ne_zero fun h => by rw [h, Nat.cast_zero] at hx; linarith
    have hqlow : k = 0 ∨ 2 ^ f.fb ≤ q := hlow.imp_right fun h => by
      have : ((2 ^ f.fb : Nat) : ℝ) < (q + 1 : Nat) := by push_cast at hx ⊢; linarith
      exact Nat.le_of_lt_succ (by exact_mod_cast this)
    push_cast at hge hx
    rw [← Nat.add_assoc]
    refine .of_below ?_ ?_ ?_ <;> rw [Nat.add_assoc, mag_scale hrle hrlow]
    · push_cast
      gcongr
    · rw [mag_scale (by omega) hqlow]
      push_cast
      nlinarith
    · rw [mag_scale (by omega) hqlow, hpar, ← add_mul, ← mul_assoc, mul_left_inj' hstep.ne']
      push_cast
      intro ht
      exact heven (by rw [abs_of_neg (by push_cast; linarith)]; push_cast; linarith)

theorem log2q_one {n : Nat} (hn : n ≠ 0) : log2q n 1 = Nat.log2 n := by
  simp [log2q, show Nat.log2 1 = 0 from rfl, Nat.log2_self_le hn]

theorem two_pow_log2_le {n : Nat} (hn : n ≠ 0) : (2 : ℝ) ^ (Nat.log2 n : Int) ≤ n := by exact_mod_cast Nat.log2_self_le hn
theorem lt_two_pow_log2 (n : Nat) : (n : ℝ) < 2 ^ ((Nat.log2 n : Int) + 1) := by exact_mod_cast Nat.lt_log2_self

/-- R99 for a number that is not 0: the bits nearest to its magnitude, or the infinity where they lie beyond the largest finite ones. -/
theorem roundQ_nearest (hf : Ieee f) (s : Bool) {n : Nat} (hn : n ≠ 0) (e : Int) : ∃ b, Nearest f b (n * 2 ^ e) ∧
    roundQ f .rne false s n 1 e = if f.maxBits < b then f.infBits s else f.sign s + b := by
  simp only [roundQ, if_neg hn, log2q_one hn, overflowBits, Bool.false_eq_true, if_false]
  generalize hex : (if (Nat.log2 n : Int) + e < 1 - f.bias then 1 - (f.bias : Int) else Nat.log2 n + e) = ex
  obtain ⟨k, hk⟩ := Int.eq_ofNat_of_zero_le (show 0 ≤ ex - (1 - f.bias) by split at hex <;> omega)
  obtain ⟨r, hr, hnear, heven⟩ := rscale_rne s n e (ex - f.fb)
  rw [hr, show ex - (f.fb : Int) + f.fb - (1 - f.bias) = k by omega, Int.toNat_natCast]
  have hlow : k = 0 ∨ (2 : ℝ) ^ f.fb ≤ n * 2 ^ (e - (ex - f.fb)) := by
    rcases Nat.eq_zero_or_pos k with h0 | hpos
    · exact .inl h0
    · right
      calc (2 : ℝ) ^ f.fb = 2 ^ (Nat.log2 n : Int) * 2 ^ (e - (ex - f.fb)) := by
            rw [← zpow_add₀ two_ne_zero, ← zpow_natCast]; congr 1; split at hex <;> omega
        _ ≤ _ := by gcongr; exact two_pow_log2_le hn
  have hhigh : (n : ℝ) * 2 ^ (e - (ex - f.fb)) < 2 * 2 ^ f.fb := by
    calc (n : ℝ) * 2 ^ (e - (ex - f.fb)) < 2 ^ ((Nat.log2 n : Int) + 1) * 2 ^ (e - (ex - f.fb)) := by gcongr; exact lt_two_pow_log2 n
      _ = 2 ^ ((Nat.log2 n : Int) + 1 + (e - (ex - f.fb))) := (zpow_add₀ two_ne_zero _ _).symm
      _ ≤ 2 ^ ((f.fb + 1 : Nat) : Int) := zpow_le_zpow_right₀ one_le_two (by push_cast; split at hex <;> omega)
      _ = 2 * 2 ^ f.fb := by rw [zpow_natCast, pow_succ']
  refine ⟨_, ?_, rfl⟩
  have hb := Nearest.of_significand hf hlow (by positivity) hhigh hnear heven
  rwa [mul_assoc, ← zpow_add₀ two_ne_zero, show e - (ex - f.fb) + ((k : Int) + (1 - f.bias - f.fb)) = e by omega] at hb

/-- The largest finite bits are odd: the middle above them rounds away (R99 step 2). -/
theorem Nearest.maxBits_lt_iff (hf : Ieee f) (hb : Nearest f b a) : f.maxBits < b ↔ mag f f.maxBits + mag f (f.maxBits + 1) ≤ 2 * a := by
  have hmono := mag_strictMono f
  constructor <;> intro h
  · have h1 := hmono.monotone (Nat.succ_le_of_lt h)
    have h2 := hmono (Nat.lt_succ_self f.maxBits)
    obtain ⟨hle, -⟩ := hb f.maxBits
    simp only [Nat.succ_eq_add_one] at h1 h2
    rw [← sq_le_sq] at hle
    nlinarith
  · by_contra hle
    have h1 := hmono.monotone (Nat.le_of_not_lt hle)
    have h2 := hmono (Nat.lt_succ_self f.maxBits)
    obtain ⟨hnear, heven⟩ := hb (f.maxBits + 1)
    simp only [Nat.succ_eq_add_one] at h2
    rw [abs_of_nonpos (by linarith)] at hnear heven
    have htie : -(mag f b - a) = |mag f (f.maxBits + 1) - a| := le_antisymm hnear (abs_le.2 ⟨by linarith, by linarith⟩)
    have hmax : mag f b = mag f f.maxBits := by
      rcases abs_cases (mag f (f.maxBits + 1) - a) with ⟨h3, _⟩ | ⟨h3, _⟩ <;> linarith
    have := heven htie (by omega)
    have := hf.maxBits_odd
    rw [hmono.injective hmax] at *
    omega

end Nearest

/-! ### Rounding -/

/-- r is the rounding under RNE of the number y, +0 being the zero it rounds from (R99). -/
def Rounded (f : Fmt) (y : ℝ) (r : Nat) : Prop := ∀ neg : Bool, (neg = true ↔ y < 0) → f.Rounds .rne neg y r

theorem rounds_rne_iff {f : Fmt} {neg : Bool} {y : ℝ} {r : Nat} : f.Rounds .rne neg y r ↔
    (∀ u, f.Is r u → (2 ^ (f.width - 1) ≤ r ↔ neg = true)) ∧
    (¬ f.Beyond y → ∃ v, f.Is r v ∧ ∀ x u, f.Is x u → |v - y| ≤ |u - y| ∧ (|v - y| = |u - y| → u ≠ v → r % 2 = 0)) ∧
    (f.Beyond y → r = f.infBits neg) :=
  ⟨fun h => ⟨h.sign, h.rne rfl, h.rneOver rfl⟩,
    fun ⟨hs, hn, ho⟩ => ⟨hs, nofun, nofun, nofun, nofun, nofun, fun _ => hn, fun _ => ho⟩⟩

section Rounding

variable {f : Fmt} {y y₁ y₂ : ℝ} {r : Nat}

/-- The number nearest in magnitude, with the sign of what is rounded, is the nearest of all. -/
theorem signed_nearest {s t : Bool} {b c : Nat} {a : ℝ} (ha : 0 ≤ a) (hb : Nearest f b a) :
    |signed s (mag f b) - signed s a| ≤ |signed t (mag f c) - signed s a| ∧
    (|signed s (mag f b) - signed s a| = |signed t (mag f c) - signed s a| → signed t (mag f c) ≠ signed s (mag f b) → b % 2 = 0) := by
  have hsame (x : ℝ) : |signed s x - signed s a| = |x - a| := by cases s <;> simp [abs_sub_comm, neg_add_eq_sub]
  rw [hsame]
  rcases eq_or_ne t s with rfl | hne
  · rw [hsame]
    exact ⟨(hb c).1, fun ht hu => (hb c).2 ht fun h => hu (h ▸ rfl)⟩
  · have hopp : |signed t (mag f c) - signed s a| = mag f c + a := by
      have hc := mag_nonneg f c
      obtain rfl : t = !s := Bool.eq_not.2 hne
      cases s
      · simp [abs_of_nonpos (show -mag f c - a ≤ 0 by linarith)]; ring
      · simp [abs_of_nonneg (show 0 ≤ mag f c + a by linarith)]
    have hc := mag_nonneg f c
    have hzero : |mag f b - a| ≤ a := by simpa [mag_zero, abs_of_nonneg ha] using (hb 0).1
    rw [hopp]
    refine ⟨by linarith, fun ht hu => ?_⟩
    have hc0 : mag f c = 0 := by linarith
    rcases Nat.eq_zero_or_pos b with rfl | hpos
    · rfl
    · exact (hb 0).2 (by rw [ht, hc0, mag_zero, zero_add, zero_sub, abs_neg, abs_of_nonneg ha]) hpos.ne

theorem rounds_zero (hf : Ieee f) : f.Rounds .rne false 0 (f.sign false) := by
  have hpos : 0 < mag f f.maxBits + mag f (f.maxBits + 1) :=
    add_pos_of_nonneg_of_pos (mag_nonneg f _) (mag_zero f ▸ mag_strictMono f (Nat.succ_pos _))
  have hz := is_sign_add (s := false) hf (Nat.zero_le f.maxBits)
  simp only [mag_zero, signed_false, Nat.add_zero] at hz
  refine rounds_rne_iff.2 ⟨fun u _ => ?_, fun _ => ⟨0, hz, fun x u _ => ⟨by simp, fun _ _ => rfl⟩⟩, fun h => ?_⟩
  · simp [sign_false]
  · rw [beyond_iff hf, abs_zero] at h
    linarith

/-- R99: `roundQ` rounds a number of either sign to the nearest value. -/
theorem rounded_roundQ (hf : Ieee f) {s : Bool} {n : Nat} {e : Int} (hs : n = 0 → s = false) :
    Rounded f (signed s (n * 2 ^ e)) (roundQ f .rne false s n 1 e) := by
  rcases eq_or_ne n 0 with rfl | hn
  · obtain rfl := hs rfl
    intro neg hneg
    obtain rfl : neg = false := by simpa using hneg
    simpa [roundQ] using rounds_zero hf
  · intro neg hneg
    have ha : (0 : ℝ) < n * 2 ^ e := by positivity
    obtain rfl : neg = s := by
      rw [Bool.eq_iff_iff, hneg]
      cases s <;> simp [ha, ha.le]
    obtain ⟨b, hb, hround⟩ := roundQ_nearest hf neg hn e
    have hover := hb.maxBits_lt_iff hf
    rw [hround, rounds_rne_iff, beyond_iff hf, abs_signed, abs_of_pos ha, ← hover]
    split
    next h => exact ⟨fun u hu => absurd hu (not_is_infBits hf), fun h' => absurd h h', fun _ => rfl⟩
    next h =>
      have hle := Nat.le_of_not_lt h
      have hlt := hf.maxBits_succ_lt
      refine ⟨fun u _ => two_pow_le_sign_add (by omega), fun _ => ⟨_, is_sign_add hf hle, fun x u hx => ?_⟩, fun h' => absurd h' h⟩
      obtain ⟨t, c, -, -, rfl⟩ := Is.parts hf hx
      rw [sign_add_mod_two hf]
      exact signed_nearest ha.le hb

theorem Is.unique {x : Nat} {u v : ℝ} (hu : f.Is x u) (hv : f.Is x v) : u = v := hu.2.2.trans hv.2.2.symm

/-- As near to what lies between two numbers as to both. -/
theorem abs_sub_le_of_between {u v : ℝ} (h : y₁ ≤ y) (h' : y ≤ y₂) (h₁ : |v - y₁| ≤ |u - y₁|) (h₂ : |v - y₂| ≤ |u - y₂|) :
    |v - y| ≤ |u - y| ∧ (|v - y| = |u - y| → u ≠ v → |v - y₁| = |u - y₁| ∨ |v - y₂| = |u - y₂|) := by
  rw [← sq_le_sq] at h₁ h₂ ⊢
  simp only [← sq_eq_sq_iff_abs_eq_abs]
  rcases lt_trichotomy v u with hlt | rfl | hlt
  · have : 2 * y₂ ≤ u + v := by nlinarith
    refine ⟨by nlinarith, fun ht _ => .inr ?_⟩
    have : u + v = 2 * y := mul_left_cancel₀ (sub_ne_zero.2 hlt.ne') (by linarith)
    obtain rfl : y = y₂ := by linarith
    exact ht
  · exact ⟨le_rfl, fun _ hne => absurd rfl hne⟩
  · have : u + v ≤ 2 * y₁ := by nlinarith
    refine ⟨by nlinarith, fun ht _ => .inl ?_⟩
    have : u + v = 2 * y := mul_left_cancel₀ (sub_ne_zero.2 hlt.ne) (by linarith)
    obtain rfl : y = y₁ := by linarith
    exact ht

/-- A number beyond the format, of this sign, rounds to an infinity, and no other does. -/
theorem Rounded.beyond_iff (hf : Ieee f) (h : Rounded f y r) : f.Beyond y ↔ r = f.infBits (decide (y < 0)) := by
  obtain ⟨-, hnear, hover⟩ := rounds_rne_iff.1 (h (decide (y < 0)) decide_eq_true_iff)
  refine ⟨hover, fun hr => by_contra fun hb => ?_⟩
  obtain ⟨v, hv, -⟩ := hnear hb
  exact not_is_infBits hf (hr ▸ hv)

/-- The sign of the result is the sign of what was rounded. -/
theorem Rounded.sign_iff (hf : Ieee f) (h : Rounded f y r) : 2 ^ (f.width - 1) ≤ r ↔ y < 0 := by
  obtain ⟨hsign, hnear, hover⟩ := rounds_rne_iff.1 (h (decide (y < 0)) decide_eq_true_iff)
  by_cases hb : f.Beyond y
  · rw [hover hb, infBits_eq hf, two_pow_le_sign_add hf.maxBits_succ_lt, decide_eq_true_iff]
  · obtain ⟨v, hv, -⟩ := hnear hb
    rw [hsign v hv, decide_eq_true_iff]

theorem abs_between (h : y₁ ≤ y) (h' : y ≤ y₂) (hneg : y₁ < 0 ↔ y₂ < 0) : min |y₁| |y₂| ≤ |y| ∧ |y| ≤ max |y₁| |y₂| := by
  refine ⟨?_, abs_le_max_abs_abs h h'⟩
  rcases lt_or_ge y₁ 0 with h₁ | h₁
  · exact (min_le_right _ _).trans (abs_le_abs_of_nonpos (hneg.1 h₁).le h')
  · exact (min_le_left _ _).trans (abs_le_abs_of_nonneg h₁ h)

/-- Between two numbers that round alike every number rounds as they do. -/
theorem Rounded.between (hf : Ieee f) (h₁ : Rounded f y₁ r) (h₂ : Rounded f y₂ r) (hle : y₁ ≤ y) (hle' : y ≤ y₂) : Rounded f y r := by
  have hneg : y₁ < 0 ↔ y₂ < 0 := (h₁.sign_iff hf).symm.trans (h₂.sign_iff hf)
  have hy : y < 0 ↔ y₁ < 0 := ⟨fun h => hle.trans_lt h, fun h => hle'.trans_lt (hneg.1 h)⟩
  have hbeyond : f.Beyond y₁ ↔ f.Beyond y₂ := by simp only [h₁.beyond_iff hf, h₂.beyond_iff hf, hneg]
  have hb : f.Beyond y ↔ f.Beyond y₁ := by
    obtain ⟨hmin, hmax⟩ := abs_between hle hle' hneg
    simp only [Laws.beyond_iff hf] at hbeyond ⊢
    rcases le_total |y₁| |y₂| with h | h
    · rw [max_eq_right h, min_eq_left h] at *
      exact ⟨fun hb => hbeyond.2 (by linarith), fun hb => by linarith⟩
    · rw [max_eq_left h, min_eq_right h] at *
      exact ⟨fun hb => by linarith, fun hb => by linarith [hbeyond.1 hb]⟩
  intro neg hn
  obtain ⟨hsign₁, hnear₁, hover₁⟩ := rounds_rne_iff.1 (h₁ neg (hn.trans hy))
  obtain ⟨-, hnear₂, -⟩ := rounds_rne_iff.1 (h₂ neg ((hn.trans hy).trans hneg))
  refine rounds_rne_iff.2 ⟨hsign₁, fun h => ?_, fun h => hover₁ (hb.1 h)⟩
  obtain ⟨v, hv, hv₁⟩ := hnear₁ (hb.not.1 h)
  obtain ⟨v', hv', hv₂⟩ := hnear₂ (hbeyond.not.1 (hb.not.1 h))
  obtain rfl := Is.unique hv hv'
  refine ⟨v, hv, fun x u hx => ?_⟩
  obtain ⟨hnear, htie⟩ := abs_sub_le_of_between hle hle' (hv₁ x u hx).1 (hv₂ x u hx).1
  exact ⟨hnear, fun ht hu => (htie ht hu).elim (fun ht => (hv₁ x u hx).2 ht hu) fun ht => (hv₂ x u hx).2 ht hu⟩

/-- A number at or above one that rounds to +infinity rounds to it. -/
theorem Rounded.inf_of_le (hf : Ieee f) (h : Rounded f y₁ (f.infBits false)) (h0 : 0 ≤ y₁) (hle : y₁ ≤ y) :
    Rounded f y (f.infBits false) := by
  have hb := (h.beyond_iff hf).2 (by rw [decide_eq_false (not_lt.2 h0)])
  rw [Laws.beyond_iff hf, abs_of_nonneg h0] at hb
  intro neg hneg
  obtain rfl : neg = false := by rw [Bool.eq_false_iff, ne_eq, hneg]; linarith
  refine rounds_rne_iff.2 ⟨fun u hu => absurd hu (not_is_infBits hf), fun hn => absurd ?_ hn, fun _ => rfl⟩
  rw [Laws.beyond_iff hf, abs_of_nonneg (h0.trans hle)]
  linarith

/-! ### The other sign -/

/-- The sign bit inverted. -/
def flipSign (f : Fmt) (r : Nat) : Nat := (r + 2 ^ (f.width - 1)) % 2 ^ f.width

theorem flipSign_sign_add (hf : Ieee f) {s : Bool} {b : Nat} (hb : b < 2 ^ (f.width - 1)) : flipSign f (f.sign s + b) = f.sign (!s) + b := by
  have hw := hf.two_pow_width
  cases s
  · rw [flipSign, Nat.mod_eq_of_lt] <;> simp only [sign_false, Bool.not_false, sign_true] <;> omega
  · simp only [flipSign, sign_true, Bool.not_true, sign_false]
    rw [show 2 ^ (f.width - 1) + b + 2 ^ (f.width - 1) = b + 2 ^ f.width by omega, Nat.add_mod_right, Nat.mod_eq_of_lt (by omega), Nat.zero_add]

theorem flipSign_infBits (hf : Ieee f) (s : Bool) : flipSign f (f.infBits s) = f.infBits (!s) := by
  rw [infBits_eq hf, infBits_eq hf, flipSign_sign_add hf hf.maxBits_succ_lt]

/-- Rounding under RNE is the same on both sides of 0. -/
theorem Rounded.flip (hf : Ieee f) (h : Rounded f y r) (hy : y ≠ 0) : Rounded f (-y) (flipSign f r) := by
  intro neg hneg
  have hn : (!neg) = true ↔ y < 0 := by
    rw [Bool.not_eq_true', Bool.eq_false_iff, ne_eq, hneg, neg_lt_zero, not_lt, le_iff_lt_or_eq, or_iff_left hy]
  obtain ⟨hsign, hnear, hover⟩ := rounds_rne_iff.1 (h (!neg) hn)
  rw [rounds_rne_iff, Laws.beyond_iff hf, abs_neg, ← Laws.beyond_iff hf]
  by_cases hb : f.Beyond y
  · rw [hover hb, flipSign_infBits hf, Bool.not_not]
    exact ⟨fun u hu => absurd hu (not_is_infBits hf), fun h => absurd hb h, fun _ => rfl⟩
  · obtain ⟨v, hv, hv'⟩ := hnear hb
    obtain ⟨s, b, hb', rfl, rfl⟩ := Is.parts hf hv
    have hlt : b < 2 ^ (f.width - 1) := by have := hf.maxBits_succ_lt; omega
    obtain rfl : s = !neg := by rw [Bool.eq_iff_iff, ← hsign _ hv, two_pow_le_sign_add hlt]
    rw [sign_add_mod_two hf] at hv'
    rw [flipSign_sign_add hf hlt, Bool.not_not, sign_add_mod_two hf]
    refine ⟨fun u _ => two_pow_le_sign_add hlt, fun _ => ⟨_, is_sign_add hf hb', fun x u hx => ?_⟩, fun h => absurd h hb⟩
    obtain ⟨t, c, hc, rfl, rfl⟩ := Is.parts hf hx
    have habs (s : Bool) (x : ℝ) : |signed s x - -y| = |signed (!s) x - y| := by
      rw [signed_not, ← abs_neg]
      ring_nf
    obtain ⟨hle, htie⟩ := hv' _ _ (is_sign_add (s := !t) hf hc)
    rw [habs, habs]
    exact ⟨hle, fun ht hu => htie ht fun h => hu (by rwa [signed_not, signed_not, neg_inj] at h)⟩

end Rounding

end Sys2Proof.Laws
end

section
/-! SUPPORT. The enclosures of log 9: every operation on them keeps what it encloses, and a loop over a power series encloses its sum when the
first term it leaves out is below one unit. -/

namespace Sys2Proof.Laws

open Sys2Proof.Machine Finset
open scoped Nat

/-- An enclosure at scale 2^p of a number. -/
structure Encloses (p : Nat) (v : Iv) (x : ℝ) : Prop where
  lo : (v.lo : ℝ) ≤ x * 2 ^ p
  hi : x * 2 ^ p ≤ v.hi

/-- How many units lie between the ends. -/
def width (v : Iv) : Int := v.hi - v.lo

/-! ### Operations -/

theorem fdivI_le (a : Int) {b : Nat} (hb : 0 < b) : (fdivI a b : ℝ) ≤ a / b := by
  rw [le_div_iff₀ (Nat.cast_pos.2 hb), fdivI, Int.fdiv_eq_ediv_of_nonneg _ (Nat.cast_nonneg b)]
  exact_mod_cast Int.ediv_mul_le a (Nat.cast_ne_zero.2 hb.ne')

theorem le_cdivI (a : Int) {b : Nat} (hb : 0 < b) : (a / b : ℝ) ≤ cdivI a b := by
  have := fdivI_le (-a) hb
  rw [fdivI] at this
  rw [cdivI]
  push_cast at this ⊢
  rw [neg_div] at this
  linarith

theorem lt_fdivI_add_one (a : Int) {b : Nat} (hb : 0 < b) : (a / b : ℝ) < fdivI a b + 1 := by
  rw [div_lt_iff₀ (Nat.cast_pos.2 hb), fdivI, Int.fdiv_eq_ediv_of_nonneg _ (Nat.cast_nonneg b)]
  exact_mod_cast Int.lt_ediv_add_one_mul_self a (Nat.cast_pos.2 hb)

theorem cdivI_lt_add_one (a : Int) {b : Nat} (hb : 0 < b) : (cdivI a b : ℝ) < a / b + 1 := by
  have := lt_fdivI_add_one (-a) hb
  rw [fdivI] at this
  rw [cdivI]
  push_cast at this ⊢
  rw [neg_div] at this
  linarith

theorem mul_le_max {a b x y : ℝ} (ha : a ≤ x) (hb : x ≤ b) : x * y ≤ max (a * y) (b * y) := by
  rcases le_total 0 y with hy | hy
  · exact le_max_of_le_right (mul_le_mul_of_nonneg_right hb hy)
  · exact le_max_of_le_left (mul_le_mul_of_nonpos_right ha hy)

/-- A product lies between the products of the ends of its factors. -/
theorem mul_mem_corners {a b c d x y : ℝ} (ha : a ≤ x) (hb : x ≤ b) (hc : c ≤ y) (hd : y ≤ d) :
    min (min (a * c) (a * d)) (min (b * c) (b * d)) ≤ x * y ∧ x * y ≤ max (max (a * c) (a * d)) (max (b * c) (b * d)) := by
  have upper {a b c d x y : ℝ} (ha : a ≤ x) (hb : x ≤ b) (hc : c ≤ y) (hd : y ≤ d) :
      x * y ≤ max (max (a * c) (a * d)) (max (b * c) (b * d)) := by
    refine (mul_le_max ha hb).trans (max_le_max ?_ ?_)
    · rw [mul_comm a y, mul_comm a c, mul_comm a d]
      exact mul_le_max hc hd
    · rw [mul_comm b y, mul_comm b c, mul_comm b d]
      exact mul_le_max hc hd
  refine ⟨?_, upper ha hb hc hd⟩
  have := upper (neg_le_neg hb) (neg_le_neg ha) hc hd
  simp only [neg_mul, max_neg_neg] at this
  rw [min_comm]
  exact neg_le_neg_iff.1 this

section Operations

variable {p : Nat} {v w : Iv} {x y : ℝ}

theorem Encloses.exact {a : Int} (h : x * 2 ^ p = a) : Encloses p { lo := a, hi := a } x := ⟨h.ge, h.le⟩

theorem Encloses.add (hv : Encloses p v x) (hw : Encloses p w y) : Encloses p (v.add w) (x + y) := by
  constructor <;> simp only [Iv.add, Int.cast_add, add_mul]
  · exact add_le_add hv.lo hw.lo
  · exact add_le_add hv.hi hw.hi

theorem Encloses.sub (hv : Encloses p v x) (hw : Encloses p w y) : Encloses p (v.sub w) (x - y) := by
  constructor <;> simp only [Iv.sub, Int.cast_sub, sub_mul]
  · exact sub_le_sub hv.lo hw.hi
  · exact sub_le_sub hv.hi hw.lo

theorem Encloses.neg (hv : Encloses p v x) : Encloses p { lo := -v.hi, hi := -v.lo } (-x) := by
  constructor <;> simp only [Int.cast_neg, neg_mul]
  · exact neg_le_neg hv.hi
  · exact neg_le_neg hv.lo

theorem Encloses.scale (hv : Encloses p v x) (k : Nat) : Encloses p (v.scale k) (x * k) := by
  have hk : (0 : ℝ) ≤ k := k.cast_nonneg
  constructor <;> simp only [Iv.scale, Int.cast_mul, Int.cast_natCast, mul_right_comm x (k : ℝ)]
  · exact mul_le_mul_of_nonneg_right hv.lo hk
  · exact mul_le_mul_of_nonneg_right hv.hi hk

theorem Encloses.divN (hv : Encloses p v x) {k : Nat} (hk : 0 < k) : Encloses p (v.divN k) (x / k) := by
  have hk' : (0 : ℝ) < k := Nat.cast_pos.2 hk
  constructor <;> rw [div_mul_eq_mul_div]
  · exact (fdivI_le v.lo hk).trans (div_le_div_of_nonneg_right hv.lo hk'.le)
  · exact (div_le_div_of_nonneg_right hv.hi hk'.le).trans (le_cdivI v.hi hk)

/-- An enclosure at a finer scale, rounded outwards to a coarser one. -/
theorem Encloses.coarsen {q : Nat} (hv : Encloses (p + q) v x) : Encloses p (v.divN (2 ^ q)) x := by
  have h := Encloses.divN (p := p) (v := v) (x := x * 2 ^ q) ⟨?_, ?_⟩ (Nat.two_pow_pos q)
  · simpa using h
  · rw [mul_assoc, ← pow_add, Nat.add_comm]
    exact hv.lo
  · rw [mul_assoc, ← pow_add, Nat.add_comm]
    exact hv.hi

theorem Encloses.mul (hv : Encloses p v x) (hw : Encloses p w y) : Encloses p (Iv.mul p v w) (x * y) := by
  obtain ⟨hlo, hhi⟩ := mul_mem_corners hv.lo hv.hi hw.lo hw.hi
  have hpos : (0 : ℝ) < 2 ^ p := by positivity
  have hprod : x * 2 ^ p * (y * 2 ^ p) / 2 ^ p = x * y * 2 ^ p := by field_simp
  constructor
  · refine (fdivI_le _ (Nat.two_pow_pos p)).trans ?_
    push_cast
    rw [← hprod]
    exact div_le_div_of_nonneg_right hlo hpos.le
  · refine le_trans ?_ (le_cdivI _ (Nat.two_pow_pos p))
    push_cast
    rw [← hprod]
    exact div_le_div_of_nonneg_right hhi hpos.le

theorem Encloses.widen (hv : Encloses p v x) {d : Int} (h : |x - y| * 2 ^ p ≤ d) : Encloses p { lo := v.lo - d, hi := v.hi + d } y := by
  have hpos : (0 : ℝ) < 2 ^ p := by positivity
  rw [← abs_of_pos hpos, ← abs_mul, sub_mul] at h
  obtain ⟨h1, h2⟩ := abs_le.1 h
  have := hv.lo
  have := hv.hi
  constructor <;> push_cast <;> linarith

theorem Encloses.width_nonneg (hv : Encloses p v x) : 0 ≤ width v := by
  have : (v.lo : ℝ) ≤ v.hi := hv.lo.trans hv.hi
  exact sub_nonneg.2 (by exact_mod_cast this)

theorem Encloses.lo_ge (hv : Encloses p v x) : x * 2 ^ p - width v ≤ v.lo := by
  have := hv.hi
  rw [width]
  push_cast
  linarith

theorem Encloses.hi_le (hv : Encloses p v x) : (v.hi : ℝ) ≤ x * 2 ^ p + width v := by
  have := hv.lo
  rw [width]
  push_cast
  linarith

theorem width_add (v w : Iv) : width (v.add w) = width v + width w := by simp only [width, Iv.add]; ring
theorem width_sub (v w : Iv) : width (v.sub w) = width v + width w := by simp only [width, Iv.sub]; ring
theorem width_scale (v : Iv) (k : Nat) : width (v.scale k) = width v * k := by simp only [width, Iv.scale]; ring

/-- Rounding outwards adds less than two units. -/
theorem width_divN {k : Nat} (hk : 0 < k) : (width (v.divN k) : ℝ) < width v / k + 2 := by
  have h1 := lt_fdivI_add_one v.lo hk
  have h2 := cdivI_lt_add_one v.hi hk
  simp only [width, Iv.divN]
  push_cast
  rw [sub_div]
  linarith

end Operations

/-- R93: n × 2^e at scale 2^p. -/
theorem encloses_ivOf (p : Nat) (n : Int) (e : Int) : Encloses p (ivOf p n e) (n * 2 ^ e) := by
  have hval : (n * 2 ^ e * 2 ^ p : ℝ) = n * 2 ^ (e + p) := by rw [zpow_add₀ two_ne_zero, zpow_natCast, mul_assoc]
  unfold ivOf
  split
  next h =>
    refine .exact ?_
    rw [hval]
    obtain ⟨k, hk⟩ := Int.eq_ofNat_of_zero_le h
    simp [hk]
  next h =>
    obtain ⟨k, hk⟩ := Int.eq_ofNat_of_zero_le (show 0 ≤ -(e + p) by omega)
    have hdiv : (n * 2 ^ e * 2 ^ p : ℝ) = n / (2 ^ k : Nat) := by
      rw [hval, show e + p = -(k : Int) by omega, zpow_neg, div_eq_mul_inv]
      simp
    rw [hk, Int.toNat_natCast]
    constructor <;> rw [hdiv]
    · exact fdivI_le n (Nat.two_pow_pos k)
    · exact le_cdivI n (Nat.two_pow_pos k)

theorem width_ivOf_le (p : Nat) (n : Int) (e : Int) : width (ivOf p n e) ≤ 1 := by
  unfold ivOf
  split
  · simp [width]
  · have h1 := lt_fdivI_add_one n (Nat.two_pow_pos (-(e + p)).toNat)
    have h2 := cdivI_lt_add_one n (Nat.two_pow_pos (-(e + p)).toNat)
    have : (width { lo := fdivI n (2 ^ (-(e + p)).toNat), hi := cdivI n (2 ^ (-(e + p)).toNat) } : ℝ) < (2 : Int) := by
      simp only [width]
      push_cast at h1 h2 ⊢
      linarith
    exact Int.lt_add_one_iff.1 (by exact_mod_cast this)

/-! ### Power series -/

/-- What a series whose terms at least halve leaves out. -/
theorem abs_sum_sub_le {a : Nat → ℝ} {x : ℝ} (ha : HasSum a x) {m : Nat} (hhalf : ∀ k, m ≤ k → |a (k + 1)| ≤ |a k| / 2) :
    |∑ k ∈ range m, a k - x| ≤ 2 * |a m| := by
  have hgeo (j : Nat) : ‖a (j + m)‖ ≤ |a m| * (1 / 2) ^ j := by
    induction j with
    | zero => simp
    | succ j ih =>
      have := hhalf (j + m) (Nat.le_add_left m j)
      rw [Nat.add_right_comm, pow_succ, Real.norm_eq_abs]
      rw [Real.norm_eq_abs] at ih
      linarith
  have := norm_sub_le_of_geometric_bound_of_hasSum one_half_lt_one hgeo ((hasSum_nat_add_iff' m).2 ha) 0
  rw [sum_range_zero, Real.norm_eq_abs, zero_sub, neg_sub] at this
  norm_num at this
  linarith

section Series

variable {p : Nat} {a : Nat → ℝ} {x : ℝ}

/-- The sum of a series from what its loop has added up, when the first term left out is below a unit. -/
theorem Encloses.series {acc : Iv} {m : Nat} (hacc : Encloses p acc (∑ k ∈ range m, a k)) (ha : HasSum a x)
    (hhalf : ∀ k, m ≤ k → |a (k + 1)| ≤ |a k| / 2) (hlast : |a m| * 2 ^ p ≤ 1) {d : Int} (hd : 2 ≤ d) :
    Encloses p { lo := acc.lo - d, hi := acc.hi + d } x := by
  refine hacc.widen ?_
  have : (2 : ℝ) ≤ d := by exact_mod_cast hd
  calc |∑ k ∈ range m, a k - x| * 2 ^ p ≤ 2 * |a m| * 2 ^ p := by gcongr; exact abs_sum_sub_le ha hhalf
    _ ≤ d := by linarith

end Series

/-! ### The inverse tangents -/

/-- The terms of arctan (alternating) and artanh. -/
noncomputable def oddTerm (alt : Bool) (x : ℝ) (k : Nat) : ℝ := (if alt then (-1) ^ k else 1) * (x ^ (2 * k + 1) / (2 * k + 1 : Nat))
/-- What they sum to. -/
noncomputable def oddSum (alt : Bool) (x : ℝ) : ℝ := if alt then Real.arctan x else Real.artanh x

theorem artanh_eq {x : ℝ} (h : |x| < 1) : Real.artanh x = (Real.log (1 + x) - Real.log (1 - x)) / 2 := by
  obtain ⟨h1, h2⟩ := abs_lt.1 h
  rw [Real.artanh_eq_half_log ⟨h1.le, h2.le⟩, Real.log_div (by linarith) (by linarith)]
  ring

section OddSeries

variable {alt : Bool} {p : Nat} {x : ℝ}

theorem hasSum_oddTerm (h : |x| < 1) : HasSum (oddTerm alt x) (oddSum alt x) := by
  cases alt
  · have := (Real.hasSum_log_sub_log_of_abs_lt_one h).div_const 2
    rw [oddSum, if_neg Bool.false_ne_true, artanh_eq h]
    convert! this using 2 with k
    simp only [oddTerm, Bool.false_eq_true, if_false]
    push_cast
    ring
  · convert! Real.hasSum_arctan h using 2 with k
    simp only [oddTerm, if_true]
    ring

theorem abs_oddTerm (k : Nat) : |oddTerm alt x k| = |x| ^ (2 * k + 1) / (2 * k + 1 : Nat) := by
  rw [oddTerm, abs_mul, abs_div, abs_pow, Nat.abs_cast]
  cases alt <;> simp

theorem oddTerm_halves (h : |x| ≤ 1 / 2) (k : Nat) : |oddTerm alt x (k + 1)| ≤ |oddTerm alt x k| / 2 := by
  have hx := abs_nonneg x
  rw [abs_oddTerm, abs_oddTerm, div_div, mul_comm _ (2 : ℝ), ← div_div]
  gcongr
  · rw [show 2 * (k + 1) + 1 = 2 * k + 1 + 2 by ring, pow_add, div_eq_mul_one_div (|x| ^ (2 * k + 1))]
    gcongr
    nlinarith
  · omega

theorem abs_oddTerm_mul_le (k : Nat) (h : |x| ^ (2 * k + 1) * 2 ^ p ≤ 1) : |oddTerm alt x k| * 2 ^ p ≤ 1 := by
  rw [abs_oddTerm, div_mul_eq_mul_div]
  exact (div_le_self (by positivity) (by exact_mod_cast Nat.succ_pos (2 * k))).trans h

/-- A term of the sign its place asks for joins the sum. -/
theorem encloses_next {acc u : Iv} {k : Nat} (hacc : Encloses p acc (∑ j ∈ range k, oddTerm alt x j))
    (hu : Encloses p u (x ^ (2 * k + 1) / (2 * k + 1 : Nat))) :
    Encloses p (if alt && k % 2 == 1 then acc.sub u else acc.add u) (∑ j ∈ range (k + 1), oddTerm alt x j) := by
  rw [sum_range_succ]
  cases alt
  · simpa [oddTerm] using hacc.add hu
  · rcases Nat.mod_two_eq_zero_or_one k with hk | hk
    · simpa [oddTerm, hk, (Nat.even_iff.2 hk).neg_one_pow] using hacc.add hu
    · simpa [oddTerm, hk, (Nat.odd_iff.2 hk).neg_one_pow, sub_eq_add_neg] using hacc.sub hu

end OddSeries

section AtanSeries

variable {alt : Bool} {n p : Nat} {t acc : Iv}

theorem encloses_atanSeries (hn : 2 ≤ n) (fuel k : Nat) (ht : Encloses p t ((n : ℝ)⁻¹ ^ (2 * k + 1)))
    (hacc : Encloses p acc (∑ j ∈ range k, oddTerm alt (n : ℝ)⁻¹ j)) (hlast : |(n : ℝ)⁻¹| ^ (2 * (k + fuel) + 1) * 2 ^ p ≤ 1) :
    Encloses p (atanSeries alt n fuel k t acc) (oddSum alt (n : ℝ)⁻¹) := by
  have hx : |(n : ℝ)⁻¹| ≤ 1 / 2 := by
    rw [abs_inv, Nat.abs_cast, one_div]
    exact inv_anti₀ two_pos (by exact_mod_cast hn)
  induction fuel generalizing k t acc with
  | zero => exact hacc.series (hasSum_oddTerm (hx.trans_lt one_half_lt_one)) (fun k _ => oddTerm_halves hx k) (abs_oddTerm_mul_le k hlast) le_rfl
  | succ fuel ih =>
    refine ih (k + 1) ?_ (encloses_next hacc (ht.divN (Nat.succ_pos _))) (by rwa [Nat.add_right_comm, Nat.add_assoc k])
    have := ht.divN (show 0 < n * n by positivity)
    convert! this using 1
    rw [show 2 * (k + 1) + 1 = 2 * k + 1 + 2 by ring, pow_add]
    push_cast
    field_simp

theorem width_divN_le_two (ht : width t ≤ 2) {k : Nat} (hk : 2 ≤ k) : width (t.divN k) ≤ 2 := by
  have hk' : (2 : ℝ) ≤ k := by exact_mod_cast hk
  have ht' : (width t : ℝ) ≤ 2 := by exact_mod_cast ht
  have : (width (t.divN k) : ℝ) < (3 : Int) := by
    have := width_divN (v := t) (k := k) (by omega)
    have : (width t : ℝ) / k ≤ 1 := (div_le_one (by linarith)).2 (by linarith)
    push_cast
    linarith
  exact Int.lt_add_one_iff.1 (by exact_mod_cast this)

theorem width_divN_le_three (ht : width t ≤ 2) {k : Nat} (hk : 0 < k) : width (t.divN k) ≤ 3 := by
  rcases Nat.lt_or_ge 1 k with h | h
  · exact (width_divN_le_two ht h).trans (by norm_num)
  · obtain rfl : k = 1 := by omega
    have ht' : (width t : ℝ) ≤ 2 := by exact_mod_cast ht
    have : (width (t.divN 1) : ℝ) < (4 : Int) := by
      have := width_divN (v := t) one_pos
      push_cast at this ⊢
      linarith
    exact Int.lt_add_one_iff.1 (by exact_mod_cast this)

theorem width_atanSeries (hn : 2 ≤ n) (fuel k : Nat) (ht : width t ≤ 2) :
    width (atanSeries alt n fuel k t acc) ≤ width acc + 3 * fuel + 4 := by
  induction fuel generalizing k t acc with
  | zero => simp only [atanSeries, width]; omega
  | succ fuel ih =>
    have hnext := ih (k + 1) (acc := if alt && k % 2 == 1 then acc.sub (t.divN (2 * k + 1)) else acc.add (t.divN (2 * k + 1)))
      (width_divN_le_two ht (show 2 ≤ n * n by nlinarith))
    have hu := width_divN_le_three ht (Nat.succ_pos (2 * k))
    simp only [atanSeries]
    split at hnext
    · rw [if_pos ‹_›]
      rw [width_sub] at hnext
      push_cast
      linarith
    · rw [if_neg ‹_›]
      rw [width_add] at hnext
      push_cast
      linarith

theorem encloses_atanInv (alt : Bool) (hn : 2 ≤ n) (p : Nat) : Encloses p (atanInv alt n p) (oddSum alt (n : ℝ)⁻¹) := by
  have hn0 : n ≠ 0 := by omega
  have hlog : 0 < Nat.log2 n := (Nat.le_log2 hn0).2 hn
  refine encloses_atanSeries hn _ 0 ?_ ?_ ?_
  · have := (Encloses.exact (p := p) (x := 1) (a := 2 ^ p) (by push_cast; ring)).divN (show 0 < n by omega)
    simpa using this
  · simpa using Encloses.exact (p := p) (x := 0) (a := 0) (by simp)
  · rw [abs_inv, Nat.abs_cast, Nat.zero_add, inv_pow, inv_mul_le_iff₀ (by positivity), mul_one]
    have hexp : p ≤ Nat.log2 n * (2 * (p / (2 * Nat.log2 n) + 2) + 1) := by
      have := Nat.lt_mul_div_succ p (show 0 < 2 * Nat.log2 n by omega)
      nlinarith
    calc (2 : ℝ) ^ p ≤ 2 ^ (Nat.log2 n * (2 * (p / (2 * Nat.log2 n) + 2) + 1)) := pow_le_pow_right₀ one_le_two hexp
      _ = ((2 ^ Nat.log2 n : Nat) : ℝ) ^ (2 * (p / (2 * Nat.log2 n) + 2) + 1) := by push_cast; rw [pow_mul]
      _ ≤ _ := by gcongr; exact Nat.log2_self_le hn0

theorem width_atanInv (alt : Bool) (hn : 2 ≤ n) (p : Nat) : width (atanInv alt n p) ≤ 3 * (p / (2 * Nat.log2 n) + 2 : Nat) + 4 := by
  have := width_atanSeries (alt := alt) (acc := { lo := 0, hi := 0 }) hn (p / (2 * Nat.log2 n) + 2) 0
    (width_divN_le_two (t := { lo := 2 ^ p, hi := 2 ^ p }) (by simp [width]) hn)
  simpa [atanInv, width] using this

end AtanSeries

/-! ### ln 2 and π -/

theorem artanh_inv {n a b : ℝ} (hn : 1 < n) (ha : 0 < a) (hb : 0 < b) (hab : (n + 1) * b = (n - 1) * a) :
    Real.artanh n⁻¹ = (Real.log a - Real.log b) / 2 := by
  have hlt := inv_lt_one_of_one_lt₀ hn
  have hpos : 0 < n⁻¹ := by positivity
  have hratio : (1 + n⁻¹) / (1 - n⁻¹) = a / b := by
    rw [div_eq_div_iff (by linarith) hb.ne']
    field_simp
    linarith
  rw [Real.artanh_eq_half_log ⟨by linarith, hlt.le⟩, hratio, Real.log_div ha.ne' hb.ne']
  ring

/-- ln 2 from three inverse tangents: 27/25, 4802/4800 and 8750/8748 have no other primes than 2, 3, 5 and 7. -/
theorem log_two_eq : Real.log 2 = Real.artanh (26 : ℝ)⁻¹ * 18 - Real.artanh (4801 : ℝ)⁻¹ * 2 + Real.artanh (8749 : ℝ)⁻¹ * 8 := by
  have h26 := artanh_inv (n := 26) (a := 3 ^ 3) (b := 5 ^ 2) (by norm_num) (by norm_num) (by norm_num) (by norm_num)
  have h4801 := artanh_inv (n := 4801) (a := 7 ^ 4) (b := 2 ^ 5 * 3 * 5 ^ 2) (by norm_num) (by norm_num) (by norm_num) (by norm_num)
  have h8749 := artanh_inv (n := 8749) (a := 5 ^ 4 * 7) (b := 2 * 3 ^ 7) (by norm_num) (by norm_num) (by norm_num) (by norm_num)
  rw [h26, h4801, h8749, Real.log_mul (by norm_num) (by norm_num), Real.log_mul (by norm_num) (by norm_num),
    Real.log_mul (by norm_num) (by norm_num), Real.log_mul (by norm_num) (by norm_num)]
  simp only [Real.log_pow]
  push_cast
  ring

theorem encloses_ivLn2 (p : Nat) : Encloses p (ivLn2 p) (Real.log 2) := by
  rw [log_two_eq]
  have h (n : Nat) (hn : 2 ≤ n) : Encloses p (atanInv false n p) (Real.artanh (n : ℝ)⁻¹) := encloses_atanInv false hn p
  exact_mod_cast (((h 26 (by norm_num)).scale 18).sub ((h 4801 (by norm_num)).scale 2)).add ((h 8749 (by norm_num)).scale 8)

theorem encloses_ivPi (p : Nat) : Encloses p (ivPi p) Real.pi := by
  have hpi : Real.pi = Real.arctan (5 : ℝ)⁻¹ * 16 - Real.arctan (239 : ℝ)⁻¹ * 4 := by
    have := Real.four_mul_arctan_inv_5_sub_arctan_inv_239
    linarith
  rw [hpi]
  have h (n : Nat) (hn : 2 ≤ n) : Encloses p (atanInv true n p) (Real.arctan (n : ℝ)⁻¹) := encloses_atanInv true hn p
  exact_mod_cast ((h 5 (by norm_num)).scale 16).sub ((h 239 (by norm_num)).scale 4)

theorem width_ivLn2_le (p : Nat) : width (ivLn2 p) ≤ 9 * p + 300 := by
  have h26 := width_atanInv false (n := 26) (by norm_num) p
  have h4801 := width_atanInv false (n := 4801) (by norm_num) p
  have h8749 := width_atanInv false (n := 8749) (by norm_num) p
  rw [show Nat.log2 26 = 4 by decide] at h26
  rw [show Nat.log2 4801 = 12 by decide] at h4801
  rw [show Nat.log2 8749 = 13 by decide] at h8749
  simp only [ivLn2, width_add, width_sub, width_scale]
  push_cast at *
  omega

theorem width_ivPi_le (p : Nat) : width (ivPi p) ≤ 14 * p + 300 := by
  have h5 := width_atanInv true (n := 5) (by norm_num) p
  have h239 := width_atanInv true (n := 239) (by norm_num) p
  rw [show Nat.log2 5 = 2 by decide] at h5
  rw [show Nat.log2 239 = 7 by decide] at h239
  simp only [ivPi, width_sub, width_scale]
  push_cast at *
  omega

end Sys2Proof.Laws
end

section
/-! SUPPORT. The enclosures of the transcendental functions (log 9) enclose them: 2^f, log2, and sine and cosine after the reduction by π/2. -/

namespace Sys2Proof.Laws

open Sys2Proof.Machine Finset
open scoped Nat

/-! ### Series over factorials -/

theorem two_pow_le_factorial {m : Nat} (hm : 31 ≤ m) : 2 ^ (5 * m - 121) ≤ m ! := by
  induction m, hm using Nat.le_induction with
  | base => norm_num [Nat.factorial]
  | succ m hm ih =>
    rw [show 5 * (m + 1) - 121 = 5 + (5 * m - 121) by omega, pow_add, Nat.factorial_succ]
    exact Nat.mul_le_mul (by omega) ih

/-- A factorial term of an argument up to 2 is below one unit from here on. -/
theorem pow_div_factorial_le {p m : Nat} (hm : 31 + p / 4 ≤ m) {x : ℝ} (hx : |x| ≤ 2) : |x| ^ m / m ! * 2 ^ p ≤ 1 := by
  rw [div_mul_eq_mul_div, div_le_one (by positivity)]
  calc |x| ^ m * 2 ^ p ≤ 2 ^ m * 2 ^ p := by gcongr
    _ = 2 ^ (m + p) := (pow_add _ _ _).symm
    _ ≤ 2 ^ (5 * m - 121) := pow_le_pow_right₀ one_le_two (by omega)
    _ ≤ m ! := by exact_mod_cast two_pow_le_factorial (by omega)

section Exponential

variable {p : Nat} {x : ℝ} {y t acc : Iv}

theorem hasSum_exp (x : ℝ) : HasSum (fun k => x ^ k / k !) (Real.exp x) := by
  rw [Real.exp_eq_exp_ℝ]
  exact NormedSpace.expSeries_div_hasSum_exp x

theorem encloses_expSeries (hy : Encloses p y x) (h0 : 0 ≤ x) (h1 : x ≤ 1) (fuel k : Nat) (hpos : 0 < k + fuel)
    (ht : Encloses p t (x ^ k / k !)) (hacc : Encloses p acc (∑ j ∈ range k, x ^ j / j !))
    (hlast : x ^ (k + fuel) / (k + fuel)! * 2 ^ p ≤ 1) : Encloses p (expSeries p y fuel k t acc) (Real.exp x) := by
  induction fuel generalizing k t acc with
  | zero =>
    have hterm (j : Nat) : 0 ≤ x ^ j / j ! := by positivity
    have hhalf (j : Nat) (hj : k ≤ j) : |x ^ (j + 1) / (j + 1)!| ≤ |x ^ j / j !| / 2 := by
      have : (2 : ℝ) ≤ (j + 1 : Nat) := by exact_mod_cast (show 2 ≤ j + 1 by omega)
      rw [abs_of_nonneg (hterm _), abs_of_nonneg (hterm _), Nat.factorial_succ, Nat.cast_mul, pow_succ,
        mul_comm (_ : ℝ) (j ! : ℝ), mul_div_mul_comm]
      refine (mul_le_mul_of_nonneg_left ?_ (hterm j)).trans_eq (by ring : _ * (1 / 2 : ℝ) = _)
      gcongr
    refine ⟨hacc.lo.trans ?_, ?_⟩
    · gcongr
      exact sum_le_hasSum _ (fun j _ => hterm j) (hasSum_exp x)
    · have := (hacc.series (hasSum_exp x) hhalf (by rwa [abs_of_nonneg (hterm k)]) (show (2 : Int) ≤ 4 by norm_num)).hi
      exact this
  | succ fuel ih =>
    refine ih (k + 1) (by omega) ?_ ?_ (by rwa [Nat.add_right_comm, Nat.add_assoc k])
    · have := (ht.mul hy).divN (Nat.succ_pos k)
      convert! this using 1
      rw [Nat.factorial_succ, pow_succ]
      push_cast
      field_simp
    · rw [sum_range_succ]
      exact hacc.add ht

/-- R111: e^x for 0 ≤ x ≤ 1. -/
theorem encloses_ivExp (hp : 128 ≤ p) (hy : Encloses p y x) (h0 : 0 ≤ x) (h1 : x ≤ 1) : Encloses p (ivExp p y) (Real.exp x) := by
  refine encloses_expSeries hy h0 h1 _ 0 ?_ ?_ ?_ ?_
  · unfold facTerms
    omega
  · simpa using Encloses.exact (p := p) (x := 1) (a := 2 ^ p) (by push_cast; ring)
  · simpa using Encloses.exact (p := p) (x := 0) (a := 0) (by simp)
  · have hm : p ≤ 5 * (0 + facTerms p) - 121 := by unfold facTerms; omega
    rw [div_mul_eq_mul_div, div_le_one (by positivity)]
    calc x ^ (0 + facTerms p) * 2 ^ p ≤ 1 * 2 ^ p := by gcongr; exact pow_le_one₀ h0 h1
      _ ≤ 2 ^ (5 * (0 + facTerms p) - 121) := by rw [one_mul]; exact pow_le_pow_right₀ one_le_two hm
      _ ≤ (0 + facTerms p)! := by exact_mod_cast two_pow_le_factorial (by unfold facTerms; omega)

/-- R111: 2^f for f = n × 2^e in [0, 1]. -/
theorem encloses_ivExp2 (hp : 128 ≤ p) (n : Nat) (e : Int) (h1 : (n : ℝ) * 2 ^ e ≤ 1) :
    Encloses p (ivExp2 p n e) ((2 : ℝ) ^ ((n : ℝ) * 2 ^ e)) := by
  have hlog : 0 ≤ Real.log 2 ∧ Real.log 2 ≤ 1 := ⟨Real.log_nonneg one_le_two, Real.log_two_lt_d9.le.trans (by norm_num)⟩
  have h0 : 0 ≤ (n : ℝ) * 2 ^ e := by positivity
  have hy := (encloses_ivOf p n e).mul (encloses_ivLn2 p)
  rw [Int.cast_natCast] at hy
  rw [Real.rpow_def_of_pos two_pos, mul_comm]
  exact encloses_ivExp hp hy (mul_nonneg h0 hlog.1) (mul_le_one₀ h1 hlog.1 hlog.2)

end Exponential

section Trigonometric

variable {p : Nat} {x : ℝ} {r r2 t acc : Iv}

/-- The terms of the sine (c = 1) and the cosine (c = 0). -/
noncomputable def trigTerm (c : Nat) (x : ℝ) (j : Nat) : ℝ := (-1) ^ j * (x ^ (2 * j + c) / (2 * j + c)!)

theorem abs_trigTerm (c : Nat) (x : ℝ) (j : Nat) : |trigTerm c x j| = |x| ^ (2 * j + c) / (2 * j + c)! := by
  rw [trigTerm, abs_mul, abs_div, abs_pow, abs_pow, abs_neg, abs_one, one_pow, one_mul, Nat.abs_cast]

/-- From one term to the next but for the sign. -/
theorem trigTerm_ratio (x : ℝ) (m : Nat) : x ^ (m + 2) / (m + 2)! = x ^ m / m ! * (x * x) / ((m + 1) * (m + 2) : Nat) := by
  rw [Nat.factorial_succ, Nat.factorial_succ, pow_add]
  push_cast
  field_simp
  ring

theorem trigTerm_halves (hx : |x| ≤ 2) {c j : Nat} (hj : 2 ≤ j) : |trigTerm c x (j + 1)| ≤ |trigTerm c x j| / 2 := by
  rw [abs_trigTerm, abs_trigTerm, show 2 * (j + 1) + c = 2 * j + c + 2 by ring, trigTerm_ratio, mul_div_assoc, div_eq_mul_one_div (_ / _) (2 : ℝ)]
  have hden : (8 : ℝ) ≤ ((2 * j + c + 1) * (2 * j + c + 2) : Nat) := by exact_mod_cast (show 8 ≤ (2 * j + c + 1) * (2 * j + c + 2) by nlinarith)
  refine mul_le_mul_of_nonneg_left ?_ (by positivity)
  rw [div_le_div_iff₀ (by linarith) two_pos]
  nlinarith [abs_nonneg x]

theorem encloses_trigSeries {c : Nat} {y : ℝ} (hx : |x| ≤ 2) (hsum : HasSum (trigTerm c x) y) (hr : Encloses p r2 (x * x))
    (fuel j : Nat) {neg : Bool}
    (hneg : (-1 : ℝ) ^ j = if neg then -1 else 1) (hlong : 31 + p / 4 ≤ 2 * (j + fuel) + c) (hc : c ≤ 1)
    (ht : Encloses p t (x ^ (2 * j + c) / (2 * j + c)!)) (hacc : Encloses p acc (∑ k ∈ range j, trigTerm c x k)) :
    Encloses p (trigSeries p r2 fuel (2 * j + c) neg t acc) y := by
  induction fuel generalizing j neg t acc with
  | zero =>
    refine hacc.series hsum (fun k hk => trigTerm_halves hx (by omega)) ?_ (by norm_num)
    rw [abs_trigTerm]
    exact pow_div_factorial_le hlong hx
  | succ fuel ih =>
    have hnext : Encloses p (if neg then acc.sub t else acc.add t) (∑ k ∈ range (j + 1), trigTerm c x k) := by
      rw [sum_range_succ, trigTerm, hneg]
      cases neg
      · simpa using hacc.add ht
      · simpa [sub_eq_add_neg] using hacc.sub ht
    have hterm := (ht.mul hr).divN (show 0 < (2 * j + c + 1) * (2 * j + c + 2) by positivity)
    rw [← trigTerm_ratio, show 2 * j + c + 2 = 2 * (j + 1) + c by ring] at hterm
    have := ih (j + 1) (neg := !neg) (by rw [pow_succ, hneg]; cases neg <;> simp) (by omega) hterm hnext
    rwa [show 2 * (j + 1) + c = 2 * j + c + 2 by ring] at this

theorem encloses_ivSin (hr : Encloses p r x) (hx : |x| ≤ 2) : Encloses p (ivSin p r) (Real.sin x) := by
  have hsum : HasSum (trigTerm 1 x) (Real.sin x) := by
    convert! Real.hasSum_sin x using 2 with k
    exact (mul_div_assoc _ _ _).symm
  refine encloses_trigSeries hx hsum (hr.mul hr) _ 0 (by simp) (by unfold facTerms; omega) le_rfl (by simpa using hr) ?_
  simpa using Encloses.exact (p := p) (x := 0) (a := 0) (by simp)

theorem encloses_ivCos (hr : Encloses p r x) (hx : |x| ≤ 2) : Encloses p (ivCos p r) (Real.cos x) := by
  have hsum : HasSum (trigTerm 0 x) (Real.cos x) := by
    convert! Real.hasSum_cos x using 2 with k
    exact (mul_div_assoc _ _ _).symm
  refine encloses_trigSeries hx hsum (hr.mul hr) _ 0 (by simp) (by unfold facTerms; omega) zero_le_one ?_ ?_
  · simpa using Encloses.exact (p := p) (x := 1) (a := 2 ^ p) (by push_cast; ring)
  · simpa using Encloses.exact (p := p) (x := 0) (a := 0) (by simp)

end Trigonometric

/-! ### Logarithm -/

section Logarithm

variable {p : Nat} {x : ℝ} {z z2 t acc : Iv}

theorem encloses_artanhSeries (hx : |x| ≤ 1 / 3) (hz : Encloses p z2 (x * x)) (fuel k : Nat) (ht : Encloses p t (x ^ (2 * k + 1)))
    (hacc : Encloses p acc (∑ j ∈ range k, oddTerm false x j)) (hlong : p ≤ 3 * (k + fuel)) :
    Encloses p (artanhSeries p z2 fuel k t acc) (Real.artanh x) := by
  induction fuel generalizing k t acc with
  | zero =>
    refine hacc.series (x := Real.artanh x) (hasSum_oddTerm (hx.trans_lt (by norm_num))) (fun k _ => oddTerm_halves (hx.trans (by norm_num)) k)
      (abs_oddTerm_mul_le k ?_) (by norm_num)
    calc |x| ^ (2 * k + 1) * 2 ^ p ≤ (1 / 3) ^ (2 * k) * 2 ^ (3 * k) := by
          gcongr
          · exact (pow_le_pow_of_le_one (abs_nonneg x) (hx.trans (by norm_num)) (Nat.le_succ _)).trans (by gcongr)
          · norm_num
          · exact hlong
      _ = (8 / 9) ^ k := by rw [pow_mul, pow_mul, ← mul_pow]; norm_num
      _ ≤ 1 := pow_le_one₀ (by norm_num) (by norm_num)
  | succ fuel ih =>
    refine ih (k + 1) ?_ (encloses_next (alt := false) hacc (ht.divN (Nat.succ_pos _))) (by omega)
    have := ht.mul hz
    convert! this using 1
    ring

/-- At the precisions used, the errors that add up in an enclosure are small. -/
theorem linear_lt_two_pow (hp : 160 ≤ p) : 100 * p + 30000 < 2 ^ p := by
  have := (p - 20).lt_two_pow_self
  have : 2 ^ p = 2 ^ (p - 20) * 2 ^ 20 := by rw [← pow_add, Nat.sub_add_cancel (by omega)]
  omega

theorem ivLn2_lo_pos (hp : 160 ≤ p) : 0 < (ivLn2 p).lo := by
  have h1 := (encloses_ivLn2 p).lo_ge
  have h2 : (width (ivLn2 p) : ℝ) ≤ 9 * p + 300 := by exact_mod_cast width_ivLn2_le p
  have h3 : (100 * p + 30000 : ℝ) < 2 ^ p := by exact_mod_cast linear_lt_two_pow hp
  have := Real.log_two_gt_d9
  have : (0 : ℝ) < (ivLn2 p).lo := by nlinarith
  exact_mod_cast this

/-- The quotient of an enclosed number by an enclosed positive one, at the same scale. -/
theorem Encloses.div {v w : Iv} {y : ℝ} (hv : Encloses p v x) (hw : Encloses p w y) (hx : 0 ≤ x) (hpos : 0 < w.lo) :
    Encloses p { lo := fdivI (v.lo * 2 ^ p) w.hi.toNat, hi := cdivI (v.hi * 2 ^ p) w.lo.toNat } (x / y) := by
  have hscale : (0 : ℝ) < 2 ^ p := by positivity
  have hlo : (0 : ℝ) < w.lo := by exact_mod_cast hpos
  have hy : 0 < y := pos_of_mul_pos_left (hlo.trans_le hw.lo) hscale.le
  have hhi : (0 : ℝ) < w.hi := (mul_pos hy hscale).trans_le hw.hi
  have cast {a : Int} (ha : (0 : ℝ) < a) : ((a.toNat : Nat) : ℝ) = a := by
    exact_mod_cast Int.toNat_of_nonneg (by exact_mod_cast ha.le : 0 ≤ a)
  have hhiN : 0 < w.hi.toNat := by
    have : 0 < w.hi := by exact_mod_cast hhi
    omega
  have hq : 0 ≤ x / y * 2 ^ p := by positivity
  have hxy : x = x / y * y := (div_mul_cancel₀ x hy.ne').symm
  constructor
  · refine (fdivI_le _ hhiN).trans ?_
    rw [cast hhi, div_le_iff₀ hhi]
    push_cast
    calc (v.lo : ℝ) * 2 ^ p ≤ x * 2 ^ p * 2 ^ p := by gcongr; exact hv.lo
      _ = x / y * 2 ^ p * (y * 2 ^ p) := by field_simp
      _ ≤ _ := by gcongr; exact hw.hi
  · refine le_trans ?_ (le_cdivI _ (show 0 < w.lo.toNat by omega))
    rw [cast hlo, le_div_iff₀ hlo]
    push_cast
    calc x / y * 2 ^ p * w.lo ≤ x / y * 2 ^ p * (y * 2 ^ p) := by gcongr; exact hw.lo
      _ = x * 2 ^ p * 2 ^ p := by field_simp
      _ ≤ _ := by gcongr; exact hv.hi

/-- R111: log2 of n × 2^e, by the significand's z = (m - 1) / (m + 1). -/
theorem encloses_ivLog2 (hp : 160 ≤ p) {n : Nat} (hn : n ≠ 0) (e : Int) : Encloses p (ivLog2 p n e) (Real.logb 2 (n * 2 ^ e)) := by
  have hlow : (2 : ℝ) ^ Nat.log2 n ≤ n := by exact_mod_cast Nat.log2_self_le hn
  have hhigh : (n : ℝ) < 2 * 2 ^ Nat.log2 n := by rw [← pow_succ']; exact_mod_cast Nat.lt_log2_self
  simp only [ivLog2]
  generalize hl : Nat.log2 n = l at *
  have hpow : (0 : ℝ) < 2 ^ l := by positivity
  have hn0 : (0 : ℝ) < n := hpow.trans_le hlow
  have hden : 0 < n + 2 ^ l := by positivity
  obtain ⟨x, hx⟩ : ∃ x : ℝ, x = (n - 2 ^ l) / (n + 2 ^ l) := ⟨_, rfl⟩
  have hx0 : 0 ≤ x := hx ▸ div_nonneg (by linarith) (by linarith)
  have hx3 : |x| ≤ 1 / 3 := by rw [abs_of_nonneg hx0, hx, div_le_div_iff₀ (by linarith) (by norm_num)]; linarith
  have hz : Encloses p { lo := fdivI (((n : Int) - 2 ^ l) * 2 ^ p) (n + 2 ^ l), hi := cdivI (((n : Int) - 2 ^ l) * 2 ^ p) (n + 2 ^ l) } x := by
    have := (Encloses.exact (p := p) (x := n - 2 ^ l) (a := ((n : Int) - 2 ^ l) * 2 ^ p) (by push_cast; ring)).divN hden
    rw [hx]
    exact_mod_cast this
  have hat := encloses_artanhSeries hx3 (hz.mul hz) (p / 3 + 8) 0 (acc := { lo := 0, hi := 0 }) (by simpa using hz)
    (by simpa using Encloses.exact (p := p) (x := 0) (a := 0) (by simp)) (by omega)
  have hlog : Real.artanh x * (2 : Nat) = Real.log (n / 2 ^ l) := by
    obtain ⟨h1, h2⟩ := abs_le.1 (hx3.trans (by norm_num : (1 / 3 : ℝ) ≤ 1))
    rw [Real.artanh_eq_half_log ⟨h1, h2⟩, show (1 + x) / (1 - x) = n / 2 ^ l by rw [hx]; field_simp; ring]
    push_cast
    ring
  have hq := (hat.scale 2).div (encloses_ivLn2 p) (by rw [hlog]; exact Real.log_nonneg ((one_le_div hpow).2 hlow)) (ivLn2_lo_pos hp)
  have hwhole := Encloses.exact (p := p) (x := ((e + l : Int) : ℝ)) (a := (e + l) * 2 ^ p) (by push_cast; ring)
  have hval : Real.logb 2 (n * 2 ^ e) = ((e + l : Int) : ℝ) + Real.artanh x * (2 : Nat) / Real.log 2 := by
    have h2 : Real.log 2 ≠ 0 := (Real.log_pos one_lt_two).ne'
    rw [hlog, Real.log_div hn0.ne' hpow.ne', Real.log_pow, Real.logb, Real.log_mul hn0.ne' (by positivity), Real.log_zpow]
    push_cast
    field_simp
    ring
  rw [hval]
  exact hwhole.add hq

end Logarithm

end Sys2Proof.Laws
end

section
/-! SUPPORT. Sine and cosine of a format's operand: after taking away whole quarter turns by the enclosed π what is left is small, so that the
series enclose it (R111, log 9); and the four functions, rounded once. -/

namespace Sys2Proof.Laws

open Sys2Proof.Machine

/-- R93: how large the significand and the exponent of a finite value can be. -/
theorem fdec_bounds {f : Fmt} (hf : Ieee f) {x : Nat} {s : Bool} {n : Nat} {e : Int} (h : fdec f x = .fin s n e) :
    n < 2 ^ (f.fb + 1) ∧ e ≤ f.eMax - f.bias - f.fb := by
  have hpos := Nat.two_pow_pos f.fb
  have h3 := hf.three_le_eMax
  have hfrac := Nat.mod_lt (x % 2 ^ (f.width - 1)) hpos
  have hfield : x % 2 ^ (f.width - 1) / 2 ^ f.fb < f.eMax + 1 := by
    rw [Nat.div_lt_iff_lt_mul hpos, Nat.succ_mul, hf.eMax_mul]
    exact Nat.mod_lt _ (Nat.two_pow_pos _)
  rw [pow_succ]
  simp only [fdec] at h
  split at h
  · split at h <;> cases h
  · split at h
    · cases h
    · split at h
      all_goals
        obtain ⟨-, rfl, rfl⟩ := FV.fin.inj h
        exact ⟨by omega, by omega⟩

/-- No operand of the four formats reaches 2^1025. -/
theorem exponent_le {t : Ty} (ht : t ∈ tysF4) {env : FEnv} {x : Nat} {s : Bool} {n : Nat} {e : Int} (hn : n ≠ 0) (h : frd env t x = .fin s n e) :
    e + Nat.log2 n ≤ 1024 := by
  obtain ⟨hlt, hle⟩ := fdec_bounds (ieee_fmtOf ht) h
  have hlog := (Nat.log2_lt hn).2 hlt
  have hmax : ((fmtOf t).eMax : Int) - (fmtOf t).bias ≤ 1024 := by fin_cases ht <;> decide
  omega

/-! ### Quarter turns -/

/-- The sine k quarter turns on. -/
theorem sin_add_quarters (r : ℝ) (k : Nat) : Real.sin (r + k * (Real.pi / 2)) =
    if 2 ≤ k % 4 then -(if k % 4 % 2 = 0 then Real.sin r else Real.cos r) else if k % 4 % 2 = 0 then Real.sin r else Real.cos r := by
  have hsplit : r + k * (Real.pi / 2) = r + (k % 4 : Nat) * (Real.pi / 2) + (k / 4 : Nat) * (2 * Real.pi) := by
    have : (k : ℝ) = (k % 4 : Nat) + 4 * (k / 4 : Nat) := by exact_mod_cast (Nat.mod_add_div k 4).symm
    rw [this]
    ring
  rw [hsplit, Real.sin_add_nat_mul_two_pi]
  have hlt := Nat.mod_lt k (show 0 < 4 by norm_num)
  generalize k % 4 = j at *
  interval_cases j
  · simp
  · simp [Real.sin_add_pi_div_two]
  · rw [show r + (2 : Nat) * (Real.pi / 2) = r + Real.pi by push_cast; ring, Real.sin_add_pi]
    simp
  · rw [show r + (3 : Nat) * (Real.pi / 2) = r + Real.pi / 2 + Real.pi by push_cast; ring, Real.sin_add_pi, Real.sin_add_pi_div_two]
    simp

/-- The quarter turns that the ends of the enclosures of x and π count in x. -/
def quarterTurns (v pi : Iv) : Nat := ((2 * v.lo).fdiv pi.hi).toNat

section Reduction

variable {p q : Nat} {n : Nat} {e : Int}

section Ends

variable {v pi : Iv} {x : ℝ}

theorem quarterTurns_bounds (hv : 0 ≤ v.lo) (hpi : 0 < pi.hi) :
    (quarterTurns v pi * pi.hi : Int) ≤ 2 * v.lo ∧ 2 * v.lo < ((quarterTurns v pi : Int) + 1) * pi.hi := by
  have hk : (quarterTurns v pi : Int) = 2 * v.lo / pi.hi := by
    rw [quarterTurns, Int.fdiv_eq_ediv_of_nonneg _ hpi.le]
    exact Int.toNat_of_nonneg (Int.ediv_nonneg (by omega) hpi.le)
  rw [hk]
  exact ⟨Int.ediv_mul_le _ hpi.ne', Int.lt_ediv_add_one_mul_self _ hpi⟩

/-- No more quarter turns are taken away than x has, and less than one is left but for the errors of the two enclosures. -/
theorem reduced_bounds (hx : Encloses p v x) (hpi : Encloses p pi Real.pi) (hx0 : 0 < x) (hunit : width v ≤ 1) :
    quarterTurns v pi * (Real.pi / 2) ≤ x ∧
    (x - quarterTurns v pi * (Real.pi / 2)) * 2 ^ p ≤ (Real.pi * 2 ^ p + (quarterTurns v pi + 1) * width pi) / 2 + 1 := by
  have hscale : (0 : ℝ) < 2 ^ p := by positivity
  have hpi0 : (0 : ℝ) < pi.hi := (mul_pos Real.pi_pos hscale).trans_le hpi.hi
  have hlo : 0 ≤ v.lo := by
    have hhi : (0 : ℝ) < v.hi := (mul_pos hx0 hscale).trans_le hx.hi
    have : 0 < v.hi := by exact_mod_cast hhi
    rw [width] at hunit
    omega
  obtain ⟨hk, hk'⟩ := quarterTurns_bounds hlo (by exact_mod_cast hpi0)
  generalize quarterTurns v pi = k at *
  have hkR : (k : ℝ) * pi.hi ≤ 2 * v.lo := by exact_mod_cast hk
  have hkR' : 2 * (v.lo : ℝ) < (k + 1) * pi.hi := by exact_mod_cast hk'
  constructor
  · have : k * (Real.pi * 2 ^ p) ≤ k * pi.hi := by gcongr; exact hpi.hi
    rw [← mul_le_mul_iff_left₀ hscale]
    linarith [hx.lo]
  · have : x * 2 ^ p ≤ v.lo + 1 := by
      have : (width v : ℝ) ≤ 1 := by exact_mod_cast hunit
      linarith [hx.lo_ge]
    have : ((k : ℝ) + 1) * pi.hi ≤ (k + 1) * (Real.pi * 2 ^ p + width pi) := by gcongr; exact hpi.hi_le
    linarith

end Ends

theorem operand_le_two_pow (hq : e + Nat.log2 n + 1 ≤ q) : (n * 2 ^ e : ℝ) ≤ 2 ^ q := by
  calc (n * 2 ^ e : ℝ) ≤ 2 ^ ((Nat.log2 n : Int) + 1) * 2 ^ e := by gcongr; exact (lt_two_pow_log2 n).le
    _ = 2 ^ ((Nat.log2 n : Int) + 1 + e) := (zpow_add₀ two_ne_zero _ _).symm
    _ ≤ 2 ^ (q : Int) := zpow_le_zpow_right₀ one_le_two (by omega)
    _ = 2 ^ q := zpow_natCast _ _

/-- What is left of x = n × 2^e is between 0 and 2: π is known to as many more bits as x has before the binary point. -/
theorem abs_reduced_le (hp : 160 ≤ p) (hn : n ≠ 0) (hq : e + Nat.log2 n + 2 ≤ q) (hq' : q ≤ 1030) :
    |(n * 2 ^ e : ℝ) - quarterTurns (ivOf (p + q + 4) n e) (ivPi (p + q + 4)) * (Real.pi / 2)| ≤ 2 := by
  have hpi := encloses_ivPi (p + q + 4)
  have hw0 : (0 : ℝ) ≤ width (ivPi (p + q + 4)) := by exact_mod_cast hpi.width_nonneg
  have hw : (width (ivPi (p + q + 4)) : ℝ) < 2 ^ p := by
    have := width_ivPi_le (p + q + 4)
    have := linear_lt_two_pow hp
    exact_mod_cast (show width (ivPi (p + q + 4)) < ((2 ^ p : Nat) : Int) by omega)
  have hx := encloses_ivOf (p + q + 4) n e
  rw [Int.cast_natCast] at hx
  obtain ⟨hlow, hhigh⟩ := reduced_bounds hx hpi (by positivity) (width_ivOf_le _ _ _)
  generalize quarterTurns (ivOf (p + q + 4) n e) (ivPi (p + q + 4)) = k at *
  have hscale : (0 : ℝ) < 2 ^ (p + q + 4) := by positivity
  have hone : (1 : ℝ) ≤ 2 ^ q ∧ (1 : ℝ) ≤ 2 ^ (p + q) := ⟨one_le_pow₀ one_le_two, one_le_pow₀ one_le_two⟩
  have hk : (k : ℝ) + 1 ≤ 2 * 2 ^ q := by
    have : (n * 2 ^ e : ℝ) ≤ 2 ^ q := operand_le_two_pow (by omega)
    nlinarith [Real.pi_gt_three, k.cast_nonneg (α := ℝ)]
  have herr : ((k : ℝ) + 1) * width (ivPi (p + q + 4)) ≤ 2 ^ (p + q + 4) / 8 := by
    calc ((k : ℝ) + 1) * width (ivPi (p + q + 4)) ≤ 2 * 2 ^ q * 2 ^ p := by gcongr
      _ = _ := by rw [pow_add, pow_add]; ring
  have hunit : (16 : ℝ) ≤ 2 ^ (p + q + 4) := by rw [pow_add]; linarith [hone.2]
  have hpiscale : Real.pi * 2 ^ (p + q + 4) ≤ 3.15 * 2 ^ (p + q + 4) := by gcongr; exact Real.pi_lt_d2.le
  rw [abs_of_nonneg (by linarith), ← mul_le_mul_iff_left₀ hscale]
  linarith

/-- The enclosure of the sine, or of the cosine, after k quarter turns. -/
theorem encloses_turned {r : Iv} {x : ℝ} (hr : Encloses p r x) (hx : |x| ≤ 2) (k : Nat) :
    Encloses p (let v := if k % 4 % 2 == 0 then ivSin p r else ivCos p r
      if k % 4 ≥ 2 then { lo := -v.hi, hi := -v.lo } else v) (Real.sin (x + k * (Real.pi / 2))) := by
  rw [sin_add_quarters]
  have hv : Encloses p (if k % 4 % 2 == 0 then ivSin p r else ivCos p r) (if k % 4 % 2 = 0 then Real.sin x else Real.cos x) := by
    simp only [beq_iff_eq]
    split
    · exact encloses_ivSin hr hx
    · exact encloses_ivCos hr hx
  by_cases h : 2 ≤ k % 4
  · simpa only [ge_iff_le, if_pos h] using hv.neg
  · simpa only [ge_iff_le, if_neg h] using hv

/-- R111: sine and cosine of n × 2^e. -/
theorem encloses_ivTrig (cosine : Bool) (hp : 160 ≤ p) (hn : n ≠ 0) (he : e + Nat.log2 n ≤ 1024) :
    Encloses p (ivTrig cosine p n e) (if cosine then Real.cos (n * 2 ^ e) else Real.sin (n * 2 ^ e)) := by
  obtain ⟨q, hq⟩ : ∃ q, q = (e + Nat.log2 n + 2).toNat := ⟨_, rfl⟩
  have hsmall := abs_reduced_le (q := q) (e := e) hp hn (by omega) (by omega)
  have hx := encloses_ivOf (p + q + 4) n e
  rw [Int.cast_natCast] at hx
  obtain ⟨k, hk⟩ : ∃ k, k = quarterTurns (ivOf (p + q + 4) n e) (ivPi (p + q + 4)) := ⟨_, rfl⟩
  rw [← hk] at hsmall
  have hr := (hx.sub (((encloses_ivPi (p + q + 4)).scale k).divN two_pos)).coarsen (p := p) (q := q + 4)
  rw [show (n * 2 ^ e - Real.pi * k / (2 : Nat) : ℝ) = n * 2 ^ e - k * (Real.pi / 2) by push_cast; ring] at hr
  have h := encloses_turned hr hsmall (k + if cosine then 1 else 0)
  have hval : (n * 2 ^ e - k * (Real.pi / 2) + (k + if cosine then 1 else 0 : Nat) * (Real.pi / 2) : ℝ) =
      n * 2 ^ e + (if cosine then 1 else 0 : Nat) * (Real.pi / 2) := by push_cast; ring
  rw [hval] at h
  subst hk hq
  convert! h using 1
  cases cosine
  · simp
  · simp [Real.sin_add_pi_div_two]

end Reduction

/-! ### Results -/

/-- An integer at scale 2^-p, rounded. -/
theorem rounded_roundFix {f : Fmt} (hf : Ieee f) (p : Nat) (a sh : Int) : Rounded f (a * 2 ^ (sh - p)) (roundFix f p a sh) := by
  have h := rounded_roundQ (s := decide (a < 0)) (n := a.natAbs) (e := sh - p) hf (by simp +contextual)
  convert! h using 1
  rcases lt_or_ge a 0 with ha | ha
  · simp [ha, Nat.cast_natAbs, abs_of_neg ha]
  · simp [not_lt.2 ha, Nat.cast_natAbs, abs_of_nonneg ha]

/-- Refining stops at a precision at which the ends agree, if it tries one. -/
theorem refine_agrees {f : Fmt} {iv : Nat → Iv} {sh : Int} {fuel p : Nat}
    (h : ∃ j, j < fuel ∧ roundFix f (p * 2 ^ j) (iv (p * 2 ^ j)).lo sh = roundFix f (p * 2 ^ j) (iv (p * 2 ^ j)).hi sh) :
    ∃ q, p ≤ q ∧ refine f iv sh fuel p = roundFix f q (iv q).lo sh ∧ refine f iv sh fuel p = roundFix f q (iv q).hi sh := by
  induction fuel generalizing p with
  | zero => obtain ⟨j, hj, -⟩ := h; omega
  | succ fuel ih =>
    by_cases hp : roundFix f p (iv p).lo sh = roundFix f p (iv p).hi sh
    · exact ⟨p, le_rfl, if_pos hp, (if_pos hp).trans hp⟩
    · obtain ⟨_ | j, hj, hagree⟩ := h
      · rw [pow_zero, Nat.mul_one] at hagree
        exact absurd hagree hp
      · rw [pow_succ', ← Nat.mul_assoc, Nat.mul_comm p 2] at hagree
        obtain ⟨q, hq, hlo, hhi⟩ := ih ⟨j, by omega, hagree⟩
        have hskip : refine f iv sh (fuel + 1) p = refine f iv sh fuel (2 * p) := if_neg hp
        exact ⟨q, by omega, hskip.trans hlo, hskip.trans hhi⟩

/-- Log 9: where the ends of the enclosures come to agree, the number enclosed is rounded. -/
theorem rounded_refine {f : Fmt} (hf : Ieee f) {iv : Nat → Iv} {sh : Int} {p : Nat} {y : ℝ} (hiv : ∀ q, p ≤ q → Encloses q (iv q) y)
    (h : EndsAgree f iv sh p) : Rounded f (y * 2 ^ sh) (refine f iv sh 6 p) := by
  obtain ⟨q, hq, hlo, hhi⟩ := refine_agrees h
  have hscale : (0 : ℝ) < 2 ^ (sh - q) := by positivity
  have hy : y * 2 ^ sh = y * 2 ^ q * 2 ^ (sh - q) := by
    rw [mul_assoc, ← zpow_natCast, ← zpow_add₀ two_ne_zero, add_sub_cancel]
  refine Rounded.between hf (y₁ := (iv q).lo * 2 ^ (sh - q)) (y₂ := (iv q).hi * 2 ^ (sh - q)) ?_ ?_ ?_ ?_
  · exact hlo ▸ rounded_roundFix hf q _ sh
  · exact hhi ▸ rounded_roundFix hf q _ sh
  · exact hy ▸ mul_le_mul_of_nonneg_right (hiv q hq).lo hscale.le
  · exact hy ▸ mul_le_mul_of_nonneg_right (hiv q hq).hi hscale.le

section Results

variable {t : Ty} {f : Fmt} {s : Bool} {n : Nat} {e : Int}

theorem signed_natCast (s : Bool) (n : Nat) (e : Int) : signed s (n * 2 ^ e) = (sgn s n : ℝ) * 2 ^ e := by cases s <;> simp [sgn]

/-- Table 7.3, RDN: the whole part is the floor. -/
theorem fint_rdn_bounds (s : Bool) (n d : Nat) : fint .rdn s n (-d) * 2 ^ d ≤ sgn s n ∧ sgn s n < (fint .rdn s n (-d) + 1) * 2 ^ d := by
  have hscale : rscale .rdn s n 1 (-d) 0 = rdiv .rdn s n (2 ^ d) := by
    rcases Nat.eq_zero_or_pos d with rfl | hd
    · simp [rscale]
    · rw [rscale, if_neg (by omega)]
      simp
  have hpos := Nat.two_pow_pos d
  have hdm : ((n / 2 ^ d : Nat) : Int) * 2 ^ d + (n % 2 ^ d : Nat) = n := by exact_mod_cast Nat.div_add_mod' n (2 ^ d)
  have hlt : ((n % 2 ^ d : Nat) : Int) < 2 ^ d := by exact_mod_cast Nat.mod_lt n hpos
  have hge : (0 : Int) ≤ (n % 2 ^ d : Nat) := Int.natCast_nonneg _
  rw [fint, hscale, rdiv]
  generalize n / 2 ^ d = a at *
  generalize n % 2 ^ d = r at *
  cases s
  · simp only [Bool.false_eq_true, not_false_eq_true, or_true, if_true, sgn, if_false]
    constructor <;> linarith
  · rcases Nat.eq_zero_or_pos r with rfl | hr
    · simp only [true_or, if_true, sgn]
      push_cast at *
      constructor <;> linarith
    · simp only [hr.ne', not_true, or_self, if_false, sgn, if_true]
      have : (0 : Int) < r := by exact_mod_cast hr
      push_cast
      constructor <;> linarith

theorem fint_rdn_integer (he : 0 ≤ e) : (fint .rdn s n e : ℝ) = signed s (n * 2 ^ e) := by
  obtain ⟨k, rfl⟩ := Int.eq_ofNat_of_zero_le he
  cases s <;> simp [fint, rscale, rdiv, sgn, Nat.mod_one]

theorem rounded_two_pow (hf : Ieee f) (i : Int) : Rounded f ((2 : ℝ) ^ i) (roundQ f .rne false false 1 1 i) := by
  simpa using rounded_roundQ (s := false) (n := 1) (e := i) hf (by simp)

/-- Such an operand takes `exp2` out of every format. -/
theorem two_pow_le_of_exponent (hn : n ≠ 0) (h : 12 < e + Nat.log2 n) : (4096 : ℝ) ≤ n * 2 ^ e := by
  calc (4096 : ℝ) = 2 ^ (12 : Int) := by norm_num
    _ ≤ 2 ^ ((Nat.log2 n : Int) + e) := zpow_le_zpow_right₀ one_le_two (by omega)
    _ = 2 ^ (Nat.log2 n : Int) * 2 ^ e := zpow_add₀ two_ne_zero _ _
    _ ≤ n * 2 ^ e := by gcongr; exact two_pow_log2_le hn

theorem exp2_far (ht : t ∈ tysF4) (hn : n ≠ 0) (h : 12 < e + Nat.log2 n) :
    Rounded (fmtOf t) ((2 : ℝ) ^ signed s (n * 2 ^ e)) (specFin (fmtOf t) .exp2 s n e) := by
  have hf := ieee_fmtOf ht
  have hx := two_pow_le_of_exponent hn h
  have hspec : specFin (fmtOf t) .exp2 s n e = if s then roundQ (fmtOf t) .rne false false 1 1 (-4096) else (fmtOf t).infBits false := by
    simp only [specFin, if_neg hn, gt_iff_lt, if_pos h]
  rw [hspec]
  cases s
  · have hinf : roundQ (fmtOf t) .rne false false 1 1 4096 = (fmtOf t).infBits false := by fin_cases ht <;> decide +kernel
    refine Rounded.inf_of_le hf (hinf ▸ rounded_two_pow hf 4096) (by positivity) ?_
    rw [← Real.rpow_intCast 2 4096]
    exact Real.rpow_le_rpow_of_exponent_le one_le_two (by simpa using hx)
  · have hzero : roundQ (fmtOf t) .rne false false 1 1 (-4096) = (fmtOf t).sign false := by fin_cases ht <;> decide +kernel
    have h0 : Rounded (fmtOf t) 0 ((fmtOf t).sign false) := by
      simpa [roundQ] using rounded_roundQ (s := false) (n := 0) (e := 0) hf (by simp)
    simp only [if_true]
    refine Rounded.between hf (hzero ▸ h0) (rounded_two_pow hf (-4096)) (by positivity) ?_
    rw [← Real.rpow_intCast 2 (-4096)]
    exact Real.rpow_le_rpow_of_exponent_le one_le_two (by simpa using hx)

theorem exp2_integer (hf : Ieee f) (hn : n ≠ 0) (h : ¬ 12 < e + Nat.log2 n) (he : 0 ≤ e) :
    Rounded f ((2 : ℝ) ^ signed s (n * 2 ^ e)) (specFin f .exp2 s n e) := by
  have hspec : specFin f .exp2 s n e = roundQ f .rne false false 1 1 (fint .rdn s n e) := by
    simp only [specFin, if_neg hn, gt_iff_lt, if_neg h, ge_iff_le, if_pos he]
  rw [hspec, ← fint_rdn_integer he, Real.rpow_intCast]
  exact rounded_two_pow hf _

/-- The part of an operand above its floor, in units of 2^e. -/
def fractionOf (s : Bool) (n : Nat) (e : Int) : Int := sgn s n - fint .rdn s n e * 2 ^ (-e).toNat

theorem fractionOf_spec (he : e < 0) : ∃ m : Nat, fractionOf s n e = m ∧ (m : ℝ) * 2 ^ e ≤ 1 ∧
    signed s (n * 2 ^ e) = fint .rdn s n e + m * 2 ^ e := by
  obtain ⟨d, rfl⟩ := Int.exists_eq_neg_ofNat he.le
  obtain ⟨hle, hlt⟩ := fint_rdn_bounds s n d
  have hfrac : fractionOf s n (-d) = sgn s n - fint .rdn s n (-d) * 2 ^ d := by rw [fractionOf, neg_neg, Int.toNat_natCast]
  rw [hfrac, signed_natCast]
  generalize fint .rdn s n (-d) = w at *
  obtain ⟨m, hm⟩ := Int.eq_ofNat_of_zero_le (sub_nonneg.2 hle)
  have hpow : (0 : ℝ) < 2 ^ d := by positivity
  have hsgn : (sgn s n : ℝ) = m + w * 2 ^ d := by exact_mod_cast (show sgn s n = m + w * 2 ^ d by linarith)
  have hm1 : (m : ℝ) ≤ 2 ^ d := by exact_mod_cast (show (m : Int) ≤ 2 ^ d by linarith)
  simp only [zpow_neg, zpow_natCast, ← div_eq_mul_inv, hsgn]
  exact ⟨m, hm, (div_le_one hpow).2 hm1, by field_simp; ring⟩

/-- R111: `exp2` is rounded once. -/
theorem rounded_exp2 (ht : t ∈ tysF4) (hn : n ≠ 0)
    (h : 12 < e + Nat.log2 n ∨ 0 ≤ e ∨ (fractionOf s n e).toNat = 0 ∨
      EndsAgree (fmtOf t) (fun p => ivExp2 p (fractionOf s n e).toNat e) (fint .rdn s n e) (128 + depthOf (fractionOf s n e).toNat e)) :
    Rounded (fmtOf t) ((2 : ℝ) ^ signed s (n * 2 ^ e)) (specFin (fmtOf t) .exp2 s n e) := by
  have hf := ieee_fmtOf ht
  by_cases hfar : 12 < e + Nat.log2 n
  · exact exp2_far ht hn hfar
  by_cases he : 0 ≤ e
  · exact exp2_integer hf hn hfar he
  have hspec : specFin (fmtOf t) .exp2 s n e = if fractionOf s n e = 0 then roundQ (fmtOf t) .rne false false 1 1 (fint .rdn s n e)
      else refine (fmtOf t) (fun p => ivExp2 p (fractionOf s n e).toNat e) (fint .rdn s n e) 6 (128 + depthOf (fractionOf s n e).toNat e) := by
    simp only [specFin, fractionOf, if_neg hn, gt_iff_lt, if_neg hfar, ge_iff_le, if_neg he] <;> rfl
  obtain ⟨m, hm, hle, hval⟩ := fractionOf_spec (s := s) (n := n) (not_le.1 he)
  rw [hspec, hval, Real.rpow_add two_pos, Real.rpow_intCast, mul_comm]
  rw [hm, Int.toNat_natCast] at h ⊢
  rcases eq_or_ne m 0 with rfl | hm0
  · simpa using rounded_two_pow hf (fint .rdn s n e)
  · rw [if_neg (by exact_mod_cast hm0)]
    have hagree := ((h.resolve_left hfar).resolve_left he).resolve_left hm0
    exact rounded_refine hf (fun q hq => encloses_ivExp2 (by omega) m e hle) hagree

/-- R111: `log2` is rounded once. -/
theorem rounded_log2 (hf : Ieee f) (hn : n ≠ 0) (h : n = 2 ^ Nat.log2 n ∨ EndsAgree f (fun p => ivLog2 p n e) 0 (160 + f.fb)) :
    Rounded f (Real.logb 2 (n * 2 ^ e)) (specFin f .log2 false n e) := by
  by_cases hpow : n = 2 ^ Nat.log2 n
  · have hspec : specFin f .log2 false n e = roundFix f 0 (e + Nat.log2 n) 0 := by
      simp only [specFin, if_neg hn, Bool.false_eq_true, if_false, if_pos hpow] <;> rfl
    have hval : Real.logb 2 (n * 2 ^ e) = ((e + Nat.log2 n : Int) : ℝ) := by
      have : (n : ℝ) = 2 ^ (Nat.log2 n : Int) := by exact_mod_cast hpow
      rw [this, ← zpow_add₀ two_ne_zero, add_comm, ← Real.rpow_intCast, Real.logb_rpow two_pos (by norm_num)]
    rw [hspec, hval]
    simpa using rounded_roundFix hf 0 (e + Nat.log2 n) 0
  · have hspec : specFin f .log2 false n e = refine f (fun p => ivLog2 p n e) 0 6 (160 + f.fb) := by
      simp only [specFin, if_neg hn, Bool.false_eq_true, if_false, if_neg hpow]
    rw [hspec]
    simpa using rounded_refine hf (fun q hq => encloses_ivLog2 (by omega) hn e) (h.resolve_left hpow)

/-- No operand but 0 is a multiple of π. -/
theorem sin_operand_ne_zero (hn : n ≠ 0) (e : Int) : Real.sin (n * 2 ^ e) ≠ 0 := by
  intro h
  obtain ⟨k, hk⟩ := Real.sin_eq_zero_iff.1 h
  have hx : (n * 2 ^ e : ℝ) ≠ 0 := by positivity
  have hk0 : (k : ℝ) ≠ 0 := fun h0 => hx (by rw [← hk, h0, zero_mul])
  refine irrational_pi ⟨n * 2 ^ e / k, ?_⟩
  push_cast
  rw [← hk, mul_div_cancel_left₀ _ hk0]

/-- R111: `sin` is rounded once, by the sine's oddness. -/
theorem rounded_sin (hf : Ieee f) (hn : n ≠ 0) (he : e + Nat.log2 n ≤ 1024)
    (h : EndsAgree f (fun p => ivTrig false p n e) 0 (160 + f.fb + 2 * depthOf n e)) :
    Rounded f (Real.sin (signed s (n * 2 ^ e))) (specFin f .sin s n e) := by
  have hpos : Rounded f (Real.sin (n * 2 ^ e)) (refine f (fun p => ivTrig false p n e) 0 6 (160 + f.fb + 2 * depthOf n e)) := by
    simpa using rounded_refine hf (fun q hq => encloses_ivTrig false (by omega) hn he) h
  cases s
  · simpa [specFin, hn] using hpos
  · simpa [specFin, hn, flipSign] using hpos.flip hf (sin_operand_ne_zero hn e)

/-- R111: `cos` is rounded once, by the cosine's evenness. -/
theorem rounded_cos (hf : Ieee f) (hn : n ≠ 0) (he : e + Nat.log2 n ≤ 1024)
    (h : EndsAgree f (fun p => ivTrig true p n e) 0 (160 + f.fb + 2 * depthOf n e)) :
    Rounded f (Real.cos (signed s (n * 2 ^ e))) (specFin f .cos s n e) := by
  have hpos : Rounded f (Real.cos (n * 2 ^ e)) (refine f (fun p => ivTrig true p n e) 0 6 (160 + f.fb + 2 * depthOf n e)) := by
    simpa using rounded_refine hf (fun q hq => encloses_ivTrig true (by omega) hn he) h
  cases s <;> simpa [specFin, hn] using hpos

/-- R111, R112: what a special function writes for a finite operand other than 0. -/
theorem specFn_rounded {env : FEnv} {x : Nat} {fn : SpecFn} {y : ℝ} (hn : n ≠ 0) (hx : frd env t x = .fin s n e)
    (h : Rounded (fmtOf t) y (specFin (fmtOf t) fn s n e)) (neg : Bool) (hneg : neg = true ↔ y < 0) :
    ∃ r, specFn env t fn x = flush env.ftz (fmtOf t) r ∧ (fmtOf t).Rounds .rne neg y r :=
  ⟨_, by simp only [specFn, hx, if_neg hn], h neg hneg⟩

end Results

/-- Settles O20: each enclosure holds the exact value at every precision, and what lies between two numbers that round alike rounds as they do. -/
theorem transcendentalsRounded : Obligations.TranscendentalsRounded := by
  unfold Obligations.TranscendentalsRounded
  intro t ht env x s n e hn hx
  have hf := ieee_fmtOf ht
  have he := exponent_le ht hn hx
  simp only [rat_fin]
  refine ⟨fun h => specFn_rounded hn hx (rounded_exp2 ht hn h), fun hs h => specFn_rounded hn hx ?_,
    fun h => specFn_rounded hn hx (rounded_sin hf hn he h), fun h => specFn_rounded hn hx (rounded_cos hf hn he h)⟩
  subst hs
  exact rounded_log2 hf hn h

end Sys2Proof.Laws
end
section
/-! SUPPORT. The integer operations of Table 11.4 as numbers: what each leaves for two w-bit patterns read in a type. -/

namespace Sys2Proof.Laws

open Sys2Proof.Machine

section Table

variable (t : Ty) (sat : Bool) (x y : Nat)

theorem iBin_add : iBin .add t sat x y =
    wrapTo t.width (if sat then clampTy t (readInt t x + readInt t y) else readInt t x + readInt t y) := by
  simp only [iBin, iOut, readInt_mod]
theorem iBin_sub : iBin .sub t sat x y =
    wrapTo t.width (if sat then clampTy t (readInt t x - readInt t y) else readInt t x - readInt t y) := by
  simp only [iBin, iOut, readInt_mod]
theorem iBin_mul : iBin .mul t sat x y = wrapTo t.width (readInt t x * readInt t y) := by simp only [iBin, readInt_mod]
theorem iBin_mulhi : iBin .mulhi t sat x y = wrapTo t.width (readInt t x * readInt t y / 2 ^ t.width) := by simp only [iBin, readInt_mod]
theorem iBin_div : iBin .div t sat x y =
    if readInt t y = 0 then 2 ^ t.width - 1 else wrapTo t.width ((readInt t x).tdiv (readInt t y)) := by
  simp only [iBin, readInt_mod]
theorem iBin_rem : iBin .rem t sat x y =
    if readInt t y = 0 then x % 2 ^ t.width else wrapTo t.width ((readInt t x).tmod (readInt t y)) := by
  simp only [iBin, readInt_mod]

/-- The smaller pattern is the pattern of the smaller number. -/
theorem iBin_min : iBin .min t sat x y = wrapTo t.width (min (readInt t x) (readInt t y)) := by
  simp only [iBin, readInt_mod]
  split
  · rw [min_eq_left (by omega), wrap_readInt]
  · rw [min_eq_right (by omega), wrap_readInt]
/-- The greater pattern is the pattern of the greater number. -/
theorem iBin_max : iBin .max t sat x y = wrapTo t.width (max (readInt t x) (readInt t y)) := by
  simp only [iBin, readInt_mod]
  split
  · rw [max_eq_left (by omega), wrap_readInt]
  · rw [max_eq_right (by omega), wrap_readInt]

theorem iBin_and : iBin .and t sat x y = (x &&& y) % 2 ^ t.width := Nat.and_mod_two_pow.symm
theorem iBin_or : iBin .or t sat x y = (x ||| y) % 2 ^ t.width := Nat.or_mod_two_pow.symm
theorem iBin_xor : iBin .xor t sat x y = (x ^^^ y) % 2 ^ t.width := Nat.xor_mod_two_pow.symm
theorem iBin_shl_mod : iBin .shl t sat x y % 2 ^ t.width = x * 2 ^ (y % 2 ^ t.width) % 2 ^ t.width := shl_mod _ _ _
theorem iBin_shr : iBin .shr t sat x y = wrapTo t.width (readInt t x / 2 ^ (y % 2 ^ t.width)) := by
  simp only [iBin, readInt_mod]
  exact shr_wrap t x (y % 2 ^ t.width)

theorem iUn_not : iUn .not t sat x = 2 ^ t.width - 1 - x % 2 ^ t.width := rfl
theorem iUn_clz : iUn .clz t sat x =
    if x % 2 ^ t.width = 0 then t.width else t.width - 1 - Nat.log2 (x % 2 ^ t.width) := by
  simp only [iUn, bitLen, Nat.mod_mod]
  split
  · rfl
  · omega

/-- Counting set bits one by one counts the positions of the set bits. -/
theorem foldl_count (p : Nat → Bool) (ls : List Nat) (n : Nat) :
    ls.foldl (fun a k => a + if p k then 1 else 0) n = n + (ls.filter p).length := by
  induction ls generalizing n with
  | nil => rfl
  | cons k ls ih =>
    rw [List.foldl_cons, ih, List.filter_cons]
    cases p k
    · rfl
    · simp only [if_true, List.length_cons]; omega

theorem iUn_popc : iUn .popc t sat x = ((List.range t.width).filter (fun n => x.testBit n)).length := by
  simp only [iUn, popc, foldl_count, Nat.zero_add]
  refine congrArg List.length (List.filter_congr fun n hn => ?_)
  rw [Nat.testBit_mod_two_pow, decide_eq_true (List.mem_range.1 hn), Bool.true_and]

end Table

/-- The low bits of a complement. -/
theorem toNat_not_mod {n : Nat} (v : BitVec n) {k : Nat} (hk : k ≤ n) : (~~~ v).toNat % 2 ^ k = 2 ^ k - 1 - v.toNat % 2 ^ k := by
  refine Nat.eq_of_testBit_eq fun i => ?_
  rw [Nat.sub_sub, Nat.add_comm 1, Nat.testBit_two_pow_sub_succ (Nat.mod_lt _ (by positivity))]
  simp only [Nat.testBit_mod_two_pow]
  by_cases hi : i < k
  · rw [BitVec.testBit_toNat, BitVec.testBit_toNat, BitVec.getLsbD_not]
    simp [hi, show i < n by omega]
  · simp [hi]

end Sys2Proof.Laws
end
section
/-! PROOF. The scalar integer results (R161, R162, Table 11.4). -/

namespace Sys2Proof.Laws

open Sys2Proof.Machine

/-- A class 1 instruction of two operands: the operation's result on S[a] and b, extended (R149, R161). -/
theorem setsS_bin {i : Instr} {op : IOp} {lat : Option Nat} {h : Hd} {d a : Field11} {b : SB} {t : Ty} {sat : Bool} {val : Wave → Word}
    (he : ∀ s, exec i s = scalarBin op lat h d a b t sat s)
    (hr : regSpec i = some (specH h (sbLen b) (sOp d 1 true :: sOp a :: sbOpnds b) lat))
    (hv : ∀ w, extTy t (iBin op t sat (rdS w a.toNat).toNat (sbVal w t b)) = val w) : SetsS i h d val :=
  setsS_of he hr (fun sp s w => by rw [rdS_entry, sbVal_entry]) hv
/-- A class 1 instruction of one operand. -/
theorem setsS_un {i : Instr} {op : IUn} {h : Hd} {d a : Field11} {t : Ty} {val : Wave → Word} (he : ∀ s, exec i s = scalarUn op h d a t s)
    (hr : regSpec i = some (specH h 8 [sOp d 1 true, sOp a] (some 2)))
    (hv : ∀ w, extTy t (iUn op t false (rdS w a.toNat).toNat) = val w) : SetsS i h d val :=
  setsS_of he hr (fun sp s w => by rw [rdS_entry]) hv

/-- The scalar compare decides the condition on the numbers in the type's order (R162). -/
theorem iCmp_eq (c : Cnd) (t : Ty) (x y : Nat) : iCmp c t x y = (match c with
    | .eq => decide (readInt t x = readInt t y) | .ne => decide (readInt t x ≠ readInt t y)
    | .lt => decide (readInt t x < readInt t y) | .le => decide (readInt t x ≤ readInt t y)
    | .gt => decide (readInt t x > readInt t y) | .ge => decide (readInt t x ≥ readInt t y)
    | .unord => false | .ord => true) := by
  cases c <;> rfl

/-- Settles O2: each instruction's operation as a number, and `sel` as the words it moves. -/
theorem scalarResults : Obligations.ScalarResults := by
  unfold Obligations.ScalarResults
  refine ⟨⟨fun f => ?add, fun f => ?sub, fun f => ?mul, fun f => ?mulhi, fun f => ?div, fun f => ?rem, fun f => ?min, fun f => ?max, fun f => ?and,
    fun f => ?or, fun f => ?xor, fun f => ?not, fun f => ?shl, fun f => ?shr, fun f => ?clz, fun f => ?popc, fun f => ?mov⟩,
    fun f => ?cmp, fun f => ?sel⟩
  case add => exact setsS_bin (fun _ => rfl) rfl fun w => by rw [iBin_add]; rfl
  case sub => exact setsS_bin (fun _ => rfl) rfl fun w => by rw [iBin_sub]; rfl
  case mul => exact setsS_bin (fun _ => rfl) rfl fun w => by rw [iBin_mul]; rfl
  case mulhi => exact setsS_bin (fun _ => rfl) rfl fun w => by rw [iBin_mulhi]; rfl
  case div => exact setsS_bin (fun _ => rfl) rfl fun w => by rw [iBin_div]; rfl
  case rem =>
    refine setsS_bin (fun _ => rfl) rfl fun w => ?_
    have e : iBin .rem f.ty false (rdS w f.a.toNat).toNat (sbVal w f.ty f.b) = if sbI w f.ty f.b = 0 then (rdS w f.a.toNat).toNat % 2 ^ f.ty.width
        else wrapTo f.ty.width ((scaI w f.ty f.a).tmod (sbI w f.ty f.b)) := iBin_rem ..
    rw [e]
    split
    · rw [extTy_mod]
    · rfl
  case min => exact setsS_bin (fun _ => rfl) rfl fun w => by rw [iBin_min]; rfl
  case max => exact setsS_bin (fun _ => rfl) rfl fun w => by rw [iBin_max]; rfl
  case and => exact setsS_bin (fun _ => rfl) rfl fun w => by rw [iBin_and, extTy_mod]
  case or => exact setsS_bin (fun _ => rfl) rfl fun w => by rw [iBin_or, extTy_mod]
  case xor => exact setsS_bin (fun _ => rfl) rfl fun w => by rw [iBin_xor, extTy_mod]
  case not => exact setsS_un (fun _ => rfl) rfl fun w => by rw [iUn_not, ← toNat_not_mod _ (width_le f.ty), extTy_mod]
  case shl => exact setsS_bin (fun _ => rfl) rfl fun w => extTy_congr _ _ _ (iBin_shl_mod ..)
  case shr => exact setsS_bin (fun _ => rfl) rfl fun w => by rw [iBin_shr]; rfl
  case clz => exact setsS_un (fun _ => rfl) rfl fun w => by rw [iUn_clz]
  case popc => exact setsS_un (fun _ => rfl) rfl fun w => by rw [iUn_popc]; rfl
  case mov => exact setsS_of (fun _ => rfl) rfl (fun sp s w => sbVal_entry ..) fun w => rfl
  case cmp =>
    refine setsM_whole (fun _ => rfl) rfl fun sp s w => ?_
    rw [rdS_entry, sbVal_entry, iCmp_eq]
    rfl
  case sel =>
    refine setsS_whole (fun _ => rfl) rfl fun sp s w => ?_
    cases f.b <;> simp only [rdS_entry]

end Sys2Proof.Laws
end
section
/-! SUPPORT. Masks built from a predicate on lanes. -/

namespace Sys2Proof.Laws

open Sys2Proof.Machine

/-- Adding a power of two for each lane of a predicate builds a number with those bits. -/
theorem foldl_bits (p : Nat → Bool) (n : Nat) :
    let x := (List.range n).foldl (fun a l => if p l then a + 2 ^ l else a) 0
    x < 2 ^ n ∧ ∀ i, x.testBit i = (decide (i < n) && p i) := by
  induction n with
  | zero => simp
  | succ n ih =>
    obtain ⟨hlt, hbits⟩ := ih
    rw [List.range_succ, List.foldl_append, List.foldl_cons, List.foldl_nil]
    cases hp : p n with
    | false =>
      refine ⟨lt_of_lt_of_le hlt (Nat.pow_le_pow_right (by decide) n.le_succ), fun i => (hbits i).trans ?_⟩
      by_cases hi : i = n
      · subst hi; simp [hp]
      · rw [decide_eq_decide.2 (show i < n ↔ i < n + 1 by omega)]
    | true =>
      refine ⟨by simp only [if_true, pow_succ]; omega, fun i => ?_⟩
      simp only [if_true, Nat.add_comm _ (2 ^ n)]
      rcases lt_trichotomy i n with hi | rfl | hi
      · rw [Nat.testBit_two_pow_add_gt hi, hbits, decide_eq_decide.2 (show i < n ↔ i < n + 1 by omega)]
      · rw [Nat.testBit_two_pow_add_eq, hbits]; simp [hp]
      · rw [Nat.testBit_lt_two_pow (lt_of_lt_of_le (b := 2 ^ (n + 1)) (by rw [pow_succ]; omega) (Nat.pow_le_pow_right (by decide) hi))]
        simp [show ¬ i < n + 1 by omega]

/-- A mask built from a predicate holds the lanes in which it is true. -/
theorem getLsbD_maskOf (p : Nat → Bool) {l : Nat} (hl : l < 32) : (maskOf p).getLsbD l = p l := by
  rw [maskOf, BitVec.getLsbD_ofNat, (foldl_bits p 32).2]
  simp [hl]

/-- A mask is empty when no lane is in it. -/
theorem mask_eq_zero_iff (m : LaneMask) : m = 0 ↔ ∀ l, l < 32 → m.getLsbD l = false := by
  refine ⟨fun h l _ => by rw [h]; simp, fun h => BitVec.eq_of_getLsbD_eq fun l hl => ?_⟩
  rw [h l hl]; simp

end Sys2Proof.Laws
end
section
/-! PROOF. Cross-lane moves (R170 to R173): inactive reads, and the elements moved when there is none or they read 0. -/

namespace Sys2Proof.Laws

open Sys2Proof.Machine

/-- A 9-bit element index names a lane of the wave (R171). -/
theorem xlIndex_of_lt {k i : Nat} (h : i < 512) : xlIndex k i = (i / 16, i % 16 % k) := by
  rw [xlIndex, Nat.mod_eq_of_lt (show i / 16 < 32 by omega)]

/-- Every cross-lane instruction is one move, whose sources its rule names (R171 to R173). -/
theorem exec_crossShape {i : Instr} {f : XlF} {bOps : List Opnd} {src : Wave → LaneSrc} (h : crossShape i = some (f, bOps, src)) (s : State) :
    exec i s = crossLane f bOps src s := by
  cases i <;> cases h
  case xlGet =>
    exact congrArg (fun g => crossLane f _ g s) (funext fun w => funext fun l => funext fun j =>
      congrArg some (xlIndex_of_lt (Nat.mod_lt _ (by decide))))
  case xlBcast =>
    refine congrArg (fun g => crossLane f _ g s) (funext fun w => funext fun l => funext fun j => congrArg some ?_)
    rw [bitsAt, Nat.pow_zero, Nat.div_one]
    exact xlIndex_of_lt (Nat.mod_lt _ (by decide))
  all_goals rfl

/-- The sources are the same for the wave as it enters. -/
theorem crossShape_entry {i : Instr} {f : XlF} {bOps : List Opnd} {src : Wave → LaneSrc} (h : crossShape i = some (f, bOps, src))
    (sp : Spec) (s : State) (w : Wave) : src (entryWave sp s w) = src w := by
  cases i <;> cases h
  case xlGet => simp only [rdV_entry]
  case xlBcast => simp only [rdS_entry]
  case xlReorder => simp only [rdS_entry]
  all_goals rfl

/-- A lane makes an inactive read when it is in Active and one of its sources is not (R170). -/
theorem getLsbD_inactiveReaders (act : LaneMask) (n : Nat) (src : LaneSrc) {l : Nat} (hl : l < 32) :
    (inactiveReaders act n src).getLsbD l = true ↔
      act.getLsbD l = true ∧ ∃ j m q, j < n ∧ src l j = some (m, q) ∧ act.getLsbD m = false := by
  rw [inactiveReaders, getLsbD_maskOf _ hl]
  simp only [Bool.and_eq_true, List.any_eq_true, List.mem_range]
  refine and_congr_right fun _ => ⟨?_, ?_⟩
  · rintro ⟨j, hj, hread⟩
    cases hsrc : src l j with
    | none => simp [hsrc] at hread
    | some p => exact ⟨j, p.1, p.2, hj, hsrc, by simpa [hsrc] using hread⟩
  · rintro ⟨j, m, q, hj, hsrc, hm⟩
    exact ⟨j, hj, by simp [hsrc, hm]⟩

/-- What a lane of Active receives: each sub-element from its source, 0 from an inactive one and from none (R170). -/
def crossWord (f : XlF) (act : LaneMask) (src : LaneSrc) (w : Wave) (l : Nat) : Word :=
  elemsOf f.ty (fun j => match src l j with
    | some p => if act.getLsbD p.1 then elemOf f.ty (rdV w f.a.toNat p.1) p.2 else 0
    | none => 0)

theorem elemOf_crossWord (f : XlF) (act : LaneMask) (src : LaneSrc) (w : Wave) (l : Nat) {j : Nat} (hj : j < elemCount f.ty) :
    elemOf f.ty (crossWord f act src w l) j = match src l j with
      | some (m, n) => if act.getLsbD m then elemOf f.ty (rdV w f.a.toNat m) n else 0
      | none => 0 := by
  rw [crossWord, elemOf_elemsOf _ _ _ hj]
  cases src l j with
  | none => exact Nat.zero_mod _
  | some p =>
    dsimp only
    split
    · exact Nat.mod_mod _ _
    · exact Nat.zero_mod _

section Move

variable {f : XlF} {bOps : List Opnd} {src : Wave → LaneSrc} {sp : Spec} {s : State} {k : Nat} {w : Wave}

/-- Without an inactive read, or with Z, the lanes of Active receive their elements. -/
theorem crossLane_moves (hsp : sp = specH f.h 8 (vOp f.d 1 true :: vOp f.a :: bOps) (some 8)) (c : Clear sp s k w)
    (hsrc : src (entryWave sp s w) = src w)
    (h : f.z = true ∨ inactiveReaders (activeOf w f.h.mask) (elemCount f.ty) (src w) = 0) :
    crossLane f bOps src s = .next (doneWith sp s k w
      (wrLanes (entryWave sp s w) f.d.toNat (activeOf w f.h.mask) (crossWord f (activeOf w f.h.mask) (src w) w))) := by
  subst hsp
  have hgo : ¬ (!f.z && decide (inactiveReaders (activeOf w f.h.mask) (elemCount f.ty) (src w) ≠ 0)) = true := by
    rcases h with hz | hnone
    · simp [hz]
    · simp [hnone]
  rw [crossLane, issue_clear c]
  simp only [onWave, activeOf_entry, hsrc, if_neg hgo, rdV_entry]
  rfl

/-- Such a move completes with V[d] alone changed, in the lanes of Active (R148). -/
theorem crossLane_completes (hsp : sp = specH f.h 8 (vOp f.d 1 true :: vOp f.a :: bOps) (some 8)) (c : Clear sp s k w)
    (hsrc : src (entryWave sp s w) = src w)
    (h : f.z = true ∨ inactiveReaders (activeOf w f.h.mask) (elemCount f.ty) (src w) = 0) :
    ∃ t w', crossLane f bOps src s = .next t ∧ RanRegs sp [.v f.d.toNat] s k w t w' ∧ w'.xa = w.xa ∧ ∀ l, l < 32 → rdV w' f.d.toNat l =
      if (activeOf w f.h.mask).getLsbD l then crossWord f (activeOf w f.h.mask) (src w) w l else rdV w f.d.toNat l := by
  have hd : RegRef.v f.d.toNat ∈ [RegRef.v f.d.toNat] := List.mem_singleton_self _
  obtain ⟨hpart, hpc, hsame, hxa⟩ := regDone_wrLanes false _ (entryWave sp s w) f.d.toNat (activeOf w f.h.mask)
    (crossWord f (activeOf w f.h.mask) (src w) w) hd
  refine ⟨_, _, crossLane_moves hsp c hsrc h, ranRegs_ok hpart (hpc.trans (entryWave_pc ..)) (sameRegs_entry hsame) rfl,
    (hxa rfl).trans (entryWave_xa ..), fun l hl => ?_⟩
  have hread := rdV_wrLanes (entryWave sp s w) f.d.toNat (activeOf w f.h.mask) (crossWord f (activeOf w f.h.mask) (src w) w) f.d.toNat l hl
  rw [rdV, bookWave_v, ← rdV, hread, rdV_entry]
  simp

/-- With an inactive read and without Z, it takes LANE_INACTIVE_READ with the reading lanes. -/
theorem crossLane_traps (hsp : sp = specH f.h 8 (vOp f.d 1 true :: vOp f.a :: bOps) (some 8)) (c : Clear sp s k w)
    (hsrc : src (entryWave sp s w) = src w) (hz : f.z = false)
    (hbad : inactiveReaders (activeOf w f.h.mask) (elemCount f.ty) (src w) ≠ 0) :
    crossLane f bOps src s = .next (takeTrap (entryState sp s k w) k 8
      { cause := .laneInactiveRead, lanes := some (inactiveReaders (activeOf w f.h.mask) (elemCount f.ty) (src w)) }) := by
  subst hsp
  have hstop : (!f.z && decide (inactiveReaders (activeOf w f.h.mask) (elemCount f.ty) (src w) ≠ 0)) = true := by
    rw [hz]; simpa using hbad
  rw [crossLane, issue_clear c]
  simp only [onWave, activeOf_entry, hsrc, if_pos hstop]
  rfl

end Move

/-- Settles O9: the lanes that make an inactive read are none or they are the record's; a move writes what each source gives. -/
theorem crossLaneMovesOrTraps : Obligations.CrossLaneMovesOrTraps := by
  unfold Obligations.CrossLaneMovesOrTraps
  intro f bOps src i hi s k w c
  have hsrc := crossShape_entry hi (specH f.h 8 (vOp f.d 1 true :: vOp f.a :: bOps) (some 8)) s w
  refine ⟨fun hread => ?moves, fun hz l j m n hl hj hact hlj hm => ?traps⟩
  case moves =>
    have hgo : f.z = true ∨ inactiveReaders (activeOf w f.h.mask) (elemCount f.ty) (src w) = 0 := by
      refine hread.imp_right fun hall => (mask_eq_zero_iff _).2 fun l hl => ?_
      rw [Bool.eq_false_iff, Ne, getLsbD_inactiveReaders _ _ _ hl]
      rintro ⟨hact, j, m, q, hj, hlj, hm⟩
      exact Bool.false_ne_true (hm.symm.trans (hall l j m q hl hj hact hlj))
    obtain ⟨t, w', he, hran, hxa, hlanes⟩ := crossLane_completes rfl c hsrc hgo
    refine ⟨t, w', (exec_crossShape hi s).trans he, hran, hxa, fun l hl hact j hj => ?_, fun l hl hact => ?_⟩
    · rw [hlanes l hl, if_pos hact]
      exact elemOf_crossWord _ _ _ _ _ hj
    · rw [hlanes l hl, if_neg (by simp [hact])]
  case traps =>
    have hreads : (inactiveReaders (activeOf w f.h.mask) (elemCount f.ty) (src w)).getLsbD l = true :=
      (getLsbD_inactiveReaders _ _ _ hl).2 ⟨hact, j, m, n, hj, hlj, hm⟩
    refine ⟨_, fun n hn => getLsbD_inactiveReaders _ _ _ hn, (exec_crossShape hi s).trans (crossLane_traps rfl c hsrc hz fun h0 => ?_)⟩
    exact Bool.false_ne_true (((mask_eq_zero_iff _).1 h0 l hl).symm.trans hreads)

end Sys2Proof.Laws
end
section
/-! SUPPORT. How an instruction's body ends, said once: it jumps, leaves the state as it found it, or raises. -/

namespace Sys2Proof.Laws

open Sys2Proof.Machine

/-- A wave sent to another PC. -/
def atPc (pc : Word) (x : Wave) : Wave := { x with pc := pc }
theorem atPc_part {e x : Wave} (h : x = wavePart e x) (pc : Word) : atPc pc x = wavePart e (atPc pc x) := by
  conv_lhs => rw [h]
  rfl

section Ends

variable {sp : Spec} {s : State} {k : Nat} {w x : Wave} {i : Instr} {body : State → Nat → Wave → Res} {ds : List RegRef} {e : Trap}

/-- A jump that sets its wave's registers and PC completes the instruction at that PC. -/
theorem ranTo_jump {xa : Bool} (hx : RegDone xa ds (entryWave sp s w) x) (pc : Word) :
    RanTo pc ds s k w (finish sp s k w (.jump ((entryState sp s k w).setWave k (atPc pc x)))) (bookWave sp s.cycle w false (atPc pc x)) := by
  obtain ⟨hpart, -, hregs, -⟩ := hx
  have hsame := sameRegs_entry hregs
  obtain ⟨ws, cs, hs⟩ := entry_eq sp s k w
  refine ⟨?_, ?_, fun j hj => ?_, ?_, ⟨hsame.v, hsame.s, hsame.m⟩, rfl, fun c => ?_⟩
  · rw [finish, wave?_book, wave?_setWave_same, cycle_setWave, cycle_entry]
    rfl
  · rw [finish, hs]
    rfl
  · rw [finish, wave?_book_ne _ _ _ _ _ _ hj, wave?_setWave_ne _ hj, entryState_others sp s w hj]
  · rw [atPc_part hpart, entryWave_part]
    rfl
  · have hcore := entryState_core sp s k w c
    rw [finish, book, modCore_issued, core_modWave, core_setWave, hcore]

/-- An instruction whose body jumps. -/
theorem exec_jumps {pc : Word} (h : Clear sp s k w) (hi : exec i s = issue sp body s)
    (hb : body (entryState sp s k w) k (entryWave sp s w) = .jump ((entryState sp s k w).setWave k (atPc pc x)))
    (hx : RegDone false ds (entryWave sp s w) x) :
    ∃ t w', exec i s = .next t ∧ RanTo pc ds s k w t w' ∧ w'.xa = w.xa ∧ w'.s = x.s := by
  have ⟨_, _, _, hxa⟩ := hx
  exact ⟨_, _, by rw [hi, issue_clear h, hb], ranTo_jump hx pc, (hxa rfl).trans (entryWave_xa ..), rfl⟩

/-- A jump that changes nothing but the PC. -/
theorem exec_jumps_only {pc : Word} (h : Clear sp s k w) (hi : exec i s = issue sp body s)
    (hb : body (entryState sp s k w) k (entryWave sp s w) = .jump ((entryState sp s k w).setWave k (atPc pc (entryWave sp s w)))) :
    ∃ t w', exec i s = .next t ∧ RanTo pc [] s k w t w' ∧ w'.xa = w.xa := by
  obtain ⟨t, w', he, hran, hxa, -⟩ := exec_jumps h hi hb (regDone_refl ..)
  exact ⟨t, w', he, hran, hxa⟩

/-- An instruction whose body leaves the state as it found it only issues. -/
theorem exec_issues_only (h : Clear sp s k w) (hi : exec i s = issue sp body s)
    (hb : body (entryState sp s k w) k (entryWave sp s w) = .ok (entryState sp s k w)) :
    ∃ t w', exec i s = .next t ∧ RanRegs sp [] s k w t w' ∧ w'.xa = w.xa :=
  ⟨_, _, by rw [hi, issue_clear h, hb], ranRegs_ok (x := entryWave sp s w) rfl (entryWave_pc ..) (sameRegs_entry (sameRegs_refl _ _))
    (by rw [entryState_set]), entryWave_xa ..⟩

/-- An instruction whose body raises takes its cause, for the lanes of Active where it names no others (Table 17.4). -/
theorem exec_raises (h : Clear sp s k w) (hi : exec i s = issue sp body s)
    (hb : body (entryState sp s k w) k (entryWave sp s w) = .trap e (entryState sp s k w)) (he : e.lanes = none) :
    exec i s = .next (takeTrap (entryState sp s k w) k sp.len { e with lanes := some (activeOf w sp.mask) }) := by
  rw [hi, issue_clear h, hb]
  simp only [finish, Trap.withLanes, he, Option.getD_none]

/-- Without a predicate those lanes are the path. -/
theorem exec_raises_path (h : Clear sp s k w) (hi : exec i s = issue sp body s) (hmask : sp.mask = 0)
    (hb : body (entryState sp s k w) k (entryWave sp s w) = .trap e (entryState sp s k w)) (he : e.lanes = none) :
    exec i s = .next (takeTrap (entryState sp s k w) k sp.len { e with lanes := some w.path }) := by
  rw [exec_raises h hi hb he, hmask, activeOf_zero]

end Ends

end Sys2Proof.Laws
end
section
/-! PROOF. `br`, `brx`, `call` and `ret` (R114, R153, R154, R157): each jumps, falls through, or raises. -/

namespace Sys2Proof.Laws

open Sys2Proof.Machine

/-! ### Uniform branches -/

section Branch

variable {neg : Bool} {c : BitVec 3} {target : Wave → Except Trap Word} (sp : Spec) (s : State) (k : Nat) (w : Wave)

theorem uniformBranch_taken {pc : Word} (hold : holdOf w neg c = w.path) (ht : target (entryWave sp s w) = .ok pc) :
    uniformBranch neg c target (entryState sp s k w) k (entryWave sp s w) =
      .jump ((entryState sp s k w).setWave k (atPc pc (entryWave sp s w))) := by
  simp only [uniformBranch, condOf_entry, entryWave_path, if_pos hold, ht, atPc]

theorem uniformBranch_bad {e : Trap} (hold : holdOf w neg c = w.path) (ht : target (entryWave sp s w) = .error e) :
    uniformBranch neg c target (entryState sp s k w) k (entryWave sp s w) = .trap e (entryState sp s k w) := by
  simp only [uniformBranch, condOf_entry, entryWave_path, if_pos hold, ht]

theorem uniformBranch_none (hall : holdOf w neg c ≠ w.path) (hold : holdOf w neg c = 0) :
    uniformBranch neg c target (entryState sp s k w) k (entryWave sp s w) = .ok (entryState sp s k w) := by
  simp only [uniformBranch, condOf_entry, entryWave_path, if_neg hall, if_pos hold]

theorem uniformBranch_divergent (hall : holdOf w neg c ≠ w.path) (hold : holdOf w neg c ≠ 0) :
    uniformBranch neg c target (entryState sp s k w) k (entryWave sp s w) =
      .trap { cause := .branchDivergent, info0 := (holdOf w neg c).zeroExtend 64 } (entryState sp s k w) := by
  simp only [uniformBranch, condOf_entry, entryWave_path, if_neg hall, if_neg hold]

end Branch

theorem exec_br (f : BrF) (s : State) : exec (.br f) s = issue (spec0 (tgtLen f.tgt) f.stall [] (condRead f.cond))
    (uniformBranch f.neg f.cond (fun w => .ok (tgtOf w.pc f.tgt))) s := rfl

/-- The target of `brx` (R154, R114). -/
def brxTarget (f : BrxF) (w : Wave) : Except Trap Word :=
  if (rdS w f.a.toNat).toNat % 4 ≠ 0 then .error (misaligned (rdS w f.a.toNat) 4) else .ok (rdS w f.a.toNat)

theorem exec_brx (f : BrxF) (s : State) : exec (.brx f) s = issue (spec0 8 f.stall [sOp f.a] (condRead f.cond))
    (uniformBranch f.neg f.cond (brxTarget f)) s := rfl

theorem brxTarget_aligned {f : BrxF} {w : Wave} (h : (rdS w f.a.toNat).toNat % 4 = 0) (sp : Spec) (s : State) :
    brxTarget f (entryWave sp s w) = .ok (rdS w f.a.toNat) := by
  simp only [brxTarget, rdS_entry, if_neg (not_not.2 h)]

theorem brxTarget_misaligned {f : BrxF} {w : Wave} (h : (rdS w f.a.toNat).toNat % 4 ≠ 0) (sp : Spec) (s : State) :
    brxTarget f (entryWave sp s w) = .error (misaligned (rdS w f.a.toNat) 4) := by
  simp only [brxTarget, rdS_entry, if_pos h]

/-! ### Calls and returns -/

/-- The body of `call` (R157). -/
def callBody (f : CallF) (s : State) (k : Nat) (w : Wave) : Res :=
  .jump (s.setWave k (atPc (tgtOf w.pc f.tgt) (wrS w f.d.toNat (w.pc + w64 (tgtLen f.tgt)))))

theorem exec_call (f : CallF) (s : State) : exec (.call f) s = issue (spec0 (tgtLen f.tgt) f.stall [sOp f.d 1 true] []) (callBody f) s := rfl

theorem callBody_entry (f : CallF) (sp : Spec) (s : State) (k : Nat) (w : Wave) : callBody f (entryState sp s k w) k (entryWave sp s w) =
    .jump ((entryState sp s k w).setWave k (atPc (tgtOf w.pc f.tgt) (wrS (entryWave sp s w) f.d.toNat (w.pc + w64 (tgtLen f.tgt))))) := by
  simp only [callBody, entryWave_pc]

/-- The body of `ret` (R157, R114). -/
def retBody (f : RetF) (s : State) (k : Nat) (w : Wave) : Res :=
  if (rdS w f.a.toNat).toNat % 4 ≠ 0 then .trap (misaligned (rdS w f.a.toNat) 4) s else .jump (s.setWave k (atPc (rdS w f.a.toNat) w))

theorem exec_ret (f : RetF) (s : State) : exec (.ret f) s = issue (spec0 8 f.stall [sOp f.a] []) (retBody f) s := rfl

theorem retBody_aligned {f : RetF} {w : Wave} (h : (rdS w f.a.toNat).toNat % 4 = 0) (sp : Spec) (s : State) (k : Nat) :
    retBody f (entryState sp s k w) k (entryWave sp s w) = .jump ((entryState sp s k w).setWave k (atPc (rdS w f.a.toNat) (entryWave sp s w))) := by
  simp only [retBody, rdS_entry, if_neg (not_not.2 h)]

theorem retBody_misaligned {f : RetF} {w : Wave} (h : (rdS w f.a.toNat).toNat % 4 ≠ 0) (sp : Spec) (s : State) (k : Nat) :
    retBody f (entryState sp s k w) k (entryWave sp s w) = .trap (misaligned (rdS w f.a.toNat) 4) (entryState sp s k w) := by
  simp only [retBody, rdS_entry, if_pos h]

/-- Settles O12: a branch by whether its condition holds in all lanes, in none or in some, and a register target by its alignment. -/
theorem branchesAndCalls : Obligations.BranchesAndCalls := by
  unfold Obligations.BranchesAndCalls
  refine ⟨⟨fun f s k w h => ⟨fun hold => ?brTaken, fun hall hold => ?brNone, fun hall hold => ?brDivergent⟩,
    fun f s k w h => ⟨fun hold hal => ?brxTaken, fun hold hmis => ?brxMisaligned, fun hall hold => ?brxNone, fun hall hold => ?brxDivergent⟩⟩,
    fun f s k w h => ?call, fun f s k w h => ⟨fun hal => ?ret, fun hmis => ?retMisaligned⟩⟩
  case brTaken => exact exec_jumps_only h (exec_br f s) (uniformBranch_taken _ s k w hold (by rw [entryWave_pc]))
  case brNone => exact exec_issues_only h (exec_br f s) (uniformBranch_none _ s k w hall hold)
  case brDivergent =>
    have hraised := exec_raises_path h (exec_br f s) rfl (uniformBranch_divergent _ s k w hall hold) rfl
    exact hraised
  case brxTaken => exact exec_jumps_only h (exec_brx f s) (uniformBranch_taken _ s k w hold (brxTarget_aligned hal _ s))
  case brxMisaligned =>
    have hraised := exec_raises_path h (exec_brx f s) rfl (uniformBranch_bad _ s k w hold (brxTarget_misaligned hmis _ s)) rfl
    exact hraised
  case brxNone => exact exec_issues_only h (exec_brx f s) (uniformBranch_none _ s k w hall hold)
  case brxDivergent =>
    have hraised := exec_raises_path h (exec_brx f s) rfl (uniformBranch_divergent _ s k w hall hold) rfl
    exact hraised
  case call =>
    have hd : RegRef.s f.d.toNat ∈ [RegRef.s f.d.toNat] := List.mem_singleton_self _
    obtain ⟨t, w', he, hran, hxa, hs⟩ := exec_jumps h (exec_call f s) (callBody_entry f _ s k w) (regDone_wrS _ _ _ _ _ hd)
    refine ⟨t, w', he, hran, hxa, ?_⟩
    rw [rdS, hs, ← rdS, rdS_wrS, if_pos rfl]
  case ret => exact exec_jumps_only h (exec_ret f s) (retBody_aligned hal _ s k)
  case retMisaligned =>
    have hraised := exec_raises_path h (exec_ret f s) rfl (retBody_misaligned hmis _ s k) rfl
    exact hraised

end Sys2Proof.Laws
end
section
/-! SUPPORT. The checks that come before an instruction's effect (R123, R124, R126, R183): what each answers, and what issuing makes of it. -/

namespace Sys2Proof.Laws

open Sys2Proof.Machine

/-! ### Registers in range -/

/-- REG_RANGE names the kind and the highest register of the operand (R123). -/
theorem regBad_trap {w : Wave} {o : Opnd} {t : Trap} (h : regBad w o = some t) :
    t = { cause := .regRange, info0 := w64 o.reg.kind, info1 := w64 (o.reg.idx + o.n - 1) } := by
  unfold regBad at h
  dsimp only at h
  split at h
  all_goals
    split at h
    · exact (Option.some.inj h).symm
    · cases h

section Range

variable (w : Wave) (r n : Nat) (dest : Bool)

theorem regBad_v_none : regBad w { reg := .v r, n := n, dest := dest } = none ↔ r + n - 1 < 1536 ∧ r + n - 1 < w.regCount := by
  change (if (decide (1536 ≤ r + n - 1) || decide (w.regCount ≤ r + n - 1)) = true then _ else none) = none ↔ _
  simp
theorem regBad_s_none : regBad w { reg := .s r, n := n, dest := dest } = none ↔ r + n - 1 < 128 := by
  change (if decide (128 ≤ r + n - 1) = true then _ else none) = none ↔ _
  simp
theorem regBad_m_none : regBad w { reg := .m r, n := n, dest := dest } = none ↔ r + n - 1 < 8 ∧ (dest = true → r ≠ 0) := by
  change (if (decide (8 ≤ r + n - 1) || (dest && r == 0)) = true then _ else none) = none ↔ _
  simp

end Range

/-! ### The checks in their order -/

section Checks

variable {sp : Spec} {s : State} {k : Nat} {w : Wave}

theorem preIssue_range {o : Opnd} {t : Trap} (hfind : sp.opnds.find? (fun o => (regBad w o).isSome) = some o) (ht : regBad w o = some t) :
    preIssue sp s k w = .error t := by
  have hfirst : sp.opnds.findSome? (regBad w) = some t := by
    obtain ⟨-, pre, post, hsplit, hpre⟩ := List.find?_eq_some_iff_append.1 hfind
    exact List.findSome?_eq_some_iff.2 ⟨pre, o, post, hsplit, ht, fun x hx => by simpa using hpre x hx⟩
  simp only [preIssue, hfirst]

theorem privBad_none (h : sp.priv = none ∨ agentWave s k = true) : privBad sp s k = none := by
  unfold privBad
  rcases h with hp | ha
  · rw [hp]
  · split
    · rw [if_pos ha]
    · rfl

theorem preIssue_privilege {n : Nat} (hregs : ∀ o ∈ sp.opnds, regBad w o = none) (hp : sp.priv = some n) (ha : agentWave s k = false) :
    preIssue sp s k w = .error { cause := .privilege, info0 := w64 n } := by
  have hbad : privBad sp s k = some { cause := .privilege, info0 := w64 n } := by simp [privBad, hp, ha]
  simp only [preIssue, List.findSome?_eq_none_iff.2 hregs, hbad]

theorem preIssue_stall {r : RegRef} {d : Nat} (hregs : ∀ o ∈ sp.opnds, regBad w o = none) (hp : sp.priv = none ∨ agentWave s k = true)
    (hu : undersized w (sp.touched ++ sp.cw) = some (r, d)) (hm : modeCheck w.mode = true) :
    preIssue sp s k w = .error { cause := .stallUndersized, info0 := w64 (r.kind * 2 ^ 56 + r.idx), info1 := w64 d } := by
  simp only [preIssue, List.findSome?_eq_none_iff.2 hregs, privBad_none hp, hu, if_pos hm]

theorem preIssue_passes (hregs : ∀ o ∈ sp.opnds, regBad w o = none) (hp : sp.priv = none ∨ agentWave s k = true) (he : early sp w = false) :
    preIssue sp s k w = .ok (s, { w with perfHeld := w.perfHeld + s.held }) := by
  have hu : undersized w (sp.touched ++ sp.cw) = none := Option.not_isSome_iff_eq_none.1 (Bool.eq_false_iff.1 he)
  simp only [preIssue, List.findSome?_eq_none_iff.2 hregs, privBad_none hp, hu]

/-- A cause found by the checks is taken on the state as it stands. -/
theorem issue_error {t : Trap} (hc : s.cur = some k) (hw : s.wave? k = some w) (h : preIssue sp s k w = .error t) (ht : t.lanes = none)
    (body : State → Nat → Wave → Res) : issue sp body s = .next (takeTrap s k sp.len { t with lanes := some (activeOf w sp.mask) }) := by
  simp only [issue, hc, hw, h, Trap.withLanes, ht, Option.getD_none]

/-- A pending token holds an instruction that has passed the checks (R86). -/
theorem issue_token {t : State} {x : Wave} (hc : s.cur = some k) (hw : s.wave? k = some w) (h : preIssue sp s k w = .ok (t, x))
    (hb : tokenBlocked sp w = true) (body : State → Nat → Wave → Res) : issue sp body s = .next (parkBlockedOwner (stallToken t k x) k) := by
  simp only [issue, hc, hw, h, if_pos hb]

end Checks

/-! ### Instructions by their tables -/

/-- An instruction issues a body; after four of them a wait that has begun is looked at once more (R50, log 89). -/
def IssuesBody (i : Instr) (sp : Spec) (body : State → Nat → Wave → Res) : Prop :=
  (∀ s, exec i s = issue sp body s) ∨ (∀ s, exec i s = afterBlock s (issue sp body s)) ∨ ∀ s, exec i s = afterClaim (issue sp body s)

/-- What an instruction needs stands in one of the tables. -/
theorem specOf_cases {i : Instr} {sp : Spec} (h : specOf i = some sp) :
    regSpec i = some sp ∨ (∃ a, laneAcc i = some a ∧ a.sp = sp) ∨ (∃ hd, waveOnly i = some (hd, sp)) ∨
      (∃ hd ad grp, matrixSpec i = some (hd, sp, ad, grp)) ∨
      (∃ f bOps src, crossShape i = some (f, bOps, src) ∧ specH f.h 8 (vOp f.d 1 true :: vOp f.a :: bOps) (some 8) = sp) ∨
      ctlSpec i = some sp := by
  unfold specOf at h
  split at h
  next x hr => exact .inl (hr.trans h)
  next a _ hl => exact .inr (.inl ⟨a, hl, Option.some.inj h⟩)
  next hd x _ _ hw => exact .inr (.inr (.inl ⟨hd, hw.trans (by rw [Option.some.inj h])⟩))
  next hd x ad grp _ _ _ hm => exact .inr (.inr (.inr (.inl ⟨hd, ad, grp, hm.trans (by rw [Option.some.inj h])⟩)))
  next f bOps src _ _ _ _ hx => exact .inr (.inr (.inr (.inr (.inl ⟨f, bOps, src, hx, Option.some.inj h⟩))))
  next => exact .inr (.inr (.inr (.inr (.inr h))))

theorem exec_csrGet {f : SysIF} (h : f.idx.toNat ≠ 8) : ∃ body, ∀ s, exec (.csrGet f) s =
    issue { specSys 8 f.stall [sOp f.d 1 true] with priv := if 0x100 ≤ f.idx.toNat then some f.idx.toNat else none } body s :=
  ⟨_, fun _ => if_neg h⟩

/-- `csr.get` by its index: the lane number, an index that every wave reads, a privileged one (R183). -/
theorem csrGet_issues {f : SysIF} {sp : Spec} (h : specOf (.csrGet f) = some sp) : ∃ body, ∀ s, exec (.csrGet f) s = issue sp body s := by
  by_cases h8 : f.idx.toNat = 8
  · have hr : regSpec (.csrGet f) = some (specSys 8 f.stall [vOp f.d 1 true]) := if_pos h8
    simp only [specOf, hr, Option.some.injEq] at h
    subst h
    exact ⟨_, fun _ => if_pos h8⟩
  · obtain ⟨body, hbody⟩ := exec_csrGet h8
    refine ⟨body, fun s => (hbody s).trans ?_⟩
    by_cases hp : f.idx.toNat < 0x100
    · have hr : regSpec (.csrGet f) = some (specSys 8 f.stall [sOp f.d 1 true]) := (if_neg h8).trans (if_pos hp)
      simp only [specOf, hr, Option.some.injEq] at h
      subst h
      rw [if_neg (Nat.not_le.2 hp)]
      rfl
    · have hr : regSpec (.csrGet f) = none := (if_neg h8).trans (if_neg hp)
      simp only [specOf, hr] at h
      cases h
      rfl

/-- The instructions that act on registers alone: each arm is one of the forms of its class. -/
theorem regSpec_issues {i : Instr} {sp : Spec} (h : regSpec i = some sp) (hi : ∀ f, i ≠ .csrGet f) :
    ∃ body, ∀ s, exec i s = issue sp body s := by
  cases i
  case csrGet f => exact absurd rfl (hi f)
  all_goals cases h
  all_goals
    apply Exists.intro
    intro s
    simp only [
      exec, execScalarAdd, execScalarSub, execScalarMin, execScalarMax, execScalarAnd, execScalarOr, execScalarXor, execScalarShl,
      execScalarShr, execScalarMul, execScalarMulhi, execScalarDiv, execScalarRem, execScalarNot, execScalarClz, execScalarPopc,
      execScalarMov, execVectorAdd, execVectorSub, execVectorMin, execVectorMax, execVectorAnd, execVectorOr, execVectorXor, execVectorShl,
      execVectorShr, execBfe, execVectorMul, execVectorMulhi, execVectorAbs, execVectorNeg, execVectorNot, execVectorClz, execVectorPopc,
      execBrev, execVectorMov, execVectorCmp, execFpCmp, execVectorSel, execMadI32, execMadN32, execMadI64, execMadN64, execFmaF64,
      execFnmaF64, execFmaF32, execFnmaF32, execFmaF16, execFnmaF16, execFmaBf16, execFnmaBf16, execFpAdd, execFpSub, execFpMul, execLdexp,
      execFpMin, execFpMax, execCopysign, execFpAbs, execFpNeg, execFclass, execRint, execCvt, execPack, execUnpack, execRcp, execRsqrt,
      execExp2, execLog2, execSin, execCos, execFpDiv, execSqrt, execRedLaneAdd, execRedLaneMin, execRedLaneMax, execRedLaneAnd,
      execRedLaneOr, execRedLaneXor, execScanLaneAdd, execScanLaneMin, execScanLaneMax, execScanLaneAnd, execScanLaneOr, execScanLaneXor,
      execScanLaneAddEx, execScanLaneMinEx, execScanLaneMaxEx, execScanLaneAndEx, execScanLaneOrEx, execScanLaneXorEx,
      execAddI64VectorCompact, execAndB64Compact, execOrB64Compact, execXorB64Compact, execAddI32VectorCompact, execAddF32Compact,
      execMulF32Compact, execAddF64Compact, execMulF64Compact, execMovB64VectorCompact, execAddI64ScalarCompact, execSubI64ScalarCompact,
      execShlN64ScalarCompact, execMovB64ScalarCompact, scalarBin, scalarUn, scalarOp, vecInt, vecBin, vecUn, laneOp, vecCmp, vecMad, vecFp,
      vecFma, redLane, scanLane, vecSpecial, compactVec, compactSca]
    rfl

theorem laneAcc_issues {i : Instr} {a : LaneAcc} (h : laneAcc i = some a) : ∃ body, ∀ s, exec i s = issue a.sp body s := by
  cases i
  all_goals cases h
  all_goals exact ⟨_, fun _ => rfl⟩

/-- The instructions that act once for the wave have their effect with lanes active only (R189). -/
theorem waveOnly_issues {i : Instr} {h : Hd} {sp : Spec} (hi : waveOnly i = some (h, sp)) : ∃ body, IssuesBody i sp (whenActive h body) := by
  cases i
  case regClaim f => cases hi; exact ⟨_, .inr (.inr fun _ => rfl)⟩
  all_goals cases hi
  all_goals exact ⟨_, .inl fun _ => rfl⟩

/-- Every instruction of class 11 passes the gate of convergence and group first (R242, R243). -/
theorem matrixSpec_issues {i : Instr} {h : Hd} {sp : Spec} {ad : Nat} {grp : Bool} (hi : matrixSpec i = some (h, sp, ad, grp)) :
    sp.mask = h.mask ∧ ∃ body, ∀ s, exec i s = issue sp (matrixGate h ad grp body) s := by
  cases i
  all_goals cases hi
  all_goals exact ⟨rfl, _, fun _ => rfl⟩

theorem ctlSpec_issues {i : Instr} {sp : Spec} (h : ctlSpec i = some sp) (hi : ∀ f, i ≠ .csrGet f) : ∃ body, IssuesBody i sp body := by
  cases i
  case csrGet f => exact absurd rfl (hi f)
  case rejoin f => cases h; exact ⟨_, .inr (.inl fun _ => rfl)⟩
  case exit f => cases h; exact ⟨_, .inr (.inl fun _ => rfl)⟩
  case trap f => cases h; exact ⟨_, .inr (.inl fun _ => rfl)⟩
  all_goals cases h
  all_goals
    apply Exists.intro
    refine .inl fun s => ?_
    simp only [exec]
    rfl

/-- Every wave instruction issues a body under what its table says that it needs. -/
theorem specOf_issues {i : Instr} {sp : Spec} (h : specOf i = some sp) : ∃ body, IssuesBody i sp body := by
  by_cases hcsr : ∃ f, i = .csrGet f
  · obtain ⟨f, rfl⟩ := hcsr
    exact (csrGet_issues h).imp fun _ => .inl
  · have hi : ∀ f, i ≠ .csrGet f := fun f hf => hcsr ⟨f, hf⟩
    rcases specOf_cases h with hr | ⟨a, ha, rfl⟩ | ⟨hd, hw⟩ | ⟨hd, ad, grp, hm⟩ | ⟨f, bOps, src, hx, rfl⟩ | hc
    · exact (regSpec_issues hr hi).imp fun _ => .inl
    · exact (laneAcc_issues ha).imp fun _ => .inl
    · exact (waveOnly_issues hw).elim fun body hb => ⟨_, hb⟩
    · exact (matrixSpec_issues hm).2.elim fun body hb => ⟨_, .inl hb⟩
    · exact ⟨_, .inl fun s => exec_crossShape hx s⟩
    · exact ctlSpec_issues hc hi

end Sys2Proof.Laws
end
section
/-! PROOF. The checks before an instruction's effect (R124, R123, R183, R126, R86), those of class 11 (R242, R243), and instructions with no lane
active (R189). -/

namespace Sys2Proof.Laws

open Sys2Proof.Machine

/-! ### Parking leaves the waits -/

section Waits

variable {s t : State} {k : Nat} {w : Wave}

theorem WaitsKept.wait (h : WaitsKept s t) (hw : s.wave? k = some w) {x : Wave} (hx : t.wave? k = some x) : x.wait = w.wait := by
  have hkept := h.waits k
  rw [hx, hw] at hkept
  exact Option.some.inj hkept

theorem waitsKept_freeHelper (s : State) (k : Nat) : WaitsKept s (freeHelper s k) := waitsKept_modWave s k fun _ => rfl

/-- An adopted owner is parked with its waits (R50). -/
theorem waitsKept_parkBlockedOwner (s : State) (k : Nat) : WaitsKept s (parkBlockedOwner s k) := by
  unfold parkBlockedOwner
  dsimp only
  split
  · exact .refl s
  · split
    · exact .refl s
    · split
      · exact .refl s
      · refine WaitsKept.trans ?_ (waitsKept_stowContinuations _ _)
        refine WaitsKept.trans ?_ (waitsKept_stowGroup _ _ _)
        exact (waitsKept_freeHelper _ _).trans (waitsKept_modGroup _ _ _)

/-- A result in which the wave has come to no wait for a join count and to no `trap` stands. -/
theorem parkJoined_stands (hw : s.wave? k = some w) (h : ∀ x, t.wave? k = some x → x.wait = w.wait ∨ x.wait = .token) : parkJoined s k t = t := by
  unfold parkJoined
  rw [hw]
  cases ht : t.wave? k with
  | none => rfl
  | some x =>
    refine if_neg ?_
    rintro ⟨hnew, hjoined⟩
    rcases h x ht with hsame | htoken
    · exact hnew hsame
    · simp [htoken] at hjoined

end Waits

/-! ### Instructions that are stopped -/

section Stopped

variable {i : Instr} {sp : Spec} {s t : State} {k : Nat} {w : Wave}

/-- A result in which the wave waits for what it did, or for a token, is looked at no more. -/
theorem exec_stands {body : State → Nat → Wave → Res} (hi : IssuesBody i sp body) (hc : s.cur = some k) (hw : s.wave? k = some w)
    (hwait : w.wait ≠ .claim) (h : issue sp body s = .next t) (hcur : t.cur = some k)
    (hkept : ∀ x, t.wave? k = some x → x.wait = w.wait ∨ x.wait = .token) : exec i s = .next t := by
  rcases hi with he | he | he
  · rw [he, h]
  · rw [he, h]
    simp only [afterBlock, hc]
    rw [parkJoined_stands hw hkept]
  · rw [he, h]
    refine afterClaim_stands hcur fun x hx => ?_
    rcases hkept x hx with hsame | htoken
    · rwa [hsame]
    · simp [htoken]

/-- A cause that the checks find is taken before any effect. -/
theorem exec_checks_raise {e : Trap} (hi : specOf i = some sp) (hc : s.cur = some k) (hw : s.wave? k = some w) (hwait : w.wait ≠ .claim)
    (hp : preIssue sp s k w = .error e) (he : e.lanes = none) (hcause : e.cause ≠ .eccUncorrectable) :
    exec i s = .next (takeTrap s k sp.len { e with lanes := some (activeOf w sp.mask) }) := by
  obtain ⟨body, hb⟩ := specOf_issues hi
  have hkept := waitsKept_takeTrap s k sp.len (t := { e with lanes := some (activeOf w sp.mask) }) hcause
  exact exec_stands hb hc hw hwait (issue_error hc hw hp he body) (hkept.cur.trans hc) fun x hx => .inl (hkept.wait hw hx)

/-- A pending token is waited for, after the other checks (R86). -/
theorem exec_waits_token (hi : specOf i = some sp) (hc : s.cur = some k) (hw : s.wave? k = some w) (hwait : w.wait ≠ .claim)
    (hp : preIssue sp s k w = .ok (s, { w with perfHeld := w.perfHeld + s.held })) (hb : tokenBlocked sp w = true) :
    exec i s = .next (parkBlockedOwner (s.setWave k { w with perfHeld := w.perfHeld + s.held, wait := .token, waitArg := 0 }) k) := by
  obtain ⟨body, hbody⟩ := specOf_issues hi
  have hkept := waitsKept_parkBlockedOwner (s.setWave k { w with perfHeld := w.perfHeld + s.held, wait := .token, waitArg := 0 }) k
  exact exec_stands hbody hc hw hwait (issue_token hc hw hp hb body) (hkept.cur.trans hc) fun x hx =>
    .inr (hkept.wait (wave?_setWave_same _ _ _) hx)

/-- With no lane active an instruction of the memory chapters only issues (R189). -/
theorem exec_inactive {hd : Hd} (hi : waveOnly i = some (hd, sp)) (h : Clear sp s k w) (ha : activeOf w hd.mask = 0) (hwait : w.wait ≠ .claim) :
    ∃ t w', exec i s = .next t ∧ RanRegs sp [] s k w t w' ∧ w'.xa = w.xa := by
  obtain ⟨body, hbody⟩ := waveOnly_issues hi
  have hissue : issue sp (whenActive hd body) s = .next (doneWith sp s k w (entryWave sp s w)) := by
    rw [issue_clear h, whenActive, activeOf_entry, if_pos ha, doneWith, entryState_set]
  have hran : RanRegs sp [] s k w (doneWith sp s k w (entryWave sp s w)) (bookWave sp s.cycle w true (entryWave sp s w)) :=
    ranRegs_ok rfl (entryWave_pc ..) (sameRegs_entry (sameRegs_refl _ _)) rfl
  refine ⟨_, _, exec_stands hbody h.cur h.wave hwait hissue ((congrArg State.cur hran.rest).trans h.cur) fun x hx => .inl ?_, hran, entryWave_xa ..⟩
  obtain rfl := Option.some.inj (hx.symm.trans hran.wave)
  rw [bookWave_wait, entryWave_wait]

end Stopped

/-! ### Class 11 -/

section Matrix

variable {hd : Hd} {ad : Nat} {grp : Bool} {body : State → Nat → Wave → Res} {sp : Spec} {s : State} {k : Nat} {w : Wave}

theorem isMatrix_entry (sp : Spec) (s : State) (k : Nat) (w : Wave) : isMatrix (entryState sp s k w) k = isMatrix s k := by
  simp only [isMatrix, group?_entry]

theorem matrixGate_divergent (h : activeOf w hd.mask ≠ BitVec.allOnes 32) :
    matrixGate hd ad grp body (entryState sp s k w) k (entryWave sp s w) = .trap { cause := .illegalConvergence } (entryState sp s k w) := by
  simp only [matrixGate, activeOf_entry, if_pos h]

theorem matrixGate_noGroup (h : activeOf w hd.mask = BitVec.allOnes 32) (hg : grp = true) (hm : isMatrix s k = false) :
    matrixGate hd ad grp body (entryState sp s k w) k (entryWave sp s w) =
      .trap { cause := .accHandle, reason := 6, info0 := w64 ad } (entryState sp s k w) := by
  simp [matrixGate, h, hg, isMatrix_entry, hm]

end Matrix

/-- Settles O15: each check answers on the state as it stands, whatever the instruction's body. -/
theorem checksBeforeEffects : Obligations.ChecksBeforeEffects := by
  unfold Obligations.ChecksBeforeEffects
  refine ⟨fun i sp hi s k w hc hw hwait => ⟨fun o t hfind ht => ?range, fun n hregs hp ha => ?privilege, fun r d hregs hp hu hm => ?stall,
    fun hregs hp he hb => ?token⟩, fun f s k w hc hw hidx hd ha => ?csrGet,
    fun w r n dest _ => ⟨regBad_v_none w r n dest, regBad_s_none w r n dest, regBad_m_none w r n dest, fun o t ht => ?record⟩,
    fun i hd sp ad grp hi s k w h => ⟨fun ha => ?divergent, fun ha hg hm => ?noGroup⟩, fun i hd sp hi s k w h ha hwait => ?inactive⟩
  case range =>
    have htrap := regBad_trap ht
    exact exec_checks_raise hi hc hw hwait (preIssue_range hfind ht) (by rw [htrap]) (by rw [htrap]; simp)
  case privilege => exact exec_checks_raise hi hc hw hwait (preIssue_privilege hregs hp ha) rfl (by simp)
  case stall => exact exec_checks_raise hi hc hw hwait (preIssue_stall hregs hp hu hm) rfl (by simp)
  case token => exact exec_waits_token hi hc hw hwait (preIssue_passes hregs hp he) hb
  case csrGet =>
    obtain ⟨body, hbody⟩ := exec_csrGet (f := f) (by omega)
    have hregs : ∀ o ∈ [sOp f.d 1 true], regBad w o = none := by
      simpa [sOp, regBad_s_none] using hd
    have hraised := issue_error hc hw (preIssue_privilege (sp := { specSys 8 f.stall [sOp f.d 1 true] with
      priv := if 0x100 ≤ f.idx.toNat then some f.idx.toNat else none }) hregs (if_pos hidx) ha) rfl body
    rw [hbody, hraised]
    exact congrArg (fun m => Host.Outcome.next (takeTrap s k 8 { cause := .privilege, info0 := BitVec.ofNat 64 f.idx.toNat, lanes := some m }))
      (activeOf_zero w)
  case record =>
    obtain rfl := regBad_trap ht
    exact ⟨rfl, rfl, rfl⟩
  case divergent =>
    obtain ⟨hmask, body, hbody⟩ := matrixSpec_issues hi
    have hraised := exec_raises h (hbody s) (matrixGate_divergent ha) rfl
    rwa [hmask] at hraised
  case noGroup =>
    obtain ⟨hmask, body, hbody⟩ := matrixSpec_issues hi
    have hraised := exec_raises h (hbody s) (matrixGate_noGroup ha hg hm) rfl
    rwa [hmask, ha] at hraised
  case inactive => exact exec_inactive hi h ha hwait

end Sys2Proof.Laws
end
section
/-! SUPPORT. The checks of R60 over the lanes of an access: whose failure counts, and what each check answers. -/

namespace Sys2Proof.Laws

open Sys2Proof.Machine

/-! ### The first check that fails -/

theorem worst_none {rs : List (Except Fail Loc)} (h : worst rs = none) : ∀ f, .error f ∉ rs := by
  induction rs with
  | nil => simp
  | cons r rs ih =>
    cases r with
    | ok l => simpa using ih h
    | error e =>
      simp only [worst] at h
      split at h
      · split at h <;> cases h
      · cases h

/-- The failure that counts is of the earliest check, and of the lowest lane that fails it (R60). -/
theorem worst_some {rs : List (Except Fail Loc)} {e : Fail} (h : worst rs = some e) : ∃ pre post, rs = pre ++ .error e :: post ∧
    (∀ f, .error f ∈ pre → e.stage < f.stage) ∧ ∀ f, .error f ∈ post → e.stage ≤ f.stage := by
  induction rs generalizing e with
  | nil => cases h
  | cons r rs ih =>
    cases r with
    | ok l =>
      obtain ⟨pre, post, rfl, hpre, hpost⟩ := ih h
      exact ⟨.ok l :: pre, post, rfl, by simpa using hpre, hpost⟩
    | error x =>
      simp only [worst] at h
      cases hw : worst rs with
      | none =>
        obtain rfl : x = e := by simpa [hw] using h
        exact ⟨[], rs, rfl, by simp, fun f hf => absurd hf (worst_none hw f)⟩
      | some y =>
        obtain ⟨pre, post, rfl, hpre, hpost⟩ := ih hw
        simp only [hw] at h
        split at h
        next hlt =>
          obtain rfl := Option.some.inj h
          exact ⟨.error x :: pre, post, rfl, by simpa [hlt] using hpre, hpost⟩
        next hle =>
          obtain rfl := Option.some.inj h
          refine ⟨[], pre ++ .error y :: post, rfl, by simp, fun f hf => ?_⟩
          have hy : y.stage ≤ f.stage := by
            rcases List.mem_append.1 hf with hf | hf
            · exact (hpre f hf).le
            · rcases List.mem_cons.1 hf with hf | hf
              · exact (congrArg Fail.stage (Except.error.inj hf)).ge
              · exact hpost f hf
          omega

theorem checkLanes_error {s : State} {who : Who} {xs : List (Nat × Nat)} {size align : Nat} {need : Need} {x : Extra} {t : Trap}
    (h : checkLanes s who xs size align need x = .error t) :
    ∃ e, worst (xs.map (fun p => checkOne s who p.2 size align need x)) = some e ∧ t = e.trap := by
  simp only [checkLanes] at h
  split at h
  next e he => exact ⟨e, he, (Except.error.inj h).symm⟩
  next => cases h

/-- The lane whose failure a lane access takes, and the lanes on either side of it. -/
theorem checkLanes_first {s : State} {who : Who} {xs : List (Nat × Nat)} {size align : Nat} {need : Need} {x : Extra} {t : Trap}
    (h : checkLanes s who xs size align need x = .error t) :
    ∃ pre p post e, xs = pre ++ p :: post ∧ checkOne s who p.2 size align need x = .error e ∧ t = e.trap ∧
      (∀ q ∈ pre, ∀ f, checkOne s who q.2 size align need x = .error f → e.stage < f.stage) ∧
      (∀ q ∈ post, ∀ f, checkOne s who q.2 size align need x = .error f → e.stage ≤ f.stage) := by
  obtain ⟨e, hworst, ht⟩ := checkLanes_error h
  obtain ⟨rpre, rpost, hsplit, hpre, hpost⟩ := worst_some hworst
  obtain ⟨pre, rest, rfl, rfl, hrest⟩ := List.map_eq_append_iff.1 hsplit
  obtain ⟨p, post, rfl, hp, rfl⟩ := List.map_eq_cons_iff.1 hrest
  exact ⟨pre, p, post, e, rfl, hp, ht, fun q hq f hf => hpre f (hf ▸ List.mem_map_of_mem hq),
    fun q hq f hf => hpost f (hf ▸ List.mem_map_of_mem hq)⟩

/-! ### The checks in the order of R60 -/

section One

variable {s : State} {who : Who} {va size align : Nat} {need : Need} {x : Extra} {l : Loc}

theorem checkOne_misaligned (h : va % align ≠ 0) :
    checkOne s who va size align need x = .error { stage := 0, cause := .misaligned, info0 := w64 va, info1 := w64 size } := by
  rw [checkOne, if_pos h]

theorem checkOne_unresolved {e : Fail} (h : va % align = 0) (hr : resolve s who va size need = .error e) :
    checkOne s who va size align need x = .error e := by
  simp [checkOne, h, hr]

theorem checkOne_extra {e : Fail} (h : va % align = 0) (hr : resolve s who va size need = .ok l) (hx : extraFail va x = some e) :
    checkOne s who va size align need x = .error e := by
  simp [checkOne, h, hr, hx]

theorem checkOne_resolved (h : va % align = 0) (hr : resolve s who va size need = .ok l) (hx : extraFail va x = none) :
    checkOne s who va size align need x = if poisoned s l size (need.rd || need.ex) then
      .error { stage := 6, cause := .eccUncorrectable, info0 := w64 va } else .ok l := by
  simp [checkOne, h, hr, hx]

end One

/-! ### Lanes in the entry state -/

theorem checkLanes_entry (sp : Spec) (s : State) (k : Nat) (w : Wave) (who : Who) (xs : List (Nat × Nat)) (size align : Nat) (need : Need)
    (x : Extra) : checkLanes (entryState sp s k w) who xs size align need x = checkLanes s who xs size align need x := by
  simp only [checkLanes, checkOne_entry]

theorem laneAddrs_entry (sp : Spec) (s : State) (w : Wave) (mask : BitVec 3) (a : Field11) (o : Off) :
    laneAddrs (entryWave sp s w) mask a o = laneAddrs w mask a o := by
  simp only [laneAddrs, activeOf_entry, rdV_entry]

theorem localAddrs_entry (sp : Spec) (s : State) (w : Wave) (mask : BitVec 3) (a : Field11) (o : Off) :
    localAddrs (entryWave sp s w) mask a o = localAddrs w mask a o := by
  simp only [localAddrs, activeOf_entry, rdV_entry]

/-- The lanes of an access and their addresses are those of Active as it stood (R190). -/
theorem lanes_entry {i : Instr} {a : LaneAcc} (h : laneAcc i = some a) (sp : Spec) (s : State) (w : Wave) :
    a.lanes (entryWave sp s w) = a.lanes w := by
  cases i
  all_goals cases h
  case ldL f | stL f => exact localAddrs_entry ..
  all_goals exact laneAddrs_entry ..

theorem entryWave_done (sp : Spec) (s : State) (w : Wave) : (entryWave sp s w).done = w.done := by unfold entryWave; split <;> rfl

end Sys2Proof.Laws
end
section
/-! PROOF. A lane access whose checks fail makes no access (R60, R189, R190, R199). -/

namespace Sys2Proof.Laws

open Sys2Proof.Machine

/-! ### The bodies of lane accesses whose checks fail -/

/-- A body raises, with nothing done, what the checks over some of its wave's lanes find. -/
def ChecksFirst (a : LaneAcc) (lanes : Wave → List (Nat × Nat)) (body : State → Nat → Wave → Res) : Prop :=
  ∀ s k w t, checkLanes s (whoOf s k) (lanes w) a.size a.size a.need a.extra = .error t → body s k w = .trap t s

/-- The lanes that a tagged instruction has still to perform (R199). -/
def lanesLeft (a : LaneAcc) (w : Wave) : List (Nat × Nat) := (a.lanes w).filter (fun p => !w.done.getLsbD p.1)

theorem lanesLeft_of_done {a : LaneAcc} {w : Wave} (h : w.done = 0) : lanesLeft a w = a.lanes w := by simp [lanesLeft, h]

section Bodies

variable {s : State} {k : Nat} {w : Wave} {t : Trap} {xs : Wave → List (Nat × Nat)} {h : Hd} {d a b : Field11} {m : MemW} {o : Off}

theorem loadBody_fails (he : checkLanes s (whoOf s k) (xs w) (m.ty.width / 8) (m.ty.width / 8) needRd .plain = .error t) :
    loadBody h d m xs s k w = .trap t s := by simp only [loadBody, he]

theorem loadRoBody_fails (he : checkLanes s (whoOf s k) (xs w) (m.ty.width / 8) (m.ty.width / 8) needRd .plain = .error t) :
    loadRoBody h d m xs s k w = .trap t s := by simp only [loadRoBody, he]

theorem storeBody_fails (he : checkLanes s (whoOf s k) (xs w) (m.ty.width / 8) (m.ty.width / 8) needWr .plain = .error t) :
    storeBody b m xs s k w = .trap t s := by simp only [storeBody, he]

theorem tagGetBody_fails (he : checkLanes s (whoOf s k) (laneAddrs w h.mask a o) 4 4 needRd .tagged = .error t) :
    tagGetBody d a m h o s k w = .trap t s := by simp only [tagGetBody, he]

theorem tagSetBody_fails (he : checkLanes s (whoOf s k) (laneAddrs w h.mask a o) 4 4 needWr .tagged = .error t) :
    tagSetBody b a m h o s k w = .trap t s := by simp only [tagSetBody, he]

theorem tagBody_fails {op : TagOp} {need : Need} (he : checkLanes s (whoOf s k) ((laneAddrs w h.mask a o).filter (fun p => !w.done.getLsbD p.1))
    (m.ty.width / 8) (m.ty.width / 8) need .tagged = .error t) : tagBody op need d b a m h o s k w = .trap t s := by simp only [tagBody, he]

theorem atBody_fails {op : AtOp} {red : Bool} {opc : Nat} {dst : Option Field11} {okMask : Option (BitVec 3)}
    (he : checkLanes s (whoOf s k) (laneAddrs w h.mask a o) (m.ty.width / 8) (m.ty.width / 8) needRw
      (.hostAtomic (hostAt op m.ty red) opc) = .error t) : atBody op red opc h dst a b m okMask o s k w = .trap t s := by
  simp only [atBody, he]

end Bodies

/-- A tagged instruction that issues again checks the lanes it has still to perform (R199). -/
theorem tagged_checksFirst {i : Instr} {a : LaneAcc} (hi : (∃ f, i = .ldWf f ∨ i = .ldWfe f) ∨ ∃ f, i = .stWe f ∨ i = .stF f)
    (h : laneAcc i = some a) : ∃ body, (∀ s, exec i s = issue a.sp body s) ∧ ChecksFirst a (lanesLeft a) body := by
  rcases hi with ⟨f, rfl | rfl⟩ | ⟨f, rfl | rfl⟩
  all_goals
    cases h
    exact ⟨_, fun _ => rfl, fun s k w t he => tagBody_fails he⟩

/-- Every other lane access checks every lane of Active. -/
theorem untagged_checksFirst {i : Instr} {a : LaneAcc} (hi : ¬ ((∃ f, i = .ldWf f ∨ i = .ldWfe f) ∨ ∃ f, i = .stWe f ∨ i = .stF f))
    (h : laneAcc i = some a) : ∃ body, (∀ s, exec i s = issue a.sp body s) ∧ ChecksFirst a a.lanes body := by
  cases i
  all_goals cases h
  case ldWf f | ldWfe f => exact absurd (.inl ⟨f, by simp⟩) hi
  case stWe f | stF f => exact absurd (.inr ⟨f, by simp⟩) hi
  case ld f | ldL f => exact ⟨_, fun _ => rfl, fun s k w t he => loadBody_fails he⟩
  case ldRo f => exact ⟨_, fun _ => rfl, fun s k w t he => loadRoBody_fails he⟩
  case st f | stL f => exact ⟨_, fun _ => rfl, fun s k w t he => storeBody_fails he⟩
  case tagGet f => exact ⟨_, fun _ => rfl, fun s k w t he => tagGetBody_fails he⟩
  case tagSet f => exact ⟨_, fun _ => rfl, fun s k w t he => tagSetBody_fails he⟩
  all_goals exact ⟨_, fun _ => rfl, fun s k w t he => atBody_fails he⟩

/-! ### The cause taken -/

/-- A body that raises takes its cause on the state the instruction entered. -/
theorem exec_raises_lanes {sp : Spec} {s : State} {k : Nat} {w : Wave} {i : Instr} {body : State → Nat → Wave → Res} {t : Trap}
    (h : Clear sp s k w) (hi : exec i s = issue sp body s)
    (hb : body (entryState sp s k w) k (entryWave sp s w) = .trap t (entryState sp s k w)) :
    exec i s = .next (takeTrap (entryState sp s k w) k sp.len (t.withLanes sp w)) := by
  rw [hi, issue_clear h, hb]
  rfl

theorem exec_checks_fail {i : Instr} {a : LaneAcc} {lanes : Wave → List (Nat × Nat)} {body : State → Nat → Wave → Res} {s : State} {k : Nat}
    {w : Wave} {t : Trap} (hexec : exec i s = issue a.sp body s) (hbody : ChecksFirst a lanes body)
    (hlanes : lanes (entryWave a.sp s w) = lanes w) (h : Clear a.sp s k w)
    (he : checkLanes s (whoOf s k) (lanes w) a.size a.size a.need a.extra = .error t) :
    exec i s = .next (takeTrap (entryState a.sp s k w) k a.sp.len (t.withLanes a.sp w)) :=
  exec_raises_lanes h hexec (hbody _ _ _ _ (by rwa [checkLanes_entry, whoOf_entry, hlanes]))

theorem lanesLeft_entry {i : Instr} {a : LaneAcc} (h : laneAcc i = some a) (sp : Spec) (s : State) (w : Wave) :
    lanesLeft a (entryWave sp s w) = lanesLeft a w := by
  simp only [lanesLeft, lanes_entry h, entryWave_done]

/-- Settles O18: a body whose checks fail raises with nothing done, and of several failures the one that counts stands first. -/
theorem accessChecksComeFirst : Obligations.AccessChecksComeFirst := by
  unfold Obligations.AccessChecksComeFirst
  refine ⟨fun i a ha s k w h hdone t he => ?first, fun i a hi ha s k w h t he => ?again, fun s who xs size align need x t => checkLanes_first,
    fun s who va size align need x e he => ⟨fun hal => ?misaligned, fun hal f hr => ?unresolved, fun hal l hr f hx => ?extra,
      fun hal l hr hx => ?poisoned⟩⟩
  case first =>
    by_cases hi : (∃ f, i = .ldWf f ∨ i = .ldWfe f) ∨ ∃ f, i = .stWe f ∨ i = .stF f
    · obtain ⟨body, hexec, hbody⟩ := tagged_checksFirst hi ha
      exact exec_checks_fail (hexec s) hbody (lanesLeft_entry ha ..) h (by rwa [lanesLeft_of_done hdone])
    · obtain ⟨body, hexec, hbody⟩ := untagged_checksFirst hi ha
      exact exec_checks_fail (hexec s) hbody (lanes_entry ha ..) h he
  case again =>
    obtain ⟨body, hexec, hbody⟩ := tagged_checksFirst hi ha
    exact exec_checks_fail (hexec s) hbody (lanesLeft_entry ha ..) h he
  case misaligned => exact Except.error.inj (he.symm.trans (checkOne_misaligned hal))
  case unresolved => exact Except.error.inj (he.symm.trans (checkOne_unresolved hal hr))
  case extra => exact Except.error.inj (he.symm.trans (checkOne_extra hal hr hx))
  case poisoned =>
    rw [checkOne_resolved hal hr hx] at he
    split at he
    next hp => exact ⟨hp, (Except.error.inj he).symm⟩
    next => cases he

end Sys2Proof.Laws
end
section
/-! SUPPORT. What accesses to memory leave of the machine (R4, R64, R395): the rules by which the frames of accesses made one after another
compose. -/

namespace Sys2Proof.Laws

open Sys2Proof.Machine

/-! ### The frame of an access -/

section Frame

variable {s t u : State} {st st2 tg tg2 : List (Loc × Nat)} {marks marks2 : List Nat}

theorem outside_append {l : Loc} : l.outside (st ++ st2) ↔ l.outside st ∧ l.outside st2 := by
  simp only [Loc.outside, List.forall_mem_append]
theorem outsideWords_append {l : Loc} : l.outsideWords (tg ++ tg2) ↔ l.outsideWords tg ∧ l.outsideWords tg2 := by
  simp only [Loc.outsideWords, List.forall_mem_append]

/-- A state that differs in its waves alone. -/
theorem memSame_modWave (s : State) (k : Nat) (f : Wave → Wave) : MemSame [] [] [] s (s.modWave k f) :=
  ⟨rfl, fun _ => rfl, fun _ => rfl, fun l _ _ => rdByte_modWave k s f l, by simp, fun l _ => by cases l <;> rfl, fun _ => id, fun _ => .inl⟩

theorem memSame_entry (sp : Spec) (s : State) (k : Nat) (w : Wave) : MemSame [] [] [] s (entryState sp s k w) := by
  obtain ⟨ws, cs, he⟩ := entry_eq sp s k w
  refine ⟨?_, fun g => by rw [group?_entry], fun c => ?_, fun l _ _ => rdByte_entry sp s k w l, by simp, fun l _ => ?_, fun p hp => ?_,
    fun p hp => .inl ?_⟩
  · rw [he]
  · rw [entryState_core]
  · rw [he]; cases l <;> rfl
  · rwa [he] at hp
  · rwa [he]

theorem Touched.memSame (h : Touched marks s t) : MemSame [] [] marks s t := by
  have houtside {l : Loc} : (∀ a ∈ marks, l ≠ .ext a) → rdByte t l = rdByte s l := h.rdByte_outside
  have hmarked := h.bytes
  obtain ⟨ex, tl, rfl⟩ : ∃ ex tl, t = { s with ext := ex, tlb := tl } := ⟨_, _, h.rest⟩
  exact ⟨rfl, fun _ => rfl, fun _ => rfl, fun l _ => houtside, fun a _ _ => (hmarked a).imp fun b hb => ⟨hb.1, hb.2.1⟩,
    fun l _ => by cases l <;> rfl, fun _ => id, fun _ => .inl⟩

/-- Accesses made one after another. -/
theorem memSame_trans (h : MemSame st tg marks s t) (h2 : MemSame st2 tg2 marks2 t u) :
    MemSame (st ++ st2) (tg ++ tg2) (marks ++ marks2) s u := by
  have kept {l : Loc} (hl : l.outside st) (hm : ∀ a ∈ marks, l ≠ .ext a) : rdByte t l = rdByte s l := h.bytes l hl hm
  refine ⟨?_, fun g => (h2.groups g).trans (h.groups g), fun c => ?_, fun l hl hm => ?_, fun a ha hl => ?_, fun l hl => ?_,
    fun p hp => h.poison p (h2.poison p hp), fun p hp => ?_⟩
  · rw [h2.rest, h.rest]
  · rw [h2.cores, h.cores]
  · obtain ⟨hl1, hl2⟩ := outside_append.1 hl
    obtain ⟨hm1, hm2⟩ := List.forall_mem_append.1 hm
    rw [h2.bytes l hl2 hm2, h.bytes l hl1 hm1]
  · obtain ⟨hl1, hl2⟩ := outside_append.1 hl
    have marked {s t : State} {st : List (Loc × Nat)} {tg : List (Loc × Nat)} {marks : List Nat} (h : MemSame st tg marks s t)
        (hl : (Loc.ext a).outside st) : ∃ b ∈ [0x00#8, 0x20#8, 0x40#8, 0x60#8], rdByte t (.ext a) = rdByte s (.ext a) ||| b := by
      by_cases hin : a ∈ marks
      · exact h.marks a hin hl
      · refine ⟨0, by simp, ?_⟩
        rw [h.bytes _ hl fun b hb he => hin (Loc.ext.inj he ▸ hb)]
        simp
    obtain ⟨b, hb, hbyte⟩ := marked h hl1
    obtain ⟨c, hc, hbyte2⟩ := marked h2 hl2
    exact ⟨b ||| c, or_marks hb hc, by rw [hbyte2, hbyte, BitVec.or_assoc]⟩
  · obtain ⟨hl1, hl2⟩ := outsideWords_append.1 hl
    rw [h2.tags l hl2, h.tags l hl1]
  · rcases h.cleared p hp with hp | ⟨r, hr, hin⟩
    · rcases h2.cleared p hp with hp | ⟨r, hr, hin⟩
      · exact .inl hp
      · exact .inr ⟨r, List.mem_append_right _ hr, hin⟩
    · exact .inr ⟨r, List.mem_append_left _ hr, hin⟩

end Frame

end Sys2Proof.Laws
end
section
/-! SUPPORT. Waves and groups stand while memory is written (R4, R60, R64): what an instruction still knows of itself after it has stored. -/

namespace Sys2Proof.Laws

open Sys2Proof.Machine

/-- A group without its local store. -/
def storeless (x : Group) : Group := { x with ls := [], lsTags := [] }

/-- Every wave is as it was, and of every group all but its local store. -/
structure Keeps (s t : State) : Prop where
  wave : ∀ k, t.wave? k = s.wave? k
  group : ∀ g, (t.group? g).map storeless = (s.group? g).map storeless

section Keeps

variable {s t u : State}

theorem Keeps.refl (s : State) : Keeps s s := ⟨fun _ => rfl, fun _ => rfl⟩
theorem Keeps.trans (h : Keeps s t) (h2 : Keeps t u) : Keeps s u :=
  ⟨fun k => (h2.wave k).trans (h.wave k), fun g => (h2.group g).trans (h.group g)⟩

theorem Keeps.foldl {α : Type} {f : State → α → State} (h : ∀ s x, Keeps s (f s x)) (xs : List α) (s : State) : Keeps s (xs.foldl f s) := by
  induction xs generalizing s with
  | nil => exact .refl s
  | cons x xs ih => exact (h s x).trans (ih _)

/-- A group is there when it was, with a local store of its own. -/
theorem Keeps.group_cases (h : Keeps s t) (g : Nat) : (s.group? g = none ∧ t.group? g = none) ∨
    ∃ x ls tags, s.group? g = some x ∧ t.group? g = some { x with ls := ls, lsTags := tags } := by
  have hg := h.group g
  cases hs : s.group? g with
  | none => exact .inl ⟨rfl, by simpa [hs] using hg⟩
  | some x =>
    rw [hs] at hg
    obtain ⟨y, hy, hxy⟩ := Option.map_eq_some_iff.1 hg
    exact .inr ⟨x, y.ls, y.lsTags, rfl, hy.trans (congrArg (fun z : Group => some { z with ls := y.ls, lsTags := y.lsTags }) hxy :)⟩

theorem Keeps.originGroup (h : Keeps s t) (g : Nat) : originGroup t g = originGroup s g := by
  rcases h.group_cases g with ⟨hs, ht⟩ | ⟨x, ls, tags, hs, ht⟩ <;> simp only [Machine.originGroup, hs, ht]
theorem Keeps.tenantOf (h : Keeps s t) (k : Nat) : tenantOf t k = tenantOf s k := by
  rcases h.group_cases (gidOf k) with ⟨hs, ht⟩ | ⟨x, ls, tags, hs, ht⟩ <;> simp [Machine.tenantOf, hs, ht]
theorem Keeps.whoOf (h : Keeps s t) (k : Nat) : whoOf t k = whoOf s k := by
  simp only [Machine.whoOf, lsGroup, h.tenantOf, h.originGroup]
theorem Keeps.coreOf (h : Keeps s t) (k : Nat) : coreOf t k = coreOf s k := by
  rcases h.group_cases (gidOf k) with ⟨hs, ht⟩ | ⟨x, ls, tags, hs, ht⟩ <;> simp only [Machine.coreOf, hs, ht, Group.core?]
theorem Keeps.myTask (h : Keeps s t) (k : Nat) : myTask t k = myTask s k := by
  rcases h.group_cases (gidOf k) with ⟨hs, ht⟩ | ⟨x, ls, tags, hs, ht⟩ <;> simp only [Machine.myTask, hs, ht]
theorem Keeps.seq (h : Keeps s t) (g : Nat) : (t.group? g).map (·.seq) = (s.group? g).map (·.seq) := by
  rcases h.group_cases g with ⟨hs, ht⟩ | ⟨x, ls, tags, hs, ht⟩ <;> simp [hs, ht]

end Keeps

theorem keeps_wrByte (s : State) (l : Loc) (b : Byte) : Keeps s (wrByte s l b) := by
  cases l with
  | ls g o =>
    refine ⟨fun _ => rfl, fun h => ?_⟩
    rw [wrByte, group?_modGroup]
    split
    next he => subst he; cases s.group? h <;> rfl
    next => rfl
  | _ => exact ⟨fun _ => rfl, fun _ => rfl⟩

theorem keeps_wrBytes (s : State) (l : Loc) (bs : List Byte) : Keeps s (wrBytes s l bs) := by
  induction bs generalizing s l with
  | nil => exact .refl s
  | cons b r ih => exact (keeps_wrByte s l b).trans (ih _ _)

theorem keeps_clearPoison (s : State) (l : Loc) (n : Nat) : Keeps s (clearPoison s l n) := by
  rw [clearPoison_rest]
  exact ⟨fun _ => rfl, fun _ => rfl⟩

theorem Touched.keeps {marks : List Nat} {s t : State} (h : Touched marks s t) : Keeps s t := by
  rw [h.rest]
  exact ⟨fun _ => rfl, fun _ => rfl⟩

theorem keeps_touch (s : State) (tenant va : Nat) (write : Bool) : Keeps s (touch s tenant va write) := (touch_touched s tenant va write).keeps

theorem keeps_touchRange (s : State) (tenant va bytes : Nat) (write : Bool) : Keeps s (touchRange s tenant va bytes write) := by
  unfold touchRange
  split
  · exact .refl s
  · exact .foldl (fun t _ => keeps_touch t tenant _ write) _ s

theorem keeps_pokeVa (s : State) (who : Who) (va : Nat) (bs : List Byte) : Keeps s (pokeVa s who va bs) := by
  refine .foldl (fun t p => ?_) _ s
  split
  · exact (keeps_wrBytes t _ _).trans (keeps_clearPoison _ _ _)
  · exact .refl t

theorem keeps_wrVa (s : State) (who : Who) (va : Nat) (bs : List Byte) : Keeps s (wrVa s who va bs) :=
  (keeps_pokeVa s who va bs).trans (keeps_touchRange _ _ _ _ _)

theorem keeps_dqSet (s : State) (who : Who) (va v : Nat) : Keeps s (dqSet s who va v) := keeps_wrVa s who va _

theorem keeps_acquire (s : State) (c : Nat) (scp : Scp) : Keeps s (acquire s c scp) := by
  unfold acquire
  split
  · exact ⟨fun _ => rfl, fun _ => rfl⟩
  · exact .refl s

theorem modWave_eq_setWave {s : State} {k : Nat} {w : Wave} (h : s.wave? k = some w) (f : Wave → Wave) : s.modWave k f = s.setWave k (f w) := by
  have hk : kfind k s.waves = some w := h
  simp only [State.modWave, State.setWave, kmod, hk]

end Sys2Proof.Laws
end
section
/-! SUPPORT. A helping wait with no owner (R45 to R47, R200, R228, R229, R232): the wave sleeps at its instruction, and a record of the ownership
table that names a retired task is gone. -/

namespace Sys2Proof.Laws

open Sys2Proof.Machine

/-! ### The ownership table -/

section Owner

variable {s : State} {tenant addr : Nat}

theorem ownSweep_eq (s : State) (tenant addr : Nat) : ∃ os, ownSweep s tenant addr = { s with owns := os } := by
  unfold ownSweep
  split
  · exact ⟨_, rfl⟩
  · exact ⟨_, rfl⟩

/-- A record removed is not found again. -/
theorem ownFind_ownDel (s : State) (tenant addr : Nat) : ownFind (ownDel s tenant addr) tenant addr = none := by
  simp only [ownFind, ownDel, Option.map_eq_none_iff, List.find?_eq_none]
  intro o ho
  simpa [imp_iff_not_or] using (List.mem_filter.1 ho).2

theorem ownRecord_ownSweep (h : ownRecord s tenant addr = none) : ownRecord (ownSweep s tenant addr) tenant addr = none := by
  cases hf : ownFind s tenant (addr / 4 * 4) with
  | none => simp only [ownSweep, hf, h]
  | some q =>
    have hdel : ownSweep s tenant addr = ownDel s tenant (addr / 4 * 4) := by simp only [ownSweep, hf, h]
    rw [hdel]
    simp only [ownRecord, ownFind_ownDel]

theorem ownRecord_of_waitOwner {who : Who} {x : Wait} (h : waitOwner s who x addr = none) : ownRecord s who.tenant addr = none := by
  cases hr : ownRecord s who.tenant addr with
  | none => rfl
  | some q => simp [waitOwner, hr] at h

/-- The lookup of a wait's owner finds none a second time. -/
theorem waitOwner_ownSweep {who : Who} {x : Wait} (h : waitOwner s who x addr = none) :
    waitOwner (ownSweep s who.tenant addr) who x addr = none := by
  have hr := ownRecord_of_waitOwner h
  have hr2 := ownRecord_ownSweep hr
  obtain ⟨os, he⟩ := ownSweep_eq s who.tenant addr
  rw [he] at hr2 ⊢
  simp only [waitOwner, hr] at h
  simp only [waitOwner, hr2]
  exact h

end Owner

/-! ### Falling asleep -/

/-- A wave asleep in a wait of a `Block` (R128). -/
def asleep (x : Wait) (arg : Word) (w : Wave) : Wave := { w.settle with decl := 0, wait := x, waitArg := arg, unselected := 0, starved := false }

@[simp] theorem asleep_v (x : Wait) (arg : Word) (w : Wave) : (asleep x arg w).v = w.v := rfl
@[simp] theorem asleep_s (x : Wait) (arg : Word) (w : Wave) : (asleep x arg w).s = w.s := rfl
@[simp] theorem asleep_m (x : Wait) (arg : Word) (w : Wave) : (asleep x arg w).m = w.m := rfl
@[simp] theorem asleep_pc (x : Wait) (arg : Word) (w : Wave) : (asleep x arg w).pc = w.pc := rfl
@[simp] theorem asleep_xa (x : Wait) (arg : Word) (w : Wave) : (asleep x arg w).xa = w.xa := rfl

theorem startWait_blocks {x : Wait} (hx : x.blocks = true) (s : State) (k : Nat) (arg : Word) :
    startWait s k x arg = s.modWave k (asleep x arg) := by
  simp only [startWait, hx, if_true]
  rfl

section Sleep

variable {sp : Spec} {s u : State} {k va : Nat} {w : Wave} {x : Wait} {marks : List Nat} {i : Instr} {hd : Hd} {body : State → Nat → Wave → Res}

theorem waitEnd_none (he : w.ownerEnd = 0) (ho : waitOwner s (whoOf s k) x va = none) : waitEnd s k w x va = none := by
  simp only [waitEnd, he, ho]
  rfl

theorem helpWait_sleeps (hva : va < 2 ^ 56) (ho : waitOwner s (whoOf s k) x va = none) :
    helpWait s k x (w64 va) = .wait x (w64 va) (ownSweep s (tenantOf s k) va) := by
  have haddr : (w64 va).toNat % 2 ^ 56 = va := by
    rw [w64, BitVec.toNat_ofNat, Nat.mod_mod_of_dvd _ (by norm_num), Nat.mod_eq_of_lt hva]
  have hswept : waitOwner (ownSweep s (tenantOf s k) va) (whoOf s k) x va = none := waitOwner_ownSweep ho
  have hwho : whoOf (ownSweep s (tenantOf s k) va) k = whoOf s k := by
    obtain ⟨os, he⟩ := ownSweep_eq s (tenantOf s k) va
    rw [he]
    rfl
  simp only [helpWait, haddr, hwho, hswept]

theorem entryWave_ownerEnd (sp : Spec) (s : State) (w : Wave) : (entryWave sp s w).ownerEnd = w.ownerEnd := by unfold entryWave; split <;> rfl

theorem asleep_part (sp : Spec) (s : State) (w : Wave) (x : Wait) (arg : Word) :
    asleep x arg (entryWave sp s w) = { wavePart w (asleep x arg (entryWave sp s w)) with wait := x, waitArg := arg } := by
  obtain ⟨y, hy⟩ : ∃ y, entryWave sp s w = wavePart w y := ⟨_, entryWave_part sp s w⟩
  rw [hy]
  rfl

/-- A wave that has fallen asleep at its access has left the access's marks, and may have removed a record of the ownership table. -/
theorem waits_asleep (hx : x.blocks = true) (hu : Touched marks (entryState sp s k w) u) (tenant va : Nat) (arg : Word) :
    Waits x marks s k w (startWait (ownSweep u tenant va) k x arg) := by
  have hwave (j : Nat) : (ownSweep u tenant va).wave? j = (entryState sp s k w).wave? j := by
    obtain ⟨os, he⟩ := ownSweep_eq u tenant va
    rw [he, hu.rest]
    rfl
  rw [startWait_blocks hx]
  refine ⟨⟨asleep x arg (entryWave sp s w), ?_, asleep_part .., by simp, sameRegs_of (by simp) (by simp) (by simp), rfl, rfl, by simp⟩, ?_,
    fun j hj => ?_⟩
  · rw [wave?_modWave_same, hwave, entryState_wave, Option.map_some]
  · have howns : u.owns = s.owns := by
      rw [hu.rest]
      exact (congrArg State.owns (entryState_rest sp s k w) :)
    have hsame : ({ (ownSweep u tenant va).modWave k (asleep x arg) with owns := s.owns } : State) = u.modWave k (asleep x arg) := by
      obtain ⟨os, he⟩ := ownSweep_eq u tenant va
      rw [he, ← howns]
      rfl
    rw [hsame]
    simpa using memSame_trans (memSame_trans (memSame_entry sp s k w) (Touched.memSame hu)) (memSame_modWave u k (asleep x arg))
  · rw [wave?_modWave_ne _ hj, hwave, entryState_others sp s w hj]

theorem blocks_of_helps {x : Wait} (h : x.helps = true) : x.blocks = true := by
  revert h
  cases x <;> decide

/-- A wait that no owner can be helped for: the instruction's wave sleeps (R46, R50). -/
theorem exec_sleeps (h : Clear sp s k w) (hi : exec i s = issue sp (whenActive hd body) s) (ha : activeOf w hd.mask ≠ 0) (hx : x.helps = true)
    (hva : va < 2 ^ 56) (hu : Touched marks (entryState sp s k w) u)
    (hb : body (entryState sp s k w) k (entryWave sp s w) = helpWait u k x (w64 va))
    (ho : waitOwner u (whoOf u k) x va = none) (hn : NoHelper s k) :
    ∃ t, exec i s = .next t ∧ Waits x marks s k w t := by
  have hclaim : x ≠ .claim := by rintro rfl; cases hx
  have hgroup (g : Nat) : (startWait (ownSweep u (tenantOf u k) va) k x (w64 va)).group? g = s.group? g := by
    obtain ⟨os, he⟩ := ownSweep_eq u (tenantOf u k) va
    rw [he, hu.rest, ← group?_entry sp s k w g]
    rfl
  have hnone : NoHelper (startWait (ownSweep u (tenantOf u k) va) k x (w64 va)) k := by
    simpa only [NoHelper, originGroup, hgroup] using hn
  refine ⟨_, ?_, waits_asleep (blocks_of_helps hx) hu (tenantOf u k) va (w64 va)⟩
  rw [hi, issue_active h ha, hb, helpWait_sleeps hva ho, finish, enterWait, if_neg hclaim, parkBlockedOwner_noHelper hnone]

end Sleep

end Sys2Proof.Laws
end
section
/-! PROOF. `dq.push` and `dq.pop` (R226 to R230): the header's checks, the waits for room and for a ticket, a ticket reserved, a ticket taken. -/

namespace Sys2Proof.Laws

open Sys2Proof.Machine

/-! ### What the queue instructions do -/

/-- An object in order lies below the end of the address space. -/
theorem checkObj_lt {s : State} {who : Who} {va size align : Nat} {need : Need} {l : Loc} (h : checkObj s who va size align need = .ok l) :
    va < 2 ^ 56 := by
  by_cases hal : va % align = 0
  · rw [checkObj, if_neg (not_not.2 hal)] at h
    by_contra hlt
    have hout : inShared va = false := by simp [inShared]; omega
    cases hr : resolve s who va size need with
    | error e => cases (checkOne_unresolved hal hr).symm.trans h
    | ok m =>
      have hx : extraFail va .sharedOnly = some { stage := 4, cause := .tagMisuse, info0 := w64 va } := by simp [extraFail, hout]
      cases (checkOne_extra hal hr hx).symm.trans h
  · rw [checkObj, if_pos hal] at h
    cases h

section OnQueue

variable {sp : Spec} {s : State} {k : Nat} {w : Wave} {a b : Field11} {o : Off} {data : Need} {f : Dq → Nat → State → Nat → Wave → Res} {l : Loc}

theorem onQueue_bad (hl : checkObj (entryState sp s k w) (whoOf s k) (addrOf (rdS w a.toNat) o) 64 64 needRw = .ok l)
    (hb : dqBad (entryState sp s k w) (whoOf s k) (addrOf (rdS w a.toNat) o) = true) :
    onQueue a b o data f (entryState sp s k w) k (entryWave sp s w) =
      .trap { cause := .queueInvalid, info0 := w64 (addrOf (rdS w a.toNat) o) } (entryState sp s k w) := by
  simp only [onQueue, whoOf_entry, rdS_entry, hl, hb, if_true]

/-- A well-formed queue, with its payload's place in order, is acted on after the marks of the header's access. -/
theorem onQueue_wf (hl : checkObj (entryState sp s k w) (whoOf s k) (addrOf (rdS w a.toNat) o) 64 64 needRw = .ok l)
    (hb : dqBad (entryState sp s k w) (whoOf s k) (addrOf (rdS w a.toNat) o) = false)
    (hd : checkDense (entryState sp s k w) (whoOf s k) (rdS w b.toNat).toNat
      (dqAt (entryState sp s k w) (whoOf s k) (addrOf (rdS w a.toNat) o)).sbytes data = none) :
    onQueue a b o data f (entryState sp s k w) k (entryWave sp s w) =
      f (dqAt (entryState sp s k w) (whoOf s k) (addrOf (rdS w a.toNat) o)) (rdS w b.toNat).toNat
        (touch (entryState sp s k w) (tenantOf s k) (addrOf (rdS w a.toNat) o) false) k (entryWave sp s w) := by
  simp only [onQueue, whoOf_entry, tenantOf_entry, rdS_entry, hl, hb, hd, Bool.false_eq_true, if_false]

end OnQueue

section Push

variable {d : Field11} {q : Dq} {src k t : Nat} {s : State} {who : Who} {w : Wave}

theorem dqPush_full (hwho : whoOf s k = who)
    (hfull : q.slots ≤ (dqWord s who q.resv + 2 ^ 32 - dqWord s who q.free) % 2 ^ 32) (he : waitEnd s k w .dqPush q.va = none) :
    dqPush d q src s k w = helpWait s k .dqPush (w64 q.va) := by
  simp only [dqPush, hwho, hfull, he, if_true]

theorem dqPush_noSlot (hwho : whoOf s k = who) (hroom : (dqWord s who q.resv + 2 ^ 32 - dqWord s who q.free) % 2 ^ 32 < q.slots)
    (hc : copyFull s (coreOf s k) = true) : dqPush d q src s k w = .wait .copySlot 0 s := by
  simp only [dqPush, hwho, Nat.not_le.2 hroom, hc, if_true, if_false]

theorem dqPush_entryFails {e : Fail} (hwho : whoOf s k = who) (hroom : (dqWord s who q.resv + 2 ^ 32 - dqWord s who q.free) % 2 ^ 32 < q.slots)
    (hc : copyFull s (coreOf s k) = false) (he : dqEntryFail s who q (dqWord s who q.resv) = some e) :
    dqPush d q src s k w = .trap e.trap s := by
  simp only [dqPush, hwho, Nat.not_le.2 hroom, hc, he, Bool.false_eq_true, if_false]

/-- A ticket reserved: the queue's RESV past it, and its entry RESERVED for a task (R228). -/
def reserved (s : State) (who : Who) (q : Dq) (t task : Nat) : State :=
  wrVa (dqSet s who q.resv ((t + 1) % 2 ^ 32)) who (q.entry t) (leBytes 16 (1 + t * 2 ^ 32 + task * 2 ^ 64))

theorem keeps_reserved (s : State) (who : Who) (q : Dq) (t task : Nat) : Keeps s (reserved s who q t task) :=
  (keeps_dqSet s who q.resv _).trans (keeps_wrVa _ _ _ _)

/-- The payload of a ticket on its way into its slot (R228). -/
def pushXfer (s : State) (k : Nat) (pc : Word) (q : Dq) (src t : Nat) : Xfer :=
  { kind := .dqPush, gid := gidOf k, wave := k, core := coreOf s k, tenant := tenantOf s k, seq := ((s.group? (gidOf k)).map (·.seq)).getD 0,
    pc := pc, bytes := q.sbytes, dense := w64 src, at_ := q.slot t, queue := w64 q.va, ticket := t, slot := t % q.slots }

theorem Keeps.pushXfer {s t : State} (h : Keeps s t) (k : Nat) (pc : Word) (q : Dq) (src n : Nat) :
    pushXfer t k pc q src n = pushXfer s k pc q src n := by
  simp only [Laws.pushXfer, h.coreOf, h.tenantOf, h.seq]

theorem dqPush_reserves (hwho : whoOf s k = who) (ht : dqWord s who q.resv = t) (hroom : (t + 2 ^ 32 - dqWord s who q.free) % 2 ^ 32 < q.slots)
    (hc : copyFull s (coreOf s k) = false) (he : dqEntryFail s who q t = none) :
    dqPush d q src s k w = .ok (startXfer ((reserved s who q t (myTask s k)).setWave k (wrS (endHelp w 0) d.toNat (w64 t)))
      (pushXfer s k w.pc q src t)) := by
  have htask := (keeps_dqSet s who q.resv ((t + 1) % 2 ^ 32)).myTask k
  have hxfer := (keeps_reserved s who q t (myTask s k)).pushXfer k w.pc q src t
  simp only [dqPush, hwho, ht, Nat.not_le.2 hroom, hc, he, htask, Bool.false_eq_true, if_false]
  rw [← hxfer]
  rfl

end Push

section Pop

variable {d : Field11} {scp : Scp} {q : Dq} {dst k t v : Nat} {s : State} {who : Who} {w : Wave}

theorem dqPop_empty (hwho : whoOf s k = who) (hempty : dqWord s who q.take = dqWord s who q.pub) (he : waitEnd s k w .dqPop q.va = none) :
    dqPop d scp q dst s k w = helpWait s k .dqPop (w64 q.va) := by
  simp only [dqPop, hwho, hempty, he, if_true]

theorem dqPop_fails {e : Fail} (hwho : whoOf s k = who) (hne : dqWord s who q.take ≠ dqWord s who q.pub)
    (he : popFail s who q (dqWord s who q.take) = some e) : dqPop d scp q dst s k w = .trap e.trap s := by
  simp only [dqPop, hwho, hne, he, if_false]

/-- A ticket taken, its entry marked as being read, after the acquire (R229). -/
def taken (s : State) (who : Who) (q : Dq) (t v core : Nat) (scp : Scp) : State :=
  acquire (dqSet (dqSet s who q.take ((t + 1) % 2 ^ 32)) who (q.entry t) (4 * v + 3)) core scp

/-- The slot of a ticket copied out, unless it is void (R229, R230). -/
def copiedOut (s : State) (who : Who) (tenant : Nat) (q : Dq) (t v dst : Nat) : State :=
  if v = 0 then wrVa (touchRange s tenant (q.slot t) q.sbytes false) who dst (rdVa s who (q.slot t) q.sbytes) else s

theorem keeps_taken (s : State) (who : Who) (q : Dq) (t v core : Nat) (scp : Scp) : Keeps s (taken s who q t v core scp) :=
  ((keeps_dqSet s who q.take _).trans (keeps_dqSet _ who _ _)).trans (keeps_acquire _ _ _)

theorem keeps_copiedOut (s : State) (who : Who) (tenant : Nat) (q : Dq) (t v dst : Nat) : Keeps s (copiedOut s who tenant q t v dst) := by
  unfold copiedOut
  split
  · exact (keeps_touchRange s _ _ _ _).trans (keeps_wrVa _ _ _ _)
  · exact .refl s

theorem dqPop_takes (hwho : whoOf s k = who) (hw : s.wave? k = some w) (ht : dqWord s who q.take = t) (hne : t ≠ dqWord s who q.pub)
    (he : popFail s who q t = none) (hv : dqWord (dqSet s who q.take ((t + 1) % 2 ^ 32)) who (q.entry t) / 4 % 4 = v) :
    dqPop d scp q dst s k w = .ok (dqRelease who q (q.slots + 1)
      (dqSet ((copiedOut (taken s who q t v (coreOf s k) scp) who (tenantOf s k) q t v dst).setWave k
        (wrS (endHelp w (if v = 0 then 0 else if v = 1 then 1 else 2)) d.toNat (w64 t))) who (q.entry t) (4 * v))) := by
  have hcore := ((keeps_dqSet s who q.take ((t + 1) % 2 ^ 32)).trans (keeps_dqSet _ who (q.entry t) (4 * v + 3))).coreOf k
  have htaken := keeps_taken s who q t v (coreOf s k) scp
  have hwave : (copiedOut (taken s who q t v (coreOf s k) scp) who (tenantOf s k) q t v dst).wave? k = some w :=
    ((htaken.trans (keeps_copiedOut _ _ _ _ _ _ _)).wave k).trans hw
  rw [← modWave_eq_setWave hwave fun x => wrS (endHelp x (if v = 0 then 0 else if v = 1 then 1 else 2)) d.toNat (w64 t)]
  rw [← htaken.tenantOf k]
  simp only [dqPop, hwho, ht, hne, he, hv, hcore, if_false]
  rfl

end Pop

/-! ### The instructions -/

/-- With lanes active an instruction comes to what its body answers on the entry state. -/
theorem exec_active {sp : Spec} {s : State} {k : Nat} {w : Wave} {i : Instr} {hd : Hd} {body : State → Nat → Wave → Res} {r : Res}
    (h : Clear sp s k w) (hi : exec i s = issue sp (whenActive hd body) s) (ha : activeOf w hd.mask ≠ 0)
    (hb : body (entryState sp s k w) k (entryWave sp s w) = r) : exec i s = .next (finish sp s k w r) := by
  rw [hi, issue_active h ha, hb]

section Queue

variable (sp : Spec) (s : State) (k : Nat) (w : Wave) (va : Nat)

/-- The state in which a queue instruction finds a well-formed queue: the entry state, with the marks of the header's access. -/
theorem queue_touched : Touched (entriesOf s (tenantOf s k) va) (entryState sp s k w) (touch (entryState sp s k w) (tenantOf s k) va false) := by
  rw [← entriesOf_entry sp s k w]
  exact touch_touched _ _ _ _

theorem queue_whoOf : whoOf (touch (entryState sp s k w) (tenantOf s k) va false) k = whoOf s k :=
  ((keeps_touch _ _ _ _).whoOf k).trans (whoOf_entry ..)

theorem queue_coreOf : coreOf (touch (entryState sp s k w) (tenantOf s k) va false) k = coreOf s k :=
  ((keeps_touch _ _ _ _).coreOf k).trans (coreOf_entry ..)

theorem queue_tenantOf : tenantOf (touch (entryState sp s k w) (tenantOf s k) va false) k = tenantOf s k :=
  ((keeps_touch _ _ _ _).tenantOf k).trans (tenantOf_entry ..)

theorem queue_wave : (touch (entryState sp s k w) (tenantOf s k) va false).wave? k = some (entryWave sp s w) :=
  ((keeps_touch _ _ _ _).wave k).trans (entryState_wave ..)

theorem queue_pushXfer (pc : Word) (q : Dq) (src t : Nat) :
    pushXfer (touch (entryState sp s k w) (tenantOf s k) va false) k pc q src t = pushXfer s k pc q src t := by
  rw [(keeps_touch _ _ _ _).pushXfer]
  simp only [pushXfer, coreOf_entry, tenantOf_entry, group?_entry]

end Queue

/-- Settles O28: the bodies of `dq.push` and `dq.pop` by the state of the queue, on the state that the header's access leaves. -/
theorem queueInstructions : Obligations.QueueInstructions := by
  unfold Obligations.QueueInstructions
  refine ⟨fun f sp hsp s k w l h ha => ?push, fun f sp hsp s k w l h ha => ?pop⟩
  case push =>
    cases hsp
    intro va e who hl
    have hissue : exec (.dqPush f) s = issue (specM f.h (offLen f.off) [sOp f.d 1 true, sOp f.a, sOp f.b])
      (whenActive f.h (onQueue f.a f.b f.off needRd (dqPush f.d))) s := rfl
    refine ⟨fun hbad => exec_active h hissue ha (onQueue_bad hl hbad), ?_⟩
    intro hwf q hdense u t
    have hbody : onQueue f.a f.b f.off needRd (dqPush f.d) e k (entryWave _ s w) =
        dqPush f.d q (rdS w f.b.toNat).toNat u k (entryWave _ s w) := onQueue_wf hl hwf hdense
    have hwho : whoOf u k = who := queue_whoOf ..
    have hcore : coreOf u k = coreOf s k := queue_coreOf ..
    refine ⟨fun hfull hend hn ho => ?full, fun hroom => ⟨fun hc => ?noSlot, fun hc x hx => ?fails, fun hc hx => ?reserves⟩⟩
    case full =>
      have howner : waitOwner u (whoOf u k) .dqPush va = none := by rwa [hwho]
      exact exec_sleeps h hissue ha rfl (checkObj_lt hl) (queue_touched ..)
        (hbody.trans (dqPush_full hwho hfull (waitEnd_none (by rwa [entryWave_ownerEnd]) howner))) howner hn
    case noSlot => exact exec_active h hissue ha (hbody.trans (dqPush_noSlot hwho hroom (by rwa [hcore])))
    case fails => exact exec_active h hissue ha (hbody.trans (dqPush_entryFails hwho hroom (by rwa [hcore]) hx))
    case reserves =>
      have hres := hbody.trans (dqPush_reserves hwho (rfl : _ = t) hroom (by rwa [hcore]) hx)
      have hsrc : w64 (rdS w f.b.toNat).toNat = rdS w f.b.toNat := BitVec.ofNat_toNat ..
      have hxfer (n : Nat) : pushXfer u k w.pc q (rdS w f.b.toNat).toNat n = pushXfer s k w.pc q (rdS w f.b.toNat).toNat n := queue_pushXfer ..
      rw [entryWave_pc, hxfer] at hres
      simp only [pushXfer, hsrc] at hres
      exact exec_active h hissue ha hres
  case pop =>
    cases hsp
    intro va e who dst hl
    have hissue : exec (.dqPop f) s = issue (specM f.h (offLen f.off) [sOp f.d 1 true, sOp f.a, sOp f.b])
      (whenActive f.h (onQueue f.a f.b f.off needWr (dqPop f.d f.scp))) s := rfl
    refine ⟨fun hbad => exec_active h hissue ha (onQueue_bad hl hbad), ?_⟩
    intro hwf q hdense u t
    have hbody : onQueue f.a f.b f.off needWr (dqPop f.d f.scp) e k (entryWave _ s w) = dqPop f.d f.scp q dst u k (entryWave _ s w) :=
      onQueue_wf hl hwf hdense
    have hwho : whoOf u k = who := queue_whoOf ..
    refine ⟨fun hempty hend hn ho => ?empty, fun hne x hx => ?fails, fun hne hx => ?takes⟩
    case empty =>
      have howner : waitOwner u (whoOf u k) .dqPop va = none := by rwa [hwho]
      exact exec_sleeps h hissue ha rfl (checkObj_lt hl) (queue_touched ..)
        (hbody.trans (dqPop_empty hwho hempty (waitEnd_none (by rwa [entryWave_ownerEnd]) howner))) howner hn
    case fails => exact exec_active h hissue ha (hbody.trans (dqPop_fails hwho hne hx))
    case takes =>
      intro u1 v u2 u3
      have htakes := hbody.trans (dqPop_takes hwho (queue_wave ..) (rfl : _ = t) hne hx (rfl : _ = v))
      have hcore : coreOf u k = coreOf s k := queue_coreOf ..
      have htenant : tenantOf u k = tenantOf s k := queue_tenantOf ..
      rw [hcore, htenant] at htakes
      exact exec_active h hissue ha htakes

end Sys2Proof.Laws
end
section
/-! SUPPORT. One byte, or one nibble, stored by an engine (R60, R64, R97, R210): what is checked, and what the store leaves. -/

namespace Sys2Proof.Laws

open Sys2Proof.Machine

/-! ### Places that exist -/

theorem here_resolveOwn {s : State} {who : Who} {va size : Nat} {need : Need} {l : Loc} (h : resolveOwn s who va size need = .ok l) :
    l.here s = true := by
  unfold resolveOwn at h
  split at h
  next => split at h <;> cases h; rfl
  next =>
    split at h
    next => split at h <;> cases h; rfl
    next =>
      split at h
      next => split at h <;> cases h; rfl
      next =>
        split at h
        next =>
          split at h
          next g _ _ =>
            split at h
            next x hx =>
              split at h <;> cases h
              simp [Loc.here, hx]
            next => cases h
          next => cases h
        next => cases h

/-- An address resolves to a place that exists. -/
theorem here_resolve {s : State} {who : Who} {va size : Nat} {need : Need} {l : Loc} (h : resolve s who va size need = .ok l) :
    l.here s = true := by
  unfold resolve at h
  split at h
  next => exact here_resolveOwn h
  next =>
    dsimp only at h
    split at h
    next => cases h
    next =>
      split at h
      next =>
        split at h
        next => cases h
        next =>
          split at h
          next hown => cases h; exact here_resolveOwn hown
          next => cases h
      next =>
        split at h
        next => cases h
        next => cases h; rfl

theorem here_checkOne {s : State} {who : Who} {va size align : Nat} {need : Need} {x : Extra} {l : Loc}
    (h : checkOne s who va size align need x = .ok l) : l.here s = true := by
  unfold checkOne at h
  split at h
  next => cases h
  next =>
    split at h
    next => cases h
    next m hr =>
      split at h
      next => cases h
      next => split at h <;> cases h; exact here_resolve hr

/-! ### Stores -/

theorem rdTag_wrByte (s : State) (l m : Loc) (b : Byte) : rdTag (wrByte s l b) m = rdTag s m := by
  cases m with
  | ls g o =>
    cases l with
    | ls g' o' =>
      by_cases hg : g = g'
      · subst hg
        cases hx : s.group? g <;> simp [rdTag, wrByte, group?_modGroup, hx]
      · simp [rdTag, wrByte, group?_modGroup, hg]
    | _ => rfl
  | _ => cases l <;> rfl

theorem memSame_wrByte {s : State} {l : Loc} (hl : l.here s = true) (b : Byte) : MemSame [(l, 1)] [] [] s (wrByte s l b) := by
  refine ⟨?_, (keeps_wrByte s l b).group, fun c => ?_, fun m hm _ => ?_, by simp, fun m _ => rdTag_wrByte s l m b, fun p => ?_, fun p => ?_⟩
  · cases l <;> rfl
  · cases l <;> rfl
  · have hne : m.cell ≠ l.cell := by simpa [cell_plus] using hm (l, 1) (by simp) 0 (by simp)
    rw [rdByte_wrByte _ _ _ _ hl, if_neg hne]
  · cases l <;> exact id
  · cases l <;> exact .inl

theorem rdByte_wrByte_same {s : State} {l : Loc} (hl : l.here s = true) (b : Byte) : rdByte (wrByte s l b) l = b := by
  rw [rdByte_wrByte _ _ _ _ hl, if_pos rfl]

theorem Keeps.here {s t : State} (h : Keeps s t) (l : Loc) : l.here t = l.here s := by
  cases l with
  | ls g o => rcases h.group_cases g with ⟨hs, ht⟩ | ⟨x, ls, tags, hs, ht⟩ <;> simp [Loc.here, hs, ht]
  | _ => rfl

/-- A byte stored after accesses that left their marks. -/
theorem memSame_stored {marks : List Nat} {s u : State} {l : Loc} (hu : Touched marks s u) (hl : l.here s = true) (b : Byte) :
    MemSame [(l, 1)] [] marks s (wrByte u l b) ∧ rdByte (wrByte u l b) l = b := by
  have hhere : l.here u = true := (hu.keeps.here l).trans hl
  exact ⟨by simpa using memSame_trans hu.memSame (memSame_wrByte hhere b), rdByte_wrByte_same hhere b⟩

/-! ### The marks of several accesses -/

theorem Touched.mono {m m2 : List Nat} {s t : State} (h : Touched m s t) (hm : ∀ a ∈ m, a ∈ m2) : Touched m2 s t :=
  ⟨h.rest, fun a => (h.bytes a).imp fun _ hb => ⟨hb.1, hb.2.1, fun ha => hb.2.2 fun hin => ha (hm a hin)⟩⟩

theorem Touched.append {m m2 : List Nat} {s t u : State} (h : Touched m s t) (h2 : Touched m2 t u) : Touched (m ++ m2) s u :=
  (h.mono fun _ => List.mem_append_left _).trans (h2.mono fun _ => List.mem_append_right _)

theorem touchAll_touched (tenant : Nat) (write : Bool) (as : List Nat) (s : State) :
    Touched (entriesAll s tenant write as) s (as.foldl (fun s a => touch s tenant a write) s) := by
  induction as generalizing s with
  | nil => exact .refl _ s
  | cons a r ih => exact (touch_touched s tenant a write).append (ih _)

theorem denseTouch_touched (s : State) (tenant : Nat) (sh : Shape) (p : Nat) :
    Touched (entriesAll s tenant false (denseAddrs sh p)) s (denseTouch s tenant sh p) := touchAll_touched tenant false _ s

/-! ### An engine's store -/

section Engine

variable {s : State} {who : Who} {a base i x : Nat} {l : Loc} {e : Fail} {b : Byte}

theorem engWr_ok (h : checkOne s who a 1 1 needWr .plain = .ok l) (b : Byte) :
    engWr s who a b = .ok (wrByte (touch s who.tenant a true) l b) := by simp only [engWr, h]
theorem engWr_error (h : checkOne s who a 1 1 needWr .plain = .error e) (b : Byte) : engWr s who a b = .error e := by simp only [engWr, h]

/-- What an engine's store leaves: the byte at its place, and the marks of its access. -/
theorem engWr_stores (h : checkOne s who a 1 1 needWr .plain = .ok l) (b : Byte) :
    ∃ t, engWr s who a b = .ok t ∧ MemSame [(l, 1)] [] (entriesOf s who.tenant a) s t ∧ rdByte t l = b :=
  ⟨_, engWr_ok h b, memSame_stored (touch_touched ..) (here_checkOne h) b⟩

/-- A nibble replaced, as numbers (R97). -/
theorem putNib_eq (old : Byte) (n x : Nat) :
    putNib old n x = BitVec.ofNat 8 (if n % 2 = 0 then old.toNat / 16 * 16 + x % 16 else x % 16 * 16 + old.toNat % 16) := by
  have hold : old.toNat < 256 := old.isLt
  have happend (y z : BitVec 4) : y ++ z = BitVec.ofNat 8 (y.toNat * 16 + z.toNat) := by
    apply BitVec.eq_of_toNat_eq
    have hy := y.isLt
    have hz := z.isLt
    rw [BitVec.toNat_append, ← Nat.shiftLeft_add_eq_or_of_lt hz, Nat.shiftLeft_eq, BitVec.toNat_ofNat]
    omega
  unfold putNib
  split
  · refine (happend _ _).trans (congrArg _ ?_)
    rw [BitVec.extractLsb'_toNat, BitVec.toNat_ofNat, Nat.shiftRight_eq_div_pow]
    omega
  · refine (happend _ _).trans (congrArg _ ?_)
    rw [BitVec.extractLsb'_toNat, BitVec.toNat_ofNat, Nat.shiftRight_eq_div_pow]
    omega

theorem engWrNib_error (h : checkOne s who (base + i / 2) 1 1 needWr .plain = .error e) (x : Nat) : engWrNib s who base i x = .error e := by
  simp only [engWrNib, h]

theorem engWrNib_stores (h : checkOne s who (base + i / 2) 1 1 needWr .plain = .ok l) (x : Nat) :
    ∃ t, engWrNib s who base i x = .ok t ∧ MemSame [(l, 1)] [] (entriesOf s who.tenant (base + i / 2)) s t ∧
      rdByte t l = putNib (rdByte s l) i x := by
  rw [putNib_eq]
  exact ⟨_, by simp only [engWrNib, h], memSame_stored (touch_touched _ _ _ true) (here_checkOne h) _⟩

end Engine

end Sys2Proof.Laws
end
section
/-! SUPPORT. The bytes of a record in dense order (R97, R136, R210, R246 to R248), and a byte of a transfer moved (R210, R228, R257, R268). -/

namespace Sys2Proof.Laws

open Sys2Proof.Machine

/-! ### Dense order -/

/-- The indices of an element from its place in dense order. -/
theorem denseCoords_eq {sh : Shape} {i0 i1 i2 : Nat} (h0 : i0 < sh.ext0) (h1 : i1 < sh.ext1) (h2 : i2 < sh.ext2) (i3 : Nat) :
    denseCoords sh (i0 + sh.ext0 * (i1 + sh.ext1 * (i2 + sh.ext2 * i3))) = (i0, i1, i2, i3) := by
  have digit {i n : Nat} (h : i < n) (q : Nat) : (i + n * q) % n = i ∧ (i + n * q) / n = q := by
    rw [Nat.add_mul_mod_self_left, Nat.mod_eq_of_lt h, Nat.add_mul_div_left _ _ (by omega), Nat.div_eq_of_lt h, Nat.zero_add]
    exact ⟨rfl, rfl⟩
  simp only [denseCoords, digit h0, digit h1, digit h2]

theorem planeByte_eq (s : State) (who : Who) (ty : Ty) (base n b : Nat) : planeByte s who ty base n b = planeRead s who ty base n b := by
  simp only [planeByte, planeRead, pow_mul, show (2 : Nat) ^ 4 = 16 from rfl]
  split
  · cases engRd s who (base + n / 2) <;> rfl
  · cases engRd s who (base + ty.width / 8 * n + b) <;> rfl

section Dense

variable {s : State} {who : Who} {sh : Shape} {e p b size : Nat}

/-- A byte of an element of a type wider than a nibble. -/
theorem denseByte_elem (hty : sh.ty ≠ .cb4) (hsize : sh.ty.width / 8 = size) (hb : b < size) :
    denseByte s who sh (size * e + b) = (elemByte s who sh e b).map (BitVec.ofNat 8) := by
  have hdiv : (size * e + b) / size = e := by rw [Nat.mul_add_div (by omega), Nat.div_eq_of_lt hb, Nat.add_zero]
  have hmod : (size * e + b) % size = b := by rw [Nat.mul_add_mod, Nat.mod_eq_of_lt hb]
  simp only [denseByte, if_neg hty, hsize, hdiv, hmod]
  cases elemByte s who sh e b <;> rfl

/-- Two nibbles make a byte. -/
theorem denseByte_nibbles {x y : Nat} (hty : sh.ty = .cb4) (hx : elemByte s who sh (2 * p) 0 = .ok x)
    (hy : elemByte s who sh (2 * p + 1) 0 = .ok y) : denseByte s who sh p = .ok (BitVec.ofNat 8 (x + 16 * y)) := by
  simp only [denseByte, if_pos hty, hx, hy]

/-- An element that stands in memory by itself. -/
theorem elemByte_plane {i0 i1 i2 i3 : Nat} (hc : denseCoords sh e = (i0, i1, i2, i3)) (hl : sh.layout ≠ 4) (b : Nat) :
    elemByte s who sh e b = planeRead s who sh.ty sh.base.toNat (elemIndex sh i0 i1 i2 i3) b := by
  simp only [elemByte, hc, if_neg hl, planeByte_eq]

/-- An element of a plane of which two in four are stored: the metadata's nibble names the two (R247). -/
theorem elemByte_sparse {g q i1 i2 i3 v0 v1 : Nat} {m : Byte} (hc : denseCoords sh e = (4 * g + q, i1, i2, i3)) (hq : q < 4) (hl : sh.layout = 4)
    (h0 : planeRead s who sh.ty sh.base.toNat (2 * g + (i1 * sh.str1 + i2 * sh.str2)) b = .ok v0)
    (h1 : planeRead s who sh.ty sh.base.toNat (2 * g + 1 + (i1 * sh.str1 + i2 * sh.str2)) b = .ok v1)
    (hm : engRd s who (sh.base.toNat + sh.str3 + (g + (i1 * sh.str1 + i2 * sh.str2) / 2) / 2) = .ok m) :
    elemByte s who sh e b = .ok (if q = m.toNat / 16 ^ ((g + (i1 * sh.str1 + i2 * sh.str2) / 2) % 2) % 16 / 4 then v1
      else if q = m.toNat / 16 ^ ((g + (i1 * sh.str1 + i2 * sh.str2) / 2) % 2) % 16 % 4 then v0 else 0) := by
  have hg : (4 * g + q) / 4 = g := by omega
  have hq' : (4 * g + q) % 4 = q := by omega
  simp only [elemByte, hc, if_pos hl, planeByte_eq, hg, hq', h0, h1, hm, pow_mul, show (2 : Nat) ^ 4 = 16 from rfl]

end Dense

/-- Every record is read by its layout, its element type and its metadata. -/
theorem recordReads (s : State) (who : Who) (sh : Shape) : RecordReads s who sh := by
  refine ⟨fun i0 i1 i2 i3 h0 h1 h2 _ => ?_, fun p x y => denseByte_nibbles⟩
  have hc := denseCoords_eq h0 h1 h2 i3
  refine ⟨fun h => ?_, fun h => ?_, fun h => ?_, fun h => ?_, ?_, fun hty b => denseByte_elem hty rfl, fun hl => elemByte_plane hc hl,
    fun hl b g q v0 v1 m hi hq => ?_⟩
  · simp only [elemIndex, h]
  · simp only [elemIndex, h]
  · simp only [elemIndex, h]
  · simp only [elemIndex, h]
  · simp only [denseIndex, hc]
  · subst hi
    exact fun hv0 hv1 hm => elemByte_sparse hc hq hl hv0 hv1 hm

/-! ### A byte stored in dense order -/

section Write

variable {s u t : State} {who : Who} {sh : Shape} {p : Nat} {b : Byte} {e : Fail}

theorem denseWr_elem (hty : sh.ty ≠ .cb4) : denseWr s who sh p b = engWr s who
    (sh.base.toNat + sh.ty.width / 8 * denseIndex sh (p / (sh.ty.width / 8)) + p % (sh.ty.width / 8)) b := by
  simp only [denseWr, if_neg hty]

theorem denseWr_second (hty : sh.ty = .cb4) (h : engWrNib s who sh.base.toNat (denseIndex sh (2 * p)) (b.toNat % 16) = .ok u) :
    denseWr s who sh p b = engWrNib u who sh.base.toNat (denseIndex sh (2 * p + 1)) (b.toNat / 16) := by
  simp only [denseWr, if_pos hty, h]

theorem denseWr_first_error (hty : sh.ty = .cb4) (h : engWrNib s who sh.base.toNat (denseIndex sh (2 * p)) (b.toNat % 16) = .error e) :
    denseWr s who sh p b = .error e := by
  simp only [denseWr, if_pos hty, h]

end Write

/-! ### A byte moved -/

section Moves

variable {s t : State} {x : Xfer} {p : Nat} {b v : Byte} {e : Fail}

/-- The place in local store of a transfer's dense byte. -/
def storePlace (s : State) (x : Xfer) (p : Nat) : Loc := .ls (lsGroup s (keyOf x.gid 0)) (x.dense.toNat + p - 0xFF000000000000)

theorem xferByte_cpIn (hk : x.kind = .cpIn) (hb : denseByte s (x.who s) x.shape p = .ok b) :
    xferByte s x p = .ok (wrByte (denseTouch s x.tenant x.shape p) (storePlace s x p) b, x) := by
  simp only [xferByte, hk, hb, storePlace]

theorem xferByte_accLd (hk : x.kind = .accLd) (hb : denseByte s (x.who s) x.shape p = .ok b) :
    xferByte s x p = .ok (denseTouch s x.tenant x.shape p, { x with data := x.data ++ [b] }) := by
  simp only [xferByte, hk, hb]

theorem xferByte_cpLl (hk : x.kind = .cpLl) (hb : denseByte s (x.who s) x.shape p = .ok b)
    (ht : engWr (denseTouch s x.tenant x.shape p) (x.who s) (x.dense.toNat + p) b = .ok t) : xferByte s x p = .ok (t, x) := by
  simp only [xferByte, hk, hb, ht]

theorem xferByte_cpLl_error (hk : x.kind = .cpLl) (hb : denseByte s (x.who s) x.shape p = .ok b)
    (ht : engWr (denseTouch s x.tenant x.shape p) (x.who s) (x.dense.toNat + p) b = .error e) : xferByte s x p = .error e := by
  simp only [xferByte, hk, hb, ht]

/-- A byte that cannot be read stops its transfer. -/
theorem xferByte_read_error (hk : x.kind = .cpIn ∨ x.kind = .accLd ∨ x.kind = .cpLl) (hb : denseByte s (x.who s) x.shape p = .error e) :
    xferByte s x p = .error e := by
  rcases hk with hk | hk | hk <;> simp only [xferByte, hk, hb]

/-- The byte that a transfer to memory stores: of local store, or of the bytes it carries. -/
def outByte (s : State) (x : Xfer) (p : Nat) : Byte := if x.kind = .cpOut then rdByte s (storePlace s x p) else x.data.getD p 0

theorem xferByte_out (hk : x.kind = .cpOut ∨ x.kind = .accSt) (ht : denseWr s (x.who s) x.shape p (outByte s x p) = .ok t) :
    xferByte s x p = .ok (t, x) := by
  rcases hk with hk | hk
  · rw [outByte, if_pos hk, storePlace] at ht
    simp only [xferByte, hk, ht]
  · rw [outByte, if_neg (by simp [hk])] at ht
    simp only [xferByte, hk, ht]

theorem xferByte_out_error (hk : x.kind = .cpOut ∨ x.kind = .accSt) (ht : denseWr s (x.who s) x.shape p (outByte s x p) = .error e) :
    xferByte s x p = .error e := by
  rcases hk with hk | hk
  · rw [outByte, if_pos hk, storePlace] at ht
    simp only [xferByte, hk, ht]
  · rw [outByte, if_neg (by simp [hk])] at ht
    simp only [xferByte, hk, ht]

theorem xferByte_push (hk : x.kind = .dqPush) (hb : engRd s (x.who s) (x.dense.toNat + p) = .ok b)
    (ht : engWr (touch s x.tenant (x.dense.toNat + p) false) (x.who s) (x.at_ + p) b = .ok t) : xferByte s x p = .ok (t, x) := by
  simp only [xferByte, hk, hb, ht]

theorem xferByte_push_error (hk : x.kind = .dqPush) (hb : engRd s (x.who s) (x.dense.toNat + p) = .ok b)
    (ht : engWr (touch s x.tenant (x.dense.toNat + p) false) (x.who s) (x.at_ + p) b = .error e) : xferByte s x p = .error e := by
  simp only [xferByte, hk, hb, ht]

theorem xferByte_push_unread (hk : x.kind = .dqPush) (hb : engRd s (x.who s) (x.dense.toNat + p) = .error e) : xferByte s x p = .error e := by
  simp only [xferByte, hk, hb]

/-- A byte stored after accesses at other addresses. -/
theorem engWr_after {marks : List Nat} {u : State} {who : Who} {a : Nat} {l : Loc} (hu : Touched marks s u)
    (h : checkOne u who a 1 1 needWr .plain = .ok l) (b : Byte) :
    ∃ t, engWr u who a b = .ok t ∧ MemSame [(l, 1)] [] (marks ++ entriesOf u who.tenant a) s t ∧ rdByte t l = b := by
  obtain ⟨t, ht, hmem, hbyte⟩ := engWr_stores h b
  exact ⟨t, ht, by simpa using memSame_trans hu.memSame hmem, hbyte⟩

end Moves

/-- A transfer moves each of its bytes from its place to its place (R210, R228, R257, R268). -/
theorem movesByte (s : State) (x : Xfer) (p : Nat) : MovesByte s x p := by
  refine ⟨fun b hb => ⟨fun hk hls => ?cpIn, fun hk => ?accLd, fun hk => ⟨fun l hl => ?cpLl, fun e he => ?cpLlFails⟩⟩,
    fun hk e => xferByte_read_error hk, fun hk => ⟨fun hty => ⟨fun l hl => ?out, fun e he => ?outFails⟩,
      fun hty => ⟨fun l0 hl0 => ?nibbles, fun e he => ?firstFails⟩⟩,
    fun hk => ⟨fun b l hb hl => ?push, fun e => xferByte_push_unread hk, fun b e hb he => ?pushFails⟩⟩
  case cpIn =>
    obtain ⟨hmem, hbyte⟩ := memSame_stored (denseTouch_touched s x.tenant x.shape p) (l := storePlace s x p) hls b
    exact ⟨_, xferByte_cpIn hk hb, hmem, hbyte⟩
  case accLd => exact ⟨_, xferByte_accLd hk hb, (denseTouch_touched s x.tenant x.shape p).memSame⟩
  case cpLl =>
    obtain ⟨t, ht, hmem, hbyte⟩ := engWr_after (denseTouch_touched s x.tenant x.shape p) hl b
    exact ⟨t, xferByte_cpLl hk hb ht, hmem, hbyte⟩
  case cpLlFails => exact xferByte_cpLl_error hk hb (engWr_error he b)
  case out =>
    obtain ⟨t, ht, hmem, hbyte⟩ := engWr_stores hl (outByte s x p)
    exact ⟨t, xferByte_out hk ((denseWr_elem hty).trans ht), hmem, hbyte⟩
  case outFails => exact xferByte_out_error hk ((denseWr_elem hty).trans (engWr_error he _))
  case nibbles =>
    obtain ⟨u, hu, hmem, hbyte⟩ := engWrNib_stores hl0 ((outByte s x p).toNat % 16)
    refine ⟨u, hmem, hbyte, fun l1 hl1 => ?_, fun e he => ?_⟩
    · obtain ⟨t, ht, hmem1, hbyte1⟩ := engWrNib_stores hl1 ((outByte s x p).toNat / 16)
      exact ⟨t, xferByte_out hk ((denseWr_second hty hu).trans ht), hmem1, hbyte1⟩
    · exact xferByte_out_error hk ((denseWr_second hty hu).trans (engWrNib_error he _))
  case firstFails => exact xferByte_out_error hk (denseWr_first_error hty (engWrNib_error he _))
  case push =>
    obtain ⟨t, ht, hmem, hbyte⟩ := engWr_after (touch_touched s x.tenant (x.dense.toNat + p) false) hl b
    exact ⟨t, xferByte_push hk hb ht, hmem, hbyte⟩
  case pushFails => exact xferByte_push_error hk hb (engWr_error he b)

end Sys2Proof.Laws
end
section
/-! SUPPORT. A transfer runs (R210, R212): the states it goes through byte by byte, where it stops, and what stands meanwhile. -/

namespace Sys2Proof.Laws

open Sys2Proof.Machine

/-! ### What moving a byte leaves alone -/

section Leaves

variable {s t : State} {who : Who} {sh : Shape} {a base i n p : Nat} {b : Byte} {x y : Xfer}

theorem engWr_keeps (h : engWr s who a b = .ok t) : Keeps s t := by
  unfold engWr at h
  split at h
  next => cases h; exact (keeps_touch _ _ _ _).trans (keeps_wrByte _ _ _)
  next => cases h

theorem engWrNib_keeps (h : engWrNib s who base i n = .ok t) : Keeps s t := by
  unfold engWrNib at h
  split at h
  next => cases h; exact (keeps_touch _ _ _ _).trans (keeps_wrByte _ _ _)
  next => cases h

theorem denseWr_keeps (h : denseWr s who sh p b = .ok t) : Keeps s t := by
  unfold denseWr at h
  split at h
  next =>
    split at h
    next => cases h
    next hfirst => exact (engWrNib_keeps hfirst).trans (engWrNib_keeps h)
  next => exact engWr_keeps h

theorem denseTouch_keeps (s : State) (tenant : Nat) (sh : Shape) (p : Nat) : Keeps s (denseTouch s tenant sh p) :=
  (denseTouch_touched s tenant sh p).keeps

/-- Moving a byte keeps the waves and groups, and of the transfer all but the bytes it carries. -/
theorem xferByte_leaves (h : xferByte s x p = .ok (t, y)) : Keeps s t ∧ y = { x with data := y.data } := by
  unfold xferByte at h
  dsimp only at h
  split at h
  next =>
    split at h <;> cases h
    exact ⟨(denseTouch_keeps ..).trans (keeps_wrByte ..), rfl⟩
  next =>
    split at h <;> cases h
    next ht => exact ⟨denseWr_keeps ht, rfl⟩
  next =>
    split at h
    next => cases h
    next =>
      split at h <;> cases h
      next ht => exact ⟨(denseTouch_keeps ..).trans (engWr_keeps ht), rfl⟩
  next =>
    split at h <;> cases h
    exact ⟨denseTouch_keeps .., rfl⟩
  next =>
    split at h <;> cases h
    next ht => exact ⟨denseWr_keeps ht, rfl⟩
  next =>
    split at h
    next => cases h
    next =>
      split at h <;> cases h
      next ht => exact ⟨(keeps_touch ..).trans (engWr_keeps ht), rfl⟩
  next => cases h; exact ⟨.refl s, rfl⟩
  next => cases h; exact ⟨.refl s, rfl⟩

end Leaves

/-! ### The run -/

/-- A transfer goes from one position to another, each byte moved on the state that those before it have left. -/
def MovesTo (s : State) (x : Xfer) (t : State) (y : Xfer) : Prop :=
  ∃ st : Nat → State × Xfer, st x.pos = (s, x) ∧ st y.pos = (t, y) ∧ ∀ p, x.pos ≤ p → p < y.pos → (st p).2.pos = p ∧
    ∃ z, xferByte (st p).1 (st p).2 p = .ok z ∧ st (p + 1) = (z.1, { z.2 with pos := p + 1 })

section Run

variable {s s' t : State} {x x' y : Xfer} {n : Nat} {r : Option Fail}

theorem movesTo_refl (s : State) (x : Xfer) : MovesTo s x s x := ⟨fun _ => (s, x), rfl, rfl, fun p h h2 => by omega⟩

theorem movesTo_step (hb : xferByte s x x.pos = .ok (s', x')) (hlt : x.pos < y.pos) (h : MovesTo s' { x' with pos := x.pos + 1 } t y) :
    MovesTo s x t y := by
  obtain ⟨st, hfirst, hlast, hstep⟩ := h
  refine ⟨Function.update st x.pos (s, x), by simp, by rw [Function.update_of_ne (by omega), hlast], fun p hp hpy => ?_⟩
  rw [Function.update_of_ne (show p + 1 ≠ x.pos by omega)]
  by_cases he : p = x.pos
  · subst he
    rw [Function.update_self]
    exact ⟨rfl, _, hb, hfirst⟩
  · rw [Function.update_of_ne he]
    exact hstep p (show x.pos + 1 ≤ p by omega) hpy

theorem xferRun_end (h : x.bytes ≤ x.pos) (n : Nat) (s : State) : xferRun (n + 1) s x = (s, x, pushFail s x) := by
  rw [xferRun, if_pos h]

theorem xferRun_stops {e : Fail} (h : x.pos < x.bytes) (hb : xferByte s x x.pos = .error e) (n : Nat) :
    xferRun (n + 1) s x = (s, x, some e) := by
  rw [xferRun, if_neg (Nat.not_le.2 h), hb]

theorem xferRun_moves (h : x.pos < x.bytes) (hb : xferByte s x x.pos = .ok (s', x')) (n : Nat) :
    xferRun (n + 1) s x = xferRun n s' { x' with pos := x'.pos + 1 } := by
  rw [xferRun, if_neg (Nat.not_le.2 h), hb]

/-- A run keeps the waves and groups, and of its transfer all but its position and the bytes it carries. -/
theorem xferRun_leaves (h : xferRun n s x = (t, y, r)) : Keeps s t ∧ y = { x with pos := y.pos, data := y.data } := by
  induction n generalizing s x with
  | zero => cases h; exact ⟨.refl _, rfl⟩
  | succ n ih =>
    by_cases hend : x.bytes ≤ x.pos
    · rw [xferRun_end hend] at h
      cases h
      exact ⟨.refl _, rfl⟩
    · cases hb : xferByte s x x.pos with
      | error e =>
        rw [xferRun_stops (Nat.not_le.1 hend) hb] at h
        cases h
        exact ⟨.refl _, rfl⟩
      | ok z =>
        obtain ⟨s', x'⟩ := z
        rw [xferRun_moves (Nat.not_le.1 hend) hb] at h
        obtain ⟨hkeep, hx'⟩ := xferByte_leaves hb
        obtain ⟨hkeep2, hy⟩ := ih h
        refine ⟨hkeep.trans hkeep2, ?_⟩
        rw [hy, hx']

/-- A run with fuel for every byte ends at the last one, or stops where an access fails (R212). -/
theorem xferRun_to_end (hpos : x.pos ≤ x.bytes) (hn : x.bytes < x.pos + n) (h : xferRun n s x = (t, y, r)) :
    x.pos ≤ y.pos ∧ y.pos ≤ x.bytes ∧ MovesTo s x t y ∧ (r = none → y.pos = x.bytes) ∧
      ∀ e, r = some e → (y.pos < x.bytes ∧ xferByte t y y.pos = .error e) ∨ (y.pos = x.bytes ∧ pushFail t y = some e) := by
  induction n generalizing s x with
  | zero => omega
  | succ n ih =>
    by_cases hend : x.bytes ≤ x.pos
    · rw [xferRun_end hend] at h
      have heq : x.pos = x.bytes := by omega
      cases h
      exact ⟨le_rfl, hpos, movesTo_refl _ _, fun _ => heq, fun e he => .inr ⟨heq, he⟩⟩
    · have hlt : x.pos < x.bytes := Nat.not_le.1 hend
      cases hb : xferByte s x x.pos with
      | error e =>
        rw [xferRun_stops hlt hb] at h
        cases h
        exact ⟨le_rfl, hpos, movesTo_refl _ _, nofun, fun f hf => .inl ⟨hlt, hb.trans (congrArg _ (Option.some.inj hf))⟩⟩
      | ok z =>
        obtain ⟨s', x'⟩ := z
        obtain ⟨data, rfl⟩ : ∃ data, x' = { x with data := data } := ⟨_, (xferByte_leaves hb).2⟩
        rw [xferRun_moves hlt hb] at h
        obtain ⟨hle, hbytes, hmoves, hnone, hsome⟩ := ih (x := { x with data := data, pos := x.pos + 1 }) hlt (by simp only; omega) h
        exact ⟨Nat.le_of_succ_le hle, hbytes, movesTo_step hb hle hmoves, hnone, hsome⟩

end Run

end Sys2Proof.Laws
end
section
/-! PROOF. The two events of the copy engine (R210, R212, R213, R228, R246 to R248, R251, R253, R257, R268, Table 13.10): a transfer that ends
completes, one that an access stops takes its cause. -/

namespace Sys2Proof.Laws

open Sys2Proof.Machine

/-! ### The events -/

theorem copyComplete_next (s : State) : ∃ t, exec .copyComplete s = .next t := by
  change ∃ t, execCopyComplete s = .next t
  unfold execCopyComplete
  split
  · exact ⟨_, rfl⟩
  · split
    · exact ⟨_, rfl⟩
    · split
      · exact ⟨_, rfl⟩
      · dsimp only
        split <;> exact ⟨_, rfl⟩

theorem copyTransferFault_next (s : State) : ∃ t, exec .copyTransferFault s = .next t := by
  change ∃ t, execCopyTransferFault s = .next t
  unfold execCopyTransferFault
  split
  · exact ⟨_, rfl⟩
  · split
    · exact ⟨_, rfl⟩
    · split
      · exact ⟨_, rfl⟩
      · split
        · split <;> exact ⟨_, rfl⟩
        · dsimp only
          split <;> exact ⟨_, rfl⟩

/-- An event of the copy engine for a transfer of a resident group. -/
structure Moving (s : State) (i : Nat) (x : Xfer) (g : Group) (c : Nat) : Prop where
  who : s.input.who = i
  xfer : kfind i s.xfers = some x
  id : x.id = i
  group : s.group? x.gid = some g
  core : g.core? = some c

section Events

variable {s t : State} {i c : Nat} {x y : Xfer} {g : Group} {e : Fail}

theorem copyComplete_feed (h : Moving s i x g c) (hk : x.kind = .feedA ∨ x.kind = .feedB) : exec .copyComplete s =
    .next (if (passFeeds s x.gid).xfers.length < s.xfers.length then wakeEngine (passFeeds s x.gid) c else passFeeds s x.gid) := by
  change execCopyComplete s = _
  simp only [execCopyComplete, h.who, h.xfer, h.group, Option.bind_some, h.core, hk, if_true]

theorem copyComplete_ends (h : Moving s i x g c) (hk : ¬ (x.kind = .feedA ∨ x.kind = .feedB)) (hr : xferRun (x.bytes + 1) s x = (t, y, none)) :
    exec .copyComplete s = .next (wakeEngine (finishXfer t y) c) := by
  change execCopyComplete s = _
  simp only [execCopyComplete, h.who, h.xfer, h.group, Option.bind_some, h.core, hk, hr, if_false]

theorem copyComplete_stops (h : Moving s i x g c) (hk : ¬ (x.kind = .feedA ∨ x.kind = .feedB)) (hr : xferRun (x.bytes + 1) s x = (t, y, some e)) :
    exec .copyComplete s = .next (faultXfer t y e) := by
  change execCopyComplete s = _
  simp only [execCopyComplete, h.who, h.xfer, h.group, Option.bind_some, h.core, hk, hr, if_false]

theorem copyTransferFault_none (h : Moving s i x g c) (hk : ¬ (x.kind = .feedA ∨ x.kind = .feedB))
    (hr : xferRun (x.bytes + 1) s x = (t, y, none)) : exec .copyTransferFault s = .next s := by
  change execCopyTransferFault s = _
  simp only [execCopyTransferFault, h.who, h.xfer, h.group, h.core, hk, hr, Option.isNone_some, Bool.false_eq_true, if_false]

theorem copyTransferFault_stops (h : Moving s i x g c) (hk : ¬ (x.kind = .feedA ∨ x.kind = .feedB))
    (hr : xferRun (x.bytes + 1) s x = (t, y, some e)) : exec .copyTransferFault s = .next (faultXfer t y e) := by
  change execCopyTransferFault s = _
  simp only [execCopyTransferFault, h.who, h.xfer, h.group, h.core, hk, hr, Option.isNone_some, Bool.false_eq_true, if_false]

/-- Of a feed's copies the one whose byte cannot be delivered takes the cause at its event, and no other (R253). -/
theorem copyTransferFault_feed (h : Moving s i x g c) (hk : x.kind = .feedA ∨ x.kind = .feedB) : exec .copyTransferFault s =
    .next (match feedFail s x.gid g (x.kind == .feedB) with
      | some (p, e) => if p = i then faultXfer s x e else s
      | none => s) := by
  change execCopyTransferFault s = _
  simp only [execCopyTransferFault, h.who, h.xfer, h.group, h.core, hk, Option.isNone_some, Bool.false_eq_true, if_true, if_false]
  cases feedFail s x.gid g (x.kind == .feedB) <;> rfl

end Events

/-! ### What the end of a transfer leaves -/

section Ends

variable {s t u : State} {c k r n : Nat} {x y : Xfer} {w : Wave}

/-- Where a wait for an engine ends, the wave's registers and tiles stand. -/
theorem wakeEngine_wave (hw : u.wave? k = some w) (c : Nat) : ∃ w', (wakeEngine u c).wave? k = some w' ∧ w'.s = w.s ∧ w'.tiles = w.tiles := by
  refine ⟨_, wave?_wakeEngine c hw, ?_⟩
  split
  · exact ⟨rfl, rfl⟩
  · exact ⟨rfl, rfl⟩

theorem finishXfer_complete (h : y.kind = .cpIn ∨ y.kind = .cpOut ∨ y.kind = .cpLl ∨ y.kind = .accSt) :
    finishXfer t y = complete { t with xfers := kdel y.id t.xfers } y.cw y.bytes := by
  rcases h with h | h | h | h <;> simp only [finishXfer, h]

theorem finishXfer_push (h : y.kind = .dqPush) : finishXfer t y = dqPublish { t with xfers := kdel y.id t.xfers }
    (y.who { t with xfers := kdel y.id t.xfers }) (dqAt { t with xfers := kdel y.id t.xfers } (y.who { t with xfers := kdel y.id t.xfers })
      y.queue.toNat) y.ticket 0 := by
  simp only [finishXfer, h]

/-- A token's register holds the completion with the byte count (R86, R213, Table 13.10). -/
theorem finishXfer_token (h : y.kind = .cpIn ∨ y.kind = .cpOut ∨ y.kind = .cpLl ∨ y.kind = .accSt) (hcw : y.cw = .token k r)
    (hw : t.wave? k = some w) : kfind y.id (finishXfer t y).xfers = none ∧
      ∃ w', (finishXfer t y).wave? k = some w' ∧ rdS w' r = w64 (2 ^ 56 + y.bytes % 2 ^ 31) := by
  rw [finishXfer_complete h, hcw]
  refine ⟨kfind_kdel_same y.id t.xfers, _, (wave?_modWave_same _ _ _).trans (congrArg _ hw), ?_⟩
  exact (rdS_wrS w r r _).trans (if_pos rfl)

/-- The tile of an `acc.ld` holds the elements it has read, converted (R257). -/
theorem finishXfer_tile {m : Tile} (h : y.kind = .accLd) (hw : t.wave? y.wave = some w) (hm : kfind y.handle w.tiles = some m) :
    kfind y.id (finishXfer t y).xfers = none ∧ ∃ w', (finishXfer t y).wave? y.wave = some w' ∧
      w'.tiles = kset y.handle (tileFill m y.shape.ty y.data) w.tiles := by
  simp only [finishXfer, h]
  refine ⟨kfind_kdel_same y.id t.xfers, _, (wave?_modWave_same _ _ _).trans (congrArg _ hw), ?_⟩
  simp only [hm]

theorem tileFill_elem (m : Tile) (ty : Ty) (data : List Byte) (h : n < m.m * m.n) : (tileFill m ty data).e[n]? =
    some (w64 (convert envRne false ty m.ty (leNat ((data.drop (ty.width / 8 * n)).take (ty.width / 8))))) := by
  simp [tileFill, h]

end Ends

/-- Settles O44: each event by what its transfer's run comes to, and each byte of a run by where the record puts it. -/
theorem transfersComplete : Obligations.TransfersComplete := by
  unfold Obligations.TransfersComplete
  refine ⟨fun s => ⟨copyComplete_next s, copyTransferFault_next s⟩, fun s i x g c hwho hx hid hg hc => ?_, movesByte, recordReads⟩
  have hmoving : Moving s i x g c := ⟨hwho, hx, hid, hg, hc⟩
  refine ⟨copyComplete_feed hmoving, fun ha hb t y hr => ⟨copyComplete_ends hmoving (not_or.2 ⟨ha, hb⟩) hr,
      copyTransferFault_none hmoving (not_or.2 ⟨ha, hb⟩) hr, fun hk k r w hcw hw => ?token, fun hk w m hw hm => ?tile, fun hk => ?push⟩,
    fun ha hb t y e hr => ⟨copyComplete_stops hmoving (not_or.2 ⟨ha, hb⟩) hr, copyTransferFault_stops hmoving (not_or.2 ⟨ha, hb⟩) hr,
      fun w hw => ?fault⟩, fun ha hb hpos t y r hr => ?run, copyTransferFault_feed hmoving⟩
  case run =>
    obtain ⟨hle, hbytes, hmoves, hnone, hsome⟩ := xferRun_to_end hpos (by omega) hr
    exact ⟨(xferRun_leaves hr).2, hle, hbytes, hmoves, hnone, hsome⟩
  all_goals
    obtain ⟨hkeep, hy⟩ := xferRun_leaves hr
    obtain ⟨pos, data, rfl⟩ : ∃ pos data, y = { x with pos := pos, data := data } := ⟨_, _, hy⟩
    subst hid
  case token =>
    obtain ⟨hslot, w1, hw1, hval⟩ := finishXfer_token (y := { x with pos := pos, data := data }) hk hcw ((hkeep.wave k).trans hw)
    obtain ⟨w2, hw2, hs, -⟩ := wakeEngine_wave hw1 c
    exact ⟨_, w2, copyComplete_ends hmoving (not_or.2 ⟨ha, hb⟩) hr, hslot, hw2, by rw [rdS, hs]; exact hval⟩
  case tile =>
    obtain ⟨hslot, w1, hw1, htiles1⟩ := finishXfer_tile (y := { x with pos := pos, data := data }) hk ((hkeep.wave _).trans hw) hm
    obtain ⟨w2, hw2, -, htiles2⟩ := wakeEngine_wave hw1 c
    exact ⟨_, w2, _, copyComplete_ends hmoving (not_or.2 ⟨ha, hb⟩) hr, hslot, hw2, htiles2.trans htiles1, rfl,
      fun n hn => tileFill_elem m x.shape.ty data hn⟩
  case push =>
    refine (copyComplete_ends hmoving (not_or.2 ⟨ha, hb⟩) hr).trans ?_
    rw [finishXfer_push (y := { x with pos := pos, data := data }) hk]
    rfl
  case fault => simp only [faultXfer, hw]

end Sys2Proof.Laws
end
section
/-! PROOF. Taking an exception in a crew (R265, R289), in a state whose groups are listed with one key twice. -/

namespace Sys2Proof.Laws

open Sys2Proof.Machine

/-- A crew member on core 0. -/
def crewMember : Group := { crew := 2, place := .resident 0 }

/-- The key of a crew member listed a second time, for a continuation group of that member (R35). `group? 1` is the member alone, and
`stowContinuations` takes the second entry's key for that of a continuation group to save. -/
def memberListedTwice : State :=
  { groups := [(1, crewMember), (1, { origin := .continuation 1, place := .resident 0 })], waves := [(32, {})] }

/-- The state is not one the model makes: the keys of a `KMap` rise strictly, and here they do not. -/
theorem ksorted_memberListedTwice : ksorted memberListedTwice.groups = false := rfl

/-- The member is parked faulted, and then saved as if it were its own continuation group: its cause is lost. -/
theorem takeTrap_memberListedTwice_saved :
    ((takeTrap memberListedTwice 32 8 { cause := .breakpoint }).group? 1).map (·.place) = some .saved := by decide

/-- Refutes O16: the clause on crews (R265) asks nothing of the keys of `s.groups`. Where a member's key is listed again for a continuation group of
that member, the member ends as a saved image and not as a faulted one. -/
theorem not_takingAnException : ¬ Obligations.TakingAnException := by
  unfold Obligations.TakingAnException
  rintro ⟨-, hcrew, -⟩
  obtain ⟨x', hgroup, hfaulted, -⟩ := hcrew memberListedTwice 32 {} crewMember 8 { cause := .breakpoint } 1 crewMember
    rfl rfl rfl (by decide) (by decide) rfl rfl rfl rfl
  have hsaved := takeTrap_memberListedTwice_saved
  rw [hgroup, Option.map_some, hfaulted] at hsaved
  cases hsaved

end Sys2Proof.Laws
end
section
/-! SUPPORT. Folds that keep a part of what they fold over, and lists in order. -/

namespace Sys2Proof.Laws

open Sys2Proof.Machine

/-- A part that each step of a fold keeps, the fold keeps. -/
theorem foldl_keeps {α β γ : Type} (part : β → γ) {f : β → α → β} (h : ∀ b a, part (f b a) = part b) (xs : List α) (b : β) :
    part (xs.foldl f b) = part b := by
  induction xs generalizing b with
  | nil => rfl
  | cons x xs ih => exact (ih _).trans (h b x)

theorem insertBy_perm {α : Type} (le : α → α → Bool) (x : α) (xs : List α) : (insertBy le x xs).Perm (x :: xs) := by
  induction xs with
  | nil => exact .refl _
  | cons y r ih =>
    simp only [insertBy]
    split
    · exact (ih.cons y).trans (.swap x y r)
    · exact .refl _

theorem sortBy_perm {α : Type} (le : α → α → Bool) (xs : List α) : (sortBy le xs).Perm xs := by
  suffices h : ∀ ys, (xs.foldl (fun a x => insertBy le x a) ys).Perm (ys ++ xs) from h []
  induction xs with
  | nil => intro ys; simp
  | cons x xs ih =>
    intro ys
    exact (ih _).trans (((insertBy_perm le x ys).append_right xs).trans List.perm_middle.symm)

section Sorted

variable {α : Type} {le : α → α → Bool} (htrans : ∀ a b c, le a b = true → le b c = true → le a c = true)
  (htotal : ∀ a b, le a b = false → le b a = true)

include htrans htotal

theorem insertBy_sorted (x : α) {xs : List α} (h : xs.Pairwise (fun a b => le a b = true)) : (insertBy le x xs).Pairwise (fun a b => le a b = true) := by
  induction xs with
  | nil => simp [insertBy]
  | cons y r ih =>
    obtain ⟨hy, hr⟩ := List.pairwise_cons.1 h
    simp only [insertBy]
    split
    next hle =>
      refine List.pairwise_cons.2 ⟨fun z hz => ?_, ih hr⟩
      rcases List.mem_cons.1 ((insertBy_perm le x r).mem_iff.1 hz) with rfl | hz
      · exact hle
      · exact hy z hz
    next hle =>
      have hxy := htotal y x (Bool.eq_false_iff.2 hle)
      exact List.pairwise_cons.2 ⟨List.forall_mem_cons.2 ⟨hxy, fun z hz => htrans x y z hxy (hy z hz)⟩, h⟩

theorem sortBy_sorted (xs : List α) : (sortBy le xs).Pairwise (fun a b => le a b = true) := by
  suffices h : ∀ ys, ys.Pairwise (fun a b => le a b = true) → (xs.foldl (fun a x => insertBy le x a) ys).Pairwise (fun a b => le a b = true) from
    h [] List.Pairwise.nil
  induction xs with
  | nil => exact fun _ h => h
  | cons x xs ih => exact fun ys h => ih _ (insertBy_sorted htrans htotal x h)

end Sorted

end Sys2Proof.Laws
end

section
/-! SUPPORT. What a unit's own accesses to memory leave of the machine (R4, R64): nothing is sent, and every unit and every queue stands. -/

namespace Sys2Proof.Laws

open Sys2Proof.Machine

/-- Of the machine only memory, its errors, local stores and remembered translations may differ. -/
structure MemOnly (s t : State) : Prop where
  rest : t = { s with ext := t.ext, shm := t.shm, host := t.host, peer := t.peer, poison := t.poison, tlb := t.tlb, groups := t.groups }

section Parts

variable {s t u : State}

theorem MemOnly.refl (s : State) : MemOnly s s := ⟨rfl⟩
theorem MemOnly.trans (h : MemOnly s t) (h2 : MemOnly t u) : MemOnly s u := ⟨by rw [h2.rest, h.rest]⟩

theorem MemOnly.foldl {α : Type} {f : State → α → State} (h : ∀ s x, MemOnly s (f s x)) (xs : List α) (s : State) : MemOnly s (xs.foldl f s) := by
  induction xs generalizing s with
  | nil => exact .refl s
  | cons x xs ih => exact (h s x).trans (ih _)

theorem MemOnly.input (h : MemOnly s t) : t.input = s.input := (congrArg State.input h.rest :)
theorem MemOnly.cores (h : MemOnly s t) : t.cores = s.cores := (congrArg State.cores h.rest :)
theorem MemOnly.waves (h : MemOnly s t) : t.waves = s.waves := (congrArg State.waves h.rest :)
theorem MemOnly.tasks (h : MemOnly s t) : t.tasks = s.tasks := (congrArg State.tasks h.rest :)
theorem MemOnly.nextGid (h : MemOnly s t) : t.nextGid = s.nextGid := (congrArg State.nextGid h.rest :)
theorem MemOnly.streams (h : MemOnly s t) : t.streams = s.streams := (congrArg State.streams h.rest :)
theorem MemOnly.outputs (h : MemOnly s t) : t.outputs = s.outputs := (congrArg State.outputs h.rest :)
theorem MemOnly.rasters (h : MemOnly s t) : t.rasters = s.rasters := (congrArg State.rasters h.rest :)
theorem MemOnly.outward (h : MemOnly s t) : t.outward = s.outward := (congrArg State.outward h.rest :)
theorem MemOnly.raster (h : MemOnly s t) (cl : Nat) : t.raster cl = s.raster cl := congrArg (kget ({} : Raster) cl) h.rasters

theorem Touched.memOnly {marks : List Nat} (h : Touched marks s t) : MemOnly s t := by
  rw [h.rest]
  exact ⟨rfl⟩

end Parts

theorem memOnly_touch (s : State) (tenant va : Nat) (write : Bool) : MemOnly s (touch s tenant va write) := (touch_touched s tenant va write).memOnly

theorem memOnly_touchRange (s : State) (tenant va bytes : Nat) (write : Bool) : MemOnly s (touchRange s tenant va bytes write) := by
  unfold touchRange
  split
  · exact .refl s
  · exact .foldl (fun t _ => memOnly_touch t tenant _ write) _ s

theorem memOnly_wrByte (s : State) (l : Loc) (b : Byte) : MemOnly s (wrByte s l b) := by cases l <;> exact ⟨rfl⟩

theorem memOnly_wrBytes (s : State) (l : Loc) (bs : List Byte) : MemOnly s (wrBytes s l bs) := by
  induction bs generalizing s l with
  | nil => exact .refl s
  | cons b r ih => exact (memOnly_wrByte s l b).trans (ih _ _)

theorem memOnly_clearPoison (s : State) (l : Loc) (n : Nat) : MemOnly s (clearPoison s l n) := ⟨by rw [clearPoison_rest]⟩

theorem memOnly_pokeVa (s : State) (who : Who) (va : Nat) (bs : List Byte) : MemOnly s (pokeVa s who va bs) := by
  refine .foldl (fun t p => ?_) _ s
  split
  · exact (memOnly_wrBytes t _ _).trans (memOnly_clearPoison _ _ _)
  · exact .refl t

theorem memOnly_wrVa (s : State) (who : Who) (va : Nat) (bs : List Byte) : MemOnly s (wrVa s who va bs) :=
  (memOnly_pokeVa s who va bs).trans (memOnly_touchRange _ _ _ _ _)

theorem memOnly_setWord32 (s : State) (who : Who) (va v : Nat) : MemOnly s (setWord32 s who va v) := memOnly_wrVa _ _ _ _

/-! ### Strip rings -/

theorem memOnly_hdrTouch (s : State) (tenant va : Nat) : MemOnly s (hdrTouch s tenant va) := memOnly_touchRange _ _ _ _ _

theorem memOnly_slotWr (s : State) (who : Who) (va i : Nat) (e : BitVec 128) : MemOnly s (slotWr s who va i e) := memOnly_wrVa _ _ _ _

theorem memOnly_beginSlot (s : State) (who : Who) (va i : Nat) : MemOnly s (beginSlot s who va i) := by
  simp only [beginSlot]
  split
  · exact (memOnly_touchRange _ _ _ _ _).trans (memOnly_slotWr _ _ _ _ _)
  · exact memOnly_touchRange _ _ _ _ _

theorem memOnly_ringFinish (s : State) (who : Who) (va i bit : Nat) : MemOnly s (ringFinish s who va i bit) := memOnly_slotWr _ _ _ _ _

end Sys2Proof.Laws
end
section
/-! PROOF. The strip timetable (R317, R318, R345): the cluster and the cores of a chain, its launch at a START, and what a FINISH makes late. -/

namespace Sys2Proof.Laws

open Sys2Proof.Machine

/-! ### The choice of a cluster (R317) -/

/-- The better of the choice so far and a candidate; on a tie the choice stands. -/
def better (f : Nat → Nat) (a : Option Nat) (k : Nat) : Option Nat :=
  match a with
  | some b => if f b < f k then some k else a
  | none => some k

/-- Along rising candidates the last choice is the first of the best. -/
theorem foldl_better (f : Nat → Nat) : ∀ {ks : List Nat} {b : Nat}, (b :: ks).Pairwise (· < ·) →
    ∃ k ∈ b :: ks, ks.foldl (better f) (some b) = some k ∧ ∀ j ∈ b :: ks, f j < f k ∨ (f j = f k ∧ k ≤ j)
  | [], b, _ => ⟨b, by simp, rfl, by simp⟩
  | x :: ks, b, h => by
    obtain ⟨hb, hx⟩ := List.pairwise_cons.1 h
    have hbx : b < x := hb x (by simp)
    by_cases hlt : f b < f x
    · obtain ⟨k, hk, hfold, hbest⟩ := foldl_better f hx
      refine ⟨k, List.mem_cons_of_mem _ hk, by simpa [better, hlt] using hfold, List.forall_mem_cons.2 ⟨?_, hbest⟩⟩
      rcases hbest x (by simp) with h | h <;> omega
    · obtain ⟨k, hk, hfold, hbest⟩ := foldl_better f (h.sublist ((List.sublist_cons_self x ks).cons_cons b))
      obtain ⟨hbk, hks⟩ := List.forall_mem_cons.1 hbest
      refine ⟨k, ?_, by simpa [better, hlt] using hfold, List.forall_mem_cons.2 ⟨hbk, List.forall_mem_cons.2 ⟨?_, hks⟩⟩⟩
      · rcases List.mem_cons.1 hk with rfl | hk <;> simp [*]
      · omega

/-- The render cores of a cluster that no chain holds. -/
abbrev freeRender (s : State) (k : Nat) : Nat :=
  ((clusterCores s k).filter (fun c => (s.core c).part == 0 && (s.core c).chains.isEmpty)).length

/-- The clusters on which a chain of some cores fits, rising. -/
def fitting (s : State) (n : Nat) : List Nat :=
  (List.range 32).filter (fun k => !(s.raster k).busy && decide (n ≤ (clusterCores s k).length))

theorem mem_fitting {s : State} {n k : Nat} : k ∈ fitting s n ↔ k < 32 ∧ (s.raster k).busy = false ∧ n ≤ (clusterCores s k).length := by
  simp [fitting]

theorem chainCluster_eq (s : State) (n : Nat) : chainCluster s n = (fitting s n).foldl (better (freeRender s)) none := rfl

theorem chainCluster_of_fitting {s : State} {n b : Nat} {ks : List Nat} (h : fitting s n = b :: ks) :
    ∃ k ∈ fitting s n, chainCluster s n = some k ∧
      ∀ j ∈ fitting s n, freeRender s j < freeRender s k ∨ (freeRender s j = freeRender s k ∧ k ≤ j) := by
  have hrise : (fitting s n).Pairwise (· < ·) := List.pairwise_lt_range.filter _
  rw [h] at hrise ⊢
  rw [chainCluster_eq, h]
  exact foldl_better (freeRender s) hrise

theorem chainCluster_none {s : State} {n : Nat} : chainCluster s n = none ↔ fitting s n = [] := by
  constructor
  · intro h
    cases hf : fitting s n with
    | nil => rfl
    | cons b ks =>
      obtain ⟨k, -, hk, -⟩ := chainCluster_of_fitting hf
      rw [h] at hk
      cases hk
  · intro h
    rw [chainCluster_eq, h]
    rfl

theorem chainCluster_some {s : State} {n k : Nat} (h : chainCluster s n = some k) : k ∈ fitting s n ∧
    ∀ j ∈ fitting s n, freeRender s j < freeRender s k ∨ (freeRender s j = freeRender s k ∧ k ≤ j) := by
  cases hf : fitting s n with
  | nil =>
    rw [chainCluster_none.2 hf] at h
    cases h
  | cons b ks =>
    obtain ⟨k', hmem, hk', hbest⟩ := chainCluster_of_fitting hf
    obtain rfl : k' = k := Option.some.inj (hk'.symm.trans h)
    rw [← hf]
    exact ⟨hmem, hbest⟩

/-! ### The cores of a chain (R317) -/

theorem clusterCores_rise (s : State) (k : Nat) : (clusterCores s k).Pairwise (· < ·) :=
  (List.pairwise_map.2 (List.pairwise_lt_range.imp fun h => Nat.add_lt_add_right h _)).filter _

/-- The order in which a chain takes the cores of its cluster: render cores first, then by number. -/
def takenBefore (s : State) (c d : Nat) : Prop :=
  ((s.core c).part = 0 ∧ (s.core d).part ≠ 0) ∨ (((s.core c).part = 0 ↔ (s.core d).part = 0) ∧ c < d)

/-- The cores of a cluster in that order. -/
def coreOrder (s : State) (k : Nat) : List Nat :=
  (clusterCores s k).filter (fun c => (s.core c).part == 0) ++ (clusterCores s k).filter (fun c => (s.core c).part != 0)

theorem coreOrder_perm (s : State) (k : Nat) : (coreOrder s k).Perm (clusterCores s k) := by
  exact List.filter_append_perm (fun c => (s.core c).part == 0) (clusterCores s k)

theorem coreOrder_pairwise (s : State) (k : Nat) : (coreOrder s k).Pairwise (takenBefore s) := by
  have hrise := clusterCores_rise s k
  refine List.pairwise_append.2 ⟨List.pairwise_filter.2 (hrise.imp ?_), List.pairwise_filter.2 (hrise.imp ?_), fun c hc d hd => .inl ?_⟩
  · intro c d hlt hc hd
    exact .inr ⟨by simp_all, hlt⟩
  · intro c d hlt hc hd
    exact .inr ⟨by simp_all, hlt⟩
  · simp only [List.mem_filter, beq_iff_eq, bne_iff_ne] at hc hd
    exact ⟨hc.2, hd.2⟩

theorem chainCores_eq (s : State) (k n : Nat) : chainCores s k n = (coreOrder s k).take n := rfl

theorem chainCores_nodup (s : State) (k n : Nat) : (chainCores s k n).Nodup :=
  ((coreOrder_perm s k).nodup_iff.2 ((clusterCores_rise s k).imp fun h => h.ne)).sublist (List.take_sublist n _)

/-- A core taken comes before each of its cluster that is not. -/
theorem chainCores_first {s : State} {k n c d : Nat} (hc : c ∈ chainCores s k n) (hd : d ∈ clusterCores s k) (hnot : d ∉ chainCores s k n) :
    takenBefore s c d := by
  have hin := (coreOrder_perm s k).mem_iff.2 hd
  rw [← List.take_append_drop n (coreOrder s k)] at hin
  have hpair := coreOrder_pairwise s k
  rw [← List.take_append_drop n (coreOrder s k)] at hpair
  exact (List.pairwise_append.1 hpair).2.2 c hc d ((List.mem_append.1 hin).resolve_left hnot)

/-! ### Emptying the cores keeps the task number (R317, R318) -/

theorem stowGroup_nextSeq (s : State) (g : Nat) (p : Place) : (stowGroup s g p).nextSeq = s.nextSeq := by
  unfold stowGroup
  split
  · rfl
  · rename_i x _
    refine (memIO_writeImage _ _ _ _ _).nextSeq.trans ?_
    cases x.core? <;> rfl

theorem dissolveChain_nextSeq (s : State) (g : Nat) : (dissolveChain s g).nextSeq = s.nextSeq := by
  refine foldl_keeps State.nextSeq (fun t q => ?_) _ s
  split <;> rfl

theorem stowContinuations_nextSeq (s : State) (g : Nat) : (stowContinuations s g).nextSeq = s.nextSeq :=
  foldl_keeps State.nextSeq (f := fun u (p : Nat × Group) => stowGroup u p.1 .saved) (fun u p => stowGroup_nextSeq u p.1 .saved) _ s

theorem evictGroup_nextSeq (s : State) (g : Nat) : (evictGroup s g).nextSeq = s.nextSeq := by
  refine foldl_keeps State.nextSeq (fun t q => ?_) _ s
  calc (stowContinuations (stowGroup (dissolveChains t q) q .saved) q).nextSeq
      = (stowGroup (dissolveChains t q) q .saved).nextSeq := stowContinuations_nextSeq _ _
    _ = (dissolveChains t q).nextSeq := stowGroup_nextSeq _ _ _
    _ = t.nextSeq := foldl_keeps State.nextSeq dissolveChain_nextSeq _ _

theorem emptyCores_nextSeq (s : State) (cs : List Nat) : (emptyCores s cs).nextSeq = s.nextSeq := by
  refine foldl_keeps State.nextSeq (fun t p => ?_) _ s
  split
  · exact evictGroup_nextSeq _ _
  · rfl

/-! ### A START (R317) -/

/-- A task published takes the next number. -/
theorem publish_seq {u p : State} {r : BitVec 512} {at_ : Word} {tenant ring depth id : Nat} {parent : Option Nat} {src : Source} {chain : Option Nat}
    {base : Record} (h : publish u r at_ tenant ring depth parent src chain base = .ok p id) : id = u.nextSeq := by
  unfold publish at h
  dsimp only at h
  repeat' split at h
  all_goals cases h
  all_goals rfl

section Start

variable {s u : State} {t : Timetable} {e : BitVec 512} {finish k id : Nat} {l : Loc}

/-- The cores that a chain takes: its own, as render cores, and emptied (R317, R318). -/
def coresTaken (s : State) (k n : Nat) : State :=
  emptyCores ((chainCores s k n).foldl (fun u c => u.modCore c (fun x => { x with part := 0, chains := s.nextSeq :: x.chains, moving := false })) s)
    (chainCores s k n)

theorem coresTaken_nextSeq (s : State) (k n : Nat) : (coresTaken s k n).nextSeq = s.nextSeq :=
  (emptyCores_nextSeq _ _).trans
    (foldl_keeps State.nextSeq (f := fun (u : State) c =>
        u.modCore c (fun x => { x with part := 0, chains := s.nextSeq :: x.chains, moving := false }))
      (fun _ _ => rfl) _ s)

theorem launchChain_published (hl : checkOne s { tenant := (s.ring t.ring).tenant } (tChain e) 64 64 { rd := true } .plain = .ok l)
    (hp : publish (touch (coresTaken s k (tCores e)) (s.ring t.ring).tenant (tChain e) false) (chainRecord (BitVec.ofNat 512 (rdN s l 64)))
      (w64 (tChain e)) (s.ring t.ring).tenant t.ring 1 none {} (some s.nextSeq)
      { cause := .recordInvalid, tenant := (s.ring t.ring).tenant } = .ok u id)
    (hr : ((u.task? id).map (·.state)) ≠ some .refused) :
    launchChain s t e finish k = some { u with
      chains := kset id { entry := e, head := id, cluster := k, cores := chainCores s k (tCores e), launched := u.ns, finish := finish }
        u.chains } := by
  have hid : id = s.nextSeq := (publish_seq hp).trans ((memIO_touch _ _ _ _).nextSeq.trans (coresTaken_nextSeq _ _ _))
  subst hid
  simp only [coresTaken] at hp
  simp only [launchChain, hl, hp, if_neg hr]

end Start

/-! ### The record of a chain's head (R317) -/

/-- A run of ones in a bit string. -/
theorem getLsbD_ones {m n lo : Nat} (h : lo + n ≤ m) (j : Nat) :
    (BitVec.ofNat m ((2 ^ n - 1) * 2 ^ lo)).getLsbD j = decide (lo ≤ j ∧ j < lo + n) := by
  rw [BitVec.getLsbD_ofNat, Nat.testBit_mul_two_pow, Nat.testBit_two_pow_sub_one, ← Bool.decide_and, ← Bool.decide_and, decide_eq_decide]
  omega

theorem testBit_bitsAt {n : Nat} (x : BitVec n) (lo w i : Nat) : (bitsAt x lo w).testBit i = (decide (i < w) && x.getLsbD (lo + i)) := by
  rw [bitsAt, Nat.testBit_mod_two_pow, Nat.testBit_div_two_pow, BitVec.getLsbD, Nat.add_comm]

/-- The record of a chain's head, bit by bit: at PRIO 7 and with PART 0, all else as it was read (R317). -/
theorem chainRecord_bit (r : BitVec 512) (i : Nat) :
    (chainRecord r).getLsbD i = if 226 ≤ i ∧ i < 231 then decide (228 ≤ i) else r.getLsbD i := by
  have hprio : (BitVec.ofNat 512 (7 * 2 ^ 228)).getLsbD i = decide (228 ≤ i ∧ i < 231) := getLsbD_ones (n := 3) (by omega) i
  have hclear : (BitVec.ofNat 512 (31 * 2 ^ 226)).getLsbD i = decide (226 ≤ i ∧ i < 231) := getLsbD_ones (n := 5) (by omega) i
  rw [chainRecord, BitVec.getLsbD_or, BitVec.getLsbD_and, BitVec.getLsbD_not, hprio, hclear]
  split
  next h => simp [h]
  next h =>
    have hlow : ¬ (228 ≤ i ∧ i < 231) := by omega
    by_cases hi : i < 512
    · simp [h, hlow, hi]
    · simp [hlow, hi, BitVec.getLsbD_of_ge r i (not_lt.1 hi)]

theorem chainRecord_prio (r : BitVec 512) : bitsAt (chainRecord r) 228 3 = 7 := by
  refine Nat.eq_of_testBit_eq fun i => ?_
  rw [testBit_bitsAt, chainRecord_bit, show 7 = 2 ^ 3 - 1 from rfl, Nat.testBit_two_pow_sub_one]
  by_cases hi : i < 3
  · simp [hi, show 226 ≤ 228 + i ∧ 228 + i < 231 by omega]
  · simp [hi]

theorem chainRecord_part (r : BitVec 512) : bitsAt (chainRecord r) 226 2 = 0 := by
  refine Nat.eq_of_testBit_eq fun i => ?_
  rw [testBit_bitsAt, chainRecord_bit, Nat.zero_testBit]
  by_cases hi : i < 2
  · simp [show 226 + i < 231 by omega, show ¬ 228 ≤ 226 + i by omega]
  · simp [hi]

section OnEntry

variable {s : State} {t : Timetable} {e : BitVec 512} (ht : s.table = some t) (he : t.entries[s.input.who]? = some e) (hv : tValid e = true)

include ht he hv

/-! ### STRIP_START (R317) -/

theorem stripStart_early (hr : replaceTable s = s)
    (h : s.ns < tStart e + kget 0 s.input.who t.started * tPeriod e ∨ (tPeriod e = 0 ∧ 0 < kget 0 s.input.who t.started)) :
    exec .stripStart s = .next s := by
  show execStripStart s = _
  simp only [execStripStart, hr, ht, he, hv]
  rcases h with h | h <;> simp [h]

theorem stripStart_due (hr : replaceTable s = s) (h : tStart e + kget 0 s.input.who t.started * tPeriod e ≤ s.ns)
    (h0 : tPeriod e = 0 → kget 0 s.input.who t.started = 0) : exec .stripStart s =
      match chainCluster s (tCores e) with
      | none => .next (countStart s s.input.who)
      | some k => match launchChain s t e (tFinish e + kget 0 s.input.who t.started * tPeriod e) k with
        | some u => .next (countStart u s.input.who)
        | none => .next s := by
  show execStripStart s = _
  simp only [execStripStart, hr, ht, he, hv]
  refine if_neg ?_
  have hnot : ¬ (tPeriod e = 0 ∧ 0 < kget 0 s.input.who t.started) := fun ⟨hp, hn⟩ => by have := h0 hp; omega
  simpa [h] using not_and.1 hnot

/-! ### STRIP_FINISH (R345) -/

theorem stripFinish_early
    (h : kget 0 s.input.who t.started ≤ kget 0 s.input.who t.finished ∨ s.ns < tFinish e + kget 0 s.input.who t.finished * tPeriod e) :
    exec .stripFinish s = .next s := by
  show execStripFinish s = _
  simp only [execStripFinish, ht, he, hv]
  rcases h with h | h <;> simp [h]

theorem stripFinish_unbound (h1 : kget 0 s.input.who t.finished < kget 0 s.input.who t.started)
    (h2 : tFinish e + kget 0 s.input.who t.finished * tPeriod e ≤ s.ns) {o : Output} (ho : kget {} (tOut e) s.outputs = o) (hb : o.bound = false) :
    exec .stripFinish s = .next (countFinish s s.input.who) := by
  show execStripFinish s = _
  simp only [execStripFinish, ht, he, hv]
  rw [if_neg (by simp [h1, h2])]
  simp only [ho, hb]
  rfl

/-- A bound output: its sequence is on time below PUB, else late for every hardware consumer of the ring (R345). -/
theorem stripFinish_bound (h1 : kget 0 s.input.who t.finished < kget 0 s.input.who t.started)
    (h2 : tFinish e + kget 0 s.input.who t.finished * tPeriod e ≤ s.ns) {o : Output} (ho : kget {} (tOut e) s.outputs = o) (hb : o.bound = true)
    {seen late : State} {h : BitVec 512} {q : Nat} (hh : ringHdr s { tenant := o.tenant } (bitsAt o.desc 0 56) = h)
    (hq : boundSeq t o (tOut e) s.input.who (kget 0 s.input.who t.finished) = q) (hseen : hdrTouch s o.tenant (bitsAt o.desc 0 56) = seen)
    (hlate : countLate seen { tenant := o.tenant } (bitsAt o.desc 0 56) (tOut e) q = late) :
    exec .stripFinish s = .next (countFinish (if seqDiff q (hPub h) < 0 then seen
      else (ringOutputs late { tenant := o.tenant } (bitsAt o.desc 0 56)).foldl (fun u p => skipStrip u p q (bitsAt e 128 32)) late) s.input.who) := by
  have hinput : seen.input = s.input := hseen ▸ (memOnly_hdrTouch _ _ _).input
  show execStripFinish s = _
  simp only [execStripFinish, ht, he, hv]
  rw [if_neg (by simp [h1, h2])]
  simp only [ho, hb, if_true, hh, hq, hseen, hlate, hinput, Bool.not_true, Bool.false_or, decide_eq_true_eq]
  split <;> rfl

end OnEntry

end Sys2Proof.Laws
end
section
/-! PROOF. The outputs (R342 to R345): a display's scan line, and an encoder's strip begun and coded. -/

namespace Sys2Proof.Laws

open Sys2Proof.Machine

/-! ### Displays (R343, R345) -/

theorem length_pixelBytes (pfmt : Nat) (xs : List Nat) : (pixelBytes pfmt xs).length = 4 * xs.length := by
  simp [pixelBytes, List.length_flatMap, Nat.mul_comm]

theorem length_slotLine (s : State) (who : Who) (h : BitVec 512) (i y width : Nat) : (slotLine s who h i y width).length = width := by
  simp [slotLine]

theorem outward_put {s u : State} (h : u.outward = s.outward) (x : Outward) : (Outward.put u x).outward = s.outward ++ [x] :=
  congrArg (· ++ [x]) h

/-- What a scanned line shows: a late strip's colour, or a line of the slot as it is begun, or free pixels (R343, R345; log 37). -/
inductive LineShown (s : State) (out : Nat) (o : Output) (who : Who) (h : BitVec 512) (y : Nat) : List Byte → Bool → Prop
  | late {c : Nat} (hc : stripSeen s out o who h = .late c) :
    LineShown s out o who h y (pixelBytes (oPfmt o.desc) (List.replicate (oWidth o.desc) c)) true
  | slot {i : Nat} (hi : stripSeen s out o who h = .slot i) :
    LineShown s out o who h y (pixelBytes (oPfmt o.desc)
      (slotLine (beginSlot (hdrTouch s o.tenant (oRing o.desc)) who (oRing o.desc) i) who h i (y % max (hLines h) 1) (oWidth o.desc))) false
  | no (xs : List Nat) (hx : xs.length = oWidth o.desc) (hn : stripSeen s out o who h = .no) :
    LineShown s out o who h y (pixelBytes (oPfmt o.desc) xs) false

section Shown

variable {s : State} {out y : Nat} {o : Output} {who : Who} {h : BitVec 512} {px : List Byte} {fill : Bool}

theorem LineShown.length (hshown : LineShown s out o who h y px fill) : px.length = 4 * oWidth o.desc := by
  cases hshown with
  | late => rw [length_pixelBytes, List.length_replicate]
  | slot => rw [length_pixelBytes, length_slotLine]
  | no xs hx => rw [length_pixelBytes, hx]

theorem LineShown.of_late (hshown : LineShown s out o who h y px fill) {c : Nat} (hc : stripSeen s out o who h = .late c) :
    fill = true ∧ px = pixelBytes (oPfmt o.desc) (List.replicate (oWidth o.desc) c) := by
  cases hshown with
  | late hd =>
    obtain rfl := StripSeen.late.inj (hc.symm.trans hd)
    exact ⟨rfl, rfl⟩
  | slot hi => exact StripSeen.noConfusion (hc.symm.trans hi)
  | no _ _ hn => exact StripSeen.noConfusion (hc.symm.trans hn)

theorem LineShown.of_slot (hshown : LineShown s out o who h y px fill) {i : Nat} (hi : stripSeen s out o who h = .slot i) :
    fill = false ∧ px = pixelBytes (oPfmt o.desc)
      (slotLine (beginSlot (hdrTouch s o.tenant (oRing o.desc)) who (oRing o.desc) i) who h i (y % max (hLines h) 1) (oWidth o.desc)) := by
  cases hshown with
  | late hc => exact StripSeen.noConfusion (hi.symm.trans hc)
  | slot hj =>
    obtain rfl := StripSeen.slot.inj (hi.symm.trans hj)
    exact ⟨rfl, rfl⟩
  | no _ _ hn => exact StripSeen.noConfusion (hi.symm.trans hn)

end Shown

section Display

variable {s : State} {out : Nat} {o : Output} (hw : s.input.who = out) (hlt : out < 4) (ho : kfind out s.outputs = some o)

include hw hlt ho

theorem displayScanLine_early (ht : s.time * 1000 < (oT0 o.desc * 1000 + o.line * oLinePs o.desc) * 2 ^ 32) : exec .displayScanLine s = .next s := by
  subst hw
  have hget : kget {} s.input.who s.outputs = o := by rw [kget, ho]; rfl
  show execDisplayScanLine s = _
  simp only [execDisplayScanLine, hget]
  exact if_pos (by rw [decide_eq_true ht, Bool.or_true])

theorem displayScanLine_due (hb : o.bound = true) (ht : (oT0 o.desc * 1000 + o.line * oLinePs o.desc) * 2 ^ 32 ≤ s.time * 1000) :
    (oHeight o.desc ≤ o.line % (oHeight o.desc + oVblank o.desc) →
      exec .displayScanLine s = .next (setOutput s out { o with line := o.line + 1, started := true })) ∧
    (o.line % (oHeight o.desc + oVblank o.desc) < oHeight o.desc → ∃ t px fill, exec .displayScanLine s = .next t ∧
      t.outward = s.outward ++ [.displayLine out (o.line % (oHeight o.desc + oVblank o.desc)) fill px] ∧
      (∃ o', kfind out t.outputs = some o' ∧ o'.line = o.line + 1) ∧
      LineShown s out o { tenant := o.tenant } (ringHdr s { tenant := o.tenant } (oRing o.desc)) (o.line % (oHeight o.desc + oVblank o.desc))
        px fill) := by
  subst hw
  have hget : kget {} s.input.who s.outputs = o := by rw [kget, ho]; rfl
  have hrun : ¬ (!o.bound || decide (4 ≤ s.input.who) || decide (s.time * 1000 < (oT0 o.desc * 1000 + o.line * oLinePs o.desc) * 2 ^ 32)) = true := by
    rw [hb, decide_eq_false (not_le.2 hlt), decide_eq_false (not_lt.2 ht)]
    exact Bool.false_ne_true
  refine ⟨fun hy => ?_, fun hy => ?_⟩
  · show execDisplayScanLine s = _
    simp only [execDisplayScanLine, hget]
    rw [if_neg hrun, if_pos hy]
  · have hhead := memOnly_hdrTouch s o.tenant (oRing o.desc)
    show ∃ t px fill, execDisplayScanLine s = _ ∧ _
    simp only [execDisplayScanLine, hget]
    rw [if_neg hrun, if_neg (not_le.2 hy)]
    cases hseen : stripSeen (hdrTouch s o.tenant (oRing o.desc)) s.input.who o { tenant := o.tenant }
      (ringHdr s { tenant := o.tenant } (oRing o.desc)) with
    | late c =>
      refine ⟨_, _, _, rfl, outward_put hhead.outward _, ⟨_, kfind_kset_same _ _ _, ?_⟩, .late hseen⟩
      split_ifs <;> rfl
    | slot i =>
      have hread (va n : Nat) := (hhead.trans (memOnly_beginSlot _ { tenant := o.tenant } (oRing o.desc) i)).trans
        (memOnly_touchRange _ o.tenant va n false)
      refine ⟨_, _, _, rfl, outward_put ?_ _, ⟨_, kfind_kset_same _ _ _, ?_⟩, .slot hseen⟩
      · show State.outward (ite _ _ _) = _
        split_ifs
        · exact ((hread _ _).trans (memOnly_ringFinish _ _ _ _ _)).outward
        · exact (hread _ _).outward
      · split_ifs <;> rfl
    | no =>
      refine ⟨_, _, _, rfl, outward_put ?_ _, ?_, .no _ ?_ hseen⟩
      · split_ifs <;> exact hhead.outward
      · show ∃ o', kfind _ (State.outputs (ite _ _ _)) = _ ∧ _
        split_ifs
        · refine ⟨_, (kfind_kmod _ _ _ _).trans ((if_pos rfl).trans (congrArg _ (kfind_kset_same _ _ _))), ?_⟩
          dsimp only
          split <;> rfl
        · exact ⟨_, kfind_kset_same _ _ _, rfl⟩
      · rw [List.length_map, List.length_range]

end Display

/-! ### Encoders (R344, R345) -/

section Encoder

variable {s : State} {out : Nat} {o : Output} {h : BitVec 512}

theorem kget_setOutput (s : State) (out : Nat) (o : Output) : kget {} out (setOutput s out o).outputs = o := kget_kset_same ..

/-- An encoder's next strip begun: a published slot is taken, a late strip is not read (R344, R345). -/
def stripBegun (s : State) (out : Nat) (o : Output) : StripSeen → State
  | .slot i => setOutput (beginSlot s { tenant := o.tenant } (oRing o.desc) i) out { o with coding := true, started := true }
  | .late _ => setOutput s out { o with coding := true, started := true }
  | .no => s

variable (hw : s.input.who = out) (hlo : 4 ≤ out) (hhi : out < 12) (ho : kfind out s.outputs = some o) (hb : o.bound = true)
  (hh : ringHdr s { tenant := o.tenant } (oRing o.desc) = h) (hl : hLines h = 64 ∨ hLines h = 128)

include hw hlo hhi ho hb hh hl

/-- An encoder at its ring: it begins a strip, or codes the one it has begun once its stream has room. -/
theorem encoderStrip_eq : exec .encoderStrip s = .next (if o.coding = false then
      stripBegun (hdrTouch s o.tenant (oRing o.desc)) out o (stripSeen s out o { tenant := o.tenant } h)
    else if streamOpen s o.func (oStream o.desc) = true then
      encodeStrip (hdrTouch s o.tenant (oRing o.desc)) out o { tenant := o.tenant } h (stripSeen s out o { tenant := o.tenant } h)
    else hdrTouch s o.tenant (oRing o.desc)) := by
  subst hw
  have hget : kget {} s.input.who s.outputs = o := by rw [kget, ho]; rfl
  have hrun : ¬ (!o.bound || decide (s.input.who < 4) || decide (12 ≤ s.input.who) || !(decide (hLines h = 64) || decide (hLines h = 128))) = true := by
    rw [hb, decide_eq_false (not_lt.2 hlo), decide_eq_false (not_le.2 hhi)]
    rcases hl with hl | hl <;> simp [hl]
  have hopen : streamOpen (hdrTouch s o.tenant (oRing o.desc)) = streamOpen s := by
    funext func n
    simp only [streamOpen, (memOnly_hdrTouch s o.tenant (oRing o.desc)).streams]
  show execEncoderStrip s = _
  simp only [execEncoderStrip, hget, hh]
  rw [if_neg hrun, hopen]
  cases o.coding
  · cases stripSeen s s.input.who o { tenant := o.tenant } h <;> rfl
  · simp only [Bool.not_true, Bool.false_eq_true, if_false]
    split <;> simp [*]

end Encoder

end Sys2Proof.Laws
end
section
/-! PROOF. The raster unit's steps (R320, R330, R333 to R335): a strip begins, a tile ends, and a wave is given a batch or told that its regions are
complete. -/

namespace Sys2Proof.Laws

open Sys2Proof.Machine

@[simp] theorem raster_modRaster (s : State) (cl : Nat) (f : Raster → Raster) : (s.modRaster cl f).raster cl = f (s.raster cl) :=
  kget_kset_same ..

/-! ### A strip begins (R330) -/

section Start

variable {s : State} {cl : Nat} (hw : s.input.who = cl)

include hw

theorem rasterStripStart_idle (h : (s.raster cl).busy = false ∨ (s.raster cl).started = true ∨ (s.raster cl).groups.length < (s.raster cl).nreg ∨
    (binSetAt s { tenant := (s.raster cl).tenant } (s.raster cl).binset.toNat).state ≠ 1) : exec .rasterStripStart s = .next s := by
  subst hw
  refine if_pos ?_
  rcases h with h | h | h | h <;> simp [h]

/-- The unit counts itself a reader of its bin set, and begins the first of its tiles. -/
theorem rasterStripStart_starts {b : BinSet} (hbin : binSetAt s { tenant := (s.raster cl).tenant } (s.raster cl).binset.toNat = b)
    (hb : (s.raster cl).busy = true) (hs : (s.raster cl).started = false) (hn : (s.raster cl).nreg ≤ (s.raster cl).groups.length)
    (hc : b.state = 1) : ∃ u, exec .rasterStripStart s = .next (loadTile u cl) ∧ (u.raster cl).started = true ∧ (u.raster cl).tiles =
      unitTiles (setWord32 s { tenant := (s.raster cl).tenant } (b.va + 36) ((b.readers + 1) % 2 ^ 32)) (s.raster cl).groups := by
  subst hw
  subst hbin
  refine ⟨_, if_neg ?_, ?_, ?_⟩
  · simp [hb, hs, hn, hc]
  · rw [raster_modRaster]
  · rw [raster_modRaster, (memOnly_setWord32 _ _ _ _).raster]

end Start

/-! ### A tile ends (R320, R330) -/

/-- The level and the streak after a tile of a strip chain's strip: by the shading-rate rule, unless it was the strip's last (R320). -/
def levelAfter (now : Nat) (r : Raster) (x : Chain) (rest : List (Nat × Nat)) : Nat × Nat :=
  if rest = [] then (r.level, x.streak)
  else shadeStep now x.launched (x.done + 1) (tTiles x.entry) x.finish (tGuard x.entry) (tCeil x.entry) r.level x.streak

/-- A tile of a strip chain's strip counted, with the unit at the level that follows. -/
def tileCounted (s : State) (cl c : Nat) (x : Chain) (n : Nat × Nat) : State :=
  State.modRaster { s with chains := kset c { x with done := x.done + 1, streak := n.2 } s.chains } cl (fun r => { r with level := n.1 })

/-- The unit at its next tiles. -/
def nextTiles (s : State) (cl : Nat) (rest : List (Nat × Nat)) : State := s.modRaster cl (fun r => { r with tiles := rest })

section TileEnd

variable {s : State} {cl : Nat}

theorem rasterTileEnd_last (hw : s.input.who = cl) (ht : (s.raster cl).tiles = []) : exec .rasterTileEnd s = .next (unitSettle s cl) := by
  subst hw
  show execRasterTileEnd s = _
  simp only [execRasterTileEnd, ht]

variable {p : Nat × Nat} {rest : List (Nat × Nat)}

theorem rasterTileEnd_open (hw : s.input.who = cl) (ht : (s.raster cl).tiles = p :: rest)
    (h : (s.raster cl).started = false ∨ ∃ f ∈ (s.raster cl).frags, f.owner = none) : exec .rasterTileEnd s = .next s := by
  subst hw
  show execRasterTileEnd s = _
  simp only [execRasterTileEnd, ht]
  refine if_pos ?_
  rcases h with h | ⟨f, hf, ho⟩
  · simp [h]
  · rw [Bool.or_eq_true, List.any_eq_true]
    exact .inr ⟨f, hf, by rw [ho]; rfl⟩

/-- With the tile's fragments all delivered the next one begins. -/
theorem rasterTileEnd_delivered (hw : s.input.who = cl) (ht : (s.raster cl).tiles = p :: rest) (hs : (s.raster cl).started = true)
    (hf : ∀ f ∈ (s.raster cl).frags, f.owner ≠ none) : exec .rasterTileEnd s = .next (loadTile (nextTiles (match unitChain s cl with
      | some (c, x) => tileCounted s cl c x (levelAfter s.ns (s.raster cl) x rest)
      | none => s) cl rest) cl) := by
  subst hw
  have hdone : ¬ (!(s.raster s.input.who).started || (s.raster s.input.who).frags.any (fun f => f.owner.isNone)) = true := by
    rw [hs, Bool.not_true, Bool.false_or, List.any_eq_true]
    rintro ⟨f, hmem, hnone⟩
    exact hf f hmem (Option.isNone_iff_eq_none.1 hnone)
  show execRasterTileEnd s = _
  simp only [execRasterTileEnd, ht]
  rw [if_neg hdone]
  cases unitChain s s.input.who with
  | none => rfl
  | some q => simp only [nextTiles, tileCounted, levelAfter, List.isEmpty_iff]

end TileEnd

/-! ### Delivery (R334, R335) -/

/-- The fragments a waiting wave can be given, each with the lane that takes it. -/
def giveable (s : State) (k : Nat) (w : Wave) : List (Nat × Nat) :=
  ((deliverable s (gidOf k) [] (s.raster (clusterOf s k)).frags 0).zip (lanesOf w.path)).take 32

/-- A wave handed a batch, or the report that there is none to come: it waits no longer. -/
def handed (m : LaneMask) (w : Wave) : Wave := { w with wait := .none, batch := some m }

/-- The fragments of a unit as a wave's lanes take them. -/
def fragsTaken (k : Nat) (give : List (Nat × Nat)) (r : Raster) : Raster :=
  { r with frags := r.frags.mapIdx (fun i f => match give.find? (fun p => p.1 = i) with
    | some p => { f with owner := some (k, p.2) }
    | none => f) }

/-- A group told that its regions are complete. -/
def groupTold (g : Group) : Group := { g with raster := g.raster.map (fun b => { b with told := true }) }

/-- A wave that waits for neither a unit nor a bin set is none that a unit wakes. -/
theorem wave?_unitSettle {s : State} {k : Nat} {w : Wave} (hw : s.wave? k = some w) (h1 : w.wait ≠ .rasterUnit) (h2 : w.wait ≠ .binReaders) (cl : Nat) :
    (unitSettle s cl).wave? k = some w := by
  have woken {t : State} (ht : t.waves = s.waves) : (wakeAll (wakeAll t .rasterUnit) .binReaders).wave? k = some w := by
    have hstands := wave?_wakeAll .rasterUnit ((congrArg (kfind k) ht).trans hw)
    rw [if_neg h1] at hstands
    rw [wave?_wakeAll .binReaders hstands, if_neg h2]
  simp only [unitSettle]
  split
  · refine woken ?_
    split <;> exact (memIO_setWord32 _ _ _ _).waves
  · exact hw

section Delivery

variable {s : State} {k : Nat} {w : Wave} (hk : s.input.who = k) (hw : s.wave? k = some w)

include hk hw

theorem fragmentBatch_other (h : w.wait ≠ .fragBatch) : exec .fragmentBatch s = .next s := by
  subst hk
  show execFragmentBatch s = _
  simp only [execFragmentBatch, hw]
  exact if_pos h

/-- A waiting wave is given what can be delivered; where there is nothing it is told so once its group's regions are complete. -/
theorem fragmentBatch_waiting (h : w.wait = .fragBatch) : exec .fragmentBatch s = .next (
    if giveable s k w = [] then
      if regionsDone s (clusterOf s k) (gidOf k) = true then
        unitSettle ((s.modGroup (gidOf k) groupTold).modWave k (handed 0)) (clusterOf s k)
      else s
    else (s.modRaster (clusterOf s k) (fragsTaken k (giveable s k w))).modWave k
      (handed (maskOf (fun l => (giveable s k w).any (fun p => p.2 = l))))) := by
  subst hk
  show execFragmentBatch s = _
  simp only [execFragmentBatch, hw]
  rw [if_neg (not_not.2 h)]
  by_cases hg : giveable s s.input.who w = []
  · rw [if_pos hg]
    refine (if_pos (List.isEmpty_iff.2 hg)).trans ?_
    split <;> rfl
  · rw [if_neg hg]
    exact if_neg (mt List.isEmpty_iff.1 hg)

end Delivery

end Sys2Proof.Laws
end
section
/-! PROOF. Timetables, outputs and the raster unit together (R317, R320, R329, R330, R333 to R335, R342 to R345). -/

namespace Sys2Proof.Laws

open Sys2Proof.Machine

/-- Settles O46: an equation for each step by the state its unit is in. The chain's record names its head by the number the task was published under,
which emptying the cores leaves as it was (`coresTaken_nextSeq`). -/
theorem stripsOutputsAndRaster : Obligations.StripsOutputsAndRaster := by
  unfold Obligations.StripsOutputsAndRaster
  refine ⟨fun s t e hr ht he hv => ?start, fun s n => ⟨?noCluster, fun k hk => ?cluster⟩, fun s k n hn => ⟨?count, chainCores_nodup s k n, ?cores⟩,
    fun s t e finish k l u id hl hp hr => ⟨launchChain_published hl hp hr, chainRecord_prio _, chainRecord_part _, fun i hi => ?record⟩,
    fun s t e ht he hv => ⟨fun h => stripFinish_early ht he hv h, fun h1 h2 => ?finish⟩,
    fun s out o hw hlt ho hb => ⟨displayScanLine_early hw hlt ho, fun ht => ⟨(displayScanLine_due hw hlt ho hb ht).1, fun hy => ?line⟩⟩,
    fun s out o hw hlo hhi ho hb hl => ?encoder, fun s cl hw => ⟨rasterStripStart_idle hw, rasterStripStart_starts hw rfl⟩,
    fun s cl hw => ⟨rasterTileEnd_last hw, fun p rest ht => ⟨rasterTileEnd_open hw ht, fun hs hf hc => ?noChain, fun hs hf c x hc => ?chain⟩⟩,
    fun s k w hk hw => ⟨fragmentBatch_other hk hw, fun h hg => ?given, fun h hg hr => ?waits, fun h hg hr => ?told⟩⟩
  case start =>
    refine ⟨fun h => stripStart_early ht he hv hr (.inl h), fun hp hn => stripStart_early ht he hv hr (.inr ⟨hp, hn⟩), fun h h0 => ?_⟩
    have hdue := stripStart_due ht he hv hr h h0
    refine ⟨fun hc => ?_, fun k hc => ⟨fun u hu => ?_, fun hu => ?_⟩⟩
    · simpa only [hc] using hdue
    · simpa only [hc, hu] using hdue
    · simpa only [hc, hu] using hdue
  case noCluster => rw [chainCluster_none, List.eq_nil_iff_forall_not_mem]; exact forall_congr' fun k => not_congr mem_fitting
  case cluster => exact ⟨mem_fitting.1 (chainCluster_some hk).1, fun j hj => (chainCluster_some hk).2 j (mem_fitting.2 hj)⟩
  case count => rw [chainCores_eq, List.length_take, (coreOrder_perm s k).length_eq, min_eq_left hn]
  case cores =>
    exact fun c hc => ⟨(coreOrder_perm s k).mem_iff.1 (List.mem_of_mem_take hc), fun d hd hnot => chainCores_first hc hd hnot⟩
  case record => rw [chainRecord_bit, if_neg (by omega)]
  case finish =>
    refine ⟨fun hb => stripFinish_unbound ht he hv h1 h2 rfl hb, fun hb hq => ?_, fun hb hq => ?_⟩
    · exact (stripFinish_bound ht he hv h1 h2 rfl hb rfl rfl rfl rfl).trans (by rw [if_pos hq])
    · exact (stripFinish_bound ht he hv h1 h2 rfl hb rfl rfl rfl rfl).trans (by rw [if_neg hq])
  case line =>
    obtain ⟨t, px, fill, hexec, hout, hline, hshown⟩ := (displayScanLine_due hw hlt ho hb ht).2 hy
    refine ⟨t, px, fill, hexec, hout, ?_, hline, ?_⟩
    · exact hshown.length
    · exact ⟨fun c hc => hshown.of_late hc, fun i hi => hshown.of_slot hi⟩
  case encoder =>
    have hrun := encoderStrip_eq hw hlo hhi ho hb rfl hl
    have coding (hc : o.coding = true) : ¬ o.coding = false := by simp [hc]
    refine ⟨fun h => ?_, fun hc => ⟨fun c hs => ?_, fun i hs => ?_⟩, fun hc hopen c hs => ?_, fun hc hopen i hs => ?_⟩
    · rcases h with hs | ⟨hc, hclosed⟩
      · rw [hrun, hs]
        split_ifs <;> rfl
      · rw [hrun, if_neg (coding hc), if_neg (by rw [hclosed]; exact Bool.false_ne_true)]
    · rw [hrun, if_pos hc, hs]; rfl
    · rw [hrun, if_pos hc, hs]; rfl
    · rw [if_neg (coding hc), if_pos hopen, hs] at hrun
      exact ⟨_, hrun, rfl, rfl, rfl⟩
    · rw [if_neg (coding hc), if_pos hopen, hs] at hrun
      refine ⟨_, hrun, ?_, ?_, ?_⟩ <;> rw [kget_setOutput]
  case noChain => rw [rasterTileEnd_delivered hw ht hs hf, hc]; rfl
  case chain =>
    refine ⟨nextTiles (tileCounted s cl c x (levelAfter s.ns (s.raster cl) x rest)) cl rest, ?_, ?_, ?_, ?_⟩
    · rw [rasterTileEnd_delivered hw ht hs hf, hc]
    · rw [nextTiles, raster_modRaster]
    · rw [nextTiles, raster_modRaster, tileCounted, raster_modRaster]; rfl
    · exact kfind_kset_same _ _ _
  case given =>
    refine ⟨_, handed _ w, (fragmentBatch_waiting hk hw h).trans (congrArg _ (if_neg hg)), ?_, rfl⟩
    rw [wave?_modWave_same]
    exact congrArg _ hw
  case waits =>
    refine (fragmentBatch_waiting hk hw h).trans (congrArg _ ((if_pos hg).trans (if_neg ?_)))
    rw [hr]
    exact Bool.false_ne_true
  case told =>
    refine ⟨_, handed 0 w, (fragmentBatch_waiting hk hw h).trans (congrArg _ ((if_pos hg).trans (if_pos hr))), ?_, rfl, rfl⟩
    refine wave?_unitSettle ?_ (fun h => Wait.noConfusion h) (fun h => Wait.noConfusion h) _
    rw [wave?_modWave_same]
    exact congrArg _ hw

end Sys2Proof.Laws
end
section
/-! PROOF. The order of the ready set, who is barred, and what a core can take (R305 to R307). -/

namespace Sys2Proof.Laws

open Sys2Proof.Machine

/-! ### The order (R305) -/

theorem keyLe_iff {a b : Nat × Nat × Nat × Nat} : keyLe a b = true ↔ a.1 < b.1 ∨ a.1 = b.1 ∧ (a.2.1 < b.2.1 ∨ a.2.1 = b.2.1 ∧
    (a.2.2.1 < b.2.2.1 ∨ a.2.2.1 = b.2.2.1 ∧ a.2.2.2 ≤ b.2.2.2)) := by
  simp [keyLe]

theorem keyLe_trans {a b c : Nat × Nat × Nat × Nat} (h : keyLe a b = true) (h2 : keyLe b c = true) : keyLe a c = true := by
  rw [keyLe_iff] at *
  omega

theorem keyLe_total {a b : Nat × Nat × Nat × Nat} (h : keyLe a b = false) : keyLe b a = true := by
  rw [Bool.eq_false_iff, ne_eq, keyLe_iff] at h
  rw [keyLe_iff]
  omega

theorem readySet_sorted (s : State) : (readySet s).Pairwise (fun a b => keyLe (Cand.key s a) (Cand.key s b) = true) :=
  sortBy_sorted (le := fun a b => keyLe (Cand.key s a) (Cand.key s b)) (fun _ _ _ => keyLe_trans) (fun _ _ => keyLe_total) _

theorem mem_readySet_start {s : State} {q : Nat} :
    Cand.start q ∈ readySet s ↔ ∃ t, (q, t) ∈ s.tasks ∧ t.state = .ready ∧ t.next < recGroups t := by
  rw [readySet, (sortBy_perm _ _).mem_iff]
  simp

theorem mem_readySet_image {s : State} {g : Nat} : Cand.image g ∈ readySet s ↔ ∃ x, (g, x) ∈ s.groups ∧ imageListed s g x = true := by
  rw [readySet, (sortBy_perm _ _).mem_iff]
  simp

/-! ### The candidate an agent takes (R306, R307) -/

theorem barred_iff {s : State} {c : Nat} {x : Cand} : barred s c x = true ↔ ∃ y ∈ readySet s, Cand.prio s x < Cand.prio s y ∧
    (Cand.part s y = 2 ∨ Cand.part s y = (s.core c).part) ∧ (Cand.marked s y = true ∨ overdue s y = true) := by
  simp [barred, and_assoc]

theorem pick_first {s : State} {c : Nat} {x : Cand} {cs : List Nat} (h : pick s c = some (x, cs)) : placeAt s c x = some cs ∧ barred s c x = false ∧
    ∃ xs ys, readySet s = xs ++ x :: ys ∧ ∀ y ∈ xs, placeAt s c y = none ∨ barred s c y = true := by
  obtain ⟨xs, y, ys, hset, hy, hbefore⟩ := List.findSome?_eq_some_iff.1 h
  cases hp : placeAt s c y with
  | none => simp [hp] at hy
  | some ds =>
    cases hbar : barred s c y with
    | true => simp [hp, hbar] at hy
    | false =>
      obtain ⟨rfl, rfl⟩ : y = x ∧ ds = cs := by simpa [hp, hbar] using hy
      refine ⟨hp, hbar, xs, ys, hset, fun z hz => ?_⟩
      have hz := hbefore z hz
      cases hpz : placeAt s c z with
      | none => exact .inl rfl
      | some es => exact .inr (by simpa [hpz] using hz)

/-- What a core must have to take a group of a task now (R306). -/
def takesStart (s : State) (c : Nat) (t : Task) : Prop :=
  partialReady s c = none ∧ coreAvail s c = true ∧ (recPart t = 2 ∨ recPart t = (s.core c).part) ∧
    (t.chain = none → (s.core c).moving = false ∧ (s.core c).chains = []) ∧ (∀ h, t.chain = some h → h ∈ (s.core c).chains) ∧
    recWaves t ≤ freeSlots s c ∧ recWaves t * recRegs t ≤ freeRegs s c ∧ recLs t ≤ freeLs s c ∧ recAcc t ≤ freeAcc s c ∧
    (0 < recAcc t → ∀ p ∈ residents s c, p.2.matrix = false) ∧ poolRoom s c .ready 1 = true ∧
    (t.chain = none → budgetOk s t.tenant (shareOf (decide (0 < recAcc t)) (recWaves t) (recRegs t) (recLs t) (recAcc t)) 0 = true) ∧
    (imgReserve s t.ring (recLs t) (recAcc t)).isSome = true

theorem coreAdmits_iff {s : State} {c part : Nat} {chain : Option Nat} : coreAdmits s c part chain = true ↔
    coreAvail s c = true ∧ (part = 2 ∨ part = (s.core c).part) ∧ (chain = none → (s.core c).moving = false ∧ (s.core c).chains = []) ∧
      ∀ h, chain = some h → h ∈ (s.core c).chains := by
  cases chain <;> simp [coreAdmits, partAdmits, and_assoc]

theorem coreFits_task {s : State} {c : Nat} {t : Task} : coreFits s c (taskWant t) = true ↔
    recWaves t ≤ freeSlots s c ∧ recWaves t * recRegs t ≤ freeRegs s c ∧ recLs t ≤ freeLs s c ∧ recAcc t ≤ freeAcc s c ∧
      (0 < recAcc t → ∀ p ∈ residents s c, p.2.matrix = false) := by
  have hmatrix : (!((taskWant t).matrix && (residents s c).any (fun p => p.2.matrix))) = true ↔
      (0 < recAcc t → ∀ p ∈ residents s c, p.2.matrix = false) := by
    by_cases h : 0 < recAcc t <;> simp [taskWant, h]
  simp only [coreFits, Bool.and_eq_true, decide_eq_true_eq, hmatrix, and_assoc]
  rfl

theorem takesStart_iff {s : State} {c : Nat} {t : Task} : (restFree s c && canStart s c t) = true ↔ takesStart s c t := by
  have hbudget (b : Bool) : (t.chain.isSome || b) = true ↔ (t.chain = none → b = true) := by cases t.chain <;> simp
  simp only [restFree, canStart, takesStart, Bool.and_eq_true, coreAdmits_iff, coreFits_task, hbudget, Option.isNone_iff_eq_none, and_assoc]

theorem placeAt_start {s : State} {c q : Nat} {t : Task} (ht : s.task? q = some t) (hc : recCrew t ≤ 1) :
    placeAt s c (.start q) = if restFree s c && canStart s c t then some [c] else none := by
  simp only [placeAt, placeOn, ht, if_pos hc]

end Sys2Proof.Laws
end
section
/-! PROOF. The gather unit's batches and the retirement of a task (R23, R28, R35, R40, R91). -/

namespace Sys2Proof.Laws

open Sys2Proof.Machine

/-! ### The oldest waiting thread (R40) -/

/-- The older of two threads; of two as old the first. -/
def older (a b : Thread) : Thread := if b.stamp < a.stamp then b else a

theorem foldl_older (ts : List Thread) (a : Thread) : ts.foldl older a ∈ a :: ts ∧ ∀ b ∈ a :: ts, (ts.foldl older a).stamp ≤ b.stamp := by
  induction ts generalizing a with
  | nil => simp
  | cons x ts ih =>
    rw [List.foldl_cons]
    by_cases hlt : x.stamp < a.stamp
    · rw [show older a x = x from if_pos hlt]
      obtain ⟨hmem, hold⟩ := ih x
      have hfirst := hold x (by simp)
      exact ⟨List.mem_cons_of_mem _ hmem, List.forall_mem_cons.2 ⟨by omega, hold⟩⟩
    · rw [show older a x = a from if_neg hlt]
      obtain ⟨hmem, hold⟩ := ih a
      obtain ⟨hfirst, hrest⟩ := List.forall_mem_cons.1 hold
      exact ⟨((List.sublist_cons_self x ts).cons_cons a).subset hmem,
        List.forall_mem_cons.2 ⟨hfirst, List.forall_mem_cons.2 ⟨by omega, hrest⟩⟩⟩

/-- The threads that wait on a core for a wave. -/
abbrev waitingOn (s : State) (c : Nat) : List Thread := s.threads.filter (fun t => t.core = c && t.batch.isNone)

theorem gatherTimeout_idle {s : State} {c : Nat} (hc : s.input.who = c) (h : waitingOn s c = []) : exec .gatherTimeout s = .next s := by
  subst hc
  show execGatherTimeout s = _
  simp only [execGatherTimeout, ← List.head?_filter, h]
  rfl

/-- The timeout is that of the oldest thread of those waiting. -/
theorem gatherTimeout_oldest {s : State} {c : Nat} (hc : s.input.who = c) (h : waitingOn s c ≠ []) :
    ∃ a ∈ waitingOn s c, (∀ b ∈ waitingOn s c, a.stamp ≤ b.stamp) ∧
      exec .gatherTimeout s = .next (if a.stamp + (s.core c).gatherM1 + 1 ≤ s.cycle then markBatch s a 32 else s) := by
  subst hc
  obtain ⟨t0, ts, hts⟩ := List.exists_cons_of_ne_nil h
  obtain ⟨hmem, hold⟩ := foldl_older (t0 :: ts) t0
  refine ⟨(t0 :: ts).foldl older t0, ?_, ?_, ?_⟩
  · rw [hts]
    simpa using hmem
  · rw [hts]
    exact fun b hb => hold b (List.mem_cons_of_mem _ hb)
  · show execGatherTimeout s = _
    simp only [execGatherTimeout, ← List.head?_filter, hts, List.head?_cons]
    exact (apply_ite Host.Outcome.next _ _ _).symm

/-! ### A batch placed (R35, R40, R91) -/

/-- The threads of a batch. -/
abbrev batchOf (s : State) (b : Nat) : List Thread := s.threads.filter (fun t => t.batch == some b)

theorem gatherCore_some {s : State} {b : Nat} {p : Nat × Word} (h : gatherCore s b = some p) :
    ∃ x y, (batchOf s b).head? = some x ∧ s.task? x.seq = some y := by
  unfold gatherCore at h
  rw [← List.head?_filter] at h
  cases hx : (batchOf s b).head? with
  | none => simp [hx] at h
  | some x =>
    cases hy : s.task? x.seq with
    | none => simp [hx, hy] at h
    | some y => exact ⟨x, y, rfl, hy⟩

/-- The part of a wave that its threads' own registers leave as it is. -/
def issuePart (w : Wave) : LaneMask × LaneMask × Word × Nat := (w.path, w.present, w.pc, w.regCount)

/-- Gathering gives lane i thread i, at the batch's entry with its registers (R35, R40). -/
theorem gatheredWave_issue (ts : List Thread) : issuePart (gatheredWave ts) = (maskOf (fun l => decide (l < ts.length)),
    maskOf (fun l => decide (l < ts.length)), (ts.head?.map (·.entry)).getD 0, (ts.head?.map (·.regs)).getD 8) := by
  simp only [gatheredWave]
  split
  all_goals
    refine foldl_keeps issuePart (fun w p => ?_) _ _
    exact foldl_keeps issuePart (f := fun w (q : Nat × Word) => wrV w q.1 p.1 q.2) (fun _ _ => rfl) p.2.v w

/-- A batch started: its group and its one wave, on a core whose read-only cache is empty. -/
theorem startGathered_eq {s : State} {b : Nat} {x : Thread} {y : Task} (hx : (batchOf s b).head? = some x) (hy : s.task? x.seq = some y) (c : Nat)
    (img : Word) : ∃ g : Group, g.seq = y.seq ∧ g.place = .resident c ∧ g.img = img ∧ g.nwaves = 1 ∧ startGathered s b c img =
      (({ roInvalidate s c with nextGid := s.nextGid + 1, threads := s.threads.filter (fun t => t.batch != some b) } : State).setGroup s.nextGid g).setWave
        (keyOf s.nextGid 0) { gatheredWave (batchOf s b) with role := bitsAt (recRole y) 0 2 } := by
  simp only [startGathered, hx, hy]
  exact ⟨_, rfl, rfl, rfl, rfl, rfl⟩

theorem core_roInvalidate (s : State) (c : Nat) : (roInvalidate s c).core c = { s.core c with roCache := [] } :=
  core_modCore_same s c (fun k => { k with roCache := [] })

theorem gatheredWavePlace_none {s : State} (h : gatherCore s s.input.who = none) : exec .gatheredWavePlace s = .next s := by
  show execGatheredWavePlace s = _
  simp only [execGatheredWavePlace, h]

theorem gatheredWavePlace_some {s : State} {c : Nat} {a : Word} (h : gatherCore s s.input.who = some (c, a)) :
    exec .gatheredWavePlace s = .next (startGathered s s.input.who c a) := by
  show execGatheredWavePlace s = _
  simp only [execGatheredWavePlace, h]

/-! ### Retirement (R23) -/

theorem taskRetire_eq (s : State) : exec .taskRetire s = .next (if canRetire s s.input.who then retireTask s s.input.who else s) := by
  show execTaskRetire s = _
  unfold execTaskRetire
  split <;> rfl

theorem canRetire_of_settled {s : State} {q : Nat} {t : Task} (ht : s.task? q = some t) (hs : t.state = .ready) (hn : recGroups t ≤ t.next)
    (he : recGroups t ≤ t.exitedGroups) (hg : ∀ p ∈ s.groups, p.2.seq ≠ q) (hh : ∀ h ∈ s.threads, h.seq ≠ q)
    (hd : ∀ p ∈ s.tasks, p.2.parent = some q → p.2.state ≠ .armed ∧ p.2.state ≠ .ready) : canRetire s q = true := by
  have hchildren : s.tasks.all (fun p => p.2.parent != some q || !(p.2.state == .armed || p.2.state == .ready)) = true := by
    refine List.all_eq_true.2 fun p hp => ?_
    by_cases hparent : p.2.parent = some q
    · obtain ⟨h1, h2⟩ := hd p hp hparent
      simp [h1, h2]
    · simp [hparent]
  have hgroups : s.groups.all (fun p => p.2.seq != q) = true := List.all_eq_true.2 fun p hp => by simpa using hg p hp
  have hthreads : s.threads.all (fun h => h.seq != q) = true := List.all_eq_true.2 fun h hmem => by simpa using hh h hmem
  simp only [canRetire, ht, hs, hchildren, hgroups, hthreads, decide_eq_true hn, decide_eq_true he]
  rfl

theorem canRetire_running {s : State} {q : Nat} {t : Task} (ht : s.task? q = some t) (he : t.exitedGroups < recGroups t) : canRetire s q = false := by
  simp only [canRetire, ht, decide_eq_false (not_le.2 he), Bool.and_false, Bool.false_and]

end Sys2Proof.Laws
end
section
/-! PROOF. What an agent does on its core (R20, R270, R282, R304 to R308): the steps that place and restore, and a group as it starts. -/

namespace Sys2Proof.Laws

open Sys2Proof.Machine

/-! ### Claims of other groups (R28, R29) -/

/-- Serving claims has left a group and its waves, the tasks and a core's read-only cache alone, and none of its waves has a claim queued there. -/
structure ClaimsApart (c gid : Nat) (s t : State) : Prop where
  group : t.group? gid = s.group? gid
  wave : ∀ k, gidOf k = gid → t.wave? k = s.wave? k
  task : ∀ q, t.task? q = s.task? q
  nextGid : t.nextGid = s.nextGid
  roCache : (t.core c).roCache = (s.core c).roCache
  claims : ∀ k ∈ (t.core c).claims, gidOf k ≠ gid

theorem ne_of_gidOf {j k gid : Nat} (hj : gidOf j = gid) (hk : gidOf k ≠ gid) : j ≠ k := by
  rintro rfl
  exact hk hj

section Apart

variable {c gid : Nat} {s t u : State}

theorem ClaimsApart.refl (h : ∀ k ∈ (s.core c).claims, gidOf k ≠ gid) : ClaimsApart c gid s s := ⟨rfl, fun _ _ => rfl, fun _ => rfl, rfl, rfl, h⟩

theorem ClaimsApart.trans (h : ClaimsApart c gid s t) (h2 : ClaimsApart c gid t u) : ClaimsApart c gid s u where
  group := h2.group.trans h.group
  wave := fun k hk => (h2.wave k hk).trans (h.wave k hk)
  task := fun q => (h2.task q).trans (h.task q)
  nextGid := h2.nextGid.trans h.nextGid
  roCache := h2.roCache.trans h.roCache
  claims := h2.claims

/-- The head of the queue leaves it. -/
theorem claimsApart_unqueued {k : Nat} {r : List Nat} (h : ∀ j ∈ k :: r, gidOf j ≠ gid) :
    ClaimsApart c gid s (s.modCore c (fun x => { x with claims := r })) where
  group := rfl
  wave := fun _ _ => rfl
  task := fun _ => rfl
  nextGid := rfl
  roCache := by simp
  claims := by simpa using (List.forall_mem_cons.1 h).2

/-- A claim of another group is served. -/
theorem claimsApart_serveClaim {k n : Nat} (hk : gidOf k ≠ gid) (hq : ∀ j ∈ (s.core c).claims, gidOf j ≠ gid) :
    ClaimsApart c gid s (serveClaim s c k n) := by
  unfold serveClaim
  split
  · exact ⟨group?_setGroup_ne _ hk.symm _, fun j hj => wave?_setWave_ne _ (ne_of_gidOf hj hk) _, fun _ => rfl, rfl, rfl, hq⟩
  · exact .refl hq

theorem claimsApart_claimDone {k : Nat} (hk : gidOf k ≠ gid) (hq : ∀ j ∈ (s.core c).claims, gidOf j ≠ gid) :
    ClaimsApart c gid s (claimDone s c k) where
  group := rfl
  wave := fun j hj => by
    rw [claimDone_eq, wave?_modWave_ne _ (ne_of_gidOf hj hk), wave?_modCore]
  task := fun _ => rfl
  nextGid := rfl
  roCache := by rw [claimDone_eq, core_modWave, core_modCore_same]
  claims := by rw [claimDone_eq, core_modWave, core_modCore_same]; exact hq

theorem claimsApart_serveClaims (n : Nat) : ∀ {s : State},
    (∀ k ∈ (s.core c).claims, gidOf k ≠ gid) → ClaimsApart c gid s (serveClaims c n s) := by
  induction n with
  | zero => exact fun h => .refl h
  | succ n ih =>
    intro s h
    cases hq : (s.core c).claims with
    | nil => rw [serveClaims_empty hq]; exact .refl h
    | cons k r =>
      rw [hq] at h
      have hk := (List.forall_mem_cons.1 h).1
      cases hw : s.wave? k with
      | none =>
        have hleft := claimsApart_unqueued (c := c) (s := s) h
        simp only [serveClaims, hq, hw]
        exact hleft.trans (ih hleft.claims)
      | some w =>
        cases hf : claimFits s c k ((w.claim.map (·.1)).getD 0) with
        | false => rw [serveClaims_held hq hw hf]; exact .refl (hq ▸ h)
        | true =>
          rw [serveClaims_fits hq hw rfl hf]
          have hserved := claimsApart_serveClaim (c := c) (s := s) (n := (w.claim.map (·.1)).getD 0) hk (hq ▸ h)
          have hleft := hserved.trans (claimsApart_unqueued h)
          have hhead := hleft.trans (claimsApart_claimDone hk hleft.claims)
          exact hhead.trans (ih hhead.claims)

/-- A group none of whose waves has a claim queued on its core is in no claim deadlock (R29). -/
theorem claimDeadlock_unqueued {x : Group} (hx : s.group? gid = some x) (hc : x.core? = some c) (h : ∀ k ∈ (s.core c).claims, gidOf k ≠ gid) :
    claimDeadlock s gid = none := by
  simp only [claimDeadlock, hx, hc]
  refine if_pos ?_
  cases hws : (s.wavesOf gid).filter (fun p => !p.2.ended && !p.2.evicted) with
  | nil => rfl
  | cons p r =>
    have hp : p ∈ s.wavesOf gid := (List.mem_filter.1 (hws ▸ List.mem_cons_self : p ∈ (s.wavesOf gid).filter _)).1
    have hgid : gidOf p.1 = gid := by simpa using (List.mem_filter.1 hp).2
    have hnot : p.1 ∉ (s.core c).claims := fun hin => h _ hin hgid
    simp [hnot]

theorem claimsApart_settle {x : Group} (hx : s.group? gid = some x) (hc : x.core? = some c) (h : ∀ k ∈ (s.core c).claims, gidOf k ≠ gid) :
    ClaimsApart c gid s (settleGroups s [gid]) := by
  have hserved := claimsApart_serveClaims ((s.core c).claims.length + 1) h
  have hfree := claimDeadlock_unqueued (hserved.group.trans hx) hc hserved.claims
  simpa only [settleGroups, List.foldl_cons, List.foldl_nil, hx, Option.bind_some, hc, settleClaims, breakDeadlock, hfree] using hserved

end Apart

/-! ### A group starts (R20, R91, R282, R304) -/

/-- A wave of a group as its launch image and its record have it (R20, R25). -/
def launchedAt (x : Group) (t : Wave) (i : Nat) : Wave :=
  { wrS t 0 x.arg with waveid := i, role := bitsAt x.roleMap (2 * i) 2, regCount := x.regs, key := { seq := x.seq, groupid := x.groupid, waveid := i } }

theorem launchWaves_eq (x : Group) (t : Wave) : launchWaves x t = (List.range x.nwaves).map (fun i => (keyOf x.gid i, launchedAt x t i)) := rfl

/-- Waves listed under the keys of a group, one after another. -/
def withWaves (s : State) (gid : Nat) (f : Nat → Wave) (n : Nat) : State := (List.range n).foldl (fun u i => u.setWave (keyOf gid i) (f i)) s

theorem wave?_withWaves (s : State) (gid : Nat) (f : Nat → Wave) {n i : Nat} (hi : i < n) : (withWaves s gid f n).wave? (keyOf gid i) = some (f i) := by
  induction n with
  | zero => omega
  | succ n ih =>
    rw [withWaves, List.range_succ, List.foldl_append]
    by_cases h : i = n
    · subst h
      exact wave?_setWave_same _ _ _
    · have hne : keyOf gid i ≠ keyOf gid n := fun e => h (Nat.add_left_cancel e)
      exact (wave?_setWave_ne _ hne _).trans (ih (by omega))

theorem withWaves_keeps {γ : Type} (part : State → γ) (h : ∀ u k w, part (State.setWave u k w) = part u) (s : State) (gid : Nat) (f : Nat → Wave)
    (n : Nat) : part (withWaves s gid f n) = part s := foldl_keeps part (fun u _ => h u _ _) _ s

/-- A group has taken its local store and its waves from its launch image (R282). -/
structure Filled (s : State) (gid : Nat) (x : Group) (i : LaunchImage) (u : State) : Prop where
  group : u.group? gid = some { x with ls := i.ls, lsTags := i.tags, launchFault := false }
  waves : ∀ n, n < x.nwaves → u.wave? (keyOf x.gid n) = some (launchedAt x i.wave n)
  cores : u.cores = s.cores
  tasks : u.tasks = s.tasks
  nextGid : u.nextGid = s.nextGid

theorem fillGroup_read {s : State} {gid : Nat} {x : Group} {i : LaunchImage} (hx : s.group? gid = some x)
    (hi : readLaunch s x.tenant x.image.toNat x.regs x.lsKib x.depth = .ok i) (hc : i.wave.claim = none) : Filled s gid x i (fillGroup s gid) := by
  have hread := memOnly_touchRange s x.tenant x.image.toNat (leNat (rdVa s { tenant := x.tenant } x.image.toNat 4) % 2 ^ 31) false
  have hfill : fillGroup s gid = withWaves (State.setGroup (touchRange s x.tenant x.image.toNat (leNat (rdVa s { tenant := x.tenant } x.image.toNat 4) %
      2 ^ 31) false) gid { x with ls := i.ls, lsTags := i.tags, launchFault := false }) x.gid (launchedAt x i.wave) x.nwaves := by
    simp only [fillGroup, hx, hi]
    rw [launchWaves_eq, List.foldl_map]
    refine List.foldl_ext _ _ _ fun u j hj => ?_
    simp only [launchedAt, wrS, hc]
  rw [hfill]
  exact {
    group := (withWaves_keeps (fun u => u.group? gid) (fun _ _ _ => rfl) _ _ _ _).trans (group?_setGroup_same _ _ _)
    waves := fun n hn => wave?_withWaves _ _ _ hn
    cores := (withWaves_keeps State.cores (fun _ _ _ => rfl) _ _ _ _).trans hread.cores
    tasks := (withWaves_keeps State.tasks (fun _ _ _ => rfl) _ _ _ _).trans hread.tasks
    nextGid := (withWaves_keeps State.nextGid (fun _ _ _ => rfl) _ _ _ _).trans hread.nextGid }

/-- The next group of a task listed on a core, before its image is read. -/
def groupListed (s : State) (q c : Nat) (t : Task) (a : Word) : State :=
  State.setGroup { (roInvalidate (s.modTask q (fun x => { x with
      next := x.next + 1, readyAt := s.time, overdue := false, started := if t.next = 0 then s.draw else t.started })) c) with nextGid := s.nextGid + 1 }
    s.nextGid (groupOf t s.nextGid t.next c a)

theorem core_of_cores {s u : State} (h : u.cores = s.cores) (c : Nat) : u.core c = s.core c := congrArg (kget ({} : Core) c) h

theorem core_setGroup_nextGid (u : State) (m g : Nat) (x : Group) (c : Nat) : (State.setGroup { u with nextGid := m } g x).core c = u.core c := rfl

theorem core_groupListed (s : State) (q c : Nat) (t : Task) (a : Word) : (groupListed s q c t a).core c = { s.core c with roCache := [] } := by
  rw [groupListed, core_setGroup_nextGid, core_roInvalidate]
  rfl

theorem gidOf_keyOf {g n : Nat} (h : n < 32) : gidOf (keyOf g n) = g := by
  unfold gidOf keyOf
  omega

theorem place_start {s : State} {q : Nat} {t : Task} (ht : s.task? q = some t) {a : Word}
    (ha : imgReserve s t.ring (recLs t) (recAcc t) = some a) (c : Nat) :
    place s (.start q) [c] = settleGroups (fillGroup (groupListed s q c t a) s.nextGid) [s.nextGid] := by
  simp only [place, List.foldl_cons, List.foldl_nil, ht, ha, List.length_singleton, List.range_one, List.map_cons, List.map_nil, Nat.zero_add]
  rfl

/-- What the start of a group leaves: the group on its core with its image's local store and its waves, the core's read-only cache empty, and its
task at its next group. -/
structure Started (s : State) (q c : Nat) (t : Task) (i : LaunchImage) (u : State) : Prop where
  group : ∃ g, u.group? s.nextGid = some g ∧ g.place = .resident c ∧ g.groupid = t.next ∧ g.seq = t.seq ∧ g.ls = i.ls
  nextGid : u.nextGid = s.nextGid + 1
  roCache : (u.core c).roCache = []
  task : ∃ t', u.task? q = some t' ∧ t'.next = t.next + 1 ∧ t'.overdue = false ∧ t'.started = if t.next = 0 then s.draw else t.started
  waves : ∀ n, n < recWaves t → ∃ w, u.wave? (keyOf s.nextGid n) = some w ∧ w.waveid = n ∧ w.pc = i.wave.pc ∧ rdS w 0 = recArg t ∧
    w.role = bitsAt (recRole t) (2 * n) 2 ∧ w.regCount = recRegs t

theorem started_place {s : State} {q c : Nat} {t : Task} {a : Word} {i : LaunchImage} (ht : s.task? q = some t)
    (ha : imgReserve s t.ring (recLs t) (recAcc t) = some a) (hw : recWaves t ≤ 32)
    (hi : readLaunch (groupListed s q c t a) t.tenant (recImage t).toNat (recRegs t) (recLs t) t.depth = .ok i) (hc : i.wave.claim = none)
    (hq : ∀ k ∈ (s.core c).claims, gidOf k ≠ s.nextGid) : Started s q c t i (place s (.start q) [c]) := by
  have hfill : Filled (groupListed s q c t a) s.nextGid (groupOf t s.nextGid t.next c a) i _ := fillGroup_read (group?_setGroup_same _ _ _) hi hc
  have hcore : (fillGroup (groupListed s q c t a) s.nextGid).core c = { s.core c with roCache := [] } := by
    rw [core_of_cores hfill.cores, core_groupListed]
  have hclaims : ∀ k ∈ ((fillGroup (groupListed s q c t a) s.nextGid).core c).claims, gidOf k ≠ s.nextGid := by
    rw [hcore]
    exact hq
  have hsettled := claimsApart_settle (c := c) hfill.group rfl hclaims
  rw [place_start ht ha]
  exact {
    group := ⟨_, hsettled.group.trans hfill.group, rfl, rfl, rfl, rfl⟩
    nextGid := hsettled.nextGid.trans hfill.nextGid
    roCache := by rw [hsettled.roCache, hcore]
    task := by
      refine ⟨_, (hsettled.task q).trans ((congrArg (kfind q) hfill.tasks).trans ((task?_modTask s q q _).trans ((if_pos rfl).trans (by rw [ht]; rfl)))),
        rfl, rfl, rfl⟩
    waves := fun n hn => by
      refine ⟨_, (hsettled.wave _ (gidOf_keyOf (by omega))).trans (hfill.waves n hn), rfl, rfl, ?_, rfl, rfl⟩
      exact (rdS_wrS i.wave 0 0 (recArg t)).trans (if_pos rfl) }

end Sys2Proof.Laws
end
section
/-! PROOF. The steps of a core's agent, pre-emption and the balancer (R282, R304 to R308, R313, R314, R319). -/

namespace Sys2Proof.Laws

open Sys2Proof.Machine

/-! ### The steps that place and restore (R282, R304 to R307) -/

section Agent

variable {s : State} {c : Nat} (hc : s.input.who = c)
include hc

/-- A KIND 4 image that its core can take comes before all (R305). -/
theorem agent_partial {k : Nat} (h : partialReady s c = some k) :
    exec .imageRestore s = .next (settleGroups (restoreWave s k) [gidOf k]) ∧ exec .groupPlace s = .next s ∧ exec .crewPlace s = .next s := by
  subst hc
  refine ⟨?_, ?_, ?_⟩
  · show execImageRestore s = _
    simp only [execImageRestore, h]
  · show execGroupPlace s = _
    simp only [execGroupPlace, h]
  · show execCrewPlace s = _
    simp only [execCrewPlace, h]

theorem agent_idle (h : partialReady s c = none) (hp : pick s c = none) :
    exec .groupPlace s = .next s ∧ exec .crewPlace s = .next s ∧ exec .imageRestore s = .next (reportCrews s) := by
  subst hc
  refine ⟨?_, ?_, ?_⟩
  · show execGroupPlace s = _
    simp only [execGroupPlace, h, hp]
  · show execCrewPlace s = _
    simp only [execCrewPlace, h, hp]
  · show execImageRestore s = _
    simp only [execImageRestore, h, hp]

theorem agent_image {g : Nat} {cs : List Nat} (h : partialReady s c = none) (hp : pick s c = some (.image g, cs)) :
    exec .imageRestore s = .next (place s (.image g) cs) ∧ exec .groupPlace s = .next s ∧ exec .crewPlace s = .next s := by
  subst hc
  refine ⟨?_, ?_, ?_⟩
  · show execImageRestore s = _
    simp only [execImageRestore, h, hp]
  · show execGroupPlace s = _
    simp only [execGroupPlace, h, hp]
  · show execCrewPlace s = _
    simp only [execCrewPlace, h, hp]

theorem groupPlace_start {q : Nat} {cs : List Nat} (h : partialReady s c = none) (hp : pick s c = some (.start q, cs)) :
    exec .groupPlace s = .next (if Cand.crew s (.start q) ≤ 1 then place s (.start q) cs else s) := by
  subst hc
  show execGroupPlace s = _
  simp only [execGroupPlace, h, hp]
  exact (apply_ite Host.Outcome.next _ _ _).symm

theorem crewPlace_start {q : Nat} {cs : List Nat} (h : partialReady s c = none) (hp : pick s c = some (.start q, cs)) :
    exec .crewPlace s = .next (if Cand.crew s (.start q) ≤ 1 then s else place s (.start q) cs) := by
  subst hc
  show execCrewPlace s = _
  simp only [execCrewPlace, h, hp]
  exact (apply_ite Host.Outcome.next _ _ _).symm

end Agent

/-- The one core of a group picked has slots for its waves (R306). -/
theorem recWaves_le_of_pick {s : State} {c q : Nat} {t : Task} (ht : s.task? q = some t) (hcrew : recCrew t ≤ 1) {cs : List Nat}
    (hp : pick s c = some (.start q, cs)) : recWaves t ≤ 32 := by
  have hplace := (pick_first hp).1
  rw [placeAt_start ht hcrew, Option.ite_none_right_eq_some] at hplace
  obtain ⟨-, -, -, -, -, hslots, -⟩ := takesStart_iff.1 hplace.1
  exact hslots.trans (Nat.sub_le _ _)

/-! ### Pre-emption (R308) -/

/-- The candidate is one that pre-emption serves: marked or overdue, and barred by none. -/
def dueAt (s : State) (c : Nat) (x : Cand) : Bool := (Cand.marked s x || overdue s x) && !barred s c x

/-- What pre-emption finds for a candidate. -/
def dueTurn (s : State) (c : Nat) (x : Cand) : Option (Cand × State) := if dueAt s c x then (preempt s c x).map (fun t => (x, t)) else none

/-- The machine after that. -/
def afterTurn (s : State) (c : Nat) : Option (Cand × State) → State
  | none => s
  | some (x, t) => match placeOn t (restFree s) c x with
    | some cs => place t x cs
    | none => t

theorem dueTurn_none {s : State} {c : Nat} {x : Cand} (h : dueAt s c x = false ∨ preempt s c x = none) : dueTurn s c x = none := by
  unfold dueTurn
  rcases h with h | h <;> simp [h]

theorem dueTurn_some {s t : State} {c : Nat} {x : Cand} (h : dueAt s c x = true) (ht : preempt s c x = some t) : dueTurn s c x = some (x, t) := by
  simp [dueTurn, h, ht]

section Expiry

variable {s : State} {c : Nat} (hc : s.input.who = c)
include hc

theorem preWaitExpiry_resting {e : Nat} (he : (s.core c).lastEvict = some e) (h : s.time < e + 100000 * 2 ^ 32) : exec .preWaitExpiry s = .next s := by
  subst hc
  show execPreWaitExpiry s = _
  simp only [execPreWaitExpiry, he, decide_eq_false (not_le.2 h)]
  rfl

theorem preWaitExpiry_partial (h : (partialReady s c).isSome = true) : exec .preWaitExpiry s = .next s := by
  subst hc
  show execPreWaitExpiry s = _
  simp only [execPreWaitExpiry, h, Bool.or_true]
  rfl

/-- Once the interval has passed, the first due candidate that eviction makes room for is placed. -/
theorem preWaitExpiry_rested (hr : ∀ e, (s.core c).lastEvict = some e → e + 100000 * 2 ^ 32 ≤ s.time) (hp : partialReady s c = none) :
    exec .preWaitExpiry s = .next (afterTurn s c ((readySet s).findSome? (dueTurn s c))) := by
  subst hc
  show execPreWaitExpiry s = _
  unfold execPreWaitExpiry
  refine (if_neg ?_).trans ?_
  · cases he : (s.core s.input.who).lastEvict with
    | none => simp [hp]
    | some e => simpa [hp] using hr e he
  · split
    next hturn => exact congrArg (fun o => Host.Outcome.next (afterTurn s s.input.who o)) hturn.symm
    next y t hturn =>
      refine .trans ?_ (congrArg (fun o => Host.Outcome.next (afterTurn s s.input.who o)) hturn.symm)
      split
      next cs hplace => simp only [afterTurn, hplace]
      next hplace => simp only [afterTurn, hplace]

end Expiry

/-! ### The balancer (R313, R314, R319) -/

theorem getLast?_eq_of_max {l : List Nat} (h : l.Pairwise (· < ·)) {c : Nat} (hc : c ∈ l) (hmax : ∀ d ∈ l, d ≤ c) : l.getLast? = some c := by
  obtain ⟨ys, a, rfl⟩ := (List.eq_nil_or_concat l).resolve_left (List.ne_nil_of_mem hc)
  rw [List.concat_eq_append] at *
  rw [List.getLast?_concat]
  have hlt := (List.pairwise_append.1 h).2.2 c
  have hle := hmax a (by simp)
  rcases List.mem_append.1 hc with hin | hin
  · have := hlt hin a (by simp)
    omega
  · rw [List.mem_singleton.1 hin]

theorem head?_eq_of_min {l : List Nat} (h : l.Pairwise (· < ·)) {c : Nat} (hc : c ∈ l) (hmin : ∀ d ∈ l, c ≤ d) : l.head? = some c := by
  cases l with
  | nil => cases hc
  | cons a r =>
    rcases List.mem_cons.1 hc with rfl | hin
    · rfl
    · have hlt := (List.pairwise_cons.1 h).1 c hin
      have hle := hmin a List.mem_cons_self
      omega

/-- The available cores. -/
def serving (s : State) : List Nat := (List.range 256).filter (coreAvail s)

/-- The available render cores that no chain holds. -/
def idleRender (s : State) : List Nat := (serving s).filter (fun c => (s.core c).part == 0 && (s.core c).chains.isEmpty)

/-- The available compute cores. -/
def computeSide (s : State) : List Nat := (serving s).filter (fun c => (s.core c).part == 1)

/-- The core the balancer marks, if any (R314). -/
def nextMark (s : State) : Option Nat :=
  if (serving s).any (fun c => (s.core c).moving) then none
  else if (idleRender s).length < demand s ∧ s.devCfg.computeMin < (computeSide s).length then
    ((computeSide s).filter (fun c => (s.core c).chains.isEmpty)).getLast?
  else if demand s < (idleRender s).length then (idleRender s).find? (fun c => (residents s c).all (fun p => p.2.agent))
  else none

/-- A core, if any, marked to change partition. -/
def marking (s : State) : Option Nat → State
  | some c => s.modCore c (fun k => { k with moving := true })
  | none => s

theorem mem_serving {s : State} {c : Nat} : c ∈ serving s ↔ c < 256 ∧ coreAvail s c = true := by simp [serving]

theorem mem_idleRender {s : State} {c : Nat} :
    c ∈ idleRender s ↔ c < 256 ∧ coreAvail s c = true ∧ (s.core c).part = 0 ∧ (s.core c).chains = [] := by
  simp [idleRender, mem_serving, and_assoc]

theorem mem_computeSide {s : State} {c : Nat} : c ∈ computeSide s ↔ c < 256 ∧ coreAvail s c = true ∧ (s.core c).part = 1 := by
  simp [computeSide, mem_serving, and_assoc]

theorem serving_sorted (s : State) : (serving s).Pairwise (· < ·) := List.pairwise_lt_range.filter _

theorem idleRender_length (s : State) : (idleRender s).length =
    ((List.range 256).filter (fun c => coreAvail s c && (s.core c).part == 0 && (s.core c).chains.isEmpty)).length := by
  rw [idleRender, serving, List.filter_filter]
  exact congrArg List.length (List.filter_congr fun c _ => by rw [Bool.and_comm, Bool.and_assoc])

theorem computeSide_length (s : State) : (computeSide s).length = ((List.range 256).filter (fun c => coreAvail s c && (s.core c).part == 1)).length := by
  rw [computeSide, serving, List.filter_filter]
  exact congrArg List.length (List.filter_congr fun c _ => Bool.and_comm _ _)

theorem loadBalancer_early {s : State} (h : s.ns < s.lastBalance + 100000) : exec .loadBalancer s = .next s := if_pos h

theorem loadBalancer_due {s : State} (h : s.lastBalance + 100000 ≤ s.ns) :
    exec .loadBalancer s = .next (marking { s with lastBalance := s.ns } (nextMark s)) := by
  refine (if_neg (not_lt.2 h)).trans ?_
  unfold nextMark
  by_cases hm : (serving s).any (fun c => (s.core c).moving) = true
  · rw [if_pos hm]
    exact if_pos hm
  rw [if_neg hm]
  refine (if_neg hm).trans ?_
  by_cases hfew : (idleRender s).length < demand s ∧ s.devCfg.computeMin < (computeSide s).length
  · rw [if_pos hfew]
    exact if_pos hfew
  rw [if_neg hfew]
  refine (if_neg hfew).trans ?_
  by_cases hmany : demand s < (idleRender s).length
  · rw [if_pos hmany]
    exact if_pos hmany
  rw [if_neg hmany]
  exact if_neg hmany

section Mark

variable {s : State}

theorem chains_of_nextMark {c : Nat} (h : nextMark s = some c) : (s.core c).chains = [] := by
  unfold nextMark at h
  split at h
  · cases h
  split at h
  · simpa using (List.mem_filter.1 (List.mem_of_getLast? h)).2
  split at h
  · exact (mem_idleRender.1 (List.mem_of_find?_eq_some h)).2.2.2
  · cases h

theorem nextMark_moving (h : ∃ c, c < 256 ∧ coreAvail s c = true ∧ (s.core c).moving = true) : nextMark s = none := by
  obtain ⟨c, hc, ha, hm⟩ := h
  exact if_pos (List.any_eq_true.2 ⟨c, mem_serving.2 ⟨hc, ha⟩, hm⟩)

section Still

variable (hstill : ∀ c, c < 256 → coreAvail s c = true → (s.core c).moving = false)
include hstill

theorem nextMark_still : nextMark s = if (idleRender s).length < demand s ∧ s.devCfg.computeMin < (computeSide s).length then
      ((computeSide s).filter (fun c => (s.core c).chains.isEmpty)).getLast?
    else if demand s < (idleRender s).length then (idleRender s).find? (fun c => (residents s c).all (fun p => p.2.agent))
    else none := by
  refine if_neg fun h => ?_
  obtain ⟨c, hc, hm⟩ := List.any_eq_true.1 h
  obtain ⟨hlt, ha⟩ := mem_serving.1 hc
  rw [hstill c hlt ha] at hm
  cases hm

/-- With too few render cores the highest-numbered compute core without a chain is marked. -/
theorem nextMark_compute (hfew : (idleRender s).length < demand s) (hmin : s.devCfg.computeMin < (computeSide s).length) {c : Nat}
    (hc : c ∈ computeSide s) (hchain : (s.core c).chains = []) (hmax : ∀ d ∈ computeSide s, (s.core d).chains = [] → d ≤ c) :
    nextMark s = some c := by
  rw [nextMark_still hstill, if_pos ⟨hfew, hmin⟩]
  refine getLast?_eq_of_max (((serving_sorted s).filter _).filter _) (List.mem_filter.2 ⟨hc, by simp [hchain]⟩) fun d hd => ?_
  obtain ⟨hd, he⟩ := List.mem_filter.1 hd
  exact hmax d hd (by simpa using he)

/-- With too many the lowest-numbered idle render core is marked. -/
theorem nextMark_render (hmany : demand s < (idleRender s).length) {c : Nat} (hc : c ∈ idleRender s)
    (hidle : ∀ p ∈ residents s c, p.2.agent = true) (hmin : ∀ d ∈ idleRender s, (∀ p ∈ residents s d, p.2.agent = true) → c ≤ d) :
    nextMark s = some c := by
  rw [nextMark_still hstill, if_neg (by omega), if_pos hmany, ← List.head?_filter]
  refine head?_eq_of_min (((serving_sorted s).filter _).filter _) (List.mem_filter.2 ⟨hc, by simpa using hidle⟩) fun d hd => ?_
  obtain ⟨hd, he⟩ := List.mem_filter.1 hd
  exact hmin d hd (by simpa using he)

theorem nextMark_min (hfew : (idleRender s).length < demand s) (hmin : (computeSide s).length ≤ s.devCfg.computeMin) : nextMark s = none := by
  rw [nextMark_still hstill, if_neg (by omega), if_neg (by omega)]

theorem nextMark_met (h : (idleRender s).length = demand s) : nextMark s = none := by
  rw [nextMark_still hstill, if_neg (by omega), if_neg (by omega)]

end Still

end Mark

/-- A marked core changes partition once its residents allow it (R314). -/
theorem partitionMoveComplete_eq (s : State) : exec .partitionMoveComplete s = .next (
    if (s.core s.input.who).moving && (residents s s.input.who).all (fun p => p.2.part == 2 || p.2.part == 1 - (s.core s.input.who).part) then
      s.modCore s.input.who (fun k => { k with part := 1 - (s.core s.input.who).part, moving := false })
    else s) := by
  show execPartitionMoveComplete s = _
  exact (apply_ite Host.Outcome.next _ _ _).symm

end Sys2Proof.Laws
end
section
/-! PROOF. The statement about agents, pre-emption and the balancer. -/

namespace Sys2Proof.Laws

open Sys2Proof.Machine

/-- A batch is placed as a group of one wave with a lane for each thread (R35, R40, R91). -/
theorem startGathered_spec {s : State} {b c : Nat} {a : Word} (h : gatherCore s b = some (c, a)) : ∃ g w x, (batchOf s b).head? = some x ∧
    (startGathered s b c a).group? s.nextGid = some g ∧ g.place = .resident c ∧ g.img = a ∧ g.nwaves = 1 ∧
    ((startGathered s b c a).core c).roCache = [] ∧ (∀ y, s.task? x.seq = some y → g.seq = y.seq) ∧
    (startGathered s b c a).nextGid = s.nextGid + 1 ∧ (startGathered s b c a).threads = s.threads.filter (fun t => t.batch != some b) ∧
    (startGathered s b c a).wave? (keyOf s.nextGid 0) = some w ∧ w.path = maskOf (fun l => decide (l < (batchOf s b).length)) ∧ w.present = w.path ∧
    w.pc = x.entry ∧ w.regCount = x.regs ∧ ∀ y, s.task? x.seq = some y → w.role = bitsAt (recRole y) 0 2 := by
  obtain ⟨x, y, hx, hy⟩ := gatherCore_some h
  obtain ⟨g, hseq, hplace, himg, hwaves, heq⟩ := startGathered_eq hx hy c a
  have hissue := gatheredWave_issue (batchOf s b)
  rw [hx] at hissue
  obtain ⟨hpath, hpresent, hpc, hregs⟩ : _ ∧ _ ∧ _ ∧ _ := by simpa only [issuePart, Prod.mk.injEq] using hissue
  rw [heq]
  refine ⟨g, _, x, hx, group?_setGroup_same _ _ _, hplace, himg, hwaves, ?_, ?_, rfl, rfl, wave?_setWave_same _ _ _, hpath, hpresent.trans hpath.symm, hpc,
    hregs, ?_⟩
  · exact congrArg Core.roCache (core_roInvalidate s c)
  · exact fun z hz => by rw [hseq, Option.some.inj (hy.symm.trans hz)]
  · exact fun z hz => by rw [Option.some.inj (hy.symm.trans hz)]

/-- The balancer marks at most one core, one without a chain. -/
theorem core_marking {s : State} {o : Option Nat} (ho : ∀ c, o = some c → (s.core c).chains = []) (c : Nat) :
    (marking s o).core c = s.core c ∨ (marking s o).core c = { s.core c with moving := true } ∧ (s.core c).chains = [] := by
  cases o with
  | none => exact .inl rfl
  | some d =>
    by_cases h : c = d
    · subst h
      exact .inr ⟨core_modCore_same _ _ _, ho c rfl⟩
    · exact .inl (core_modCore_ne _ h _)

theorem eq_of_core_marking {s : State} {o : Option Nat} {c : Nat} (h : (marking s o).core c ≠ s.core c) : o = some c := by
  cases o with
  | none => exact absurd rfl h
  | some d =>
    by_cases hcd : c = d
    · rw [hcd]
    · exact absurd (core_modCore_ne _ hcd _) h

theorem marking_rest (s : State) (o : Option Nat) : marking s o = { s with cores := (marking s o).cores } := by cases o <;> rfl

/-- Settles O47: an equation for each step of an agent, of pre-emption and of the balancer, and the order of the ready set. The waves of a group
that starts keep what the launch image gave them because no claim queued on its core is theirs (`ClaimsApart`). -/
theorem agentsPlaceAndRetire : Obligations.AgentsPlaceAndRetire := by
  unfold Obligations.AgentsPlaceAndRetire
  refine ⟨fun s c hc => ⟨fun hyoung => ?young, fun a ha hold => ?old⟩, fun s b hb => ⟨fun h => ?noBatch, fun c a h => ?batch⟩,
    fun s q t hq ht hs hn he hg hh hd => ?retires, fun s q t hq ht he => ?runs, fun s => (readySet_sorted s).imp keyLe_iff.1, fun s q t ht => ?startKey,
    fun s g x hx => ?imageKey, fun s q => mem_readySet_start, fun s g => mem_readySet_image, fun s c x cs => pick_first, fun s c x => barred_iff,
    fun s c q t ht hcrew => ⟨fun hok => ?takes, fun hok => ?refuses⟩,
    fun s c hc => ⟨fun k => agent_partial hc, agent_idle hc, fun hp g cs => agent_image hc hp,
      fun hp q cs hpick => ⟨fun hcrew => ?single, fun hcrew => ?crew⟩, fun hp q t a i hpick ht hcrew ha hi hclaim hq => ?started⟩,
    fun s c hc => ⟨fun e => preWaitExpiry_resting hc, preWaitExpiry_partial hc,
      fun hr hp => ⟨fun hnone => ?unserved, fun xs x ys t hset hxs hx ht => ?served⟩⟩,
    fun s => ⟨loadBalancer_early, fun h => ?balance⟩, fun s c hc => ⟨fun hm => ?unmarked, fun hm hres => ?held, fun hm hres => ?moved⟩⟩
  case young =>
    by_cases hnil : waitingOn s c = []
    · exact gatherTimeout_idle hc hnil
    · obtain ⟨a, ha, -, hexec⟩ := gatherTimeout_oldest hc hnil
      rw [hexec, if_neg (not_le.2 (hyoung a ha))]
  case old =>
    obtain ⟨b, hb, hle, hexec⟩ := gatherTimeout_oldest hc (List.ne_nil_of_mem ha)
    refine ⟨b, hb, hle, ?_⟩
    have := hle a ha
    rw [hexec, if_pos (by omega)]
  case noBatch => exact gatheredWavePlace_none (hb ▸ h)
  case batch =>
    subst hb
    obtain ⟨g, w, x, hstarted⟩ := startGathered_spec h
    exact ⟨_, g, w, x, gatheredWavePlace_some h, hstarted⟩
  case retires => rw [taskRetire_eq, hq, if_pos (canRetire_of_settled ht hs hn he hg hh hd)]
  case runs => rw [taskRetire_eq, hq, canRetire_running ht he]; rfl
  case startKey => simp only [Cand.key, Cand.prio, ht]; rfl
  case imageKey => simp only [Cand.key, Cand.prio, hx]; rfl
  case takes => rw [placeAt_start ht hcrew, if_pos (takesStart_iff.2 hok)]
  case refuses => rw [placeAt_start ht hcrew, if_neg (mt takesStart_iff.1 hok)]
  case single => rw [groupPlace_start hc hp hpick, crewPlace_start hc hp hpick, if_pos hcrew, if_pos hcrew]; exact ⟨rfl, rfl⟩
  case crew => rw [groupPlace_start hc hp hpick, crewPlace_start hc hp hpick, if_neg (not_le.2 hcrew), if_neg (not_le.2 hcrew)]; exact ⟨rfl, rfl⟩
  case started =>
    have hsingle : Cand.crew s (.start q) ≤ 1 := by
      rw [Cand.crew, ht]
      exact hcrew
    have hstarted := started_place ht ha (recWaves_le_of_pick ht hcrew hpick) hi hclaim hq
    obtain ⟨g, hg, hplace, hid, hseq, hls⟩ := hstarted.group
    exact ⟨_, g, (groupPlace_start hc hp hpick).trans (congrArg _ (if_pos hsingle)), hg, hplace, hid, hseq, hls, hstarted.nextGid, hstarted.roCache,
      hstarted.task, hstarted.waves⟩
  case unserved =>
    rw [preWaitExpiry_rested hc hr hp, List.findSome?_eq_none_iff.2 fun x hx => dueTurn_none (hnone x hx)]
    rfl
  case served =>
    have hfirst : (readySet s).findSome? (dueTurn s c) = some (x, t) :=
      List.findSome?_eq_some_iff.2 ⟨xs, x, ys, hset, dueTurn_some hx ht, fun y hy => dueTurn_none (hxs y hy)⟩
    rw [preWaitExpiry_rested hc hr hp, hfirst]
    rfl
  case balance =>
    have hcore := core_marking (s := { s with lastBalance := s.ns }) (o := nextMark s) fun c => chains_of_nextMark
    have hnone (h : nextMark s = none) : (marking { s with lastBalance := s.ns } (nextMark s)).cores = s.cores := by rw [h]; rfl
    have hsome {c : Nat} (h : nextMark s = some c) :
        (marking { s with lastBalance := s.ns } (nextMark s)).core c = { s.core c with moving := true } := by
      rw [h]
      exact core_modCore_same _ _ _
    refine ⟨_, loadBalancer_due h, marking_rest _ _, hcore, fun c d hc hd => ?_, fun hmoving => hnone (nextMark_moving hmoving), fun hstill => ?_⟩
    · exact Option.some.inj ((eq_of_core_marking hc).symm.trans (eq_of_core_marking hd))
    · rw [← idleRender_length, ← computeSide_length]
      refine ⟨fun hfew hmin c hc hchain hmax => hsome (nextMark_compute hstill hfew hmin (mem_computeSide.2 hc) hchain fun d hd => ?_),
        fun hmany c hc hidle hmin => hsome (nextMark_render hstill hmany (mem_idleRender.2 hc) hidle fun d hd => ?_),
        fun hfew hmin => hnone (nextMark_min hstill hfew hmin), fun hmet => hnone (nextMark_met hstill hmet)⟩
      · exact hmax d (mem_computeSide.1 hd)
      · exact hmin d (mem_idleRender.1 hd)
  case unmarked => rw [partitionMoveComplete_eq, hc, hm]; rfl
  case held =>
    obtain ⟨p, hmem, hne2, hne⟩ := hres
    have hall : (residents s c).all (fun p => p.2.part == 2 || p.2.part == 1 - (s.core c).part) = false :=
      List.all_eq_false.2 ⟨p, hmem, by simp [hne2, hne]⟩
    rw [partitionMoveComplete_eq, hc, hall, Bool.and_false]
    rfl
  case moved =>
    have hall : (residents s c).all (fun p => p.2.part == 2 || p.2.part == 1 - (s.core c).part) = true :=
      List.all_eq_true.2 fun p hmem => by simpa using hres p hmem
    rw [partitionMoveComplete_eq, hc, hm, hall]
    rfl

end Sys2Proof.Laws
end
section
/-! PROOF. `bin.emit` (R328) under a table tree whose root is not 8 KiB-aligned: a primitive is stored over the upper half of a root entry. -/

namespace Sys2Proof.Laws

open Sys2Proof.Machine

/-- One tenant, whose root stands at 60: no SET_ROOT takes such a root (R61). Root entry 0 (at 60) and a level 2 leaf (at 16384) map the first
64 GiB onto external memory; root entry 1016 (at 8188) and two level 3 leaves (at 65536) map the shared window. The header of a bin set ends the
first 64 MiB of that window, and its one strip counter begins the next. -/
def rootUnaligned : State :=
  { ext := [(60, 0x01), (61, 0x40), (8188, 0x01), (8189, 0x80), (16384, 0x0F), (32768, 0x01), (32770, 0x01), (65536, 0x0F), (65544, 0x0F),
      (65547, 0x04)]
    shm := [(0x3FFFFC2, 1), (0x3FFFFC5, 8), (0x3FFFFC7, 1), (0x3FFFFC8, 4), (0x3FFFFCC, 4), (0x3FFFFD2, 0x10), (0x3FFFFD9, 0x20)]
    shmSteps := 3, roots := [(0, 60)], caps := { dev := 1 } }

/-- That bin set. Its primitive array, at 8192, begins with the last four bytes of root entry 1016. -/
def binsAtPageEnd : BinSet := { va := 0xFE000003FFFFC0, bits := 0 }

/-- A triangle with corners (1, 0), (0, 0) and (0, 1): its first four bytes are those of 1.0. -/
def cornerTriangle : Prim := BitVec.ofNat 512 (0x3F800000 + 0x3F800000 * 2 ^ 224)

theorem cornerTriangle_kept : Prim.kept cornerTriangle = some [(256, 0), (0, 0), (0, 256)] := by decide +kernel

/-- The primitive's store breaks root entry 1016, so the strip's counter is no longer reached: its COUNT stays 0. -/
theorem emitLane_rootUnaligned_count : (emitLane binsAtPageEnd cornerTriangle { tenant := 0 } rootUnaligned).toOption.map
    (fun x => rdN x.1 (.shm 0x4000000) 4) = some 0 := by decide +kernel

/-- Refutes O38: the clause on a kept primitive's stores keeps them off the first byte of each table entry passed, not off the whole entry. Where the
root is not aligned, the store of a primitive changes the upper half of the root entry of the shared window, and COUNT of its strip does not go up. -/
theorem not_bins : ¬ Obligations.Bins := by
  unfold Obligations.Bins
  rintro ⟨-, -, -, hstored, -⟩
  have hstrips : primStrips (binSetAt rootUnaligned { tenant := 0 } binsAtPageEnd.va) [(256, 0), (0, 0), (0, 256)] = [0] := by decide +kernel
  have hkept := hstored binsAtPageEnd cornerTriangle { tenant := 0 } rootUnaligned _ (by decide) (by decide +kernel) (by decide +kernel)
    cornerTriangle_kept
  rw [hstrips] at hkept
  obtain ⟨-, -, hroom⟩ := hkept.2 (fun _ => .shm 0x4000000) (by simp) (by decide +kernel) (by decide +kernel)
  obtain ⟨u, hu, -, -, hcount, -⟩ := hroom (.shm 0x3FFFFE0) (.ext 8192) (fun _ => .ext 0x100000) (by decide +kernel) (by decide +kernel)
    (by decide +kernel) (by decide +kernel) (by decide +kernel) (by simp only [Loc.outside]; decide +kernel) (by decide +kernel)
  have hzero := emitLane_rootUnaligned_count
  rw [hu] at hzero
  have hone : rdN u (.shm 0x4000000) 4 = 1 := (hcount 0 (by simp)).1.trans (by decide +kernel)
  exact absurd (hone.symm.trans (Option.some.inj hzero)) (by decide)

end Sys2Proof.Laws
end
section
/-! PROOF. `frag.out`, `frag.out.init` and the group's first bind (R330, R335). -/

namespace Sys2Proof.Laws

open Sys2Proof.Machine

/-! ### Commit -/

theorem keeps_wrN (s : State) (l : Loc) (n v : Nat) : Keeps s (wrN s l n v) := (keeps_wrBytes s l _).trans (keeps_clearPoison _ l n)

theorem keeps_modRaster (s : State) (cl : Nat) (f : Raster → Raster) : Keeps s (s.modRaster cl f) := ⟨fun _ => rfl, fun _ => rfl⟩

theorem keeps_commitFrag (d : BitVec 512) (lg color : Nat) (f : Frag) (s : State) : Keeps s (commitFrag d lg color f s) := by
  refine .foldl (fun t i => ?_) _ s
  dsimp only
  split_ifs
  · exact (keeps_wrN _ _ _ _).trans (keeps_wrN _ _ _ _)
  · exact keeps_wrN _ _ _ _
  · exact .refl t
  · exact .refl t

/-- Committing or dropping leaves the wave as it was, with no current batch (R335). -/
theorem wave?_commitCur {s : State} {k : Nat} {w : Wave} (hw : s.wave? k = some w) (act : LaneMask) (b : Field11) (d : BitVec 512) (x : Wave) :
    (commitCur act b d s k x).wave? k = some { w with cur := 0 } := by
  rw [commitCur, wave?_modWave_same, ((Keeps.foldl ?commit _ s).trans (keeps_modRaster _ _ _)).wave, hw]
  · rfl
  case commit =>
    intro t l
    split
    · exact .refl t
    · split
      · exact keeps_commitFrag _ _ _ _ t
      · exact .refl t

/-! ### The next batch -/

theorem entryWave_batch (sp : Spec) (s : State) (w : Wave) : (entryWave sp s w).batch = w.batch := by unfold entryWave; split <;> rfl

/-- What an instruction that has committed comes to: it waits for a batch, or takes the one delivered (R335). -/
theorem batch_taken {sp : Spec} {s v : State} {k : Nat} {w : Wave} {i : Instr} {act : LaneMask} {b : Field11} {desc : BitVec 512} {d m : Nat}
    (hv : v.wave? k = some (entryWave sp s w))
    (hi : exec i s = .next (finish sp s k w (takeBatch d m (commitCur act b desc v k (entryWave sp s w)) k))) :
    let c := commitCur act b desc v k (entryWave sp s w)
    (w.batch = none → exec i s = .next (parkBlockedOwner (startWait c k .fragBatch 0) k)) ∧
    (∀ cur, w.batch = some cur → ∃ y z, c.wave? k = some y ∧ z = { wrM (fragResults c k y d cur) m cur with cur := cur, batch := none } ∧
      exec i s = .next (book sp k (coreOf s k) w true (c.setWave k z))) := by
  have hc := wave?_commitCur hv act b desc (entryWave sp s w)
  have hbatch := entryWave_batch sp s w
  refine ⟨fun hnone => ?_, fun cur hcur => ⟨_, _, hc, rfl, ?_⟩⟩
  · rw [hi]
    simp only [takeBatch, hc, hbatch, hnone]
    rfl
  · rw [hi]
    simp only [takeBatch, hc, hbatch, hcur]
    rfl

/-! ### Binding -/

section Bind

variable {a : Field11} {f : State → Nat → Wave → Res} {s : State} {k : Nat} {w : Wave} {g : Group}

theorem bindGroup_bound (hg : s.group? (gidOf k) = some g) (hb : g.raster.isSome = true) : bindGroup a f s k w = f s k w := by
  simp only [bindGroup, hg, hb, if_true]

theorem bindGroup_unread {va : Nat} {e : Fail} (hg : s.group? (gidOf k) = some g) (hb : g.raster = none) (hva : (rdS w a.toNat).toNat = va)
    (he : checkOne s (whoOf s k) va 64 64 needRd .plain = .error e) : bindGroup a f s k w = .trap e.trap s := by
  subst hva
  simp only [bindGroup, hg, hb, Option.isSome_none, Bool.false_eq_true, if_false, he]

variable {va : Nat} {l : Loc} (hg : s.group? (gidOf k) = some g) (hb : g.raster = none) (hva : (rdS w a.toNat).toNat = va)
  (hl : checkOne s (whoOf s k) va 64 64 needRd .plain = .ok l)

include hg hb hva hl

theorem bindGroup_notLocal (hloc : inLocal va = false) : bindGroup a f s k w = .trap (addrRange va 0).trap s := by
  subst hva
  simp only [bindGroup, hg, hb, Option.isSome_none, Bool.false_eq_true, if_false, hl, hloc, Bool.not_false, if_true]

variable (hloc : inLocal va = true) {d : BitVec 512} (hd : BitVec.ofNat 512 (rdN s l 64) = d)

include hloc hd

theorem bindGroup_noBins {e : Fail} (he : checkObj s { tenant := g.tenant } (dBinset d) 64 64 needRw = .error e) :
    bindGroup a f s k w = .trap e.trap s := by
  subst hva hd
  simp only [bindGroup, hg, hb, Option.isSome_none, Bool.false_eq_true, if_false, hl, hloc, Bool.not_true, he]

variable {m : Loc} (hm : checkObj s { tenant := g.tenant } (dBinset d) 64 64 needRw = .ok m)
  {kib : Nat} (hk : ((s.group? (lsGroup s k)).map (·.lsKib)).getD 0 = kib)

include hm hk

theorem bindGroup_bad (h : rasterBad d (binSetAt s { tenant := g.tenant } (dBinset d)) kib = true) :
    bindGroup a f s k w = .trap (ringTrap va 0xFFFFFFFF) s := by
  subst hva hd hk
  simp only [bindGroup, hg, hb, Option.isSome_none, Bool.false_eq_true, if_false, hl, hloc, Bool.not_true, hm, h, if_true]

/-- The strip that a unit serves is the descriptor's (R330). -/
def servesStrip (r : Raster) (tenant : Nat) (d : BitVec 512) : Prop := r.tenant = tenant ∧ r.binset = w64 (dBinset d) ∧ r.strip = dStrip d

omit hg hb hva hl hloc hd hm hk in
theorem servesStrip_iff {r : Raster} {tenant : Nat} {d : BitVec 512} :
    (r.tenant == tenant && r.binset == w64 (dBinset d) && r.strip == dStrip d) = true ↔ servesStrip r tenant d := by
  simp [servesStrip, and_assoc]

/-- The unit with one more group bound to its strip, or with a strip to serve (R330). -/
def boundUnit (r : Raster) (tenant : Nat) (d : BitVec 512) (gid : Nat) : Raster :=
  if r.busy then { r with groups := r.groups ++ [gid] }
  else { r with binset := w64 (dBinset d), strip := dStrip d, tenant := tenant, busy := true, started := false, groups := [gid],
                nreg := dNreg d, tiles := [], level := 0 }
/-- The state with a group bound to a strip at its cluster's unit (R330). -/
def boundState (s : State) (k cl : Nat) (va : Nat) (d : BitVec 512) (tenant : Nat) : State :=
  (s.modRaster cl (fun r => boundUnit r tenant d (gidOf k))).modGroup (gidOf k) (fun g => { g with
    raster := some { desc := d, descAt := w64 va, cluster := cl } })

variable (h : rasterBad d (binSetAt s { tenant := g.tenant } (dBinset d)) kib = false) {u : State} (hu : touch s g.tenant (dBinset d) false = u)
  {cl : Nat} (hcl : clusterOf u k = cl)

include h hu hcl

theorem bindGroup_busy (hbusy : (u.raster cl).busy = true) (hother : ¬ servesStrip (u.raster cl) g.tenant d) :
    bindGroup a f s k w = .wait .rasterUnit (w64 va) u := by
  have hother := Bool.eq_false_iff.2 (mt servesStrip_iff.1 hother)
  subst hva hd hk hu hcl
  simp only [bindGroup, hg, hb, Option.isSome_none, Bool.false_eq_true, if_false, hl, hloc, Bool.not_true, hm, h, hbusy, hother, Bool.not_false,
    Bool.and_true, if_true]

theorem bindGroup_binds (hfree : (u.raster cl).busy = false ∨ servesStrip (u.raster cl) g.tenant d) :
    bindGroup a f s k w = f (boundState u k cl va d g.tenant) k w := by
  have hfree : ((u.raster cl).busy && !((u.raster cl).tenant == g.tenant && (u.raster cl).binset == w64 (dBinset d) &&
      (u.raster cl).strip == dStrip d)) = false := by
    rcases hfree with hfree | hfree
    · rw [hfree, Bool.false_and]
    · rw [servesStrip_iff.2 hfree, Bool.not_true, Bool.and_false]
  subst hva hd hk hu hcl
  simp only [bindGroup, hg, hb, Option.isSome_none, Bool.false_eq_true, if_false, hl, hloc, Bool.not_true, hm, h, hfree]
  rfl

end Bind

/-! ### The state that is bound -/

theorem lsGroup_entry (sp : Spec) (s : State) (k : Nat) (w : Wave) (j : Nat) : lsGroup (entryState sp s k w) j = lsGroup s j := by
  simp only [lsGroup, originGroup, group?_entry]
theorem binSetAt_entry (sp : Spec) (s : State) (k : Nat) (w : Wave) (who : Who) (va : Nat) :
    binSetAt (entryState sp s k w) who va = binSetAt s who va := by
  obtain ⟨ws, cs, h⟩ := entry_eq sp s k w
  rw [h]
  rfl
theorem raster_entry (sp : Spec) (s : State) (k : Nat) (w : Wave) (cl : Nat) : (entryState sp s k w).raster cl = s.raster cl := by
  rw [entryState_rest]; rfl
theorem group?_touch (s : State) (tenant va : Nat) (write : Bool) (g : Nat) : (touch s tenant va write).group? g = s.group? g := by
  rw [(touch_touched s tenant va write).rest]; rfl

theorem boundState_rest (u : State) (k cl va : Nat) (d : BitVec 512) (tenant : Nat) :
    boundState u k cl va d tenant = { u with rasters := (boundState u k cl va d tenant).rasters, groups := (boundState u k cl va d tenant).groups } :=
  rfl
theorem wave?_boundState (u : State) (k cl va : Nat) (d : BitVec 512) (tenant j : Nat) :
    (boundState u k cl va d tenant).wave? j = u.wave? j := rfl
theorem group?_boundState {u : State} {k : Nat} {g : Group} (hg : u.group? (gidOf k) = some g) (cl va : Nat) (d : BitVec 512) (tenant : Nat) :
    (boundState u k cl va d tenant).group? (gidOf k) = some { g with raster := some { desc := d, descAt := w64 va, cluster := cl } } := by
  rw [boundState, group?_modGroup, if_pos rfl, show (u.modRaster cl _).group? (gidOf k) = some g from hg]
  rfl
theorem group?_boundState_ne (u : State) {k h : Nat} (hne : h ≠ gidOf k) (cl va : Nat) (d : BitVec 512) (tenant : Nat) :
    (boundState u k cl va d tenant).group? h = u.group? h := by
  rw [boundState, group?_modGroup, if_neg hne]; rfl
theorem raster_boundState (u : State) (k cl va : Nat) (d : BitVec 512) (tenant : Nat) :
    (boundState u k cl va d tenant).raster cl = boundUnit (u.raster cl) tenant d (gidOf k) :=
  raster_modRaster u cl fun r => boundUnit r tenant d (gidOf k)
theorem raster_boundState_ne (u : State) {k cl c : Nat} (hne : c ≠ cl) (va : Nat) (d : BitVec 512) (tenant : Nat) :
    (boundState u k cl va d tenant).raster c = u.raster c := kget_kset_ne _ hne _ _

/-! ### The instructions -/

theorem exec_fragOut (f : FragOutF) (s : State) : exec (.fragOut f) s =
    issue (specM f.h 8 [vOp f.d 3 true, sOp f.a, vOp f.b, { reg := .m f.m.toNat, dest := true }]) (fun s k w =>
      match (s.group? (gidOf k)).bind (·.raster) with
      | none => .trap (ringTrap (rdS w f.a.toNat).toNat 0xFFFFFFFE) s
      | some rb =>
        if f.b = 0 then .trap (ringTrap (rdS w f.a.toNat).toNat 0xFFFFFFFE) s
        else takeBatch f.d.toNat f.m.toNat (commitCur (activeOf w f.h.mask) f.b rb.desc s k w) k) s := rfl

theorem ringTrap_toNat (x : BitVec 64) (n : Nat) : ringTrap x.toNat n = { cause := .ringState, info0 := x, info1 := w64 n } := by
  rw [ringTrap, w64, BitVec.ofNat_toNat, BitVec.setWidth_eq]

/-- What `frag.out.init` does once its group is bound (R335). -/
def initBody (d m : Nat) (s : State) (k : Nat) (w : Wave) : Res := takeBatch d m (commitCur 0 0 0 s k w) k

theorem exec_fragOutInit (f : FragInitF) (s : State) : exec (.fragOutInit f) s =
    issue (specM f.h 8 [vOp f.d 3 true, sOp f.a, { reg := .m f.m.toNat, dest := true }]) (bindGroup f.a (initBody f.d.toNat f.m.toNat)) s := rfl

section First

variable {sp : Spec} {s : State} {k : Nat} {w : Wave} {g : Group} {i : Instr} {a : Field11} {fd m : Nat} (h : Clear sp s k w)
  (hi : exec i s = issue sp (bindGroup a (initBody fd m)) s) (hg : s.group? (gidOf k) = some g) (hb : g.raster = none)

include h hi

theorem init_bound {g : Group} (hg : s.group? (gidOf k) = some g) (hb : g.raster.isSome = true) :
    exec i s = .next (finish sp s k w (takeBatch fd m (commitCur 0 0 0 (entryState sp s k w) k (entryWave sp s w)) k)) := by
  rw [hi, issue_clear h, bindGroup_bound (by rw [group?_entry, hg]) hb]
  rfl

include hg hb

theorem init_unread {e : Fail} (he : checkOne s (whoOf s k) (rdS w a.toNat).toNat 64 64 needRd .plain = .error e) :
    exec i s = .next (takeTrap (entryState sp s k w) k sp.len (e.trap.withLanes sp w)) := by
  refine exec_raises_lanes h hi (bindGroup_unread (by rw [group?_entry, hg]) hb rfl ?_)
  rw [whoOf_entry, checkOne_entry, rdS_entry, he]

variable {l : Loc} (hl : checkOne s (whoOf s k) (rdS w a.toNat).toNat 64 64 needRd .plain = .ok l)

include hl

omit h hi hg hb in
theorem checkOne_entry_init : checkOne (entryState sp s k w) (whoOf (entryState sp s k w) k) (rdS w a.toNat).toNat 64 64 needRd .plain = .ok l := by
  rw [whoOf_entry, checkOne_entry, hl]

theorem init_notLocal (hloc : inLocal (rdS w a.toNat).toNat = false) :
    exec i s = .next (takeTrap (entryState sp s k w) k sp.len { (addrRange (rdS w a.toNat).toNat 0).trap with lanes := some (activeOf w sp.mask) }) :=
  exec_raises h hi (bindGroup_notLocal (by rw [group?_entry, hg]) hb (by rw [rdS_entry]) (checkOne_entry_init hl) hloc) rfl

variable (hloc : inLocal (rdS w a.toNat).toNat = true) {d : BitVec 512} (hd : BitVec.ofNat 512 (rdN s l 64) = d)

include hloc hd

theorem init_noBins {e : Fail} (he : checkObj s { tenant := g.tenant } (dBinset d) 64 64 needRw = .error e) :
    exec i s = .next (takeTrap (entryState sp s k w) k sp.len (e.trap.withLanes sp w)) :=
  exec_raises_lanes h hi (bindGroup_noBins (by rw [group?_entry, hg]) hb (by rw [rdS_entry]) (checkOne_entry_init hl) hloc (by rw [rdN_entry, hd])
    (by rw [checkObj_entry, he]))

variable {n : Loc} (hm : checkObj s { tenant := g.tenant } (dBinset d) 64 64 needRw = .ok n)

include hm

theorem init_bad (hbad : rasterBad d (binSetAt s { tenant := g.tenant } (dBinset d)) (((s.group? (lsGroup s k)).map (·.lsKib)).getD 0) = true) :
    exec i s = .next (takeTrap (entryState sp s k w) k sp.len
      { ringTrap (rdS w a.toNat).toNat 0xFFFFFFFF with lanes := some (activeOf w sp.mask) }) :=
  exec_raises h hi (bindGroup_bad (by rw [group?_entry, hg]) hb (by rw [rdS_entry]) (checkOne_entry_init hl) hloc (by rw [rdN_entry, hd])
    (by rw [checkObj_entry, hm]) (by rw [lsGroup_entry, group?_entry]) (by rw [binSetAt_entry, hbad])) rfl

omit h hi hl hloc hd hm in
theorem clusterOf_touch_entry (va : Nat) : clusterOf (touch (entryState sp s k w) g.tenant va false) k = coreOf s k / 8 := by
  simp only [clusterOf, coreOf, group?_touch, group?_entry, hg, Option.bind_some, hb]

omit h hi hg hb hl hloc hd hm in
theorem raster_touch_entry (tenant va cl : Nat) : (touch (entryState sp s k w) tenant va false).raster cl = s.raster cl := by
  exact ((memOnly_touch ..).raster cl).trans (raster_entry ..)

variable (hok : rasterBad d (binSetAt s { tenant := g.tenant } (dBinset d)) (((s.group? (lsGroup s k)).map (·.lsKib)).getD 0) = false)

include hok

theorem init_busy (hbusy : (s.raster (coreOf s k / 8)).busy = true) (hother : ¬ servesStrip (s.raster (coreOf s k / 8)) g.tenant d) :
    exec i s = .next (parkBlockedOwner (startWait (touch (entryState sp s k w) g.tenant (dBinset d) false) k .rasterUnit
      (w64 (rdS w a.toNat).toNat)) k) := by
  rw [hi, issue_clear h, bindGroup_busy (by rw [group?_entry, hg]) hb (by rw [rdS_entry]) (checkOne_entry_init hl) hloc (by rw [rdN_entry, hd])
    (by rw [checkObj_entry, hm]) (by rw [lsGroup_entry, group?_entry]) (by rw [binSetAt_entry, hok]) rfl (clusterOf_touch_entry hg hb _)
    (by rw [raster_touch_entry, hbusy]) (by rwa [raster_touch_entry])]
  rfl

theorem init_binds (hfree : (s.raster (coreOf s k / 8)).busy = false ∨ servesStrip (s.raster (coreOf s k / 8)) g.tenant d) :
    ∃ u v, u = touch (entryState sp s k w) g.tenant (dBinset d) false ∧
      v = boundState u k (coreOf s k / 8) (rdS w a.toNat).toNat d g.tenant ∧ u.group? (gidOf k) = some g ∧
      (∀ c, u.raster c = s.raster c) ∧ v.wave? k = some (entryWave sp s w) ∧
      exec i s = .next (finish sp s k w (takeBatch fd m (commitCur 0 0 0 v k (entryWave sp s w)) k)) := by
  refine ⟨_, _, rfl, rfl, (group?_touch ..).trans ((group?_entry ..).trans hg), fun c => raster_touch_entry _ _ c,
    by rw [wave?_boundState, (keeps_touch ..).wave, entryState_wave], ?_⟩
  rw [hi, issue_clear h, bindGroup_binds (by rw [group?_entry, hg]) hb (by rw [rdS_entry]) (checkOne_entry_init hl) hloc (by rw [rdN_entry, hd])
    (by rw [checkObj_entry, hm]) (by rw [lsGroup_entry, group?_entry]) (by rw [binSetAt_entry, hok]) rfl (clusterOf_touch_entry hg hb _)
    (by rwa [raster_touch_entry])]
  rfl

end First

/-- Settles O40. `frag.out` of a bound group, `frag.out.init` of a bound group and of one that binds now all come to `batch_taken`; the group's
first bind fails, waits or binds by one lemma each. -/
theorem fragmentInstructions : Obligations.FragmentInstructions := by
  unfold Obligations.FragmentInstructions
  refine ⟨fun f s k w h => ⟨fun hbad => ?unbound, fun hb r hr => ?out⟩, fun f s k w g h hg hb => ?bound, fun f s k w g h hg hb => ?first⟩
  case unbound =>
    refine exec_raises (e := { cause := .ringState, info0 := rdS w f.a.toNat, info1 := 0xFFFFFFFE }) h (exec_fragOut f s) ?_ rfl
    simp only [group?_entry, rdS_entry, ringTrap_toNat]
    cases hr : (s.group? (gidOf k)).bind (·.raster) with
    | none => rfl
    | some r =>
      rcases hbad with hbad | hbad
      · simp only [if_pos hbad]
        rfl
      · rw [hr] at hbad
        cases hbad
  case out =>
    refine batch_taken (entryState_wave ..) ((exec_fragOut f s).trans ((issue_clear h _).trans ?_))
    simp only [group?_entry, hr, if_neg hb, activeOf_entry]
  case bound =>
    have hx := init_bound h (exec_fragOutInit f s) hg hb
    exact batch_taken (entryState_wave ..) hx
  case first =>
    have hi := exec_fragOutInit f s
    refine ⟨fun y hy => init_unread h hi hg hb hy, fun l hl => ⟨fun hloc => init_notLocal h hi hg hb hl hloc, fun hloc =>
      ⟨fun y hy => init_noBins h hi hg hb hl hloc rfl hy, fun n hn => ⟨fun hbad => init_bad h hi hg hb hl hloc rfl hn hbad,
        fun hok hbusy hother => init_busy h hi hg hb hl hloc rfl hn hok hbusy hother, fun hok hfree => ?_⟩⟩⟩⟩
    obtain ⟨u, v, hu, hv, hgu, hru, hwv, hx⟩ := init_binds h hi hg hb hl hloc rfl hn hok hfree
    refine ⟨v, ?_, ?_, ?_, ?_, ?_, batch_taken hwv hx⟩
    · rw [← hu, hv, boundState_rest]
    · rw [hv, group?_boundState hgu]
    · rw [← hu, hv]
      exact fun h hne => group?_boundState_ne _ hne ..
    · intro c hc
      rw [hv, raster_boundState_ne _ hc, hru]
    · rw [hv, raster_boundState, hru]
      rfl

end Sys2Proof.Laws
end
section
/-! SUPPORT. The steps of a ray and the lanes of `rt.next` (R350, R354). -/

namespace Sys2Proof.Laws

open Sys2Proof.Machine

/-! ### Running a ray -/

/-- One step of a ray, traced or replayed. -/
def rayStep (who : Who) (at_ : RtAt) (s : State) (r : Ray) : Except RayStop (State × Ray × RayEvent) :=
  if r.replay then replayStep who at_ s r else traceStep who at_ s r

/-- A run of a ray with fuel for two steps at least ends so. -/
def Reaches (who : Who) (at_ : RtAt) (s : State) (r : Ray) (x : Except RayStop (State × Ray × RayEvent)) : Prop :=
  ∀ n, rayRun who at_ (n + 2) s r = x

section Run

variable {who : Who} {at_ : RtAt} {s s' : State} {r r' : Ray} {e : RayEvent} {x : RayStop}

theorem rayRun_quiet (h : rayStep who at_ s r = .ok (s', r', .none)) (n : Nat) : rayRun who at_ (n + 1) s r = rayRun who at_ n s' r' := by
  rw [rayStep] at h
  rw [rayRun, h]

theorem rayRun_stop (h : rayStep who at_ s r = .error x) (n : Nat) : rayRun who at_ (n + 1) s r = .error x := by
  rw [rayStep] at h
  rw [rayRun, h]

theorem rayRun_event (h : rayStep who at_ s r = .ok (s', r', e)) (he : e ≠ .none) (n : Nat) : rayRun who at_ (n + 1) s r = .ok (s', r', e) := by
  rw [rayStep] at h
  rw [rayRun, h]
  cases e with
  | none => exact absurd rfl he
  | _ => rfl

theorem Reaches.stop (h : rayStep who at_ s r = .error x) : Reaches who at_ s r (.error x) := fun n => rayRun_stop h (n + 1)
theorem Reaches.event (h : rayStep who at_ s r = .ok (s', r', e)) (he : e ≠ .none) : Reaches who at_ s r (.ok (s', r', e)) :=
  fun n => rayRun_event h he (n + 1)
/-- A step that gives no event comes before the one that gives it. -/
theorem Reaches.later {s2 : State} {r2 : Ray} (h : rayStep who at_ s r = .ok (s', r', .none)) (h2 : rayStep who at_ s' r' = .ok (s2, r2, e))
    (he : e ≠ .none) : Reaches who at_ s r (.ok (s2, r2, e)) := fun n => (rayRun_quiet h (n + 1)).trans (rayRun_event h2 he n)

/-- The fuel of a traversal is enough. -/
theorem Reaches.run {y : Except RayStop (State × Ray × RayEvent)} (h : Reaches who at_ s r y) : rayRun who at_ (2 ^ 64) s r = y := by
  obtain ⟨n, hn⟩ : ∃ n, 2 ^ 64 = n + 2 := ⟨2 ^ 64 - 2, by norm_num⟩
  rw [hn, h n]

end Run

/-! ### The lanes of `rt.next` -/

/-- The ray that a lane keeps after its event, and the state: one that goes on has its block written (R351). -/
def rayKept (lg : Nat) (s : State) (r : Ray) : State × Ray := if r.done.isSome then (s, r) else writeBlock s lg r

/-- A lane's event in its registers, and its ray kept (R354). -/
def laneEvent (d l : Nat) (x : Nat × Nat × Nat) (r : Ray) (w : Wave) : Wave :=
  { (wrV (wrV (wrV w d l (w64 x.1)) (d + 1) l (w64 x.2.1)) (d + 2) l (w64 x.2.2)) with rays := kset l r w.rays }

section Lanes

variable {who : Who} {at_ : RtAt} {lg k d l : Nat} {rest : List Nat} {s s' : State} {w : Wave} {r r0 r' : Ray} {e : RayEvent} {x : RayStop}

theorem nextLanes_nil : nextLanes who at_ lg k d [] s = .ok s := rfl
theorem nextLanes_noWave (hw : s.wave? k = none) (ls : List Nat) : nextLanes who at_ lg k d ls s = .ok s := by
  cases ls with
  | nil => rfl
  | cons l rest => rw [nextLanes, hw]

theorem nextLanes_noRay (hw : s.wave? k = some w) (hr : kfind l w.rays = none) : nextLanes who at_ lg k d (l :: rest) s =
    nextLanes who at_ lg k d rest (s.setWave k (wrV (wrV (wrV w d l 0) (d + 1) l 0) (d + 2) l 0)) := by
  rw [nextLanes, hw]
  simp only [rayOf, hr]

theorem nextLanes_changed (hw : s.wave? k = some w) (hr : kfind l w.rays = some r) (hnow : rayNow s lg r = none) :
    nextLanes who at_ lg k d (l :: rest) s = .error (travTrap r.idx 4) := by
  rw [nextLanes, hw]
  simp only [rayOf, hr, hnow]

theorem nextLanes_stops (hw : s.wave? k = some w) (hr : kfind l w.rays = some r) (hnow : rayNow s lg r = some r0)
    (hrun : rayRun who at_ (2 ^ 64) s r0 = .error x) : nextLanes who at_ lg k d (l :: rest) s = .error (stopTrap r0 l x) := by
  rw [nextLanes, hw]
  simp only [rayOf, hr, hnow, hrun]

theorem nextLanes_event (hw : s.wave? k = some w) (hr : kfind l w.rays = some r) (hnow : rayNow s lg r = some r0)
    (hrun : rayRun who at_ (2 ^ 64) s r0 = .ok (s', r', e)) : nextLanes who at_ lg k d (l :: rest) s =
      nextLanes who at_ lg k d rest ((rayKept lg s' r').1.modWave k (laneEvent d l (eventRegs r' e) (rayKept lg s' r').2)) := by
  rw [nextLanes, hw]
  simp only [rayOf, hr, hnow, hrun]
  rfl

/-- Lane after lane, each from the state that the last left (R354). -/
theorem nextLanes_cons (who : Who) (at_ : RtAt) (lg k d l : Nat) (rest : List Nat) (s : State) :
    nextLanes who at_ lg k d (l :: rest) s = match nextLanes who at_ lg k d [l] s with
      | .ok s' => nextLanes who at_ lg k d rest s'
      | .error t => .error t := by
  cases hw : s.wave? k with
  | none => simp only [nextLanes_noWave hw]
  | some w =>
    cases hr : kfind l w.rays with
    | none =>
      simp only [nextLanes_noRay hw hr]
      rfl
    | some r =>
      cases hnow : rayNow s lg r with
      | none => simp only [nextLanes_changed hw hr hnow]
      | some r0 =>
        cases hrun : rayRun who at_ (2 ^ 64) s r0 with
        | error x => simp only [nextLanes_stops hw hr hnow hrun]
        | ok y =>
          obtain ⟨s', r', e⟩ := y
          simp only [nextLanes_event hw hr hnow hrun]
          rfl

theorem rays_laneEvent (d l : Nat) (x : Nat × Nat × Nat) (r : Ray) (w : Wave) : (laneEvent d l x r w).rays = kset l r w.rays := rfl
theorem laneEvent_eq (d l : Nat) (x : Nat × Nat × Nat) (r : Ray) (w : Wave) :
    laneEvent d l x r w = { w with v := (laneEvent d l x r w).v, rays := (laneEvent d l x r w).rays } := by
  cases w
  rfl

theorem rdV_wrV_three (w : Wave) (d : Nat) {l m : Nat} (hl : l < 32) (hm : m < 32) (x y z : Word) (q : Nat) :
    rdV (wrV (wrV (wrV w d l x) (d + 1) l y) (d + 2) l z) q m =
      if m ≠ l then rdV w q m else if q = d + 2 then z else if q = d + 1 then y else if q = d then x else rdV w q m := by
  simp only [rdV_wrV _ _ _ _ _ _ hl hm]
  by_cases h : m = l <;> simp [h]

theorem rdV_laneEvent (d : Nat) {l m : Nat} (hl : l < 32) (hm : m < 32) (x : Nat × Nat × Nat) (r : Ray) (w : Wave) (q : Nat) :
    rdV (laneEvent d l x r w) q m = if m ≠ l then rdV w q m else if q = d + 2 then w64 x.2.2 else if q = d + 1 then w64 x.2.1
      else if q = d then w64 x.1 else rdV w q m := by
  have hv : (laneEvent d l x r w).v = (wrV (wrV (wrV w d l (w64 x.1)) (d + 1) l (w64 x.2.1)) (d + 2) l (w64 x.2.2)).v := rfl
  rw [rdV, hv, ← rdV, rdV_wrV_three w d hl hm]

theorem nextGives_noRay (hw : s.wave? k = some w) (hl : l < 32) (hr : kfind l w.rays = none) :
    NextGives who at_ lg k d s w l (0, 0, 0) (· = none) :=
  ⟨_, _, nextLanes_noRay hw hr, wave?_setWave_same .., rfl, fun q _ hm => rdV_wrV_three w d hl hm 0 0 0 q, hr, fun _ _ => rfl⟩

theorem wave?_writeBlock (s : State) (lg : Nat) (r : Ray) (k : Nat) : (writeBlock s lg r).1.wave? k = s.wave? k := by
  simp only [writeBlock, (keeps_wrN ..).wave]
  rfl
/-- The ray as the unit keeps it after an event (R351). -/
theorem rayKept_wave (lg : Nat) (s : State) (r : Ray) (k : Nat) : (rayKept lg s r).1.wave? k = s.wave? k := by
  rw [rayKept]
  split
  · rfl
  · exact wave?_writeBlock s lg r k
theorem rayKept_ended (lg : Nat) (s : State) (h : r.done.isSome = true) : rayKept lg s r = (s, r) := if_pos h
theorem rayKept_shadow (lg : Nat) (s : State) (r : Ray) : ∃ v, (rayKept lg s r).2 = { r with shadow := v } := by
  rw [rayKept]
  split
  · exact ⟨r.shadow, rfl⟩
  · exact ⟨_, rfl⟩

/-- A lane whose ray comes to an event gives the event's registers and keeps the ray. -/
theorem nextGives_event {p : Option Ray → Prop} {y : Nat × Nat × Nat} (hw : s.wave? k = some w) (hl : l < 32) (hr : kfind l w.rays = some r)
    (hnow : rayNow s lg r = some r0) (hrun : Reaches who at_ s r0 (.ok (s', r', e))) (hwave : s'.wave? k = s.wave? k)
    (hy : eventRegs r' e = y) (hp : p (some (rayKept lg s' r').2)) : NextGives who at_ lg k d s w l y p := by
  subst hy
  have hnext := (nextLanes_event (d := d) (rest := []) hw hr hnow hrun.run).trans nextLanes_nil
  refine ⟨_, laneEvent d l (eventRegs r' e) (rayKept lg s' r').2 w, hnext, ?_, laneEvent_eq .., fun q _ hm => rdV_laneEvent d hl hm _ _ w q, ?_,
    fun m hm => ?_⟩
  · rw [wave?_modWave_same, rayKept_wave, hwave, hw]
    rfl
  · rwa [rays_laneEvent, kfind_kset_same]
  · rw [rays_laneEvent, kfind_kset_ne hm]

end Lanes

/-! ### What the unit reads -/

theorem wave?_rtFetch (s : State) (at_ : RtAt) (node held : Bool) (ls : List Loc) (k : Nat) : (rtFetch s at_ node held ls).1.wave? k = s.wave? k := by
  cases ls with
  | nil => rfl
  | cons l ls =>
    simp only [rtFetch]
    split_ifs <;> rfl

theorem wave?_rtRead {who : Who} {at_ : RtAt} {node : Bool} {va n x : Nat} {s t : State} (h : rtRead who at_ node va n s = .ok (t, x)) (k : Nat) :
    t.wave? k = s.wave? k := by
  rw [rtRead] at h
  split at h
  · cases h
  · injection h with h
    have ht := congrArg Prod.fst h
    rw [← show _ = t from ht, wave?_rtFetch, (keeps_touchRange ..).wave]

end Sys2Proof.Laws
end
section
/-! SUPPORT. What one step of a ray does, by cases (R350, R354, R356). -/

namespace Sys2Proof.Laws

open Sys2Proof.Machine

variable {who : Who} {at_ : RtAt} {s s' : State} {r : Ray}

/-! ### Events -/

/-- The registers of a final event follow from how the ray ended and its hit (Table 21.12). -/
theorem eventRegs_final (r : Ray) : eventRegs r .final = finalRegs r := by
  unfold eventRegs finalRegs
  rcases hd : r.done with _ | _ | _ | _ | n
  · simp
  · simp
  · simp [evWord]
  · cases hh : r.hit <;> simp [evWord]
  · simp
theorem finalRegs_congr {r r' : Ray} (hd : r'.done = r.done) (hh : r'.hit = r.hit) : finalRegs r' = finalRegs r := by
  rw [finalRegs, finalRegs, hd, hh]

/-! ### The log and the end of a ray without a log -/

theorem logEntry_noLog (h : r.log = false) (addr t kind index : Nat) (hit : Bool) : logEntry who s r addr t kind index hit = .ok (s, r) := by
  rw [logEntry, h]
  rfl
theorem logEntry_full (h : r.log = true) (hn : r.logn ≤ r.logCount + 1) (addr t kind index : Nat) (hit : Bool) :
    logEntry who s r addr t kind index hit = .error .logFull := by
  simp only [logEntry, h, Bool.not_true, Bool.false_eq_true, if_false, if_pos hn]
theorem endRay_noLog (h : r.log = false) (ev : Nat) : endRay who s r ev = .ok (s, { r with done := some ev, stack := [], leaf := none }) := by
  simp only [endRay, h, Bool.not_false, if_true]

/-! ### Ended rays -/

theorem rayStep_trace (h : r.replay = false) : rayStep who at_ s r = traceStep who at_ s r := if_neg (by rw [h]; decide)
theorem rayStep_replay (h : r.replay = true) : rayStep who at_ s r = replayStep who at_ s r := if_pos h

theorem rayStep_replayEnded (h : r.replay = true) (hd : r.done.isSome = true) : rayStep who at_ s r = .ok (s, r, .final) := by
  obtain ⟨n, hn⟩ := Option.isSome_iff_exists.1 hd
  rw [rayStep_replay h, replayStep, hn]

section Trace

variable (hrep : r.replay = false)

include hrep

theorem rayStep_cand {a i tn : Nat} (hc : r.cand = some (a, i, tn)) (hlog : r.log = false) :
    rayStep who at_ s r = .ok (s, { r with cand := none, tried := false, accepted := false }, .none) := by
  rw [rayStep_trace hrep, traceStep]
  simp only [hc, logEntry_noLog hlog]

variable (hc : r.cand = none)

include hc

theorem rayStep_ended {n : Nat} (hd : r.done = some n) (hn : n ≠ 3) : rayStep who at_ s r = .ok (s, r, .final) := by
  rw [rayStep_trace hrep, traceStep]
  simp only [hc, hd]

theorem rayStep_first (hd : r.done = some 3) (hlog : r.log = false) :
    rayStep who at_ s r = .ok (s, { r with done := some 2, stack := [], leaf := none }, .final) := by
  rw [rayStep_trace hrep, traceStep]
  simp only [hc, hd, endRay_noLog hlog]

variable (hd : r.done = none)

include hd

theorem rayStep_leaf {a kind n tn i : Nat} (hl : r.leaf = some (a, kind, n, tn, i)) : rayStep who at_ s r = leafStep who at_ s r a kind n tn i := by
  rw [rayStep_trace hrep, traceStep]
  simp only [hc, hd, hl]

theorem rayStep_done (hl : r.leaf = none) (hs : r.stack = []) (hlog : r.log = false) : rayStep who at_ s r =
    .ok (s, { r with done := some (if r.hit.isSome then 2 else 1), stack := [], leaf := none }, .final) := by
  rw [rayStep_trace hrep, traceStep]
  simp only [hc, hd, hl, hs, List.getLast?_nil, endRay_noLog hlog]

end Trace

/-- A ray that has nothing left to visit, or that a committed hit has ended, comes to its final event, with nothing written where it keeps no log
(R350, R355). -/
theorem reaches_final (hrep : r.replay = false) (hlog : r.log = false)
    (h : r.done = some 3 ∨ (r.done = none ∧ r.leaf = none ∧ r.stack = [])) : ∃ r', Reaches who at_ s r (.ok (s, r', .final)) ∧
      r'.done = some (if r.done = some 3 ∨ r.hit.isSome = true then 2 else 1) ∧ r'.hit = r.hit := by
  have last {q : Ray} (hq : q.replay = false) (hqc : q.cand = none) (hql : q.log = false)
      (h : q.done = some 3 ∨ (q.done = none ∧ q.leaf = none ∧ q.stack = [])) : ∃ r', rayStep who at_ s q = .ok (s, r', .final) ∧
        r'.done = some (if q.done = some 3 ∨ q.hit.isSome = true then 2 else 1) ∧ r'.hit = q.hit := by
    rcases h with h | ⟨hd, hl, hs⟩
    · exact ⟨_, rayStep_first hq hqc h hql, by rw [if_pos (.inl h)], rfl⟩
    · exact ⟨_, rayStep_done hq hqc hd hl hs hql, by simp [hd], rfl⟩
  cases hc : r.cand with
  | none =>
    obtain ⟨r', hstep, hr'⟩ := last hrep hc hlog h
    exact ⟨r', .event hstep (by simp), hr'⟩
  | some c =>
    obtain ⟨r', hstep, hr'⟩ := last (q := { r with cand := none, tried := false, accepted := false }) hrep rfl hlog h
    exact ⟨r', .later (rayStep_cand hrep hc hlog) hstep (by simp), hr'⟩

/-! ### The records of a leaf -/

section Leaf

variable {s1 : State} {a kind n tn i x : Nat} {e : RayStop}

theorem leafStep_past (h : n ≤ i) : leafStep who at_ s r a kind n tn i = .ok (s, { r with leaf := none }, .none) := if_pos h

theorem leafStep_user (hi : i < n) (hread : rtRead who at_ false (a + 16 * i) 1 s = .ok (s1, x)) : leafStep who at_ s r a 2 n tn i =
    .ok (s1, { r with leaf := some (a, 2, n, tn, i + 1), cand := some (a + 16 * i, i, tn), tried := false, accepted := false }, .user) := by
  rw [leafStep, if_neg (by omega), if_pos rfl]
  simp only [hread]

variable (hi : i < n) (hk : kind ≠ 2)

include hi hk

theorem leafStep_unread (hread : rtRead who at_ false (a + 48 * i) 3 s = .error e) : leafStep who at_ s r a kind n tn i = .error e := by
  rw [leafStep, if_neg (by omega), if_neg hk]
  simp only [hread]

variable (hread : rtRead who at_ false (a + 48 * i) 3 s = .ok (s1, x))

include hread

theorem leafStep_full (hlog : r.log = true) (hn : r.logn ≤ r.logCount + 1) : leafStep who at_ s r a kind n tn i = .error .logFull := by
  rw [leafStep, if_neg (by omega), if_neg hk]
  simp only [hread, logEntry_full hlog hn]

/-- A triangle that is not hit, or not within the ray, is passed over. -/
theorem leafStep_miss (hlog : r.log = false)
    (h : ∀ q, triTest r (recCoord x) = some q → le32 r.tmin q.t = false ∨ lt32 q.t r.tmax = false) :
    leafStep who at_ s r a kind n tn i = .ok (s1, { r with leaf := some (a, kind, n, tn, i + 1) }, .none) := by
  rw [leafStep, if_neg (by omega), if_neg hk]
  cases hq : triTest r (recCoord x) with
  | none => simp only [hread, logEntry_noLog hlog, hq]
  | some q =>
    have hout : (le32 r.tmin q.t && lt32 q.t r.tmax) = false := by
      rcases h q hq with h | h <;> simp [h]
    simp only [hread, logEntry_noLog hlog, hq, hout]

variable {q : TriHit} (hlog : r.log = false) (hq : triTest r (recCoord x) = some q) (hmin : le32 r.tmin q.t = true)
  (hmax : lt32 q.t r.tmax = true)

/-- The ray after a triangle that it hits (R350). -/
def triTaken (r : Ray) (a kind n tn i : Nat) (q : TriHit) : Ray :=
  { r with leaf := some (a, kind, n, tn, i + 1), tmax := q.t
           hit := some { user := false, t := q.t, addr := a + 48 * i, attr := q.b1 + q.b2 * 2 ^ 32, index := i } }

include hlog hq hmin hmax

theorem leafStep_commit : leafStep who at_ s r a kind n tn i =
    if (triTaken r a kind n tn i q).first then (match endRay who s1 (triTaken r a kind n tn i q) 2 with
      | .error e => .error e
      | .ok (s, r) => .ok (s, r, .final))
    else .ok (s1, triTaken r a kind n tn i q, .none) := by
  rw [leafStep, if_neg (by omega), if_neg hk]
  simp only [hread, logEntry_noLog hlog, hq, hmin, hmax, Bool.and_self]
  rfl

theorem leafStep_hit (hfirst : r.first = false) : leafStep who at_ s r a kind n tn i = .ok (s1, triTaken r a kind n tn i q, .none) :=
  (leafStep_commit hi hk hread hlog hq hmin hmax).trans (if_neg (ne_true_of_eq_false hfirst))

theorem leafStep_hitFirst (hfirst : r.first = true) : leafStep who at_ s r a kind n tn i =
    .ok (s1, { triTaken r a kind n tn i q with done := some 2, stack := [], leaf := none }, .final) := by
  rw [leafStep_commit hi hk hread hlog hq hmin hmax, if_pos (show (triTaken r a kind n tn i q).first = true from hfirst),
    endRay_noLog (show (triTaken r a kind n tn i q).log = false from hlog)]

end Leaf

theorem rtRead_one {node : Bool} {va : Nat} {p : Loc} (h : checkOne s who va 16 16 needRd .plain = .ok p) :
    ∃ t x, rtRead who at_ node va 1 s = .ok (t, x) := by
  rw [rtRead]
  simp only [List.range_one, List.map_cons, List.map_nil, Nat.mul_zero, Nat.add_zero, h]
  exact ⟨_, _, rfl⟩

end Sys2Proof.Laws
end
section
/-! SUPPORT. Floating-point values as numbers: exact sums and products, and their order (R93, R98). -/

namespace Sys2Proof.Laws

open Sys2Proof.Machine

/-! ### Finite values -/

theorem rat_sgn (s : Bool) (n : Nat) (e : Int) : (FV.fin s n e).rat = (sgn s n : ℚ) * (2 : ℚ) ^ e := by cases s <;> simp [FV.rat, sgn]

/-- A finite value in units of a lower power of two. -/
theorem sgn_scaled (s : Bool) (n : Nat) {e k : Int} (h : k ≤ e) : (sgn s (n * 2 ^ (e - k).toNat) : ℚ) * (2 : ℚ) ^ k = (FV.fin s n e).rat := by
  have hpow : ((2 ^ (e - k).toNat : Nat) : ℚ) * (2 : ℚ) ^ k = (2 : ℚ) ^ e := by
    rw [Nat.cast_pow, Nat.cast_ofNat, ← zpow_natCast, Int.toNat_of_nonneg (by omega), ← zpow_add₀ (by norm_num), Int.sub_add_cancel]
  have hsgn : sgn s (n * 2 ^ (e - k).toNat) = sgn s n * (2 ^ (e - k).toNat : Nat) := by cases s <;> simp [sgn]
  rw [rat_sgn, hsgn, Int.cast_mul, Int.cast_natCast, mul_assoc, hpow]

theorem sgn_natAbs (t : Int) : sgn (decide (t < 0)) t.natAbs = t := by
  by_cases h : t < 0 <;> simp only [sgn, h, decide_true, decide_false, if_true, Bool.false_eq_true, if_false] <;> omega
theorem rat_fnegv (v : FV) : (fnegv v).rat = -v.rat := by
  cases v with
  | fin s n e => cases s <;> simp [fnegv, FV.rat]
  | _ => simp [fnegv, FV.rat]

/-- The sum of two finite values is finite and exact (R98). -/
theorem fadd_fin (m : Rm) (a : Bool) (x : Nat) (e : Int) (b : Bool) (y : Nat) (g : Int) :
    ∃ c z k, fadd m (.fin a x e) (.fin b y g) = .fin c z k ∧ (FV.fin c z k).rat = (FV.fin a x e).rat + (FV.fin b y g).rat := by
  unfold fadd
  by_cases h0 : x = 0 ∧ y = 0
  · refine ⟨_, _, _, if_pos h0, ?_⟩
    simp [FV.rat, h0]
  · simp only [if_neg h0]
    have hx := sgn_scaled a x (min_le_left e g)
    have hy := sgn_scaled b y (min_le_right e g)
    set t := sgn a (x * 2 ^ (e - min e g).toNat) + sgn b (y * 2 ^ (g - min e g).toNat) with ht
    have hsum : (t : ℚ) * (2 : ℚ) ^ min e g = (FV.fin a x e).rat + (FV.fin b y g).rat := by rw [← hx, ← hy, ht]; push_cast; ring
    by_cases hz : t = 0
    · refine ⟨_, _, _, if_pos hz, ?_⟩
      rw [← hsum, hz]
      simp [FV.rat]
    · exact ⟨_, _, _, if_neg hz, by rw [rat_sgn, sgn_natAbs, hsum]⟩

theorem subv_fin (a : Bool) (x : Nat) (e : Int) (b : Bool) (y : Nat) (g : Int) :
    ∃ c z k, subv (.fin a x e) (.fin b y g) = .fin c z k ∧ (FV.fin c z k).rat = (FV.fin a x e).rat - (FV.fin b y g).rat := by
  obtain ⟨c, z, k, h, hr⟩ := fadd_fin .rne a x e (!b) y g
  refine ⟨c, z, k, h, ?_⟩
  rw [hr, show FV.fin (!b) y g = fnegv (.fin b y g) from rfl, rat_fnegv, sub_eq_add_neg]

theorem rat_fmulv (a : Bool) (x : Nat) (e : Int) (b : Bool) (y : Nat) (g : Int) :
    (FV.fin (a != b) (x * y) (e + g)).rat = (FV.fin a x e).rat * (FV.fin b y g).rat := by
  have hsgn : sgn (a != b) (x * y) = sgn a x * sgn b y := by cases a <;> cases b <;> simp [sgn]
  rw [rat_sgn, rat_sgn, rat_sgn, hsgn, zpow_add₀ (by norm_num)]
  push_cast
  ring

theorem rat_eq_zero_iff (s : Bool) (n : Nat) (e : Int) : (FV.fin s n e).rat = 0 ↔ n = 0 := by
  rw [rat_sgn, mul_eq_zero, or_iff_left (zpow_ne_zero e (by norm_num))]
  cases s <;> simp [sgn]

/-! ### Order -/

/-- A value as an extended real. -/
noncomputable def extended : FV → EReal
  | .fin s n e => (((FV.fin s n e).rat : ℝ) : EReal)
  | .inf true => ⊥
  | .inf false => ⊤
  | .nan => 0

/-- The difference of two finite values in the lower of their units. -/
theorem fcmpv_fin (a : Bool) (x : Nat) (e : Int) (b : Bool) (y : Nat) (g : Int) :
    (fcmpv (.fin a x e) (.fin b y g) : ℚ) * (2 : ℚ) ^ min e g = (FV.fin a x e).rat - (FV.fin b y g).rat := by
  rw [← sgn_scaled a x (min_le_left e g), ← sgn_scaled b y (min_le_right e g), fcmpv]
  push_cast
  ring

/-- The sign of `fcmpv` is the order of the values. -/
theorem fcmpv_neg_iff {x y : FV} (hx : x.isNan = false) (hy : y.isNan = false) : fcmpv x y < 0 ↔ extended x < extended y := by
  match x, y with
  | .inf true, .inf true => simp [fcmpv, extended]
  | .inf true, .inf false => simp [fcmpv, extended]
  | .inf false, .inf true => simp [fcmpv, extended]
  | .inf false, .inf false => simp [fcmpv, extended]
  | .inf true, .fin _ _ _ => simp [fcmpv, extended, EReal.bot_lt_coe]
  | .inf false, .fin _ _ _ => simp [fcmpv, extended]
  | .fin _ _ _, .inf true => simp [fcmpv, extended]
  | .fin _ _ _, .inf false => simp [fcmpv, extended, EReal.coe_lt_top]
  | .fin a x e, .fin b y g =>
    have hpow : (0 : ℚ) < (2 : ℚ) ^ min e g := by positivity
    have h := fcmpv_fin a x e b y g
    rw [extended, extended, EReal.coe_lt_coe_iff, Rat.cast_lt, ← sub_neg (b := (FV.fin b y g).rat), ← h]
    exact ⟨fun hc => mul_neg_of_neg_of_pos (Int.cast_lt_zero.2 hc) hpow, fun hc => Int.cast_lt_zero.1 (neg_of_mul_neg_left hc hpow.le)⟩

theorem fcmpv_swap (x y : FV) : fcmpv y x = -fcmpv x y := by
  match x, y with
  | .nan, y => cases y <;> rfl
  | .inf _, .nan => rfl
  | .fin _ _ _, .nan => rfl
  | .inf a, .inf b => cases a <;> cases b <;> rfl
  | .inf a, .fin _ _ _ => cases a <;> rfl
  | .fin _ _ _, .inf b => cases b <;> rfl
  | .fin a x e, .fin b y g =>
    simp only [fcmpv, min_comm g e]
    omega
theorem fcmpv_pos_iff {x y : FV} (hx : x.isNan = false) (hy : y.isNan = false) : 0 < fcmpv x y ↔ extended y < extended x := by
  rw [← fcmpv_neg_iff hy hx, fcmpv_swap x y, neg_neg_iff_pos]

/-! ### Order of FP32 bits -/

theorem lt32_iff {x y : Nat} (hx : (v32 x).isNan = false) (hy : (v32 y).isNan = false) : lt32 x y = true ↔ extended (v32 x) < extended (v32 y) := by
  simp [lt32, hx, hy, fcmpv_neg_iff]
theorem le32_iff {x y : Nat} (hx : (v32 x).isNan = false) (hy : (v32 y).isNan = false) : le32 x y = true ↔ extended (v32 x) ≤ extended (v32 y) := by
  simp [le32, hx, hy, ← not_lt, fcmpv_pos_iff]
theorem not_nan_of_le32 {x y : Nat} (h : le32 x y = true) : (v32 x).isNan = false ∧ (v32 y).isNan = false := by
  simp only [le32, Bool.and_eq_true, Bool.not_eq_true'] at h
  exact h.1

end Sys2Proof.Laws
end
section
/-! SUPPORT. The visit of a node: its children in the order of their entry distances (R348, R350). -/

namespace Sys2Proof.Laws

open Sys2Proof.Machine

/-! ### The order of the hit children -/

/-- A hit child comes before another: it is entered sooner, or no later and has the lower index. -/
def Sooner (x y : RayEntry) : Prop := lt32 x.tn y.tn = true ∨ (lt32 y.tn x.tn = false ∧ x.idx < y.idx)

section Order

variable {x : RayEntry} {xs : List RayEntry}

/-- A child of a higher index than those in order takes its place among them. -/
theorem insertBy_sooner (hx : (v32 x.tn).isNan = false) (hn : ∀ y ∈ xs, (v32 y.tn).isNan = false) (hi : ∀ y ∈ xs, y.idx < x.idx)
    (h : xs.Pairwise Sooner) : (insertBy (fun x y => le32 x.tn y.tn) x xs).Pairwise Sooner := by
  induction xs with
  | nil => simp [insertBy]
  | cons y r ih =>
    obtain ⟨hy, hr⟩ := List.pairwise_cons.1 h
    obtain ⟨hny, hnr⟩ := List.forall_mem_cons.1 hn
    obtain ⟨hiy, hir⟩ := List.forall_mem_cons.1 hi
    simp only [insertBy]
    split
    · next hle =>
      refine List.pairwise_cons.2 ⟨fun z hz => ?_, ih hnr hir hr⟩
      rcases List.mem_cons.1 ((insertBy_perm _ x r).mem_iff.1 hz) with rfl | hz
      · refine .inr ⟨Bool.eq_false_iff.2 fun hlt => ?_, hiy⟩
        exact absurd ((le32_iff hny hx).1 hle) (not_le_of_gt ((lt32_iff hx hny).1 hlt))
      · exact hy z hz
    · next hle =>
      have hlt : extended (v32 x.tn) < extended (v32 y.tn) := lt_of_not_ge (mt (le32_iff hny hx).2 hle)
      refine List.pairwise_cons.2 ⟨fun z hz => .inl ((lt32_iff hx (hn z hz)).2 ?_), h⟩
      rcases List.mem_cons.1 hz with rfl | hz
      · exact hlt
      · rcases hy z hz with hyz | ⟨hyz, -⟩
        · exact hlt.trans ((lt32_iff hny (hnr z hz)).1 hyz)
        · exact hlt.trans_le (le_of_not_gt (mt (lt32_iff (hnr z hz) hny).2 (ne_true_of_eq_false hyz)))

/-- Children in the order of their indices are ordered by their entry distances, equals by their indices. -/
theorem sortBy_sooner (hn : ∀ y ∈ xs, (v32 y.tn).isNan = false) (hi : xs.Pairwise (fun x y => x.idx < y.idx)) :
    (sortBy (fun x y => le32 x.tn y.tn) xs).Pairwise Sooner := by
  suffices h : ∀ ys : List RayEntry, (∀ y ∈ ys, (v32 y.tn).isNan = false) → (∀ y ∈ ys, ∀ x ∈ xs, y.idx < x.idx) → ys.Pairwise Sooner →
      (xs.foldl (fun a x => insertBy (fun x y => le32 x.tn y.tn) x a) ys).Pairwise Sooner from h [] (by simp) (by simp) .nil
  induction xs with
  | nil => exact fun ys _ _ h => h
  | cons x xs ih =>
    intro ys hys hlow h
    obtain ⟨hx, hxs⟩ := List.forall_mem_cons.1 hn
    obtain ⟨hix, hixs⟩ := List.pairwise_cons.1 hi
    refine ih hxs hixs _ (fun y hy => ?_) (fun y hy z hz => ?_)
      (insertBy_sooner hx hys (fun y hy => hlow y hy x List.mem_cons_self) h)
    all_goals rcases List.mem_cons.1 ((insertBy_perm _ x ys).mem_iff.1 hy) with rfl | hy
    · exact hx
    · exact hys y hy
    · exact hix z hz
    · exact hlow y hy z (List.mem_cons_of_mem _ hz)

end Order

/-- The children of a node that a ray hits, in order (R350). -/
def hitsOf (r : Ray) (n : Nat) : List RayEntry :=
  sortBy (fun x y => le32 x.tn y.tn)
    (((List.range 8).filter (nodeValid n)).filterMap (fun c => (boxTest r n c).map (fun t => ({ ref := nodeRef n c, tn := t, idx := c } : RayEntry))))

theorem mem_hitsOf {r : Ray} {n : Nat} {x : RayEntry} :
    x ∈ hitsOf r n ↔ x.idx < 8 ∧ nodeValid n x.idx = true ∧ x.ref = nodeRef n x.idx ∧ boxTest r n x.idx = some x.tn := by
  obtain ⟨ref, tn, idx⟩ := x
  simp only [hitsOf, (sortBy_perm _ _).mem_iff, List.mem_filterMap, List.mem_filter, List.mem_range, Option.map_eq_some_iff, RayEntry.mk.injEq]
  constructor
  · rintro ⟨c, ⟨hc, hv⟩, t, ht, rfl, rfl, rfl⟩
    exact ⟨hc, hv, rfl, ht⟩
  · rintro ⟨hc, hv, rfl, ht⟩
    exact ⟨idx, ⟨hc, hv⟩, tn, ht, rfl, rfl, rfl⟩

/-- A child that is hit is entered at a number. -/
theorem not_nan_of_boxTest {r : Ray} {n c t : Nat} (h : boxTest r n c = some t) : (v32 t).isNan = false := by
  rw [boxTest] at h
  split at h
  · obtain ⟨hle, ht⟩ := Option.ite_none_right_eq_some.1 h
    injection ht with ht
    exact ht ▸ (not_nan_of_le32 hle).1
  · cases h

theorem hitsOf_sooner (r : Ray) (n : Nat) : (hitsOf r n).Pairwise Sooner := by
  refine sortBy_sooner (fun y hy => ?_) ?_
  · exact not_nan_of_boxTest (mem_hitsOf.1 ((sortBy_perm _ _).mem_iff.2 hy)).2.2.2
  · refine List.Pairwise.filterMap _ (R := (· < ·)) (fun c c' hc y hy y' hy' => ?_) (List.pairwise_lt_range.filter _)
    obtain ⟨t, -, rfl⟩ := Option.map_eq_some_iff.1 hy
    obtain ⟨t', -, rfl⟩ := Option.map_eq_some_iff.1 hy'
    exact hc

/-! ### The top of the stack -/

section Visit

variable {who : Who} {at_ : RtAt} {s s1 : State} {r : Ray} {e : RayEntry} {st : List RayEntry} {n : Nat} {x : RayStop}

theorem rayStep_top (hrep : r.replay = false) (hc : r.cand = none) (hd : r.done = none) (hl : r.leaf = none) (hs : r.stack = st ++ [e]) :
    rayStep who at_ s r =
      if lt32 r.tmax e.tn then .ok (s, { r with stack := st }, .none)
      else if refKind e.ref = 0 then nodeStep who at_ s { r with stack := st } e
      else if refKind e.ref = 3 then .error (.state 2)
      else .ok (s, { r with stack := st, leaf := some (refAddr e.ref, refKind e.ref, refCount e.ref, e.tn, 0) }, .none) := by
  rw [rayStep_trace hrep, traceStep]
  simp only [hc, hd, hl, hs, List.getLast?_append, List.getLast?_singleton, Option.some_or, List.dropLast_concat]

theorem nodeStep_misaligned (h : refAddr e.ref % 128 ≠ 0) : nodeStep who at_ s r e = .error (.state 2) := if_pos h

section Read

variable (h : refAddr e.ref % 128 = 0)

include h

theorem nodeStep_unread (hread : rtRead who at_ true (refAddr e.ref) 8 s = .error x) : nodeStep who at_ s r e = .error x := by
  rw [nodeStep, if_neg (not_not.2 h)]
  simp only [hread]

variable (hread : rtRead who at_ true (refAddr e.ref) 8 s = .ok (s1, n))

include hread

theorem nodeStep_bad (hbad : nodeBad n = true) : nodeStep who at_ s r e = .error (.state 2) := by
  rw [nodeStep, if_neg (not_not.2 h)]
  simp only [hread, hbad, if_true]

variable (hok : nodeBad n = false)

include hok

theorem nodeStep_full (hlog : r.log = true) (hn : r.logn ≤ r.logCount + 1) : nodeStep who at_ s r e = .error .logFull := by
  rw [nodeStep, if_neg (not_not.2 h)]
  simp only [hread, hok, Bool.false_eq_true, if_false, logEntry_full hlog hn]

theorem nodeStep_hits (hlog : r.log = false) : nodeStep who at_ s r e =
    if 56 < (r.stack ++ (hitsOf r n).reverse).length then .error (.state 5)
    else .ok (prefetchNodes who at_ s1 ((hitsOf r n).map (·.ref)), { r with stack := r.stack ++ (hitsOf r n).reverse }, .none) := by
  rw [nodeStep, if_neg (not_not.2 h)]
  simp only [hread, hok, Bool.false_eq_true, if_false, logEntry_noLog hlog]
  rfl

end Read

end Visit

end Sys2Proof.Laws
end
section
/-! SUPPORT. The steps of a replay, and each lane's event of `rt.next` (R354, R356). -/

namespace Sys2Proof.Laws

open Sys2Proof.Machine

/-! ### The log read -/

section Replay

variable {who : Who} {at_ : RtAt} {s : State} {r : Ray} {h p : Loc}

/-- The state after the header of a log has been read. -/
def headRead (who : Who) (s : State) (r : Ray) : State := touch s who.tenant r.loga false
/-- A place of a log's next entry, and the state after it has been read. -/
def entryAt (r : Ray) : Nat := r.loga + 16 * r.logPos
def entryRead (who : Who) (s : State) (r : Ray) : State := touch (headRead who s r) who.tenant (entryAt r) false

variable (hrep : r.replay = true) (hd : r.done = none) (hh : checkOne s who r.loga 16 16 needRd .plain = .ok h)

include hrep hd hh

theorem rayStep_logEnd (hlt : field (rdN s h 16) 0 32 < r.logPos) :
    rayStep who at_ s r = .ok (headRead who s r, { r with done := some (field (rdN s h 16) 32 3) }, .final) := by
  rw [rayStep_replay hrep, replayStep]
  simp only [hd, hh, if_pos hlt]
  rfl

variable (hle : r.logPos ≤ field (rdN s h 16) 0 32) (hp : checkOne (headRead who s r) who (entryAt r) 16 16 needRd .plain = .ok p) {x : Nat}
  (hx : rdN (headRead who s r) p 16 = x)

include hle hp hx

/-- A logged triangle is given with the weights that its record has for this ray (R356). -/
theorem rayStep_logTriangle (hkind : field x 24 8 = 2) {s3 : State} {y : Nat}
    (hread : rtRead who at_ false (field x 64 64) 3 (entryRead who s r) = .ok (s3, y)) :
    ∃ b1 b2 t r', rayStep who at_ s r =
        .ok (t, r', .tri (field x 32 32) (field x 64 64) b1 b2 (field x 16 8) (decide (field x 8 1 = 1))) ∧
      (∀ k, t.wave? k = s3.wave? k) ∧ r'.lastHit = decide (field x 8 1 = 1) ∧
      r'.cand = some (field x 64 64, field x 16 8, field x 32 32) ∧ r'.logPos = r.logPos + 1 ∧ r'.done = none ∧
      (∀ q, triTest { r with logPos := r.logPos + 1 } (recCoord y) = some q → r.o ≠ [] → b1 = q.b1 ∧ b2 = q.b2) := by
  subst hx
  rw [rayStep_replay hrep, replayStep]
  simp only [hd, hh, if_neg (not_lt_of_ge hle)]
  simp only [show touch s who.tenant r.loga false = headRead who s r from rfl, show r.loga + 16 * r.logPos = entryAt r from rfl, hp, if_pos hkind,
    show touch (headRead who s r) who.tenant (entryAt r) false = entryRead who s r from rfl, hread]
  refine ⟨_, _, _, _, rfl, fun k => ?_, rfl, rfl, ?_, ?_, fun q hq ho => ?_⟩
  · split_ifs <;> rfl
  · split_ifs <;> rfl
  · split_ifs <;> rfl
  · have hne : r.o.isEmpty = false := by simpa using ho
    simp [hne, hq]

/-- A logged user candidate is given as it stands in the log (R356). -/
theorem rayStep_logUser (hkind : field x 24 8 = 3) :
    ∃ t r', rayStep who at_ s r = .ok (t, r', .userLog (field x 32 32) (field x 64 64) (field x 16 8) (decide (field x 8 1 = 1))) ∧
      (∀ k, t.wave? k = s.wave? k) ∧ r'.lastHit = decide (field x 8 1 = 1) ∧
      r'.cand = some (field x 64 64, field x 16 8, field x 32 32) ∧ r'.logPos = r.logPos + 1 ∧ r'.done = none := by
  subst hx
  rw [rayStep_replay hrep, replayStep]
  simp only [hd, hh, if_neg (not_lt_of_ge hle)]
  simp only [show touch s who.tenant r.loga false = headRead who s r from rfl, show r.loga + 16 * r.logPos = entryAt r from rfl, hp,
    if_neg (show field (rdN (headRead who s r) p 16) 24 8 ≠ 2 by omega), if_pos hkind,
    show touch (headRead who s r) who.tenant (entryAt r) false = entryRead who s r from rfl]
  refine ⟨_, _, rfl, fun k => ?_, rfl, rfl, ?_, ?_⟩
  · have hw : (entryRead who s r).wave? k = s.wave? k := ((keeps_touch ..).wave k).trans ((keeps_touch ..).wave k)
    split_ifs
    · exact hw
    · exact hw
  · split_ifs <;> rfl
  · split_ifs <;> rfl

end Replay

end Sys2Proof.Laws
end
section
/-! SUPPORT. Each lane's event of `rt.next`, by the ray it holds (R354, Table 21.12). -/

namespace Sys2Proof.Laws

open Sys2Proof.Machine

/-! ### The ray as its block gives it -/

section Now

variable {s : State} {lg : Nat} {r r0 : Ray}

theorem rayNow_ended (h : r.done.isSome = true) : rayNow s lg r = some r := if_pos (.inl h)
theorem rayNow_unchanged (h : rdN s (.ls lg r.block) 1024 = r.shadow) : rayNow s lg r = some r := if_pos (.inr h)

/-- Software's writes into a block do not change whether its ray has ended. -/
theorem done_rayNow (h : rayNow s lg r = some r0) : r0.done = r.done := by
  rw [rayNow] at h
  split at h
  · injection h with h
    rw [← h]
  · split at h
    · injection h with h
      rw [← h]
      rfl
    · cases h

end Now

/-- A ray that has given its final event gives it again. -/
theorem rayStep_over {who : Who} {at_ : RtAt} {s : State} {r : Ray} (hd : r.done.isSome = true)
    (h : r.replay = true ∨ (r.cand = none ∧ r.done ≠ some 3)) : rayStep who at_ s r = .ok (s, r, .final) := by
  cases hrep : r.replay with
  | true => exact rayStep_replayEnded hrep hd
  | false =>
    obtain ⟨hc, h3⟩ := h.resolve_left (by simp [hrep])
    obtain ⟨n, hn⟩ := Option.isSome_iff_exists.1 hd
    exact rayStep_ended hrep hc hn fun h => h3 (by rw [hn, h])

/-! ### Events -/

section Lane

variable {who : Who} {at_ : RtAt} {lg k d l : Nat} {s s' : State} {w : Wave} {r r0 r' : Ray} {e : RayEvent} {x : RayStop}
  {p : Option Ray → Prop} {y : Nat × Nat × Nat} (hw : s.wave? k = some w) (hl : l < 32) (hr : kfind l w.rays = some r)

include hw hr

theorem nextLanes_error (hnow : rayNow s lg r = some r0) (hstep : rayStep who at_ s r0 = .error x) :
    nextLanes who at_ lg k d [l] s = .error (stopTrap r0 l x) := nextLanes_stops hw hr hnow (Reaches.stop hstep).run

include hl

/-- A ray that has ended gives its final event, and is kept as it is. -/
theorem nextGives_ended (hnow : rayNow s lg r = some r0) (hrun : Reaches who at_ s r0 (.ok (s', r', .final))) (hwave : s'.wave? k = s.wave? k)
    (hd : r'.done.isSome = true) (hy : finalRegs r' = y) (hp : p (some r')) : NextGives who at_ lg k d s w l y p :=
  nextGives_event hw hl hr hnow hrun hwave ((eventRegs_final r').trans hy) (by rwa [rayKept_ended lg s' hd])

/-- One that goes on gives its event, and is kept but for what its block shows. -/
theorem nextGives_going (hnow : rayNow s lg r = some r0) (hstep : rayStep who at_ s r0 = .ok (s', r', e)) (he : e ≠ .none)
    (hwave : s'.wave? k = s.wave? k) (hy : eventRegs r' e = y) (hp : ∀ v, p (some { r' with shadow := v })) :
    NextGives who at_ lg k d s w l y p := by
  obtain ⟨v, hv⟩ := rayKept_shadow lg s' r'
  exact nextGives_event hw hl hr hnow (.event hstep he) hwave hy (hv ▸ hp v)

theorem nextGives_over (hd : r.done.isSome = true) (h : r.replay = true ∨ (r.cand = none ∧ r.done ≠ some 3)) :
    NextGives who at_ lg k d s w l (finalRegs r) (· = some r) :=
  nextGives_ended hw hl hr (rayNow_ended hd) (.event (rayStep_over hd h) (by simp)) rfl hd rfl rfl

/-- A ray without a log that has nothing left to visit, or that a committed hit has ended. -/
theorem nextGives_last (hnow : rayNow s lg r = some r0) (hrep : r0.replay = false) (hlog : r0.log = false)
    (h : r0.done = some 3 ∨ (r0.done = none ∧ r0.leaf = none ∧ r0.stack = [])) {n : Nat}
    (hn : (if r0.done = some 3 ∨ r0.hit.isSome = true then 2 else 1) = n) :
    NextGives who at_ lg k d s w l (finalRegs { r0 with done := some n }) (fun y => ∃ r', y = some r' ∧ r'.done = some n ∧ r'.hit = r0.hit) := by
  obtain ⟨r', hrun, hd, hh⟩ := reaches_final (who := who) (at_ := at_) (s := s) hrep hlog h
  rw [hn] at hd
  exact nextGives_ended hw hl hr hnow hrun rfl (by rw [hd]; rfl) (finalRegs_congr hd hh) ⟨r', rfl, hd, hh⟩

variable (hnow : rayNow s lg r = some r0) (hrep : r0.replay = false) (hc : r0.cand = none) (hd : r0.done = none)

include hnow hrep hc hd

theorem nextGives_user {a n tn i : Nat} {q : Loc} (hleaf : r0.leaf = some (a, 2, n, tn, i)) (hi : i < n)
    (hq : checkOne s who (a + 16 * i) 16 16 needRd .plain = .ok q) :
    NextGives who at_ lg k d s w l (evWord 3 r0.tmax i false, a + 16 * i, tn) (fun y => ∃ r', y = some r' ∧
      r'.cand = some (a + 16 * i, i, tn) ∧ r'.tried = false ∧ r'.leaf = some (a, 2, n, tn, i + 1) ∧ r'.tmax = r0.tmax ∧ r'.hit = r0.hit ∧
      r'.done = none) := by
  obtain ⟨t, x, hread⟩ := rtRead_one (at_ := at_) (node := false) hq
  exact nextGives_going hw hl hr hnow ((rayStep_leaf hrep hc hd hleaf).trans (leafStep_user hi hread)) (by simp) (wave?_rtRead hread k) rfl
    fun v => ⟨_, rfl, rfl, rfl, rfl, rfl, rfl, hd⟩

theorem nextGives_first {a kind n tn i x : Nat} {s1 : State} {q : TriHit} (hlog : r0.log = false) (hfirst : r0.first = true)
    (hleaf : r0.leaf = some (a, kind, n, tn, i)) (hk : kind ≠ 2) (hi : i < n) (hread : rtRead who at_ false (a + 48 * i) 3 s = .ok (s1, x))
    (hq : triTest r0 (recCoord x) = some q) (hmin : le32 r0.tmin q.t = true) (hmax : lt32 q.t r0.tmax = true) :
    NextGives who at_ lg k d s w l (evWord 2 q.t i false, a + 48 * i, q.b1 + q.b2 * 2 ^ 32)
      (fun y => ∃ r', y = some r' ∧ r'.done = some 2 ∧ r'.tmax = q.t) :=
  nextGives_ended hw hl hr hnow
    (.event ((rayStep_leaf hrep hc hd hleaf).trans (leafStep_hitFirst hi hk hread hlog hq hmin hmax hfirst)) (by simp))
    (wave?_rtRead hread k) rfl rfl ⟨_, rfl, rfl, rfl⟩

end Lane

end Sys2Proof.Laws
end
section
/-! SUPPORT. Memory after the stores of the traversal unit: log entries and ray-state blocks (R351, R352). -/

namespace Sys2Proof.Laws

open Sys2Proof.Machine

/-! ### A value stored -/

theorem rdTag_wrBytes (s : State) (l m : Loc) (bs : List Byte) : rdTag (wrBytes s l bs) m = rdTag s m := by
  induction bs generalizing s l with
  | nil => rfl
  | cons b r ih => rw [wrBytes, ih, rdTag_wrByte]
theorem rdTag_wrN (s : State) (l m : Loc) (n v : Nat) : rdTag (wrN s l n v) m = rdTag s m := by
  rw [← rdTag_wrBytes s l m (leBytes n v), wrN, clearPoison_rest]
  cases m <;> rfl
theorem memOnly_wrN (s : State) (l : Loc) (n v : Nat) : MemOnly s (wrN s l n v) := (memOnly_wrBytes s l _).trans (memOnly_clearPoison _ l n)

/-- A value stored changes its bytes alone, and clears the errors of the units that it overwrites whole. -/
theorem memSame_wrN {s : State} {l : Loc} (hl : l.here s = true) (n v : Nat) : MemSame [(l, n)] [] [] s (wrN s l n v) := by
  have honly := memOnly_wrN s l n v
  refine ⟨?_, (keeps_wrN s l n v).group, fun c => ?_, fun m hm _ => rdByte_wrN_outside hl v hm, by simp, fun m _ => rdTag_wrN s l m n v,
    fun p hp => ((mem_poison_wrN s l n v p).1 hp).1, fun p hp => ?_⟩
  · have hrest := honly.rest
    generalize wrN s l n v = t at hrest
    rw [hrest]
  · rw [State.core, honly.cores]
    rfl
  · by_cases hin : p ∈ (wrN s l n v).poison
    · exact .inl hin
    · obtain ⟨a, ha⟩ := not_not.1 fun h => hin ((mem_poison_wrN s l n v p).2 ⟨hp, h⟩)
      exact .inr ⟨_, List.mem_singleton_self _, a, ha⟩

theorem here_wrN (s : State) (l m : Loc) (n v : Nat) : m.here (wrN s l n v) = m.here s := (keeps_wrN s l n v).here m
theorem here_touch (s : State) (tenant va : Nat) (write : Bool) (l : Loc) : l.here (touch s tenant va write) = l.here s :=
  (keeps_touch s tenant va write).here l

/-- An access and the store of its value. -/
theorem memSame_touch_wrN {s : State} {l : Loc} (hl : l.here s = true) (tenant va n v : Nat) :
    MemSame [(l, n)] [] (entriesOf s tenant va) s (wrN (touch s tenant va true) l n v) := by
  simpa using memSame_trans (touch_touched s tenant va true).memSame (memSame_wrN ((here_touch s tenant va true l).trans hl) n v)
theorem rdN_touch_wrN {s : State} {l : Loc} (hl : l.here s = true) (tenant va n v : Nat) :
    rdN (wrN (touch s tenant va true) l n v) l n = v % 256 ^ n := rdN_wrN_same ((here_touch s tenant va true l).trans hl) n v

/-- A log entry written: the entry, then COUNT of the header (R352). -/
theorem logEntry_writes {who : Who} {s : State} {r : Ray} (hlog : r.log = true) (hn : r.logCount + 1 < r.logn) {l h : Loc}
    (hl : checkOne s who (r.loga + 16 * (r.logCount + 1)) 16 16 needWr .plain = .ok l) (hh : checkOne s who r.loga 16 16 needWr .plain = .ok h)
    (addr t kind index : Nat) (hit : Bool) :
    let e := addr * 2 ^ 64 + t * 2 ^ 32 + kind * 2 ^ 24 + index * 2 ^ 16 + (if hit then 2 ^ 8 else 0)
    ∃ u v, logEntry who s r addr t kind index hit = .ok (v, { r with logCount := r.logCount + 1 }) ∧
      MemSame [(l, 16)] [] (entriesOf s who.tenant (r.loga + 16 * (r.logCount + 1))) s u ∧ rdN u l 16 = e % 2 ^ 128 ∧
      MemSame [(h, 4)] [] (entriesOf u who.tenant r.loga) u v ∧ rdN v h 4 = (r.logCount + 1) % 2 ^ 32 := by
  intro e
  obtain ⟨u, hu⟩ : ∃ u, wrN (touch s who.tenant (r.loga + 16 * (r.logCount + 1)) true) l 16 e = u := ⟨_, rfl⟩
  have hhere : h.here u = true := by rw [← hu, here_wrN, here_touch, here_checkOne hh]
  refine ⟨u, wrN (touch u who.tenant r.loga true) h 4 (r.logCount + 1), ?_, ?_, ?_, memSame_touch_wrN hhere .., ?_⟩
  · simp only [logEntry, hlog, Bool.not_true, Bool.false_eq_true, if_false, if_neg (not_le_of_gt hn), hl, hh]
    rw [← hu]
  · exact hu ▸ memSame_touch_wrN (here_checkOne hl) ..
  · rw [← hu, rdN_touch_wrN (here_checkOne hl), show 256 ^ 16 = 2 ^ 128 by norm_num]
  · rw [rdN_touch_wrN hhere, show 256 ^ 4 = 2 ^ 32 by norm_num]

end Sys2Proof.Laws
end
section
/-! SUPPORT. An instruction that changes its wave's rays has completed; `rt.accept` lane by lane (R355). -/

namespace Sys2Proof.Laws

open Sys2Proof.Machine

/-! ### The wave -/

/-- A wave in which only vector registers, masks and rays have changed. -/
def RaysOnly (e x : Wave) : Prop := x = { e with v := x.v, m := x.m, rays := x.rays }

theorem RaysOnly.trans {e x y : Wave} (h : RaysOnly e x) (h2 : RaysOnly x y) : RaysOnly e y := by
  rw [RaysOnly] at h h2 ⊢
  rw [h2, h]
theorem raysOnly_rays (e : Wave) (rays : List (Nat × Ray)) : RaysOnly e { e with rays := rays } := rfl
theorem raysOnly_wrM (e : Wave) (d : Nat) (x : LaneMask) : RaysOnly e (wrM e d x) := by
  unfold wrM
  split
  · exact rfl
  · exact rfl

theorem entryWave_rays (sp : Spec) (s : State) (w : Wave) : (entryWave sp s w).rays = w.rays := by unfold entryWave; split <;> rfl

/-- Such a wave booked. -/
theorem booked_rays {sp : Spec} {s : State} {w x : Wave} (hx : RaysOnly (entryWave sp s w) x) {cycle : Nat} {y : Wave}
    (hy : y = bookWave sp cycle w true x) :
    y = { wavePart w y with rays := y.rays } ∧ y.xa = w.xa ∧ y.pc = w.pc + w64 sp.len ∧ y.rays = x.rays := by
  obtain ⟨e, he⟩ : ∃ e, entryWave sp s w = wavePart w e := ⟨_, entryWave_part sp s w⟩
  have hxa : x.xa = w.xa := (congrArg Wave.xa hx).trans (entryWave_xa sp s w)
  have hpc : x.pc = w.pc := (congrArg Wave.pc hx).trans (entryWave_pc sp s w)
  refine ⟨?_, by rw [hy, bookWave_xa, hxa], by rw [hy, bookWave_pc, hpc], by rw [hy]; rfl⟩
  rw [RaysOnly, he] at hx
  rw [hy, hx]
  rfl

/-- A state that differs from the one an instruction finds in its waves alone, booked. -/
theorem booked_rest {sp : Spec} {s u : State} {k : Nat} {w : Wave} (hu : u = { entryState sp s k w with waves := u.waves }) (c : Nat) {t : State}
    (ht : t = book sp k c w true u) : t = { s with waves := t.waves, cores := t.cores } := by
  obtain ⟨ws, cs, he⟩ := entry_eq sp s k w
  rw [he] at hu
  rw [ht, hu]
  rfl

/-! ### `rt.accept` -/

/-- The lanes of `rt.accept`, in turn: the rays they hold, and the mask of those that accepted. -/
def acceptLanes (a b : Nat → Nat) (ls : List Nat) (p : Wave × LaneMask) : Wave × LaneMask :=
  ls.foldl (fun p l => match rayOf p.1 l with
    | none => p
    | some r => ({ p.1 with rays := kset l (acceptLane r (a l) (b l)).1 p.1.rays },
      if (acceptLane r (a l) (b l)).2 then p.2 ||| maskOf (fun x => x == l) else p.2)) p

/-- The masks and rays that `rt.accept` leaves of a wave (R355). -/
def accepted (f : DAB) (w : Wave) : Wave × LaneMask :=
  acceptLanes (fun l => (rdV w f.a.toNat l).toNat) (fun l => (rdV w f.b.toNat l).toNat) (lanesOf (activeOf w f.h.mask)) (w, 0)

theorem exec_rtAccept (f : DAB) (s : State) : exec (.rtAccept f) s =
    issue (specM f.h 8 [mOp f.d true, vOp f.a, vOp f.b]) (onWave (fun w => .ok (wrM (accepted f w).1 f.d.toNat (accepted f w).2))) s := rfl

section Accept

variable {a b : Nat → Nat} {ls : List Nat} {p : Wave × LaneMask}

theorem acceptLanes_rays : (acceptLanes a b ls p).1 = { p.1 with rays := (acceptLanes a b ls p).1.rays } := by
  induction ls generalizing p with
  | nil => rfl
  | cons l ls ih =>
    rw [acceptLanes, List.foldl_cons, ← acceptLanes]
    cases hr : rayOf p.1 l with
    | none => exact ih
    | some r => rw [ih]

theorem getLsbD_or_lane (m : LaneMask) {j l : Nat} (hl : l < 32) : (m ||| maskOf (fun x => x == j)).getLsbD l = (m.getLsbD l || l == j) := by
  rw [BitVec.getLsbD_or, getLsbD_maskOf _ hl]

/-- Each lane's ray and bit follow from the ray it held. -/
theorem acceptLanes_lane (hnd : ls.Nodup) {l : Nat} (hl : l < 32) :
    (l ∉ ls ∨ kfind l p.1.rays = none → kfind l (acceptLanes a b ls p).1.rays = kfind l p.1.rays ∧
      (acceptLanes a b ls p).2.getLsbD l = p.2.getLsbD l) ∧
    (l ∈ ls → ∀ r, kfind l p.1.rays = some r → kfind l (acceptLanes a b ls p).1.rays = some (acceptLane r (a l) (b l)).1 ∧
      (acceptLanes a b ls p).2.getLsbD l = (p.2.getLsbD l || (acceptLane r (a l) (b l)).2)) := by
  induction ls generalizing p with
  | nil => exact ⟨fun _ => ⟨rfl, rfl⟩, fun h => absurd h (by simp)⟩
  | cons j ls ih =>
    obtain ⟨hj, hls⟩ := List.nodup_cons.1 hnd
    rw [acceptLanes, List.foldl_cons, ← acceptLanes]
    cases hr : rayOf p.1 j with
    | none =>
      simp only
      refine ⟨fun h => (ih hls).1 ?_, fun h r hlr => (ih hls).2 ?_ r hlr⟩
      · exact h.imp_left (mt (List.mem_cons_of_mem _))
      · rcases List.mem_cons.1 h with rfl | h
        · rw [show kfind l p.1.rays = none from hr] at hlr
          cases hlr
        · exact h
    | some q =>
      simp only
      by_cases hlj : l = j
      · subst hlj
        have hstep := (ih (p := ({ p.1 with rays := kset l (acceptLane q (a l) (b l)).1 p.1.rays },
          if (acceptLane q (a l) (b l)).2 then p.2 ||| maskOf (fun x => x == l) else p.2)) hls).1 (.inl hj)
        rw [kfind_kset_same] at hstep
        refine ⟨fun h => ?_, fun _ r hlr => ?_⟩
        · rw [show kfind l p.1.rays = some q from hr] at h
          simp at h
        · obtain rfl : q = r := Option.some.inj (hr.symm.trans hlr)
          refine ⟨hstep.1, hstep.2.trans ?_⟩
          split
          · next hacc => rw [getLsbD_or_lane _ hl, hacc]; simp
          · next hacc => simp [hacc]
      · have hkeep : kfind l (kset j (acceptLane q (a j) (b j)).1 p.1.rays) = kfind l p.1.rays := kfind_kset_ne hlj ..
        have hbit : (if (acceptLane q (a j) (b j)).2 then p.2 ||| maskOf (fun x => x == j) else p.2).getLsbD l = p.2.getLsbD l := by
          split
          · rw [getLsbD_or_lane _ hl]; simp [hlj]
          · rfl
        have hstep := ih (p := ({ p.1 with rays := kset j (acceptLane q (a j) (b j)).1 p.1.rays },
          if (acceptLane q (a j) (b j)).2 then p.2 ||| maskOf (fun x => x == j) else p.2)) hls
        rw [hkeep, hbit] at hstep
        exact ⟨fun h => hstep.1 (h.imp_left (mt (List.mem_cons_of_mem _))), fun h => hstep.2 ((List.mem_cons.1 h).resolve_left hlj)⟩

/-! What one lane of `rt.accept` does (R355). -/

theorem acceptLane_replay {r : Ray} (h : r.replay = true) (v attr : Nat) : acceptLane r v attr = (r, r.lastHit && r.cand.isSome) := if_pos h
theorem acceptLane_nothing {r : Ray} (h : r.replay = false) (hc : r.cand = none ∨ r.tried = true) (v attr : Nat) :
    acceptLane r v attr = (r, false) := by
  rw [acceptLane, if_neg (ne_true_of_eq_false h)]
  cases hr : r.cand with
  | none => rfl
  | some c => exact if_pos (hc.resolve_left (by simp [hr]))

section Candidate

variable {r : Ray} {v attr ca i tn t : Nat} (h : r.replay = false) (ht : r.tried = false) (hc : r.cand = some (ca, i, tn))
  (hv : fround (fmtOf .f32) .rne false (fdec (fmtOf .f64) v) = t)

include h ht hc hv

theorem acceptLane_commits (hmin : le32 r.tmin t = true) (hmax : lt32 t r.tmax = true) : acceptLane r v attr =
    ({ r with tried := true, accepted := true, tmax := t, done := if r.first then some 3 else r.done
              hit := some { user := true, t := t, addr := ca, attr := attr, index := i } }, true) := by
  subst hv
  rw [acceptLane, if_neg (ne_true_of_eq_false h)]
  simp only [hc, if_neg (ne_true_of_eq_false ht)]
  exact if_pos (by rw [Bool.and_eq_true]; exact ⟨hmin, hmax⟩)

theorem acceptLane_refuses (hout : le32 r.tmin t = false ∨ lt32 t r.tmax = false) : acceptLane r v attr = ({ r with tried := true }, false) := by
  subst hv
  rw [acceptLane, if_neg (ne_true_of_eq_false h)]
  simp only [hc, if_neg (ne_true_of_eq_false ht)]
  refine if_neg fun hin => ?_
  obtain ⟨hmin, hmax⟩ := Bool.and_eq_true_iff.1 hin
  rcases hout with hout | hout
  · exact absurd (hmin.symm.trans hout) (by decide)
  · exact absurd (hmax.symm.trans hout) (by decide)

end Candidate

end Accept

theorem mem_lanesOf {m : LaneMask} {l : Nat} (hl : l < 32) : l ∈ lanesOf m ↔ m.getLsbD l = true := by
  rw [lanesOf, List.mem_filter, List.mem_range, and_iff_right hl]
theorem nodup_lanesOf (m : LaneMask) : (lanesOf m).Nodup := List.nodup_range.filter _


/-- An instruction that sets registers and rays of its wave alone has completed. -/
theorem wave_done {sp : Spec} {s : State} {k : Nat} {w x : Wave} {i : Instr} (hx : RaysOnly (entryWave sp s w) x)
    (hi : exec i s = .next (doneWith sp s k w x)) :
    ∃ t w', exec i s = .next t ∧ t.wave? k = some w' ∧ t = { s with waves := t.waves, cores := t.cores } ∧
      (∀ j, j ≠ k → t.wave? j = s.wave? j) ∧ w' = { wavePart w w' with rays := w'.rays } ∧ w'.xa = w.xa ∧ w'.pc = w.pc + w64 sp.len ∧
      w' = bookWave sp s.cycle w true x := by
  obtain ⟨hpart, hxa, hpc, -⟩ := booked_rays hx (cycle := s.cycle) rfl
  refine ⟨_, bookWave sp s.cycle w true x, hi, ?_, booked_rest rfl _ rfl, fun j hj => ?_, hpart, hxa, hpc, rfl⟩
  · rw [doneWith, finish, wave?_book, wave?_setWave_same]
    exact congrArg (fun c => some (bookWave sp c w true x)) (cycle_entry ..)
  · rw [doneWith, finish, wave?_book_ne _ _ _ _ _ _ hj, wave?_setWave_ne _ hj, entryState_others _ _ _ hj]

/-- `rt.accept` has completed (R355): each lane's ray and its bit follow from the ray it held. -/
theorem rtAccept_completes {f : DAB} {s : State} {k : Nat} {w : Wave} {sp : Spec} (h : Clear sp s k w)
    (hi : exec (.rtAccept f) s = issue sp (onWave (fun w => .ok (wrM (accepted f w).1 f.d.toNat (accepted f w).2))) s) :
    ∃ t w' m, exec (.rtAccept f) s = .next t ∧ t.wave? k = some w' ∧ t = { s with waves := t.waves, cores := t.cores } ∧
      (∀ j, j ≠ k → t.wave? j = s.wave? j) ∧ w' = { wavePart w w' with rays := w'.rays } ∧ SameRegs [.m f.d.toNat] w w' ∧ w'.xa = w.xa ∧
      w'.pc = w.pc + w64 sp.len ∧ (f.d ≠ 0 → rdM w' f.d.toNat = m) ∧ ∀ l, l < 32 →
        ((activeOf w f.h.mask).getLsbD l = false ∨ kfind l w.rays = none → kfind l w'.rays = kfind l w.rays ∧ m.getLsbD l = false) ∧
        ((activeOf w f.h.mask).getLsbD l = true → ∀ r, kfind l w.rays = some r →
          let q := acceptLane r (rdV w f.a.toNat l).toNat (rdV w f.b.toNat l).toNat
          kfind l w'.rays = some q.1 ∧ m.getLsbD l = q.2) := by
  obtain ⟨p, hp⟩ : ∃ p, p = acceptLanes (fun l => (rdV w f.a.toNat l).toNat) (fun l => (rdV w f.b.toNat l).toNat)
    (lanesOf (activeOf w f.h.mask)) (entryWave sp s w, 0) := ⟨_, rfl⟩
  have hp1 : p.1 = { entryWave sp s w with rays := p.1.rays } := by
    rw [hp]
    exact acceptLanes_rays
  have honly : RaysOnly (entryWave sp s w) p.1 := by
    rw [hp1]
    exact raysOnly_rays _ _
  have hi : exec (.rtAccept f) s = .next (doneWith sp s k w (wrM p.1 f.d.toNat p.2)) := by
    rw [hi, onWave_clear h, hp]
    simp only [accepted, activeOf_entry, rdV_entry]
  obtain ⟨t, w', ht, hw', hrest, hothers, hpart, hxa, hpc, hbook⟩ := wave_done (honly.trans (raysOnly_wrM ..)) hi
  refine ⟨t, w', p.2, ht, hw', hrest, hothers, hpart, ?_, hxa, hpc, fun hd => ?_, fun l hl => ?_⟩
  · have hsame : SameRegs [.m f.d.toNat] (entryWave sp s w) p.1 := by
      rw [hp1]
      exact sameRegs_of rfl rfl rfl
    rw [hbook]
    exact sameRegs_booked (sameRegs_entry (sameRegs_trans hsame (sameRegs_wrM _ _ _ _ (by simp))))
  · have hne : f.d.toNat ≠ 0 := fun h0 => hd (BitVec.eq_of_toNat_eq h0)
    rw [hbook, rdM, bookWave_m, ← rdM, rdM_wrM, if_neg hne, if_pos rfl]
  · have hrays : w'.rays = p.1.rays := by
      rw [hbook, show (bookWave sp s.cycle w true (wrM p.1 f.d.toNat p.2)).rays = (wrM p.1 f.d.toNat p.2).rays from rfl, wrM]
      split <;> rfl
    have hlane := acceptLanes_lane (a := fun l => (rdV w f.a.toNat l).toNat) (b := fun l => (rdV w f.b.toNat l).toNat)
      (p := (entryWave sp s w, 0)) (nodup_lanesOf (activeOf w f.h.mask)) hl
    simp only [entryWave_rays] at hlane
    rw [← hp, mem_lanesOf hl, ← hrays] at hlane
    simpa using hlane

end Sys2Proof.Laws
end
section
/-! SUPPORT. Traversal contexts, ray-state blocks and the start of rays by `rt.trace` and `rt.replay` (R351, R353, R356). -/

namespace Sys2Proof.Laws

open Sys2Proof.Machine

/-! ### Contexts -/

theorem exec_rtTrace (f : RtTraceF) (s : State) : exec (.rtTrace f) s =
    issue (specM f.h 8 [vOp f.a 4, sOp f.b, sOp7 f.c]) (whenActive f.h (onContext f.b (rtTraceBody f))) s := rfl
theorem exec_rtReplay (f : RtReplayF) (s : State) : exec (.rtReplay f) s =
    issue (specM f.h 8 [sOp f.b, sOp7 f.c]) (whenActive f.h (onContext f.b (rtReplayBody f))) s := rfl

section Context

variable {sp : Spec} {s : State} {k : Nat} {w : Wave} {i : Instr} {hd : Hd} {b : Field11} {body : BitVec 512 → State → Nat → Wave → Res}
  {va : Nat} (h : Clear sp s k w) (hi : exec i s = issue sp (whenActive hd (onContext b body)) s) (ha : activeOf w hd.mask ≠ 0)
  (hva : (rdS w b.toNat).toNat = va)

include h hi ha hva

theorem context_unread {e : Fail} (he : checkOne s (whoOf s k) va 64 64 needRd .plain = .error e) :
    exec i s = .next (takeTrap (entryState sp s k w) k sp.len (e.trap.withLanes sp w)) := by
  refine exec_active h hi ha (r := .trap e.trap (entryState sp s k w)) ?_
  simp only [onContext, rdS_entry, whoOf_entry, checkOne_entry, hva, he]

variable {l : Loc} (hl : checkOne s (whoOf s k) va 64 64 needRd .plain = .ok l)

include hl

theorem context_notLocal (hloc : inLocal va = false) :
    exec i s = .next (takeTrap (entryState sp s k w) k sp.len ((addrRange va 0).trap.withLanes sp w)) := by
  refine exec_active h hi ha (r := .trap (addrRange va 0).trap (entryState sp s k w)) ?_
  simp only [onContext, rdS_entry, whoOf_entry, checkOne_entry, hva, hl, hloc, Bool.not_false, if_true]

variable (hloc : inLocal va = true) {c : BitVec 512} (hc : BitVec.ofNat 512 (rdN s l 64) = c)

include hloc hc

theorem context_bad (hbad : contextBad c (((s.group? (lsGroup s k)).map (·.lsKib)).getD 0) = true) :
    exec i s = .next (takeTrap (entryState sp s k w) k sp.len ((ringTrap va 0xFFFFFFFF).withLanes sp w)) := by
  refine exec_active h hi ha (r := .trap (ringTrap va 0xFFFFFFFF) (entryState sp s k w)) ?_
  simp only [onContext, rdS_entry, whoOf_entry, checkOne_entry, hva, hl, hloc, Bool.not_true, Bool.false_eq_true, if_false, rdN_entry, hc,
    lsGroup_entry, group?_entry, hbad, if_true]

theorem context_runs (hok : contextBad c (((s.group? (lsGroup s k)).map (·.lsKib)).getD 0) = false) {r : Res}
    (hr : body c (entryState sp s k w) k (entryWave sp s w) = r) : exec i s = .next (finish sp s k w r) := by
  refine exec_active h hi ha (r := r) ?_
  simp only [onContext, rdS_entry, whoOf_entry, checkOne_entry, hva, hl, hloc, Bool.not_true, Bool.false_eq_true, if_false, rdN_entry, hc,
    lsGroup_entry, group?_entry, hok, hr]

end Context

/-- A well-formed context lies in a group that has a local store (R351). -/
theorem group_of_context {c : BitVec 512} {s : State} {g : Nat} (hok : contextBad c (((s.group? g).map (·.lsKib)).getD 0) = false) :
    (s.group? g).isSome = true := by
  cases hg : s.group? g with
  | some x => rfl
  | none => simp [contextBad, hg] at hok

/-! ### Memory but for what free values have been drawn -/

/-- As `MemSame`, whatever free values have been drawn. -/
def DrawnSame (stored : List (Loc × Nat)) (marks : List Nat) (s t : State) : Prop := MemSame stored [] marks s { t with fresh := s.fresh }

section Drawn

variable {st st2 : List (Loc × Nat)} {marks marks2 : List Nat} {s t u : State}

theorem rdByte_fresh (s : State) (n : Nat) (l : Loc) : rdByte { s with fresh := n } l = rdByte s l := by cases l <;> rfl
theorem rdTag_fresh (s : State) (n : Nat) (l : Loc) : rdTag { s with fresh := n } l = rdTag s l := by cases l <;> rfl

theorem memSame_fresh {tg : List (Loc × Nat)} (h : MemSame st tg marks s t) (n : Nat) :
    MemSame st tg marks { s with fresh := n } { t with fresh := n } := by
  refine ⟨?_, h.groups, h.cores, fun l hl hm => ?_, fun a ha hl => ?_, fun l hl => ?_, h.poison, h.cleared⟩
  · rw [h.rest]
  · exact (rdByte_fresh t n l).trans ((h.bytes l hl hm).trans (rdByte_fresh s n l).symm)
  · obtain ⟨b, hb, hor⟩ := h.marks a ha hl
    exact ⟨b, hb, (rdByte_fresh t n _).trans (hor.trans (congrArg (· ||| b) (rdByte_fresh s n _).symm))⟩
  · exact (rdTag_fresh t n l).trans ((h.tags l hl).trans (rdTag_fresh s n l).symm)

theorem drawnSame_of (h : MemSame st [] marks s t) : DrawnSame st marks s t := by
  have hfresh : t.fresh = s.fresh := (congrArg State.fresh h.rest :)
  rw [DrawnSame, ← hfresh]
  exact h
theorem DrawnSame.refl (s : State) : DrawnSame [] [] s s :=
  drawnSame_of ⟨rfl, fun _ => rfl, fun _ => rfl, fun _ _ _ => rfl, by simp, fun _ _ => rfl, fun _ => id, fun _ => .inl⟩
theorem DrawnSame.trans (h : DrawnSame st marks s t) (h2 : DrawnSame st2 marks2 t u) : DrawnSame (st ++ st2) (marks ++ marks2) s u :=
  memSame_trans h (memSame_fresh h2 s.fresh)
theorem DrawnSame.bytes (h : DrawnSame st [] s t) {l : Loc} (hl : l.outside st) : rdByte t l = rdByte s l := by
  rw [← rdByte_fresh t s.fresh]
  exact MemSame.bytes h l hl (by simp)
theorem DrawnSame.cycle (h : DrawnSame st marks s t) : t.cycle = s.cycle := (congrArg State.cycle (MemSame.rest h) :)

theorem DrawnSame.isSome_group (h : DrawnSame st marks s t) (g : Nat) : (t.group? g).isSome = (s.group? g).isSome := by
  have hsome := congrArg Option.isSome (MemSame.groups h g)
  rw [Option.isSome_map, Option.isSome_map] at hsome
  exact hsome

theorem DrawnSame.here (h : DrawnSame st marks s t) (l : Loc) : l.here t = l.here s := by
  cases l with
  | ls g o => exact h.isSome_group g
  | _ => rfl

theorem memSame_book (sp : Spec) (k c : Nat) (old : Wave) (adv : Bool) (s : State) : MemSame [] [] [] s (book sp k c old adv s) := by
  refine ⟨rfl, fun g => rfl, fun j => ?_, fun l _ _ => rdByte_book .., by simp, fun l _ => by cases l <;> rfl, fun _ => id, fun _ => .inl⟩
  rw [book, modCore_issued, core_modWave]

end Drawn

/-! ### Ray-state blocks -/

/-- A ray's block written, and the ray given to its lane (R351). -/
def giveRay (lg k : Nat) (s : State) (q : Nat × Ray) : State :=
  (writeBlock s lg q.2).1.modWave k (fun w => { w with rays := kset q.1 (writeBlock s lg q.2).2 w.rays })
/-- Rays given to their lanes. -/
def giveRays (lg k : Nat) (rays : List (Nat × Ray)) (s : State) : State := rays.foldl (giveRay lg k) s

section Give

variable {lg k : Nat} {s : State} {x : Wave} {rays : List (Nat × Ray)}

theorem writeBlock_draws (s : State) (lg : Nat) (r : Ray) :
    ∃ v, writeBlock s lg r = (wrN { s with fresh := s.fresh + 1 } (.ls lg r.block) 1024 v, { r with shadow := v }) := ⟨_, rfl⟩

theorem drawnSame_writeBlock {r : Ray} (hg : (s.group? lg).isSome = true) : DrawnSame [(.ls lg r.block, 1024)] [] s (writeBlock s lg r).1 := by
  obtain ⟨v, hv⟩ := writeBlock_draws s lg r
  have hhere : (Loc.ls lg r.block).here { s with fresh := s.fresh + 1 } = true := hg
  have hsame := memSame_fresh (memSame_wrN hhere 1024 v) s.fresh
  rw [hv]
  exact hsame

theorem giveRay_memory (hg : (s.group? lg).isSome = true) (q : Nat × Ray) : DrawnSame [(.ls lg q.2.block, 1024)] [] s (giveRay lg k s q) := by
  have h := (drawnSame_writeBlock (r := q.2) hg).trans (drawnSame_of (memSame_modWave (writeBlock s lg q.2).1 k
    fun w => { w with rays := kset q.1 (writeBlock s lg q.2).2 w.rays }))
  rw [List.append_nil, List.append_nil] at h
  rw [giveRay]
  exact h

theorem giveRay_wave (hw : s.wave? k = some x) (q : Nat × Ray) :
    ∃ v, (giveRay lg k s q).wave? k = some { x with rays := kset q.1 { q.2 with shadow := v } x.rays } := by
  obtain ⟨v, hv⟩ := writeBlock_draws s lg q.2
  refine ⟨v, ?_⟩
  rw [giveRay, wave?_modWave_same, wave?_writeBlock, hw, hv]
  rfl

theorem giveRay_others {j : Nat} (h : j ≠ k) (q : Nat × Ray) : (giveRay lg k s q).wave? j = s.wave? j := by
  rw [giveRay, wave?_modWave_ne _ h, wave?_writeBlock]

/-- Rays given to different lanes: their blocks are all that is written, each lane has its ray, and nothing else of the waves changes. -/
theorem giveRays_spec (hg : (s.group? lg).isSome = true) (hw : s.wave? k = some x) (hnd : (rays.map (·.1)).Nodup) :
    DrawnSame (rays.map (fun q => (.ls lg q.2.block, 1024))) [] s (giveRays lg k rays s) ∧
    (∀ j, j ≠ k → (giveRays lg k rays s).wave? j = s.wave? j) ∧
    ∃ R, (giveRays lg k rays s).wave? k = some { x with rays := R } ∧ (∀ q ∈ rays, ∃ v, kfind q.1 R = some { q.2 with shadow := v }) ∧
      ∀ l, l ∉ rays.map (·.1) → kfind l R = kfind l x.rays := by
  induction rays generalizing s x with
  | nil => exact ⟨.refl s, fun _ _ => rfl, x.rays, hw, by simp, fun _ _ => rfl⟩
  | cons q rays ih =>
    obtain ⟨hq, hnd⟩ := List.nodup_cons.1 hnd
    have hmem := giveRay_memory (k := k) hg q
    obtain ⟨v, hwave⟩ := giveRay_wave (lg := lg) hw q
    have hg' : ((giveRay lg k s q).group? lg).isSome = true := (hmem.isSome_group lg).trans hg
    obtain ⟨hmem', hothers, R, hR, hgiven, hrest⟩ := ih hg' hwave hnd
    have hall := hmem.trans hmem'
    rw [List.singleton_append, List.nil_append] at hall
    rw [giveRays, List.foldl_cons, ← giveRays, List.map_cons]
    refine ⟨hall, fun j hj => (hothers j hj).trans (giveRay_others hj q), R, hR, fun p hp => ?_, fun l hl => ?_⟩
    · rcases List.mem_cons.1 hp with rfl | hp
      · exact ⟨v, (hrest _ hq).trans (kfind_kset_same ..)⟩
      · exact hgiven p hp
    · obtain ⟨hne, hl⟩ := not_or.1 (mt List.mem_cons.2 hl)
      exact (hrest l hl).trans (kfind_kset_ne hne ..)

end Give

end Sys2Proof.Laws
end
section
/-! SUPPORT. The marks of accesses do not depend on waves or cores (R64, R65). -/

namespace Sys2Proof.Laws

open Sys2Proof.Machine

/-- A state with other waves and cores. -/
def otherWaves (ws : List (Nat × Wave)) (cs : List (Nat × Core)) (s : State) : State := { s with waves := ws, cores := cs }

section Marks

variable (ws : List (Nat × Wave)) (cs : List (Nat × Core)) (s : State)

theorem wrBytes_otherWaves (a : Nat) (bs : List Byte) :
    wrBytes (otherWaves ws cs s) (.ext a) bs = otherWaves ws cs (wrBytes s (.ext a) bs) := by
  induction bs generalizing s a with
  | nil => rfl
  | cons b r ih => exact ih (wrByte s (.ext a) b) (a + 1)

theorem clearPoison_otherWaves (l : Loc) (n : Nat) : clearPoison (otherWaves ws cs s) l n = otherWaves ws cs (clearPoison s l n) := by
  unfold clearPoison
  cases eccPlace l with
  | none => rfl
  | some p =>
    dsimp only
    rw [apply_ite (otherWaves ws cs)]
    rfl

theorem wrN_otherWaves (a n v : Nat) : wrN (otherWaves ws cs s) (.ext a) n v = otherWaves ws cs (wrN s (.ext a) n v) := by
  rw [wrN, wrBytes_otherWaves, clearPoison_otherWaves, ← wrN]

theorem orEntry_otherWaves (a bits : Nat) : orEntry (otherWaves ws cs s) a bits = otherWaves ws cs (orEntry s a bits) := by
  have hrd : rdN (otherWaves ws cs s) (.ext a) 8 = rdN s (.ext a) 8 := rfl
  simp only [orEntry, hrd, wrN_otherWaves, apply_ite (otherWaves ws cs)]

theorem foldl_orEntry_otherWaves (path : List Nat) : path.foldl (fun s a => orEntry s a 0x20) (otherWaves ws cs s) =
    otherWaves ws cs (path.foldl (fun s a => orEntry s a 0x20) s) := by
  induction path generalizing s with
  | nil => rfl
  | cons a r ih => rw [List.foldl_cons, orEntry_otherWaves, ih, List.foldl_cons]

theorem touchOwn_otherWaves (tenant va : Nat) (write : Bool) :
    touchOwn (otherWaves ws cs s) tenant va write = otherWaves ws cs (touchOwn s tenant va write) := by
  have hwalk : walkUsed (otherWaves ws cs s) tenant va = walkUsed s tenant va := rfl
  have hfind (t : State) : tlbFind (otherWaves ws cs t) tenant va = tlbFind t tenant va := rfl
  unfold touchOwn
  rw [hwalk]
  split
  · cases walkUsed s tenant va with
    | fail lv fmt => rfl
    | ecc => rfl
    | leaf lv e path =>
      dsimp only
      rw [foldl_orEntry_otherWaves, hfind, apply_ite (otherWaves ws cs)]
      cases write <;> cases path.getLast? <;> simp only [orEntry_otherWaves] <;> rfl
  · rfl

theorem touch_otherWaves (tenant va : Nat) (write : Bool) :
    touch (otherWaves ws cs s) tenant va write = otherWaves ws cs (touch s tenant va write) := by
  have hwin : ownWindow (otherWaves ws cs s) tenant va = ownWindow s tenant va := rfl
  unfold touch
  rw [hwin]
  cases ownWindow s tenant va with
  | none => exact touchOwn_otherWaves ws cs s tenant va write
  | some p => exact touchOwn_otherWaves ws cs s p.1 p.2 write

theorem entriesAll_otherWaves (tenant : Nat) (write : Bool) (as : List Nat) :
    entriesAll (otherWaves ws cs s) tenant write as = entriesAll s tenant write as := by
  induction as generalizing s with
  | nil => rfl
  | cons a r ih =>
    rw [entriesAll, touch_otherWaves, ih, entriesAll]
    rfl

end Marks

theorem entriesAll_entry (sp : Spec) (s : State) (k : Nat) (w : Wave) (tenant : Nat) (write : Bool) (as : List Nat) :
    entriesAll (entryState sp s k w) tenant write as = entriesAll s tenant write as := by
  obtain ⟨ws, cs, h⟩ := entry_eq sp s k w
  rw [h]
  exact entriesAll_otherWaves ws cs s tenant write as

end Sys2Proof.Laws
end
section
/-! SUPPORT. Rays started in the lanes of Active: what `rt.trace` and `rt.replay` leave (R353, R356). -/

namespace Sys2Proof.Laws

open Sys2Proof.Machine

/-- Storing may be told of more places than it touches. -/
theorem DrawnSame.mono {st st2 : List (Loc × Nat)} {marks : List Nat} {s t : State} (h : DrawnSame st marks s t) (hst : ∀ p ∈ st, p ∈ st2) :
    DrawnSame st2 marks s t := by
  have houtside {l : Loc} (hl : l.outside st2) : l.outside st := fun p hp => hl p (hst p hp)
  exact ⟨h.rest, h.groups, h.cores, fun l hl => MemSame.bytes h l (houtside hl), fun a ha hl => MemSame.marks h a ha (houtside hl), h.tags, h.poison,
    fun p hp => (h.cleared p hp).imp_right fun ⟨r, hr, ha⟩ => ⟨r, hst r hr, ha⟩⟩

/-- The blocks of some rays (R351). -/
def blocksOf (lg : Nat) (rays : List (Nat × Ray)) : List (Loc × Nat) := rays.map (fun q => (.ls lg q.2.block, 1024))

/-- An instruction that has prepared memory and then gives rays to their lanes has completed. -/
theorem rays_started {sp : Spec} {s u : State} {k lg : Nat} {w : Wave} {i : Instr} {rays : List (Nat × Ray)} {st : List (Loc × Nat)} {marks : List Nat}
    (hi : exec i s = .next (finish sp s k w (.ok (giveRays lg k rays u)))) (hu : DrawnSame st marks s u)
    (hw : u.wave? k = some (entryWave sp s w)) (hothers : ∀ j, j ≠ k → u.wave? j = s.wave? j) (hg : (s.group? lg).isSome = true)
    (hnd : (rays.map (·.1)).Nodup) :
    ∃ t w', exec i s = .next t ∧ t.wave? k = some w' ∧ w' = { wavePart w w' with rays := w'.rays } ∧ SameRegs [] w w' ∧ w'.xa = w.xa ∧
      w'.pc = w.pc + w64 sp.len ∧ (∀ j, j ≠ k → t.wave? j = s.wave? j) ∧ DrawnSame (blocksOf lg rays ++ st) marks s t ∧
      (∀ l, l.outside (blocksOf lg rays) → rdByte t l = rdByte u l) ∧
      (∀ q ∈ rays, ∃ v, kfind q.1 w'.rays = some { q.2 with shadow := v }) ∧
      ∀ l, l ∉ rays.map (·.1) → kfind l w'.rays = kfind l w.rays := by
  obtain ⟨hmem, hkeep, R, hR, hgiven, hrest⟩ := giveRays_spec (lg := lg) ((hu.isSome_group lg).trans hg) hw hnd
  obtain ⟨y, hy⟩ : ∃ y, y = bookWave sp (giveRays lg k rays u).cycle w true { entryWave sp s w with rays := R } := ⟨_, rfl⟩
  have hbook := memSame_book sp k (coreOf s k) w true (giveRays lg k rays u)
  obtain ⟨hpart, hxa, hpc, hrays⟩ := booked_rays (raysOnly_rays (entryWave sp s w) R) hy
  refine ⟨_, y, hi, ?_, hpart, ?_, hxa, hpc, fun j hj => ?_, ?_, fun l hl => ?_, ?_, ?_⟩
  · rw [finish, wave?_book, hR, hy]
    rfl
  · rw [hy]
    exact sameRegs_booked (sameRegs_entry (sameRegs_of rfl rfl rfl))
  · rw [finish, wave?_book_ne _ _ _ _ _ _ hj, hkeep j hj, hothers j hj]
  · have hall := (hu.trans hmem).trans (drawnSame_of hbook)
    rw [List.append_nil, List.append_nil, List.append_nil] at hall
    exact hall.mono fun p hp => List.mem_append.2 (List.mem_append.1 hp).symm
  · rw [finish, rdByte_book, hmem.bytes hl]
  · rw [hrays]
    exact hgiven
  · rw [hrays]
    exact fun l hl => (hrest l hl).trans (by rw [entryWave_rays])

/-! ### Headers of logs -/

/-- The accesses to the rays' log headers, one after another. -/
theorem foldl_touch_tenant {k : Nat} {write : Bool} {tenant : Nat} {rays : List (Nat × Ray)} {s : State} (ht : tenantOf s k = tenant) :
    rays.foldl (fun s q => touch s (tenantOf s k) q.2.loga write) s =
      (rays.map (fun q => q.2.loga)).foldl (fun s a => touch s tenant a write) s := by
  induction rays generalizing s with
  | nil => rfl
  | cons q r ih =>
    rw [List.foldl_cons, List.map_cons, List.foldl_cons, ht]
    exact ih (((keeps_touch ..).tenantOf k).trans ht)

/-- Log headers of zeros (R352). -/
def zeroed (places : List Loc) (s : State) : State := places.foldl (fun s l => wrN s l 16 0) s

section Zeroed

variable {places : List Loc} {s : State}

theorem keeps_zeroed : Keeps s (zeroed places s) := .foldl (fun t l => keeps_wrN t l 16 0) _ s

theorem memSame_zeroed (hhere : ∀ l ∈ places, l.here s = true) : MemSame (places.map (fun l => (l, 16))) [] [] s (zeroed places s) := by
  induction places generalizing s with
  | nil => exact ⟨rfl, fun _ => rfl, fun _ => rfl, fun _ _ _ => rfl, by simp, fun _ _ => rfl, fun _ => id, fun _ => .inl⟩
  | cons l r ih =>
    obtain ⟨hl, hr⟩ := List.forall_mem_cons.1 hhere
    exact memSame_trans (memSame_wrN hl 16 0) (ih fun m hm => (here_wrN ..).trans (hr m hm))

theorem zero_wrN {l m : Loc} (hl : l.here s = true) (h : rdByte s m = 0) : rdByte (wrN s l 16 0) m = 0 := by
  rw [rdByte_wrN hl]
  split
  · rw [Nat.zero_div]
    rfl
  · exact h
theorem zero_zeroed {m : Loc} (hhere : ∀ l ∈ places, l.here s = true) (h : rdByte s m = 0) : rdByte (zeroed places s) m = 0 := by
  induction places generalizing s with
  | nil => exact h
  | cons l r ih =>
    obtain ⟨hl, hr⟩ := List.forall_mem_cons.1 hhere
    exact ih (fun m hm => (here_wrN ..).trans (hr m hm)) (zero_wrN hl h)

theorem rdByte_zeroed (hhere : ∀ l ∈ places, l.here s = true) {l : Loc} (h : l ∈ places) {i : Nat} (hi : i < 16) :
    rdByte (zeroed places s) (l.plus i) = 0 := by
  induction places generalizing s with
  | nil => cases h
  | cons m r ih =>
    obtain ⟨hm, hr⟩ := List.forall_mem_cons.1 hhere
    have hr' (n : Loc) (hn : n ∈ r) : n.here (wrN s m 16 0) = true := (here_wrN ..).trans (hr n hn)
    rcases List.mem_cons.1 h with rfl | h
    · refine zero_zeroed (s := wrN s l 16 0) hr' ?_
      rw [rdByte_wrN hm, cell_plus, if_pos (by simp [hi]), Nat.zero_div]
      rfl
    · exact ih hr' h

end Zeroed

theorem rdN_zero {s : State} {l : Loc} {n : Nat} (hl : l.here s = true) (h : ∀ i, i < n → rdByte s (l.plus i) = 0) : rdN s l n = 0 := by
  have hsame : rdN s l n = rdN (wrN s l n 0) l n := by
    refine rdN_congr fun i hi => ?_
    rw [h i hi, rdByte_wrN hl, cell_plus, if_pos (by simp [hi]), Nat.zero_div]
    rfl
  rw [hsame, rdN_wrN_same hl, Nat.zero_mod]

/-! ### The first lane that cannot start -/

theorem find?_first {p : Nat → Bool} {ls : List Nat} {l : Nat} (hl : l ∈ ls) (hs : ls.Pairwise (· < ·)) (hp : p l = true)
    (hfirst : ∀ m ∈ ls, m < l → p m = false) : ls.find? p = some l := by
  induction ls with
  | nil => cases hl
  | cons m r ih =>
    obtain ⟨hm, hr⟩ := List.pairwise_cons.1 hs
    rcases List.mem_cons.1 hl with rfl | hl
    · exact List.find?_cons_of_pos hp
    · rw [List.find?_cons_of_neg (ne_true_of_eq_false (hfirst m List.mem_cons_self (hm l hl)))]
      exact ih hl hr fun m' hm' => hfirst m' (List.mem_cons_of_mem _ hm')

theorem sorted_lanesOf (m : LaneMask) : (lanesOf m).Pairwise (· < ·) := List.pairwise_lt_range.filter _

theorem worst_ok {ls : List Nat} {f : Nat → Except Fail Loc} {place : Nat → Loc} (h : ∀ l ∈ ls, f l = .ok (place l)) : worst (ls.map f) = none := by
  induction ls with
  | nil => rfl
  | cons l r ih =>
    obtain ⟨hl, hr⟩ := List.forall_mem_cons.1 h
    rw [List.map_cons, hl]
    exact ih hr

end Sys2Proof.Laws
end
section
/-! SUPPORT. `rt.trace` and `rt.replay` over the lanes of Active (R353, R356). -/

namespace Sys2Proof.Laws

open Sys2Proof.Machine

/-! ### `rt.trace` -/

/-- The ray of each lane of Active (R353). -/
def tracedRays (f : RtTraceF) (c : BitVec 512) (w : Wave) : List (Nat × Ray) :=
  (lanesOf (activeOf w f.h.mask)).map (fun l => (l, newRay w f.a.toNat l ((rdS w f.c.toNat).toNat + l) c))

theorem newRay_entry (sp : Spec) (s : State) (w : Wave) (a l idx : Nat) (c : BitVec 512) :
    newRay (entryWave sp s w) a l idx c = newRay w a l idx c := by simp only [newRay, rdV_entry]
theorem rayLive_entry (sp : Spec) (s : State) (w : Wave) (l : Nat) : rayLive (entryWave sp s w) l = rayLive w l := by
  simp only [rayLive, rayOf, entryWave_rays]
theorem tracedRays_entry (sp : Spec) (s : State) (w : Wave) (f : RtTraceF) (c : BitVec 512) :
    tracedRays f c (entryWave sp s w) = tracedRays f c w := by simp only [tracedRays, newRay_entry, activeOf_entry, rdS_entry]

/-- Memory as `rt.trace` prepares it: with LOG set, the headers of the logs (R352). -/
def tracePrepared (f : RtTraceF) (c : BitVec 512) (tenant : Nat) (w : Wave) (place : Nat → Loc) (s : State) : State :=
  if c.getLsbD 144 then
    zeroed ((lanesOf (activeOf w f.h.mask)).map place) (((tracedRays f c w).map (fun q => q.2.loga)).foldl (fun s a => touch s tenant a true) s)
  else s

theorem keeps_tracePrepared {f : RtTraceF} {c : BitVec 512} {tenant : Nat} {w : Wave} {place : Nat → Loc} {s : State} :
    Keeps s (tracePrepared f c tenant w place s) := by
  unfold tracePrepared
  split
  · exact (Keeps.foldl (fun t a => keeps_touch t tenant a true) _ s).trans keeps_zeroed
  · exact .refl s

/-- A header written with zeros where its check passed (R352). -/
def zeroHeader (s : State) (q : Except Fail Loc) : State := match q with
  | .ok l => wrN s l 16 0
  | .error _ => s

theorem foldl_zeroHeader (ls : List Nat) (place : Nat → Loc) (s : State) :
    (ls.map (fun l => (.ok (place l) : Except Fail Loc))).foldl zeroHeader s = zeroed (ls.map place) s := by
  rw [zeroed, List.foldl_map, List.foldl_map]
  rfl

section Trace

variable {f : RtTraceF} {c : BitVec 512} {s : State} {k : Nat} {w : Wave}

theorem rtTraceBody_eq (f : RtTraceF) (c : BitVec 512) (s : State) (k : Nat) (w : Wave) : rtTraceBody f c s k w =
    match (tracedRays f c w).find? (fun q => rayBad q.2 || rayLive w q.1) with
    | some q => .trap (travTrap q.2.idx (if rayBad q.2 then 1 else 6)) s
    | none =>
      let logs := if c.getLsbD 144 then (tracedRays f c w).map (fun q => checkOne s (whoOf s k) q.2.loga 16 16 needWr .plain) else []
      match worst logs with
      | some e => .trap e.trap s
      | none =>
        let u := logs.foldl zeroHeader
          (if c.getLsbD 144 then (tracedRays f c w).foldl (fun s q => touch s (tenantOf s k) q.2.loga true) s else s)
        .ok (giveRays (lsGroup u k) k (tracedRays f c w) u) := rfl

theorem rtTraceBody_refuses {q : Nat × Ray} (h : (tracedRays f c w).find? (fun q => rayBad q.2 || rayLive w q.1) = some q) :
    rtTraceBody f c s k w = .trap (travTrap q.2.idx (if rayBad q.2 then 1 else 6)) s := by simp only [rtTraceBody_eq, h]

variable (h : (tracedRays f c w).find? (fun q => rayBad q.2 || rayLive w q.1) = none)

include h

theorem rtTraceBody_unwritable (hlog : c.getLsbD 144 = true) {e : Fail}
    (he : worst ((tracedRays f c w).map (fun q => checkOne s (whoOf s k) q.2.loga 16 16 needWr .plain)) = some e) :
    rtTraceBody f c s k w = .trap e.trap s := by simp only [rtTraceBody_eq, h, hlog, if_true, he]

theorem rtTraceBody_starts {place : Nat → Loc} (hplace : c.getLsbD 144 = true → ∀ l ∈ lanesOf (activeOf w f.h.mask),
      checkOne s (whoOf s k) (newRay w f.a.toNat l ((rdS w f.c.toNat).toNat + l) c).loga 16 16 needWr .plain = .ok (place l)) :
    rtTraceBody f c s k w = .ok (giveRays (lsGroup s k) k (tracedRays f c w) (tracePrepared f c (tenantOf s k) w place s)) := by
  rw [rtTraceBody_eq]
  simp only [h]
  cases hlog : c.getLsbD 144 with
  | false => simp only [hlog, tracePrepared, Bool.false_eq_true, if_false, worst, List.foldl_nil]
  | true =>
    have hlogs : (tracedRays f c w).map (fun q => checkOne s (whoOf s k) q.2.loga 16 16 needWr .plain) =
        (lanesOf (activeOf w f.h.mask)).map (fun l => .ok (place l)) := by
      rw [tracedRays, List.map_map]
      exact List.map_congr_left fun l hl => hplace hlog l hl
    have hworst : worst ((lanesOf (activeOf w f.h.mask)).map (fun l => (.ok (place l) : Except Fail Loc))) = none := worst_ok fun _ _ => rfl
    have hprep : ((lanesOf (activeOf w f.h.mask)).map (fun l => (.ok (place l) : Except Fail Loc))).foldl zeroHeader
        ((tracedRays f c w).foldl (fun s q => touch s (tenantOf s k) q.2.loga true) s) = tracePrepared f c (tenantOf s k) w place s := by
      rw [foldl_zeroHeader, foldl_touch_tenant rfl, tracePrepared, if_pos hlog]
    have hkeeps : Keeps s (tracePrepared f c (tenantOf s k) w place s) := keeps_tracePrepared
    simp only [if_true, hlogs, hworst, hprep]
    rw [lsGroup, hkeeps.originGroup, lsGroup]

end Trace

theorem here_entry (sp : Spec) (s : State) (k : Nat) (w : Wave) (l : Loc) : l.here (entryState sp s k w) = l.here s := by
  obtain ⟨ws, cs, h⟩ := entry_eq sp s k w
  rw [h]
  cases l <;> rfl

section TraceEntry

variable {f : RtTraceF} {c : BitVec 512} {sp : Spec} {s : State} {k : Nat} {w : Wave}

theorem find_tracedRays {l : Nat} (hl : l ∈ lanesOf (activeOf w f.h.mask))
    (hbad : (rayBad (newRay w f.a.toNat l ((rdS w f.c.toNat).toNat + l) c) || rayLive w l) = true)
    (hfirst : ∀ m ∈ lanesOf (activeOf w f.h.mask), m < l →
      (rayBad (newRay w f.a.toNat m ((rdS w f.c.toNat).toNat + m) c) || rayLive w m) = false) :
    (tracedRays f c w).find? (fun q => rayBad q.2 || rayLive w q.1) = some (l, newRay w f.a.toNat l ((rdS w f.c.toNat).toNat + l) c) := by
  rw [tracedRays, List.find?_map]
  exact congrArg (Option.map _) (find?_first hl (sorted_lanesOf _) hbad hfirst)

theorem find_tracedRays_none (hgood : ∀ l ∈ lanesOf (activeOf w f.h.mask),
      (rayBad (newRay w f.a.toNat l ((rdS w f.c.toNat).toNat + l) c) || rayLive w l) = false) :
    (tracedRays f c w).find? (fun q => rayBad q.2 || rayLive w q.1) = none := by
  rw [List.find?_eq_none]
  intro q hq
  obtain ⟨l, hl, rfl⟩ := List.mem_map.1 hq
  exact ne_true_of_eq_false (hgood l hl)

/-- A wave's lanes are refused as they are when the instruction finds it. -/
theorem refused_entry : (fun q : Nat × Ray => rayBad q.2 || rayLive (entryWave sp s w) q.1) = fun q => rayBad q.2 || rayLive w q.1 := by
  simp only [rayLive_entry]

theorem keys_tracedRays : (tracedRays f c w).map (·.1) = lanesOf (activeOf w f.h.mask) := by
  rw [tracedRays, List.map_map]
  exact List.map_id _
theorem logs_tracedRays : (tracedRays f c w).map (fun q => q.2.loga) =
    (lanesOf (activeOf w f.h.mask)).map (fun l => (newRay w f.a.toNat l ((rdS w f.c.toNat).toNat + l) c).loga) := by
  rw [tracedRays, List.map_map]
  rfl
theorem blocksOf_tracedRays (lg : Nat) : blocksOf lg (tracedRays f c w) =
    (lanesOf (activeOf w f.h.mask)).map (fun l => (.ls lg (cState c + 1024 * l), 1024)) := by
  rw [blocksOf, tracedRays, List.map_map]
  rfl

variable {place : Nat → Loc} {tenant : Nat}

theorem tracePrepared_memory (hhere : c.getLsbD 144 = true → ∀ l ∈ lanesOf (activeOf w f.h.mask), (place l).here s = true) :
    DrawnSame (if c.getLsbD 144 then (lanesOf (activeOf w f.h.mask)).map (fun l => (place l, 16)) else [])
      (if c.getLsbD 144 then entriesAll s tenant true ((lanesOf (activeOf w f.h.mask)).map
        (fun l => (newRay w f.a.toNat l ((rdS w f.c.toNat).toNat + l) c).loga)) else [])
      s (tracePrepared f c tenant w place (entryState sp s k w)) := by
  have hentry := drawnSame_of (memSame_entry sp s k w)
  unfold tracePrepared
  cases hlog : c.getLsbD 144 with
  | false => simpa using hentry
  | true =>
    simp only [if_true, logs_tracedRays]
    have htouch := touchAll_touched tenant true ((lanesOf (activeOf w f.h.mask)).map
        (fun l => (newRay w f.a.toNat l ((rdS w f.c.toNat).toNat + l) c).loga)) (entryState sp s k w)
    rw [entriesAll_entry] at htouch
    have hzero := memSame_zeroed (places := (lanesOf (activeOf w f.h.mask)).map place) (s := List.foldl _ (entryState sp s k w) _) fun m hm => by
      obtain ⟨l, hl, rfl⟩ := List.mem_map.1 hm
      exact (htouch.keeps.here _).trans ((here_entry ..).trans (hhere hlog l hl))
    have hall := hentry.trans ((drawnSame_of htouch.memSame).trans (drawnSame_of hzero))
    simp only [List.nil_append, List.append_nil, List.map_map] at hall
    exact hall

/-- With LOG set the headers are zeros (R352). -/
theorem tracePrepared_zero (hlog : c.getLsbD 144 = true) (hhere : ∀ l ∈ lanesOf (activeOf w f.h.mask), (place l).here s = true) {l i : Nat}
    (hl : l ∈ lanesOf (activeOf w f.h.mask)) (hi : i < 16) :
    rdByte (tracePrepared f c tenant w place (entryState sp s k w)) ((place l).plus i) = 0 := by
  rw [tracePrepared, if_pos hlog]
  refine rdByte_zeroed (fun m hm => ?_) (List.mem_map_of_mem hl) hi
  obtain ⟨j, hj, rfl⟩ := List.mem_map.1 hm
  exact ((Keeps.foldl (fun t a => keeps_touch t tenant a true) _ _).here _).trans ((here_entry ..).trans (hhere j hj))

end TraceEntry

end Sys2Proof.Laws
end
section
/-! SUPPORT. `rt.trace` with a well-formed context: refused, or a ray in each lane of Active (R353). -/

namespace Sys2Proof.Laws

open Sys2Proof.Machine

section Traced

variable {f : RtTraceF} {sp : Spec} {s : State} {k : Nat} {w : Wave} {i : Instr} {c : BitVec 512}
  (hrun : ∀ r, rtTraceBody f c (entryState sp s k w) k (entryWave sp s w) = r → exec i s = .next (finish sp s k w r))

include hrun

theorem trace_refused {l : Nat} (hl : l ∈ lanesOf (activeOf w f.h.mask))
    (hbad : (rayBad (newRay w f.a.toNat l ((rdS w f.c.toNat).toNat + l) c) || rayLive w l) = true)
    (hfirst : ∀ m ∈ lanesOf (activeOf w f.h.mask), m < l →
      (rayBad (newRay w f.a.toNat m ((rdS w f.c.toNat).toNat + m) c) || rayLive w m) = false) :
    exec i s = .next (takeTrap (entryState sp s k w) k sp.len ((travTrap ((rdS w f.c.toNat).toNat + l)
      (if rayBad (newRay w f.a.toNat l ((rdS w f.c.toNat).toNat + l) c) then 1 else 6)).withLanes sp w)) := by
  refine hrun (.trap _ _) (rtTraceBody_refuses (q := (l, newRay w f.a.toNat l ((rdS w f.c.toNat).toNat + l) c)) ?_)
  rw [tracedRays_entry, refused_entry]
  exact find_tracedRays hl hbad hfirst

variable (hgood : ∀ l ∈ lanesOf (activeOf w f.h.mask),
  (rayBad (newRay w f.a.toNat l ((rdS w f.c.toNat).toNat + l) c) || rayLive w l) = false)

include hgood

theorem trace_unwritable (hlog : c.getLsbD 144 = true) {e : Fail}
    (he : worst ((lanesOf (activeOf w f.h.mask)).map (fun l => checkOne s (whoOf s k)
      (newRay w f.a.toNat l ((rdS w f.c.toNat).toNat + l) c).loga 16 16 needWr .plain)) = some e) :
    exec i s = .next (takeTrap (entryState sp s k w) k sp.len (e.trap.withLanes sp w)) := by
  have hnone := find_tracedRays_none hgood
  refine hrun (.trap _ _) (rtTraceBody_unwritable ?_ hlog ?_)
  · rwa [tracedRays_entry, refused_entry]
  · rw [tracedRays_entry, tracedRays, List.map_map, whoOf_entry]
    simp only [Function.comp_def, checkOne_entry, he]

theorem trace_starts {place : Nat → Loc} (hg : (s.group? (lsGroup s k)).isSome = true)
    (hplace : c.getLsbD 144 = true → ∀ l ∈ lanesOf (activeOf w f.h.mask),
      checkOne s (whoOf s k) (newRay w f.a.toNat l ((rdS w f.c.toNat).toNat + l) c).loga 16 16 needWr .plain = .ok (place l)) :
    let act := lanesOf (activeOf w f.h.mask)
    let blocks : List (Loc × Nat) := act.map (fun l => (.ls (lsGroup s k) (cState c + 1024 * l), 1024))
    ∃ t w', exec i s = .next t ∧ t.wave? k = some w' ∧ w' = { wavePart w w' with rays := w'.rays } ∧ SameRegs [] w w' ∧ w'.xa = w.xa ∧
      w'.pc = w.pc + w64 sp.len ∧ (∀ j, j ≠ k → t.wave? j = s.wave? j) ∧
      DrawnSame (blocks ++ (if c.getLsbD 144 then act.map (fun l => (place l, 16)) else []))
        (if c.getLsbD 144 then entriesAll s (tenantOf s k) true (act.map
          (fun l => (newRay w f.a.toNat l ((rdS w f.c.toNat).toNat + l) c).loga)) else []) s t ∧
      (c.getLsbD 144 = true → ∀ l ∈ act, (∀ i, i < 16 → ((place l).plus i).outside blocks) → rdN t (place l) 16 = 0) ∧
      ∀ l, l < 32 → kfind l w'.rays = if (activeOf w f.h.mask).getLsbD l
        then some { newRay w f.a.toNat l ((rdS w f.c.toNat).toNat + l) c with shadow := ((kfind l w'.rays).map (·.shadow)).getD 0 }
        else kfind l w.rays := by
  intro act blocks
  have hhere (hlog : c.getLsbD 144 = true) (l : Nat) (hl : l ∈ act) : (place l).here s = true := here_checkOne (hplace hlog l hl)
  have hbody : rtTraceBody f c (entryState sp s k w) k (entryWave sp s w) =
      .ok (giveRays (lsGroup s k) k (tracedRays f c w) (tracePrepared f c (tenantOf s k) w place (entryState sp s k w))) := by
    have hstart := rtTraceBody_starts (f := f) (c := c) (s := entryState sp s k w) (k := k) (w := entryWave sp s w) (place := place)
      (by rw [tracedRays_entry, refused_entry]; exact find_tracedRays_none hgood)
      (by simpa only [activeOf_entry, rdS_entry, newRay_entry, whoOf_entry, checkOne_entry] using hplace)
    rw [hstart, tracedRays_entry, lsGroup_entry, tenantOf_entry]
    simp only [tracePrepared, tracedRays_entry, activeOf_entry]
  have hwave (j : Nat) : (tracePrepared f c (tenantOf s k) w place (entryState sp s k w)).wave? j = (entryState sp s k w).wave? j :=
    keeps_tracePrepared.wave j
  obtain ⟨t, w', ht, hw', hpart, hregs, hxa, hpc, hothers, hmem, hbytes, hgiven, hrest⟩ := rays_started (lg := lsGroup s k) (hrun _ hbody)
    (tracePrepared_memory hhere) ((hwave k).trans (entryState_wave ..)) (fun j hj => (hwave j).trans (entryState_others _ _ _ hj)) hg
    (by rw [keys_tracedRays]; exact nodup_lanesOf _)
  rw [blocksOf_tracedRays] at hmem hbytes
  rw [keys_tracedRays] at hrest
  refine ⟨t, w', ht, hw', hpart, hregs, hxa, hpc, hothers, hmem, fun hlog l hl hout => ?_, fun l hl => ?_⟩
  · have hheret : (place l).here t = true := (hmem.here _).trans (hhere hlog l hl)
    exact rdN_zero hheret fun i hi => (hbytes _ (hout i hi)).trans (tracePrepared_zero hlog (hhere hlog) hl hi)
  · split
    · next hact =>
      obtain ⟨v, hv⟩ := hgiven (l, newRay w f.a.toNat l ((rdS w f.c.toNat).toNat + l) c) (List.mem_map.2 ⟨l, (mem_lanesOf hl).2 hact, rfl⟩)
      rw [hv]
      rfl
    · next hact => exact hrest l (mt (mem_lanesOf hl).1 hact)

end Traced

end Sys2Proof.Laws
end
section
/-! SUPPORT. `rt.replay` with a well-formed context: refused, or a replay in each lane of Active (R356). -/

namespace Sys2Proof.Laws

open Sys2Proof.Machine

/-- What a lane's block still holds of its ray (R356). -/
def heldRay (w : Wave) (block l : Nat) : Ray := match rayOf w l with
  | some r => if r.block = block then r else {}
  | none => {}

/-- Where the log of a ray lies (R352). -/
def logAt (c : BitVec 512) (idx : Nat) : Nat := bitsAt c 64 64 + 16 * bitsAt c 128 16 * idx

/-- A lane's replay at its start (R356). -/
def replayRay (f : RtReplayF) (c : BitVec 512) (w : Wave) (l : Nat) : Ray :=
  let idx := (rdS w f.c.toNat).toNat + l
  { heldRay w (cState c + 1024 * l) l with
    idx := idx, cull := bitsAt c 146 2, replay := true, log := false, logn := bitsAt c 128 16, loga := logAt c idx, block := cState c + 1024 * l
    stack := [], leaf := none, cand := none, tried := false, accepted := false, hit := none, logCount := 0, logPos := 1, lastHit := false
    done := none }
/-- The replays of the lanes of Active. -/
def replayRays (f : RtReplayF) (c : BitVec 512) (w : Wave) : List (Nat × Ray) :=
  (lanesOf (activeOf w f.h.mask)).map (fun l => (l, replayRay f c w l))

/-- A log whose FINAL says neither a miss nor a hit (R356). -/
def finalBad (s : State) (q : (Nat × Ray) × Except Fail Loc) : Bool := match q.2 with
  | .ok h => decide (field (rdN s h 16) 32 3 = 0) || decide (2 < field (rdN s h 16) 32 3)
  | .error _ => false

theorem rtReplayBody_eq (f : RtReplayF) (c : BitVec 512) (s : State) (k : Nat) (w : Wave) : rtReplayBody f c s k w =
    let hs := (replayRays f c w).map (fun q => checkOne s (whoOf s k) q.2.loga 16 16 needRd .plain)
    match worst hs with
    | some e => .trap e.trap s
    | none =>
      match ((replayRays f c w).zip hs).find? (finalBad s) with
      | some q => .trap (travTrap q.1.2.idx 3) s
      | none =>
        let u := (replayRays f c w).foldl (fun s q => touch s (tenantOf s k) q.2.loga false) s
        .ok (giveRays (lsGroup u k) k (replayRays f c w) u) := rfl

theorem replayRays_entry (sp : Spec) (s : State) (w : Wave) (f : RtReplayF) (c : BitVec 512) :
    replayRays f c (entryWave sp s w) = replayRays f c w := by
  simp only [replayRays, replayRay, heldRay, rayOf, entryWave_rays, activeOf_entry, rdS_entry]

section Replayed

variable {f : RtReplayF} {sp : Spec} {s : State} {k : Nat} {w : Wave} {i : Instr} {c : BitVec 512}
  (hrun : ∀ r, rtReplayBody f c (entryState sp s k w) k (entryWave sp s w) = r → exec i s = .next (finish sp s k w r))

/-- The checks of the lanes' headers, as the instruction finds memory. -/
theorem headers_entry (sp : Spec) : (replayRays f c w).map (fun q => checkOne (entryState sp s k w) (whoOf (entryState sp s k w) k) q.2.loga 16 16 needRd .plain) =
    (lanesOf (activeOf w f.h.mask)).map (fun l => checkOne s (whoOf s k) (logAt c ((rdS w f.c.toNat).toNat + l)) 16 16 needRd .plain) := by
  rw [replayRays, List.map_map, whoOf_entry]
  simp only [Function.comp_def, checkOne_entry]
  rfl

include hrun

theorem replay_unreadable {e : Fail} (he : worst ((lanesOf (activeOf w f.h.mask)).map (fun l =>
      checkOne s (whoOf s k) (logAt c ((rdS w f.c.toNat).toNat + l)) 16 16 needRd .plain)) = some e) :
    exec i s = .next (takeTrap (entryState sp s k w) k sp.len (e.trap.withLanes sp w)) := by
  refine hrun (.trap _ _) ?_
  simp only [rtReplayBody_eq, replayRays_entry, headers_entry, he]

variable {place : Nat → Loc} (hplace : ∀ l ∈ lanesOf (activeOf w f.h.mask),
  checkOne s (whoOf s k) (logAt c ((rdS w f.c.toNat).toNat + l)) 16 16 needRd .plain = .ok (place l))

omit hrun in
/-- Each lane's replay beside its header. -/
theorem zip_headers (ls : List Nat) (place : Nat → Loc) (g : Nat → Nat × Ray) :
    (ls.map g).zip (ls.map (fun l => (.ok (place l) : Except Fail Loc))) = ls.map (fun l => (g l, .ok (place l))) := by
  rw [List.zip_map']

include hplace

omit hrun in
theorem find_finalBad {sp : Spec} : ((replayRays f c w).zip ((lanesOf (activeOf w f.h.mask)).map (fun l =>
      checkOne s (whoOf s k) (logAt c ((rdS w f.c.toNat).toNat + l)) 16 16 needRd .plain))).find? (finalBad (entryState sp s k w)) =
    ((lanesOf (activeOf w f.h.mask)).find? (fun l => decide (field (rdN s (place l) 16) 32 3 = 0) || decide (2 < field (rdN s (place l) 16) 32 3))).map
      (fun l => ((l, replayRay f c w l), .ok (place l))) := by
  rw [List.map_congr_left hplace, replayRays, zip_headers, List.find?_map]
  simp only [Function.comp_def, finalBad, rdN_entry]

theorem replay_refused {l : Nat} (hl : l ∈ lanesOf (activeOf w f.h.mask))
    (hbad : field (rdN s (place l) 16) 32 3 = 0 ∨ 2 < field (rdN s (place l) 16) 32 3)
    (hfirst : ∀ m ∈ lanesOf (activeOf w f.h.mask), m < l → field (rdN s (place m) 16) 32 3 = 1 ∨ field (rdN s (place m) 16) 32 3 = 2) :
    exec i s = .next (takeTrap (entryState sp s k w) k sp.len ((travTrap ((rdS w f.c.toNat).toNat + l) 3).withLanes sp w)) := by
  have hfind := find?_first (p := fun l => decide (field (rdN s (place l) 16) 32 3 = 0) || decide (2 < field (rdN s (place l) 16) 32 3)) hl
    (sorted_lanesOf _) (by simpa using hbad) fun m hm hlt => by
      have := hfirst m hm hlt
      simp
      omega
  refine hrun (.trap _ _) ?_
  simp only [rtReplayBody_eq, replayRays_entry, headers_entry, worst_ok hplace, find_finalBad hplace, hfind]
  rfl

theorem replay_starts (hg : (s.group? (lsGroup s k)).isSome = true)
    (hgood : ∀ l ∈ lanesOf (activeOf w f.h.mask), field (rdN s (place l) 16) 32 3 = 1 ∨ field (rdN s (place l) 16) 32 3 = 2) :
    let act := lanesOf (activeOf w f.h.mask)
    ∃ t w', exec i s = .next t ∧ t.wave? k = some w' ∧ w' = { wavePart w w' with rays := w'.rays } ∧ SameRegs [] w w' ∧ w'.xa = w.xa ∧
      w'.pc = w.pc + w64 sp.len ∧ (∀ j, j ≠ k → t.wave? j = s.wave? j) ∧
      DrawnSame (act.map (fun l => (.ls (lsGroup s k) (cState c + 1024 * l), 1024)))
        (entriesAll s (tenantOf s k) false (act.map (fun l => logAt c ((rdS w f.c.toNat).toNat + l)))) s t ∧
      ∀ l, l < 32 → ((activeOf w f.h.mask).getLsbD l = false → kfind l w'.rays = kfind l w.rays) ∧
        ((activeOf w f.h.mask).getLsbD l = true → ∃ r, kfind l w'.rays = some r ∧ r.replay = true ∧
          r.idx = (rdS w f.c.toNat).toNat + l ∧ r.loga = logAt c ((rdS w f.c.toNat).toNat + l) ∧ r.logPos = 1 ∧ r.hit = none ∧ r.cand = none ∧
          r.done = none) := by
  intro act
  obtain ⟨u, hu⟩ : ∃ u, u = (act.map (fun l => logAt c ((rdS w f.c.toNat).toNat + l))).foldl
    (fun t a => touch t (tenantOf s k) a false) (entryState sp s k w) := ⟨_, rfl⟩
  have hkeys : (replayRays f c w).map (·.1) = act := by
    rw [replayRays, List.map_map]
    exact List.map_id _
  have hlogs : (replayRays f c w).map (fun q => q.2.loga) = act.map (fun l => logAt c ((rdS w f.c.toNat).toNat + l)) := by
    rw [replayRays, List.map_map]
    rfl
  have hblocks : blocksOf (lsGroup s k) (replayRays f c w) = act.map (fun l => (.ls (lsGroup s k) (cState c + 1024 * l), 1024)) := by
    rw [blocksOf, replayRays, List.map_map]
    rfl
  have hkeeps : Keeps (entryState sp s k w) u := by
    rw [hu]
    exact .foldl (fun t a => keeps_touch t _ a false) _ _
  have hmem : DrawnSame [] (entriesAll s (tenantOf s k) false (act.map (fun l => logAt c ((rdS w f.c.toNat).toNat + l)))) s u := by
    have htouch := touchAll_touched (tenantOf s k) false (act.map (fun l => logAt c ((rdS w f.c.toNat).toNat + l))) (entryState sp s k w)
    rw [entriesAll_entry, ← hu] at htouch
    exact (drawnSame_of (memSame_entry sp s k w)).trans (drawnSame_of htouch.memSame)
  have hbody : rtReplayBody f c (entryState sp s k w) k (entryWave sp s w) = .ok (giveRays (lsGroup s k) k (replayRays f c w) u) := by
    have hnone : (lanesOf (activeOf w f.h.mask)).find? (fun l => decide (field (rdN s (place l) 16) 32 3 = 0) || decide (2 < field (rdN s (place l) 16) 32 3)) = none := by
      rw [List.find?_eq_none]
      intro l hl
      have := hgood l hl
      simp
      omega
    simp only [rtReplayBody_eq, replayRays_entry, headers_entry, worst_ok hplace, find_finalBad hplace, hnone, Option.map_none]
    rw [foldl_touch_tenant (tenantOf_entry ..), hlogs, ← hu, lsGroup, hkeeps.originGroup, ← lsGroup, lsGroup_entry]
  obtain ⟨t, w', ht, hw', hpart, hregs, hxa, hpc, hothers, hmem', -, hgiven, hrest⟩ := rays_started (hrun _ hbody) hmem
    ((hkeeps.wave k).trans (entryState_wave ..)) (fun j hj => (hkeeps.wave j).trans (entryState_others _ _ _ hj)) hg
    (by rw [hkeys]; exact nodup_lanesOf _)
  rw [hblocks, List.append_nil] at hmem'
  rw [hkeys] at hrest
  refine ⟨t, w', ht, hw', hpart, hregs, hxa, hpc, hothers, hmem', fun l hl => ⟨fun hout => ?_, fun hact => ?_⟩⟩
  · exact hrest l (mt (mem_lanesOf hl).1 (ne_true_of_eq_false hout))
  · obtain ⟨v, hv⟩ := hgiven (l, replayRay f c w l) (List.mem_map.2 ⟨l, (mem_lanesOf hl).2 hact, rfl⟩)
    exact ⟨_, hv, rfl, rfl, rfl, rfl, rfl, rfl, rfl⟩

end Replayed

end Sys2Proof.Laws
end
section
/-! SUPPORT. `rt.next` where every lane's ray has ended or has nothing left to visit (R354). -/

namespace Sys2Proof.Laws

open Sys2Proof.Machine

/-! ### The instruction -/

/-- `rt.next` over the lanes of Active (R354). -/
def nextBody (f : DOnly) (s : State) (k : Nat) (w : Wave) : Res :=
  match nextLanes (whoOf s k) { core := coreOf s k, since := roSince s w.key.seq } (lsGroup s k) k f.d.toNat (lanesOf (activeOf w f.h.mask)) s with
  | .error t => .trap t s
  | .ok s => .ok s

theorem exec_rtNext (f : DOnly) (s : State) : exec (.rtNext f) s = issue (specM f.h 8 [vOp f.d 3 true]) (whenActive f.h (nextBody f)) s := by
  refine congrArg (fun b => issue _ (whenActive f.h b) s) (funext fun s => funext fun k => funext fun w => ?_)
  unfold nextBody
  generalize nextLanes _ _ _ _ _ _ _ = y
  cases y <;> rfl

theorem entryWave_key (sp : Spec) (s : State) (w : Wave) : (entryWave sp s w).key = w.key := by unfold entryWave; split <;> rfl
theorem roSince_entry (sp : Spec) (s : State) (k : Nat) (w : Wave) (q : Nat) : roSince (entryState sp s k w) q = roSince s q := by
  obtain ⟨ws, cs, h⟩ := entry_eq sp s k w
  rw [h]
  rfl

section Exec

variable {f : DOnly} {sp : Spec} {s : State} {k : Nat} {w : Wave} (h : Clear sp s k w)
  (hi : exec (.rtNext f) s = issue sp (whenActive f.h (nextBody f)) s) (ha : activeOf w f.h.mask ≠ 0) {run : Except Trap State}
  (hrun : nextLanes (whoOf s k) { core := coreOf s k, since := roSince s w.key.seq } (lsGroup s k) k f.d.toNat (lanesOf (activeOf w f.h.mask))
    (entryState sp s k w) = run)

include h hi ha hrun

theorem next_done {u : State} (hu : run = .ok u) : exec (.rtNext f) s = .next (book sp k (coreOf s k) w true u) := by
  subst hrun
  refine exec_active h hi ha (r := .ok u) ?_
  simp only [nextBody, whoOf_entry, coreOf_entry, lsGroup_entry, roSince_entry, entryWave_key, activeOf_entry, hu]

theorem next_trap {t : Trap} (ht : run = .error t) : exec (.rtNext f) s = .next (takeTrap (entryState sp s k w) k sp.len (t.withLanes sp w)) := by
  subst hrun
  refine exec_active h hi ha (r := .trap t (entryState sp s k w)) ?_
  simp only [nextBody, whoOf_entry, coreOf_entry, lsGroup_entry, roSince_entry, entryWave_key, activeOf_entry, ht]

end Exec

/-! ### Rays that end -/

/-- A ray that has given its final event. -/
def Over (r : Ray) : Prop := r.done.isSome = true ∧ (r.replay = true ∨ (r.cand = none ∧ r.done ≠ some 3))
/-- A ray without a log whose next event is its final one, in a block that software has not changed. -/
def Last (s : State) (lg : Nat) (r : Ray) : Prop := r.replay = false ∧ r.log = false ∧
  (r.done = some 3 ∨ (r.done = none ∧ r.leaf = none ∧ r.stack = [] ∧ rdN s (.ls lg r.block) 1024 = r.shadow))
/-- A ray at its final event. -/
def endedRay (r : Ray) : Ray := { r with done := some (if r.done = some 3 ∨ r.hit.isSome = true then 2 else 1) }

/-- The registers of a lane's final event, or of a lane without a ray. -/
def FinalOf (s : State) (lg : Nat) (w : Wave) (l : Nat) (x : Nat × Nat × Nat) : Prop :=
  (kfind l w.rays = none ∧ x = (0, 0, 0)) ∨ (∃ r, kfind l w.rays = some r ∧ Over r ∧ x = finalRegs r) ∨
    ∃ r, kfind l w.rays = some r ∧ Last s lg r ∧ x = finalRegs (endedRay r)

section Ends

variable {who : Who} {at_ : RtAt} {lg k d l : Nat} {s : State} {w : Wave} {r : Ray} {x : Nat × Nat × Nat}

theorem over_not_last (h : Over r) : ¬ Last s lg r := by
  rintro ⟨hrep, -, hd⟩
  obtain ⟨hsome, hov⟩ := h
  obtain ⟨-, h3⟩ := hov.resolve_left (by simp [hrep])
  rcases hd with hd | ⟨hd, -⟩
  · exact h3 hd
  · simp [hd] at hsome

theorem FinalOf.eq {y : Nat × Nat × Nat} (h : FinalOf s lg w l x) (h2 : FinalOf s lg w l y) : y = x := by
  cases hr : kfind l w.rays with
  | none =>
    simp only [FinalOf, hr, true_and, reduceCtorEq, false_and, exists_false, or_false] at h h2
    rw [h, h2]
  | some r =>
    simp only [FinalOf, hr, reduceCtorEq, false_and, Option.some.injEq, exists_eq_left', false_or] at h h2
    rcases h with ⟨ho, rfl⟩ | ⟨hl, rfl⟩ <;> rcases h2 with ⟨ho2, rfl⟩ | ⟨hl2, rfl⟩
    · rfl
    · exact absurd hl2 (over_not_last ho)
    · exact absurd hl (over_not_last ho2)
    · rfl

/-- The wave after a lane's final event: its three registers, and its ray. -/
structure LaneEnds (d l : Nat) (x : Nat × Nat × Nat) (w w1 : Wave) : Prop where
  rest : w1 = { w with v := w1.v, rays := w1.rays }
  regs : ∀ q m, m < 32 → rdV w1 q m = if m ≠ l then rdV w q m else if q = d + 2 then w64 x.2.2 else if q = d + 1 then w64 x.2.1
    else if q = d then w64 x.1 else rdV w q m
  rays : ∀ m, m ≠ l → kfind m w1.rays = kfind m w.rays

theorem laneEnds_event (hl : l < 32) (r' : Ray) : LaneEnds d l x w (laneEvent d l x r' w) :=
  ⟨laneEvent_eq .., fun q _ hm => rdV_laneEvent d hl hm x r' w q, fun _ hm => kfind_kset_ne hm ..⟩

theorem nextLanes_final {r0 r' : Ray} (hw : s.wave? k = some w) (hl : l < 32) (hr : kfind l w.rays = some r) (hnow : rayNow s lg r = some r0)
    (hrun : Reaches who at_ s r0 (.ok (s, r', .final))) (hd : r'.done.isSome = true) (hx : finalRegs r' = x) :
    ∃ w1, (∀ rest, nextLanes who at_ lg k d (l :: rest) s = nextLanes who at_ lg k d rest (s.setWave k w1)) ∧ LaneEnds d l x w w1 := by
  refine ⟨_, fun rest => ?_, laneEnds_event hl r'⟩
  rw [nextLanes_event hw hr hnow hrun.run, rayKept_ended lg s hd, eventRegs_final, hx, modWave_eq_setWave hw]

/-- A lane at its final event leaves memory as it is. -/
theorem nextLanes_ends (hw : s.wave? k = some w) (hl : l < 32) (h : FinalOf s lg w l x) :
    ∃ w1, (∀ rest, nextLanes who at_ lg k d (l :: rest) s = nextLanes who at_ lg k d rest (s.setWave k w1)) ∧ LaneEnds d l x w w1 := by
  rcases h with ⟨hr, rfl⟩ | ⟨r, hr, ⟨hd, ho⟩, rfl⟩ | ⟨r, hr, ⟨hrep, hlog, hd⟩, rfl⟩
  · exact ⟨_, fun rest => nextLanes_noRay hw hr, rfl, fun q m hm => rdV_wrV_three w d hl hm 0 0 0 q, fun _ _ => rfl⟩
  · exact nextLanes_final hw hl hr (rayNow_ended hd) (.event (rayStep_over hd ho) (by simp)) hd rfl
  · have hnow : rayNow s lg r = some r := by
      rcases hd with hd | ⟨-, -, -, hsame⟩
      · exact rayNow_ended (by rw [hd]; rfl)
      · exact rayNow_unchanged hsame
    obtain ⟨r', hrun, hd', hh⟩ := reaches_final (who := who) (at_ := at_) (s := s) hrep hlog (hd.imp_right fun ⟨h1, h2, h3, _⟩ => ⟨h1, h2, h3⟩)
    exact nextLanes_final hw hl hr hnow hrun (by rw [hd']; rfl) (finalRegs_congr hd' hh)

theorem rdN_setWave (s : State) (k : Nat) (w : Wave) (l : Loc) (n : Nat) : rdN (s.setWave k w) l n = rdN s l n :=
  rdN_congr fun i _ => by cases l <;> rfl

/-- All lanes at their final events: the waves alone change, and of them this one's registers and rays. -/
theorem nextLanes_allEnd {ls : List Nat} (hw : s.wave? k = some w) (hlt : ∀ l ∈ ls, l < 32) (hnd : ls.Nodup)
    (h : ∀ l ∈ ls, ∃ x, FinalOf s lg w l x) :
    ∃ t w', nextLanes who at_ lg k d ls s = .ok t ∧ t = { s with waves := t.waves } ∧ t.wave? k = some w' ∧ (∀ j, j ≠ k → t.wave? j = s.wave? j) ∧
      w' = { w with v := w'.v, rays := w'.rays } ∧
      (∀ q m, m < 32 → (m ∉ ls ∨ (q ≠ d ∧ q ≠ d + 1 ∧ q ≠ d + 2)) → rdV w' q m = rdV w q m) ∧
      (∀ m, m ∉ ls → kfind m w'.rays = kfind m w.rays) ∧
      ∀ l ∈ ls, ∀ x, FinalOf s lg w l x → rdV w' d l = w64 x.1 ∧ rdV w' (d + 1) l = w64 x.2.1 ∧ rdV w' (d + 2) l = w64 x.2.2 := by
  induction ls generalizing s w with
  | nil => exact ⟨s, w, rfl, rfl, hw, fun _ _ => rfl, rfl, fun _ _ _ _ => rfl, fun _ _ => rfl, by simp⟩
  | cons l ls ih =>
    obtain ⟨hl, hlt⟩ := List.forall_mem_cons.1 hlt
    obtain ⟨hnl, hnd⟩ := List.nodup_cons.1 hnd
    obtain ⟨⟨x, hx⟩, h⟩ := List.forall_mem_cons.1 h
    obtain ⟨w1, hstep, hw1, hregs, hrays⟩ := nextLanes_ends (who := who) (at_ := at_) (d := d) hw hl hx
    have keeps {m : Nat} (hm : m ∈ ls) {y : Nat × Nat × Nat} : FinalOf (s.setWave k w1) lg w1 m y ↔ FinalOf s lg w m y := by
      have hne : m ≠ l := fun he => hnl (he ▸ hm)
      simp only [FinalOf, Last, hrays m hne, rdN_setWave]
    obtain ⟨t, w', hrun, ht, hwt, hothers, hw', hregs', hrays', hfinal⟩ := ih (s := s.setWave k w1) (wave?_setWave_same ..) hlt hnd fun m hm =>
      (h m hm).imp fun _ => (keeps hm).2
    refine ⟨t, w', (hstep ls).trans hrun, ht, hwt, fun j hj => (hothers j hj).trans (wave?_setWave_ne _ hj _), ?_, fun q m hm hout => ?_,
      fun m hm => ?_, fun m hm y hy => ?_⟩
    · rw [hw', hw1]
    · rw [hregs' q m hm (hout.imp_left (mt (List.mem_cons_of_mem _))), hregs q m hm]
      rcases hout with hout | ⟨h0, h1, h2⟩
      · have hne : m ≠ l := fun he => hout (he ▸ List.mem_cons_self)
        exact if_pos hne
      · rw [if_neg h2, if_neg h1, if_neg h0, ite_self]
    · obtain ⟨hne, hm⟩ := not_or.1 (mt List.mem_cons.2 hm)
      rw [hrays' m hm, hrays m hne]
    · rcases List.mem_cons.1 hm with rfl | hm
      · obtain rfl := hx.eq hy
        have here (q : Nat) := (hregs' q m hl (.inl hnl)).trans (hregs q m hl)
        simp only [here, ne_eq, not_true, if_false]
        simp
      · exact hfinal m hm y ((keeps hm).2 hy)

end Ends

/-- `rt.next` where every lane's ray is at its final event has completed. -/
theorem next_ends {f : DOnly} {sp : Spec} {s : State} {k : Nat} {w : Wave} (h : Clear sp s k w)
    (hi : exec (.rtNext f) s = issue sp (whenActive f.h (nextBody f)) s) (ha : activeOf w f.h.mask ≠ 0)
    (hend : ∀ l ∈ lanesOf (activeOf w f.h.mask), ∀ r, kfind l w.rays = some r → Over r ∨ Last s (lsGroup s k) r) :
    ∃ t w', exec (.rtNext f) s = .next t ∧ t.wave? k = some w' ∧ t = { s with waves := t.waves, cores := t.cores } ∧
      (∀ j, j ≠ k → t.wave? j = s.wave? j) ∧ w' = { wavePart w w' with rays := w'.rays } ∧ w'.xa = w.xa ∧ w'.pc = w.pc + w64 sp.len ∧
      SameRegs [.v f.d.toNat, .v (f.d.toNat + 1), .v (f.d.toNat + 2)] w w' ∧
      ∀ l, l < 32 →
        ((activeOf w f.h.mask).getLsbD l = false → kfind l w'.rays = kfind l w.rays ∧ ∀ q, rdV w' q l = rdV w q l) ∧
        ((activeOf w f.h.mask).getLsbD l = true → ∀ x, FinalOf s (lsGroup s k) w l x →
          rdV w' f.d.toNat l = w64 x.1 ∧ rdV w' (f.d.toNat + 1) l = w64 x.2.1 ∧ rdV w' (f.d.toNat + 2) l = w64 x.2.2) := by
  have hfinal {l : Nat} {x : Nat × Nat × Nat} : FinalOf (entryState sp s k w) (lsGroup s k) (entryWave sp s w) l x ↔ FinalOf s (lsGroup s k) w l x := by
    simp only [FinalOf, Last, entryWave_rays, rdN_entry]
  have hall (l : Nat) (hl : l ∈ lanesOf (activeOf w f.h.mask)) : ∃ x, FinalOf (entryState sp s k w) (lsGroup s k) (entryWave sp s w) l x := by
    simp only [hfinal]
    cases hr : kfind l w.rays with
    | none => exact ⟨_, .inl ⟨hr, rfl⟩⟩
    | some r =>
      rcases hend l hl r hr with ho | ho
      · exact ⟨_, .inr (.inl ⟨r, hr, ho, rfl⟩)⟩
      · exact ⟨_, .inr (.inr ⟨r, hr, ho, rfl⟩)⟩
  obtain ⟨u, x, hrun, hu, hux, hothers, hx, hregs, hrays, hgives⟩ := nextLanes_allEnd (who := whoOf s k)
    (at_ := { core := coreOf s k, since := roSince s w.key.seq }) (d := f.d.toNat) (entryState_wave ..) (fun l hl => lt_of_mem_lanesOf hl)
    (nodup_lanesOf (activeOf w f.h.mask)) hall
  obtain ⟨y, hy⟩ : ∃ y, y = bookWave sp u.cycle w true x := ⟨_, rfl⟩
  have honly : RaysOnly (entryWave sp s w) x := by
    rw [RaysOnly, hx]
  obtain ⟨hpart, hxa, hpc, hyrays⟩ := booked_rays honly hy
  have hrd (q l : Nat) : rdV y q l = rdV x q l := by rw [hy, rdV, bookWave_v, rdV]
  refine ⟨_, y, next_done h hi ha hrun rfl, ?_, booked_rest hu _ rfl, fun j hj => ?_, hpart, hxa, hpc, ⟨fun r l hl hr => ?_, fun r _ => ?_, fun r _ => ?_⟩,
    fun l hl => ⟨fun hout => ⟨?_, fun q => ?_⟩, fun hact z hz => ?_⟩⟩
  · rw [wave?_book, hux, hy]
    rfl
  · rw [wave?_book_ne _ _ _ _ _ _ hj, hothers j hj, entryState_others _ _ _ hj]
  · rw [hrd, hregs r l hl (.inr (by simpa using hr)), rdV_entry]
  · rw [hy, rdS, bookWave_s, hx]
    exact rdS_entry ..
  · rw [hy, rdM, bookWave_m, hx]
    exact rdM_entry ..
  · rw [hyrays, hrays l (mt (mem_lanesOf hl).1 (ne_true_of_eq_false hout)), entryWave_rays]
  · rw [hrd, hregs q l hl (.inl (mt (mem_lanesOf hl).1 (ne_true_of_eq_false hout))), rdV_entry]
  · simp only [hrd]
    exact hgives l ((mem_lanesOf hl).2 hact) z (hfinal.2 hz)

end Sys2Proof.Laws
end
section
/-! PROOF. The traversal instructions (R351 to R356). -/

namespace Sys2Proof.Laws

open Sys2Proof.Machine

/-- Settles O41. A lane of `rt.next` comes to its event by the steps of its ray (`rayStep_…`); `rt.trace` and `rt.replay` prepare memory and give each
lane its ray (`rays_started`). -/
theorem traversalInstructions : Obligations.TraversalInstructions := by
  unfold Obligations.TraversalInstructions
  refine ⟨?context, ?trace, ?next, nextLanes_cons, ?lane, ?visit, ?log, ?accept, ?replay⟩
  case context =>
    rintro i h sp b (⟨f, rfl, rfl⟩ | ⟨f, rfl, rfl⟩) hsp s k w hclear ha
    · obtain ⟨rfl, rfl⟩ : f.h = h ∧ specM f.h 8 [vOp f.a 4, sOp f.b, sOp7 f.c] = sp := Prod.mk.inj (Option.some.inj hsp)
      have hi := exec_rtTrace f s
      exact ⟨fun x hx => context_unread hclear hi ha rfl hx, fun l hl => ⟨fun hloc => context_notLocal hclear hi ha rfl hl hloc,
        fun hloc hbad => context_bad hclear hi ha rfl hl hloc rfl hbad⟩⟩
    · obtain ⟨rfl, rfl⟩ : f.h = h ∧ specM f.h 8 [sOp f.b, sOp7 f.c] = sp := Prod.mk.inj (Option.some.inj hsp)
      have hi := exec_rtReplay f s
      exact ⟨fun x hx => context_unread hclear hi ha rfl hx, fun l hl => ⟨fun hloc => context_notLocal hclear hi ha rfl hl hloc,
        fun hloc hbad => context_bad hclear hi ha rfl hl hloc rfl hbad⟩⟩
  case trace =>
    intro f sp hsp s k w l hclear ha va hl hloc c hok act ray bad header blocks
    obtain rfl : specM f.h 8 [vOp f.a 4, sOp f.b, sOp7 f.c] = sp := (Prod.mk.inj (Option.some.inj hsp)).2
    have hrun (r : Res) := context_runs (r := r) hclear (exec_rtTrace f s) ha rfl hl hloc rfl hok
    exact ⟨fun j hj hbad hfirst => trace_refused hrun hj hbad hfirst, fun hgood hlog x hx => trace_unwritable hrun hgood hlog hx,
      fun place hgood hplace => trace_starts hrun hgood (group_of_context hok) hplace⟩
  case next =>
    intro f sp hsp s k w h ha act run
    obtain rfl : specM f.h 8 [vOp f.d 3 true] = sp := (Prod.mk.inj (Option.some.inj hsp)).2
    have hi := exec_rtNext f s
    exact ⟨fun u hu => next_done h hi ha rfl hu, fun t ht => next_trap h hi ha rfl ht, fun hend => next_ends h hi ha hend⟩
  case lane =>
    refine fun who at_ lg k d s w l hw hl => ⟨fun hr => nextGives_noRay hw hl hr, fun r hr => ⟨fun hd h => nextGives_over hw hl hr hd h,
      fun hd hrep hlog => ?_, fun hnow => nextLanes_changed hw hr hnow, fun r0 hd hnow => ?_⟩⟩
    · exact nextGives_last hw hl hr (rayNow_ended (by rw [hd]; rfl)) hrep hlog (.inl hd) (if_pos (.inl hd))
    · replace hd : r0.done = none := (done_rayNow hnow).trans hd
      refine ⟨fun hrep hc => ⟨fun hlog hleaf hs => ?_, fun a n tn i q hleaf hi hq => nextGives_user hw hl hr hnow hrep hc hd hleaf hi hq,
        fun a kind n tn i s1 x q hlog hfirst hleaf hk hi hread hq hmin hmax =>
          nextGives_first hw hl hr hnow hrep hc hd hlog hfirst hleaf hk hi hread hq hmin hmax⟩, fun h hrep hh => ⟨fun hlt => ?_, fun hle p hp =>
        ⟨fun hkind s3 y hread => ?_, fun hkind => ?_⟩⟩⟩
      · exact nextGives_last hw hl hr hnow hrep hlog (.inr ⟨hd, hleaf, hs⟩) (by simp [hd])
      · exact nextGives_ended hw hl hr hnow (.event (rayStep_logEnd hrep hd hh hlt) (by simp)) ((keeps_touch ..).wave k) rfl
          (finalRegs_congr rfl rfl) ⟨_, rfl, rfl, rfl⟩
      · obtain ⟨b1, b2, t, r', hstep, hwave, hlast, hcand, hpos, hdone, hq⟩ := rayStep_logTriangle hrep hd hh hle hp rfl hkind hread
        refine ⟨b1, b2, nextGives_going hw hl hr hnow hstep (by simp) ?_ rfl fun v => ⟨_, rfl, hlast, hcand, hpos⟩, hq⟩
        rw [hwave, wave?_rtRead hread, (keeps_touch ..).wave, (keeps_touch ..).wave]
      · obtain ⟨t, r', hstep, hwave, hlast, hcand, hpos, hdone⟩ := rayStep_logUser hrep hd hh hle hp rfl hkind
        exact nextGives_going hw hl hr hnow hstep (by simp) (hwave k) rfl fun v => ⟨_, rfl, hlast, hcand, hpos⟩
  case visit =>
    rintro who at_ lg k d s w l r0 hw ⟨r, hr, -, hnow⟩ hd hrep hc
    have stops {x : RayStop} (h : rayStep who at_ s r0 = .error x) := nextLanes_error (d := d) (l := l) hw hr hnow h
    have goes {s' : State} {r' : Ray} (h : rayStep who at_ s r0 = .ok (s', r', .none)) := rayRun_quiet h
    refine ⟨fun st e hleaf hs => ?_, fun a kind n tn i hleaf => ?_⟩
    · have htop := rayStep_top (who := who) (at_ := at_) (s := s) hrep hc hd hleaf hs
      refine ⟨fun hfar => goes (htop.trans (if_pos hfar)), fun hnear => ?_⟩
      rw [if_neg (ne_true_of_eq_false hnear)] at htop
      refine ⟨?_, fun hkind => goes ?_, fun hkind hal => ?_⟩
      · rintro (hkind | ⟨hkind, hal⟩)
        · exact stops (htop.trans (by rw [if_neg (by omega), if_pos hkind]))
        · exact stops (htop.trans ((if_pos hkind).trans (nodeStep_misaligned hal)))
      · rw [htop, if_neg (by omega), if_neg (by omega)]
      · rw [if_pos hkind] at htop
        refine ⟨fun x hread => stops (htop.trans (nodeStep_unread hal hread)), fun s1 n hread => ⟨
          fun hbad => stops (htop.trans (nodeStep_bad hal hread hbad)), fun hok hfull => stops (htop.trans (nodeStep_full hal hread hok hfull.1 hfull.2)), fun hok hlog => ?_⟩⟩
        rw [nodeStep_hits (r := { r0 with stack := st }) hal hread hok hlog, List.length_append, List.length_reverse] at htop
        exact ⟨hitsOf r0 n, hitsOf_sooner r0 n, fun x => mem_hitsOf, fun hlong => stops (htop.trans (if_pos hlong)),
          fun hshort => goes (htop.trans (if_neg (not_lt_of_ge hshort)))⟩
    · have hstep := rayStep_leaf (who := who) (at_ := at_) (s := s) hrep hc hd hleaf
      refine ⟨fun hi => goes (hstep.trans (leafStep_past hi)), fun hi hk => ⟨fun x hread => stops (hstep.trans (leafStep_unread hi hk hread)),
        fun s1 x hread => ⟨fun hfull => stops (hstep.trans (leafStep_full hi hk hread hfull.1 hfull.2)), fun hlog => ⟨fun hmiss => ?_,
          fun q hq hmin hmax hfirst => goes (hstep.trans (leafStep_hit hi hk hread hlog hq hmin hmax hfirst))⟩⟩⟩⟩
      exact goes (hstep.trans (leafStep_miss hi hk hread hlog hmiss))
  case log =>
    exact fun who s r addr t kind index hit => ⟨fun h => logEntry_noLog h .., fun h hn => logEntry_full h hn ..,
      fun h hn l hd hl hhd => logEntry_writes h hn hl hhd ..⟩
  case accept =>
    intro f s k w h
    obtain ⟨t, w', m, ht, hw', hrest, hothers, hpart, hregs, hxa, hpc, hm, hlanes⟩ := rtAccept_completes h (exec_rtAccept f s)
    refine ⟨t, w', ht, hw', hrest, hothers, hpart, hregs, hxa, hpc, fun l hl => ?_⟩
    obtain ⟨hkept, hlane⟩ := hlanes l hl
    have bit {b : Bool} (hb : m.getLsbD l = b) (hd : f.d ≠ 0) : (rdM w' f.d.toNat).getLsbD l = b := by rw [hm hd, hb]
    refine ⟨fun hout => ?_, fun hact hr => ?_, fun r hact hr => ?_⟩
    · exact (hkept (.inl hout)).imp_right bit
    · obtain ⟨hray, hb⟩ := hkept (.inr hr)
      exact ⟨hray.trans hr, bit hb⟩
    · obtain ⟨hray, hb⟩ := hlane hact r hr
      have step {q : Ray × Bool} (hq : acceptLane r (rdV w f.a.toNat l).toNat (rdV w f.b.toNat l).toNat = q) :
          kfind l w'.rays = some q.1 ∧ (f.d ≠ 0 → (rdM w' f.d.toNat).getLsbD l = q.2) := by
        rw [hq] at hray hb
        exact ⟨hray, bit hb⟩
      refine ⟨fun hrep => step (acceptLane_replay hrep ..), fun hrep hc => step (acceptLane_nothing hrep hc ..), fun a i tn hrep htried hc =>
        ⟨fun hmin hmax => (step (acceptLane_commits hrep htried hc rfl hmin hmax)).symm,
          fun hout => (step (acceptLane_refuses hrep htried hc rfl hout)).symm⟩⟩
  case replay =>
    intro f sp hsp s k w l hclear ha va hl hloc c hok act loga header
    obtain rfl : specM f.h 8 [sOp f.b, sOp7 f.c] = sp := (Prod.mk.inj (Option.some.inj hsp)).2
    have hrun (r : Res) := context_runs (r := r) hclear (exec_rtReplay f s) ha rfl hl hloc rfl hok
    exact ⟨fun x hx => replay_unreadable hrun hx, fun place hplace => ⟨fun j hj hbad hfirst => replay_refused hrun hplace hj hbad hfirst,
      fun hgood => replay_starts hrun hplace (group_of_context hok) hgood⟩⟩

end Sys2Proof.Laws
end
section
/-! SUPPORT. `roundQ` of a quotient in the modes RNE, RUP and RDN (R99). -/

namespace Sys2Proof.Laws

open Sys2Proof.Machine

/-! ### The significand -/

/-- The exponent of a quotient. -/
theorem log2q_bounds {n d : Nat} (hn : n ≠ 0) (hd : d ≠ 0) : (2 : ℝ) ^ log2q n d ≤ n / d ∧ (n / d : ℝ) < 2 ^ (log2q n d + 1) := by
  have hd0 : (0 : ℝ) < d := by positivity
  have hn1 := two_pow_log2_le hn
  have hn2 := lt_two_pow_log2 n
  have hd1 := two_pow_log2_le hd
  have hd2 := lt_two_pow_log2 d
  set l : Int := (Nat.log2 n : Int) - Nat.log2 d with hl
  have hge : (if l ≥ 0 then decide (d * 2 ^ l.toNat ≤ n) else decide (d ≤ n * 2 ^ (-l).toNat)) = true ↔ (2 : ℝ) ^ l ≤ n / d := by
    rw [le_div_iff₀ hd0]
    split
    · next h =>
      obtain ⟨j, hj⟩ := Int.eq_ofNat_of_zero_le h
      rw [decide_eq_true_iff, hj, Int.toNat_natCast, zpow_natCast, mul_comm ((2 : ℝ) ^ j)]
      exact_mod_cast Iff.rfl
    · next h =>
      obtain ⟨j, hj⟩ := Int.eq_ofNat_of_zero_le (show 0 ≤ -l by omega)
      rw [decide_eq_true_iff, hj, Int.toNat_natCast, show l = -(j : Int) by omega, zpow_neg, zpow_natCast, inv_mul_le_iff₀ (by positivity),
        mul_comm ((2 : ℝ) ^ j)]
      exact_mod_cast Iff.rfl
  have hlog : log2q n d = if (2 : ℝ) ^ l ≤ n / d then l else l - 1 := by
    simp only [log2q, ← hl]
    by_cases h : (2 : ℝ) ^ l ≤ n / d
    · rw [if_pos h, if_pos (hge.2 h)]
    · rw [if_neg h, if_neg (mt hge.1 h)]
  rw [hlog]
  split
  · next h =>
    refine ⟨h, (div_lt_iff₀ hd0).2 (hn2.trans_le ?_)⟩
    calc (2 : ℝ) ^ ((Nat.log2 n : Int) + 1) = 2 ^ (l + 1) * 2 ^ (Nat.log2 d : Int) := by rw [← zpow_add₀ two_ne_zero]; congr 1; omega
      _ ≤ _ := by gcongr
  · next h =>
    refine ⟨(le_div_iff₀ hd0).2 ?_, by rw [sub_add_cancel]; exact lt_of_not_ge h⟩
    calc (2 : ℝ) ^ (l - 1) * d ≤ 2 ^ (l - 1) * 2 ^ ((Nat.log2 d : Int) + 1) := by gcongr
      _ = 2 ^ (Nat.log2 n : Int) := by rw [← zpow_add₀ two_ne_zero]; congr 1; omega
      _ ≤ n := hn1

/-- A quotient in units of a power of two is one of integers. -/
theorem rscale_rdiv (m : Rm) (s : Bool) (n : Nat) {d : Nat} (hd : d ≠ 0) (e u : Int) :
    ∃ n' d' : Nat, d' ≠ 0 ∧ rscale m s n d e u = rdiv m s n' d' ∧ (n' / d' : ℝ) = n / d * 2 ^ (e - u) := by
  have hd0 : (d : ℝ) ≠ 0 := Nat.cast_ne_zero.2 hd
  unfold rscale
  split
  · next h =>
    obtain ⟨j, hj⟩ := Int.eq_ofNat_of_zero_le (sub_nonneg.2 h)
    refine ⟨_, d, hd, rfl, ?_⟩
    rw [hj, Int.toNat_natCast, zpow_natCast]
    push_cast
    ring
  · next h =>
    obtain ⟨j, hj⟩ := Int.eq_ofNat_of_zero_le (show 0 ≤ u - e by omega)
    refine ⟨n, _, Nat.mul_ne_zero hd (Nat.two_pow_pos (u - e).toNat).ne', rfl, ?_⟩
    rw [show e - u = -(j : Int) by omega, hj, Int.toNat_natCast, zpow_neg, zpow_natCast]
    push_cast
    field_simp

/-- Whether a mode rounds magnitudes of a sign up, or down (R99 step 2). -/
def Upward (m : Rm) (s : Bool) : Prop := (m = .rup ∧ s = false) ∨ (m = .rdn ∧ s = true)
def Downward (m : Rm) (s : Bool) : Prop := (m = .rup ∧ s = true) ∨ (m = .rdn ∧ s = false)

section Quotient

variable {m : Rm} {s : Bool} {n d : Nat}

theorem floor_bounds (n : Nat) {d : Nat} (hd : d ≠ 0) : ((n / d : Nat) : ℝ) ≤ n / d ∧ (n / d : ℝ) < (n / d : Nat) + 1 := by
  have hd0 : (0 : ℝ) < d := by positivity
  refine ⟨Nat.cast_div_le, (div_lt_iff₀ hd0).2 ?_⟩
  rw [mul_comm]
  exact_mod_cast Nat.lt_mul_div_succ n (Nat.pos_of_ne_zero hd)

theorem rdiv_downward (hd : d ≠ 0) (h : Downward m s) : (rdiv m s n d : ℝ) ≤ n / d ∧ (n / d : ℝ) < rdiv m s n d + 1 := by
  have hr : rdiv m s n d = n / d := by rcases h with ⟨rfl, rfl⟩ | ⟨rfl, rfl⟩ <;> simp [rdiv]
  rw [hr]
  exact floor_bounds n hd

theorem rdiv_upward (hd : d ≠ 0) (h : Upward m s) : (n / d : ℝ) ≤ rdiv m s n d ∧ (rdiv m s n d : ℝ) < n / d + 1 := by
  have hr : rdiv m s n d = if n % d = 0 then n / d else n / d + 1 := by rcases h with ⟨rfl, rfl⟩ | ⟨rfl, rfl⟩ <;> simp [rdiv]
  obtain ⟨hle, hlt⟩ := floor_bounds n hd
  rw [hr]
  split
  · next h0 =>
    have hdiv : ((n / d : Nat) : ℝ) = n / d := Nat.cast_div (Nat.dvd_of_mod_eq_zero h0) (Nat.cast_ne_zero.2 hd)
    rw [hdiv]
    exact ⟨le_rfl, lt_add_one _⟩
  · next h0 =>
    push_cast
    refine ⟨hlt.le, by_contra fun hge => h0 ?_⟩
    have heq : ((n / d : Nat) : ℝ) = n / d := by linarith
    rw [eq_div_iff (Nat.cast_ne_zero.2 hd)] at heq
    have hnat : n / d * d = n := by exact_mod_cast heq
    have := Nat.div_add_mod' n d
    omega

end Quotient

/-! ### The magnitude -/

/-- What rounding leaves of a magnitude: the bits nearest to it, or the next below or above. -/
structure Bits (f : Fmt) (m : Rm) (s : Bool) (a : ℝ) (b : Nat) : Prop where
  near : m = .rne → Nearest f b a
  below : Downward m s → mag f b ≤ a ∧ a < mag f (b + 1)
  above : Upward m s → ∃ c, b = c + 1 ∧ mag f c < a ∧ a ≤ mag f b

section Magnitude

variable {f : Fmt} {m : Rm} {s : Bool} {n d : Nat}

/-- A rounded significand gives the rounded bits. -/
theorem bits_of_significand (hf : Ieee f) {k n' d' : Nat} (hd : d' ≠ 0) {x : ℝ} (hx : (n' / d' : ℝ) = x) (h0 : 0 < x)
    (hlow : k = 0 ∨ 2 ^ f.fb ≤ x) (hhigh : x < 2 * 2 ^ f.fb) :
    Bits f m s (x * 2 ^ ((k : Int) + (1 - f.bias - f.fb))) (k * 2 ^ f.fb + rdiv m s n' d') := by
  have hstep : (0 : ℝ) < 2 ^ ((k : Int) + (1 - f.bias - f.fb)) := by positivity
  refine ⟨?_, fun h => ?_, fun h => ?_⟩
  · rintro rfl
    obtain ⟨r, hr, hnear, heven⟩ := rdiv_rne s n' d' (Nat.pos_of_ne_zero hd)
    rw [hx] at hnear heven
    rw [hr]
    exact .of_significand hf hlow h0.le hhigh hnear heven
  · obtain ⟨hle, hlt⟩ := rdiv_downward hd h
    rw [hx] at hle hlt
    generalize rdiv m s n' d' = r at hle hlt ⊢
    have hr : r < 2 * 2 ^ f.fb := by exact_mod_cast hle.trans_lt hhigh
    have hrlow : k = 0 ∨ 2 ^ f.fb ≤ r := hlow.imp_right fun h => Nat.le_of_lt_succ (by exact_mod_cast h.trans_lt hlt)
    rw [Nat.add_assoc, mag_scale hr.le hrlow, mag_scale hr (by omega)]
    push_cast
    exact ⟨by gcongr, by gcongr⟩
  · obtain ⟨hle, hlt⟩ := rdiv_upward hd h
    rw [hx] at hle hlt
    generalize rdiv m s n' d' = r at hle hlt ⊢
    obtain ⟨q, rfl⟩ : ∃ q, r = q + 1 := Nat.exists_eq_succ_of_ne_zero fun h => by rw [h, Nat.cast_zero] at hle; linarith
    have hr : q + 1 ≤ 2 * 2 ^ f.fb := by
      have : ((q + 1 : Nat) : ℝ) < (2 * 2 ^ f.fb + 1 : Nat) := by push_cast at hlt ⊢; linarith
      exact Nat.le_of_lt_succ (by exact_mod_cast this)
    have hrlow : k = 0 ∨ 2 ^ f.fb ≤ q + 1 := hlow.imp_right fun h => by exact_mod_cast h.trans hle
    have htop : mag f (k * 2 ^ f.fb + (q + 1)) = (q + 1 : Nat) * 2 ^ ((k : Int) + (1 - f.bias - f.fb)) := mag_scale hr hrlow
    refine ⟨k * 2 ^ f.fb + q, rfl, ?_, by rw [htop]; gcongr⟩
    rcases hle.eq_or_lt with heq | hlt'
    · rw [heq, ← htop]
      exact mag_strictMono f (Nat.lt_succ_self _)
    · have hqlow : k = 0 ∨ 2 ^ f.fb ≤ q := hlow.imp_right fun h => Nat.le_of_lt_succ (by exact_mod_cast h.trans_lt hlt')
      rw [mag_scale (by omega) hqlow]
      push_cast at hlt
      have : (q : ℝ) < x := by linarith
      gcongr

/-- R99 for a quotient that is not 0: the bits of its magnitude rounded, or what stands for an overflow. -/
theorem roundQ_bits (hf : Ieee f) (m : Rm) (s : Bool) (hn : n ≠ 0) (hd : d ≠ 0) (e : Int) : ∃ b, Bits f m s (n / d * 2 ^ e) b ∧
    roundQ f m false s n d e = if f.maxBits < b then overflowBits f m false s else f.sign s + b := by
  simp only [roundQ, if_neg hn]
  obtain ⟨hlog1, hlog2⟩ := log2q_bounds hn hd
  generalize log2q n d = l at hlog1 hlog2 ⊢
  generalize hex : (if l + e < 1 - f.bias then 1 - (f.bias : Int) else l + e) = ex
  obtain ⟨k, hk⟩ := Int.eq_ofNat_of_zero_le (show 0 ≤ ex - (1 - f.bias) by split at hex <;> omega)
  obtain ⟨n', d', hd', hr, hx⟩ := rscale_rdiv m s n hd e (ex - f.fb)
  rw [hr, show ex - (f.fb : Int) + f.fb - (1 - f.bias) = k by omega, Int.toNat_natCast]
  have hlow : k = 0 ∨ (2 : ℝ) ^ f.fb ≤ n / d * 2 ^ (e - (ex - f.fb)) := by
    rcases Nat.eq_zero_or_pos k with h0 | hpos
    · exact .inl h0
    · right
      calc (2 : ℝ) ^ f.fb = 2 ^ l * 2 ^ (e - (ex - f.fb)) := by
            rw [← zpow_add₀ two_ne_zero, ← zpow_natCast]; congr 1; split at hex <;> omega
        _ ≤ _ := by gcongr
  have hhigh : (n / d : ℝ) * 2 ^ (e - (ex - f.fb)) < 2 * 2 ^ f.fb := by
    calc (n / d : ℝ) * 2 ^ (e - (ex - f.fb)) < 2 ^ (l + 1) * 2 ^ (e - (ex - f.fb)) := by gcongr
      _ = 2 ^ (l + 1 + (e - (ex - f.fb))) := (zpow_add₀ two_ne_zero _ _).symm
      _ ≤ 2 ^ ((f.fb + 1 : Nat) : Int) := zpow_le_zpow_right₀ one_le_two (by push_cast; split at hex <;> omega)
      _ = 2 * 2 ^ f.fb := by rw [zpow_natCast, pow_succ']
  refine ⟨_, ?_, rfl⟩
  have hb := bits_of_significand (m := m) (s := s) hf hd' hx (by positivity) hlow hhigh
  rwa [mul_assoc, ← zpow_add₀ two_ne_zero, show e - (ex - f.fb) + ((k : Int) + (1 - f.bias - f.fb)) = e by omega] at hb

end Magnitude

/-! ### Rounding -/

section Values

variable {f : Fmt} {s t : Bool} {a : ℝ} {b c : Nat}

/-- Of the values at or above a number, the least, and of those at or below, the greatest: by the magnitudes on either side of it. -/
theorem least_away (h : mag f b < a) (hc : a ≤ signed t (mag f c)) : mag f (b + 1) ≤ signed t (mag f c) := by
  have hpos : 0 < a := (mag_nonneg f b).trans_lt h
  cases t with
  | true =>
    have := mag_nonneg f c
    simp only [signed_true] at hc
    linarith
  | false => exact (mag_strictMono f).monotone (Nat.succ_le_of_lt ((mag_strictMono f).lt_iff_lt.1 (h.trans_le hc)))

theorem least_toward (h : a < mag f (b + 1)) (hc : -a ≤ signed t (mag f c)) : -mag f b ≤ signed t (mag f c) := by
  cases t with
  | true =>
    have hlt : mag f c < mag f (b + 1) := (neg_le_neg_iff.1 hc).trans_lt h
    exact neg_le_neg ((mag_strictMono f).monotone (Nat.le_of_lt_succ ((mag_strictMono f).lt_iff_lt.1 hlt)))
  | false =>
    have h1 := mag_nonneg f b
    have h2 := mag_nonneg f c
    simp only [signed_false]
    linarith

end Values

/-- v is the value of bits r, and of the format's values the least at or above y, or with the sign s the greatest at or below it. -/
def Tight (s : Bool) (f : Fmt) (y : ℝ) (r : Nat) (v : ℝ) : Prop :=
  f.Is r v ∧ signed s y ≤ signed s v ∧ ∀ x u, f.Is x u → signed s y ≤ signed s u → signed s v ≤ signed s u

section Rounds

variable {f : Fmt} {s neg : Bool} {a y : ℝ} {b r : Nat}

theorem signed_signed (s t : Bool) (a : ℝ) : signed s (signed t a) = signed (s != t) a := by cases s <;> cases t <;> simp

/-- A magnitude rounded up. -/
theorem tight_above (hf : Ieee f) {c : Nat} (hb : c + 1 ≤ f.maxBits) (hc : mag f c < a) (ha : a ≤ mag f (c + 1)) :
    Tight s f (signed s a) (f.sign s + (c + 1)) (signed s (mag f (c + 1))) := by
  refine ⟨is_sign_add hf hb, by simpa [signed_signed] using ha, fun x u hx hu => ?_⟩
  obtain ⟨t, j, -, -, rfl⟩ := Is.parts hf hx
  simp only [signed_signed, bne_self_eq_false, signed_false] at hu ⊢
  exact least_away hc hu

/-- A magnitude rounded down, or one beyond the largest. -/
theorem tight_below (hf : Ieee f) (hb : b ≤ f.maxBits) (hba : mag f b ≤ a) (ha : a < mag f (b + 1) ∨ b = f.maxBits) :
    Tight (!s) f (signed s a) (f.sign s + b) (signed s (mag f b)) := by
  refine ⟨is_sign_add hf hb, by simpa [signed_signed] using hba, fun x u hx hu => ?_⟩
  obtain ⟨t, j, hj, -, rfl⟩ := Is.parts hf hx
  have hns : ((!s) != s) = true := by cases s <;> rfl
  simp only [signed_signed, hns, signed_true] at hu ⊢
  rcases ha with ha | rfl
  · exact least_toward ha hu
  · have hmono := (mag_strictMono f).monotone hj
    have h0 := mag_nonneg f j
    have h1 := mag_nonneg f f.maxBits
    cases ((!s) != t) <;> simp <;> linarith

/-- Beyond the largest value there is none. -/
theorem none_beyond (hf : Ieee f) {c : Nat} (hc : f.maxBits ≤ c) (ha : mag f c < a) {x : Nat} {u : ℝ} (hx : f.Is x u) :
    signed s u < signed s (signed s a) := by
  obtain ⟨t, j, hj, -, rfl⟩ := Is.parts hf hx
  have hmono := (mag_strictMono f).monotone (hj.trans hc)
  have h0 := mag_nonneg f j
  simp only [signed_signed, bne_self_eq_false, signed_false]
  cases (s != t) <;> simp <;> linarith

theorem rounds_rup (hsign : ∀ u, f.Is r u → (2 ^ (f.width - 1) ≤ r ↔ neg = true))
    (h : (∃ v, Tight false f y r v) ∨ ((∀ x u, f.Is x u → u < y) ∧ r = f.infBits false)) : f.Rounds .rup neg y r := by
  refine ⟨hsign, nofun, fun _ hex => ?_, fun _ hall => ?_, nofun, nofun, nofun, nofun⟩
  · rcases h with ⟨v, hv, hle, hleast⟩ | ⟨hall, -⟩
    · exact ⟨v, hv, hle, hleast⟩
    · obtain ⟨x, u, hx, hu⟩ := hex
      exact absurd (hall x u hx) (not_lt_of_ge hu)
  · rcases h with ⟨v, hv, hle, -⟩ | ⟨-, hr⟩
    · exact absurd (hall r v hv) (not_lt_of_ge hle)
    · exact hr

theorem rounds_rdn (hsign : ∀ u, f.Is r u → (2 ^ (f.width - 1) ≤ r ↔ neg = true))
    (h : (∃ v, Tight true f y r v) ∨ ((∀ x u, f.Is x u → y < u) ∧ r = f.infBits true)) : f.Rounds .rdn neg y r := by
  refine ⟨hsign, nofun, nofun, nofun, fun _ hex => ?_, fun _ hall => ?_, nofun, nofun⟩
  · rcases h with ⟨v, hv, hle, hleast⟩ | ⟨hall, -⟩
    · exact ⟨v, hv, neg_le_neg_iff.1 hle, fun x u hx hu => neg_le_neg_iff.1 (hleast x u hx (neg_le_neg hu))⟩
    · obtain ⟨x, u, hx, hu⟩ := hex
      exact absurd (hall x u hx) (not_lt_of_ge hu)
  · rcases h with ⟨v, hv, hle, -⟩ | ⟨-, hr⟩
    · exact absurd (hall r v hv) (not_lt_of_ge (neg_le_neg_iff.1 hle))
    · exact hr

/-- The sign of a finite result is that of what was rounded. -/
theorem sign_iff_of_finite (hf : Ieee f) (hb : b ≤ f.maxBits) :
    2 ^ (f.width - 1) ≤ f.sign s + b ↔ s = true := by
  have := hf.maxBits_succ_lt
  exact two_pow_le_sign_add (by omega)
theorem sign_iff_of_infinite (hf : Ieee f) (u : ℝ) (h : f.Is (f.infBits s) u) : 2 ^ (f.width - 1) ≤ f.infBits s ↔ s = true :=
  absurd h (not_is_infBits hf)

/-- Up, to a value of the format or to the infinity (R99 steps 2 and 3). -/
theorem rounds_up (hf : Ieee f) {c : Nat} (hc : mag f c < a) (ha : a ≤ mag f (c + 1)) :
    (∃ v, Tight s f (signed s a) (if f.maxBits < c + 1 then f.infBits s else f.sign s + (c + 1)) v) ∨
    ((∀ x u, f.Is x u → signed s u < signed s (signed s a)) ∧ (if f.maxBits < c + 1 then f.infBits s else f.sign s + (c + 1)) = f.infBits s) := by
  split
  · next h => exact .inr ⟨fun x u hx => none_beyond hf (by omega) hc hx, rfl⟩
  · next h => exact .inl ⟨_, tight_above hf (by omega) hc ha⟩

/-- Down, to a value of the format, the largest where the magnitude is beyond it. -/
theorem rounds_down (hf : Ieee f) (hb : mag f b ≤ a) (ha : a < mag f (b + 1)) :
    ∃ v, Tight (!s) f (signed s a) (if f.maxBits < b then f.sign s + f.maxBits else f.sign s + b) v := by
  split
  · next h => exact ⟨_, tight_below hf le_rfl (((mag_strictMono f).monotone h.le).trans hb) (.inr rfl)⟩
  · next h => exact ⟨_, tight_below hf (by omega) hb (.inl ha)⟩

theorem sign_iff_ite (hf : Ieee f) {p : Prop} [Decidable p] {c : Nat} (hc : ¬ p → c ≤ f.maxBits) (u : ℝ)
    (h : f.Is (if p then f.infBits s else f.sign s + c) u) : 2 ^ (f.width - 1) ≤ (if p then f.infBits s else f.sign s + c) ↔ s = true := by
  by_cases hp : p
  · rw [if_pos hp] at h ⊢
    exact sign_iff_of_infinite hf u h
  · rw [if_neg hp]
    exact sign_iff_of_finite hf (hc hp)

theorem sign_iff_down (hf : Ieee f) :
    2 ^ (f.width - 1) ≤ (if f.maxBits < b then f.sign s + f.maxBits else f.sign s + b) ↔ s = true := by
  split
  · exact sign_iff_of_finite hf le_rfl
  · exact sign_iff_of_finite hf (by omega)

end Rounds

/-- Zero rounds to a zero (R99). -/
theorem rounds_zero_of (hf : Ieee f) {m : Rm} (hm : m ≠ .rtz) (s : Bool) : f.Rounds m s 0 (f.sign s) := by
  have hz : f.Is (f.sign s) 0 := by simpa [mag_zero, signed] using is_sign_add (s := s) hf (Nat.zero_le f.maxBits)
  have hsign (u : ℝ) (_ : f.Is (f.sign s) u) : 2 ^ (f.width - 1) ≤ f.sign s ↔ s = true := sign_iff_of_finite hf (Nat.zero_le _)
  have htight (t : Bool) : Tight t f 0 (f.sign s) 0 := ⟨hz, le_rfl, fun x u _ h => h⟩
  cases m with
  | rtz => exact absurd rfl hm
  | rup => exact rounds_rup hsign (.inl ⟨0, htight _⟩)
  | rdn => exact rounds_rdn hsign (.inl ⟨0, htight _⟩)
  | rne =>
    have hpos : 0 < mag f f.maxBits + mag f (f.maxBits + 1) :=
      add_pos_of_nonneg_of_pos (mag_nonneg f _) (mag_zero f ▸ mag_strictMono f (Nat.succ_pos _))
    refine rounds_rne_iff.2 ⟨hsign, fun _ => ⟨0, hz, fun x u _ => ⟨by simp, fun _ _ => sign_add_mod_two (b := 0) hf⟩⟩, fun h => ?_⟩
    rw [beyond_iff hf, abs_zero] at h
    linarith

/-- R99: in RNE, RUP and RDN a quotient is rounded as the mode asks. -/
theorem rounds_roundQ (hf : Ieee f) {m : Rm} (hm : m ≠ .rtz) (s : Bool) (n : Nat) {d : Nat} (hd : d ≠ 0) (e : Int) :
    f.Rounds m s (signed s (n / d * 2 ^ e)) (roundQ f m false s n d e) := by
  rcases eq_or_ne n 0 with rfl | hn
  · simpa [roundQ, signed] using rounds_zero_of hf hm s
  have ha : (0 : ℝ) < n / d * 2 ^ e := by positivity
  obtain ⟨b, hb, hround⟩ := roundQ_bits hf m s hn hd e
  generalize (n / d * 2 ^ e : ℝ) = a at ha hb
  rw [hround]
  cases m with
  | rtz => exact absurd rfl hm
  | rne =>
    have hnear := hb.near rfl
    have hover := hnear.maxBits_lt_iff hf
    rw [show overflowBits f .rne false s = f.infBits s from rfl, rounds_rne_iff, beyond_iff hf, abs_signed, abs_of_pos ha, ← hover]
    refine ⟨sign_iff_ite hf (by omega), fun h => ?_, fun h => if_pos h⟩
    rw [if_neg h]
    refine ⟨_, is_sign_add hf (by omega), fun x u hx => ?_⟩
    obtain ⟨t, c, -, -, rfl⟩ := Is.parts hf hx
    rw [sign_add_mod_two hf]
    exact signed_nearest ha.le hnear
  | rup =>
    cases s with
    | false =>
      obtain ⟨c, rfl, hc, hca⟩ := hb.above (.inl ⟨rfl, rfl⟩)
      exact rounds_rup (sign_iff_ite hf (by omega)) (rounds_up hf hc hca)
    | true =>
      obtain ⟨hba, hab⟩ := hb.below (.inl ⟨rfl, rfl⟩)
      exact rounds_rup (fun _ _ => sign_iff_down hf) (.inl (rounds_down hf hba hab))
  | rdn =>
    cases s with
    | true =>
      obtain ⟨c, rfl, hc, hca⟩ := hb.above (.inr ⟨rfl, rfl⟩)
      exact rounds_rdn (sign_iff_ite hf (by omega)) ((rounds_up hf hc hca).imp_right fun h => ⟨fun x u hx => neg_lt_neg_iff.1 (h.1 x u hx), h.2⟩)
    | false =>
      obtain ⟨hba, hab⟩ := hb.below (.inr ⟨rfl, rfl⟩)
      exact rounds_rdn (fun _ _ => sign_iff_down hf) (.inl (rounds_down hf hba hab))

end Sys2Proof.Laws
end
section
/-! SUPPORT. Exact results of finite values, and their roundings (R98, R99, R107). -/

namespace Sys2Proof.Laws

open Sys2Proof.Machine

/-- A value that is a number. -/
def IsNumber (v : FV) : Prop := ∃ s n e, v = .fin s n e

theorem isFin_iff {x : Nat} : isFin x = true ↔ IsNumber (v32 x) := by
  rw [isFin]
  cases v32 x with
  | fin s n e => exact ⟨fun _ => ⟨s, n, e, rfl⟩, fun _ => rfl⟩
  | _ => exact ⟨nofun, fun ⟨_, _, _, h⟩ => nomatch h⟩

section Exact

variable {x y : FV}

theorem IsNumber.not_nan (h : IsNumber x) : x.isNan = false := by
  obtain ⟨s, n, e, rfl⟩ := h
  rfl
theorem IsNumber.extended (h : IsNumber x) : extended x = ((x.rat : ℝ) : EReal) := by
  obtain ⟨s, n, e, rfl⟩ := h
  rfl
theorem IsNumber.isZero_iff (h : IsNumber x) : x.isZero = true ↔ x.rat = 0 := by
  obtain ⟨s, n, e, rfl⟩ := h
  rw [rat_eq_zero_iff]
  cases n <;> simp [FV.isZero]
/-- A number's sign bit, where it is not 0. -/
theorem IsNumber.neg_iff (h : IsNumber x) (h0 : x.rat ≠ 0) : x.neg? = true ↔ x.rat < 0 := by
  obtain ⟨s, n, e, rfl⟩ := h
  have hn : (0 : ℚ) < n := by
    rw [ne_eq, rat_eq_zero_iff] at h0
    exact_mod_cast Nat.pos_of_ne_zero h0
  have hpow : (0 : ℚ) < n * 2 ^ e := by positivity
  cases s <;> simp only [FV.neg?, FV.rat] <;> simp <;> linarith

theorem IsNumber.fadd (hx : IsNumber x) (hy : IsNumber y) (m : Rm) : IsNumber (fadd m x y) ∧ (fadd m x y).rat = x.rat + y.rat := by
  obtain ⟨a, n, e, rfl⟩ := hx
  obtain ⟨b, k, g, rfl⟩ := hy
  obtain ⟨c, z, k, h, hr⟩ := fadd_fin m a n e b k g
  exact ⟨⟨c, z, k, h⟩, h ▸ hr⟩
theorem IsNumber.subv (hx : IsNumber x) (hy : IsNumber y) : IsNumber (subv x y) ∧ (subv x y).rat = x.rat - y.rat := by
  obtain ⟨a, n, e, rfl⟩ := hx
  obtain ⟨b, k, g, rfl⟩ := hy
  obtain ⟨c, z, k, h, hr⟩ := subv_fin a n e b k g
  exact ⟨⟨c, z, k, h⟩, h ▸ hr⟩
theorem IsNumber.fmulv (hx : IsNumber x) (hy : IsNumber y) : IsNumber (fmulv x y) ∧ (fmulv x y).rat = x.rat * y.rat := by
  obtain ⟨a, n, e, rfl⟩ := hx
  obtain ⟨b, k, g, rfl⟩ := hy
  exact ⟨⟨_, _, _, rfl⟩, rat_fmulv a n e b k g⟩
theorem IsNumber.fnegv (hx : IsNumber x) : IsNumber (fnegv x) ∧ (fnegv x).rat = -x.rat := by
  obtain ⟨a, n, e, rfl⟩ := hx
  exact ⟨⟨_, _, _, rfl⟩, rat_fnegv _⟩

theorem number_ofInt (i : Int) : IsNumber (FV.ofInt i) ∧ (FV.ofInt i).rat = i := by
  refine ⟨⟨_, _, _, rfl⟩, ?_⟩
  rw [FV.ofInt, rat_sgn, sgn_natAbs, zpow_zero, mul_one]

/-- A term added to a sum kept as an integer times a power of two (R107). -/
def addTerm (acc : Int × Int) (v : FV) : Int × Int := match v with
  | .fin s m e => if m = 0 then acc
    else (acc.1 * 2 ^ (acc.2 - min acc.2 e).toNat + sgn s (m * 2 ^ (e - min acc.2 e).toNat), min acc.2 e)
  | _ => acc
/-- The number that such a sum stands for. -/
def termSum (acc : Int × Int) : ℚ := acc.1 * 2 ^ acc.2

theorem int_scaled (i : Int) {e k : Int} (h : k ≤ e) : ((i * 2 ^ (e - k).toNat : Int) : ℚ) * (2 : ℚ) ^ k = i * 2 ^ e := by
  obtain ⟨j, hj⟩ := Int.eq_ofNat_of_zero_le (sub_nonneg.2 h)
  obtain rfl : e = k + j := by omega
  rw [hj, Int.toNat_natCast, zpow_add₀ two_ne_zero, zpow_natCast]
  push_cast
  ring

theorem termSum_addTerm (acc : Int × Int) (hx : IsNumber x) : termSum (addTerm acc x) = termSum acc + x.rat := by
  obtain ⟨s, n, e, rfl⟩ := hx
  rw [addTerm]
  split
  · next h => rw [(rat_eq_zero_iff s n e).2 h, add_zero]
  · rw [termSum, Int.cast_add, add_mul, int_scaled _ (min_le_left ..), sgn_scaled _ _ (min_le_right ..), ← termSum]

theorem fsum_eq {xs : List FV} (h : ∀ x ∈ xs, IsNumber x) :
    fsum xs = .fin (decide ((xs.foldl addTerm (0, 0)).1 < 0)) (xs.foldl addTerm (0, 0)).1.natAbs (xs.foldl addTerm (0, 0)).2 := by
  have hnan : xs.any FV.isNan = false := List.any_eq_false.2 fun x hx => by simp [(h x hx).not_nan]
  have hinf (b : Bool) : xs.any (fun v => v == .inf b) = false := List.any_eq_false.2 fun x hx => by
    obtain ⟨s, n, e, rfl⟩ := h x hx
    simp
  rw [fsum, hnan, hinf, hinf]
  rfl

/-- The exact sum of finite values (R107). -/
theorem number_fsum {xs : List FV} (h : ∀ x ∈ xs, IsNumber x) : IsNumber (fsum xs) ∧ (fsum xs).rat = (xs.map FV.rat).sum := by
  have hsum (acc : Int × Int) : termSum (xs.foldl addTerm acc) = termSum acc + (xs.map FV.rat).sum := by
    induction xs generalizing acc with
    | nil => simp
    | cons x xs ih =>
      obtain ⟨hx, hxs⟩ := List.forall_mem_cons.1 h
      rw [List.foldl_cons, ih hxs, termSum_addTerm acc hx, List.map_cons, List.sum_cons, add_assoc]
  rw [fsum_eq h]
  refine ⟨⟨_, _, _, rfl⟩, ?_⟩
  rw [rat_sgn, sgn_natAbs, ← termSum, hsum, termSum]
  simp

end Exact

/-! ### Order of finite values -/

theorem lt32_rat {x y : Nat} (hx : IsNumber (v32 x)) (hy : IsNumber (v32 y)) : lt32 x y = true ↔ (v32 x).rat < (v32 y).rat := by
  rw [lt32_iff hx.not_nan hy.not_nan, hx.extended, hy.extended, EReal.coe_lt_coe_iff, Rat.cast_lt]
theorem le32_rat {x y : Nat} (hx : IsNumber (v32 x)) (hy : IsNumber (v32 y)) : le32 x y = true ↔ (v32 x).rat ≤ (v32 y).rat := by
  rw [le32_iff hx.not_nan hy.not_nan, hx.extended, hy.extended, EReal.coe_le_coe_iff, Rat.cast_le]

/-! ### Rounded results -/

theorem ieee_f32 : Ieee f32 := ieee_fmtOf (t := .f32) (by decide)
theorem ieee_f64 : Ieee (fmtOf .f64) := ieee_fmtOf (t := .f64) (by decide)

section Rounded

variable {f : Fmt} {x y : FV}

theorem rounds_fround (hf : Ieee f) {m : Rm} (hm : m ≠ .rtz) (hx : IsNumber x) : ∃ neg, f.Rounds m neg (x.rat : ℝ) (fround f m false x) := by
  obtain ⟨s, n, e, rfl⟩ := hx
  refine ⟨s, ?_⟩
  rw [rat_fin]
  simpa [fround] using rounds_roundQ hf hm s n one_ne_zero e

theorem rounds_fdiv (hf : Ieee f) {m : Rm} (hm : m ≠ .rtz) (hx : IsNumber x) (hy : IsNumber y) (h0 : y.rat ≠ 0) :
    ∃ neg, f.Rounds m neg ((x.rat / y.rat : ℚ) : ℝ) (fdiv f m x y) := by
  obtain ⟨a, n, e, rfl⟩ := hx
  obtain ⟨b, k, g, rfl⟩ := hy
  have hk : k ≠ 0 := by rwa [ne_eq, rat_eq_zero_iff] at h0
  refine ⟨a != b, ?_⟩
  have hval : (((FV.fin a n e).rat / (FV.fin b k g).rat : ℚ) : ℝ) = signed (a != b) (n / k * 2 ^ (e - g)) := by
    have hk' : (k : ℝ) ≠ 0 := Nat.cast_ne_zero.2 hk
    have hp : (2 : ℝ) ^ g ≠ 0 := zpow_ne_zero _ two_ne_zero
    rw [Rat.cast_div, rat_fin, rat_fin, zpow_sub₀ two_ne_zero]
    cases a <;> cases b <;> simp <;> field_simp
  rw [hval, fdiv, if_neg hk]
  exact rounds_roundQ hf hm _ n hk _

theorem roundsTo_fround (hf : Ieee f) (hx : IsNumber x) : f.RoundsTo x.rat (fround f .rne false x) := rounds_fround hf (by decide) hx
theorem roundsTo_fdiv (hf : Ieee f) (hx : IsNumber x) (hy : IsNumber y) (h0 : y.rat ≠ 0) : f.RoundsTo (x.rat / y.rat) (fdiv f .rne x y) :=
  rounds_fdiv hf (by decide) hx hy h0

theorem signed_intAbs (i : Int) : signed (decide (i < 0)) (i.natAbs : ℝ) = i := by
  have h := congrArg (fun j : Int => (j : ℝ)) (sgn_natAbs i)
  rw [← h]
  by_cases hi : i < 0 <;> simp [hi, sgn]

theorem roundsTo_ratF32 (num exp : Int) {den : Int} (hd : den ≠ 0) : f32.RoundsTo (num * 2 ^ exp / den) (ratF32 num exp den) := by
  refine ⟨decide (num < 0) != decide (den < 0), ?_⟩
  have hval : ((num * 2 ^ exp / den : ℚ) : ℝ) = signed (decide (num < 0) != decide (den < 0)) (num.natAbs / den.natAbs * 2 ^ exp) := by
    push_cast
    rw [← signed_intAbs num, ← signed_intAbs den]
    cases decide (num < 0) <;> cases decide (den < 0) <;> simp [neg_div, div_neg] <;> ring
  rw [hval]
  exact rounds_roundQ ieee_f32 (by decide) _ _ (Int.natAbs_ne_zero.2 hd) exp

end Rounded

end Sys2Proof.Laws
end
section
/-! SUPPORT. Boxes of a node: bounds, distances on an axis, and the box test (R346, R348). -/

namespace Sys2Proof.Laws

open Sys2Proof.Machine

/-! ### Bounds -/

theorem rounds_nodeBound (n c k : Nat) (hi : Bool) (h : isFin (nodeOrigin n k) = true) :
    ∃ neg, f32.Rounds (if hi then .rup else .rdn) neg
      (((v32 (nodeOrigin n k)).rat + nodeBox n c (if hi then k + 3 else k) * (2 : ℚ) ^ ((nodeExp n k : Int) - 127) : ℚ) : ℝ) (nodeBound n c k hi) := by
  obtain ⟨hnum, hsum⟩ := (isFin_iff.1 h).fadd (y := .fin false (nodeBox n c (if hi then k + 3 else k)) ((nodeExp n k : Int) - 127)) ⟨_, _, _, rfl⟩ .rne
  have hmode : (if hi then Rm.rup else .rdn) ≠ .rtz := by cases hi <;> decide
  obtain ⟨neg, hr⟩ := rounds_fround ieee_f32 hmode hnum
  refine ⟨neg, ?_⟩
  rw [hsum] at hr
  simpa [FV.rat, nodeBound] using hr

theorem mem_axes {k : Nat} : k ∈ [0, 1, 2] ↔ k < 3 := List.mem_range (n := 3)

theorem nodeBad_iff (n : Nat) : nodeBad n = true ↔ (∃ k, k < 3 ∧ (nodeExp n k = 0 ∨ nodeExp n k = 255 ∨ isFin (nodeOrigin n k) = false)) ∨
    ∃ c, c < 8 ∧ nodeValid n c = true ∧ (refKind (nodeRef n c) = 3 ∨ ∃ k, k < 3 ∧ nodeBox n c (k + 3) < nodeBox n c k) := by
  simp only [nodeBad, Bool.or_eq_true, Bool.and_eq_true, List.any_eq_true, mem_axes, List.mem_range, beq_iff_eq, decide_eq_true_eq, Bool.not_eq_true',
    or_assoc]

/-! ### Distances on an axis -/

section Axis

variable {o d lo hi : Nat}

theorem axisTest_beside (ho : isFin o = true) (hd : isFin d = true) (hlo : isFin lo = true) (hhi : isFin hi = true) (h0 : (v32 d).rat = 0) :
    axisTest o d lo hi = if (v32 o).rat < (v32 lo).rat ∨ (v32 hi).rat < (v32 o).rat then none else some (f32.infBits true, f32.infBits false) := by
  rw [isFin_iff] at ho hd hlo hhi
  rw [axisTest, if_pos (hd.isZero_iff.2 h0)]
  simp only [Bool.or_eq_true, lt32_rat ho hlo, lt32_rat hhi ho]
  rfl

/-- The distance to a plane across the ray. -/
theorem rounds_distance {p : Nat} {m : Rm} (hm : m ≠ .rtz) (ho : isFin o = true) (hd : isFin d = true) (hp : isFin p = true) (h0 : (v32 d).rat ≠ 0) :
    ∃ neg, f32.Rounds m neg ((((v32 p).rat - (v32 o).rat) / (v32 d).rat : ℚ) : ℝ) (fdiv f32 m (subv (v32 p) (v32 o)) (v32 d)) := by
  obtain ⟨hnum, hsub⟩ := (isFin_iff.1 hp).subv (isFin_iff.1 ho)
  rw [← hsub]
  exact rounds_fdiv ieee_f32 hm hnum (isFin_iff.1 hd) h0

theorem axisTest_across (ho : isFin o = true) (hd : isFin d = true) (hlo : isFin lo = true) (hhi : isFin hi = true) (h0 : (v32 d).rat ≠ 0) :
    ∃ tn tf a b, axisTest o d lo hi = some (tn, tf) ∧
      f32.Rounds .rdn a ((((if 0 < (v32 d).rat then (v32 lo).rat else (v32 hi).rat) - (v32 o).rat) / (v32 d).rat : ℚ) : ℝ) tn ∧
      f32.Rounds .rup b ((((if 0 < (v32 d).rat then (v32 hi).rat else (v32 lo).rat) - (v32 o).rat) / (v32 d).rat : ℚ) : ℝ) tf := by
  have hz : ¬ (v32 d).isZero = true := fun h => h0 ((isFin_iff.1 hd).isZero_iff.1 h)
  obtain ⟨a, hl⟩ := rounds_distance (m := .rdn) (by decide) ho hd hlo h0
  obtain ⟨b, hl'⟩ := rounds_distance (m := .rup) (by decide) ho hd hlo h0
  obtain ⟨c, hh⟩ := rounds_distance (m := .rdn) (by decide) ho hd hhi h0
  obtain ⟨e, hh'⟩ := rounds_distance (m := .rup) (by decide) ho hd hhi h0
  rw [axisTest, if_neg hz]
  by_cases hneg : (v32 d).rat < 0
  · simp only [((isFin_iff.1 hd).neg_iff h0).2 hneg, if_true, not_lt.2 hneg.le, if_false]
    exact ⟨_, _, c, b, rfl, hh, hl'⟩
  · have hpos : 0 < (v32 d).rat := lt_of_le_of_ne (not_lt.1 hneg) (Ne.symm h0)
    have hs : (v32 d).neg? = false := Bool.eq_false_iff.2 fun h => hneg (((isFin_iff.1 hd).neg_iff h0).1 h)
    simp only [hs, Bool.false_eq_true, if_false, hpos, if_true]
    exact ⟨_, _, a, e, rfl, hl, hh'⟩

end Axis

/-! ### The box test -/

/-- The planes of a child's box on an axis, as the ray meets them. -/
def boxAxis (r : Ray) (n c k : Nat) : Option (Nat × Nat) :=
  axisTest (r.o.getD k 0) (r.d.getD k 0) (nodeBound n c k false) (nodeBound n c k true)

theorem boxTest_eq (r : Ray) (n c : Nat) : boxTest r n c = (boxAxis r n c 0).bind fun x => (boxAxis r n c 1).bind fun y =>
    (boxAxis r n c 2).bind fun z =>
      if le32 (maxf (maxf (maxf r.tmin x.1) y.1) z.1) (minf (minf (minf r.tmax x.2) y.2) z.2) = true
      then some (maxf (maxf (maxf r.tmin x.1) y.1) z.1) else none := by
  cases hx : boxAxis r n c 0 <;> cases hy : boxAxis r n c 1 <;> cases hz : boxAxis r n c 2 <;>
    (unfold boxAxis at hx hy hz; simp only [boxTest, hx, hy, hz, Option.bind_none, Option.bind_some])

theorem boxTest_of_miss {r : Ray} {n c k : Nat} (hk : k < 3) (h : boxAxis r n c k = none) : boxTest r n c = none := by
  rw [boxTest_eq]
  interval_cases k <;> simp [h]

/-! ### The greater and the lesser of two distances -/

theorem extended_le_of_fltv_false {x y : FV} (hx : x.isNan = false) (hy : y.isNan = false) (h : fltv x y = false) : extended y ≤ extended x := by
  simp only [fltv, Bool.or_eq_false_iff, decide_eq_false_iff_not] at h
  exact not_lt.1 fun hlt => h.1 ((fcmpv_neg_iff hx hy).2 hlt)
theorem extended_le_of_fltv {x y : FV} (hx : x.isNan = false) (hy : y.isNan = false) (h : fltv x y = true) : extended x ≤ extended y := by
  simp only [fltv, Bool.or_eq_true, Bool.and_eq_true, decide_eq_true_eq] at h
  refine not_lt.1 fun hlt => ?_
  have hpos := (fcmpv_pos_iff hx hy).2 hlt
  omega

theorem fminmax_of_number (mx : Bool) {x y : Nat} (hx : (v32 x).isNan = false) (hy : (v32 y).isNan = false) :
    fminmax f32 mx x y = if fltv (if mx then v32 y else v32 x) (if mx then v32 x else v32 y) then x else y := by
  unfold v32 at hx hy ⊢
  cases hx' : fdec f32 x <;> cases hy' : fdec f32 y <;> simp_all [fminmax, FV.isNan]

theorem maxf_spec {x y : Nat} (hx : (v32 x).isNan = false) (hy : (v32 y).isNan = false) :
    (maxf x y = x ∨ maxf x y = y) ∧ le32 x (maxf x y) = true ∧ le32 y (maxf x y) = true := by
  rw [maxf, fminmax_of_number true hx hy]
  cases h : fltv (v32 y) (v32 x) with
  | true =>
    simp only [if_true, le32_iff hx hx, le32_iff hy hx, h]
    exact ⟨.inl trivial, le_rfl, extended_le_of_fltv hy hx h⟩
  | false =>
    simp only [if_true, le32_iff hy hy, le32_iff hx hy, h, Bool.false_eq_true, if_false]
    exact ⟨.inr trivial, extended_le_of_fltv_false hy hx h, le_rfl⟩
theorem minf_spec {x y : Nat} (hx : (v32 x).isNan = false) (hy : (v32 y).isNan = false) :
    (minf x y = x ∨ minf x y = y) ∧ le32 (minf x y) x = true ∧ le32 (minf x y) y = true := by
  rw [minf, fminmax_of_number false hx hy]
  cases h : fltv (v32 x) (v32 y) with
  | true =>
    simp only [Bool.false_eq_true, if_false, if_true, le32_iff hx hx, le32_iff hx hy, h]
    exact ⟨.inl trivial, le_rfl, extended_le_of_fltv hx hy h⟩
  | false =>
    simp only [le32_iff hy hy, le32_iff hy hx, h, Bool.false_eq_true, if_false]
    exact ⟨.inr trivial, extended_le_of_fltv_false hx hy h, le_rfl⟩

end Sys2Proof.Laws
end
section
/-! SUPPORT. The triangle test in ray space (R349). -/

namespace Sys2Proof.Laws

open Sys2Proof.Machine

/-! ### Signs and magnitudes -/

section Sign

variable {v x y : FV}

theorem IsNumber.sign_eq (h : IsNumber v) : v.sign = SignType.sign v.rat := by
  obtain ⟨s, n, e, rfl⟩ := h
  rcases Nat.eq_zero_or_pos n with rfl | hn
  · simp [Machine.FV.sign, FV.rat]
  · have hpow : (0 : ℚ) < n * 2 ^ e := by positivity
    cases s <;> simp [Machine.FV.sign, FV.rat, hn.ne', hpow]
theorem IsNumber.sign_eq_zero (h : IsNumber v) : v.sign = 0 ↔ v.rat = 0 := by
  rw [h.sign_eq]
  rcases lt_trichotomy v.rat 0 with h | h | h
  · simp [h, h.ne]
  · simp [h]
  · simp [h, h.ne']
theorem IsNumber.sign_neg (h : IsNumber v) : v.sign < 0 ↔ v.rat < 0 := by
  rw [h.sign_eq]
  rcases lt_trichotomy v.rat 0 with h | h | h <;> simp [h, h.le]
theorem IsNumber.sign_pos (h : IsNumber v) : 0 < v.sign ↔ 0 < v.rat := by
  rw [h.sign_eq]
  rcases lt_trichotomy v.rat 0 with h | h | h <;> simp [h, h.le]

/-- A value without its sign. -/
def magnitude : FV → FV
  | .inf _ => .inf false
  | .fin _ n e => .fin false n e
  | v => v
theorem rat_magnitude (h : IsNumber v) : IsNumber (magnitude v) ∧ (magnitude v).rat = |v.rat| := by
  obtain ⟨s, n, e, rfl⟩ := h
  have hpow : (0 : ℚ) ≤ n * 2 ^ e := by positivity
  refine ⟨⟨_, _, _, rfl⟩, ?_⟩
  cases s <;> simp [magnitude, FV.rat, abs_of_nonneg hpow]
theorem fcmpv_magnitude (hx : IsNumber x) (hy : IsNumber y) : fcmpv (magnitude x) (magnitude y) < 0 ↔ |x.rat| < |y.rat| := by
  obtain ⟨hx, hx'⟩ := rat_magnitude hx
  obtain ⟨hy, hy'⟩ := rat_magnitude hy
  rw [fcmpv_neg_iff hx.not_nan hy.not_nan, hx.extended, hy.extended, hx', hy', EReal.coe_lt_coe_iff, Rat.cast_lt]

end Sign

/-! ### The axes of a direction -/

theorem mainAxis_eq (d : List Nat) : mainAxis d =
    (let a (k : Nat) := magnitude (v32 (d.getD k 0))
     let k := if fcmpv (a 0) (a 1) < 0 then 1 else 0
     if fcmpv (a k) (a 2) < 0 then 2 else k) := rfl

/-- The main axis is the lowest of those on which the direction is greatest. -/
theorem mainAxis_greatest {d : List Nat} (h : ∀ k, k < 3 → IsNumber (v32 (d.getD k 0))) :
    mainAxis d < 3 ∧ (∀ j, j < 3 → |(v32 (d.getD j 0)).rat| ≤ |(v32 (d.getD (mainAxis d) 0)).rat|) ∧
      ∀ j, j < mainAxis d → |(v32 (d.getD j 0)).rat| < |(v32 (d.getD (mainAxis d) 0)).rat| := by
  have hcmp {i j : Nat} (hi : i < 3) (hj : j < 3) := fcmpv_magnitude (h i hi) (h j hj)
  rw [mainAxis_eq]
  by_cases h01 : |(v32 (d.getD 0 0)).rat| < |(v32 (d.getD 1 0)).rat|
  · simp only [hcmp (i := 0) (j := 1) (by decide) (by decide), h01, if_true, hcmp (i := 1) (j := 2) (by decide) (by decide)]
    split <;> refine ⟨by decide, fun j hj => ?_, fun j hj => ?_⟩ <;> interval_cases j <;> linarith
  · simp only [hcmp (i := 0) (j := 1) (by decide) (by decide), h01, if_false, hcmp (i := 0) (j := 2) (by decide) (by decide)]
    split <;> refine ⟨by decide, fun j hj => ?_, fun j hj => ?_⟩ <;> interval_cases j <;> linarith

theorem triAxes_of_pos {d : List Nat} (h : IsNumber (v32 (d.getD (mainAxis d) 0))) (hpos : 0 < (v32 (d.getD (mainAxis d) 0)).rat) :
    triAxes d = ((mainAxis d + 1) % 3, (mainAxis d + 2) % 3, mainAxis d) :=
  if_neg fun hs => absurd ((h.neg_iff hpos.ne').1 hs) hpos.not_gt
theorem triAxes_of_neg {d : List Nat} (h : IsNumber (v32 (d.getD (mainAxis d) 0))) (hneg : (v32 (d.getD (mainAxis d) 0)).rat < 0) :
    triAxes d = ((mainAxis d + 2) % 3, (mainAxis d + 1) % 3, mainAxis d) := if_pos ((h.neg_iff hneg.ne).2 hneg)
theorem triAxes_main (d : List Nat) : (triAxes d).2.2 = mainAxis d := by
  simp only [triAxes]
  split <;> rfl

/-! ### Vertices in ray space -/

section Shear

variable {r : Ray} {p : Nat → Nat}

theorem roundsTo_triRel {k : Nat} (hp : isFin (p k) = true) (ho : isFin (r.o.getD k 0) = true) :
    f32.RoundsTo ((v32 (p k)).rat - (v32 (r.o.getD k 0)).rat) (triRel r p k) := by
  obtain ⟨hnum, hsub⟩ := (isFin_iff.1 hp).subv (isFin_iff.1 ho)
  rw [← hsub]
  exact roundsTo_fround ieee_f32 hnum

theorem roundsTo_triShear {k : Nat} (hk : isFin (r.d.getD k 0) = true) (hz : isFin (r.d.getD (triAxes r.d).2.2 0) = true)
    (h0 : (v32 (r.d.getD (triAxes r.d).2.2 0)).rat ≠ 0) :
    f32.RoundsTo ((v32 (r.d.getD k 0)).rat / (v32 (r.d.getD (triAxes r.d).2.2 0)).rat) (triShear r k) :=
  roundsTo_fdiv ieee_f32 (isFin_iff.1 hk) (isFin_iff.1 hz) h0

theorem roundsTo_inverse {x : Nat} (hx : isFin x = true) (h0 : (v32 x).rat ≠ 0) :
    f32.RoundsTo (1 / (v32 x).rat) (fdiv f32 .rne (FV.ofInt 1) (v32 x)) := by
  obtain ⟨hnum, h1⟩ := number_ofInt 1
  have h := roundsTo_fdiv ieee_f32 hnum (isFin_iff.1 hx) h0
  rwa [h1, Int.cast_one] at h

theorem roundsTo_sheared {x s z : Nat} (hx : isFin x = true) (hs : isFin s = true) (hz : isFin z = true) :
    f32.RoundsTo ((v32 x).rat - (v32 s).rat * (v32 z).rat) (rn (subv (v32 x) (fmulv (v32 s) (v32 z)))) := by
  obtain ⟨hmul, hm⟩ := (isFin_iff.1 hs).fmulv (isFin_iff.1 hz)
  obtain ⟨hnum, hsub⟩ := (isFin_iff.1 hx).subv hmul
  rw [← hm, ← hsub]
  exact roundsTo_fround ieee_f32 hnum

theorem roundsTo_scaled {s z : Nat} (hs : isFin s = true) (hz : isFin z = true) :
    f32.RoundsTo ((v32 s).rat * (v32 z).rat) (rn (fmulv (v32 s) (v32 z))) := by
  obtain ⟨hmul, hm⟩ := (isFin_iff.1 hs).fmulv (isFin_iff.1 hz)
  rw [← hm]
  exact roundsTo_fround ieee_f32 hmul

end Shear

/-! ### The edges U, V and W -/

section Edges

variable {a b c : Nat × Nat × Nat}

theorem roundsTo_cross {f : Fmt} (hf : Ieee f) {w x y z : Nat} (hw : isFin w = true) (hx : isFin x = true) (hy : isFin y = true) (hz : isFin z = true) :
    f.RoundsTo ((v32 w).rat * (v32 x).rat - (v32 y).rat * (v32 z).rat) (cross f w x y z) := by
  obtain ⟨hwx, hwx'⟩ := (isFin_iff.1 hw).fmulv (isFin_iff.1 hx)
  obtain ⟨hyz, hyz'⟩ := (isFin_iff.1 hy).fmulv (isFin_iff.1 hz)
  obtain ⟨hnum, hsub⟩ := hwx.subv hyz
  rw [← hwx', ← hyz', ← hsub]
  exact roundsTo_fround hf hnum

theorem triEdges_rounds {f : Fmt} (hf : Ieee f) (h : ∀ p ∈ [a, b, c], isFin p.1 = true ∧ isFin p.2.1 = true) :
    ∃ u v w, triEdges f a b c = [fdec f u, fdec f v, fdec f w] ∧
      f.RoundsTo ((v32 c.1).rat * (v32 b.2.1).rat - (v32 c.2.1).rat * (v32 b.1).rat) u ∧
      f.RoundsTo ((v32 a.1).rat * (v32 c.2.1).rat - (v32 a.2.1).rat * (v32 c.1).rat) v ∧
      f.RoundsTo ((v32 b.1).rat * (v32 a.2.1).rat - (v32 b.2.1).rat * (v32 a.1).rat) w := by
  obtain ⟨⟨hax, hay⟩, ⟨hbx, hby⟩, hcx, hcy⟩ : _ ∧ _ ∧ _ := by simpa using h
  exact ⟨_, _, _, rfl, roundsTo_cross hf hcx hby hcy hbx, roundsTo_cross hf hax hcy hay hcx, roundsTo_cross hf hbx hay hby hax⟩

theorem triUvw_of_zero (h : ∃ x ∈ triEdges f32 a b c, x.isZero = true) : triUvw a b c = triEdges (fmtOf .f64) a b c := if_pos (List.any_eq_true.2 h)
theorem triUvw_of_nonzero (h : ∀ x ∈ triEdges f32 a b c, x.isZero = false) : triUvw a b c = triEdges f32 a b c :=
  if_neg fun hz => by
    obtain ⟨x, hx, h0⟩ := List.any_eq_true.1 hz
    exact absurd h0 (by simp [h x hx])

theorem triUvw_three (a b c : Nat × Nat × Nat) : ∃ x y z, triUvw a b c = [x, y, z] := by
  unfold triUvw
  split <;> exact ⟨_, _, _, rfl⟩

end Edges

/-! ### The test -/

/-- A value turned so that the determinant is positive. -/
def towards (d v : FV) : FV := if d.sign < 0 then fnegv v else v

/-- Whether the hit lies inside an edge, from one point to another, or on it where it is owned. -/
def insideEdge (d y : FV) (p q : Nat × Nat × Nat) : Bool := match (towards d y).sign with
  | 0 => if d.sign < 0 then triOwned q p else triOwned p q
  | x => decide (0 < x)

/-- The hit at a determinant and three edge values. -/
def hitAt (d x y z : FV) (a b c : Nat × Nat × Nat) : TriHit :=
  { t := fdiv f32 .rne (fsum [fmulv (towards d x) (v32 a.2.2), fmulv (towards d y) (v32 b.2.2), fmulv (towards d z) (v32 c.2.2)]) (towards d d),
    b1 := fdiv f32 .rne (towards d y) (towards d d), b2 := fdiv f32 .rne (towards d z) (towards d d) }

theorem triTest_eq {r : Ray} {vs : Nat → Nat → Nat} {a b c : Nat × Nat × Nat} (ha : triPoint r (vs 0) = a) (hb : triPoint r (vs 1) = b)
    (hc : triPoint r (vs 2) = c) {x y z : FV} (he : triUvw a b c = [x, y, z]) (hn : ∀ v ∈ [x, y, z], IsNumber v) :
    triTest r vs = if (fsum [x, y, z]).sign = 0 ∨ (r.cull = 1 ∧ (fsum [x, y, z]).sign < 0) ∨ (r.cull = 2 ∧ 0 < (fsum [x, y, z]).sign) then none
      else if insideEdge (fsum [x, y, z]) x b c ∧ insideEdge (fsum [x, y, z]) y c a ∧ insideEdge (fsum [x, y, z]) z a b
        then some (hitAt (fsum [x, y, z]) x y z a b c) else none := by
  have hnan : [x, y, z].any FV.isNan = false := List.any_eq_false.2 fun v hv => by simp [(hn v hv).not_nan]
  have hdet := (number_fsum hn).1.not_nan
  simp only [triTest, ha, hb, hc, he, hnan, hdet, Bool.false_or, Bool.or_eq_true, Bool.and_eq_true, beq_iff_eq, decide_eq_true_eq, or_assoc, and_assoc]
  rfl

section Determinant

variable {d y : FV} {p q : Nat × Nat × Nat}

theorem rat_towards (hd : IsNumber d) (hy : IsNumber y) :
    IsNumber (towards d y) ∧ (towards d y).rat = if d.rat < 0 then -y.rat else y.rat := by
  unfold towards
  simp only [hd.sign_neg]
  split
  · exact hy.fnegv
  · exact ⟨hy, rfl⟩

theorem triOwned_iff (hp : IsNumber (v32 p.1) ∧ IsNumber (v32 p.2.1)) (hq : IsNumber (v32 q.1) ∧ IsNumber (v32 q.2.1)) :
    triOwned p q = true ↔ 0 < (v32 q.2.1).rat - (v32 p.2.1).rat ∨
      (v32 q.2.1).rat - (v32 p.2.1).rat = 0 ∧ (v32 q.1).rat - (v32 p.1).rat < 0 := by
  simp only [triOwned, Bool.or_eq_true, Bool.and_eq_true, lt32_rat hp.2 hq.2, le32_rat hp.2 hq.2, le32_rat hq.2 hp.2, lt32_rat hq.1 hp.1,
    sub_pos, sub_neg, sub_eq_zero, eq_comm (a := (v32 q.2.1).rat), ← le_antisymm_iff]

theorem insideEdge_iff (hd : IsNumber d) (hy : IsNumber y) (hp : IsNumber (v32 p.1) ∧ IsNumber (v32 p.2.1))
    (hq : IsNumber (v32 q.1) ∧ IsNumber (v32 q.2.1)) :
    insideEdge d y p q = true ↔ 0 < (if d.rat < 0 then -y.rat else y.rat) ∨ y.rat = 0 ∧
      (0 < (if d.rat < 0 then (v32 p.2.1).rat - (v32 q.2.1).rat else (v32 q.2.1).rat - (v32 p.2.1).rat) ∨
        (if d.rat < 0 then (v32 p.2.1).rat - (v32 q.2.1).rat else (v32 q.2.1).rat - (v32 p.2.1).rat) = 0 ∧
          (if d.rat < 0 then (v32 p.1).rat - (v32 q.1).rat else (v32 q.1).rat - (v32 p.1).rat) < 0) := by
  obtain ⟨ht, hrat⟩ := rat_towards hd hy
  have hzero : (towards d y).rat = 0 ↔ y.rat = 0 := by
    rw [hrat]
    split <;> simp
  rw [← hrat, ← hzero]
  unfold insideEdge
  split
  · next h0 =>
    have h0 := ht.sign_eq_zero.1 h0
    simp only [h0, lt_irrefl, false_or, true_and, hd.sign_neg]
    split
    · exact triOwned_iff hq hp
    · exact triOwned_iff hp hq
  · next h0 =>
    have h0 : (towards d y).rat ≠ 0 := fun h => h0 (ht.sign_eq_zero.2 h)
    simp only [h0, false_and, or_false, decide_eq_true_eq, ht.sign_pos]

/-- A quotient of two values turned alike. -/
theorem div_towards (hd : IsNumber d) (hy : IsNumber y) : (towards d y).rat / (towards d d).rat = y.rat / d.rat := by
  rw [(rat_towards hd hy).2, (rat_towards hd hd).2]
  split <;> simp [neg_div_neg_eq]
theorem towards_ne_zero (hd : IsNumber d) (h0 : d.rat ≠ 0) : (towards d d).rat ≠ 0 := by
  rw [(rat_towards hd hd).2]
  split <;> simpa using h0

theorem roundsTo_weight (hd : IsNumber d) (hy : IsNumber y) (h0 : d.rat ≠ 0) :
    f32.RoundsTo (y.rat / d.rat) (fdiv f32 .rne (towards d y) (towards d d)) := by
  rw [← div_towards hd hy]
  exact roundsTo_fdiv ieee_f32 (rat_towards hd hy).1 (rat_towards hd hd).1 (towards_ne_zero hd h0)

theorem roundsTo_distance {x z u v w : FV} (hd : IsNumber d) (h0 : d.rat ≠ 0) (hx : IsNumber x) (hy : IsNumber y) (hz : IsNumber z)
    (hu : IsNumber u) (hv : IsNumber v) (hw : IsNumber w) :
    f32.RoundsTo ((x.rat * u.rat + y.rat * v.rat + z.rat * w.rat) / d.rat)
      (fdiv f32 .rne (fsum [fmulv (towards d x) u, fmulv (towards d y) v, fmulv (towards d z) w]) (towards d d)) := by
  obtain ⟨hx', hxr⟩ := (rat_towards hd hx).1.fmulv hu
  obtain ⟨hy', hyr⟩ := (rat_towards hd hy).1.fmulv hv
  obtain ⟨hz', hzr⟩ := (rat_towards hd hz).1.fmulv hw
  obtain ⟨hs, hsr⟩ := number_fsum (xs := [fmulv (towards d x) u, fmulv (towards d y) v, fmulv (towards d z) w]) (by simp [hx', hy', hz'])
  have hval : (x.rat * u.rat + y.rat * v.rat + z.rat * w.rat) / d.rat =
      (fsum [fmulv (towards d x) u, fmulv (towards d y) v, fmulv (towards d z) w]).rat / (towards d d).rat := by
    simp only [hsr, List.map_cons, List.map_nil, List.sum_cons, List.sum_nil, hxr, hyr, hzr, (rat_towards hd hx).2, (rat_towards hd hy).2,
      (rat_towards hd hz).2, (rat_towards hd hd).2]
    split
    · rw [← neg_div_neg_eq]
      ring
    · ring
  rw [hval]
  exact roundsTo_fdiv ieee_f32 hs (rat_towards hd hd).1 (towards_ne_zero hd h0)

end Determinant

/-! ### The triangle test, from the values of its points -/

section Triangle

variable {r : Ray} {vs : Nat → Nat → Nat} {a b c : Nat × Nat × Nat} {x y z : FV}

/-- The coordinates of a point in ray space are numbers. -/
def PointNumber (p : Nat × Nat × Nat) : Prop := (IsNumber (v32 p.1) ∧ IsNumber (v32 p.2.1)) ∧ IsNumber (v32 p.2.2)

/-- The determinant of a triangle that the ray's facing rule passes over. -/
def Culled (r : Ray) (det : ℚ) : Prop := det = 0 ∨ (r.cull = 1 ∧ det < 0) ∨ (r.cull = 2 ∧ 0 < det)

/-- Whether the hit lies inside an edge, of value y, from p to q, or on it where it is owned (R349). -/
def Inside (det y : ℚ) (p q : Nat × Nat × Nat) : Prop :=
  0 < (if det < 0 then -y else y) ∨ y = 0 ∧
    (0 < (if det < 0 then (v32 p.2.1).rat - (v32 q.2.1).rat else (v32 q.2.1).rat - (v32 p.2.1).rat) ∨
      (if det < 0 then (v32 p.2.1).rat - (v32 q.2.1).rat else (v32 q.2.1).rat - (v32 p.2.1).rat) = 0 ∧
        (if det < 0 then (v32 p.1).rat - (v32 q.1).rat else (v32 q.1).rat - (v32 p.1).rat) < 0)

theorem number_det (hn : ∀ v ∈ [x, y, z], IsNumber v) : IsNumber (fsum [x, y, z]) ∧ (fsum [x, y, z]).rat = x.rat + y.rat + z.rat := by
  obtain ⟨hd, hdet⟩ := number_fsum hn
  exact ⟨hd, by simp [hdet, add_assoc]⟩

theorem culled_iff (hn : ∀ v ∈ [x, y, z], IsNumber v) :
    ((fsum [x, y, z]).sign = 0 ∨ (r.cull = 1 ∧ (fsum [x, y, z]).sign < 0) ∨ (r.cull = 2 ∧ 0 < (fsum [x, y, z]).sign)) ↔
      Culled r (x.rat + y.rat + z.rat) := by
  obtain ⟨hd, hdet⟩ := number_det hn
  rw [hd.sign_eq_zero, hd.sign_neg, hd.sign_pos, hdet]
  rfl

theorem inside_iff (hn : ∀ v ∈ [x, y, z], IsNumber v) {v : FV} (hv : IsNumber v) {p q : Nat × Nat × Nat} (hp : PointNumber p) (hq : PointNumber q) :
    insideEdge (fsum [x, y, z]) v p q = true ↔ Inside (x.rat + y.rat + z.rat) v.rat p q := by
  obtain ⟨hd, hdet⟩ := number_det hn
  rw [insideEdge_iff hd hv hp.1 hq.1, hdet]
  rfl

theorem triTest_number (ha : triPoint r (vs 0) = a) (hb : triPoint r (vs 1) = b) (hc : triPoint r (vs 2) = c) (he : triUvw a b c = [x, y, z])
    (hn : ∀ v ∈ [x, y, z], IsNumber v) (hp : ∀ p ∈ [a, b, c], PointNumber p) :
    let det := x.rat + y.rat + z.rat
    let inside := Inside det x.rat b c ∧ Inside det y.rat c a ∧ Inside det z.rat a b
    (Culled r det ∨ ¬ inside → triTest r vs = none) ∧
      (¬ Culled r det → inside → triTest r vs = some (hitAt (fsum [x, y, z]) x y z a b c)) := by
  obtain ⟨hx, hy, hz⟩ : IsNumber x ∧ IsNumber y ∧ IsNumber z := by simpa using hn
  obtain ⟨pa, pb, pc⟩ : PointNumber a ∧ PointNumber b ∧ PointNumber c := by simpa using hp
  intro det inside
  rw [triTest_eq ha hb hc he hn]
  have hinside : (insideEdge _ x b c = true ∧ insideEdge _ y c a = true ∧ insideEdge _ z a b = true) ↔ inside :=
    and_congr (inside_iff hn hx pb pc) (and_congr (inside_iff hn hy pc pa) (inside_iff hn hz pa pb))
  refine ⟨fun h => ?_, fun hcull hin => ?_⟩
  · split
    · rfl
    · next hcull => exact if_neg fun hin => h.resolve_left (fun hc => hcull ((culled_iff hn).2 hc)) (hinside.1 hin)
  · rw [if_neg fun h => hcull ((culled_iff hn).1 h), if_pos (hinside.2 hin)]

theorem hitAt_rounds (hn : ∀ v ∈ [x, y, z], IsNumber v) (hp : ∀ p ∈ [a, b, c], PointNumber p) (h0 : x.rat + y.rat + z.rat ≠ 0) :
    f32.RoundsTo ((x.rat * (v32 a.2.2).rat + y.rat * (v32 b.2.2).rat + z.rat * (v32 c.2.2).rat) / (x.rat + y.rat + z.rat))
        (hitAt (fsum [x, y, z]) x y z a b c).t ∧
      f32.RoundsTo (y.rat / (x.rat + y.rat + z.rat)) (hitAt (fsum [x, y, z]) x y z a b c).b1 ∧
      f32.RoundsTo (z.rat / (x.rat + y.rat + z.rat)) (hitAt (fsum [x, y, z]) x y z a b c).b2 := by
  obtain ⟨hd, hdet⟩ := number_det hn
  obtain ⟨hx, hy, hz⟩ : IsNumber x ∧ IsNumber y ∧ IsNumber z := by simpa using hn
  obtain ⟨pa, pb, pc⟩ : PointNumber a ∧ PointNumber b ∧ PointNumber c := by simpa using hp
  rw [← hdet] at h0 ⊢
  exact ⟨roundsTo_distance hd h0 hx hy hz pa.2 pb.2 pc.2, roundsTo_weight hd hy h0, roundsTo_weight hd hz h0⟩

end Triangle

end Sys2Proof.Laws
end
section
/-! SUPPORT. Coverage, depth, weights and fragments of a triangle (R331 to R333). -/

namespace Sys2Proof.Laws

open Sys2Proof.Machine

/-! ### Coverage, depth and weights -/

theorem edgeOwned_iff (us : List (Int × Int)) (k : Nat) : edgeOwned us k = true ↔
    0 < vy us k - vy us ((k + 1) % 3) ∨ vy us k = vy us ((k + 1) % 3) ∧ 0 < vx us ((k + 1) % 3) - vx us k := by
  simp only [edgeOwned, Bool.or_eq_true, Bool.and_eq_true, decide_eq_true_eq, sub_eq_zero]

theorem covered_iff (vs : List (Int × Int)) (px py : Int) : covered vs px py = true ↔ ∀ k, k < 3 →
    let us := if triArea vs < 0 then [vs.getD 0 (0, 0), vs.getD 2 (0, 0), vs.getD 1 (0, 0)] else vs
    0 < edgeE us k px py ∨ edgeE us k px py = 0 ∧
      (0 < vy us k - vy us ((k + 1) % 3) ∨ vy us k = vy us ((k + 1) % 3) ∧ 0 < vx us ((k + 1) % 3) - vx us k) := by
  simp only [covered, List.all_eq_true, mem_axes, Bool.or_eq_true, Bool.and_eq_true, decide_eq_true_eq, edgeOwned_iff]

theorem roundsTo_weightAt {vs : List (Int × Int)} (h : triArea vs ≠ 0) (k : Nat) (px py : Int) :
    f32.RoundsTo ((edgeE vs k px py : ℚ) / triArea vs) (weightAt vs k px py) := by
  have hr := roundsTo_ratF32 (edgeE vs k px py) 0 h
  rwa [zpow_zero, mul_one] at hr

theorem roundsTo_depthAt {p : Prim} {vs : List (Int × Int)} (h : triArea vs ≠ 0) (hp : ∀ k, k < 3 → isFin (p.coord k 2) = true) (px py : Int) :
    f32.RoundsTo ((edgeE vs 1 px py * (v32 (p.coord 0 2)).rat + edgeE vs 2 px py * (v32 (p.coord 1 2)).rat +
      edgeE vs 0 px py * (v32 (p.coord 2 2)).rat) / triArea vs) (depthAt p vs px py) := by
  have hterm {k : Nat} (e : Int) (hk : k < 3) := (number_ofInt e).1.fmulv (isFin_iff.1 (hp k hk))
  obtain ⟨h0, hr0⟩ := hterm (k := 0) (edgeE vs 1 px py) (by decide)
  obtain ⟨h1, hr1⟩ := hterm (k := 1) (edgeE vs 2 px py) (by decide)
  obtain ⟨h2, hr2⟩ := hterm (k := 2) (edgeE vs 0 px py) (by decide)
  obtain ⟨⟨s, n, e, hs⟩, hsum⟩ := number_fsum (List.forall_mem_cons.2 ⟨h0, List.forall_mem_cons.2 ⟨h1, List.forall_mem_singleton.2 h2⟩⟩)
  have hval := roundsTo_ratF32 (sgn s n) e h
  rw [← rat_sgn, ← hs, hsum] at hval
  simp only [List.map_cons, List.map_nil, List.sum_cons, List.sum_nil, hr0, hr1, hr2, (number_ofInt _).2, add_zero, ← add_assoc] at hval
  unfold v32 f32 at hs
  unfold depthAt
  simp only [hs]
  exact hval

/-! ### Numbers from bits -/

/-- The number whose bit i is item i of a list. -/
def maskOf (bits : List Bool) : Nat := (bits.mapIdx (fun i b => if b then 2 ^ i else 0)).sum

theorem maskOf_cons (b : Bool) (bits : List Bool) : maskOf (b :: bits) = Nat.bit b (maskOf bits) := by
  have hshift : (bits.mapIdx (fun i c => if c then 2 ^ (i + 1) else 0)).sum = 2 * maskOf bits := by
    rw [maskOf, List.mapIdx_eq_zipIdx_map, List.mapIdx_eq_zipIdx_map, ← List.sum_map_mul_left]
    refine congrArg (fun f => (bits.zipIdx.map f).sum) ?_
    funext ⟨c, i⟩
    cases c <;> simp [pow_succ']
  rw [maskOf, List.mapIdx_cons, List.sum_cons, hshift, Nat.bit_val, add_comm]
  cases b <;> rfl

theorem testBit_maskOf (bits : List Bool) (i : Nat) : (maskOf bits).testBit i = (bits[i]?).getD false := by
  induction bits generalizing i with
  | nil => simp [maskOf]
  | cons b bits ih =>
    rw [maskOf_cons]
    cases i with
    | zero => simp
    | succ i => simp [Nat.testBit_bit_succ, ih]

theorem maskOf_lt (bits : List Bool) : maskOf bits < 2 ^ bits.length := by
  refine Nat.lt_pow_two_of_testBit _ fun i hi => ?_
  rw [testBit_maskOf, List.getElem?_eq_none hi]
  rfl

theorem maskOf_eq_zero_iff (bits : List Bool) : maskOf bits = 0 ↔ ∀ b ∈ bits, b = false := by
  induction bits with
  | nil => simp [maskOf]
  | cons b bits ih =>
    rw [maskOf_cons, List.forall_mem_cons, ← ih, Nat.bit_val]
    cases b <;> simp

/-! ### The pixels of a block -/

/-- The pixels of a block in the order of its cover bits. -/
def blockPixels (bw bh : Nat) : List (Nat × Nat) := (List.range bh).flatMap (fun dy => (List.range bw).map (fun dx => (dx, dy)))

theorem mem_blockPixels {bw bh dx dy : Nat} : (dx, dy) ∈ blockPixels bw bh ↔ dx < bw ∧ dy < bh := by
  simp [blockPixels, and_comm]
theorem length_blockPixels (bw bh : Nat) : (blockPixels bw bh).length = bw * bh := by
  simp [blockPixels, mul_comm]

theorem blockPixels_succ (bw bh : Nat) : blockPixels bw (bh + 1) = blockPixels bw bh ++ (List.range bw).map (fun dx => (dx, bh)) := by
  simp [blockPixels, List.range_succ]
theorem getElem?_blockPixels {bw bh dx dy : Nat} (hx : dx < bw) (hy : dy < bh) : (blockPixels bw bh)[dy * bw + dx]? = some (dx, dy) := by
  induction bh with
  | zero => exact absurd hy (Nat.not_lt_zero dy)
  | succ bh ih =>
    rw [blockPixels_succ]
    rcases Nat.lt_succ_iff_lt_or_eq.1 hy with hlt | rfl
    · have hin : dy * bw + dx < bw * bh := by nlinarith
      rw [List.getElem?_append_left (by rwa [length_blockPixels]), ih hlt]
    · rw [List.getElem?_append_right (by rw [length_blockPixels, mul_comm]; omega), length_blockPixels, mul_comm bw, Nat.add_sub_cancel_left]
      simp [hx]

/-! ### Fragments -/

section Fragment

variable (d : BitVec 512) (sh level : Nat) (p : Prim) (vs : List (Int × Int)) (bx y : Nat)

/-- The centre of a pixel of a block, in units of 1/256 pixel. -/
def pixelAt (dx dy : Nat) : Int × Int := (256 * ((dX0 d + bx + dx : Nat) : Int) + 128, 256 * ((dStrip d * sh + y + dy : Nat) : Int) + 128)

/-- Whether a pixel of a block is covered, at a depth that is no NaN. -/
def pixelOn (dx dy : Nat) : Bool :=
  covered vs (pixelAt d sh bx y dx dy).1 (pixelAt d sh bx y dx dy).2 && !(v32 (depthAt p vs (pixelAt d sh bx y dx dy).1 (pixelAt d sh bx y dx dy).2)).isNan

theorem pixelOn_iff (dx dy : Nat) : pixelOn d sh p vs bx y dx dy = true ↔
    covered vs (pixelAt d sh bx y dx dy).1 (pixelAt d sh bx y dx dy).2 = true ∧
      (v32 (depthAt p vs (pixelAt d sh bx y dx dy).1 (pixelAt d sh bx y dx dy).2)).isNan = false := by
  rw [pixelOn, Bool.and_eq_true, Bool.not_eq_true']

/-- The cover bits of a block. -/
def blockCover (bw bh : Nat) : Nat := maskOf ((blockPixels bw bh).map (fun q => pixelOn d sh p vs bx y q.1 q.2))

theorem fragOf_eq (g idx : Nat) : fragOf g d sh level idx p vs bx y =
    (let bw := (levelBlock level).1
     let bh := (levelBlock level).2
     let cx : Int := 256 * ((dX0 d + bx : Nat) : Int) + 128 * bw
     let cy : Int := 256 * ((dStrip d * sh + y : Nat) : Int) + 128 * bh
     if blockCover d sh p vs bx y bw bh = 0 then none
     else some { gid := g, x := bx, y := y, cover := blockCover d sh p vs bx y bw bh, level := level, l1 := weightAt vs 2 cx cy,
                 l2 := weightAt vs 0 cx cy, z := depthAt p vs cx cy, prim := idx,
                 depths := (blockPixels bw bh).map (fun q => depthAt p vs (pixelAt d sh bx y q.1 q.2).1 (pixelAt d sh bx y q.1 q.2).2) }) := by
  have hzip (xs : List (Nat × Nat)) : (xs.zip (xs.map (fun q => depthAt p vs (pixelAt d sh bx y q.1 q.2).1 (pixelAt d sh bx y q.1 q.2).2))).map
      (fun q => covered vs (pixelAt d sh bx y q.1.1 q.1.2).1 (pixelAt d sh bx y q.1.1 q.1.2).2 && !(fdec (fmtOf .f32) q.2).isNan) =
      xs.map (fun q => pixelOn d sh p vs bx y q.1 q.2) := by
    rw [← List.map_prod_left_eq_zip, List.map_map]
    rfl
  simp only [blockCover, ← hzip]
  rfl

theorem blockCover_eq_zero_iff (bw bh : Nat) : blockCover d sh p vs bx y bw bh = 0 ↔
    ∀ dx dy, dx < bw → dy < bh → pixelOn d sh p vs bx y dx dy = false := by
  simp only [blockCover, maskOf_eq_zero_iff, List.forall_mem_map, Prod.forall, mem_blockPixels, and_imp]

theorem testBit_blockCover {bw bh dx dy : Nat} (hx : dx < bw) (hy : dy < bh) :
    (blockCover d sh p vs bx y bw bh).testBit (dy * bw + dx) = pixelOn d sh p vs bx y dx dy := by
  rw [blockCover, testBit_maskOf, List.getElem?_map, getElem?_blockPixels hx hy]
  rfl

theorem blockCover_lt (bw bh : Nat) : blockCover d sh p vs bx y bw bh < 2 ^ (bw * bh) := by
  have h := maskOf_lt ((blockPixels bw bh).map (fun q => pixelOn d sh p vs bx y q.1 q.2))
  rwa [List.length_map, length_blockPixels] at h

end Fragment

theorem mem_tileFrags {s : State} {who : Who} {b : BinSet} {d : BitVec 512} {g level tx : Nat} {f : Frag} : f ∈ tileFrags s who b d g level tx ↔
    ∃ q ∈ stripPrims s who b (dStrip d), ∃ vs, Prim.kept q.2 = some vs ∧ ∃ i j, i < 32 / (levelBlock level).1 ∧ j < b.sh / (levelBlock level).2 ∧
      fragOf g d b.sh level q.1 q.2 vs (tx + (levelBlock level).1 * i) ((levelBlock level).2 * j) = some f := by
  rw [tileFrags, List.mem_flatMap]
  refine exists_congr fun q => and_congr_right fun _ => ?_
  cases Prim.kept q.2 with
  | none => simp
  | some vs =>
    simp only [List.mem_flatMap, List.mem_filterMap, List.mem_range, Option.some.injEq, exists_eq_left']
    exact ⟨fun ⟨j, hj, i, hi, h⟩ => ⟨i, j, hi, hj, h⟩, fun ⟨i, j, hi, hj, h⟩ => ⟨j, hj, i, hi, h⟩⟩

end Sys2Proof.Laws
end
section
/-! PROOF. Box and triangle tests of a ray, and coverage and fragments of a triangle (R331 to R333, R346, R348, R349). -/

namespace Sys2Proof.Laws

open Sys2Proof.Machine

/-- Settles O24. Sums, differences and products of numbers are exact, and `roundQ` rounds a quotient as R99 says (`rounds_roundQ`); so each clause
is a formula of the model read as rational arithmetic, with the cases of its tests read as an order of rationals. -/
theorem boxesTrianglesAndCoverage : Obligations.BoxesTrianglesAndCoverage := by
  unfold Obligations.BoxesTrianglesAndCoverage
  refine ⟨rounds_nodeBound, nodeBad_iff, fun o d lo hi ho hd hlo hhi => ⟨axisTest_beside ho hd hlo hhi, axisTest_across ho hd hlo hhi⟩, ?box, ?ends,
    ?axes, ?points, ?edges, ?triangle, ?coverage, ⟨rfl, rfl, rfl, rfl, rfl⟩, ?fragment, fun _ _ _ _ _ _ _ _ => mem_tileFrags⟩
  case box =>
    refine fun r n c => ⟨fun ⟨k, hk, h⟩ => boxTest_of_miss hk h, fun x y z hx hy hz => ?_⟩
    have hx : boxAxis r n c 0 = some x := hx
    have hy : boxAxis r n c 1 = some y := hy
    have hz : boxAxis r n c 2 = some z := hz
    simp only [boxTest_eq, hx, hy, hz, Option.bind_some]
  case ends =>
    intro x y hx hy
    obtain ⟨hm, hmx, hmy⟩ := maxf_spec hx hy
    exact ⟨hm, hmx, hmy, minf_spec hx hy⟩
  case axes =>
    intro d hd _
    have hd (k : Nat) (hk : k < 3) := isFin_iff.1 (hd k hk)
    obtain ⟨hlt, hle, hfirst⟩ := mainAxis_greatest hd
    simp only [triAxes_main]
    refine ⟨hlt, hle, hfirst, fun hpos => ?_, fun hneg => ?_⟩
    · simp [triAxes_of_pos (hd _ hlt) hpos]
    · simp [triAxes_of_neg (hd _ hlt) hneg]
  case points =>
    exact fun r p => ⟨fun k => roundsTo_triRel, fun hz h0 => ⟨roundsTo_inverse hz h0, fun k hk => roundsTo_triShear hk hz h0⟩, fun hz =>
      ⟨fun hx hs => roundsTo_sheared hx hs hz, fun hy hs => roundsTo_sheared hy hs hz, fun hs => roundsTo_scaled hs hz⟩⟩
  case edges =>
    refine fun a b c h => ⟨?_, triUvw_of_zero, triUvw_of_nonzero⟩
    rintro f (rfl | rfl)
    · exact triEdges_rounds ieee_f32 h
    · exact triEdges_rounds ieee_f64 h
  case triangle =>
    intro r vs
    obtain ⟨x, y, z, he⟩ := triUvw_three (triPoint r (vs 0)) (triPoint r (vs 1)) (triPoint r (vs 2))
    simp only [he]
    intro hn hp
    have hp : ∀ p ∈ [triPoint r (vs 0), triPoint r (vs 1), triPoint r (vs 2)], PointNumber p := fun p h => by
      obtain ⟨h1, h2, h3⟩ := hp p h
      exact ⟨⟨isFin_iff.1 h1, isFin_iff.1 h2⟩, isFin_iff.1 h3⟩
    obtain ⟨hmiss, hhit⟩ := triTest_number rfl rfl rfl he hn hp
    refine ⟨fun hcull => hmiss (.inl hcull), fun h0 h1 h2 => ⟨fun hin => hmiss (.inr hin), fun hin => ⟨_, hhit ?_ hin, hitAt_rounds hn hp h0⟩⟩⟩
    rintro (h | ⟨hc, h⟩ | ⟨hc, h⟩)
    · exact h0 h
    · exact h.not_gt (h1 hc)
    · exact h.not_gt (h2 hc)
  case coverage =>
    intro x0 y0 x1 y1 x2 y2 px py
    refine ⟨rfl, covered_iff [(x0, y0), (x1, y1), (x2, y2)] px py, fun h0 => ?_⟩
    have h0 : triArea [(x0, y0), (x1, y1), (x2, y2)] ≠ 0 := h0
    exact ⟨fun k _ => roundsTo_weightAt h0 k px py, fun p hp => roundsTo_depthAt h0 hp px py⟩
  case fragment =>
    intro g d sh level idx p vs bx y
    refine ⟨fun hoff => ?_, fun ⟨dx, dy, hx, hy, hon⟩ => ?_⟩
    · rw [fragOf_eq]
      exact if_pos ((blockCover_eq_zero_iff ..).2 fun dx dy hx hy => Bool.eq_false_iff.2 fun h => hoff dx dy hx hy ((pixelOn_iff ..).1 h))
    · have hcover : blockCover d sh p vs bx y (levelBlock level).1 (levelBlock level).2 ≠ 0 := fun h =>
        Bool.eq_false_iff.1 ((blockCover_eq_zero_iff ..).1 h dx dy hx hy) ((pixelOn_iff ..).2 hon)
      rw [fragOf_eq]
      refine ⟨_, if_neg hcover, rfl, rfl, rfl, rfl, rfl, rfl, fun dx dy hx hy => ?_, blockCover_lt .., rfl, rfl, rfl⟩
      rw [testBit_blockCover _ _ _ _ _ _ hx hy]
      exact pixelOn_iff ..

end Sys2Proof.Laws
end
